-- ==== Sys2Proof/Word.lean ====
section
/-! DEFINITION. The word types of the model and their plainest arithmetic: widths the manual treats as bits,
and little-endian conversion (spec/00_scope.md R7). -/

namespace Sys2Proof

abbrev Byte := BitVec 8
abbrev W16 := BitVec 16
abbrev W32 := BitVec 32
abbrev W64 := BitVec 64
/-- A 4,096-bit vector register (06 R157). -/
abbrev VReg := BitVec 4096
/-- A 1,024-bit mask register (06 R157). -/
abbrev MReg := BitVec 1024

/-- A sparse table: keys strictly rising, absent keys hold the table's default. -/
abbrev KMap (α : Type) := List (Nat × α)

end Sys2Proof
end

