-- ==== Sys2Proof/Syntax.lean ====
section
/-! DEFINITION. The commands of the block: one constructor of `Instr` per row of spec/opcode_table.json, with the
row's operands. A command is an event at the block's boundary, a step of one of its engines, or an instruction its
cluster sequencers execute (spec/95_what_each_step_holds.md: each is whole and indivisible). What only the world
outside decides (bytes read from host memory, a sensor's reading, a faulty result) is an operand. -/

namespace Sys2Proof

/-- Physical cluster index p (01 R21). -/
abbrev PClu := Fin 2304
/-- Logical cluster number n (01 R22). -/
abbrev LClu := Fin 2048
abbrev Tile := Fin 8
/-- Stack number s (01 R24). -/
abbrev StackNo := Fin 32
/-- Receipt slot (00 R13). -/
abbrev Slot := Fin 131072
/-- Courier number c (01 R25). -/
abbrev CourierNo := Fin 320
abbrev PortNo := Fin 12
abbrev WatchNo := Fin 16
abbrev GroupNo := Fin 256
/-- Master ID 0x00 to 0x3F (17 R444). -/
abbrev Master := BitVec 6

/-- Registers of a scalar instruction of class 0x0 (06 R161). -/
structure Scal where
  sd : BitVec 5
  sa : BitVec 5
  sb : BitVec 5
  deriving DecidableEq, Repr

/-- Fields of a scalar immediate instruction, class 0x1. -/
structure ScalImm where
  sd : BitVec 5
  sa : BitVec 5
  imm : BitVec 14
  deriving DecidableEq, Repr

/-- Fields of a scalar memory instruction, class 0x2: `sd` is the destination of a load, the source of a store. -/
structure ScalMem where
  sd : BitVec 5
  sa : BitVec 5
  off : BitVec 15
  deriving DecidableEq, Repr

/-- Fields of a branch, class 0x3. -/
structure Bran where
  sa : BitVec 5
  sb : BitVec 5
  off : BitVec 15
  deriving DecidableEq, Repr

/-- Fields of VMVS and VMSV, class 0x5. -/
structure ElemMove where
  sr : BitVec 5
  vr : BitVec 5
  fmt : BitVec 4
  idx : BitVec 11
  deriving DecidableEq, Repr

/-- Register and mask fields that every vector class shares (06 R161). -/
structure VRegs where
  vd : BitVec 5
  vs1 : BitVec 5
  vs2 : BitVec 5
  msk : Bool
  vm : BitVec 3
  deriving DecidableEq, Repr

/-- Elementwise and widening instructions, classes 0x6 and 0x7: registers, RM and SRC. -/
structure VArith where
  r : VRegs
  rm : BitVec 2
  src : BitVec 2
  deriving DecidableEq, Repr

/-- VCVT, class 0x8. -/
structure VConv where
  r : VRegs
  fmtD : BitVec 4
  rm : BitVec 2
  cap : Bool
  scale : Bool
  deriving DecidableEq, Repr

/-- Reductions, class 0x9: FMT_D and the low bit (ACC_WIDE or SAMPLE). -/
structure VRed where
  r : VRegs
  fmtD : BitVec 4
  low : Bool
  deriving DecidableEq, Repr

/-- VLD and VST, class 0xB. -/
structure VMem where
  r : VRegs
  strided : Bool
  deriving DecidableEq, Repr

/-- Window instructions, class 0xD: FN bits [5:0] hold H, PAIR or PROD. -/
structure VWin where
  r : VRegs
  low : BitVec 6
  deriving DecidableEq, Repr

/-- The registers of a loss watch that discard held posts when written (10 R286). -/
inductive LwReg where
  | cfg | window | openStep
  deriving DecidableEq, Repr

/-- The two shadow registers of a statistics slot (07 R201). -/
inductive QsReg where
  | scale | cfg
  deriving DecidableEq, Repr

/-- The unit a datapath parity error occurs in (19 R482). -/
inductive ParityUnit where
  | tensorArray (n : LClu) (parcel : Nat)
  | inspector (n : LClu) (parcel : Nat)
  | vectorEngine (p : PClu)
  | scalarSequencer (p : PClu)
  | windowAccumulator (p : PClu)
  | tileSequencer (t : Tile) (p : PClu)
  | stackEngine (s : StackNo)
  /-- A path that carries sealed data: `again` says the repetition failed too, `m` is the master whose access it is. -/
  | path (unit : Byte) (m : Master) (again : Bool)
  | control
  deriving DecidableEq, Repr

/-- What a faulty array or inspector produced for one output parcel; an empty list stands for the right bytes. -/
structure BadResult where
  parcel : Nat
  orig : List Byte
  lines : List Byte
  deriving DecidableEq, Repr

/-- One answer of host memory to a read: the address, and the bytes or a failed completion. -/
structure HostRead where
  addr : W64
  data : Option (List Byte)
  deriving DecidableEq, Repr

/-- The 64-byte job packet header (14 R357). -/
structure Header where
  kind : Byte
  dim : BitVec 2
  turn : Bool
  dateline : Bool
  ttl : Byte
  status : Byte
  dst : W16
  src : W16
  addr : W64
  tag : W32
  length : W16
  orig : Byte
  check : W32
  imgTag : W32
  /-- true when a reserved header field is non-zero -/
  rsv : Bool
  deriving DecidableEq, Repr

/-- A control flit as a port's receiver has it: its 272 bytes, and whether its FEC codeword was uncorrectable (14 R351,
R353). -/
structure FlitIn where
  bytes : List Byte
  fecBad : Bool
  deriving DecidableEq, Repr

/-- The link fields of the flits that bring a packet (14 R351): the port, the SEQ of its first flit, the ACK, the credits
returned by VC, and the place of the first flit whose LCRC or FEC codeword fails. -/
structure LinkIn where
  port : PortNo
  seq : W16
  ack : W16
  credits : List (BitVec 4 × Byte)
  bad : Option Nat
  deriving DecidableEq, Repr

/-- A packet: its header and its data bytes (14 R356), and the link fields it arrives with; with none, its flits came
whole, in order and with nothing to acknowledge. -/
structure Packet where
  h : Header
  data : List Byte
  link : Option LinkIn := none
  deriving DecidableEq, Repr

/-- DISCOVER fields (14 R362). -/
structure Discover where
  serial : W64
  port : Byte
  lpv : Byte
  stage : Byte
  spare : Bool
  imageLoaded : Bool
  frameSaved : Bool
  placed : Bool
  chip : W16
  frame : W64
  digest : List Byte
  /-- true when a reserved field is non-zero -/
  rsv : Bool := false
  deriving DecidableEq, Repr

/-- A forwarding entry (14 R375, R382): failed chip, spare chip, announcement sequence. -/
structure FwdEntry where
  failed : W16
  spare : W16
  seq : W16
  deriving DecidableEq, Repr

/-- One port pairing of a roster: own port, neighbour serial, neighbour port. -/
structure Pairing where
  port : Nat
  serial : W64
  nport : Nat
  deriving DecidableEq, Repr

/-- A ROSTER (14 R367): serial, FRAME, saved coordinates, pairings and forwarding entries. -/
structure Roster where
  origin : W64
  seq : W16
  frame : W64
  coord : Option (Nat × Nat × Nat)
  pairs : List Pairing
  fwd : List FwdEntry
  rsv : Bool := false
  deriving DecidableEq, Repr

/-- LINK_STATE (14 R373): the module where a change occurred, which of its directions are usable for job traffic, and which
carry time (R378). -/
structure LinkState where
  origin : W16
  seq : W16
  usable : List Bool
  timed : List Bool
  rsv : Bool := false
  deriving DecidableEq, Repr

/-- FWD_ADDR (14 R375, R377): announcement of an entry, or of its removal. -/
structure FwdAddr where
  entry : FwdEntry
  remove : Bool
  rsv : Bool := false
  deriving DecidableEq, Repr

/-- A BROADCAST packet (18 R462): the head fields and the fragment bytes. -/
structure Bcast where
  origin : W16
  seq : W16
  bkind : Byte
  force : Bool
  id : W32
  offset : W32
  total : W32
  fcheck : W32
  digest : List Byte
  frag : List Byte
  rsv : Bool := false
  deriving DecidableEq, Repr

/-- How a port's training ended (14 R350, R363): the good lanes, whether there is a signal, whether the saved settings were
used, and the equaliser settings found otherwise. -/
structure Training where
  lanes : Byte
  signal : Bool
  saved : Bool
  eq : W64 := 0
  deriving DecidableEq, Repr

/-- What the training of a stack finds (18 R460): whether it trains at all, whether the check of its saved record matches, the
device identity it reports, and whether a write-and-read pattern passes on every channel with the saved settings. -/
structure StackTraining where
  ok : Bool
  sound : Bool
  identity : W64
  pattern : Bool
  deriving DecidableEq, Repr

/-- New symbol errors that a DRAM codeword shows: codeword index k of the parcel, symbol, exclusive-or mask. -/
structure SymErr where
  parcel : Nat
  cw : Nat
  sym : Nat
  mask : Byte
  deriving DecidableEq, Repr

/-- What one power interval's sensors and regulators report (21 R526, R535). Energies in mJ. -/
structure PowerSample where
  energy : Nat
  drawn : List Nat
  waited : List Nat
  ranShort : List Bool
  temps : List Int
  deriving DecidableEq, Repr

/-- A collective join record (15 R391). -/
structure JoinRec where
  comm : W32
  seq : W32
  rank : W32
  kind : Byte
  redop : Byte
  formats : Byte
  count : W32
  members : W32
  vranks : Byte
  root : W32
  listCrc : W32
  deriving DecidableEq, Repr

/-- A pattern-pack outcome of one cluster: whether the tests passed at once, and how many of three repeats agreed. -/
structure PackOutcome where
  p : PClu
  passed : Bool
  equalRuns : Nat
  deriving DecidableEq, Repr

/-- Beat rates of a 1 µs window, which supply and temperature decide (02 R47, R48). -/
structure BeatWindow where
  minRate : W16
  meanRate : W16
  deriving DecidableEq, Repr

/-- The commands. Rows of one family stand together, in the table's order. -/
inductive Instr where
  -- registers (00, 02, 16, 18)
  | registerWrite (m : Master) (off : Nat) (data : List Byte)
  | splitLoRead (m : Master) (off : Nat)
  | receiptRead (m : Master)
  | earlyAccess (m : Master) (addr : W64) (write : Bool)
  | forwardingFlip (t : Tile) (m : Master)
  | rowSwap (t : Tile) (m : Master) (v : W32)
  | rowMoveComplete (t : Tile)
  | suspend (p : PClu) (m : Master)
  | teAbort (p : PClu) (m : Master)
  | waBaseWrite (p : PClu) (m : Master) (v : W32)
  | qsCollect (t : Tile) (m : Master) (v : W32)
  | qsClose (t : Tile) (q : GroupNo) (m : Master) (v : W32)
  | qsCloseComplete (q : GroupNo)
  | qsFlip (t : Tile) (q : GroupNo) (m : Master)
  | qsShadowWrite (t : Tile) (q : GroupNo) (m : Master) (r : QsReg) (v : W32)
  | solveAbort (t : Tile) (m : Master) (v : W32)
  | seAbort (s : StackNo) (m : Master)
  | lwConfigWrite (t : Tile) (w : WatchNo) (m : Master) (r : LwReg) (v : W32)
  | courierResume (c : CourierNo) (m : Master) (v : W32)
  | courierAbort (c : CourierNo) (m : Master) (v : W32)
  | courierReset (c : CourierNo) (m : Master) (v : W32)
  | courierBindWrite (c : CourierNo) (m : Master) (v : W32)
  | portRetrain (n : PortNo) (m : Master) (v : W32)
  | portHold (n : PortNo) (m : Master) (v : W32)
  | routeFlip (m : Master)
  | takeover (m : Master) (v : W32)
  | takeoverClear (m : Master) (v : W32)
  | apertureApply (m : Master)
  | slotRelease (m : Master) (v : W32)
  | mirrorResync (m : Master)
  | streamClear (m : Master)
  | letterboxConfig (k : GroupNo) (m : Master) (v : W32)
  | noticeHeadWrite (m : Master) (v : W32)
  | imageLoad (m : Master) (v : W32) (host : Option (List Byte))
  | imageFlip
  | moduleReset (m : Master)
  | computeReset (m : Master)
  | computeResetDone
  | broadcastStart (m : Master) (v : W32) (host : Option (List Byte))
  | loadHeld (m : Master)
  | quiesce (t : Tile) (m : Master) (v : W32)
  | release (t : Tile) (m : Master) (v : W32)
  | clusterReset (t : Tile) (m : Master) (v : W32)
  | sleep (t : Tile) (m : Master) (v : W32)
  | wake (t : Tile) (m : Master) (v : W32)
  | wakeComplete (n : LClu)
  | idleTimeout (n : LClu)
  | packLoad (m : Master) (v : W32) (host : Option (List Byte))
  | packRun (m : Master) (v : W32)
  | packRunDone (out : List PackOutcome)
  | powerCapWrite (m : Master) (v : W32)
  -- letterboxes, streams and the ledger (16)
  | collectionVisit (k : GroupNo) (entries : List (List Byte))
  | letterboxReadTimeout (k : GroupNo)
  | operationIssue (slot : Slot)
  | sync (slot : Slot)
  | notifyVector (k : GroupNo)
  -- tensor engine and inspection (05, 19)
  | tensorDescriptor (slot : Slot)
  | gemmStart (n : LClu)
  | teBandDone (n : LClu) (bad : List BadResult)
  | inspectorRecompute (n : LClu) (bytes : List Byte)
  | inspectorRecheck (n : LClu) (lines : List Byte)
  | repeatTestStart (p : PClu)
  | repeatTestDone (p : PClu) (equalRuns : Fin 4)
  | transientWindow
  | parityError (u : ParityUnit)
  -- cluster programs (06)
  | programStart (n : LClu)
  | sequencerWaitEnd (p : PClu)
  | add (p : PClu) (a : Scal)
  | sub (p : PClu) (a : Scal)
  | mul (p : PClu) (a : Scal)
  | mulh (p : PClu) (a : Scal)
  | mulhu (p : PClu) (a : Scal)
  | and (p : PClu) (a : Scal)
  | or (p : PClu) (a : Scal)
  | xor (p : PClu) (a : Scal)
  | shl (p : PClu) (a : Scal)
  | shr (p : PClu) (a : Scal)
  | sra (p : PClu) (a : Scal)
  | min (p : PClu) (a : Scal)
  | max (p : PClu) (a : Scal)
  | slt (p : PClu) (a : Scal)
  | sltu (p : PClu) (a : Scal)
  | addi (p : PClu) (a : ScalImm)
  | andi (p : PClu) (a : ScalImm)
  | ori (p : PClu) (a : ScalImm)
  | xori (p : PClu) (a : ScalImm)
  | shli (p : PClu) (a : ScalImm)
  | shri (p : PClu) (a : ScalImm)
  | srai (p : PClu) (a : ScalImm)
  | slti (p : PClu) (a : ScalImm)
  | shin (p : PClu) (a : ScalImm)
  | ld8 (p : PClu) (a : ScalMem)
  | ld16 (p : PClu) (a : ScalMem)
  | ld32 (p : PClu) (a : ScalMem)
  | ld64 (p : PClu) (a : ScalMem)
  | st8 (p : PClu) (a : ScalMem)
  | st16 (p : PClu) (a : ScalMem)
  | st32 (p : PClu) (a : ScalMem)
  | st64 (p : PClu) (a : ScalMem)
  | beq (p : PClu) (a : Bran)
  | bne (p : PClu) (a : Bran)
  | blt (p : PClu) (a : Bran)
  | bge (p : PClu) (a : Bran)
  | bltu (p : PClu) (a : Bran)
  | bgeu (p : PClu) (a : Bran)
  | jal (p : PClu) (a : Bran)
  | jalr (p : PClu) (a : Bran)
  | csrr (p : PClu) (sd : BitVec 5) (csr : BitVec 12)
  | csrw (p : PClu) (sa : BitVec 5) (csr : BitVec 12)
  | halt (p : PClu)
  | eret (p : PClu)
  | fence (p : PClu)
  | teissue (p : PClu) (sa : BitVec 5)
  | tewait (p : PClu)
  | count (p : PClu) (sa : BitVec 5)
  | loss (p : PClu) (vr : BitVec 5) (sa : BitVec 5)
  | time (p : PClu) (sd : BitVec 5)
  | shape (p : PClu) (sd : BitVec 5) (sa : BitVec 5) (fmt : BitVec 4)
  | vmvs (p : PClu) (a : ElemMove)
  | vmsv (p : PClu) (a : ElemMove)
  | vadd (p : PClu) (a : VArith)
  | vsub (p : PClu) (a : VArith)
  | vmul (p : PClu) (a : VArith)
  | vfma (p : PClu) (a : VArith)
  | vfms (p : PClu) (a : VArith)
  | vdiv (p : PClu) (a : VArith)
  | vsqrt (p : PClu) (a : VArith)
  | vmin (p : PClu) (a : VArith)
  | vmax (p : PClu) (a : VArith)
  | vabs (p : PClu) (a : VArith)
  | vneg (p : PClu) (a : VArith)
  | vcopysign (p : PClu) (a : VArith)
  | vmov (p : PClu) (a : VArith)
  | vand (p : PClu) (a : VArith)
  | vor (p : PClu) (a : VArith)
  | vxor (p : PClu) (a : VArith)
  | vwmul (p : PClu) (a : VArith)
  | vwfma (p : PClu) (a : VArith)
  | vdotw (p : PClu) (a : VArith)
  | vcvt (p : PClu) (a : VConv)
  | redinit (p : PClu) (a : VRed)
  | redaccSum (p : PClu) (a : VRed)
  | redaccSumsq (p : PClu) (a : VRed)
  | redaccDot (p : PClu) (a : VRed)
  | redfin (p : PClu) (a : VRed)
  | redfold (p : PClu) (a : VRed)
  | redmax (p : PClu) (a : VRed)
  | redmin (p : PClu) (a : VRed)
  | redamax (p : PClu) (a : VRed)
  | mvinit (p : PClu) (a : VRed)
  | mvacc (p : PClu) (a : VRed)
  | mvfin (p : PClu) (a : VRed)
  | vcmpEq (p : PClu) (r : VRegs)
  | vcmpNe (p : PClu) (r : VRegs)
  | vcmpLt (p : PClu) (r : VRegs)
  | vcmpLe (p : PClu) (r : VRegs)
  | vcmpUn (p : PClu) (r : VRegs)
  | mand (p : PClu) (r : VRegs)
  | mor (p : PClu) (r : VRegs)
  | mxor (p : PClu) (r : VRegs)
  | mandn (p : PClu) (r : VRegs)
  | mfirst (p : PClu) (r : VRegs)
  | mpop (p : PClu) (r : VRegs)
  | mset (p : PClu) (r : VRegs)
  | vld (p : PClu) (a : VMem)
  | vst (p : PClu) (a : VMem)
  | vgather (p : PClu) (r : VRegs)
  | vscatter (p : PClu) (r : VRegs)
  | wacc (p : PClu) (a : VWin)
  | wacc1 (p : PClu) (a : VWin)
  | wrd (p : PClu) (a : VWin)
  | wclr (p : PClu) (a : VWin)
  | wbound (p : PClu) (a : VWin)
  | wbase (p : PClu) (a : VWin)
  | wsave (p : PClu) (a : VWin)
  | wload (p : PClu) (a : VWin)
  -- solver groups (08, 09): `k` is how many of the solve's stages are completed by the command
  | solveRequest (slot : Slot)
  | assembleOnly (g : GroupNo) (k : Nat)
  | luSolve (g : GroupNo) (k : Nat)
  | choleskySolve (g : GroupNo) (k : Nat)
  | qrSolve (g : GroupNo) (k : Nat)
  | cgSolve (g : GroupNo) (k : Nat)
  | bicgstabSolve (g : GroupNo) (k : Nat)
  | gmresSolve (g : GroupNo) (k : Nat)
  | qpSolve (g : GroupNo) (k : Nat)
  | gaussNewtonSolve (g : GroupNo) (k : Nat)
  | adjointSolve (g : GroupNo) (k : Nat)
  | tangentSolve (g : GroupNo) (k : Nat)
  | residualProgramEnd (g : GroupNo)
  | solveDeadlineExpiry (g : GroupNo)
  -- stack engines and loss watches (10): `k` is how many groups, parcels or deliveries are completed
  | seDescriptor (slot : Slot)
  | update (t : Tile) (k : Nat)
  | reduce (t : Tile) (k : Nat)
  | gather (t : Tile) (k : Nat)
  | drop (t : Tile)
  | verify (t : Tile) (k : Nat)
  | gateWaitTimeout (t : Tile)
  | lossPost
  | lossWindowEnd (w : WatchNo)
  -- collectives (15)
  | allReduce (slot : Slot) (k : Nat)
  | reduceScatter (slot : Slot) (k : Nat)
  | allGather (slot : Slot) (k : Nat)
  | collectiveBroadcast (slot : Slot) (k : Nat)
  | collectiveReduce (slot : Slot) (k : Nat)
  | joinRecord (r : JoinRec)
  | joinResend (slot : Slot)
  | readDoneReport (comm : W32) (seq : W32) (rank : W32)
  | abortNotice (comm : W32) (seq : W32) (rank : W32) (status : Byte)
  | collectiveDeadline (slot : Slot)
  -- couriers (13)
  | roundRequest (slot : Slot)
  | roundStart (c : CourierNo)
  | move (c : CourierNo) (k : Nat) (host : List HostRead)
  | loop (c : CourierNo)
  | wait (c : CourierNo)
  | waitPoll (c : CourierNo)
  | waitMet (c : CourierNo)
  | waitTimeout (c : CourierNo)
  | signal (c : CourierNo)
  | courierHalt (c : CourierNo)
  -- host link (16, 22)
  | apertureRead (off : Nat) (len : Nat)
  | apertureWrite (off : Nat) (data : List Byte)
  | ideKm (link : Option Bool) (sel : Option Bool)
  | linkLoss
  | linkUp (gen : BitVec 4) (width : BitVec 5)
  | perstN (low : Bool)
  | functionLevelReset
  -- fabric (14)
  | read (pkt : Packet)
  | write (pkt : Packet)
  | readData (pkt : Packet)
  | writeAck (pkt : Packet)
  | nack (pkt : Packet)
  | packetForward (inPort : Option PortNo) (pkt : Packet)
  | remoteRequestTimeout (tag : Nat)
  | discover (n : PortNo) (d : Discover)
  | roster (n : PortNo) (r : Roster)
  | discoveryQuiet
  | linkState (n : PortNo) (l : LinkState)
  | fwdAddr (n : PortNo) (f : FwdAddr)
  | routeRebuild
  | broadcast (n : PortNo) (b : Bcast)
  | timeSyncSend
  | timeSync (n : PortNo) (t1 : Int) (t2 : Int) (t3 : Int)
  | timeReply (n : PortNo) (t1 : Int) (t2 : Int) (t3 : Int) (t4 : Int)
  | retryReq (n : PortNo) (flit : FlitIn)
  | blockLockLost (n : PortNo)
  | fecWindowEnd (n : PortNo) (corr : Nat) (uncorr : Nat)
  | ackTimeout (n : PortNo)
  | portTrained (n : PortNo) (tr : Training)
  | frefLost
  | frefReturn
  -- stacked memory (12)
  | scrubStep (s : StackNo) (errs : List SymErr)
  | remapService (s : StackNo)
  | memTempSample (s : StackNo) (base : Int) (dram : Int)
  -- power (21)
  | powerInterval (x : PowerSample)
  | peakWindowClose
  | minuteClose
  | forecastRecompute
  | beatWindowUpdate (t : Tile) (w : BeatWindow)
  -- firmware, bring-up and attestation (18, 20, 22)
  | sorterHeartbeatTimeout
  | powerOn
  | powerOff
  | resetNFall
  | resetNRise
  | rimClocksRun
  | postmasterStart
  | floorPlanBuild
  | stackTrainingDone (out : List StackTraining)
  | attPrepared
  | attCeilingWritten
  | getReport (nonce : List Byte)
  | getCert
  | getSigState
  | calRead (off : W32)
  | calArm (waive : Bool)
  | calWrite (off : W32) (data : List Byte)
  | calCommit (compl : W32) (digest : List Byte)
  | calCancel
  | calArmExpiry
  | fieldRemapCopied
  | trainingSettingsSaved
  deriving DecidableEq, Repr

end Sys2Proof
end

