-- ==== Sys2Proof/Config.lean ====
section
/-! DEFINITION. What an implementation fixes and the specification does not give: fuses, ROM, keys, factory flash
contents, and the free values. Each is a constant with no body, so nothing can be proved of its value. -/

namespace Sys2Proof.Config

/-- Variant code of ID_PART less one: 0 = TLS1-6K0, 1 = TLS1-4K5, 2 = TLS1-3K6 (00 R1, 18 R458). -/
opaque variant : Fin 3
/-- Factory holes in fuses, by physical index (01 R28). -/
opaque factoryHole : Nat → Bool
/-- Whether the fuse array can be read at S2 (18 R455). -/
opaque fusesReadable : Bool
/-- Whether the field remap record in flash passes its check at bring-up n: the spec gives no layout of it (18 R455). -/
opaque remapSound : Nat → Bool
/-- The address straps that the board sets (22 R541). -/
opaque straps : Fin 8
/-- Module serial number. -/
opaque serial : W64
/-- Casgil's assigned Device ID and Vendor ID (16 R401). -/
opaque pciId : W32
/-- ROM contents (20 R516) and the two key digests it holds (20 R508). -/
opaque romContents : List Byte
opaque firmwareKeyDigest : List Byte
opaque packKeyDigest : List Byte
/-- XMSS-SHAKE256_20_256 verification of NIST SP 800-208: public key, message, signature (20 R507). -/
opaque xmssVerify : List Byte → List Byte → List Byte → Bool
/-- Version of a Postmaster stage, and whether its own header is sound: 20 R508 to R511 give no layout of it. -/
opaque stageVersion : List Byte → Nat
opaque stageHeaderOk : List Byte → Bool
/-- XMSS^MT signature of the device key at an index (20 R512). -/
opaque xmssMtSign : Nat → List Byte → List Byte
/-- Attestation public key, Casgil's public key and its signature over the certificate (20 R515). -/
opaque attestationKey : List Byte
opaque casgilKey : List Byte
opaque certSignature : List Byte
/-- What the factory wrote to module flash. -/
opaque factoryCal : List Byte
opaque factoryStage : List Byte
opaque factoryBundle : List Byte
opaque factoryFloor : Nat
/-- Pattern pack 0, built into Postmaster's signed stage (19 R496). -/
opaque builtInPack : List Byte
/-- The rail hash of SRC, DST and TAG, which 14 R371 names and does not give. -/
opaque railHash : Nat → Nat → Nat → Nat
/-- Challenge of the n-th calibration arm (20 R518). -/
opaque challenge : Nat → W32
/-- Order of a Gauss–Newton problem, a function of the request and its extension block: 09 R236 to R239 name no field
that holds it. -/
opaque gnOrder : List Byte → List Byte → Nat
/-- Exponent of the scale of a row or column that holds a non-finite entry (08 R223 states none). -/
opaque scaleExp : List Nat → Int
/-- A Householder reflector of a column in a working format, from the column and its sum of squares: coefficient, diagonal
entry and the entries below (08 R225 does not give the arithmetic). -/
opaque householder : Nat → List Nat → Nat → Nat × Nat × List Nat
/-- Coefficients that a block of reflectors applies to a column, from the reflectors, their coefficients and their inner
products with the column (08 R225). -/
opaque reflect : Nat → List (List Nat) → List Nat → List Nat → List Nat
/-- Forming a Givens rotation (c, s, r) and applying one, in f64 (09 R244 does not give the arithmetic). -/
opaque givensForm : Nat → Nat → Nat × Nat × Nat
opaque givensApply : Nat → Nat → Nat → Nat → Nat × Nat
/-- The norm that R231's test takes for JᵀJ, from J: 09 R247 names none. -/
opaque gnNorm : List (List Nat) → Nat
/-- Which of a tile's four stack engines takes a piece of an operation's work (tile, OP_ID, piece), below 4 after
reduction: 10 R266 to R294 do not say. -/
opaque engineOf : Nat → Nat → Nat → Nat
/-- Where another member of a collective keeps its IN (false) or OUT (true), as an index of a parcel of its HBM: by the
request here and the member's rank. No join record carries it (15 R391). -/
opaque memberRegion : Bool → List Byte → Nat → Nat
/-- Microcode ids other than 0 present in the signed firmware: of the stack engines (true) or the tile sequencers
(17 R430). -/
opaque microcodePresent : Bool → Nat → Bool
/-- The upper half of the f64 pair that a bitwise instruction broadcasts from a 64-bit scalar, and the count that COUNT
takes from an operand beyond 32 bits: functions of the scalar, as 02 R65 asks. -/
opaque pairHigh : W64 → W64
opaque countOf : W64 → W32
/-- The error sum that a negative addend takes below zero, by the sum before and the addend (07 R197). -/
opaque errSumBelow : Nat → Int → Nat
/-- Which member of a solver group posts a piece of a solve's arithmetic (request, piece), and a word of a parcel whose
contents 08 and 09 leave open (request, what the solve works on, index). -/
opaque memberOf : List Byte → Nat → Nat
opaque openWord : List Byte → List Nat → Nat → W64
/-- A free value: nothing constrains it. -/
opaque freeValue : Nat → W64

end Sys2Proof.Config
end

