-- ==== Sys2Proof/Machine/Bytes.lean ====
section
/-! DEFINITION. Byte order, bit fields, sparse tables, CRC-32C (spec/19 R478) and SHAKE256 (FIPS 202, cited by
spec/08 R220, spec/17 R435 and spec/20 R507). -/

namespace Sys2Proof.Machine

/-! ## Sparse tables -/

def kfind {α : Type} (t : KMap α) (k : Nat) : Option α := (t.find? (fun e => e.1 == k)).map Prod.snd

/-- The value at key `k`, `d` where the table lists none. -/
def kget {α : Type} (d : α) (t : KMap α) (k : Nat) : α := (kfind t k).getD d

def kdel {α : Type} (t : KMap α) (k : Nat) : KMap α := t.filter (fun e => e.1 != k)

/-- Inserts an entry before the first larger key. -/
def kins {α : Type} (t : KMap α) (k : Nat) (v : α) : KMap α :=
  match t with
  | [] => [(k, v)]
  | e :: r => if k < e.1 then (k, v) :: e :: r else e :: kins r k v

/-- Inserts or replaces, for a table whose absent keys mean "none". -/
def kput {α : Type} (t : KMap α) (k : Nat) (v : α) : KMap α := kins (kdel t k) k v

/-- Puts `v` at key `k`; the default is not listed, so that equal tables are equal lists. -/
def kset {α : Type} [DecidableEq α] (d : α) (t : KMap α) (k : Nat) (v : α) : KMap α :=
  if v = d then kdel t k else kput t k v

/-- Canonical form of a table whose absent keys mean "none": keys strictly rising. -/
abbrev KSorted {α : Type} (t : KMap α) : Prop := t.Pairwise (fun a b => a.1 < b.1)

/-- Canonical form of a table with a default: keys strictly rising and the default not listed. -/
abbrev KCanon {α : Type} (d : α) (t : KMap α) : Prop := KSorted t ∧ ∀ e ∈ t, e.2 ≠ d

/-! ## Bytes and bit fields -/

/-- Little-endian value of a byte string (00 R7). -/
def natOfBytes (l : List Byte) : Nat :=
  match l with
  | [] => 0
  | b :: t => b.toNat + 256 * natOfBytes t

/-- Little-endian byte string of length `len`. -/
def bytesOfNat (len : Nat) (n : Nat) : List Byte :=
  match len with
  | 0 => []
  | k + 1 => BitVec.ofNat 8 n :: bytesOfNat k (n / 256)

/-- Bits [lo + n − 1 : lo] of `v`. -/
def field (v lo n : Nat) : Nat := v / 2 ^ lo % 2 ^ n

/-- `v` with bits [lo + n − 1 : lo] replaced by `x`. -/
def putField (v lo n x : Nat) : Nat :=
  v - field v lo n * 2 ^ lo + (x % 2 ^ n) * 2 ^ lo

/-- Two's-complement value of the low `n` bits. -/
def signedOf (n v : Nat) : Int :=
  let u := v % 2 ^ n
  if 2 ^ (n - 1) ≤ u then (u : Int) - 2 ^ n else u

/-- Low `n` bits of an integer in two's complement. -/
def unsignedOf (n : Nat) (i : Int) : Nat := (i % 2 ^ n).toNat

def bytesAt (l : List Byte) (off len : Nat) : List Byte := (l.drop off).take len

/-- Little-endian field of `len` bytes at `off` in a byte string. -/
def leAt (l : List Byte) (off len : Nat) : Nat := natOfBytes (bytesAt l off len)

def zeroBytes (n : Nat) : List Byte := List.replicate n 0

def allZero (l : List Byte) : Bool := l.all (fun b => b == 0)

/-- `l` with `x` laid over it from `off`. -/
def overlay (l : List Byte) (off : Nat) (x : List Byte) : List Byte :=
  l.take off ++ x ++ l.drop (off + x.length)

/-- Cuts a list into pieces of `n`; `fuel` bounds the pieces. -/
def chunkAux {α : Type} (fuel n : Nat) (l : List α) : List (List α) :=
  match fuel with
  | 0 => []
  | k + 1 => match l with
    | [] => []
    | _ => l.take n :: chunkAux k n (l.drop n)

def chunks {α : Type} (n : Nat) (l : List α) : List (List α) := chunkAux l.length n l

def asciiBytes (s : String) : List Byte := s.toList.map (fun c => BitVec.ofNat 8 c.toNat)

/-- Element `k` of a packed sequence of `w`-bit elements (03 R70); wider elements are little-endian. -/
def packedAt (bits w k : Nat) : Nat := field bits (w * k) w

/-- Packs elements of `w` bits into one little-endian bit string (03 R70). -/
def packElems (w : Nat) (l : List Nat) : Nat :=
  match l with
  | [] => 0
  | a :: t => a % 2 ^ w + 2 ^ w * packElems w t

def unpackElems (w n bits : Nat) : List Nat :=
  match n with
  | 0 => []
  | k + 1 => bits % 2 ^ w :: unpackElems w k (bits / 2 ^ w)

/-! ## CRC-32C -/

/-- Eight shifts of the reflected polynomial 0x82F6_3B78 (0x1EDC_6F41 reflected, 19 R478). -/
def crcBits (k : Nat) (c : Nat) : Nat :=
  match k with
  | 0 => c
  | k + 1 => crcBits k (if c % 2 == 1 then (c / 2) ^^^ 0x82F63B78 else c / 2)

def crcStep (c : Nat) (l : List Byte) : Nat :=
  match l with
  | [] => c
  | b :: t => crcStep (crcBits 8 (c ^^^ b.toNat)) t

/-- CRC-32C of a byte string: initial value and final exclusive-or 0xFFFF_FFFF (19 R478). -/
def crc32c (l : List Byte) : Nat := crcStep 0xFFFFFFFF l ^^^ 0xFFFFFFFF

/-! ## SHAKE256 -/

def keccakRotations : List Nat :=
  [0, 1, 62, 28, 27, 36, 44, 6, 55, 20, 3, 10, 43, 25, 39, 41, 45, 15, 21, 8, 18, 2, 61, 56, 14]

def keccakRounds : List W64 :=
  [0x0000000000000001, 0x0000000000008082, 0x800000000000808A, 0x8000000080008000, 0x000000000000808B,
   0x0000000080000001, 0x8000000080008081, 0x8000000000008009] ++
  [0x000000000000008A, 0x0000000000000088, 0x0000000080008009, 0x000000008000000A, 0x000000008000808B,
   0x800000000000008B, 0x8000000000008089, 0x8000000000008003] ++
  [0x8000000000008002, 0x8000000000000080, 0x000000000000800A, 0x800000008000000A, 0x8000000080008081,
   0x8000000000008080, 0x0000000080000001, 0x8000000080008008]

def laneAt (a : List W64) (x y : Nat) : W64 := a.getD (x % 5 + 5 * (y % 5)) 0

/-- One round of Keccak-f[1600]: theta, rho and pi, chi, iota. -/
def keccakRound (a : List W64) (rc : W64) : List W64 :=
  let c := (List.range 5).map (fun x => laneAt a x 0 ^^^ laneAt a x 1 ^^^ laneAt a x 2 ^^^ laneAt a x 3 ^^^ laneAt a x 4)
  let d := (List.range 5).map (fun x => c.getD ((x + 4) % 5) 0 ^^^ (c.getD ((x + 1) % 5) 0).rotateLeft 1)
  let t := (List.range 25).map (fun i => a.getD i 0 ^^^ d.getD (i % 5) 0)
  let r := (List.range 25).map (fun i => (t.getD i 0).rotateLeft (keccakRotations.getD i 0))
  -- lane (x, y) moves to (y, 2x + 3y)
  let b := (List.range 25).map (fun i => laneAt r (i % 5 + 3 * (i / 5)) (i % 5))
  let e := (List.range 25).map (fun i =>
    laneAt b (i % 5) (i / 5) ^^^ (~~~(laneAt b (i % 5 + 1) (i / 5)) &&& laneAt b (i % 5 + 2) (i / 5)))
  match e with
  | [] => []
  | h :: tl => (h ^^^ rc) :: tl

def keccakF (a : List W64) : List W64 := keccakRounds.foldl keccakRound a

def xorBlock (a : List W64) (blk : List Byte) : List W64 :=
  (List.range 25).map (fun i => a.getD i 0 ^^^ BitVec.ofNat 64 (leAt blk (8 * i) 8))

/-- SHAKE256 padding at rate 136 bytes. -/
def shakePad (l : List Byte) : List Byte :=
  let r := 136 - l.length % 136
  if r == 1 then l ++ [0x9F] else l ++ [0x1F] ++ zeroBytes (r - 2) ++ [0x80]

/-- First `n` bytes of SHAKE256; every use in the specification takes at most 136. -/
def shake256 (n : Nat) (l : List Byte) : List Byte :=
  let p := shakePad l
  let s := (chunks 136 p).foldl (fun a blk => keccakF (xorBlock a blk)) (List.replicate 25 (0 : W64))
  (s.flatMap (fun w => bytesOfNat 8 w.toNat)).take n

end Sys2Proof.Machine
end

