-- ==== Sys2Proof/Machine/Flags.lean ====
section
/-! DEFINITION. Number formats, exact values, rounding and every flag and count it raises (spec/03_number_formats.md
R67 to R101), and the exact sum of spec/04 R106. -/

namespace Sys2Proof.Machine

/-- The element formats (R67, R69). -/
inductive Fmt where
  | f64 | f32 | b16 | h16 | e5m2 | e4m3 | e3m2 | e2m3 | e2m1 | i8 | ue4m3 | pair
  deriving DecidableEq, Repr

/-- Format codes of R69; 0xC to 0xF are reserved. -/
def fmtOfCode (c : Nat) : Option Fmt :=
  match c with
  | 0 => some .f64 | 1 => some .f32 | 2 => some .b16 | 3 => some .h16
  | 4 => some .e5m2 | 5 => some .e4m3 | 6 => some .e3m2 | 7 => some .e2m3
  | 8 => some .e2m1 | 9 => some .i8 | 10 => some .ue4m3 | 11 => some .pair
  | _ => none

def fmtCode (f : Fmt) : Nat :=
  match f with
  | .f64 => 0 | .f32 => 1 | .b16 => 2 | .h16 => 3 | .e5m2 => 4 | .e4m3 => 5
  | .e3m2 => 6 | .e2m3 => 7 | .e2m1 => 8 | .i8 => 9 | .ue4m3 => 10 | .pair => 11

/-- Width of one element in bits (R67, R69). -/
def fmtBits (f : Fmt) : Nat :=
  match f with
  | .f64 => 64 | .f32 => 32 | .b16 => 16 | .h16 => 16 | .e5m2 => 8 | .e4m3 => 8
  | .e3m2 => 6 | .e2m3 => 6 | .e2m1 => 4 | .i8 => 8 | .ue4m3 => 8 | .pair => 128

/-- Parameters of a floating element format: exponent bits, fraction bits, bias, whether the all-ones exponent is
special (infinity and NaN), whether the top code is the only NaN (e4m3, ue4m3), and whether a sign bit exists. -/
structure FpParams where
  ebits : Nat
  frac : Nat
  bias : Nat
  ieee : Bool
  topNan : Bool
  signed : Bool
  deriving DecidableEq, Repr

def fmtParams (f : Fmt) : FpParams :=
  match f with
  | .f64 => ⟨11, 52, 1023, true, false, true⟩
  | .f32 => ⟨8, 23, 127, true, false, true⟩
  | .b16 => ⟨8, 7, 127, true, false, true⟩
  | .h16 => ⟨5, 10, 15, true, false, true⟩
  | .e5m2 => ⟨5, 2, 15, true, false, true⟩
  | .e4m3 => ⟨4, 3, 7, false, true, true⟩
  | .e3m2 => ⟨3, 2, 3, false, false, true⟩
  | .e2m3 => ⟨2, 3, 1, false, false, true⟩
  | .e2m1 => ⟨2, 1, 1, false, false, true⟩
  | .ue4m3 => ⟨4, 3, 7, false, true, false⟩
  | .i8 => ⟨0, 7, 0, false, false, true⟩
  | .pair => ⟨11, 52, 1023, true, false, true⟩

/-- Formats of 32 and 64 bits, whose overflow is IEEE's (R80). -/
def fmtWide (f : Fmt) : Bool :=
  match f with
  | .f64 => true | .f32 => true | .pair => true | _ => false

/-- An exact value: NaN (signalling or quiet), a signed infinity, or sign, magnitude `m` and power `e` standing for
(−1)^neg × m × 2^e; `m = 0` is a signed zero. -/
inductive Val where
  | nan (sig : Bool)
  | inf (neg : Bool)
  | fin (neg : Bool) (m : Nat) (e : Int)
  deriving DecidableEq, Repr

def valZero : Val := .fin false 0 0

/-- The four sticky flags (R87). -/
structure AFlags where
  invalid : Bool := false
  overflow : Bool := false
  underflow : Bool := false
  inexact : Bool := false
  deriving DecidableEq, Repr

def flagsOr (a b : AFlags) : AFlags :=
  ⟨a.invalid || b.invalid, a.overflow || b.overflow, a.underflow || b.underflow, a.inexact || b.inexact⟩

def boolNat (b : Bool) : Nat := if b then 1 else 0

/-- Register layout of the flags: [3] INVALID, [2] OVERFLOW, [1] UNDERFLOW, [0] INEXACT (R91). -/
def flagsWord (a : AFlags) : Nat :=
  8 * boolNat a.invalid + 4 * boolNat a.overflow + 2 * boolNat a.underflow + boolNat a.inexact

def flagsOfWord (w : Nat) : AFlags := ⟨w.testBit 3, w.testBit 2, w.testBit 1, w.testBit 0⟩

/-- Flags and counts an operation raises (R87, R88). -/
structure Tally where
  fl : AFlags := {}
  sat : Nat := 0
  nonfin : Nat := 0
  deriving DecidableEq, Repr

def tallyAdd (a b : Tally) : Tally := ⟨flagsOr a.fl b.fl, a.sat + b.sat, a.nonfin + b.nonfin⟩

/-- Counters are 32 bits wide and stop at 0xFFFF_FFFF (R88). -/
def satCount (n : Nat) : Nat := if n < 0x100000000 then n else 0xFFFFFFFF

/-- One rounded result: its bits, the flags it raised, whether it saturated, whether it counts as non-finite. -/
structure Res where
  bits : Nat
  fl : AFlags := {}
  sat : Bool := false
  nonfin : Bool := false
  deriving DecidableEq, Repr

def resTally (r : Res) : Tally := ⟨r.fl, boolNat r.sat, boolNat r.nonfin⟩

/-- Rounding modes (R76); `sr` carries the element's 32 random bits. -/
inductive Rm where
  | rne | rtz | sr (r : Nat) | rto
  deriving DecidableEq, Repr

/-- The value of the bits `b` of a floating format (R67, R68, R73). -/
def fpDecode (f : Fmt) (b : Nat) : Val :=
  let p := fmtParams f
  let frac := b % 2 ^ p.frac
  let ex := (b / 2 ^ p.frac) % 2 ^ p.ebits
  let neg := p.signed && (b / 2 ^ (p.frac + p.ebits)) % 2 == 1
  let top := 2 ^ p.ebits - 1
  if (!p.signed) && 128 ≤ b then .nan false
  else if p.ieee && ex == top then
    if frac == 0 then .inf neg
    else .nan (f != .e5m2 && !frac.testBit (p.frac - 1))
  else if p.topNan && ex == top && frac == 2 ^ p.frac - 1 then .nan false
  else if ex == 0 then .fin neg frac (1 - (p.bias : Int) - p.frac)
  else .fin neg (2 ^ p.frac + frac) ((ex : Int) - p.bias - p.frac)

/-- Integer to value. -/
def valOfInt (i : Int) : Val := .fin (i < 0) i.natAbs 0

/-- floor(log2 m) of a non-zero magnitude. -/
def log2I (m : Nat) : Int := (m.log2 : Int)

def valNeg (v : Val) : Val :=
  match v with
  | .nan s => .nan s
  | .inf n => .inf (!n)
  | .fin n m e => .fin (!n) m e

def valAbs (v : Val) : Val :=
  match v with
  | .nan s => .nan s
  | .inf _ => .inf false
  | .fin _ m e => .fin false m e

def valIsNan (v : Val) : Bool := match v with | .nan _ => true | _ => false
def valIsSig (v : Val) : Bool := match v with | .nan s => s | _ => false
def valIsInf (v : Val) : Bool := match v with | .inf _ => true | _ => false
def valFinite (v : Val) : Bool := match v with | .fin _ _ _ => true | _ => false
def valIsZero (v : Val) : Bool := match v with | .fin _ m _ => m == 0 | _ => false
def valNegative (v : Val) : Bool := match v with | .fin n m _ => n && m != 0 | .inf n => n | .nan _ => false
def valSign (v : Val) : Bool := match v with | .fin n _ _ => n | .inf n => n | .nan _ => false

def signedMag (neg : Bool) (m : Nat) : Int := if neg then -(m : Int) else m

/-- Exact sum of two finite values; an exact zero is −0 only when both are −0 (R84, R106). -/
def finAdd (n1 : Bool) (m1 : Nat) (e1 : Int) (n2 : Bool) (m2 : Nat) (e2 : Int) : Val :=
  if m1 == 0 && m2 == 0 then .fin (n1 && n2) 0 0
  else if m1 == 0 then .fin n2 m2 e2
  else if m2 == 0 then .fin n1 m1 e1
  else
    let e := min e1 e2
    let a := signedMag n1 (m1 * 2 ^ (e1 - e).toNat) + signedMag n2 (m2 * 2 ^ (e2 - e).toNat)
    if a == 0 then .fin false 0 0 else .fin (a < 0) a.natAbs e

/-- Exact sum, with INVALID for infinities of opposite sign or a signalling NaN (R73, R87). -/
def valAdd (a b : Val) : Val × Bool :=
  match a, b with
  | .nan s, .nan t => (.nan false, s || t)
  | .nan s, _ => (.nan false, s)
  | _, .nan t => (.nan false, t)
  | .inf n, .inf k => if n == k then (.inf n, false) else (.nan false, true)
  | .inf n, .fin _ _ _ => (.inf n, false)
  | .fin _ _ _, .inf k => (.inf k, false)
  | .fin n1 m1 e1, .fin n2 m2 e2 => (finAdd n1 m1 e1 n2 m2 e2, false)

def valSub (a b : Val) : Val × Bool := valAdd a (valNeg b)

/-- Exact product, with INVALID for 0 × ∞ or a signalling NaN (R84, R87). -/
def valMul (a b : Val) : Val × Bool :=
  match a, b with
  | .nan s, .nan t => (.nan false, s || t)
  | .nan s, _ => (.nan false, s)
  | _, .nan t => (.nan false, t)
  | .inf n, .inf k => (.inf (xor n k), false)
  | .inf n, .fin k m _ => if m == 0 then (.nan false, true) else (.inf (xor n k), false)
  | .fin n m _, .inf k => if m == 0 then (.nan false, true) else (.inf (xor n k), false)
  | .fin n1 m1 e1, .fin n2 m2 e2 => (.fin (xor n1 n2) (m1 * m2) (e1 + e2), false)

/-- Quotient, kept to 130 bits and a sticky bit, which fixes every rounding into a destination format; a finite
non-zero value divided by zero is an infinity with OVERFLOW (R82). Answers the value, INVALID and OVERFLOW. -/
def valDiv (a b : Val) : Val × Bool × Bool :=
  match a, b with
  | .nan s, .nan t => (.nan false, s || t, false)
  | .nan s, _ => (.nan false, s, false)
  | _, .nan t => (.nan false, t, false)
  | .inf _, .inf _ => (.nan false, true, false)
  | .inf n, .fin k _ _ => (.inf (xor n k), false, false)
  | .fin n _ _, .inf k => (.fin (xor n k) 0 0, false, false)
  | .fin n1 m1 e1, .fin n2 m2 e2 =>
    if m2 == 0 then
      if m1 == 0 then (.nan false, true, false) else (.inf (xor n1 n2), false, true)
    else if m1 == 0 then (.fin (xor n1 n2) 0 0, false, false)
    else
      let sh := 130 + m2.log2 - m1.log2
      let num := m1 * 2 ^ sh
      (.fin (xor n1 n2) (2 * (num / m2) + (if num % m2 == 0 then 0 else 1)) (e1 - e2 - sh - 1), false, false)

/-- Integer square root, one bit of the root a step. -/
def isqrtBits (k : Nat) (n r : Nat) : Nat :=
  match k with
  | 0 => r
  | k + 1 =>
    let c := r + 2 ^ k
    if c * c ≤ n then isqrtBits k n c else isqrtBits k n r

def isqrt (n : Nat) : Nat := isqrtBits (n.log2 / 2 + 1) n 0

/-- Square root, kept to 130 bits and a sticky bit; INVALID below −0 (R87). -/
def valSqrt (a : Val) : Val × Bool :=
  match a with
  | .nan s => (.nan false, s)
  | .inf n => if n then (.nan false, true) else (.inf false, false)
  | .fin n m e =>
    if m == 0 then (.fin n 0 0, false)
    else if n then (.nan false, true)
    else
      let sh : Nat := 260 + (if (e + 260) % 2 == 0 then 0 else 1)
      let q := m * 2 ^ sh
      let r := isqrt q
      (.fin false (2 * r + (if r * r == q then 0 else 1)) ((e - sh) / 2 - 1), false)

/-- Order of two non-NaN values: `a < b`, with −0 equal to +0 (the IEEE comparison of R73's section). -/
def valLt (a b : Val) : Bool :=
  match a, b with
  | .nan _, _ => false
  | _, .nan _ => false
  | .inf n, .inf k => n && !k
  | .inf n, .fin _ _ _ => n
  | .fin _ _ _, .inf k => !k
  | .fin n1 m1 e1, .fin n2 m2 e2 =>
    let e := min e1 e2
    decide (signedMag n1 (m1 * 2 ^ (e1 - e).toNat) < signedMag n2 (m2 * 2 ^ (e2 - e).toNat))

def valEq (a b : Val) : Bool := !valIsNan a && !valIsNan b && !valLt a b && !valLt b a

def valLe (a b : Val) : Bool := valLt a b || valEq a b

/-- IEEE maximum (R85): NaN if either is NaN, +0 above −0. -/
def valMax (a b : Val) : Val :=
  if valIsNan a || valIsNan b then .nan false
  else if valLt a b then b
  else if valLt b a then a
  else if valSign a then b else a

/-- IEEE minimum (R85). -/
def valMin (a b : Val) : Val :=
  if valIsNan a || valIsNan b then .nan false
  else if valLt a b then a
  else if valLt b a then b
  else if valSign a then a else b

/-- R86. -/
def valAbsmax (a b : Val) : Val := valMax (valAbs a) (valAbs b)

/-- Rounds magnitude `m × 2^e` to a multiple of 2^l: the quotient and whether bits were lost (R76, R96). -/
def roundQuantum (rm : Rm) (m : Nat) (e l : Int) : Nat × Bool :=
  if l ≤ e then (m * 2 ^ (e - l).toNat, false)
  else
    let k := (l - e).toNat
    let n := m / 2 ^ k
    let rem := m % 2 ^ k
    if rem == 0 then (n, false)
    else
      let up : Bool := match rm with
        | .rne => decide (2 ^ k < 2 * rem) || (2 * rem == 2 ^ k && n % 2 == 1)
        | .rtz => false
        | .rto => n % 2 == 0
        | .sr r => decide (2 ^ 32 ≤ rem * 2 ^ 32 / 2 ^ k + r)
      (if up then n + 1 else n, true)

/-- Largest finite magnitude of a floating format: its bits without sign, and mantissa and power (R67). -/
def fmtMaxBits (f : Fmt) : Nat :=
  let p := fmtParams f
  if p.ieee then (2 ^ p.ebits - 1) * 2 ^ p.frac - 1
  else if p.topNan then 2 ^ (p.ebits + p.frac) - 2
  else 2 ^ (p.ebits + p.frac) - 1

def fmtSignBit (f : Fmt) : Nat :=
  let p := fmtParams f
  if p.signed then 2 ^ (p.ebits + p.frac) else 0

def withSign (f : Fmt) (neg : Bool) (b : Nat) : Nat := if neg then b + fmtSignBit f else b

/-- Canonical NaN (R72), with sign 0. -/
def fmtNan (f : Fmt) : Nat :=
  let p := fmtParams f
  if p.ieee then (2 ^ p.ebits - 1) * 2 ^ p.frac + 2 ^ (p.frac - 1)
  else 2 ^ (p.ebits + p.frac) - 1

def fmtInf (f : Fmt) (neg : Bool) : Nat :=
  let p := fmtParams f
  withSign f neg ((2 ^ p.ebits - 1) * 2 ^ p.frac)

/-- Bits of `n × 2^l` in a floating format, for a value the format holds. -/
def fpEncode (f : Fmt) (neg : Bool) (n : Nat) (l : Int) : Nat :=
  let p := fmtParams f
  if n < 2 ^ p.frac then withSign f neg n
  else
    let up := n.log2 - p.frac
    let n' := n / 2 ^ up
    withSign f neg (((l + up + p.frac + p.bias).toNat) * 2 ^ p.frac + (n' - 2 ^ p.frac))

def magLt (m1 : Nat) (e1 : Int) (m2 : Nat) (e2 : Int) : Bool :=
  let e := min e1 e2
  decide (m1 * 2 ^ (e1 - e).toNat < m2 * 2 ^ (e2 - e).toNat)

def fmtMaxVal (f : Fmt) (neg : Bool) : Val :=
  match fpDecode f (fmtMaxBits f) with
  | .fin _ m e => .fin neg m e
  | v => v

/-- Rounds a non-zero finite value into a floating format (R75 to R81, R96). -/
def roundFin (f : Fmt) (rm : Rm) (satWide : Bool) (neg : Bool) (m : Nat) (e : Int) : Res :=
  let p := fmtParams f
  let top := log2I m + e
  let emin : Int := 1 - p.bias - p.frac
  let q := roundQuantum rm m e (max (top - p.frac) emin)
  let u := roundQuantum rm m e (top - p.frac)
  let big : Int × Nat := match fpDecode f (fmtMaxBits f) with
    | .fin _ mm ee => (ee, mm)
    | _ => (0, 0)
  let ovf : Bool := match rm with
    | .sr _ => magLt big.2 big.1 m e
    | _ => magLt big.2 big.1 u.1 (top - p.frac)
  if ovf then
    let fl : AFlags := ⟨false, true, false, true⟩
    if fmtWide f && rm == .rne && !satWide then ⟨fmtInf f neg, fl, false, true⟩
    else ⟨withSign f neg (fmtMaxBits f), fl, true, false⟩
  else
    let tiny := magLt u.1 (top - p.frac) 1 (1 - p.bias)
    ⟨fpEncode f neg q.1 (max (top - p.frac) emin), ⟨false, false, tiny && q.2, q.2⟩, false, false⟩

/-- Rounds a finite value into i8 (R78, R79, R96). -/
def roundI8 (rm : Rm) (neg : Bool) (m : Nat) (e : Int) : Res :=
  let lim := if neg then 128 else 127
  let q := roundQuantum rm m e 0
  let ovf : Bool := match rm with
    | .sr _ => magLt lim 0 m e
    | _ => decide (lim < q.1)
  let n := if ovf then lim else q.1
  ⟨if neg then (256 - n) % 256 else n, ⟨false, ovf, false, ovf || q.2⟩, ovf, false⟩

/-- Rounds an exact value once into a format (R72, R75, R79 to R84, R88); a pair destination gives its hi half. -/
def roundVal (f : Fmt) (rm : Rm) (satWide : Bool) (v : Val) : Res :=
  match v with
  | .nan s =>
    match f with
    | .e3m2 => ⟨0, ⟨true, false, false, false⟩, false, true⟩
    | .e2m3 => ⟨0, ⟨true, false, false, false⟩, false, true⟩
    | .e2m1 => ⟨0, ⟨true, false, false, false⟩, false, true⟩
    | .i8 => ⟨0, ⟨true, false, false, false⟩, false, true⟩
    | _ => ⟨fmtNan f, ⟨s, false, false, false⟩, false, true⟩
  | .inf n =>
    match f with
    | .ue4m3 =>
      if n then ⟨0, ⟨true, false, false, false⟩, false, true⟩
      else ⟨fmtMaxBits f, ⟨true, false, false, false⟩, true, true⟩
    | .i8 => ⟨if n then 128 else 127, ⟨true, false, false, false⟩, true, true⟩
    | _ =>
      if (fmtParams f).ieee then ⟨fmtInf f n, {}, false, true⟩
      else ⟨withSign f n (fmtMaxBits f), ⟨true, false, false, false⟩, true, true⟩
  | .fin n m e =>
    match f with
    | .i8 => if m == 0 then ⟨0, {}, false, false⟩ else roundI8 rm n m e
    | .ue4m3 =>
      if m == 0 then ⟨0, {}, false, false⟩
      else if n then ⟨0, ⟨true, false, false, false⟩, false, false⟩
      else roundFin f rm satWide false m e
    | _ => if m == 0 then ⟨withSign f n 0, {}, false, false⟩ else roundFin f rm satWide n m e

/-- The value of an element's bits (R67, R68, R101); a pair holds hi in its low 64 bits. -/
def decodeVal (f : Fmt) (b : Nat) : Val :=
  match f with
  | .i8 => valOfInt (if 128 ≤ b then (b : Int) - 256 else b)
  | .pair =>
    let hi := fpDecode .f64 (b % 2 ^ 64)
    let lo := fpDecode .f64 (b / 2 ^ 64)
    match hi, lo with
    | .nan s, .nan t => .nan (s || t)
    | .nan s, _ => .nan s
    | _, .nan t => .nan t
    | .inf n, .inf k => if n == k then .inf n else .nan true
    | .inf n, .fin _ _ _ => .inf n
    | .fin _ _ _, .inf k => .inf k
    | .fin n1 m1 e1, .fin n2 m2 e2 => finAdd n1 m1 e1 n2 m2 e2
  | _ => fpDecode f b

/-- Produces a normalised pair of a value (R99, R100): hi and lo bits and what was raised. -/
def roundPair (satWide : Bool) (v : Val) : Nat × Nat × Res :=
  let h := roundVal .f64 .rne satWide v
  match v with
  | .nan _ => (h.bits, fmtNan .f64, h)
  | .inf _ => (h.bits, 0, h)
  | .fin n m e =>
    if m == 0 then (h.bits, 0, h)
    else if h.nonfin || h.sat then (h.bits, 0, h)
    else
      let hv := fpDecode .f64 h.bits
      match hv with
      | .fin hn hm he =>
        match finAdd n m e (!hn) hm he with
        | .fin ln lm le =>
          if lm == 0 then (h.bits, 0, h)
          else
            let l := roundVal .f64 .rne false (.fin ln lm le)
            let lv := fpDecode .f64 l.bits
            let nextMag := if ln == hn then h.bits % 2 ^ 63 + 1 else h.bits % 2 ^ 63 - 1
            let gap : Val := match fpDecode .f64 (nextMag % 2 ^ 63), valAbs hv with
              | .fin _ gm ge, .fin _ am ae => valAbs (finAdd false gm ge true am ae)
              | _, _ => .fin false 1 971
            let half : Bool := match gap, lv with
              | .fin _ gm ge, .fin _ xm xe => !magLt gm (ge - 1) xm xe && !magLt xm xe gm (ge - 1)
              | _, _ => false
            let lo := if half && h.bits % 2 == 1 then l.bits - 1 else l.bits
            let lowExact := !l.fl.inexact && lo == l.bits
            (h.bits, lo, ⟨h.bits, ⟨h.fl.invalid, h.fl.overflow, l.fl.underflow, !lowExact⟩, h.sat, h.nonfin⟩)
        | _ => (h.bits, 0, h)
      | _ => (h.bits, 0, h)

/-- Rounds into any destination, a pair included: all bits of the element. -/
def roundAny (f : Fmt) (rm : Rm) (satWide : Bool) (v : Val) : Res :=
  match f with
  | .pair =>
    let r := roundPair satWide v
    { r.2.2 with bits := r.1 + r.2.1 * 2 ^ 64 }
  | _ => roundVal f rm satWide v

/-- The exact sum of R106: the value and INVALID. -/
def exactSumStep (a : Val) (l : List Val) : Val :=
  match l with
  | [] => a
  | b :: t => exactSumStep (valAdd a b).1 t

def exactSum (l : List Val) : Val × Bool :=
  let pinf := l.any (fun v => v == .inf false)
  let ninf := l.any (fun v => v == .inf true)
  let inv := (pinf && ninf) || l.any valIsSig
  if l.any valIsNan || (pinf && ninf) then (.nan false, inv)
  else match l with
    | [] => (valZero, false)
    | a :: t => (exactSumStep a t, inv)

/-- mix of R94. -/
def srMix (v : W64) : W64 :=
  let v := v ^^^ (v >>> 32)
  let v := v * 0xD6E8FEB86659FD93#64
  let v := v ^^^ (v >>> 29)
  let v := v * 0xA3B195F62C4E7A35#64
  v ^^^ (v >>> 32)

/-- franking of R94: the 32 random bits of an element. -/
def franking (key counter position : W64) : Nat :=
  let h := srMix (key ^^^ 0x2F1A7C5DE94B3608#64)
  let h := srMix (h ^^^ counter)
  let h := srMix (h ^^^ position)
  h.toNat / 2 ^ 32

/-- The rounding mode an RM field selects (R76). -/
def rmOfField (rm : Nat) (key counter position : W64) : Rm :=
  match rm with
  | 0 => .rne
  | 1 => .rtz
  | 2 => .sr (franking key counter position)
  | _ => .rto

/-- f64 helpers: the engines' scalar formulas round each operation once by RNE. -/
def f64Val (b : Nat) : Val := fpDecode .f64 b
def f64Round (v : Val) : Nat := (roundVal .f64 .rne false v).bits
def f64Add (a b : Nat) : Nat := f64Round (valAdd (f64Val a) (f64Val b)).1
def f64Sub (a b : Nat) : Nat := f64Round (valSub (f64Val a) (f64Val b)).1
def f64Mul (a b : Nat) : Nat := f64Round (valMul (f64Val a) (f64Val b)).1
def f64Div (a b : Nat) : Nat := f64Round (valDiv (f64Val a) (f64Val b)).1
def f64Sqrt (a : Nat) : Nat := f64Round (valSqrt (f64Val a)).1
def f64OfNat (n : Nat) : Nat := f64Round (.fin false n 0)
def f64Lt (a b : Nat) : Bool := valLt (f64Val a) (f64Val b)
def f64Le (a b : Nat) : Bool := valLe (f64Val a) (f64Val b)
def f64IsFinite (a : Nat) : Bool := valFinite (f64Val a)

end Sys2Proof.Machine
end

