-- ==== Sys2Proof/Machine/Reduce.lean ====
section
/-! DEFINITION. The reference order (spec/04 R102 to R112), its state record, and the arithmetic of the window
accumulator (R119 to R124). -/

namespace Sys2Proof.Machine

/-- Formats of accumulators and spill buffers (R103). -/
inductive Acc where
  | f32 | f64 | pair
  deriving DecidableEq, Repr

def accCode (a : Acc) : Nat := match a with | .f32 => 0 | .f64 => 1 | .pair => 2

/-- A row of the reference-order table (R103): G, accumulator and spill formats. -/
structure RedRow where
  g : Nat
  acc : Acc
  spill : Acc
  deriving DecidableEq, Repr

/-- The row of an operand format, with ACC_WIDE (R103, R104). -/
def redRow (f : Fmt) (wide : Bool) : RedRow :=
  match f with
  | .f64 => ⟨4, .pair, .pair⟩
  | .pair => ⟨4, .pair, .pair⟩
  | .f32 => ⟨8, .f64, .f64⟩
  | .b16 => if wide then ⟨16, .f64, .f64⟩ else ⟨16, .f32, .f64⟩
  | .h16 => if wide then ⟨16, .f64, .f64⟩ else ⟨16, .f32, .f64⟩
  | _ => if wide then ⟨32, .f64, .f64⟩ else ⟨32, .f32, .f64⟩

/-- A format's width for R104, where a pair counts as f64. -/
def redWidth (f : Fmt) : Nat := if f == .pair then 64 else fmtBits f

/-- The wider of two operand formats, operand A's where they are equally wide (R104, R111). -/
def widerFmt (a b : Fmt) : Fmt := if redWidth a < redWidth b then b else a

/-- A term of a reduction: its exact value and whether forming it raised INVALID. -/
abbrev Term := Val × Bool

/-- Rounds into an accumulator format (R105): hi bits, lo bits and what was raised. -/
def accRound (a : Acc) (satWide : Bool) (v : Val) : Nat × Nat × Res :=
  match a with
  | .f32 => let r := roundVal .f32 .rne satWide v; (r.bits, 0, r)
  | .f64 => let r := roundVal .f64 .rne satWide v; (r.bits, 0, r)
  | .pair => roundPair satWide v

/-- Value of an accumulator or spill buffer. A pair whose lo is zero has hi's value and sign: so R100 writes −0. -/
def accVal (a : Acc) (hi lo : Nat) : Val :=
  match a with
  | .f32 => decodeVal .f32 hi
  | .f64 => decodeVal .f64 hi
  | .pair => if lo % 2 ^ 63 == 0 then decodeVal .f64 hi else decodeVal .pair (hi + lo * 2 ^ 64)

/-- Widens a run accumulator into the spill format (R105): exactly from f32 to f64, and f64 or a pair to itself. -/
def accWiden (row : RedRow) (hi lo : Nat) : Nat × Nat :=
  if row.acc = row.spill then (hi, lo) else ((roundVal .f64 .rne false (accVal row.acc hi lo)).bits, 0)

/-- The reduction state record (R111). -/
structure RedRec where
  next : Nat := 0
  len : Nat := 0
  accHi : Nat := 0
  accLo : Nat := 0
  spillHi : Nat := 0
  spillLo : Nat := 0
  opId : Nat := 0
  element : Nat := 0
  kind : Nat := 0
  accF : Nat := 0
  fmt : Nat := 0
  accValid : Bool := false
  spillValid : Bool := false
  satSeen : Bool := false
  fl : AFlags := {}
  deriving DecidableEq, Repr

def redStateByte (r : RedRec) : Nat :=
  128 * boolNat r.accValid + 64 * boolNat r.spillValid + 32 * boolNat r.satSeen + flagsWord r.fl

/-- Bytes [59:0] of the record. -/
def redBody (r : RedRec) : List Byte :=
  bytesOfNat 8 r.next ++ bytesOfNat 8 r.len ++ bytesOfNat 8 r.accHi ++ bytesOfNat 8 r.accLo ++
  bytesOfNat 8 r.spillHi ++ bytesOfNat 8 r.spillLo ++ bytesOfNat 4 r.opId ++ bytesOfNat 4 r.element ++
  bytesOfNat 1 (r.kind * 64 + r.accF * 16 + r.fmt) ++ bytesOfNat 1 (redStateByte r) ++ bytesOfNat 2 0

/-- The 64 bytes of the record with its CHECK (R111). -/
def redBytes (r : RedRec) : List Byte := redBody r ++ bytesOfNat 4 (crc32c (redBody r))

def redOfBytes (l : List Byte) : RedRec :=
  let k := leAt l 56 1
  let st := leAt l 57 1
  { next := leAt l 0 8, len := leAt l 8 8, accHi := leAt l 16 8, accLo := leAt l 24 8,
    spillHi := leAt l 32 8, spillLo := leAt l 40 8, opId := leAt l 48 4, element := leAt l 52 4,
    kind := field k 6 2, accF := field k 4 2, fmt := field k 0 4,
    accValid := st.testBit 7, spillValid := st.testBit 6, satSeen := st.testBit 5, fl := flagsOfWord st }

def redCheckOk (l : List Byte) : Bool := crc32c (l.take 60) == leAt l 60 4

/-- A fresh prefix record of a reduction of length `k`. -/
def redFresh (f : Fmt) (wide : Bool) (k opId element : Nat) : RedRec :=
  { len := k, opId := opId, element := element, accF := accCode (redRow f wide).acc, fmt := fmtCode f }

/-- Folds a widened run accumulator into the spill buffer (R105, R110). -/
def redFoldAcc (row : RedRow) (satWide : Bool) (r : RedRec) (hi lo : Nat) : RedRec :=
  let a := accWiden row hi lo
  if r.spillValid then
    let s := accVal row.spill r.spillHi r.spillLo
    let t := exactSum [s, accVal row.spill a.1 a.2]
    let q := accRound row.spill satWide t.1
    { r with spillHi := q.1, spillLo := q.2.1, satSeen := r.satSeen || q.2.2.sat,
             fl := flagsOr r.fl (flagsOr q.2.2.fl ⟨t.2, false, false, false⟩) }
  else { r with spillHi := a.1, spillLo := a.2, spillValid := true }

/-- One group of terms: rounded exact sum and one accumulation step (R105, R106). -/
def redStep (row : RedRow) (satWide : Bool) (r : RedRec) (terms : List Term) : RedRec :=
  let t := exactSum (terms.map Prod.fst)
  let inv := t.2 || terms.any (fun x => x.2)
  let s := accRound row.acc satWide t.1
  let r1 : RedRec := { r with next := r.next + terms.length, satSeen := r.satSeen || s.2.2.sat,
                              fl := flagsOr r.fl (flagsOr s.2.2.fl ⟨inv, false, false, false⟩) }
  if r.accValid then
    let u := exactSum [accVal row.acc r.accHi r.accLo, accVal row.acc s.1 s.2.1]
    let q := accRound row.acc satWide u.1
    { r1 with accHi := q.1, accLo := q.2.1, satSeen := r1.satSeen || q.2.2.sat,
              fl := flagsOr r1.fl (flagsOr q.2.2.fl ⟨u.2, false, false, false⟩) }
  else { r1 with accHi := s.1, accLo := s.2.1, accValid := true }

/-- One group, and the fold at the end of a run. -/
def redGroup (row : RedRow) (satWide : Bool) (r : RedRec) (terms : List Term) : RedRec :=
  let r2 := redStep row satWide r terms
  if r2.next % 4096 == 0 || r2.next == r2.len then
    redFoldAcc row satWide { r2 with accHi := 0, accLo := 0, accValid := false } r2.accHi r2.accLo
  else r2

def redGroups (row : RedRow) (satWide : Bool) (r : RedRec) (gs : List (List Term)) : RedRec :=
  match gs with
  | [] => r
  | g :: t => redGroups row satWide (redGroup row satWide r g) t

/-- Advances a record by consecutive terms, which start at a group boundary. -/
def redAdvance (row : RedRow) (satWide : Bool) (r : RedRec) (terms : List Term) : RedRec :=
  redGroups row satWide r (chunks row.g terms)

/-- The run accumulator of a run record's terms, with no fold (R109). -/
def redResult (row : RedRow) (r : RedRec) : Val :=
  if r.spillValid then accVal row.spill r.spillHi r.spillLo else valZero

/-- A whole reduction of R105: its value and the record that holds its flags. -/
def reduceTerms (row : RedRow) (satWide : Bool) (terms : List Term) : Val × RedRec :=
  let r := redAdvance row satWide { len := terms.length } terms
  (redResult row r, r)

/-- Rounds a finished reduction once into its destination (R108): a pair destination of the f64 row is the spill
pair unchanged. At most one saturation per output element (R106). -/
def redFinish (row : RedRow) (dst : Fmt) (rm : Rm) (satWide : Bool) (r : RedRec) : Res :=
  if dst == .pair && row.spill == .pair && r.spillValid then
    let v := accVal .pair r.spillHi r.spillLo
    ⟨r.spillHi + r.spillLo * 2 ^ 64, r.fl, r.satSeen, !valFinite v⟩
  else
    let q := roundAny dst rm satWide (redResult row r)
    { q with fl := flagsOr r.fl q.fl, sat := q.sat || r.satSeen }

/-- f64 result of a reduction in the reference order, with everything it raised. -/
def reduceF64 (f : Fmt) (wide satWide : Bool) (terms : List Term) : Res :=
  let row := redRow f wide
  redFinish row .f64 .rne satWide (reduceTerms row satWide terms).2

/-! ## The window accumulator -/

/-- The window (R119, R124): W as a signed integer, B, the pending base, sticky flags and admitted terms. -/
structure Win where
  w : Int := 0
  base : Int := -2148
  pending : Option Int := none
  nonfinite : Bool := false
  overflow : Bool := false
  under : Bool := false
  inexact : Bool := false
  terms : Nat := 0
  deriving DecidableEq, Repr

def winFlagsWord (w : Win) : Nat :=
  8 * boolNat w.nonfinite + 4 * boolNat w.overflow + 2 * boolNat w.under + boolNat w.inexact

/-- A term at or above 2^(B + 959) in magnitude is refused (R119). -/
def winRefuses (base : Int) (v : Val) : Bool :=
  match v with
  | .fin _ m e => m != 0 && !magLt m e 1 (base + 959)
  | _ => false

/-- Admits one term that is not refused (R119, R555). -/
def winAdmit (w : Win) (v : Val) : Win :=
  match v with
  | .nan _ => { w with nonfinite := true }
  | .inf _ => { w with nonfinite := true }
  | .fin n m e =>
    let q := roundQuantum .rne m e w.base
    { w with w := w.w + signedMag n q.1, terms := min (w.terms + 1) (2 ^ 64 - 1),
             under := w.under || q.2, inexact := w.inexact || q.2 }

/-- Exact value W × 2^B; NaN when NONFINITE is set (R122). -/
def winVal (w : Win) : Val :=
  if w.nonfinite then .nan false else .fin (w.w < 0) w.w.natAbs w.base

/-- A clear sets W, the admitted terms to zero and applies a pending base (R122, R125, R126). -/
def winClear (w : Win) : Win :=
  { w with w := 0, terms := 0, base := w.pending.getD w.base, pending := none }

/-- Combines a window or record of equal B (R120, R555). What W holds when the sum leaves 1,024 bits the spec does not say:
it wraps (DESIGN CHOICE, log 100). -/
def winCombine (a b : Win) : Win :=
  { a with w := signedOf 1024 (unsignedOf 1024 (a.w + b.w)), nonfinite := a.nonfinite || b.nonfinite,
           overflow := a.overflow || b.overflow, under := a.under || b.under, inexact := a.inexact || b.inexact,
           terms := min (a.terms + b.terms) (2 ^ 64 - 1) }

/-- Bytes [155:0] of a window record (R124). -/
def winBody (w : Win) : List Byte :=
  bytesOfNat 128 (unsignedOf 1024 w.w) ++ bytesOfNat 2 (unsignedOf 16 w.base) ++ bytesOfNat 1 (winFlagsWord w) ++
  bytesOfNat 1 0 ++ bytesOfNat 8 w.terms ++ bytesOfNat 16 0

def winBytes (w : Win) : List Byte := winBody w ++ bytesOfNat 4 (crc32c (winBody w))

def winOfBytes (l : List Byte) : Win :=
  let f := leAt l 130 1
  { w := signedOf 1024 (leAt l 0 128), base := signedOf 16 (leAt l 128 2), nonfinite := f.testBit 3,
    overflow := f.testBit 2, under := f.testBit 1, inexact := f.testBit 0, terms := leAt l 132 8 }

def winCheckOk (l : List Byte) : Bool := crc32c (l.take 156) == leAt l 156 4

/-- floor(log2 |v|) of a finite non-zero value. -/
def valExp (v : Val) : Option Int :=
  match v with
  | .fin _ m e => if m == 0 then none else some (log2I m + e)
  | _ => none

/-- Base of R121 from the largest bound and headroom. -/
def winBase (bound : Option Int) (h : Nat) : Int :=
  match bound with
  | some b => b + h - 959
  | none => -2148

end Sys2Proof.Machine
end

