-- ==== Sys2Proof/Machine/State.lean ====
section
/-! DEFINITION. The state of the block: every register, table, queue, buffer, mode and pin the specification names,
as plain data; the reset state; the reasons a step can stop. A replicated unit is held in a sparse table whose
unlisted entries are in the unit's reset state. -/

namespace Sys2Proof.Machine

/-- Why the block stops. Nothing in the specification stops it: errors are statuses, refusals and flags, so no
command answers a fault. Safe. -/
inductive Fault where
  /-- Raised by no command. Safe: a stop allows no false claim. -/
  | never
  deriving DecidableEq, Repr

/-- Why a command has no meaning. -/
inductive Refusal where
  /-- The command has no meaning yet. Raised by an arm of `exec` alone; safe, because the model stops. -/
  | notModelled (mnemonic : String)
  deriving DecidableEq, Repr

/-! ## Receipts, streams, letterboxes (00, 16) -/

/-- Receipt states (00 R14). -/
inductive RState where
  | notStarted | inProgress | done | failed | partialEnd
  deriving DecidableEq, Repr

/-- A receipt (00 R13). -/
structure Receipt where
  opId : Nat := 0
  state : RState := .notStarted
  status : Nat := 0
  count : Nat := 0
  stream : Nat := 0
  postmark : Nat := 0
  detail : Nat := 0
  deriving DecidableEq, Repr

/-- Where an allocated operation is, which R14 does not show: waiting in its stream, at its unit's issuer, accepted
in its unit's queue, or running. -/
inductive Place where
  | inStream | atIssuer | queued | running | final
  deriving DecidableEq, Repr

/-- An allocated operation: its receipt, its entry and what it has met so far. -/
structure Op where
  rcpt : Receipt
  kind : Nat
  notify : Bool := false
  deps : List Nat := []
  letterbox : Option Nat := none
  target : Nat := 0
  payload : List Byte := []
  step : Nat := 0
  place : Place := .inStream
  /-- chips of a collective's member list, once it is accepted -/
  chips : List Nat := []
  /-- saturations counted and the first output parcel that holds one (03 R90) -/
  sat : Nat := 0
  satFirst : Nat := 0xFFFFFFFF
  nonfin : Nat := 0
  nonfinFirst : Nat := 0xFFFFFFFF
  /-- other warnings met, with their details, in the order met -/
  warns : List (Nat × Nat) := []
  deriving DecidableEq, Repr

/-- A stream (16 R414 to R418). -/
structure Stream where
  halted : Bool := false
  failSlot : Nat := 0
  /-- step of the operation that halted the stream -/
  failStep : Nat := 0
  step : Nat := 0
  ops : List Nat := []
  /-- deliveries committed in the step in flight: (parcel, slot), for 02 R53; 2^32 + operation id once the slot was
  released -/
  writers : List (Nat × Nat) := []
  writersStep : Nat := 0
  deriving DecidableEq, Repr

/-- A letterbox (16 R407 to R413, R427). -/
structure Letterbox where
  base : W64 := 0
  enable : Bool := false
  sizeLog2 : Nat := 4
  period : Nat := 10
  vector : Nat := 16
  tail : Nat := 0
  stop : Nat := 0
  collected : Nat := 0
  refused : Nat := 0
  badRun : Nat := 0
  /-- postmarks of the last visit and of the first notice of a NOTIFY entry whose window has not ended (R409, R424) -/
  lastVisit : Option Nat := none
  notifyAt : Option Nat := none
  deriving DecidableEq, Repr

/-- What configuration space says of the one physical function (16 R401), beside its identity, which is `Config.pciId`: class
code, Advanced Error Reporting, the largest payload and read request it supports, and its tag bits. -/
structure PcieFn where
  classCode : Nat := 0x120000
  aer : Bool := true
  maxPayload : Nat := 512
  maxReadRequest : Nat := 4096
  tagBits : Nat := 10
  deriving DecidableEq, Repr

/-- Host-interface registers (16 R427) and the link. -/
structure Hif where
  linkUp : Bool := false
  width : Nat := 0
  gen : Nat := 0
  ideSel : Bool := false
  ideLink : Bool := false
  collectEn : Bool := false
  mirrorEn : Bool := false
  lbFault : Bool := false
  refusal : Bool := false
  noticeFull : Bool := false
  mirrorStale : Bool := false
  linkDownSeen : Bool := false
  apBase : W64 := 0
  apRefused : Bool := false
  apActive : W64 := 0
  apFaultValid : Bool := false
  apFaultDir : Bool := false
  apFaultCause : Nat := 0
  apFaultAddr : W64 := 0
  ledgerBase : W64 := 0
  noticeBase : W64 := 0
  fn : PcieFn := {}
  deriving DecidableEq, Repr

/-- A TLP through BAR2 that waits for a read lock or a remote reply: offset, bytes read or written, and the tags of its
remote requests. A read carries no bytes. -/
structure ApTlp where
  off : Nat
  len : Nat
  data : List Byte := []
  tags : List Nat := []
  deriving DecidableEq, Repr

structure HifRing where
  noticeSize : Nat := 8
  noticeHead : Nat := 0
  noticeTail : Nat := 0
  /-- notices that wait for space: the letterbox of a NOTIFY entry, and the bytes with PHASE zero -/
  heldNotices : List (Option Nat × List Byte) := []
  releaseRefused : Nat := 0
  rcptIndex : Nat := 0
  streamIndex : Nat := 0
  refuseValid : Bool := false
  refuseBox : Nat := 0
  refuseEntry : Nat := 0
  refuseSlot : Nat := 0
  /-- MSI-X table words (16 bytes a vector, word index 4v + i) and pending bits; PCI Express resets them masked -/
  msixTable : KMap W32 := []
  msixPending : List Nat := []
  /-- the eight words each master latched from HIF_RCPT0 (R427) -/
  rcptLatch : KMap (List W32) := []
  /-- TLPs through BAR2 not served yet, oldest first (R406, PCI Express order) -/
  waiting : List ApTlp := []
  /-- collection paused by an image load or a compute reset (17 R439, 18 R470) -/
  paused : Bool := false
  deriving DecidableEq, Repr

/-! ## The time base (02) -/

/-- The time base (02 R59 to R63). `frac` counts the slew's fraction of a nanosecond in units of 1/250,000 ns. -/
structure TimeBase where
  pm : Nat := 0
  frac : Int := 0
  slew : Int := 0
  sourcePort : Nat := 15
  stepSeen : Bool := false
  locked : Bool := false
  running : Bool := false
  /-- time transfer (14 R378 to R380): exchanges in a row below and at or above 8 ns, and the last send time -/
  good : Nat := 0
  bad : Nat := 0
  t1 : Option Nat := none
  isMaster : Bool := false
  /-- FREF present, and the internal oscillator in use (22 R544) -/
  fref : Bool := true
  internalOsc : Bool := false
  /-- rim time-clock cycles since power-on, for the stage durations of 18 R459 -/
  cycles : Nat := 0
  deriving DecidableEq, Repr

/-! ## Clusters (03, 04, 05, 06, 19) -/

/-- Arithmetic status registers of one engine (03 R91). -/
structure Arith where
  fl : AFlags := {}
  sat : Nat := 0
  nonfin : Nat := 0
  deriving DecidableEq, Repr

/-- What a program's sequencer waits for (06 R155). -/
inductive SeqWait where
  | none
  /-- TEWAIT: the tensor engine is not idle yet -/
  | tensor
  /-- an unaccepted TEISSUE descriptor waits for room -/
  | issue
  /-- a parcel is read-locked (05 R138) or an output of a tensor operation in progress -/
  | memory
  /-- remote accesses: the instruction's word is executed again when every tag has its reply -/
  | remote (tags : List Nat)
  deriving DecidableEq, Repr

/-- A cluster program in execution (06 R152 to R156). -/
structure Prog where
  slot : Nat
  opId : Nat
  stream : Nat
  lclu : Nat := 0
  /-- keys of the code parcels whose seals were checked (R153) -/
  checked : List Nat := []
  deriving DecidableEq, Repr

/-- Sequencer, vector engine and fault registers of a cluster (06 R157, R182). -/
structure Seq where
  prog : Option Prog := none
  wait : SeqWait := .none
  pc : Nat := 0
  trapVec : Nat := 0
  epc : Nat := 0
  inHandler : Bool := false
  /-- the instruction at PC is the one ERET re-executes, from RESUME (06 R178) -/
  resuming : Bool := false
  /-- a program has run since the last reset: PHASE reads 4 in place of 0 -/
  ran : Bool := false
  sreg : KMap W64 := []
  vreg : KMap VReg := []
  mreg : KMap MReg := []
  efmt : Nat := 0
  act : Nat := 0
  resume : Nat := 0
  faultIndex : Nat := 0
  faultValid : Bool := false
  faultDir : Bool := false
  faultCause : Nat := 0
  faultAddr : W64 := 0
  satWide : Bool := false
  srKey : W64 := 0
  srCounter : W64 := 0
  srPos : W64 := 0
  capMax : W64 := 0
  capSqerr : W64 := 0
  capCount : W64 := 0
  deriving DecidableEq, Repr

/-- A tensor descriptor accepted by an engine: the bytes and the receipt that carries it; a descriptor issued by a
program (06 R155) has no slot of its own. -/
structure TeItem where
  slot : Nat
  byProg : Bool := false
  desc : List Byte
  deriving DecidableEq, Repr

/-- A held output parcel (05 R148, 19 R483 to R489): the array's bytes, the first inspector's lines, the clusters that
recompute and recheck it by logical number, and the recomputed bytes. -/
structure Hold where
  parcel : Nat
  orig : List Byte
  lines : List Byte
  recompute : Option Nat
  recheck : Option Nat
  c : Option (List Byte) := none
  /-- a parity error made the hold: the original differs from every other result (19 R482) -/
  parity : Bool := false
  deriving DecidableEq, Repr

/-- The running tensor operation (05): bands finished by the array, the lowest output parcel not committed, operand
parcels whose seals were checked (store offsets), and faulty results still to be committed. -/
structure TeRun where
  item : TeItem
  key : W64 := 0
  rate : Nat := 0
  band : Nat := 0
  next : Nat := 0
  checked : List Nat := []
  bad : List BadResult := []
  /-- parcels a parity error will hold when they are formed (19 R482) -/
  parity : List Nat := []
  hold : Option Hold := none
  deriving DecidableEq, Repr

/-- A suspension whose records are being written (04 R116): those still to come, the address of the next, how many are
whole, and the tags of remote writes. -/
structure Susp where
  recs : List (List Byte)
  addr : W64
  n : Nat := 0
  tags : List Nat := []
  deriving DecidableEq, Repr

/-- Tensor engine registers and queue of a cluster (05 R134, R150); `waiters` are the requesters that found the queue full,
in the order in which they are granted (02 R51): ledger slots, and 2^32 for the cluster's own sequencer. -/
structure Te where
  queue : List TeItem := []
  waiters : List Nat := []
  run : Option TeRun := none
  susp : Option Susp := none
  curOp : Nat := 0
  rateLog2 : Nat := 0
  key : W64 := 0
  ops : Nat := 0
  beats : Nat := 0
  sealFails : Nat := 0
  disagree : Nat := 0
  arith : Arith := {}
  redRecords : Nat := 0
  redPhase : Nat := 0
  redSave : W64 := 0
  deriving DecidableEq, Repr

/-- Check states of a cluster (19 R490). -/
inductive ChkState where
  | normal | suspect | testing | quarantined | retired
  deriving DecidableEq, Repr

/-- The fixed inputs of a repeat test (19 R484, R491): the held operation's descriptor and copied input parcels, the
parcel under test and the reference bytes. -/
structure TestInput where
  desc : List Byte
  parcel : Nat
  reference : Option (List Byte)
  arrayPart : Bool
  opId : Nat
  stream : Nat
  deriving DecidableEq, Repr

structure CluChk where
  state : ChkState := .normal
  inspector : Bool := false
  transients : Nat := 0
  test : Option TestInput := none
  lastOp : Nat := 0
  lastStream : Nat := 0
  deriving DecidableEq, Repr

/-- Everything one physical cluster holds but its local store. -/
structure Clu where
  seq : Seq := {}
  te : Te := {}
  ve : Arith := {}
  win : Win := {}
  chk : CluChk := {}
  deriving DecidableEq, Repr

/-- What belongs to a logical cluster number: queued programs, quiesce and sleep (06 R152, 18 R472 to R477). -/
structure LClus where
  progs : List Nat := []
  quiesced : Bool := false
  /-- a quiesce waits for an instruction in flight or for the records of a suspension -/
  quiescing : Bool := false
  asleep : Bool := false
  waking : Bool := false
  /-- local store kept over sleep, with the epoch in force at entry -/
  retained : Option Nat := none
  idleSince : Nat := 0
  deriving DecidableEq, Repr

/-! ## Tiles (01, 02, 07, 08, 09, 10, 18) -/

/-- A tile sequencer's registers and tables. -/
structure TileS where
  /-- the floor-plan page as last built, word by offset / 4; empty before the first build (01 R30) -/
  fpPage : KMap W32 := []
  /-- forwarding copies: entry i + 1 × physical row, unlisted meaning i -/
  fwdActive : KMap Nat := []
  fwdShadow : KMap Nat := []
  fwdEpoch : Bool := false
  swapRow : Nat := 0
  swapResult : Nat := 0
  /-- the row of the move in progress: LOGICAL_ROW stays writable while RESULT reads 1 -/
  swapMoving : Nat := 0
  beatCount : Nat := 0
  /-- beats completed by mapped clusters that the count has not taken in yet, and the 1 µs window of the last update -/
  beatsDone : Nat := 0
  beatWin : Nat := 0
  minRate : Nat := 0
  meanRate : Nat := 0
  cluResult : Nat := 0
  cluReason : Nat := 0
  cluLast : Nat := 0
  /-- clusters that the request in progress is waking or quiescing -/
  wakePend : List Nat := []
  wakeStale : Nat := 0
  qsDropped : Nat := 0
  slvGroup : Nat := 0
  deriving DecidableEq, Repr

/-- Solver registers of a tile's lead sequencer (08 R234, 09 R263). -/
structure TileSlv where
  lastGroup : Nat := 0
  curOp : Nat := 0
  pivReg : Nat := 0
  solves : W64 := 0
  factors : W64 := 0
  resid : W64 := 0
  corr : Nat := 0
  fixed : Bool := false
  iterations : Nat := 0
  dlMisses : Nat := 0
  breakdowns : Nat := 0
  warmRefused : Nat := 0
  deadline : W64 := 0
  slack : W64 := 0
  deriving DecidableEq, Repr

/-- A statistics slot (07 R196, R199, R201, R205, R206). -/
structure QsSlot where
  actScale : W32 := 0x3F800000
  actCfg : W32 := 5
  shdScale : W32 := 0x3F800000
  shdCfg : W32 := 5
  result : Nat := 0
  closeStep : Nat := 0
  epoch : Bool := false
  refused : Bool := false
  writeDropped : Bool := false
  nonfinite : Bool := false
  scaleSat : Bool := false
  closed : Bool := false
  hist : List Nat := []
  lastAmax : Nat := 0
  lastMse : Nat := 0
  deriving DecidableEq, Repr

/-- A tile's partial of a statistics slot (07 R197). -/
structure QsPart where
  smax : Nat := 0
  err : Nat := 0
  count : Nat := 0
  nonfinite : Bool := false
  deriving DecidableEq, Repr

/-- Staging slots of a stack-engine group (10 R292). -/
inductive StageSt where
  | empty | filling | full
  deriving DecidableEq, Repr

structure StageSlot where
  st : StageSt := .empty
  base : Nat := 0
  parcels : Nat := 0
  deriving DecidableEq, Repr

/-- A running stack-engine operation (10): work units done, units committed, the sources a list named, and what VERIFY
found. -/
structure SeRun where
  slot : Nat
  desc : List Byte
  next : Nat := 0
  done : Nat := 0
  sources : List (Nat × Nat) := []
  tags : List Nat := []
  fails : List Nat := []
  deriving DecidableEq, Repr

/-- A stack-engine group (10 R264, R266, R284, R285, R295). -/
structure SeGroup where
  queue : List (Nat × List Byte) := []
  run : Option SeRun := none
  /-- a gated UPDATE waits at the head since this postmark, and a post for its step has been accepted -/
  waiting : Option Nat := none
  posted : Bool := false
  stage : KMap StageSlot := []
  deriving DecidableEq, Repr

/-- Per-stack registers of a stack engine (10 R295, 03 R91). -/
structure SeStack where
  curOp : Nat := 0
  arith : Arith := {}
  groups : Nat := 0
  skipReplay : Nat := 0
  sealFails : Nat := 0
  deriving DecidableEq, Repr

/-- A verdict and a post of a loss watch (10 R280 to R287). -/
structure LossPost where
  cluster : Nat
  value : Nat
  postmark : Nat
  deriving DecidableEq, Repr

structure Verdict where
  step : Nat
  opened : Bool
  reason : Nat
  loss : Nat
  postmark : Nat
  deriving DecidableEq, Repr

structure Watch where
  enabled : Bool := false
  hlen : Nat := 32
  warmup : Nat := 8
  stream : Nat := 0
  windowUs : Nat := 1000
  posts : Nat := 1
  k : W64 := 0x4018000000000000
  minSd : W64 := 0
  openStep : Nat := 0
  lastReason : Nat := 0
  lastOpen : Bool := false
  lastLoss : W64 := 0
  mean : W64 := 0
  var : W64 := 0
  verdicts : List Verdict := []
  cur : List LossPost := []
  nxt : List LossPost := []
  hist : List Nat := []
  deriving DecidableEq, Repr

/-- A loss post in transit from a cluster to the watches (10 R281). -/
structure PostMsg where
  cluster : Nat
  stream : Nat
  step : Nat
  value : Nat
  deriving DecidableEq, Repr

/-! ## Solver groups (08, 09) -/

/-- One right-hand-side column of a running solve: its last completed iterate, whether it still runs, and the vectors
and numbers its method carries from one iteration to the next. -/
structure SolveCol where
  x : List Nat := []
  /-- 0 running, 1 converged, 2 broken down -/
  done : Nat := 0
  started : Bool := false
  vecs : KMap (List Nat) := []
  scal : KMap Nat := []
  /-- norm of the last residual formed for the iterate -/
  resid : Option Nat := none
  deriving DecidableEq, Repr

/-- How a solve will end once its iterate is published. -/
inductive SolveEnd where
  | done
  | notConverged (breakdown : Bool)
  | missed (phase : Nat)
  | error (status detail : Nat)
  deriving DecidableEq, Repr

/-- A running solve (08, 09): `phase` is TIL_SLV_STATUS.PHASE, `stage` the step within it. -/
structure SolveRun where
  slot : Nat
  accepted : Nat
  req : List Byte
  ext : List Byte := []
  members : List Nat := []
  n : Nat := 0
  phase : Nat := 1
  stage : Nat := 0
  /-- corrections or iterations completed -/
  c : Nat := 0
  cols : List SolveCol := []
  rhs : List (List Nat) := []
  anorm : Nat := 0
  emaxB : Int := -32768
  /-- assembled stores that the solve reads (R219) -/
  reads : List Nat := []
  /-- operations ahead of the stage's work on the members, once it has queued (R208) -/
  ahead : Option (List Nat) := none
  /-- the factor-store slot the solve holds with its FACTOR_FMT (R230), and the slot a factorisation has written and not
  committed -/
  held : Option Nat := none
  hcode : Nat := 0
  written : Option Nat := none
  /-- pivots replaced and the column of the first -/
  reg : Nat × Nat := (0, 0xFFFFFFFF)
  /-- the block factors in the solver state belong to this solve's store -/
  pcOk : Bool := false
  /-- the residual program's ledger entry, while it runs -/
  prog : Option Nat := none
  /-- output parcels published, and how the solve ends -/
  pub : Nat := 0
  fin : Option SolveEnd := none
  /-- the phase in which the deadline fell, while what must still be published is -/
  late : Option Nat := none
  /-- an abort waits for the parcel being written (R235) -/
  abort : Bool := false
  deriving DecidableEq, Repr

/-- A solver group: accepted requests (slot, postmark of acceptance, request) and the running solve. -/
structure SolverGrp where
  queue : List (Nat × Nat × List Byte) := []
  run : Option SolveRun := none
  deriving DecidableEq, Repr

/-! ## Stacked memory (12) -/

/-- A remapped row (12 R316): its rung and the spare it stands in. -/
structure RowMap where
  rung : Nat := 0
  spare : Nat := 0
  retired : Bool := false
  deriving DecidableEq, Repr

/-- A stack's controller (12 R309 to R323). -/
structure StackS where
  present : Bool := false
  reservedFail : Bool := false
  listFull : Bool := false
  step : Nat := 0
  dram : Int := 0
  base : Int := 0
  corrLimit : Nat := 4
  symTrig : Nat := 3
  rowTrig : Nat := 8
  rmpEpoch : Bool := false
  scrubEnable : Bool := true
  periodS : Nat := 3600
  nextQ : Nat := 0
  corrCount : Nat := 0
  uncorrCount : Nat := 0
  remaps : Nat := 0
  thrTime : Nat := 0
  lastErr : Nat := 0
  query : Nat := 0
  /-- retired pages in order, each with the epoch in force at its retirement (R318) -/
  retired : List (Nat × Nat) := []
  rows : KMap RowMap := []
  /-- per bank, a mask of spares in use or marked bad -/
  spares : KMap Nat := []
  counts : KMap Nat := []
  triggers : List Nat := []
  /-- rows whose trigger found the queue full and was dropped (R321) -/
  dropped : List Nat := []
  /-- lost parcels, by stack parcel index q -/
  lost : KMap Bool := []
  /-- error patterns at rest: key (q × 64 + codeword) × 72 + symbol -/
  symErr : KMap Byte := []
  /-- the record of R320 still to be copied to flash -/
  copyDue : Bool := false
  /-- first 1 ms interval whose temperature sample is still to come (R322) -/
  tempIv : Nat := 0
  /-- postmark from which time at step 2 or above is still to be added to `thrTime` -/
  thrSince : Nat := 0
  /-- the device identity the stack reported at its training (18 R460) -/
  identity : W64 := 0
  deriving DecidableEq, Repr

/-! ## Couriers (13) -/

inductive CrrPhase where
  | idle | running | waiting | halted | stopping
  deriving DecidableEq, Repr

/-- A round in execution (13): the parcels it occupies, the instruction under way, the bytes of the output of its finished
MOVE executions, its checked parcels and the tags of remote ones, the deliveries of the present MOVE execution that
committed, the source bytes of the next, what a halt will latch (status, write, address, restart byte), and what its WAIT
has seen. -/
structure Round where
  slot : Nat
  base : Nat
  locks : List Nat := []
  ins : Option (List Byte) := none
  out : Nat := 0
  checked : List Nat := []
  tags : List Nat := []
  del : Nat := 0
  moveChecked : List Nat := []
  moveTags : List Nat := []
  /-- source chunks of the delivery in progress, by line and parcel or register word -/
  cache : KMap (List Byte) := []
  /-- the remote delivery in flight: its bytes, and the committed units once it is answered -/
  pend : Option (Nat × Nat) := none
  fault : Option (Nat × Bool × Nat × Nat) := none
  waitFrom : Nat := 0
  lastPoll : Option Nat := none
  met : Bool := false
  deriving DecidableEq, Repr

structure Courier where
  bound : Bool := false
  group : Option Nat := none
  stream : Nat := 0
  bindRefused : Bool := false
  phase : CrrPhase := .idle
  queue : List Nat := []
  round : Option Round := none
  curOp : Nat := 0
  pc : Nat := 0
  lc : List Nat := [0, 0, 0, 0]
  faultAddr : Nat := 0
  faultValid : Bool := false
  faultDir : Bool := false
  faultCause : Nat := 0
  restart : Nat := 0
  bytes : Nat := 0
  rounds : Nat := 0
  halts : Nat := 0
  deriving DecidableEq, Repr

/-! ## What leaves the block -/

/-- What the block sends to the parties around it. -/
inductive Sent where
  /-- a posted write to host memory: bus address and bytes (mirror, notice, courier, pack results) -/
  | hostWrite (addr : Nat) (data : List Byte)
  /-- an MSI-X message of a vector -/
  | msix (vector : Nat)
  /-- the value a master's register or memory read returned, or the failed completion -/
  | readData (m : Nat) (addr : Nat) (data : List Byte)
  | readFail (m : Nat) (addr : Nat) (status : Nat)
  /-- a job packet put on a port -/
  | packet (port : Nat) (p : Packet)
  | discover (port : Nat) (d : Discover)
  | roster (port : Nat) (r : Roster)
  | linkState (port : Nat) (l : LinkState)
  | fwdAddr (port : Nat) (f : FwdAddr)
  | bcast (port : Nat) (b : Bcast)
  | timeSync (port : Nat) (t1 : Int)
  | timeReply (port : Nat) (t2 t3 : Int)
  /-- a control flit (14 R351) -/
  | flit (port : Nat) (data : List Byte)
  | join (chip : Nat) (r : JoinRec)
  | readDone (chip : Nat) (comm seq rank : Nat)
  | abort (chip : Nat) (comm seq rank status : Nat)
  /-- an MCTP or DOE answer -/
  | answer (data : List Byte)
  deriving DecidableEq, Repr

/-! ## Fabric (14, 18) -/

/-- A packet sent on a port and not yet acknowledged (14 R353): its first sequence number and its flits, its send time and
how often it was replayed. -/
structure Replay where
  seq : Nat
  item : Sent
  flits : Nat
  time : Nat
  count : Nat := 0
  deriving DecidableEq, Repr

/-- A packet that waits in a port's output queue: its VC, its flits, and the port, VC and buffers it still holds where it
came from (14 R352). -/
structure LinkItem where
  vc : Nat
  item : Sent
  flits : Nat := 1
  src : Option (Nat × Nat × Nat) := none
  deriving DecidableEq, Repr

/-- A fabric port (14 R351 to R355, R362 to R366, R381). -/
structure Port where
  state : Nat := 0
  cause : Nat := 0
  lpv : Nat := 0
  remapped : Bool := false
  savedUsed : Bool := false
  width : Nat := 0
  laneGroup : Nat := 0
  hold : Bool := false
  nbrSerial : W64 := 0
  nbrValid : Bool := false
  nbrPort : Nat := 0
  nbrChip : Nat := 0
  nbrDigest : List Byte := []
  nbrLoaded : Bool := false
  nbrLpv : Nat := 0
  retries : Nat := 0
  fecCorr : Nat := 0
  fecUncorr : Nat := 0
  lanes : Nat := 0
  /-- equaliser settings of the last training (14 R363) -/
  eq : W64 := 0
  /-- held because the wiring is no torus (14 R368) -/
  badWire : Bool := false
  /-- the replay buffer, oldest first -/
  replay : List Replay := []
  nextSeq : Nat := 0
  /-- the output queue, oldest first -/
  queue : List LinkItem := []
  /-- credits by VC; one not listed has all 64 (14 R352) -/
  credits : KMap Nat := []
  /-- the SEQ the receiver expects, and whether it discards flits until that one comes -/
  expect : Nat := 0
  discarding : Bool := false
  /-- buffers freed and not yet returned, by VC, and the last ACK told -/
  owed : KMap Nat := []
  told : Nat := 65535
  deriving DecidableEq, Repr

/-- One outstanding remote request (14 R360) and its reply. -/
structure Req where
  tag : Nat
  chip : Nat
  addr : Nat
  write : Bool
  reg : Bool
  sent : Nat
  /-- the rim die that tracks it -/
  rim : Nat := 0
  reply : Option (Nat × List Byte) := none
  deriving DecidableEq, Repr

/-- The module-wide fabric state (14 R356, R360, R367, R370 to R382). -/
structure Fab where
  chip : Nat := 0xFFFF
  spare : Bool := false
  coordChanged : Bool := false
  placed : Bool := false
  sizeX : Nat := 0
  sizeY : Nat := 0
  sizeZ : Nat := 0
  required : Nat := 0
  reqTimeout : Nat := 100
  lateReplies : Nat := 0
  routeDrops : Nat := 0
  auto : Bool := true
  rebuildDue : Bool := false
  rtEpoch : Bool := false
  rtIndex : Nat := 0
  rtActive : KMap Nat := []
  rtShadow : KMap Nat := []
  takeResult : Nat := 0
  takeFailed : Nat := 0
  aliasValid : Bool := false
  aliasChip : Nat := 0
  fwd : List (Option FwdEntry) := []
  fwdSeq : Nat := 0
  lastRoster : Nat := 0
  deriving DecidableEq, Repr

structure FabNet where
  rosters : List Roster := []
  /-- a roster is new or has changed since position was last settled -/
  dirty : Bool := false
  coord : Option (Nat × Nat × Nat) := none
  frame : W64 := 0
  /-- flooded packets recognised: kind, origin, sequence number -/
  seen : List (Nat × Nat × Nat) := []
  floodSeq : Nat := 0
  /-- directions announced unusable for job traffic by their module: chip × 8 + direction -/
  linkDown : KMap Bool := []
  /-- directions announced to carry no time -/
  timeDown : KMap Bool := []
  /-- directions for which no pairing stands in their module's roster -/
  noLink : KMap Bool := []
  /-- forwarding entries removed: no roster brings them back -/
  cleared : List FwdEntry := []
  reqs : List Req := []
  nextTag : Nat := 0
  retiredTags : List Nat := []
  /-- WRITE packets that wait for a read lock, oldest first (05 R138) -/
  held : List Packet := []
  deriving DecidableEq, Repr

/-- Kinds of broadcast object (18 R462). -/
structure BObj where
  id : Nat
  bkind : Nat
  force : Bool
  total : Nat
  digest : List Byte
  frags : KMap (List Byte) := []
  /-- flood sequence numbers of the fragments -/
  seqs : KMap Nat := []
  complete : Bool := false
  deriving DecidableEq, Repr

structure BcastS where
  bkind : Nat := 0
  force : Bool := false
  source : Bool := false
  result : Nat := 0
  lastId : Nat := 0
  src : W64 := 0
  len : W32 := 0
  sentCount : Nat := 0
  objs : List BObj := []
  heldImage : Option (List Byte) := none
  deriving DecidableEq, Repr

/-! ## Collectives (15) -/

/-- A running collective (15 R390 to R395): the chips of its list, the ranks whose join records have arrived and that
have finished reading this member's IN, the pieces of OUT committed, and when its join records were last sent. -/
structure CollRun where
  slot : Nat
  req : List Byte
  chips : List Nat
  joined : List Nat := []
  readDone : List Nat := []
  next : Nat := 0
  /-- this member has reported that it has finished reading -/
  told : Bool := false
  lastJoin : Nat := 0
  tags : List Nat := []
  deriving DecidableEq, Repr

/-- A communicator: accepted requests with their lists, the running one, join records and read reports held for later
sequence numbers, and the sequence numbers used since the last compute reset. -/
structure CommS where
  queue : List (Nat × List Byte × List Nat) := []
  run : Option CollRun := none
  held : List JoinRec := []
  /-- read reports for later sequence numbers: sequence number and rank -/
  early : List (Nat × Nat) := []
  usedSeq : List Nat := []
  deriving DecidableEq, Repr

/-! ## Image, access tables, boot (17, 18) -/

/-- A window of the access tables (17 R448). -/
structure AccWin where
  first : Nat
  count : Nat
  mask : BitVec 128
  deriving DecidableEq, Repr

/-- One copy of the access tables: masks of targets 0 to 37 and the HBM windows (17 R444, R448). -/
structure AccTab where
  masks : List (BitVec 128)
  wins : List AccWin
  deriving DecidableEq, Repr

/-- Image registers (17 R443) and the image in force; an empty byte string stands for no image. -/
structure ImageS where
  source : Bool := false
  reason : Nat := 0
  result : Nat := 0
  loaded : Bool := false
  src : W64 := 0
  len : W32 := 0
  epoch : Nat := 0
  refuseOff : W32 := 0
  imageId : W64 := 0
  digest : List Byte := []
  inForce : List Byte := []
  /-- the image a load has read and checked, until its flip -/
  staged : Option (List Byte) := none
  deriving DecidableEq, Repr

/-- Bring-up status page (18 R459) and pins (22). -/
structure Boot where
  stage : Nat := 0
  error : Nat := 0
  computeReset : Bool := false
  full : Bool := false
  stagePm : Nat := 0
  stageCyc : Nat := 0
  memSaved : W32 := 0
  memFailed : W32 := 0
  durS3 : Nat := 0
  durS4 : Nat := 0
  forceFull : Bool := false
  /-- the field remap record failed its check: this bring-up trains fully (18 R455) -/
  remapLost : Bool := false
  resetCause : Nat := 0
  earlyReads : Nat := 0
  earlyWrites : Nat := 0
  earlyAddr : W64 := 0
  earlyValid : Bool := false
  earlyDir : Bool := false
  earlyMaster : Nat := 0
  postVer : Nat := 0
  sorterVer : Nat := 0
  sorterStopped : Bool := false
  restarts : List Nat := []
  /-- the rim time clocks run (18 R453, 22 R546) -/
  rimClocks : Bool := false
  /-- the Postmaster stage and the firmware bundle that run; empty before they start (20 R511, 18 R465) -/
  runStage : List Byte := []
  runBundle : List Byte := []
  deriving DecidableEq, Repr

structure Pins where
  power : Bool := false
  tripped : Bool := false
  resetN : Bool := true
  perstN : Bool := true
  pwrgd : Bool := false
  alertN : Bool := true
  /-- the address straps as read at S0: the SMBus address is 0x28 + this (22 R541) -/
  straps : Nat := 0
  deriving DecidableEq, Repr

/-! ## Checks (19) -/

/-- A failure signature (19 R500). -/
structure Cper where
  id : Nat
  sev : Nat
  event : Nat
  unit : Nat
  postmark : Nat
  epoch : Nat
  chip : Nat
  logical : Nat
  location : Nat
  opId : Nat
  stream : Nat
  status : Nat
  case : Nat
  address : Nat
  repeats : Nat
  transients : Nat
  placed : Bool
  deriving DecidableEq, Repr

structure Chk where
  transLimit : Nat := 4
  autoRetire : Bool := true
  sealEvents : Nat := 0
  disagree : Nat := 0
  resolved : Nat := 0
  unresolved : Nat := 0
  transient : Nat := 0
  permanent : Nat := 0
  parity : Nat := 0
  pathRetry : Nat := 0
  packSource : Bool := false
  packResult : Nat := 0
  packSrc : W64 := 0
  packLen : W32 := 0
  packOut : W64 := 0
  cperHead : Nat := 0
  cperTail : Nat := 0
  cperLost : Nat := 0
  ring : KMap (Option Cper) := []
  /-- per EVENT and unit: the 1 s window of the last record and the events folded since (R502) -/
  folds : KMap (Nat × Nat) := []
  pack : Option (List Byte) := none
  packPending : Option (List Byte) := none
  packScope : List Nat := []
  hour : Nat := 0
  /-- masters whose next access fails, because a transfer's repetition failed too (19 R482) -/
  pathFail : List Nat := []
  deriving DecidableEq, Repr

/-! ## Security block (20) -/

structure Deny where
  postmark : Nat
  master : Nat
  write : Bool
  cause : Nat
  address : Nat
  deriving DecidableEq, Repr

/-- Security registers (20 R523), the arm and staging buffer of R518, and pending signatures (R512). -/
structure Sec where
  attReady : Bool := false
  attLost : Bool := false
  verKind : Nat := 0
  verResult : Nat := 0
  verVersion : Nat := 0
  verFails : Nat := 0
  attNext : Nat := 0
  /-- the write of the next ceiling to flash is in progress (20 R512) -/
  attWriting : Bool := false
  signs : Nat := 0
  calPending : Bool := false
  armed : Option (W32 × Nat) := none
  staging : KMap Byte := []
  calRead : List Nat := []
  denyTail : Nat := 0
  deny : KMap (Option Deny) := []
  /-- requests in arrival order that wait for a ceiling write or the end of an image load (20 R512, R515) -/
  waiting : List (List Byte) := []
  /-- the calibration record in force; empty for the factory's -/
  calNow : List Byte := []
  challenges : Nat := 0
  atIndex : Nat := 0
  atDenied : Nat := 0
  atEpoch : Bool := false
  deriving DecidableEq, Repr

/-! ## Power (21) -/

/-- A tile's purse and voltage: `target` is an entry of its voltage-to-rate table, `voltage` the voltage in force at
postmark `since`, from which it slews to the target (02 R48); the last intervals in which its purse
ran short, and which it ended with a quarter of its grant unspent, newest first (21 R531). -/
structure PTile where
  grant : Nat := 0
  step : Nat := 0
  voltage : Nat := 0
  since : Nat := 0
  target : Nat := 0
  short : List Bool := []
  quarter : List Bool := []
  deriving DecidableEq, Repr

structure LedgerEnt where
  minute : Nat
  mean : Nat
  peak : Nat
  forecast : Nat
  cap : Nat
  flags : Nat
  waited : Nat
  deriving DecidableEq, Repr

structure Power where
  capReq : W32 := 0
  /-- requested caps with the postmark of each request, newest first, one a window: a cap is in force from the first
  window that begins after its request; none in force means the variant's (21 R529) -/
  peakCaps : List (Nat × Nat) := []
  minCaps : List (Nat × Nat) := []
  plan : W32 := 0
  nowPeak : Nat := 0
  minuteMean : Nat := 0
  lastSample : Nat := 0
  forecast : Nat := 0
  flags : Nat := 0
  ledgerTail : Nat := 0
  waits : Nat := 0
  stamps : Nat := 0
  tripValid : Bool := false
  tripIdx : Nat := 0
  tripReading : Int := 0
  temps : KMap Int := []
  ledger : KMap (Option LedgerEnt) := []
  tiles : KMap PTile := []
  deriving DecidableEq, Repr

/-- The governor's running sums (21 R526 to R533), energies in mJ: the minute and 100 ms windows they belong to, the first
interval and whole second still to come, the last samples, newest first, and what the minute's ledger entry will hold. -/
structure PowerRun where
  minuteIdx : Nat := 0
  winIdx : Nat := 0
  nextIv : Nat := 0
  nextSec : Nat := 0
  minuteE : Nat := 0
  windowE : Nat := 0
  minuteN : Nat := 0
  waitN : Nat := 0
  minutePeak : Nat := 0
  minuteFore : Nat := 0
  thermal : Bool := false
  cutMinute : Bool := true
  hist : List Nat := []
  deriving DecidableEq, Repr

/-! ## Flash and fuses -/

/-- Remap records of one stack as copied to flash (12 R320). -/
structure StackCopy where
  lost : KMap Bool := []
  rows : KMap RowMap := []
  spares : KMap Nat := []
  retired : List (Nat × Nat) := []
  reservedFail : Bool := false
  deriving DecidableEq, Repr

/-- Module flash, which persists through every reset and power cycle. -/
structure Flash where
  /-- physical clusters retired in the field and recorded (01 R28, 19 R493) -/
  retiredClu : List Nat := []
  /-- row moves recorded: tile × 16 + logical row to physical row + 1 (01 R39) -/
  rowMoves : KMap Nat := []
  stks : KMap StackCopy := []
  /-- saved settings of each stack: the device identity and the temperature of its hottest sensor (18 R460) -/
  stkSaved : KMap (Option (W64 × Int)) := []
  portSaved : KMap (Option (W64 × Nat × Nat × W64)) := []
  frame : W64 := 0
  coord : Option (Nat × Nat × Nat) := none
  /-- the two copies of the signature ceiling: sequence number and ceiling; none is a copy that is not valid -/
  ceilA : Option (Nat × Nat) := some (0, 0)
  ceilB : Option (Nat × Nat) := none
  cperId : Nat := 0
  suspects : List Nat := []
  trip : Option (Nat × Int) := none
  fwFloor : Nat := 0
  slotA : List Byte := []
  slotB : List Byte := []
  bundle : List Byte := []
  cal : List Byte := []
  deriving DecidableEq, Repr

/-- Retirements and stack records still to be copied to flash (12 R320, 19 R493). -/
structure FlashDue where
  clus : List Nat := []
  stacksTrained : List Nat := []
  portsTrained : List Nat := []
  deriving DecidableEq, Repr

/-! ## The whole state -/

/-- Units on the tiles. -/
structure Core where
  clus : KMap Clu := []
  lclus : KMap LClus := []
  tiles : KMap TileS := []
  tileSlv : KMap TileSlv := []
  /-- dead letters, by logical number (01 R33) -/
  dead : KMap Bool := []
  /-- holes, by physical index (01 R28) -/
  holes : KMap Bool := []
  qs : KMap QsSlot := []
  qsPart : KMap QsPart := []
  groups : KMap SolverGrp := []
  se : KMap SeGroup := []
  seStack : KMap SeStack := []
  watches : KMap Watch := []
  posts : List PostMsg := []
  lwDropped : Nat := 0
  deriving DecidableEq, Repr

/-- Memory: the bytes of HBM and of the local stores, and the seals at rest. -/
structure Store where
  bytes : List Host.Cell := []
  /-- stored seal exclusive-or the seal of the parcel's home address and data, by parcel key; unlisted: they match -/
  sealDelta : KMap W32 := []
  stks : KMap StackS := []
  deriving DecidableEq, Repr

/-- The state of the block. -/
structure State where
  pending : List Instr
  time : TimeBase
  store : Store
  core : Core
  ledger : KMap Op
  streams : KMap Stream
  boxes : KMap Letterbox
  hif : Hif
  ring : HifRing
  couriers : KMap Courier
  ports : KMap Port
  fab : Fab
  net : FabNet
  comms : KMap CommS
  bcast : BcastS
  image : ImageS
  access : AccTab
  boot : Boot
  pins : Pins
  chk : Chk
  sec : Sec
  power : Power
  prun : PowerRun
  flash : Flash
  due : FlashDue
  /-- read latches of the _HI registers: key master × 2^26 + offset of _HI (02 R63) -/
  latch : KMap W32
  sent : List Sent
  /-- the model's own counter of free values -/
  free : Nat
  deriving DecidableEq, Repr

/-! ## Reset -/

/-- Masters that hold every target but SEC, fuses and calibration in the default tables (17 R451): Sorter, host,
management, tile sequencers, courier groups 0x20 to 0x29 and stack-engine groups. -/
def defaultMasters : List Nat :=
  [1, 2, 4] ++ [16, 17, 18, 19, 20, 21, 22, 23] ++ [32, 33, 34, 35, 36, 37, 38, 39, 40, 41] ++
  [48, 49, 50, 51, 52, 53, 54, 55]

/-- Mask giving READ and WRITE to a list of masters (17 R444). -/
def maskOf (l : List Nat) : BitVec 128 := BitVec.ofNat 128 (l.foldl (fun a m => a + 3 * 4 ^ m) 0)

/-- Default mask of a target: 4 is SEC, 36 and 37 the fuse array and the calibration store, 28 to 35 the local
stores; targets 10 and 11 are reserved (17 R444, R449 to R451, 20 R522). -/
def defaultMask (t : Nat) : BitVec 128 :=
  if t == 10 || t == 11 then 0
  else if t == 4 then maskOf [0] ||| BitVec.ofNat 128 (4 ^ 4)
  else if t == 36 || t == 37 then maskOf [0]
  else if 28 ≤ t && t < 36 then maskOf (0 :: 3 :: defaultMasters)
  else maskOf (0 :: defaultMasters)

/-- The default tables: one window covers all of HBM (17 R451). -/
def defaultAccess : AccTab :=
  ⟨(List.range 38).map defaultMask, [⟨0, 1564672, maskOf (0 :: 3 :: defaultMasters)⟩]⟩

/-- The block right after a power-on reset has begun (18 R453, R468): stage S0, input applied, nothing listed. -/
def State.reset : State :=
  { pending := [], time := {}, store := {}, core := {}, ledger := [], streams := [], boxes := [], hif := {},
    ring := {}, couriers := [], ports := [], fab := {}, net := {}, comms := [], bcast := {}, image := {},
    access := defaultAccess, boot := {}, pins := { power := true }, chk := {}, sec := {}, power := {}, prun := {},
    flash := {}, due := {}, latch := [], sent := [], free := 0 }

end Sys2Proof.Machine
end

