-- ==== Sys2Proof/Machine/Ops.lean ====
section
/-! DEFINITION. Named operations shared by every family: access to the units of the state, events and messages, the
denial log, failure signatures, the ledger and its streams (spec/00, 16, 19, 20). -/

namespace Sys2Proof.Machine

abbrev Result := Host.Outcome State Fault Refusal

/-! ## Status codes (00 R18) -/

def stWarm : Nat := 0x01
def stPivot : Nat := 0x02
def stInspRes : Nat := 0x03
def stSat : Nat := 0x04
def stNonfin : Nat := 0x05
def stGated : Nat := 0x06
def stDeadline : Nat := 0x40
def stSeal : Nat := 0x41
def stUncorr : Nat := 0x42
def stBus : Nat := 0x43
def stDead : Nat := 0x44
def stInspUnres : Nat := 0x45
def stDenied : Nat := 0x46
def stDep : Nat := 0x47
def stStruct : Nat := 0x48
def stWinOvf : Nat := 0x49
def stVector : Nat := 0x4A
def stLink : Nat := 0x4B
def stReset : Nat := 0x4C
def stNotReady : Nat := 0x4D
def stNotConv : Nat := 0x4E
def stDouble : Nat := 0x4F

/-! ## Units -/

def State.now (s : State) : Nat := s.time.pm

def State.clu (s : State) (p : Nat) : Clu := kget {} s.core.clus p
def State.setClu (s : State) (p : Nat) (c : Clu) : State :=
  { s with core := { s.core with clus := kset {} s.core.clus p c } }
def State.lclu (s : State) (n : Nat) : LClus := kget {} s.core.lclus n
def State.setLclu (s : State) (n : Nat) (c : LClus) : State :=
  { s with core := { s.core with lclus := kset {} s.core.lclus n c } }
def State.tile (s : State) (t : Nat) : TileS := kget {} s.core.tiles t
def State.setTile (s : State) (t : Nat) (x : TileS) : State :=
  { s with core := { s.core with tiles := kset {} s.core.tiles t x } }
def State.tslv (s : State) (t : Nat) : TileSlv := kget {} s.core.tileSlv t
def State.setTslv (s : State) (t : Nat) (x : TileSlv) : State :=
  { s with core := { s.core with tileSlv := kset {} s.core.tileSlv t x } }
def State.qslot (s : State) (q : Nat) : QsSlot := kget {} s.core.qs q
def State.setQslot (s : State) (q : Nat) (x : QsSlot) : State :=
  { s with core := { s.core with qs := kset {} s.core.qs q x } }
/-- Key of a tile's partial of a statistics slot. -/
def qsPartKey (t q : Nat) : Nat := t * 256 + q
def State.qpart (s : State) (t q : Nat) : QsPart := kget {} s.core.qsPart (qsPartKey t q)
def State.setQpart (s : State) (t q : Nat) (x : QsPart) : State :=
  { s with core := { s.core with qsPart := kset {} s.core.qsPart (qsPartKey t q) x } }
def State.group (s : State) (g : Nat) : SolverGrp := kget {} s.core.groups g
def State.setGroup (s : State) (g : Nat) (x : SolverGrp) : State :=
  { s with core := { s.core with groups := kset {} s.core.groups g x } }
def State.seg (s : State) (t : Nat) : SeGroup := kget {} s.core.se t
def State.setSeg (s : State) (t : Nat) (x : SeGroup) : State :=
  { s with core := { s.core with se := kset {} s.core.se t x } }
def State.sest (s : State) (k : Nat) : SeStack := kget {} s.core.seStack k
def State.setSest (s : State) (k : Nat) (x : SeStack) : State :=
  { s with core := { s.core with seStack := kset {} s.core.seStack k x } }
def State.watch (s : State) (w : Nat) : Watch := kget {} s.core.watches w
def State.setWatch (s : State) (w : Nat) (x : Watch) : State :=
  { s with core := { s.core with watches := kset {} s.core.watches w x } }
def State.stk (s : State) (k : Nat) : StackS := kget {} s.store.stks k
def State.setStk (s : State) (k : Nat) (x : StackS) : State :=
  { s with store := { s.store with stks := kset {} s.store.stks k x } }
def State.courier (s : State) (c : Nat) : Courier := kget {} s.couriers c
def State.setCourier (s : State) (c : Nat) (x : Courier) : State :=
  { s with couriers := kset {} s.couriers c x }
def State.port (s : State) (n : Nat) : Port := kget {} s.ports n
def State.setPort (s : State) (n : Nat) (x : Port) : State := { s with ports := kset {} s.ports n x }
def State.box (s : State) (k : Nat) : Letterbox := kget {} s.boxes k
def State.setBox (s : State) (k : Nat) (x : Letterbox) : State := { s with boxes := kset {} s.boxes k x }
def State.strm (s : State) (k : Nat) : Stream := kget {} s.streams k
def State.setStrm (s : State) (k : Nat) (x : Stream) : State := { s with streams := kset {} s.streams k x }
def State.comm (s : State) (k : Nat) : CommS := kget {} s.comms k
def State.setComm (s : State) (k : Nat) (x : CommS) : State := { s with comms := kset {} s.comms k x }
def State.op (s : State) (slot : Nat) : Option Op := kfind s.ledger slot
def State.setOp (s : State) (slot : Nat) (o : Op) : State := { s with ledger := kput s.ledger slot o }

def State.send (s : State) (x : Sent) : State := { s with sent := s.sent ++ [x] }
def State.sendAll (s : State) (l : List Sent) : State := { s with sent := s.sent ++ l }

/-- Takes the next free value; the step advances the counter. -/
def State.takeFree (s : State) : W64 × State := (Config.freeValue s.free, { s with free := s.free + 1 })

/-- Counters of 32 bits stop at 0xFFFF_FFFF. -/
def inc32 (n : Nat) : Nat := satCount (n + 1)
def add32 (n k : Nat) : Nat := satCount (n + k)

def arithPost (a : Arith) (t : Tally) : Arith :=
  ⟨flagsOr a.fl t.fl, add32 a.sat t.sat, add32 a.nonfin t.nonfin⟩

/-! ## Numbers and names (01 R21 to R25) -/

def tileOfP (p : Nat) : Nat := p / 288
def rowOfP (p : Nat) : Nat := p % 288 / 16
def colOfP (p : Nat) : Nat := p % 16
def physOf (t r c : Nat) : Nat := t * 288 + r * 16 + c
def tileOfN (n : Nat) : Nat := n / 256
def rowOfN (n : Nat) : Nat := n % 256 / 16

/-- Physical row behind logical row r of a tile, by the active copy (01 R31). -/
def fwdRow (s : State) (t r : Nat) : Nat :=
  let v := kget 0 (s.tile t).fwdActive r
  if v == 0 then r else v - 1

def fwdShadowRow (s : State) (t r : Nat) : Nat :=
  let v := kget 0 (s.tile t).fwdShadow r
  if v == 0 then r else v - 1

/-- Physical index that backs logical number n. -/
def physOfN (s : State) (n : Nat) : Nat := physOf (tileOfN n) (fwdRow s (tileOfN n) (rowOfN n)) (n % 16)

/-- Logical number that physical cluster p backs, if its row is mapped (01 R26). -/
def logicalOfP (s : State) (p : Nat) : Option Nat :=
  match (List.range 16).find? (fun r => fwdRow s (tileOfP p) r == rowOfP p) with
  | some r => some (tileOfP p * 256 + r * 16 + colOfP p)
  | none => none

def isDead (s : State) (n : Nat) : Bool := kget false s.core.dead n
def isHole (s : State) (p : Nat) : Bool := kget false s.core.holes p
def isAsleep (s : State) (n : Nat) : Bool := (s.lclu n).asleep || (s.lclu n).waking
def isQuiesced (s : State) (n : Nat) : Bool := (s.lclu n).quiesced
/-- Quiesced, or on the way there: no work starts. -/
def isStopped (s : State) (n : Nat) : Bool := (s.lclu n).quiesced || (s.lclu n).quiescing

/-! ## Turns (02 R51) -/

/-- Whether requester k is the one granted next: the first of those that still wait, or any where none waits. A requester
that was turned away is granted before every one that comes after it. -/
def inTurn (still : Nat → Bool) (l : List Nat) (k : Nat) : Bool := (l.filter still).headD k == k

/-- The waiting requesters with k among them. -/
def addTurn (still : Nat → Bool) (l : List Nat) (k : Nat) : List Nat :=
  let m := l.filter still
  if m.contains k then m else m ++ [k]

/-- A ledger operation waits at its unit's issuer. -/
def slotWaits (s : State) (slot : Nat) : Bool := (s.op slot).any (fun o => o.place == .atIssuer)

/-! ## Denial log (20 R521) -/

def denyAdd (s : State) (m : Nat) (write : Bool) (cause addr : Nat) : State :=
  let k := s.sec.denyTail
  { s with sec := { s.sec with
      deny := kset none s.sec.deny (k % 256) (some ⟨s.now, m, write, cause, addr % 2 ^ 48⟩),
      denyTail := (k + 1) % 2 ^ 32 } }

/-! ## MSI-X (16 R424) -/

/-- A table word; PCI Express resets the vector control word to masked and the rest to zero. -/
def msixWord (s : State) (i : Nat) : W32 := kget (if i % 4 == 3 then 1 else 0) s.ring.msixTable i

def sendMsix (s : State) (v : Nat) : State :=
  if !s.hif.linkUp then s
  else if (msixWord s (4 * v + 3)).toNat % 2 == 1 then
    { s with ring := { s.ring with msixPending := if s.ring.msixPending.contains v then s.ring.msixPending
                                                  else v :: s.ring.msixPending } }
  else s.send (.msix v)

/-- Sets MIRROR_STALE, with vector 3 when it becomes set (16 R424, R425). -/
def setStale (s : State) : State :=
  let t := { s with hif := { s.hif with mirrorStale := true } }
  if s.hif.mirrorStale then t else sendMsix t 3

def setNoticeFull (s : State) : State :=
  let t := { s with hif := { s.hif with noticeFull := true } }
  if s.hif.noticeFull then t else sendMsix t 3

def setRefusal (s : State) : State :=
  let t := { s with hif := { s.hif with refusal := true } }
  if s.hif.refusal then t else sendMsix t 2

def setLbFault (s : State) : State :=
  let t := { s with hif := { s.hif with lbFault := true } }
  if s.hif.lbFault then t else sendMsix t 2

/-- A posted write to host memory by the host interface: dropped while the link is down (16 R425). -/
def hostPost (s : State) (addr : Nat) (data : List Byte) : State :=
  if s.hif.linkUp then s.send (.hostWrite addr data) else s

/-! ## Failure signatures (19 R500 to R503) -/

def cperBlank : Cper := ⟨0, 0, 0, 0, 0, 0, 0, 0xFFFF, 0, 0, 0, 0, 0, 0, 0, 0, false⟩

/-- Severities of the event table (19 R501). -/
def cperSeverity (event : Nat) : Nat :=
  if event == 0x30 then 1
  else if [0x02, 0x04, 0x06, 0x10, 0x12].contains event then 2
  else if event == 0x09 then 3 else 0

/-- Puts a record in the ring, or counts it lost (19 R503). -/
def cperStore (s : State) (c : Cper) : State :=
  let id := s.flash.cperId
  let s := { s with flash := { s.flash with cperId := (id + 1) % 2 ^ 64 } }
  if (s.chk.cperTail + 2 ^ 32 - s.chk.cperHead) % 2 ^ 32 == 256 then
    { s with chk := { s.chk with cperLost := inc32 s.chk.cperLost } }
  else
    { s with chk := { s.chk with
        ring := kset none s.chk.ring (s.chk.cperTail % 256) (some { c with id := id }),
        cperTail := (s.chk.cperTail + 1) % 2 ^ 32 } }

/-- Makes a record for an event on a unit, under the rate rule (19 R502). -/
def cperAdd (s : State) (event unitKey : Nat) (c : Cper) : State :=
  let c := { c with event := event, sev := cperSeverity event, postmark := s.now, epoch := s.image.epoch,
                    chip := if s.fab.placed then s.fab.chip else 0xFFFF, placed := s.fab.placed }
  if [0x05, 0x07, 0x08, 0x14, 0x30].contains event then cperStore s c
  else
    let key := event * 2 ^ 40 + unitKey
    let sec := s.now / 1000000000 + 1
    let f := kget (0, 0) s.chk.folds key
    if f.1 == sec then
      { s with chk := { s.chk with folds := kset (0, 0) s.chk.folds key (f.1, f.2 + 1) } }
    else
      cperStore { s with chk := { s.chk with folds := kset (0, 0) s.chk.folds key (sec, 0) } }
        { c with repeats := f.2 }

/-- LOCATION of a cluster: physical index, tile, physical row, column (19 R500). -/
def locCluster (p : Nat) : Nat := p + 2 ^ 16 * tileOfP p + 2 ^ 24 * rowOfP p + 2 ^ 32 * colOfP p

/-- LOCATION of a memory row (19 R500): stack, channel, bank, row. -/
def locMemory (stack q : Nat) : Nat :=
  stack + 2 ^ 8 * (q % 16) + 2 ^ 16 * (q / 16 % 48) + 2 ^ 24 * (q / 768)

/-- The unit that makes an access, and the slot of the operation it makes it for. -/
structure By where
  unit : Nat
  slot : Option Nat := none
  deriving DecidableEq, Repr

def byOp (s : State) (u : By) : Nat × Nat :=
  match u.slot.bind s.op with
  | some o => (o.rcpt.opId, o.rcpt.stream)
  | none => (0, 0)

/-- A seal mismatch found by a unit (19 R480): counted and signed. -/
def sealEvent (s : State) (u : By) (key loc home : Nat) : State :=
  let s := { s with chk := { s.chk with sealEvents := inc32 s.chk.sealEvents } }
  let o := byOp s u
  cperAdd s 0x01 key { cperBlank with
    unit := u.unit, location := loc, opId := o.1, stream := o.2, status := stSeal, address := home }

/-! ## Receipts -/

def rstateCode (r : RState) : Nat :=
  match r with
  | .notStarted => 0 | .inProgress => 1 | .done => 2 | .failed => 3 | .partialEnd => 4

def rstateFinal (r : RState) : Bool :=
  match r with
  | .done => true | .failed => true | .partialEnd => true | _ => false

/-- The 32 bytes of a receipt (00 R13). -/
def receiptBytes (r : Receipt) : List Byte :=
  bytesOfNat 4 r.opId ++ bytesOfNat 1 (rstateCode r.state) ++ bytesOfNat 1 r.status ++ bytesOfNat 2 0 ++
  bytesOfNat 4 r.count ++ bytesOfNat 4 (r.stream % 65536) ++ bytesOfNat 8 r.postmark ++ bytesOfNat 8 r.detail

/-- Detail bytes [27:24] and [31:28]. -/
def detail2 (a b : Nat) : Nat := a % 2 ^ 32 + 2 ^ 32 * (b % 2 ^ 32)

/-- Writes a receipt to the mirror (16 R420, R425). A solve's residual program (09 R247) has an entry above the
131,072 slots, which no mirror or notice shows. -/
def mirrorReceipt (s : State) (slot : Nat) : State :=
  match s.op slot with
  | none => s
  | some o =>
    if 131072 ≤ slot then s
    else if !s.hif.linkUp then setStale s
    else if s.hif.mirrorEn then s.send (.hostWrite (s.hif.ledgerBase.toNat + 32 * slot) (receiptBytes o.rcpt))
    else s

/-- A notice's 16 bytes, PHASE zero (16 R421). -/
def noticeBytes (slot : Nat) (o : Op) : List Byte :=
  bytesOfNat 4 slot ++ bytesOfNat 1 (rstateCode o.rcpt.state) ++ bytesOfNat 1 o.rcpt.status ++ bytesOfNat 2 0 ++
  bytesOfNat 4 o.rcpt.opId ++ bytesOfNat 4 o.rcpt.count

/-- PHASE of entry `i` of a ring of 2^k entries: 1 on even laps (16 R408). -/
def ringPhase (i k : Nat) : Nat := if i / 2 ^ k % 2 == 0 then 1 else 0

def noticeFree (s : State) : Bool :=
  (s.ring.noticeTail + 2 ^ 32 - s.ring.noticeHead) % 2 ^ 32 < 2 ^ s.ring.noticeSize

/-- Appends one notice (16 R421) and marks its letterbox's window (R424). -/
def noticePut (s : State) (n : Option Nat × List Byte) : State :=
  let t := s.ring.noticeTail
  let s1 := s.send (.hostWrite (s.hif.noticeBase.toNat + 16 * (t % 2 ^ s.ring.noticeSize))
    (overlay n.2 6 (bytesOfNat 1 (ringPhase t s.ring.noticeSize))))
  let s2 := { s1 with ring := { s1.ring with noticeTail := (t + 1) % 2 ^ 32 } }
  match n.1 with
  | some k => s2.setBox k { s2.box k with notifyAt := some ((s2.box k).notifyAt.getD s.now) }
  | none => s2

/-- Appends held notices, oldest first, while the ring has space. -/
def noticeDrain (s : State) (l : List (Option Nat × List Byte)) : State :=
  match l with
  | [] => { s with ring := { s.ring with heldNotices := [] } }
  | n :: t =>
    if noticeFree s then noticeDrain (noticePut s n) t
    else { s with ring := { s.ring with heldNotices := n :: t } }

/-- The notice of a final receipt (16 R421); dropped while the link is down or the mirror is off. -/
def noticeAppend (s : State) (slot : Nat) : State :=
  match s.op slot with
  | none => s
  | some o =>
    let n := (if o.notify then o.letterbox else none, noticeBytes slot o)
    if 131072 ≤ slot then s
    else if !s.hif.linkUp then setStale s
    else if !s.hif.mirrorEn then s
    else if s.ring.heldNotices.isEmpty && noticeFree s then noticePut s n
    else setNoticeFull { s with ring := { s.ring with heldNotices := s.ring.heldNotices ++ [n] } }

/-- Changes a receipt and mirrors the change (16 R420). -/
def setReceipt (s : State) (slot : Nat) (o : Op) : State := mirrorReceipt (s.setOp slot o) slot

/-- NOT_STARTED to IN_PROGRESS (00 R14). -/
def opStart (s : State) (slot : Nat) : State :=
  match s.op slot with
  | none => s
  | some o =>
    if o.rcpt.state = .notStarted then
      setReceipt s slot { o with place := .running, rcpt := { o.rcpt with state := .inProgress } }
    else s

/-- Chip numbers of a collective's member list as memory holds it: for one that ends before its list was read. -/
def listInMemory (s : State) (b : List Byte) : List Nat :=
  let n := leAt b 12 4
  let a := leAt b 56 8
  if n == 0 || 65536 < n || a % 4096 != 0 || 0x02FC00000000 < a + 2 * n || leAt b 4 1 != 0x10 then []
  else if (List.range ((2 * n + 4095) / 4096)).any (fun i => kget 0 s.store.sealDelta (a / 4096 + i) != 0) then []
  else (List.range n).map (fun i =>
    natOfBytes [kget 0 s.store.bytes (a + 2 * i), kget 0 s.store.bytes (a + 2 * i + 1)])

/-- Abort notices of a collective that ends in error, to every other member of its list (15 R394). -/
def abortNotices (s : State) (o : Op) (status : Nat) : State :=
  if o.kind != 6 then s
  else
    let b := o.payload
    let chips := if o.chips.isEmpty then listInMemory s b else o.chips
    s.sendAll ((chips.zipIdx.filter (fun e => e.2 != leAt b 16 4)).map (fun e =>
      .abort e.1 (leAt b 28 4) (leAt b 32 4) (leAt b 16 4) status))

/-- A final state, its mirror write and its notice (00 R14, 16 R421). -/
def opFinal (s : State) (slot : Nat) (st : RState) (status detail : Nat) : State :=
  match s.op slot with
  | none => s
  | some o =>
    if rstateFinal o.rcpt.state then s
    else
      let o' := { o with place := .final,
                         rcpt := { o.rcpt with state := st, status := status, detail := detail, postmark := s.now } }
      noticeAppend (setReceipt (if st = .done then s else abortNotices s o status) slot o') slot

/-! ## Streams (16 R414 to R418) -/

/-- The failing condition of a waiting operation: a failed dependency (R417), or a step after the one that halted
its stream (R416). Answers the slot its detail names. -/
def opDoomed (s : State) (o : Op) : Option Nat :=
  if o.rcpt.state = .notStarted ∧ o.place = .inStream then
    match o.deps.find? (fun d => match s.op d with
        | some x => x.rcpt.state = .failed || x.rcpt.state = .partialEnd
        | none => false) with
    | some d => some d
    | none =>
      let st := s.strm o.rcpt.stream
      if st.halted && (st.failStep < o.step || (o.kind == 7 && st.failStep ≤ o.step)) then some st.failSlot
      else none
  else none

/-- Halts the stream of a failed operation (16 R416). -/
def haltStream (s : State) (slot : Nat) : State :=
  match s.op slot with
  | none => s
  | some o =>
    let st := s.strm o.rcpt.stream
    if st.halted || !st.ops.contains slot then s
    else s.setStrm o.rcpt.stream { st with halted := true, failSlot := slot, failStep := o.step }

/-- Ends every waiting operation that a failure dooms, and those their failures doom in turn (00 R16). -/
def settle (fuel : Nat) (s : State) : State :=
  match fuel with
  | 0 => s
  | k + 1 =>
    match s.ledger.find? (fun e => (opDoomed s e.2).isSome) with
    | none => s
    | some e =>
      let d := (opDoomed s e.2).getD 0
      settle k (haltStream (opFinal s e.1 .failed stDep (detail2 d 0)) e.1)

/-- Ends an operation in error: PARTIAL when its count is above zero, FAILED otherwise (00 R15), and halts its
stream. `forcePartial` is the exception of 09 R246 and R251. -/
def opFailAs (s : State) (slot : Nat) (status detail : Nat) (forcePartial : Bool) : State :=
  match s.op slot with
  | none => s
  | some o =>
    if rstateFinal o.rcpt.state then s
    else
      let st : RState :=
        if o.rcpt.state = .notStarted then .failed
        else if forcePartial || 0 < o.rcpt.count then .partialEnd else .failed
      let s1 := haltStream (opFinal s slot st status detail) slot
      settle (s1.ledger.length + 1) s1

def opFail (s : State) (slot : Nat) (status detail : Nat) : State := opFailAs s slot status detail false

/-- Malformed: detail [27:24] is 0xFFFF_FF00 plus the reason, [31:28] the field's offset (16 R413 and its like). -/
def opMalformed (s : State) (slot reason off : Nat) : State :=
  opFail s slot stStruct (detail2 (0xFFFFFF00 + reason) off)

/-- The lowest-numbered warning met, with its detail (00 R19, 03 R90). -/
def opWarning (o : Op) : Nat × Nat :=
  let l := o.warns ++ (if 0 < o.sat then [(stSat, detail2 (satCount o.sat) o.satFirst)] else []) ++
    (if 0 < o.nonfin then [(stNonfin, detail2 (satCount o.nonfin) o.nonfinFirst)] else [])
  l.foldl (fun a w => if a.1 == 0 || w.1 < a.1 then w else a) (0, 0)

/-- Ends an operation DONE with the lowest warning it met. -/
def opDone (s : State) (slot : Nat) : State :=
  match s.op slot with
  | none => s
  | some o =>
    let w := opWarning o
    opFinal (opStart s slot) slot .done w.1 w.2

/-- Raises an operation's committed count; it never decreases (00 R15). -/
def opCount (s : State) (slot : Nat) (n : Nat) : State :=
  match s.op slot with
  | none => s
  | some o => s.setOp slot { o with rcpt := { o.rcpt with count := max o.rcpt.count n } }

/-- Adds the counts of a committed output parcel, or of a register destination (`none`), to an operation (03 R90). -/
def opTally (s : State) (slot : Nat) (t : Tally) (parcel : Option Nat) : State :=
  match s.op slot with
  | none => s
  | some o =>
    let f := parcel.getD 0xFFFFFFFF
    s.setOp slot { o with
      sat := o.sat + t.sat, satFirst := if 0 < t.sat then min o.satFirst f else o.satFirst,
      nonfin := o.nonfin + t.nonfin, nonfinFirst := if 0 < t.nonfin then min o.nonfinFirst f else o.nonfinFirst }

def opWarn (s : State) (slot status detail : Nat) : State :=
  match s.op slot with
  | none => s
  | some o => s.setOp slot { o with warns := o.warns ++ [(status, detail)] }

def opPlace (s : State) (slot : Nat) (p : Place) : State :=
  match s.op slot with
  | none => s
  | some o => s.setOp slot { o with place := p }

/-- Whether an operation still runs. -/
def opLive (s : State) (slot : Nat) : Bool :=
  match s.op slot with
  | none => false
  | some o => !rstateFinal o.rcpt.state

/-- A mark that stands for an operation whose slot was released, in a stream's memory of deliveries (02 R53, R54). -/
def releasedMark (opId : Nat) : Nat := 2 ^ 32 + opId

def opIdOf (s : State) (slot : Nat) : Nat :=
  if 2 ^ 32 ≤ slot then slot - 2 ^ 32
  else match s.op slot with
    | none => 0
    | some o => o.rcpt.opId

def streamOf (s : State) (slot : Nat) : Nat :=
  match s.op slot with
  | none => 0
  | some o => o.rcpt.stream

end Sys2Proof.Machine
end

