-- ==== Sys2Proof/Machine/Image.lean ====
section
/-! DEFINITION. The Zynette image in force as functions of its bytes (spec/17 R429 to R434), and the access tables
(R444 to R451). -/

namespace Sys2Proof.Machine

/-! ## Sections -/

/-- Directory entry `i`: TYPE, OFFSET, SIZE. -/
def imgEntry (img : List Byte) (i : Nat) : Nat × Nat × Nat :=
  (leAt img (64 + 16 * i) 2, leAt img (64 + 16 * i + 4) 4, leAt img (64 + 16 * i + 8) 4)

def imgSections (img : List Byte) : Nat := leAt img 10 2

/-- The bytes of a section, none where it is absent or no image is in force. -/
def imgSection (img : List Byte) (ty : Nat) : Option (List Byte) :=
  match ((List.range (imgSections img)).map (imgEntry img)).find? (fun e => e.1 == ty) with
  | some e => some (bytesAt img e.2.1 e.2.2)
  | none => none

/-- Cluster group of logical cluster n (R431). -/
def imgGroupOf (img : List Byte) (n : Nat) : Nat :=
  match imgSection img 1 with
  | some b => leAt b n 1
  | none => 0

/-- Policy of a cluster group: IDLE_US and RETAIN (R431). -/
def imgPolicy (img : List Byte) (g : Nat) : Nat × Bool :=
  match imgSection img 1 with
  | some b => let w := leAt b (2048 + 4 * g) 4; (field w 0 24, w.testBit 24)
  | none => (0, false)

/-- Solver group of logical cluster n (R431). -/
def imgSolverOf (img : List Byte) (n : Nat) : Option Nat :=
  match imgSection img 1 with
  | some b => let g := leAt b (2304 + 2 * n) 2; if g == 0xFFFF then none else some g
  | none => none

/-- Logical clusters of a solver group, ascending (R431). -/
def solverClusters (img : List Byte) (g : Nat) : List Nat :=
  match imgSection img 1 with
  | some _ => (List.range 2048).filter (fun n => imgSolverOf img n == some g)
  | none => []

/-- Interleave entries: FIRST, COUNT, MODE in 16 GiB units (R432). -/
def imgRegions (img : List Byte) : List (Nat × Nat × Nat) :=
  match imgSection img 2 with
  | some b => (chunks 8 b).map (fun e => (leAt e 0 2, leAt e 2 2, leAt e 4 1))
  | none => []

/-- The region entry that covers an HBM offset, if one does. -/
def imgRegionAt (img : List Byte) (off : Nat) : Option (Nat × Nat × Nat) :=
  let u := off / 2 ^ 34
  (imgRegions img).find? (fun r => decide (r.1 ≤ u ∧ u < r.1 + r.2.1))

/-- The tile-local region of an offset: its bounds [a, b) (R305). -/
def tileLocalAt (img : List Byte) (off : Nat) : Option (Nat × Nat) :=
  match imgRegionAt img off with
  | some r => if r.2.2 == 1 then some (r.1 * 2 ^ 34, (r.1 + r.2.1) * 2 ^ 34) else none
  | none => none

/-- Stream allocation: 0 unallocated, 1 host, 2 Sorter (R430). -/
def imgStreamAlloc (img : List Byte) (k : Nat) : Nat :=
  match imgSection img 3 with
  | some b => field (leAt b (k / 4) 1) (2 * (k % 4)) 2
  | none => if k < 32768 then 1 else 2

/-- Service mask (R434): every service on by default. -/
def imgServices (img : List Byte) : Nat :=
  match imgSection img 7 with
  | some b => leAt b 0 4
  | none => 0x7F

/-- A service runs when its bit is set and Sorter has not been stopped (20 R506). -/
def serviceOn (s : State) (bit : Nat) : Bool := (imgServices s.image.inForce).testBit bit && !s.boot.sorterStopped

/-- Wiring: AUTO, required-port mask, spare list, expected sizes (R433). -/
structure Wiring where
  x : Nat := 0
  y : Nat := 0
  z : Nat := 0
  auto : Bool := true
  mask : Nat := 0
  spares : List Nat := []
  deriving DecidableEq, Repr

def imgWiring (img : List Byte) : Wiring :=
  match imgSection img 5 with
  | some b =>
    { x := leAt b 0 1, y := leAt b 1 1, z := leAt b 2 1, auto := (leAt b 3 1).testBit 0,
      mask := field (leAt b 4 2) 0 12,
      spares := (List.range (leAt b 6 2)).map (fun i => leAt b (16 + 2 * i) 2) }
  | none => {}

/-- Microcode ids of the tile sequencers and the stack engines. -/
def imgMicrocode (img : List Byte) : Nat × Nat :=
  match imgSection img 6 with
  | some b => (leAt b 0 2, leAt b 2 2)
  | none => (0, 0)

/-- IMG_TAG: bytes [3:0] of the digest (R435). -/
def imgTag (s : State) : Nat := leAt s.image.digest 0 4

/-! ## Access tables -/

/-- Whether a mask gives a master READ or WRITE (R444). -/
def maskAllows (mask : BitVec 128) (m : Nat) (write : Bool) : Bool :=
  mask.getLsbD (2 * m + (if write then 1 else 0))

def tabAllows (t : AccTab) (target m : Nat) (write : Bool) : Bool :=
  maskAllows (t.masks.getD target 0) m write

/-- Whether a master may reach an HBM parcel: its window's mask; no window, only Postmaster (R445). -/
def hbmAllows (t : AccTab) (off m : Nat) (write : Bool) : Bool :=
  let page := off / 2 ^ 21
  match t.wins.find? (fun w => decide (w.first ≤ page ∧ page < w.first + w.count)) with
  | some w => maskAllows w.mask m write
  | none => m == 0

/-- The access target of a register-space offset (00 R9, 17 R444); none where no block defines the offset. -/
def regTarget (off : Nat) : Option Nat :=
  if off < 0x1000 then some 0
  else if off < 0x2000 then some 1
  else if off < 0x10000 then none
  else if off < 0x100000 then some 2
  else if off < 0x200000 then some 3
  else if off < 0x300000 then some 4
  else if off < 0x400000 then some 5
  else if off < 0x800000 then some 6
  else if off < 0xA00000 then some 7
  else if off < 0xC00000 then some 8
  else if off < 0x1000000 then some 9
  else if off < 0x1800000 then some (12 + (off - 0x1000000) / 0x100000)
  else if off < 0x2000000 then none
  else if off < 0x2000000 + 2304 * 0x1000 then some (20 + (off - 0x2000000) / 0x1000 / 288)
  else none

/-- A refusal under the access tables: counted and logged (17 R446). -/
def denyAccess (s : State) (m : Nat) (write : Bool) (addr : Nat) : State :=
  denyAdd { s with sec := { s.sec with atDenied := inc32 s.sec.atDenied } } m write 1 addr

/-- Early access: answered with all ones or dropped, counted and recorded (18 R456). -/
def earlyAccess (s : State) (m : Nat) (write : Bool) (addr : Nat) : State :=
  { s with boot := { s.boot with
      earlyReads := if write then s.boot.earlyReads else inc32 s.boot.earlyReads,
      earlyWrites := if write then inc32 s.boot.earlyWrites else s.boot.earlyWrites,
      earlyAddr := BitVec.ofNat 64 addr, earlyValid := true, earlyDir := write, earlyMaster := m } }

/-- How an access to a register word is met before its fields are looked at; at S0 nothing answers. -/
inductive Gate where
  | ok | off | early | denied | cperDenied
  deriving DecidableEq, Repr

/-- Blocks that answer at a stage before S6 (18 R456, R457, R467). -/
def stageAnswers (s : State) (off : Nat) (write : Bool) : Bool :=
  let st := s.boot.stage
  if st == 6 then true
  else if st == 7 then
    if write then [some 1, some 2, some 3, some 6].contains (regTarget off) else true
  else if st == 0 then false
  else if off < 0x1000 then true
  else if off < 0x1100 then true
  else st == 5 && ((0x1100 ≤ off && off < 0x1114) || (0x1800 ≤ off && off < 0x1860))

/-- Register blocks of tile resources, which do not answer during a compute reset (18 R471). -/
def tileBlock (off : Nat) : Bool :=
  match regTarget off with
  | some t => t == 7 || t == 8 || (12 ≤ t && t < 28)
  | none => false

/-- The CPER window and CHK_CPER_HEAD are Postmaster's and management's alone (19 R503). -/
def cperGuard (m off : Nat) (write : Bool) : Bool :=
  (m != 0 && m != 4) && ((0x310000 ≤ off && off < 0x330000) || (write && off == 0x300200))

def regGate (s : State) (m off : Nat) (write : Bool) : Gate :=
  if s.boot.stage == 0 then .off
  else if m == 0 then .ok
  else if !stageAnswers s off write then .early
  else if s.boot.computeReset && tileBlock off then .early
  else if cperGuard m off write then .cperDenied
  else match regTarget off with
    | none => .ok
    | some t => if tabAllows s.access t m write then .ok else .denied

/-- The register space's local offset (01 R43). -/
def regBase : Nat := 0x7F0000000000

/-- What a refused or early access leaves behind. -/
def gateFail (s : State) (g : Gate) (m off : Nat) (write : Bool) : State :=
  match g with
  | .ok => s
  | .off => s
  | .early => earlyAccess s m write (regBase + off)
  | .denied => denyAccess s m write (regBase + off)
  | .cperDenied =>
    denyAdd { s with sec := { s.sec with atDenied := inc32 s.sec.atDenied } } m write 5 (regBase + off)

/-- A register write by a master: `act` where every check lets it through. -/
def gated (s : State) (m off : Nat) (act : State → State) : State :=
  match regGate s m off true with
  | .ok => act s
  | g => gateFail s g m off true

/-- A write to an RWL field by a master other than Postmaster: logged when its bits differ (00 R10). -/
def rwlDenied (s : State) (m off cur new : Nat) : State :=
  if cur == new then s else denyAdd s m true 2 (regBase + off)

end Sys2Proof.Machine
end

