-- ==== Sys2Proof/Machine/Mem.lean ====
section
/-! DEFINITION. Memory: interleave, the symbol code, parcels, seals and lost marks (spec/12, spec/01 R41 to R46 and
R557, spec/19 R478 to R480). -/

namespace Sys2Proof.Machine

/-! ## Interleave (12 R304, R305) -/

/-- A device-wide offset's stack and stack parcel. -/
def deviceWide (y : Nat) : Nat × Nat :=
  let p := y / 4096
  let u := p / 32
  let f := (field u 0 5) ^^^ (field u 5 5) ^^^ (field u 10 5) ^^^ (field u 15 5) ^^^ (field u 20 5)
  ((p % 32) ^^^ f, u)

def pairFold (k u : Nat) : Nat :=
  match k with
  | 0 => 0
  | k + 1 => (u % 4) ^^^ pairFold k (u / 4)

/-- A tile-local offset's stack and stack parcel, in a region [a, b). -/
def tileLocal (a b y : Nat) : Nat × Nat :=
  let l := (b - a) / 8
  let t := (y - a) / l
  let pt := (y - a - t * l) / 4096
  let u := pt / 4
  (4 * t + ((pt % 4) ^^^ pairFold 13 u), a / 0x20000 + u)

def stackOfIn (img : List Byte) (y : Nat) : Nat × Nat :=
  match tileLocalAt img y with
  | some r => tileLocal r.1 r.2 y
  | none => deviceWide y

/-- Stack and stack parcel index of an HBM offset under the image in force. -/
def stackOf (s : State) (y : Nat) : Nat × Nat := stackOfIn s.image.inForce y

/-- HBM ends at 3,056 GiB (01 R43). -/
def hbmEnd : Nat := 0x02FC00000000

/-- The HBM offset a stack parcel backs, by a search over its 32 or fewer candidates; none in the reserved region. -/
def offsetOf (s : State) (stack q : Nat) : Option Nat :=
  if 25034752 ≤ q then none
  else
    match tileLocalAt s.image.inForce (q * 0x20000) with
    | some r =>
      let l := (r.2 - r.1) / 8
      let base := r.1 + (stack / 4) * l + (q - r.1 / 0x20000) * 4 * 4096
      ((List.range 4).map (fun i => base + i * 4096)).find? (fun y => stackOf s y == (stack, q))
    | none => ((List.range 32).map (fun i => (q * 32 + i) * 4096)).find? (fun y => deviceWide y == (stack, q))

/-! ## The symbol code (12 R306 to R308) -/

/-- Product in GF(2^8) with field polynomial 0x11D. -/
def gfMulAux (k a b acc : Nat) : Nat :=
  match k with
  | 0 => acc
  | k + 1 =>
    let acc := if b % 2 == 1 then acc ^^^ a else acc
    let a2 := 2 * a
    gfMulAux k (if 256 ≤ a2 then a2 ^^^ 0x11D else a2) (b / 2) acc

def gfMul (a b : Nat) : Nat := gfMulAux 8 a b 0

def gfPow (a k : Nat) : Nat :=
  match k with
  | 0 => 1
  | k + 1 => gfMul a (gfPow a k)

/-- α^k, with α = 2. -/
def gfExp (k : Nat) : Nat := gfPow 2 (k % 255)
def gfInv (a : Nat) : Nat := gfPow a 254

/-- An error pattern of a codeword: symbol index and exclusive-or mask. Symbol i is the coefficient of x^(71 − i). -/
abbrev ErrPat := List (Nat × Nat)

/-- Syndromes of a pattern at the roots α^0 to α^7. -/
def rsSyndromes (e : ErrPat) : List Nat :=
  (List.range 8).map (fun k => e.foldl (fun a x => a ^^^ gfMul x.2 (gfExp (k * (71 - x.1)))) 0)

def polyAt (p : List Nat) (x : Nat) : Nat :=
  match p with
  | [] => 0
  | a :: t => a ^^^ gfMul x (polyAt t x)

def polyAdd (p q : List Nat) : List Nat :=
  (List.range (max p.length q.length)).map (fun i => p.getD i 0 ^^^ q.getD i 0)

structure BmState where
  c : List Nat
  b : List Nat
  l : Nat
  m : Nat
  d : Nat
  deriving DecidableEq, Repr

/-- One step of Berlekamp and Massey's algorithm at syndrome `n`. -/
def bmStep (syn : List Nat) (n : Nat) (x : BmState) : BmState :=
  let delta := (List.range (x.l + 1)).foldl (fun a i => a ^^^ gfMul (x.c.getD i 0) (if i ≤ n then syn.getD (n - i) 0 else 0)) 0
  if delta == 0 then { x with m := x.m + 1 }
  else
    let f := gfMul delta (gfInv x.d)
    let c' := polyAdd x.c (List.replicate x.m 0 ++ x.b.map (gfMul f))
    if 2 * x.l ≤ n then ⟨c', x.c, n + 1 - x.l, 1, delta⟩ else { x with c := c', m := x.m + 1 }

def bmRun (syn : List Nat) : BmState :=
  (List.range 8).foldl (fun x n => bmStep syn n x) ⟨[1], [1], 0, 1, 1⟩

/-- The errors a bounded-distance decoder of radius `t` removes; none when no codeword lies within `t` symbols. -/
def rsDecode (t : Nat) (syn : List Nat) : Option ErrPat :=
  if syn.all (fun v => v == 0) then some []
  else
    let x := bmRun syn
    if t < x.l then none
    else
      let roots := (List.range 72).filter (fun i => polyAt x.c (gfInv (gfExp (71 - i))) == 0)
      if roots.length != x.l then none
      else
        let omega := (List.range 8).map (fun k =>
          (List.range (k + 1)).foldl (fun a i => a ^^^ gfMul (x.c.getD i 0) (syn.getD (k - i) 0)) 0)
        let deriv := (List.range 8).map (fun k => if k % 2 == 0 then x.c.getD (k + 1) 0 else 0)
        let e := roots.map (fun i =>
          let xk := gfExp (71 - i)
          (i, gfMul xk (gfMul (polyAt omega (gfInv xk)) (gfInv (polyAt deriv (gfInv xk))))))
        if rsSyndromes e == syn then some e else none

/-! ## Parcels -/

/-- Base of the key range of local stores: the physical local-store region (01 R43). -/
def storeBase : Nat := 0x500000000000
def logStoreBase : Nat := 0x400000000000
/-- Key of byte `off` of physical cluster p's local store. -/
def storeKey (p off : Nat) : Nat := storeBase + p * 0x400000 + off

/-- The canonical form of memory: addresses strictly rising, and no byte listed that reads as zero anyway. -/
abbrev Memory.wf (m : List Host.Cell) : Prop := KCanon 0 m

/-- One byte of memory. An address that lists nothing reads as zero (DESIGN CHOICE, log 1). -/
def memByte (s : State) (a : Nat) : Byte := kget 0 s.store.bytes a

/-- Bytes at ascending addresses, with no check. -/
def memBytes (s : State) (a n : Nat) : List Byte :=
  match n with
  | 0 => []
  | k + 1 => memByte s a :: memBytes s (a + 1) k

/-- Writes a byte string into the byte list, keeping its canonical form. -/
def putBytes (m : List Host.Cell) (a : Nat) (l : List Byte) : List Host.Cell :=
  match l with
  | [] => m
  | b :: t => putBytes (kset 0 m a b) (a + 1) t

def memPut (s : State) (a : Nat) (l : List Byte) : State :=
  { s with store := { s.store with bytes := putBytes s.store.bytes a l } }

/-- Drops every byte of [a, b): they read as zero. -/
def memClear (s : State) (a b : Nat) : State :=
  { s with store := { s.store with
      bytes := s.store.bytes.filter (fun e => decide (e.1 < a ∨ b ≤ e.1)),
      sealDelta := s.store.sealDelta.filter (fun e => decide (e.1 < a / 4096 ∨ b / 4096 ≤ e.1)) } }

/-- Whether a parcel key is one of HBM's. -/
def keyIsHbm (k : Nat) : Bool := k < hbmEnd

/-- Home address of the parcel at a key (01 R46, R557). -/
def homeOf (s : State) (k : Nat) : Nat :=
  if keyIsHbm k then k
  else
    let p := (k - storeBase) / 0x400000
    match logicalOfP s p with
    | some n => if isHole s p then k else logStoreBase + n * 0x400000 + (k - storeBase) % 0x400000
    | none => k

/-- The seal of a home address and data (19 R478). -/
def sealOf (home : Nat) (data : List Byte) : Nat := crc32c (bytesOfNat 8 home ++ data)

def sealDeltaOf (s : State) (k : Nat) : W32 := kget 0 s.store.sealDelta (k / 4096)

/-- The seal stored with the parcel at a key. -/
def storedSeal (s : State) (k : Nat) : Nat :=
  sealOf (homeOf s k) (memBytes s k 4096) ^^^ (sealDeltaOf s k).toNat

/-! ## Rows, triggers and correction counts (12 R309, R315, R321) -/

/-- MEM_THR_TIME: whole microseconds spent at step 2 or above (R323). -/
def thrNow (s : State) (x : StackS) : Nat :=
  if 2 ≤ x.step then add32 x.thrTime ((s.now - x.thrSince) / 1000) else x.thrTime

/-- A trigger joins the queue of 64; one for a row queued already merges, and one that finds the queue full is dropped
(R321), which the stack remembers until the row's next failing access. -/
def sendTrigger (x : StackS) (q : Nat) : StackS :=
  if x.triggers.contains q then x
  else if 64 ≤ x.triggers.length then { x with dropped := if x.dropped.contains q then x.dropped else q :: x.dropped }
  else { x with triggers := x.triggers ++ [q], dropped := x.dropped.filter (fun t => t != q) }

/-- Counts a corrected codeword of row q: up to 1,024 rows, the lowest count giving way (R315). -/
def countRow (x : StackS) (q : Nat) : StackS :=
  let c := kget 0 x.counts q
  if c == 0 && 1024 ≤ x.counts.length then
    let low := x.counts.foldl (fun a e => if e.2 < a.2 then e else a) (0, 2 ^ 32)
    { x with counts := kset 0 (kdel x.counts low.1) q 1 }
  else { x with counts := kset 0 x.counts q (c + 1) }

def corrLimitOf (x : StackS) : Nat := if 4 < x.corrLimit then 4 else x.corrLimit
def symTrigOf (x : StackS) : Nat := if x.symTrig == 0 || 4 < x.symTrig then 4 else x.symTrig

/-- MEM_LAST_ERR (12 R323). -/
def lastErrWord (kind symbols q : Nat) : Nat :=
  kind * 2 ^ 30 + symbols * 2 ^ 27 + (q % 16) * 2 ^ 23 + (q / 16 % 48) * 2 ^ 17 + q / 768

/-- Error pattern at rest of codeword `cw` of stack parcel q. -/
def errAt (x : StackS) (q cw : Nat) : ErrPat :=
  (x.symErr.filter (fun e => decide (e.1 / 72 = q * 64 + cw))).map (fun e => (e.1 % 72, e.2.toNat))

def parcelErrs (x : StackS) (q : Nat) : KMap Byte :=
  x.symErr.filter (fun e => decide (e.1 / 4608 = q))

/-- Drops the entries of a table whose keys fall in a range. -/
def kcut {α : Type} (t : KMap α) (lo hi : Nat) : KMap α := t.filter (fun e => decide (e.1 < lo ∨ hi ≤ e.1))

/-- Writes back what a codeword holds after its correction. -/
def writeBack (x : StackS) (q cw : Nat) (res : ErrPat) : StackS :=
  let base := (q * 64 + cw) * 72
  { x with symErr := res.foldl (fun m e => kset 0 m (base + e.1) (BitVec.ofNat 8 e.2)) (kcut x.symErr base (base + 72)) }

/-- What an error pattern leaves once the decoder has applied its correction. -/
def residualOf (e c : ErrPat) : ErrPat :=
  ((e ++ c).foldl (fun (a : KMap Byte) y => kset 0 a y.1 (kget 0 a y.1 ^^^ BitVec.ofNat 8 y.2)) []).map
    (fun y => (y.1, y.2.toNat))

def clearErrs (x : StackS) (q : Nat) : StackS :=
  { x with symErr := x.symErr.filter (fun e => decide (e.1 / 4608 ≠ q)) }

/-- The reserved parcel that stores the seal of stack parcel q (R302). -/
def sealParcel (q : Nat) : Nat := 25034752 + q / 1024

/-- The codeword of that parcel that holds the seal, in its symbols 4 × (q mod 16) to 4 × (q mod 16) + 3 (R302). -/
def sealCw (q : Nat) : Nat := q % 1024 / 16

/-- The errors of a seal-store codeword that fall on q's own seal, as bits of the seal. -/
def sealMask (q : Nat) (e : ErrPat) : Nat :=
  (e.filter (fun y => y.1 / 4 == q % 16)).foldl (fun a y => a ^^^ y.2 * 256 ^ (y.1 % 4)) 0

/-- Stores parcel q's seal in its codeword: a codeword the decoder can repair is written back repaired, and one it cannot
keeps its errors in the other symbols (log 105). -/
def sealWrite (x : StackS) (q : Nat) : StackS :=
  let p := sealParcel q
  let e := errAt x p (sealCw q)
  if e.isEmpty then x
  else
    let left := match rsDecode (corrLimitOf x) (rsSyndromes e) with
      | some c => residualOf e c
      | none => e
    writeBack x p (sealCw q) (left.filter (fun y => y.1 / 4 != q % 16))

def isLost (x : StackS) (q : Nat) : Bool := kget false x.lost q

/-- A codeword met by a read or by the scrubber (R309, R312, R315). Answers the state, the residual error of a
delivered codeword, and whether it was uncorrectable. -/
def meetCodeword (s : State) (k q cw : Nat) : State × ErrPat × Bool :=
  let x := s.stk k
  let e := errAt x q cw
  if e.isEmpty then (s, [], false)
  else
    match rsDecode (corrLimitOf x) (rsSyndromes e) with
    | some c =>
      if c.isEmpty then (s, e, false)
      else
        let x1 := countRow { x with corrCount := inc32 x.corrCount, lastErr := lastErrWord 1 c.length q } q
        let x2 := if symTrigOf x1 ≤ c.length || (x1.rowTrig != 0 && x1.rowTrig ≤ kget 0 x1.counts q)
                  then sendTrigger x1 q else x1
        let s1 := cperAdd (s.setStk k x2) 0x10 (k * 2 ^ 25 + q) { cperBlank with unit := 10, location := locMemory k q }
        (s1, residualOf e c, false)
    | none =>
      let x1 := sendTrigger { x with uncorrCount := inc32 x.uncorrCount, lastErr := lastErrWord 2 7 q,
                                     lost := kset false x.lost q true } q
      (cperAdd (s.setStk k x1) 0x11 (k * 2 ^ 25 + q)
        { cperBlank with unit := 10, location := locMemory k q, status := stUncorr }, [], true)

/-- All 64 codewords of a parcel: the residual errors by symbol key cw × 72 + symbol, or uncorrectable. -/
def meetParcel (n : Nat) (s : State) (k q : Nat) : State × KMap Byte × Bool :=
  match n with
  | 0 => (s, [], false)
  | n + 1 =>
    let r := meetParcel n s k q
    if r.2.2 then r
    else
      let w := meetCodeword r.1 k q n
      (w.1, w.2.1.foldl (fun a y => kset 0 a (n * 72 + y.1) (BitVec.ofNat 8 y.2)) r.2.1, w.2.2)

/-- Parcel bytes with the residual errors of a miscorrection laid over them. -/
def applyResidual (d : List Byte) (r : KMap Byte) : List Byte :=
  r.foldl (fun a e =>
    let sym := e.1 % 72
    if sym < 64 then
      let i := e.1 / 72 * 64 + sym
      a.set i (a.getD i 0 ^^^ e.2)
    else a) d

/-- Outcome of a read: data, a status, or a remote reply still to come. -/
inductive Rd where
  | ok (data : List Byte)
  | fail (status : Nat)
  | wait
  deriving DecidableEq, Repr

/-- Whether an HBM page is retired: every write to it fails, and a read does once an image has been loaded since any
of its retirements (R318). -/
def retiredAt (s : State) (y : Nat) (write : Bool) : Bool :=
  s.store.stks.any (fun e => e.2.retired.any (fun r => r.1 == y / 2 ^ 21 && (write || r.2 != s.image.epoch)))

/-- Why an HBM parcel does not answer, before its contents are looked at (R303, R318, R319, 17 R439, 18 R471). -/
def hbmRefuses (s : State) (y : Nat) (write : Bool) : Option Nat :=
  let changing := match s.image.staged with
    | some img => (tileLocalAt img y).isSome != (tileLocalAt s.image.inForce y).isSome
    | none => false
  if changing || s.boot.computeReset then some stNotReady
  else if !(s.stk (stackOf s y).1).present then some stNotReady
  else if retiredAt s y write then some stBus else none

/-- A read of a lost parcel fails; a row whose trigger was dropped is triggered again (R310, R321). -/
def lostRead (s : State) (k q : Nat) : State :=
  let x := s.stk k
  if x.dropped.contains q then s.setStk k (sendTrigger x q) else s

/-- The codewords of stack parcel q and, with `wantSeal`, the one of its seal: the residual errors of the data, the bits of
the seal that are wrong, or uncorrectable (R302, R309 to R311). -/
def meetStored (s : State) (k q : Nat) (wantSeal : Bool) : State × KMap Byte × Nat × Bool :=
  let m := meetParcel 64 s k q
  if m.2.2 || !wantSeal then (m.1, m.2.1, 0, m.2.2)
  else
    let w := meetCodeword m.1 k (sealParcel q) (sealCw q)
    (w.1, m.2.1, sealMask q w.2.1, w.2.2)

/-- Whether stack parcel q, or with `wantSeal` the one that stores its seal, is lost, with the state of the failed read. -/
def meetLost (s : State) (k q : Nat) (wantSeal : Bool) : Option State :=
  if isLost (s.stk k) q then some (lostRead s k q)
  else if wantSeal && isLost (s.stk k) (sealParcel q) then some (lostRead s k (sealParcel q)) else none

/-- Reads the parcel at a key whole; with `check`, its seal is read and checked too (R309, R310, 19 R480). `u` signs a
mismatch. -/
def parcelGet (s : State) (k : Nat) (check : Bool) (u : By) : State × Rd :=
  if keyIsHbm k then
    match hbmRefuses s k false with
    | some st => (s, .fail st)
    | none =>
      let sq := stackOf s k
      match meetLost s sq.1 sq.2 check with
      | some s1 => (s1, .fail stUncorr)
      | none =>
        let m := meetStored s sq.1 sq.2 check
        if m.2.2.2 then (m.1, .fail stUncorr)
        else
          let d := applyResidual (memBytes s k 4096) m.2.1
          let bad := if m.2.1.isEmpty then sealDeltaOf s k != BitVec.ofNat 32 m.2.2.1
                     else sealOf k d != storedSeal s k ^^^ m.2.2.1
          if check && bad then (sealEvent m.1 u k (locMemory sq.1 sq.2) k, .fail stSeal) else (m.1, .ok d)
  else if s.boot.computeReset then (s, .fail stNotReady)
  else if check && sealDeltaOf s k != 0 then
    let p := (k - storeBase) / 0x400000
    (sealEvent s u k (locCluster p) (homeOf s k), .fail stSeal)
  else (s, .ok (memBytes s k 4096))

def parcelRead (s : State) (k : Nat) (u : By) : State × Rd := parcelGet s k true u

/-- Writes a whole parcel with a new seal: data and seal commit as one event, and a lost parcel is whole again
(R310, R311). Answers the status of a refusal. -/
def parcelWrite (s : State) (k : Nat) (data : List Byte) : State × Option Nat :=
  let put (s : State) : State :=
    let s1 := memPut s k data
    { s1 with store := { s1.store with sealDelta := kset 0 s1.store.sealDelta (k / 4096) 0 } }
  if keyIsHbm k then
    match hbmRefuses s k true with
    | some st => (s, some st)
    | none =>
      let sq := stackOf s k
      let x := sealWrite (clearErrs (s.stk sq.1) sq.2) sq.2
      (put (s.setStk sq.1 { x with
        lost := kset false x.lost sq.2 false, dropped := x.dropped.filter (fun t => t != sq.2) }), none)
  else if s.boot.computeReset then (s, some stNotReady)
  else (put s, none)

/-- A partial write: the old parcel is read whole, its seal checked, and the merged parcel sealed anew (06 R176,
13 R339). -/
def parcelMerge (s : State) (k off : Nat) (data : List Byte) (u : By) : State × Option Nat :=
  if off == 0 && data.length == 4096 then parcelWrite s k data
  else
    match (if keyIsHbm k then hbmRefuses s k true else none) with
    | some st => (s, some st)
    | none =>
      match parcelRead s k u with
      | (s1, .ok old) => parcelWrite s1 k (overlay old off data)
      | (s1, .fail st) => (s1, some st)
      | (s1, .wait) => (s1, some stNotReady)

/-! ## Addresses (01 R41 to R45) -/

/-- What a device address names. -/
inductive Place3 where
  /-- a byte of HBM or of a local store, by key -/
  | mem (key : Nat)
  | regs (off : Nat)
  | remote (chip off : Nat)
  | bad (status : Nat)
  deriving DecidableEq, Repr

/-- Postmaster and the test master named in the held pattern pack, whose signature is verified, reach the physical
local-store region (R44, 20 R505). -/
def testMaster (s : State) (m : Nat) : Bool :=
  m == 0 || (match s.chk.pack with
    | some b => leAt b 19 1 == m
    | none => false)

/-- A local offset by a master, `own` the cluster whose own store is not checked (17 R444): a transfer whose repetition
failed (19 R482), then region, permission, dead letter and sleep. A refusal by a table is logged. -/
def localPlace (s : State) (m : Nat) (own : Option Nat) (off : Nat) (write : Bool) : State × Place3 :=
  if s.chk.pathFail.contains m then
    ({ s with chk := { s.chk with pathFail := s.chk.pathFail.erase m } }, .bad stSeal)
  else if off < hbmEnd then
    if m == 0 || hbmAllows s.access off m write then (s, .mem off)
    else (denyAccess s m write off, .bad stDenied)
  else if logStoreBase ≤ off && off < logStoreBase + 2048 * 0x400000 then
    let n := (off - logStoreBase) / 0x400000
    let key := storeKey (physOfN s n) ((off - logStoreBase) % 0x400000)
    if own == some (physOfN s n) && !isDead s n then (s, .mem key)
    else if !(m == 0 || tabAllows s.access (28 + tileOfN n) m write) then (denyAccess s m write off, .bad stDenied)
    else if isDead s n then (s, .bad stDead)
    else if isAsleep s n then (s, .bad stNotReady)
    else (s, .mem key)
  else if storeBase ≤ off && off < storeBase + 2304 * 0x400000 then
    if testMaster s m then (s, .mem off) else (denyAdd s m write 3 off, .bad stDenied)
  else if regBase ≤ off && off < regBase + 0x4000000 then (s, .regs (off - regBase))
  else (s, .bad stBus)

/-- A chip number that is this module's own, or the one it answers for (R42, 14 R376). -/
def chipIsHere (s : State) (chip : Nat) : Bool :=
  s.fab.placed && (chip == s.fab.chip || (s.fab.aliasValid && chip == s.fab.aliasChip))

/-- A device address by a master (R41 to R43). -/
def addrPlace (s : State) (m : Nat) (own : Option Nat) (a : W64) (write : Bool) : State × Place3 :=
  let v := a.toNat
  if v.testBit 63 then
    let chip := field v 47 16
    if chipIsHere s chip then localPlace s m own (field v 0 47) write
    else (s, .remote chip (field v 0 47))
  else if field v 47 16 != 0 then (s, .bad stBus)
  else localPlace s m own v write

/-- The place of a delivery: one that covers part of a parcel is a merge, which needs READ too (13 R339, 17 R444). -/
def writePlace (s : State) (m : Nat) (own : Option Nat) (a : W64) (whole : Bool) : State × Place3 :=
  match addrPlace s m own a true with
  | (s1, .mem k) => if whole then (s1, .mem k) else addrPlace s1 m own a false
  | x => x

/-- A local register word as an engine's access: only register space reached with whole words answers. -/
def regAligned (off len : Nat) : Bool := off % 4 == 0 && len % 4 == 0 && 0 < len

end Sys2Proof.Machine
end

