-- ==== Sys2Proof/Machine/Link.lean ====
section
/-! DEFINITION. The link layer of a fabric port: flits, virtual channels, credits, acknowledgement and retry (spec/14 R351
to R354, R356, R357). -/

namespace Sys2Proof.Machine

/-! ## Flits (R351, R357) -/

/-- The fields of a flit's first eight bytes. -/
structure FlitHead where
  ftype : Nat
  last : Bool := false
  vc : Nat := 0
  ctrl : Nat := 0
  seq : Nat
  ack : Nat
  crvc : Nat := 0
  credits : Nat := 0
  deriving DecidableEq, Repr

/-- Bytes [263:0] of a flit. -/
def flitBody (h : FlitHead) (payload : List Byte) : List Byte :=
  bytesOfNat 1 (h.ftype * 64 + boolNat h.last * 32 + h.vc * 2) ++ bytesOfNat 1 h.ctrl ++ bytesOfNat 2 h.seq ++
  bytesOfNat 2 h.ack ++ bytesOfNat 1 h.crvc ++ bytesOfNat 1 h.credits ++ payload ++ zeroBytes (256 - payload.length)

/-- A flit whole: its 264 bytes, their LCRC, four zero bytes. -/
def flitBytes (h : FlitHead) (payload : List Byte) : List Byte :=
  let b := flitBody h payload
  b ++ bytesOfNat 4 (crc32c b) ++ zeroBytes 4

/-- The fields of a flit that arrives; none where its length is not 272 bytes or its LCRC fails. -/
def flitRead (b : List Byte) : Option FlitHead :=
  if b.length != 272 || crc32c (b.take 264) != leAt b 264 4 then none
  else
    let t := leAt b 0 1
    some { ftype := field t 6 2, last := t.testBit 5, vc := field t 1 4, ctrl := leAt b 1 1, seq := leAt b 2 2,
           ack := leAt b 4 2, crvc := field (leAt b 6 1) 0 4, credits := leAt b 7 1 }

/-- The 64 bytes of a job packet header (R357). -/
def headerBytes (h : Header) : List Byte :=
  bytesOfNat 1 h.kind.toNat ++ bytesOfNat 1 (h.dim.toNat * 64 + boolNat h.turn * 32 + boolNat h.dateline * 16) ++
  bytesOfNat 1 h.ttl.toNat ++ bytesOfNat 1 h.status.toNat ++ bytesOfNat 2 h.dst.toNat ++ bytesOfNat 2 h.src.toNat ++
  bytesOfNat 8 h.addr.toNat ++ bytesOfNat 4 h.tag.toNat ++ bytesOfNat 2 h.length.toNat ++ bytesOfNat 1 h.orig.toNat ++
  zeroBytes 1 ++ bytesOfNat 4 h.check.toNat ++ bytesOfNat 4 h.imgTag.toNat ++ zeroBytes 32

/-- Payloads of a packet's flits: data of up to 192 bytes go in the head flit (R356). -/
def packetPayloads (p : Packet) : List (List Byte) :=
  if p.data.length ≤ 192 then [headerBytes p.h ++ p.data] else headerBytes p.h :: chunks 256 p.data

/-- The flits of a packet sent on a VC from a sequence number on, with an acknowledgement. -/
def packetFlitBytes (vc seq ack : Nat) (p : Packet) : List (List Byte) :=
  let l := packetPayloads p
  (List.range l.length).map (fun i => flitBytes
    { ftype := if i == 0 then 1 else 2, last := i + 1 == l.length, vc := vc, seq := (seq + i) % 65536, ack := ack }
    (l.getD i []))

/-- Flits of a packet with so many data bytes. -/
def flitsFor (n : Nat) : Nat := if n ≤ 192 then 1 else 1 + (n + 255) / 256
def packetFlits (p : Packet) : Nat := flitsFor p.data.length

/-! ## Virtual channels (R352) -/

/-- A job packet's VC: class 0 is requests, class 1 replies. -/
def vcOf (h : Header) : Nat :=
  4 * (if h.kind == 1 || h.kind == 3 then 0 else 1) + 2 * boolNat h.turn + boolNat h.dateline

def vcMaint : Nat := 8
def vcTime : Nat := 9

def portCredit (x : Port) (vc : Nat) : Nat := kget 64 x.credits vc

/-- Flits that await their acknowledgement. -/
def replayFlits (x : Port) : Nat := (x.replay.map (fun e => e.flits)).sum

/-- Whether a packet can go out: a credit for each of its flits, and room in the replay buffer of 2,048. -/
def linkRoom (x : Port) (vc n : Nat) : Bool := n ≤ portCredit x vc && replayFlits x + n ≤ 2048

/-- Buffers of a VC that a packet has left, to be returned to the neighbour of that port. -/
def linkOwe (s : State) (n vc k : Nat) : State :=
  let x := s.port n
  s.setPort n { x with owed := kset 0 x.owed vc (kget 0 x.owed vc + k) }

/-- A packet goes out on its port; the buffers it held where it came from are free. -/
def linkOut (s : State) (n : Nat) (q : LinkItem) : State :=
  let x := s.port n
  let s1 := (s.setPort n { x with
    credits := kset 64 x.credits q.vc (portCredit x q.vc - q.flits),
    replay := x.replay ++ [{ seq := x.nextSeq, item := q.item, flits := q.flits, time := s.now }],
    nextSeq := (x.nextSeq + q.flits) % 65536 }).send q.item
  match q.src with
  | some (m, vc, k) => linkOwe s1 m vc k
  | none => s1

/-- Puts a packet on a port: it goes out at once, or waits behind those of its VC, or for credits and room. -/
def linkSend (s : State) (n : Nat) (q : LinkItem) : State :=
  let x := s.port n
  if x.queue.any (fun e => e.vc == q.vc) || !linkRoom x q.vc q.flits then
    s.setPort n { x with queue := x.queue ++ [q] }
  else linkOut s n q

/-- The next waiting packet that can go out: a time flit ahead of every other, and each VC in its order. -/
def nextItem (x : Port) : Option LinkItem :=
  let first (vc : Nat) : Option LinkItem := (x.queue.find? (fun q => q.vc == vc)).filter (fun q => linkRoom x q.vc q.flits)
  match first vcTime with
  | some q => some q
  | none => x.queue.find? (fun q => first q.vc == some q)

/-- Sends what waits on a port while it can. -/
def linkDrain (k : Nat) (s : State) (n : Nat) : State :=
  match k with
  | 0 => s
  | k + 1 =>
    let x := s.port n
    match nextItem x with
    | none => s
    | some q => linkDrain k (linkOut (s.setPort n { x with queue := x.queue.erase q }) n q) n

/-! ## Acknowledgement, credits and retry (R352, R353) -/

/-- A sequence number stands at or after another. -/
def seqFrom (a b : Nat) : Bool := (a + 65536 - b) % 65536 < 32768

/-- The last sequence number of a packet in the replay buffer. -/
def Replay.lastSeq (e : Replay) : Nat := (e.seq + e.flits + 65535) % 65536

/-- An ACK and returned credits arrive: what is acknowledged leaves the replay buffer, and what waited goes out. -/
def linkAck (s : State) (n ack : Nat) (credits : List (Nat × Nat)) : State :=
  let x := s.port n
  let y := { x with
    replay := x.replay.filter (fun e => !seqFrom ack e.lastSeq),
    credits := credits.foldl (fun m c => kset 64 m c.1 (min 64 (kget 64 m c.1 + c.2))) x.credits }
  linkDrain y.queue.length (s.setPort n y) n

/-- The highest SEQ received whole and in order. -/
def ackOf (x : Port) : Nat := (x.expect + 65535) % 65536

/-- A control flit: 0 idle, 1 RETRY_REQ, which names the SEQ after its ACK. -/
def controlFlit (x : Port) (ctrl crvc credits : Nat) : List Byte :=
  flitBytes { ftype := 0, ctrl := ctrl, seq := x.nextSeq, ack := ackOf x, crvc := crvc, credits := credits } []

/-- A flit is discarded: the receiver asks once for the one it expects. -/
def linkRetry (s : State) (n : Nat) : State :=
  let x := s.port n
  if x.discarding then s
  else (s.setPort n { x with discarding := true }).send (.flit n (controlFlit x 1 0 0))

/-- Whole flits received in order. -/
def linkGot (s : State) (n k : Nat) : State :=
  let x := s.port n
  s.setPort n { x with expect := (x.expect + k) % 65536, discarding := false }

/-- A packet of one link, a maintenance or a time packet, is received whole and consumed. -/
def linkRecv (s : State) (n vc k : Nat) : State := linkOwe (linkGot s n k) n vc k

/-- The link layer's part in a job packet's arrival: whether it is received whole. Of its flits those before the expected
SEQ were received before; one that fails is discarded with all after it. -/
def linkTake (s : State) (p : Packet) : State × Bool :=
  match p.link with
  | none => (s, true)
  | some l =>
    let n := l.port.val
    if (s.port n).state < 2 then (s, false)
    else
      let s1 := linkAck s n l.ack.toNat (l.credits.map (fun c => (c.1.toNat, c.2.toNat)))
      let k := packetFlits p
      let old := ((s1.port n).expect + 65536 - l.seq.toNat) % 65536
      if k ≤ old then (if old < 32768 then s1 else linkRetry s1 n, false)
      else match l.bad with
        | some i => if old ≤ i && i < k then (linkRetry (linkGot s1 n (i - old)) n, false) else (linkGot s1 n (k - old), true)
        | none => (linkGot s1 n (k - old), true)

/-- Where a job packet came from, and the buffers it holds there until it leaves. -/
def srcOf (p : Packet) : Option (Nat × Nat × Nat) := p.link.map (fun l => (l.port.val, vcOf p.h, packetFlits p))

/-- An arrived packet is consumed here. -/
def consumed (s : State) (p : Packet) : State :=
  match srcOf p with
  | some (n, vc, k) => linkOwe s n vc k
  | none => s

/-- A port at the start of service: nothing is in flight in either direction. -/
def linkReset (x : Port) : Port :=
  { x with replay := [], queue := [], credits := [], nextSeq := 0, expect := 0, discarding := false, owed := [],
           told := 65535 }

/-- Control flits return a port's freed buffers, or tell an ACK not yet told. -/
def linkIdle (s : State) (n : Nat) : State :=
  let x := s.port n
  if x.state < 2 then s
  else if x.owed.isEmpty && x.told == ackOf x then s
  else
    let l := if x.owed.isEmpty then [(0, 0)] else x.owed.map (fun e => (e.1, min 255 e.2))
    (s.setPort n { x with owed := [], told := ackOf x }).sendAll
      (l.map (fun e => Sent.flit n (controlFlit x 0 e.1 e.2)))

end Sys2Proof.Machine
end

