-- ==== Sys2Proof/Machine/Route.lean ====
section
/-! DEFINITION. Routing, packets leaving the module and outstanding remote requests (spec/14 R348, R355 to R361,
R370 to R376), and the engines' access to a device address, local or remote. -/

namespace Sys2Proof.Machine

/-! ## The torus -/

def chipOf (x y z : Nat) : Nat := x + 64 * y + 2048 * z
def chipX (c : Nat) : Nat := c % 64
def chipY (c : Nat) : Nat := c / 64 % 32
def chipZ (c : Nat) : Nat := c / 2048

def dimSize (f : Fab) (dim : Nat) : Nat := if dim == 0 then f.sizeX else if dim == 1 then f.sizeY else f.sizeZ
def chipCoord (c dim : Nat) : Nat := if dim == 0 then chipX c else if dim == 1 then chipY c else chipZ c

/-- One step along direction d: 0 x+, 1 x−, 2 y+, 3 y−, 4 z+, 5 z− (R348). -/
def stepCoord (v d size : Nat) : Nat :=
  if size == 0 then v else if d % 2 == 0 then (v + 1) % size else (v + size - 1) % size

def neighbour (f : Fab) (c d : Nat) : Nat :=
  let dim := d / 2
  let v := stepCoord (chipCoord c dim) d (dimSize f dim)
  if dim == 0 then chipOf v (chipY c) (chipZ c)
  else if dim == 1 then chipOf (chipX c) v (chipZ c) else chipOf (chipX c) (chipY c) v

/-- Ports of direction d are 2d (rail A) and 2d + 1 (rail B), exchanged where REMAPPED is set (R364). -/
def railPort (s : State) (d rail : Nat) : Nat :=
  if (s.port (2 * d)).remapped || (s.port (2 * d + 1)).remapped then 2 * d + (1 - rail) else 2 * d + rail

def portUsable (s : State) (n : Nat) : Bool := (s.port n).state == 2
def dirUsable (s : State) (d : Nat) : Bool := portUsable s (2 * d) || portUsable s (2 * d + 1)

/-- Neither end of the link from chip c in direction d is marked in a table. -/
def bothEnds (s : State) (t : KMap Bool) (c d : Nat) : Bool :=
  !kget false t (c * 8 + d) && !kget false t (neighbour s.fab c d * 8 + (if d % 2 == 0 then d + 1 else d - 1))

/-- Whether the link from chip c in direction d is usable for job traffic, as this module knows it (R370, R373): by its own
ports, else by what the modules at its ends last announced, where their rosters pair it. -/
def linkUsable (s : State) (c d : Nat) : Bool :=
  if dimSize s.fab (d / 2) ≤ 1 then false
  else if c == s.fab.chip then dirUsable s d
  else if neighbour s.fab c d == s.fab.chip then dirUsable s (if d % 2 == 0 then d + 1 else d - 1)
  else bothEnds s s.net.linkDown c d && bothEnds s s.net.noLink c d

/-- Breadth-first distances: hops from the frontier, one level a step. -/
def bfsAux (fuel : Nat) (f : Fab) (use : Nat → Nat → Bool) (front : List Nat) (level : Nat) (dist : KMap Nat) : KMap Nat :=
  match fuel with
  | 0 => dist
  | k + 1 =>
    let r := front.foldl (fun (a : List Nat × KMap Nat) c =>
      (List.range 6).foldl (fun (a : List Nat × KMap Nat) d =>
        let n := neighbour f c d
        if use c d && (kfind a.2 n).isNone then (n :: a.1, kput a.2 n (level + 1)) else a) a) ([], dist)
    if r.1.isEmpty then r.2 else bfsAux k f use r.1 (level + 1) r.2

/-- Hops from chip c over links usable for job traffic. -/
def bfsFrom (s : State) (c : Nat) : KMap Nat := bfsAux 65536 s.fab (linkUsable s) [c] 0 [(c, 0)]

/-- An unreachable entry (R370). -/
def rtUnreach : Nat := 7 * 2 ^ 13 + 0xFFF

/-- The spare a forwarded chip number is routed as (R370, R375). -/
def fwdTarget (s : State) (c : Nat) : Nat :=
  match s.fab.fwd.find? (fun e => match e with | some x => x.failed.toNat == c | none => false) with
  | some (some x) => x.spare.toNat
  | _ => c

/-- The route entry of a destination from the distances of this module and of its six neighbours. -/
def routeEntry (s : State) (own : KMap Nat) (nbr : List (KMap Nat)) (dest : Nat) : Nat :=
  let c := fwdTarget s dest
  if c == s.fab.chip then 6 * 2 ^ 13
  else match kfind own c with
    | none => rtUnreach
    | some dist =>
      match (List.range 6).find? (fun d => linkUsable s s.fab.chip d &&
          (kfind (nbr.getD d []) c).map (· + 1) == some dist) with
      | some d => d * 2 ^ 13 + min dist 0xFFF
      | none => rtUnreach

/-- All chip numbers of the installation and every forwarded number. -/
def allChips (s : State) : List Nat :=
  ((List.range s.fab.sizeZ).flatMap (fun z => (List.range s.fab.sizeY).flatMap (fun y =>
    (List.range s.fab.sizeX).map (fun x => chipOf x y z)))) ++
  s.fab.fwd.filterMap (fun e => e.map (fun x => x.failed.toNat))

/-- The table the route builder computes (R370). -/
def buildRoutes (s : State) : KMap Nat :=
  if !s.fab.placed then []
  else
    let own := bfsFrom s s.fab.chip
    let nbr := (List.range 6).map (fun d => bfsFrom s (neighbour s.fab s.fab.chip d))
    (allChips s).foldl (fun t c => kset rtUnreach t c (routeEntry s own nbr c)) []

/-! ## Packets leaving the module -/

def portWeight (p : Port) : Nat := if p.width == 3 then 4 else if p.width == 2 then 2 else 1

/-- The port of a direction a packet takes (R371): both rails usable, in proportion to their weights. -/
def choosePort (s : State) (d : Nat) (h : Header) : Option Nat :=
  let a := railPort s d 0
  let b := railPort s d 1
  match portUsable s a, portUsable s b with
  | true, true =>
    let wa := portWeight (s.port a)
    let v := Config.railHash h.src.toNat h.dst.toNat h.tag.toNat % (wa + portWeight (s.port b))
    some (if v < wa then a else b)
  | true, false => some a
  | false, true => some b
  | false, false => none

/-- Puts a job packet on a port, on the VC of its hop (R352); one passing through keeps its buffers until it leaves. -/
def portSend (s : State) (n : Nat) (p : Packet) (src : Option (Nat × Nat × Nat)) : State :=
  linkSend s n { vc := vcOf p.h, item := .packet n { p with link := none }, flits := packetFlits p, src := src }

/-- ROUTE after a hop in direction d from chip c (R372); none where a second out-of-order turn drops the packet. -/
def hopHeader (f : Fab) (c d : Nat) (h : Header) : Option Header :=
  let dim := d / 2
  let old := h.dim.toNat
  let lower := old != 3 && decide (dim < old)
  if lower && h.turn then none
  else
    let v := chipCoord c dim
    let size := dimSize f dim
    let cross := (d % 2 == 0 && v + 1 == size) || (d % 2 == 1 && v == 0)
    let keep := if old == dim then h.dateline else false
    some { h with dim := BitVec.ofNat 2 dim, turn := h.turn || lower, dateline := keep || cross }

/-- Where a packet goes from here: the port and its header, or nothing where it is dropped (R370, R372). -/
def routePacket (s : State) (p : Packet) : Option (Nat × Packet) :=
  let e := kget rtUnreach s.fab.rtActive p.h.dst.toNat
  let d := e / 2 ^ 13
  if 6 ≤ d then none
  else match choosePort s d p.h, hopHeader s.fab s.fab.chip d p.h with
    | some n, some h => some (n, { p with h := h })
    | _, _ => none

def headerBlank : Header :=
  { kind := 0, dim := 3, turn := false, dateline := false, ttl := 128, status := 0, dst := 0, src := 0, addr := 0,
    tag := 0, length := 0, orig := 0, check := 0, imgTag := 0, rsv := false }

/-- SRC of this module's own job requests: the alias's number while it has one (R376). -/
def ownSrc (s : State) : Nat := if s.fab.aliasValid then s.fab.aliasChip else s.fab.chip

/-! ## Outstanding requests (R360) -/

/-- Gives a request its reply. -/
def reqReply (s : State) (tag status : Nat) (data : List Byte) : State :=
  { s with net := { s.net with reqs := s.net.reqs.map (fun r =>
      if r.tag == tag && r.reply.isNone then { r with reply := some (status, data) } else r) } }

def reqDrop (s : State) (tags : List Nat) : State :=
  { s with net := { s.net with reqs := s.net.reqs.filter (fun r => !tags.contains r.tag) } }

def reqFind (s : State) (tags : List Nat) (chip addr : Nat) (write : Bool) : Option Req :=
  s.net.reqs.find? (fun r => tags.contains r.tag && r.chip == chip && r.addr == addr && r.write == write)

/-- The header of the next request: its destination, source and tag, which choose its port. -/
def reqHeader (s : State) (chip : Nat) : Header :=
  { headerBlank with
    dst := BitVec.ofNat 16 chip, src := BitVec.ofNat 16 (ownSrc s), tag := BitVec.ofNat 32 s.net.nextTag,
    imgTag := BitVec.ofNat 32 (imgTag s) }

/-- The rim die of a port (R348). -/
def rimOf (n : Nat) : Nat := n / 6

/-- Each rim die tracks 32,768 requests, those that leave by its ports (DEDUCED, log 106); a further one waits in its
issuer (R360). -/
def reqFull (s : State) (chip : Nat) : Bool :=
  match routePacket s { h := reqHeader s chip, data := [] } with
  | some r => 32768 ≤ (s.net.reqs.filter (fun q => q.reply.isNone && q.rim == rimOf r.1)).length
  | none => false

/-- Sends a request and records it; one that no route carries is answered LINK_LOST (R372). -/
def reqSend (s : State) (m chip off : Nat) (write reg : Bool) (data : List Byte) (len check : Nat) : State × Nat :=
  let tag := s.net.nextTag
  let h := { reqHeader s chip with
      kind := if write then 3 else 1, addr := BitVec.ofNat 64 off,
      length := BitVec.ofNat 16 len, orig := BitVec.ofNat 8 m, check := BitVec.ofNat 32 check }
  let r := routePacket s { h := h, data := data }
  let rim := match r with | some x => rimOf x.1 | none => 0
  let q : Req := { tag := tag, chip := chip, addr := off, write := write, reg := reg, sent := s.now, rim := rim }
  let s1 := { s with net := { s.net with nextTag := (tag + 1) % 2 ^ 32, reqs := s.net.reqs ++ [q] } }
  match r with
  | some x => (portSend s1 x.1 x.2 none, tag)
  | none =>
    (reqReply { s1 with fab := { s1.fab with routeDrops := inc32 s1.fab.routeDrops } } tag stLink [], tag)

/-! ## Engine accesses -/

/-- Reads the remote parcel that holds `off` with the replies of `tags`, sending a request where there is none. -/
def remoteRead (s : State) (tags : List Nat) (m chip off : Nat) : State × List Nat × Rd :=
  let par := off - off % 4096
  match reqFind s tags chip par false with
  | some r => match r.reply with
    | none => (s, tags, .wait)
    | some (st, d) => (s, tags, if st == 0 then .ok d else .fail st)
  | none =>
    if reqFull s chip then (s, tags, .wait)
    else
      let q := reqSend s m chip par false false [] 4096 0
      (q.1, tags ++ [q.2], match (reqFind q.1 [q.2] chip par false).bind (fun r => r.reply) with
        | some (st, _) => .fail st
        | none => .wait)

/-- An offset of register space, which has no parcels and carries no seal (R358). -/
def offIsReg (off : Nat) : Bool := regBase ≤ off && off < regBase + 0x4000000

/-- Reads `n` bytes at a remote offset: from its parcel, or from register words, which are asked for by 4 or 8. -/
def remoteGet (s : State) (tags : List Nat) (m chip off n : Nat) : State × List Nat × Rd :=
  if !offIsReg off then
    match remoteRead s tags m chip off with
    | (s1, t, .ok d) => (s1, t, .ok (bytesAt d (off % 4096) n))
    | x => x
  else match reqFind s tags chip off false with
    | some r => match r.reply with
      | none => (s, tags, .wait)
      | some (st, d) => (s, tags, if st == 0 then .ok d else .fail st)
    | none =>
      if n != 4 && n != 8 then (s, tags, .fail stBus)
      else if reqFull s chip then (s, tags, .wait)
      else
        let q := reqSend s m chip off false true [] n 0
        (q.1, tags ++ [q.2], match (reqFind q.1 [q.2] chip off false).bind (fun r => r.reply) with
          | some (st, _) => .fail st
          | none => .wait)

/-- CHECK of a write packet (R358). -/
def writeCheck (off : Nat) (data : List Byte) : Nat :=
  if offIsReg off then 0
  else if data.length == 4096 then sealOf off data else crc32c (bytesOfNat 8 off ++ data)

/-- Writes bytes of one remote parcel; the answer arrives as WRITE_ACK or NACK. -/
def remoteWrite (s : State) (tags : List Nat) (m chip off : Nat) (data : List Byte) : State × List Nat × Rd :=
  match reqFind s tags chip off true with
  | some r => match r.reply with
    | none => (s, tags, .wait)
    | some (st, _) => (s, tags, if st == 0 then .ok [] else .fail st)
  | none =>
    if reqFull s chip then (s, tags, .wait)
    else
      let q := reqSend s m chip off true false data data.length (writeCheck off data)
      (q.1, tags ++ [q.2], match (reqFind q.1 [q.2] chip off true).bind (fun r => r.reply) with
        | some (st, _) => .fail st
        | none => .wait)

/-- Reads the whole parcel that holds a device address, with its seal checked. Register space has no parcels and
fails with BUS_ERROR here. -/
def busParcel (s : State) (tags : List Nat) (m : Nat) (own : Option Nat) (a : W64) (u : By) :
    State × List Nat × Rd :=
  match addrPlace s m own a false with
  | (s1, .mem k) => let r := parcelRead s1 (k - k % 4096) u; (r.1, tags, r.2)
  | (s1, .regs _) => (s1, tags, .fail stBus)
  | (s1, .remote c o) => remoteRead s1 tags m c o
  | (s1, .bad st) => (s1, tags, .fail st)

end Sys2Proof.Machine
end

