-- ==== Sys2Proof/Machine/TensorDesc.lean ====
section
/-! DEFINITION. The tensor descriptor, the geometry of its operands and output, and its malformation rules
(spec/05 R129 to R133, R136, R140, R142; spec/07 R184 to R188). -/

namespace Sys2Proof.Machine

/-- The lowest field at fault, and the lowest reason it breaks: pairs of offset and reason (00 R551). -/
def worstField (l : List (Nat × Nat)) : Option (Nat × Nat) :=
  match l with
  | [] => none
  | a :: t => match worstField t with
    | none => some a
    | some b => if b.1 < a.1 || (b.1 == a.1 && b.2 < a.2) then some b else some a

/-- Offsets at which a condition is broken, each with the reason. -/
def broken (c : Bool) (reason : Nat) (offs : List Nat) : List (Nat × Nat) :=
  if c then offs.map (fun o => (o, reason)) else []

def ceilDiv (a b : Nat) : Nat := (a + b - 1) / b
def roundUp (a b : Nat) : Nat := ceilDiv a b * b

/-! ## Scaled blocks -/

/-- Element capacity of a scaled-block parcel (07 R184); 0 for formats that have no block kind. -/
def sbCapacity (f : Fmt) : Nat :=
  match f with
  | .e4m3 => 3840 | .e5m2 => 3840 | .e3m2 => 5120 | .e2m3 => 5120 | .e2m1 => 7680 | _ => 0

/-- Group size of an SB or GROUP field. -/
def sbGroup (g : Nat) : Nat := 16 * 2 ^ g

/-- The ue4m3 scale of group q and bits of element j of a scaled-block parcel (07 R185). -/
def sbScale (b : List Byte) (q : Nat) : Nat := leAt b (16 + q) 1
def sbElem (f : Fmt) (b : List Byte) (j : Nat) : Nat :=
  let w := fmtBits f
  field (leAt b (256 + w * j / 8) 2) (w * j % 8) w

/-- Value of element j: element × group scale × parcel scale, exactly (07 R189), and INVALID. -/
def sbValue (f : Fmt) (g : Nat) (b : List Byte) (j : Nat) : Val × Bool :=
  let x := valMul (decodeVal f (sbElem f b j)) (decodeVal .ue4m3 (sbScale b (j / sbGroup g)))
  let y := valMul x.1 (fpDecode .f32 (leAt b 0 4))
  (y.1, x.2 || y.2)

/-! ## The descriptor -/

/-- Fields of the tensor descriptor (R132). -/
structure TDesc where
  opId : Nat
  chain : Nat
  opcode : Nat
  fmtA : Nat
  fmtB : Nat
  outKind : Nat
  satWide : Bool
  fmtC : Nat
  inKind : Nat
  transB : Bool
  transA : Bool
  sbB : Nat
  sbA : Nat
  m : Nat
  n : Nat
  kTotal : Nat
  kStart : Nat
  kCount : Nat
  batch : Nat
  aOff : Nat
  bOff : Nat
  outOff : Nat
  inOff : Nat
  inCount : Nat
  pFirst : Nat
  deriving DecidableEq, Repr

def tdescOf (b : List Byte) : TDesc :=
  let f := leAt b 9 1
  let o := leAt b 10 1
  let l := leAt b 11 1
  { opId := leAt b 0 4, chain := leAt b 4 4, opcode := leAt b 8 1, fmtA := field f 0 4, fmtB := field f 4 4,
    outKind := field o 6 2, satWide := o.testBit 5, fmtC := field o 0 4, inKind := field l 6 2,
    transB := l.testBit 5, transA := l.testBit 4, sbB := field l 2 2, sbA := field l 0 2,
    m := leAt b 12 4, n := leAt b 16 4, kTotal := leAt b 20 4, kStart := leAt b 24 4, kCount := leAt b 28 4,
    batch := leAt b 32 2, aOff := leAt b 36 4, bOff := leAt b 40 4, outOff := leAt b 44 4, inOff := leAt b 48 4,
    inCount := leAt b 52 4, pFirst := leAt b 56 4 }

def fmtOr (c : Nat) : Fmt := (fmtOfCode c).getD .f64

def TDesc.fa (d : TDesc) : Fmt := fmtOr d.fmtA
def TDesc.fb (d : TDesc) : Fmt := fmtOr d.fmtB
def TDesc.fc (d : TDesc) : Fmt := fmtOr d.fmtC
def TDesc.row (d : TDesc) : RedRow := redRow (widerFmt d.fa d.fb) false
def TDesc.kEnd (d : TDesc) : Nat := d.kStart + d.kCount

/-- Indices the array advances in a beat. -/
def TDesc.depth (d : TDesc) : Nat :=
  let w := max (redWidth d.fa) (redWidth d.fb)
  if 64 ≤ w then 1 else if w == 32 then 2 else if w == 16 then 4 else if w == 4 then 16 else 8

/-- Runs in the operation's own span, and in the whole reduction. -/
def TDesc.spanRuns (d : TDesc) : Nat :=
  if d.kCount == 0 then 0 else ceilDiv d.kEnd 4096 - d.kStart / 4096
def TDesc.allRuns (d : TDesc) : Nat := ceilDiv d.kTotal 4096

/-- Row pitch of an operand, and the bytes of one batch rounded up to parcels (R136, 07 R188). -/
def opPitch (f : Fmt) (sb : Nat) (trans : Bool) (rows kCount : Nat) : Nat :=
  if sb != 0 then ceilDiv kCount (sbCapacity f) * 4096
  else roundUp (ceilDiv ((if trans then rows else kCount) * fmtBits f) 8) 64

def opBatch (f : Fmt) (sb : Nat) (trans : Bool) (rows kCount : Nat) : Nat :=
  roundUp ((if trans && sb == 0 then kCount else rows) * opPitch f sb trans rows kCount) 4096

def TDesc.aPitch (d : TDesc) : Nat := opPitch d.fa d.sbA d.transA d.m d.kCount
def TDesc.bPitch (d : TDesc) : Nat := opPitch d.fb d.sbB d.transB d.n d.kCount
def TDesc.aBatch (d : TDesc) : Nat := opBatch d.fa d.sbA d.transA d.m d.kCount
def TDesc.bBatch (d : TDesc) : Nat := opBatch d.fb d.sbB d.transB d.n d.kCount

def TDesc.elems (d : TDesc) : Nat := d.batch * d.m * d.n

/-- Output items and bytes of one: an element of C, or a record. -/
def TDesc.items (d : TDesc) : Nat := if d.outKind == 2 then d.elems * d.spanRuns else d.elems
def TDesc.itemBytes (d : TDesc) : Nat := if d.outKind == 0 then fmtBits d.fc / 8 else 64
def TDesc.perParcel (d : TDesc) : Nat := 4096 / d.itemBytes
def TDesc.outParcels (d : TDesc) : Nat := ceilDiv (d.items * d.itemBytes) 4096

/-- Element index of an output item. -/
def TDesc.itemElem (d : TDesc) (i : Nat) : Nat := if d.outKind == 2 then i / d.spanRuns else i

/-- First computed element: those in the parcel of a computed element are computed too (R140). -/
def TDesc.firstElem (d : TDesc) : Nat := d.itemElem (d.pFirst * d.perParcel)
def TDesc.computed (d : TDesc) : Nat := d.elems - d.firstElem

/-! ## Malformation (R133) -/

def tdOperandOk (c : Nat) : Bool := c ≤ 9 || c == 11
def tdSbOk (c : Nat) : Bool := 4 ≤ c && c ≤ 8
def tdTransOk (c : Nat) : Bool := c ≤ 3

def tdFormats (d : TDesc) : List (Nat × Nat) :=
  broken (!tdOperandOk d.fmtA || !tdOperandOk d.fmtB) 2 [9] ++
  broken ((d.sbA != 0 && !tdSbOk d.fmtA) || (d.sbB != 0 && !tdSbOk d.fmtB)) 2 [9, 11] ++
  (if tdOperandOk d.fmtA && tdOperandOk d.fmtB then
    let wide := d.row.acc = .pair
    broken (!(d.fmtC ≤ 1 || (wide && d.fmtC == 11))) 2 [9, 10]
  else []) ++
  broken ((d.transA && !tdTransOk d.fmtA) || (d.transB && !tdTransOk d.fmtB)) 3 [9, 11] ++
  broken ((d.transA && d.sbA != 0) || (d.transB && d.sbB != 0)) 3 [11]

def onBoundary (x g kTotal : Nat) : Bool := x % g == 0 || x == kTotal

/-- Boundaries of the span (R142). Which fields such a rule involves (00 R551) the spec does not list: one that names the
span's end involves K_TOTAL, K_START and K_COUNT, none the kinds, formats or SB fields that select it; reason 0x08 involves
IN_COUNT alone and 0x09 PARCEL_FIRST alone (DESIGN CHOICE, log 101). -/
def tdSpan (d : TDesc) : List (Nat × Nat) :=
  let g := d.row.g
  let sb (x : Nat) : Bool := (d.sbA == 0 || onBoundary x (sbGroup d.sbA) d.kTotal) &&
    (d.sbB == 0 || onBoundary x (sbGroup d.sbB) d.kTotal)
  let kinds := (d.outKind, d.inKind)
  if !([(0, 0), (0, 1), (0, 2), (1, 0), (1, 1), (2, 0)].contains kinds) then broken true 5 [10, 11]
  else
    broken (!onBoundary d.kStart g d.kTotal || !sb d.kStart) 5 [20, 24] ++
    broken (!onBoundary d.kEnd g d.kTotal || !sb d.kEnd) 5 [20, 24, 28] ++
    broken ((kinds == (0, 0) || kinds == (1, 0)) && d.kStart != 0) 5 [24] ++
    broken ((kinds == (0, 0) || kinds == (0, 1)) && d.kEnd != d.kTotal) 5 [20, 24, 28] ++
    broken (d.outKind == 1 && !(decide (d.kEnd < d.kTotal))) 5 [20, 24, 28] ++
    (if kinds == (0, 2) || kinds == (2, 0) then
      broken (!onBoundary d.kStart 4096 d.kTotal) 5 [20, 24] ++
      broken (!onBoundary d.kEnd 4096 d.kTotal) 5 [20, 24, 28]
    else [])

/-- Regions in local store: start, bytes and the offset field's place; the input region only where it is used. -/
def TDesc.regions (d : TDesc) : List (Nat × Nat × Nat) :=
  [(d.aOff, d.batch * d.aBatch, 36), (d.bOff, d.batch * d.bBatch, 40), (d.outOff, d.outParcels * 4096, 44)] ++
  (if d.inKind != 0 then [(d.inOff, roundUp (d.inCount * 64) 4096, 48)] else [])

def regionsOverlap (a b : Nat × Nat × Nat) : Bool :=
  a.2.1 != 0 && b.2.1 != 0 && decide (a.1 < b.1 + b.2.1 ∧ b.1 < a.1 + a.2.1)

/-- Input records the kinds require (R142). -/
def tdCountOk (d : TDesc) : Bool :=
  if d.inKind == 0 then d.inCount == 0
  else if d.inKind == 1 then (if d.kStart == 0 then d.inCount ≤ d.computed else d.inCount == d.computed)
  else d.inCount == d.computed * (d.allRuns - d.spanRuns)

/-- Every rule a descriptor breaks, and the field and reason its receipt names (R133, R551). -/
def tdMalformed (b : List Byte) : Option (Nat × Nat) :=
  let d := tdescOf b
  let one := broken (d.opcode != 1) 1 [8] ++ broken (12 ≤ d.fmtA || 12 ≤ d.fmtB) 1 [9] ++
    broken (12 ≤ d.fmtC || d.outKind == 3 || (leAt b 10 1).testBit 4) 1 [10] ++ broken (d.inKind == 3) 1 [11] ++
    broken (leAt b 34 2 != 0) 1 [34] ++ broken (leAt b 60 4 != 0) 1 [60]
  let four := broken (d.m == 0) 4 [12] ++ broken (d.n == 0) 4 [16] ++ broken (0xFFFFFF00 ≤ d.kTotal) 4 [20] ++
    broken (decide (d.kTotal < d.kEnd)) 4 [20, 24, 28] ++ broken (d.batch == 0 || 4096 < d.batch) 4 [32]
  let fmts := if 12 ≤ d.fmtA || 12 ≤ d.fmtB then [] else tdFormats d ++ tdSpan d
  let rs := d.regions
  let o := (d.outOff, d.outParcels * 4096, 44)
  let place := if 12 ≤ d.fmtA || 12 ≤ d.fmtB || 12 ≤ d.fmtC then [] else
    broken (d.aOff % 4096 != 0) 6 [36] ++ broken (d.bOff % 4096 != 0) 6 [40] ++
    broken (d.outOff % 4096 != 0) 6 [44] ++ broken (d.inOff % 4096 != 0) 6 [48] ++
    rs.flatMap (fun r => broken (decide (0x400000 < r.1 + r.2.1)) 6 [r.2.2]) ++
    rs.flatMap (fun r => broken (r.2.2 != 44 && regionsOverlap r o) 7 [r.2.2, 44]) ++
    broken (!tdCountOk d) 8 [52] ++ broken (d.outParcels ≤ d.pFirst) 9 [56]
  worstField (one ++ fmts ++ four ++ place)

/-- A store offset inside a region. -/
def inRegion (r : Nat × Nat × Nat) (off : Nat) : Bool := decide (r.1 ≤ off ∧ off < r.1 + roundUp r.2.1 4096)

/-- Operand and input-record parcels, which a running operation read-locks (R138). -/
def TDesc.locks (d : TDesc) (off : Nat) : Bool := d.regions.any (fun r => r.2.2 != 44 && inRegion r off)

/-- Whether a store offset is in an output parcel the operation computes. -/
def TDesc.outputs (d : TDesc) (off : Nat) : Bool :=
  decide (d.outOff + d.pFirst * 4096 ≤ off ∧ off < d.outOff + d.outParcels * 4096)

end Sys2Proof.Machine
end

