-- ==== Sys2Proof/Machine/Commit.lean ====
section
/-! DEFINITION. Delivering bytes to a parcel: read locks (spec/05 R138, spec/06 R153, spec/13 R328) and the one
delivery that a stream step keeps (spec/02 R53, R54). -/

namespace Sys2Proof.Machine

/-- Bytes of IN of a collective request: T chunks of E elements on parcel boundaries; of a broadcast the root's alone
(15 R384, R385). -/
def collInBytes (b : List Byte) : Nat :=
  let kind := leAt b 5 1
  let or := leAt b 7 1 % 4 == 2
  let w := if 2 ≤ kind && kind ≤ 3 || or then 1 else fmtBits (fmtOr (leAt b 6 1 % 4)) / 8
  if kind == 3 && leAt b 16 4 != leAt b 20 4 then 0 else leAt b 25 1 * roundUp (leAt b 8 4 * w) 4096

/-- Who writes: a read lock binds every engine and courier but its holder. -/
inductive Who where
  | te (p : Nat)
  | prog (p : Nat)
  | courier (c : Nat)
  | other
  deriving DecidableEq, Repr

/-- Physical cluster and store offset of a local-store key. -/
def storeAt (key : Nat) : Nat × Nat := ((key - storeBase) / 0x400000, (key - storeBase) % 0x400000)

/-- The descriptor of the tensor operation in progress on physical cluster p. -/
def teDesc (s : State) (p : Nat) : Option TDesc := (s.clu p).te.run.map (fun r => tdescOf r.item.desc)

/-- A tensor operation in progress holds this store parcel as an operand or record. -/
def teLocked (s : State) (p off : Nat) : Bool :=
  match teDesc s p with
  | some d => d.locks off
  | none => false

/-- A running program has fetched code from this parcel (06 R153). -/
def codeLocked (s : State) (p key : Nat) : Bool :=
  match (s.clu p).seq.prog with
  | some g => g.checked.contains key
  | none => false

def roundLocks (x : Courier) (key : Nat) : Bool :=
  match x.round with
  | some r => r.locks.contains key || r.checked.contains key || r.moveChecked.contains key
  | none => false

/-- A running collective holds the parcels of its IN until every member has read them (15 R393). -/
def commLocks (x : CommS) (key : Nat) : Bool :=
  match x.run with
  | some r =>
    let a := leAt r.req 40 8
    keyIsHbm key && decide (a ≤ key ∧ key < a + collInBytes r.req)
  | none => false

/-- Whether a write to the parcel at a key waits for a lock that another holds. -/
def readLocked (s : State) (who : Who) (key : Nat) : Bool :=
  let k := key - key % 4096
  let held := !keyIsHbm k && (let a := storeAt k
    (who != .te a.1 && teLocked s a.1 a.2) || (who != .prog a.1 && codeLocked s a.1 k))
  held || s.comms.any (fun e => commLocks e.2 k) || s.couriers.any (fun e => who != .courier e.1 && roundLocks e.2 k)

/-- The operation that already committed this parcel in the same step of the same stream (R53). -/
def clashOf (s : State) (slot key : Nat) : Option Nat :=
  match s.op slot with
  | none => none
  | some o =>
    let st := s.strm o.rcpt.stream
    if st.writersStep != o.step then none
    else (st.writers.find? (fun w => w.1 == key / 4096 && w.2 != slot)).map Prod.snd

/-- Remembers which operation committed a parcel in the step in flight. -/
def noteWriter (s : State) (slot key : Nat) : State :=
  match s.op slot with
  | none => s
  | some o =>
    let st := s.strm o.rcpt.stream
    let old := if st.writersStep == o.step then st.writers else []
    if old.contains (key / 4096, slot) then s
    else s.setStrm o.rcpt.stream { st with writers := old ++ [(key / 4096, slot)], writersStep := o.step }

/-- How a delivery ended. -/
inductive Put where
  | ok
  | fail (status : Nat)
  | wait
  | double (other : Nat)
  deriving DecidableEq, Repr

/-- Delivers bytes to the parcel at a key, by an operation. -/
def deliver (s : State) (who : Who) (slot key off : Nat) (data : List Byte) (u : By) : State × Put :=
  if readLocked s who key then (s, .wait)
  else match clashOf s slot key with
    | some k => (s, .double k)
    | none => match parcelMerge s key off data u with
      | (s1, none) => (noteWriter s1 slot key, .ok)
      | (s1, some st) => (s1, .fail st)

/-- Lays runs of bytes over a parcel. -/
def layParts (d : List Byte) (parts : List (Nat × List Byte)) : List Byte := parts.foldl (fun a e => overlay a e.1 e.2) d

/-- Delivers several runs of bytes to the parcel at a key as one delivery: whole, or merged into the old parcel. -/
def deliverParts (s : State) (who : Who) (slot key : Nat) (parts : List (Nat × List Byte)) (u : By) : State × Put :=
  if readLocked s who key then (s, .wait)
  else match clashOf s slot key with
    | some k => (s, .double k)
    | none =>
      let w := if (parts.map (fun e => e.2.length)).sum == 4096 then parcelWrite s key (layParts (zeroBytes 4096) parts)
        else match (if keyIsHbm key then hbmRefuses s key true else none) with
          | some st => (s, some st)
          | none => match parcelRead s key u with
            | (s1, .ok old) => parcelWrite s1 key (layParts old parts)
            | (s1, .fail st) => (s1, some st)
            | (s1, .wait) => (s1, some stNotReady)
      match w with
      | (s1, none) => (noteWriter s1 slot key, .ok)
      | (s1, some st) => (s1, .fail st)

end Sys2Proof.Machine
end

