-- ==== Sys2Proof/Machine/Letterbox.lean ====
section
/-! DEFINITION. Letterboxes, streams, the issue of operations, receipt slots and the mirror (spec/16 R407 to R424). -/

namespace Sys2Proof.Machine

/-! ## Entries (R408, R412, R413) -/

/-- Payload bytes of a request kind; a stack-engine descriptor's depend on its OPCODE (10 R265). -/
def payloadLen (b : List Byte) : Nat :=
  match leAt b 1 1 with
  | 1 => 64
  | 2 => 16
  | 3 => 128
  | 4 => if leAt b 68 1 == 1 then 160 else 64
  | 5 => 16
  | 6 => 96
  | 7 => 4
  | _ => 192

def entrySlot (b : List Byte) : Nat := leAt b 4 4
def entryDeps (b : List Byte) : List Nat := (List.range (min (leAt b 3 1) 4)).map (fun i => leAt b (16 + 4 * i) 4)

/-- First non-zero byte of an entry in [lo, hi). -/
def nonzeroIn (b : List Byte) (lo hi : Nat) : Option Nat :=
  (List.range (hi - lo)).findSome? (fun i => if leAt b (lo + i) 1 != 0 then some (lo + i) else none)

/-- Faults of the entry's DEP fields: a free slot, its own slot, or another DEP. -/
def depFaults (s : State) (b : List Byte) : List (Nat × Nat) :=
  let l := entryDeps b
  (List.range l.length).flatMap (fun j =>
    let d := l.getD j 0
    broken (d != entrySlot b && (s.op d).isNone) 0x53 [16 + 4 * j] ++
    broken (d == entrySlot b) 0x53 [4, 16 + 4 * j] ++
    (List.range j).flatMap (fun i => broken (l.getD i 0 == d) 0x53 [16 + 4 * i, 16 + 4 * j]))

/-- Rules an entry breaks: the field's offset and the reason (R413, 00 R551). Whether a non-zero byte beyond the kind's length
is named by the payload's offset or by its own the spec does not say: the first such byte is (DESIGN CHOICE, log 57). -/
def entryFault (s : State) (b : List Byte) : Option (Nat × Nat) :=
  let kind := leAt b 1 1
  let target := leAt b 10 2
  worstField (
    broken (leAt b 0 1 / 2 != 0) 0x50 [0] ++ broken (kind == 0 || 8 ≤ kind) 0x50 [1] ++
    broken (leAt b 2 1 / 2 != 0) 0x50 [2] ++ broken (leAt b 12 4 != 0) 0x50 [12] ++
    ((List.range 4).flatMap (fun j => broken (leAt b 3 1 ≤ j && leAt b (16 + 4 * j) 4 != 0) 0x50 [16 + 4 * j])) ++
    broken ((nonzeroIn b 32 60).isSome) 0x50 [32] ++
    (match nonzeroIn b (64 + payloadLen b) 256 with | some i => [(i, 0x50)] | none => []) ++
    broken (imgStreamAlloc s.image.inForce (leAt b 8 2) != 1) 0x51 [8] ++
    broken (if kind == 1 || kind == 2 then decide (2048 ≤ target) else target != 0) 0x52 [10] ++
    broken (decide (4 < leAt b 3 1)) 0x53 [3] ++ depFaults s b)

/-- The operation an entry makes. -/
def entryOp (k step : Nat) (b : List Byte) : Op :=
  { rcpt := { opId := leAt b 64 4, stream := leAt b 8 2 }, kind := leAt b 1 1, notify := (leAt b 2 1).testBit 0,
    deps := entryDeps b, letterbox := some k, target := leAt b 10 2, payload := bytesAt b 64 (payloadLen b), step := step }

/-- Passes over an entry whose slot cannot be allocated (R412). -/
def refuseEntry (s : State) (k index : Nat) (b : List Byte) : State :=
  let x := s.box k
  setRefusal ({ s with ring := { s.ring with
      refuseValid := true, refuseBox := k, refuseEntry := index, refuseSlot := entrySlot b } }.setBox k
    { x with refused := inc32 x.refused })

/-- Places an operation in its stream; a SYNC closes the stream's step (R414). -/
def placeOp (s : State) (slot : Nat) (o : Op) (closes : Bool) : State :=
  let st := s.strm o.rcpt.stream
  s.setStrm o.rcpt.stream { st with ops := st.ops ++ [slot], step := if closes then st.step + 1 else st.step }

/-- Collects one ready entry: allocates its slot, places the operation in its stream, and ends it where it is
malformed, where its stream is halted, or where an operation it depends on has failed (R409, R413, R416, R417). -/
def collectEntry (s : State) (k index : Nat) (b : List Byte) : State :=
  let slot := entrySlot b
  if 131072 ≤ slot || (s.op slot).isSome then refuseEntry s k index b
  else
    let x := s.box k
    let st := s.strm (leAt b 8 2)
    let o := entryOp k st.step b
    let bad := entryFault s b
    let ours := imgStreamAlloc s.image.inForce o.rcpt.stream == 1
    let s1 := (s.setBox k { x with collected := inc32 x.collected }).setOp slot o
    let s2 := mirrorReceipt (if ours then placeOp s1 slot o (bad.isNone && o.kind == 7) else s1) slot
    match bad with
    | some e => opMalformed s2 slot e.2 e.1
    | none =>
      if st.halted then opFail s2 slot stDep (detail2 st.failSlot 0)
      else settle (s2.ledger.length + 1) s2

/-! ## The collection round (R409 to R411) -/

/-- Stops a letterbox. -/
def stopBox (s : State) (k why : Nat) : State :=
  setLbFault (s.setBox k { s.box k with enable := false, stop := why, badRun := 0 })

/-- Collects entries in ring order up to the first that is not ready. -/
def collectList (s : State) (k : Nat) (l : List (List Byte)) : State :=
  match l with
  | [] => s
  | b :: t =>
    let x := s.box k
    if leAt b 0 1 % 2 != ringPhase x.tail x.sizeLog2 then s.setBox k { x with badRun := 0 }
    else if crc32c (overlay b 60 (zeroBytes 4)) != leAt b 60 4 then
      if 64 ≤ x.badRun + 1 then stopBox s k 2 else s.setBox k { x with badRun := x.badRun + 1 }
    else
      let s1 := collectEntry s k (x.tail % 2 ^ x.sizeLog2) b
      collectList (s1.setBox k { s1.box k with tail := (x.tail + 1) % 2 ^ 32, badRun := 0 }) k t

/-- A letterbox's TAIL in the mirror (R420, R425). -/
def mirrorTail (s : State) (k : Nat) : State :=
  if !s.hif.linkUp then setStale s
  else if s.hif.mirrorEn then
    s.send (.hostWrite (s.hif.ledgerBase.toNat + 0x400000 + 16 * k) (bytesOfNat 4 (s.box k).tail))
  else s

/-- Whether a letterbox may be visited: the round runs at S6 alone (18 R456, R457), on an enabled letterbox. -/
def boxRuns (s : State) (k : Nat) : Bool :=
  s.boot.stage == 6 && s.hif.linkUp && s.hif.collectEn && !s.ring.paused && (s.box k).enable

/-- Two postmarks lie in one window of a letterbox's period. -/
def sameWindow (x : Letterbox) (a b : Nat) : Bool := a / (x.period * 1000) == b / (x.period * 1000)

/-- One visit to letterbox k, with the entries that host memory holds from TAIL on. -/
def execCollectionVisit (k : GroupNo) (entries : List (List Byte)) (s : State) : Result :=
  .next (
    let x := s.box k
    if !boxRuns s k || (match x.lastVisit with | some v => sameWindow x v s.now | none => false) then s
    else mirrorTail (collectList (s.setBox k { x with lastVisit := some s.now }) k (entries.take 16)) k)

/-- A host read of a visit that fails, or gets no answer in 50 ms. -/
def execLetterboxReadTimeout (k : GroupNo) (s : State) : Result :=
  .next (if boxRuns s k then stopBox s k 1 else s)

/-! ## Streams and steps (R414 to R418) -/

def opIsDone (s : State) (slot : Nat) : Bool :=
  match s.op slot with
  | some o => o.rcpt.state = .done
  | none => false

/-- Operations of a stream collected before one of its operations. -/
def opsBefore (s : State) (stream slot : Nat) : List Nat := (s.strm stream).ops.takeWhile (fun k => k != slot)

/-- An earlier operation lets a later one be issued: it is of an earlier step and DONE, or of the same step and has
left its issuer. -/
def letsIssue (s : State) (step earlier : Nat) : Bool :=
  match s.op earlier with
  | none => true
  | some o => if o.step < step then o.rcpt.state = .done else o.place ≠ .inStream && o.place ≠ .atIssuer

/-- Every dependency is DONE and every earlier operation lets it be issued. -/
def opReady (s : State) (slot : Nat) (o : Op) : Bool :=
  o.rcpt.state = .notStarted && o.place = .inStream && o.deps.all (opIsDone s) &&
  (opsBefore s o.rcpt.stream slot).all (letsIssue s o.step)

/-- Hands a program to the sequencer's queue of its logical cluster (06 R152). -/
def issueProgram (s : State) (slot n : Nat) : State :=
  if isDead s n then opFail s slot stDead 0
  else if isAsleep s n then opFail s slot stNotReady 0
  else
    let x := s.lclu n
    opPlace (s.setLclu n { x with progs := x.progs ++ [slot], idleSince := s.now }) slot .queued

/-- Issues an operation to its unit. -/
def execOperationIssue (slot : Slot) (s : State) : Result :=
  .next (
    match s.op slot with
    | none => s
    | some o =>
      if o.kind == 7 || !opReady s slot o then s
      else if o.kind == 2 then issueProgram s slot o.target
      else opPlace s slot .atIssuer)

/-- A SYNC is DONE once its stream's earlier operations and its dependencies are. -/
def execSync (slot : Slot) (s : State) : Result :=
  .next (
    match s.op slot with
    | none => s
    | some o =>
      if o.kind == 7 && o.rcpt.state = .notStarted && o.deps.all (opIsDone s) &&
          (opsBefore s o.rcpt.stream slot).all (opIsDone s) then opDone s slot
      else s)

/-- CLEAR for the stream of HIF_STREAM_INDEX: the next entry opens a step, which waits for what is not final yet. -/
def actStreamClear (s : State) : State :=
  let k := s.ring.streamIndex
  let st := s.strm k
  if !st.halted then s
  else s.setStrm k { st with
    halted := false, step := st.step + 1, ops := st.ops.filter (fun i => opLive s i) }

def execStreamClear (m : Master) (s : State) : Result :=
  .next (gated s m.toNat 0x10098 (fun s => actStreamClear s))

/-! ## Slots, notices and the mirror (R419 to R423) -/

/-- Whether a release is refused (R419). -/
def releaseRefused (s : State) (slot : Nat) : Bool :=
  match s.op slot with
  | none => true
  | some o => !rstateFinal o.rcpt.state ||
      s.ledger.any (fun e => e.2.rcpt.state = .notStarted && e.2.deps.contains slot)

/-- A write of HIF_SLOT_RELEASE. -/
def actSlotRelease (s : State) (v : Nat) : State :=
  let slot := field v 0 17
  if releaseRefused s slot then
    { s with ring := { s.ring with releaseRefused := inc32 s.ring.releaseRefused } }
  else
    let k := streamOf s slot
    let st := s.strm k
    { s with ledger := kdel s.ledger slot }.setStrm k { st with
      ops := st.ops.filter (fun i => i != slot),
      writers := st.writers.map (fun (w : Nat × Nat) => if w.2 == slot then (w.1, releasedMark (opIdOf s slot)) else w) }

def execSlotRelease (m : Master) (v : W32) (s : State) : Result :=
  .next (gated s m.toNat 0x10060 (fun s => actSlotRelease s v.toNat))

/-- Appends held notices where the mirror is on. -/
def drainHeld (s : State) : State :=
  if s.hif.linkUp && s.hif.mirrorEn then noticeDrain s s.ring.heldNotices else s

def actNoticeHead (s : State) (v : Nat) : State :=
  drainHeld { s with ring := { s.ring with noticeHead := v } }

def execNoticeHeadWrite (m : Master) (v : W32) (s : State) : Result :=
  .next (gated s m.toNat 0x10054 (fun s => actNoticeHead s v.toNat))

/-- RESYNC rewrites every allocated receipt and every TAIL; ignored while MIRROR_EN is 0. -/
def actResync (s : State) : State :=
  if !s.hif.mirrorEn then s
  else (List.range 256).foldl mirrorTail (s.ledger.foldl (fun a e => mirrorReceipt a e.1) s)

def execMirrorResync (m : Master) (s : State) : Result :=
  .next (gated s m.toNat 0x10004 (fun s => actResync s))

/-- At the end of a window in which notices of NOTIFY entries were appended, the letterbox's vector is sent (R424). -/
def execNotifyVector (k : GroupNo) (s : State) : Result :=
  .next (
    let x := s.box k
    match x.notifyAt with
    | some t => if sameWindow x t s.now then s else sendMsix (s.setBox k { x with notifyAt := none }) x.vector
    | none => s)

/-! ## Configuration (R411, R427) -/

def clampNat (lo hi v : Nat) : Nat := min hi (max lo v)

/-- A write of HIF_LBk_CFG: SIZE_LOG2 changes only while ENABLE is 0, which resets TAIL; enabling clears STOP. -/
def actBoxConfig (s : State) (k v : Nat) : State :=
  let x := s.box k
  let size := clampNat 4 16 (field v 24 5)
  let y := { x with vector := clampNat 16 2047 (field v 0 11), period := clampNat 1 1000 (field v 14 10) }
  let y := if x.enable || size == x.sizeLog2 then y else { y with sizeLog2 := size, tail := 0, badRun := 0 }
  let en := v.testBit 31
  s.setBox k (if en && !x.enable then { y with enable := true, stop := 0, badRun := 0 } else { y with enable := en })

def boxBase (k : Nat) : Nat := 0x11000 + 0x20 * k

def execLetterboxConfig (k : GroupNo) (m : Master) (v : W32) (s : State) : Result :=
  .next (gated s m.toNat (boxBase k + 8) (fun s => actBoxConfig s k v.toNat))

/-- A write of a word of HIF_LBk_BASE, accepted only while ENABLE is 0: a change resets TAIL. -/
def actBoxBase (s : State) (k : Nat) (base : W64) : State :=
  let x := s.box k
  if x.enable || base == x.base then s else s.setBox k { x with base := base, tail := 0, badRun := 0 }

/-- A write of APPLY in HIF_AP_CTRL: an unaligned base is refused (R405). -/
def actApertureApply (s : State) : State :=
  if s.hif.apBase.toNat % 2 ^ 30 != 0 then { s with hif := { s.hif with apRefused := true } }
  else { s with hif := { s.hif with apActive := s.hif.apBase } }

def execApertureApply (m : Master) (s : State) : Result :=
  .next (gated s m.toNat 0x10018 (fun s => actApertureApply s))

end Sys2Proof.Machine
end

