-- ==== Sys2Proof/Machine/Courier.lean ====
section
/-! DEFINITION. Couriers: requests, instruction fetch and its rules, LOOP, WAIT, the halt and the control registers
(spec/13 R324 to R335, R342 to R347). -/

namespace Sys2Proof.Machine

/-! ## Couriers (R324, R346) -/

def crrBase (c : Nat) : Nat := 0xC00000 + c * 0x400

/-- Reset value of GROUP: the tile, 8 on rim die A, 9 on rim die B. -/
def defaultGroup (c : Nat) : Nat := if c < 256 then c / 32 else if c < 288 then 8 else 9
def courierGroup (s : State) (c : Nat) : Nat := ((s.courier c).group).getD (defaultGroup c)
def courierMaster (s : State) (c : Nat) : Nat := 0x20 + courierGroup s c
/-- Couriers that may name host memory (R325). -/
def hostCourier (c : Nat) : Bool := 256 ≤ c && c < 288

/-- The unit code of couriers in a signature, and the operation of the round (19 R500). -/
def crrBy (slot : Nat) : By := ⟨9, some slot⟩

/-! ## Requests (R326, R327, R330) -/

def reqCourier (b : List Byte) : Nat := leAt b 4 2
def reqRound (b : List Byte) : Nat := leAt b 8 8

/-- ROUND is aligned and lies in local or remote HBM, or in the logical local-store region. -/
def roundPlaceOk (a : Nat) : Bool :=
  a % 16 == 0 &&
  (if a.testBit 63 then decide (field a 0 47 < hbmEnd)
   else decide (a < hbmEnd) || (logStoreBase ≤ a && decide (a < logStoreBase + 2048 * 0x400000)))

/-- The reason a request is malformed by the lowest field at fault. -/
def requestFault (s : State) (b : List Byte) (stream : Nat) : Option (Nat × Nat) :=
  let c := reqCourier b
  worstField (
    broken (319 < c || !((s.courier c).bound && (s.courier c).stream == stream)) 0x36 [4] ++
    broken (leAt b 6 2 != 0) 0x30 [6] ++ broken (!roundPlaceOk (reqRound b)) 0x36 [8])

/-- A round request reaches its courier. -/
def execRoundRequest (slot : Slot) (s : State) : Result :=
  .next (
    match s.op slot with
    | none => s
    | some o =>
      if o.kind != 5 || o.place ≠ .atIssuer then s
      else match requestFault s o.payload o.rcpt.stream with
        | some e => opMalformed s slot e.2 0xFFFFFFFF
        | none =>
          let c := reqCourier o.payload
          let x := s.courier c
          if 4 ≤ x.queue.length then s
          else opPlace (s.setCourier c { x with queue := x.queue ++ [slot.val] }) slot .queued)

/-! ## The life of a round -/

/-- Forgets a courier's round: its tags, locks and counters; PHASE reads 0. -/
def dropRound (s : State) (c : Nat) : State :=
  let x := s.courier c
  match x.round with
  | none => s
  | some r => (reqDrop s (r.tags ++ r.moveTags)).setCourier c { x with
      round := none, phase := .idle, rounds := inc32 x.rounds }

/-- Whether a MOVE is under way. -/
def inMove (r : Round) : Bool :=
  match r.ins with
  | some b => leAt b 0 1 == 1
  | none => false

/-- Units of a round that ends with no MOVE under way: its last one is whole however long it is (R341). -/
def roundUnits (r : Round) : Nat := if inMove r then 0 else ceilDiv r.out 4096

/-- Ends a round in error. -/
def failRound (s : State) (c status detail : Nat) : State :=
  match (s.courier c).round with
  | none => s
  | some r => opFail (opCount (dropRound s c) r.slot (roundUnits r)) r.slot status detail

/-- Ends a round DONE; its last output unit is whole however long it is (R336, R341). -/
def doneRound (s : State) (c : Nat) : State :=
  match (s.courier c).round with
  | none => s
  | some r => opDone (opCount (dropRound s c) r.slot (ceilDiv r.out 4096)) r.slot

def setRound (s : State) (c : Nat) (r : Round) : State :=
  s.setCourier c { s.courier c with round := some r }

/-- Notes a failed access, which the halt latches (R342). -/
def roundFault (s : State) (c : Nat) (r : Round) (status : Nat) (write : Bool) (addr restart : Nat) : State :=
  setRound s c { r with fault := some (status, write, addr, restart) }

/-! ## Instructions (R330 to R336) -/

def insLen (op : Nat) : Nat := if op == 1 then 64 else if op == 2 then 16 else 32

/-- Fields of a MOVE (R332). -/
structure MDesc where
  swap : Nat
  srcHost : Bool
  dstHost : Bool
  sa : Nat
  sb : Nat
  da : Nat
  db : Nat
  slen : Nat
  scount : Nat
  sstride : Int
  dlen : Nat
  dcount : Nat
  dstride : Int
  src : Nat
  dst : Nat
  sadvA : Int
  sadvB : Int
  dadvA : Int
  dadvB : Int
  deriving DecidableEq, Repr

def mdescOf (b : List Byte) : MDesc :=
  let m := leAt b 1 1
  let t := leAt b 2 1
  let sg (o : Nat) : Int := signedOf 32 (leAt b o 4)
  { swap := field m 5 3, srcHost := m.testBit 4, dstHost := m.testBit 3, sa := field t 6 2, sb := field t 4 2,
    da := field t 2 2, db := field t 0 2, slen := leAt b 4 4, scount := leAt b 8 4, sstride := sg 12,
    dlen := leAt b 16 4, dcount := leAt b 20 4, dstride := sg 24, src := leAt b 28 8, dst := leAt b 36 8,
    sadvA := sg 44, sadvB := sg 48, dadvA := sg 52, dadvB := sg 56 }

/-- Bytes of a swap unit (R338). -/
def swapUnit (k : Nat) : Nat := match k with | 0 => 1 | 1 => 2 | 2 => 4 | 3 => 8 | 4 => 4 | _ => 8

/-- Position of byte j of a unit after the swap. -/
def swapPos (k j : Nat) : Nat :=
  match k with | 0 => j | 1 => 1 - j | 2 => 3 - j | 3 => 7 - j | 4 => j ^^^ 2 | _ => j ^^^ 6

/-- Stream bytes of one execution. -/
def MDesc.total (d : MDesc) : Nat := d.slen * d.scount

/-- Base of a side with the counters' advances, modulo 2^64 (R337). -/
def sideBase (base : Nat) (lc : List Nat) (a b : Nat) (advA advB : Int) : Nat :=
  unsignedOf 64 (base + lc.getD a 0 * advA + lc.getD b 0 * advB)

def MDesc.srcBase (d : MDesc) (lc : List Nat) : Nat := sideBase d.src lc d.sa d.sb d.sadvA d.sadvB
def MDesc.dstBase (d : MDesc) (lc : List Nat) : Nat := sideBase d.dst lc d.da d.db d.dadvA d.dadvB

/-- Lowest and highest byte address of a side. -/
def sideSpan (base len count : Nat) (stride : Int) : Int × Int :=
  let last : Int := (count - 1 : Nat) * stride
  (base + min 0 last, base + max 0 last + len - 1)

def spansMeet (d : MDesc) (lc : List Nat) : Bool :=
  let a := sideSpan (d.srcBase lc) d.slen d.scount d.sstride
  let b := sideSpan (d.dstBase lc) d.dlen d.dcount d.dstride
  !d.srcHost && !d.dstHost && decide (a.1 ≤ b.2 ∧ b.1 ≤ a.2)

/-- Fields that enter the byte spans of a MOVE. -/
def spanFields : List Nat := [2, 4, 8, 12, 16, 20, 24, 28, 36, 44, 48, 52, 56]

def moveFaults (c : Nat) (lc : List Nat) (b : List Byte) : List (Nat × Nat) :=
  let d := mdescOf b
  let u := swapUnit d.swap
  let ss := d.slen * d.scount
  let dd := d.dlen * d.dcount
  broken (leAt b 1 1 % 8 != 0 || 6 ≤ d.swap) 0x30 [1] ++
  broken ((d.srcHost || d.dstHost) && !hostCourier c) 0x31 [1] ++ broken (d.srcHost && d.dstHost) 0x31 [1] ++
  broken (leAt b 3 1 != 0) 0x30 [3] ++ broken (d.slen == 0) 0x32 [4] ++ broken (d.scount == 0) 0x32 [8] ++
  broken (d.dlen == 0) 0x32 [16] ++ broken (d.dcount == 0) 0x32 [20] ++ broken (ss != dd) 0x32 [4, 8, 16, 20] ++
  broken (decide (2 ^ 40 < ss)) 0x32 [4, 8] ++
  broken (1 < d.dcount && decide (d.dstride.natAbs < d.dlen)) 0x33 [16, 20, 24] ++
  broken (d.slen % u != 0) 0x33 [1, 4] ++ broken (d.dlen % u != 0) 0x33 [1, 16] ++
  broken (d.slen != 0 && d.dlen != 0 && d.scount != 0 && d.dcount != 0 && spansMeet d lc) 0x33 spanFields ++
  broken (leAt b 60 4 != 0) 0x30 [60]

/-- The offset a LOOP goes back to. -/
def loopTarget (off : Nat) (b : List Byte) : Int := off + signedOf 32 (leAt b 8 4)

def loopFaults (off : Nat) (b : List Byte) : List (Nat × Nat) :=
  let t := loopTarget off b
  broken (leAt b 1 1 / 4 != 0) 0x30 [1] ++ broken (leAt b 2 2 != 0) 0x30 [2] ++ broken (leAt b 4 4 == 0) 0x34 [4] ++
  broken (decide (t < 0) || decide ((off : Int) ≤ t) || t % 16 != 0) 0x34 [8] ++ broken (leAt b 12 4 != 0) 0x30 [12]

def waitKind (b : List Byte) : Nat := leAt b 1 1
def waitArg (b : List Byte) : Nat := leAt b 8 8
def waitTimeout (b : List Byte) : Nat := leAt b 24 8

def waitFaults (b : List Byte) : List (Nat × Nat) :=
  broken (decide (2 < waitKind b)) 0x30 [1] ++ broken (leAt b 2 6 != 0) 0x30 [2] ++
  broken (waitKind b == 1 && waitArg b % 8 != 0) 0x37 [8] ++ broken (waitKind b != 1 && leAt b 16 8 != 0) 0x30 [16]

def signalFaults (c : Nat) (b : List Byte) : List (Nat × Nat) :=
  let f := leAt b 1 1
  broken (f / 8 != 0) 0x30 [1] ++ broken (f.testBit 2 && !hostCourier c) 0x31 [1] ++ broken (leAt b 2 6 != 0) 0x30 [2] ++
  broken (!f.testBit 1 && leAt b 8 8 != 0) 0x30 [8] ++ broken (f.testBit 1 && leAt b 8 8 % 8 != 0) 0x37 [8] ++
  broken (leAt b 24 8 != 0) 0x30 [24]

/-- The reason an instruction at an offset of its round is malformed (R330). -/
def instrFault (c off : Nat) (lc : List Nat) (b : List Byte) : Option Nat :=
  let op := leAt b 0 1
  (worstField (
    if op == 1 then moveFaults c lc b
    else if op == 2 then loopFaults off b
    else if op == 3 then waitFaults b
    else if op == 4 then signalFaults c b
    else [(0, 0x30)])).map Prod.snd

/-! ## Fetch (R328) -/

/-- What a fetch gives. -/
inductive Fetched where
  | ins (b : List Byte)
  | wait
  | fault (status addr : Nat)
  | malformed (reason : Nat)
  deriving DecidableEq, Repr

/-- Where a round's instructions end: no jump leads past its first SIGNAL with END, nor past a reserved opcode. -/
def roundLength (fuel : Nat) (s : State) (m base off : Nat) : Nat :=
  match fuel with
  | 0 => off
  | k + 1 =>
    match (addrPlace s m none (BitVec.ofNat 64 (base + off)) false).2 with
    | .mem key =>
      let op := (memByte s key).toNat
      if op == 0 || 5 ≤ op then off + 16
      else if op == 4 && (memByte s (key + 1)).toNat.testBit 0 then off + 32
      else roundLength k s m base (off + insLen op)
    | _ => off + 16

/-- The parcels here that a round occupies, at most 64 KiB from its base: locked for its life (R328). -/
def roundKeys (s : State) (c base : Nat) : List Nat :=
  let m := courierMaster s c
  let n := min 65536 (roundLength 4096 s m base 0)
  (List.range ((base % 4096 + n + 4095) / 4096)).filterMap (fun i =>
    match (addrPlace s m none (BitVec.ofNat 64 (base - base % 4096 + 4096 * i)) false).2 with
    | .mem k => some (k - k % 4096)
    | _ => none)

/-- The parcel of a round at a device address: its seal is checked at the first fetch from it. -/
def roundParcel (s : State) (c : Nat) (r : Round) (a : Nat) : State × Round × Rd :=
  match addrPlace s (courierMaster s c) none (BitVec.ofNat 64 a) false with
  | (s1, .mem k) =>
    let par := k - k % 4096
    let old := r.checked.contains par
    match parcelGet s1 par (!old) (crrBy r.slot) with
    | (s2, .ok d) => (s2, if old then r else { r with checked := par :: r.checked }, .ok d)
    | (s2, x) => (s2, r, x)
  | (s1, .remote chip off) =>
    let q := remoteRead s1 r.tags (courierMaster s1 c) chip off
    (q.1, { r with tags := q.2.1 }, q.2.2)
  | (s1, .regs _) => (s1, r, .fail stBus)
  | (s1, .bad st) => (s1, r, .fail st)

/-- `n` bytes of a round from an address, over at most two parcels: the bytes, or the status and address that fail. -/
def roundBytes (s : State) (c : Nat) (r : Round) (a n : Nat) : State × Round × Rd × Nat :=
  match roundParcel s c r a with
  | (s1, r1, .ok d) =>
    if a % 4096 + n ≤ 4096 then (s1, r1, .ok (bytesAt d (a % 4096) n), a)
    else
      let a2 := a - a % 4096 + 4096
      match roundParcel s1 c r1 a2 with
      | (s2, r2, .ok e) => (s2, r2, .ok (bytesAt (d ++ e) (a % 4096) n), a)
      | (s2, r2, x) => (s2, r2, x, a2)
  | (s1, r1, x) => (s1, r1, x, a)

/-- Fetches the instruction at CRR_PC and checks its rules. -/
def fetchIns (s : State) (c : Nat) (r : Round) : State × Round × Fetched :=
  let x := s.courier c
  let off := x.pc - r.base
  if 65536 ≤ off then (s, r, .malformed 0x35)
  else match roundBytes s c r x.pc 16 with
    | (s1, r1, .fail st, a) => (s1, r1, .fault st a)
    | (s1, r1, .wait, _) => (s1, r1, .wait)
    | (s1, r1, .ok h, _) =>
      let op := leAt h 0 1
      if op == 0 || 5 ≤ op then (s1, r1, .malformed 0x30)
      else if 65536 < off + insLen op then (s1, r1, .malformed 0x35)
      else match roundBytes s1 c r1 x.pc (insLen op) with
        | (s2, r2, .fail st, a) => (s2, r2, .fault st a)
        | (s2, r2, .wait, _) => (s2, r2, .wait)
        | (s2, r2, .ok b, _) =>
          match instrFault c off x.lc b with
          | some e => (s2, r2, .malformed e)
          | none => (s2, r2, .ins b)

/-- The instruction under way, or else the one at CRR_PC, which is fetched. -/
def heldIns (s : State) (c : Nat) (r : Round) : State × Round × Fetched :=
  match r.ins with
  | some b => (s, r, .ins b)
  | none => match fetchIns s c r with
    | (s1, r1, .ins b) => (s1, { r1 with ins := some b }, .ins b)
    | x => x

/-- Runs the instruction under way, or at CRR_PC, of a courier that is running, where it has the given opcode. -/
def onIns (s : State) (c op : Nat) (act : State → Round → List Byte → State) : State :=
  let x := s.courier c
  match x.round with
  | none => s
  | some r =>
    if x.phase ≠ .running || r.fault.isSome then s
    else match heldIns s c r with
      | (s1, r1, .wait) => setRound s1 c r1
      | (s1, r1, .fault st a) => roundFault s1 c r1 st false a 0
      | (s1, r1, .malformed e) => failRound (setRound s1 c r1) c stStruct (detail2 (0xFFFFFF00 + e) (x.pc - r.base))
      | (s1, r1, .ins b) => if leAt b 0 1 == op then act (setRound s1 c r1) r1 b else s

/-- The courier stands before the instruction at `pc`. -/
def goTo (s : State) (c pc : Nat) : State :=
  let x := s.courier c
  s.setCourier c { x with pc := pc, round := x.round.map (fun r => { r with ins := none }) }

/-- Goes on `n` bytes after the present instruction. -/
def stepPc (s : State) (c n : Nat) : State := goTo s c ((s.courier c).pc + n)

/-- The first queued round starts with its first instruction fetch (R327, R329). -/
def execRoundStart (c : CourierNo) (s : State) : Result :=
  .next (
    let x := s.courier c
    match x.round, x.queue with
    | none, slot :: rest =>
      match s.op slot with
      | none => s.setCourier c { x with queue := rest }
      | some o =>
        let r : Round := { slot := slot, base := reqRound o.payload, locks := roundKeys s c (reqRound o.payload) }
        let s1 := opStart (s.setCourier c { x with
          queue := rest, round := some r, phase := .running, curOp := o.rcpt.opId, pc := r.base, lc := [0, 0, 0, 0] }) slot
        match heldIns s1 c r with
        | (s2, r1, .fault st a) => roundFault s2 c r1 st false a 0
        | (s2, r1, .malformed e) => failRound (setRound s2 c r1) c stStruct (detail2 (0xFFFFFF00 + e) 0)
        | (s2, r1, _) => setRound s2 c r1
    | _, _ => s)

/-- LOOP (R333). -/
def execLoop (c : CourierNo) (s : State) : Result :=
  .next (onIns s c 2 (fun s1 _ b =>
    let x := s1.courier c
    let i := leAt b 1 1
    let n := x.lc.getD i 0
    if n + 1 < leAt b 4 4 then
      goTo (s1.setCourier c { x with lc := x.lc.set i (n + 1) }) c (x.pc + signedOf 32 (leAt b 8 4)).toNat
    else goTo (s1.setCourier c { x with lc := x.lc.set i 0 }) c (x.pc + 16)))

/-! ## WAIT (R334, R335) -/

/-- A WAIT holds the round. -/
def execWait (c : CourierNo) (s : State) : Result :=
  .next (onIns s c 3 (fun s1 r _ =>
    s1.setCourier c { s1.courier c with
      phase := .waiting, round := some { r with waitFrom := s1.now, lastPoll := none, met := false } }))

/-- The WAIT that holds a courier's round. -/
def onWait (s : State) (c : Nat) (act : State → Round → List Byte → State) : State :=
  let x := s.courier c
  match x.round with
  | none => s
  | some r =>
    if x.phase ≠ .waiting || r.fault.isSome then s
    else match r.ins with
      | some b => act s r b
      | none => s

/-- The condition has been seen to hold, and before TIMEOUT. -/
def waitHolds (s : State) (r : Round) (b : List Byte) : Bool :=
  let inTime (pm : Nat) : Bool := waitTimeout b == 0 || decide (max pm r.waitFrom < waitTimeout b)
  match waitKind b with
  | 0 => decide (waitArg b ≤ s.now) && inTime (waitArg b)
  | 1 => r.met
  | _ => match s.op (field (waitArg b) 0 17) with
    | some o => rstateFinal o.rcpt.state && inTime o.rcpt.postmark
    | none => false

/-- Status of the receipt that a WAIT awaits. -/
def waitStatus (s : State) (b : List Byte) : Nat :=
  if waitKind b != 2 then 0
  else match s.op (field (waitArg b) 0 17) with
    | some o => o.rcpt.status
    | none => 0

def execWaitMet (c : CourierNo) (s : State) : Result :=
  .next (onWait s c (fun s1 r b =>
    if !waitHolds s1 r b then s1
    else if 0x40 ≤ waitStatus s1 b then failRound s1 c stDep (detail2 (waitArg b) 0)
    else
      let x := s1.courier c
      goTo (s1.setCourier c { x with phase := .running }) c (x.pc + 32)))

def execWaitTimeout (c : CourierNo) (s : State) : Result :=
  .next (onWait s c (fun s1 r b =>
    if waitTimeout b == 0 || s1.now < waitTimeout b || waitHolds s1 r b then s1
    else failRound s1 c stNotReady (detail2 (waitArg b) ((s1.courier c).pc - r.base))))

/-! ## The halt (R342 to R345) -/

/-- The courier halts on the failed access and latches it. -/
def execCourierHalt (c : CourierNo) (s : State) : Result :=
  .next (
    let x := s.courier c
    match x.round with
    | none => s
    | some r => match r.fault with
      | none => s
      | some (status, write, addr, restart) =>
        let s1 := reqDrop s (r.tags ++ r.moveTags)
        sendMsix (s1.setCourier c { x with
          phase := .halted, faultAddr := addr, faultValid := true, faultDir := write, faultCause := status,
          restart := restart, halts := inc32 x.halts,
          round := some { r with fault := none, tags := [], moveTags := [], cache := [], pend := none } }) 1)

/-- Stops a round at the next delivery boundary: a delivery whose commit has begun at another module completes first. -/
def stopRound (s : State) (c : Nat) : State :=
  let x := s.courier c
  match x.round with
  | none => s
  | some r => if r.pend.isSome then s.setCourier c { x with phase := .stopping } else failRound s c stReset 0

/-- The delivery in flight of a stopping courier: answered, it counts, and the round ends (R343). -/
def stopStep (s : State) (c : Nat) : State :=
  let x := s.courier c
  match x.round with
  | none => s
  | some r =>
    let mine := s.net.reqs.filter (fun q => r.moveTags.contains q.tag && q.write)
    let answers := mine.filterMap (fun q => q.reply.map Prod.fst)
    if answers.length < mine.length then s
    else match r.pend with
      | some (n, units) =>
        if answers.all (fun st => st == 0) then
          failRound (opCount (s.setCourier c { x with bytes := (x.bytes + n) % 2 ^ 64 }) r.slot units) c stReset 0
        else failRound s c stReset 0
      | none => failRound s c stReset 0

/-- ABORT: a halted round ends with its cause; a running one is stopped at a delivery boundary. -/
def actCourierAbort (s : State) (c : Nat) : State :=
  let x := s.courier c
  match x.round with
  | none => s
  | some r =>
    if x.phase = .halted then
      failRound s c x.faultCause (detail2 x.faultAddr (boolNat x.faultDir * 2 ^ 31 + (x.pc - r.base) % 65536))
    else stopRound s c

/-- RESUME re-executes the halted instruction; ignored where the courier is not halted. -/
def actCourierResume (s : State) (c : Nat) : State :=
  let x := s.courier c
  if x.phase = .halted then s.setCourier c { x with phase := .running } else s

/-- Ends every queued request of a courier. -/
def failQueued (s : State) (l : List Nat) : State :=
  match l with
  | [] => s
  | k :: t => failQueued (opFail s k stReset 0) t

/-- RESET ends the round and the queue, and clears counters and fault registers. -/
def actCourierReset (s : State) (c : Nat) : State :=
  let q := (s.courier c).queue
  let s1 := if (s.courier c).phase = .halted then failRound s c stReset 0 else stopRound s c
  let s2 := failQueued (s1.setCourier c { s1.courier c with queue := [] }) q
  s2.setCourier c { s2.courier c with
    lc := [0, 0, 0, 0], faultAddr := 0, faultValid := false, faultDir := false, faultCause := 0, restart := 0 }

/-- A write of CRR_CTRL: RESET, then ABORT, then RESUME, the first that is set acting alone (R343). -/
def actCourierCtrl (s : State) (c v : Nat) : State :=
  if v.testBit 2 then actCourierReset s c
  else if v.testBit 1 then actCourierAbort s c
  else if v.testBit 0 then actCourierResume s c
  else s

/-- A write of CRR_BIND (R347). -/
def actCourierBind (s : State) (m c v : Nat) : State :=
  let x := s.courier c
  if x.phase ≠ .idle || !x.queue.isEmpty then s.setCourier c { x with bindRefused := true }
  else
    let g := field v 16 4
    let y := { x with bound := v.testBit 31, stream := field v 0 16 }
    if m == 0 then s.setCourier c { y with group := if g == defaultGroup c then none else some g }
    else rwlDenied (s.setCourier c y) m (crrBase c + 8) (courierGroup s c) g

def execCourierResume (c : CourierNo) (m : Master) (v : W32) (s : State) : Result :=
  .next (gated s m.toNat (crrBase c) (fun s => actCourierCtrl s c v.toNat))
def execCourierAbort (c : CourierNo) (m : Master) (v : W32) (s : State) : Result :=
  .next (gated s m.toNat (crrBase c) (fun s => actCourierCtrl s c v.toNat))
def execCourierReset (c : CourierNo) (m : Master) (v : W32) (s : State) : Result :=
  .next (gated s m.toNat (crrBase c) (fun s => actCourierCtrl s c v.toNat))
def execCourierBindWrite (c : CourierNo) (m : Master) (v : W32) (s : State) : Result :=
  .next (gated s m.toNat (crrBase c + 8) (fun s => actCourierBind s m.toNat c v.toNat))

end Sys2Proof.Machine
end

