-- ==== Sys2Proof/Machine/Fabric.lean ====
section
/-! DEFINITION. Stages, fabric ports, discovery, position, link states, forwarding entries, route flips and time
transfer (spec/14 R350 to R355, R362 to R382; spec/18 R453; spec/22 R544). -/

namespace Sys2Proof.Machine

def fabBase : Nat := 0x400000

/-! ## What a module announces (14 R362, R367, R373) -/

/-- Ports that carry maintenance and time packets. -/
def portMaint (s : State) (n : Nat) : Bool := (s.port n).state == 2 || (s.port n).state == 4
def portsWhere (f : Nat → Bool) : List Nat := (List.range 12).filter f

def discoverOf (s : State) (n : Nat) : Discover :=
  { serial := Config.serial, port := BitVec.ofNat 8 n, lpv := 5, stage := BitVec.ofNat 8 s.boot.stage,
    spare := s.fab.spare, imageLoaded := s.image.loaded, frameSaved := s.flash.frame != 0, placed := s.fab.placed,
    chip := BitVec.ofNat 16 (if s.fab.placed then s.fab.chip else 0xFFFF), frame := s.flash.frame,
    digest := if s.image.loaded then s.image.digest else zeroBytes 32 }

/-- Puts a maintenance packet of one flit on a port. -/
def maintSend (s : State) (n : Nat) (x : Sent) : State := linkSend s n { vc := vcMaint, item := x }

def maintSendAll (s : State) (l : List (Nat × Sent)) : State := l.foldl (fun a e => maintSend a e.1 e.2) s

/-- A packet dropped where it is found, and counted (R356). -/
def dropPacket (s : State) : State := { s with fab := { s.fab with routeDrops := inc32 s.fab.routeDrops } }

/-- A port whose lanes are trained sends DISCOVER, held or not (R364). -/
def portTrainedUp (s : State) (n : Nat) : Bool := (s.port n).width != 0

/-- DISCOVER on every trained port: its contents have changed. -/
def sendDiscovers (s : State) : State :=
  maintSendAll s ((portsWhere (portTrainedUp s)).map (fun n => (n, .discover n (discoverOf s n))))

/-- Sends a flooded packet on every usable port but the one it came by. -/
def floodOn (s : State) (ok : Nat → Bool) (but : Option Nat) (f : Nat → Sent) : State :=
  maintSendAll s ((portsWhere (fun n => ok n && some n != but)).map (fun n => (n, f n)))

/-- The next sequence number of this module's own floods. -/
def takeFlood (s : State) : Nat × State :=
  (s.net.floodSeq, { s with net := { s.net with floodSeq := (s.net.floodSeq + 1) % 65536 } })

/-- Whether a flooded packet is a repeat, and the state that remembers it. -/
def seenFlood (s : State) (kind origin seq : Nat) : Bool × State :=
  if s.net.seen.contains (kind, origin, seq) then (true, s)
  else (false, { s with net := { s.net with seen := (kind, origin, seq) :: s.net.seen } })

/-- Port pairings of this module: what its neighbours' DISCOVERs name, on ports not held for their pairing or version; one
held because the wiring is no torus stays in the picture that says so. -/
def ownPairs (s : State) : List Pairing :=
  (portsWhere (fun n => (portMaint s n || (s.port n).badWire) && (s.port n).nbrValid)).map (fun n =>
    { port := n, serial := (s.port n).nbrSerial, nport := (s.port n).nbrPort })

def ownRoster (s : State) (seq : Nat) : Roster :=
  { origin := Config.serial, seq := BitVec.ofNat 16 seq, frame := s.flash.frame, coord := s.flash.coord,
    pairs := ownPairs s, fwd := s.fab.fwd.filterMap id }

/-- Floods this module's roster. -/
def floodRoster (s : State) : State :=
  let q := takeFlood s
  let x := (seenFlood q.2 0x21 Config.serial.toNat q.1).2
  floodOn x (portMaint x) none (fun n => .roster n (ownRoster x q.1))

def dirMaint (s : State) (d : Nat) : Bool := portMaint s (2 * d) || portMaint s (2 * d + 1)

/-- Floods which of this module's directions are usable, and which carry time. -/
def floodLinks (s : State) : State :=
  if !s.fab.placed then s
  else
    let q := takeFlood s
    let x := (seenFlood q.2 0x22 s.fab.chip q.1).2
    let l : LinkState := { origin := BitVec.ofNat 16 s.fab.chip, seq := BitVec.ofNat 16 q.1,
                           usable := (List.range 6).map (dirUsable x), timed := (List.range 6).map (dirMaint x) }
    floodOn x (portMaint x) none (fun n => .linkState n l)

/-! ## Time source (14 R378) -/

/-- Links that carry time: this module's own by their ports, others by what rosters and LINK_STATEs told. -/
def timeLink (s : State) (c d : Nat) : Bool :=
  if dimSize s.fab (d / 2) ≤ 1 then false
  else if c == s.fab.chip then dirMaint s d
  else if neighbour s.fab c d == s.fab.chip then dirMaint s (if d % 2 == 0 then d + 1 else d - 1)
  else bothEnds s s.net.timeDown c d && bothEnds s s.net.noLink c d

/-- Chooses the time master and the port to follow. A module that others reach has passed S1, where its time base starts;
this one is asked. -/
def timeSelect (s : State) : State :=
  if !s.fab.placed then s
  else
    let own := bfsAux 65536 s.fab (timeLink s) [s.fab.chip] 0 [(s.fab.chip, 0)]
    let master := (own.filter (fun e => e.1 != s.fab.chip || s.time.running)).foldl (fun a e => min a e.1) 65536
    let far := bfsAux 65536 s.fab (timeLink s) [master] 0 [(master, 0)]
    let dist (c : Nat) : Nat := (kfind far c).getD 65536
    let port := (portsWhere (portMaint s)).find? (fun n =>
      timeLink s s.fab.chip (n / 2) && dist (neighbour s.fab s.fab.chip (n / 2)) + 1 == dist s.fab.chip)
    { s with time := { s.time with
        isMaster := master == s.fab.chip,
        sourcePort := if master == s.fab.chip then 15 else port.getD 15,
        good := if port == some s.time.sourcePort then s.time.good else 0,
        bad := if port == some s.time.sourcePort then s.time.bad else 0,
        t1 := none } }

/-! ## Stages (18 R453, R457, R459; 14 R369) -/

/-- Enters a stage: its postmark, the duration of the stage left, vector 0 and a new DISCOVER. -/
def setStage (s : State) (n : Nat) : State :=
  let b := s.boot
  let d := min 65535 ((s.time.cycles - b.stageCyc) / 10000000)
  let s1 := { s with boot := { b with
      stage := n, stagePm := s.now, stageCyc := s.time.cycles,
      durS3 := if b.stage == 3 && n == 4 then d else b.durS3, durS4 := if b.stage == 4 && n == 5 then d else b.durS4,
      forceFull := if n == 6 then false else b.forceFull } }
  sendDiscovers (sendMsix s1 0)

/-- Every required port is in state 2; those of a dimension of size 1 are not asked for (14 R369, 17 R433). -/
def maskMet (s : State) : Bool :=
  (List.range 12).all (fun n => !s.fab.required.testBit n || dimSize s.fab (n / 4) == 1 || portUsable s n)

/-- S7 ends when the required ports are up. -/
def retestMask (s : State) : State := if s.boot.stage == 7 && maskMet s then setStage s 6 else s

/-- S4 ends when position is settled and the time base is locked, or is the master's. -/
def endS4 (s : State) : State :=
  if s.boot.stage == 4 && s.fab.placed && (s.time.locked || s.time.isMaster) then setStage s 5 else s

/-! ## Ports (14 R350, R354, R355, R364 to R366) -/

/-- Width code and first active lane / 2 of a set of good lanes. -/
def widthOf (lanes : Nat) : Nat × Nat :=
  let all (l : List Nat) : Bool := l.all lanes.testBit
  if all [0, 1, 2, 3, 4, 5, 6, 7] then (3, 0)
  else if all [0, 1, 2, 3] then (2, 0)
  else if all [4, 5, 6, 7] then (2, 2)
  else match (List.range 4).find? (fun i => all [2 * i, 2 * i + 1]) with
    | some i => (1, i)
    | none => (0, 0)

/-- The port that R348 cables port n to. -/
def facingPort (n : Nat) : Nat := if n / 2 % 2 == 0 then n + 2 else n - 2

/-- What follows a change of a port's state: a rebuild, the announcement, the time source and the mask (R373, R378). -/
def portChanged (s : State) : State :=
  retestMask (timeSelect (floodLinks { s with fab := { s.fab with rebuildDue := true } }))

/-- A NACK to the source of a job packet that is lost here. This module's own request is answered at once; for its own
reply there is nothing to answer, and the NACK is discarded as one that comes late. -/
def nackSource (s : State) (p : Packet) (status : Nat) : State :=
  if p.h.src.toNat == ownSrc s then
    if p.h.kind == 1 || p.h.kind == 3 then reqReply s p.h.tag.toNat status []
    else { s with fab := { s.fab with lateReplies := inc32 s.fab.lateReplies } }
  else
    let h := { headerBlank with
      kind := 5, status := BitVec.ofNat 8 status, dst := p.h.src, src := BitVec.ofNat 16 s.fab.chip, tag := p.h.tag,
      imgTag := BitVec.ofNat 32 (imgTag s) }
    match routePacket s { h := h, data := [] } with
    | some r => portSend s r.1 r.2 none
    | none => dropPacket s

/-- The job packet of what a port held. -/
def Sent.job (x : Sent) : Option Packet := match x with | .packet _ p => some p | _ => none

/-- Buffers that waiting packets hold at the ports they came by are free. -/
def freeSources (s : State) (l : List LinkItem) : State :=
  l.foldl (fun a q => match q.src with | some (m, vc, k) => linkOwe a m vc k | none => a) s

/-- A port goes down with a cause: the source of every job packet in its replay buffer or output queue is answered
LINK_LOST (R355). -/
def portDown (s : State) (n cause : Nat) : State :=
  let x := s.port n
  let held := x.replay.filterMap (fun e => e.item.job) ++ x.queue.filterMap (fun q => q.item.job)
  let s1 := freeSources (s.setPort n { linkReset x with
    state := 0, cause := cause, width := 0, laneGroup := 0, savedUsed := false }) x.queue
  let s2 := held.foldl (fun a p => nackSource a p stLink) s1
  if x.state == 0 then s2
  else portChanged (cperAdd s2 0x20 n { cperBlank with unit := 11, location := n })

/-- A port begins to train fully. -/
def portTrain (s : State) (n : Nat) : State :=
  let s1 := if (s.port n).state == 0 then s else portDown s n 0
  portChanged (s1.setPort n { s1.port n with state := 1, cause := 0, width := 0, laneGroup := 0, savedUsed := false })

/-- State and cause of a trained port by its neighbour's DISCOVER, and whether its rails are exchanged. -/
def portVerdict (s : State) (n nport lpv : Nat) (loaded : Bool) (digest : List Byte) : Nat × Nat × Bool :=
  let other := nport == facingPort n ^^^ 1
  if nport != facingPort n && !other then (5, 3, false)
  else if 7 < lpv || lpv < 3 then (3, 4, other)
  else if !s.image.loaded || !loaded then (4, 0, other)
  else if digest == s.image.digest then (2, 0, other)
  else (4, 5, other)

/-- Sets a trained port's state by what its neighbour last announced. -/
def portJudge (s : State) (n : Nat) : State :=
  let x := s.port n
  if x.width == 0 || !x.nbrValid || x.hold then s
  else
    let r := portVerdict s n x.nbrPort x.nbrLpv x.nbrLoaded x.nbrDigest
    let v := if x.badWire then (5, 3, r.2.2) else r
    let s1 := s.setPort n { x with
      state := v.1, cause := v.2.1, remapped := v.2.2, lpv := if v.1 == 2 || v.1 == 4 then min 5 x.nbrLpv else 0 }
    if v.1 == x.state then s1 else portChanged s1

/-- A port finishes training (R350). -/
def execPortTrained (n : PortNo) (tr : Training) (s : State) : Result :=
  .next (
    let x := s.port n
    if x.state != 1 || x.width != 0 then s
    else
      let w := widthOf tr.lanes.toNat
      let saved := tr.saved && (kget none s.flash.portSaved n).isSome && !s.boot.forceFull && !s.boot.remapLost
      if !tr.signal then portChanged (s.setPort n { x with state := 0, cause := 1, lanes := 0 })
      else if w.1 == 0 then portChanged (s.setPort n { x with state := 0, cause := 2, lanes := tr.lanes.toNat })
      else
        let eq := match kget none s.flash.portSaved n with
          | some e => if saved then e.2.2.2 else tr.eq
          | none => tr.eq
        let s1 := s.setPort n { linkReset x with
          width := w.1, laneGroup := w.2, lanes := tr.lanes.toNat, savedUsed := saved, eq := eq }
        let s2 := if saved then s1
          else { s1 with
            boot := { s1.boot with full := s1.boot.full || s1.boot.stage == 4 },
            due := { s1.due with portsTrained := s1.due.portsTrained ++ [n.val] } }
        retestMask (portJudge (maintSend s2 n (.discover n (discoverOf s2 n))) n))

/-- A write of FAB_PORTn_CTRL. -/
def actPortCtrl (s : State) (n v : Nat) : State :=
  if v.testBit 0 then
    let s1 := s.setPort n { s.port n with hold := true }
    let s2 := portDown s1 n 10
    s2.setPort n { s2.port n with state := 0, cause := 10 }
  else
    let s1 := s.setPort n { s.port n with hold := false }
    if v.testBit 1 then portTrain s1 n else s1

def execPortRetrain (n : PortNo) (m : Master) (v : W32) (s : State) : Result :=
  .next (gated s m.toNat (fabBase + 0x100 * n + 4) (fun s => actPortCtrl s n v.toNat))
def execPortHold (n : PortNo) (m : Master) (v : W32) (s : State) : Result :=
  .next (gated s m.toNat (fabBase + 0x100 * n + 4) (fun s => actPortCtrl s n v.toNat))

/-- Whether a port is in service: up, or carrying less. -/
def portLive (s : State) (n : Nat) : Bool := 2 ≤ (s.port n).state && (s.port n).state ≤ 4

def execBlockLockLost (n : PortNo) (s : State) : Result := .next (if portLive s n then portDown s n 8 else s)

/-- A 1 ms window's FEC counts. -/
def execFecWindowEnd (n : PortNo) (corr : Nat) (uncorr : Nat) (s : State) : Result :=
  .next (
    let x := s.port n
    let s1 := s.setPort n { x with fecCorr := add32 x.fecCorr corr, fecUncorr := add32 x.fecUncorr uncorr }
    if 16 < uncorr && portLive s n then portDown s1 n 6 else s1)

/-- The oldest unacknowledged flit has waited 20 µs. -/
def execAckTimeout (n : PortNo) (s : State) : Result :=
  .next (
    if portLive s n && (s.port n).replay.any (fun e => decide (e.time + 20000 ≤ s.now)) then portDown s n 9 else s)

/-- Replays every packet that is not acknowledged; a flit replayed 8 times takes the port down (R353, R354). -/
def replayAll (s : State) (n : Nat) : State :=
  let x := s.port n
  let l := x.replay.map (fun e => { e with count := e.count + 1 })
  if l.isEmpty then s
  else
    let s1 := (s.setPort n { x with replay := l, retries := inc32 x.retries }).sendAll (l.map (fun e => e.item))
    if l.any (fun e => decide (8 ≤ e.count)) then portDown s1 n 7 else s1

/-- A control flit arrives: its ACK and credits count, and with CTRL = 1 it is a RETRY_REQ, which names the SEQ after its
ACK. A flit whose LCRC or FEC codeword fails is discarded; a head or body flit comes with its packet's own row. -/
def execRetryReq (n : PortNo) (flit : FlitIn) (s : State) : Result :=
  .next (
    if !portLive s n then s
    else match (if flit.fecBad then none else flitRead flit.bytes) with
      | none => linkRetry s n
      | some h =>
        if h.ftype != 0 then s
        else
          let s1 := linkAck s n h.ack [(h.crvc, h.credits)]
          if h.ctrl == 1 then replayAll s1 n else s1)

/-! ## Position (14 R367, R368) -/

/-- A module as position sees it: its serial, saved frame and coordinates, and pairings. -/
def modulesOf (s : State) : List Roster :=
  ownRoster s 0 :: s.net.rosters.filter (fun r => r.origin != Config.serial)

def rosterOf (l : List Roster) (serial : W64) : Option Roster := l.find? (fun r => r.origin == serial)

/-- The neighbour a module's pairings name in direction d. -/
def linkOf (r : Roster) (d : Nat) : Option W64 := (r.pairs.find? (fun p => p.port / 2 == d)).map (fun p => p.serial)

/-- The frame: the value saved by the most modules, the lowest of those; none where none is saved. -/
def frameVote (l : List Roster) : Option W64 :=
  let fs := (l.map (fun r => r.frame)).filter (fun f => f != 0)
  let votes (f : W64) : Nat := (fs.filter (fun g => g == f)).length
  fs.foldl (fun a f => match a with
    | none => some f
    | some b => if votes b < votes f || (votes f == votes b && f.toNat < b.toNat) then some f else some b) none

/-- Modules met going in direction d from one serial until the start again: their number, and whether it closed. -/
def ringWalk (fuel : Nat) (l : List Roster) (start at_ : W64) (d n : Nat) : Nat × Bool :=
  match fuel with
  | 0 => (n, false)
  | k + 1 => match (rosterOf l at_).bind (fun r => linkOf r d) with
    | none => (n, false)
    | some next => if next == start then (n, true) else ringWalk k l start next d (n + 1)

def ringsOf (l : List Roster) (dim : Nat) : List (Nat × Bool) :=
  l.map (fun r => ringWalk (l.length + 1) l r.origin r.origin (2 * dim) 1)

/-- Size of a dimension: the length of its rings; of its longest chain where none closes. -/
def ringSize (l : List Roster) (dim : Nat) : Nat :=
  let rs := ringsOf l dim
  match (rs.filter (fun r => r.2)).head? with
  | some r => r.1
  | none => rs.foldl (fun a r => max a r.1) 1

def dimLimit (dim : Nat) : Nat := if dim == 0 then 64 else 32

/-- Rings of one dimension whose lengths differ, or a ring that is too long, are no torus (R368). -/
def dimBad (l : List Roster) (dim : Nat) : Bool :=
  let closed := ((ringsOf l dim).filter (fun r => r.2)).map Prod.fst
  let n := ringSize l dim
  closed.any (fun k => k != n) || decide (dimLimit dim < n)

abbrev Coord := Nat × Nat × Nat

def coordGet (c : Coord) (dim : Nat) : Nat := if dim == 0 then c.1 else if dim == 1 then c.2.1 else c.2.2
def coordSet (c : Coord) (dim v : Nat) : Coord :=
  if dim == 0 then (v, c.2) else if dim == 1 then (c.1, v, c.2.2) else (c.1, c.2.1, v)

/-- One step from a coordinate in direction d. -/
def coordStep (sizes : Nat → Nat) (c : Coord) (d : Nat) : Coord :=
  coordSet c (d / 2) (stepCoord (coordGet c (d / 2)) d (sizes (d / 2)))

/-- Whether a module's saved coordinates agree with its links to neighbours of the frame. -/
def coordsAgree (l : List Roster) (sizes : Nat → Nat) (frame : W64) (r : Roster) : Bool :=
  match r.coord with
  | none => false
  | some c => [0, 2, 4].all (fun d =>
      match (linkOf r d).bind (rosterOf l) with
      | some x => if x.frame == frame then (match x.coord with | some y => y == coordStep sizes c d | none => true) else true
      | none => true)

/-- Coordinates taken by stepping along links from placed modules, in ascending order of serial. -/
def placeRest (fuel : Nat) (l : List Roster) (sizes : Nat → Nat) (done : List (W64 × Coord)) : List (W64 × Coord) :=
  match fuel with
  | 0 => done
  | k + 1 =>
    let at_ (w : W64) : Option Coord := (done.find? (fun e => e.1 == w)).map Prod.snd
    let cand (r : Roster) : Option Coord :=
      if (at_ r.origin).isSome then none
      else (List.range 6).findSome? (fun d =>
        ((linkOf r d).bind at_).map (fun c => coordStep sizes c (if d % 2 == 0 then d + 1 else d - 1)))
    match l.findSome? (fun r => (cand r).map (fun c => (r.origin, c))) with
    | some e => placeRest k l sizes (done ++ [e])
    | none => done

def insertSerial (r : Roster) (l : List Roster) : List Roster :=
  match l with
  | [] => [r]
  | x :: t => if r.origin.toNat ≤ x.origin.toNat then r :: x :: t else x :: insertSerial r t

def sortSerial (l : List Roster) : List Roster := l.foldl (fun a r => insertSerial r a) []

/-- Frame and coordinates of every module. -/
def settlePosition (l : List Roster) : W64 × List (W64 × Coord) :=
  let ms := sortSerial l
  let sizes := ringSize ms
  match frameVote ms with
  | some f =>
    let kept := ms.filterMap (fun r =>
      if r.frame == f && coordsAgree ms sizes f r then r.coord.map (fun c => (r.origin, c)) else none)
    (f, placeRest (ms.length + 1) ms sizes kept)
  | none => match ms with
    | [] => (0, [])
    | r :: _ => (r.origin, placeRest (ms.length + 1) ms sizes [(r.origin, (0, 0, 0))])

/-- A link that joins two modules whose coordinates are not one step apart in its direction: the wiring is no torus. -/
def linkTwisted (l : List Roster) (placed : List (W64 × Coord)) (own : Coord) (d : Nat) (nbr : W64) : Bool :=
  match (placed.find? (fun e => e.1 == nbr)).map Prod.snd with
  | some c => c != coordStep (ringSize l) own d
  | none => false

def chipAt (c : Coord) : Nat := chipOf c.1 c.2.1 c.2.2

/-- Directions of other modules that no pairing closes, by what their rosters hold. -/
def downLinks (l : List Roster) (placed : List (W64 × Coord)) : KMap Bool :=
  placed.foldl (fun m e => match rosterOf l e.1 with
    | none => m
    | some r => (List.range 6).foldl (fun m d =>
        if (linkOf r d).isNone then kset false m (chipAt e.2 * 8 + d) true else m) m) []

/-- Puts a forwarding entry in the first free slot, or in place of the entry for the same chip. -/
def fwdAdd (l : List (Option FwdEntry)) (e : FwdEntry) : List (Option FwdEntry) :=
  let l := l ++ List.replicate (64 - l.length) none
  match l.findIdx? (fun x => x.any (fun y => y.failed == e.failed)) with
  | some i => l.set i (some e)
  | none => match l.findIdx? (fun x => x.isNone) with
    | some i => l.set i (some e)
    | none => l

/-- Forgets a chip's entry. -/
def fwdDel (l : List (Option FwdEntry)) (failed : W16) : List (Option FwdEntry) :=
  l.map (fun x => if x.any (fun y => y.failed == failed) then none else x)

/-- An entry that no CLEAR seen here has removed. -/
def fwdLive (s : State) (e : FwdEntry) : Bool :=
  !s.net.cleared.any (fun x => x.failed == e.failed && x.spare == e.spare && seqFrom x.seq.toNat e.seq.toNat)

/-- Holds a port down or lets it go by whether its link keeps to a torus (R368). -/
def holdWiring (l : List Roster) (placed : List (W64 × Coord)) (own : Coord) (s : State) (n : Nat) : State :=
  let x := s.port n
  let bad := x.width != 0 && x.nbrValid && (dimBad l (n / 4) || linkTwisted l placed own (n / 2) x.nbrSerial)
  if bad == x.badWire then s else portJudge (s.setPort n { x with badWire := bad }) n

/-- Position settles: frame, sizes, coordinates and chip number; forwarding entries are relearned (R367, R377). -/
def settleModule (s : State) : State :=
  let l := modulesOf s
  let pos := settlePosition l
  match (pos.2.find? (fun e => e.1 == Config.serial)).map Prod.snd with
  | none => { s with net := { s.net with dirty := false } }
  | some c =>
    let changed := match s.flash.coord with | some o => o != c | none => false
    let fwd := ((l.flatMap (fun r => r.fwd)).filter (fwdLive s)).foldl fwdAdd s.fab.fwd
    let s1 := { s with
      flash := { s.flash with frame := pos.1, coord := some c },
      net := { s.net with coord := some c, frame := pos.1, dirty := false, noLink := downLinks l pos.2 },
      fab := { s.fab with
        chip := chipAt c, placed := true, spare := (imgWiring s.image.inForce).spares.contains (chipAt c), coordChanged := s.fab.coordChanged || changed, fwd := fwd,
        sizeX := ringSize l 0, sizeY := ringSize l 1, sizeZ := ringSize l 2, rebuildDue := true } }
    let s2 := (List.range 12).foldl (holdWiring l pos.2 c) s1
    endS4 (sendDiscovers (timeSelect (floodLinks s2)))

/-- No new roster has come for 20 ms, and no port still trains. -/
def execDiscoveryQuiet (s : State) : Result :=
  .next (
    if s.boot.stage < 4 || (s.fab.placed && !s.net.dirty) || s.now < s.fab.lastRoster + 20000000 ||
        (List.range 12).any (fun n => (s.port n).state == 1 && (s.port n).width == 0) then s
    else settleModule s)

/-- A ROSTER arrives: stored, and flooded onward once. -/
def execRoster (n : PortNo) (r : Roster) (s : State) : Result :=
  .next (
    let s := linkRecv s n vcMaint 1
    let q := seenFlood s 0x21 r.origin.toNat r.seq.toNat
    if r.rsv then dropPacket s
    else if !portMaint s n || q.1 then s
    else
      let s1 := q.2
      let old := rosterOf s1.net.rosters r.origin
      let same := match old with
        | some o => { o with seq := r.seq } == r
        | none => false
      let s2 := { s1 with net := { s1.net with
        rosters := s1.net.rosters.filter (fun x => x.origin != r.origin) ++ [r], dirty := s1.net.dirty || !same } }
      let s3 := if same then s2 else { s2 with fab := { s2.fab with lastRoster := s2.now } }
      floodOn s3 (portMaint s3) (some n.val) (fun k => .roster k r))

/-- A LINK_STATE arrives. -/
def execLinkState (n : PortNo) (l : LinkState) (s : State) : Result :=
  .next (
    let s := linkRecv s n vcMaint 1
    let q := seenFlood s 0x22 l.origin.toNat l.seq.toNat
    if l.rsv then dropPacket s
    else if !portMaint s n || q.1 then s
    else
      let s1 := q.2
      let mark (t : KMap Bool) (up : List Bool) : KMap Bool :=
        (List.range 6).foldl (fun m d => kset false m (l.origin.toNat * 8 + d) (!(up.getD d true))) t
      let s2 := { s1 with
        net := { s1.net with linkDown := mark s1.net.linkDown l.usable, timeDown := mark s1.net.timeDown l.timed },
        fab := { s1.fab with rebuildDue := true } }
      timeSelect (floodOn s2 (portMaint s2) (some n.val) (fun k => .linkState k l)))

/-- Records or removes a forwarding entry; the routes follow. -/
def fwdApply (s : State) (f : FwdAddr) : State :=
  { s with
    net := { s.net with cleared := if f.remove then f.entry :: s.net.cleared else s.net.cleared },
    fab := { s.fab with
      fwd := if f.remove then fwdDel s.fab.fwd f.entry.failed else fwdAdd s.fab.fwd f.entry, rebuildDue := true } }

/-- A FWD_ADDR arrives. -/
def execFwdAddr (n : PortNo) (f : FwdAddr) (s : State) : Result :=
  .next (
    let s := linkRecv s n vcMaint 1
    let q := seenFlood s 0x23 f.entry.spare.toNat f.entry.seq.toNat
    if f.rsv then dropPacket s
    else if !portMaint s n || q.1 then s
    else
      let s1 := fwdApply q.2 f
      floodOn s1 (portMaint s1) (some n.val) (fun k => .fwdAddr k f))

/-! ## Route flips and takeover (14 R373 to R377) -/

/-- The shadow copy takes effect; a takeover that awaited its flip is done. -/
def routeFlip (s : State) : State :=
  { s with fab := { s.fab with
      rtActive := s.fab.rtShadow, rtEpoch := !s.fab.rtEpoch,
      takeResult := if s.fab.takeResult == 1 then 2 else s.fab.takeResult } }

/-- The builder rebuilds the shadow copy and flips it. -/
def execRouteRebuild (s : State) : Result :=
  .next (
    if !s.fab.auto || !s.fab.rebuildDue then s
    else routeFlip { s with fab := { s.fab with rtShadow := buildRoutes s, rebuildDue := false } })

def actRouteFlip (s : State) (m : Nat) : State :=
  if m != 0 then rwlDenied s m (fabBase + 0x1020) 0 1
  else if s.fab.auto then s else routeFlip s

def execRouteFlip (m : Master) (s : State) : Result :=
  .next (gated s m.toNat (fabBase + 0x1020) (fun s => actRouteFlip s m.toNat))

/-- A takeover is refused (R375). -/
def takeRefused (s : State) (f : Nat) : Bool :=
  !s.fab.spare || s.fab.aliasValid || f == s.fab.chip ||
  s.fab.fwd.any (fun e => e.any (fun x => x.failed.toNat == f)) || 64 ≤ (s.fab.fwd.filterMap id).length

/-- Floods this spare's announcement under a new sequence number, and applies it here. -/
def announceFwd (s : State) (f : Nat) (remove : Bool) : State :=
  let seq := (s.fab.fwdSeq + 1) % 65536
  let a : FwdAddr := { entry := { failed := BitVec.ofNat 16 f, spare := BitVec.ofNat 16 s.fab.chip, seq := BitVec.ofNat 16 seq }, remove := remove }
  let s1 := { s with fab := { s.fab with fwdSeq := seq } }
  let s2 := fwdApply (seenFlood s1 0x23 s.fab.chip seq).2 a
  floodOn s2 (portMaint s2) none (fun n => .fwdAddr n a)

/-- A write of FAB_TAKEOVER. -/
def actTakeover (s : State) (m v : Nat) : State :=
  if m != 0 then rwlDenied s m (fabBase + 0x1030) s.fab.takeFailed (v - field v 16 14 * 65536)
  else
    let f := field v 0 16
    let s1 := { s with fab := { s.fab with takeFailed := f } }
    let go := v.testBit 31
    let clear := v.testBit 30
    if go && clear then { s1 with fab := { s1.fab with takeResult := 3 } }
    else if go then
      if takeRefused s1 f then { s1 with fab := { s1.fab with takeResult := 3 } }
      else announceFwd { s1 with fab := { s1.fab with aliasValid := true, aliasChip := f, takeResult := 1 } } f false
    else if clear && s1.fab.aliasValid then
      announceFwd { s1 with fab := { s1.fab with aliasValid := false, aliasChip := 0 } } s1.fab.aliasChip true
    else s1

def execTakeover (m : Master) (v : W32) (s : State) : Result :=
  .next (gated s m.toNat (fabBase + 0x1030) (fun s => actTakeover s m.toNat v.toNat))
def execTakeoverClear (m : Master) (v : W32) (s : State) : Result :=
  .next (gated s m.toNat (fabBase + 0x1030) (fun s => actTakeover s m.toNat v.toNat))

/-! ## Time transfer (14 R379, R380) -/

/-- Puts a time packet on a port. -/
def timeSend (s : State) (n : Nat) (x : Sent) : State := linkSend s n { vc := vcTime, item := x }

/-- Every 16 µs a module sends TIME_SYNC on its source port. -/
def execTimeSyncSend (s : State) : Result :=
  .next (
    let n := s.time.sourcePort
    let due := match s.time.t1 with | some t => decide (t + 16000 ≤ s.now) | none => true
    if n == 15 || !portMaint s n || !s.time.running || !due then s
    else timeSend { s with time := { s.time with t1 := some s.now } } n (.timeSync n (s.now * 16)))

/-- A neighbour's TIME_SYNC is answered with its arrival and the reply's send time. -/
def execTimeSync (n : PortNo) (_t1 t2 t3 : Int) (s : State) : Result :=
  .next (
    let s := linkRecv s n vcTime 1
    if portMaint s n && s.time.running then timeSend s n (.timeReply n t2 t3) else s)

/-- SLEW in steps of 4 ppm for a doubled offset in 1/16 ns: the step above or below, which R380 leaves open, is free. -/
def slewOf (dd : Int) (free : Nat) : Int :=
  let q := dd * 125 / 1024
  let v := if dd * 125 % 1024 == 0 then q else q + free % 2
  max (-125) (min 125 v)

/-- The time base moved by half of a doubled offset in 1/16 ns. -/
def stepTime (t : TimeBase) (dd : Int) : TimeBase :=
  let u : Int := t.pm * 250000 + t.frac + dd * 250000 / 32
  { t with pm := unsignedOf 64 (u / 250000), frac := u % 250000, stepSeen := true }

/-- The governor's windows after a step of the time base: the minute is cut (21 R533). -/
def rejoin (p : PowerRun) (pm : Nat) : PowerRun :=
  let p := if pm / 60000000000 == p.minuteIdx then p
    else { p with minuteIdx := pm / 60000000000, minuteE := 0, minuteN := 0, waitN := 0, minutePeak := 0 }
  let p := if pm / 100000000 == p.winIdx then p else { p with winIdx := pm / 100000000, windowE := 0 }
  { p with cutMinute := true }

/-- A TIME_REPLY: times in 1/16 ns, latched at the FEC boundary. -/
def execTimeReply (n : PortNo) (t1 t2 t3 t4 : Int) (s : State) : Result :=
  .next (
    let s := linkRecv s n vcTime 1
    if n.val != s.time.sourcePort || !portMaint s n || s.time.t1.isNone then s
    else
      let dd := (t2 - t1) - (t4 - t3)
      let near := decide (dd.natAbs < 256)
      let t := s.time
      let good := if near then t.good + 1 else 0
      let bad := if near then 0 else t.bad + 1
      let t := { t with good := good, bad := bad, locked := if 8 ≤ good then true else if 4 ≤ bad then false else t.locked }
      let f := s.takeFree
      if s.boot.stage < 6 && 32000 ≤ dd.natAbs then endS4 { s with time := stepTime t dd, prun := rejoin s.prun (stepTime t dd).pm }
      else endS4 { f.2 with time := { t with slew := slewOf dd f.1.toNat } })

/-! ## The reference clock (22 R544) -/

/-- FREF is lost: the internal oscillator takes over and every port goes down. -/
def execFrefLost (s : State) : Result :=
  .next (
    if s.boot.stage == 0 || !s.time.fref then { s with time := { s.time with fref := false } }
    else
      let s1 := { s with
        time := { s.time with fref := false, internalOsc := true, locked := false, good := 0 },
        pins := { s.pins with alertN := false } }
      (List.range 12).foldl (fun a n => portDown a n 8) s1)

/-- FREF is back: the rims change back to it without a step. -/
def execFrefReturn (s : State) : Result :=
  .next { s with time := { s.time with fref := true, internalOsc := false } }

end Sys2Proof.Machine
end

