-- ==== Sys2Proof/Machine/FloorPlan.lean ====
section
/-! DEFINITION. Rows, spares, holes, dead letters, forwarding tables and the floor-plan page (spec/01 R26 to R40). -/

namespace Sys2Proof.Machine

/-- Register-space offset of a tile's TIL block, and of a physical cluster's CLU block (01 R23). -/
def tilBase (t : Nat) : Nat := 0x1000000 + t * 0x100000
def cluBase (p : Nat) : Nat := 0x2000000 + p * 0x1000

/-! ## Rows -/

/-- GOOD bits of physical row k of tile t. -/
def goodMask (s : State) (t k : Nat) : Nat :=
  (List.range 16).foldl (fun a c => if isHole s (physOf t k c) then a else a + 2 ^ c) 0

def wholeRow (s : State) (t k : Nat) : Bool := k < 18 && goodMask s t k == 0xFFFF

/-- Logical row that physical row k backs. -/
def rowBacks (s : State) (t k : Nat) : Option Nat := (List.range 16).find? (fun r => fwdRow s t r == k)

/-- Whole spare rows, ascending. -/
def wholeSpares (s : State) (t : Nat) : List Nat :=
  (List.range 18).filter (fun k => wholeRow s t k && (rowBacks s t k).isNone)

/-- Logical numbers of a logical row. -/
def rowClusters (t r : Nat) : List Nat := (List.range 16).map (fun c => t * 256 + r * 16 + c)

def rowHasDead (s : State) (t r : Nat) : Bool := (rowClusters t r).any (isDead s)

def logicalLive (s : State) (t : Nat) : Nat :=
  ((List.range 256).filter (fun i => !isDead s (t * 256 + i))).length

def bitCount (k v : Nat) : Nat :=
  match k with
  | 0 => 0
  | k + 1 => v % 2 + bitCount k (v / 2)

def spareGood (s : State) (t : Nat) : Nat :=
  ((List.range 18).filter (fun k => (rowBacks s t k).isNone)).foldl (fun a k => a + bitCount 16 (goodMask s t k)) 0

/-! ## The floor-plan page (R29, R30) -/

/-- A page word before the first build. -/
def fpResetWord (t i : Nat) : Nat :=
  if i == 0 then 0x100 + t else if 4 ≤ i && i ≤ 21 then 0xFF0000 else 0

def fpRowWord (s : State) (t k : Nat) : Nat :=
  match rowBacks s t k with
  | some r => r * 2 ^ 16 + goodMask s t k
  | none => (if wholeRow s t k then 1 else 2) * 2 ^ 24 + 0xFF0000 + goodMask s t k

def fpDeadWord (s : State) (t k : Nat) : Nat :=
  (List.range 32).foldl (fun a j => if isDead s (t * 256 + 32 * k + j) then a + 2 ^ j else a) 0

def fpStackWord (s : State) (t m : Nat) : Nat :=
  let x := s.stk (4 * t + m)
  x.retired.length * 2 ^ 16 + boolNat x.present

/-- Word i of a page built now, but for the seal. VALID is clear until an image is in force (18 R453). -/
def fpWord (s : State) (t i : Nat) : Nat :=
  if i == 0 then (if s.image.loaded then 0x10100 else 0x100) + t
  else if i == 1 then s.image.epoch
  else if i == 2 then spareGood s t * 2 ^ 16 + logicalLive s t
  else if 4 ≤ i && i ≤ 21 then fpRowWord s t (i - 4)
  else if 24 ≤ i && i ≤ 31 then fpDeadWord s t (i - 24)
  else if 32 ≤ i && i ≤ 35 then fpStackWord s t (i - 32)
  else 0

/-- Rebuilds a tile's page as a whole, with its seal. -/
def buildPage (s : State) (t : Nat) : State :=
  let ws := (List.range 63).map (fpWord s t)
  let chk := crc32c (ws.flatMap (bytesOfNat 4))
  let page := (ws ++ [chk]).zipIdx.foldl (fun (m : KMap W32) w => kput m w.2 (BitVec.ofNat 32 w.1)) []
  s.setTile t { s.tile t with fpPage := page }

/-- A page word as a read returns it. -/
def fpRead (s : State) (t i : Nat) : W32 :=
  let x := s.tile t
  if x.fpPage.isEmpty then BitVec.ofNat 32 (fpResetWord t i) else kget 0 x.fpPage i

/-! ## Moves (R36, R37, R39) -/

/-- Default-dropping entry of a forwarding table: row i itself is not listed. -/
def fwdSet (m : KMap Nat) (r k : Nat) : KMap Nat := kset 0 m r (if k == r then 0 else k + 1)

/-- Clears the stores of a physical row: they read as sealed zeros under their new home addresses. -/
def clearRow (s : State) (t k : Nat) : State :=
  (List.range 16).foldl (fun s c => memClear s (storeKey (physOf t k c) 0) (storeKey (physOf t k c + 1) 0)) s

/-- Work queued at the tensor engines of the old row goes to the new row's. -/
def moveQueues (s : State) (t k k' : Nat) : State :=
  (List.range 16).foldl (fun s c =>
    let a := s.clu (physOf t k c)
    let b := s.clu (physOf t k' c)
    (s.setClu (physOf t k' c) { b with te := { b.te with queue := b.te.queue ++ a.te.queue } }).setClu
      (physOf t k c) { a with te := { a.te with queue := [] } }) s

/-- The clusters of a logical row are dead letters no more. Whether the former dead letter then counts as quiesced the spec
does not say: its bit stays as it was (DESIGN CHOICE, log 98). -/
def reviveRow (s : State) (t r : Nat) : State :=
  { s with core := { s.core with dead := (rowClusters t r).foldl (fun m n => kset false m n false) s.core.dead } }

/-- The move of a row is recorded for flash. -/
def recordMove (s : State) (t r k : Nat) : State :=
  { s with flash := { s.flash with rowMoves := kset 0 s.flash.rowMoves (t * 16 + r) (k + 1) } }

/-- Everything a change of a row's physical row does but the table itself. -/
def moveRow (s : State) (t r k k' : Nat) : State :=
  reviveRow (moveQueues (clearRow (clearRow (recordMove s t r k') t k) t k') t k k') t r

/-- The flip: active and shadow exchange, every row whose physical row changed moves, the new shadow copy becomes
equal to the new active copy, and the page is rebuilt (R31). -/
def flipForwarding (s : State) (t : Nat) : State :=
  let x := s.tile t
  let s1 := (List.range 16).foldl (fun a r =>
    if fwdRow s t r == fwdShadowRow s t r then a else moveRow a t r (fwdRow s t r) (fwdShadowRow s t r)) s
  buildPage (s1.setTile t { s1.tile t with fwdActive := x.fwdShadow, fwdEpoch := !x.fwdEpoch }) t

/-- Whether a shadow copy may take effect (R32). -/
def shadowOk (s : State) (t : Nat) : Bool :=
  (List.range 16).all (fun r => fwdShadowRow s t r == fwdRow s t r || wholeRow s t (fwdShadowRow s t r)) &&
  ((List.range 16).map (fwdShadowRow s t)).Nodup

/-- A flip that Postmaster asks for: refused and logged where the shadow copy fails R32; answers whether it took effect. -/
def flipChecked (s : State) (t : Nat) : State × Bool :=
  if shadowOk s t then (flipForwarding s t, true) else (denyAdd s 0 true 4 (regBase + tilBase t + 0x1080), false)

/-- Moves a logical row to a physical row: its shadow entry and a flip, which R32 judges with every other entry of the
shadow copy. -/
def moveTo (s : State) (t r k : Nat) : State × Bool :=
  let x := s.tile t
  flipChecked (s.setTile t { x with fwdShadow := fwdSet x.fwdShadow r k }) t

/-- At an image load each row that holds a dead letter moves to the lowest whole spare row, where there is one. -/
def imageRowMoves (s : State) : State :=
  (List.range 8).foldl (fun s t => (List.range 16).foldl (fun s r =>
    if rowHasDead s t r then
      match wholeSpares s t with
      | k :: _ => (moveTo s t r k).1
      | [] => s
    else s) s) s

/-! ## Retirement (R28, R33) -/

/-- Every operation of a list ends with a status. -/
def failAll (s : State) (l : List Nat) (status detail : Nat) : State :=
  match l with
  | [] => s
  | k :: t => failAll (opFail s k status detail) t status detail

/-- Slots of the receipts that a queue of tensor descriptors carries. -/
def itemSlots (l : List TeItem) : List Nat := (l.filter (fun i => !i.byProg)).map (fun i => i.slot)

/-- The seals of a physical cluster's store as its home base changes from `h` to `h'` with the bytes and seals at rest
unchanged (01 R557). The code is linear, so the difference is one for all its parcels. -/
def rehome (s : State) (p h h' : Nat) : State :=
  let d := BitVec.ofNat 32 (sealOf h (zeroBytes 4096) ^^^ sealOf h' (zeroBytes 4096))
  let k := storeKey p 0 / 4096
  let old := s.store.sealDelta
  let mid : KMap W32 := (List.range 1024).map (fun i => (k + i, kget 0 old (k + i) ^^^ d))
  let new := old.filter (fun e => e.1 < k) ++ mid.filter (fun e => e.2 != 0) ++ old.filter (fun e => k + 1024 ≤ e.1)
  { s with store := { s.store with sealDelta := new } }

/-- Retires a physical cluster: a hole from now on; its logical number becomes a dead letter, and the work queued
for it fails (19 R493). The record in flash follows (FIELD_REMAP_COPIED). -/
def retireCluster (s : State) (p : Nat) : State :=
  let n := logicalOfP s p
  let c := s.clu p
  let s0 := match n with
    | some n => if isHole s p then s else rehome s p (logStoreBase + n * 0x400000) (storeKey p 0)
    | none => s
  let s1 := s0.setClu p { c with te := { c.te with queue := [] }, chk := { c.chk with state := .retired, test := none } }
  let s2 := { s1 with
    core := { s1.core with
      holes := kset false s1.core.holes p true,
      dead := match n with | some n => kset false s1.core.dead n true | none => s1.core.dead },
    due := { s1.due with clus := s1.due.clus ++ [p] } }
  let s3 := failAll s2 (itemSlots c.te.queue) stDead 0
  let s4 := match n with
    | some n =>
      let x := s3.lclu n
      failAll (s3.setLclu n { x with progs := [] }) x.progs stDead 0
    | none => s3
  buildPage s4 (tileOfP p)

/-! ## Bring-up (R27, R31, R39) -/

/-- Rows with no factory hole, ascending. -/
def factoryRows (t : Nat) : List Nat :=
  (List.range 18).filter (fun k => (List.range 16).all (fun c => !Config.factoryHole (physOf t k c)))

/-- The physical row of a logical row by R27 and the recorded moves. -/
def placedRow (s : State) (t r : Nat) : Nat :=
  let v := kget 0 s.flash.rowMoves (t * 16 + r)
  if v == 0 then (factoryRows t).getD r r else v - 1

/-- Stage S2: holes and both forwarding copies from fuses and flash, dead letters, and every page (R31). -/
def buildFloorPlan (s : State) : State :=
  let holes := (List.range 2304).foldl (fun (m : KMap Bool) p =>
    kset false m p (Config.factoryHole p || s.flash.retiredClu.contains p)) []
  let s1 := { s with core := { s.core with holes := holes } }
  let s2 := (List.range 8).foldl (fun s t =>
    let m := (List.range 16).foldl (fun (m : KMap Nat) r => fwdSet m r (placedRow s t r)) []
    s.setTile t { s.tile t with fwdActive := m, fwdShadow := m }) s1
  let dead := (List.range 2048).foldl (fun (m : KMap Bool) n => kset false m n (isHole s2 (physOfN s2 n))) []
  let s3 := { s2 with core := { s2.core with dead := dead } }
  (List.range 8).foldl buildPage s3

/-! ## The commands -/

/-- A write of FLIP in TIL_FWD_CTRL: RWL, and refused where the shadow copy fails R32. -/
def actForwardingFlip (s : State) (t m : Nat) : State :=
  if m != 0 then rwlDenied s m (tilBase t + 0x1080) 0 1
  else (flipChecked s t).1

def execForwardingFlip (t : Tile) (m : Master) (s : State) : Result :=
  .next (gated s m.toNat (tilBase t + 0x1080) (fun s => actForwardingFlip s t m.toNat))

/-- Whether a request to move a row is refused (R40, 19 R495). -/
def swapRefused (s : State) (t r : Nat) : Bool :=
  !rowHasDead s t r || (wholeSpares s t).isEmpty ||
  (rowClusters t r).any (fun n => !isDead s n &&
    (!isQuiesced s n || [ChkState.testing, ChkState.quarantined].contains (s.clu (physOfN s n)).chk.state))

/-- A write of TIL_ROW_SWAP. -/
def actRowSwap (s : State) (t v : Nat) : State :=
  let x := s.tile t
  let r := field v 0 4
  if v.testBit 8 then
    if x.swapResult == 1 then s
    else s.setTile t { x with swapRow := r, swapMoving := r, swapResult := if swapRefused s t r then 3 else 1 }
  else s.setTile t { x with swapRow := r }

def execRowSwap (t : Tile) (m : Master) (v : W32) (s : State) : Result :=
  .next (gated s m.toNat (tilBase t + 0x1100) (fun s => actRowSwap s t v.toNat))

/-- Postmaster carries out the accepted request; the row stays quiesced. The spec does not say what RESULT becomes when
the whole spare is gone by then or the flip is refused under R32 (3, with nothing moved), nor what becomes of a row that an
image load has moved meanwhile (it is moved again; DESIGN CHOICE, log 98). -/
def execRowMoveComplete (t : Tile) (s : State) : Result :=
  .next (
    let x := s.tile t
    if x.swapResult != 1 then s
    else match wholeSpares s t with
      | k :: _ =>
        let w := moveTo s t x.swapMoving k
        w.1.setTile t { w.1.tile t with swapResult := if w.2 then 2 else 3 }
      | [] => s.setTile t { x with swapResult := 3 })

end Sys2Proof.Machine
end

