-- ==== Sys2Proof/Machine/MemService.lean ====
section
/-! DEFINITION. The memory controllers' own work: initialisation, scrubbing, the remap ladder, and the records copied
to module flash (spec/12 R311 to R321; spec/18 R460). -/

namespace Sys2Proof.Machine

/-- Stack parcels, the reserved region's included (R301). -/
def stackParcels : Nat := 25165824
/-- First stack parcel of the reserved region (R302). -/
def reservedQ : Nat := 25034752

/-! ## Initialisation (R311) -/

/-- Sealed zeros, no lost marks and no counts in stack parcels [lo, hi). -/
def initStack (x : StackS) (lo hi : Nat) : StackS :=
  { x with
    lost := kcut x.lost lo hi, symErr := kcut x.symErr (lo * 4608) (hi * 4608), counts := kcut x.counts lo hi,
    dropped := x.dropped.filter (fun q => q < lo || hi ≤ q) }

def mapStacks (s : State) (f : StackS → StackS) : State :=
  (List.range 32).foldl (fun a k => a.setStk k (f (a.stk k))) s

/-- Every parcel of the offsets [a, b), both on 16 GiB boundaries, is written as sealed zeros; their seals fill whole
parcels of the seal store. -/
def initRegion (s : State) (a b : Nat) : State :=
  let lo := a / 0x20000
  let hi := b / 0x20000
  mapStacks (memClear s a b) (fun x => initStack (initStack x lo hi) (sealParcel lo) (sealParcel hi))

/-- All of HBM, the reserved region included, as stage S3 initialises it. -/
def initHbm (s : State) : State := mapStacks (memClear s 0 hbmEnd) (fun x => initStack x 0 stackParcels)

/-! ## Scrubbing (R312 to R314) -/

/-- Adds symbol errors that DRAM now shows. -/
def addErrs (x : StackS) (l : List SymErr) : StackS :=
  { x with symErr := l.foldl (fun m e =>
      let k := (e.parcel * 64 + e.cw) * 72 + e.sym
      kset 0 m k (kget 0 m k ^^^ e.mask)) x.symErr }

/-- Codewords below `n` of a parcel, in ascending order, each corrected in place; an uncorrectable one marks the parcel
lost, and its errors stay. -/
def scrubParcel (n : Nat) (s : State) (k q : Nat) : State :=
  match n with
  | 0 => s
  | n + 1 =>
    let s1 := scrubParcel n s k q
    match meetCodeword s1 k q n with
    | (s2, _, true) => s2
    | (s2, res, false) => s2.setStk k (writeBack (s2.stk k) q n res)

/-- Whether a stack's scrubber runs. -/
def scrubRuns (s : State) (x : StackS) : Bool :=
  x.present && x.scrubEnable && x.step < 2 && !s.boot.computeReset

/-- The scrubber takes its next parcel; a lost one, or a row that waits to move, is skipped. -/
def execScrubStep (k : StackNo) (errs : List SymErr) (s : State) : Result :=
  .next (
    let s0 := s.setStk k (addErrs (s.stk k) errs)
    let x := s0.stk k
    if !scrubRuns s0 x then s0
    else
      let s1 := if isLost x x.nextQ then s0 else scrubParcel 64 s0 k x.nextQ
      let y := s1.stk k
      let q := if x.nextQ + 1 < stackParcels then x.nextQ + 1 else 0
      s1.setStk k { y with nextQ := q, counts := if q == 0 then [] else y.counts })

/-! ## The remap ladder (R315 to R321) -/

/-- Key of a row's bank: channel and bank together. -/
def bankKey (q : Nat) : Nat := q % 768

def rowMap (x : StackS) (q : Nat) : RowMap := kget {} x.rows q

/-- The lowest-numbered free spare of a bank. -/
def freeSpare (x : StackS) (bank : Nat) : Option Nat :=
  (List.range 32).find? (fun i => !(kget 0 x.spares bank).testBit i)

/-- Free spares of the stack, and the fewest of any bank (MEM_SPARES). -/
def sparesFree (x : StackS) : Nat := x.spares.foldl (fun a e => a - bitCount 32 e.2) 24576
def sparesMin (x : StackS) : Nat := x.spares.foldl (fun a e => min a (32 - bitCount 32 e.2)) 32

/-- Moves a row into a spare: its 64 codewords are copied corrected, and the remap table flips (R317). -/
def moveMemRow (s : State) (k q spare : Nat) : State :=
  let s1 := scrubParcel 64 s k q
  let x := s1.stk k
  let b := bankKey q
  let r := rowMap x q
  let y := { x with
    rows := kset {} x.rows q { r with rung := r.rung + 1, spare := spare },
    spares := kset 0 x.spares b (kget 0 x.spares b + 2 ^ spare),
    remaps := inc32 x.remaps, rmpEpoch := !x.rmpEpoch, copyDue := true }
  cperAdd (s1.setStk k y) 0x12 (k * 2 ^ 25 + q) { cperBlank with unit := 10, location := locMemory k q }

/-- Retires the page of a row, or marks the stack where the row is of the reserved region (R318, R319). -/
def retirePage (s : State) (k q : Nat) : State :=
  let x := s.stk k
  let r := rowMap x q
  let sig : Cper := { cperBlank with unit := 10, location := locMemory k q }
  match offsetOf s k q with
  | none =>
    let z : StackS := { x with reservedFail := true, copyDue := true }
    cperAdd (s.setStk k z) 0x14 (k * 2 ^ 25 + q) sig
  | some y =>
    let page := y / 2 ^ 21
    let r' : RowMap := { r with retired := true }
    let z : StackS := { x with rows := kset {} x.rows q r', copyDue := true }
    if x.retired.any (fun e => e.1 == page) then s.setStk k z
    else if 4096 ≤ x.retired.length then s.setStk k { z with listFull := true }
    else
      let s1 := s.setStk k { z with retired := x.retired ++ [(page, s.image.epoch)] }
      buildPage (cperAdd s1 0x13 (k * 2 ^ 25 + q) sig) (k / 4)

/-- Serves the oldest trigger of a stack: the row moves up a rung, or its page is retired. -/
def execRemapService (k : StackNo) (s : State) : Result :=
  .next (
    match (s.stk k).triggers with
    | [] => s
    | q :: _ =>
      let x := s.stk k
      let s1 := match (if (rowMap x q).rung ≤ 2 then freeSpare x (bankKey q) else none) with
        | some i => moveMemRow s k q i
        | none => retirePage s k q
      s1.setStk k { s1.stk k with triggers := (s1.stk k).triggers.filter (fun t => t != q) })

/-! ## Flash records (R320, 18 R460, 19 R493, 14 R363) -/

/-- Copies what is due to the field remap tables. -/
def copyRecords (s : State) : State :=
  (List.range 32).foldl (fun (a : State) k =>
    let x := a.stk k
    if x.copyDue then
      let copy : StackCopy :=
        { lost := x.lost, rows := x.rows, spares := x.spares, retired := x.retired, reservedFail := x.reservedFail }
      let f : Flash := { a.flash with stks := kset {} a.flash.stks k copy }
      { a with flash := f }.setStk k { x with copyDue := false }
    else a)
  { s with
    flash := { s.flash with retiredClu := s.flash.retiredClu ++ s.due.clus }, due := { s.due with clus := [] } }

def execFieldRemapCopied (s : State) : Result := .next (copyRecords s)

/-- Writes the new settings of stacks, from S6 on, and of ports to flash. -/
def execTrainingSettingsSaved (s : State) : Result :=
  .next (
    let ports := s.due.portsTrained.foldl (fun (m : KMap (Option (W64 × Nat × Nat × W64))) n =>
      let x := s.port n
      if x.nbrValid then kset none m n (some (x.nbrSerial, x.nbrPort, x.width, x.eq)) else m) s.flash.portSaved
    let settings := if 6 ≤ s.boot.stage then
        s.due.stacksTrained.foldl (fun (m : KMap (Option (W64 × Int))) k =>
          kset none m k (some ((s.stk k).identity, max (s.stk k).base (s.stk k).dram))) s.flash.stkSaved
      else s.flash.stkSaved
    { s with
      flash := { s.flash with portSaved := ports, stkSaved := settings },
      due := { s.due with
        stacksTrained := if 6 ≤ s.boot.stage then [] else s.due.stacksTrained,
        portsTrained := s.due.portsTrained.filter (fun n => !(s.port n).nbrValid) } })

end Sys2Proof.Machine
end

