-- ==== Sys2Proof/Machine/Power.lean ====
section
/-! DEFINITION. The power governor, temperatures and the beat rates (spec/21 R524 to R539; spec/12 R322; spec/02 R47
to R49). Energies are in mJ, temperatures in 1/16 °C, voltages in mV. -/

namespace Sys2Proof.Machine

def pwrBase : Nat := 0x100000

/-! ## The variant (R528, 00 R1) -/

def variantMinCap : Nat := match Config.variant with | 0 => 6000 | 1 => 4500 | 2 => 3600
def variantPeakCap : Nat := match Config.variant with | 0 => 6600 | 1 => 4950 | 2 => 3960
def variantVolts : Nat := match Config.variant with | 0 => 820 | 1 => 750 | 2 => 700
def variantBeats : Nat := match Config.variant with | 0 => 2000 | 1 => 1700 | 2 => 1450

/-! ## The calibration record in force (20 R517) -/

def calRecord (s : State) : List Byte := if s.sec.calNow.isEmpty then Config.factoryCal else s.sec.calNow

/-- Core voltages of a tile's table, ascending. -/
def voltTable (s : State) (t : Nat) : List Nat :=
  (List.range 32).map (fun i => leAt (calRecord s) (19520 + 128 * t + 4 * i) 2)

/-- Offset of sensor i: 2s and 2s + 1 for stack s, 64 + j for die and module sensor j. -/
def sensorOffset (s : State) (i : Nat) : Int := signedOf 16 (leAt (calRecord s) (20544 + 2 * i) 2)

/-! ## Windows and caps (R527 to R529) -/

def minuteNs : Nat := 60000000000
def windowNs : Nat := 100000000

/-- 0 or a value above the variant's cap selects the variant's cap. -/
def capOrVariant (variant v : Nat) : Nat := if v == 0 || variant < v then variant else v

/-- The cap in force at a postmark. -/
def capAt (l : List (Nat × Nat)) (w variant t : Nat) : Nat :=
  match l.find? (fun e => decide ((e.1 / w + 1) * w ≤ t)) with
  | some e => e.2
  | none => variant

/-- Remembers a request: the last of a window is the one that takes effect. -/
def capPush (l : List (Nat × Nat)) (w pm cap : Nat) : List (Nat × Nat) :=
  (pm, cap) :: (l.filter (fun e => e.1 / w != pm / w)).take 3

def minCapAt (s : State) (t : Nat) : Nat := capAt s.power.minCaps minuteNs variantMinCap t
def peakCapAt (s : State) (t : Nat) : Nat := capAt s.power.peakCaps windowNs variantPeakCap t

/-- Asks for both caps. -/
def requestCaps (s : State) (minCap peakCap : Nat) : State :=
  { s with power := { s.power with
      minCaps := capPush s.power.minCaps minuteNs s.now (capOrVariant variantMinCap minCap),
      peakCaps := capPush s.power.peakCaps windowNs s.now (capOrVariant variantPeakCap peakCap) } }

/-- A write of PWR_CAP. -/
def actPowerCap (s : State) (v : Nat) : State :=
  requestCaps { s with power := { s.power with capReq := BitVec.ofNat 32 v } } (field v 0 16) (field v 16 16)

def execPowerCapWrite (m : Master) (v : W32) (s : State) : Result :=
  .next (gated s m.toNat pwrBase (fun s => actPowerCap s v.toNat))

/-- A quotient in whole units; the unit below or above, which the specification leaves open, is free. -/
def roundFree (s : State) (a b : Nat) : Nat × State :=
  if b == 0 || a % b == 0 then (a / b, s)
  else
    let f := s.takeFree
    (a / b + f.1.toNat % 2, f.2)

/-! ## Thermal steps (R536, 12 R322) -/

/-- The step after a reading: up at once to the highest step entered, down by one below the exit temperature. -/
def stepAfter (enter leave : List Nat) (step : Nat) (reading : Int) : Nat :=
  let up := (enter.filter (fun e => decide ((16 * e : Nat) ≤ reading))).length
  if step < up then up
  else if decide (reading < (16 * leave.getD (step - 1) 0 : Nat)) && 0 < step then step - 1 else step

def tileStepAfter : Nat → Int → Nat := stepAfter [95, 105] [92, 102]
def stackStepAfter : Nat → Int → Nat := stepAfter [85, 95, 100, 105] [82, 92, 97, 102]

def maxOf (l : List Int) : Int := match l with | [] => -32768 | a :: t => t.foldl max a

/-! ## Power off and the thermal trip (R537, 22 R545) -/

/-- Every supply but standby is off: what survives is flash, the pins and the parties outside. -/
def coldState (s : State) : State :=
  { State.reset with
    pending := s.pending, sent := s.sent, free := s.free, flash := s.flash, pins := s.pins,
    time := { State.reset.time with fref := s.time.fref }, boot := { State.reset.boot with forceFull := s.boot.forceFull } }

/-- A trip on one of the sensors that reached its limit; which of several is recorded is free. -/
def thermalTrip (s : State) (l : List (Nat × Int)) : State :=
  match l with
  | [] => s
  | a :: _ =>
    let f := s.takeFree
    let r := l.getD (f.1.toNat % l.length) a
    let c := coldState f.2
    { c with flash := { c.flash with trip := some r },
             pins := { c.pins with tripped := true, pwrgd := false, alertN := false } }

/-! ## Intervals (R524 to R531) -/

/-- A share of a cap over the intervals left, less what stamps do not meter: floor(0.98 e / n − r). -/
def shareOf (e : Int) (n : Nat) (r : Int) : Int := (98 * e - 100 * n * r) / (100 * n : Nat)

/-- Stamps of each tile: the budget in proportion to demand, what is left over one each, at most 65,535. -/
def grantsOf (b : Nat) (steps demand : List Nat) : List Nat :=
  let ok (t : Nat) : Bool := steps.getD t 0 < 2
  let d (t : Nat) : Nat := if ok t then demand.getD t 0 else 0
  let sum := (List.range 8).foldl (fun a t => a + d t) 0
  let share (t : Nat) : Nat := if !ok t then 0 else if sum == 0 then b / 8 else b * d t / sum
  let left := b - (List.range 8).foldl (fun a t => a + share t) 0
  (List.range 8).map (fun t =>
    let rank := ((List.range t).filter ok).length
    min 65535 (share t + (if ok t && rank < left then 1 else 0)))

/-- The highest table entry a tile may aim at: not above the variant's ceiling nor its thermal step's limit. -/
def topEntry (s : State) (t step : Nat) : Nat :=
  let limit := variantVolts - (if step == 0 then 0 else 50)
  ((voltTable s t).filter (fun v => v ≤ limit)).length - 1

/-- The target of R531. -/
def nextTarget (x : PTile) (top : Nat) : Nat :=
  let v := if 4 ≤ (x.short.filter id).length then x.target - 1
    else if x.quarter.length == 4 && x.quarter.all id then x.target + 1 else x.target
  min top v

/-- Core voltage in force: from the one at the last move of the target it goes 5 mV nearer to the target's in each whole
10 µs (02 R48; the spec allows smaller steps, log 99). -/
def voltNow (s : State) (x : PTile) (t : Nat) : Nat :=
  let goal := (voltTable s t).getD x.target 0
  let go := 5 * ((s.now - x.since) / 10000)
  if x.voltage ≤ goal then min goal (x.voltage + go) else max goal (x.voltage - go)

/-- One tile at the start of an interval. -/
def tileInterval (s : State) (x : PTile) (t grant step drawn : Nat) (short : Bool) : PTile :=
  let y : PTile := { x with
    step := step, short := (short :: x.short).take 8,
    quarter := (decide (x.grant ≤ 4 * (x.grant - drawn)) :: x.quarter).take 4 }
  { y with grant := grant, target := nextTarget y (topEntry s t step), voltage := voltNow s x t, since := s.now }

def ptile (s : State) (t : Nat) : PTile := kget {} s.power.tiles t

/-- The interval now beginning, as a count. -/
def ivNow (s : State) : Nat := s.now / 1000000

/-- Whether the governor may take the next sample: once an interval, and not before the windows it follows have closed. -/
def intervalDue (s : State) : Bool :=
  let i := ivNow s
  s.time.running && s.prun.nextIv != i + 1 && 0 < i &&
  decide ((i - 1) / 60000 ≤ s.prun.minuteIdx) && decide ((i - 1) / 100 ≤ s.prun.winIdx)

/-- Adds the sample of the interval that has ended. -/
def addSample (s : State) (x : PowerSample) : State :=
  let p := s.prun
  let shorts := (x.ranShort.take 8).filter id |>.length
  let e := p.minuteE + x.energy
  let q := roundFree s e (p.minuteN + 1)
  { q.2 with
    power := { q.2.power with
      lastSample := x.energy, minuteMean := q.1, waits := add32 s.power.waits shorts,
      stamps := (s.power.stamps + (x.drawn.take 8).foldl (· + ·) 0) % 2 ^ 64 },
    prun := { p with
      nextIv := ivNow s + 1, minuteE := e, windowE := p.windowE + x.energy, minuteN := p.minuteN + 1,
      waitN := p.waitN + shorts, hist := (x.energy :: p.hist).take 60000 } }

/-- Sets the die and module sensors' readings. -/
def setTemps (s : State) (l : List Int) : State :=
  { s with power := { s.power with
      temps := (List.range 64).foldl (fun m j => kset 0 m j (l.getD j 0)) s.power.temps } }

/-- Sticky bits of PWR_FLAGS. -/
def setPwrFlag (s : State) (bit : Nat) (c : Bool) : State :=
  if c then { s with power := { s.power with flags := s.power.flags ||| 2 ^ bit } } else s

/-- Die and module sensors at their trip temperatures. -/
def tripping (l : List Int) : List (Nat × Int) :=
  (List.range 64).filterMap (fun j =>
    let v := l.getD j 0
    if (j < 48 && decide (16 * 115 ≤ v)) || (54 ≤ j && decide (16 * 125 ≤ v)) then some (64 + j, v) else none)

/-- Grants, steps and targets of the interval now beginning. -/
def startInterval (s : State) (x : PowerSample) (temps : List Int) : State :=
  let i := ivNow s
  let drawn : Nat := (x.drawn.take 8).foldl (· + ·) 0
  let r : Int := (x.energy : Int) - drawn
  let me := if i / 60000 == s.prun.minuteIdx then s.prun.minuteE else 0
  let we := if i / 100 == s.prun.winIdx then s.prun.windowE else 0
  let a := shareOf ((minCapAt s s.now * 60000 : Nat) - (me : Int)) (60000 - i % 60000) r
  let b := shareOf ((peakCapAt s s.now * 100 : Nat) - (we : Int)) (100 - i % 100) r
  let steps := (List.range 8).map (fun t =>
    tileStepAfter (ptile s t).step (maxOf ((List.range 6).map (fun k => temps.getD (6 * t + k) 0))))
  let grants := grantsOf (min a b).toNat steps
    ((List.range 8).map (fun t => x.drawn.getD t 0 + x.waited.getD t 0))
  let entered := (List.range 8).any (fun t => steps.getD t 0 != (ptile s t).step && 0 < steps.getD t 0)
  let tiles := (List.range 8).foldl (fun m t =>
    kset {} m t (tileInterval s (ptile s t) t (grants.getD t 0) (steps.getD t 0) (x.drawn.getD t 0) (x.ranShort.getD t false)))
    s.power.tiles
  let s1 := { s with
    power := { s.power with tiles := tiles },
    prun := { s.prun with thermal := s.prun.thermal || steps.any (fun k => 0 < k) } }
  setPwrFlag s1 2 entered

/-- Stamps drawn come from the purse: no tile draws more than its grant (R524, R525). -/
def boundDraws (s : State) (x : PowerSample) : PowerSample :=
  { x with drawn := (List.range 8).map (fun t => min (x.drawn.getD t 0) (ptile s t).grant) }

/-- At the start of an interval the governor takes the sample of the one before, the temperatures, and grants. -/
def execPowerInterval (x : PowerSample) (s : State) : Result :=
  .next (
    if !intervalDue s then s
    else
      let x := boundDraws s x
      let temps := (List.range 64).map (fun j => x.temps.getD j 0 + sensorOffset s (64 + j))
      let s1 := setTemps (addSample s x) temps
      let s2 := setPwrFlag (setPwrFlag s1 3 (decide (16 * 45 < temps.getD 52 0))) 4 (decide (temps.getD 52 0 < 16 * 15))
      if (tripping temps).isEmpty then startInterval s2 x temps else thermalTrip s2 (tripping temps))

/-! ## Windows, minutes and the forecast (R530, R532, R533) -/

/-- A window of a length has ended and the sample of its last interval has been taken, or an interval has passed since. -/
def windowOver (s : State) (w idx : Nat) : Bool :=
  let iv := (idx + 1) * (w / 1000000)
  s.time.running && decide (idx < s.now / w) && (decide (iv < s.prun.nextIv) || decide (iv < ivNow s))

def execPeakWindowClose (s : State) : Result :=
  .next (
    if !windowOver s windowNs s.prun.winIdx then s
    else
      let p := s.prun
      let q := roundFree s p.windowE 100
      let s1 := setPwrFlag q.2 1 (decide (peakCapAt s (p.winIdx * windowNs) * 100 < p.windowE))
      { s1 with
        power := { s1.power with nowPeak := q.1 },
        prun := { p with winIdx := s.now / windowNs, windowE := 0, minutePeak := max p.minutePeak q.1 } })

/-- The minute's ledger entry. -/
def ledgerEntry (s : State) (mean waited : Nat) : LedgerEnt :=
  let p := s.prun
  let cap := minCapAt s (p.minuteIdx * minuteNs)
  { minute := p.minuteIdx % 2 ^ 32, mean := mean, peak := p.minutePeak, forecast := p.minuteFore, cap := cap,
    flags := 1 + 2 * boolNat (decide (cap * 60000 < p.minuteE)) + 4 * boolNat p.thermal + 8 * boolNat p.cutMinute,
    waited := waited }

def execMinuteClose (s : State) : Result :=
  .next (
    let p := s.prun
    if !windowOver s minuteNs p.minuteIdx || decide (p.winIdx < (p.minuteIdx + 1) * 600) then s
    else
      let q := roundFree s p.minuteE 60000
      let w := roundFree q.2 (100 * p.waitN) (8 * p.minuteN)
      let f := w.2.takeFree
      let ent := ledgerEntry s q.1 (if p.minuteN == 0 then f.1.toNat % 101 else w.1)
      let s1 := setPwrFlag f.2 0 (decide (minCapAt s (p.minuteIdx * minuteNs) * 60000 < p.minuteE))
      { s1 with
        power := { s1.power with
          ledger := kset none s1.power.ledger (p.minuteIdx % 60) (some ent),
          ledgerTail := (s1.power.ledgerTail + 1) % 2 ^ 32, minuteMean := f.1.toNat % 65536 },
        prun := { p with
          minuteIdx := s.now / minuteNs, minuteE := 0, minuteN := 0, waitN := 0, minutePeak := 0,
          minuteFore := s.power.forecast, cutMinute := s.boot.stage != 6,
          thermal := (List.range 8).any (fun t => 0 < (ptile s t).step) } })

/-- Mean of the samples of the last 60,000 intervals; with no sample at all the mean is free. -/
def meanDraw (s : State) : Nat × State :=
  if s.prun.hist.isEmpty then (s.takeFree.1.toNat % 65536, s.takeFree.2)
  else roundFree s (s.prun.hist.foldl (· + ·) 0) s.prun.hist.length

/-- At a whole second, after the minute that ends there has closed. -/
def execForecastRecompute (s : State) : Result :=
  .next (
    if !s.time.running || s.prun.nextSec == s.now / 1000000000 + 1 || s.prun.minuteIdx < s.now / minuteNs then s
    else
      let cap := capAt s.power.minCaps minuteNs variantMinCap ((s.now / minuteNs + 1) * minuteNs)
      let plan := s.power.plan.toNat
      let m := if plan.testBit 31 then (field plan 0 16, s) else meanDraw s
      { m.2 with
        power := { m.2.power with forecast := min cap m.1 },
        prun := { m.2.prun with nextSec := s.now / 1000000000 + 1 } })

/-! ## Stacks (12 R322) and beats (02 R47 to R49) -/

/-- A stack's two sensors, sampled every millisecond. -/
def execMemTempSample (k : StackNo) (base : Int) (dram : Int) (s : State) : Result :=
  .next (
    let x := s.stk k
    if !s.time.running || x.tempIv == ivNow s + 1 then s
    else
      let b := base + sensorOffset s (2 * k)
      let d := dram + sensorOffset s (2 * k + 1)
      let y : StackS := { x with
        base := b, dram := d, tempIv := ivNow s + 1, step := stackStepAfter x.step (max b d),
        thrTime := thrNow s x, thrSince := if 2 ≤ x.step then s.now - (s.now - x.thrSince) % 1000 else s.now }
      let trips := (if 16 * 110 ≤ b then [(2 * k.val, b)] else []) ++ (if 16 * 110 ≤ d then [(2 * k.val + 1, d)] else [])
      thermalTrip (s.setStk k y) trips)

/-- Awake mapped clusters of a tile. -/
def awakeCount (s : State) (t : Nat) : Nat :=
  ((List.range 256).filter (fun i => !isDead s (t * 256 + i) && !isAsleep s (t * 256 + i))).length

/-- Beats of a tile that its count takes in at a window's end: those its mapped clusters completed, no more than the
pacer admits in the windows since the last update; what is above waits for the next (DESIGN CHOICE, log 99: commands
take no time). -/
def beatsDue (s : State) (t : Nat) : Nat :=
  let x := s.tile t
  min x.beatsDone (variantBeats * 256 * (s.now / 1000 - x.beatWin))

/-- The end of a 1 µs window, once a window; the pacer keeps every cluster at or below the variant's ceiling (R47). With
no cluster awake MEAN_RATE is 0; that MIN_RATE is 0 too is the model's choice (DESIGN CHOICE, log 99). -/
def execBeatWindowUpdate (t : Tile) (w : BeatWindow) (s : State) : Result :=
  .next (
    let x := s.tile t
    if !s.time.running || s.now / 1000 ≤ x.beatWin then s
    else
      let n := awakeCount s t
      let due := beatsDue s t
      s.setTile t { x with
        beatCount := (x.beatCount + due) % 2 ^ 64, beatsDone := x.beatsDone - due, beatWin := s.now / 1000,
        minRate := if n == 0 then 0 else min variantBeats w.minRate.toNat,
        meanRate := if n == 0 then 0 else min variantBeats w.meanRate.toNat })

end Sys2Proof.Machine
end

