-- ==== Sys2Proof/Machine/Quant.lean ====
section
/-! DEFINITION. The quantisation statistics unit: collects, closes, flips and the adaptation rule (spec/07 R191, R196
to R205). -/

namespace Sys2Proof.Machine

/-- Register-space offset of a slot's registers in a tile's window (R206). -/
def qsBase (t q : Nat) : Nat := tilBase t + 0x8000 + 0x40 * q

def qsEnabled (x : QsSlot) : Bool := x.actCfg.toNat.testBit 15
def qsStep (x : QsSlot) : Nat := field x.actCfg.toNat 24 8
def qsFmt (cfg : W32) : Nat := field cfg.toNat 0 4

/-! ## Collects (R197, R198) -/

/-- Whether a collect is dropped: slot, step and cluster of the request. -/
def collectDropped (s : State) (q step n : Nat) : Bool :=
  let x := s.qslot q
  !qsEnabled x || step != qsStep x || x.result == 1 || isDead s n || isAsleep s n

/-- A capture's squared error in units of 2^−64, by RNE. -/
def sqerrUnits (v : Val) : Int :=
  match v with
  | .fin g m e => signedMag g (roundQuantum .rne m e (-64)).1
  | _ => 0

/-- The error sum stops at its largest value; what a sum below zero leaves is a free value, one for each sum and
addend (02 R65). -/
def errSum (old : Nat) (add : Int) : Nat :=
  let v : Int := old + add
  if v < 0 then Config.errSumBelow old add % 2 ^ 192 else min v.toNat (2 ^ 192 - 1)

/-- Collects the capture registers of a cluster into the tile's partial, and clears them. A non-finite CAP_SQERR marks
the partial whatever KIND is (R197). -/
def collectInto (s : State) (t q n : Nat) (kind : Bool) : State :=
  let p := physOfN s n
  let c := s.clu p
  let y := c.seq
  let s1 := s.setClu p { c with seq := { y with capMax := 0, capSqerr := 0, capCount := 0 } }
  let v := f64Val y.capSqerr.toNat
  let x0 := s1.qpart t q
  let x : QsPart := { x0 with nonfinite := x0.nonfinite || !valFinite v }
  if kind then
    s1.setQpart t q { x with err := errSum x.err (sqerrUnits v), count := (x.count + y.capCount.toNat) % 2 ^ 64 }
  else
    s1.setQpart t q { x with smax := f64Round (valAbsmax (f64Val x.smax) (f64Val y.capMax.toNat)) }

/-- A write of TIL_QS_COLLECT. -/
def actQsCollect (s : State) (t v : Nat) : State :=
  let q := field v 16 8
  let n := t * 256 + field v 0 8
  if collectDropped s q (field v 24 8) n then
    let x := s.tile t
    s.setTile t { x with qsDropped := inc32 x.qsDropped }
  else collectInto s t q n (v.testBit 8)

def execQsCollect (t : Tile) (m : Master) (v : W32) (s : State) : Result :=
  .next (gated s m.toNat (tilBase t + 0x4000) (fun s => actQsCollect s t v.toNat))

/-! ## Closes (R199, R205) -/

/-- A write of CLOSE in TIL_QS_CTRL. -/
def actQsClose (s : State) (q v : Nat) : State :=
  let x := s.qslot q
  let st := field v 8 8
  if x.result == 1 then s
  else if !qsEnabled x || st != qsStep x then s.setQslot q { x with closeStep := st, result := 3 }
  else s.setQslot q { x with closeStep := st, result := 1 }

def execQsClose (t : Tile) (q : GroupNo) (m : Master) (v : W32) (s : State) : Result :=
  .next (gated s m.toNat (qsBase t q + 0x10) (fun s => actQsClose s q v.toNat))

/-- The divisor D of an element format (R191), as f64. -/
def divisorD (f : Nat) : Nat :=
  f64OfNat (if f == 5 then 432 else if f == 4 then 57344 else if f == 6 then 28 else if f == 7 then 7 else 6)

/-- Partials of a slot combined over the tiles: maximum, error sum, count, non-finite. -/
def combinedPart (s : State) (q : Nat) : QsPart :=
  (List.range 8).foldl (fun a t =>
    let x := s.qpart t q
    { smax := f64Round (valAbsmax (f64Val a.smax) (f64Val x.smax)), err := a.err + x.err,
      count := a.count + x.count, nonfinite := a.nonfinite || x.nonfinite }) {}

/-- Least k in [−120, 118] with 2^k × D × T at or above A (R205). -/
def adaptExp (a : Nat) (d : Nat) : Int :=
  match (List.range 239).find? (fun i =>
      valLe (f64Val a) (valMul (f64Val d) (.fin false 32 ((i : Int) - 120))).1) with
  | some i => (i : Int) - 120
  | none => 118

/-- 2^k as f32. -/
def f32Pow (k : Int) : W32 := BitVec.ofNat 32 ((k + 127).toNat * 2 ^ 23)

/-- The adaptation rule: history, LAST_AMAX and the next scale. -/
def adapt (x : QsSlot) (m : Nat) : List Nat × Nat × W32 :=
  if !f64IsFinite m then (x.hist, fmtNan .f64, x.actScale)
  else
    let d := divisorD (qsFmt x.actCfg)
    let old := f64Round (fpDecode .f32 x.actScale.toNat)
    let a := f64Mul (f64Mul m old) d
    let h := x.hist ++ [a]
    let h := h.drop (h.length - (field x.actCfg.toNat 8 4 + 1))
    let top := h.foldl (fun u v => if f64Lt u v then v else u) 0
    (h, a, if top == 0 then x.actScale else f32Pow (adaptExp top d))

/-- LAST_MSE of a combined partial. -/
def lastMse (c : QsPart) : Nat :=
  if c.nonfinite then fmtNan .f64
  else if c.count == 0 then 0
  else f64Round (valDiv (.fin false c.err (-64)) (.fin false c.count 0)).1

/-- The close: partials combined and cleared, the rule run, the shadow written and flipped (R199). -/
def closeSlot (s : State) (q : Nat) : State :=
  let x := s.qslot q
  let c := combinedPart s q
  let s1 := (List.range 8).foldl (fun s t => s.setQpart t q {}) s
  let r := adapt x c.smax
  let cfg := BitVec.ofNat 32 (putField x.actCfg.toNat 24 8 (qsStep x + 1))
  s1.setQslot q { x with
    hist := r.1, lastAmax := r.2.1, lastMse := lastMse c,
    actScale := r.2.2, actCfg := cfg, shdScale := x.actScale, shdCfg := x.actCfg, epoch := !x.epoch,
    nonfinite := x.nonfinite || !f64IsFinite c.smax || c.nonfinite,
    scaleSat := x.scaleSat || (f64IsFinite c.smax && f64Lt (f64OfNat 448) c.smax),
    closed := true, result := 2 }

def execQsCloseComplete (q : GroupNo) (s : State) : Result :=
  .next (if (s.qslot q).result == 1 then closeSlot s q else s)

/-! ## Shadow writes and flips (R201) -/

/-- A parcel scale 2^k with k from −120 to 118. -/
def scaleOk (v : W32) : Bool :=
  let e := v.toNat / 2 ^ 23
  v.toNat % 2 ^ 23 == 0 && 7 ≤ e && e ≤ 245

/-- A write of FLIP in TIL_QS_CTRL. -/
def actQsFlip (s : State) (q : Nat) : State :=
  let x := s.qslot q
  if x.result == 1 then s.setQslot q { x with writeDropped := true }
  else if !(4 ≤ qsFmt x.shdCfg && qsFmt x.shdCfg ≤ 8) || !scaleOk x.shdScale then s.setQslot q { x with refused := true }
  else s.setQslot q { x with
    actScale := x.shdScale, actCfg := x.shdCfg, shdScale := x.actScale, shdCfg := x.actCfg, epoch := !x.epoch }

def execQsFlip (t : Tile) (q : GroupNo) (m : Master) (s : State) : Result :=
  .next (gated s m.toNat (qsBase t q + 0x10) (fun s => actQsFlip s q))

/-- Writable bits of the configuration: STEP, ENABLED, HIST, ROT and FMT. -/
def qsCfgMask : W32 := 0xFF008F3F

/-- A write of a shadow register. -/
def actQsShadow (s : State) (q : Nat) (r : QsReg) (v : W32) : State :=
  let x := s.qslot q
  if x.result == 1 then s.setQslot q { x with writeDropped := true }
  else match r with
    | .scale => s.setQslot q { x with shdScale := v }
    | .cfg => s.setQslot q { x with shdCfg := v &&& qsCfgMask }

def qsRegOff (r : QsReg) : Nat := match r with | .scale => 0x08 | .cfg => 0x0C

def execQsShadowWrite (t : Tile) (q : GroupNo) (m : Master) (r : QsReg) (v : W32) (s : State) : Result :=
  .next (gated s m.toNat (qsBase t q + qsRegOff r) (fun s => actQsShadow s q r v))

end Sys2Proof.Machine
end

