-- ==== Sys2Proof/Machine/Load.lean ====
section
/-! DEFINITION. Checking, loading and flipping a Zynette image (spec/17 R429 to R442, R447 to R450). -/

namespace Sys2Proof.Machine

/-! ## Header and directory (R429, R430) -/

def zynetteMagic : Nat := natOfBytes (asciiBytes "ZYNETTE1")

def maxImage : Nat := 1048576

/-- Faults of the header, by offset and reason. -/
def headerFaults (img : List Byte) (len : Nat) : List (Nat × Nat) :=
  let n := imgSections img
  let l := leAt img 12 4
  broken (leAt img 0 8 != zynetteMagic) 1 [0] ++ broken (leAt img 8 2 != 1) 1 [8] ++ broken (16 < n) 1 [10] ++
  broken (decide (l < 64 + 16 * n)) 1 [10, 12] ++ broken (decide (maxImage < l) || l != len) 1 [12] ++
  broken (leAt img 24 1 != 0xB1) 2 [24] ++ broken (leAt img 25 35 != 0) 1 [25] ++
  broken (leAt img 60 4 != crc32c (img.take 60)) 1 [60]

/-- Whether SIZE is what the sections table gives; the section's own count is read where it lies in the image. -/
def sizeOk (img : List Byte) (ty off size : Nat) : Bool :=
  match ty with
  | 1 => size == 6400
  | 2 => size % 8 == 0 && 8 ≤ size && size ≤ 1528
  | 3 => size == 16384
  | 4 => size == 1280
  | 5 => size == 16 + 2 * leAt img (off + 6) 2
  | 8 => size == 580 + 24 * leAt img off 4
  | 11 => size % 12 == 0 && 12 ≤ size && size ≤ 3072
  | _ => size == 8

/-- Faults of directory entry i. -/
def entryFaults (img : List Byte) (i : Nat) : List (Nat × Nat) :=
  let n := imgSections img
  let e := imgEntry img i
  let at_ (j : Nat) : Nat := 64 + 16 * j
  let others := (List.range n).filter (fun j => j != i)
  broken (e.1 == 0 || 11 < e.1) 3 [at_ i] ++ broken (others.any (fun j => (imgEntry img j).1 == e.1)) 3 [at_ i] ++
  broken (leAt img (at_ i + 2) 2 != 0) 3 [at_ i + 2] ++
  broken (e.2.1 % 8 != 0 || decide (e.2.1 < 64 + 16 * n)) 3 [at_ i + 4] ++
  broken (decide (leAt img 12 4 < e.2.1 + e.2.2)) 3 [at_ i + 4, at_ i + 8] ++
  broken (others.any (fun j => let f := imgEntry img j
    decide (e.2.1 < f.2.1 + f.2.2 ∧ f.2.1 < e.2.1 + e.2.2))) 3 [at_ i + 4, at_ i + 8] ++
  broken (!sizeOk img e.1 e.2.1 e.2.2) 3 [at_ i + 8] ++
  broken (leAt img (at_ i + 12) 4 != crc32c (bytesAt img e.2.1 e.2.2)) 3 [at_ i + 12]

/-! ## Sections (R431 to R434, the sections table) -/

def groupsFaults (b : List Byte) : List (Nat × Nat) :=
  (List.range 2048).flatMap (fun n => broken (64 ≤ leAt b n 1) 4 [n]) ++
  (List.range 64).flatMap (fun g => broken (leAt b (2048 + 4 * g) 4 / 2 ^ 25 != 0) 4 [2048 + 4 * g]) ++
  (List.range 2048).flatMap (fun n =>
    let v := leAt b (2304 + 2 * n) 2
    broken (256 ≤ v && v != 0xFFFF) 4 [2304 + 2 * n])

def interleaveFaults (b : List Byte) : List (Nat × Nat) :=
  (List.range (b.length / 8)).flatMap (fun i =>
    let o := 8 * i
    let first := leAt b o 2
    let next := leAt b (o + 8) 2
    let more := o + 8 < b.length
    broken (decide (190 < first)) 4 [o] ++ broken (decide (191 < first + leAt b (o + 2) 2)) 4 [o, o + 2] ++
    broken (decide (1 < leAt b (o + 4) 1)) 4 [o + 4] ++ broken (leAt b (o + 5) 3 != 0) 4 [o + 5] ++
    broken (more && decide (next < first)) 4 [o, o + 8] ++
    broken (more && decide (next < first + leAt b (o + 2) 2)) 4 [o, o + 2, o + 8])

def streamsFaults (b : List Byte) : List (Nat × Nat) :=
  (List.range 16384).flatMap (fun i =>
    broken ((List.range 4).any (fun k => field (leAt b i 1) (2 * k) 2 == 3)) 4 [i])

def wiringFaults (s : State) (b : List Byte) : List (Nat × Nat) :=
  let size (v have_ o : Nat) : List (Nat × Nat) := broken (v != 0 && v != have_) 8 [o]
  size (leAt b 0 1) s.fab.sizeX 0 ++ size (leAt b 1 1) s.fab.sizeY 1 ++ size (leAt b 2 1) s.fab.sizeZ 2 ++
  broken (decide (1 < leAt b 3 1)) 4 [3] ++ broken (decide (4096 < leAt b 6 2)) 4 [6] ++ broken (leAt b 8 8 != 0) 4 [8]

def microFaults (b : List Byte) : List (Nat × Nat) :=
  let lacks (se : Bool) (id : Nat) : Bool := id != 0 && !Config.microcodePresent se id
  broken (lacks false (leAt b 0 2)) 9 [0] ++ broken (lacks true (leAt b 2 2)) 9 [2] ++ broken (leAt b 4 4 != 0) 4 [4]

def servicesFaults (b : List Byte) : List (Nat × Nat) :=
  let m := leAt b 0 4
  broken (m % 2 == 0 || decide (127 < m)) 4 [0] ++ broken (leAt b 4 4 != 0) 4 [4]

def qslotFaults (b : List Byte) : List (Nat × Nat) :=
  (List.range (b.length / 12)).flatMap (fun i =>
    let o := 12 * i
    let f := leAt b (o + 8) 4 % 16
    broken (leAt b (o + 1) 3 != 0) 4 [o + 1] ++ broken (!scaleOk (BitVec.ofNat 32 (leAt b (o + 4) 4))) 10 [o + 4] ++
    broken (!(4 ≤ f && f ≤ 8)) 10 [o + 8])

/-! ## The access proposal (R448 to R450) -/

/-- Permissions of masters a to b in a mask, as a number. -/
def maskPart (mask : BitVec 128) (a b : Nat) : Nat := field mask.toNat (2 * a) (2 * (b + 1 - a))

/-- A courier of the image is bound to a group. -/
def groupBound (img : List Byte) (g : Nat) : Bool :=
  match imgSection img 4 with
  | some b => (List.range 320).any (fun c => let w := leAt b (4 * c) 4; w.testBit 31 && field w 16 4 == g)
  | none => false

/-- A mask gives something to an unassigned master or to a group without couriers. -/
def maskBad (img : List Byte) (mask : BitVec 128) : Bool :=
  maskPart mask 0x05 0x0F != 0 || maskPart mask 0x18 0x1F != 0 || maskPart mask 0x38 0x3F != 0 ||
  (List.range 6).any (fun i => maskPart mask (0x2A + i) (0x2A + i) != 0 && !groupBound img (10 + i))

/-- Some master other than Postmaster has WRITE. -/
def maskWrites (mask : BitVec 128) : Bool := (List.range 63).any (fun m => maskAllows mask (m + 1) true)

def accessMask (b : List Byte) (o : Nat) : BitVec 128 := BitVec.ofNat 128 (leAt b o 16)

def accessFaults (img b : List Byte) : List (Nat × Nat) :=
  (List.range 36).flatMap (fun i =>
    let mask := accessMask b (4 + 16 * i)
    broken ((i == 4 && maskWrites mask) || maskBad img mask || ((i == 10 || i == 11) && mask != 0)) 5 [4 + 16 * i]) ++
  (List.range ((b.length - 580) / 24)).flatMap (fun j =>
    let o := 580 + 24 * j
    let first := leAt b o 4
    let last := first + leAt b (o + 4) 4
    let more := o + 24 < b.length
    broken (maskBad img (accessMask b (o + 8))) 5 [o + 8] ++ broken (decide (1564672 < last)) 5 [o, o + 4] ++
    broken (more && decide (leAt b (o + 24) 4 < first)) 5 [o, o + 24] ++
    broken (more && decide (leAt b (o + 24) 4 < last)) 5 [o, o + 4, o + 24]) ++
  broken (decide (255 < leAt b 0 4)) 5 [0]

/-- Grants that Postmaster sets whatever a proposal holds (R450, 20 R522, 21 R534). -/
def grantTo (target : Nat) : BitVec 128 :=
  if target == 10 || target == 11 then 0
  else
    let mgmt := if target == 3 then 3 else if target == 0 || target == 4 then 1 else 0
    let host := if target == 2 then 3 else if target == 0 || target == 1 then 1 else 0
    BitVec.ofNat 128 (3 + host * 4 ^ 2 + mgmt * 4 ^ 4)

/-- The tables an image brings. -/
def imgAccess (img : List Byte) : AccTab :=
  match imgSection img 8 with
  | none => defaultAccess
  | some b =>
    { masks := (List.range 38).map (fun i =>
        if i < 36 then accessMask b (4 + 16 * i) ||| grantTo i else maskOf [0]),
      wins := (List.range ((b.length - 580) / 24)).map (fun j =>
        let o := 580 + 24 * j
        ⟨leAt b o 4, leAt b (o + 4) 4, accessMask b (o + 8) ||| maskOf [0]⟩) }

/-! ## The check of step 2 -/

/-- Faults of the section of directory entry i, at image offsets. -/
def sectionFaults (s : State) (img : List Byte) (i : Nat) : List (Nat × Nat) :=
  let e := imgEntry img i
  let b := bytesAt img e.2.1 e.2.2
  let l := match e.1 with
    | 1 => groupsFaults b
    | 2 => interleaveFaults b
    | 3 => streamsFaults b
    | 5 => wiringFaults s b
    | 6 => microFaults b
    | 7 => servicesFaults b
    | 8 => accessFaults img b
    | 9 => broken (leAt b 4 4 != 0) 4 [4]
    | 11 => qslotFaults b
    | _ => []
  l.map (fun f => (e.2.1 + f.1, f.2))

/-- The first field at fault of an image, by 00 R551: its offset and the reason. -/
def imageFault (s : State) (img : List Byte) (len : Nat) : Option (Nat × Nat) :=
  match worstField (headerFaults img len) with
  | some e => some e
  | none => match worstField ((List.range (imgSections img)).flatMap (entryFaults img)) with
    | some e => some e
    | none => worstField ((List.range (imgSections img)).flatMap (sectionFaults s img))

/-! ## The load (R437 to R441) -/

/-- Nothing is in progress, no round runs, and no stack engine or solver holds an operation (R438). -/
def quiescent (s : State) : Bool :=
  s.ledger.all (fun e => rstateFinal e.2.rcpt.state) && s.couriers.all (fun e => e.2.phase = .idle) &&
  s.core.se.all (fun e => e.2.queue.isEmpty && e.2.run.isNone) &&
  s.core.groups.all (fun e => e.2.queue.isEmpty && e.2.run.isNone)

def imageRefused (s : State) (reason : Nat) (off : Nat) : State :=
  { s with image := { s.image with result := 3, reason := reason, refuseOff := BitVec.ofNat 32 off } }

/-- Reads whole parcels of local HBM as Postmaster, with their seals checked. -/
def readHbm (n : Nat) (s : State) (a : Nat) : State × Option (List Byte) :=
  match n with
  | 0 => (s, some [])
  | n + 1 =>
    if hbmEnd ≤ a then (s, none)
    else match parcelRead s a ⟨0, none⟩ with
      | (s1, .ok d) => match readHbm n s1 (a + 4096) with
        | (s2, some t) => (s2, some (d ++ t))
        | (s2, none) => (s2, none)
      | (s1, _) => (s1, none)

/-- An object of `len` bytes at a 4 KiB aligned source: host memory's answer, or parcels of HBM. -/
def readObject (s : State) (local_ : Bool) (src len : Nat) (host : Option (List Byte)) : State × Option (List Byte) :=
  if src % 4096 != 0 then (s, none)
  else if local_ then
    match readHbm (ceilDiv len 4096) s src with
    | (s1, some d) => (s1, some (d.take len))
    | (s1, none) => (s1, none)
  else match host with
    | some d => if s.hif.linkUp && len ≤ d.length then (s, some (d.take len)) else (s, none)
    | none => (s, none)

/-- Checks an image that has been read, and accepts it or refuses it. -/
def offerImage (s : State) (img : List Byte) (len : Nat) : State :=
  match imageFault s img len with
  | some e => imageRefused s e.2 e.1
  | none =>
    { s with
      image := { s.image with result := 1, reason := 0, refuseOff := 0xFFFFFFFF, staged := some img },
      ring := { s.ring with paused := true } }

/-- A load of an object already at hand, as a broadcast brings it (18 R466). -/
def loadBytes (s : State) (img : List Byte) : State :=
  if s.image.result == 1 then s
  else if 6 ≤ s.boot.stage && !quiescent s then imageRefused s 6 0xFFFFFFFF
  else offerImage s img img.length

/-- A write of BOOT_IMG_CTRL. -/
def actImageCtrl (s : State) (v : Nat) (host : Option (List Byte)) : State :=
  let s1 := { s with image := { s.image with source := v.testBit 1 } }
  if !v.testBit 0 || s.image.result == 1 then s1
  else if 6 ≤ s.boot.stage && !quiescent s then imageRefused s1 6 0xFFFFFFFF
  else
    let len := s.image.len.toNat
    match readObject s1 (v.testBit 1) s.image.src.toNat (min len maxImage) host with
    | (s2, some img) => offerImage s2 img len
    | (s2, none) => imageRefused s2 7 0xFFFFFFFF

def execImageLoad (m : Master) (v : W32) (host : Option (List Byte)) (s : State) : Result :=
  .next (gated s m.toNat 0x1800 (fun s => actImageCtrl s v.toNat host))

/-- A reset before the flip ends the load (R442). -/
def endLoad (s : State) : State :=
  if s.image.result == 1 then
    let t := imageRefused s 11 0xFFFFFFFF
    { t with image := { t.image with staged := none } }
  else s

/-! ## The flip (R439 steps 4 to 8, R440) -/

/-- Regions of 16 GiB whose mode the image changes are initialised again. -/
def remode (s : State) (img : List Byte) : State :=
  (List.range 191).foldl (fun a u =>
    let y := u * 2 ^ 34
    if (tileLocalAt img y).isSome != (tileLocalAt s.image.inForce y).isSome then initRegion a y (y + 2 ^ 34) else a) s

/-- CRR_BIND of every courier: the image's, or unbound with its reset group. -/
def bindCouriers (s : State) (img : List Byte) : State :=
  (List.range 320).foldl (fun a c =>
    let x := a.courier c
    let w := match imgSection img 4 with
      | some b => leAt b (4 * c) 4
      | none => defaultGroup c * 2 ^ 16
    let g := field w 16 4
    a.setCourier c { x with
      bound := w.testBit 31, stream := field w 0 16, group := if g == defaultGroup c then none else some g }) s

/-- Statistics-slot presets: a shadow write and a flip each. -/
def presetSlots (s : State) (img : List Byte) : State :=
  match imgSection img 11 with
  | none => s
  | some b => (chunks 12 b).foldl (fun a e =>
      let q := leAt e 0 1
      let x := a.qslot q
      if x.result == 1 then a.setQslot q { x with writeDropped := true }
      else actQsFlip (a.setQslot q { x with
        shdScale := BitVec.ofNat 32 (leAt e 4 4), shdCfg := BitVec.ofNat 32 (leAt e 8 4) &&& qsCfgMask }) q) s

/-- The fields of 12 R323 on every stack: CORR_LIMIT, SYM_TRIG, ROW_TRIG, ENABLE and PERIOD_S. -/
def memorySettings (s : State) (img : List Byte) : State :=
  let b := imgSection img 10
  let get (o n d : Nat) : Nat := match b with | some l => leAt l o n | none => d
  mapStacks s (fun x => { x with
    corrLimit := get 0 1 4 % 8, symTrig := get 1 1 3 % 8, rowTrig := get 2 1 8, scrubEnable := (get 3 1 1).testBit 0,
    periodS := max 60 (get 4 4 3600 % 2 ^ 20) })

/-- Required ports, SPARE and the route mode (R433). -/
def wireFabric (s : State) (img : List Byte) : State :=
  let w := imgWiring img
  let s1 := { s with fab := { s.fab with
    required := w.mask, auto := w.auto, spare := s.fab.placed && w.spares.contains s.fab.chip, rebuildDue := true } }
  if w.auto then s1
  else
    let own := kset rtUnreach [] s.fab.chip (6 * 2 ^ 13)
    { s1 with fab := { s1.fab with rtActive := own, rtShadow := own } }

/-- Image registers and epoch at the flip. -/
def imageInForce (s : State) (img : List Byte) : State :=
  { s with
    image := { s.image with
      result := 2, reason := 0, loaded := true, epoch := (s.image.epoch + 1) % 2 ^ 32,
      imageId := BitVec.ofNat 64 (leAt img 16 8), digest := shake256 32 img, inForce := img, staged := none },
    access := imgAccess img, sec := { s.sec with atEpoch := !s.sec.atEpoch } }

/-- Everything that takes effect together at the flip, before the pages are rebuilt. -/
def applyImage (s : State) (img : List Byte) : State :=
  let s1 := imageInForce (remode s img) img
  let s2 := wireFabric (memorySettings (presetSlots (bindCouriers s1 img) img) img) img
  match imgSection img 9 with
  | some b => requestCaps s2 (leAt b 0 2) (leAt b 2 2)
  | none => requestCaps s2 0 0

/-- Ports are judged again by the new digest. -/
def rejudge (s : State) : State := (List.range 12).foldl portJudge s

/-- The stage after a load: S5 ends at S6, or at S7 where a required port is not up (14 R369). -/
def endS5 (s : State) : State :=
  if s.boot.stage == 5 then setStage s (if maskMet s then 6 else 7) else retestMask s

/-- The flip of an accepted load, and what follows it. -/
def imageFlip (s : State) : State :=
  match s.image.result, s.image.staged with
  | 1, some img =>
    let s1 := applyImage (imageRowMoves s) img
    let s2 := (List.range 8).foldl buildPage s1
    let s3 := sendDiscovers (rejudge { s2 with ring := { s2.ring with paused := false } })
    endS5 s3
  | _, _ => s

end Sys2Proof.Machine
end

