-- ==== Sys2Proof/Machine/Trust.lean ====
section
/-! DEFINITION. Signed objects and firmware bundles (spec/20 R507 to R511). -/

namespace Sys2Proof.Machine

/-! ## Verification (R507, R508) -/

/-- Bytes of a trailer: public key and signature. -/
def trailerLen : Nat := 2888

/-- OID of XMSS-SHAKE256_20_256 in NIST SP 800-208, in the encoding of RFC 8391. PRESUMED: the number is the standard's,
not the manual's. -/
def xmssOid : List Byte := [0, 0, 0, 0x12]

/-- An object without its trailer. -/
def objBody (obj : List Byte) : List Byte := obj.take (obj.length - trailerLen)

/-- The first three checks: 1 passes, 2 the wrong key, 3 the wrong OID, 4 the signature. -/
def verifySigned (obj : List Byte) (domain : String) (digest : List Byte) : Nat :=
  let body := objBody obj
  let pk := bytesAt obj body.length 68
  if shake256 32 pk != digest then 2
  else if pk.take 4 != xmssOid then 3
  else if !Config.xmssVerify pk (asciiBytes domain ++ body) (bytesAt obj (body.length + 68) 2820) then 4
  else 1

/-- The whole verification: signature, then the object's own header (5) and version (6). -/
def verifyObject (obj : List Byte) (domain : String) (digest : List Byte) (header version : Bool) : Nat :=
  let e := verifySigned obj domain digest
  if e == 1 then (if !header then 5 else if !version then 6 else 1) else e

/-- SEC_VERIFY_LAST, _VER and _FAILS (R511). -/
def recordVerify (s : State) (kind result version : Nat) : State :=
  { s with sec := { s.sec with
      verKind := kind, verResult := result, verVersion := version,
      verFails := if result == 1 then s.sec.verFails else inc32 s.sec.verFails } }

/-! ## The rollback floor and the slots (R510, R511) -/

def fwFloor (s : State) : Nat := max Config.factoryFloor s.flash.fwFloor

/-- The Postmaster slots: the first holds the factory's stage until it is written. -/
def slotBytes (s : State) (second : Bool) : List Byte :=
  if second then s.flash.slotB else if s.flash.slotA.isEmpty then Config.factoryStage else s.flash.slotA

def verifyStage (s : State) (obj : List Byte) : Nat :=
  verifyObject obj "TLS1PM01" Config.firmwareKeyDigest (Config.stageHeaderOk (objBody obj))
    (decide (fwFloor s ≤ Config.stageVersion (objBody obj)))

/-! ## Bundles (R509) -/

/-- The bundle in module flash. -/
def flashBundle (s : State) : List Byte := if s.flash.bundle.isEmpty then Config.factoryBundle else s.flash.bundle

def bundleVersion (b : List Byte) : Nat := leAt b 8 4
def bundleFloor (b : List Byte) : Nat := leAt b 12 4

/-- Component entry i: TYPE, ID, OFFSET, SIZE. -/
def bundleEntry (b : List Byte) (i : Nat) : Nat × Nat × Nat × Nat :=
  let o := 64 + 16 * i
  (leAt b o 1, leAt b (o + 2) 2, leAt b (o + 4) 4, leAt b (o + 8) 4)

def bundleEntries (b : List Byte) : List (Nat × Nat × Nat × Nat) := (List.range (leAt b 16 2)).map (bundleEntry b)

/-- A component's bytes. -/
def bundleComponent (b : List Byte) (ty id : Nat) : Option (List Byte) :=
  ((bundleEntries b).find? (fun e => e.1 == ty && e.2.1 == id)).map (fun e => bytesAt b e.2.2.1 e.2.2.2)

def entrySound (b : List Byte) (i : Nat) : Bool :=
  let e := bundleEntry b i
  let o := 64 + 16 * i
  1 ≤ e.1 && e.1 ≤ 4 && leAt b (o + 1) 1 == 0 && (3 ≤ e.1 || e.2.1 == 0) && e.2.2.1 % 8 == 0 &&
  decide (64 + 16 * leAt b 16 2 ≤ e.2.2.1) && decide (e.2.2.1 + e.2.2.2 ≤ leAt b 20 4) &&
  leAt b (o + 12) 4 == crc32c (bytesAt b e.2.2.1 e.2.2.2)

/-- Header and directory of a bundle without its trailer. -/
def bundleSound (b : List Byte) : Bool :=
  leAt b 0 8 == natOfBytes (asciiBytes "TLS1FWB1") && 1 ≤ bundleVersion b && 1 ≤ leAt b 16 2 && leAt b 16 2 ≤ 16 &&
  leAt b 18 2 == 0 && leAt b 20 4 == b.length && leAt b 24 36 == 0 && leAt b 60 4 == crc32c (b.take 60) &&
  (List.range (leAt b 16 2)).all (entrySound b)

def verifyBundle (s : State) (obj : List Byte) : Nat :=
  let b := objBody obj
  verifyObject obj "TLS1FW01" Config.firmwareKeyDigest (bundleSound b) (decide (fwFloor s ≤ bundleVersion b))

/-- Writes a verified bundle to flash: its Postmaster component goes to the slot not in use, and then its FLOOR is
burnt. -/
def writeBundle (s : State) (b : List Byte) : State :=
  let second := s.boot.runStage == slotBytes s false
  let f : Flash := { s.flash with bundle := b, fwFloor := max s.flash.fwFloor (bundleFloor b) }
  let f : Flash := match bundleComponent b 1 0 with
    | some st => if second then { f with slotB := st } else { f with slotA := st }
    | none => f
  { s with flash := f }

/-- Sorter starts from the bundle in flash. -/
def startSorter (s : State) : State :=
  { s with boot := { s.boot with runBundle := flashBundle s, sorterVer := bundleVersion (flashBundle s) } }

end Sys2Proof.Machine
end

