-- ==== Sys2Proof/Machine/Attest.lean ====
section
/-! DEFINITION. Attestation and the calibration record: the commands of spec/20 R512 to R520, in arrival order; and pattern packs as
they arrive (spec/19 R497). -/

namespace Sys2Proof.Machine

/-! ## The ceiling (R512, R513) -/

/-- Whether the first copy is the one to take: the valid copy of the higher sequence number. -/
def ceilFirst (f : Flash) : Bool :=
  match f.ceilA, f.ceilB with
  | some a, some b => decide (b.1 ≤ a.1)
  | some _, none => true
  | none, _ => false

/-- The copy in force: sequence number and ceiling. -/
def ceilNow (f : Flash) : Option (Nat × Nat) := if ceilFirst f then f.ceilA else f.ceilB

def ceiling (s : State) : Nat := ((ceilNow s.flash).map Prod.snd).getD 0

/-- The next ceiling goes to the other copy. -/
def raiseCeiling (s : State) : State :=
  let c := (ceilNow s.flash).getD (0, 0)
  let e := some (c.1 + 1, c.2 + 64)
  { s with flash := if ceilFirst s.flash then { s.flash with ceilB := e } else { s.flash with ceilA := e } }

/-- Stage S2: the index starts at the ceiling, or signing is lost. -/
def startAttest (s : State) : State :=
  { s with sec := { s.sec with
      attReady := false, attWriting := false, attLost := (ceilNow s.flash).isNone, attNext := ceiling s } }

/-! ## The report and the certificate (R515, R516) -/

def zeroDigest : List Byte := zeroBytes 32

/-- A measurement entry. -/
def measure (kind : Nat) (m : Option (Nat × List Byte)) : List Byte :=
  let v := m.getD (0, zeroDigest)
  bytesOfNat 4 kind ++ bytesOfNat 4 v.1 ++ v.2 ++ zeroBytes 8

/-- A digest of an object, none where there is nothing to measure. -/
def digestOf (version : Nat) (b : List Byte) : Option (Nat × List Byte) :=
  if b.isEmpty then none else some (version, shake256 32 b)

/-- Masks of targets 0 to 318, then FIRST and COUNT of every window, unused ones zero. -/
def accessBytes (t : AccTab) : List Byte :=
  let win (i : Nat) : AccWin := t.wins.getD i ⟨0, 0, 0⟩
  ((List.range 319).flatMap (fun i =>
    bytesOfNat 16 (if i < 64 then t.masks.getD i 0 else (win (i - 64)).mask).toNat)) ++
  (List.range 255).flatMap (fun i => bytesOfNat 4 (win i).first ++ bytesOfNat 4 (win i).count)

/-- Measurement of a microcode component in force. -/
def microMeasure (s : State) (ty id : Nat) : Option (Nat × List Byte) :=
  (bundleComponent s.boot.runBundle ty id).bind (digestOf id)

def measurements (s : State) : List Byte :=
  let m := imgMicrocode s.image.inForce
  measure 1 (digestOf 0xB1 Config.romContents) ++
  measure 2 (digestOf s.boot.postVer (objBody s.boot.runStage)) ++
  measure 3 (if s.boot.stage < 5 then none
             else (bundleComponent s.boot.runBundle 2 0).bind (digestOf s.boot.sorterVer)) ++
  measure 4 (microMeasure s 3 m.1) ++ measure 5 (microMeasure s 4 m.2) ++
  measure 6 (if s.image.loaded then some (s.image.imageId.toNat % 2 ^ 32, s.image.digest) else none) ++
  measure 7 (s.chk.pack.bind (fun b => digestOf (leAt b 8 4) b)) ++
  measure 8 (digestOf (leAt (calRecord s) 16 4) (calRecord s)) ++
  measure 9 (digestOf s.image.epoch (accessBytes s.access))

def variantCode : Nat := Config.variant.val + 1
def calIsUser (s : State) : Bool := leAt (calRecord s) 20 1 == 1

/-- The 560 bytes of a report. -/
def reportBytes (s : State) (nonce : List Byte) : List Byte :=
  asciiBytes "TLS1ATT1" ++ nonce ++ bytesOfNat 8 Config.serial.toNat ++ bytesOfNat 8 s.now ++
  bytesOfNat 4 s.image.epoch ++ bytesOfNat 2 (if s.fab.placed then s.fab.chip else 0xFFFF) ++
  bytesOfNat 1 variantCode ++ bytesOfNat 1 s.boot.stage ++ bytesOfNat 1 9 ++
  bytesOfNat 1 (8 * boolNat s.fab.placed + 4 * boolNat s.sec.calPending + 2 * boolNat (calIsUser s) +
    boolNat s.image.loaded) ++
  zeroBytes 62 ++ measurements s

def certBytes : List Byte :=
  asciiBytes "TLS1DC01" ++ bytesOfNat 8 Config.serial.toNat ++ bytesOfNat 1 variantCode ++ bytesOfNat 1 0xB1 ++
  zeroBytes 6 ++ Config.attestationKey ++ zeroBytes 4

/-! ## Answers -/

/-- An answer: the command, the code, two zero bytes and what follows. -/
def respond (s : State) (cmd code : Nat) (rest : List Byte) : State :=
  s.send (.answer (bytesOfNat 1 cmd ++ bytesOfNat 1 code ++ zeroBytes 2 ++ rest))

/-- Signs a report with the next index and releases it. -/
def signReport (s : State) (nonce : List Byte) : State :=
  let rep := reportBytes s nonce
  let sig := Config.xmssMtSign s.sec.attNext (asciiBytes "TLS1AT01" ++ rep)
  respond { s with sec := { s.sec with attNext := s.sec.attNext + 1, signs := inc32 s.sec.signs } } 1 0 (rep ++ sig)

/-! ## Calibration (R517 to R520) -/

def calLength : Nat := 20800
def calWindow : Nat := 30000000000

/-- The arm in force: it ends with its window (R518, R519). -/
def armNow (s : State) : Option (W32 × Nat) := s.sec.armed.filter (fun e => decide (s.now < e.2 + calWindow))

/-- Every 1,024 bytes of the record in force have been read. -/
def calReadWhole (s : State) : Bool := (List.range 21).all (fun i => s.sec.calRead.contains (1024 * i))

def serveCalRead (s : State) (off : Nat) : State :=
  if off % 1024 != 0 || calLength ≤ off then respond s 0x10 5 []
  else
    let s1 := { s with sec := { s.sec with
      calRead := if s.sec.calRead.contains off then s.sec.calRead else s.sec.calRead ++ [off] } }
    respond s1 0x10 0 (bytesOfNat 4 calLength ++ bytesAt (calRecord s) off 1024)

def serveCalArm (s : State) (waive : Bool) : State :=
  if (armNow s).isSome || (!calReadWhole s && !waive) then respond s 0x11 6 []
  else
    let c := Config.challenge s.sec.challenges
    let s1 := { s with sec := { s.sec with
      armed := some (c, s.now), staging := [], challenges := s.sec.challenges + 1 } }
    respond s1 0x11 0 (bytesOfNat 4 c.toNat ++ bytesOfNat 8 (s.now + calWindow))

def serveCalWrite (s : State) (off : Nat) (data : List Byte) : State :=
  if 1024 < data.length || decide (calLength < off + data.length) then respond s 0x12 5 []
  else if (armNow s).isNone then respond s 0x12 6 []
  else
    let m := data.zipIdx.foldl (fun (m : KMap Byte) e => kset 0 m (off + e.2) e.1) s.sec.staging
    respond { s with sec := { s.sec with staging := m } } 0x12 0 []

/-- The staged 20,800 bytes; a byte not written is zero. -/
def stagedBytes (s : State) : List Byte := (List.range calLength).map (fun i => kget 0 s.sec.staging i)

/-- A list of numbers ascends. -/
def ascends (l : List Nat) : Bool :=
  match l with
  | a :: b :: t => decide (a < b) && ascends (b :: t)
  | _ => true

/-- A tile's voltage-to-rate table in a record. -/
def tableSound (b : List Byte) (t : Nat) : Bool :=
  let o := 19520 + 128 * t
  let volts := (List.range 32).map (fun i => leAt b (o + 4 * i) 2)
  ascends volts && ascends ((List.range 32).map (fun i => leAt b (o + 4 * i + 2) 2)) &&
  volts.all (fun v => v ≤ variantVolts)

/-- The checks of a staged record (R519). -/
def stagedSound (s : State) (b : List Byte) : Bool :=
  leAt b 0 8 == natOfBytes (asciiBytes "TLS1CAL1") && leAt b 60 4 == crc32c (b.drop 64 ++ b.take 60) &&
  leAt b 8 8 == Config.serial.toNat && leAt b 16 4 == leAt (calRecord s) 16 4 + 1 && leAt b 20 1 == 1 &&
  (List.range 8).all (tableSound b)

def serveCalCommit (s : State) (compl : Nat) (digest : List Byte) : State :=
  let b := stagedBytes s
  let ok := match s.sec.armed with
    | some (c, t) => decide (t ≤ s.now ∧ s.now < t + calWindow) && compl == 2 ^ 32 - 1 - c.toNat &&
        digest == shake256 32 b && stagedSound s b
    | none => false
  let s1 := { s with sec := { s.sec with armed := none } }
  if ok then
    let s2 := { s1 with flash := { s1.flash with cal := b }, sec := { s1.sec with calPending := true } }
    respond s2 0x13 0 []
  else respond (denyAdd s1 4 true 6 0) 0x13 6 []

/-! ## The queue of requests (R514, R515) -/

/-- Serves one request, given as its bytes; none where it must wait for a ceiling write. -/
def serveRequest (s : State) (q : List Byte) : Option State :=
  let cmd := leAt q 0 1
  if cmd == 1 && q.length != 36 then some (respond s 1 5 [])
  else if cmd == 1 && s.sec.attLost then some (respond s 1 4 [])
  else if (1 ≤ cmd && cmd ≤ 3) && !s.sec.attReady && !s.sec.attLost then some (respond s cmd 2 [])
  else match cmd with
    | 1 =>
      if 2 ^ 40 ≤ s.sec.attNext then some (respond s 1 3 [])
      else if ceiling s ≤ s.sec.attNext then none
      else some (signReport s (bytesAt q 4 32))
    | 2 => some (respond s 2 0 (certBytes ++ Config.casgilKey ++ Config.certSignature))
    | 3 => some (respond s 3 0 (bytesOfNat 5 s.sec.attNext ++ bytesOfNat 5 (ceiling s)))
    | 0x10 => some (serveCalRead s (leAt q 4 4))
    | 0x11 => some (serveCalArm s ((leAt q 1 1).testBit 0))
    | 0x12 => some (serveCalWrite s (leAt q 4 4) (q.drop 8))
    | 0x13 => some (serveCalCommit s (leAt q 4 4) (bytesAt q 8 32))
    | _ => some (respond { s with sec := { s.sec with armed := none } } 0x14 0 [])

/-- Serves waiting requests in arrival order until one must wait; a ceiling write then begins. -/
def serveAll (s : State) (l : List (List Byte)) : State :=
  match l with
  | [] => { s with sec := { s.sec with waiting := [] } }
  | q :: t => match serveRequest s q with
    | some s1 => serveAll s1 t
    | none => { s with sec := { s.sec with waiting := q :: t, attWriting := true } }

/-- Nothing is served while an image loads or a ceiling is being written. -/
def drainRequests (s : State) : State :=
  if s.image.result == 1 || s.sec.attWriting then s else serveAll s s.sec.waiting

/-- A request arrives: a fifth is turned away. -/
def takeRequest (s : State) (q : List Byte) : State :=
  if s.boot.stage < 2 then s
  else if 4 ≤ s.sec.waiting.length then respond s (leAt q 0 1) 1 []
  else drainRequests { s with sec := { s.sec with waiting := s.sec.waiting ++ [q] } }

def requestBytes (cmd flag off : Nat) (rest : List Byte) : List Byte :=
  bytesOfNat 1 cmd ++ bytesOfNat 1 flag ++ zeroBytes 2 ++ bytesOfNat 4 off ++ rest

def execGetReport (nonce : List Byte) (s : State) : Result :=
  .next (takeRequest s (bytesOfNat 4 1 ++ nonce))
def execGetCert (s : State) : Result := .next (takeRequest s (bytesOfNat 4 2))
def execGetSigState (s : State) : Result := .next (takeRequest s (bytesOfNat 4 3))
def execCalRead (off : W32) (s : State) : Result := .next (takeRequest s (requestBytes 0x10 0 off.toNat []))
def execCalArm (waive : Bool) (s : State) : Result :=
  .next (takeRequest s (requestBytes 0x11 (boolNat waive) 0 []))
def execCalWrite (off : W32) (data : List Byte) (s : State) : Result :=
  .next (takeRequest s (requestBytes 0x12 0 off.toNat data))
def execCalCommit (compl : W32) (digest : List Byte) (s : State) : Result :=
  .next (takeRequest s (requestBytes 0x13 0 compl.toNat digest))
def execCalCancel (s : State) : Result := .next (takeRequest s (requestBytes 0x14 0 0 []))

/-- The arm's window ends. -/
def execCalArmExpiry (s : State) : Result :=
  .next (if (armNow s).isSome then s else { s with sec := { s.sec with armed := none } })

/-- The hypertree path for the next index is ready (R514). -/
def execAttPrepared (s : State) : Result :=
  .next (if s.boot.stage < 2 || s.sec.attLost then s else { s with sec := { s.sec with attReady := true } })

/-- The ceiling is in flash: the signature that waited is released. -/
def execAttCeilingWritten (s : State) : Result :=
  .next (
    if !s.sec.attWriting then s
    else
      let s1 := raiseCeiling s
      drainRequests { s1 with sec := { s1.sec with attWriting := false } })

/-- The flip of an image, after which waiting requests are answered (17 R439, 20 R515). -/
def execImageFlip (s : State) : Result := .next (drainRequests (imageFlip s))

/-! ## Pattern packs (19 R497) -/

/-- A test entry: KIND, IMAGE_OFF, IMAGE_LEN, ENTRY, OUT_OFF, OUT_PARCELS, SEALS_OFF. -/
structure PackTest where
  kind : Nat
  imgOff : Nat
  imgLen : Nat
  entry : Nat
  outOff : Nat
  outParcels : Nat
  sealsOff : Nat
  deriving DecidableEq, Repr

def packTest (b : List Byte) (i : Nat) : PackTest :=
  let o := 64 + 64 * i
  ⟨leAt b o 1, leAt b (o + 4) 4, leAt b (o + 8) 4, leAt b (o + 12) 4, leAt b (o + 16) 4, leAt b (o + 20) 4,
    leAt b (o + 24) 4⟩

def packTestList (b : List Byte) : List PackTest := (List.range (leAt b 16 2)).map (packTest b)

def packEntrySound (b : List Byte) (i : Nat) : Bool :=
  let o := 64 + 64 * i
  let t := packTest b i
  (t.kind == 1 || t.kind == 2) && leAt b (o + 1) 3 == 0 && t.imgLen % 4096 == 0 && t.imgLen ≤ 0x400000 &&
  decide (t.imgOff + t.imgLen ≤ b.length) && 1 ≤ t.outParcels && t.outParcels ≤ 1024 &&
  decide (t.outOff + t.outParcels * 4096 ≤ 0x400000) && t.outOff % 4096 == 0 &&
  decide (t.sealsOff + 4 * t.outParcels ≤ b.length) && leAt b (o + 28) 36 == 0

/-- The layouts of R497, for a pack without its trailer. -/
def packSound (b : List Byte) : Bool :=
  let master := leAt b 19 1
  leAt b 0 8 == natOfBytes (asciiBytes "TLS1PAK1") && leAt b 12 4 == b.length && 64 ≤ b.length && b.length ≤ 2 ^ 26 &&
  1 ≤ leAt b 16 2 && leAt b 16 2 ≤ 4096 && decide (64 + 64 * leAt b 16 2 ≤ b.length) && leAt b 18 1 < 16 &&
  (master == 1 || (16 ≤ master && master ≤ 23)) && leAt b 20 44 == 0 &&
  (List.range (leAt b 16 2)).all (packEntrySound b)

/-- A pack with its trailer has arrived: a verified one replaces the one held; one that comes while a run is in progress
waits for its end. -/
def offerPack (s : State) (obj : List Byte) : State :=
  if s.chk.packResult == 1 then { s with chk := { s.chk with packPending := some obj } }
  else
    let b := objBody obj
    let r := verifyObject obj "TLS1PK01" Config.packKeyDigest (packSound b) true
    let s1 := recordVerify s 3 r (leAt b 8 4)
    if r == 1 then
      { s1 with chk := { s1.chk with pack := some b, packResult := if s1.chk.packResult == 3 then 0 else s1.chk.packResult } }
    else { s1 with chk := { s1.chk with packResult := 3 } }

/-- The end of a run: a pack that waited is taken. -/
def takeWaiting (s : State) : State :=
  match s.chk.packPending with
  | some obj => offerPack { s with chk := { s.chk with packPending := none } } obj
  | none => s

end Sys2Proof.Machine
end

