-- ==== Sys2Proof/Machine/Operands.lean ====
section
/-! DEFINITION. The cluster instructions' encoding, legality, register files and operand forms (spec/06 R152 to R162,
R552, R553, R556), and the sequencer's fetch, advance and end of a program. -/

namespace Sys2Proof.Machine

/-! ## Encoding (R161) -/

def encScal (fn : Nat) (a : Scal) : Nat := a.sd.toNat * 2 ^ 23 + a.sa.toNat * 2 ^ 18 + a.sb.toNat * 2 ^ 13 + fn

def encImm (fn : Nat) (a : ScalImm) : Nat :=
  2 ^ 28 + a.sd.toNat * 2 ^ 23 + a.sa.toNat * 2 ^ 18 + fn * 2 ^ 14 + a.imm.toNat

def encMem (fn : Nat) (a : ScalMem) : Nat :=
  2 * 2 ^ 28 + a.sd.toNat * 2 ^ 23 + a.sa.toNat * 2 ^ 18 + fn * 2 ^ 15 + a.off.toNat

def encBran (fn : Nat) (a : Bran) : Nat :=
  3 * 2 ^ 28 + a.sa.toNat * 2 ^ 23 + a.sb.toNat * 2 ^ 18 + fn * 2 ^ 15 + a.off.toNat

def encSys (fn sd sa imm : Nat) : Nat := 4 * 2 ^ 28 + sd * 2 ^ 23 + sa * 2 ^ 18 + imm * 2 ^ 6 + fn

def encCfg (fn r1 r2 fmt idx : Nat) : Nat :=
  5 * 2 ^ 28 + r1 * 2 ^ 23 + r2 * 2 ^ 18 + fmt * 2 ^ 14 + idx * 2 ^ 3 + fn

def encVec (cls fn9 : Nat) (r : VRegs) : Nat :=
  cls * 2 ^ 28 + r.vd.toNat * 2 ^ 23 + r.vs1.toNat * 2 ^ 18 + r.vs2.toNat * 2 ^ 13 + boolNat r.msk * 2 ^ 12 +
  r.vm.toNat * 2 ^ 9 + fn9

def encArith (cls op : Nat) (a : VArith) : Nat := encVec cls (op * 16 + a.rm.toNat * 4 + a.src.toNat) a.r
def encConv (a : VConv) : Nat :=
  encVec 8 (a.fmtD.toNat * 32 + a.rm.toNat * 8 + boolNat a.cap * 4 + boolNat a.scale * 2) a.r
def encRed (op : Nat) (a : VRed) : Nat := encVec 9 (op * 32 + a.fmtD.toNat * 2 + boolNat a.low) a.r
def encMask (op : Nat) (r : VRegs) : Nat := encVec 10 (op * 32) r
def encVMem (dir : Nat) (a : VMem) : Nat := encVec 11 (dir * 256 + boolNat a.strided * 128) a.r
def encGath (dir : Nat) (r : VRegs) : Nat := encVec 12 (dir * 256) r
def encWin (op : Nat) (a : VWin) : Nat := encVec 13 (op * 64 + a.low.toNat) a.r

/-- Every bit of a word. -/
def wholeWord : Nat := 0xFFFFFFFF

/-! ## Register files (R157, R158) -/

/-- Elements a vector register holds. -/
def laneCap (f : Fmt) : Nat := 4096 / fmtBits f

def State.seq (s : State) (p : Nat) : Seq := (s.clu p).seq
def State.setSeq (s : State) (p : Nat) (q : Seq) : State := s.setClu p { s.clu p with seq := q }

def Seq.s (q : Seq) (r : Nat) : W64 := if r == 0 then 0 else kget 0 q.sreg r
/-- s0 reads zero and discards writes. -/
def Seq.setS (q : Seq) (r : Nat) (v : W64) : Seq := if r == 0 then q else { q with sreg := kset 0 q.sreg r v }
def Seq.v (q : Seq) (r : Nat) : VReg := kget 0 q.vreg r
def Seq.setV (q : Seq) (r : Nat) (v : VReg) : Seq := { q with vreg := kset 0 q.vreg r v }
def Seq.m (q : Seq) (r : Nat) : MReg := kget 0 q.mreg r
def Seq.setM (q : Seq) (r : Nat) (v : MReg) : Seq := { q with mreg := kset 0 q.mreg r v }

def Seq.fmt (q : Seq) : Fmt := fmtOr q.efmt

/-- Bits of element `i` of a register in a format (R157, 03 R70). -/
def elemAt (f : Fmt) (v : VReg) (i : Nat) : Nat := field v.toNat (fmtBits f * i) (fmtBits f)
def setElem (f : Fmt) (v : VReg) (i x : Nat) : VReg :=
  BitVec.ofNat 4096 (putField v.toNat (fmtBits f * i) (fmtBits f) x)

/-- Element `i` of a register group of the format: register ⌊i / LANECAP⌋, lane i mod LANECAP (R164). -/
def setGroup (q : Seq) (f : Fmt) (vd i x : Nat) : Seq :=
  let r := vd + i / laneCap f
  q.setV r (setElem f (q.v r) (i % laneCap f) x)
def groupAt (q : Seq) (f : Fmt) (vd i : Nat) : Nat := elemAt f (q.v (vd + i / laneCap f)) (i % laneCap f)

/-- Active elements: below ACT, and with their mask bit set when MK = 1 (R160). -/
def activeAt (q : Seq) (r : VRegs) (i : Nat) : Bool := i < q.act && (!r.msk || (q.m r.vm.toNat).getLsbD i)
def activeList (q : Seq) (r : VRegs) : List Nat := (List.range q.act).filter (activeAt q r)

/-! ## Legality (R162) -/

/-- Registers of a destination group of `n` elements in a format; at least one. -/
def groupRegs (f : Fmt) (n : Nat) : Nat := ceilDiv (n * fmtBits f) 4096

/-- A group, of one register too, runs past v31 or overlaps a vector source. -/
def groupBad (vd n : Nat) (srcs : List Nat) : Bool :=
  decide (32 < vd + n) || srcs.any (fun v => decide (vd ≤ v ∧ v < vd + n))

/-- Wide format of a source format (R164). -/
def wideOf (f : Fmt) : Fmt :=
  match f with
  | .f64 => .pair | .f32 => .f64 | _ => .f32

/-- Products per lane of VDOTW (R165). -/
def dotDepth (f : Fmt) : Nat := if fmtBits f == 4 then 8 else if fmtBits f ≤ 8 then 4 else 2

/-- Classes 0x6: elementwise. -/
def legalElem (w efmt : Nat) : Bool :=
  let op := field w 4 5
  op < 16 && field w 0 2 != 3 && field w 2 2 != 2 && (12 ≤ op || efmt ≤ 3) &&
  (!([6, 9, 10, 12].contains op) || field w 18 5 == 0)

/-- Class 0x7: widening; the f64 pair has no wide format, and VWFMA takes no f64 source. -/
def legalWiden (q : Seq) (w : Nat) : Bool :=
  let op := field w 4 5
  let f := q.fmt
  let srcs := field w 18 5 :: (if field w 0 2 == 1 then [] else [field w 13 5])
  op < 3 && field w 0 2 != 3 && field w 2 2 != 2 && f != .pair && (op != 1 || f != .f64) &&
  (if op == 2 then q.act % dotDepth f == 0 && q.act ≤ dotDepth f * laneCap (wideOf f)
   else !groupBad (field w 23 5) (groupRegs (wideOf f) q.act) srcs)

/-- Class 0x8: VCVT. -/
def legalConv (q : Seq) (w : Nat) : Bool :=
  let fd := field w 5 4
  fd < 12 && field w 0 1 == 0 && !(field w 3 2 == 2 && [0, 1, 11].contains fd) &&
  (fmtBits (fmtOr fd) ≤ fmtBits q.fmt || !groupBad (field w 23 5) (groupRegs (fmtOr fd) q.act) [field w 18 5])

/-- Class 0x9: reductions. ue4m3 has no row in 04 R103, and the mean's shift c holds no f64 pair (04 R117). -/
def legalRed (w efmt : Nat) : Bool :=
  let op := field w 5 4
  op < 12 && (if op == 4 then field w 1 4 < 12 else field w 1 4 == 0) &&
  (op == 0 || op == 11 || field w 0 1 == 0) &&
  !([0, 1, 2, 3, 9, 10].contains op && efmt == 10) && !([9, 10].contains op && efmt == 11) &&
  !(op == 10 && field w 12 1 == 1)

/-- Class 0xA: masks. -/
def legalMask (w efmt : Nat) : Bool := field w 0 5 == 0 && field w 5 4 < 12 && (5 ≤ field w 5 4 || efmt ≤ 3)

/-- Class 0xB: strided elements are of 8 bits or wider. -/
def legalVMem (q : Seq) (w : Nat) : Bool := field w 0 7 == 0 && (field w 7 1 == 0 || 8 ≤ fmtBits q.fmt)

/-- Class 0xC: the index group stays within the file and apart from a gather's destination. -/
def legalGath (q : Seq) (w : Nat) : Bool :=
  let n := ceilDiv q.act 64
  let v := field w 13 5
  let d := field w 23 5
  field w 0 8 == 0 && 8 ≤ fmtBits q.fmt && v + n ≤ 32 &&
  (field w 8 1 == 1 || !decide (v ≤ d ∧ d < v + n))

/-- Class 0xD: unused fields are zero, VM too in the instructions that take no elements (R161, R173). -/
def legalWin (w : Nat) : Bool :=
  let op := field w 6 3
  let low := field w 0 6
  let vd := field w 23 5
  let v1 := field w 18 5
  let v2 := field w 13 5
  let vm := field w 9 3
  match op with
  | 0 => low == 0 && vd == 0
  | 1 => low == 0 && vd == 0 && v2 == 0
  | 2 => low < 2 && v1 == 0 && v2 == 0 && vm == 0
  | 3 => low == 0 && vd == 0 && v1 == 0 && v2 == 0 && vm == 0
  | 4 => low < 2 && (low == 1 || v2 == 0)
  | 5 => vd == 0 && v2 == 0 && vm == 0
  | _ => low == 0 && vd == 0 && v2 == 0 && vm == 0

/-- Class 0x5: VMVS and VMSV name an element of a format other than the pair (R556). -/
def legalCfg (w : Nat) : Bool :=
  let f := field w 14 4
  field w 0 3 < 3 && f < 12 && (field w 0 3 == 0 || (f != 11 && field w 3 11 < laneCap (fmtOr f)))

/-- Whether a word is an instruction the program may execute in its present format and count (R162). -/
def wordLegal (q : Seq) (w : Nat) : Bool :=
  match w / 2 ^ 28 with
  | 0 => field w 5 8 == 0 && field w 0 5 < 15
  | 1 => field w 14 4 < 9
  | 2 => true
  | 3 => true
  | 4 => field w 0 6 < 10 && (2 ≤ field w 0 6 || field w 6 12 < 1024)
  | 5 => legalCfg w
  | 6 => legalElem w q.efmt
  | 7 => legalWiden q w
  | 8 => legalConv q w
  | 9 => legalRed w q.efmt
  | 10 => legalMask w q.efmt
  | 11 => legalVMem q w
  | 12 => legalGath q w
  | 13 => legalWin w
  | _ => false

/-! ## The sequencer (R152 to R154, R162) -/

def waitTags (x : SeqWait) : List Nat := match x with | .remote l => l | _ => []

/-- The idle time of a logical cluster begins anew (18 R474, R475). -/
def touchIdle (s : State) (n : Nat) : State := s.setLclu n { s.lclu n with idleSince := s.now }

/-- The work a cluster last completed, which its signatures name (19 R494). -/
def noteLast (s : State) (p opId stream : Nat) : State :=
  let c := s.clu p
  s.setClu p { c with chk := { c.chk with lastOp := opId, lastStream := stream } }

/-- Ends the running program, in error or not; the registers of the ended program are not kept. -/
def dropProgram (s : State) (p : Nat) : State :=
  let q := s.seq p
  let s := match q.prog with | some g => touchIdle s g.lclu | none => s
  (reqDrop s (waitTags q.wait)).setSeq p { q with
    prog := none, wait := .none, inHandler := false, resuming := false, resume := 0, ran := true }

/-- Ends the program in error (R15: PARTIAL when its count is above zero). -/
def endProgram (s : State) (p status detail : Nat) : State :=
  match (s.seq p).prog with
  | none => s
  | some g => opFail (dropProgram s p) g.slot status detail

/-- STRUCTURE_MISMATCH with the detail of R162, which names the instruction at PC. -/
def endIllegal (s : State) (p : Nat) : State := endProgram s p stStruct (detail2 0xFFFFFF0A (s.seq p).pc)

/-- Retires the instruction at PC and goes on at `next`; a target outside the store ends the program (R153). -/
def advance (s : State) (p : Nat) (next : Int) : State :=
  if next < 0 || 0x400000 ≤ next || next % 4 != 0 then endIllegal s p
  else
    let q := s.seq p
    (reqDrop s (waitTags q.wait)).setSeq p { q with
      pc := next.toNat, wait := .none, resuming := false, resume := if q.resuming then 0 else q.resume }

def retire (s : State) (p : Nat) : State := advance s p ((s.seq p).pc + 4)

/-- Code parcels are checked once a program, at their first fetch (R153). -/
def fetchWord (s : State) (p : Nat) (g : Prog) (pc : Nat) : State × Except (Nat × Nat) Nat :=
  let key := storeKey p pc
  let par := key - key % 4096
  let w := leAt (memBytes s key 4) 0 4
  if g.checked.contains par then (s, .ok w)
  else match parcelRead s par ⟨4, some g.slot⟩ with
    | (s1, .ok _) => (s1.setSeq p { s1.seq p with prog := some { g with checked := par :: g.checked } }, .ok w)
    | (s1, .fail st) => (s1, .error (st, detail2 (pc - pc % 4096) 0xFFFFFFF3))
    | (s1, .wait) => (s1, .ok w)

/-- The end of a program whose cluster is being quiesced, at an instruction boundary: the scalar, vector and mask registers
go (R180, 18 R472). -/
def endQuiesced (s : State) (p : Nat) : State :=
  let s1 := endProgram s p stReset 0
  s1.setSeq p { s1.seq p with sreg := [], vreg := [], mreg := [] }

/-- A program of a cluster being quiesced stands at an instruction boundary. -/
def atBoundary (s : State) (p : Nat) (g : Prog) : Bool := (s.lclu g.lclu).quiescing && (s.seq p).wait == .none

/-- Executes the instruction at PC when it is the one the command names: `word` in the bits of `bits`. A word that
R162 does not admit ends the program; a program that stands at another instruction goes on later. -/
def issue (s : State) (p bits word : Nat) (act : Prog → State → State) : State :=
  match (s.seq p).prog with
  | none => s
  | some g =>
    if atBoundary s p g then endQuiesced s p
    else match fetchWord s p g (s.seq p).pc with
    | (s1, .error e) => endProgram s1 p e.1 e.2
    | (s1, .ok w) =>
      if !wordLegal (s1.seq p) w then endIllegal s1 p
      else if w &&& bits == word then act (((s1.seq p).prog).getD g) s1 else s

/-- An instruction whose only effects are on the cluster's own registers. -/
def regOp (s : State) (p bits word : Nat) (act : Seq → Seq) : State :=
  issue s p bits word (fun _ s1 => retire (s1.setSeq p (act (s1.seq p))) p)

/-- Posts what a vector instruction raised, at its retirement (R163, 03 R89, R90). -/
def vecPost (s : State) (p slot : Nat) (t : Tally) : State :=
  let c := s.clu p
  opTally (s.setClu p { c with ve := arithPost c.ve t }) slot t none

/-- A vector instruction on the cluster's registers: new registers and what it raised. -/
def vecOp (s : State) (p word : Nat) (act : Seq → Seq × Tally) : State :=
  issue s p wholeWord word (fun g s1 =>
    let r := act (s1.seq p)
    retire (vecPost (s1.setSeq p r.1) p g.slot r.2) p)

/-- The second operand of element `i` by SRC (R161, R552). -/
def srcAt (q : Seq) (f : Fmt) (r : VRegs) (src i : Nat) : Nat :=
  if src == 1 then (q.s r.vs2.toNat).toNat % 2 ^ fmtBits f
  else elemAt f (q.v r.vs2.toNat) (if src == 2 then 0 else i)

/-- Applies a function of the element index to every active lane of vd, which the function's third argument reads. -/
def mapLanes (q : Seq) (f : Fmt) (r : VRegs) (op : Nat → Res) : Seq × Tally :=
  (activeList q r).foldl (fun a i =>
    let x := op i
    (a.1.setV r.vd.toNat (setElem f (a.1.v r.vd.toNat) i x.bits), tallyAdd a.2 (resTally x))) (q, {})

end Sys2Proof.Machine
end

