-- ==== Sys2Proof/Machine/Scalar.lean ====
section
/-! DEFINITION. Scalar, branch, system and vector-configuration instructions that reach no memory (spec/06 R153 to
R158, R553, R556). -/

namespace Sys2Proof.Machine

/-! ## Scalar integer (R553) -/

/-- Class 0x0: sd ← f sa sb. -/
def scalar (s : State) (p : PClu) (fn : Nat) (a : Scal) (f : W64 → W64 → W64) : Result :=
  .next (regOp s p wholeWord (encScal fn a) (fun q => q.setS a.sd.toNat (f (q.s a.sa.toNat) (q.s a.sb.toNat))))

/-- Class 0x1: sd ← f sa imm14, the immediate sign-extended. -/
def scalarImm (s : State) (p : PClu) (fn : Nat) (a : ScalImm) (f : W64 → W64 → W64) : Result :=
  .next (regOp s p wholeWord (encImm fn a) (fun q => q.setS a.sd.toNat (f (q.s a.sa.toNat) (a.imm.signExtend 64))))

/-- High 64 bits of the signed product. -/
def mulHigh (x y : W64) : W64 := BitVec.ofInt 64 (x.toInt * y.toInt / 2 ^ 64)
def mulHighU (x y : W64) : W64 := BitVec.ofNat 64 (x.toNat * y.toNat / 2 ^ 64)
/-- Shift amount: the low 6 bits. -/
def shAmt (y : W64) : Nat := y.toNat % 64
def w64OfBool (b : Bool) : W64 := if b then 1 else 0

def execAdd (p : PClu) (a : Scal) (s : State) : Result := scalar s p 0 a (fun x y => x + y)
def execSub (p : PClu) (a : Scal) (s : State) : Result := scalar s p 1 a (fun x y => x - y)
def execMul (p : PClu) (a : Scal) (s : State) : Result := scalar s p 2 a (fun x y => x * y)
def execMulh (p : PClu) (a : Scal) (s : State) : Result := scalar s p 3 a (fun x y => mulHigh x y)
def execMulhu (p : PClu) (a : Scal) (s : State) : Result := scalar s p 4 a (fun x y => mulHighU x y)
def execAnd (p : PClu) (a : Scal) (s : State) : Result := scalar s p 5 a (fun x y => x &&& y)
def execOr (p : PClu) (a : Scal) (s : State) : Result := scalar s p 6 a (fun x y => x ||| y)
def execXor (p : PClu) (a : Scal) (s : State) : Result := scalar s p 7 a (fun x y => x ^^^ y)
def execShl (p : PClu) (a : Scal) (s : State) : Result := scalar s p 8 a (fun x y => x <<< shAmt y)
def execShr (p : PClu) (a : Scal) (s : State) : Result := scalar s p 9 a (fun x y => x >>> shAmt y)
def execSra (p : PClu) (a : Scal) (s : State) : Result := scalar s p 10 a (fun x y => x.sshiftRight (shAmt y))
def execMin (p : PClu) (a : Scal) (s : State) : Result := scalar s p 11 a (fun x y => if x.slt y then x else y)
def execMax (p : PClu) (a : Scal) (s : State) : Result := scalar s p 12 a (fun x y => if x.slt y then y else x)
def execSlt (p : PClu) (a : Scal) (s : State) : Result := scalar s p 13 a (fun x y => w64OfBool (x.slt y))
def execSltu (p : PClu) (a : Scal) (s : State) : Result := scalar s p 14 a (fun x y => w64OfBool (x.ult y))

def execAddi (p : PClu) (a : ScalImm) (s : State) : Result := scalarImm s p 0 a (fun x y => x + y)
def execAndi (p : PClu) (a : ScalImm) (s : State) : Result := scalarImm s p 1 a (fun x y => x &&& y)
def execOri (p : PClu) (a : ScalImm) (s : State) : Result := scalarImm s p 2 a (fun x y => x ||| y)
def execXori (p : PClu) (a : ScalImm) (s : State) : Result := scalarImm s p 3 a (fun x y => x ^^^ y)
def execShli (p : PClu) (a : ScalImm) (s : State) : Result := scalarImm s p 4 a (fun x y => x <<< shAmt y)
def execShri (p : PClu) (a : ScalImm) (s : State) : Result := scalarImm s p 5 a (fun x y => x >>> shAmt y)
def execSrai (p : PClu) (a : ScalImm) (s : State) : Result := scalarImm s p 6 a (fun x y => x.sshiftRight (shAmt y))
def execSlti (p : PClu) (a : ScalImm) (s : State) : Result := scalarImm s p 7 a (fun x y => w64OfBool (x.slt y))
/-- sd = (sa << 14) OR imm14, the immediate unsigned. -/
def execShin (p : PClu) (a : ScalImm) (s : State) : Result :=
  scalarImm s p 8 a (fun x _ => (x <<< 14) ||| a.imm.zeroExtend 64)

/-! ## Branches (R153, R553) -/

/-- A conditional branch to its own offset plus 4 × offset. -/
def branchOn (s : State) (p : PClu) (fn : Nat) (a : Bran) (c : W64 → W64 → Bool) : Result :=
  .next (issue s p wholeWord (encBran fn a) (fun _ s1 =>
    let q := s1.seq p
    if c (q.s a.sa.toNat) (q.s a.sb.toNat) then advance s1 p (q.pc + 4 * a.off.toInt) else retire s1 p))

/-- Writes the link, then goes to the target, which was formed from the registers before the link. -/
def linkTo (s : State) (p : PClu) (a : Bran) (target : Int) : State :=
  let q := s.seq p
  if target < 0 || 0x400000 ≤ target || target % 4 != 0 then endIllegal s p
  else advance (s.setSeq p (q.setS a.sa.toNat (BitVec.ofNat 64 (q.pc + 4)))) p target

def execBeq (p : PClu) (a : Bran) (s : State) : Result := branchOn s p 0 a (fun x y => x == y)
def execBne (p : PClu) (a : Bran) (s : State) : Result := branchOn s p 1 a (fun x y => x != y)
def execBlt (p : PClu) (a : Bran) (s : State) : Result := branchOn s p 2 a (fun x y => x.slt y)
def execBge (p : PClu) (a : Bran) (s : State) : Result := branchOn s p 3 a (fun x y => !x.slt y)
def execBltu (p : PClu) (a : Bran) (s : State) : Result := branchOn s p 4 a (fun x y => x.ult y)
def execBgeu (p : PClu) (a : Bran) (s : State) : Result := branchOn s p 5 a (fun x y => !x.ult y)
def execJal (p : PClu) (a : Bran) (s : State) : Result :=
  .next (issue s p wholeWord (encBran 6 a) (fun _ s1 => linkTo s1 p a ((s1.seq p).pc + 4 * a.off.toInt)))
def execJalr (p : PClu) (a : Bran) (s : State) : Result :=
  .next (issue s p wholeWord (encBran 7 a) (fun _ s1 =>
    linkTo s1 p a (((s1.seq p).s a.sb.toNat + BitVec.ofInt 64 (4 * a.off.toInt)).toNat : Int)))

/-! ## System (R152, R155, R156, R178, R181) -/

/-- Bits of a class 0x4 word that hold sd, sa, imm12; class and FN always count. -/
def sysBits (sd sa imm : Bool) : Nat :=
  0xF000003F + (if sd then 0x0F800000 else 0) + (if sa then 0x007C0000 else 0) + (if imm then 0x0003FFC0 else 0)

/-- HALT ends the program DONE. -/
def execHalt (p : PClu) (s : State) : Result :=
  .next (issue s p (sysBits false false false) (encSys 2 0 0 0) (fun g s1 =>
    noteLast (opDone (dropProgram s1 p) g.slot) p g.opId g.stream))

/-- ERET goes to the instruction at EPC, which must be a memory instruction, with RESUME below ACT (R162, R178). -/
def eret (s : State) (p : Nat) (g : Prog) : State :=
  let q := s.seq p
  match fetchWord s p g q.epc with
  | (s1, .error e) => endProgram s1 p e.1 e.2
  | (s1, .ok w) =>
    let c := w / 2 ^ 28
    if (c != 11 && c != 12) || q.act ≤ q.resume then endIllegal s1 p
    else s1.setSeq p { s1.seq p with pc := q.epc, inHandler := false, resuming := true }

def execEret (p : PClu) (s : State) : Result :=
  .next (issue s p (sysBits false false false) (encSys 3 0 0 0) (fun g s1 => eret s1 p g))

/-- Every earlier store of the program is sealed when its instruction retires, so FENCE goes on (R155). -/
def execFence (p : PClu) (s : State) : Result :=
  .next (issue s p (sysBits false false false) (encSys 4 0 0 0) (fun _ s1 => retire s1 p))

/-- COUNT: the count field holds 32 bits; what a larger operand sets it to is a free value (R156). -/
def execCount (p : PClu) (sa : BitVec 5) (s : State) : Result :=
  .next (issue s p (sysBits false true false) (encSys 7 0 sa.toNat 0) (fun g s1 =>
    let v := (s1.seq p).s sa.toNat
    retire (opCount s1 g.slot (if v.toNat < 2 ^ 32 then v.toNat else (Config.countOf v).toNat)) p))

/-- LOSS posts element 0 of a vector register, as f64, for the step in sa (R181). -/
def execLoss (p : PClu) (vr : BitVec 5) (sa : BitVec 5) (s : State) : Result :=
  .next (issue s p (sysBits true true false) (encSys 8 vr.toNat sa.toNat 0) (fun g s1 =>
    let q := s1.seq p
    let m : PostMsg := ⟨g.lclu, g.stream, (q.s sa.toNat).toNat % 2 ^ 32, elemAt .f64 (q.v vr.toNat) 0⟩
    retire { s1 with core := { s1.core with posts := s1.core.posts ++ [m] } } p))

/-- TIME reads the time base whole. -/
def execTime (p : PClu) (sd : BitVec 5) (s : State) : Result :=
  .next (issue s p (sysBits true false false) (encSys 9 sd.toNat 0 0) (fun _ s1 =>
    retire (s1.setSeq p ((s1.seq p).setS sd.toNat (BitVec.ofNat 64 s1.now))) p))

/-! ## Vector configuration (R158, R556) -/

/-- SHAPE: EFMT and ACT, and the count left over. -/
def execShape (p : PClu) (sd : BitVec 5) (sa : BitVec 5) (fmt : BitVec 4) (s : State) : Result :=
  .next (regOp s p 0xFFFFC007 (encCfg 0 sd.toNat sa.toNat fmt.toNat 0) (fun q =>
    let n := (q.s sa.toNat).toNat
    let a := min n (laneCap (fmtOr fmt.toNat))
    { q with efmt := fmt.toNat, act := a }.setS sd.toNat (BitVec.ofNat 64 (n - a))))

/-- VMVS: scalar ← element. -/
def execVmvs (p : PClu) (a : ElemMove) (s : State) : Result :=
  .next (regOp s p wholeWord (encCfg 1 a.sr.toNat a.vr.toNat a.fmt.toNat a.idx.toNat) (fun q =>
    q.setS a.sr.toNat (BitVec.ofNat 64 (elemAt (fmtOr a.fmt.toNat) (q.v a.vr.toNat) a.idx.toNat))))

/-- VMSV: element ← scalar. -/
def execVmsv (p : PClu) (a : ElemMove) (s : State) : Result :=
  .next (regOp s p wholeWord (encCfg 2 a.sr.toNat a.vr.toNat a.fmt.toNat a.idx.toNat) (fun q =>
    q.setV a.vr.toNat (setElem (fmtOr a.fmt.toNat) (q.v a.vr.toNat) a.idx.toNat (q.s a.sr.toNat).toNat)))

end Sys2Proof.Machine
end

