-- ==== Sys2Proof/Machine/LossWatch.lean ====
section
/-! DEFINITION. Loss watches: posts, windows, verdicts and their settings (spec/10 R280 to R287). -/

namespace Sys2Proof.Machine

/-! ## Statistics of a history (04 R117, R118) -/

/-- Mean and variance with D = entries, in the pair row; the canonical NaN of an empty history. -/
def histStats (h : List Nat) : Nat × Nat :=
  match h with
  | [] => (fmtNan .f64, fmtNan .f64)
  | c :: _ =>
    let row := redRow .f64 true
    let d := h.map (fun x => (valSub (f64Val x) (f64Val c)).1)
    let s1 := (redFinish row .f64 .rne false (reduceTerms row false (d.map (fun v => (v, false)))).2).bits
    let s2 := (redFinish row .f64 .rne false (reduceTerms row false (d.map (fun v => ((valMul v v).1, false)))).2).bits
    let k := f64OfNat h.length
    let m1 := f64Div s1 k
    let num := f64Sub s2 (f64Mul s1 m1)
    (f64Add c m1, f64Div (if f64Lt num 0 then 0 else num) k)

/-! ## Verdicts (R282, R283) -/

/-- The exact sum of the posted values, rounded once. -/
def postSum (l : List LossPost) : Nat := f64Round (exactSum (l.map (fun p => f64Val p.value))).1

/-- Postmark at which a step's window ends. -/
def windowEnd (w : Watch) (l : List LossPost) : Option Nat :=
  match l with
  | [] => none
  | p :: t => some (t.foldl (fun a x => min a x.postmark) p.postmark + w.windowUs * 1000)

/-- The verdict's reason: 0 open, 1 non-finite, 2 spike, 3 missing posts (R283). -/
def verdictReason (w : Watch) (l : List LossPost) : Nat :=
  if l.length < w.posts then 3
  else
    let v := postSum l
    if !f64IsFinite v then 1
    else if w.hist.length < w.warmup then 0
    else
      let x := histStats w.hist
      let floor := f64Mul w.minSd.toNat w.minSd.toNat
      let var := f64Round (valMax (f64Val x.2) (f64Val floor))
      let dl := f64Sub v x.1
      if f64Lt (f64Mul (f64Mul w.k.toNat w.k.toNat) var) (f64Mul dl dl) then 2 else 0

/-- Gives the open step's verdict and opens the next step. -/
def giveVerdict (w : Watch) (now : Nat) : Watch :=
  let r := verdictReason w w.cur
  let v := if w.cur.isEmpty then 0 else postSum w.cur
  let x := histStats w.hist
  let e : Verdict := { step := w.openStep, opened := r == 0, reason := r, loss := v, postmark := now }
  { w with
    lastReason := r, lastOpen := r == 0, lastLoss := BitVec.ofNat 64 v, mean := BitVec.ofNat 64 x.1,
    var := BitVec.ofNat 64 x.2, verdicts := (e :: w.verdicts).take 64, cur := w.nxt, nxt := [],
    openStep := (w.openStep + 1) % 2 ^ 32,
    hist := if r == 0 then (w.hist ++ [v]).drop (w.hist.length + 1 - w.hlen) else w.hist }

/-- Whether the open step's verdict is due: POSTS clusters have posted, or its window has ended. -/
def verdictDue (w : Watch) (now : Nat) : Bool :=
  w.posts ≤ w.cur.length || (match windowEnd w w.cur with | some e => decide (e ≤ now) | none => false)

/-- Verdicts in ascending step order: the next step's follows at once where its conditions are met. -/
def verdictsDue (fuel : Nat) (w : Watch) (now : Nat) : Watch :=
  match fuel with
  | 0 => w
  | k + 1 => if w.cur.isEmpty || !verdictDue w now then w else verdictsDue k (giveVerdict w now) now

/-! ## Posts (R280, R281) -/

/-- A post kept among those of its step: a later one of the same cluster replaces its value. -/
def holdPost (l : List LossPost) (m : PostMsg) (now : Nat) : List LossPost :=
  if l.any (fun p => p.cluster == m.cluster) then
    l.map (fun p => if p.cluster == m.cluster then { p with value := m.value } else p)
  else l ++ [⟨m.cluster, m.value, now⟩]

/-- A post meets one watch: the watch after it, and whether it was taken. -/
def watchPost (w : Watch) (m : PostMsg) (now : Nat) : Watch × Bool :=
  let w := verdictsDue 2 w now
  let late (l : List LossPost) : Bool := match windowEnd w l with | some e => decide (e ≤ now) | none => false
  if m.step == w.openStep then (verdictsDue 2 { w with cur := holdPost w.cur m now } now, true)
  else if m.step == (w.openStep + 1) % 2 ^ 32 && !late w.nxt then
    ({ w with nxt := holdPost w.nxt m now }, true)
  else (w, false)

/-- Marks the gated updates that wait for a step of a watch: a post for it has been accepted (R285). -/
def markPosted (s : State) (w step : Nat) : State :=
  { s with core := { s.core with se := s.core.se.map (fun e =>
      match e.2.waiting, e.2.queue with
      | some _, (_, d) :: _ =>
        if leAt d 7 1 % 16 == w && leAt d 8 4 == step then (e.1, { e.2 with posted := true }) else e
      | _, _ => e) } }

/-- A post reaches one watch. -/
def postTo (s : State) (m : PostMsg) (w : Nat) : State :=
  let r := watchPost (s.watch w) m s.now
  let s1 := s.setWatch w r.1
  if r.2 then markPosted s1 w m.step
  else { s1 with core := { s1.core with lwDropped := inc32 s1.core.lwDropped } }

/-- A post reaches every enabled watch bound to its stream. -/
def execLossPost (s : State) : Result :=
  .next (
    match s.core.posts with
    | [] => s
    | m :: rest =>
      let s1 := { s with core := { s.core with posts := rest } }
      let l := (List.range 16).filter (fun w => (s1.watch w).enabled && (s1.watch w).stream == m.stream)
      if l.isEmpty then { s1 with core := { s1.core with lwDropped := inc32 s1.core.lwDropped } }
      else l.foldl (fun s w => postTo s m w) s1)

/-- The open step's window ends. -/
def execLossWindowEnd (w : WatchNo) (s : State) : Result :=
  .next (s.setWatch w (verdictsDue 2 (s.watch w) s.now))

/-! ## Settings (R286, R287) -/

def clampTo64 (lo hi v : Nat) : Nat := min hi (max lo v)

/-- A write of CFG, WINDOW or OPEN_STEP. -/
def lwWrite (w : Watch) (r : LwReg) (v : Nat) : Watch :=
  let x : Watch := { w with cur := [], nxt := [] }
  match r with
  | .cfg =>
    let h := clampTo64 2 64 (field v 24 7)
    let y : Watch := { x with
      enabled := v.testBit 31, hlen := h, warmup := clampTo64 1 64 (field v 16 7), stream := field v 0 16,
      hist := x.hist.drop (x.hist.length - h) }
    if v.testBit 31 then y
    else { y with hist := [], verdicts := [], lastReason := 0, lastOpen := false, lastLoss := 0 }
  | .window => { x with windowUs := clampTo64 1 65535 (field v 16 16), posts := clampTo64 1 256 (field v 0 9) }
  | .openStep => { x with openStep := v }

/-- A verdict of the same cycle is given before the write takes effect. -/
def actLwWrite (s : State) (w : Nat) (r : LwReg) (v : Nat) : State :=
  s.setWatch w (lwWrite (verdictsDue 2 (s.watch w) s.now) r v)

def lwOffset (r : LwReg) : Nat := match r with | .cfg => 0 | .window => 4 | .openStep => 0x18

def execLwConfigWrite (t : Tile) (w : WatchNo) (m : Master) (r : LwReg) (v : W32) (s : State) : Result :=
  .next (gated s m.toNat (tilBase t + 0x7000 + w.val * 0x40 + lwOffset r) (fun s => actLwWrite s w r v.toNat))

/-- The verdict recorded for a step. -/
def verdictOf (w : Watch) (step : Nat) : Option Verdict := w.verdicts.find? (fun v => v.step == step)

/-- TIL_LW_VERDICTS: bit i is 1 when step OPEN_STEP − 1 − i was open. -/
def verdictBits (w : Watch) : Nat :=
  (List.range 64).foldl (fun a i =>
    if (verdictOf w ((w.openStep + 2 ^ 32 - 1 - i) % 2 ^ 32)).any (fun v => v.opened) then a + 2 ^ i else a) 0

end Sys2Proof.Machine
end

