-- ==== Sys2Proof/Machine/Tensor.lean ====
section
/-! DEFINITION. The tensor engine: operands, terms, records, bands, commits, suspension and abort (spec/05; spec/04
R109 to R116; spec/07 R189, R190, R195), and TEISSUE and TEWAIT. -/

namespace Sys2Proof.Machine

/-! ## Operands (R130, R136, 07 R185 to R195) -/

/-- Which operand: its format, SB field, transpose bit, base of a batch, pitch and rows. -/
structure Operand where
  f : Fmt
  sb : Nat
  trans : Bool
  base : Nat
  pitch : Nat
  rows : Nat
  region : Nat
  deriving DecidableEq, Repr

def operandA (d : TDesc) (b : Nat) : Operand := ⟨d.fa, d.sbA, d.transA, d.aOff + b * d.aBatch, d.aPitch, d.m, 0⟩
def operandB (d : TDesc) (b : Nat) : Operand := ⟨d.fb, d.sbB, d.transB, d.bOff + b * d.bBatch, d.bPitch, d.n, 1⟩

/-- Parcels that overlap `len` bytes from a store offset. -/
def spanParcels (start len : Nat) : List Nat :=
  if len == 0 then []
  else (List.range ((start + len - 1) / 4096 - start / 4096 + 1)).map (fun i => (start / 4096 + i) * 4096)

/-- Parcels of rows [r0, r1) of an operand, in walk order. -/
def operandParcels (d : TDesc) (o : Operand) (r0 r1 : Nat) : List Nat :=
  if d.kCount == 0 then []
  else if o.sb != 0 then (List.range (r1 - r0)).flatMap (fun i => spanParcels (o.base + (r0 + i) * o.pitch) o.pitch)
  else
    let w := fmtBits o.f
    if o.trans then
      let lo := r0 * w / 8
      (List.range d.kCount).flatMap (fun k => spanParcels (o.base + k * o.pitch + lo) (ceilDiv (r1 * w) 8 - lo))
    else (List.range (r1 - r0)).flatMap (fun i =>
      spanParcels (o.base + (r0 + i) * o.pitch) (ceilDiv (d.kCount * w) 8))

/-- Rotation length of a scaled-block header, 0 for none (07 R186). -/
def rotOf (hdr : List Byte) : Nat :=
  let r := field (leAt hdr 5 1) 2 2
  if r == 0 then 0 else 16 * 2 ^ r

/-- Row and place in the row of a scaled-block operand's parcel. -/
def sbPlace (o : Operand) (off : Nat) : Nat × Nat := ((off - o.base) / o.pitch, (off - o.base) % o.pitch / 4096)

/-- First reduction index and element count of parcel `i` of a row (07 R188). -/
def sbSpan (d : TDesc) (o : Operand) (i : Nat) : Nat × Nat :=
  let e := sbCapacity o.f
  (d.kStart + i * e, if (i + 1) * e ≤ d.kCount then e else d.kCount - i * e)

/-- The header check of 07 R190 and R195, `other` being the rotations of the parcels already checked that meet it. -/
def sbHeaderOk (d : TDesc) (o : Operand) (hdr : List Byte) (i : Nat) (otherPlain : Bool) (other : List Nat) : Bool :=
  let blk := leAt hdr 5 1
  let sp := sbSpan d o i
  let n := rotOf hdr
  leAt hdr 4 1 == fmtCode o.f && field blk 0 2 == o.sb && field blk 4 4 == 0 && leAt hdr 6 2 == sp.2 &&
  leAt hdr 8 4 == sp.1 && leAt hdr 14 2 == 0 && other.all (fun r => r == n) &&
  (n == 0 || (!otherPlain && d.kStart % n == 0 && d.kEnd % n == 0 && d.kTotal % n == 0))

def storeBytes (s : State) (p off len : Nat) : List Byte := memBytes s (storeKey p off) len

/-- Value of the element of an operand's row at relative index k, and INVALID of a signalling NaN. -/
def operandVal (s : State) (p : Nat) (o : Operand) (row k : Nat) : Val × Bool :=
  if o.sb != 0 then
    let e := sbCapacity o.f
    sbValue o.f o.sb (storeBytes s p (o.base + row * o.pitch + k / e * 4096) 4096) (k % e)
  else
    let w := fmtBits o.f
    let bit := (if o.trans then row else k) * w
    let off := o.base + (if o.trans then k else row) * o.pitch + bit / 8
    let v := decodeVal o.f (field (leAt (storeBytes s p off 17) 0 17) (bit % 8) w)
    (v, valIsSig v)

/-- Rotation of the parcel that holds index k of an operand's row. -/
def operandRot (s : State) (p : Nat) (o : Operand) (row k : Nat) : Nat :=
  if o.sb == 0 then 0
  else rotOf (storeBytes s p (o.base + row * o.pitch + k / sbCapacity o.f * 4096) 16)

/-- An exact quotient by a power of two. -/
def divPow2 (v : Val) (n : Nat) : Val :=
  match v with
  | .fin g m e => .fin g m (e - n.log2)
  | v => v

/-- The term of reduction index kStart + k (R128, R130, 07 R195). -/
def tensorTerm (s : State) (p : Nat) (oa ob : Operand) (i j k : Nat) : Term :=
  let a := operandVal s p oa i k
  let b := operandVal s p ob j k
  let m := valMul a.1 b.1
  let n := operandRot s p oa i k
  (if n == 0 then m.1 else divPow2 m.1 n, a.2 || b.2 || m.2)

/-- Terms of indices [k0, k1) of element e. -/
def elemTerms (s : State) (p : Nat) (d : TDesc) (e k0 k1 : Nat) : List Term :=
  let b := e / (d.m * d.n)
  let i := e % (d.m * d.n) / d.n
  let j := e % d.n
  (List.range (k1 - k0)).map (fun t => tensorTerm s p (operandA d b) (operandB d b) i j (k0 - d.kStart + t))

/-! ## Input records (R112, R142, R143) -/

/-- Bytes of input record i. -/
def inRec (s : State) (p : Nat) (d : TDesc) (i : Nat) : List Byte := storeBytes s p (d.inOff + 64 * i) 64

def inRecs (s : State) (p : Nat) (d : TDesc) : List RedRec :=
  if d.inKind == 0 then [] else (List.range d.inCount).map (fun i => redOfBytes (inRec s p d i))

/-- The input record of an element, and its record of a run. -/
def recOfElem (l : List RedRec) (e : Nat) : Option RedRec := l.find? (fun r => r.element == e)
def recOfRun (l : List RedRec) (e run : Nat) : Option RedRec :=
  l.find? (fun r => r.element == e && r.next != 0 && (r.next - 1) / 4096 == run)

/-- Whether run q lies in the operation's own span. -/
def TDesc.ownRun (d : TDesc) (q : Nat) : Bool :=
  decide (d.kStart / 4096 ≤ q ∧ q < d.kStart / 4096 + d.spanRuns)

def recBefore (kind : Nat) (a b : RedRec) : Bool :=
  decide (a.element < b.element) || (kind == 2 && a.element == b.element && decide (a.next < b.next))

/-- Why a record is refused, if it is (R112, R143): its index says what stands before it. -/
def recRefused (d : TDesc) (l : List RedRec) (raw : List Byte) (i : Nat) (r : RedRec) : Option Nat :=
  let f := widerFmt d.fa d.fb
  if !redCheckOk raw then some stSeal
  else if r.opId != d.chain || decide (r.element < d.firstElem ∨ d.elems ≤ r.element) ||
      (0 < i && !recBefore d.inKind (l.getD (i - 1) {}) r) then some stStruct
  else if r.kind + 1 != d.inKind || r.fmt != fmtCode f || r.accF != accCode d.row.acc || r.len != d.kTotal ||
      !(r.next % d.row.g == 0 || r.next == d.kTotal) then some stStruct
  else if d.inKind == 1 then
    (if d.kStart ≤ r.next && r.next ≤ d.kTotal && (d.outKind != 1 || r.next ≤ d.kEnd) then none else some stStruct)
  else if r.next == 0 || d.kTotal < r.next || !(r.next % 4096 == 0 || r.next == d.kTotal) ||
      d.ownRun ((r.next - 1) / 4096) || !r.accValid then some stStruct
  else none

/-- Element of a block: batch b, rows from r0, columns from c0. -/
def inBlock (d : TDesc) (b r0 c0 e : Nat) : Bool :=
  let i := e % (d.m * d.n) / d.n
  let j := e % d.n
  e / (d.m * d.n) == b && decide (r0 ≤ i ∧ i < r0 + 16 ∧ c0 ≤ j ∧ j < c0 + 16)

/-- Elements of a block that the operation computes. -/
def blockElems (d : TDesc) (b r0 c0 : Nat) : List Nat :=
  ((List.range (min 16 (d.m - r0))).flatMap (fun i => (List.range (min 16 (d.n - c0))).map (fun j =>
    b * d.m * d.n + (r0 + i) * d.n + c0 + j))).filter (fun e => decide (d.firstElem ≤ e))

/-- An element with no record where the kinds require one (R142): it names the element and where its state ends. -/
def missingRec (d : TDesc) (l : List RedRec) (e : Nat) : Option Nat :=
  if d.inKind == 1 && d.kStart != 0 && (recOfElem l e).isNone then some (detail2 e 0)
  else if d.inKind == 2 then
    ((List.range d.allRuns).find? (fun q => !d.ownRun q && (recOfRun l e q).isNone)).map (fun q => detail2 e (q * 4096))
  else none

/-! ## Elements (R105, R108, R110) -/

/-- Folds a run's record into a state, which then ends where the run ends. -/
def foldRun (row : RedRow) (satWide : Bool) (r t : RedRec) : RedRec :=
  redFoldAcc row satWide { r with next := t.next, satSeen := r.satSeen || t.satSeen, fl := flagsOr r.fl t.fl }
    t.accHi t.accLo

/-- The state of element e advanced over its own indices below `upTo`, from index 0 or from its prefix record. -/
def elemState (s : State) (p : Nat) (d : TDesc) (l : List RedRec) (e upTo : Nat) : RedRec :=
  let fresh := redFresh (widerFmt d.fa d.fb) false d.kTotal d.chain e
  if d.inKind == 2 then
    (List.range d.allRuns).foldl (fun r q =>
      let q1 := min ((q + 1) * 4096) d.kTotal
      if d.ownRun q then
        let k1 := min q1 upTo
        if q * 4096 < k1 then redAdvance d.row d.satWide r (elemTerms s p d e (q * 4096) k1) else r
      else if upTo < q1 && upTo < d.kEnd then r
      else match recOfRun l e q with
        | some t => foldRun d.row d.satWide r t
        | none => r) fresh
  else
    let r0 := (recOfElem l e).getD fresh
    let r0 := { r0 with opId := d.chain, element := e }
    if r0.next < upTo then redAdvance d.row d.satWide r0 (elemTerms s p d e r0.next upTo) else r0

/-- The run record of run q of element e (R109). -/
def runRecord (s : State) (p : Nat) (d : TDesc) (e q : Nat) : RedRec :=
  let k0 := q * 4096
  let k1 := min (k0 + 4096) d.kTotal
  let r0 := { redFresh (widerFmt d.fa d.fb) false d.kTotal d.chain e with kind := 1, next := k0 }
  (chunks d.row.g (elemTerms s p d e k0 k1)).foldl (redStep d.row d.satWide) r0

/-- Bits of an output item, and what its rounding raised. -/
def outItem (s : State) (p : Nat) (d : TDesc) (l : List RedRec) (i : Nat) : List Byte × Tally :=
  match d.outKind with
  | 0 =>
    let r := redFinish d.row d.fc .rne d.satWide (elemState s p d l i d.kTotal)
    (bytesOfNat d.itemBytes r.bits, resTally r)
  | 1 => (redBytes (elemState s p d l i d.kEnd), {})
  | _ => (redBytes (runRecord s p d (i / d.spanRuns) (d.kStart / 4096 + i % d.spanRuns)), {})

/-- Right bytes of output parcel q, with a zero tail, and what its elements raised. -/
def outParcel (s : State) (p : Nat) (d : TDesc) (q : Nat) : List Byte × Tally :=
  let l := inRecs s p d
  let r := (List.range (min d.perParcel (d.items - q * d.perParcel))).foldl (fun (a : List (List Byte) × Tally) i =>
    let x := outItem s p d l (q * d.perParcel + i)
    (x.1 :: a.1, tallyAdd a.2 x.2)) ([], {})
  let b := r.1.reverse.flatten
  (b ++ zeroBytes (4096 - b.length), r.2)

/-! ## The inspector's lines (R146) -/

def sampledLines (key : W64) (opId rate q : Nat) : List Nat :=
  let r := 2 ^ min rate 6
  let l0 := franking key (BitVec.ofNat 64 opId) (BitVec.ofNat 64 q) % (64 / r)
  (List.range r).map (fun t => l0 + t * (64 / r))

def linesOf (b : List Byte) (l : List Nat) : List Byte := l.flatMap (fun i => bytesAt b (64 * i) 64)

def runLines (r : TeRun) (d : TDesc) (q : Nat) : List Nat := sampledLines r.key d.opId r.rate q

/-! ## Bands (R141, R147) -/

def TDesc.bandsPer (d : TDesc) : Nat := ceilDiv d.m 16
def TDesc.bandOf (d : TDesc) (e : Nat) : Nat := e / (d.m * d.n) * d.bandsPer + e % (d.m * d.n) / d.n / 16
def TDesc.bands (d : TDesc) : Nat := d.batch * d.bandsPer
/-- Band that completes output parcel q. -/
def TDesc.lastBand (d : TDesc) (q : Nat) : Nat :=
  d.bandOf (d.itemElem (min ((q + 1) * d.perParcel) d.items - 1))

def TDesc.bandBeats (d : TDesc) : Nat := ceilDiv d.n 16 * (ceilDiv d.kCount d.depth + 4)

def State.te (s : State) (p : Nat) : Te := (s.clu p).te
def State.setTe (s : State) (p : Nat) (t : Te) : State := s.setClu p { s.clu p with te := t }
def State.setRun (s : State) (p : Nat) (r : TeRun) : State := s.setTe p { s.te p with run := some r }

/-- Ends the running operation in error; one a program issued has no receipt. -/
def teFail (s : State) (p status detail : Nat) : State :=
  let t := s.te p
  match t.run with
  | none => s
  | some r =>
    let s1 := s.setTe p { t with run := none, susp := none, ops := (t.ops + 1) % 2 ^ 64 }
    let s2 := match logicalOfP s p with | some n => touchIdle s1 n | none => s1
    if r.item.byProg then s2 else opFail s2 r.item.slot status detail

def teDone (s : State) (p : Nat) : State :=
  let t := s.te p
  match t.run with
  | none => s
  | some r =>
    let s1 := s.setTe p { t with run := none, susp := none, ops := (t.ops + 1) % 2 ^ 64 }
    let s1 := noteLast s1 p (tdescOf r.item.desc).opId (streamOf s r.item.slot)
    let s2 := match logicalOfP s p with | some n => touchIdle s1 n | none => s1
    if r.item.byProg then s2 else opDone s2 r.item.slot

/-- Rotations of the other operand's parcels that were checked and meet indices [k0, k1) in the same batch. -/
def metRots (s : State) (p : Nat) (d : TDesc) (o : Operand) (checked : List Nat) (k0 k1 : Nat) : List Nat :=
  if o.sb == 0 then []
  else (operandParcels d o 0 o.rows).filterMap (fun off =>
    let sp := sbSpan d o (sbPlace o off).2
    if checked.contains (off + o.region * 0x400000) && decide (sp.1 < k1 ∧ k0 < sp.1 + sp.2)
    then some (rotOf (storeBytes s p off 16)) else none)

/-- A check that failed: status, detail, and whether it was of a parcel's seal. -/
abbrev Failed := Nat × Nat × Bool

/-- Checks one operand parcel before its first use: its seal, then its scaled-block header (R137, 07 R190). -/
def checkParcel (s : State) (p : Nat) (r : TeRun) (d : TDesc) (o other : Operand) (off : Nat) :
    State × TeRun × Option Failed :=
  let mark := off + o.region * 0x400000
  if r.checked.contains mark then (s, r, none)
  else match parcelRead s (storeKey p off) ⟨1, some r.item.slot⟩ with
    | (s1, .fail st) => (s1, r, some (st, detail2 off (0xFFFFFFF0 + o.region), st == stSeal))
    | (s1, .wait) => (s1, r, none)
    | (s1, .ok b) =>
      let i := (sbPlace o off).2
      let sp := sbSpan d o i
      if o.sb != 0 && !sbHeaderOk d o b i (other.sb == 0) (metRots s1 p d other r.checked sp.1 (sp.1 + sp.2)) then
        (s1, r, some (stStruct, detail2 0xFFFFFF0B off, false))
      else (s1, { r with checked := mark :: r.checked }, none)

def checkParcels (s : State) (p : Nat) (r : TeRun) (d : TDesc) (o other : Operand) (l : List Nat) :
    State × TeRun × Option Failed :=
  match l with
  | [] => (s, r, none)
  | off :: t =>
    match checkParcel s p r d o other off with
    | (s1, r1, none) => checkParcels s1 p r1 d o other t
    | x => x

/-- Parcels of the input-record array, by record index. -/
def recordOperand (d : TDesc) : Operand := ⟨.f32, 0, false, d.inOff, 64, 0, 2⟩

/-- Records a block takes up: those of its elements, and in the first block those of no computed element. -/
def blockRecs (d : TDesc) (l : List RedRec) (b r0 c0 : Nat) (first : Bool) : List Nat :=
  (List.range l.length).filter (fun i =>
    let e := (l.getD i {}).element
    inBlock d b r0 c0 e || (first && decide (e < d.firstElem ∨ d.elems ≤ e)))

/-- Detail of a refused record (04 R112). -/
def inDetail (x : RedRec) : Nat := detail2 x.element x.next

/-- The checks of one block: its parcels of B, then of its records, then the records (R137, R143). -/
def checkBlock (s : State) (p : Nat) (r : TeRun) (d : TDesc) (b r0 c0 : Nat) (first : Bool) :
    State × TeRun × Option Failed :=
  let ob := operandB d b
  match checkParcels s p r d ob (operandA d b) (operandParcels d ob c0 (min (c0 + 16) d.n)) with
  | (s1, r1, none) =>
    let l := inRecs s1 p d
    let is := blockRecs d l b r0 c0 first
    match checkParcels s1 p r1 d (recordOperand d) ob (is.map (fun i => (d.inOff + 64 * i) / 4096 * 4096)) with
    | (s2, r2, none) =>
      match is.findSome? (fun i => (recRefused d l (inRec s2 p d i) i (l.getD i {})).map
          (fun st => (st, inDetail (l.getD i {})))) with
      | some e => (s2, r2, some (e.1, e.2, false))
      | none => match (blockElems d b r0 c0).findSome? (missingRec d l) with
        | some det => (s2, r2, some (stStruct, det, false))
        | none => (s2, r2, none)
    | x => x
  | x => x

def checkBlocks (s : State) (p : Nat) (r : TeRun) (d : TDesc) (b r0 : Nat) (cols : List Nat) (first : Bool) :
    State × TeRun × Option Failed :=
  match cols with
  | [] => (s, r, none)
  | c :: t =>
    match checkBlock s p r d b r0 (16 * c) (first && c == 0) with
    | (s1, r1, none) => checkBlocks s1 p r1 d b r0 t first
    | x => x

/-- A check of an operand, a record or a header failed: the operation ends, and a parcel's seal mismatch is counted
(R137); a record's failing CHECK (04 R112) is none. -/
def operandFail (s : State) (p : Nat) (e : Failed) : State :=
  let t := s.te p
  let s1 := if e.2.2 then s.setTe p { t with sealFails := inc32 t.sealFails } else s
  teFail s1 p e.1 e.2.1

/-- Starts band `r.band`: every check its blocks make, in the array's order; a failure ends the operation.
At a band's first block the spec does not say whether its parcels of A or that block's of B are checked first: all of A
(DESIGN CHOICE, log 101). -/
def startBand (s : State) (p : Nat) : State :=
  match (s.te p).run with
  | none => s
  | some r =>
    let d := tdescOf r.item.desc
    if d.bands ≤ r.band then s
    else
      let b := r.band / d.bandsPer
      let r0 := r.band % d.bandsPer * 16
      let oa := operandA d b
      let x := match checkParcels s p r d oa (operandB d b) (operandParcels d oa r0 (min (r0 + 16) d.m)) with
        | (s1, r1, none) =>
          checkBlocks s1 p r1 d b r0 (List.range (ceilDiv d.n 16)) (r.band == d.bandOf d.firstElem)
        | y => y
      match x with
      | (s1, r1, none) => s1.setRun p r1
      | (s1, _, some e) => operandFail s1 p e

/-! ## Commits (R139, R148, 02 R53) -/

/-- The bytes the array formed and the inspector's lines of output parcel q. -/
def formedParcel (r : TeRun) (d : TDesc) (q : Nat) (right : List Byte) : List Byte × List Byte :=
  match r.bad.find? (fun x => x.parcel == q) with
  | some x =>
    (if x.orig.length == 4096 then x.orig else right,
     if x.lines.isEmpty then linesOf right (runLines r d q) else x.lines)
  | none => (right, linesOf right (runLines r d q))

/-- Clusters that may recompute for logical cluster n, in the order of 19 R483. -/
def eligibleFor (s : State) (n : Nat) : List Nat :=
  let t := n / 256
  let own := (List.range 255).map (fun i => t * 256 + (n % 256 + 1 + i) % 256)
  let rest := (List.range 7).flatMap (fun j => (List.range 256).map (fun i => (t + 1 + j) % 8 * 256 + i))
  (own ++ rest).filter (fun m => !isDead s m && !isAsleep s m && !isStopped s m &&
    (s.clu (physOfN s m)).chk.state = .normal)

/-- Holds output parcel q (R148, 19 R483, R487). -/
def holdParcel (s : State) (p : Nat) (r : TeRun) (q : Nat) (formed lines : List Byte) (parity : Bool) : State :=
  let l := match logicalOfP s p with | some n => eligibleFor s n | none => []
  let h : Hold := { parcel := q, orig := formed, lines := lines, recompute := l[0]?, recheck := l[1]?, parity := parity }
  let t := s.te p
  let s1 := s.setTe p { t with
    run := some { r with hold := some h }, disagree := if parity then t.disagree else inc32 t.disagree }
  { s1 with chk := { s1.chk with disagree := inc32 s1.chk.disagree } }

/-- What follows the delivery of output parcel q: its counts are posted, or a clash or failure ends the operation. -/
def releaseEnd (p : Nat) (r : TeRun) (d : TDesc) (q : Nat) (t : Tally) (x : State × Put) : State :=
  match x with
  | (s1, .double k) => teFail s1 p stDouble (detail2 (opIdOf s1 k) q)
  | (s1, .fail st) => teFail s1 p st (detail2 (d.outOff + q * 4096) 0)
  | (s1, .wait) => s1
  | (s1, .ok) =>
    let e := s1.te p
    let s2 := s1.setTe p { e with arith := arithPost e.arith t, run := some { r with next := q + 1, hold := none } }
    if r.item.byProg then s2
    else opTally (opCount s2 r.item.slot (q + 1 - d.pFirst)) r.item.slot t (some q)

/-- Delivers the bytes of output parcel q and posts what its elements raised; ends the operation on a clash. -/
def releaseParcel (s : State) (p : Nat) (r : TeRun) (d : TDesc) (q : Nat) (bytes : List Byte) (t : Tally) : State :=
  releaseEnd p r d q t
    (deliver s (.te p) r.item.slot (storeKey p (d.outOff + q * 4096)) 0 bytes ⟨1, some r.item.slot⟩)

/-- The running operation has passed parcel q. -/
def passedParcel (s : State) (p q : Nat) : Bool := (s.te p).run.any (fun r => r.next != q)

/-- The operation's next parcel, whole: its right bytes are released where the array formed the same, and it is held for
inspection where its lines differ or a parity error touched it. -/
def commitNext (s : State) (p : Nat) (r : TeRun) (d : TDesc) : State :=
  let right := outParcel s p d r.next
  let f := formedParcel r d r.next right.1
  if r.parity.contains r.next then holdParcel s p r r.next f.1 f.2 true
  else if d.outKind == 0 && linesOf f.1 (runLines r d r.next) != f.2 then holdParcel s p r r.next f.1 f.2 false
  else releaseParcel s p r d r.next f.1 right.2

/-- Commits every whole parcel in ascending order, stopping at one whose lines differ; the last one ends the
operation. -/
def commitWhole (fuel : Nat) (s : State) (p : Nat) (whole : Nat → Bool) : State :=
  match fuel with
  | 0 => s
  | k + 1 =>
    match (s.te p).run with
    | none => s
    | some r =>
      let d := tdescOf r.item.desc
      if (s.te p).susp.isSome then s
      else if d.outParcels ≤ r.next then teDone s p
      else if r.hold.isSome || !whole r.next then s
      else
        let s1 := commitNext s p r d
        if passedParcel s1 p r.next then commitWhole k s1 p whole else s1

/-- Commits what the finished bands made whole. -/
def commitBands (s : State) (p : Nat) : State :=
  match (s.te p).run with
  | none => s
  | some r =>
    let d := tdescOf r.item.desc
    commitWhole (d.outParcels + 2) s p (fun q => decide (d.lastBand q < r.band))

/-! ## Acceptance and start (R133 to R135) -/

/-- The logical row of n is being moved (01 R40). -/
def rowMoving (s : State) (n : Nat) : Bool :=
  (s.tile (tileOfN n)).swapResult == 1 && (s.tile (tileOfN n)).swapMoving == rowOfN n

/-- Whether work queued for a cluster may start (18 R472, 19 R490). -/
def mayStart (s : State) (n : Nat) : Bool :=
  !isDead s n && !isAsleep s n && !isStopped s n && (s.clu (physOfN s n)).chk.state = .normal &&
  !rowMoving s n
/-- Puts an accepted descriptor in an engine's queue. -/
def teQueue (s : State) (p : Nat) (i : TeItem) : State :=
  let t := s.te p
  s.setTe p { t with queue := t.queue ++ [i] }

def teRoom (s : State) (p : Nat) : Bool := (s.te p).queue.length < 8

/-- The engine's own sequencer among its requesters. -/
def ownSeq : Nat := 2 ^ 32

/-- A requester of an engine still waits. -/
def teStill (s : State) (p k : Nat) : Bool := if k == ownSeq then (s.seq p).wait == .issue else slotWaits s k

/-- Whether the engine accepts a requester's descriptor: there is room, and no other was turned away before it (R134,
02 R51). -/
def teGrants (s : State) (p k : Nat) : Bool := teRoom s p && inTurn (teStill s p) (s.te p).waiters k

/-- A requester waits its turn. -/
def teAway (s : State) (p k : Nat) : State :=
  let t := s.te p
  s.setTe p { t with waiters := addTurn (teStill s p) t.waiters k }

/-- Accepts the tensor descriptor of an operation issued to logical cluster n. -/
def execTensorDescriptor (slot : Slot) (s : State) : Result :=
  .next (
    match s.op slot with
    | none => s
    | some o =>
      let n := o.target
      if o.kind != 1 || o.place ≠ .atIssuer then s
      else if isDead s n then opFail s slot stDead 0
      else if isAsleep s n then opFail s slot stNotReady 0
      else if !teGrants s (physOfN s n) slot then teAway s (physOfN s n) slot
      else match tdMalformed o.payload with
        | some e => opMalformed (touchIdle s n) slot e.2 e.1
        | none => opPlace (teQueue (touchIdle s n) (physOfN s n) ⟨slot, false, o.payload⟩) slot .queued)

/-- Beats that a mapped cluster completed, for its tile's count (02 R47). -/
def addBeats (s : State) (n beats : Nat) : State :=
  let x := s.tile (tileOfN n)
  s.setTile (tileOfN n) { x with beatsDone := x.beatsDone + beats }

/-- The next queued descriptor of logical cluster n begins to read its operands (R134). -/
def execGemmStart (n : LClu) (s : State) : Result :=
  .next (
    let p := physOfN s n
    let t := s.te p
    match t.run, t.queue with
    | none, i :: rest =>
      if !mayStart s n then s
      else
        let d := tdescOf i.desc
        let beats := 96 + ceilDiv d.inCount 16
        let r : TeRun := { item := i, key := t.key, rate := t.rateLog2, band := d.bandOf d.firstElem, next := d.pFirst }
        let s1 := s.setTe p { t with
          queue := rest, run := some r, curOp := d.opId, beats := (t.beats + beats) % 2 ^ 64 }
        let s1 := addBeats s1 n beats
        startBand (if i.byProg then s1 else opStart s1 i.slot) p
    | _, _ => s)

/-- Array and inspector finished a band: its parcels commit and the next band starts (R147). -/
def execTeBandDone (n : LClu) (bad : List BadResult) (s : State) : Result :=
  .next (
    let p := physOfN s n
    match (s.te p).run with
    | none => s
    | some r =>
      let d := tdescOf r.item.desc
      if (s.te p).susp.isSome then s
      else if d.bands ≤ r.band then commitBands s p
      else
        let t := s.te p
        let s1 := s.setTe p { t with
          beats := (t.beats + d.bandBeats) % 2 ^ 64, run := some { r with band := r.band + 1, bad := r.bad ++ bad } }
        startBand (commitBands (addBeats s1 n d.bandBeats) p) p)

/-! ## Suspension and abort (R144, 04 R113 to R116) -/

/-- Where the array stands in its band when it is stopped: the block in flight and the boundary its elements have
reached, which timing decides; a boundary at the span's end lets the block finish (R558). -/
def stopPlace (d : TDesc) (v : Nat) : Nat × Nat :=
  let blocks := ceilDiv d.n 16
  let groups := ceilDiv d.kCount d.row.g
  let x := v / blocks % groups + 1
  (if blocks == 0 then 0 else v % blocks,
   if groups == 0 then d.kEnd else min (d.kStart + x * d.row.g) d.kEnd)

/-- Whether element e is complete when the array stops at a block of a band. -/
def elemComplete (d : TDesc) (band block : Nat) (blockDone : Bool) (e : Nat) : Bool :=
  let g := d.bandOf e
  let c := e % d.n / 16
  decide (g < band) || (g == band && (decide (c < block) || (blockDone && c == block)))

/-- Whether every element of output parcel q is complete. -/
def parcelComplete (d : TDesc) (done : Nat → Bool) (q : Nat) : Bool :=
  (List.range (min d.perParcel (d.items - q * d.perParcel))).all (fun i => done (d.itemElem (q * d.perParcel + i)))

/-- The prefix records of a suspension, sorted by element (R144). -/
def suspendRecords (s : State) (p : Nat) (r : TeRun) (d : TDesc) (block upTo : Nat) : List (List Byte) :=
  if d.outKind == 2 && d.kStart != 0 then []
  else
    let l := inRecs s p d
    (blockElems d (r.band / d.bandsPer) (r.band % d.bandsPer * 16) (16 * block)).map (fun e =>
      redBytes (elemState s p d l e upTo))

/-- Writes one record with the rights of the tile sequencer, in its turn behind a read lock and with the answer of a
remote chip (R116, 05 R138). -/
def writeRecord (s : State) (p : Nat) (tags : List Nat) (a : W64) (b : List Byte) : State × List Nat × Rd :=
  match writePlace s (16 + tileOfP p) (some p) a false with
  | (s1, .mem k) =>
    if readLocked s1 (.te p) k then (s1, tags, .wait)
    else match parcelMerge s1 (k - k % 4096) (k % 4096) b ⟨1, none⟩ with
      | (s2, none) => (s2, tags, .ok [])
      | (s2, some st) => (s2, tags, .fail st)
  | (s1, .regs _) => (s1, tags, .fail stBus)
  | (s1, .bad st) => (s1, tags, .fail st)
  | (s1, .remote c o) => remoteWrite s1 tags (16 + tileOfP p) c o b

def setSuspend (s : State) (p phase records : Nat) : State :=
  let t := s.te p
  s.setTe p { t with redPhase := phase, redRecords := records }

def setSusp (s : State) (p : Nat) (u : Susp) : State := s.setTe p { s.te p with susp := some u }

/-- The end of a suspension whose records are all written, or one of which failed: the operation ends (R116). -/
def suspendEnd (s : State) (p : Nat) (u : Susp) (f : Option Nat) : State :=
  teFail (setSuspend (reqDrop s u.tags) p (if f.isSome then 3 else 2) u.n) p stReset (f.getD 0)

/-- Writes the records of a suspension at consecutive addresses, until one fails or must wait. -/
def suspendGo (fuel : Nat) (s : State) (p : Nat) : State :=
  match fuel with
  | 0 => s
  | k + 1 =>
    match (s.te p).susp with
    | none => s
    | some u =>
      match u.recs with
      | [] => suspendEnd s p u none
      | b :: rest =>
        match writeRecord s p u.tags u.addr b with
        | (s1, tags, .ok _) =>
          suspendGo k (setSusp s1 p { recs := rest, addr := u.addr + 64, n := u.n + 1, tags := tags }) p
        | (s1, tags, .fail st) => suspendEnd s1 p { u with tags := tags } (some st)
        | (s1, tags, .wait) => setSusp s1 p { u with tags := tags }

/-- A suspension begins: nothing of the operation goes on, and its records are written. -/
def suspendBegin (s : State) (p : Nat) (r : TeRun) (recs : List (List Byte)) : State :=
  let t := s.te p
  suspendGo (recs.length + 1) (s.setTe p { t with
    run := some { r with hold := none }, redPhase := 1, redRecords := 0,
    susp := some { recs := recs, addr := t.redSave } }) p

/-- Stops the running operation: what is whole commits, and with `save` the block in flight leaves its records.
An operation whose last parcel commits ends DONE. -/
def stopTensor (s : State) (p : Nat) (save : Bool) : State :=
  match (s.te p).susp, (s.te p).run with
  | some _, _ => s
  | none, none => s
  | none, some r =>
    let d := tdescOf r.item.desc
    let f := s.takeFree
    let place := stopPlace d f.1.toNat
    let blockDone := decide (d.kEnd ≤ place.2)
    let midBand := decide (r.band < d.bands)
    let done := elemComplete d r.band place.1 blockDone
    let s1 := commitWhole (d.outParcels + 2) f.2 p (fun q =>
      if midBand then parcelComplete d done q else decide (d.lastBand q < r.band))
    match (s1.te p).run with
    | none => if save then setSuspend s1 p 2 0 else s1
    | some r1 =>
      if save && midBand && !blockDone then suspendBegin s1 p r1 (suspendRecords s1 p r1 d place.1 place.2)
      else
        let s2 := if save then setSuspend s1 p 2 0 else s1
        teFail s2 p stReset 0

/-- A write of SUSPEND in CLU_RED_CTRL. -/
def actSuspend (s : State) (p : Nat) : State :=
  let t := s.te p
  if t.redSave.toNat % 64 != 0 || t.redPhase == 1 || t.susp.isSome then s.setTe p { t with redPhase := 3 }
  else if t.run.isNone then setSuspend s p 2 0
  else stopTensor s p true

def execSuspend (p : PClu) (m : Master) (s : State) : Result :=
  .next (gated s m.toNat (cluBase p + 0x1C0) (fun s => actSuspend s p))

/-- A write of ABORT in CLU_TE_CTRL. -/
def actTeAbort (s : State) (p : Nat) : State := stopTensor s p false

def execTeAbort (p : PClu) (m : Master) (s : State) : Result :=
  .next (gated s m.toNat (cluBase p + 0x200) (fun s => actTeAbort s p))

/-- The suspension a quiesce makes: with an unaligned save area the operation is aborted (R116). -/
def quiesceTensor (s : State) (p : Nat) : State :=
  if (s.te p).susp.isSome then s
  else if (s.te p).redSave.toNat % 64 != 0 then setSuspend (stopTensor s p false) p 3 0
  else if (s.te p).run.isNone then setSuspend s p 2 0
  else stopTensor s p true

/-- What waited in a tensor engine is tried again: the records of a suspension, or the commit of a whole parcel behind a
read lock (05 R138, R139). -/
def retryTe (s : State) (p : Nat) : State :=
  match (s.te p).susp with
  | some u => suspendGo (u.recs.length + 1) s p
  | none => commitBands s p

/-! ## The window base (04 R126) -/

/-- A write of BASE in CLU_WA_BASE. -/
def actWaBase (s : State) (p v : Nat) : State :=
  let c := s.clu p
  s.setClu p { c with win := { c.win with pending := some (signedOf 16 v) } }

def execWaBaseWrite (p : PClu) (m : Master) (v : W32) (s : State) : Result :=
  .next (gated s m.toNat (cluBase p + 0x180) (fun s => actWaBase s p v.toNat))

/-! ## TEISSUE and TEWAIT (06 R155) -/

def setWait (s : State) (p : Nat) (w : SeqWait) : State := s.setSeq p { s.seq p with wait := w }

/-- A read of the cluster's own store by its sequencer: each parcel whole, with its seal checked. -/
def ownRead (s : State) (p off len slot : Nat) : State × Rd :=
  if 0x400000 < off + len then (s, .fail stBus)
  else match parcelRead s (storeKey p (off - off % 4096)) ⟨4, some slot⟩ with
    | (s1, .ok a) =>
      if off % 4096 + len ≤ 4096 then (s1, .ok (bytesAt a (off % 4096) len))
      else match parcelRead s1 (storeKey p (off - off % 4096 + 4096)) ⟨4, some slot⟩ with
        | (s2, .ok b) => (s2, .ok (bytesAt (a ++ b) (off % 4096) len))
        | x => x
    | x => x

/-- Records a fault with no element index and ends the program (06 R178, R179). -/
def scalarFault (s : State) (p status addr : Nat) (write : Bool) : State :=
  let q := s.seq p
  endProgram (s.setSeq p { q with
    faultIndex := 0x7FF, faultValid := true, faultDir := write, faultCause := status,
    faultAddr := BitVec.ofNat 64 addr }) p stVector
    (detail2 (0xFFFF + status * 2 ^ 16 + boolNat write * 2 ^ 24) addr)

/-- TEISSUE: the descriptor at an offset of the own store is accepted as R134 states; the sequencer waits for room.
A malformed one has no receipt to fail. -/
def teIssue (s : State) (p : Nat) (g : Prog) (off : Nat) : State :=
  if !teGrants s p ownSeq then setWait (teAway s p ownSeq) p .issue
  else match ownRead s p off 64 g.slot with
    | (s1, .ok b) =>
      retire (if (tdMalformed b).isSome then s1 else teQueue s1 p ⟨g.slot, true, b⟩) p
    | (s1, .fail st) => scalarFault s1 p st off false
    | (s1, .wait) => s1

def execTeissue (p : PClu) (sa : BitVec 5) (s : State) : Result :=
  .next (issue s p (sysBits false true false) (encSys 5 0 sa.toNat 0) (fun g s1 =>
    teIssue s1 p g ((s1.seq p).s sa.toNat).toNat))

/-- TEWAIT: until the engine is idle with none queued. -/
def teWait (s : State) (p : Nat) : State :=
  if (s.te p).run.isNone && (s.te p).queue.isEmpty then retire s p else setWait s p .tensor

def execTewait (p : PClu) (s : State) : Result :=
  .next (issue s p (sysBits false false false) (encSys 6 0 0 0) (fun _ s1 => teWait s1 p))

end Sys2Proof.Machine
end

