-- ==== Sys2Proof/Machine/SolveReq.lean ====
section
/-! DEFINITION. Solve requests, system tables and extension blocks, the regions they name, and their malformation
rules (spec/08 R207, R211 to R214, R217, R228; spec/09 R236 to R239, R257). -/

namespace Sys2Proof.Machine

/-! ## The request, the system table and the extension block -/

/-- Fields of a solve request (08 R211, 09 R236). -/
structure SReq where
  opId : Nat
  group : Nat
  method : Nat
  flags : Nat
  ffmt : Nat
  headroom : Nat
  refineCap : Nat
  nrhs : Nat
  deadline : Nat
  system : Nat
  store : Nat
  rhs : Nat
  x : Nat
  factor : Nat
  tol : Nat
  iterCap : Nat
  state : Nat
  tau : Nat
  ext : Nat
  pcBlock : Nat
  restart : Nat
  opts : Nat
  deriving DecidableEq, Repr

def sreqOf (b : List Byte) : SReq :=
  { opId := leAt b 0 4, group := leAt b 4 2, method := leAt b 6 1, flags := leAt b 7 1, ffmt := leAt b 8 1,
    headroom := leAt b 9 1, refineCap := leAt b 10 2, nrhs := leAt b 12 4, deadline := leAt b 16 8,
    system := leAt b 24 8, store := leAt b 32 8, rhs := leAt b 40 8, x := leAt b 48 8, factor := leAt b 56 8,
    tol := leAt b 64 8, iterCap := leAt b 72 4, state := leAt b 80 8, tau := leAt b 88 8, ext := leAt b 96 8,
    pcBlock := leAt b 104 2, restart := leAt b 106 1, opts := leAt b 107 1 }

def SReq.adjoint (r : SReq) : Bool := r.flags.testBit 7
def SReq.tangent (r : SReq) : Bool := r.flags.testBit 6
def SReq.warmAny (r : SReq) : Bool := r.flags.testBit 5
def SReq.fixed (r : SReq) : Bool := r.flags.testBit 4
def SReq.reuseFactor (r : SReq) : Bool := r.flags.testBit 3
def SReq.reuseStore (r : SReq) : Bool := r.flags.testBit 2
def SReq.warm (r : SReq) : Bool := r.opts.testBit 0
def SReq.pcReuse (r : SReq) : Bool := r.opts.testBit 1
def SReq.direct (r : SReq) : Bool := [1, 2, 3].contains r.method
def SReq.krylov (r : SReq) : Bool := [0x10, 0x11, 0x12].contains r.method
def SReq.iterative (r : SReq) : Bool := [0x10, 0x11, 0x12, 0x20, 0x21].contains r.method
def SReq.gn (r : SReq) : Bool := r.method == 0x21
def SReq.qp (r : SReq) : Bool := r.method == 0x20
def SReq.derivative (r : SReq) : Bool := r.adjoint || r.tangent
def SReq.needsExt (r : SReq) : Bool := r.derivative || r.qp || r.gn
/-- The solve writes STORE, or a factor, or a solver state. -/
def SReq.assembles (r : SReq) : Bool := !r.gn && !r.reuseStore
def SReq.factors (r : SReq) : Bool := r.direct && !r.reuseFactor

/-- Fields of a system table (08 R213). -/
structure STab where
  kind : Nat
  coefFmt : Nat
  u : Nat
  options : Nat
  points : Nat
  coef : Nat
  dim0 : Nat
  dim1 : Nat
  dim2 : Nat
  conn : Nat
  meas : Nat
  measCount : Nat
  offs : List (Int × Int × Int)
  deriving DecidableEq, Repr

def stabOf (b : List Byte) : STab :=
  { kind := leAt b 0 1, coefFmt := leAt b 1 1, u := leAt b 2 1, options := leAt b 3 1, points := leAt b 4 1,
    coef := leAt b 8 8, dim0 := leAt b 16 4, dim1 := leAt b 20 4, dim2 := leAt b 24 4, conn := leAt b 32 8,
    meas := leAt b 40 8, measCount := leAt b 48 4,
    offs := (List.range (leAt b 4 1)).map (fun p =>
      (signedOf 8 (leAt b (56 + 3 * p) 1), signedOf 8 (leAt b (57 + 3 * p) 1), signedOf 8 (leAt b (58 + 3 * p) 1))) }

def STab.conservative (t : STab) : Bool := t.options.testBit 0
def STab.periodic (t : STab) (axis : Nat) : Bool := t.options.testBit (1 + axis)
def STab.dim (t : STab) (axis : Nat) : Nat := if axis == 0 then t.dim0 else if axis == 1 then t.dim1 else t.dim2
def STab.cells (t : STab) : Nat := t.dim0 * t.dim1 * t.dim2

/-- Order of the system, where the table alone gives it (R214). -/
def STab.order (t : STab) : Option Nat :=
  match t.kind with
  | 0 => some t.dim0
  | 1 => some (t.cells * t.u)
  | 2 => some (t.dim1 * t.u)
  | _ => none

/-- Coordinate of the neighbour along an axis; none where it falls outside and the axis is not periodic (R214). -/
def STab.shift (t : STab) (axis v : Nat) (d : Int) : Option Nat :=
  let size : Int := t.dim axis
  let w : Int := v + d
  if t.periodic axis then some (w % size).toNat
  else if 0 ≤ w && w < size then some w.toNat else none

/-- The cell a stencil offset reaches (R214). -/
def STab.neighbour (t : STab) (cell : Nat) (o : Int × Int × Int) : Option Nat :=
  match t.shift 0 (cell % t.dim0) o.1, t.shift 1 (cell / t.dim0 % t.dim1) o.2.1,
      t.shift 2 (cell / (t.dim0 * t.dim1)) o.2.2 with
  | some x, some y, some z => some (x + t.dim0 * (y + t.dim1 * z))
  | _, _, _ => none

/-- Cells along an axis whose neighbour at offset d exists. -/
def STab.span (t : STab) (axis : Nat) (d : Int) : Nat :=
  if t.periodic axis then t.dim axis else t.dim axis - d.natAbs

/-- Stored blocks, where the table alone gives them (R218). -/
def STab.blocks (t : STab) : Option Nat :=
  match t.kind with
  | 0 => some (t.dim0 * t.dim0)
  | 1 => some ((t.offs.map (fun o => t.span 0 o.1 * t.span 1 o.2.1 * t.span 2 o.2.2)).sum)
  | _ => none

/-- Coefficients that COEF holds, for the first three kinds (R214). -/
def STab.coefs (t : STab) : Nat :=
  match t.kind with
  | 0 => t.dim0 * t.dim0
  | 1 => t.cells * t.points * t.u * t.u
  | _ => t.dim0 * (t.points * t.u) * (t.points * t.u)

/-- Fields of an extension block (09 R238). -/
structure SExt where
  fwdX : Nat
  gcoef : Nat
  dcoef : Nat
  drhs : Nat
  gradFmt : Nat
  lower : Nat
  upper : Nat
  active : Nat
  jac : Nat
  fres : Nat
  x0 : Nat
  m : Nat
  program : Nat
  progCluster : Nat
  deriving DecidableEq, Repr

def sextOf (b : List Byte) : SExt :=
  { fwdX := leAt b 0 8, gcoef := leAt b 8 8, dcoef := leAt b 16 8, drhs := leAt b 24 8, gradFmt := leAt b 32 1,
    lower := leAt b 40 8, upper := leAt b 48 8, active := leAt b 56 8, jac := leAt b 64 8, fres := leAt b 72 8,
    x0 := leAt b 80 8, m := leAt b 88 4, program := leAt b 92 4, progCluster := leAt b 96 4 }

/-- Order of a Gauss–Newton problem, which no field of the request gives: free within the 131,072 that N ≤ M ≤ 131,072
leaves (09 R238; DESIGN CHOICE, log 40). -/
def gnOrder (req ext : List Byte) : Nat := 1 + Config.gnOrder req ext % 131072

/-! ## Layouts -/

/-- Offsets of the regions of an assembled-system store and its whole size (08 R217). -/
structure StoreMap where
  rowptr : Nat
  colidx : Nat
  blocks : Nat
  rhs : Nat
  size : Nat
  deriving DecidableEq, Repr

def storeMap (dense : Bool) (n u nnzb nrhs : Nat) : StoreMap :=
  let rp := if dense then 0 else roundUp ((n / u + 1) * 4) 4096
  let ci := if dense then 0 else roundUp (nnzb * 4) 4096
  let bl := roundUp ((if dense then n * n else nnzb * u * u) * 8) 4096
  let rh := roundUp (n * nrhs * 8) 4096
  { rowptr := 4096, colidx := 4096 + rp, blocks := 4096 + rp + ci, rhs := 4096 + rp + ci + bl,
    size := 4096 + rp + ci + bl + rh }

/-- Working format of a FACTOR_FMT code, its bytes, and the factor format (08 R223). -/
def factorFmt (code : Nat) : Fmt := fmtOr (code % 16)
def workFmt (code : Nat) : Fmt := if code % 16 ≤ 1 then .f64 else .f32
def workBytes (code : Nat) : Nat := fmtBits (workFmt code) / 8

/-- Offsets of the regions of a factor slot of m × n, and SLOT_BYTES (08 R228). -/
structure SlotMap where
  col : Nat
  perm : Nat
  tau : Nat
  mat : Nat
  size : Nat
  deriving DecidableEq, Repr

def slotMap (m n w : Nat) : SlotMap :=
  let a := roundUp (8 * m) 4096
  let b := roundUp (8 * n) 4096
  let c := roundUp (4 * m) 4096
  let d := roundUp (w * n) 4096
  { col := a, perm := a + b, tau := a + b + c, mat := a + b + c + d, size := a + b + c + d + roundUp (w * m * n) 4096 }

/-- Base of a factor-store slot (08 R228). -/
def slotBase (factor k n w : Nat) : Nat := factor + 4096 + k * (slotMap n n w).size

/-- First unknowns and sizes of the block-Jacobi blocks (09 R241). -/
def pcBlocks (n b : Nat) : List (Nat × Nat) :=
  if b == 0 then [] else (List.range (ceilDiv n b)).map (fun i => (i * b, min b (n - i * b)))

/-- Offsets of ITERATE, PCF and WORK in a solver state, and its size (09 R257). -/
structure StateMap where
  iterate : Nat
  pcf : Nat
  work : Nat
  size : Nat
  deriving DecidableEq, Repr

def workValues (r : SReq) (n m : Nat) : Nat :=
  match r.method with
  | 0x10 => 5 * n
  | 0x11 => 9 * n
  | 0x12 => (2 * r.restart + 3) * n + r.restart * r.restart + 5 * r.restart + 1
  | 0x20 => 6 * n
  | _ => 3 * n + 2 * m

def stateMap (r : SReq) (n m : Nat) : StateMap :=
  let w := workBytes r.ffmt
  let it := roundUp (n * r.nrhs * 8) 4096
  let pc := if r.gn then (slotMap m n w).size
            else ((pcBlocks n r.pcBlock).map (fun b => (slotMap b.2 b.2 w).size)).sum
  { iterate := 4096, pcf := 4096 + it, work := 4096 + it + pc,
    size := 4096 + it + pc + roundUp (workValues r n m * r.nrhs * 8) 4096 }

/-! ## Malformation (08 R212, 09 R239) -/

/-- An address and a byte count as 0x3 or 0xB sees them. -/
def badRegion (a n : Nat) : Bool := a % 4096 != 0 || decide (hbmEnd < a + n)

/-- Ranges and reserved bits of the request (reasons 0x0, 0x2, 0x5, 0x8, 0x9, 0xA). -/
def reqFaults (b : List Byte) (now : Nat) : List (Nat × Nat) :=
  let r := sreqOf b
  let known := r.method ≤ 3 || r.iterative
  broken (256 ≤ r.group) 0 [4] ++ broken (!known) 0 [6] ++ broken (r.flags % 4 != 0) 0 [7] ++
  broken (4 ≤ r.ffmt) 0 [8] ++ broken (leAt b 76 4 != 0) 0 [76] ++ broken (leAt b 108 4 != 0) 0 [108] ++
  broken (leAt b 112 16 != 0) 0 [112] ++ broken (r.iterative && 4 ≤ r.opts) 0 [107] ++
  broken (63 < r.headroom) 2 [9] ++ broken (4096 < r.refineCap) 2 [10] ++
  broken (r.nrhs == 0 || 64 < r.nrhs) 2 [12] ++
  broken (!r.fixed && r.refineCap != 0 && !(f64IsFinite r.tol && f64Lt 0 r.tol)) 5 [7, 10, 64] ++
  broken (!f64IsFinite r.tau || f64Lt r.tau 0) 5 [88] ++
  broken (decide (now + 10000000000 < r.deadline)) 8 [16] ++
  (if !known then []
   else if r.iterative then
    broken (r.refineCap != 0 && !r.gn) 9 [10] ++ broken ((r.qp || r.gn) && r.nrhs != 1) 9 [12] ++
    broken (r.gn && r.system != 0) 9 [24] ++ broken (r.gn && r.store != 0) 9 [32] ++
    broken (r.factor != 0) 9 [56] ++ broken (r.iterCap == 0 || 16777216 ≤ r.iterCap) 9 [72] ++
    broken (r.state == 0) 9 [80] ++
    broken (if r.gn then r.pcBlock != 0 else 256 < r.pcBlock) 9 [104] ++
    broken (if r.method == 0x12 then r.restart == 0 || 128 < r.restart else r.restart != 0) 9 [106]
  else
    broken r.warmAny 9 [7] ++ broken (r.iterCap != 0) 9 [72] ++ broken (r.state != 0) 9 [80] ++
    broken (r.pcBlock != 0) 9 [104] ++ broken (r.restart != 0) 9 [106] ++ broken (r.opts != 0) 9 [107]) ++
  broken (!r.needsExt && r.ext != 0) 9 [96] ++
  broken ((r.adjoint && r.tangent) || (r.derivative && !r.reuseStore)) 10 [7] ++
  broken (r.derivative && (r.method == 0 || r.gn || (r.direct && !r.reuseFactor))) 10 [6, 7] ++
  broken (r.needsExt && (r.ext == 0 || badRegion r.ext 256)) 11 [96]

/-- Regions of the request of an N × N system; `blocks` where known (reason 0x3). -/
def reqRegions (r : SReq) (n : Nat) (store : Option StoreMap) (m : Nat) : List (Nat × Nat) :=
  let size : Nat := n * r.nrhs * 8
  broken (badRegion r.system (if r.gn then 0 else 256)) 3 [24] ++
  broken (badRegion r.store (match store with | some x => x.size | none => if r.gn then 0 else 4096)) 3 [32] ++
  broken (badRegion r.rhs (if r.gn then 0 else size)) 3 [40] ++
  broken (badRegion r.x (if r.method == 0 then 0 else size)) 3 [48] ++
  broken (badRegion r.factor
    (if r.direct then 4096 + 2 * (slotMap n n (workBytes r.ffmt)).size else 0)) 3 [56] ++
  broken (badRegion r.state (if r.iterative then (stateMap r n m).size else 0)) 3 [80]

/-- The system table's own rules (reasons 0x0, 0x2, 0x3, 0x4). -/
def tabFaults (b : List Byte) (method : Nat) : List (Nat × Nat) :=
  let t := stabOf b
  let c : Nat := fmtBits (fmtOr (t.coefFmt % 16)) / 8
  let zero := t.offs.filter (fun o => o == (0, 0, 0))
  let wrap (o : Int × Int × Int) : Int × Int × Int :=
    let f (axis : Nat) (d : Int) : Int := if t.periodic axis && t.dim axis != 0 then d % (t.dim axis) else d
    (f 0 o.1, f 1 o.2.1, f 2 o.2.2)
  broken (3 < t.kind) 0 [0x100] ++ broken (4 ≤ t.coefFmt) 0 [0x101] ++ broken (16 ≤ t.options) 0 [0x103] ++
  broken (leAt b 5 3 != 0) 0 [0x105] ++ broken (leAt b 28 4 != 0) 0 [0x11C] ++ broken (leAt b 52 4 != 0) 0 [0x134] ++
  broken (leAt b 137 119 != 0) 0 [0x189] ++
  broken (t.u == 0 || 16 < t.u || (t.kind == 0 && t.u != 1)) 2 [0x102] ++
  broken (2 ^ 24 < t.measCount) 2 [0x130] ++
  broken (badRegion t.meas (32 * t.measCount)) 3 [0x128] ++
  (if 3 < t.kind then []
   else
    broken (if t.kind == 1 then t.points == 0 || 27 < t.points
            else if t.kind == 2 then t.points == 0 || 8 < t.points else t.points != 0) 2 [0x104] ++
    broken ((t.kind == 0 || t.kind == 3) && t.dim1 != 0) 2 [0x114] ++
    broken (t.kind != 1 && t.dim2 != 0) 2 [0x118] ++
    broken (badRegion t.coef (if t.kind == 3 then 4096 else t.coefs * c)) 3 [0x108] ++
    broken (badRegion t.conn (if t.kind == 2 then t.dim0 * t.points * 4 else 0)) 3 [0x120] ++
    (match t.order with
     | some n =>
       let f : List Nat := if t.kind == 0 then [0x110]
                           else if t.kind == 1 then [0x102, 0x110, 0x114, 0x118] else [0x102, 0x114]
       broken (1 ≤ method && method ≤ 3 && 131072 < n) 2 (6 :: f) ++
       broken (if t.kind == 0 then 131072 < n else decide (2 ^ 32 < n)) 4 f
     | none => []) ++
    (if t.kind == 1 && t.points ≤ 27 then
      broken (t.offs.any (fun o => 3 < o.1.natAbs || 3 < o.2.1.natAbs || 3 < o.2.2.natAbs)) 2 [0x138] ++
      broken (zero.length != 1 || t.offs.eraseDups.length != t.offs.length) 4 [0x104, 0x138] ++
      broken (t.offs.eraseDups.length == t.offs.length &&
        (t.offs.map wrap).eraseDups.length != t.offs.length) 4 [0x103, 0x110, 0x114, 0x118, 0x138]
    else []))

/-- Coefficients of a table, and the bytes they take, where the table alone gives them. -/
def tabCoefs (t : STab) : Nat := if t.kind == 3 then 0 else t.coefs
def tabCoefBytes (t : STab) : Nat := tabCoefs t * (fmtBits (fmtOr (t.coefFmt % 16)) / 8)

/-- The extension block's rules (reason 0xB) for order n; `coefs` is how many values a gradient holds, and `csize` how
many bytes COEF takes. -/
def extFaults (b : List Byte) (r : SReq) (n coefs csize : Nat) (members : List Nat) : List (Nat × Nat) :=
  let e := sextOf b
  let at8 (off v : Nat) (used : Bool) (size : Nat) : List (Nat × Nat) :=
    broken (if used then badRegion v size else v != 0) 11 [0x200 + off]
  let vec : Nat := n * r.nrhs * 8
  let gb : Nat := if e.gradFmt == 0 then 8 else 4
  at8 0 e.fwdX r.derivative vec ++ at8 8 e.gcoef r.adjoint (if e.gcoef == 0 then 0 else coefs * gb) ++
  at8 16 e.dcoef r.tangent csize ++ at8 24 e.drhs r.tangent (if e.drhs == 0 then 0 else vec) ++
  broken (if r.adjoint then 1 < e.gradFmt else e.gradFmt != 0) 11 [0x220] ++
  broken (leAt b 33 7 != 0) 11 [0x221] ++ at8 40 e.lower r.qp (8 * n) ++ at8 48 e.upper r.qp (8 * n) ++
  at8 56 e.active r.qp (ceilDiv (2 * n) 8) ++ at8 64 e.jac r.gn (e.m * n * 8) ++ at8 72 e.fres r.gn (8 * e.m) ++
  at8 80 e.x0 r.gn (8 * n) ++ broken (if r.gn then e.m < n || 131072 < e.m else e.m != 0) 11 [0x258] ++
  broken (!r.gn && e.program != 0) 11 [0x25C] ++
  broken (if r.gn then !(members.contains e.progCluster) else e.progCluster != 0) 11 [0x260] ++
  broken (leAt b 100 156 != 0) 11 [0x264]

/-- The lowest field at fault; reasons of R212 are 0x10 and up in the detail. -/
def solveFault (l : List (Nat × Nat)) : Option (Nat × Nat) := (worstField l).map (fun e => (e.1, e.2 + 0x10))

end Sys2Proof.Machine
end

