-- ==== Sys2Proof/Machine/Vector.lean ====
section
/-! DEFINITION. Elementwise, widening, convert and mask instructions (spec/06 R163 to R168, R552; spec/03 R74 to
R87). -/

namespace Sys2Proof.Machine

/-- A rounded result with an INVALID that forming it raised. -/
def resInv (r : Res) (inv : Bool) : Res := { r with fl := { r.fl with invalid := r.fl.invalid || inv } }

/-- RNE, RTZ or RTO of an RM field outside VCVT. -/
def rmPlain (rm : BitVec 2) : Rm := rmOfField rm.toNat 0 0 0

/-! ## Elementwise (R163, R552) -/

/-- An instruction that rounds a value of its operands once per lane: `f first second old`. -/
def elementwise (s : State) (p : PClu) (op : Nat) (a : VArith) (f : Val → Val → Val → Val × Bool) : Result :=
  .next (vecOp s p (encArith 6 op a) (fun q =>
    let e := q.fmt
    mapLanes q e a.r (fun i =>
      let x := f (decodeVal e (elemAt e (q.v a.r.vs1.toNat) i)) (decodeVal e (srcAt q e a.r a.src.toNat i))
        (decodeVal e (elemAt e (q.v a.r.vd.toNat) i))
      resInv (roundAny e (rmPlain a.rm) q.satWide x.1) x.2)))

def execVadd (p : PClu) (a : VArith) (s : State) : Result := elementwise s p 0 a (fun x y _ => valAdd x y)
def execVsub (p : PClu) (a : VArith) (s : State) : Result := elementwise s p 1 a (fun x y _ => valSub x y)
def execVmul (p : PClu) (a : VArith) (s : State) : Result := elementwise s p 2 a (fun x y _ => valMul x y)

/-- Product and sum, exact; INVALID of either. -/
def mulAdd (x y z : Val) : Val × Bool :=
  let m := valMul x y
  let t := valAdd m.1 z
  (t.1, m.2 || t.2)

def execVfma (p : PClu) (a : VArith) (s : State) : Result := elementwise s p 3 a mulAdd
def execVfms (p : PClu) (a : VArith) (s : State) : Result := elementwise s p 4 a (fun x y z => mulAdd x y (valNeg z))

/-- VDIV: a finite non-zero value over zero is an infinity with OVERFLOW (03 R82). -/
def execVdiv (p : PClu) (a : VArith) (s : State) : Result :=
  .next (vecOp s p (encArith 6 5 a) (fun q =>
    let e := q.fmt
    mapLanes q e a.r (fun i =>
      let x := valDiv (decodeVal e (elemAt e (q.v a.r.vs1.toNat) i)) (decodeVal e (srcAt q e a.r a.src.toNat i))
      let r := resInv (roundAny e (rmPlain a.rm) q.satWide x.1) x.2.1
      { r with fl := { r.fl with overflow := r.fl.overflow || x.2.2 } })))

def execVsqrt (p : PClu) (a : VArith) (s : State) : Result := elementwise s p 6 a (fun _ y _ => valSqrt y)

def execVmin (p : PClu) (a : VArith) (s : State) : Result :=
  elementwise s p 7 a (fun x y _ => (valMin x y, valIsSig x || valIsSig y))
def execVmax (p : PClu) (a : VArith) (s : State) : Result :=
  elementwise s p 8 a (fun x y _ => (valMax x y, valIsSig x || valIsSig y))

/-- An instruction that moves bits, raises no flag and counts nothing (03 R74): `f first second`. -/
def bitwise (s : State) (p : PClu) (op : Nat) (a : VArith) (f : Fmt → Nat → Nat → Nat) : Result :=
  .next (vecOp s p (encArith 6 op a) (fun q =>
    let e := q.fmt
    mapLanes q e a.r (fun i => ⟨f e (elemAt e (q.v a.r.vs1.toNat) i) (srcAt q e a.r a.src.toNat i), {}, false, false⟩)))

/-- Sign bit of an element, and the element without it. -/
def signBit (e : Fmt) (x : Nat) : Nat := field x (fmtBits e - 1) 1
def noSign (e : Fmt) (x : Nat) : Nat := field x 0 (fmtBits e - 1)
def putSign (e : Fmt) (x b : Nat) : Nat := noSign e x + b * 2 ^ (fmtBits e - 1)

def execVabs (p : PClu) (a : VArith) (s : State) : Result := bitwise s p 9 a (fun e _ y => noSign e y)
def execVneg (p : PClu) (a : VArith) (s : State) : Result := bitwise s p 10 a (fun e _ y => putSign e y (1 - signBit e y))
def execVcopysign (p : PClu) (a : VArith) (s : State) : Result :=
  bitwise s p 11 a (fun e x y => putSign e x (signBit e y))

/-- A bitwise instruction of any format. A scalar has 64 bits: the upper half that SRC = 1 broadcasts to an f64 pair
is a free value, one for each scalar (02 R65). -/
def bitwiseAny (s : State) (p : PClu) (op : Nat) (a : VArith) (f : Nat → Nat → Nat) : Result :=
  .next (issue s p wholeWord (encArith 6 op a) (fun g s1 =>
    let q := s1.seq p
    let hi := if q.fmt = .pair ∧ a.src.toNat = 1 then (Config.pairHigh (q.s a.r.vs2.toNat)).toNat * 2 ^ 64 else 0
    let r := mapLanes q q.fmt a.r (fun i =>
      ⟨f (elemAt q.fmt (q.v a.r.vs1.toNat) i) (srcAt q q.fmt a.r a.src.toNat i + hi), {}, false, false⟩)
    retire (vecPost (s1.setSeq p r.1) p g.slot r.2) p))

def execVmov (p : PClu) (a : VArith) (s : State) : Result := bitwiseAny s p 12 a (fun _ y => y)
def execVand (p : PClu) (a : VArith) (s : State) : Result := bitwiseAny s p 13 a (fun x y => x &&& y)
def execVor (p : PClu) (a : VArith) (s : State) : Result := bitwiseAny s p 14 a (fun x y => x ||| y)
def execVxor (p : PClu) (a : VArith) (s : State) : Result := bitwiseAny s p 15 a (fun x y => x ^^^ y)

/-! ## Widening (R164, R165) -/

/-- Writes results of the wide format over a register group, lane by lane of the list; sources are read before. -/
def mapGroup (q : Seq) (w : Fmt) (vd : Nat) (l : List Nat) (op : Nat → Res) : Seq × Tally :=
  l.foldl (fun a i =>
    let x := op i
    (setGroup a.1 w vd i x.bits, tallyAdd a.2 (resTally x))) (q, {})

def execVwmul (p : PClu) (a : VArith) (s : State) : Result :=
  .next (vecOp s p (encArith 7 0 a) (fun q =>
    let e := q.fmt
    mapGroup q (wideOf e) a.r.vd.toNat (activeList q a.r) (fun i =>
      let x := valMul (decodeVal e (elemAt e (q.v a.r.vs1.toNat) i)) (decodeVal e (srcAt q e a.r a.src.toNat i))
      resInv (roundAny (wideOf e) (rmPlain a.rm) q.satWide x.1) x.2)))

def execVwfma (p : PClu) (a : VArith) (s : State) : Result :=
  .next (vecOp s p (encArith 7 1 a) (fun q =>
    let e := q.fmt
    let w := wideOf e
    mapGroup q w a.r.vd.toNat (activeList q a.r) (fun i =>
      let x := mulAdd (decodeVal e (elemAt e (q.v a.r.vs1.toNat) i)) (decodeVal e (srcAt q e a.r a.src.toNat i))
        (decodeVal w (groupAt q w a.r.vd.toNat i))
      resInv (roundAny w (rmPlain a.rm) q.satWide x.1) x.2)))

/-- Sum of old lane and `r` products, rounded once (R165). -/
def dotLane (q : Seq) (a : VArith) (j : Nat) : Res :=
  let e := q.fmt
  let w := wideOf e
  let r := dotDepth e
  let prods := (List.range r).map (fun t =>
    valMul (decodeVal e (elemAt e (q.v a.r.vs1.toNat) (r * j + t))) (decodeVal e (srcAt q e a.r a.src.toNat (r * j + t))))
  let x := exactSum (decodeVal w (elemAt w (q.v a.r.vd.toNat) j) :: prods.map Prod.fst)
  resInv (roundAny w (rmPlain a.rm) q.satWide x.1) (x.2 || prods.any (fun y => y.2))

/-- VDOTW: the mask governs the ACT / r destination lanes. -/
def execVdotw (p : PClu) (a : VArith) (s : State) : Result :=
  .next (vecOp s p (encArith 7 2 a) (fun q =>
    let l := (List.range (q.act / dotDepth q.fmt)).filter (fun j => !a.r.msk || (q.m a.r.vm.toNat).getLsbD j)
    mapGroup q (wideOf q.fmt) a.r.vd.toNat l (dotLane q a)))

/-! ## Convert (R166 to R168) -/

/-- Source value after scaling, and INVALID. -/
def convSource (q : Seq) (a : VConv) (i : Nat) : Val × Bool :=
  let x := decodeVal q.fmt (elemAt q.fmt (q.v a.r.vs1.toNat) i)
  if a.scale then valMul x (fpDecode .f32 ((q.s a.r.vs2.toNat).toNat % 2 ^ 32)) else (x, false)

/-- One converted element; random bits by 03 R94 at position SR_POS + i. -/
def convLane (q : Seq) (a : VConv) (i : Nat) : Res :=
  let x := convSource q a i
  resInv (roundAny (fmtOr a.fmtD.toNat) (rmOfField a.rm.toNat q.srKey q.srCounter (q.srPos + BitVec.ofNat 64 i))
    q.satWide x.1) x.2

/-- Term (x − q)² of the capture; +0 where the element is masked off, NaN where x or q is not finite. -/
def captureTerm (q : Seq) (a : VConv) (i : Nat) : Term :=
  if !activeAt q a.r i then (valZero, false)
  else
    let x := (convSource q a i).1
    let y := decodeVal (fmtOr a.fmtD.toNat) (convLane q a i).bits
    if valFinite x && valFinite y then
      let d := (valSub x y).1
      ((valMul d d).1, false)
    else (.nan false, false)

/-- CLU_VE_CAP_MAX, CAP_SQERR and CAP_COUNT after a VCVT with CAP set, from the registers before it (R168). Whether the
roundings of e and CAP_SQERR raise flags the spec leaves open (04 R105: "may"): they raise none (DESIGN CHOICE, log 100). -/
def capture (q : Seq) (a : VConv) : Seq :=
  let l := activeList q a.r
  let mx := l.foldl (fun v i => valAbsmax v (convSource q a i).1) (f64Val q.capMax.toNat)
  let row := redRow .f64 false
  let e := reduceTerms row false ((List.range q.act).map (captureTerm q a))
  let sq := exactSum [f64Val q.capSqerr.toNat, e.1]
  { q with
    capMax := BitVec.ofNat 64 (f64Round mx), capSqerr := BitVec.ofNat 64 (f64Round sq.1),
    capCount := q.capCount + BitVec.ofNat 64 l.length }

def execVcvt (p : PClu) (a : VConv) (s : State) : Result :=
  .next (vecOp s p (encConv a) (fun q =>
    let r := mapGroup q (fmtOr a.fmtD.toNat) a.r.vd.toNat (activeList q a.r) (convLane q a)
    let c := if a.cap && q.act != 0 then capture q a else q
    ({ r.1 with
        capMax := c.capMax, capSqerr := c.capSqerr, capCount := c.capCount,
        srPos := if a.rm.toNat == 2 then q.srPos + BitVec.ofNat 64 q.act else q.srPos }, r.2)))

/-! ## Masks (R160, R161, R163) -/

def maskReg (r : BitVec 5) : Nat := r.toNat % 8

/-- Mask with the bits of a list set from a predicate, other bits as they were. -/
def maskWith (m : MReg) (l : List Nat) (f : Nat → Bool) : MReg :=
  l.foldl (fun v i => if f i then v ||| BitVec.ofNat 1024 (2 ^ i) else v &&& ~~~BitVec.ofNat 1024 (2 ^ i)) m

/-- A compare writes active bits below ACT and clears the bits from ACT up; INVALID for a signalling NaN alone. -/
def compareOp (s : State) (p : PClu) (op : Nat) (r : VRegs) (f : Val → Val → Bool) : Result :=
  .next (vecOp s p (encMask op r) (fun q =>
    if q.act == 0 then (q, {})
    else
      let e := q.fmt
      let x (i : Nat) := decodeVal e (elemAt e (q.v r.vs1.toNat) i)
      let y (i : Nat) := decodeVal e (elemAt e (q.v r.vs2.toNat) i)
      let l := activeList q r
      let m := maskWith (q.m (maskReg r.vd)) l (fun i => f (x i) (y i))
      (q.setM (maskReg r.vd) (m &&& BitVec.ofNat 1024 (2 ^ q.act - 1)),
       { fl := ⟨l.any (fun i => valIsSig (x i) || valIsSig (y i)), false, false, false⟩ })))

def execVcmpEq (p : PClu) (r : VRegs) (s : State) : Result := compareOp s p 0 r valEq
def execVcmpNe (p : PClu) (r : VRegs) (s : State) : Result := compareOp s p 1 r (fun x y => !valEq x y)
def execVcmpLt (p : PClu) (r : VRegs) (s : State) : Result := compareOp s p 2 r valLt
def execVcmpLe (p : PClu) (r : VRegs) (s : State) : Result := compareOp s p 3 r valLe
def execVcmpUn (p : PClu) (r : VRegs) (s : State) : Result := compareOp s p 4 r (fun x y => valIsNan x || valIsNan y)

/-- A logic instruction between mask registers: active bits alone are written. -/
def maskLogic (s : State) (p : PClu) (op : Nat) (r : VRegs) (f : MReg → MReg → MReg) : Result :=
  .next (vecOp s p (encMask op r) (fun q =>
    let x := f (q.m (maskReg r.vs1)) (q.m (maskReg r.vs2))
    (q.setM (maskReg r.vd) (maskWith (q.m (maskReg r.vd)) (activeList q r) (fun i => x.getLsbD i)), {})))

def execMand (p : PClu) (r : VRegs) (s : State) : Result := maskLogic s p 5 r (fun x y => x &&& y)
def execMor (p : PClu) (r : VRegs) (s : State) : Result := maskLogic s p 6 r (fun x y => x ||| y)
def execMxor (p : PClu) (r : VRegs) (s : State) : Result := maskLogic s p 7 r (fun x y => x ^^^ y)
def execMandn (p : PClu) (r : VRegs) (s : State) : Result := maskLogic s p 8 r (fun x y => x &&& ~~~y)

/-- Active elements whose bit of a mask is set. -/
def setActive (q : Seq) (r : VRegs) : List Nat :=
  (activeList q r).filter (fun i => (q.m (maskReg r.vs1)).getLsbD i)

def execMfirst (p : PClu) (r : VRegs) (s : State) : Result :=
  .next (vecOp s p (encMask 9 r) (fun q =>
    if q.act == 0 then (q, {})
    else (q.setS r.vd.toNat (match (setActive q r).head? with
      | some i => BitVec.ofNat 64 i
      | none => BitVec.ofInt 64 (-1)), {})))

def execMpop (p : PClu) (r : VRegs) (s : State) : Result :=
  .next (vecOp s p (encMask 10 r) (fun q =>
    if q.act == 0 then (q, {}) else (q.setS r.vd.toNat (BitVec.ofNat 64 (setActive q r).length), {})))

/-- MSET: bits 0 to min(s, 1,024) − 1 set, every other bit cleared. -/
def execMset (p : PClu) (r : VRegs) (s : State) : Result :=
  .next (vecOp s p (encMask 11 r) (fun q =>
    (q.setM (maskReg r.vd) (BitVec.ofNat 1024 (2 ^ min (q.s r.vs1.toNat).toNat 1024 - 1)), {})))

end Sys2Proof.Machine
end

