-- ==== Sys2Proof/Machine/Calc.lean ====
section
/-! DEFINITION. The arithmetic that a solve places on the engines of its members, with the flags and counts it raises
(spec/03 R87 to R89; spec/04 R105, R119 to R122; spec/08 R208, R224; spec/09 R240). -/

namespace Sys2Proof.Machine

/-- What a solve's arithmetic has raised: on vector engines, on tensor engines and in window accumulators; `refused` is the
detail of the first term a window refused (04 R119, R123). -/
structure Raised where
  ve : Tally := {}
  te : Tally := {}
  under : Bool := false
  inexact : Bool := false
  nonfinite : Bool := false
  refused : Option Nat := none
  deriving DecidableEq, Repr

/-- A computation that counts what it raises. -/
abbrev Calc (α : Type) := StateM Raised α

/-- One element rounded on a vector engine, or on a tensor engine. -/
def onVe (r : Res) : Calc Nat := fun x => (r.bits, { x with ve := tallyAdd x.ve (resTally r) })
def onTe (r : Res) : Calc Nat := fun x => (r.bits, { x with te := tallyAdd x.te (resTally r) })

/-- A single rounding by RNE of an exact result. -/
def cRound (w : Fmt) (v : Term) : Calc Nat := onVe (resInv (roundVal w .rne false v.1) v.2)
def cDivTo (w : Fmt) (a b : Val) : Calc Nat :=
  let x := valDiv a b
  let r := resInv (roundVal w .rne false x.1) x.2.1
  onVe { r with fl := { r.fl with overflow := r.fl.overflow || x.2.2 } }

def cAdd (a b : Nat) : Calc Nat := cRound .f64 (valAdd (f64Val a) (f64Val b))
def cMul (a b : Nat) : Calc Nat := cRound .f64 (valMul (f64Val a) (f64Val b))
def cDiv (a b : Nat) : Calc Nat := cDivTo .f64 (f64Val a) (f64Val b)
def cSqrt (a : Nat) : Calc Nat := cRound .f64 (valSqrt (f64Val a))

/-- The exact a − l × u rounded once to W (08 R224). -/
def cSub (w : Fmt) (a l u : Nat) : Calc Nat :=
  cRound w (mulAdd (valNeg (decodeVal w l)) (decodeVal w u) (decodeVal w a))

/-- A sum in the reference order of the row of its terms' format, rounded to a format (04 R105, R108). -/
def cReduce (f dst : Fmt) (l : List Term) : Calc Nat :=
  let row := redRow f false
  onVe (redFinish row dst .rne false (reduceTerms row false l).2)

/-- The largest magnitude of a list of f64 values, by REDAMAX. -/
def normInf (l : List Nat) : Nat := f64Round (l.foldl (fun a v => valAbsmax a (f64Val v)) valZero)
def cNorm (l : List Nat) : Calc Nat :=
  onVe (resInv (roundVal .f64 .rne false (l.foldl (fun a v => valAbsmax a (f64Val v)) valZero))
    (l.any (fun v => valIsSig (f64Val v))))

/-- The detail of R123 for the first term a window of base B refuses. -/
def windowRefused (base : Int) (l : List Term) : Option Nat :=
  ((List.range l.length).find? (fun k => winRefuses base (l.getD k (valZero, false)).1)).map (fun k =>
    detail2 k (unsignedOf 16 ((valExp (l.getD k (valZero, false)).1).getD 0) + 2 ^ 16 * unsignedOf 16 base))

/-- The exact sum of terms in a cleared window of a base, read out to f64 (08 R222, 04 R119, R122). -/
def cWindow (base : Int) (l : List Term) : Calc Nat := fun x =>
  let w := l.foldl (fun w v => if winRefuses base v.1 then w else winAdmit w v.1) { base := base }
  let r := roundVal .f64 .rne false (winVal w)
  let t : Tally := { fl := ⟨l.any (fun v => v.2), false, false, false⟩, nonfin := (l.filter (fun v => !valFinite v.1)).length }
  (r.bits, { x with
    ve := tallyAdd (tallyAdd x.ve t) (resTally r), under := x.under || w.under, inexact := x.inexact || w.inexact,
    nonfinite := x.nonfinite || w.nonfinite, refused := x.refused.or (windowRefused base l) })

end Sys2Proof.Machine
end

