-- ==== Sys2Proof/Machine/SolveAsm.lean ====
section
/-! DEFINITION. The front stage: reading and writing a solve's regions, assembly, measurements, the assembled-system
store, its fingerprint and range analysis (spec/08 R214 to R222). -/

namespace Sys2Proof.Machine

/-! ## Regions -/

/-- The master, and the signer, of a solve's accesses: the lead tile's sequencer (17 R444). -/
def solveMaster (tile : Nat) : Nat := 16 + tile
def solveBy (slot : Nat) : By := ⟨7, some slot⟩

/-- Reads consecutive parcels with the tile sequencer's rights; a failure names its status and the parcel. -/
def readParcels (s : State) (m : Nat) (u : By) (l : List Nat) : State × Except (Nat × Nat) (List Byte) :=
  match l with
  | [] => (s, .ok [])
  | k :: t =>
    match localPlace s m none k false with
    | (s1, .mem key) =>
      match parcelRead s1 key u with
      | (s2, .ok d) =>
        match readParcels s2 m u t with
        | (s3, .ok r) => (s3, .ok (d ++ r))
        | x => x
      | (s2, .fail st) => (s2, .error (st, k))
      | (s2, .wait) => (s2, .error (stNotReady, k))
    | (s1, .bad st) => (s1, .error (st, k))
    | (s1, _) => (s1, .error (stBus, k))

/-- Reads `len` bytes from a parcel-aligned address. -/
def readAt (s : State) (m : Nat) (u : By) (a len : Nat) : State × Except (Nat × Nat) (List Byte) :=
  match readParcels s m u ((List.range (ceilDiv len 4096)).map (fun i => a + i * 4096)) with
  | (s1, .ok b) => (s1, .ok (b.take len))
  | x => x

/-- Delivers one whole parcel with the tile sequencer's rights. -/
def putParcel (s : State) (m slot k : Nat) (data : List Byte) : State × Put :=
  match localPlace s m none k true with
  | (s1, .mem key) => deliver s1 .other slot key 0 (data ++ zeroBytes (4096 - data.length)) (solveBy slot)
  | (s1, .bad st) => (s1, .fail st)
  | (s1, _) => (s1, .fail stBus)

/-- Delivers parcels in ascending order until one is not delivered. -/
def putParcels (s : State) (m slot a : Nat) (l : List (List Byte)) : State × Put :=
  match l with
  | [] => (s, .ok)
  | d :: t => match putParcel s m slot a d with
    | (s1, .ok) => putParcels s1 m slot (a + 4096) t
    | x => x

/-- A region's bytes padded with zeros to whole parcels. -/
def padded (b : List Byte) : List (List Byte) := chunks 4096 (b ++ zeroBytes (roundUp b.length 4096 - b.length))

/-- `n` words of a region whose contents the specification leaves open: free values, the same whenever the same request
works on the same values (02 R65). -/
def openWords (req : List Byte) (input : List Nat) (n : Nat) : List Byte :=
  (List.range n).flatMap (fun k => bytesOfNat 8 (Config.openWord req input k).toNat)

def f64List (b : List Byte) (n : Nat) : List Nat := (List.range n).map (fun i => leAt b (8 * i) 8)
def f64Bytes (l : List Nat) : List Byte := l.flatMap (fun v => bytesOfNat 8 v)

/-- Columns of an N × NRHS region. -/
def columnsOf (b : List Byte) (n k : Nat) : List (List Nat) :=
  (List.range k).map (fun c => (List.range n).map (fun i => leAt b (8 * (c * n + i)) 8))

/-! ## The assembled matrix -/

/-- An assembled matrix: order, block size and block rows of (block column, U × U values). -/
structure SMat where
  n : Nat
  u : Nat
  dense : Bool
  rows : List (KMap (List Nat))
  deriving DecidableEq, Repr

def SMat.nnzb (a : SMat) : Nat := if a.dense then a.n * a.n else (a.rows.map List.length).sum

/-- Row i as (column, value), ascending. -/
def SMat.row (a : SMat) (i : Nat) : List (Nat × Nat) :=
  (a.rows.getD (i / a.u) []).flatMap (fun e =>
    (List.range a.u).map (fun b => (e.1 * a.u + b, e.2.getD (i % a.u * a.u + b) 0)))

def SMat.entries (a : SMat) : List (List (Nat × Nat)) := (List.range a.n).map a.row

/-- Column j as (row, value), ascending. -/
def SMat.col (a : SMat) (j : Nat) : List (Nat × Nat) :=
  (List.range a.n).flatMap (fun i => ((a.row i).filter (fun e => e.1 == j)).map (fun e => (i, e.2)))

/-- Row i of the operator a solve uses: A, or its transpose in an adjoint (09 R260). -/
def SMat.opRow (a : SMat) (transposed : Bool) (i : Nat) : List (Nat × Nat) := if transposed then a.col i else a.row i

/-- A coefficient as a term: its exact value, and INVALID for a signalling NaN. -/
def coefTerm (f : Fmt) (b : List Byte) (k : Nat) : Term :=
  let v := decodeVal f (leAt b (k * (fmtBits f / 8)) (fmtBits f / 8))
  (v, valIsSig v)

def termNeg (t : Term) : Term := (valNeg t.1, t.2)

/-- An entry of A from its contributions (R215). A NaN or an infinity that it takes from a coefficient is counted at
the coefficient. -/
def entryOf (l : List Term) : Res :=
  let r := reduceF64 .f64 false false l
  { r with nonfin := r.nonfin && l.all (fun t => valFinite t.1) }

/-- Non-finite coefficients of a list of values (R215). -/
def coefTally (l : List Val) : Tally := { nonfin := (l.filter (fun v => !valFinite v)).length }

/-- Contributions of a stencil's block row: per block column, U × U term lists (R214, R215). -/
def stencilRow (t : STab) (coef : Nat → Term) (cell : Nat) : KMap (List (List Term)) :=
  let at4 (p a b : Nat) : Term := coef (((cell * t.points + p) * t.u + a) * t.u + b)
  let pts := (List.range t.points).filterMap (fun p =>
    let o := t.offs.getD p (0, 0, 0)
    (t.neighbour cell o).map (fun c => (p, c, o == (0, 0, 0))))
  let others := (pts.filter (fun x => !x.2.2)).map Prod.fst
  pts.foldl (fun m x =>
    let blk := (List.range t.u).flatMap (fun a => (List.range t.u).map (fun b =>
      at4 x.1 a b :: (if t.conservative && x.2.2 then others.map (fun q => termNeg (at4 q a b)) else [])))
    kput m x.2.1 blk) []

/-- Contributions of an element system's block row (R214, R215). -/
def elementRow (t : STab) (coef : Nat → Term) (conn : Nat → Nat → Nat) (node : Nat) : KMap (List (List Term)) :=
  let w := t.points * t.u
  ((List.range t.dim0).flatMap (fun e => ((List.range t.points).filter (fun i => conn e i == node)).flatMap (fun i =>
    (List.range t.points).map (fun j => (e, i, j))))).foldl (fun m x =>
      let old := kget (List.replicate (t.u * t.u) []) m (conn x.1 x.2.2)
      let blk := (List.range (t.u * t.u)).map (fun k =>
        old.getD k [] ++ [coef (x.1 * w * w + (x.2.1 * t.u + k / t.u) * w + (x.2.2 * t.u + k % t.u))])
      kput m (conn x.1 x.2.2) blk) []

def tallyAll (l : List Res) : Tally := l.foldl (fun a r => tallyAdd a (resTally r)) {}

/-- Block rows from their contributions, and what rounding them raised. -/
def matOf (n u : Nat) (dense : Bool) (rows : List (KMap (List (List Term)))) : SMat × Tally :=
  let res := rows.map (fun r => r.map (fun e => (e.1, e.2.map entryOf)))
  (⟨n, u, dense, res.map (fun r => r.map (fun e => (e.1, e.2.map (fun x => x.bits))))⟩,
   tallyAll (res.flatMap (fun r => r.flatMap Prod.snd)))

/-! ## The store header (R217, R220) -/

structure SHdr where
  valid : Bool
  dense : Bool
  u : Nat
  nrhs : Nat
  n : Nat
  nnzb : Nat
  fp : Nat
  anorm : Nat
  emaxA : Int
  emaxB : Int
  deriving DecidableEq, Repr

def hdrBody (h : SHdr) : List Byte :=
  bytesOfNat 1 (boolNat h.valid) ++ bytesOfNat 1 (boolNat h.dense) ++ bytesOfNat 1 h.u ++ [0] ++ bytesOfNat 4 h.nrhs ++
  bytesOfNat 8 h.n ++ bytesOfNat 8 h.nnzb ++ bytesOfNat 8 h.fp ++ bytesOfNat 8 h.anorm ++
  bytesOfNat 2 (unsignedOf 16 h.emaxA) ++ bytesOfNat 2 (unsignedOf 16 h.emaxB) ++ zeroBytes 16

def checked60 (b : List Byte) : List Byte := b ++ bytesOfNat 4 (crc32c b)

/-- A store header's fields; `valid` also says that its CHECK matches (R219). -/
def hdrOf (b : List Byte) : SHdr :=
  { valid := leAt b 0 1 == 1 && crc32c (b.take 60) == leAt b 60 4, dense := leAt b 1 1 == 1, u := leAt b 2 1,
    nrhs := leAt b 4 4, n := leAt b 8 8, nnzb := leAt b 16 8, fp := leAt b 24 8, anorm := leAt b 32 8,
    emaxA := signedOf 16 (leAt b 40 2), emaxB := signedOf 16 (leAt b 42 2) }

/-- Block-row offsets and block columns of a sparse matrix. -/
def rowptrOf (rows : List (KMap (List Nat))) (acc : Nat) : List Nat :=
  match rows with
  | [] => [acc]
  | r :: t => acc :: rowptrOf t (acc + r.length)

def u32Bytes (l : List Nat) : List Byte := l.flatMap (fun v => bytesOfNat 4 v)

def SMat.rowptr (a : SMat) : List Byte := if a.dense then [] else u32Bytes (rowptrOf a.rows 0)
def SMat.colidx (a : SMat) : List Byte := if a.dense then [] else u32Bytes (a.rows.flatMap (fun r => r.map Prod.fst))
def SMat.blocks (a : SMat) : List Byte := a.rows.flatMap (fun r => r.flatMap (fun e => f64Bytes e.2))

/-- The structure fingerprint (R220). -/
def fingerprint (a : SMat) : Nat :=
  leAt (shake256 8 (asciiBytes "TLS1SF01" ++ bytesOfNat 1 (boolNat a.dense) ++ bytesOfNat 1 a.u ++ bytesOfNat 8 a.n ++
    bytesOfNat 8 a.nnzb ++ a.rowptr ++ a.colidx)) 0 8

/-! ## Norms and ranges (R218, R222, 09 R240) -/

def emaxOf (l : List Nat) : Int :=
  l.foldl (fun a v => match valExp (f64Val v) with | some e => max a e | none => a) (-32768)

/-- Sum of magnitudes by R105 in the f64 row. -/
def absSum (l : List (Nat × Nat)) : Calc Nat :=
  cReduce .f64 .f64 (l.map (fun e => let v := f64Val e.2; (valAbs v, valIsSig v)))

def anormOf (a : SMat) : Calc Nat := do cNorm (← a.entries.mapM absSum)
/-- Largest column sum of magnitudes (09 R242). -/
def anormCols (a : SMat) : Calc Nat := do cNorm (← (List.range a.n).mapM (fun j => absSum (a.col j)))

/-- The base of R222. -/
def residualBase (emaxA ex emaxB : Int) (h : Nat) : Int :=
  let p : Option Int := if emaxA == -32768 || ex == -32768 then none else some (emaxA + ex + 2)
  let b : Option Int := if emaxB == -32768 then none else some (emaxB + 1)
  winBase (match p, b with
    | some x, some y => some (max x y)
    | some x, none => some x
    | none, y => y) h

/-- A row's products with a vector, exactly. -/
def rowTerms (row : List (Nat × Nat)) (x : List Nat) : List Term :=
  row.map (fun e => valMul (f64Val e.2) (f64Val (x.getD e.1 0)))

/-- An f64 value as a single term. -/
def f64Term (b : Nat) : Term := (f64Val b, valIsSig (f64Val b))

/-- A solve computes the rows of a free set alone; every other row is +0 (09 R260, R262). -/
def isFree (free : Option (List Bool)) (i : Nat) : Bool := match free with | none => true | some l => l.getD i false

/-- b − op(A) x, row by row, each rounded once (R222). -/
def residual (a : SMat) (tr : Bool) (free : Option (List Bool)) (emaxA emaxB : Int) (h : Nat) (b x : List Nat) :
    Calc (List Nat) :=
  let base := residualBase emaxA (emaxOf x) emaxB h
  (List.range a.n).mapM (fun i =>
    if isFree free i then cWindow base ((rowTerms (a.opRow tr i) x).map termNeg ++ [f64Term (b.getD i 0)]) else pure 0)

/-- op(A) x, on the base of a residual (09 R240). -/
def product (a : SMat) (tr : Bool) (free : Option (List Bool)) (emaxA emaxB : Int) (h : Nat) (x : List Nat) :
    Calc (List Nat) :=
  let base := residualBase emaxA (emaxOf x) emaxB h
  (List.range a.n).mapM (fun i => if isFree free i then cWindow base (rowTerms (a.opRow tr i) x) else pure 0)

/-! ## Measurements (R216) -/

structure Meas where
  unknown : Nat
  fix : Bool
  value : Nat
  weight : Nat
  deriving DecidableEq, Repr

def measOf (b : List Byte) (k : Nat) : List Meas :=
  (List.range k).map (fun i => ⟨leAt b (32 * i) 4, leAt b (32 * i + 4) 1 == 0, leAt b (32 * i + 8) 8,
    leAt b (32 * i + 16) 8⟩)

/-- Applies a function to the stored entries of row i. -/
def SMat.mapRow (a : SMat) (i : Nat) (f : Nat → Nat → Nat) : SMat :=
  let r := (a.rows.getD (i / a.u) []).map (fun e =>
    (e.1, (List.range (a.u * a.u)).map (fun k =>
      let v := e.2.getD k 0
      if k / a.u == i % a.u then f (e.1 * a.u + k % a.u) v else v)))
  { a with rows := a.rows.set (i / a.u) r }

/-- One measurement of the pass it belongs to. -/
def applyMeas (x : SMat × List (List Nat)) (e : Meas) : Calc (SMat × List (List Nat)) :=
  if e.fix then
    pure (x.1.mapRow e.unknown (fun j _ => if j == e.unknown then 0x3FF0000000000000 else 0),
     x.2.map (fun c => c.set e.unknown e.value))
  else do
    let d ← ((x.1.row e.unknown).filter (fun k => k.1 == e.unknown)).mapM (fun k => cAdd k.2 e.weight)
    let w ← cMul e.weight e.value
    let cols ← x.2.mapM (fun c => do pure (c.set e.unknown (← cAdd (c.getD e.unknown 0) w)))
    pure (x.1.mapRow e.unknown (fun j v => if j == e.unknown then d.getD 0 v else v), cols)

def applyAllMeas (x : SMat × List (List Nat)) (l : List Meas) : Calc (SMat × List (List Nat)) := do
  (l.filter (fun e => e.fix)).foldlM applyMeas (← (l.filter (fun e => !e.fix)).foldlM applyMeas x)

/-! ## Reading a store, assembling -/

/-- An assembled system as a solve uses it. -/
structure Sys where
  h : SHdr
  a : SMat
  rhs : List (List Nat)
  deriving DecidableEq, Repr

/-- Block rows from ROWPTR, COLIDX and BLOCKS. -/
def storeRows (h : SHdr) (rp ci bl : List Byte) : List (KMap (List Nat)) :=
  let u := h.u
  if h.dense then
    (List.range h.n).map (fun i => (List.range h.n).map (fun j => (j, [leAt bl (8 * (i * h.n + j)) 8])))
  else
    (List.range (h.n / u)).map (fun r =>
      let a := leAt rp (4 * r) 4
      (List.range (leAt rp (4 * r + 4) 4 - a)).map (fun k =>
        (leAt ci (4 * (a + k)) 4, (List.range (u * u)).map (fun i => leAt bl (8 * ((a + k) * u * u + i)) 8))))

/-- Reads a store's header. -/
def readHdr (s : State) (m : Nat) (u : By) (a : Nat) : State × Except (Nat × Nat) SHdr :=
  match readAt s m u a 64 with
  | (s1, .ok b) => (s1, .ok (hdrOf b))
  | (s1, .error e) => (s1, .error e)

/-- The system that a store's regions hold, from the answer to their read. -/
def sysOfRegions (h : SHdr) (nrhs : Nat) (x : State × Except (Nat × Nat) (List Byte)) :
    State × Except (Nat × Nat) Sys :=
  match x with
  | (s, .error e) => (s, .error e)
  | (s, .ok b) =>
    let l := storeMap h.dense h.n h.u h.nnzb h.nrhs
    let reg (o : Nat) : List Byte := b.drop (o - 4096)
    (s, .ok ⟨h, ⟨h.n, if h.dense then 1 else h.u, h.dense,
      storeRows h (reg l.rowptr) (reg l.colidx) (reg l.blocks)⟩, columnsOf (reg l.rhs) h.n nrhs⟩)

/-- Reads a whole store, every parcel's seal checked (R221). -/
def readStore (s : State) (m : Nat) (u : By) (a nrhs : Nat) : State × Except (Nat × Nat) Sys :=
  match readHdr s m u a with
  | (s1, .error e) => (s1, .error e)
  | (s1, .ok h) => sysOfRegions h nrhs (readAt s1 m u (a + 4096)
      ((storeMap h.dense h.n h.u h.nnzb h.nrhs).rhs - 4096 + h.n * nrhs * 8))

/-- The matrix of a dense, stencil or element table from its coefficients and its node indices (R214, R215). -/
def tableMat (t : STab) (coef : Nat → Term) (conn : List Byte) : SMat × Tally :=
  if t.kind == 0 then
    matOf t.dim0 1 true ((List.range t.dim0).map (fun i => (List.range t.dim0).map (fun j =>
      (j, [[coef (i * t.dim0 + j)]]))))
  else if t.kind == 1 then matOf (t.cells * t.u) t.u false ((List.range t.cells).map (stencilRow t coef))
  else matOf (t.dim1 * t.u) t.u false ((List.range t.dim1).map
    (elementRow t coef (fun e i => leAt conn (4 * (e * t.points + i)) 4)))

/-- The matrix that a table's coefficients at `base` assemble to, before measurements, and what it counted. -/
def assembleAt (s : State) (m : Nat) (u : By) (t : STab) (base : Nat) :
    State × Except (Nat × Nat) (SMat × Tally) :=
  let f := fmtOr (t.coefFmt % 16)
  if t.kind == 3 then
    match readStore s m u base 0 with
    | (s1, .ok y) => (s1, .ok (y.a, coefTally (y.a.entries.flatMap (fun r => r.map (fun e => f64Val e.2)))))
    | (s1, .error e) => (s1, .error e)
  else
    match readAt s m u base (t.coefs * (fmtBits f / 8)) with
    | (s1, .error e) => (s1, .error e)
    | (s1, .ok b) =>
      match readAt s1 m u t.conn (if t.kind == 2 then t.dim0 * t.points * 4 else 0) with
      | (s2, .error e) => (s2, .error e)
      | (s2, .ok c) =>
        let x := tableMat t (coefTerm f b) c
        (s2, .ok (x.1, tallyAdd x.2 (coefTally ((List.range t.coefs).map (fun k => (coefTerm f b k).1)))))

/-- The right-hand sides before measurements: RHS, or a prebuilt store's own columns. -/
def assembleRhs (s : State) (m : Nat) (u : By) (r : SReq) (t : STab) (n : Nat) :
    State × Except (Nat × Nat) (List (List Nat)) :=
  match readAt s m u r.rhs (n * r.nrhs * 8) with
  | (s1, .error e) => (s1, .error e)
  | (s1, .ok b) =>
    let cols := columnsOf b n r.nrhs
    if t.kind != 3 then (s1, .ok cols)
    else match readHdr s1 m u t.coef with
      | (s2, .error e) => (s2, .error e)
      | (s2, .ok h) => match readStore s2 m u t.coef (min h.nrhs r.nrhs) with
        | (s3, .error e) => (s3, .error e)
        | (s3, .ok y) => (s3, .ok (y.rhs ++ cols.drop y.rhs.length))

/-- The system after its measurements, with its header's values. -/
def measured (nrhs : Nat) (x : SMat × List (List Nat)) (l : List Meas) : Calc Sys := do
  let y ← applyAllMeas x l
  let anorm ← anormOf y.1
  let h : SHdr := { valid := true, dense := y.1.dense, u := y.1.u, nrhs := nrhs, n := y.1.n,
                    nnzb := y.1.nnzb, fp := fingerprint y.1, anorm := anorm,
                    emaxA := emaxOf (y.1.entries.flatMap (fun w => w.map Prod.snd)), emaxB := emaxOf (y.2.flatMap id) }
  pure ⟨h, y.1, y.2⟩

/-- The system a request assembles, with what it counted (R214 to R218, R222). -/
def assemble (s : State) (m : Nat) (u : By) (r : SReq) (t : STab) : State × Except (Nat × Nat) (Sys × Raised) :=
  match assembleAt s m u t t.coef with
  | (s1, .error e) => (s1, .error e)
  | (s1, .ok x) => match assembleRhs s1 m u r t x.1.n with
    | (s2, .error e) => (s2, .error e)
    | (s2, .ok b) => match readAt s2 m u t.meas (32 * t.measCount) with
      | (s3, .error e) => (s3, .error e)
      | (s3, .ok ms) =>
        (s3, .ok ((measured r.nrhs (x.1, b) (measOf ms t.measCount)).run { ve := x.2 }))

/-- The regions of a store after its header, in order (R217). -/
def sysParcels (y : Sys) : List (List Byte) :=
  padded y.a.rowptr ++ padded y.a.colidx ++ padded y.a.blocks ++ padded (y.rhs.flatMap f64Bytes)

end Sys2Proof.Machine
end

