-- ==== Sys2Proof/Machine/SolveFactor.lean ====
section
/-! DEFINITION. Equilibration, the blocked factorisations and their pivot rules, the factor slot, the substitutions and
the block-Jacobi preconditioner (spec/08 R223 to R231; spec/09 R241, R260). -/

namespace Sys2Proof.Machine

/-- A constant in a working format. -/
def wRound (w : Fmt) (v : Val) : Nat := (roundVal w .rne false v).bits
def wVal (w : Fmt) (b : Nat) : Val := decodeVal w b
def wTerm (w : Fmt) (b : Nat) : Term := (wVal w b, valIsSig (wVal w b))
def pow2Val (e : Int) : Val := .fin false 1 e

/-- A factor (R228): m × n rows of W bits, the scales, the permutation, the reflector coefficients, and the pivots
replaced with the column of the first. -/
structure Fac where
  m : Nat
  n : Nat
  dr : List Nat
  dc : List Nat
  perm : List Nat
  tau : List Nat
  mat : List (List Nat)
  reg : Nat × Nat
  deriving DecidableEq, Repr

/-- Element (i, j) of a matrix of rows. -/
def melem (a : List (List Nat)) (i j : Nat) : Nat := (a.getD i []).getD j 0

/-! ## Equilibration (R223) -/

/-- Exponent of the power of two that brings the largest magnitude into [1, 2); zero for an all-zero line. -/
def scaleOf (l : List Val) : Int :=
  if l.any (fun v => !valFinite v) then Config.scaleExp (l.map f64Round)
  else match l.foldl (fun (a : Option Int) v => match a, valExp v with
      | some x, some y => some (max x y)
      | none, y => y
      | x, none => x) none with
    | some e => -e
    | none => 0

def colOf (a : List (List Nat)) (j : Nat) : List Nat := a.map (fun r => r.getD j 0)

/-- The scales of an m × n matrix of f64 values, and S in W. -/
def equilibrate (code n : Nat) (a : List (List Nat)) : Calc (List Int × List Int × List (List Nat)) := do
  let f := factorFmt code
  let w := workFmt code
  let dr := a.map (fun r => scaleOf (r.map f64Val))
  let dc := (List.range n).map (fun j =>
    scaleOf ((colOf a j).zip dr |>.map (fun x => (valMul (f64Val x.1) (pow2Val x.2)).1)))
  let res ← (a.zip dr).mapM (fun x => (x.1.zip dc).mapM (fun y => cRound f (valMul (f64Val y.1) (pow2Val (x.2 + y.2)))))
  pure (dr, dc, res.map (fun r => r.map (fun x => wRound w (decodeVal f x))))

/-! ## Pivots (R226) -/

/-- Default threshold 2^−(m + 3) of a factor format. -/
def defaultTau (code : Nat) : Val := pow2Val (-((fmtParams (factorFmt code)).frac : Int) - 3)
def tauOf (code tau : Nat) : Val := if tau == 0 then defaultTau code else f64Val tau

/-- A replaced pivot: τ with the sign of p, either zero taking +τ. -/
def replacePivot (w : Fmt) (tau : Val) (p : Nat) : Nat :=
  let v := wVal w p
  wRound w (if valNegative v then valNeg tau else tau)

def countReg (r : Nat × Nat) (j : Nat) : Nat × Nat := (r.1 + 1, if r.1 == 0 then j else r.2)

/-- The lowest row with a NaN, or with the largest magnitude, among (row, value). -/
def pivotRow (w : Fmt) (l : List (Nat × Nat)) : Nat :=
  match l.find? (fun e => valIsNan (wVal w e.2)) with
  | some e => e.1
  | none => match l with
    | [] => 0
    | e :: t => (t.foldl (fun a x => if valLt (valAbs (wVal w a.2)) (valAbs (wVal w x.2)) then x else a) e).1

def swapAt {α : Type} (l : List α) (i j : Nat) (d : α) : List α := (l.set i (l.getD j d)).set j (l.getD i d)

/-! ## Panels (R224) -/

/-- Entries [lo, hi) of a row less l times another row's, each a single rounding. -/
def updRow (w : Fmt) (row : List Nat) (l : Nat) (u : List Nat) (lo hi : Nat) : Calc (List Nat) :=
  (List.range row.length).mapM (fun k =>
    if lo ≤ k && k < hi then cSub w (row.getD k 0) l (u.getD k 0) else pure (row.getD k 0))

def mapRows (a : List (List Nat)) (f : Nat → List Nat → List Nat) : List (List Nat) :=
  (List.range a.length).map (fun i => f i (a.getD i []))
def mapRowsM (a : List (List Nat)) (f : Nat → List Nat → Calc (List Nat)) : Calc (List (List Nat)) :=
  (List.range a.length).mapM (fun i => f i (a.getD i []))

/-- Operands of a GEMM: a row or column of W values rounded to the factor format. -/
def gemmOperand (code : Nat) (l : List Nat) : Calc (List Nat) :=
  l.mapM (fun v => cRound (factorFmt code) (wTerm (workFmt code) v))

/-- The tensor engines' product of one element: operands in the factor format, the result in W (R224, 05 R128). -/
def gemmElem (code : Nat) (l u : List Nat) : Calc Nat :=
  let f := factorFmt code
  let row := redRow f false
  let terms := (l.zip u).map (fun x => valMul (decodeVal f x.1) (decodeVal f x.2))
  onTe (redFinish row (workFmt code) .rne false (reduceTerms row false terms).2)

/-- An inner product of W values in the reference order, rounded to W. -/
def wDot (w : Fmt) (l : List (Nat × Nat)) : Calc Nat :=
  cReduce w w (l.map (fun e => valMul (wVal w e.1) (wVal w e.2)))

structure FacRun where
  a : List (List Nat)
  perm : List Nat
  tau : List Nat := []
  reg : Nat × Nat := (0, 0xFFFFFFFF)
  deriving DecidableEq, Repr

/-- Column j of an LU panel that ends at hi (R225). -/
def luColumn (w : Fmt) (tau : Val) (hi : Nat) (x : FacRun) (j : Nat) : Calc FacRun := do
  let p := pivotRow w ((List.range (x.a.length - j)).map (fun i => (j + i, melem x.a (j + i) j)))
  let a := swapAt x.a j p []
  let v := melem a j j
  let tiny := valLt (valAbs (wVal w v)) tau
  let d := if tiny then replacePivot w tau v else v
  let u := (a.getD j []).set j d
  let rows ← mapRowsM a (fun i r =>
    if i < j then pure r else if i == j then pure u
    else do
      let l ← cDivTo w (wVal w (r.getD j 0)) (wVal w d)
      updRow w (r.set j l) l u (j + 1) hi)
  pure { x with a := rows, perm := swapAt x.perm j p 0, reg := if tiny then countReg x.reg j else x.reg }

/-- Trailing update of rows from p0 and columns from p1 by a panel's factor blocks: the blocks rounded to the factor
format, their product on the tensor engines, and one rounding of the difference (R224). -/
def trailing (code p0 p1 : Nat) (a : List (List Nat)) (lower : Bool) (l : Nat → List Nat) (u : Nat → List Nat) :
    Calc (List (List Nat)) := do
  let w := workFmt code
  let n := (a.getD 0 []).length
  let ls ← (List.range (a.length - p0)).mapM (fun i => gemmOperand code (l (p0 + i)))
  let us ← if lower then pure ls else (List.range (n - p1)).mapM (fun k => gemmOperand code (u (p1 + k)))
  mapRowsM a (fun i r => if i < p0 then pure r else (List.range r.length).mapM (fun k =>
    if k < p1 || (lower && i < k) then pure (r.getD k 0)
    else do
      let t ← gemmElem code (ls.getD (i - p0) []) (us.getD (k - p1) [])
      cRound w (valSub (wVal w (r.getD k 0)) (wVal w t))))

def panelCols (p0 p1 : Nat) : List Nat := (List.range (p1 - p0)).map (· + p0)

def luPanel (code n : Nat) (tau : Val) (x : FacRun) (p0 : Nat) : Calc FacRun := do
  let w := workFmt code
  let p1 := min (p0 + 64) n
  let y ← (panelCols p0 p1).foldlM (luColumn w tau p1) x
  let a ← (panelCols p0 p1).foldlM (fun a j =>
    mapRowsM a (fun i r => if j < i && i < p1 then updRow w r (r.getD j 0) (a.getD j []) p1 n else pure r)) y.a
  let cut (r : List Nat) : List Nat := (r.drop p0).take (p1 - p0)
  pure { y with a := ← trailing code p1 p1 a false (fun i => cut (a.getD i [])) (fun k => cut (colOf a k)) }

/-- Column j of a Cholesky panel (R225, R226). -/
def cholColumn (w : Fmt) (tau : Val) (hi : Nat) (x : FacRun) (j : Nat) : Calc FacRun := do
  let v := melem x.a j j
  let tiny := valLt (wVal w v) tau
  let d ← cRound w (valSqrt (if tiny then wVal w (wRound w tau) else wVal w v))
  let col ← (List.range x.a.length).mapM (fun i =>
    if i < j then pure 0 else if i == j then pure d else cDivTo w (wVal w (melem x.a i j)) (wVal w d))
  let rows ← mapRowsM x.a (fun i r =>
    if i < j then pure r
    else (List.range r.length).mapM (fun k =>
      if k == j then pure (col.getD i 0)
      else if j < k && k < hi && k ≤ i then cSub w (r.getD k 0) (col.getD i 0) (col.getD k 0)
      else pure (r.getD k 0)))
  pure { x with a := rows, reg := if tiny then countReg x.reg j else x.reg }

def cholPanel (code n : Nat) (tau : Val) (x : FacRun) (p0 : Nat) : Calc FacRun := do
  let p1 := min (p0 + 64) n
  let y ← (panelCols p0 p1).foldlM (cholColumn (workFmt code) tau p1) x
  let cut (r : List Nat) : List Nat := (r.drop p0).take (p1 - p0)
  pure { y with a := ← trailing code p1 p1 y.a true (fun i => cut (y.a.getD i [])) (fun k => cut (y.a.getD k [])) }

/-- Entry i of the reflector kept in column j. -/
def reflectorAt (w : Fmt) (a : List (List Nat)) (j i : Nat) : Nat :=
  if i < j then 0 else if i == j then wRound w (pow2Val 0) else melem a i j

/-- Column j of a QR panel: its reflector, formed from the column and its sum of squares in the reference order, and
the panel's later columns reflected. -/
def qrColumn (code : Nat) (tau : Val) (hi : Nat) (x : FacRun) (j : Nat) : Calc FacRun := do
  let w := workFmt code
  let c := (colOf x.a j).drop j
  let ss ← wDot w (c.zip c)
  let h := Config.householder code c ss
  let tiny := valLt (valAbs (wVal w h.2.1)) tau
  let d := if tiny then replacePivot w tau h.2.1 else h.2.1
  let v (i : Nat) : Nat := if i == j then wRound w (pow2Val 0) else h.2.2.getD (i - j - 1) 0
  let vs := (List.range (x.a.length - j)).map (fun i => v (i + j))
  let us ← (panelCols (j + 1) hi).mapM (fun k => do
    pure ((Config.reflect code [vs] [h.1] [← wDot w (vs.zip ((colOf x.a k).drop j))]).getD 0 0))
  let rows ← mapRowsM x.a (fun i r =>
    if i < j then pure r
    else (List.range r.length).mapM (fun k =>
      if k == j then pure (if i == j then d else v i)
      else if j < k && k < hi then cSub w (r.getD k 0) (v i) (us.getD (k - j - 1) 0) else pure (r.getD k 0)))
  pure { x with a := rows, tau := x.tau ++ [h.1], reg := if tiny then countReg x.reg j else x.reg }

/-- A QR panel: the products of its reflectors with a later column are formed by the GEMM path (R225). -/
def qrPanel (code n : Nat) (tau : Val) (x : FacRun) (p0 : Nat) : Calc FacRun := do
  let w := workFmt code
  let p1 := min (p0 + 64) n
  let js := panelCols p0 p1
  let y ← js.foldlM (qrColumn code tau p1) x
  let vs := js.map (fun j => (List.range (y.a.length - p0)).map (fun i => reflectorAt w y.a j (i + p0)))
  let ops ← vs.mapM (gemmOperand code)
  let us ← (panelCols p1 n).mapM (fun k => do
    let c ← gemmOperand code ((colOf y.a k).drop p0)
    let dots ← ops.mapM (fun v => gemmElem code v c)
    pure (Config.reflect code vs (y.tau.drop p0) dots))
  let a ← trailing code p0 p1 y.a false (fun i => js.map (fun j => reflectorAt w y.a j i)) (fun k => us.getD (k - p1) [])
  pure { y with a := a }

def panels (n : Nat) : List Nat := (List.range (ceilDiv n 64)).map (· * 64)

/-- Factors an m × n matrix of f64 values by method 0x01, 0x02 or 0x03 (R223 to R227). -/
def factorise (method code tau n : Nat) (a : List (List Nat)) : Calc Fac := do
  let e ← equilibrate code n a
  let t := tauOf code tau
  let m := a.length
  let x0 : FacRun := { a := e.2.2, perm := List.range m }
  let x ← if method == 1 then (panels n).foldlM (luPanel code n t) x0
          else if method == 2 then
            let l := mapRows x0.a (fun i r => (List.range r.length).map (fun k => if i < k then 0 else r.getD k 0))
            (panels n).foldlM (cholPanel code n t) { x0 with a := l }
          else (panels n).foldlM (qrPanel code n t) x0
  pure { m := m, n := n, dr := e.1.map (fun v => f64Round (pow2Val v)), dc := e.2.1.map (fun v => f64Round (pow2Val v)),
         perm := x.perm, tau := if x.tau.isEmpty then List.replicate n 0 else x.tau, mat := x.a, reg := x.reg }

/-- Full rows of a sparse or dense matrix. -/
def denseRows (a : SMat) : List (List Nat) :=
  a.entries.map (fun r =>
    let m := r.foldl (fun (t : KMap Nat) e => kput t e.1 e.2) []
    (List.range a.n).map (kget 0 m))

/-! ## The factor slot and header (R228) -/

def wordsBytes (k : Nat) (l : List Nat) : List Byte := l.flatMap (fun v => bytesOfNat k v)

def facParcels (code : Nat) (x : Fac) : List (List Byte) :=
  let k := workBytes code
  padded (f64Bytes x.dr) ++ padded (f64Bytes x.dc) ++ padded (u32Bytes x.perm) ++ padded (wordsBytes k x.tau) ++
  padded (wordsBytes k (x.mat.flatMap id))

def facOfBytes (code m n : Nat) (b : List Byte) : Fac :=
  let k := workBytes code
  let l := slotMap m n k
  { m := m, n := n, dr := f64List b m, dc := f64List (b.drop l.col) n,
    perm := (List.range m).map (fun i => leAt b (l.perm + 4 * i) 4),
    tau := (List.range n).map (fun i => leAt b (l.tau + k * i) k),
    mat := (List.range m).map (fun i => (List.range n).map (fun j => leAt b (l.mat + k * (i * n + j)) k)),
    reg := (0, 0xFFFFFFFF) }

structure FHdr where
  fp : Nat
  n : Nat
  method : Nat
  code : Nat
  valid : Bool
  slot : Nat
  gen : Nat
  reg : Nat
  first : Nat
  deriving DecidableEq, Repr

def fhdrBytes (h : FHdr) : List Byte :=
  checked60 (bytesOfNat 8 h.fp ++ bytesOfNat 4 h.n ++ bytesOfNat 1 h.method ++ bytesOfNat 1 h.code ++
    bytesOfNat 1 (128 * boolNat h.valid + h.slot) ++ [0] ++ bytesOfNat 4 h.gen ++ bytesOfNat 4 h.reg ++
    bytesOfNat 4 h.first ++ zeroBytes 32)

/-- A factor header; one whose CHECK fails has no current factor (R230). -/
def fhdrOf (b : List Byte) : FHdr :=
  { fp := leAt b 0 8, n := leAt b 8 4, method := leAt b 12 1, code := leAt b 13 1,
    valid := (leAt b 14 1).testBit 7 && crc32c (b.take 60) == leAt b 60 4, slot := leAt b 14 1 % 2, gen := leAt b 16 4,
    reg := leAt b 20 4, first := leAt b 24 4 }

/-! ## Substitutions (R231, 09 R260) -/

/-- Substitution over the unknowns of `order`: `co i` lists the earlier unknowns of row i with their coefficients, and
`diag i` the divisor, none for a unit diagonal. -/
def substitute (w : Fmt) (order : List Nat) (co : Nat → List (Nat × Nat)) (diag : Nat → Option Nat) (b : List Nat) :
    Calc (List Nat) :=
  order.foldlM (fun y i => do
    let s ← wDot w ((co i).map (fun e => (e.2, y.getD e.1 0)))
    let r := valSub (wVal w (b.getD i 0)) (wVal w s)
    let v ← match diag i with | some d => cDivTo w r.1 (wVal w d) | none => cRound w r
    pure (y.set i v)) (List.replicate b.length 0)

def below (i : Nat) : List Nat := List.range i
def above (n i : Nat) : List Nat := (List.range (n - i - 1)).map (· + i + 1)

/-- Applies the reflector of column j to a vector. -/
def reflectVec (code : Nat) (x : Fac) (y : List Nat) (j : Nat) : Calc (List Nat) := do
  let w := workFmt code
  let vs := (List.range (x.m - j)).map (fun i => reflectorAt w x.mat j (i + j))
  let u := (Config.reflect code [vs] [x.tau.getD j 0] [← wDot w (vs.zip (y.drop j))]).getD 0 0
  (List.range y.length).mapM (fun i =>
    if i < j then pure (y.getD i 0) else cSub w (y.getD i 0) (reflectorAt w x.mat j i) u)

/-- solve_F in W: the factor's triangles, or Qᵀ and then R. -/
def solveFac (method code : Nat) (x : Fac) (b : List Nat) : Calc (List Nat) := do
  let w := workFmt code
  let n := x.n
  let el := melem x.mat
  let up := List.range n
  let down := (List.range n).reverse
  if method == 1 then
    let y ← substitute w up (fun i => (below i).map (fun j => (j, el i j))) (fun _ => none) (x.perm.map (fun k => b.getD k 0))
    substitute w down (fun i => (above n i).map (fun j => (j, el i j))) (fun i => some (el i i)) y
  else if method == 2 then
    let y ← substitute w up (fun i => (below i).map (fun j => (j, el i j))) (fun i => some (el i i)) b
    substitute w down (fun i => (above n i).map (fun j => (j, el j i))) (fun i => some (el i i)) y
  else
    let y ← (List.range n).foldlM (reflectVec code x) b
    substitute w down (fun i => (above n i).map (fun j => (j, el i j))) (fun i => some (el i i)) (y.take n)

/-- solve_Fᵀ in W, in reverse order, with the inverse of PERM (09 R260). -/
def solveFacT (method code : Nat) (x : Fac) (b : List Nat) : Calc (List Nat) := do
  let w := workFmt code
  let n := x.n
  let el := melem x.mat
  let up := List.range n
  let down := (List.range n).reverse
  if method == 1 then
    let y ← substitute w up (fun i => (below i).map (fun j => (j, el j i))) (fun i => some (el i i)) b
    let z ← substitute w down (fun i => (above n i).map (fun j => (j, el j i))) (fun _ => none) y
    pure ((x.perm.zip z).foldl (fun o e => o.set e.1 e.2) (List.replicate n 0))
  else if method == 2 then solveFac 2 code x b
  else
    let y ← substitute w up (fun i => (below i).map (fun j => (j, el j i))) (fun i => some (el i i)) b
    (List.range n).reverse.foldlM (reflectVec code x) y

/-- The correction of a residual, exactly: Dc × solve_F(RNE_W(Dr × r)), or the transposed solve of 09 R260. -/
def correction (method code : Nat) (x : Fac) (tr : Bool) (r : List Nat) : Calc (List Term) := do
  let w := workFmt code
  let a := if tr then x.dc else x.dr
  let b := if tr then x.dr else x.dc
  let rhs ← (r.zip a).mapM (fun e => cRound w (valMul (f64Val e.1) (f64Val e.2)))
  let z ← if tr then solveFacT method code x rhs else solveFac method code x rhs
  pure ((z.zip b).map (fun e => valMul (wVal w e.1) (f64Val e.2)))

/-- x + d, each element rounded once to f64 (R231). -/
def addCorrection (x : List Nat) (d : List Term) : Calc (List Nat) :=
  (x.zip d).mapM (fun e => let s := valAdd (f64Val e.1) e.2.1; cRound .f64 (s.1, s.2 || e.2.2))

/-- M(r): each block's factor applied to its part, rounded to f64; no blocks mean the identity (09 R241). -/
def precondition (code : Nat) (blocks : List (Nat × Nat)) (fs : List Fac) (tr : Bool) (r : List Nat) : Calc (List Nat) :=
  if blocks.isEmpty then pure r
  else do
    let l ← (blocks.zip fs).mapM (fun e => do
      (← correction 1 code e.2 tr ((r.drop e.1.1).take e.1.2)).mapM (cRound .f64))
    pure (l.flatMap id)

/-- The diagonal blocks of A, factored, and the pivots replaced with the column of the first (09 R241). -/
def factorBlocks (r : SReq) (a : SMat) : Calc (List Fac × (Nat × Nat)) :=
  let d := denseRows a
  (pcBlocks a.n r.pcBlock).foldlM (fun (acc : List Fac × (Nat × Nat)) b => do
    let f ← factorise 1 r.ffmt r.tau b.2 ((List.range b.2).map (fun i => ((d.getD (b.1 + i) []).drop b.1).take b.2))
    pure (acc.1 ++ [f], (acc.2.1 + f.reg.1, if acc.2.1 == 0 && f.reg.1 != 0 then b.1 + f.reg.2 else acc.2.2)))
    ([], (0, 0xFFFFFFFF))

/-- Block factors as the solver state holds them, block by block. -/
def blockParcels (code : Nat) (fs : List Fac) : List (List Byte) := fs.flatMap (facParcels code)

def blocksOfBytes (code : Nat) (bs : List (Nat × Nat)) (b : List Byte) : List Fac :=
  match bs with
  | [] => []
  | x :: t => facOfBytes code x.2 x.2 b :: blocksOfBytes code t (b.drop (slotMap x.2 x.2 (workBytes code)).size)

end Sys2Proof.Machine
end

