-- ==== Sys2Proof/Machine/SolveIter.lean ====
section
/-! DEFINITION. One iteration of each iterative method, on one column: CG, BiCGSTAB, restarted GMRES, the QP loop and
the Gauss–Newton step (spec/09 R240 to R247), and the derivative solves' right-hand side and gradient (R260 to
R262). -/

namespace Sys2Proof.Machine

/-- What every column of a solve shares: the request, the operator, its ranges, the block factors, the free set of a
derivative QP and the bounds of a forward one. -/
structure SCtx where
  r : SReq
  a : SMat
  tr : Bool
  emaxA : Int
  emaxB : Int
  anorm : Nat
  pc : List Fac
  free : Option (List Bool) := none
  lower : List Nat := []
  upper : List Nat := []

def f64One : Nat := 0x3FF0000000000000
def f64Inf : Nat := 0x7FF0000000000000
def f64IsZero (a : Nat) : Bool := valIsZero (f64Val a)
def f64Neg (a : Nat) : Nat := (BitVec.ofNat 64 a ^^^ 0x8000000000000000).toNat
def f64Eq (a b : Nat) : Bool := valEq (f64Val a) (f64Val b)
def f64IsNan (a : Nat) : Bool := valIsNan (f64Val a)
def f32OfF64 (a : Nat) : Nat := (roundVal .f32 .rne false (f64Val a)).bits

/-- Zeroes the elements outside a free set. -/
def restrict (free : Option (List Bool)) (v : List Nat) : List Nat :=
  match free with
  | none => v
  | some l => (v.zip l).map (fun e => if e.2 then e.1 else 0)

/-- The exact y + a × v rounded once, element by element (R240). -/
def axpy (y : List Nat) (a : Nat) (v : List Nat) : Calc (List Nat) :=
  (y.zip v).mapM (fun e => cRound .f64 (mulAdd (f64Val a) (f64Val e.2) (f64Val e.1)))

/-- ⟨u, v⟩ in a cleared window whose base is that of WBOUND over u and v (R240, 04 R121). -/
def inner (h : Nat) (u v : List Nat) : Calc Nat :=
  let b := (u.zip v).foldl (fun (a : Option Int) e =>
    match valExp (f64Val e.1), valExp (f64Val e.2) with
    | some x, some y => some (match a with | some z => max z (x + y + 2) | none => x + y + 2)
    | _, _ => a) none
  cWindow (winBase b h) ((u.zip v).map (fun e => valMul (f64Val e.1) (f64Val e.2)))

def norm2 (h : Nat) (v : List Nat) : Calc Nat := do cSqrt (← inner h v v)

def SCtx.mul (c : SCtx) (v : List Nat) : Calc (List Nat) := product c.a c.tr c.free c.emaxA c.emaxB c.r.headroom v
def SCtx.res (c : SCtx) (b x : List Nat) : Calc (List Nat) := residual c.a c.tr c.free c.emaxA c.emaxB c.r.headroom b x
def SCtx.pre (c : SCtx) (v : List Nat) : Calc (List Nat) := do
  pure (restrict c.free (← precondition c.r.ffmt (pcBlocks c.a.n c.r.pcBlock) c.pc c.tr v))
def SCtx.dot (c : SCtx) (u v : List Nat) : Calc Nat := inner c.r.headroom u v

/-- t(x) of a tolerance, a matrix norm, an iterate and a right-hand side (08 R231, R242). -/
def thresholdOf (tol anorm : Nat) (b x : List Nat) : Calc Nat := do
  cMul tol (← cAdd (← cMul anorm (← cNorm x)) (← cNorm b))

def SCtx.threshold (c : SCtx) (b x : List Nat) : Calc Nat := thresholdOf c.r.tol c.anorm b x

/-- passes(r) (R242). -/
def SCtx.passes (c : SCtx) (b x r : List Nat) : Calc Bool := do
  pure (f64Lt (← cNorm r) (← c.threshold b x) || r.all f64IsZero)

def SolveCol.vec (k : SolveCol) (i : Nat) : List Nat := kget [] k.vecs i
def SolveCol.setVec (k : SolveCol) (i : Nat) (v : List Nat) : SolveCol := { k with vecs := kset [] k.vecs i v }
def SolveCol.num (k : SolveCol) (i : Nat) : Nat := kget 0 k.scal i
def SolveCol.setNum (k : SolveCol) (i v : Nat) : SolveCol := { k with scal := kset 0 k.scal i v }
def SolveCol.setRes (k : SolveCol) (i : Nat) (r : List Nat) : SolveCol :=
  { k.setVec i r with resid := some (normInf r) }

/-! ## CG (R244): vectors 0 r, 1 p; number 0 rz -/

def cgInit (c : SCtx) (k : SolveCol) (r : List Nat) : Calc SolveCol := do
  let z ← c.pre r
  pure { ((k.setRes 0 r).setVec 1 z).setNum 0 (← c.dot r z) with started := true }

/-- The test of R242 and R243 on the recursive residual, with a restart where the true one fails. -/
def krylovTest (c : SCtx) (b : List Nat) (init : SolveCol → List Nat → Calc SolveCol) (k : SolveCol) :
    Calc SolveCol := do
  if c.r.fixed then pure k
  else if !(← c.passes b k.x (k.vec 0)) then pure k
  else
    let r ← c.res b k.x
    if ← c.passes b k.x r then pure { k.setRes 0 r with done := 1 } else init k r

def cgTop (c : SCtx) (b : List Nat) (k : SolveCol) : Calc SolveCol := do
  krylovTest c b (cgInit c) (← if k.started then pure k else do cgInit c k (← c.res b k.x))

def cgStep (c : SCtx) (k : SolveCol) : Calc SolveCol := do
  let p := k.vec 1
  let q ← c.mul p
  let pq ← c.dot p q
  if !c.r.fixed && (!f64IsFinite pq || f64Le pq 0) then pure { k with done := 2 }
  else
    let a ← cDiv (k.num 0) pq
    let x ← axpy k.x a p
    let r ← axpy (k.vec 0) (f64Neg a) q
    let z ← c.pre r
    let rz1 ← c.dot r z
    let p1 ← axpy z (← cDiv rz1 (k.num 0)) p
    pure { ((k.setRes 0 r).setVec 1 p1).setNum 0 rz1 with x := x }

/-! ## BiCGSTAB (R244): vectors 0 r, 1 rh, 2 p, 3 v; numbers 0 rho, 1 a, 2 w -/

def bicgInit (k : SolveCol) (r : List Nat) : SolveCol :=
  let z := r.map (fun _ => 0)
  { ((((((k.setRes 0 r).setVec 1 r).setVec 2 z).setVec 3 z).setNum 0 f64One).setNum 1 f64One).setNum 2 f64One with
    started := true }

def bicgTop (c : SCtx) (b : List Nat) (k : SolveCol) : Calc SolveCol := do
  krylovTest c b (fun k r => pure (bicgInit k r))
    (← if k.started then pure k else do pure (bicgInit k (← c.res b k.x)))

def bicgStep (c : SCtx) (k : SolveCol) : Calc SolveCol := do
  let stop (v : Nat) : Bool := !c.r.fixed && f64IsZero v
  let broke : SolveCol := { k with done := 2 }
  let rh := k.vec 1
  let rho1 ← c.dot rh (k.vec 0)
  if stop rho1 then pure broke
  else
    let beta ← cMul (← cDiv rho1 (k.num 0)) (← cDiv (k.num 1) (k.num 2))
    let p ← axpy (k.vec 0) beta (← axpy (k.vec 2) (f64Neg (k.num 2)) (k.vec 3))
    let ph ← c.pre p
    let v ← c.mul ph
    let d ← c.dot rh v
    if stop d then pure broke
    else
      let a ← cDiv rho1 d
      let s ← axpy (k.vec 0) (f64Neg a) v
      let sh ← c.pre s
      let t ← c.mul sh
      let tt ← c.dot t t
      if stop tt then pure broke
      else
        let w ← cDiv (← c.dot t s) tt
        if stop w then pure broke
        else
          let x ← axpy (← axpy k.x a ph) w sh
          let r ← axpy s (f64Neg w) t
          pure { (((((k.setRes 0 r).setVec 2 p).setVec 3 v).setNum 0 rho1).setNum 1 a).setNum 2 w with x := x }

/-! ## Restarted GMRES (R244): number 0 is j; vectors 1 g, 2 c, 3 s, 1000 + i v_i, 2000 + i z_i, 3000 + i column i -/

/-- The start of a cycle: the true residual, the test, and the first basis vector. -/
def gmresTop (c : SCtx) (b : List Nat) (k : SolveCol) : Calc SolveCol := do
  if k.started && k.num 0 != 0 then pure k
  else
    let r ← c.res b k.x
    let k1 : SolveCol := { k.setRes 0 r with started := true }
    let pass ← if c.r.fixed then pure false else c.passes b k.x r
    if pass then pure { k1 with done := 1 }
    else
      let beta ← norm2 c.r.headroom r
      let v ← r.mapM (fun e => cDiv e beta)
      let t ← c.threshold b k.x
      pure { k1 with vecs := kset [] (kset [] [(0, r)] 1 [beta]) 1000 v, scal := kset 0 [] 1 t }

/-- Modified Gram–Schmidt against v_0 to v_j: the coefficients and what is left of w. -/
def orthogonalise (c : SCtx) (k : SolveCol) (n : Nat) (w : List Nat) : Calc (List Nat × List Nat) :=
  (List.range n).foldlM (fun (a : List Nat × List Nat) i => do
    let v := k.vec (1000 + i)
    let h ← c.dot a.2 v
    pure (a.1 ++ [h], ← axpy a.2 (f64Neg h) v)) ([], w)

/-- The earlier rotations applied to a new column. -/
def rotateColumn (cs sn col : List Nat) : List Nat :=
  (List.range cs.length).foldl (fun a i =>
    let r := Config.givensApply (cs.getD i 0) (sn.getD i 0) (a.getD i 0) (a.getD (i + 1) 0)
    (a.set i r.1).set (i + 1) r.2) col

/-- The end of a cycle of j columns: the triangle in f64, back to front, and x. -/
def gmresEnd (k : SolveCol) (j : Nat) : Calc SolveCol := do
  let el (i l : Nat) : Nat := (k.vec (3000 + l)).getD i 0
  let y ← substitute .f64 (List.range j).reverse (fun i => (above j i).map (fun l => (l, el i l)))
    (fun i => some (el i i)) ((k.vec 1).take j)
  let x ← (List.range j).foldlM (fun x i => axpy x (y.getD i 0) (k.vec (2000 + i))) k.x
  pure { k with x := x, vecs := [], scal := [], resid := none }

/-- One inner iteration; `last` says that the iteration cap is reached by it. -/
def gmresStep (c : SCtx) (last : Bool) (k : SolveCol) : Calc SolveCol := do
  let j := k.num 0
  let z ← c.pre (k.vec (1000 + j))
  let o ← orthogonalise c k (j + 1) (← c.mul z)
  let h ← norm2 c.r.headroom o.2
  let col := rotateColumn (k.vec 2) (k.vec 3) (o.1 ++ [h])
  let g := Config.givensForm (col.getD j 0) (col.getD (j + 1) 0)
  let gg := Config.givensApply g.1 g.2.1 ((k.vec 1).getD j 0) 0
  let k1 := (((((k.setVec (2000 + j) z).setVec (3000 + j) (col.set j g.2.2)).setVec 2 (k.vec 2 ++ [g.1])).setVec 3
    (k.vec 3 ++ [g.2.1])).setVec 1 ((k.vec 1).take j ++ [gg.1, gg.2])).setNum 0 (j + 1)
  let small := !c.r.fixed && valLt (valAbs (f64Val gg.2)) (f64Val (k.num 1))
  if f64IsZero h || last || small || c.r.restart ≤ j + 1 then gmresEnd k1 (j + 1)
  else pure (k1.setVec (1001 + j) (← o.2.mapM (fun v => cDiv v h)))

/-! ## The box-constrained QP (R245): vectors 0 r, 1 p, 4 the free set; numbers 0 rz, 1 inside the repeat loop -/

def clampTo (l u x : Nat) : Nat := if f64Lt x l then l else if f64Lt u x then u else x
def clampAll (lo up x : List Nat) : List Nat := (x.zip (lo.zip up)).map (fun e => clampTo e.2.1 e.2.2 e.1)

/-- Whether unknown i is free at x with gradient g. -/
def qpFree (l u x g : Nat) : Bool :=
  f64Lt l u && !(f64Eq x l && f64Le 0 g) && !(f64Eq x u && f64Le g 0)

def qpFreeSet (c : SCtx) (x r : List Nat) : List Bool :=
  (List.range x.length).map (fun i =>
    qpFree (c.lower.getD i 0) (c.upper.getD i 0) (x.getD i 0) (f64Neg (r.getD i 0)))

/-- Values of the active map at an iterate (R238). -/
def activeMap (c : SCtx) (b x : List Nat) : Calc (List Nat) := do
  let r ← c.res b x
  pure ((List.range x.length).map (fun i =>
    let l := c.lower.getD i 0
    let u := c.upper.getD i 0
    if f64Eq l u then 3
    else if qpFree l u (x.getD i 0) (f64Neg (r.getD i 0)) then 0
    else if f64Eq (x.getD i 0) l then 1 else 2))

def qpTop (c : SCtx) (b : List Nat) (k : SolveCol) : Calc SolveCol := do
  if k.num 1 != 0 then pure k
  else
    let x := if k.started then k.x else clampAll c.lower c.upper k.x
    let r0 ← c.res b x
    let fs := qpFreeSet c x r0
    let r := restrict (some fs) r0
    let k1 : SolveCol := { k.setRes 0 r with x := x, started := true }
    let pass ← if c.r.fixed then pure false else c.passes b x r
    if pass then pure { k1 with done := 1 }
    else
      let z := restrict (some fs) (← c.pre r)
      pure (((k1.setVec 1 z).setVec 4 (fs.map boolNat)).setNum 0 (← c.dot r z))

/-- The step to a finite bound, rounded toward zero; none for a component that does not move, or has no bound. -/
def boundStep (l u x p : Nat) : Calc (Option Nat) := do
  let v := f64Val p
  let t := f64Val (if valNegative v then l else u)
  if valIsNan v || valIsZero v || !valFinite t then pure none
  else
    let q := valDiv (valSub t (f64Val x)).1 v
    pure (some (← onVe (resInv (roundVal .f64 .rtz false q.1) q.2.1)))

/-- One step of the repeat loop; `last` says that the iteration cap is reached by it. -/
def qpStep (c : SCtx) (b : List Nat) (last : Bool) (k : SolveCol) : Calc SolveCol := do
  let p := k.vec 1
  let fs := (k.vec 4).map (fun v => v == 1)
  let q ← c.mul p
  let pq ← c.dot p q
  if !c.r.fixed && f64Le pq 0 then pure { k with done := 2 }
  else
    let a ← cDiv (k.num 0) pq
    let steps ← (List.range p.length).mapM (fun i =>
      if fs.getD i false then boundStep (c.lower.getD i 0) (c.upper.getD i 0) (k.x.getD i 0) (p.getD i 0) else pure none)
    let amax := steps.foldl (fun m t => match t with | some v => if f64Lt v m then v else m | none => m) f64Inf
    if f64Le amax a then
      let x ← axpy k.x amax p
      let x1 := (List.range x.length).map (fun i =>
        if (match steps.getD i none with | some v => f64Eq v amax | none => false) then
          (if valNegative (f64Val (p.getD i 0)) then c.lower.getD i 0 else c.upper.getD i 0)
        else x.getD i 0)
      pure { k.setNum 1 0 with x := x1, resid := none }
    else
      let x ← axpy k.x a p
      let r ← axpy (k.vec 0) (f64Neg a) q
      let k1 : SolveCol := { k.setRes 0 r with x := x }
      let pass ← if last || c.r.fixed then pure last else c.passes b x r
      if pass then pure (k1.setNum 1 0)
      else
        let z := restrict (some fs) (← c.pre r)
        let rz1 ← c.dot r z
        let p1 ← axpy z (← cDiv rz1 (k.num 0)) p
        pure (((k1.setVec 1 p1).setNum 0 rz1).setNum 1 1)

/-! ## Gauss–Newton (R247) -/

/-- Jᵀ v, each element in a cleared window with the base of R222. -/
def jtMul (h n : Nat) (j : List (List Nat)) (v : List Nat) : Calc (List Nat) :=
  let base := residualBase (emaxOf (j.flatMap id)) (emaxOf v) (-32768) h
  (List.range n).mapM (fun k => cWindow base (((colOf j k).zip v).map (fun e => valMul (f64Val e.1) (f64Val e.2))))

/-- −(J d + F), each row in a cleared window with the base of R222. -/
def gnResidual (h : Nat) (j : List (List Nat)) (f d : List Nat) : Calc (List Nat) :=
  let base := residualBase (emaxOf (j.flatMap id)) (emaxOf d) (emaxOf f) h
  (j.zip f).mapM (fun r =>
    cWindow base ((r.1.zip d).map (fun e => termNeg (valMul (f64Val e.1) (f64Val e.2))) ++ [termNeg (f64Term r.2)]))

/-- The test of the outer loop. -/
def gnConverged (r : SReq) (j : List (List Nat)) (f g : List Nat) : Calc Bool := do
  if r.fixed then pure false
  else
    let nf ← cNorm f
    let t ← cMul r.tol (← cMul (← cNorm (j.flatMap id)) nf)
    pure (f64Lt (← cNorm g) t || f64IsZero nf)

/-- The step d from the QR factor, before its refinement. -/
def gnStep (code : Nat) (x : Fac) (f : List Nat) : Calc (List Nat) := do
  (← correction 3 code x false f).mapM (fun v => cRound .f64 (termNeg v))

/-- The refinement of d on Jᵀ(J d + F) = 0: at most `k` corrections by the QR factor, with the test of 08 R231 on
Jᵀ(J d + F) (R247). -/
def gnRefine (k : Nat) (q : SReq) (x : Fac) (n : Nat) (j : List (List Nat)) (f g d : List Nat) : Calc (List Nat) := do
  match k with
  | 0 => pure d
  | k + 1 =>
    let r ← gnResidual q.headroom j f d
    let ok ← if q.fixed then pure false else do
      let t ← thresholdOf q.tol (Config.gnNorm j) g d
      pure (f64Lt (← cNorm (← jtMul q.headroom n j r)) t)
    if ok then pure d
    else gnRefine k q x n j f g (← addCorrection d (← correction 3 q.ffmt x false r))

/-! ## Derivative solves (R260 to R262) -/

/-- ḃ − Ȧ x, with +0 in every fixed row. -/
def tangentRhs (r : SReq) (cons : Bool) (ad : SMat) (emaxC emaxD : Int) (fixed : List Nat) (d x : List Nat) :
    Calc (List Nat) :=
  let e := if cons && emaxC != -32768 then emaxC + 1 else emaxC
  residual ad false (some ((List.range ad.n).map (fun i => !fixed.contains i))) e emaxD r.headroom d x

/-- −λ_i x_j and, under CONSERVATIVE, + λ_i x_i′, over all columns, rounded once. -/
def gradElem (f : Fmt) (lam xs : List (List Nat)) (i j : Nat) (ic : Option Nat) : Res :=
  let terms := (lam.zip xs).flatMap (fun c =>
    let li := f64Val (c.1.getD i 0)
    (valNeg (valMul li (f64Val (c.2.getD j 0))).1) ::
      (match ic with | some k => [(valMul li (f64Val (c.2.getD k 0))).1] | none => []))
  roundVal f .rne false (exactSum terms).1

def zeroRes : Res := ⟨0, {}, false, false⟩

/-- The coefficient gradient in the layout of COEF (R261). -/
def gradient (t : STab) (a : SMat) (conn : Nat → Nat → Nat) (f : Fmt) (fixed : List Nat) (lam xs : List (List Nat)) :
    List Res :=
  let el (i j : Nat) (ic : Option Nat) : Res := if fixed.contains i then zeroRes else gradElem f lam xs i j ic
  match t.kind with
  | 0 => (List.range t.dim0).flatMap (fun i => (List.range t.dim0).map (fun j => el i j none))
  | 1 =>
    (List.range t.cells).flatMap (fun cell => (List.range t.points).flatMap (fun p =>
      (List.range t.u).flatMap (fun x => (List.range t.u).map (fun y =>
        let o := t.offs.getD p (0, 0, 0)
        match t.neighbour cell o with
        | none => zeroRes
        | some nb => el (cell * t.u + x) (nb * t.u + y)
            (if t.conservative && o != (0, 0, 0) then some (cell * t.u + y) else none)))))
  | 2 =>
    let w := t.points * t.u
    (List.range t.dim0).flatMap (fun e => (List.range w).flatMap (fun i => (List.range w).map (fun j =>
      el (conn e (i / t.u) * t.u + i % t.u) (conn e (j / t.u) * t.u + j % t.u) none)))
  | _ =>
    (List.range a.rows.length).flatMap (fun br => (a.rows.getD br []).flatMap (fun e =>
      (List.range (a.u * a.u)).map (fun k => el (br * a.u + k / a.u) (e.1 * a.u + k % a.u) none)))

end Sys2Proof.Machine
end

