-- ==== Sys2Proof/Machine/StackEngine.lean ====
section
/-! DEFINITION. Stack engines: descriptors, the update rule, reductions, gather, drop, verify and the abort (spec/10
R264 to R279, R284, R285, R288 to R296). -/

namespace Sys2Proof.Machine

def seMaster (t : Nat) : Nat := 48 + t
def seBy (slot : Nat) : By := ⟨6, some slot⟩

/-! ## Descriptors (R265, R267, R271, R288, R291) -/

/-- Fields of an UPDATE descriptor (R271); `regs` are W, M, V, G, META, REM, TOUCH, PFREEZE, EFREEZE. -/
structure UDesc where
  round : Nat
  gated : Bool
  watch : Nat
  step : Nat
  count : Nat
  regs : List Nat
  lr : Nat
  beta1 : Nat
  beta2 : Nat
  eps : Nat
  wdecay : Nat
  gscale : Nat
  key : Nat
  deriving DecidableEq, Repr

def udescOf (b : List Byte) : UDesc :=
  { round := leAt b 5 1 % 4, gated := (leAt b 7 1).testBit 7, watch := leAt b 7 1 % 16, step := leAt b 8 4,
    count := leAt b 12 4, regs := (List.range 9).map (fun i => leAt b (16 + 8 * i) 8), lr := leAt b 88 8,
    beta1 := leAt b 96 8, beta2 := leAt b 104 8, eps := leAt b 112 8, wdecay := leAt b 120 8, gscale := leAt b 128 8,
    key := leAt b 136 8 }

def UDesc.parcels (d : UDesc) : Nat := ceilDiv d.count 2048
def UDesc.region (d : UDesc) (i : Nat) : Nat := d.regs.getD i 0
/-- Parcels of each region (R269). -/
def UDesc.sizes (d : UDesc) : List Nat :=
  let p := d.parcels
  [p, 2 * p, 2 * p, 2 * p, ceilDiv p 256, ceilDiv p 2, ceilDiv p 32768, ceilDiv p 32768, ceilDiv d.count 32768]

/-- Fields of a REDUCE descriptor (R288). -/
structure RDesc where
  fmtIn : Nat
  fmtOut : Nat
  satWide : Bool
  kind : Nat
  elements : Nat
  sources : Nat
  dst : Nat
  list : Nat
  deriving DecidableEq, Repr

def rdescOf (b : List Byte) : RDesc :=
  let f := leAt b 5 1
  let k := leAt b 7 1
  { fmtIn := f % 16, fmtOut := f / 16, satWide := k.testBit 7, kind := k % 4, elements := leAt b 8 4,
    sources := leAt b 12 4, dst := leAt b 16 8, list := leAt b 24 8 }

/-- Bytes of one element of a REDUCE's input or output. -/
def RDesc.width (d : RDesc) (f : Nat) : Nat := if d.kind == 2 then 1 else fmtBits (fmtOr (f % 4)) / 8
def RDesc.dstBytes (d : RDesc) : Nat := d.elements * d.width d.fmtOut
def RDesc.srcBytes (d : RDesc) : Nat := d.elements * d.width d.fmtIn

/-- Fields of a GATHER, DROP or VERIFY descriptor (R291). -/
structure GDesc where
  slot : Nat
  base : Nat
  parcels : Nat
  count : Nat
  list : Nat
  deriving DecidableEq, Repr

def gdescOf (b : List Byte) : GDesc :=
  { slot := leAt b 5 1, base := leAt b 8 8, parcels := leAt b 16 4, count := leAt b 20 4, list := leAt b 24 8 }

def seOpcode (b : List Byte) : Nat := leAt b 4 1
def seTile (b : List Byte) : Nat := leAt b 6 1 % 8

/-- Whether [a, a + n) lies inside tile t's share of one tile-local region (01 R46, 12 R305). -/
def onTile (img : List Byte) (t a n : Nat) : Bool :=
  match tileLocalAt img a with
  | none => false
  | some r =>
    let l := (r.2 - r.1) / 8
    decide (r.1 + t * l ≤ a ∧ a + max n 1 ≤ r.1 + (t + 1) * l)

/-- A region of a descriptor: field offset, address, bytes, and whether it must lie on TILE. -/
structure SeReg where
  off : Nat
  a : Nat
  n : Nat
  tile : Bool
  deriving DecidableEq, Repr

def seOverlap (x y : SeReg) : Bool := x.n != 0 && y.n != 0 && decide (x.a < y.a + y.n ∧ y.a < x.a + x.n)

/-- Reasons 0x21, 0x22 and 0x27 of a list of regions. -/
def seRegionFaults (img : List Byte) (t : Nat) (l : List SeReg) : List (Nat × Nat) :=
  l.flatMap (fun r => broken (badRegion r.a r.n) 0x22 [r.off] ++ broken (r.tile && !onTile img t r.a r.n) 0x21 [r.off]) ++
  (List.range l.length).flatMap (fun i => (l.drop (i + 1)).flatMap (fun y =>
    match l[i]? with
    | some x => broken (seOverlap x y) 0x27 [x.off, y.off]
    | none => []))

/-- A coefficient that is negative or non-finite. -/
def seNeg (v : Nat) : Bool := !f64IsFinite v || f64Lt v 0
def seBeta (v : Nat) : Bool := seNeg v || f64Le f64One v

def updateFaults (s : State) (b : List Byte) : List (Nat × Nat) :=
  let d := udescOf b
  let regs : List SeReg := (List.range 9).filterMap (fun i =>
    let a := d.region i
    if 5 ≤ i && a == 0 then none else some ⟨16 + 8 * i, a, d.sizes.getD i 0 * 4096, true⟩)
  let w := s.watch d.watch
  broken (3 ≤ leAt b 5 1) 0x20 [5] ++ broken (leAt b 7 1 / 16 % 8 != 0) 0x20 [7] ++
  broken (leAt b 144 16 != 0) 0x20 [144] ++ seRegionFaults s.image.inForce (seTile b) regs ++
  broken (d.step == 0 || d.step == 0xFFFFFFFF) 0x23 [8] ++ broken (d.count == 0 || 2 ^ 31 < d.count) 0x23 [12] ++
  broken (seNeg d.lr) 0x24 [88] ++ broken (seBeta d.beta1) 0x24 [96] ++ broken (seBeta d.beta2) 0x24 [104] ++
  broken (seNeg d.eps || f64Le d.eps 0) 0x24 [112] ++ broken (seNeg d.wdecay) 0x24 [120] ++
  broken (seNeg d.gscale) 0x24 [128] ++
  broken (f64IsFinite d.lr && f64IsFinite d.wdecay &&
    valLe (f64Val f64One) (valMul (f64Val d.lr) (f64Val d.wdecay)).1) 0x24 [88, 120] ++
  broken ((d.round == 1) != (d.region 5 != 0)) 0x25 [5, 56] ++
  broken (d.gated && !w.enabled) 0x26 [7] ++ broken (d.gated && decide (d.step + 64 ≤ w.openStep)) 0x26 [7, 8]

def reduceFaults (s : State) (b : List Byte) : List (Nat × Nat) :=
  let d := rdescOf b
  broken (4 ≤ d.fmtIn || 4 ≤ d.fmtOut || (d.kind == 2 && leAt b 5 1 != 0) || (d.kind == 1 && d.fmtIn != d.fmtOut))
    0x20 [5] ++
  broken (d.kind == 3 || leAt b 7 1 / 4 % 32 != 0) 0x20 [7] ++ broken (leAt b 32 32 != 0) 0x20 [32] ++
  broken (d.elements == 0 || 2 ^ 31 < d.elements) 0x23 [8] ++ broken (d.sources < 2 || 64 < d.sources) 0x23 [12] ++
  seRegionFaults s.image.inForce (seTile b)
    [⟨16, d.dst, roundUp d.dstBytes 4096, true⟩, ⟨24, d.list, 8 * d.sources, false⟩]

def stagingFaults (s : State) (b : List Byte) : List (Nat × Nat) :=
  let d := gdescOf b
  let op := seOpcode b
  let g := s.seg (seTile b)
  let st := kget {} g.stage d.slot
  let overlap := g.stage.any (fun e => e.2.st ≠ .empty && decide (d.base < e.2.base + e.2.parcels * 4096 ∧
    e.2.base < d.base + d.parcels * 4096))
  broken (leAt b 7 1 != 0) 0x20 [7] ++ broken (leAt b 32 32 != 0) 0x20 [32] ++
  (if op == 3 then
    broken (63 < d.slot) 0x20 [5] ++ broken (d.parcels == 0 || 2 ^ 24 < d.parcels) 0x23 [16] ++
    broken (d.count == 0 || 4096 < d.count) 0x23 [20] ++
    seRegionFaults s.image.inForce (seTile b) [⟨8, d.base, d.parcels * 4096, true⟩, ⟨24, d.list, d.count * 16, false⟩] ++
    broken (st.st ≠ .empty) 0x28 [5] ++ broken overlap 0x28 [8, 16]
  else if op == 4 then
    broken (63 < d.slot) 0x20 [5] ++ broken (d.base != 0) 0x20 [8] ++ broken (d.parcels != 0) 0x20 [16] ++
    broken (d.count != 0) 0x20 [20] ++ broken (d.list != 0) 0x20 [24] ++ broken (st.st ≠ .full) 0x28 [5]
  else
    broken (d.slot != 0) 0x20 [5] ++ broken (d.parcels == 0 || 2 ^ 24 < d.parcels) 0x23 [16] ++
    broken (d.count == 0 || 4095 < d.count) 0x23 [20] ++
    seRegionFaults s.image.inForce (seTile b)
      [⟨8, d.base, d.parcels * 4096, true⟩, ⟨24, d.list, 8 + 8 * d.count, false⟩])

/-- The field and reason of a malformed descriptor (R267, R551); the other rules need a known OPCODE. -/
def seMalformed (s : State) (b : List Byte) : Option (Nat × Nat) :=
  let op := seOpcode b
  let head := broken (op == 0 || 5 < op) 0x20 [4] ++ broken (8 ≤ leAt b 6 1) 0x20 [6]
  worstField (head ++ (if op == 1 then updateFaults s b else if op == 2 then reduceFaults s b
    else if 3 ≤ op && op ≤ 5 then stagingFaults s b else []))

/-- Accepts a descriptor, up to 16 a group (R266). -/
def execSeDescriptor (slot : Slot) (s : State) : Result :=
  .next (
    match s.op slot with
    | none => s
    | some o =>
      let t := seTile o.payload
      let g := s.seg t
      if o.kind != 4 || o.place ≠ .atIssuer || 16 ≤ g.queue.length then s
      else match seMalformed s o.payload with
        | some e => opMalformed s slot e.2 e.1
        | none => opPlace (s.setSeg t { g with queue := g.queue ++ [(slot.val, o.payload)] }) slot .queued)

/-! ## Reads, commits and the end of an operation (R268) -/

/-- The stack whose engine takes piece j of an operation. -/
def seStackOf (t : Nat) (b : List Byte) (j : Nat) : Nat := 4 * t + Config.engineOf t (leAt b 0 4) j % 4

def setSeRun (s : State) (t : Nat) (r : Option SeRun) : State := s.setSeg t { s.seg t with run := r }

/-- What ends with an operation: a GATHER that did not finish leaves its slot EMPTY (R292). -/
def dropSeRun (s : State) (t : Nat) (r : SeRun) (st : StageSt) : State :=
  let s1 := reqDrop (setSeRun s t none) r.tags
  if seOpcode r.desc == 3 then
    let g := s1.seg t
    let d := gdescOf r.desc
    s1.setSeg t { g with stage := kset {} g.stage d.slot (if st = .full then ⟨.full, d.base, d.parcels⟩ else {}) }
  else s1

def seFail (s : State) (t : Nat) (r : SeRun) (status detail : Nat) : State :=
  opFail (dropSeRun s t r .empty) r.slot status detail

def addrDetail (a : Nat) : Nat := detail2 a (a / 2 ^ 32)

/-- A failed read of the operation: counted where it is a seal mismatch. -/
def seReadFail (s : State) (t : Nat) (r : SeRun) (j status a : Nat) : State :=
  let k := seStackOf t r.desc j
  let s1 := if status == stSeal then
      let x := s.sest k
      s.setSest k { x with sealFails := inc32 x.sealFails }
    else s
  seFail s1 t r status (addrDetail a)

/-- Reads parcels of local HBM with the group's rights, every one checked. -/
def seRead (s : State) (t slot : Nat) (l : List Nat) : State × Except (Nat × Nat) (List (List Byte)) :=
  match l with
  | [] => (s, .ok [])
  | k :: rest =>
    match readParcels s (seMaster t) (seBy slot) [k] with
    | (s1, .error e) => (s1, .error e)
    | (s1, .ok d) => match seRead s1 t slot rest with
      | (s2, .ok l) => (s2, .ok (d :: l))
      | x => x

/-- How writing a group ended. -/
structure Wrote where
  bad : Option Put := none
  /-- keys whose delivery was discarded -/
  lost : List Nat := []

/-- Writes a group's parcels, all of them: an interruption or a refusal does not stop the rest (R278). -/
def seWriteAll (s : State) (t slot : Nat) (l : List (Nat × List Byte)) (w : Wrote) : State × Wrote :=
  match l with
  | [] => (s, w)
  | (k, d) :: rest =>
    match localPlace s (seMaster t) none k true with
    | (s1, .mem key) =>
      match deliver s1 .other slot key 0 d (seBy slot) with
      | (s2, .ok) => seWriteAll s2 t slot rest w
      | (s2, p) => seWriteAll s2 t slot rest ⟨some (w.bad.getD p), k :: w.lost⟩
    | (s1, .bad st) => seWriteAll s1 t slot rest ⟨some (w.bad.getD (.fail st)), k :: w.lost⟩
    | (s1, _) => seWriteAll s1 t slot rest ⟨some (w.bad.getD (.fail stBus)), k :: w.lost⟩

/-- The engine of piece j works on the operation (R295). -/
def seWork (s : State) (t : Nat) (r : SeRun) (j : Nat) : State :=
  let k := seStackOf t r.desc j
  s.setSest k { s.sest k with curOp := leAt r.desc 0 4 }

/-- Posts what a piece raised to its engine and to the receipt (R279). -/
def sePost (s : State) (t : Nat) (r : SeRun) (j parcel : Nat) (x : Tally) (groups skips : Nat) : State :=
  let k := seStackOf t r.desc j
  let e := s.sest k
  opTally (s.setSest k { e with
    arith := arithPost e.arith x, groups := add32 e.groups groups, skipReplay := add32 e.skipReplay skips })
    r.slot x (some parcel)

/-! ## The update rule (R272 to R276) -/

/-- Value rounded to f64, with what that raised. -/
def rnd (v : Val × Bool) : Nat × AFlags :=
  let r := roundVal .f64 .rne false v.1
  (r.bits, flagsOr r.fl ⟨v.2, false, false, false⟩)

def fval (x : Nat × AFlags) : Val := f64Val x.1

/-- Bits of n below its leading 1, from high to low. -/
def lowBits (n : Nat) : List Bool := (List.range n.log2).reverse.map (fun i => n.testBit i)

/-- pow_rne of R273. -/
def powRne (b n : Nat) : Nat × AFlags :=
  (lowBits n).foldl (fun (r : Nat × AFlags) bit =>
    let q := rnd (valMul (f64Val r.1) (f64Val r.1))
    let f := flagsOr r.2 q.2
    if bit then
      let m := rnd (valMul (f64Val q.1) (f64Val b))
      (m.1, flagsOr f m.2)
    else (q.1, f)) (b, {})

/-- Factors common to the elements of a parcel. -/
structure UFac where
  b1d : Nat
  b2d : Nat
  c1 : Nat
  c2 : Nat
  o1 : Nat
  o2 : Nat
  dec : Nat
  fl : AFlags
  deriving DecidableEq, Repr

def oneLess (v : Nat) : Nat × AFlags := rnd (valSub (f64Val f64One) (f64Val v))

def updFactors (d : UDesc) (dd k : Nat) : UFac :=
  let b1d := powRne d.beta1 dd
  let b2d := powRne d.beta2 dd
  let p1 := powRne d.beta1 k
  let p2 := powRne d.beta2 k
  let c1 := oneLess p1.1
  let c2 := oneLess p2.1
  let o1 := oneLess d.beta1
  let o2 := oneLess d.beta2
  let lw := rnd (valMul (f64Val d.lr) (f64Val d.wdecay))
  let q := oneLess lw.1
  let dec := powRne q.1 dd
  { b1d := b1d.1, b2d := b2d.1, c1 := c1.1, c2 := c2.1, o1 := o1.1, o2 := o2.1, dec := dec.1,
    fl := [b1d.2, b2d.2, p1.2, p2.2, c1.2, c2.2, o1.2, o2.2, lw.2, q.2, dec.2].foldl flagsOr {} }

/-- One element's stored state: weight, remainder, averages. -/
structure UElem where
  w : Nat
  rem : Nat
  m : Nat
  v : Nat
  deriving DecidableEq, Repr

/-- The weight of remainder mode: 24 bits of an f32 (R276). -/
def storeRemainder (x : Val × Bool) : Nat × Nat × Tally :=
  let sat (n : Bool) : Nat := if n then 0xFF7F else 0x7F7F
  match x.1 with
  | .nan _ => (0x7FC0, 0, { fl := ⟨x.2, false, false, false⟩, nonfin := 1 })
  | .inf n => (sat n, 0xFF, { fl := ⟨true, false, false, false⟩, sat := 1, nonfin := 1 })
  | .fin n m e =>
    if m == 0 then ((if n then 0x8000 else 0), 0, {})
    else if magLt 0xFFFF 112 m e then (sat n, 0xFF, { fl := ⟨false, true, false, true⟩, sat := 1 })
    else
      let l := max (log2I m + e) (-126) - 15
      let q := roundQuantum .rne m e l
      let b := (roundVal .f32 .rne false (.fin n q.1 l)).bits
      let u := roundQuantum .rne m e (log2I m + e - 15)
      let tiny := magLt u.1 (log2I m + e - 15) 1 (-126)
      (b / 65536, b / 256 % 256, { fl := ⟨false, false, tiny && q.2, q.2⟩ })

/-- One element of R273 to R276: what is stored, and what is posted. -/
def updElem (d : UDesc) (f : UFac) (e g0 : Nat) (x : UElem) (fresh : Bool) : UElem × Tally :=
  let gv := decodeVal .f32 g0
  let g := rnd (valMul gv (f64Val d.gscale))
  if !valFinite gv || !f64IsFinite g.1 then (x, { fl := flagsOr g.2 ⟨valIsSig gv, false, false, false⟩, nonfin := 1 })
  else
    let m0 := if fresh then valZero else decodeVal .f32 x.m
    let v0 := if fresh then valZero else decodeVal .f32 x.v
    let gf := fval g
    let pm := valMul (f64Val f.b1d) m0
    let pv := valMul (f64Val f.b2d) v0
    let ma := exactSum [pm.1, (valMul (f64Val f.o1) gf).1]
    let m1 := roundVal .f32 .rne false ma.1
    let va := exactSum [pv.1, (valMul (valMul (f64Val f.o2) gf).1 gf).1]
    let v1 := roundVal .f32 .rne false va.1
    let mh := let q := valDiv (decodeVal .f32 m1.bits) (f64Val f.c1); rnd (q.1, q.2.1)
    let vh := let q := valDiv (decodeVal .f32 v1.bits) (f64Val f.c2); rnd (q.1, q.2.1)
    let rt := rnd (valSqrt (fval vh))
    let dn := rnd (valAdd (fval rt) (f64Val d.eps))
    let u := let q := valDiv (fval mh) (fval dn); rnd (q.1, q.2.1)
    let w0 := if d.round == 1 then decodeVal .f32 (x.w * 65536 + x.rem * 256) else decodeVal .b16 x.w
    let a := valMul w0 (f64Val f.dec)
    let b := valMul (f64Val d.lr) (fval u)
    let xx := valSub a.1 b.1
    let inv := a.2 || b.2 || xx.2 || pm.2 || pv.2 || valIsSig w0 || valIsSig m0 || valIsSig v0 || ma.2 || va.2
    let pre : Tally :=
      { fl := [g.2, m1.fl, v1.fl, mh.2, vh.2, rt.2, dn.2, u.2, ⟨inv, false, false, false⟩].foldl flagsOr {},
        sat := boolNat m1.sat + boolNat v1.sat, nonfin := boolNat m1.nonfin + boolNat v1.nonfin }
    if d.round == 1 then
      let r := storeRemainder (xx.1, xx.2)
      ({ w := r.1, rem := r.2.1, m := m1.bits, v := v1.bits }, tallyAdd pre r.2.2)
    else
      let rm : Rm := if d.round == 2 then .rne
        else .sr (franking (BitVec.ofNat 64 d.key) (BitVec.ofNat 64 d.step) (BitVec.ofNat 64 e))
      let r := roundVal .b16 rm false xx.1
      ({ x with w := r.bits, m := m1.bits, v := v1.bits }, tallyAdd pre (resTally r))

/-- A META entry (R269). -/
structure Meta where
  first : Nat
  last : Nat
  seen : Bool
  deriving DecidableEq, Repr

def metaOf (b : List Byte) : Meta := ⟨leAt b 0 4, leAt b 4 4, (leAt b 8 1).testBit 0⟩

/-- A META entry with its other bytes as they were. -/
def metaPut (b : List Byte) (m : Meta) : List Byte :=
  bytesOfNat 4 m.first ++ bytesOfNat 4 m.last ++ bytesOfNat 1 (leAt b 8 1 / 2 * 2 + boolNat m.seen) ++ b.drop 9

def bitmapBit (b : List Byte) (i : Nat) : Bool := (leAt b (i / 8) 1).testBit (i % 8)

/-- The bytes of one weight parcel's group: its own parcels, and its half of the remainder. -/
structure WPar where
  p : Nat
  w : List Byte
  m : List Byte
  v : List Byte
  g : List Byte
  rem : List Byte
  entry : List Byte
  freeze : List Byte
  deriving DecidableEq, Repr

/-- Why a weight parcel is skipped: not at all, silently, or as a replay (R272). -/
inductive Skip where
  | none | silent | replay
  deriving DecidableEq, Repr

def skipOf (d : UDesc) (x : WPar) (touch pfreeze : Bool) : Skip :=
  let e := metaOf x.entry
  if pfreeze || !touch then .silent else if e.seen && d.step ≤ e.last then .replay else .none

/-- Zeroes what lies beyond the last element of a region's last parcel (R269). -/
def zeroBeyond (b : List Byte) (n : Nat) : List Byte := b.take n ++ zeroBytes (b.length - n)

/-- update_parcel of R273: the parcel's new bytes and what its elements raised. -/
def updateParcel (d : UDesc) (x : WPar) : WPar × Tally :=
  let e0 := metaOf x.entry
  let dd := if e0.seen then d.step - e0.last else 1
  let k := if e0.seen then (d.step + 2 ^ 32 - e0.first) % 2 ^ 32 + 1 else 1
  let f := updFactors d dd k
  let base := x.p * 2048
  let count := min 2048 (d.count - base)
  let res := (List.range count).map (fun i =>
    let el : UElem := ⟨leAt x.w (2 * i) 2, leAt x.rem i 1, leAt x.m (4 * i) 4, leAt x.v (4 * i) 4⟩
    if bitmapBit x.freeze (base + i - (base / 32768) * 32768) then (el, ({} : Tally))
    else updElem d f (base + i) (leAt x.g (4 * i) 4) el (!e0.seen))
  let t := res.foldl (fun a r => tallyAdd a r.2) { fl := f.fl }
  let els := res.map Prod.fst
  ({ x with
      w := zeroBeyond (wordsBytes 2 (els.map (fun e => e.w)) ++ x.w.drop (2 * count)) (2 * count),
      m := zeroBeyond (wordsBytes 4 (els.map (fun e => e.m)) ++ x.m.drop (4 * count)) (4 * count),
      v := zeroBeyond (wordsBytes 4 (els.map (fun e => e.v)) ++ x.v.drop (4 * count)) (4 * count),
      rem := zeroBeyond (wordsBytes 1 (els.map (fun e => e.rem)) ++ x.rem.drop count) count,
      entry := metaPut x.entry ⟨if e0.seen then e0.first else d.step, d.step, true⟩ }, t)

/-! ## One group of an UPDATE (R277, R278) -/

/-- Weight parcels of group j: one, or two in remainder mode. -/
def groupParcels (d : UDesc) (j : Nat) : List Nat :=
  if d.round == 1 then [2 * j, 2 * j + 1].filter (fun p => p < d.parcels) else [j]

def groupCount (d : UDesc) : Nat := if d.round == 1 then ceilDiv d.parcels 2 else d.parcels

/-- Parcels a group reads, in order: W, M, V and G of each weight parcel, then META, REM and the bitmaps present. -/
def groupKeys (d : UDesc) (j : Nat) : List Nat :=
  let ps := groupParcels d j
  let p := ps.headD 0
  ps.flatMap (fun p => [d.region 0 + p * 4096, d.region 1 + 2 * p * 4096, d.region 1 + (2 * p + 1) * 4096,
    d.region 2 + 2 * p * 4096, d.region 2 + (2 * p + 1) * 4096, d.region 3 + 2 * p * 4096,
    d.region 3 + (2 * p + 1) * 4096]) ++
  [d.region 4 + p / 256 * 4096] ++ (if d.round == 1 then [d.region 5 + j * 4096] else []) ++
  (if d.region 6 == 0 then [] else [d.region 6 + p / 32768 * 4096]) ++
  (if d.region 7 == 0 then [] else [d.region 7 + p / 32768 * 4096]) ++
  (if d.region 8 == 0 then [] else [d.region 8 + p / 16 * 4096])

/-- The group's parcels as read. -/
structure UGroup where
  ps : List WPar
  entry : List Byte
  rem : List Byte
  touch : List Byte
  pfreeze : List Byte
  deriving DecidableEq, Repr

def groupOf (d : UDesc) (j : Nat) (l : List (List Byte)) : UGroup :=
  let ps := groupParcels d j
  let n := 7 * ps.length
  let i5 := n + 1
  let i6 := i5 + (if d.round == 1 then 1 else 0)
  let i7 := i6 + (if d.region 6 == 0 then 0 else 1)
  let i8 := i7 + (if d.region 7 == 0 then 0 else 1)
  let at' (i : Nat) : List Byte := l.getD i []
  let rem := if d.round == 1 then at' i5 else []
  let ent := at' n
  { ps := (List.range ps.length).map (fun i =>
      let p := ps.getD i 0
      { p := p, w := at' (7 * i), m := at' (7 * i + 1) ++ at' (7 * i + 2), v := at' (7 * i + 3) ++ at' (7 * i + 4),
        g := at' (7 * i + 5) ++ at' (7 * i + 6), rem := bytesAt rem (p % 2 * 2048) 2048,
        entry := bytesAt ent (p % 256 * 16) 16, freeze := if d.region 8 == 0 then [] else at' i8 }),
    entry := ent, rem := rem, touch := at' i6, pfreeze := at' i7 }

/-- Whether and how each weight parcel of a group is skipped. -/
def groupSkips (d : UDesc) (x : UGroup) : List Skip :=
  x.ps.map (fun y =>
    let b := y.p % 32768
    skipOf d y (d.region 6 == 0 || bitmapBit x.touch b) (d.region 7 != 0 && bitmapBit x.pfreeze b))

/-- The parcels a group writes, with the addresses they go to, and its META parcel with every entry beyond the last
weight parcel zero. -/
def groupWrites (d : UDesc) (j : Nat) (x : UGroup) (news : List WPar) : List (Nat × List Byte) :=
  let p := (groupParcels d j).headD 0
  let ent := news.foldl (fun a y => overlay a (y.p % 256 * 16) y.entry) x.entry
  let last := d.parcels - p / 256 * 256
  let rem := news.foldl (fun a y => overlay a (y.p % 2 * 2048) y.rem) x.rem
  news.flatMap (fun y =>
    [(d.region 0 + y.p * 4096, y.w), (d.region 1 + 2 * y.p * 4096, y.m.take 4096),
     (d.region 1 + (2 * y.p + 1) * 4096, y.m.drop 4096), (d.region 2 + 2 * y.p * 4096, y.v.take 4096),
     (d.region 2 + (2 * y.p + 1) * 4096, y.v.drop 4096)]) ++
  (if d.round == 1 then [(d.region 5 + j * 4096, zeroBeyond rem (min 4096 (d.count - j * 4096)))] else []) ++
  [(d.region 4 + p / 256 * 4096, zeroBeyond ent (min 4096 (16 * last)))]

/-- The weight parcel whose W, M or V output holds address k. For a META or REM parcel, which holds the entries of several,
02 R54 does not say which is named: the group's first (DESIGN CHOICE, log 102). -/
def weightParcel (d : UDesc) (j k : Nat) : Nat :=
  ((groupParcels d j).find? (fun p =>
    k == d.region 0 + p * 4096 || k / 8192 == (d.region 1 + 2 * p * 4096) / 8192 ||
    k / 8192 == (d.region 2 + 2 * p * 4096) / 8192)).getD ((groupParcels d j).headD 0)

/-- One group of a running UPDATE, or its end. A weight parcel whose own delivery was discarded posts nothing
(03 R89). -/
def updateStep (s : State) (t : Nat) (r : SeRun) : State :=
  let d := udescOf r.desc
  if groupCount d ≤ r.next then opDone (dropSeRun s t r .empty) r.slot
  else
    let band := (groupParcels d r.next).headD 0 / 256
    match seRead (seWork s t r band) t r.slot (groupKeys d r.next) with
    | (s1, .error e) => seReadFail s1 t r band e.1 e.2
    | (s1, .ok l) =>
      let x := groupOf d r.next l
      let skips := groupSkips d x
      let replays := (skips.filter (fun k => k = .replay)).length
      let todo := (x.ps.zip skips).filterMap (fun e => if e.2 = .none then some (updateParcel d e.1) else none)
      let r1 : SeRun := { r with next := r.next + 1 }
      if todo.isEmpty then setSeRun (sePost s1 t r band 0 {} 0 replays) t (some r1)
      else
        let w := groupWrites d r.next x (todo.map Prod.fst)
        if w.any (fun e => readLocked s1 .other e.1) then s
        else
          let o := seWriteAll s1 t r.slot w {}
          let kept := todo.filter (fun e => !o.2.lost.contains (d.region 0 + e.1.p * 4096))
          let s2 := kept.foldl (fun a e => sePost a t r band e.1.p e.2 0 0) o.1
          let s3 := opCount (sePost s2 t r band 0 {} 1 replays) r.slot (r.done + kept.length)
          match o.2.bad with
          | none => setSeRun s3 t (some { r1 with done := r.done + kept.length })
          | some (.double k) => seFail s3 t r stDouble (detail2 (opIdOf s3 k) (weightParcel d r.next (o.2.lost.getLastD 0)))
          | some (.fail st) => seFail s3 t r st (addrDetail (o.2.lost.getLastD 0))
          | some _ => s3

/-! ## REDUCE (R289, R290) -/

/-- Addresses of the source parcels that elements [e0, e1) need, source by source. -/
def reduceKeys (d : RDesc) (src : Nat) (e0 e1 : Nat) : List Nat :=
  let w := d.width d.fmtIn
  let lo := e0 * w / 4096
  (List.range ((e1 * w - 1) / 4096 + 1 - lo)).map (fun i => src + (lo + i) * 4096)

/-- Reads parcels at device addresses; a remote one may not have answered. -/
def seFetch (s : State) (t slot : Nat) (tags : List Nat) (l : List Nat) :
    State × List Nat × Except (Option (Nat × Nat)) (List (List Byte)) :=
  match l with
  | [] => (s, tags, .ok [])
  | a :: rest =>
    match busParcel s tags (seMaster t) none (BitVec.ofNat 64 a) (seBy slot) with
    | (s1, tg, .ok b) => match seFetch s1 t slot tg rest with
      | (s2, tg2, .ok l) => (s2, tg2, .ok (b :: l))
      | x => x
    | (s1, tg, .fail st) => (s1, tg, .error (some (st, a)))
    | (s1, tg, .wait) => (s1, tg, .error none)

/-- One element of a reduction from its terms' bits (R289). -/
def reduceElem (d : RDesc) (l : List Nat) : Res :=
  let fi := fmtOr d.fmtIn
  let fo := fmtOr d.fmtOut
  let terms : List Term := l.map (fun b => let v := decodeVal fi b; (v, valIsSig v))
  if d.kind == 0 then
    let row := redRow fi false
    redFinish row fo .rne d.satWide (reduceTerms row d.satWide terms).2
  else if d.kind == 1 then
    match terms with
    | [] => ⟨0, {}, false, false⟩
    | a :: rest =>
      let r := roundVal fo .rne false (rest.foldl (fun m x => valMax m x.1) a.1)
      { r with fl := flagsOr r.fl ⟨terms.any (fun x => x.2), false, false, false⟩ }
  else ⟨l.foldl (fun a b => a ||| b) 0, {}, false, false⟩

/-- One DST parcel of a running REDUCE, or its end. -/
def reduceStep (s : State) (t : Nat) (r : SeRun) : State :=
  let d := rdescOf r.desc
  let wo := d.width d.fmtOut
  let wi := d.width d.fmtIn
  let per := 4096 / wo
  let total := ceilDiv d.elements per
  if total ≤ r.next then opDone (dropSeRun s t r .empty) r.slot
  else
    let e0 := r.next * per
    let e1 := min d.elements (e0 + per)
    let keys := r.sources.map (fun x => reduceKeys d x.1 e0 e1)
    match seFetch (seWork s t r r.next) t r.slot r.tags (keys.flatMap id) with
    | (s1, tg, .error none) => setSeRun s1 t (some { r with tags := tg })
    | (s1, tg, .error (some e)) => seReadFail s1 t { r with tags := tg } r.next e.1 e.2
    | (s1, tg, .ok l) =>
      let n := (keys.headD []).length
      let bufs := (List.range keys.length).map (fun i => ((l.drop (i * n)).take n).flatMap id)
      let off := e0 * wi / 4096 * 4096
      let res := (List.range (e1 - e0)).map (fun i =>
        reduceElem d (bufs.map (fun b => leAt b ((e0 + i) * wi - off) wi)))
      let bytes := wordsBytes wo (res.map (fun x => x.bits))
      let x := seWriteAll s1 t r.slot [(d.dst + r.next * 4096, bytes ++ zeroBytes (4096 - bytes.length))] {}
      let r0 : SeRun := { r with tags := tg }
      match x.2.bad with
      | some .wait => setSeRun s1 t (some r0)
      | some (.double k) => seFail x.1 t r0 stDouble (detail2 (opIdOf x.1 k) r.next)
      | some (.fail st) => seFail x.1 t r0 st (addrDetail (d.dst + r.next * 4096))
      | _ =>
        opCount (setSeRun (reqDrop (sePost x.1 t r r.next r.next (tallyAll res) 1 0) tg) t
          (some { r0 with next := r.next + 1, tags := [] })) r.slot (r.next + 1)

/-! ## GATHER and VERIFY (R292, R294) -/

/-- The source address of a gather's parcel i. -/
def gatherSource (l : List (Nat × Nat)) (i : Nat) : Nat :=
  match l with
  | [] => 0
  | e :: rest => if i < e.2 then e.1 + i * 4096 else gatherSource rest (i - e.2)

def gatherStep (s : State) (t : Nat) (r : SeRun) : State :=
  let d := gdescOf r.desc
  if d.parcels ≤ r.next then opDone (dropSeRun s t r .full) r.slot
  else
    let a := gatherSource r.sources r.next
    match seFetch (seWork s t r r.next) t r.slot r.tags [a] with
    | (s1, tg, .error none) => setSeRun s1 t (some { r with tags := tg })
    | (s1, tg, .error (some e)) => seReadFail s1 t { r with tags := tg } r.next e.1 e.2
    | (s1, tg, .ok l) =>
      let x := seWriteAll s1 t r.slot [(d.base + r.next * 4096, l.headD [])] {}
      let r0 : SeRun := { r with tags := tg }
      match x.2.bad with
      | some .wait => setSeRun s1 t (some r0)
      | some (.double k) => seFail x.1 t r0 stDouble (detail2 (opIdOf x.1 k) r.next)
      | some (.fail st) => seFail x.1 t r0 st (addrDetail (d.base + r.next * 4096))
      | _ => opCount (setSeRun (reqDrop x.1 tg) t (some { r0 with next := r.next + 1, tags := [] })) r.slot (r.next + 1)

/-- Writes VERIFY's list, parcel by parcel, keeping the bytes beyond it. -/
def verifyList (s : State) (t : Nat) (r : SeRun) (a : Nat) (l : List (List Byte)) (n : Nat) : State :=
  match l with
  | [] => opDone (dropSeRun s t r .empty) r.slot
  | b :: rest =>
    match writePlace s (seMaster t) none (BitVec.ofNat 64 a) (b.length == 4096) with
    | (s1, .mem key) =>
      match deliver s1 .other r.slot key 0 b (seBy r.slot) with
      | (s2, .ok) => verifyList (opCount s2 r.slot (n + 1)) t r (a + 4096) rest (n + 1)
      | (_, .wait) => s
      | (s2, .fail st) => seReadFail s2 t r n st a
      | (s2, .double k) => seFail s2 t r stDouble (detail2 (opIdOf s2 k) n)
    | (s1, .bad st) => seFail s1 t r st (addrDetail a)
    | (s1, _) => seFail s1 t r stBus (addrDetail a)

/-- One parcel of a running VERIFY, or its list and its end. -/
def verifyStep (s : State) (t : Nat) (r : SeRun) : State :=
  let d := gdescOf r.desc
  if d.parcels ≤ r.next then
    let l := bytesOfNat 8 r.fails.length ++ f64Bytes (r.fails.take d.count)
    verifyList s t r (d.list) (chunks 4096 l) 0
  else
    let a := d.base + r.next * 4096
    let r1 : SeRun := { r with next := r.next + 1 }
    match seRead (seWork s t r r.next) t r.slot [a] with
    | (s1, .ok _) => setSeRun s1 t (some r1)
    | (s1, .error e) =>
      if e.1 == stSeal then
        let k := seStackOf t r.desc r.next
        let x := s1.sest k
        setSeRun (s1.setSest k { x with sealFails := inc32 x.sealFails }) t (some { r1 with fails := r.fails ++ [a] })
      else seReadFail s1 t r r.next e.1 e.2

/-! ## Start (R266, R284, R285) -/

/-- Pairs of regions of a list that overlap, as a rule broken at the list and at the fields of the regions. -/
def listOverlaps (l : List SeReg) : List (Nat × Nat) :=
  (List.range l.length).flatMap (fun i => (l.drop (i + 1)).flatMap (fun y =>
    match l[i]? with
    | some x => broken (seOverlap x y) 0x27 [x.off, y.off, 24]
    | none => []))

/-- A local source that is misaligned or reaches beyond the HBM range (R267 0x22). -/
def badSource (a n : Nat) : Bool := a % 4096 != 0 || (!a.testBit 63 && decide (hbmEnd < a + n))

/-- What a list names, and the rules that only its contents show, as field and reason (R267, R289, R292). -/
def listFaults (b : List Byte) (l : List Byte) : List (Nat × Nat) × List (Nat × Nat) :=
  if seOpcode b == 2 then
    let d := rdescOf b
    let src := (List.range d.sources).map (fun i => leAt l (8 * i) 8)
    let regs : List SeReg := src.map (fun a => ⟨24, a, d.srcBytes, false⟩)
    let dst : SeReg := ⟨16, d.dst, roundUp d.dstBytes 4096, true⟩
    (src.map (fun a => (a, 0)),
     src.flatMap (fun a => broken (badSource a d.srcBytes) 0x22 [24]) ++
     listOverlaps (⟨24, d.list, 8 * d.sources, false⟩ :: regs) ++
     (List.range regs.length).flatMap (fun i => match regs[i]? with
       | some x => broken (!(i == 0 && x.a == d.dst) && seOverlap x dst) 0x27 [16, 24]
       | none => []))
  else
    let d := gdescOf b
    let src := (List.range d.count).map (fun i => (leAt l (16 * i) 8, leAt l (16 * i + 8) 4))
    let regs : List SeReg := src.map (fun e => ⟨24, e.1, e.2 * 4096, false⟩)
    (src,
     broken ((List.range d.count).any (fun i => leAt l (16 * i + 12) 4 != 0)) 0x20 [24] ++
     src.flatMap (fun e => broken (badSource e.1 (e.2 * 4096)) 0x22 [24]) ++
     broken ((src.map Prod.snd).sum != d.parcels) 0x23 [16, 24] ++
     listOverlaps (⟨8, d.base, d.parcels * 4096, true⟩ :: ⟨24, d.list, 16 * d.count, false⟩ :: regs))

/-- Puts the head of a group's queue to work. -/
def seBegin (s : State) (t slot : Nat) (b : List Byte) (sources : List (Nat × Nat)) : State :=
  let g := s.seg t
  let s1 := s.setSeg t { g with
    queue := g.queue.drop 1, run := some { slot := slot, desc := b, sources := sources },
    waiting := none, posted := false,
    stage := if seOpcode b == 3 then kset {} g.stage (gdescOf b).slot ⟨.filling, (gdescOf b).base, (gdescOf b).parcels⟩
             else if seOpcode b == 4 then kset {} g.stage (gdescOf b).slot {} else g.stage }
  opStart s1 slot

/-- Takes the head off a group's queue without work. -/
def sePop (s : State) (t : Nat) : State :=
  let g := s.seg t
  s.setSeg t { g with queue := g.queue.drop 1, waiting := none, posted := false }

/-- A gated step: nothing read or written (R284). -/
def seGated (s : State) (t slot : Nat) (b : List Byte) (reason : Nat) : State :=
  opFinal (opStart (sePop s t) slot) slot .done stGated (detail2 (leAt b 8 4) reason)

/-- The list of a REDUCE or GATHER that has started is read; a read that fails, or a rule that the list breaks, ends
it (R268, R289, R292). -/
def seList (s : State) (t slot : Nat) (b : List Byte) : State :=
  let r : SeRun := { slot := slot, desc := b }
  let len := if seOpcode b == 2 then 8 * (rdescOf b).sources else 16 * (gdescOf b).count
  match readAt (seWork s t r 0) (seMaster t) (seBy slot) (leAt b 24 8) len with
  | (s1, .error e) => seReadFail s1 t r 0 e.1 e.2
  | (s1, .ok l) =>
    let x := listFaults b l
    match worstField x.2 with
    | some e => seFail s1 t r stStruct (detail2 (0xFFFFFF00 + e.2) e.1)
    | none => setSeRun s1 t (some { r with sources := x.1 })

/-- Starts the head of a group's queue: a gated UPDATE at its verdict, one with a list by reading the list; its receipt
is IN_PROGRESS from then on (R266). -/
def seStart (s : State) (t slot : Nat) (b : List Byte) : State :=
  let op := seOpcode b
  let d := udescOf b
  if op == 1 && d.gated then
    match verdictOf (s.watch d.watch) d.step with
    | some v => if v.opened then seBegin s t slot b [] else seGated s t slot b v.reason
    | none =>
      let g := s.seg t
      if g.waiting.isSome then s
      else
        let w := s.watch d.watch
        let held := (d.step == w.openStep && !w.cur.isEmpty) || (d.step == (w.openStep + 1) % 2 ^ 32 && !w.nxt.isEmpty)
        s.setSeg t { g with waiting := some s.now, posted := held }
  else if op == 2 || op == 3 then seList (seBegin s t slot b []) t slot b
  else seBegin s t slot b []

/-! ## Commands -/

def seStep (s : State) (t : Nat) (r : SeRun) : State :=
  match seOpcode r.desc with
  | 1 => updateStep s t r
  | 2 => reduceStep s t r
  | 3 => gatherStep s t r
  | 4 => opDone (dropSeRun s t r .empty) r.slot
  | _ => verifyStep s t r

/-- Advances a group's work of one opcode by `k` pieces, its start being one. -/
def seAdvance (k : Nat) (s : State) (t op : Nat) : State :=
  match k with
  | 0 => s
  | k + 1 =>
    let g := s.seg t
    match g.run with
    | some r => if seOpcode r.desc == op then seAdvance k (seStep s t r) t op else s
    | none => match g.queue with
      | (slot, b) :: _ => if seOpcode b == op then seAdvance k (seStart s t slot b) t op else s
      | [] => s

def execUpdate (t : Tile) (k : Nat) (s : State) : Result := .next (seAdvance k s t 1)
def execReduce (t : Tile) (k : Nat) (s : State) : Result := .next (seAdvance k s t 2)
def execGather (t : Tile) (k : Nat) (s : State) : Result := .next (seAdvance k s t 3)
/-- A DROP starts and ends in one command: its slot is EMPTY from its start. -/
def execDrop (t : Tile) (s : State) : Result := .next (seAdvance 2 s t 4)
def execVerify (t : Tile) (k : Nat) (s : State) : Result := .next (seAdvance k s t 5)

/-- The wait of a gated UPDATE ends with no post accepted for its step (R285). -/
def execGateWaitTimeout (t : Tile) (s : State) : Result :=
  .next (
    let g := s.seg t
    match g.waiting, g.queue with
    | some since, (slot, b) :: _ =>
      let d := udescOf b
      let w := s.watch d.watch
      if g.posted || (verdictOf w d.step).isSome || s.now < since + w.windowUs * 1000 then s
      else seGated s t slot b 3
    | _, _ => s)

/-- Pieces of an operation, each the work of one engine: groups, destination parcels, copied or verified parcels; and
the engine's key of a piece (R277, R290). -/
def sePieces (b : List Byte) : Nat :=
  match seOpcode b with
  | 1 => groupCount (udescOf b)
  | 2 => ceilDiv (rdescOf b).elements (4096 / (rdescOf b).width (rdescOf b).fmtOut)
  | 3 => (gdescOf b).parcels
  | 5 => (gdescOf b).parcels
  | _ => 0

def pieceKey (b : List Byte) (j : Nat) : Nat :=
  if seOpcode b == 1 then (groupParcels (udescOf b) j).headD 0 / 256 else j

/-- Whether an operation's last commit has been made, so that only its report is left (R296). -/
def seCommitted (r : SeRun) : Bool := seOpcode r.desc != 5 && decide (sePieces r.desc ≤ r.next)

/-- ABORT: the running operation ends between groups, unless its last commit has been made; a gated UPDATE that waits ends
too (R295, R296). -/
def actSeAbort (s : State) (t : Nat) : State :=
  let g := s.seg t
  match g.run with
  | some r => if seCommitted r then s else seFail s t r stReset 0
  | none => match g.waiting, g.queue with
    | some _, (slot, _) :: _ => opFail (sePop s t) slot stReset 0
    | _, _ => s

def seBase (k : Nat) : Nat := 0xA00000 + k * 0x10000

def execSeAbort (k : StackNo) (m : Master) (s : State) : Result :=
  .next (gated s m.toNat (seBase k + 0x20) (fun s => if k.val % 4 == 0 then actSeAbort s (k.val / 4) else s))

end Sys2Proof.Machine
end

