-- ==== Sys2Proof/Machine/Collective.lean ====
section
/-! DEFINITION. Collectives (spec/15 R383 to R396): requests, the fixed order of sums, running, join records, read
reports, abort notices and deadlines. -/

namespace Sys2Proof.Machine

/-! ## The request (R383 to R386) -/

/-- Fields of a collective request. -/
structure CDesc where
  kind : Nat
  fmtIn : Nat
  fmtOut : Nat
  satWide : Bool
  redop : Nat
  count : Nat
  members : Nat
  rank : Nat
  root : Nat
  tile : Nat
  vranks : Nat
  comm : Nat
  seq : Nat
  inp : Nat
  out : Nat
  list : Nat
  scratch : Nat
  deadline : Nat
  deriving DecidableEq, Repr

def cdescOf (b : List Byte) : CDesc :=
  { kind := leAt b 5 1, fmtIn := leAt b 6 1 % 16, fmtOut := leAt b 6 1 / 16, satWide := (leAt b 7 1).testBit 7,
    redop := leAt b 7 1 % 4, count := leAt b 8 4, members := leAt b 12 4, rank := leAt b 16 4, root := leAt b 20 4,
    tile := leAt b 24 1 % 8, vranks := leAt b 25 1, comm := leAt b 28 4, seq := leAt b 32 4, inp := leAt b 40 8,
    out := leAt b 48 8, list := leAt b 56 8, scratch := leAt b 64 8, deadline := leAt b 72 8 }

/-- All-reduce, reduce-scatter and reduce. -/
def CDesc.reduces (d : CDesc) : Bool := d.kind ≤ 1 || d.kind == 4
/-- Counted in bytes: OR, all-gather and broadcast. -/
def CDesc.bytewise (d : CDesc) : Bool := !d.reduces || d.redop == 2
def CDesc.width (d : CDesc) (f : Nat) : Nat := if d.bytewise then 1 else fmtBits (fmtOr (f % 4)) / 8
/-- Bytes of a chunk of IN, on whole parcels. -/
def CDesc.chunk (d : CDesc) : Nat := roundUp (d.count * d.width d.fmtIn) 4096
def CDesc.unit (d : CDesc) : Nat := if d.bytewise then 4096 else 2048
def CDesc.units (d : CDesc) : Nat := ceilDiv d.count d.unit
/-- First unit of slice j (R386). -/
def CDesc.sliceAt (d : CDesc) (j : Nat) : Nat := j * d.units / d.members
/-- Elements of slice j: its first and its end. -/
def CDesc.slice (d : CDesc) (j : Nat) : Nat × Nat :=
  (min d.count (d.sliceAt j * d.unit), min d.count (d.sliceAt (j + 1) * d.unit))
/-- Bytes of OUT at this member (R385). -/
def CDesc.outBytes (d : CDesc) : Nat :=
  let w := d.width d.fmtOut
  match d.kind with
  | 0 => d.count * w
  | 1 => let e := d.slice d.rank; (e.2 - e.1) * w
  | 2 => d.members * d.chunk
  | 3 => d.count
  | _ => if d.rank == d.root then d.count * w else 0

/-- Faults that need no list (R390). -/
def collFaults (s : State) (b : List Byte) : List (Nat × Nat) :=
  let d := cdescOf b
  let f := leAt b 6 1
  let o := leAt b 7 1
  let regs : List SeReg :=
    [⟨40, d.inp, collInBytes b, false⟩, ⟨48, d.out, roundUp d.outBytes 4096, true⟩, ⟨56, d.list, 2 * d.members, false⟩] ++
    (if d.scratch == 0 then [] else [⟨64, d.scratch, 4096, true⟩])
  let v := d.members * d.vranks
  broken (leAt b 4 1 != 0x10) 0x40 [4] ++ broken (5 ≤ d.kind) 0x40 [5] ++
  broken (if d.bytewise then f != 0 else 4 ≤ d.fmtIn || 4 ≤ d.fmtOut) 0x40 [6] ++
  broken (d.reduces && d.redop == 1 && d.fmtIn != d.fmtOut) 0x40 [6, 7] ++
  broken (if d.reduces then o / 4 % 32 != 0 || d.redop == 3 else o != 0) 0x40 [7] ++
  broken (d.count == 0 || 2 ^ 31 < d.count) 0x42 [8] ++ broken (d.members == 0 || 65536 < d.members) 0x41 [12] ++
  broken (decide (d.members ≤ d.rank)) 0x41 [12, 16] ++
  broken (if d.kind == 3 || d.kind == 4 then false else d.root != 0) 0x40 [20] ++
  broken ((d.kind == 3 || d.kind == 4) && decide (d.members ≤ d.root)) 0x41 [12, 20] ++
  broken (8 ≤ leAt b 24 1) 0x40 [24] ++ broken (d.vranks == 0 || 64 < d.vranks || (1 < d.vranks && !d.reduces)) 0x41 [25] ++
  broken (leAt b 26 2 != 0) 0x40 [26] ++ broken (leAt b 36 4 != 0) 0x40 [36] ++ broken (leAt b 80 16 != 0) 0x40 [80] ++
  regs.flatMap (fun r => broken (badRegion r.a r.n) 0x43 [r.off] ++
    broken (r.tile && !onTile s.image.inForce d.tile r.a r.n) 0x43 [r.off]) ++
  (List.range regs.length).flatMap (fun i => (regs.drop (i + 1)).flatMap (fun y =>
    match regs[i]? with
    | some x => broken (seOverlap x y) 0x45 [x.off, y.off]
    | none => [])) ++
  broken ((d.scratch == 0) != decide (v ≤ 64)) 0x46 [12, 25, 64] ++
  broken ((s.comm d.comm).usedSeq.contains d.seq) 0x47 [28, 32]

/-- Chip numbers of a list, in rank order. -/
def listChips (l : List Byte) : List Nat := (chunks 2 l).map natOfBytes

def ownChip (s : State) (c : Nat) : Bool := c == s.fab.chip || (s.fab.aliasValid && c == s.fab.aliasChip)

def listRules (s : State) (d : CDesc) (l : List Nat) : List (Nat × Nat) :=
  broken (!l.Nodup) 0x44 [56] ++ broken (!ownChip s (l.getD d.rank 65536)) 0x44 [16, 56]

/-! ## Messages to the members (R391, R393, R394) -/

/-- This member's join record. -/
def joinOf (b : List Byte) (chips : List Nat) : JoinRec :=
  let d := cdescOf b
  { comm := BitVec.ofNat 32 d.comm, seq := BitVec.ofNat 32 d.seq, rank := BitVec.ofNat 32 d.rank,
    kind := BitVec.ofNat 8 d.kind, redop := BitVec.ofNat 8 d.redop, formats := BitVec.ofNat 8 (leAt b 6 1),
    count := BitVec.ofNat 32 d.count, members := BitVec.ofNat 32 d.members, vranks := BitVec.ofNat 8 d.vranks,
    root := BitVec.ofNat 32 d.root, listCrc := BitVec.ofNat 32 (crc32c (chips.flatMap (bytesOfNat 2))) }

/-- Chips of the members other than this one, with their ranks. -/
def otherMembers (d : CDesc) (chips : List Nat) : List (Nat × Nat) := chips.zipIdx.filter (fun e => e.2 != d.rank)

def sendJoins (s : State) (b : List Byte) (chips ranks : List Nat) : State :=
  s.sendAll ((otherMembers (cdescOf b) chips).filterMap (fun e =>
    if ranks.contains e.2 then some (.join e.1 (joinOf b chips)) else none))

def sendReadDone (s : State) (b : List Byte) (chips : List Nat) : State :=
  let d := cdescOf b
  s.sendAll ((otherMembers d chips).map (fun e => .readDone e.1 d.comm d.seq d.rank))

/-! ## How a collective ends -/

def setColl (s : State) (c : Nat) (r : Option CollRun) : State := s.setComm c { s.comm c with run := r }

/-- Ends a collective in error wherever it is; its receipt's end sends the abort notices (R394). -/
def collFail (s : State) (slot : Nat) (b : List Byte) (status detail : Nat) : State :=
  let c := (cdescOf b).comm
  let x := s.comm c
  let s1 := s.setComm c { x with queue := x.queue.filter (fun q => q.1 != slot) }
  match x.run with
  | some r =>
    if r.slot == slot then opFail (setColl (reqDrop s1 r.tags) c none) slot status detail
    else opFail s1 slot status detail
  | none => opFail s1 slot status detail

/-- Whether every other member's join record has arrived. -/
def allJoined (s : State) (slot : Nat) (b : List Byte) : Bool :=
  let d := cdescOf b
  let x := s.comm d.comm
  let held := (x.held.filter (fun y => y.seq.toNat == d.seq)).map (fun y => y.rank.toNat)
  let come : List Nat := match x.run with
    | some r => if r.slot == slot then r.joined else held
    | none => held
  (List.range d.members).all (fun j => j == d.rank || come.contains j)

/-- The time base has reached a collective's DEADLINE (R395). -/
def collDue (s : State) (b : List Byte) : Bool :=
  let d := cdescOf b
  d.deadline != 0 && decide (d.deadline ≤ s.now)

/-- A collective that ends at or after its DEADLINE ends by it (R395, 02 R64). -/
def collMiss (s : State) (slot : Nat) (b : List Byte) : State :=
  collFail s slot b (if allJoined s slot b then stDeadline else stNotReady) 0

/-- Ends a collective in error, or by its DEADLINE where that has passed. -/
def collEnd (s : State) (slot : Nat) (b : List Byte) (status detail : Nat) : State :=
  if collDue s b then collMiss s slot b else collFail s slot b status detail

/-- Parcels of OUT, and of the part of it that this member reduces itself: in an all-reduce its own slice (R386). -/
def CDesc.parcels (d : CDesc) : Nat := ceilDiv d.outBytes 4096
def CDesc.ownParcels (d : CDesc) : Nat × Nat :=
  if d.kind == 0 then
    let per := 4096 / d.width d.fmtOut
    let e := d.slice d.rank
    if e.1 == e.2 then (0, 0) else (e.1 / per, ceilDiv e.2 per)
  else (0, d.parcels)

/-- The parcel of OUT that comes `j`-th: the member's own, then the others, each ascending. -/
def CDesc.pieceAt (d : CDesc) (j : Nat) : Nat :=
  let o := d.ownParcels
  let n := o.2 - o.1
  if j < n then o.1 + j else if j - n < o.1 then j - n else j

/-- Parcels of OUT below the first that has not committed, once `j` have (R393). -/
def CDesc.prefixOf (d : CDesc) (j : Nat) : Nat :=
  let o := d.ownParcels
  let n := o.2 - o.1
  if j ≤ n then (if o.1 == 0 then j else 0) else if j - n < o.1 then j - n else j

/-- A run whose OUT is whole and whose IN every member has read is DONE (R393). -/
def collCheck (s : State) (c : Nat) : State :=
  match (s.comm c).run with
  | none => s
  | some r =>
    let d := cdescOf r.req
    if r.told && d.parcels ≤ r.next && (otherMembers d r.chips).all (fun e => r.readDone.contains e.2) then
      if collDue s r.req then collMiss s r.slot r.req
      else opDone (setColl (reqDrop s r.tags) c none) r.slot
    else s

/-! ## Acceptance and start (R390, R391) -/

/-- The command that serves a request: its KIND, or all-reduce where the KIND is reserved. -/
def collServes (kind : Nat) (b : List Byte) : Bool :=
  let k := leAt b 5 1
  k == kind || (kind == 0 && 5 ≤ k)

/-- An accepted request keeps the chips of its list. -/
def collQueued (s : State) (slot : Nat) (chips : List Nat) : State :=
  match s.op slot with
  | none => s
  | some o => s.setOp slot { o with place := .queued, chips := chips }

/-- The collective service takes a request that has been issued: off, malformed, or queued in its communicator. -/
def collAccept (s : State) (slot : Nat) (b : List Byte) : State :=
  let d := cdescOf b
  if !serviceOn s 1 then opFail s slot stNotReady 0
  else
    let faults := collFaults s b
    let first := worstField faults
    if first.any (fun e => e.1 < 16) || d.members == 0 || 65536 < d.members || badRegion d.list (2 * d.members) then
      match first with
      | some e => opMalformed s slot e.2 e.1
      | none => s
    else match readAt s (seMaster d.tile) (seBy slot) d.list (2 * d.members) with
      | (s1, .error e) => match first with
        | some e => opMalformed s1 slot e.2 e.1
        | none => opFail s1 slot e.1 (addrDetail e.2)
      | (s1, .ok l) =>
        let chips := listChips l
        match worstField (faults ++ listRules s1 d chips) with
        | some e => opMalformed s1 slot e.2 e.1
        | none =>
          let x := s1.comm d.comm
          collQueued (s1.setComm d.comm { x with
            queue := x.queue ++ [(slot, b, chips)], usedSeq := d.seq :: x.usedSeq }) slot chips

/-- Whether a join record disagrees with this member's request (R392). -/
def joinDiffers (b : List Byte) (chips : List Nat) (r : JoinRec) : Bool := { joinOf b chips with rank := r.rank } != r

/-- Takes a join record of the running collective. -/
def takeJoin (s : State) (c : Nat) (r : JoinRec) : State :=
  match (s.comm c).run with
  | none => s
  | some x =>
    if joinDiffers x.req x.chips r then
      collEnd s x.slot x.req stStruct (detail2 0xFFFFFF47 0xFFFFFFFF)
    else setColl s c (some { x with joined := if x.joined.contains r.rank.toNat then x.joined else r.rank.toNat :: x.joined })

def takeJoins (s : State) (c : Nat) (l : List JoinRec) : State :=
  match l with
  | [] => s
  | r :: t => takeJoins (takeJoin s c r) c t

/-- Starts the head of a communicator's queue: join records go out, and what is held for it is taken. -/
def collStart (s : State) (c slot : Nat) (b : List Byte) (chips : List Nat) : State :=
  let x := s.comm c
  let d := cdescOf b
  let mine (r : JoinRec) : Bool := r.seq.toNat == d.seq
  let s1 := s.setComm c { x with
    queue := x.queue.drop 1, held := x.held.filter (fun r => !mine r), early := x.early.filter (fun e => e.1 != d.seq),
    run := some { slot := slot, req := b, chips := chips, lastJoin := s.now,
                  readDone := (x.early.filter (fun e => e.1 == d.seq)).map Prod.snd } }
  takeJoins (sendJoins (opStart s1 slot) b chips (List.range d.members)) c (x.held.filter mine)

/-! ## The fixed order (R387, R388) -/

/-- One block of a level, rounded to f64: its value, flags and whether it saturated. -/
def sumBlock (f : Fmt) (satWide : Bool) (blk : List Term) : Term × AFlags × Bool :=
  match blk with
  | [x] => (x, {}, false)
  | _ =>
    let r := reduceF64 f false satWide blk
    ((f64Val r.bits, false), r.fl, r.sat)

/-- Sums of levels of at most 64 terms each; `fuel` bounds the levels. -/
def sumLevels (fuel : Nat) (f fo : Fmt) (satWide : Bool) (terms : List Term) (fl : AFlags) (sat : Bool) : Res :=
  match fuel with
  | 0 => ⟨0, fl, sat, false⟩
  | k + 1 =>
    if terms.length ≤ 64 then
      let r := match terms with
        | [x] => let r := roundAny fo .rne satWide x.1
                 { r with fl := flagsOr r.fl ⟨x.2, false, false, false⟩ }
        | _ => let row := redRow f false
               redFinish row fo .rne satWide (reduceTerms row satWide terms).2
      { r with fl := flagsOr fl r.fl, sat := sat || r.sat }
    else
      let l := (chunks 64 terms).map (sumBlock f satWide)
      sumLevels k .f64 fo satWide (l.map (fun x => x.1)) (l.foldl (fun a x => flagsOr a x.2.1) fl)
        (sat || l.any (fun x => x.2.2))

/-- One result element from the terms' bits in virtual-rank order. -/
def collElem (d : CDesc) (l : List Nat) : Res :=
  let fi := fmtOr (d.fmtIn % 4)
  let fo := fmtOr (d.fmtOut % 4)
  let terms : List Term := l.map (fun b => let v := decodeVal fi b; (v, valIsSig v))
  if d.bytewise then ⟨l.foldl (fun a b => a ||| b) 0, {}, false, false⟩
  else if d.redop == 1 then
    match terms with
    | [] => ⟨0, {}, false, false⟩
    | a :: rest =>
      let r := roundVal fo .rne false (rest.foldl (fun m x => valMax m x.1) a.1)
      { r with fl := flagsOr r.fl ⟨terms.any (fun x => x.2), false, false, false⟩ }
  else sumLevels 8 fi fo d.satWide terms {} false

/-! ## Running (R385, R386, R391, R393, R396) -/

/-- Device address of a byte of a member's IN or OUT; where another member keeps them is not stated. -/
def memberAddr (s : State) (b : List Byte) (chips : List Nat) (isOut : Bool) (j off : Nat) : Nat :=
  let d := cdescOf b
  if j == d.rank then (if isOut then d.out else d.inp) + off
  else
    let base := Config.memberRegion isOut b j % (hbmEnd / 4096) * 4096
    let chip := chips.getD j 0
    2 ^ 63 + (if ownChip s chip then s.fab.chip else chip) * 2 ^ 47 + (base + off) % 2 ^ 47

/-- The OUT parcel q of this member: the owner where it is copied whole from another's region, and what it needs. -/
inductive Piece where
  /-- elements [e0, e1) reduced from every member -/
  | reduced (e0 e1 : Nat)
  /-- `len` bytes copied from a member's IN or OUT at an offset -/
  | copied (isOut : Bool) (member off len : Nat)
  deriving DecidableEq, Repr

def CDesc.piece (d : CDesc) (q : Nat) : Piece :=
  let w := d.width d.fmtOut
  let per := 4096 / w
  match d.kind with
  | 0 =>
    let e0 := q * per
    let e1 := min d.count (e0 + per)
    match (List.range d.members).find? (fun j => decide ((d.slice j).1 ≤ e0 ∧ e0 < (d.slice j).2)) with
    | some j => if j == d.rank then .reduced e0 e1 else .copied true j (q * 4096) 4096
    | none => .reduced e0 e1
  | 1 => let e := d.slice d.rank
         .reduced (e.1 + q * per) (min e.2 (e.1 + (q + 1) * per))
  | 2 => let c := d.chunk / 4096
         .copied false (q / c) (q % c * 4096) (min 4096 (d.count - q % c * 4096))
  | 3 => .copied false d.root (q * 4096) (min 4096 (d.count - q * 4096))
  | _ => .reduced (q * per) (min d.count ((q + 1) * per))

/-- Members whose IN a piece reads: all of them, or the one it is copied from. -/
def pieceMembers (d : CDesc) (p : Piece) : List Nat :=
  match p with
  | .reduced _ _ => List.range d.members
  | .copied _ j _ _ => [j]

/-- Addresses a piece reads. -/
def pieceKeys (s : State) (b : List Byte) (chips : List Nat) (p : Piece) : List (List Nat) :=
  let d := cdescOf b
  match p with
  | .copied o j off _ => [[memberAddr s b chips o j off]]
  | .reduced e0 e1 =>
    let w := d.width d.fmtIn
    let lo := e0 * w / 4096
    let n := (e1 * w - 1) / 4096 + 1 - lo
    (List.range d.members).flatMap (fun j => (List.range d.vranks).map (fun t =>
      (List.range n).map (fun i => memberAddr s b chips false j (t * d.chunk + (lo + i) * 4096))))

/-- Bytes of a piece from what was read, source by source, and what its elements raised. -/
def pieceBytes (d : CDesc) (p : Piece) (bufs : List (List Byte)) : List Byte × Tally :=
  match p with
  | .copied _ _ _ len => ((bufs.headD []).take len, {})
  | .reduced e0 e1 =>
    let w := d.width d.fmtIn
    let off := e0 * w / 4096 * 4096
    let res := (List.range (e1 - e0)).map (fun i => collElem d (bufs.map (fun x => leAt x ((e0 + i) * w - off) w)))
    let out := wordsBytes (d.width d.fmtOut) (res.map (fun x => x.bits))
    (out ++ zeroBytes (4096 - out.length), tallyAll res)

/-- Delivers bytes to a parcel of OUT with the rights of TILE's stack engines. -/
def collPut (s : State) (d : CDesc) (slot q : Nat) (data : List Byte) : State × Put :=
  match writePlace s (seMaster d.tile) none (BitVec.ofNat 64 (d.out + q * 4096)) (data.length == 4096) with
  | (s1, .mem k) => deliver s1 .other slot k 0 data (seBy slot)
  | (s1, .bad st) => (s1, .fail st)
  | (s1, _) => (s1, .fail stBus)

/-- Posts a reduced parcel's flags and counts to TILE's engines and to the receipt (R396). -/
def collPost (s : State) (d : CDesc) (r : CollRun) (q : Nat) (t : Tally) : State :=
  let k := seStackOf d.tile r.req q
  let e := s.sest k
  opTally (s.setSest k { e with arith := arithPost e.arith t }) r.slot t (some q)

/-- A failed read: a seal mismatch is counted as a stack engine's. -/
def collReadFail (s : State) (d : CDesc) (r : CollRun) (status a : Nat) : State :=
  let k := seStackOf d.tile r.req r.next
  let x := s.sest k
  let s1 := if status == stSeal then s.setSest k { x with sealFails := inc32 x.sealFails } else s
  collEnd s1 r.slot r.req status (addrDetail a)

/-- Whether a piece may be read: every member whose IN it names has joined, and the owner of a slice that is copied has
reported that it has finished reading, so that its slice is reduced. -/
def pieceReady (d : CDesc) (r : CollRun) (p : Piece) : Bool :=
  match p with
  | .copied true j _ _ => r.readDone.contains j
  | _ => (pieceMembers d p).all (fun j => j == d.rank || r.joined.contains j)

/-- One parcel of OUT, or the report that this member has finished reading. -/
def collStep (s : State) (c : Nat) (r : CollRun) : State :=
  let d := cdescOf r.req
  if !r.told && d.ownParcels.2 - d.ownParcels.1 ≤ r.next then
    collCheck (sendReadDone (setColl s c (some { r with told := true })) r.req r.chips) c
  else if d.parcels ≤ r.next then s
  else
    let q := d.pieceAt r.next
    let p := d.piece q
    if !pieceReady d r p then s
    else
      let keys := pieceKeys s r.req r.chips p
      match seFetch s d.tile r.slot r.tags (keys.flatMap id) with
      | (s1, tg, .error none) => setColl s1 c (some { r with tags := tg })
      | (s1, tg, .error (some e)) => collReadFail s1 d { r with tags := tg } e.1 e.2
      | (s1, tg, .ok l) =>
        let n := (keys.headD []).length
        let x := pieceBytes d p ((List.range keys.length).map (fun i => ((l.drop (i * n)).take n).flatMap id))
        match collPut s1 d r.slot q x.1 with
        | (_, .wait) => setColl s1 c (some { r with tags := tg })
        | (s2, .double k) => collEnd s2 r.slot r.req stDouble (detail2 (opIdOf s2 k) q)
        | (s2, .fail st) => collEnd s2 r.slot r.req st (addrDetail (d.out + q * 4096))
        | (s2, .ok) =>
          let s3 := setColl (reqDrop (collPost s2 d r q x.2) tg) c (some { r with next := r.next + 1, tags := [] })
          collCheck (opCount s3 r.slot (d.prefixOf (r.next + 1))) c

/-- Advances a request by `k` pieces; acceptance and start are a piece each. -/
def collAdvance (k : Nat) (s : State) (slot kind : Nat) : State :=
  match k with
  | 0 => s
  | k + 1 =>
    match s.op slot with
    | none => s
    | some o =>
      if o.kind != 6 || !collServes kind o.payload || rstateFinal o.rcpt.state then s
      else if collDue s o.payload then collMiss s slot o.payload
      else if o.place = .atIssuer then collAdvance k (collAccept s slot o.payload) slot kind
      else
        let c := (cdescOf o.payload).comm
        let x := s.comm c
        match x.run, x.queue with
        | some r, _ => if r.slot == slot then collAdvance k (collStep s c r) slot kind else s
        | none, q :: _ => if q.1 == slot then collAdvance k (collStart s c slot q.2.1 q.2.2) slot kind else s
        | none, [] => s

def execAllReduce (slot : Slot) (k : Nat) (s : State) : Result := .next (collAdvance k s slot 0)
def execReduceScatter (slot : Slot) (k : Nat) (s : State) : Result := .next (collAdvance k s slot 1)
def execAllGather (slot : Slot) (k : Nat) (s : State) : Result := .next (collAdvance k s slot 2)
def execCollectiveBroadcast (slot : Slot) (k : Nat) (s : State) : Result := .next (collAdvance k s slot 3)
def execCollectiveReduce (slot : Slot) (k : Nat) (s : State) : Result := .next (collAdvance k s slot 4)

/-! ## What other members send (R391 to R395) -/

/-- A join record arrives: it belongs to the running collective, is held for a later one, or is discarded. -/
def execJoinRecord (r : JoinRec) (s : State) : Result :=
  .next (
    let c := r.comm.toNat
    let x := s.comm c
    let running := match x.run with | some y => (cdescOf y.req).seq == r.seq.toNat | none => false
    let queued := x.queue.any (fun q => (cdescOf q.2.1).seq == r.seq.toNat)
    if running then takeJoin s c r
    else if x.usedSeq.contains r.seq.toNat && !queued then s
    else if x.held.contains r || 16 ≤ x.held.length then s
    else s.setComm c { x with held := x.held ++ [r] })

/-- Every 100 µs a running collective's join record is sent again to every other member: nothing shows that one has accepted
it (DESIGN CHOICE, log 47). -/
def execJoinResend (slot : Slot) (s : State) : Result :=
  .next (
    match s.op slot with
    | none => s
    | some o =>
      let c := (cdescOf o.payload).comm
      match (s.comm c).run with
      | none => s
      | some r =>
        if r.slot != slot.val || s.now < r.lastJoin + 100000 then s
        else sendJoins (setColl s c (some { r with lastJoin := s.now })) r.req r.chips
          (List.range (cdescOf r.req).members))

/-- A report that comes before this member runs its collective is held. -/
def holdReport (s : State) (c seq rank : Nat) : State :=
  let x := s.comm c
  let queued := x.queue.any (fun q => (cdescOf q.2.1).seq == seq)
  if (x.usedSeq.contains seq && !queued) || x.early.contains (seq, rank) then s
  else s.setComm c { x with early := x.early ++ [(seq, rank)] }

/-- A member has finished reading this member's IN. -/
def execReadDoneReport (comm : W32) (seq : W32) (rank : W32) (s : State) : Result :=
  .next (
    let c := comm.toNat
    match (s.comm c).run with
    | none => holdReport s c seq.toNat rank.toNat
    | some r =>
      if (cdescOf r.req).seq != seq.toNat then holdReport s c seq.toNat rank.toNat
      else if r.readDone.contains rank.toNat then s
      else collCheck (setColl s c (some { r with readDone := rank.toNat :: r.readDone })) c)

/-- Collectives of this member with a communicator and sequence number that are not final. -/
def collSlots (s : State) (comm seq : Nat) : List (Nat × List Byte) :=
  s.ledger.filterMap (fun e =>
    let d := cdescOf e.2.payload
    if e.2.kind == 6 && !rstateFinal e.2.rcpt.state && d.comm == comm && d.seq == seq then some (e.1, e.2.payload) else none)

/-- A member's collective ended in error; a DEADLINE reached takes precedence. -/
def execAbortNotice (comm : W32) (seq : W32) (rank : W32) (status : Byte) (s : State) : Result :=
  .next ((collSlots s comm.toNat seq.toNat).foldl (fun a e =>
    collEnd a e.1 e.2 stDep (detail2 rank.toNat status.toNat)) s)

/-- The time base reaches a collective's DEADLINE before its receipt is final. -/
def execCollectiveDeadline (slot : Slot) (s : State) : Result :=
  .next (
    match s.op slot with
    | none => s
    | some o =>
      if o.kind != 6 || rstateFinal o.rcpt.state || !collDue s o.payload then s else collMiss s slot o.payload)

end Sys2Proof.Machine
end

