-- ==== Sys2Proof/Machine/Program.lean ====
section
/-! DEFINITION. The start of a cluster program (spec/06 R152, R154). -/

namespace Sys2Proof.Machine

/-- Sequencer and vector state at program start (R154, R183). The trap, fault, stochastic-rounding and capture
registers are those of R182; what the last program left in them is cleared. -/
def startSeq (g : Prog) (entry : Nat) (argument : W64) : Seq :=
  let q : Seq := { prog := some g, pc := entry, ran := true }
  (((q.setS 1 argument).setS 2 (BitVec.ofNat 64 g.opId)).setS 3 (BitVec.ofNat 64 g.lclu)).setS 4
    (BitVec.ofNat 64 g.stream)

/-- The next queued program of logical cluster n starts when the sequencer is free. An entry offset no instruction can
be fetched from ends it as a branch there would. -/
def execProgramStart (n : LClu) (s : State) : Result :=
  .next (
    let p := physOfN s n
    let x := s.lclu n
    match (s.seq p).prog, x.progs with
    | none, slot :: rest =>
      if !mayStart s n then s
      else match s.op slot with
        | none => s.setLclu n { x with progs := rest }
        | some o =>
          let entry := leAt o.payload 4 4
          let s1 := s.setLclu n { x with progs := rest }
          if entry % 4 != 0 || 0x400000 ≤ entry then opFail s1 slot stStruct (detail2 0xFFFFFF0A entry)
          else
            let g : Prog := { slot := slot, opId := o.rcpt.opId, stream := o.rcpt.stream, lclu := n }
            opStart (s1.setSeq p (startSeq g entry (BitVec.ofNat 64 (leAt o.payload 8 8)))) slot
    | _, _ => s)

end Sys2Proof.Machine
end

