-- ==== Sys2Proof/Machine/SolveRun.lean ====
section
/-! DEFINITION. Solves: acceptance, start, the stages of a running solve, publication, its end, the deadline and the
abort (spec/08 R208, R209, R212, R219, R229 to R235; spec/09 R239, R247 to R260). -/

namespace Sys2Proof.Machine

/-! ## Groups and registers -/

def groupMembers (s : State) (g : Nat) : List Nat := solverClusters s.image.inForce g
/-- The lead tile: the lowest-numbered one that holds a member (R207). -/
def leadTile (s : State) (g : Nat) : Nat := (groupMembers s g).foldl (fun a n => min a (tileOfN n)) 7
def setSolve (s : State) (g : Nat) (r : Option SolveRun) : State := s.setGroup g { s.group g with run := r }
def setSlv (s : State) (g : Nat) (f : TileSlv → TileSlv) : State :=
  s.setTslv (leadTile s g) (f (s.tslv (leadTile s g)))

/-- Running solves of every group. -/
def runningSolves (s : State) : List (Nat × SolveRun) :=
  s.core.groups.filterMap (fun e => e.2.run.map (fun r => (e.1, r)))

/-- Requests accepted before a given one, with their fields; a running one too. -/
def earlierReqs (s : State) (g slot acc : Nat) : List SReq :=
  s.core.groups.flatMap (fun e =>
    (e.2.queue.filter (fun q => q.1 != slot && (q.2.1 < acc || (q.2.1 == acc && e.1 < g)))).map (fun q => sreqOf q.2.2))

/-- What a piece of a solve's arithmetic raised, in its receipt and in the engines and the window of a member
(R208, R224, 03 R87 to R91, 04 R119). The member is a free function of the request and the piece. -/
def postRaised (s : State) (r : SolveRun) (x : Raised) (parcel : Option Nat) : State :=
  let s1 := opTally s r.slot (tallyAdd x.ve x.te) parcel
  match r.members[Config.memberOf r.req (64 * r.c + 8 * r.phase + r.stage) % r.members.length]? with
  | none => s1
  | some n =>
    let p := physOfN s1 n
    let c := s1.clu p
    let w := c.win
    s1.setClu p { c with
      ve := arithPost c.ve x.ve, te := { c.te with arith := arithPost c.te.arith x.te },
      win := { w with under := w.under || x.under, inexact := w.inexact || x.inexact,
                      nonfinite := w.nonfinite || x.nonfinite, overflow := w.overflow || x.refused.isSome } }

/-- The largest residual norm of the columns that a filter keeps. -/
def residNorm (cols : List SolveCol) (keep : SolveCol → Bool) : Option Nat :=
  let l := (cols.filter keep).filterMap (fun k => k.resid)
  if l.isEmpty then none else some (normInf l)

/-! ## The end of a solve -/

/-- Withdraws the residual program of a solve that ends (R251). -/
def dropResidual (s : State) (r : SolveRun) : State :=
  match r.prog with
  | none => s
  | some id =>
    let n := (sextOf r.ext).progCluster
    let x := s.lclu n
    let s1 := s.setLclu n { x with progs := x.progs.filter (fun k => k != id) }
    let p := physOfN s1 n
    let s2 := match (s1.seq p).prog with
      | some q => if q.slot == id then dropProgram s1 p else s1
      | none => s1
    { s2 with ledger := kdel s2.ledger id }

/-- Detail of NOT_CONVERGED and DEADLINE_MISS (R249, R256). -/
def solveDetail (c b : Nat) (norm : Option Nat) : Nat :=
  detail2 (c % 2 ^ 24 + b * 2 ^ 24) (match norm with | some v => f32OfF64 v | none => 0x7FC00000)

/-- How a solve ends: the first of an error, a miss and what follows it (R255). -/
def firstEnd (r : SolveRun) (e : SolveEnd) : SolveEnd :=
  match r.fin, r.late with
  | some (.error st d), _ => .error st d
  | _, some p => .missed p
  | _, none => e

/-- Ends the running solve of a group: its receipt and the lead tile's registers (R234, R248, R249, R256, R263). -/
def endSolve (s : State) (g : Nat) (e0 : SolveEnd) : State :=
  match (s.group g).run with
  | none => s
  | some r =>
    let e := firstEnd r e0
    let q := sreqOf r.req
    let s1 := setSlv (setSolve (dropResidual s r) g none) g (fun x => { x with
      solves := x.solves + 1, slack := BitVec.ofInt 64 ((q.deadline : Int) - (s.now : Int)),
      dlMisses := match e with | .missed _ => inc32 x.dlMisses | _ => x.dlMisses })
    match e with
    | .done => opDone s1 r.slot
    | .notConverged b =>
      opFail s1 r.slot stNotConv (solveDetail r.c (boolNat b) (residNorm r.cols (fun k => k.done != 1)))
    | .missed ph =>
      let norm := if ph ≤ 3 then none else residNorm r.cols (fun _ => true)
      opFailAs s1 r.slot stDeadline (solveDetail r.c ph norm) true
    | .error st d => opFailAs s1 r.slot st d (d % 2 ^ 32 == 0xFFFFFF1C)

/-- Goes on to publish, ending as given. -/
def toPublish (s : State) (g : Nat) (r : SolveRun) (e : SolveEnd) : State :=
  setSolve s g (some { r with phase := 6, stage := 0, fin := some e })

/-- What a delivery that did not succeed does to a solve; one that waits is made again. Which parcel a second delivery's report
names where the parcel is none of X (STORE, FACTOR, STATE) 02 R54 does not say: index 0 (DESIGN CHOICE, log 102). -/
def onPut (s s1 : State) (g idx : Nat) (p : Put) (ok : State → State) : State :=
  match p with
  | .ok => ok s1
  | .wait => s
  | .fail st => endSolve s1 g (.error st (detail2 idx 0))
  | .double k => endSolve s1 g (.error stDouble (detail2 (opIdOf s1 k) idx))

/-- Goes on with what a computation answers, its flags and counts posted; a term that a window refused ends the solve
(04 R119, R123). -/
def onCalc {α : Type} (g : Nat) (r : SolveRun) (s : State) (x : α × Raised) (ok : State → α → State) : State :=
  let s1 := postRaised s r x.2 none
  match x.2.refused with
  | some d => endSolve s1 g (.error stWinOvf d)
  | none => ok s1 x.1

/-- A read that failed ends the solve, naming the parcel's address (R221). -/
def onRead {α : Type} (g : Nat) (x : State × Except (Nat × Nat) α) (ok : State → α → State) : State :=
  match x with
  | (s1, .ok v) => ok s1 v
  | (s1, .error e) => endSolve s1 g (.error e.1 (detail2 e.2 (e.2 / 2 ^ 32)))

/-! ## Start (R209, R212, R219, R230, R250, R258) -/

/-- What a request waits for before it starts: another solve reads the store it would write, or uses the state. -/
def solveWaits (s : State) (g slot acc : Nat) (q : SReq) : Bool :=
  (runningSolves s).any (fun e =>
    let o := sreqOf e.2.req
    (q.assembles && e.2.reads.contains q.store) || (q.iterative && o.iterative && o.state == q.state)) ||
  (q.iterative && (earlierReqs s g slot acc).any (fun o => o.iterative && o.state == q.state))

/-- What the front stage finds when it reads its inputs: the order, the faults, the factor slot held with its
FACTOR_FMT, the stores read, the coefficients of a gradient and the bytes of COEF. -/
structure Late where
  n : Nat := 0
  faults : List (Nat × Nat) := []
  held : Option Nat := none
  hcode : Nat := 0
  reads : List Nat := []
  coefs : Nat := 0
  csize : Nat := 0
  deriving DecidableEq, Repr

/-- The regions read before a solve starts: table, the store header that gives the order, node indices, measurements
and factor header. -/
def lateReads (s : State) (m : Nat) (u : By) (q : SReq) :
    State × Except (Nat × Nat) (STab × SHdr × List Byte × List Byte × List Byte) :=
  match readAt s m u q.system 256 with
  | (s1, .error e) => (s1, .error e)
  | (s1, .ok tb) =>
    let t := stabOf tb
    match (if q.reuseStore then readHdr s1 m u q.store else if t.kind == 3 then readHdr s1 m u t.coef
           else (s1, .ok (hdrOf []))) with
    | (s2, .error e) => (s2, .error e)
    | (s2, .ok h) =>
      match readAt s2 m u t.conn (if q.reuseStore || t.kind != 2 then 0 else t.dim0 * t.points * 4) with
      | (s3, .error e) => (s3, .error e)
      | (s3, .ok c) =>
        match readAt s3 m u t.meas (if q.reuseStore then 0 else 32 * t.measCount) with
        | (s4, .error e) => (s4, .error e)
        | (s4, .ok ms) =>
          match readAt s4 m u q.factor (if q.direct && q.reuseFactor then 64 else 0) with
          | (s5, .error e) => (s5, .error e)
          | (s5, .ok fb) => (s5, .ok (t, h, c, ms, fb))

/-- The structure of the system in use, where it has to be known before assembly: a matrix of its pattern. -/
def latePattern (s : State) (m : Nat) (u : By) (t : STab) (h : SHdr) (c : List Byte) :
    State × Except (Nat × Nat) SMat :=
  if t.kind == 3 then
    match (if h.valid then readStore s m u t.coef 0 else (s, .ok ⟨h, ⟨0, 1, true, []⟩, []⟩)) with
    | (s1, .error e) => (s1, .error e)
    | (s1, .ok y) => (s1, .ok y.a)
  else (s, .ok (tableMat t (fun _ => (valZero, false)) c).1)

/-- Reasons found only when the front stage reads its inputs (R214, R216, R212 0x6 and 0x7). -/
def lateFaults (s : State) (m : Nat) (u : By) (b : List Byte) : State × Except (Nat × Nat) Late :=
  let q := sreqOf b
  if q.gn then (s, .ok {})
  else
    match lateReads s m u q with
    | (s1, .error e) => (s1, .error e)
    | (s1, .ok (t, h, c, ms, fb)) =>
      match (if q.reuseStore then (s1, .ok ⟨0, 1, true, []⟩) else latePattern s1 m u t h c) with
      | (s2, .error e) => (s2, .error e)
      | (s2, .ok pat) =>
        let known := q.reuseStore || t.kind == 3
        let n := if known then h.n else t.order.getD 0
        let store := if known then storeMap h.dense h.n h.u h.nnzb q.nrhs
                     else storeMap (t.kind == 0) n t.u (t.blocks.getD pat.nnzb) q.nrhs
        let bad := q.reuseStore && !h.valid
        let f := fhdrOf fb
        let reuse := q.direct && q.reuseFactor
        let fp := if q.reuseStore then h.fp else fingerprint pat
        let whole := (storeMap h.dense h.n h.u h.nnzb h.nrhs).size
        let l := broken bad 6 [7, 32] ++
          broken (!q.reuseStore && t.kind == 3 && (!h.valid || h.dense || h.u != t.u)) 4 [0x102, 0x108] ++
          broken (!q.reuseStore && t.kind == 3 && h.valid && badRegion t.coef whole) 3 [0x108] ++
          (if bad then [] else
            broken (q.direct && 131072 < n) 2 [6] ++ reqRegions q n (some store) 0 ++
            broken (q.iterative && q.pcBlock != 0 && q.pcBlock % (max h.u t.u) != 0) 9 [104]) ++
          broken (!q.reuseStore && t.kind == 2 &&
            (List.range (t.dim0 * t.points)).any (fun i => t.dim1 ≤ leAt c (4 * i) 4)) 4 [0x114, 0x120] ++
          broken (!q.reuseStore && (List.range t.measCount).any (fun i =>
            n ≤ leAt ms (32 * i) 4 || 1 < leAt ms (32 * i + 4) 1)) 4 [0x128] ++
          (if !reuse || bad then []
           else broken (!f.valid) 6 [7, 56] ++ broken (f.valid && (f.fp != fp || f.n != n)) 7 [7] ++
             broken (f.valid && f.method != q.method) 7 [6])
        (s2, .ok { n := n, faults := l, held := if reuse then some f.slot else none, hcode := f.code,
                   reads := q.store :: (if t.kind == 3 && q.assembles then [t.coef] else []),
                   coefs := if t.kind == 3 then h.nnzb * h.u * h.u else t.coefs,
                   csize := if t.kind == 3 then whole else tabCoefBytes t })

/-- Starts the oldest accepted request of a group. -/
def startSolve (s : State) (g : Nat) : State :=
  match (s.group g).queue with
  | [] => s
  | (slot, acc, b) :: rest =>
    let q := sreqOf b
    if solveWaits s g slot acc q then s
    else
      let s0 := s.setGroup g { queue := rest, run := none }
      let mem := groupMembers s g
      let m := solveMaster (leadTile s g)
      let u := solveBy slot
      if q.deadline ≤ s.now then
        opFail (setSlv s0 g (fun x => { x with dlMisses := inc32 x.dlMisses })) slot stDeadline (solveDetail 0 0 none)
      else if mem.all (isDead s) then opFail s0 slot stDead 0
      else if mem.any (fun n => !isDead s n && isAsleep s n) then opFail s0 slot stNotReady 0
      else
        match lateFaults s0 m u b with
        | (s1, .error e) => opFail s1 slot e.1 (detail2 e.2 (e.2 / 2 ^ 32))
        | (s1, .ok x) =>
          match solveFault x.faults with
          | some e => opMalformed s1 slot e.2 e.1
          | none =>
            match readAt s1 m u q.ext (if q.needsExt then 256 else 0) with
            | (s2, .error e) => opFail s2 slot e.1 (detail2 e.2 (e.2 / 2 ^ 32))
            | (s2, .ok ext) =>
              let n := if q.gn then gnOrder b ext else x.n
              match solveFault (if q.needsExt then extFaults ext q n x.coefs x.csize mem else []) with
              | some e => opMalformed s2 slot e.2 e.1
              | none =>
                let r : SolveRun :=
                  { slot := slot, accepted := acc, req := b, ext := ext, members := mem.filter (fun n => !isDead s n),
                    n := n, phase := if q.assembles then 1 else if q.gn then 5 else 2, stage := if q.gn then 9 else 0,
                    held := x.held, hcode := x.hcode, reads := x.reads }
                setSlv (setSolve (opStart s2 slot) g (some r)) g (fun y => { y with
                  lastGroup := g, curOp := q.opId, deadline := BitVec.ofNat 64 q.deadline, corr := 0,
                  iterations := if q.iterative then 0 else y.iterations,
                  fixed := if q.iterative then q.fixed else y.fixed })

/-! ## Front stage: phases 1 and 2 -/

/-- Lists the unknowns that a fix measurement overwrites. -/
def fixedRows (ms : List Meas) : List Nat := (ms.filter (fun e => e.fix)).map (fun e => e.unknown)

/-- The table and measurement list of a request. -/
def readTable (s : State) (m : Nat) (u : By) (q : SReq) : State × Except (Nat × Nat) (STab × List Meas) :=
  match readAt s m u q.system 256 with
  | (s1, .error e) => (s1, .error e)
  | (s1, .ok b) =>
    let t := stabOf b
    match readAt s1 m u t.meas (32 * t.measCount) with
    | (s2, .error e) => (s2, .error e)
    | (s2, .ok ms) => (s2, .ok (t, measOf ms t.measCount))

/-- Phase 1: VALID = 0 first (R252), then the assembled regions; phase 2 commits the header whole (R219). -/
def stageAssemble (s : State) (g m : Nat) (r : SolveRun) (q : SReq) : State :=
  let u := solveBy r.slot
  if r.stage == 0 then
    let x := putParcel s m r.slot q.store (0 :: (openWords r.req [] 512).drop 1)
    onPut s x.1 g 0 x.2 (fun s1 => setSolve s1 g (some { r with stage := 1 }))
  else
    onRead g (readAt s m u q.system 256) (fun s1 tb =>
      onRead g (assemble s1 m u q (stabOf tb)) (fun s2 z =>
        onCalc g r s2 z (fun s3 y =>
          let w := putParcels s3 m r.slot (q.store + 4096) (sysParcels y)
          onPut s w.1 g 0 w.2 (fun s4 =>
            setSolve s4 g (some { r with
              phase := 2, stage := 0, n := y.h.n, anorm := y.h.anorm,
              rhs := [checked60 (hdrBody y.h) |>.map (fun b => b.toNat)] })))))

/-- A tangent's right-hand sides ḃ − Ȧ x (R262). -/
def tangentSide (s : State) (m : Nat) (u : By) (r : SolveRun) (q : SReq) (y : Sys) :
    State × Except (Nat × Nat) (Calc (List (List Nat))) :=
  let e := sextOf r.ext
  let size := y.h.n * q.nrhs * 8
  match readTable s m u q with
  | (s1, .error x) => (s1, .error x)
  | (s1, .ok t) => match assembleAt s1 m u t.1 e.dcoef with
    | (s2, .error x) => (s2, .error x)
    | (s2, .ok ad) => match readAt s2 m u e.dcoef (tabCoefBytes t.1) with
      | (s3, .error x) => (s3, .error x)
      | (s3, .ok cb) => match readAt s3 m u e.fwdX size with
        | (s4, .error x) => (s4, .error x)
        | (s4, .ok xb) => match readAt s4 m u e.drhs (if e.drhs == 0 then 0 else size) with
          | (s5, .error x) => (s5, .error x)
          | (s5, .ok db) =>
            let f := fmtOr (t.1.coefFmt % 16)
            let coefs := if t.1.kind == 3 then ad.1.entries.flatMap (fun w => w.map Prod.snd)
              else (List.range t.1.coefs).map (fun k => f64Round (coefTerm f cb k).1)
            let d := if e.drhs == 0 then List.replicate q.nrhs (List.replicate y.h.n 0) else columnsOf db y.h.n q.nrhs
            (s5, .ok (do
              modify (fun z => { z with ve := tallyAdd z.ve ad.2 })
              (d.zip (columnsOf xb y.h.n q.nrhs)).mapM (fun x =>
                tangentRhs q t.1.conservative ad.1 (emaxOf coefs) (emaxOf (d.flatMap id)) (fixedRows t.2) x.1 x.2)))

/-- The right-hand sides and the norm that the solve's own loop uses (R222, R242, R260, R262). -/
def prepareRhs (s : State) (m : Nat) (u : By) (r : SolveRun) (q : SReq) (y : Sys) :
    State × Except (Nat × Nat) ((List (List Nat) × Nat) × Raised) :=
  if q.adjoint then
    match readAt s m u q.rhs (y.h.n * q.nrhs * 8) with
    | (s1, .error x) => (s1, .error x)
    | (s1, .ok b) => (s1, .ok ((do pure (columnsOf b y.h.n q.nrhs, ← anormCols y.a) : Calc _).run {}))
  else if q.tangent then
    match tangentSide s m u r q y with
    | (s1, .error x) => (s1, .error x)
    | (s1, .ok c) => (s1, .ok ((do pure (← c, y.h.anorm) : Calc _).run {}))
  else (s, .ok ((y.rhs, y.h.anorm), {}))

/-- Fields of a solver-state header (09 R257). -/
structure WHdr where
  fp : Nat
  n : Nat
  nrhs : Nat
  method : Nat
  sound : Bool
  valid : Bool
  pcValid : Bool
  pcBlock : Nat
  gen : Nat
  iters : Nat
  resid : Nat
  m : Nat
  deriving DecidableEq, Repr

def whdrOf (b : List Byte) : WHdr :=
  let ok := crc32c (b.take 60) == leAt b 60 4
  let v := leAt b 21 1
  { fp := leAt b 0 8, n := leAt b 8 8, nrhs := leAt b 16 4, method := leAt b 20 1, sound := ok, valid := v.testBit 7 && ok,
    pcValid := v.testBit 6 && ok, pcBlock := leAt b 22 2, gen := leAt b 24 4, iters := leAt b 28 4,
    resid := leAt b 32 8, m := leAt b 40 4 }

def whdrBytes (h : WHdr) : List Byte :=
  checked60 (bytesOfNat 8 h.fp ++ bytesOfNat 8 h.n ++ bytesOfNat 4 h.nrhs ++ bytesOfNat 1 h.method ++
    bytesOfNat 1 (128 * boolNat h.valid + 64 * boolNat h.pcValid) ++ bytesOfNat 2 h.pcBlock ++ bytesOfNat 4 h.gen ++
    bytesOfNat 4 h.iters ++ bytesOfNat 8 h.resid ++ bytesOfNat 4 h.m ++ zeroBytes 16)

/-- GENERATION of the next header write: one more than a header whose CHECK matches, 1 over anything else (R257). -/
def WHdr.nextGen (h : WHdr) : Nat := if h.sound then (h.gen + 1) % 2 ^ 32 else 1

/-- Fingerprint of a solver state: the store's, or that of M and N (R257). -/
def stateFp (q : SReq) (storeFp m n : Nat) : Nat :=
  if q.gn then leAt (shake256 8 (asciiBytes "TLS1GN01" ++ bytesOfNat 8 m ++ bytesOfNat 8 n)) 0 8 else storeFp

/-- The warm-start outcome: reused or not, and the reason of a refusal (R259). -/
def warmOutcome (q : SReq) (fp n : Nat) (h : WHdr) : Bool × Option Nat :=
  if !h.valid then (false, some 1)
  else if h.fp != fp && !q.warmAny then (false, some 2)
  else if h.n != n || h.nrhs != q.nrhs then (false, some 3)
  else if (h.method == 0x21) != q.gn then (false, some 4)
  else (true, none)

/-- Clears PC_VALID, leaving VALID and ITERATE as they were (R258); a delivery that waits leaves `s0`. -/
def clearPcValid (s0 s : State) (g m : Nat) (r : SolveRun) (q : SReq) (ok : State → State) : State :=
  onRead g (readAt s m (solveBy r.slot) q.state 64) (fun s1 hb =>
    let h := whdrOf hb
    let p := putParcel s1 m r.slot q.state (whdrBytes { h with pcValid := false, gen := h.nextGen })
    onPut s0 p.1 g 0 p.2 ok)

/-- The free set of a derivative QP, from the active map of its forward solve (R238, R260, R262). -/
def freeSet (s : State) (m : Nat) (r : SolveRun) (q : SReq) : State × Except (Nat × Nat) (Option (List Bool)) :=
  if q.qp && q.derivative then
    match readAt s m (solveBy r.slot) (sextOf r.ext).active (ceilDiv (2 * r.n) 8) with
    | (s1, .error x) => (s1, .error x)
    | (s1, .ok b) => (s1, .ok (some ((List.range r.n).map (fun i => field (leAt b (i / 4) 1) (2 * (i % 4)) 2 == 0))))
  else (s, .ok none)

/-- Starting iterates, and whether the block factors are reused (R259). A derivative QP starts at +0 outside its free
set. Factors that will be written keep the solve in phase 2 until PC_VALID is clear (R251, R258). -/
def warmStart (s : State) (g m : Nat) (r : SolveRun) (q : SReq) (fp : Nat) : State :=
  let u := solveBy r.slot
  let e := sextOf r.ext
  let zero : List (List Nat) := List.replicate q.nrhs (List.replicate r.n 0)
  let go (s : State) (xs : List (List Nat)) (pc : Bool) : State :=
    onRead g (freeSet s m r q) (fun s1 fr =>
      let need := q.pcBlock != 0 && !pc
      setSolve s1 g (some { r with
        cols := xs.map (fun x => { x := restrict fr x }), pcOk := pc,
        phase := if need then 2 else 5, stage := if need then 2 else 0 }))
  let cold (s : State) : State :=
    if q.gn then onRead g (readAt s m u e.x0 (8 * r.n)) (fun s1 b => go s1 [f64List b r.n] false)
    else go s zero false
  if !q.warm then cold s
  else onRead g (readAt s m u q.state 64) (fun s1 hb =>
    let h := whdrOf hb
    match warmOutcome q fp r.n h with
    | (_, some why) =>
      cold (setSlv (opWarn s1 r.slot stWarm (detail2 why (if why == 1 then 0 else h.fp))) g
        (fun x => { x with warmRefused := inc32 x.warmRefused }))
    | (_, none) =>
      onRead g (readAt s1 m u (q.state + 4096) (r.n * q.nrhs * 8)) (fun s2 b =>
        go s2 (columnsOf b r.n q.nrhs)
          (h.fp == fp && q.pcReuse && h.pcValid && h.pcBlock == q.pcBlock && q.pcBlock != 0)))

/-- Phase 2: the header's commit, then the ranges and the way on; at stage 2, PC_VALID is cleared before phase 3. -/
def stageRange (s : State) (g m : Nat) (r : SolveRun) (q : SReq) : State :=
  let u := solveBy r.slot
  if r.stage == 2 then clearPcValid s s g m r q (fun s1 => setSolve s1 g (some { r with phase := 3, stage := 0 }))
  else if q.assembles && r.stage == 0 then
    let hb := (r.rhs.getD 0 []).map (BitVec.ofNat 8)
    let x := putParcel s m r.slot q.store hb
    onPut s x.1 g 0 x.2 (fun s1 => setSolve s1 g (some { r with stage := 1, rhs := [] }))
  else if q.method == 0 then endSolve s g .done
  else
    onRead g (readStore s m u q.store q.nrhs) (fun s1 y =>
      onRead g (prepareRhs s1 m u { r with n := y.h.n } q y) (fun s2 z =>
        onCalc g r s2 z (fun s3 x =>
          let r1 : SolveRun := { r with
            n := y.h.n, rhs := x.1, anorm := x.2, stage := 0,
            emaxB := if q.derivative then emaxOf (x.1.flatMap id) else y.h.emaxB }
          if q.iterative then warmStart s3 g m r1 q y.h.fp
          else
            let s4 := setSolve s3 g (some { r1 with
              cols := List.replicate q.nrhs { x := List.replicate y.h.n 0 }, phase := if q.factors then 3 else 4 })
            if !q.factors && q.refineCap == 0 then endSolve s4 g .done else s4)))

/-! ## Factorising: phase 3 -/

/-- Whether a factorisation may write a slot of its factor store now (R230). -/
def slotFree (s : State) (g : Nat) (r : SolveRun) (q : SReq) (slot : Nat) : Bool :=
  !(runningSolves s).any (fun e => e.1 != g && (
    let o := sreqOf e.2.req
    o.direct && o.factor == q.factor && (e.2.held == some slot ||
      (o.factors && e.2.held.isNone && (e.2.accepted < r.accepted || (e.2.accepted == r.accepted && e.1 < g)))))) &&
  !(earlierReqs s g r.slot r.accepted).any (fun o => o.factors && o.factor == q.factor)

/-- Counts replaced pivots; the warning carries the count and the first column (R227). -/
def noteReg (s : State) (g : Nat) (r : SolveRun) (reg : Nat × Nat) : State :=
  if reg.1 == 0 then s
  else opWarn (setSlv s g (fun x => { x with pivReg := add32 x.pivReg reg.1 })) r.slot stPivot (detail2 reg.1 reg.2)

/-- A direct factorisation: the slot that is not current, then the header (R229). -/
def stageFactor (s : State) (g m : Nat) (r : SolveRun) (q : SReq) : State :=
  let u := solveBy r.slot
  let w := workBytes q.ffmt
  onRead g (readAt s m u q.factor 64) (fun s1 fb =>
    let h := fhdrOf fb
    let target := if h.valid then 1 - h.slot else 0
    match r.written with
    | none =>
      if !slotFree s1 g r q target then s
      else onRead g (readStore s1 m u q.store 0) (fun s2 y =>
        onCalc g r s2 ((factorise q.method q.ffmt q.tau r.n (denseRows y.a)).run {}) (fun s3 f =>
          let p := putParcels s3 m r.slot (slotBase q.factor target r.n w) (facParcels q.ffmt f)
          onPut s p.1 g 0 p.2 (fun s4 =>
            noteReg (setSolve s4 g (some { r with written := some target, reg := f.reg })) g r f.reg)))
    | some slot =>
      onRead g (readHdr s1 m u q.store) (fun s2 sh =>
        let nh : FHdr := { fp := sh.fp, n := r.n, method := q.method, code := q.ffmt, valid := true, slot := slot,
                           gen := if h.valid then (h.gen + 1) % 2 ^ 32 else 1, reg := r.reg.1, first := r.reg.2 }
        let p := putParcel s2 m r.slot q.factor (fhdrBytes nh)
        onPut s p.1 g 0 p.2 (fun s3 =>
          let s4 := setSlv (setSolve s3 g (some { r with held := some slot, hcode := q.ffmt, phase := 4, stage := 0 })) g
            (fun x => { x with factors := x.factors + 1 })
          if q.refineCap == 0 then endSolve s4 g .done else s4)))

/-- Block-Jacobi factors into the solver state (R241, R258). -/
def stageBlocks (s : State) (g m : Nat) (r : SolveRun) (q : SReq) : State :=
  onRead g (readStore s m (solveBy r.slot) q.store 0) (fun s1 y =>
    onCalc g r s1 ((factorBlocks q y.a).run {}) (fun s2 f =>
      let p := putParcels s2 m r.slot (q.state + (stateMap q r.n 0).pcf) (blockParcels q.ffmt f.1)
      onPut s p.1 g 0 p.2 (fun s3 =>
        noteReg (setSolve s3 g (some { r with pcOk := true, reg := f.2, phase := 5, stage := 0 })) g r f.2)))

/-! ## Refining: phase 4 (R231, R232) -/

/-- The residual of a running column, and its test. -/
def refineTest (c : SCtx) (b : List Nat) (k : SolveCol) : Calc SolveCol := do
  if k.done != 0 then pure k
  else
    let r ← c.res b k.x
    let k1 := k.setRes 0 r
    if c.r.fixed then pure k1
    else if f64Lt (← cNorm r) (← c.threshold b k.x) then pure { k1 with done := 1 } else pure k1

/-- One correction of a running column. -/
def refineStep (q : SReq) (code : Nat) (f : Fac) (k : SolveCol) : Calc SolveCol := do
  if k.done != 0 then pure k
  else pure { k with x := ← addCorrection k.x (← correction q.method code f q.adjoint (k.vec 0)), resid := none }

/-- Columns with their right-hand sides. -/
def withSides (r : SolveRun) (l : List SolveCol) : List (List Nat × SolveCol) :=
  (List.range l.length).map (fun i => (r.rhs.getD i [], l.getD i {}))

/-- The norm of the last residual over the unconverged columns, or over all once every column has converged, in
TIL_SLV_RESID (R233, R249). -/
def noteResid (s : State) (g : Nat) (l : List SolveCol) : State :=
  match residNorm l (fun k => k.done != 1 || l.all (fun j => j.done == 1)) with
  | some v => setSlv s g (fun x => { x with resid := BitVec.ofNat 64 v })
  | none => s

def stageRefine (s : State) (g m : Nat) (r : SolveRun) (q : SReq) : State :=
  let u := solveBy r.slot
  if r.stage == 0 then
    onRead g (readStore s m u q.store 0) (fun s1 y =>
      let c : SCtx := { r := q, a := y.a, tr := q.adjoint, emaxA := y.h.emaxA, emaxB := r.emaxB, anorm := r.anorm, pc := [] }
      onCalc g r s1 (((withSides r r.cols).mapM (fun e => refineTest c e.1 e.2)).run {}) (fun s2 cols =>
        let r1 : SolveRun := { r with cols := cols }
        let s3 := noteResid s2 g cols
        if cols.all (fun k => k.done != 0) then toPublish s3 g r1 .done
        else if r.c == q.refineCap then toPublish s3 g r1 (if q.fixed then .done else .notConverged false)
        else setSolve s3 g (some { r1 with stage := 1 })))
  else
    let w := workBytes r.hcode
    onRead g (readAt s m u (slotBase q.factor (r.held.getD 0) r.n w) (slotMap r.n r.n w).size) (fun s1 b =>
      onCalc g r s1 ((r.cols.mapM (refineStep q r.hcode (facOfBytes r.hcode r.n r.n b))).run {}) (fun s2 cols =>
        setSlv (setSolve s2 g (some { r with cols := cols, c := r.c + 1, stage := 0 })) g
          (fun x => { x with corr := r.c + 1 })))

/-! ## Iterating: phase 5 (R243 to R248) -/

/-- The context of an iterative solve: store, block factors, bounds or free set. -/
def iterCtx (s : State) (m : Nat) (r : SolveRun) (q : SReq) : State × Except (Nat × Nat) SCtx :=
  let u := solveBy r.slot
  let e := sextOf r.ext
  match readStore s m u q.store 0 with
  | (s1, .error x) => (s1, .error x)
  | (s1, .ok y) =>
    let l := stateMap q r.n 0
    match readAt s1 m u (q.state + l.pcf) (if q.pcBlock == 0 then 0 else l.work - l.pcf) with
    | (s2, .error x) => (s2, .error x)
    | (s2, .ok pb) =>
      match (if q.qp && !q.derivative then readAt s2 m u e.lower (8 * r.n) else (s2, .ok [])) with
      | (s3, .error x) => (s3, .error x)
      | (s3, .ok lb) =>
        match (if q.qp && !q.derivative then readAt s3 m u e.upper (8 * r.n) else (s3, .ok [])) with
        | (s4, .error x) => (s4, .error x)
        | (s4, .ok ub) =>
          match freeSet s4 m r q with
          | (s5, .error x) => (s5, .error x)
          | (s5, .ok fr) =>
            (s5, .ok { r := q, a := y.a, tr := q.adjoint, emaxA := y.h.emaxA, emaxB := r.emaxB, anorm := r.anorm,
                       pc := blocksOfBytes q.ffmt (pcBlocks r.n q.pcBlock) pb, free := fr,
                       lower := f64List lb r.n, upper := f64List ub r.n })

/-- The method that runs: a derivative QP is CG on the free set (R260, R262). -/
def SReq.loop (q : SReq) : Nat := if q.qp && q.derivative then 0x10 else q.method

def colTop (c : SCtx) (b : List Nat) (k : SolveCol) : Calc SolveCol :=
  if k.done != 0 then pure k
  else match c.r.loop with
    | 0x10 => cgTop c (restrict c.free b) k
    | 0x11 => bicgTop c b k
    | 0x12 => gmresTop c b k
    | _ => qpTop c b k

def colStep (c : SCtx) (b : List Nat) (last : Bool) (k : SolveCol) : Calc SolveCol :=
  if k.done != 0 then pure k
  else match c.r.loop with
    | 0x10 => cgStep c k
    | 0x11 => bicgStep c k
    | 0x12 => gmresStep c last k
    | _ => qpStep c b last k

/-- The lowest index whose bounds are not a range (R246). -/
def badBound (c : SCtx) : Option Nat :=
  (List.range c.lower.length).find? (fun i => !f64Le (c.lower.getD i 0) (c.upper.getD i 0))

/-- The WORK region of the solver state, whose contents R257 does not give; a delivery that waits leaves `s0`. -/
def writeWork (s0 s : State) (g m : Nat) (r : SolveRun) (q : SReq) (ok : State → State) : State :=
  let l := stateMap q r.n (sextOf r.ext).m
  let p := putParcels s m r.slot (q.state + l.work)
    (padded (openWords r.req ((r.cols.map (fun k => k.x) ++ r.rhs).flatMap id) ((l.size - l.work) / 8)))
  onPut s0 p.1 g 0 p.2 ok

/-- One step of every running column. -/
def stageIterate (s : State) (g m : Nat) (r : SolveRun) (q : SReq) : State :=
  if r.stage == 0 then writeWork s s g m r q (fun s1 => setSolve s1 g (some { r with stage := 1 }))
  else onRead g (iterCtx s m r q) (fun s1 c =>
    match (if r.c == 0 && q.loop == 0x20 then badBound c else none) with
    | some i => endSolve s1 g (.error stStruct (detail2 0xFFFFFF1C i))
    | none =>
      onCalc g r s1 (((withSides r r.cols).mapM (fun e => colTop c e.1 e.2)).run {}) (fun s2 tops =>
        let s3 := noteResid s2 g tops
        let r1 : SolveRun := { r with cols := tops }
        if tops.all (fun k => k.done != 0) then
          toPublish s3 g r1 (if tops.all (fun k => k.done == 1) then .done else .notConverged true)
        else if r.c == q.iterCap then toPublish s3 g r1 (if q.fixed then .done else .notConverged false)
        else onCalc g r s3 (((withSides r tops).mapM (fun e => colStep c e.1 (r.c + 1 == q.iterCap) e.2)).run {})
          (fun s4 next =>
            let broke := ((tops.zip next).filter (fun e => e.1.done == 0 && e.2.done == 2)).length
            let cnt := if (tops.zip next).any (fun e => e.1.done == 0 && e.2.done != 2) then r.c + 1 else r.c
            setSlv (setSolve (noteResid s4 g next) g (some { r1 with cols := next, c := cnt })) g (fun x => { x with
              iterations := cnt, breakdowns := add32 x.breakdowns broke }))))

/-- The ledger entry of a group's residual program, above the 131,072 slots. -/
def residSlot (g : Nat) : Nat := 131072 + g

/-- Gauss–Newton: 0 hands the iterate to the residual program, 1 waits for its end, 2 takes the step (R247). -/
def stageGn (s : State) (g m : Nat) (r : SolveRun) (q : SReq) : State :=
  let u := solveBy r.slot
  let e := sextOf r.ext
  let x := (r.cols.getD 0 {}).x
  if r.stage == 9 then warmStart s g m r q (stateFp q 0 e.m r.n)
  else if r.stage == 0 then
    let p := putParcels s m r.slot (q.state + 4096) (padded (f64Bytes x))
    onPut s p.1 g 0 p.2 (fun s1 =>
      match s1.op r.slot with
      | none => s1
      | some o =>
        let id := residSlot g
        let po : Op :=
          { rcpt := { opId := q.opId, stream := o.rcpt.stream }, kind := 2, target := e.progCluster, step := o.step,
            place := .queued, payload := bytesOfNat 4 q.opId ++ bytesOfNat 4 e.program ++ bytesOfNat 8 q.state }
        let c := s1.lclu e.progCluster
        let s2 := (s1.setOp id po).setLclu e.progCluster { c with progs := c.progs ++ [id] }
        setSolve s2 g (some { r with prog := some id, stage := 1 }))
  else if r.stage == 1 then s
  else
    onRead g (readAt s m u e.jac (e.m * r.n * 8)) (fun s1 jb =>
      onRead g (readAt s1 m u e.fres (8 * e.m)) (fun s2 fb =>
        let j := (List.range e.m).map (fun i => f64List (jb.drop (8 * i * r.n)) r.n)
        let f := f64List fb e.m
        let grad := jtMul q.headroom r.n j f
        if r.stage == 2 then
          onCalc g r s2 ((do
              let gr ← grad
              pure (gr, ← gnConverged q j f gr) : Calc (List Nat × Bool)).run {}) (fun s3 y =>
            let k : SolveCol := { x := x, resid := some (normInf y.1) }
            let r1 : SolveRun := { r with cols := [k] }
            let s4 := setSlv s3 g (fun z => { z with resid := BitVec.ofNat 64 (normInf y.1) })
            if y.2 then toPublish s4 g { r1 with cols := [{ k with done := 1 }] } .done
            else if r.c == q.iterCap then toPublish s4 g r1 (if q.fixed then .done else .notConverged false)
            else clearPcValid s s4 g m r q (fun s5 => setSolve s5 g (some { r1 with phase := 3, stage := 3 })))
        else
          onCalc g r s2 ((do
              let fc ← factorise 3 q.ffmt q.tau r.n j
              let d ← gnRefine q.refineCap q fc r.n j f (grad.run {}).1 (← gnStep q.ffmt fc f)
              pure (fc, ← (x.zip d).mapM (fun v => cAdd v.1 v.2)) : Calc (Fac × List Nat)).run {}) (fun s3 y =>
            let p := putParcels s3 m r.slot (q.state + (stateMap q r.n e.m).pcf) (facParcels q.ffmt y.1)
            onPut s p.1 g 0 p.2 (fun s4 => writeWork s s4 g m r q (fun s5 =>
              setSlv (setSolve (noteReg s5 g r y.1.reg) g (some { r with
                cols := [{ x := y.2 }], c := r.c + 1, phase := 5, stage := 0, pcOk := true })) g
                (fun z => { z with iterations := r.c + 1 }))))))

/-! ## Publication: phase 6 (R232, R253, R258, R299) -/

def outBytes (r : SolveRun) : List Byte := r.cols.flatMap (fun k => f64Bytes k.x)

/-- A parcel of X that holds a non-finite element, whose count the arithmetic has already taken (03 R90). -/
def noteNonfinite (s : State) (slot i : Nat) (b : List Byte) : State :=
  match s.op slot with
  | none => s
  | some o =>
    if (List.range (b.length / 8)).any (fun k => !f64IsFinite (leAt b (8 * k) 8)) then
      s.setOp slot { o with nonfinFirst := min o.nonfinFirst i }
    else s

/-- Whether the gradient follows λ (R261). -/
def wantsGrad (r : SolveRun) (q : SReq) : Bool := q.adjoint && (sextOf r.ext).gcoef != 0 && r.fin == some .done

/-- The gradient's bytes and what rounding it raised, parcel by parcel. -/
def gradParcels (s : State) (m : Nat) (r : SolveRun) (q : SReq) :
    State × Except (Nat × Nat) (List (List Byte × Tally)) :=
  let u := solveBy r.slot
  let e := sextOf r.ext
  match readTable s m u q with
  | (s1, .error x) => (s1, .error x)
  | (s1, .ok t) => match readStore s1 m u q.store 0 with
    | (s2, .error x) => (s2, .error x)
    | (s2, .ok y) => match readAt s2 m u e.fwdX (r.n * q.nrhs * 8) with
      | (s3, .error x) => (s3, .error x)
      | (s3, .ok xb) => match (if t.1.kind == 2 then readAt s3 m u t.1.conn (t.1.dim0 * t.1.points * 4) else (s3, .ok [])) with
        | (s4, .error x) => (s4, .error x)
        | (s4, .ok cb) =>
          let f : Fmt := if e.gradFmt == 0 then .f64 else .f32
          let l := gradient t.1 y.a (fun i k => leAt cb (4 * (i * t.1.points + k)) 4) f (fixedRows t.2)
            (r.cols.map (fun k => k.x)) (columnsOf xb r.n q.nrhs)
          let w := fmtBits f / 8
          (s4, .ok ((chunks (4096 / w) l).map (fun c => (wordsBytes w (c.map (fun x => x.bits)), tallyAll c))))

/-- The state's ITERATE and header, and a QP's active map, after X (R245, R258). -/
def stageState (s : State) (g m : Nat) (r : SolveRun) (q : SReq) : State :=
  let u := solveBy r.slot
  let e := sextOf r.ext
  let fin (s : State) : State := setSolve s g (some { r with stage := 2 })
  if !q.iterative then fin s
  else
    onRead g (if q.gn then (s, .ok (hdrOf [])) else readHdr s m u q.store) (fun s1 sh =>
      onRead g (readAt s1 m u q.state 64) (fun s2 hb =>
        let old := whdrOf hb
        let h : WHdr :=
          { fp := stateFp q sh.fp e.m r.n, n := r.n, nrhs := q.nrhs, method := q.method, sound := true, valid := true, pcValid := r.pcOk,
            pcBlock := q.pcBlock, gen := old.nextGen, iters := r.c,
            resid := (residNorm r.cols (fun _ => true)).getD 0x7FF8000000000000, m := if q.gn then e.m else 0 }
        let p := putParcels s2 m r.slot (q.state + 4096) (padded (outBytes r))
        onPut s p.1 g 0 p.2 (fun s3 =>
          let p2 := putParcel s3 m r.slot q.state (whdrBytes h)
          onPut s p2.1 g 0 p2.2 (fun s4 =>
            if q.qp && !q.derivative then
              onRead g (iterCtx s4 m r q) (fun s5 c =>
                onCalc g r s5 ((activeMap c (r.rhs.getD 0 []) ((r.cols.getD 0 {}).x)).run {}) (fun s6 a =>
                  let bytes := (chunks 4 a).map (fun l => BitVec.ofNat 8 (packElems 2 l))
                  let p3 := putParcels s6 m r.slot e.active (padded bytes)
                  onPut s p3.1 g 0 p3.2 fin))
            else fin s4))))

/-- One parcel of X, the state, one parcel of the gradient, or the end. An abort ends the solve with the parcel being
written, unless that is the last of its output (R235). -/
def stagePublish (s : State) (g m : Nat) (r : SolveRun) (q : SReq) : State :=
  let out := padded (outBytes r)
  let publish (base i : Nat) (b : List Byte) (last : Bool) (note : State → State) : State :=
    let p := putParcel s m r.slot (base + 4096 * i) b
    onPut s p.1 g r.pub p.2 (fun s1 =>
      let s2 := note (opCount (setSolve s1 g (some { r with pub := r.pub + 1 })) r.slot (r.pub + 1))
      if r.abort && !last then endSolve s2 g (.error stReset 0) else s2)
  match out[r.pub]? with
  | some b => publish q.x r.pub b (r.pub + 1 == out.length && !wantsGrad r q) (fun s1 => noteNonfinite s1 r.slot r.pub b)
  | none =>
    if r.stage == 0 then
      if r.abort && wantsGrad r q then endSolve s g (.error stReset 0) else stageState s g m r q
    else if !wantsGrad r q then endSolve s g (r.fin.getD .done)
    else onRead g (gradParcels s m r q) (fun s1 l =>
      match l[r.pub - out.length]? with
      | some x => publish (sextOf r.ext).gcoef (r.pub - out.length) x.1 (r.pub + 1 == out.length + l.length)
          (fun s2 => postRaised s2 r { ve := x.2 } (some r.pub))
      | none => endSolve s1 g (r.fin.getD .done))

/-! ## Commands -/

/-- Which row of the table a request is: its method, or a derivative solve. -/
def SReq.row (q : SReq) : Nat := if q.adjoint then 0x100 else if q.tangent then 0x101 else q.method

/-- One stage of a running solve; a member that has become a dead letter ends it first (R209). -/
def solveStage (s : State) (g : Nat) (r : SolveRun) : State :=
  let q := sreqOf r.req
  let m := solveMaster (leadTile s g)
  if r.members.any (isDead s) then endSolve s g (.error stDead 0)
  else if r.members.any (isStopped s) then s
  else match r.phase with
    | 1 => stageAssemble s g m r q
    | 2 => stageRange s g m r q
    | 3 => if q.gn then stageGn s g m r q else if q.direct then stageFactor s g m r q else stageBlocks s g m r q
    | 4 => stageRefine s g m r q
    | 5 => if q.gn then stageGn s g m r q else stageIterate s g m r q
    | _ => stagePublish s g m r q

/-- Publishes the iterate whole after a miss, as far as read locks allow. -/
def publishRest (fuel : Nat) (s : State) (g : Nat) : State :=
  match fuel with
  | 0 => s
  | k + 1 => match (s.group g).run with
    | none => s
    | some r => publishRest k (solveStage s g r) g

/-- What the deadline does to a running solve that it has reached (R251, R253). -/
def missSolve (s : State) (g : Nat) (r : SolveRun) : State :=
  if r.phase ≤ 3 then endSolve s g (.missed r.phase)
  else
    let s1 := dropResidual s r
    let r1 : SolveRun := if r.phase == 6 then { r with late := some 6 }
      else { r with prog := none, phase := 6, stage := 0, fin := some (.missed r.phase), late := some r.phase }
    publishRest (2 * (outBytes r).length + 4) (setSolve s1 g (some r1)) g

/-- Whether the time base has reached the deadline of a running solve, which nothing has ended before (02 R64). -/
def solveDue (s : State) (r : SolveRun) : Bool :=
  decide ((sreqOf r.req).deadline ≤ s.now) && r.late.isNone && !r.abort

/-- Operations that run or wait on the members of a solve, its own residual program apart (R208, 05 R134, 06 R152). -/
def memberWork (s : State) (r : SolveRun) : List Nat :=
  r.members.flatMap (fun n =>
    let p := physOfN s n
    let te := s.te p
    ((s.seq p).prog.toList.map (fun q => q.slot) ++ (s.lclu n).progs ++ te.run.toList.map (fun x => x.item.slot) ++
      te.queue.map (fun i => i.slot)).filter (fun k => r.prog != some k))

/-- Runs the next stage of a solve once the work ahead of it on the members has ended: the work a stage places there
queues behind what it finds. A publication is the lead sequencer's own. -/
def turnStage (s : State) (g : Nat) (r : SolveRun) : State :=
  let work := memberWork s r
  let before := match r.ahead with | none => work | some l => l.filter (fun k => work.contains k)
  if r.phase ≤ 5 && !before.isEmpty then setSolve s g (some { r with ahead := some before })
  else solveStage s g { r with ahead := none }

/-- Advances the solve of a group by `k` stages, its start being one, while it is of the row given. -/
def solveAdvance (k : Nat) (s : State) (g row : Nat) : State :=
  match k with
  | 0 => s
  | k + 1 =>
    let x := s.group g
    match x.run with
    | some r =>
      if (sreqOf r.req).row == row then
        solveAdvance k (if solveDue s r then missSolve s g r else turnStage s g r) g row
      else s
    | none => match x.queue with
      | (_, _, b) :: _ => if (sreqOf b).row == row then solveAdvance k (startSolve s g) g row else s
      | [] => s

def execAssembleOnly (g : GroupNo) (k : Nat) (s : State) : Result := .next (solveAdvance k s g 0)
def execLuSolve (g : GroupNo) (k : Nat) (s : State) : Result := .next (solveAdvance k s g 1)
def execCholeskySolve (g : GroupNo) (k : Nat) (s : State) : Result := .next (solveAdvance k s g 2)
def execQrSolve (g : GroupNo) (k : Nat) (s : State) : Result := .next (solveAdvance k s g 3)
def execCgSolve (g : GroupNo) (k : Nat) (s : State) : Result := .next (solveAdvance k s g 0x10)
def execBicgstabSolve (g : GroupNo) (k : Nat) (s : State) : Result := .next (solveAdvance k s g 0x11)
def execGmresSolve (g : GroupNo) (k : Nat) (s : State) : Result := .next (solveAdvance k s g 0x12)
def execQpSolve (g : GroupNo) (k : Nat) (s : State) : Result := .next (solveAdvance k s g 0x20)
def execGaussNewtonSolve (g : GroupNo) (k : Nat) (s : State) : Result := .next (solveAdvance k s g 0x21)
def execAdjointSolve (g : GroupNo) (k : Nat) (s : State) : Result := .next (solveAdvance k s g 0x100)
def execTangentSolve (g : GroupNo) (k : Nat) (s : State) : Result := .next (solveAdvance k s g 0x101)

/-- Every fault of a request that the lead sequencer sees when it is handed over (R212, R239). -/
def solveCheck (s : State) (g slot : Nat) (b : List Byte) : State × Except (Nat × Nat) (Option (Nat × Nat)) :=
  let q := sreqOf b
  let m := solveMaster (leadTile s g)
  let u := solveBy slot
  let mem := groupMembers s g
  let first := reqFaults b s.now ++ broken mem.isEmpty 1 [4]
  match (if q.gn || badRegion q.system 256 then (s, .ok []) else readAt s m u q.system 256) with
  | (s1, .error e) => (s1, .error e)
  | (s1, .ok tb) =>
    let t := stabOf tb
    let tab := if tb.isEmpty then none else some t
    match (if q.ext == 0 || badRegion q.ext 256 then (s1, .ok []) else readAt s1 m u q.ext 256) with
    | (s2, .error e) => (s2, .error e)
    | (s2, .ok eb) =>
      let n := if q.gn then gnOrder b eb else (tab.bind STab.order).getD 0
      let store := tab.bind (fun t => match t.order, t.blocks with
        | some k, some z => some (storeMap (t.kind == 0) k t.u z q.nrhs)
        | _, _ => none)
      let l := first ++ reqRegions q n store (sextOf eb).m ++ (if tb.isEmpty then [] else tabFaults tb q.method) ++
        broken (q.iterative && tab.isSome && t.u != 0 && q.pcBlock % t.u != 0) 9 [104] ++
        (if eb.isEmpty then [] else
          extFaults eb q n ((tab.map tabCoefs).getD 0) ((tab.map tabCoefBytes).getD 0) mem)
      (s2, .ok (solveFault l))

/-- Accepts a solve request handed to its group's lead sequencer, up to 64 a group (R208). -/
def execSolveRequest (slot : Slot) (s : State) : Result :=
  .next (
    match s.op slot with
    | none => s
    | some o =>
      let g := (sreqOf o.payload).group
      if o.kind != 3 || o.place ≠ .atIssuer then s
      else if 64 ≤ (s.group g).queue.length then s
      else match solveCheck s g slot o.payload with
        | (s1, .error e) => opFail s1 slot e.1 (detail2 e.2 (e.2 / 2 ^ 32))
        | (s1, .ok (some e)) => opMalformed s1 slot e.2 e.1
        | (s1, .ok none) =>
          let x := s1.group g
          opPlace (s1.setGroup g { x with queue := x.queue ++ [(slot.val, s1.now, o.payload)] }) slot .queued)

/-- The time base reaches DEADLINE while a solve runs (R251, R253). -/
def execSolveDeadlineExpiry (g : GroupNo) (s : State) : Result :=
  .next (
    match (s.group g).run with
    | none => s
    | some r => if solveDue s r then missSolve s g r else s)

/-- The residual program has ended: the loop goes on, or the solve ends with its status (R247). -/
def execResidualProgramEnd (g : GroupNo) (s : State) : Result :=
  .next (
    match (s.group g).run with
    | none => s
    | some r =>
      match r.prog.bind s.op with
      | none => s
      | some o =>
        if !rstateFinal o.rcpt.state then s
        else if solveDue s r then missSolve s g r
        else
          let s1 := dropResidual s r
          let r1 : SolveRun := { r with prog := none }
          if o.rcpt.state = .done then setSolve s1 g (some { r1 with stage := 2 })
          else toPublish s1 g r1 (.error o.rcpt.status o.rcpt.detail))

/-- A write of ABORT: the running solve of the group ends, one that is publishing with the parcel being written; one whose deadline falls in the same cycle misses it
(R235, R255). -/
def actSolveAbort (s : State) (t v : Nat) : State :=
  let g := v % 256
  let s1 := s.setTile t { s.tile t with slvGroup := g }
  if !v.testBit 8 then s1
  else match (s1.group g).run with
    | none => s1
    | some r =>
      if leadTile s1 g != t || r.late.isSome || decide ((sreqOf r.req).deadline ≤ s1.now) then s1
      else if r.phase == 6 then
        let r1 : SolveRun := { r with abort := true }
        solveStage (setSolve s1 g (some r1)) g r1
      else endSolve s1 g (.error stReset 0)

def execSolveAbort (t : Tile) (m : Master) (v : W32) (s : State) : Result :=
  .next (gated s m.toNat (tilBase t + 0x6000) (fun s => actSolveAbort s t v.toNat))

end Sys2Proof.Machine
end

