-- ==== Sys2Proof/Machine/Reset.lean ====
section
/-! DEFINITION. Quiesce, cluster reset, sleep and wake, compute and module reset, the power and reset pins, and the host
link's events (spec/18 R453, R468 to R477; spec/16 R425, R426; spec/22 R545 to R547). -/

namespace Sys2Proof.Machine

/-! ## Quiesce, release and cluster reset (18 R472, R473) -/

/-- Ends the running solves that a filter names. -/
def endSolvesOf (s : State) (f : SolveRun → Bool) : State :=
  (runningSolves s).foldl (fun a e => if f e.2 then endSolve a e.1 (.error stReset 0) else a) s

/-- A memory instruction of the program is in flight (06 R180). -/
def memInFlight (s : State) (p : Nat) : Bool :=
  match (s.seq p).wait with
  | .memory => true
  | .remote _ => true
  | _ => false

/-- What still keeps a quiesce from being complete: an instruction in flight, or records of a suspension. -/
def quiesceWaits (s : State) (p : Nat) : Bool := memInFlight s p || (s.te p).susp.isSome

/-- The quiesce is complete: nothing runs on the cluster. -/
def quiesceEnd (s : State) (n : Nat) : State :=
  s.setLclu n { s.lclu n with quiesced := true, quiescing := false }

/-- Quiesces logical cluster n (R472): its program ends at the next instruction boundary, its tensor operation is suspended,
and solves that use it end. Complete at once, or once what is in flight has ended. -/
def quiesceCluster (s : State) (n : Nat) : State :=
  let p := physOfN s n
  if isStopped s n then s
  else
    let s0 := s.setLclu n { s.lclu n with quiescing := true }
    let s1 := if memInFlight s0 p then s0 else endQuiesced s0 p
    let s2 := endSolvesOf (quiesceTensor s1 p) (fun r => r.members.contains n)
    if quiesceWaits s2 p then s2 else quiesceEnd s2 n

def releaseCluster (s : State) (n : Nat) : State :=
  if isQuiesced s n then s.setLclu n { s.lclu n with quiesced := false, idleSince := s.now } else s

/-- Ends the queued work of a quiesced cluster and returns its registers to reset values; store, flags, counters and
the quiesced state stay (R473; 03 R93, 04 R127). -/
def resetCluster (s : State) (n : Nat) : State :=
  let p := physOfN s n
  let c := s.clu p
  let l := s.lclu n
  let s1 := s.setClu p { c with
    seq := {}, te := { c.te with queue := [], key := 0, rateLog2 := 0 },
    win := { c.win with w := 0, base := -2148, pending := none } }
  failAll (s1.setLclu n { l with progs := [] }) (itemSlots c.te.queue ++ l.progs) stReset 0

/-! ## Sleep and wake (R474 to R476) -/

/-- A hold elsewhere has this cluster recompute or recheck. -/
def inspecting (s : State) (n : Nat) : Bool :=
  s.core.clus.any (fun e => match e.2.te.run.bind (fun r => r.hold) with
    | some h => h.recompute == some n || h.recheck == some n
    | none => false)

/-- Idle, as R474 defines it. -/
def clusterIdle (s : State) (n : Nat) : Bool :=
  let p := physOfN s n
  !isDead s n && !isAsleep s n && !isStopped s n && (s.seq p).prog.isNone && (s.lclu n).progs.isEmpty &&
  (s.te p).run.isNone && (s.te p).queue.isEmpty && !inspecting s n &&
  !(runningSolves s).any (fun e => e.2.members.contains n)

def groupPolicy (s : State) (n : Nat) : Nat × Bool :=
  imgPolicy s.image.inForce (imgGroupOf s.image.inForce n)

/-- Enters sleep, tagging a kept store with the epoch in force. -/
def sleepCluster (s : State) (n : Nat) : State :=
  s.setLclu n { s.lclu n with
    asleep := true, retained := if (groupPolicy s n).2 then some s.image.epoch else none }

/-- What a wake finds in the store: a store kept in this epoch stands, any other reads as sealed zeros. -/
def wakeStore (s : State) (n : Nat) : State :=
  let clear (a : State) : State :=
    let p := physOfN s n
    memClear a (storeKey p 0) (storeKey p 0x400000)
  match (s.lclu n).retained with
  | some e =>
    if e == s.image.epoch then s
    else
      let x := s.tile (tileOfN n)
      clear (s.setTile (tileOfN n) { x with wakeStale := inc32 x.wakeStale })
  | none => clear s

/-! ## The control register (R477) -/

/-- A pattern pack tests this cluster. -/
def packTests (s : State) (p : Nat) : Bool := s.chk.packResult == 1 && s.chk.packScope.contains p

/-- Why a request is refused for a cluster; 0 where it is not. -/
def cluRefused (s : State) (op n : Nat) : Nat :=
  let p := physOfN s n
  let held := [ChkState.testing, ChkState.quarantined].contains (s.clu p).chk.state || (op == 2 && packTests s p)
  if op == 0 || 6 ≤ op then 5
  else if isDead s n then 1
  else if (op == 2 || op == 3) && held then 6
  else if (op == 2 || op == 3) && rowMoving s n then 7
  else if (op == 1 || op == 3) && isAsleep s n then 2
  else if op == 3 && !isQuiesced s n then 3
  else if op == 4 && !clusterIdle s n then 4
  else 0

/-- A request of the tile's control register waits for cluster n. -/
def cluPend (s : State) (n : Nat) : State :=
  let t := tileOfN n
  s.setTile t { s.tile t with wakePend := (s.tile t).wakePend ++ [n] }

/-- What a request waited for at cluster n has come: with the last one the request is done. -/
def cluPendEnd (s : State) (n : Nat) : State :=
  let t := tileOfN n
  let x := s.tile t
  let pend := x.wakePend.filter (fun k => k != n)
  if x.wakePend.contains n then
    s.setTile t { x with
      wakePend := pend,
      cluResult := if pend.isEmpty then (if x.cluReason == 0 then 2 else 3) else x.cluResult }
  else s

/-- Carries a request out for one cluster. -/
def cluApply (s : State) (op n : Nat) : State :=
  match op with
  | 1 =>
    let s1 := quiesceCluster s n
    if (s1.lclu n).quiescing then cluPend s1 n else s1
  | 2 => releaseCluster s n
  | 3 => resetCluster s n
  | 4 => sleepCluster s n
  | _ =>
    if (s.lclu n).asleep then cluPend (s.setLclu n { s.lclu n with waking := true }) n
    else s

/-- Logical clusters a request names. -/
def cluNamed (t v : Nat) : List Nat :=
  if v.testBit 16 then rowClusters t (field v 4 4) else [t * 256 + field v 0 8]

/-- A write of TIL_CLU_CTRL. -/
def actCluCtrl (s : State) (t v : Nat) : State :=
  if (s.tile t).cluResult == 1 then s
  else
    let op := field v 24 4
    let l := cluNamed t v
    let reason := ((l.map (cluRefused s op)).find? (fun r => r != 0)).getD 0
    let s1 := (l.filter (fun n => cluRefused s op n == 0)).foldl (fun a n => cluApply a op n) s
    let x := s1.tile t
    s1.setTile t { x with
      cluLast := field v 0 8, cluReason := reason,
      cluResult := if !x.wakePend.isEmpty then 1 else if reason == 0 then 2 else 3 }

def cluCtrl (s : State) (t : Tile) (m : Master) (v : W32) : State :=
  gated s m.toNat (tilBase t + 0x3000) (fun s => actCluCtrl s t v.toNat)

def execQuiesce (t : Tile) (m : Master) (v : W32) (s : State) : Result := .next (cluCtrl s t m v)
def execRelease (t : Tile) (m : Master) (v : W32) (s : State) : Result := .next (cluCtrl s t m v)
def execClusterReset (t : Tile) (m : Master) (v : W32) (s : State) : Result := .next (cluCtrl s t m v)
def execSleep (t : Tile) (m : Master) (v : W32) (s : State) : Result := .next (cluCtrl s t m v)
def execWake (t : Tile) (m : Master) (v : W32) (s : State) : Result := .next (cluCtrl s t m v)

/-- A waking cluster answers again. -/
def execWakeComplete (n : LClu) (s : State) : Result :=
  .next (
    if !(s.lclu n).waking then s
    else
      let s1 := wakeStore s n
      cluPendEnd (s1.setLclu n { s1.lclu n with
        asleep := false, waking := false, retained := none, idleSince := s.now }) n)

/-- A quiesce in progress is looked at again: the program ends at its instruction boundary, and the quiesce once nothing
is in flight. -/
def retryQuiesce (s : State) (n : Nat) : State :=
  let p := physOfN s n
  if !(s.lclu n).quiescing then s
  else
    let s1 := if memInFlight s p || (s.seq p).prog.isNone then s else endQuiesced s p
    if quiesceWaits s1 p then s1 else cluPendEnd (quiesceEnd s1 n) n

/-- What waited on the tiles is tried again. -/
def retryTiles (s : State) : State :=
  let s1 := s.core.clus.foldl (fun a e => if e.2.te.run.isSome then retryTe a e.1 else a) s
  s1.core.lclus.foldl (fun a e => retryQuiesce a e.1) s1

/-- A cluster idle for its group's IDLE_US without a break. -/
def execIdleTimeout (n : LClu) (s : State) : Result :=
  .next (
    let us := (groupPolicy s n).1
    if us != 0 && clusterIdle s n && decide ((s.lclu n).idleSince + us * 1000 ≤ s.now) then sleepCluster s n else s)

/-! ## Compute reset (R470, R471) -/

/-- Operations that involve a tile. -/
def tileOp (o : Op) : Bool :=
  [1, 2, 3, 4, 6].contains o.kind || (o.kind == 5 && decide (reqCourier o.payload < 256))

/-- Ends an operation with RESET_ABORTED, without yet halting its stream. -/
def abortOp (s : State) (slot : Nat) : State :=
  match s.op slot with
  | none => s
  | some o =>
    let partialEnd := o.rcpt.state ≠ .notStarted && 0 < o.rcpt.count
    opFinal s slot (if partialEnd then .partialEnd else .failed) stReset 0

/-- Ends several operations at one moment: each with RESET_ABORTED, then every stream halts on the first of its own, and
what they doom ends too. -/
def abortOps (s : State) (l : List Nat) : State :=
  let s1 := l.foldl abortOp s
  let s2 := s1.streams.foldl (fun a e => match e.2.ops.find? (fun k => l.contains k) with
    | some k => haltStream a k
    | none => a) s1
  settle (s2.ledger.length + 1) s2

/-- Slots of the operations on the tiles that are not final. -/
def tileSlots (s : State) : List Nat :=
  (s.ledger.filter (fun e => tileOp e.2 && !rstateFinal e.2.rcpt.state && decide (e.1 < 131072))).map Prod.fst

def resetTile (x : TileS) : TileS :=
  { ({} : TileS) with
    fpPage := x.fpPage, fwdActive := x.fwdActive, fwdShadow := x.fwdShadow, fwdEpoch := x.fwdEpoch,
    beatCount := x.beatCount }

/-- Posts and verdicts go; settings and history stay (10 R296). -/
def resetWatch (w : Watch) : Watch :=
  { w with cur := [], nxt := [], verdicts := [], lastReason := 0, lastOpen := false, lastLoss := 0 }

/-- Tile-held structures at their reset values; check states, dead letters and holes stay (R470, 19 R496). -/
def resetTileState (c : Core) (now : Nat) : Core :=
  { clus := c.clus.foldl (fun m e => kset {} m e.1 ({ chk := e.2.chk } : Clu)) [],
    lclus := c.lclus.foldl (fun m e => kset {} m e.1 ({ idleSince := now } : LClus)) [],
    tiles := c.tiles.foldl (fun m e => kset {} m e.1 (resetTile e.2)) [], tileSlv := [], dead := c.dead, holes := c.holes,
    qs := [], qsPart := [], groups := [], se := [], seStack := [],
    watches := c.watches.foldl (fun m e => kset {} m e.1 (resetWatch e.2)) [], posts := [], lwDropped := 0 }

/-- A courier of a tile after the reset: bindings and traffic counters stay (13 R345). -/
def resetTileCourier (c : Nat) (x : Courier) : Courier :=
  if c < 256 then
    { x with rounds := if x.round.isSome then inc32 x.rounds else x.rounds, phase := .idle, queue := [], round := none,
             curOp := 0, pc := 0, lc := [0, 0, 0, 0], faultAddr := 0,
             faultValid := false, faultDir := false, faultCause := 0, restart := 0 }
  else x

/-- Tags of the rounds that go on. -/
def rimTags (s : State) : List Nat :=
  s.couriers.flatMap (fun e => if e.1 < 256 then [] else match e.2.round with
    | some r => r.tags ++ r.moveTags
    | none => [])

/-- Clusters under test or in quarantine stay quiesced (19 R490). -/
def requiesce (s : State) (old : KMap LClus) : State :=
  old.foldl (fun a e =>
    let c := (a.clu (physOfN a e.1)).chk.state
    if e.2.quiesced && (c = .testing || c = .quarantined) then a.setLclu e.1 { a.lclu e.1 with quiesced := true } else a) s

/-- A last output unit of fewer than 4,096 bytes that has been written whole counts for the round it belongs to (13 R341). -/
def countRounds (s : State) : State :=
  s.couriers.foldl (fun a e => match e.2.round with
    | some r => if e.1 < 256 then opCount a r.slot (roundUnits r) else a
    | none => a) s

/-- A compute reset begins. -/
def computeReset (s : State) (cause : Nat) : State :=
  if s.boot.computeReset || s.boot.stage < 6 then s
  else
    let s1 := abortOps (countRounds (drainRequests (endLoad s))) (tileSlots s)
    let tags := rimTags s1
    let s2 := { s1 with
      core := resetTileState s1.core s1.now,
      ledger := s1.ledger.filter (fun e => decide (e.1 < 131072)),
      couriers := s1.couriers.foldl (fun m e => kset {} m e.1 (resetTileCourier e.1 e.2)) [],
      comms := s1.comms.foldl (fun m e => kset {} m e.1 ({ held := e.2.held, early := e.2.early } : CommS)) [],
      net := { s1.net with reqs := s1.net.reqs.filter (fun r => tags.contains r.tag) },
      ring := { s1.ring with paused := true },
      chk := { s1.chk with packResult := if s1.chk.packResult == 1 then 3 else s1.chk.packResult, packScope := [] },
      boot := { s1.boot with computeReset := true, resetCause := cause } }
    let s3 := memClear s2 storeBase (storeBase + 2304 * 0x400000)
    takeWaiting (requiesce s3 s1.core.lclus)

/-- The stacks are trained again, and the tile settings of the image in force apply. -/
def execComputeResetDone (s : State) : Result :=
  .next (
    if !s.boot.computeReset then s
    else
      let s1 := { s with boot := { s.boot with computeReset := false }, ring := { s.ring with paused := false } }
      presetSlots s1 s1.image.inForce)

/-! ## The host link (16 R424 to R426, 22 R547) -/

/-- Collection and mirror stop, and the function's own state is reset (R425). -/
def functionReset (s : State) : State :=
  { s with
    hif := { s.hif with collectEn := false, mirrorEn := false, linkDownSeen := true, fn := {} },
    ring := { s.ring with msixTable := [], msixPending := [] } }

/-- The link goes down. -/
def linkLoss (s : State) : State :=
  let s1 := functionReset s
  { s1 with hif := { s1.hif with linkUp := false, width := 0, gen := 0, ideSel := false, ideLink := false } }

def execLinkLoss (s : State) : Result := .next (if s.hif.linkUp then linkLoss s else s)

/-- Generations and widths at which the port trains (R400). -/
def linkTrains (gen width : Nat) : Bool := 1 ≤ gen && gen ≤ 7 && [1, 2, 4, 8, 16].contains width

/-- The link trains once PERST_N is high; from S1 on (22 R547). -/
def execLinkUp (gen : BitVec 4) (width : BitVec 5) (s : State) : Result :=
  .next (
    if s.hif.linkUp || !s.pins.perstN || s.boot.stage == 0 || !linkTrains gen.toNat width.toNat then s
    else
      let s1 := { s with hif := { s.hif with linkUp := true, gen := gen.toNat, width := width.toNat } }
      if s.hif.linkDownSeen then sendMsix s1 0 else s1)

def execPerstN (low : Bool) (s : State) : Result :=
  .next (
    let s1 := { s with pins := { s.pins with perstN := !low } }
    if low && s.hif.linkUp then linkLoss s1 else s1)

/-- A Function Level Reset; the link stays up (R426). -/
def execFunctionLevelReset (s : State) : Result :=
  .next (
    if !s.hif.linkUp then s
    else
      let s1 := functionReset (computeReset s 4)
      { s1 with boxes := s1.boxes.foldl (fun m e => kset {} m e.1 { e.2 with enable := false }) [] })

/-! ## Module reset and the stages before S2 (18 R453, R468; 22 R545, R546) -/

/-- S1 begins: the time base runs from 0. -/
def enterS1 (s : State) : State :=
  setStage { s with time := { s.time with running := true, pm := 0, frac := 0, slew := 0 } } 1

/-- S0, or a module reset held before S1, ends once the clocks run and RESET_N is high. -/
def leaveS0 (s : State) : State :=
  if s.boot.stage == 0 && s.boot.rimClocks && s.pins.resetN then enterS1 s else s

/-- A module reset. -/
def moduleReset (s : State) (cause : Nat) : State :=
  let f := copyRecords s
  let r := State.reset
  leaveS0 { r with
    pending := s.pending, sent := s.sent, free := s.free, flash := f.flash,
    pins := { s.pins with alertN := s.time.fref },
    time := { r.time with fref := s.time.fref, internalOsc := s.time.internalOsc },
    sec := { s.sec with
      atEpoch := false, attReady := false, attWriting := false, armed := none, staging := [], waiting := [], deny := [], denyTail := 0 },
    chk := { r.chk with ring := s.chk.ring, cperHead := s.chk.cperHead, cperTail := s.chk.cperTail },
    power := { r.power with
      tripValid := s.power.tripValid, tripIdx := s.power.tripIdx, tripReading := s.power.tripReading,
      flags := s.power.flags &&& 0x20 },
    boot := { r.boot with forceFull := s.boot.forceFull, resetCause := cause, rimClocks := true } }

/-- A write of BOOT_RESET_CTRL: the larger reset is carried out (R469). -/
def actResetCtrl (s : State) (v : Nat) : State :=
  let s1 := { s with boot := { s.boot with forceFull := v.testBit 2 } }
  if v.testBit 1 then moduleReset s1 2 else if v.testBit 0 then computeReset s1 3 else s1

def execModuleReset (m : Master) (s : State) : Result :=
  .next (gated s m.toNat 0x1020 (fun s => moduleReset s 2))
def execComputeReset (m : Master) (s : State) : Result :=
  .next (gated s m.toNat 0x1020 (fun s => computeReset s 3))

/-- The module is on: input applied, and no trip since. -/
def powered (s : State) : Bool := s.pins.power && !s.pins.tripped

/-- The trip record found at power-on is reported (21 R537). -/
def reportTrip (s : State) : State :=
  match s.flash.trip with
  | some t => { s with
      flash := { s.flash with trip := none },
      power := { s.power with tripValid := true, tripIdx := t.1, tripReading := t.2, flags := 2 ^ 5 } }
  | none => s

/-- Input applied: a power-on reset begins, with calibration values from flash. -/
def execPowerOn (s : State) : Result :=
  .next (
    if s.pins.power then s
    else
      let c := coldState s
      reportTrip { c with
        pins := { c.pins with
          power := true, tripped := false, pwrgd := false, alertN := true, straps := Config.straps.val },
        sec := { c.sec with calNow := c.flash.cal } })

/-- Input lost: every regulator is off. -/
def execPowerOff (s : State) : Result :=
  .next (
    let c := coldState s
    { c with pins := { c.pins with power := false, tripped := false, pwrgd := false } })

/-- A falling edge of RESET_N held for 10 µs. -/
def execResetNFall (s : State) : Result :=
  .next (
    let s1 := { s with pins := { s.pins with resetN := false } }
    if s.pins.resetN && powered s && s.boot.stage != 0 then moduleReset s1 1 else s1)

def execResetNRise (s : State) : Result :=
  .next (
    let s1 := { s with pins := { s.pins with resetN := true } }
    if powered s then leaveS0 s1 else s1)

/-- The rim time clocks run, from FREF; power is good. -/
def execRimClocksRun (s : State) : Result :=
  .next (
    if !powered s || !s.time.fref || s.boot.stage != 0 then s
    else leaveS0 { s with pins := { s.pins with pwrgd := true }, boot := { s.boot with rimClocks := true } })

end Sys2Proof.Machine
end

