-- ==== Sys2Proof/Machine/Inspect.lean ====
section
/-! DEFINITION. What follows an inspector's disagreement, repeat tests, retirement, and parity errors (spec/19 R481 to
R496). -/

namespace Sys2Proof.Machine

/-! ## Check states (R490, R492, R496) -/

def hourNs : Nat := 3600000000000

/-- TRANSIENTS of every cluster clear at an hour boundary of postmarks. -/
def hourTurn (s : State) : State :=
  if s.chk.hour == s.now / hourNs then s
  else
    { s with
      chk := { s.chk with hour := s.now / hourNs },
      core := { s.core with clus := s.core.clus.foldl (fun m e =>
        let c : CluChk := { e.2.chk with transients := 0 }
        kset {} m e.1 { e.2 with chk := c }) [] } }

def execTransientWindow (s : State) : Result := .next (hourTurn s)

/-- Remembers in flash that a cluster is under suspicion. -/
def recordSuspect (s : State) (p : Nat) : State :=
  if s.flash.suspects.contains p then s else { s with flash := { s.flash with suspects := s.flash.suspects ++ [p] } }

/-- Changes the check state of a cluster that was NORMAL, with the test it is due; a further finding on another changes
nothing (R495). -/
def suspect (s : State) (p : Nat) (st : ChkState) (inspector : Bool) (test : Option TestInput) : State :=
  let c := s.clu p
  if c.chk.state ≠ .normal then s
  else recordSuspect (s.setClu p { c with chk := { c.chk with state := st, inspector := inspector, test := test } }) p

/-- Quarantines a cluster: it is quiesced at once. -/
def quarantine (s : State) (p : Nat) (test : Option TestInput) : State :=
  let s1 := suspect s p .quarantined false test
  match logicalOfP s1 p with
  | some n => if (s1.clu p).chk.state = .quarantined && !isStopped s1 n then quiesceCluster s1 n else s1
  | none => s1

/-- The vendor section of a signature about a cluster. -/
def cluSig (s : State) (p unit opId stream status case address : Nat) : Cper :=
  { cperBlank with
    unit := unit, location := locCluster p, logical := (logicalOfP s p).getD 0xFFFF, opId := opId, stream := stream,
    status := status, case := case, address := address, transients := (s.clu p).chk.transients }

/-! ## The recompute (R484) -/

/-- Elements of output parcel q. -/
def parcelElems (d : TDesc) (q : Nat) : List Nat :=
  ((List.range (min d.perParcel (d.items - q * d.perParcel))).map (fun i => d.itemElem (q * d.perParcel + i))).dedup

/-- The recompute's checks of one element's operand rows. -/
def recheckElem (s : State) (p : Nat) (r : TeRun) (d : TDesc) (e : Nat) : State × TeRun × Option Failed :=
  let b := e / (d.m * d.n)
  let i := e % (d.m * d.n) / d.n
  let j := e % d.n
  let oa := operandA d b
  let ob := operandB d b
  match checkParcels s p r d oa ob (operandParcels d oa i (i + 1)) with
  | (s1, r1, none) => checkParcels s1 p r1 d ob oa (operandParcels d ob j (j + 1))
  | x => x

def recheckElems (s : State) (p : Nat) (r : TeRun) (d : TDesc) (l : List Nat) : State × TeRun × Option Failed :=
  match l with
  | [] => (s, r, none)
  | e :: t => match recheckElem s p r d e with
    | (s1, r1, none) => recheckElems s1 p r1 d t
    | x => x

/-- Parcels of the input records that a set of elements reads. -/
def recordParcels (s : State) (p : Nat) (d : TDesc) (l : List Nat) : List Nat :=
  let rs := inRecs s p d
  ((List.range rs.length).filter (fun i => l.contains (rs.getD i {}).element)).map (fun i =>
    (d.inOff + 64 * i) / 4096 * 4096)

/-- Every check of the recompute of parcel q, which reads each parcel anew. -/
def recomputeCheck (s : State) (p : Nat) (r : TeRun) (d : TDesc) (q : Nat) : State × Option Failed :=
  let l := parcelElems d q
  match recheckElems s p { r with checked := [] } d l with
  | (s1, r1, none) =>
    let x := checkParcels s1 p r1 d (recordOperand d) (operandB d 0) (recordParcels s1 p d l)
    (x.1, x.2.2)
  | (s1, _, e) => (s1, e)

/-- The recompute cluster recomputes the held parcel of logical cluster n. -/
def execInspectorRecompute (n : LClu) (bytes : List Byte) (s : State) : Result :=
  .next (
    let p := physOfN s n
    match (s.te p).run with
    | none => s
    | some r => match r.hold with
      | none => s
      | some h =>
        if h.recompute.isNone || h.c.isSome then s
        else
          let d := tdescOf r.item.desc
          match recomputeCheck s p r d h.parcel with
          | (s1, some e) => operandFail s1 p e
          | (s1, none) =>
            let c := if bytes.length == 4096 then bytes else (outParcel s p d h.parcel).1
            s1.setRun p { r with hold := some { h with c := some c } })

/-! ## The outcome (R485 to R489) -/

/-- The case of R486, from the original, the recomputed parcel and the recheck's lines: equality of arrays is of every
byte, of an inspector and an array of the sampled lines. A result that could not be formed, and an original with a
parity error, differ from all. -/
def outcomeCase (h : Hold) (sample : List Nat) (i3 : Option (List Byte)) : Nat :=
  let oc := !h.parity && h.c == some h.orig
  let oi := !h.parity && i3 == some (linesOf h.orig sample)
  let ci := match h.c, i3 with
    | some c, some x => linesOf c sample == x
    | _, _ => false
  if oc && oi then 1 else if ci && !oc then 2 else if oi && !oc then 3 else if oc then 4 else 5

/-- The clusters that recomputed and rechecked are idle anew. -/
def touchHelpers (s : State) (h : Hold) : State :=
  let s1 := match h.recompute with | some m => touchIdle s m | none => s
  match h.recheck with | some m => touchIdle s1 m | none => s1

/-- Units that a case makes suspect: the original cluster p first. -/
def markSuspects (s : State) (p : Nat) (h : Hold) (sample : List Nat) (case : Nat) (t : TestInput) : State :=
  let phys (m : Option Nat) : Option Nat := m.map (physOfN s)
  let other (a : State) (m : Option Nat) (insp : Bool) : State :=
    match phys m with
    | some k => suspect a k .suspect insp (some { t with arrayPart := !insp })
    | none => a
  match case with
  | 1 => suspect s p .suspect true (some { t with arrayPart := false })
  | 2 =>
    let insp := match h.c with | some c => linesOf c sample != h.lines | none => false
    suspect s p .suspect insp (some { t with arrayPart := true })
  | 3 => other (suspect s p .suspect true (some { t with arrayPart := false })) h.recompute false
  | 4 => other (suspect s p .suspect true (some { t with arrayPart := false })) h.recheck true
  | _ => s

/-- An unresolved hold is counted and signed. -/
def signUnresolved (s : State) (p : Nat) (r : TeRun) (d : TDesc) (h : Hold) : State :=
  let s1 := { s with chk := { s.chk with unresolved := inc32 s.chk.unresolved } }
  cperAdd s1 0x05 (2 ^ 20 + p) (cluSig s1 p 1 d.opId (streamOf s r.item.slot) stInspUnres 5
    (homeOf s (storeKey p (d.outOff + h.parcel * 4096))))

/-- Case 5: no parcel is released; the original and recompute clusters are quarantined. -/
def unresolved (s : State) (n p : Nat) (r : TeRun) (d : TDesc) (h : Hold) (t : TestInput) : State :=
  let f := s.takeFree
  let other := h.recompute.getD (f.1.toNat % 65536)
  let t5 : TestInput := { t with reference := none, arrayPart := true }
  let s4 := quarantine (teFail (signUnresolved f.2 p r d h) p stInspUnres (detail2 h.parcel (5 + other * 2 ^ 16))) p (some t5)
  match h.recompute with
  | some m => quarantine s4 (physOfN s4 m) (some t5)
  | none => s4

/-- The recheck decides the hold of logical cluster n. -/
def execInspectorRecheck (n : LClu) (lines : List Byte) (s : State) : Result :=
  .next (
    let p := physOfN s n
    match (s.te p).run with
    | none => s
    | some r => match r.hold with
      | none => s
      | some h =>
        let d := tdescOf r.item.desc
        let key := storeKey p (d.outOff + h.parcel * 4096)
        if (h.recompute.isSome && h.c.isNone) || readLocked s (.te p) key then s
        else
          let sample := runLines r d h.parcel
          let right := outParcel s p d h.parcel
          let i3 := if h.recheck.isNone then none
            else some (if lines.isEmpty then linesOf right.1 sample else lines)
          let case := outcomeCase h sample i3
          let s0 := touchHelpers s h
          let stream := streamOf s r.item.slot
          let t : TestInput :=
            { desc := r.item.desc, parcel := h.parcel, reference := none, arrayPart := true, opId := d.opId, stream := stream }
          if case == 5 then unresolved s0 n p r d h t
          else
            let out := if case == 2 then h.c.getD h.orig else h.orig
            let s1 := releaseParcel s0 p r d h.parcel out right.2
            let s2 := if (s1.te p).run.isNone then s1
              else { s1 with chk := { s1.chk with resolved := inc32 s1.chk.resolved } }
            let s3 := if r.item.byProg then s2
              else opWarn s2 r.item.slot stInspRes (detail2 h.parcel (case + n.val * 2 ^ 16))
            let s4 := markSuspects s3 p h sample case { t with reference := some out }
            let sig := cluSig s4 p (if case == 2 then 1 else 2) d.opId stream stInspRes case (homeOf s key)
            commitBands (cperAdd s4 0x04 (sig.unit * 2 ^ 20 + p) sig) p)

/-! ## Repeat tests (R491 to R493) -/

/-- Nothing runs on a cluster. -/
def cluStill (s : State) (p : Nat) : Bool :=
  (s.te p).run.isNone && (s.seq p).prog.isNone && (match logicalOfP s p with
    | some n => !(runningSolves s).any (fun e => e.2.members.contains n)
    | none => true)

/-- A suspect cluster's test starts once its running operation is final, a quarantined one's where a test is due; from S5
on (R491, R496). -/
def execRepeatTestStart (p : PClu) (s : State) : Result :=
  .next (
    let c := s.clu p
    let due := (c.chk.state = .suspect && cluStill s p) || (c.chk.state = .quarantined && c.chk.test.isSome)
    if !due || s.boot.computeReset || s.boot.stage < 5 then s
    else s.setClu p { c with chk := { c.chk with state := .testing } })

/-- The cluster is trusted again. -/
def restoreCluster (s : State) (p : Nat) : State :=
  let c := s.clu p
  let s1 := s.setClu p { c with chk := { c.chk with state := .normal, inspector := false, test := none } }
  { s1 with flash := { s1.flash with suspects := s1.flash.suspects.filter (fun k => k != p) } }

/-- A faulty cluster is retired, and is no longer listed as a suspect. -/
def retireFaulty (s : State) (p : Nat) : State :=
  let s1 := retireCluster s p
  { s1 with flash := { s1.flash with suspects := s1.flash.suspects.filter (fun k => k != p) } }

/-- The logical cluster that a physical cluster backs is quiesced, where it is not yet. -/
def quietPhys (s : State) (p : Nat) : State :=
  match logicalOfP s p with
  | some n => quiesceCluster s n
  | none => s

/-- A faulty cluster stays quarantined. -/
def holdFaulty (s : State) (p : Nat) : State :=
  let c := s.clu p
  recordSuspect (quietPhys (s.setClu p { c with chk := { c.chk with state := .quarantined, test := none } }) p) p

/-- A permanent fault retires the cluster, or leaves it quarantined (R493). -/
def permanentFault (s : State) (p : Nat) (retire : Bool) : State :=
  let c := s.clu p
  let unit := if c.chk.inspector then 2 else 1
  let s1 := { s with chk := { s.chk with permanent := inc32 s.chk.permanent } }
  let sig := cluSig s1 p unit c.chk.lastOp c.chk.lastStream 0 0 0
  if retire then cperAdd (retireFaulty s1 p) 0x07 (unit * 2 ^ 20 + p) sig
  else cperAdd (holdFaulty s1 p) 0x08 (unit * 2 ^ 20 + p) sig

/-- A transient fault: counted; one that reaches the hour's limit counts as permanent too. -/
def transientFault (s : State) (p : Nat) (retire : Bool) : State :=
  let s0 := hourTurn s
  let c := s0.clu p
  let k := c.chk.transients + 1
  let s1 := s0.setClu p { c with chk := { c.chk with transients := min k 255 } }
  let s2 := { s1 with chk := { s1.chk with transient := inc32 s1.chk.transient } }
  let sig := cluSig s2 p (if c.chk.inspector then 2 else 1) c.chk.lastOp c.chk.lastStream 0 0 0
  let s3 := cperAdd s2 0x06 (sig.unit * 2 ^ 20 + p) sig
  if s3.chk.transLimit != 0 && s3.chk.transLimit ≤ k then permanentFault s3 p retire else restoreCluster s3 p

/-- The three runs of a test: at least one equal to the reference is a transient fault, none a permanent one. -/
def classify (s : State) (p equalRuns : Nat) (retire : Bool) : State :=
  if equalRuns == 0 then permanentFault s p retire else transientFault s p retire

def execRepeatTestDone (p : PClu) (equalRuns : Fin 4) (s : State) : Result :=
  .next (
    if (s.clu p).chk.state ≠ .testing || s.boot.computeReset then s
    else classify s p equalRuns s.chk.autoRetire)

/-! ## Parity (R482) -/

/-- Detail of an operation that a parity error ended. -/
def parityDetail (unit index : Nat) : Nat := detail2 (0xFFFFFF60 + unit) index

/-- The signature of such an end. -/
def parityEnd (s : State) (slot : Option Nat) (unit key loc logical : Nat) : State :=
  let o := byOp s ⟨unit, slot⟩
  cperAdd s 0x03 (unit * 2 ^ 20 + key) { cperBlank with
    unit := unit, location := loc, logical := logical, opId := o.1, stream := o.2, status := stReset }

/-- A parity error in a unit of cluster p that serves its program. -/
def parityProgram (s : State) (p unit : Nat) : State :=
  let slot := ((s.seq p).prog).map (fun g => g.slot)
  let s1 := if slot.isSome
    then parityEnd s slot unit p (locCluster p) ((logicalOfP s p).getD 0xFFFF) else s
  suspect (endProgram s1 p stReset (parityDetail unit p)) p .suspect false none

/-- A parity error in a tile sequencer ends the solves it leads. -/
def paritySolves (s : State) (t p : Nat) : State :=
  let s1 := (runningSolves s).foldl (fun a e =>
    if leadTile s e.1 == t then
      endSolve (parityEnd a (some e.2.slot) 7 p (locCluster p) ((logicalOfP s p).getD 0xFFFF)) e.1
        (.error stReset (parityDetail 7 p))
    else a) s
  suspect s1 p .suspect false none

/-- A parity error in a stack engine ends its group's operation. -/
def parityStack (s : State) (k : Nat) : State :=
  match (s.seg (k / 4)).run with
  | none => s
  | some r => seFail (parityEnd s (some r.slot) 6 k k 0xFFFF) (k / 4) r stReset (parityDetail 6 k)

/-- A transfer is discarded and made once more; where that fails too, the master's access fails. -/
def parityPath (s : State) (unit m : Nat) (again : Bool) : State :=
  let s1 := { s with chk := { s.chk with pathRetry := inc32 s.chk.pathRetry } }
  if again then
    { s1 with chk := { s1.chk with parity := inc32 s1.chk.parity, pathFail := s1.chk.pathFail ++ [m] } }
  else cperAdd s1 0x02 unit { cperBlank with unit := unit }

/-- An output parcel that the array or the inspector of logical cluster n still forms will be held. -/
def parityParcel (s : State) (n parcel : Nat) : State :=
  let p := physOfN s n
  match (s.te p).run with
  | none => s
  | some r =>
    let d := tdescOf r.item.desc
    if parcel < r.next || d.outParcels ≤ parcel || r.parity.contains parcel ||
        (match r.hold with | some h => h.parcel == parcel | none => false) then s
    else s.setRun p { r with parity := r.parity ++ [parcel] }

def execParityError (u : ParityUnit) (s : State) : Result :=
  .next (
    let s1 := { s with chk := { s.chk with parity := inc32 s.chk.parity } }
    match u with
    | .tensorArray n q => parityParcel s1 n q
    | .inspector n q => parityParcel s1 n q
    | .vectorEngine p => parityProgram s1 p 3
    | .scalarSequencer p => parityProgram s1 p 4
    | .windowAccumulator p => parityProgram s1 p 5
    | .tileSequencer t p => paritySolves s1 t p
    | .stackEngine k => parityStack s1 k
    | .path unit m again => parityPath s1 unit.toNat m.toNat again
    | .control => if s.boot.stage == 0 then s1 else moduleReset s1 5)

end Sys2Proof.Machine
end

