-- ==== Sys2Proof/Machine/Boot.lean ====
section
/-! DEFINITION. The stages S1 to S4, Sorter's restart, pattern packs, firmware and image broadcast, and DISCOVER
(spec/18 R453 to R467; spec/19 R496 to R499; spec/20 R506, R511; spec/14 R362 to R366). -/

namespace Sys2Proof.Machine

/-! ## S1 to S4 -/

/-- A stage that cannot complete holds the module (18 R455). -/
def holdStage (s : State) (error : Nat) : State := { s with boot := { s.boot with error := error } }

/-- The module is held at its stage; ERROR = 4 is a warning (18 R455). -/
def stageHeld (s : State) : Bool := s.boot.error != 0 && s.boot.error != 4

/-- A Postmaster stage starts: S2, with the bundle in flash for Sorter. -/
def runPostmaster (s : State) (stage : List Byte) : State :=
  let s1 := { s with boot := { s.boot with runStage := stage, postVer := Config.stageVersion (objBody stage) } }
  startAttest (setStage (startSorter s1) 2)

/-- ROM verifies both slots and starts the verified stage with the higher version (20 R511). -/
def execPostmasterStart (s : State) : Result :=
  .next (
    if s.boot.stage != 1 || stageHeld s then s
    else
      let a := slotBytes s false
      let b := slotBytes s true
      let va := Config.stageVersion (objBody a)
      let vb := Config.stageVersion (objBody b)
      let ra := verifyStage s a
      let rb := if b.isEmpty then 0 else verifyStage s b
      let s1 := recordVerify s 1 ra va
      let s2 := if b.isEmpty then s1 else recordVerify s1 1 rb vb
      if ra == 1 && (rb != 1 || vb ≤ va) then runPostmaster s2 a
      else if rb == 1 then runPostmaster s2 b
      else holdStage s2 1)

/-- Clusters recorded in flash as suspect are tested again, from stage S5 on (19 R496). -/
def recallSuspects (s : State) : State :=
  s.flash.suspects.foldl (fun a p =>
    if isHole a p then a
    else
      let c := a.clu p
      a.setClu p { c with chk := { c.chk with state := .suspect } }) s

/-- The field remap tables as S2 finds them: a record that fails its check is discarded, with the warning ERROR = 4, and
every stack and port is trained fully (18 R455). -/
def checkRemap (s : State) : State :=
  let t := { s with free := s.free + 1 }
  if Config.remapSound s.free then t
  else { t with
    flash := { t.flash with retiredClu := [], rowMoves := [], stks := [] },
    boot := { t.boot with error := 4, remapLost := true } }

/-- S2: the floor plan, and the signature of a control-cluster parity error (19 R503). -/
def execFloorPlanBuild (s : State) : Result :=
  .next (
    if s.boot.stage != 2 || stageHeld s then s
    else if !Config.fusesReadable then holdStage s 2
    else
      let s1 := recallSuspects (buildFloorPlan (checkRemap s))
      let s2 := if s1.boot.resetCause == 5 then cperAdd s1 0x30 12 { cperBlank with unit := 12 } else s1
      setStage s2 3)

/-- A stack's remap records come back from flash; its pages retired before refuse every access (12 R318 to R320). -/
def reloadStack (s : State) (k : Nat) : StackS :=
  let c := kget {} s.flash.stks k
  { s.stk k with
    lost := c.lost, rows := c.rows, spares := c.spares, retired := c.retired.map (fun e => (e.1, 2 ^ 32)),
    reservedFail := c.reservedFail }

/-- The hottest sensor of a stack, in 1/16 °C. -/
def hottest (x : StackS) : Int := max x.base x.dram

/-- Whether a stack is trained from its saved settings (18 R460). -/
def usesSaved (s : State) (k : Nat) (r : StackTraining) : Bool :=
  !s.boot.forceFull && !s.boot.remapLost && r.sound && r.pattern &&
  (kget none s.flash.stkSaved k).any (fun e => e.1 == r.identity && (hottest (s.stk k) - e.2).natAbs ≤ 16 * 20)

/-- How stack k's training ends. -/
def trainStack (s : State) (k : Nat) (r : StackTraining) : State :=
  let saved := usesSaved s k r
  let x := { reloadStack s k with identity := r.identity }
  let b := s.boot
  if !r.ok then
    { s with boot := { b with memFailed := b.memFailed ||| BitVec.ofNat 32 (2 ^ k) } }.setStk k { x with present := false }
  else if saved then
    { s with boot := { b with memSaved := b.memSaved ||| BitVec.ofNat 32 (2 ^ k) } }.setStk k
      { x with present := !x.reservedFail }
  else
    { s with
      boot := { b with full := true },
      due := { s.due with stacksTrained := s.due.stacksTrained ++ [k] } }.setStk k { x with present := !x.reservedFail }

/-- S3: every stack has trained or failed; records are reloaded, HBM is initialised, and the ports begin to train. -/
def execStackTrainingDone (out : List StackTraining) (s : State) : Result :=
  .next (
    if s.boot.stage != 3 || stageHeld s then s
    else
      let r (k : Nat) : StackTraining := out.getD k ⟨true, false, 0, false⟩
      let s1 := (List.range 32).foldl (fun a k => trainStack a k (r k)) s
      if (List.range 32).all (fun k => !(r k).ok) then holdStage s1 3
      else
        let s2 := (List.range 8).foldl buildPage (initHbm s1)
        (List.range 12).foldl portTrain (setStage s2 4))

/-! ## Sorter's heartbeat (20 R506) -/

/-- Operations of the services: those of Sorter's own unit (15 R388). -/
def serviceSlots (s : State) : List Nat :=
  (s.ledger.filter (fun e => e.2.kind == 6 && !rstateFinal e.2.rcpt.state)).map Prod.fst

/-- Postmaster restarts Sorter; the third restart within an hour leaves it stopped. -/
def execSorterHeartbeatTimeout (s : State) : Result :=
  .next (
    if s.boot.stage < 5 || s.boot.sorterStopped then s
    else
      let recent := s.boot.restarts.filter (fun t => decide (s.now < t + hourNs))
      let s1 := abortOps s (serviceSlots s)
      let tags := s1.comms.flatMap (fun e => match e.2.run with | some r => r.tags | none => [])
      let idle (c : CommS) : CommS := { c with queue := [], run := none }
      let comms : KMap CommS := s1.comms.foldl (fun m e => kset {} m e.1 (idle e.2)) []
      let s2 := { reqDrop s1 tags with comms := comms }
      startSorter { s2 with boot := { s2.boot with
        restarts := s.now :: recent, sorterStopped := decide (2 ≤ recent.length) } })

/-! ## Pattern packs (19 R498, R499) -/

/-- Clusters in scope of a pack: mapped ones that are quiesced, those of spare rows, holes (R498). -/
def packInScope (s : State) (scope p : Nat) : Bool :=
  if isHole s p then scope.testBit 2
  else match logicalOfP s p with
    | some n => scope.testBit 0 && isQuiesced s n
    | none => scope.testBit 1

/-- RUN starts the held pack; with none held it is refused. -/
def packStart (s : State) : State :=
  match s.chk.packResult, s.chk.pack with
  | 1, _ => s
  | _, none => { s with chk := { s.chk with packResult := 3 } }
  | _, some b =>
    { s with chk := { s.chk with
        packResult := 1, packScope := (List.range 2304).filter (packInScope s (leAt b 18 1)) } }

/-- A write of CHK_PACK_CTRL. -/
def actPackCtrl (s : State) (v : Nat) (host : Option (List Byte)) : State :=
  let s1 := { s with chk := { s.chk with packSource := v.testBit 2 } }
  let s2 := if v.testBit 1 then
      match readObject s1 (v.testBit 2) s.chk.packSrc.toNat (min s.chk.packLen.toNat (2 ^ 26 + trailerLen)) host with
      | (a, some obj) => offerPack a obj
      | (a, none) => if a.chk.packResult == 1 then a else { a with chk := { a.chk with packResult := 3 } }
    else s1
  if v.testBit 0 then packStart s2 else s2

def execPackLoad (m : Master) (v : W32) (host : Option (List Byte)) (s : State) : Result :=
  .next (gated s m.toNat 0x300100 (fun s => actPackCtrl s v.toNat host))
def execPackRun (m : Master) (v : W32) (s : State) : Result :=
  .next (gated s m.toNat 0x300100 (fun s => actPackCtrl s v.toNat none))

/-- `8 n` bytes that the specification leaves open: free values. -/
def freeBytes (n : Nat) (s : State) : List Byte × State :=
  match n with
  | 0 => ([], s)
  | n + 1 =>
    let f := s.takeFree
    let r := freeBytes n f.2
    (bytesOfNat 8 f.1.toNat ++ r.1, r.2)

/-- What a test leaves in a cluster's store: its image, and output parcels whose bytes are not stated here. -/
def packLeaves (s : State) (b : List Byte) (p : Nat) (t : PackTest) : State :=
  let put (a : State) (off : Nat) (d : List Byte) : State :=
    let n := ceilDiv d.length 4096
    let a1 := memPut a (storeKey p off) d
    let k := storeKey p off / 4096
    let deltas := kcut a1.store.sealDelta k (k + n)
    { a1 with store := { a1.store with sealDelta := deltas } }
  let f := freeBytes (512 * t.outParcels) s
  put (put f.2 0 (bytesAt b t.imgOff t.imgLen)) t.outOff f.1

/-- Result byte of a cluster in scope (R499), and the state after its fault is classified (R492, R493, R498). -/
def packOutcome (s : State) (b : List Byte) (out : List PackOutcome) (p : Nat) : State × Nat :=
  match out.find? (fun o => o.p.val == p) with
  | none => (s, if isHole s p then 6 else 1)
  | some o =>
    if o.passed then (s, if isHole s p then 6 else 1)
    else if isHole s p then (s, 5)
    else
      let c := (s.clu p).chk
      let s1 := if c.state = .normal then classify s p o.equalRuns ((leAt b 18 1).testBit 3 && s.chk.autoRetire) else s
      (s1, if o.equalRuns == 0 || (s1.clu p).chk.state = .retired || (s1.clu p).chk.state = .quarantined then 3 else 2)

/-- A run's results, cluster by cluster: a failure makes a record. -/
def packResults (s : State) (b : List Byte) (out : List PackOutcome) (l : List Nat) : State × List (Nat × Nat) :=
  match l with
  | [] => (s, [])
  | p :: t =>
    let s1 := (packTestList b).foldl (fun a x => packLeaves a b p x) s
    let r := packOutcome s1 b out p
    let s2 := if [2, 3, 5].contains r.2 then 
        cperAdd r.1 0x09 (2 ^ 20 + p) (cluSig r.1 p 1 (r.1.clu p).chk.lastOp (r.1.clu p).chk.lastStream 0 r.2 0)
      else r.1
    let x := packResults s2 b out t
    (x.1, (p, r.2) :: x.2)

/-- The run ends: the result parcel is written, and a pack that waited is taken. -/
def execPackRunDone (out : List PackOutcome) (s : State) : Result :=
  .next (
    match s.chk.packResult, s.chk.pack with
    | 1, some b =>
      let scope := s.chk.packScope
      let mapped := (leAt b 18 1).testBit 0
      let r := packResults s b out scope
      let code (p : Nat) : Nat :=
        match kfind r.2 p with
        | some c => c
        | none => if mapped && (logicalOfP s p).isSome && !isHole s p then 4 else 0
      let bytes := (List.range 2304).map (fun p => BitVec.ofNat 8 (code p)) ++ zeroBytes 1792
      let a := s.chk.packOut.toNat
      let w := if a % 4096 == 0 && a < hbmEnd then parcelWrite r.1 a bytes else (r.1, some stBus)
      let s2 := { w.1 with chk := { w.1.chk with
        packResult := if w.2.isNone then 2 else 3, packScope := [] } }
      takeWaiting s2
    | _, _ => s)

/-! ## Broadcast (18 R462 to R467) -/

/-- Ports that carry BROADCAST: held for version too (14 R365). -/
def portBcast (s : State) (n : Nat) : Bool := (s.port n).state == 2 || (s.port n).state == 3 || (s.port n).state == 4

def bcastSend (s : State) (n : Nat) (b : Bcast) : State :=
  linkSend s n { vc := vcMaint, item := .bcast n b, flits := 1 + (b.frag.length + 255) / 256 }

/-- Floods a BROADCAST on every port that carries it but the one it came by. -/
def floodBcast (s : State) (but : Option Nat) (b : Bcast) : State :=
  ((List.range 12).filter (fun n => portBcast s n && some n != but)).foldl (fun a n => bcastSend a n b) s

/-- A complete firmware bundle. -/
def takeBundle (s : State) (obj : List Byte) (force : Bool) : State :=
  let r := verifyBundle s obj
  let b := objBody obj
  let s1 := recordVerify s 2 r (bundleVersion b)
  if r != 1 then { s1 with bcast := { s1.bcast with objs := s1.bcast.objs.filter (fun o => o.bkind != 1) } }
  else if s.boot.stage == 5 then
    if bundleVersion (flashBundle s) < bundleVersion b || force then startSorter (writeBundle s1 b) else s1
  else writeBundle s1 b

/-- A complete image: loaded at S5, held later. -/
def takeImage (s : State) (img : List Byte) : State :=
  if s.boot.stage == 5 then loadBytes s img else { s with bcast := { s.bcast with heldImage := some img } }

def takeObject (s : State) (kind : Nat) (force : Bool) (obj : List Byte) : State :=
  match kind with
  | 1 => takeBundle s obj force
  | 2 => takeImage s obj
  | _ => offerPack s obj

/-- The bytes of an object all of whose fragments are present. -/
def objBytes (o : BObj) : Option (List Byte) :=
  let n := ceilDiv o.total 4096
  if (List.range n).all (fun i => match kfind o.frags i with
      | some d => d.length == min 4096 (o.total - 4096 * i)
      | none => false) then
    some ((List.range n).flatMap (fun i => (kfind o.frags i).getD []))
  else none

/-- Puts a fragment in its object; of two objects of a kind the one of the higher BCAST_ID is kept. -/
def takeFragment (s : State) (b : Bcast) : State :=
  let kind := b.bkind.toNat
  let old := s.bcast.objs.find? (fun o => o.bkind == kind)
  let fresh : BObj := { id := b.id.toNat, bkind := kind, force := b.force, total := b.total.toNat, digest := b.digest }
  let skip := match old with
    | some o => decide (b.id.toNat < o.id) || (o.id == b.id.toNat && o.complete)
    | none => false
  if !(1 ≤ kind && kind ≤ 3) || skip || b.total == 0 || 2 ^ 26 < b.total.toNat || s.boot.stage < 5 then s
  else
    let o : BObj := match old with
      | some o => if o.id == b.id.toNat then o else fresh
      | none => fresh
    let o1 : BObj := { o with
      frags := kput o.frags b.offset.toNat b.frag, seqs := kput o.seqs b.offset.toNat b.seq.toNat }
    let keep (x : BObj) : State :=
      { s with bcast := { s.bcast with objs := s.bcast.objs.filter (fun y => y.bkind != kind) ++ [x] } }
    match objBytes o1 with
    | some bytes =>
      if shake256 32 bytes == o1.digest then takeObject (keep { o1 with complete := true }) kind o1.force bytes
      else keep o1
    | none => keep o1

/-- A BROADCAST fragment arrives. -/
def execBroadcast (n : PortNo) (b : Bcast) (s : State) : Result :=
  .next (
    let s := linkRecv s n vcMaint (1 + (b.frag.length + 255) / 256)
    if b.rsv then dropPacket s
    else if !portBcast s n || b.fcheck.toNat != crc32c b.frag then s
    else
      let q := seenFlood s 0x24 b.origin.toNat b.seq.toNat
      let s1 := if q.1 then s else floodBcast q.2 (some n.val) b
      takeFragment s1 b)

/-- The packets of an object that this module holds. -/
def objPackets (o : BObj) : List Bcast :=
  o.frags.map (fun f =>
    { origin := BitVec.ofNat 16 (o.id / 65536), seq := BitVec.ofNat 16 (kget 0 o.seqs f.1), bkind := BitVec.ofNat 8 o.bkind,
      force := o.force, id := BitVec.ofNat 32 o.id, offset := BitVec.ofNat 32 f.1, total := BitVec.ofNat 32 o.total,
      fcheck := BitVec.ofNat 32 (crc32c f.2), digest := o.digest, frag := f.2 })

/-- Floods the fragments of an own object, each under its own sequence number. -/
def floodObject (s : State) (o : BObj) (i : Nat) (l : List (List Byte)) : State × BObj :=
  match l with
  | [] => (s, o)
  | f :: t =>
    let q := takeFlood s
    let s1 := (seenFlood q.2 0x24 s.fab.chip q.1).2
    let o1 : BObj := { o with frags := kput o.frags i f, seqs := kput o.seqs i q.1 }
    let one : BObj := { o1 with frags := [(i, f)] }
    let s2 := (objPackets one).foldl (fun a b => floodBcast a none b) s1
    floodObject s2 o1 (i + 1) t

/-- Broadcasts an object and handles it here too. -/
def startBroadcast (s : State) (kind : Nat) (force : Bool) (obj : List Byte) : State :=
  let count := (s.bcast.sentCount + 1) % 65536
  let id := s.fab.chip * 65536 + count
  let o : BObj := { id := id, bkind := kind, force := force, total := obj.length, digest := shake256 32 obj, complete := true }
  let x := floodObject s o 0 (chunks 4096 obj)
  let higher := x.1.bcast.objs.any (fun y => y.bkind == kind && decide (id < y.id))
  let objs := if higher then x.1.bcast.objs else x.1.bcast.objs.filter (fun y => y.bkind != kind) ++ [x.2]
  let s1 := { x.1 with bcast := { x.1.bcast with result := 2, lastId := count, sentCount := count, objs := objs } }
  if higher then s1 else takeObject s1 kind force obj

/-- LOAD_HELD loads the held image. -/
def loadHeld (s : State) : State :=
  match s.bcast.heldImage with
  | none => s
  | some img =>
    let s1 := loadBytes s img
    if s.image.result != 1 && s1.image.result == 1 then { s1 with bcast := { s1.bcast with heldImage := none } } else s1

/-- A write of BOOT_BCAST_CTRL. -/
def actBcastCtrl (s : State) (v : Nat) (host : Option (List Byte)) : State :=
  let kind := field v 6 2
  let s1 := { s with bcast := { s.bcast with bkind := kind, force := v.testBit 5, source := v.testBit 4 } }
  let s2 := if v.testBit 1 then loadHeld s1 else s1
  if !v.testBit 0 || s.bcast.result == 1 then s2
  else
    let len := s.bcast.len.toNat
    let refuse (a : State) : State := { a with bcast := { a.bcast with result := 3 } }
    if kind == 0 || len == 0 || 2 ^ 26 < len || (v.testBit 4 && s.boot.stage < 6) then refuse s2
    else match readObject s2 (v.testBit 4) s.bcast.src.toNat len host with
      | (s3, some obj) => startBroadcast s3 kind (v.testBit 5) obj
      | (s3, none) => refuse s3

def execBroadcastStart (m : Master) (v : W32) (host : Option (List Byte)) (s : State) : Result :=
  .next (gated s m.toNat 0x1100 (fun s => actBcastCtrl s v.toNat host))
def execLoadHeld (m : Master) (s : State) : Result := .next (gated s m.toNat 0x1100 loadHeld)

/-! ## DISCOVER (14 R362 to R366, 18 R464) -/

/-- Sends a neighbour that stands at S5 every complete bundle and image, on its port alone. -/
def sendHeld (s : State) (n : Nat) : State :=
  ((s.bcast.objs.filter (fun o => o.complete && o.bkind ≤ 2)).flatMap objPackets).foldl (fun a b => bcastSend a n b) s

/-- The identity saved for a port differs from what its neighbour says. -/
def savedDiffers (s : State) (n : Nat) (d : Discover) : Bool :=
  match kget none s.flash.portSaved n with
  | some e => e.1 != d.serial || e.2.1 != d.port.toNat
  | none => false

/-- A DISCOVER arrives on a trained port. -/
def execDiscover (n : PortNo) (d : Discover) (s : State) : Result :=
  .next (
    let s := linkRecv s n vcMaint 1
    let x := s.port n
    if d.rsv then dropPacket s
    else if x.width == 0 then s
    else if x.savedUsed && savedDiffers s n d then
      let s0 := portTrain s n
      let s1 := { s0 with flash := { s0.flash with portSaved := kset none s0.flash.portSaved n none } }
      { s1 with boot := { s1.boot with full := s1.boot.full || s1.boot.stage == 4 } }
    else
      let before := ownPairs s
      let s1 := portJudge (s.setPort n { x with
        nbrSerial := d.serial, nbrValid := true, nbrPort := d.port.toNat % 16,
        nbrChip := if d.placed then d.chip.toNat else 0xFFFF, nbrDigest := d.digest, nbrLoaded := d.imageLoaded,
        nbrLpv := d.lpv.toNat }) n
      let s2 := if 4 ≤ s1.boot.stage && ownPairs s1 != before then
          floodRoster { s1 with net := { s1.net with dirty := true } }
        else s1
      if d.stage == 5 then sendHeld s2 n else s2)

end Sys2Proof.Machine
end

