-- ==== Sys2Proof/Machine/RegRead.lean ====
section
/-! DEFINITION. What a read of each register word returns (spec/00 R9 to R12, R554; the register tables of R29, R47,
R63, R91, R115, R125, R150, R182, R201, R234, R263, R287, R295, R323, R346, R381, R382, R427, R443, R452, R458, R459,
R467, R477, R504, R523, R539), and the read latches of R63 and R427. -/

namespace Sys2Proof.Machine

/-- Bit `i` of a word, as a term of its sum. -/
def bitAt (c : Bool) (i : Nat) : Nat := if c then 2 ^ i else 0

def w16 (i : Int) : Nat := unsignedOf 16 i

/-- A mask of 32 flags from index `lo`. -/
def maskWord (lo : Nat) (f : Nat → Bool) : Nat :=
  (List.range 32).foldl (fun a j => if f (lo + j) then a + 2 ^ j else a) 0

/-! ## ID and BOOT (18 R458, R459, R467, 17 R443) -/

def idWord (s : State) (o : Nat) : Nat :=
  if o == 0 then Config.pciId.toNat
  else if o == 4 then variantCode * 2 ^ 16 + 0xB101
  else if o == 0x10 then variantMinCap * 2 ^ 16 + variantBeats
  else if o == 0x14 then s.boot.postVer
  else if o == 0x18 then (if 5 ≤ s.boot.stage then s.boot.sorterVer else 0)
  else if o == 0x1C then 0x305
  else 0

def bootStageWord (s : State) : Nat :=
  s.boot.error * 2 ^ 16 + bitAt s.boot.computeReset 10 + bitAt s.boot.full 9 + bitAt s.bcast.heldImage.isSome 8 +
    s.boot.stage

def bootWord (s : State) (o : Nat) : Nat :=
  if o == 0 then bootStageWord s
  else if o == 0x10 then s.boot.memSaved.toNat
  else if o == 0x14 then s.boot.memFailed.toNat
  else if o == 0x18 then s.boot.durS4 % 65536 * 65536 + s.boot.durS3 % 65536
  else if o == 0x20 then bitAt s.boot.forceFull 2
  else if o == 0x24 then s.boot.resetCause
  else if o == 0x30 then s.boot.earlyReads
  else if o == 0x34 then s.boot.earlyWrites
  else if o == 0x40 then bitAt s.boot.earlyValid 31 + bitAt s.boot.earlyDir 16 + s.boot.earlyMaster
  else if o == 0x100 then s.bcast.bkind * 2 ^ 6 + bitAt s.bcast.force 5 + bitAt s.bcast.source 4
  else if o == 0x104 then s.bcast.result * 2 ^ 16 + s.bcast.lastId % 65536
  else if o == 0x110 then s.bcast.len.toNat
  else if o == 0x800 then bitAt s.image.source 1
  else if o == 0x804 then s.image.reason * 2 ^ 16 + s.image.result * 2 ^ 8 + boolNat s.image.loaded
  else if o == 0x810 then s.image.len.toNat
  else if o == 0x814 then s.image.epoch
  else if o == 0x818 then s.image.refuseOff.toNat
  else if 0x840 ≤ o && o < 0x860 then leAt s.image.digest (o - 0x840) 4
  else 0

/-! ## HIF (16 R427) -/

def hifLinkWord (h : Hif) : Nat :=
  if h.linkUp then bitAt true 31 + h.width * 2 ^ 16 + h.gen * 2 ^ 8 + bitAt h.ideSel 1 + boolNat h.ideLink else 0

def hifEventsWord (h : Hif) : Nat :=
  bitAt h.lbFault 4 + bitAt h.refusal 3 + bitAt h.noticeFull 2 + bitAt h.mirrorStale 1 + boolNat h.linkDownSeen

def streamStatusWord (s : State) : Nat :=
  let x := s.strm s.ring.streamIndex
  bitAt x.halted 31 + bitAt (imgStreamAlloc s.image.inForce s.ring.streamIndex == 1) 30 + x.failSlot

def boxWord (x : Letterbox) (o : Nat) : Nat :=
  if o == 8 then bitAt x.enable 31 + x.sizeLog2 * 2 ^ 24 + x.period * 2 ^ 14 + x.vector
  else if o == 0xC then x.tail
  else if o == 0x10 then x.stop
  else if o == 0x14 then x.collected
  else if o == 0x18 then x.refused
  else 0

def hifWord (s : State) (o : Nat) : Nat :=
  if o == 0 then hifLinkWord s.hif
  else if o == 4 then bitAt s.hif.mirrorEn 1 + boolNat s.hif.collectEn
  else if o == 8 then hifEventsWord s.hif
  else if o == 0x18 then bitAt s.hif.apRefused 1
  else if o == 0x28 then bitAt s.hif.apFaultValid 31 + bitAt s.hif.apFaultDir 16 + s.hif.apFaultCause
  else if o == 0x50 then s.ring.noticeSize
  else if o == 0x54 then s.ring.noticeHead
  else if o == 0x58 then s.ring.noticeTail
  else if o == 0x64 then s.ring.releaseRefused
  else if o == 0x68 then bitAt (s.op s.ring.rcptIndex).isNone 31 + s.ring.rcptIndex
  else if o == 0x90 then s.ring.streamIndex
  else if o == 0x94 then streamStatusWord s
  else if o == 0xA0 then bitAt s.ring.refuseValid 31 + s.ring.refuseBox * 2 ^ 16 + s.ring.refuseEntry % 65536
  else if o == 0xA4 then s.ring.refuseSlot
  else if 0xB0 ≤ o && o < 0xD8 then maskWord (8 * (o - 0xB0)) (fun c => decide ((s.courier c).phase = .halted))
  else if 0x1000 ≤ o && o < 0x3000 then boxWord (s.box ((o - 0x1000) / 0x20)) (o % 0x20)
  else if 0x10000 ≤ o && o < 0x18000 then (msixWord s ((o - 0x10000) / 4)).toNat
  else if 0x18000 ≤ o && o < 0x18100 then maskWord (8 * (o - 0x18000)) (fun v => s.ring.msixPending.contains v)
  else 0

/-- The live receipt's eight words, zero for a free slot. -/
def receiptWords (s : State) : List W32 :=
  let b := match s.op s.ring.rcptIndex with
    | some o => receiptBytes o.rcpt
    | none => []
  (List.range 8).map (fun i => BitVec.ofNat 32 (leAt b (4 * i) 4))

/-! ## PWR (21 R539) -/

def capsWord (peak min : Nat) : Nat := peak * 2 ^ 16 + min

def ledgerBytes (e : LedgerEnt) : List Byte :=
  bytesOfNat 4 e.minute ++ bytesOfNat 2 e.mean ++ bytesOfNat 2 e.peak ++ bytesOfNat 2 e.forecast ++
  bytesOfNat 2 e.cap ++ bytesOfNat 1 e.flags ++ bytesOfNat 1 e.waited ++ bytesOfNat 2 0

def pwrWord (s : State) (o : Nat) : Nat :=
  let p := s.power
  if o == 0 then p.capReq.toNat
  else if o == 4 then capsWord (peakCapAt s s.now) (minCapAt s s.now)
  else if o == 8 then p.plan.toNat
  else if o == 0xC then p.nowPeak % 65536 * 65536 + p.lastSample % 65536
  else if o == 0x10 then p.minuteMean % 65536 * 65536 + p.forecast % 65536
  else if o == 0x14 then p.flags
  else if o == 0x18 then p.ledgerTail
  else if o == 0x1C then p.waits
  else if o == 0x28 then bitAt p.tripValid 31 + p.tripIdx * 2 ^ 16 + w16 p.tripReading
  else if 0x100 ≤ o && o < 0x120 then
    let i := (o - 0x100) / 4
    let t := ptile s i
    t.grant % 65536 * 65536 + t.step * 2 ^ 12 + voltNow s t i % 4096
  else if 0x200 ≤ o && o < 0x300 then w16 (kget 0 p.temps ((o - 0x200) / 4))
  else if 0x1000 ≤ o && o < 0x13C0 then
    match kget none p.ledger ((o - 0x1000) / 16) with
    | some e => leAt (ledgerBytes e) (o % 16) 4
    | none => 0
  else 0

/-! ## SEC (20 R523, 17 R452) -/

def secStatusWord (s : State) : Nat :=
  bitAt s.sec.calPending 5 + bitAt (calIsUser s) 4 + bitAt (armNow s).isSome 3 + bitAt s.sec.attLost 2 +
    bitAt (s.sec.attNext == 2 ^ 40) 1 + boolNat s.sec.attReady

def denyBytes (d : Deny) : List Byte :=
  bytesOfNat 8 d.postmark ++ bytesOfNat 1 d.master ++ bytesOfNat 1 (bitAt d.write 7 + d.cause) ++ bytesOfNat 6 d.address

/-- The mask SEC_AT shows for a target: 0 to 37, and windows from 64. -/
def atMask (t : AccTab) (i : Nat) : BitVec 128 :=
  if i < 64 then t.masks.getD i 0
  else match t.wins[i - 64]? with
    | some w => w.mask
    | none => 0

def atWin (t : AccTab) (i : Nat) : Nat × Nat :=
  if i < 64 then (0, 0)
  else match t.wins[i - 64]? with
    | some w => (w.first, w.count)
    | none => (0, 0)

def secWord (s : State) (o : Nat) : Nat :=
  let x := s.sec
  if o == 0 then secStatusWord s
  else if o == 4 then fwFloor s
  else if o == 8 then x.verKind * 2 ^ 24 + x.verResult * 2 ^ 16
  else if o == 0xC then x.verVersion
  else if o == 0x10 then x.verFails
  else if o == 0x28 then x.signs
  else if o == 0x30 then leAt (calRecord s) 16 4
  else if o == 0x100 then x.denyTail
  else if 0x1000 ≤ o && o < 0x2000 then
    match kget none x.deny ((o - 0x1000) / 16) with
    | some d => leAt (denyBytes d) (o % 16) 4
    | none => 0
  else if o == 0x4000 then x.atIndex
  else if o == 0x4004 then boolNat x.atEpoch
  else if o == 0x4008 then (atWin s.access x.atIndex).1
  else if o == 0x400C then (atWin s.access x.atIndex).2
  else if 0x4010 ≤ o && o < 0x4020 then field (atMask s.access x.atIndex).toNat (8 * (o - 0x4010)) 32
  else if o == 0x4020 then x.atDenied
  else 0

/-! ## CHK (19 R500, R504) -/

/-- A GUID as UEFI stores it: the first three fields little-endian. -/
def guidBytes (a b c : Nat) (d : List Byte) : List Byte := bytesOfNat 4 a ++ bytesOfNat 2 b ++ bytesOfNat 2 c ++ d

def cperCreator : List Byte := guidBytes 0x4E51C0A7 0x2B9D 0x4F3E [0x8C, 0x61, 0xD0, 0x7A, 0x93, 0xE2, 0xB5, 0x14]
def cperNotify : List Byte := guidBytes 0xB3A8E641 0x70C2 0x4D95 [0xA1, 0xF4, 0x6C, 0x2E, 0x9D, 0x08, 0x5A, 0x37]
def cperSection : List Byte := guidBytes 0x7C2E0A15 0x93D4 0x4B61 [0xA8, 0xF0, 0x5E, 0x1B, 0x36, 0xD2, 0x7C, 0x44]

/-- The Casgil vendor section, 64 bytes. -/
def vendorBytes (c : Cper) : List Byte :=
  bytesOfNat 2 1 ++ bytesOfNat 1 c.event ++ bytesOfNat 1 c.unit ++ bytesOfNat 8 c.postmark ++ bytesOfNat 4 c.epoch ++
  bytesOfNat 2 c.chip ++ bytesOfNat 2 c.logical ++ bytesOfNat 8 c.location ++ bytesOfNat 4 c.opId ++
  bytesOfNat 2 c.stream ++ bytesOfNat 1 c.status ++ bytesOfNat 1 c.case ++ bytesOfNat 8 c.address ++
  bytesOfNat 4 c.repeats ++ bytesOfNat 4 c.transients ++ bytesOfNat 1 (boolNat c.placed) ++ zeroBytes 11

/-- A record's header as the UEFI structure lays it out. PRESUMED: R500 names the structure and does not give it (log 55). -/
def cperHeader (c : Cper) : List Byte :=
  asciiBytes "CPER" ++ bytesOfNat 2 0x0101 ++ bytesOfNat 4 0xFFFFFFFF ++ bytesOfNat 2 1 ++ bytesOfNat 4 c.sev ++
  bytesOfNat 4 1 ++ bytesOfNat 4 264 ++ zeroBytes 8 ++ bytesOfNat 8 Config.serial.toNat ++ zeroBytes 8 ++ zeroBytes 16 ++
  cperCreator ++ cperNotify ++ bytesOfNat 8 c.id ++ bytesOfNat 4 0 ++ zeroBytes 8 ++ zeroBytes 12

/-- The descriptor of its one section, likewise PRESUMED (log 55). -/
def cperDescriptor (c : Cper) : List Byte :=
  bytesOfNat 4 200 ++ bytesOfNat 4 64 ++ bytesOfNat 2 0x0300 ++ zeroBytes 2 ++ bytesOfNat 4 0 ++ cperSection ++
  zeroBytes 16 ++ bytesOfNat 4 c.sev ++ zeroBytes 20

/-- A record as stored: the header, the descriptor and the vendor section. -/
def cperBytes (c : Cper) : List Byte := cperHeader c ++ cperDescriptor c ++ vendorBytes c

def holdCount (s : State) : Nat := (s.core.clus.filter (fun e => e.2.te.run.any (fun r => r.hold.isSome))).length
def testCount (s : State) : Nat :=
  (s.core.clus.filter (fun e => e.2.chk.state = .suspect || e.2.chk.state = .testing)).length

def packId (s : State) : Nat := match s.chk.pack with | some b => leAt b 8 4 | none => 0

def chkWord (s : State) (o : Nat) : Nat :=
  let c := s.chk
  if o == 0 then c.transLimit * 2 ^ 8 + boolNat c.autoRetire
  else if o == 4 then min (holdCount s) 255 * 2 ^ 8 + min (testCount s) 255
  else if o == 8 then c.sealEvents
  else if o == 0xC then c.disagree
  else if o == 0x10 then c.resolved
  else if o == 0x14 then c.unresolved
  else if o == 0x18 then c.transient
  else if o == 0x1C then c.permanent
  else if o == 0x20 then c.parity
  else if o == 0x24 then c.pathRetry
  else if o == 0x100 then bitAt c.packSource 2
  else if o == 0x104 then c.packResult * 2 ^ 16 + packId s % 65536
  else if o == 0x110 then c.packLen.toNat
  else if o == 0x200 then c.cperHead
  else if o == 0x204 then c.cperTail
  else if o == 0x208 then c.cperLost
  else if 0x10000 ≤ o && o < 0x30000 then
    match kget none c.ring ((o - 0x10000) / 0x200) with
    | some r => leAt (cperBytes r) (o % 0x200) 4
    | none => 0
  else 0

/-! ## FAB (14 R381, R382, 02 R63) -/

def portWord (x : Port) (o : Nat) : Nat :=
  if o == 0 then
    x.cause * 2 ^ 24 + x.lpv * 2 ^ 12 + bitAt x.remapped 11 + bitAt x.savedUsed 10 + x.width * 2 ^ 8 +
      x.laneGroup * 2 ^ 3 + x.state
  else if o == 4 then boolNat x.hold
  else if o == 0x10 then bitAt x.nbrValid 31 + x.nbrPort * 2 ^ 24 + x.nbrChip
  else if o == 0x14 then x.retries
  else if o == 0x18 then x.fecCorr
  else if o == 0x1C then x.fecUncorr
  else if o == 0x20 then x.lanes
  else 0

def pmStatusWord (t : TimeBase) : Nat :=
  unsignedOf 8 t.slew * 2 ^ 16 + t.sourcePort * 2 ^ 8 + bitAt t.stepSeen 2 + bitAt t.locked 1 + boolNat t.running

/-- FAB_FWDi_HI and FAB_FWDi_LO as one value, which R63 splits. -/
def fwdValue (s : State) (i : Nat) : Nat :=
  match s.fab.fwd.getD i none with
  | some e => (2 ^ 31 + e.seq.toNat) * 2 ^ 32 + e.spare.toNat * 65536 + e.failed.toNat
  | none => 0

def fabWord (s : State) (o : Nat) : Nat :=
  let f := s.fab
  if o < 0xC00 then portWord (s.port (o / 0x100)) (o % 0x100)
  else if o == 0x1000 then
    (if f.placed then f.chip else 0xFFFF) * 65536 + bitAt f.spare 15 + bitAt f.coordChanged 14 + bitAt f.placed 13
  else if o == 0x1004 then f.sizeX * 2 ^ 16 + f.sizeY * 2 ^ 8 + f.sizeZ
  else if o == 0x1008 then bitAt (maskMet s) 31 + f.required
  else if o == 0x100C then f.reqTimeout
  else if o == 0x1010 then f.lateReplies
  else if o == 0x1014 then f.routeDrops
  else if o == 0x1020 then bitAt f.auto 4 + bitAt (f.auto && f.rebuildDue) 3 + boolNat f.rtEpoch
  else if o == 0x1024 then f.rtIndex
  else if o == 0x1028 then kget rtUnreach f.rtActive f.rtIndex
  else if o == 0x102C then kget rtUnreach f.rtShadow f.rtIndex
  else if o == 0x1030 then f.takeResult * 2 ^ 28 + f.takeFailed
  else if o == 0x1034 then bitAt f.aliasValid 31 + f.aliasChip
  else if o == 0x8008 then pmStatusWord s.time
  else 0

/-! ## MEM (12 R323) -/

/-- Stack parcel index of a row: channel, bank, row as MEM_LAST_ERR packs them. -/
def rowOfWord (v : Nat) : Nat := field v 23 4 + 16 * field v 17 6 + 768 * field v 0 15

def queryWord (x : StackS) : Nat :=
  let m := rowMap x (rowOfWord x.query)
  if field x.query 17 6 < 48 then bitAt m.retired 31 + m.rung * 2 ^ 29 + x.query else x.query

def memWord (s : State) (k o : Nat) : Nat :=
  let x := s.stk k
  if o == 0 then
    bitAt x.present 12 + bitAt x.reservedFail 11 + bitAt (x.listFull || 4096 ≤ x.retired.length) 10 +
      bitAt (x.present && (!x.scrubEnable || 2 ≤ x.step)) 9 + bitAt (!x.triggers.isEmpty) 8 + x.step
  else if o == 4 then w16 x.dram * 65536 + w16 x.base
  else if o == 8 then x.corrLimit
  else if o == 0xC then bitAt x.rmpEpoch 16 + x.symTrig * 2 ^ 8 + x.rowTrig
  else if o == 0x10 then bitAt x.scrubEnable 31 + x.periodS
  else if o == 0x14 then x.nextQ
  else if o == 0x18 then x.corrCount
  else if o == 0x1C then x.uncorrCount
  else if o == 0x20 then x.remaps
  else if o == 0x24 then sparesFree x * 65536 + sparesMin x
  else if o == 0x28 then x.lastErr
  else if o == 0x2C then queryWord x
  else if o == 0x30 then thrNow s x
  else if 0x4000 ≤ o && o < 0x8000 then
    match x.retired[(o - 0x4000) / 4]? with
    | some e => 2 ^ 31 + e.1
    | none => 0
  else 0

/-! ## SE (10 R295, 03 R91) -/

/-- Whether pieces of an operation from `j` on are the work of stack k's engine. -/
def seHasWork (t k : Nat) (b : List Byte) (j : Nat) : Bool :=
  (List.range (sePieces b - j)).any (fun i => seStackOf t b (pieceKey b (j + i)) == k)

/-- PHASE of stack k's own engine (R295). -/
def sePhase (g : SeGroup) (k : Nat) : Nat :=
  match g.run, g.queue with
  | some r, _ =>
    if !seHasWork (k / 4) k r.desc r.next then 0
    else match seOpcode r.desc with | 1 => 1 | 2 => 2 | 3 => 3 | 5 => 4 | _ => 0
  | none, (_, b) :: _ => if g.waiting.isSome && seHasWork (k / 4) k b 0 then 5 else 0
  | none, [] => 0

def stageCode (x : StageSt) : Nat := match x with | .empty => 0 | .filling => 1 | .full => 2

def stageWord (g : SeGroup) (k : Nat) : Nat :=
  (List.range 16).foldl (fun a j => a + stageCode (kget {} g.stage (16 * k + j)).st * 4 ^ j) 0

def arithWord (a : Arith) (o : Nat) : Nat :=
  if o == 0 then flagsWord a.fl else if o == 4 then a.sat else if o == 8 then a.nonfin else 0

def seWord (s : State) (k o : Nat) : Nat :=
  let g := s.seg (k / 4)
  let x := s.sest k
  if o == 0 then sePhase g k
  else if o == 4 then x.curOp
  else if o == 8 then x.groups
  else if o == 0xC then x.skipReplay
  else if o == 0x10 then x.sealFails
  else if o == 0x24 && k % 4 == 0 then g.queue.length
  else if 0x100 ≤ o && o < 0x10C then arithWord x.arith (o - 0x100)
  else if 0x200 ≤ o && o < 0x210 && k % 4 == 0 then stageWord g ((o - 0x200) / 4)
  else 0

/-! ## CRR (13 R346) -/

def crrPhase (p : CrrPhase) : Nat :=
  match p with | .idle => 0 | .running => 1 | .waiting => 2 | .halted => 3 | .stopping => 4

def crrWord (s : State) (c o : Nat) : Nat :=
  let x := s.courier c
  if o == 4 then bitAt x.bindRefused 24 + x.queue.length * 2 ^ 16 + crrPhase x.phase
  else if o == 8 then bitAt x.bound 31 + courierGroup s c * 2 ^ 16 + x.stream
  else if o == 0xC then x.curOp
  else if 0x18 ≤ o && o < 0x28 then x.lc.getD ((o - 0x18) / 4) 0
  else if o == 0x30 then bitAt x.faultValid 31 + bitAt x.faultDir 16 + x.faultCause
  else if o == 0x48 then x.rounds
  else if o == 0x4C then x.halts
  else 0

/-! ## TIL (01, 02, 07, 08, 09, 10, 18) -/

def slvQueued (s : State) (t : Nat) : Nat :=
  s.core.groups.foldl (fun a e => if leadTile s e.1 == t then a + e.2.queue.length else a) 0

/-- PHASE of the solve last started, while it runs; 7 once the deadline has been missed (09 R251). -/
def slvPhase (s : State) (t : Nat) : Nat :=
  let g := (s.tslv t).lastGroup
  match (s.group g).run with
  | some r => if leadTile s g == t then (if r.late.isSome then 7 else r.phase) else 0
  | none => 0

def slvWord (s : State) (t o : Nat) : Nat :=
  let x := s.tslv t
  if o == 0 then (s.tile t).slvGroup
  else if o == 4 then min (slvQueued s t) 255 * 2 ^ 16 + x.lastGroup * 2 ^ 8 + slvPhase s t
  else if o == 8 then x.curOp
  else if o == 0xC then x.pivReg
  else if o == 0x28 then x.corr
  else if o == 0x2C then bitAt x.fixed 24 + x.iterations % 2 ^ 24
  else if o == 0x30 then x.dlMisses
  else if o == 0x34 then x.breakdowns
  else if o == 0x38 then x.warmRefused
  else 0

def lwWord (w : Watch) (o : Nat) : Nat :=
  if o == 0 then bitAt w.enabled 31 + w.hlen * 2 ^ 24 + w.warmup * 2 ^ 16 + w.stream
  else if o == 4 then w.windowUs * 2 ^ 16 + w.posts
  else if o == 0x18 then w.openStep
  else if o == 0x1C then w.cur.length * 2 ^ 16 + w.lastReason * 2 ^ 8 + boolNat w.lastOpen
  else 0

/-- A statistics slot as tile t shows it. -/
def qsWord (s : State) (q o : Nat) : Nat :=
  let x := s.qslot q
  if o == 8 then x.shdScale.toNat
  else if o == 0xC then x.shdCfg.toNat
  else if o == 0x10 then x.result * 2 ^ 16 + x.closeStep * 2 ^ 8
  else if o == 0x14 then
    bitAt x.refused 4 + bitAt x.writeDropped 3 + bitAt x.nonfinite 2 + bitAt x.scaleSat 1 + boolNat x.closed
  else 0

def tilWord (s : State) (t o : Nat) : Nat :=
  let x := s.tile t
  if o < 0x100 then (fpRead s t (o / 4)).toNat
  else if 0x1000 ≤ o && o < 0x1040 then fwdRow s t ((o - 0x1000) / 4)
  else if 0x1040 ≤ o && o < 0x1080 then fwdShadowRow s t ((o - 0x1040) / 4)
  else if o == 0x1080 then boolNat x.fwdEpoch
  else if o == 0x1100 then x.swapResult * 2 ^ 16 + x.swapRow
  else if o == 0x2008 then x.minRate % 65536 * 65536 + x.meanRate % 65536
  else if o == 0x200C then variantBeats
  else if o == 0x3004 then x.cluResult * 2 ^ 16 + x.cluReason * 2 ^ 8 + x.cluLast
  else if 0x3010 ≤ o && o < 0x3030 then maskWord (t * 256 + 8 * (o - 0x3010)) (isQuiesced s)
  else if 0x3030 ≤ o && o < 0x3050 then maskWord (t * 256 + 8 * (o - 0x3030)) (isAsleep s)
  else if o == 0x3050 then x.wakeStale
  else if o == 0x4004 then x.qsDropped
  else if 0x6000 ≤ o && o < 0x6050 then slvWord s t (o - 0x6000)
  else if 0x7000 ≤ o && o < 0x7400 then lwWord (s.watch ((o - 0x7000) / 0x40)) (o % 0x40)
  else if o == 0x7400 then s.core.lwDropped
  else if 0x8000 ≤ o && o < 0xC000 then qsWord s ((o - 0x8000) / 0x40) (o % 0x40)
  else 0

/-! ## CLU (03, 04, 05, 06, 19) -/

def tePhase (t : Te) : Nat :=
  match t.run with
  | none => 0
  | some r => if (tdescOf r.item.desc).bands ≤ r.band then 2 else 1

def seqPhase (q : Seq) : Nat :=
  match q.prog with
  | none => if q.ran then 4 else 0
  | some _ => if q.wait ≠ .none then 3 else if q.inHandler then 2 else 1

def chkStateCode (x : ChkState) : Nat :=
  match x with
  | .normal => 0 | .suspect => 1 | .testing => 2 | .quarantined => 3 | .retired => 4

def cluWord (s : State) (p o : Nat) : Nat :=
  let c := s.clu p
  let q := c.seq
  if 0x100 ≤ o && o < 0x10C then arithWord c.te.arith (o - 0x100)
  else if 0x140 ≤ o && o < 0x14C then arithWord c.ve (o - 0x140)
  else if o == 0x180 then bitAt c.win.pending.isSome 31 + w16 c.win.base
  else if o == 0x184 then winFlagsWord c.win
  else if o == 0x1C4 then c.te.redRecords % 65536 * 65536 + c.te.redPhase
  else if o == 0x204 then
    c.te.queue.length * 2 ^ 16 + bitAt (c.te.run.any (fun r => r.hold.isSome)) 8 + tePhase c.te
  else if o == 0x208 then c.te.curOp
  else if o == 0x20C then c.te.rateLog2
  else if o == 0x228 then c.te.sealFails
  else if o == 0x22C then c.te.disagree
  else if o == 0x240 then c.chk.transients * 2 ^ 8 + bitAt c.chk.inspector 3 + chkStateCode c.chk.state
  else if o == 0x300 then seqPhase q
  else if o == 0x304 then q.pc &&& 0x3FFFFC
  else if o == 0x308 then q.trapVec &&& 0x3FFFFC
  else if o == 0x30C then q.epc &&& 0x3FFFFC
  else if o == 0x310 then boolNat q.satWide
  else if o == 0x314 then q.efmt
  else if o == 0x318 then q.act
  else if o == 0x31C then q.resume
  else if o == 0x324 then q.faultIndex
  else if o == 0x328 then bitAt q.faultValid 31 + bitAt q.faultDir 16 + q.faultCause
  else 0

/-! ## 64-bit values (02 R63) -/

/-- The 64-bit value whose _LO register lies at a TIL offset. -/
def tilPair (s : State) (t o : Nat) : Option W64 :=
  if o == 0x2000 then some (BitVec.ofNat 64 (s.tile t).beatCount)
  else if 0x6000 ≤ o && o < 0x6050 then
    let x := s.tslv t
    if o == 0x6010 then some x.solves
    else if o == 0x6018 then some x.factors
    else if o == 0x6020 then some x.resid
    else if o == 0x6040 then some x.deadline
    else if o == 0x6048 then some x.slack
    else none
  else if 0x7000 ≤ o && o < 0x7400 then
    let w := s.watch ((o - 0x7000) / 0x40)
    match o % 0x40 with
    | 0x08 => some w.k
    | 0x10 => some w.minSd
    | 0x20 => some w.lastLoss
    | 0x28 => some w.mean
    | 0x30 => some w.var
    | 0x38 => some (BitVec.ofNat 64 (verdictBits w))
    | _ => none
  else if 0x8000 ≤ o && o < 0xC000 then
    let q := (o - 0x8000) / 0x40
    let x := s.qslot q
    let p := s.qpart t q
    match o % 0x40 with
    | 0x00 => some (BitVec.ofNat 64 (x.actScale.toNat + 2 ^ 32 * (x.actCfg.toNat + bitAt x.epoch 23)))
    | 0x18 => some (BitVec.ofNat 64 p.smax)
    | 0x20 => some (BitVec.ofNat 64 (f64Round (.fin false p.err (-64))))
    | 0x28 => some (BitVec.ofNat 64 p.count)
    | 0x30 => some (BitVec.ofNat 64 x.lastAmax)
    | 0x38 => some (BitVec.ofNat 64 x.lastMse)
    | _ => none
  else none

def cluPair (s : State) (p o : Nat) : Option W64 :=
  let c := s.clu p
  match o with
  | 0x188 => some (BitVec.ofNat 64 c.win.terms)
  | 0x1C8 => some c.te.redSave
  | 0x210 => some c.te.key
  | 0x218 => some (BitVec.ofNat 64 c.te.ops)
  | 0x220 => some (BitVec.ofNat 64 c.te.beats)
  | 0x32C => some c.seq.faultAddr
  | 0x334 => some c.seq.srKey
  | 0x33C => some c.seq.srCounter
  | 0x344 => some c.seq.srPos
  | 0x34C => some c.seq.capMax
  | 0x354 => some c.seq.capSqerr
  | 0x35C => some c.seq.capCount
  | 0x364 => some (BitVec.ofNat 64 s.now)
  | _ => none

def crrPair (x : Courier) (o : Nat) : Option W64 :=
  match o with
  | 0x10 => some (BitVec.ofNat 64 x.pc)
  | 0x28 => some (BitVec.ofNat 64 x.faultAddr)
  | 0x38 => some (BitVec.ofNat 64 x.restart)
  | 0x40 => some (BitVec.ofNat 64 x.bytes)
  | _ => none

def hifPair (s : State) (o : Nat) : Option W64 :=
  match o with
  | 0x10 => some s.hif.apBase
  | 0x20 => some s.hif.apActive
  | 0x2C => some s.hif.apFaultAddr
  | 0x40 => some s.hif.ledgerBase
  | 0x48 => some s.hif.noticeBase
  | _ => if 0x1000 ≤ o && o < 0x3000 && o % 0x20 == 0 then some (s.box ((o - 0x1000) / 0x20)).base else none

/-- The 64-bit value whose _LO register lies at a register-space offset. -/
def regPair (s : State) (off : Nat) : Option W64 :=
  match regTarget off with
  | some 0 => if off == 8 then some Config.serial else none
  | some 1 =>
    match off - 0x1000 with
    | 0x008 => some (BitVec.ofNat 64 s.boot.stagePm)
    | 0x038 => some s.boot.earlyAddr
    | 0x108 => some s.bcast.src
    | 0x808 => some s.image.src
    | 0x820 => some s.image.imageId
    | _ => none
  | some 2 => hifPair s (off - 0x10000)
  | some 3 => if off == 0x100020 then some (BitVec.ofNat 64 s.power.stamps) else none
  | some 4 =>
    match off - 0x200000 with
    | 0x18 => some (BitVec.ofNat 64 (s.sec.attNext % 2 ^ 40))
    | 0x20 => some (BitVec.ofNat 64 (ceiling s % 2 ^ 40))
    | _ => none
  | some 5 =>
    match off - 0x300000 with
    | 0x108 => some s.chk.packSrc
    | 0x118 => some s.chk.packOut
    | _ => none
  | some 6 =>
    let o := off - 0x400000
    if o == 0x8000 then some (BitVec.ofNat 64 s.now)
    else if 0x1400 ≤ o && o < 0x1600 && o % 8 == 0 then some (BitVec.ofNat 64 (fwdValue s ((o - 0x1400) / 8)))
    else if o < 0xC00 && o % 0x100 == 8 then some (s.port (o / 0x100)).nbrSerial else none
  | some 9 =>
    let o := off - 0xC00000
    if o < 320 * 0x400 then crrPair (s.courier (o / 0x400)) (o % 0x400) else none
  | some t =>
    if 12 ≤ t && t < 20 then tilPair s (t - 12) (off % 0x100000)
    else if 20 ≤ t && t < 28 then cluPair s ((off - 0x2000000) / 0x1000) (off % 0x1000)
    else none
  | none => none

/-- A word that is no half of a 64-bit value. -/
def regWord (s : State) (off : Nat) : Nat :=
  match regTarget off with
  | some 0 => idWord s off
  | some 1 => bootWord s (off - 0x1000)
  | some 2 => hifWord s (off - 0x10000)
  | some 3 => pwrWord s (off - 0x100000)
  | some 4 => secWord s (off - 0x200000)
  | some 5 => chkWord s (off - 0x300000)
  | some 6 => fabWord s (off - 0x400000)
  | some 7 => memWord s ((off - 0x800000) / 0x10000) (off % 0x10000)
  | some 8 => seWord s ((off - 0xA00000) / 0x10000) (off % 0x10000)
  | some 9 => if off - 0xC00000 < 320 * 0x400 then crrWord s ((off - 0xC00000) / 0x400) (off % 0x400) else 0
  | some t =>
    if 12 ≤ t && t < 20 then tilWord s (t - 12) (off % 0x100000)
    else if 20 ≤ t && t < 28 then cluWord s ((off - 0x2000000) / 0x1000) (off % 0x1000)
    else 0
  | none => 0

/-- Key of a master's latch of a _HI register. -/
def latchKey (m off : Nat) : Nat := m * 2 ^ 26 + off

def latchSet (s : State) (m off : Nat) (v : W32) : State := { s with latch := kset 0 s.latch (latchKey m off) v }

def rcptOff (off : Nat) : Bool := 0x10070 ≤ off && off < 0x10090

/-- A read of HIF_RCPT0 latches the receipt for the reading master; the other seven return what it latched. -/
def rcptRead (s : State) (m off : Nat) : State × W32 :=
  if off == 0x10070 then
    let l := receiptWords s
    ({ s with ring := { s.ring with rcptLatch := kset [] s.ring.rcptLatch m l } }, l.getD 0 0)
  else (s, (kget [] s.ring.rcptLatch m).getD ((off - 0x10070) / 4) 0)

/-- A read of one word that every check lets through. -/
def regReadWord (s : State) (m off : Nat) : State × W32 :=
  if rcptOff off then rcptRead s m off
  else match regPair s off with
    | some v => (latchSet s m (off + 4) (BitVec.ofNat 32 (field v.toNat 32 32)), BitVec.ofNat 32 (field v.toNat 0 32))
    | none =>
      if 4 ≤ off && (regPair s (off - 4)).isSome then (s, kget 0 s.latch (latchKey m off))
      else (s, BitVec.ofNat 32 (regWord s off))

/-- What a read of a word answers: all ones before its block answers (18 R456), nothing where the tables refuse it. -/
def regRead (s : State) (m off : Nat) : State × Option W32 :=
  match regGate s m off false with
  | .ok => let r := regReadWord s m off; (r.1, some r.2)
  | .early => (gateFail s .early m off false, some 0xFFFFFFFF)
  | g => (gateFail s g m off false, none)

/-- Successive words in ascending order (00 R554). -/
def regReadMany (n : Nat) (s : State) (m off : Nat) : State × Option (List Byte) :=
  match n with
  | 0 => (s, some [])
  | k + 1 =>
    match regRead s m off with
    | (s1, none) => (s1, none)
    | (s1, some w) =>
      match regReadMany k s1 m (off + 4) with
      | (s2, none) => (s2, none)
      | (s2, some l) => (s2, some (bytesOfNat 4 w.toNat ++ l))

end Sys2Proof.Machine
end

