-- ==== Sys2Proof/Machine/RegWrite.lean ====
section
/-! DEFINITION. What a write of each register word does (spec/00 R10, R11, R554; the register tables), and the
register commands REGISTER_WRITE, SPLIT_LO_READ, RECEIPT_READ and EARLY_ACCESS. A write that asks for an action is the
action's own command. -/

namespace Sys2Proof.Machine

/-- A word of a 64-bit register written. -/
def setLo (x : W64) (v : Nat) : W64 := BitVec.ofNat 64 (putField x.toNat 0 32 v)
def setHi (x : W64) (v : Nat) : W64 := BitVec.ofNat 64 (putField x.toNat 32 32 v)

/-- A W1C bit after a write: a 1 clears it. -/
def w1c (cur : Bool) (v i : Nat) : Bool := cur && !v.testBit i

def flagsW1c (f : AFlags) (v : Nat) : AFlags :=
  ⟨w1c f.invalid v 3, w1c f.overflow v 2, w1c f.underflow v 1, w1c f.inexact v 0⟩

def arithWrite (a : Arith) (o v : Nat) : Arith :=
  if o == 0 then { a with fl := flagsW1c a.fl v } else if o == 4 then { a with sat := v }
  else if o == 8 then { a with nonfin := v } else a

/-- A write to a word of RWL fields: Postmaster's is stored, another master's is logged where it differs. -/
def rwlWrite (s : State) (m off cur new : Nat) (act : State → State) : State :=
  if m == 0 then act s else rwlDenied s m off cur new

/-! ## BOOT -/

def bootWrite (s : State) (o v : Nat) : State :=
  let b := s.boot
  let c := s.bcast
  let i := s.image
  if o == 0x20 then actResetCtrl s v
  else if o == 0x30 then { s with boot := { b with earlyReads := v } }
  else if o == 0x34 then { s with boot := { b with earlyWrites := v } }
  else if o == 0x40 then { s with boot := { b with earlyValid := w1c b.earlyValid v 31 } }
  else if o == 0x100 then actBcastCtrl s v none
  else if o == 0x108 then { s with bcast := { c with src := setLo c.src v } }
  else if o == 0x10C then { s with bcast := { c with src := setHi c.src v } }
  else if o == 0x110 then { s with bcast := { c with len := BitVec.ofNat 32 v } }
  else if o == 0x800 then actImageCtrl s v none
  else if o == 0x808 then { s with image := { i with src := setLo i.src v } }
  else if o == 0x80C then { s with image := { i with src := setHi i.src v } }
  else if o == 0x810 then { s with image := { i with len := BitVec.ofNat 32 v } }
  else s

/-! ## HIF -/

/-- A write of HIF_CTRL; enabling the mirror appends the notices that waited. -/
def hifCtrl (s : State) (v : Nat) : State :=
  let s1 := drainHeld { s with hif := { s.hif with collectEn := v.testBit 0, mirrorEn := v.testBit 1 } }
  if v.testBit 2 then actResync s1 else s1

/-- A write of HIF_AP_CTRL: the clear first, so a refusal of this write stays set (R11). -/
def hifApCtrl (s : State) (v : Nat) : State :=
  let s1 := { s with hif := { s.hif with apRefused := w1c s.hif.apRefused v 1 } }
  if v.testBit 0 then actApertureApply s1 else s1

def hifEvents (h : Hif) (v : Nat) : Hif :=
  { h with
    lbFault := w1c h.lbFault v 4, refusal := w1c h.refusal v 3, noticeFull := w1c h.noticeFull v 2,
    mirrorStale := w1c h.mirrorStale v 1, linkDownSeen := w1c h.linkDownSeen v 0 }

/-- A write of an MSI-X table word; unmasking a pending vector sends it, as PCI Express gives. -/
def msixWrite (s : State) (i v : Nat) : State :=
  let s1 := { s with ring := { s.ring with
    msixTable := kset (if i % 4 == 3 then 1 else 0) s.ring.msixTable i (BitVec.ofNat 32 v) } }
  if i % 4 == 3 && v % 2 == 0 && s.ring.msixPending.contains (i / 4) then
    sendMsix { s1 with ring := { s1.ring with msixPending := s.ring.msixPending.erase (i / 4) } } (i / 4)
  else s1

def boxWrite (s : State) (k o v : Nat) : State :=
  let x := s.box k
  if o == 0 then actBoxBase s k (setLo x.base v)
  else if o == 4 then actBoxBase s k (setHi x.base v)
  else if o == 8 then actBoxConfig s k v
  else if o == 0x14 then s.setBox k { x with collected := v }
  else if o == 0x18 then s.setBox k { x with refused := v }
  else s

def hifWrite (s : State) (o v : Nat) : State :=
  let h := s.hif
  let r := s.ring
  let open_ := !h.mirrorEn
  if o == 4 then hifCtrl s v
  else if o == 8 then { s with hif := hifEvents h v }
  else if o == 0x10 then { s with hif := { h with apBase := setLo h.apBase v } }
  else if o == 0x14 then { s with hif := { h with apBase := setHi h.apBase v } }
  else if o == 0x18 then hifApCtrl s v
  else if o == 0x28 then { s with hif := { h with apFaultValid := w1c h.apFaultValid v 31 } }
  else if o == 0x40 && open_ then { s with hif := { h with ledgerBase := setLo h.ledgerBase v } }
  else if o == 0x44 && open_ then { s with hif := { h with ledgerBase := setHi h.ledgerBase v } }
  else if o == 0x48 && open_ then { s with hif := { h with noticeBase := setLo h.noticeBase v } }
  else if o == 0x4C && open_ then { s with hif := { h with noticeBase := setHi h.noticeBase v } }
  else if o == 0x50 then drainHeld { s with ring := { r with noticeSize := clampNat 8 16 (field v 0 5) } }
  else if o == 0x54 then actNoticeHead s v
  else if o == 0x60 then actSlotRelease s v
  else if o == 0x64 then { s with ring := { r with releaseRefused := v } }
  else if o == 0x68 then { s with ring := { r with rcptIndex := field v 0 17 } }
  else if o == 0x90 then { s with ring := { r with streamIndex := field v 0 16 } }
  else if o == 0x98 then (if v.testBit 0 then actStreamClear s else s)
  else if o == 0xA0 then { s with ring := { r with refuseValid := w1c r.refuseValid v 31 } }
  else if 0x1000 ≤ o && o < 0x3000 then boxWrite s ((o - 0x1000) / 0x20) (o % 0x20) v
  else if 0x10000 ≤ o && o < 0x18000 then msixWrite s ((o - 0x10000) / 4) v
  else s

/-! ## PWR, SEC, CHK -/

def pwrWrite (s : State) (o v : Nat) : State :=
  let p := s.power
  if o == 0 then actPowerCap s v
  else if o == 8 then { s with power := { p with plan := BitVec.ofNat 32 v &&& 0x8000FFFF } }
  else if o == 0x14 then { s with power := { p with flags := p.flags &&& (0x3F ^^^ (v &&& 0x3F)) } }
  else if o == 0x1C then { s with power := { p with waits := v } }
  else s

def secWrite (s : State) (m off v : Nat) : State :=
  let x := s.sec
  let o := off - 0x200000
  if o == 0x10 then rwlWrite s m off x.verFails v (fun s => { s with sec := { s.sec with verFails := v } })
  else if o == 0x28 then rwlWrite s m off x.signs v (fun s => { s with sec := { s.sec with signs := v } })
  else if o == 0x4000 then { s with sec := { x with atIndex := field v 0 9 } }
  else if o == 0x4020 then { s with sec := { x with atDenied := v } }
  else s

def chkWrite (s : State) (m off v : Nat) : State :=
  let c := s.chk
  let o := off - 0x300000
  let put (c : Chk) : State := { s with chk := c }
  if o == 0 then
    rwlWrite s m off (chkWord s 0) (v &&& 0xFF01) (fun s =>
      { s with chk := { s.chk with transLimit := field v 8 8, autoRetire := v.testBit 0 } })
  else if o == 8 then put { c with sealEvents := v }
  else if o == 0xC then put { c with disagree := v }
  else if o == 0x10 then put { c with resolved := v }
  else if o == 0x14 then put { c with unresolved := v }
  else if o == 0x18 then put { c with transient := v }
  else if o == 0x1C then put { c with permanent := v }
  else if o == 0x20 then put { c with parity := v }
  else if o == 0x24 then put { c with pathRetry := v }
  else if o == 0x100 then actPackCtrl s v none
  else if o == 0x108 then put { c with packSrc := setLo c.packSrc v }
  else if o == 0x10C then put { c with packSrc := setHi c.packSrc v }
  else if o == 0x110 then put { c with packLen := BitVec.ofNat 32 v }
  else if o == 0x118 then put { c with packOut := setLo c.packOut v }
  else if o == 0x11C then put { c with packOut := setHi c.packOut v }
  else if o == 0x200 then put { c with cperHead := v }
  else if o == 0x208 then put { c with cperLost := v }
  else s

/-! ## FAB -/

def portWrite (s : State) (n o v : Nat) : State :=
  let x := s.port n
  if o == 4 then actPortCtrl s n v
  else if o == 0x14 then s.setPort n { x with retries := v }
  else if o == 0x18 then s.setPort n { x with fecCorr := v }
  else if o == 0x1C then s.setPort n { x with fecUncorr := v }
  else s

/-- A write of FAB_RT_CTRL: AUTO, then a flip where AUTO is clear. -/
def rtCtrl (s : State) (m v : Nat) : State :=
  rwlWrite s m (fabBase + 0x1020) (bitAt s.fab.auto 4) (v &&& 0x12) (fun s =>
    let s1 := { s with fab := { s.fab with
      auto := v.testBit 4, rebuildDue := s.fab.rebuildDue || (v.testBit 4 && !s.fab.auto) } }
    if v.testBit 1 then actRouteFlip s1 m else s1)

def fabWrite (s : State) (m o v : Nat) : State :=
  let f := s.fab
  if o < 0xC00 then portWrite s (o / 0x100) (o % 0x100) v
  else if o == 0x1000 then { s with fab := { f with coordChanged := w1c f.coordChanged v 14 } }
  else if o == 0x100C then { s with fab := { f with reqTimeout := clampNat 10 10000 (field v 0 14) } }
  else if o == 0x1010 then { s with fab := { f with lateReplies := v } }
  else if o == 0x1014 then { s with fab := { f with routeDrops := v } }
  else if o == 0x1020 then rtCtrl s m v
  else if o == 0x1024 then { s with fab := { f with rtIndex := field v 0 16 } }
  else if o == 0x102C then
    rwlWrite s m (fabBase + o) (kget rtUnreach f.rtShadow f.rtIndex) (v &&& 0xEFFF) (fun s =>
      { s with fab := { s.fab with rtShadow := kset rtUnreach s.fab.rtShadow s.fab.rtIndex (v &&& 0xEFFF) } })
  else if o == 0x1030 then actTakeover s m v
  else if o == 0x8008 then { s with time := { s.time with stepSeen := w1c s.time.stepSeen v 2 } }
  else s

/-! ## MEM, SE, CRR -/

def memWrite (s : State) (m off v : Nat) : State :=
  let k := (off - 0x800000) / 0x10000
  let o := off % 0x10000
  let x := s.stk k
  if o == 8 then rwlWrite s m off x.corrLimit (field v 0 3) (fun s => s.setStk k { x with corrLimit := field v 0 3 })
  else if o == 0xC then
    rwlWrite s m off (x.symTrig * 2 ^ 8 + x.rowTrig) (v &&& 0x7FF) (fun s =>
      s.setStk k { x with symTrig := field v 8 3, rowTrig := field v 0 8 })
  else if o == 0x10 then
    rwlWrite s m off (bitAt x.scrubEnable 31 + x.periodS) (v &&& 0x800FFFFF) (fun s =>
      s.setStk k { x with scrubEnable := v.testBit 31, periodS := max 60 (field v 0 20) })
  else if o == 0x18 then s.setStk k { x with corrCount := v }
  else if o == 0x1C then s.setStk k { x with uncorrCount := v }
  else if o == 0x20 then s.setStk k { x with remaps := v }
  else if o == 0x2C then s.setStk k { x with query := v &&& 0x07FE7FFF }
  else if o == 0x30 then s.setStk k { x with thrTime := v, thrSince := s.now }
  else s

def seWrite (s : State) (k o v : Nat) : State :=
  let x := s.sest k
  if o == 8 then s.setSest k { x with groups := v }
  else if o == 0xC then s.setSest k { x with skipReplay := v }
  else if o == 0x10 then s.setSest k { x with sealFails := v }
  else if o == 0x20 && k % 4 == 0 && v.testBit 0 then actSeAbort s (k / 4)
  else if 0x100 ≤ o && o < 0x10C then s.setSest k { x with arith := arithWrite x.arith (o - 0x100) v }
  else s

def crrWrite (s : State) (m c o v : Nat) : State :=
  let x := s.courier c
  if o == 0 then actCourierCtrl s c v
  else if o == 4 then s.setCourier c { x with bindRefused := w1c x.bindRefused v 24 }
  else if o == 8 then actCourierBind s m c v
  else if o == 0x30 then s.setCourier c { x with faultValid := w1c x.faultValid v 31 }
  else if o == 0x48 then s.setCourier c { x with rounds := v }
  else if o == 0x4C then s.setCourier c { x with halts := v }
  else s

/-! ## TIL -/

def slvWrite (s : State) (t o v : Nat) : State :=
  let x := s.tslv t
  if o == 0 then actSolveAbort s t v
  else if o == 0xC then s.setTslv t { x with pivReg := v }
  else if o == 0x30 then s.setTslv t { x with dlMisses := v }
  else if o == 0x34 then s.setTslv t { x with breakdowns := v }
  else if o == 0x38 then s.setTslv t { x with warmRefused := v }
  else s

/-- A write of a loss watch's register; a verdict due in its cycle is given before it takes effect (10 R286). -/
def lwRegWrite (s : State) (w o v : Nat) : State :=
  let x := verdictsDue 2 (s.watch w) s.now
  if o == 0 then actLwWrite s w .cfg v
  else if o == 4 then actLwWrite s w .window v
  else if o == 8 then s.setWatch w { x with k := setLo x.k v }
  else if o == 0xC then s.setWatch w { x with k := setHi x.k v }
  else if o == 0x10 then s.setWatch w { x with minSd := setLo x.minSd v }
  else if o == 0x14 then s.setWatch w { x with minSd := setHi x.minSd v }
  else if o == 0x18 then actLwWrite s w .openStep v
  else s

/-- A write of TIL_QS_CTRL: CLOSE first, so a FLIP of the same write falls in the close. CLOSE_STEP stores the value
written, but for a CLOSE or FLIP that a close in progress ignores or drops (R199, R201). -/
def qsCtrl (s : State) (q v : Nat) : State :=
  let x := s.qslot q
  let s1 := if v.testBit 1 then actQsClose s q v
    else if x.result == 1 && v.testBit 0 then s else s.setQslot q { x with closeStep := field v 8 8 }
  if v.testBit 0 then actQsFlip s1 q else s1

def qsWrite (s : State) (q o v : Nat) : State :=
  let x := s.qslot q
  if o == 8 then actQsShadow s q .scale (BitVec.ofNat 32 v)
  else if o == 0xC then actQsShadow s q .cfg (BitVec.ofNat 32 v)
  else if o == 0x10 then qsCtrl s q v
  else if o == 0x14 then
    s.setQslot q { x with
      refused := w1c x.refused v 4, writeDropped := w1c x.writeDropped v 3, nonfinite := w1c x.nonfinite v 2,
      scaleSat := w1c x.scaleSat v 1, closed := w1c x.closed v 0 }
  else s

/-- A write of a shadow forwarding entry (01 R31). -/
def shadowWrite (s : State) (m t r v : Nat) : State :=
  let k := field v 0 5
  rwlWrite s m (tilBase t + 0x1040 + 4 * r) (fwdShadowRow s t r) k (fun s =>
    let x := s.tile t
    s.setTile t { x with fwdShadow := fwdSet x.fwdShadow r k })

def tilWrite (s : State) (m t o v : Nat) : State :=
  let x := s.tile t
  if 0x1040 ≤ o && o < 0x1080 then shadowWrite s m t ((o - 0x1040) / 4) v
  else if o == 0x1080 then (if v.testBit 1 then actForwardingFlip s t m else s)
  else if o == 0x1100 then actRowSwap s t v
  else if o == 0x3000 then actCluCtrl s t v
  else if o == 0x3050 then s.setTile t { x with wakeStale := v }
  else if o == 0x4000 then actQsCollect s t v
  else if o == 0x4004 then s.setTile t { x with qsDropped := v }
  else if 0x6000 ≤ o && o < 0x6040 then slvWrite s t (o - 0x6000) v
  else if 0x7000 ≤ o && o < 0x7400 then lwRegWrite s ((o - 0x7000) / 0x40) (o % 0x40) v
  else if o == 0x7400 then { s with core := { s.core with lwDropped := v } }
  else if 0x8000 ≤ o && o < 0xC000 then qsWrite s ((o - 0x8000) / 0x40) (o % 0x40) v
  else s

/-! ## CLU -/

/-- Sequencer and vector registers, written by the cluster's own sequencer alone (06 R182); RESUME only in a handler
(R178). -/
def seqWrite (q : Seq) (o v : Nat) : Seq :=
  if o == 0x308 then { q with trapVec := v &&& 0x3FFFFC }
  else if o == 0x30C then { q with epc := v &&& 0x3FFFFC }
  else if o == 0x310 then { q with satWide := v.testBit 0 }
  else if o == 0x31C then { q with resume := if q.inHandler then field v 0 11 else q.resume }
  else if o == 0x328 then { q with faultValid := w1c q.faultValid v 31 }
  else if o == 0x334 then { q with srKey := setLo q.srKey v }
  else if o == 0x338 then { q with srKey := setHi q.srKey v }
  else if o == 0x33C then { q with srCounter := setLo q.srCounter v }
  else if o == 0x340 then { q with srCounter := setHi q.srCounter v }
  else if o == 0x344 then { q with srPos := setLo q.srPos v }
  else if o == 0x348 then { q with srPos := setHi q.srPos v }
  else if o == 0x34C then { q with capMax := setLo q.capMax v }
  else if o == 0x350 then { q with capMax := setHi q.capMax v }
  else if o == 0x354 then { q with capSqerr := setLo q.capSqerr v }
  else if o == 0x358 then { q with capSqerr := setHi q.capSqerr v }
  else if o == 0x35C then { q with capCount := setLo q.capCount v }
  else if o == 0x360 then { q with capCount := setHi q.capCount v }
  else q

def winW1c (w : Win) (v : Nat) : Win :=
  { w with nonfinite := w1c w.nonfinite v 3, overflow := w1c w.overflow v 2, under := w1c w.under v 1,
           inexact := w1c w.inexact v 0 }

def teWrite (t : Te) (o v : Nat) : Te :=
  if o == 0x1C8 then { t with redSave := setLo t.redSave v }
  else if o == 0x1CC then { t with redSave := setHi t.redSave v }
  else if o == 0x20C then { t with rateLog2 := field v 0 3 }
  else if o == 0x210 then { t with key := setLo t.key v }
  else if o == 0x214 then { t with key := setHi t.key v }
  else if o == 0x228 then { t with sealFails := v }
  else if o == 0x22C then { t with disagree := v }
  else if 0x100 ≤ o && o < 0x10C then { t with arith := arithWrite t.arith (o - 0x100) v }
  else t

def cluWrite (s : State) (own : Option Nat) (p o v : Nat) : State :=
  let c := s.clu p
  if 0x140 ≤ o && o < 0x14C then s.setClu p { c with ve := arithWrite c.ve (o - 0x140) v }
  else if o == 0x180 then actWaBase s p v
  else if o == 0x184 then s.setClu p { c with win := winW1c c.win v }
  else if o == 0x1C0 then (if v.testBit 0 then actSuspend s p else s)
  else if o == 0x200 then (if v.testBit 0 then actTeAbort s p else s)
  else if 0x300 ≤ o && o < 0x36C then
    if own == some p then s.setClu p { c with seq := seqWrite c.seq o v } else s
  else s.setClu p { c with te := teWrite c.te o v }

/-! ## The whole space -/

/-- A write of one word that every check lets through; `own` is the cluster whose sequencer writes. -/
def regWriteWord (s : State) (m : Nat) (own : Option Nat) (off v : Nat) : State :=
  match regTarget off with
  | some 1 => bootWrite s (off - 0x1000) v
  | some 2 => hifWrite s (off - 0x10000) v
  | some 3 => pwrWrite s (off - 0x100000) v
  | some 4 => secWrite s m off v
  | some 5 => chkWrite s m off v
  | some 6 => fabWrite s m (off - 0x400000) v
  | some 7 => memWrite s m off v
  | some 8 => seWrite s ((off - 0xA00000) / 0x10000) (off % 0x10000) v
  | some 9 => if off - 0xC00000 < 320 * 0x400 then crrWrite s m ((off - 0xC00000) / 0x400) (off % 0x400) v else s
  | some t =>
    if 12 ≤ t && t < 20 then tilWrite s m (t - 12) (off % 0x100000) v
    else if 20 ≤ t && t < 28 then cluWrite s own ((off - 0x2000000) / 0x1000) (off % 0x1000) v
    else s
  | none => s

/-- A write of one word: whether the tables refused it. -/
def regWrite (s : State) (m : Nat) (own : Option Nat) (off v : Nat) : State × Bool :=
  match regGate s m off true with
  | .ok => (regWriteWord s m own off v, false)
  | .early => (gateFail s .early m off true, false)
  | g => (gateFail s g m off true, true)

/-- Successive words in ascending order (00 R554). -/
def regWriteMany (s : State) (m : Nat) (own : Option Nat) (off : Nat) (l : List Nat) : State × Bool :=
  match l with
  | [] => (s, false)
  | v :: t =>
    let r := regWrite s m own off v
    if r.2 then r else regWriteMany r.1 m own (off + 4) t

/-- The words of a byte string. -/
def wordsOf (data : List Byte) : List Nat := (chunks 4 data).map natOfBytes

/-- An access to a span of register space: whole aligned words, or BUS_ERROR and no change (R554). -/
def regSpanWrite (s : State) (m : Nat) (own : Option Nat) (off : Nat) (data : List Byte) : State × Option Nat :=
  if s.boot.stage == 0 then (s, none)
  else if !regAligned off data.length then (s, some stBus)
  else
    let r := regWriteMany s m own off (wordsOf data)
    (r.1, if r.2 then some stDenied else none)

def regSpanRead (s : State) (m off len : Nat) : State × Rd :=
  if !regAligned off len then (s, .fail stBus)
  else match regReadMany (len / 4) s m off with
    | (s1, some l) => (s1, .ok l)
    | (s1, none) => (s1, .fail stDenied)

/-! ## The commands -/

/-- A write to register space by a master, through BAR0, the address map or the fabric. -/
def execRegisterWrite (m : Master) (off : Nat) (data : List Byte) (s : State) : Result :=
  .next (regSpanWrite s m.toNat none off data).1

/-- A read as its master sees it. -/
def answerRead (s : State) (m off : Nat) : State :=
  match regRead s m off with
  | (s1, some w) => s1.send (.readData m (regBase + off) (bytesOfNat 4 w.toNat))
  | (s1, none) => s1.send (.readFail m (regBase + off) stDenied)

/-- A read of a _LO register; of another offset it is the read of that word. -/
def execSplitLoRead (m : Master) (off : Nat) (s : State) : Result :=
  .next (if s.boot.stage == 0 then s
    else if off % 4 != 0 then s.send (.readFail m.toNat (regBase + off) stBus) else answerRead s m.toNat off)

/-- A read of HIF_RCPT0. -/
def execReceiptRead (m : Master) (s : State) : Result :=
  .next (if s.boot.stage == 0 then s else answerRead s m.toNat 0x10070)

/-- Whether a device address answers before S6 (18 R456, R457); the tiles are quiet too while a compute reset runs. -/
def addrEarly (s : State) (m : Nat) (write : Bool) (a : W64) : Bool :=
  let off := a.toNat - regBase
  m != 0 && s.boot.stage != 0 && s.boot.stage != 6 &&
  (if regBase ≤ a.toNat && off < 0x4000000 then !stageAnswers s off write else s.boot.stage != 7 || write)

/-- An access to what does not answer yet: a read returns all ones. -/
def execEarlyAccess (m : Master) (addr : W64) (write : Bool) (s : State) : Result :=
  .next (
    if !addrEarly s m.toNat write addr then s
    else
      let s1 := earlyAccess s m.toNat write addr.toNat
      if write then s1 else s1.send (.readData m.toNat addr.toNat [0xFF, 0xFF, 0xFF, 0xFF]))

end Sys2Proof.Machine
end

