-- ==== Sys2Proof/Machine/Move.lean ====
section
/-! DEFINITION. What couriers carry: MOVE, SIGNAL and the polls of a memory-word WAIT (spec/13 R334, R336 to R342). -/

namespace Sys2Proof.Machine

/-! ## The stream (R337, R338) -/

/-- The parts of one destination line by parcel: stream byte, address, bytes. -/
def lineParts (fuel b a n : Nat) : List (Nat × Nat × Nat) :=
  match fuel with
  | 0 => []
  | k + 1 =>
    if n == 0 then []
    else
      let m := min n (4096 - a % 4096)
      (b, a, m) :: lineParts k (b + m) ((a + m) % 2 ^ 64) (n - m)

/-- All parts of an execution's destination, in stream order. -/
def moveParts (d : MDesc) (lc : List Nat) : List (Nat × Nat × Nat) :=
  (List.range d.dcount).flatMap (fun l =>
    lineParts (d.dlen / 4096 + 2) (l * d.dlen) (unsignedOf 64 (d.dstBase lc + l * d.dstride)) d.dlen)

/-- The deliveries, in the order in which their first bytes stand in the stream: destination parcels (R339). -/
def deliveries (l : List (Nat × Nat × Nat)) : List Nat := (l.map (fun e => e.2.1 / 4096)).eraseDups

def partsIn (l : List (Nat × Nat × Nat)) (par : Nat) : List (Nat × Nat × Nat) := l.filter (fun e => e.2.1 / 4096 == par)

/-- Source and destination stream bytes of a part, in source order. -/
def partBytes (d : MDesc) (e : Nat × Nat × Nat) : List (Nat × Nat) :=
  let u := swapUnit d.swap
  let lo := e.1 - e.1 % u
  ((List.range (roundUp (e.1 + e.2.2 - lo) u)).map (fun j =>
      (lo + j, lo + j - j % u + swapPos d.swap (j % u)))).filter
    (fun x => decide (e.1 ≤ x.2 ∧ x.2 < e.1 + e.2.2))

/-- Address of a source stream byte. -/
def srcAddr (d : MDesc) (lc : List Nat) (b : Nat) : Nat :=
  unsignedOf 64 (d.srcBase lc + (b / d.slen : Nat) * d.sstride + (b % d.slen : Nat))

/-- Whether the source line of a stream byte covers whole aligned words, as an access to registers must (00 R554). -/
def lineWords (d : MDesc) (lc : List Nat) (b : Nat) : Bool := srcAddr d lc (b - b % d.slen) % 4 == 0 && d.slen % 4 == 0

/-! ## Source bytes -/

/-- The answer to a read of another module; with the reply the request is over. -/
def tookReply (r : Round) (x : State × List Nat × Rd) : State × Round × Rd :=
  match x with
  | (s, tags, .wait) => (s, { r with moveTags := tags }, .wait)
  | (s, tags, y) => (reqDrop s tags, { r with moveTags := [] }, y)

/-- The registers of tile resources fail a courier's access while a compute reset lasts (R345). -/
def regBusy (s : State) (off : Nat) : Bool := s.boot.computeReset && tileBlock off

/-- One register word in its place within a parcel's bytes. -/
def wordAt (a : Nat) (b : List Byte) : List Byte := zeroBytes (a % 4096 - a % 4) ++ b

/-- The chunk of a source line at an address: a device parcel, whose seal is checked at its first read within the
execution (R339), or a register word. -/
def moveParcel (s : State) (c : Nat) (r : Round) (words : Bool) (a : Nat) : State × Round × Rd :=
  let m := courierMaster s c
  match addrPlace s m none (BitVec.ofNat 64 a) false with
  | (s1, .mem k) =>
    let par := k - k % 4096
    let old := r.moveChecked.contains par
    match parcelGet s1 par (!old) (crrBy r.slot) with
    | (s2, .ok b) => (s2, if old then r else { r with moveChecked := par :: r.moveChecked }, .ok b)
    | (s2, x) => (s2, r, x)
  | (s1, .remote chip off) =>
    if offIsReg off then
      if !words then (s1, r, .fail stBus)
      else match tookReply r (remoteGet s1 r.moveTags m chip (off - off % 4) 4) with
        | (s2, r1, .ok b) => (s2, r1, .ok (wordAt a b))
        | x => x
    else tookReply r (remoteRead s1 r.moveTags m chip off)
  | (s1, .regs off) =>
    if !words then (s1, r, .fail stBus)
    else if regBusy s1 off then (s1, r, .fail stNotReady)
    else match regSpanRead s1 m (off - off % 4) 4 with
      | (s2, .ok b) => (s2, r, .ok (wordAt a b))
      | (s2, x) => (s2, r, x)
  | (s1, .bad st) => (s1, r, .fail st)

/-- Register space, here or at another chip. -/
def isRegAddr (a : Nat) : Bool := offIsReg (if a.testBit 63 then field a 0 47 else a)

/-- A byte of host memory from the host's answers; one no answer covers is still to come. -/
def hostByte (s : State) (host : List HostRead) (a : Nat) : Rd :=
  if !s.hif.linkUp then .fail stBus
  else match host.find? (fun e => match e.data with
      | some l => decide (e.addr.toNat ≤ a ∧ a < e.addr.toNat + l.length)
      | none => e.addr.toNat == a) with
    | some e => match e.data with
      | some l => .ok [l.getD (a - e.addr.toNat) 0]
      | none => .fail stBus
    | none => .wait

/-- How the bytes of a delivery came: the bytes by destination stream position, the status and address of the first
failure in stream order, or a wait. -/
inductive Got where
  | ok (l : KMap Byte)
  | fail (status addr : Nat)
  | wait
  deriving DecidableEq, Repr

/-- Address of the first stream byte, up to byte b, that lies in b's parcel, which a seal or an uncorrectable codeword
fails whole (R342). -/
def firstInParcel (d : MDesc) (lc : List Nat) (b : Nat) : Nat :=
  let par := srcAddr d lc b / 4096
  let start (l : Nat) : Nat := srcAddr d lc (l * d.slen)
  match (List.range (b / d.slen + 1)).find? (fun l => start l / 4096 ≤ par && par ≤ (start l + d.slen - 1) / 4096) with
  | some l => max (start l) (par * 4096)
  | none => srcAddr d lc b

/-- Reads source bytes in stream order, each chunk of a line once (R337). -/
def readSrc (s : State) (c : Nat) (r : Round) (d : MDesc) (host : List HostRead) (l : List (Nat × Nat))
    (acc : KMap Byte) : State × Round × Got :=
  match l with
  | [] => (s, r, .ok acc)
  | (b, p) :: t =>
    let lc := (s.courier c).lc
    let a := srcAddr d lc b
    if d.srcHost then
      match hostByte s host a with
      | .ok x => readSrc s c r d host t (kput acc p (x.getD 0 0))
      | .fail st => (s, r, .fail st a)
      | .wait => (s, r, .wait)
    else
      let key := b / d.slen * 2 ^ 66 + (if isRegAddr a then 2 ^ 64 + a / 4 else a / 4096)
      match kfind r.cache key with
      | some x => readSrc s c r d host t (kput acc p (x.getD (a % 4096) 0))
      | none =>
        match moveParcel s c r (lineWords d lc b) a with
        | (s1, r1, .ok x) =>
          readSrc s1 c { r1 with cache := kput r1.cache key x } d host t (kput acc p (x.getD (a % 4096) 0))
        | (s1, r1, .fail st) =>
          (s1, r1, .fail st (if st == stSeal || st == stUncorr then firstInParcel d lc b else a))
        | (s1, r1, .wait) => (s1, r1, .wait)

/-! ## Deliveries (R339, R340) -/

/-- Both of two answers: a wait, else the first failure. -/
def bothRd (x y : Rd) : Rd :=
  match x, y with
  | .wait, _ => .wait
  | _, .wait => .wait
  | .fail st, _ => .fail st
  | .ok _, z => z

/-- Writes of a delivery's runs to another module's registers. -/
def remotePuts (s : State) (m : Nat) (tags : List Nat) (l : List (Nat × Nat × List Byte)) : State × List Nat × Rd :=
  match l with
  | [] => (s, tags, .ok [])
  | (chip, off, b) :: t =>
    let w := remoteWrite s tags m chip off b
    let x := remotePuts w.1 m w.2.1 t
    (x.1, x.2.1, bothRd w.2.2 x.2.2)

/-- A delivery to another module's parcel: one write where it is one run or the whole parcel, else the old parcel is read
whole, and the merged one written (R339). -/
def remotePut (s : State) (m : Nat) (tags : List Nat) (chip par : Nat) (l : List (Nat × List Byte)) : State × List Nat × Rd :=
  match l with
  | [(o, b)] => remoteWrite s tags m chip (par + o) b
  | _ =>
    if (l.map (fun e => e.2.length)).sum == 4096 then remoteWrite s tags m chip par (layParts (zeroBytes 4096) l)
    else match remoteRead s tags m chip par with
      | (s1, tags1, .ok old) => remoteWrite s1 tags1 m chip par (layParts old l)
      | x => x

/-- Why the word of register space at an offset takes no write, if it takes none. -/
def wordRefused (s : State) (m off : Nat) : Option Nat :=
  if regBusy s off then some stNotReady
  else match regGate s m off true with
    | .denied => some stDenied
    | .cperDenied => some stDenied
    | _ => none

/-- The first word of a run of register space that takes no write: its place in the run, and why (00 R554). -/
def runRefused (s : State) (m off len : Nat) : Option (Nat × Nat) :=
  if !regAligned off len then some (0, stBus)
  else (List.range (len / 4)).findSome? (fun i => (wordRefused s m (off + 4 * i)).map (fun st => (4 * i, st)))

/-- The first run, by its offset and length, that holds such a word, with the word's offset. -/
def runsRefused (s : State) (m : Nat) (l : List (Nat × Nat)) : Option (Nat × Nat) :=
  l.findSome? (fun e => (runRefused s m e.1 e.2).map (fun x => (e.1 + x.1, x.2)))

/-- Writes of a delivery's runs to register space, in order; one that holds a failed access writes nothing (R342). -/
def regPuts (s : State) (m : Nat) (l : List (Nat × List Byte)) : State × Option Nat :=
  match runsRefused s m (l.map (fun e => (e.1, e.2.length))) with
  | some (off, st) => (if st == stDenied then gateFail s (regGate s m off true) m off true else s, some st)
  | none => (l.foldl (fun a e => (regSpanWrite a m none e.1 e.2).1) s, none)

/-- Address of the byte that fails a delivery: of the first word of register space refused, else of its first byte. -/
def putFault (s : State) (c : Nat) (l : List (Nat × List Byte)) : Nat :=
  let m := courierMaster s c
  let a := (l.map Prod.fst).headD 0
  match (writePlace s m none (BitVec.ofNat 64 a) true).2 with
  | .regs off =>
    let base := off - a % 4096
    match runsRefused s m (l.map (fun e => (base + e.1 % 4096, e.2.length))) with
    | some (o, _) => a - a % 4096 + (o - base)
    | none => a
  | _ => a

/-- A delivery to a device address, its runs as address and bytes in stream order. -/
def devicePut (s : State) (c : Nat) (r : Round) (l : List (Nat × List Byte)) : State × Round × Put :=
  let m := courierMaster s c
  let a := (l.map Prod.fst).headD 0
  let whole := (l.map (fun e => e.2.length)).sum == 4096
  match writePlace s m none (BitVec.ofNat 64 a) whole with
  | (s1, .mem k) =>
    let w := deliverParts s1 (.courier c) r.slot (k - k % 4096) (l.map (fun e => (e.1 % 4096, e.2))) (crrBy r.slot)
    (w.1, r, w.2)
  | (s1, .regs off) =>
    match regPuts s1 m (l.map (fun e => (off - a % 4096 + e.1 % 4096, e.2))) with
    | (s2, none) => (s2, r, .ok)
    | (s2, some st) => (s2, r, .fail st)
  | (s1, .remote chip off) =>
    let par := off - a % 4096
    let q := if offIsReg off then remotePuts s1 m r.moveTags (l.map (fun e => (chip, par + e.1 % 4096, e.2)))
             else remotePut s1 m r.moveTags chip par (l.map (fun e => (e.1 % 4096, e.2)))
    (q.1, { r with moveTags := q.2.1 }, match q.2.2 with | .ok _ => .ok | .fail st => .fail st | .wait => .wait)
  | (s1, .bad st) => (s1, r, .fail st)

/-- The posted writes of a run of bytes: no payload is longer than the function supports (16 R401). -/
def postedWrites (s : State) (e : Nat × List Byte) : List Sent :=
  let n := s.hif.fn.maxPayload
  (chunks n e.2).zipIdx.map (fun c => Sent.hostWrite (e.1 + c.2 * n) c.1)

/-- A delivery to host memory: its posted writes are issued (R340); with the link down it fails (16 R425). -/
def hostPut (s : State) (l : List (Nat × List Byte)) : State × Put :=
  if !s.hif.linkUp then (s, .fail stBus) else (s.sendAll (l.flatMap (postedWrites s)), .ok)

/-- Output units whose every byte belongs to a committed delivery, below the execution's end (R341). -/
def unitsWhole (out total : Nat) (left : List (Nat × Nat × Nat)) : Nat :=
  let n := (out + total) / 4096
  let hit := (left.flatMap (fun e =>
    (List.range ((out + e.1 + e.2.2 - 1) / 4096 - (out + e.1) / 4096 + 1)).map (fun i => (out + e.1) / 4096 + i))).eraseDups
  n - (hit.filter (fun u => u < n)).length

/-- Bytes of a delivery, and the committed units once it has committed. -/
def deliveryGain (r : Round) (d : MDesc) (parts mine : List (Nat × Nat × Nat)) (pars : List Nat) : Nat × Nat :=
  let left := parts.filter (fun e => (pars.drop (r.del + 1)).contains (e.2.1 / 4096))
  ((mine.map (fun e => e.2.2)).sum, unitsWhole r.out d.total left)

/-- A delivery has committed: the bytes, the count, and the execution's place. -/
def deliveryDone (s : State) (c : Nat) (r : Round) (d : MDesc) (parts mine : List (Nat × Nat × Nat)) (pars : List Nat) :
    State :=
  let g := deliveryGain r d parts mine pars
  let x := s.courier c
  let s1 := (reqDrop s r.moveTags).setCourier c { x with
    bytes := (x.bytes + g.1) % 2 ^ 64,
    round := some { r with del := r.del + 1, moveTags := [], cache := [], pend := none } }
  opCount s1 r.slot g.2

/-- What a delivery in flight will have gained; a round that stops with it has a whole last unit where it is the MOVE's
last. -/
def pendGain (r : Round) (d : MDesc) (parts mine : List (Nat × Nat × Nat)) (pars : List Nat) : Nat × Nat :=
  let g := deliveryGain r d parts mine pars
  (g.1, if r.del + 1 == pars.length then ceilDiv (r.out + d.total) 4096 else g.2)

/-- A delivery waits: with its writes sent to another module its commit has begun. -/
def putWaits (s : State) (c : Nat) (r : Round) (gain : Nat × Nat) : State :=
  let begun := s.net.reqs.any (fun q => r.moveTags.contains q.tag && q.write)
  setRound s c { r with pend := if begun then some gain else none }

/-- The next delivery of the MOVE: its source bytes, then its commit. -/
def moveOne (s : State) (c : Nat) (r : Round) (d : MDesc) (host : List HostRead) (parts : List (Nat × Nat × Nat))
    (pars : List Nat) (par : Nat) : State :=
  let mine := partsIn parts par
  let first := (mine.map Prod.fst).headD 0
  match readSrc s c r d host (mine.flatMap (partBytes d)) [] with
  | (s1, r1, .wait) => setRound s1 c r1
  | (s1, r1, .fail st a) => roundFault s1 c r1 st false a first
  | (s1, r1, .ok m) =>
    let l := mine.map (fun e => (e.2.1, (List.range e.2.2).map (fun j => kget 0 m (e.1 + j))))
    let w := if d.dstHost then (let h := hostPut s1 l; (h.1, r1, h.2)) else devicePut s1 c r1 l
    match w with
    | (s2, r2, .ok) => deliveryDone s2 c r2 d parts mine pars
    | (s2, r2, .wait) => putWaits s2 c r2 (pendGain r2 d parts mine pars)
    | (s2, r2, .fail st) =>
      roundFault s2 c r2 st true (if d.dstHost then (l.map Prod.fst).headD 0 else putFault s1 c l) first
    | (s2, r2, .double o) =>
      failRound (setRound s2 c r2) c stDouble (detail2 (opIdOf s2 o) ((r2.out + first) / 4096))

/-- The MOVE ends: its bytes enter the output, its locks end, and the next instruction follows. -/
def moveEnd (s : State) (c : Nat) (r : Round) (d : MDesc) : State :=
  let s1 := setRound (reqDrop s r.moveTags) c
    { r with out := r.out + d.total, del := 0, moveChecked := [], moveTags := [], cache := [], pend := none }
  stepPc s1 c 64

/-- The MOVE in progress goes on by one delivery. -/
def moveStep (s : State) (c : Nat) (host : List HostRead) : State :=
  onIns s c 1 (fun s1 r b =>
    let d := mdescOf b
    let parts := moveParts d (s1.courier c).lc
    let pars := deliveries parts
    match pars[r.del]? with
    | some par =>
      let s2 := moveOne s1 c r d host parts pars par
      match (s2.courier c).round with
      | some r2 => if r2.del == pars.length && r2.fault.isNone then moveEnd s2 c r2 d else s2
      | none => s2
    | none => moveEnd s1 c r d)

/-- MOVE: `k` deliveries of it, at most to its end; `host` holds what host memory answers. -/
def moveRun (k : Nat) (s : State) (c : Nat) (host : List HostRead) : State :=
  match k with
  | 0 => s
  | n + 1 =>
    let s1 := moveStep s c host
    if (s1.courier c).pc != (s.courier c).pc then s1 else moveRun n s1 c host

/-- MOVE: its next deliveries; a courier that is stopping only awaits the one in flight. -/
def execMove (c : CourierNo) (k : Nat) (host : List HostRead) (s : State) : Result :=
  .next (if (s.courier c).phase = .stopping then stopStep s c else moveRun k s c host)

/-! ## SIGNAL (R336) -/

/-- After SIGNAL's write: END ends the round DONE. -/
def signalEnd (s : State) (c : Nat) (b : List Byte) : State :=
  if (leAt b 1 1).testBit 0 then doneRound s c else stepPc s c 32

/-- Drops the tags of SIGNAL's write. -/
def signalOk (s : State) (c : Nat) (r : Round) (b : List Byte) : State :=
  signalEnd (setRound (reqDrop s r.moveTags) c { r with moveTags := [], pend := none }) c b

def signal (s : State) (c : Nat) (r : Round) (b : List Byte) : State :=
  let a := leAt b 8 8
  let data := bytesAt b 16 8
  if !(leAt b 1 1).testBit 1 then signalEnd s c b
  else
    let w := if (leAt b 1 1).testBit 2 then (let h := hostPut s [(a, data)]; (h.1, r, h.2))
      else devicePut s c r [(a, data)]
    match w with
    | (s1, r1, .ok) => signalOk s1 c r1 b
    | (s1, r1, .wait) => putWaits s1 c r1 (0, 0)
    | (s1, r1, .fail st) => roundFault s1 c r1 st true a 0
    | (s1, r1, .double o) =>
      let f := s1.takeFree
      failRound (setRound f.2 c r1) c stDouble (detail2 (opIdOf s1 o) (f.1.toNat % 2 ^ 32))

def execSignal (c : CourierNo) (s : State) : Result :=
  .next (if (s.courier c).phase = .stopping then stopStep s c else onIns s c 4 (fun s1 r b => signal s1 c r b))

/-! ## WAIT on a memory word (R334) -/

/-- The word's bytes: its parcel is read and its seal checked at every poll. -/
def pollWord (s : State) (c : Nat) (r : Round) (a : Nat) : State × Round × Rd :=
  let m := courierMaster s c
  match addrPlace s m none (BitVec.ofNat 64 a) false with
  | (s1, .mem k) => match parcelRead s1 (k - k % 4096) (crrBy r.slot) with
    | (s2, .ok d) => (s2, r, .ok (bytesAt d (k % 4096) 8))
    | (s2, x) => (s2, r, x)
  | (s1, .regs off) =>
    if regBusy s1 off || regBusy s1 (off + 4) then (s1, r, .fail stNotReady)
    else (let w := regSpanRead s1 m off 8; (w.1, r, w.2))
  | (s1, .remote chip off) =>
    let q := remoteGet s1 r.moveTags m chip off 8
    (q.1, { r with moveTags := q.2.1 }, q.2.2)
  | (s1, .bad st) => (s1, r, .fail st)

/-- Whether a poll is due: 500 ns after the last, or while its remote read is on its way. -/
def pollDue (s : State) (r : Round) : Bool :=
  !r.moveTags.isEmpty || (match r.lastPoll with | some t => decide (t + 500 ≤ s.now) | none => true)

def pollStep (s : State) (c : Nat) (r : Round) (b : List Byte) : State :=
  let done (s : State) (r : Round) (met : Bool) : State :=
    setRound (reqDrop s r.moveTags) c { r with moveTags := [], lastPoll := some s.now, met := met }
  if waitKind b != 1 || r.met || !pollDue s r then s
  else match pollWord s c r (waitArg b) with
    | (s1, r1, .wait) => setRound s1 c r1
    | (s1, r1, .fail st) =>
      let s2 := done s1 r1 false
      roundFault s2 c (((s2.courier c).round).getD r1) st false (waitArg b) 0
    | (s1, r1, .ok d) =>
      done s1 r1 (decide (leAt b 16 8 ≤ natOfBytes d) && (waitTimeout b == 0 || decide (s1.now < waitTimeout b)))

def execWaitPoll (c : CourierNo) (s : State) : Result := .next (onWait s c (fun s1 r b => pollStep s1 c r b))

end Sys2Proof.Machine
end

