-- ==== Sys2Proof/Machine/Packet.lean ====
section
/-! DEFINITION. Job packets at their destination, replies at their requester, packets passing through (spec/14 R356 to
R361, R369, R372, R376), accesses through BAR2 (spec/16 R404 to R406), and IDE_KM (R403). -/

namespace Sys2Proof.Machine

/-! ## Requests at their destination (R358, R359) -/

/-- The master ID of remote fabric. -/
def fabMaster : Nat := 3
def fabBy : By := ⟨11, none⟩

/-- Whether a packet's DST is handled here: a number forwarded to a spare is not (R375, R377). -/
def dstHere (s : State) (dst : Nat) : Bool := chipIsHere s dst && (fwdTarget s dst == dst || fwdTarget s dst == s.fab.chip)

/-- A packet dropped where it is found: a reserved KIND, or a reserved header field that is not zero (R356). -/
def packetBad (p : Packet) : Bool := p.h.rsv || p.h.kind == 0 || 5 < p.h.kind.toNat

/-- The register target's permission for remote fabric. -/
def fabRegPlace (s : State) (off : Nat) (write : Bool) : State × Option Nat :=
  if cperGuard fabMaster off write then (gateFail s .cperDenied fabMaster off write, some stDenied)
  else match regTarget off with
    | some t =>
      if tabAllows s.access t fabMaster write then (s, none) else (gateFail s .denied fabMaster off write, some stDenied)
    | none => (s, none)

/-- The checks of R359 in their order, but those of the parcel's own contents: the place, or the status of the NACK. -/
def fabCheck (s : State) (h : Header) (write whole : Bool) : State × Except Nat Place3 :=
  let off := h.addr.toNat
  let late : Bool := s.boot.stage != 6 || s.boot.computeReset
  if h.imgTag.toNat != imgTag s then (s, .error stDenied)
  else
    let r := if 2 ^ 47 ≤ off then (s, Place3.bad stBus)
      else if write && !whole then (match localPlace s fabMaster none off true with
        | (s1, .mem _) => localPlace s1 fabMaster none off false
        | x => x)
      else localPlace s fabMaster none off write
    match r with
    | (s1, .bad st) => (s1, .error st)
    | (s1, .regs o) =>
      match fabRegPlace s1 o write with
      | (s2, some st) => (s2, .error st)
      | (s2, none) => (s2, if late then .error stNotReady else .ok (.regs o))
    | (s1, .mem k) =>
      match (if keyIsHbm k then hbmRefuses s1 k write else none) with
      | some st => (s1, .error (if st == stBus then st else stNotReady))
      | none => (s1, if late then .error stNotReady else .ok (.mem k))
    | (s1, .remote _ _) => (s1, .error stBus)

/-- A parcel and its stored seal, for a reader elsewhere who checks it (R358). -/
def parcelRaw (s : State) (k : Nat) : State × Except Nat (List Byte × Nat) :=
  if keyIsHbm k then
    let sq := stackOf s k
    match meetLost s sq.1 sq.2 true with
    | some s1 => (s1, .error stUncorr)
    | none =>
      let m := meetStored s sq.1 sq.2 true
      if m.2.2.2 then (m.1, .error stUncorr)
      else (m.1, .ok (applyResidual (memBytes s k 4096) m.2.1, storedSeal s k ^^^ m.2.2.1))
  else (s, .ok (memBytes s k 4096, storedSeal s k))

/-- Sends a reply to a request's source; an alias answers under its own number (R376). -/
def replyTo (s : State) (q : Header) (kind status : Nat) (data : List Byte) (check : Nat) : State :=
  let h := { headerBlank with
    kind := BitVec.ofNat 8 kind, status := BitVec.ofNat 8 status, dst := q.src, src := q.dst, addr := q.addr,
    tag := q.tag, length := BitVec.ofNat 16 data.length, orig := q.orig, check := BitVec.ofNat 32 check,
    imgTag := BitVec.ofNat 32 (imgTag s) }
  match routePacket s { h := h, data := data } with
  | some r => portSend s r.1 r.2 none
  | none => dropPacket s

def nackTo (s : State) (q : Header) (status : Nat) : State := replyTo s q 5 status [] 0

/-- READ: the whole parcel with its seal, or 4 or 8 bytes of register space. -/
def serveRead (s : State) (p : Packet) : State :=
  match fabCheck s p.h false true with
  | (s1, .error st) => nackTo s1 p.h st
  | (s1, .ok (.mem k)) =>
    match parcelRaw s1 (k - k % 4096) with
    | (s2, .error st) => nackTo s2 p.h st
    | (s2, .ok (d, c)) => replyTo s2 p.h 2 0 d c
  | (s1, .ok (.regs off)) =>
    let n := p.h.length.toNat
    if n != 4 && n != 8 then nackTo s1 p.h stBus
    else match regSpanRead s1 fabMaster off n with
      | (s2, .ok d) => replyTo s2 p.h 2 0 d 0
      | (s2, .fail st) => nackTo s2 p.h st
      | (s2, .wait) => nackTo s2 p.h stNotReady
  | (s1, .ok _) => nackTo s1 p.h stBus

/-- A WRITE's CHECK: the seal of a whole parcel under this module's home address, else a CRC over ADDR and data. -/
def checkOk (s : State) (p : Packet) (k : Nat) : Bool :=
  if p.data.length == 4096 then sealOf (homeOf s k) p.data == p.h.check.toNat
  else crc32c (bytesOfNat 8 p.h.addr.toNat ++ p.data) == p.h.check.toNat

/-- WRITE to a parcel whose checks are met: the seal, then the commit. -/
def commitWrite (s : State) (p : Packet) (k : Nat) : State :=
  if !checkOk s p (k - k % 4096) then
    nackTo (sealEvent s fabBy k (locCluster 0) (homeOf s (k - k % 4096))) p.h stSeal
  else match parcelMerge s (k - k % 4096) (k % 4096) p.data fabBy with
    | (s1, none) => replyTo s1 p.h 4 0 [] 0
    | (s1, some st) => nackTo s1 p.h st

/-- WRITE; one to a read-locked parcel waits (05 R138), and keeps its buffers at the port until it is answered. -/
def serveWrite (s : State) (p : Packet) : State :=
  let n := p.data.length
  let off := p.h.addr.toNat
  if 4096 < off % 4096 + n then consumed (nackTo s p.h (if p.h.imgTag.toNat != imgTag s then stDenied else stBus)) p
  else match fabCheck s p.h true (n == 4096) with
    | (s1, .error st) => consumed (nackTo s1 p.h st) p
    | (s1, .ok (.mem k)) =>
      if readLocked s1 .other k then { s1 with net := { s1.net with held := s1.net.held ++ [p] } }
      else consumed (commitWrite s1 p k) p
    | (s1, .ok (.regs o)) =>
      match regSpanWrite s1 fabMaster none o p.data with
      | (s2, none) => consumed (replyTo s2 p.h 4 0 [] 0) p
      | (s2, some st) => consumed (nackTo s2 p.h st) p
    | (s1, .ok _) => consumed (nackTo s1 p.h stBus) p

/-- Tries the WRITEs that waited for a lock again, oldest first. -/
def retryHeld (s : State) : State :=
  s.net.held.foldl serveWrite { s with net := { s.net with held := [] } }

/-- A job packet of this row's kind for this module arrives: the link layer takes it or discards it, one that is bad is
dropped and counted, and any other is acted on. -/
def arrive (s : State) (p : Packet) (mine : Bool) (act : State → State) : State :=
  if !packetBad p && !mine then s
  else match linkTake s p with
    | (s1, false) => s1
    | (s1, true) => if packetBad p then consumed (dropPacket s1) p else act s1

def execRead (pkt : Packet) (s : State) : Result :=
  .next (arrive s pkt (pkt.h.kind == 1 && dstHere s pkt.h.dst.toNat) (fun s => consumed (serveRead s pkt) pkt))

def execWrite (pkt : Packet) (s : State) : Result :=
  .next (arrive s pkt (pkt.h.kind == 3 && dstHere s pkt.h.dst.toNat) (fun s => serveWrite (retryHeld s) pkt))

/-! ## Replies at their requester (R358, R360, R361) -/

def reqOpen (s : State) (tag : Nat) : Option Req := s.net.reqs.find? (fun r => r.tag == tag && r.reply.isNone)

/-- A reply to no outstanding request: discarded and counted. -/
def lateReply (s : State) (tag : Nat) : State :=
  { s with fab := { s.fab with lateReplies := inc32 s.fab.lateReplies },
           net := { s.net with retiredTags := s.net.retiredTags.erase tag } }

/-- A reply at its requester. -/
def takeReply (s : State) (p : Packet) (kind : Nat) (act : State → Req → State) : State :=
  arrive s p (p.h.kind.toNat == kind && dstHere s p.h.dst.toNat) (fun s =>
    consumed (match reqOpen s p.h.tag.toNat with
      | some r => act s r
      | none => lateReply s p.h.tag.toNat) p)

/-- READ_DATA: the requester checks the parcel's seal against its local offset at DST. -/
def execReadData (pkt : Packet) (s : State) : Result :=
  .next (takeReply s pkt 2 (fun s r =>
    if !r.reg && sealOf r.addr pkt.data != pkt.h.check.toNat then
      reqReply (sealEvent s fabBy r.addr 0 r.addr) r.tag stSeal []
    else reqReply s r.tag 0 pkt.data))

def execWriteAck (pkt : Packet) (s : State) : Result := .next (takeReply s pkt 4 (fun s r => reqReply s r.tag 0 []))

def execNack (pkt : Packet) (s : State) : Result :=
  .next (takeReply s pkt 5 (fun s r => reqReply s r.tag pkt.h.status.toNat []))

/-- A request without a reply within FAB_REQ_TIMEOUT: LINK_LOST, and its tag is retired (R360). -/
def execRemoteRequestTimeout (tag : Nat) (s : State) : Result :=
  .next (
    match reqOpen s tag with
    | some r =>
      if s.now < r.sent + s.fab.reqTimeout * 1000 then s
      else
        let t := reqReply s tag stLink []
        { t with net := { t.net with retiredTags := tag :: t.net.retiredTags } }
    | none => s)

/-! ## Packets passing through (R372) -/

/-- A packet is routed on: TTL and ROUTE change; a drop is counted and NACKed to a request's source. -/
def forwardPacket (s : State) (p : Packet) : State :=
  let ttl := p.h.ttl.toNat - 1
  let lost := consumed (nackSource (dropPacket s) p stLink) p
  if ttl == 0 then lost
  else match routePacket s { p with h := { p.h with ttl := BitVec.ofNat 8 ttl } } with
    | some r => portSend s r.1 r.2 (srcOf p)
    | none => lost

def execPacketForward (inPort : Option PortNo) (pkt : Packet) (s : State) : Result :=
  .next (
    if inPort.any (fun n => !portUsable s n) then s
    else arrive s pkt (!dstHere s pkt.h.dst.toNat) (fun s => forwardPacket s pkt))

/-! ## BAR2 (16 R404 to R406) -/

def hostMaster : Nat := 2
def hostBy : By := ⟨12, none⟩

/-- The parts of an access by parcel: device address, and the bytes' place in the access. -/
def apParts (a n : Nat) : List (Nat × Nat × Nat) :=
  let k := 4096 - a % 4096
  if n ≤ k then [(a % 2 ^ 64, 0, n)] else [(a % 2 ^ 64, 0, k), ((a + k) % 2 ^ 64, k, n - k)]

/-- A failed access: recorded; a read completes with a failure, a write is dropped whole. -/
def apFault (s : State) (a : Nat) (write : Bool) (status : Nat) : State :=
  let h := { s.hif with apFaultValid := true, apFaultDir := write, apFaultCause := status, apFaultAddr := BitVec.ofNat 64 a }
  let s1 := { s with hif := h }
  if write then s1 else s1.send (.readFail hostMaster a status)

/-- One part of a read. -/
def apReadPart (s : State) (tags : List Nat) (e : Nat × Nat × Nat) : State × List Nat × Rd :=
  match addrPlace s hostMaster none (BitVec.ofNat 64 e.1) false with
  | (s1, .mem k) => match parcelRead s1 (k - k % 4096) hostBy with
    | (s2, .ok d) => (s2, tags, .ok (bytesAt d (k % 4096) e.2.2))
    | (s2, x) => (s2, tags, x)
  | (s1, .regs off) => let r := regSpanRead s1 hostMaster off e.2.2; (r.1, tags, r.2)
  | (s1, .remote c o) => remoteGet s1 tags hostMaster c o e.2.2
  | (s1, .bad st) => (s1, tags, .fail st)

/-- The parts of a read, in order; remote ones are asked for before any other part is read. -/
def apRead (s : State) (tags : List Nat) (l : List (Nat × Nat × Nat)) : State × List Nat × Rd :=
  match l with
  | [] => (s, tags, .ok [])
  | e :: t =>
    match apReadPart s tags e with
    | (s1, tags1, .ok d) => match apRead s1 tags1 t with
      | (s2, tags2, .ok x) => (s2, tags2, .ok (d ++ x))
      | x => x
    | x => x

/-- One part of a write, met but not committed: the parcel's new bytes, or what is left to do. -/
inductive ApPut where
  | parcel (key : Nat) (data : List Byte)
  | regs (off : Nat) (data : List Byte)
  | sent
  deriving DecidableEq, Repr

def apWritePart (s : State) (tags : List Nat) (data : List Byte) (e : Nat × Nat × Nat) :
    State × List Nat × Except (Option Nat) ApPut :=
  let b := bytesAt data e.2.1 e.2.2
  match writePlace s hostMaster none (BitVec.ofNat 64 e.1) (e.2.2 == 4096) with
  | (s1, .mem k) =>
    let par := k - k % 4096
    if readLocked s1 .other k then (s1, tags, .error none)
    else match (if keyIsHbm par then hbmRefuses s1 par true else none) with
      | some st => (s1, tags, .error (some st))
      | none =>
        if e.2.2 == 4096 then (s1, tags, .ok (.parcel par b))
        else match parcelRead s1 par hostBy with
          | (s2, .ok old) => (s2, tags, .ok (.parcel par (overlay old (k % 4096) b)))
          | (s2, .fail st) => (s2, tags, .error (some st))
          | (s2, .wait) => (s2, tags, .error none)
  | (s1, .regs off) =>
    if regAligned off b.length then (s1, tags, .ok (.regs off b)) else (s1, tags, .error (some stBus))
  | (s1, .remote c o) =>
    match remoteWrite s1 tags hostMaster c o b with
    | (s2, t, .ok _) => (s2, t, .ok .sent)
    | (s2, t, .fail st) => (s2, t, .error (some st))
    | (s2, t, .wait) => (s2, t, .error none)
  | (s1, .bad st) => (s1, tags, .error (some st))

def apWrite (s : State) (tags : List Nat) (data : List Byte) (l : List (Nat × Nat × Nat)) :
    State × List Nat × Except (Option Nat) (List ApPut) :=
  match l with
  | [] => (s, tags, .ok [])
  | e :: t =>
    match apWritePart s tags data e with
    | (s1, tags1, .ok p) => match apWrite s1 tags1 data t with
      | (s2, tags2, .ok x) => (s2, tags2, .ok (p :: x))
      | x => x
    | (s1, tags1, .error e) => (s1, tags1, .error e)

/-- Commits the parts of a write that met no failure. -/
def apCommit (s : State) (a : Nat) (l : List ApPut) : State :=
  l.foldl (fun s p => match p with
    | .parcel k d => (parcelWrite s k d).1
    | .regs off d => match regSpanWrite s hostMaster none off d with
      | (s1, none) => s1
      | (s1, some st) => apFault s1 a true st
    | .sent => s) s

/-- Serves one TLP: done, or still waiting with its tags. -/
def apServe (s : State) (t : ApTlp) : State × Option ApTlp :=
  let a := (s.hif.apActive.toNat + t.off) % 2 ^ 64
  let write := !t.data.isEmpty
  if addrEarly s hostMaster write (BitVec.ofNat 64 a) then
    let s1 := earlyAccess s hostMaster write a
    (if write then s1 else s1.send (.readData hostMaster a (List.replicate t.len 0xFF)), none)
  else if write then
    match apWrite s t.tags t.data (apParts a t.len) with
    | (s1, tags, .ok l) => (apCommit (reqDrop s1 tags) a l, none)
    | (s1, tags, .error none) => (s1, some { t with tags := tags })
    | (s1, tags, .error (some st)) => (apFault (reqDrop s1 tags) a true st, none)
  else
    match apRead s t.tags (apParts a t.len) with
    | (s1, tags, .ok d) => ((reqDrop s1 tags).send (.readData hostMaster a d), none)
    | (s1, tags, .fail st) => (apFault (reqDrop s1 tags) a false st, none)
    | (s1, tags, .wait) => (s1, some { t with tags := tags })

/-- Serves the waiting TLPs in order, up to one that waits on. -/
def apDrain (l : List ApTlp) (s : State) : State :=
  match l with
  | [] => { s with ring := { s.ring with waiting := [] } }
  | t :: rest =>
    match apServe s t with
    | (s1, none) => apDrain rest s1
    | (s1, some t1) => { s1 with ring := { s1.ring with waiting := t1 :: rest } }

/-- A TLP arrives behind those that wait. -/
def apTake (s : State) (t : ApTlp) : State :=
  if !s.hif.linkUp || s.boot.stage == 0 then s else apDrain (s.ring.waiting ++ [t]) s

def execApertureRead (off : Nat) (len : Nat) (s : State) : Result := .next (apTake s { off := off, len := len })
def execApertureWrite (off : Nat) (data : List Byte) (s : State) : Result :=
  .next (if data.isEmpty then s else apTake s { off := off, len := data.length, data := data })

/-! ## IDE (16 R403) -/

/-- An IDE_KM exchange ends: whether the link stream, and a selective stream, is secure. -/
def execIdeKm (link : Option Bool) (sel : Option Bool) (s : State) : Result :=
  .next (
    if !s.hif.linkUp || s.boot.stage < 2 then s
    else { s with hif := { s.hif with ideLink := link.getD s.hif.ideLink, ideSel := sel.getD s.hif.ideSel } })

/-! ## What waits -/

/-- Fabric writes and BAR2 accesses that waited are tried again. -/
def retryWaiting (s : State) : State :=
  let s1 := if s.net.held.isEmpty then s else retryHeld s
  if s1.ring.waiting.isEmpty then s1 else apDrain s1.ring.waiting s1

end Sys2Proof.Machine
end

