-- ==== Sys2Proof/Machine/RedOps.lean ====
section
/-! DEFINITION. Vector reductions and the window accumulator's instructions on registers (spec/06 R169 to R174;
spec/04 R105 to R126). -/

namespace Sys2Proof.Machine

/-! ## Records in registers (R169, R170) -/

/-- Bytes [off + 63 : off] of a vector register. -/
def regBytes (v : VReg) (off : Nat) : List Byte := bytesOfNat 64 (v.toNat / 2 ^ (8 * off))

def putRegBytes (v : VReg) (off : Nat) (l : List Byte) : VReg :=
  BitVec.ofNat 4096 (putField v.toNat (8 * off) (8 * l.length) (natOfBytes l))

/-- The row of 04 R103 that a record's format and accumulator name. -/
def recRow (r : RedRec) : RedRow :=
  let f := fmtOr r.fmt
  if accCode (redRow f false).acc == r.accF then redRow f false else redRow f true

/-- Whether a record's structure is one this instruction may take up (R170, 04 R112). -/
def recOk (r : RedRec) (kind : Nat) : Bool :=
  let f := fmtOr r.fmt
  r.kind == kind && r.fmt < 12 && r.fmt != 10 &&
  (accCode (redRow f false).acc == r.accF || accCode (redRow f true).acc == r.accF) &&
  (r.next % (recRow r).g == 0 || r.next == r.len) &&
  (kind != 1 || r.next % 4096 == 0 || r.next == r.len)

def recDetail (r : RedRec) : Nat := detail2 r.element r.next

/-- A record of a register, checked; the error is the status and detail that end the program. -/
def takeRec (l : List Byte) (kind : Nat) : Except (Nat × Nat) RedRec :=
  let r := redOfBytes l
  if !redCheckOk l then .error (stSeal, recDetail r)
  else if !recOk r kind then .error (stStruct, recDetail r) else .ok r

/-- An instruction that may end the program by the state of its operands. -/
def checkedOp (s : State) (p : PClu) (word : Nat) (act : Seq → Except (Nat × Nat) (Seq × Tally)) : Result :=
  .next (issue s p wholeWord word (fun g s1 =>
    match act (s1.seq p) with
    | .error e => endProgram s1 p e.1 e.2
    | .ok r => retire (vecPost (s1.setSeq p r.1) p g.slot r.2) p))

/-- A fresh prefix record of the operands of REDINIT and MVINIT. -/
def initRec (q : Seq) (r : VRegs) (wide : Bool) : RedRec :=
  let i := (q.s r.vs2.toNat).toNat
  redFresh q.fmt wide (q.s r.vs1.toNat).toNat (i % 2 ^ 32) (i / 2 ^ 32)

def execRedinit (p : PClu) (a : VRed) (s : State) : Result :=
  .next (vecOp s p (encRed 0 a) (fun q =>
    (q.setV a.r.vd.toNat (putRegBytes 0 0 (redBytes (initRec q a.r a.low))), {})))

/-- Terms of a REDACC over the ACT elements; a masked-off element is +0. -/
def redTerms (q : Seq) (a : VRed) (f : Val → Val → Val × Bool) : List Term :=
  (List.range q.act).map (fun i =>
    if activeAt q a.r i then
      f (decodeVal q.fmt (elemAt q.fmt (q.v a.r.vs1.toNat) i)) (decodeVal q.fmt (elemAt q.fmt (q.v a.r.vs2.toNat) i))
    else (valZero, false))

/-- Whether ACT terms may be taken up: within LENGTH, whole groups or the last ones (R170). -/
def redTakes (q : Seq) (r : RedRec) : Bool :=
  r.next + q.act ≤ r.len && (q.act % (recRow r).g == 0 || r.next + q.act == r.len)

/-- REDACC: advances the record in vd by the terms of the data registers. It alone compares the record's format with EFMT
(R170). -/
def redAcc (s : State) (p : PClu) (op : Nat) (a : VRed) (wideOnly : Bool) (f : Val → Val → Val × Bool) : Result :=
  checkedOp s p (encRed op a) (fun q =>
    if q.act == 0 then .ok (q, {})
    else match takeRec (regBytes (q.v a.r.vd.toNat) 0) 0 with
      | .error e => .error e
      | .ok r =>
        if !redTakes q r || r.fmt != q.efmt || (wideOnly && r.accF == 0) then .error (stStruct, recDetail r)
        else
          let n := redAdvance (recRow r) q.satWide r (redTerms q a f)
          .ok (q.setV a.r.vd.toNat (putRegBytes (q.v a.r.vd.toNat) 0 (redBytes n)), {}))

/-- A plain term; consuming a signalling NaN raises INVALID. -/
def termOf (x : Val) : Term := (x, valIsSig x)

def execRedaccSum (p : PClu) (a : VRed) (s : State) : Result := redAcc s p 1 a false (fun x _ => termOf x)
def execRedaccSumsq (p : PClu) (a : VRed) (s : State) : Result := redAcc s p 2 a true (fun x _ => valMul x x)
def execRedaccDot (p : PClu) (a : VRed) (s : State) : Result := redAcc s p 3 a false valMul

/-- REDFIN: the finished record of vs1, rounded once into FMT_D; a pair only from the pair row (04 R108). The spec gives no
status for a pair from another row: it ends as R162's illegal words do (DESIGN CHOICE, log 100). -/
def execRedfin (p : PClu) (a : VRed) (s : State) : Result :=
  checkedOp s p (encRed 4 a) (fun q =>
    match takeRec (regBytes (q.v a.r.vs1.toNat) 0) 0 with
    | .error e => .error e
    | .ok r =>
      let d := fmtOr a.fmtD.toNat
      if r.next != r.len then .error (stStruct, recDetail r)
      else if d = .pair ∧ (recRow r).spill ≠ .pair then .error (stStruct, detail2 0xFFFFFF0A q.pc)
      else
        let x := redFinish (recRow r) d .rne q.satWide r
        .ok (q.setV a.r.vd.toNat (setElem d (q.v a.r.vd.toNat) 0 x.bits), resTally x))

/-- First index of the run whose record ends at `next`. -/
def runStart (next : Nat) : Nat := (next - 1) / 4096 * 4096

/-- Folds the run record in vs1 into the prefix record in vd (04 R110). 04 R112 names no refusal of a run record with
ACC_VALID clear or NEXT 0: it is refused like one of another structure (DESIGN CHOICE, log 100). -/
def execRedfold (p : PClu) (a : VRed) (s : State) : Result :=
  checkedOp s p (encRed 5 a) (fun q =>
    if q.act == 0 then .ok (q, {})
    else match takeRec (regBytes (q.v a.r.vd.toNat) 0) 0, takeRec (regBytes (q.v a.r.vs1.toNat) 0) 1 with
      | .error e, _ => .error e
      | _, .error e => .error e
      | .ok r, .ok t =>
        if r.fmt != t.fmt || r.accF != t.accF || r.len != t.len || r.opId != t.opId || r.element != t.element ||
            r.accValid || !t.accValid || t.next == 0 || r.next != runStart t.next then .error (stStruct, recDetail t)
        else
          let n := redFoldAcc (recRow r) q.satWide
            { r with next := t.next, satSeen := r.satSeen || t.satSeen, fl := flagsOr r.fl t.fl } t.accHi t.accLo
          .ok (q.setV a.r.vd.toNat (putRegBytes (q.v a.r.vd.toNat) 0 (redBytes n)), {}))

/-- REDMAX, REDMIN, REDAMAX: exact but for an i8 absolute maximum of 128 (R171). -/
def redExtreme (s : State) (p : PClu) (op : Nat) (a : VRed) (f : Val → Val → Val) : Result :=
  .next (vecOp s p (encRed op a) (fun q =>
    if q.act == 0 then (q, {})
    else
      let e := q.fmt
      let x0 := decodeVal e (elemAt e (q.v a.r.vd.toNat) 0)
      let xs := (activeList q a.r).map (fun i => decodeVal e (elemAt e (q.v a.r.vs1.toNat) i))
      let r := resInv (roundAny e .rne q.satWide (xs.foldl f (f x0 x0))) ((x0 :: xs).any valIsSig)
      (q.setV a.r.vd.toNat (setElem e (q.v a.r.vd.toNat) 0 r.bits), resTally r)))

def execRedmax (p : PClu) (a : VRed) (s : State) : Result := redExtreme s p 6 a valMax
def execRedmin (p : PClu) (a : VRed) (s : State) : Result := redExtreme s p 7 a valMin
def execRedamax (p : PClu) (a : VRed) (s : State) : Result := redExtreme s p 8 a valAbsmax

/-! ## Mean and variance (R172, 04 R117, R118) -/

def execMvinit (p : PClu) (a : VRed) (s : State) : Result :=
  .next (vecOp s p (encRed 9 a) (fun q =>
    let l := redBytes (initRec q a.r true)
    (q.setV a.r.vd.toNat (putRegBytes 0 0 (l ++ l)), {})))

/-- Both records of a mean-and-variance state. -/
def takeTwo (v : VReg) : Except (Nat × Nat) (RedRec × RedRec) :=
  match takeRec (regBytes v 0) 0, takeRec (regBytes v 64) 0 with
  | .error e, _ => .error e
  | _, .error e => .error e
  | .ok r, .ok t => .ok (r, t)

def mvShift (v : VReg) : Nat := field v.toNat (8 * 128) 64

/-- MVACC: terms d and d² about the shift c, which the first one sets. From the first non-finite input on c is the
canonical NaN, so that MVFIN knows of it (04 R118 says what the results are, not where the state keeps this: DESIGN
CHOICE, log 100). -/
def execMvacc (p : PClu) (a : VRed) (s : State) : Result :=
  checkedOp s p (encRed 10 a) (fun q =>
    if q.act == 0 then .ok (q, {})
    else match takeTwo (q.v a.r.vd.toNat) with
      | .error e => .error e
      | .ok (r, t) =>
        if !redTakes q r then .error (stStruct, recDetail r)
        else if !redTakes q t then .error (stStruct, recDetail t)
        else
          let e := q.fmt
          let xs := (List.range q.act).map (fun i => decodeVal e (elemAt e (q.v a.r.vs1.toNat) i))
          let c := if r.next == 0 then f64Round (xs.headD valZero) else mvShift (q.v a.r.vd.toNat)
          let d := xs.map (fun x => valSub x (f64Val c))
          let r1 := redAdvance (recRow r) q.satWide r d
          let t1 := redAdvance (recRow t) q.satWide t (d.map (fun x =>
            let y := valMul x.1 x.1
            (y.1, x.2 || y.2)))
          let c1 := if xs.all valFinite then c else fmtNan .f64
          let v := putRegBytes (q.v a.r.vd.toNat) 0 (redBytes r1 ++ redBytes t1 ++ bytesOfNat 8 c1)
          .ok (q.setV a.r.vd.toNat v, { nonfin := (xs.filter (fun x => !valFinite x)).length }))

/-- One rounding to f64 of a formula's step. -/
def stepF64 (satWide : Bool) (x : Val × Bool) : Res := resInv (roundVal .f64 .rne satWide x.1) x.2

/-- Mean and variance of a finished state of K inputs (04 R117, R118); c is no finite number when an input was none. -/
def meanVar (satWide : Bool) (c : Nat) (r t : RedRec) (sample : Bool) : Res × Res :=
  let nanInv : Res := ⟨fmtNan .f64, ⟨true, false, false, false⟩, false, true⟩
  let k := r.len
  if k == 0 then (nanInv, nanInv)
  else if !f64IsFinite c then
    (⟨fmtNan .f64, r.fl, r.satSeen, true⟩,
     ⟨fmtNan .f64, flagsOr t.fl ⟨sample && k == 1, false, false, false⟩, t.satSeen, true⟩)
  else
    let s1 := redFinish (recRow r) .f64 .rne satWide r
    let s2 := redFinish (recRow t) .f64 .rne satWide t
    let quo (x : Nat) (n : Nat) : Res := let z := valDiv (f64Val x) (.fin false n 0); stepF64 satWide (z.1, z.2.1)
    let m1 := quo s1.bits k
    let mean := stepF64 satWide (valAdd (f64Val c) (f64Val m1.bits))
    let qq := stepF64 satWide (valMul (f64Val s1.bits) (f64Val m1.bits))
    let num := stepF64 satWide (valSub (f64Val s2.bits) (f64Val qq.bits))
    let num0 := if valNegative (f64Val num.bits) then 0 else num.bits
    let d := if sample then k - 1 else k
    let var := if d == 0 then nanInv else quo num0 d
    ({ mean with fl := flagsOr (flagsOr s1.fl m1.fl) mean.fl, sat := s1.sat || m1.sat || mean.sat },
     { var with fl := flagsOr (flagsOr (flagsOr s2.fl qq.fl) num.fl) var.fl,
                sat := s2.sat || qq.sat || num.sat || var.sat })

def execMvfin (p : PClu) (a : VRed) (s : State) : Result :=
  checkedOp s p (encRed 11 a) (fun q =>
    match takeTwo (q.v a.r.vs1.toNat) with
    | .error e => .error e
    | .ok (r, t) =>
      if r.next != r.len then .error (stStruct, recDetail r)
      else if t.next != t.len then .error (stStruct, recDetail t)
      else
        let x := meanVar q.satWide (mvShift (q.v a.r.vs1.toNat)) r t a.low
        .ok (q.setV a.r.vd.toNat (setElem .f64 (setElem .f64 (q.v a.r.vd.toNat) 0 x.1.bits) 1 x.2.bits),
             tallyAdd (resTally x.1) (resTally x.2)))

/-! ## The window accumulator (R173, R174) -/

def setWin (s : State) (p : Nat) (w : Win) : State := s.setClu p { s.clu p with win := w }

/-- Terms of WACC and WACC1 over the ACT elements; a masked-off element enters as +0 (R160). -/
def winTerms (q : Seq) (r : VRegs) (f : Val → Val → Val × Bool) : List Term :=
  (List.range q.act).map (fun i =>
    if activeAt q r i then
      f (decodeVal q.fmt (elemAt q.fmt (q.v r.vs1.toNat) i)) (decodeVal q.fmt (elemAt q.fmt (q.v r.vs2.toNat) i))
    else (valZero, false))

/-- Index of the first refused term. -/
def firstRefused (base : Int) (l : List Term) (i : Nat) : Option (Nat × Val) :=
  match l with
  | [] => none
  | t :: r => if winRefuses base t.1 then some (i, t.1) else firstRefused base r (i + 1)

/-- Admits every term or none (R174). -/
def windowAdd (s : State) (p : PClu) (op : Nat) (a : VWin) (f : Val → Val → Val × Bool) : Result :=
  .next (issue s p wholeWord (encWin op a) (fun g s1 =>
    let c := s1.clu p
    let terms := winTerms c.seq a.r f
    match firstRefused c.win.base terms 0 with
    | some (k, v) =>
      endProgram (setWin s1 p { c.win with overflow := true }) p stWinOvf
        (detail2 k (unsignedOf 16 ((valExp v).getD 0) + 2 ^ 16 * unsignedOf 16 c.win.base))
    | none =>
      let w := terms.foldl (fun w t => winAdmit w t.1) c.win
      let t : Tally := { fl := ⟨terms.any (fun x => x.2), false, false, false⟩,
                         nonfin := (terms.filter (fun x => !valFinite x.1)).length }
      retire (vecPost (setWin s1 p w) p g.slot t) p))

def execWacc (p : PClu) (a : VWin) (s : State) : Result := windowAdd s p 0 a valMul
def execWacc1 (p : PClu) (a : VWin) (s : State) : Result := windowAdd s p 1 a (fun x _ => termOf x)

/-- WRD: the readout of 04 R122 in element 0 of vd. -/
def execWrd (p : PClu) (a : VWin) (s : State) : Result :=
  .next (issue s p wholeWord (encWin 2 a) (fun g s1 =>
    let c := s1.clu p
    let f : Fmt := if a.low.toNat == 1 then .pair else .f64
    let r := roundAny f .rne false (winVal c.win)
    let q := c.seq.setV a.r.vd.toNat (setElem f (c.seq.v a.r.vd.toNat) 0 r.bits)
    retire (vecPost (s1.setSeq p q) p g.slot (resTally r)) p))

def execWclr (p : PClu) (a : VWin) (s : State) : Result :=
  .next (issue s p wholeWord (encWin 3 a) (fun _ s1 => retire (setWin s1 p (winClear (s1.clu p).win)) p))

/-- Bound of a term by 04 R121. -/
def termBound (prod : Bool) (x y : Val) : Option Int :=
  if prod then
    match valExp x, valExp y with
    | some a, some b => some (a + b + 2)
    | _, _ => none
  else (valExp x).map (· + 1)

def execWbound (p : PClu) (a : VWin) (s : State) : Result :=
  .next (regOp s p wholeWord (encWin 4 a) (fun q =>
    let b := (activeList q a.r).foldl (fun m i =>
      match termBound (a.low.toNat == 1) (decodeVal q.fmt (elemAt q.fmt (q.v a.r.vs1.toNat) i))
          (decodeVal q.fmt (elemAt q.fmt (q.v a.r.vs2.toNat) i)) with
      | some x => max m x
      | none => m) (q.s a.r.vd.toNat).toInt
    if q.act == 0 then q else q.setS a.r.vd.toNat (BitVec.ofInt 64 b)))

/-- A written base waits for the next clear (04 R126). -/
def winPend (w : Win) (base : Int) : Win := { w with pending := some (signedOf 16 (unsignedOf 16 base)) }

def execWbase (p : PClu) (a : VWin) (s : State) : Result :=
  .next (issue s p wholeWord (encWin 5 a) (fun _ s1 =>
    let c := s1.clu p
    let b := (c.seq.s a.r.vs1.toNat).toInt
    retire (setWin s1 p (winPend c.win (winBase (if b == -32768 then none else some b) a.low.toNat))) p))

end Sys2Proof.Machine
end

