-- ==== Sys2Proof/Machine/VecMem.lean ====
section
/-! DEFINITION. Memory instructions of the cluster sequencer and vector engine, CSRR and CSRW, window records, and the
end of a sequencer's wait (spec/06 R155, R173, R175 to R179, R182). -/

namespace Sys2Proof.Machine

/-! ## Accesses -/

/-- One element's access, or a part of it that lies in one parcel: element index, first byte, bytes, the value and the
bits a store writes, and whether the address is aligned. -/
structure MemAcc where
  i : Nat
  a : W64
  n : Nat
  val : Nat := 0
  mask : Nat := 0
  ok : Bool := true
  deriving DecidableEq, Repr

/-- Splits an access at a parcel's end. -/
def splitAcc (x : MemAcc) : List MemAcc :=
  let k := 4096 - x.a.toNat % 4096
  if x.n ≤ k || !x.ok then [x]
  else [{ x with n := k, val := x.val % 2 ^ (8 * k), mask := x.mask % 2 ^ (8 * k) },
        { x with a := x.a + BitVec.ofNat 64 k, n := x.n - k, val := x.val / 2 ^ (8 * k), mask := x.mask / 2 ^ (8 * k) }]

/-- How an instruction's accesses failed: at an element, or a delivery was discarded (02 R53). -/
inductive MFail where
  | fault (i status : Nat) (addr : W64)
  | double (other key : Nat)
  deriving DecidableEq, Repr

/-- Master of a cluster's sequencer (17 R444). -/
def seqMaster (p : Nat) : Nat := 16 + tileOfP p

/-- A remote device address: its chip and offset. -/
def accRemote (s : State) (a : W64) : Option (Nat × Nat) :=
  let v := a.toNat
  if v.testBit 63 && !chipIsHere s (field v 47 16) then some (field v 47 16, field v 0 47) else none

/-- The memory key a local device address names, with no check made. -/
def accKey (s : State) (a : W64) : Option Nat :=
  let v := a.toNat
  if (accRemote s a).isSome || (!v.testBit 63 && field v 47 16 != 0) then none
  else
    let off := field v 0 47
    if off < hbmEnd then some off
    else if logStoreBase ≤ off && off < logStoreBase + 2048 * 0x400000 then
      some (storeKey (physOfN s ((off - logStoreBase) / 0x400000)) ((off - logStoreBase) % 0x400000))
    else none

/-- An output parcel of the tensor operation in progress on the cluster, not committed yet (R155). -/
def teOutput (s : State) (p key : Nat) : Bool :=
  match (s.clu p).te.run with
  | some r =>
    let d := tdescOf r.item.desc
    let off := key - storeKey p 0
    decide (storeKey p 0 ≤ key ∧ key < storeKey (p + 1) 0) &&
    decide (d.outOff ≤ off ∧ off < d.outOff + d.outParcels * 4096) && decide (r.next ≤ (off - d.outOff) / 4096)
  | none => false

/-- The replies an instruction waits for so far. -/
def memTags (s : State) (p : Nat) : List Nat := waitTags (s.seq p).wait

/-- The program that issued the instruction still runs: a register write of its own can end it. -/
def stillRuns (s : State) (p : Nat) (g : Prog) : Bool := (s.seq p).prog.any (fun x => x.slot == g.slot)

/-! ## Loads -/

/-- Asks for the remote parcels of a list of accesses; whether a reply is still to come. -/
def askRemote (s : State) (m : Nat) (tags : List Nat) (l : List MemAcc) : State × List Nat × Bool :=
  l.foldl (fun (a : State × List Nat × Bool) x =>
    match (if x.ok then accRemote a.1 x.a else none) with
    | none => a
    | some c =>
      let r := remoteGet a.1 a.2.1 m c.1 c.2 x.n
      (r.1, r.2.1, a.2.2 || r.2.2 == .wait)) (s, tags, false)

/-- One access of a load: the parcel is read whole and its seal checked once an instruction (R176). -/
def loadOne (s : State) (m p : Nat) (u : By) (tags : List Nat) (cache : KMap (List Byte)) (x : MemAcc) :
    State × KMap (List Byte) × Except Nat Nat :=
  if !x.ok then (s, cache, .error stBus)
  else match addrPlace s m (some p) x.a false with
    | (s1, .mem k) =>
      let par := k - k % 4096
      match kfind cache par with
      | some d => (s1, cache, .ok (leAt d (k % 4096) x.n))
      | none => match parcelRead s1 par u with
        | (s2, .ok d) => (s2, kput cache par d, .ok (leAt d (k % 4096) x.n))
        | (s2, .fail st) => (s2, cache, .error st)
        | (s2, .wait) => (s2, cache, .error stNotReady)
    | (s1, .regs off) =>
      match regSpanRead s1 m off x.n with
      | (s2, .ok d) => (s2, cache, .ok (natOfBytes d))
      | (s2, .fail st) => (s2, cache, .error st)
      | (s2, .wait) => (s2, cache, .error stNotReady)
    | (s1, .remote c o) =>
      match remoteGet s1 tags m c o x.n with
      | (s2, _, .ok d) => (s2, cache, .ok (natOfBytes d))
      | (s2, _, .fail st) => (s2, cache, .error st)
      | (s2, _, .wait) => (s2, cache, .error stNotReady)
    | (s1, .bad st) => (s1, cache, .error st)

/-- Accesses in ascending order, up to the first that fails: index, bytes and value of each. -/
def loadAll (s : State) (m p : Nat) (u : By) (tags : List Nat) (cache : KMap (List Byte)) (l : List MemAcc) :
    State × List (Nat × Nat × Nat) × Option MFail :=
  match l with
  | [] => (s, [], none)
  | x :: t =>
    match loadOne s m p u tags cache x with
    | (s1, _, .error st) => (s1, [], some (.fault x.i st x.a))
    | (s1, c1, .ok v) =>
      let r := loadAll s1 m p u tags c1 t
      (r.1, (x.i, x.n, v) :: r.2.1, r.2.2)

/-- An f64 pair in remote register space is asked for by its halves (14 R356). -/
def regHalves (s : State) (x : MemAcc) : List MemAcc :=
  if x.n == 16 && (accRemote s x.a).any (fun c => offIsReg c.2) then
    [{ x with n := 8 }, { x with a := x.a + 8, n := 8 }]
  else [x]

/-- The value of element i from its parts. -/
def partsOf (l : List (Nat × Nat × Nat)) (i : Nat) : Nat :=
  ((l.filter (fun e => e.1 == i)).foldl (fun (a : Nat × Nat) e => (a.1 + e.2.2 * 2 ^ (8 * a.2), a.2 + e.2.1)) (0, 0)).1

/-- A load instruction's accesses: waits for remote replies and for outputs of the cluster's own tensor operation, then
takes the elements in order. -/
def memLoad (s : State) (p : Nat) (g : Prog) (unit : Nat) (l : List MemAcc)
    (fin : State → List (Nat × Nat × Nat) → Option MFail → State) : State :=
  let m := seqMaster p
  let l := l.flatMap (regHalves s)
  let r := askRemote s m (memTags s p) l
  if r.2.2 then setWait r.1 p (.remote r.2.1)
  else if unit == 3 && l.any (fun x => (accKey s x.a).any (teOutput s p)) then setWait r.1 p .memory
  else
    let w := loadAll r.1 m p ⟨unit, some g.slot⟩ r.2.1 [] l
    let s1 := reqDrop w.1 r.2.1
    fin s1 w.2.1 w.2.2

/-! ## Stores -/

/-- The bytes of a store laid over the old ones, bit by bit. -/
def mergeBits (old : List Byte) (val mask : Nat) : List Byte :=
  let n := old.length
  bytesOfNat n ((natOfBytes old &&& (2 ^ (8 * n) - 1 - mask)) ||| (val &&& mask))

/-- Bits of `n` whole bytes. -/
def fullMask (n : Nat) : Nat := 2 ^ (8 * n) - 1

/-- One access of a store: parcels met so far are staged, the old one read whole at the first access (R176). -/
def storeOne (s : State) (m p slot : Nat) (u : By) (staged : KMap (List Byte)) (x : MemAcc) :
    State × KMap (List Byte) × Option MFail :=
  let bad (s : State) (st : Nat) : State × KMap (List Byte) × Option MFail := (s, staged, some (.fault x.i st x.a))
  if !x.ok then bad s stBus
  else match writePlace s m (some p) x.a false with
    | (s1, .mem k) =>
      let par := k - k % 4096
      let o := k % 4096
      let put (s : State) (d : List Byte) : State × KMap (List Byte) × Option MFail :=
        (s, kput staged par (overlay d o (mergeBits (bytesAt d o x.n) x.val x.mask)), none)
      match kfind staged par with
      | some d => put s1 d
      | none =>
        match clashOf s1 slot par, (if keyIsHbm par then hbmRefuses s1 par true else none) with
        | some other, _ => (s1, staged, some (.double other par))
        | none, some st => bad s1 st
        | none, none => match parcelRead s1 par u with
          | (s2, .ok d) => put s2 d
          | (s2, .fail st) => bad s2 st
          | (s2, .wait) => bad s2 stNotReady
    | (s1, .regs off) =>
      if x.mask != fullMask x.n then bad s1 stBus
      else match regSpanWrite s1 m (some p) off (bytesOfNat x.n x.val) with
        | (s2, some st) => bad s2 st
        | (s2, none) => (s2, staged, none)
    | (s1, .remote _ _) => (s1, staged, none)
    | (s1, .bad st) => bad s1 st

def storeWalk (s : State) (m p slot : Nat) (u : By) (staged : KMap (List Byte)) (l : List MemAcc) :
    State × KMap (List Byte) × Option MFail :=
  match l with
  | [] => (s, staged, none)
  | x :: t =>
    match storeOne s m p slot u staged x with
    | (s1, st, some f) => (s1, st, some f)
    | (s1, st, none) => storeWalk s1 m p slot u st t

/-- Commits the staged parcels, each as one delivery. -/
def commitStaged (s : State) (slot : Nat) (l : KMap (List Byte)) : State :=
  l.foldl (fun a e => match parcelWrite a e.1 e.2 with
    | (b, none) => noteWriter b slot e.1
    | (b, some _) => b) s

/-- Bytes that adjoin, of accesses one after another in one remote parcel: value and mask of each byte. -/
structure RRun where
  i : Nat
  chip : Nat
  off : Nat
  bytes : List (Nat × Nat)
  deriving DecidableEq, Repr

def accBytes (x : MemAcc) : List (Nat × Nat) :=
  (List.range x.n).map (fun j => (field x.val (8 * j) 8, field x.mask (8 * j) 8))

def layBytes (old new : List (Nat × Nat)) (at_ : Nat) : List (Nat × Nat) :=
  (List.range (max old.length (at_ + new.length))).map (fun j =>
    let o := old.getD j (0, 0)
    if at_ ≤ j && j < at_ + new.length then
      let w := new.getD (j - at_) (0, 0)
      ((o.1 &&& (255 - w.2)) ||| (w.1 &&& w.2), o.2 ||| w.2)
    else o)

/-- The runs of a store's remote accesses, in element order. -/
def remoteRuns (s : State) (l : List MemAcc) : List RRun :=
  l.foldl (fun a x =>
    match accRemote s x.a with
    | none => a
    | some c =>
      let fresh : RRun := ⟨x.i, c.1, c.2, accBytes x⟩
      match a.reverse with
      | r :: rest =>
        if r.chip == c.1 && r.off / 4096 == c.2 / 4096 && decide (r.off ≤ c.2 ∧ c.2 ≤ r.off + r.bytes.length) then
          (({ r with bytes := layBytes r.bytes (accBytes x) (c.2 - r.off) } : RRun) :: rest).reverse
        else a ++ [fresh]
      | [] => [fresh]) []

/-- Accesses whose bytes a remote parcel must supply: a store of part of a byte. -/
def partAccs (l : List MemAcc) : List MemAcc := l.filter (fun x => x.mask != fullMask x.n)

/-- A run's bytes over what the remote parcel holds. -/
def runData (s : State) (tags : List Nat) (r : RRun) : List Byte :=
  let old := match (reqFind s tags r.chip (r.off - r.off % 4096) false).bind (fun q => q.reply) with
    | some (_, d) => bytesAt d (r.off % 4096) r.bytes.length
    | none => []
  r.bytes.zipIdx.map (fun e =>
    BitVec.ofNat 8 (((old.getD e.2 0).toNat &&& (255 - e.1.2)) ||| (e.1.1 &&& e.1.2)))

/-- Sends runs one after another, each once the one before it has its acknowledgement: so no element above a failing one
is stored (R177). -/
def sendRuns (s : State) (m : Nat) (tags sent : List Nat) (l : List RRun) : State × List Nat × Option (Option (Nat × Nat)) :=
  match l with
  | [] => (s, tags, some none)
  | r :: t =>
    match sent with
    | k :: rest =>
      match ((s.net.reqs.find? (fun q => q.tag == k)).bind (fun q => q.reply)) with
      | none => (s, tags, none)
      | some (st, _) => if st == 0 then sendRuns s m tags rest t else (s, tags, some (some (r.i, st)))
    | [] =>
      if reqFull s r.chip then (s, tags, none)
      else
        let d := runData s tags r
        let q := reqSend s m r.chip r.off true false d d.length (writeCheck r.off d)
        match ((q.1.net.reqs.find? (fun x => x.tag == q.2)).bind (fun x => x.reply)) with
        | some (st, _) => (q.1, tags ++ [q.2], some (some (r.i, st)))
        | none => (q.1, tags ++ [q.2], none)

def failIndex (f : Option MFail) : Option Nat := match f with | some (.fault i _ _) => some i | _ => none

/-- A store instruction's accesses: remote bytes first, up to the first element that fails here; then the local ones. -/
def memStore (s : State) (p : Nat) (g : Prog) (unit : Nat) (l : List MemAcc) (fin : State → Option MFail → State) : State :=
  let m := seqMaster p
  let u : By := ⟨unit, some g.slot⟩
  let go (s : State) (tags : List Nat) (l : List MemAcc) (stop : Option MFail) : State :=
    let w := storeWalk s m p g.slot u [] l
    let s1 := reqDrop (commitStaged w.1 g.slot w.2.1) tags
    fin s1 (match w.2.2 with | some f => some f | none => stop)
  if l.any (fun x => (accKey s x.a).any (readLocked s (.prog p))) then setWait s p .memory
  else if l.all (fun x => (accRemote s x.a).isNone) then go s [] l none
  else
    let f0 := failIndex (storeWalk s m p g.slot u [] l).2.2
    let near := match f0 with | some f => l.filter (fun x => x.i < f) | none => l
    let r := askRemote s m (memTags s p) (partAccs near)
    if r.2.2 then setWait r.1 p (.remote r.2.1)
    else
      let sent := r.2.1.filter (fun k => r.1.net.reqs.any (fun q => q.tag == k && q.write))
      match sendRuns r.1 m r.2.1 sent (remoteRuns r.1 near) with
      | (s1, tags, none) => setWait s1 p (.remote tags)
      | (s1, tags, some none) => go s1 tags l none
      | (s1, tags, some (some (f, st))) =>
        let a := ((l.find? (fun x => x.i == f && (accRemote s x.a).isSome)).map (fun x => x.a)).getD 0
        go s1 tags (l.filter (fun x => x.i < f)) (some (.fault f st a))

/-! ## How an instruction ends (R178, R179) -/

/-- A discarded delivery ends the program (02 R54). -/
def endDouble (s : State) (p other key : Nat) : State :=
  endProgram s p stDouble (detail2 (opIdOf s other) (homeOf s key / 4096))

/-- A precise fault at element f: recorded, and the handler entered where there is one and it does not run already. -/
def vecFault (s : State) (p f status : Nat) (addr : W64) (write : Bool) : State :=
  let q := { s.seq p with
    faultIndex := f, faultValid := true, faultDir := write, faultCause := status, faultAddr := addr }
  if q.trapVec != 0 && !q.inHandler then
    (reqDrop s (waitTags q.wait)).setSeq p { q with
      resume := f, epc := q.pc, pc := q.trapVec, inHandler := true, resuming := false, wait := .none }
  else endProgram (s.setSeq p q) p stVector (detail2 (f + status * 2 ^ 16 + boolNat write * 2 ^ 24) addr.toNat)

/-- The end of a vector memory instruction. -/
def vecEnd (s : State) (p : Nat) (g : Prog) (write : Bool) (f : Option MFail) : State :=
  if !stillRuns s p g then s
  else match f with
    | none => retire s p
    | some (.fault i st a) => vecFault s p i st a write
    | some (.double o k) => endDouble s p o k

/-- The end of a scalar access, or of a window record's: a failure never enters the handler. -/
def scalarEnd (s : State) (p : Nat) (g : Prog) (write : Bool) (f : Option MFail) (ok : State → State) : State :=
  if !stillRuns s p g then s
  else match f with
    | none => ok s
    | some (.fault _ st a) => scalarFault s p st a.toNat write
    | some (.double o k) => endDouble s p o k

/-! ## Scalar memory, class 0x2 -/

/-- A scalar load or store, by its word. -/
def scalarMem (s : State) (p : Nat) (g : Prog) (w : Nat) : State :=
  let q := s.seq p
  let fn := field w 15 3
  let n := 2 ^ (fn % 4)
  let a := q.s (field w 18 5) + BitVec.ofInt 64 (signedOf 15 (field w 0 15))
  let r := field w 23 5
  let x : MemAcc := ⟨0, a, n, (q.s r).toNat % 2 ^ (8 * n), fullMask n, a.toNat % n == 0⟩
  if fn < 4 then
    memLoad s p g 4 [x] (fun s l f => scalarEnd s p g false f (fun s =>
      retire (s.setSeq p ((s.seq p).setS r (BitVec.ofNat 64 (partsOf l 0)))) p))
  else memStore s p g 4 [x] (fun s f => scalarEnd s p g true f (fun s => retire s p))

def memOp (s : State) (p : PClu) (fn : Nat) (a : ScalMem) : State :=
  issue s p wholeWord (encMem fn a) (fun g s1 => scalarMem s1 p g (encMem fn a))

def execLd8 (p : PClu) (a : ScalMem) (s : State) : Result := .next (memOp s p 0 a)
def execLd16 (p : PClu) (a : ScalMem) (s : State) : Result := .next (memOp s p 1 a)
def execLd32 (p : PClu) (a : ScalMem) (s : State) : Result := .next (memOp s p 2 a)
def execLd64 (p : PClu) (a : ScalMem) (s : State) : Result := .next (memOp s p 3 a)
def execSt8 (p : PClu) (a : ScalMem) (s : State) : Result := .next (memOp s p 4 a)
def execSt16 (p : PClu) (a : ScalMem) (s : State) : Result := .next (memOp s p 5 a)
def execSt32 (p : PClu) (a : ScalMem) (s : State) : Result := .next (memOp s p 6 a)
def execSt64 (p : PClu) (a : ScalMem) (s : State) : Result := .next (memOp s p 7 a)

/-! ## Vector memory, classes 0xB and 0xC -/

/-- Active elements from the first one the instruction takes (R177, R178). -/
def memElems (q : Seq) (r : VRegs) : List Nat :=
  (activeList q r).filter (fun i => (if q.resuming then q.resume else 0) ≤ i)

def vregsOf (w : Nat) : VRegs :=
  ⟨BitVec.ofNat 5 (field w 23 5), BitVec.ofNat 5 (field w 18 5), BitVec.ofNat 5 (field w 13 5),
    (field w 12 1 == 1), BitVec.ofNat 3 (field w 9 3)⟩

/-- The access of element i of 8 bits or wider at an address. -/
def wideAcc (q : Seq) (vd i : Nat) (a : W64) : MemAcc :=
  let n := fmtBits q.fmt / 8
  { i := i, a := a, n := n, val := elemAt q.fmt (q.v vd) i, mask := fullMask n, ok := a.toNat % n == 0 }

/-- Where element i of a sequence of `w`-bit elements packed from a base lies (03 R70): its first byte from the base, the
bit within it, and the unused bits that follow it. A parcel holds whole elements alone: an element that would pass a
parcel's end is the first of the next parcel. -/
def packedPos (w base i : Nat) : Nat × Nat × Nat :=
  let bits := 8 * (4096 - base % 4096)
  let at' (start k room : Nat) : Nat × Nat × Nat :=
    (start / 8 + w * k / 8, w * k % 8, if (k + 1) * w ≤ room ∧ room < (k + 2) * w then room - (k + 1) * w else 0)
  if i < bits / w then at' 0 i bits
  else
    let j := i - bits / w
    at' (bits + 32768 * (j / (32768 / w))) (j % (32768 / w)) 32768

/-- The access of element i of 4 or 6 bits, packed from the base: the bytes it lies in. A parcel's unused bits are
written as zero with its last element. -/
def packedAcc (q : Seq) (vd : Nat) (base : W64) (i : Nat) : List MemAcc :=
  let w := fmtBits q.fmt
  let o := packedPos w base.toNat i
  splitAcc { i := i, a := base + BitVec.ofNat 64 o.1, n := (o.2.1 + w + o.2.2 + 7) / 8,
             val := elemAt q.fmt (q.v vd) i * 2 ^ o.2.1, mask := (2 ^ (w + o.2.2) - 1) * 2 ^ o.2.1,
             ok := base.toNat % 64 == 0 }

/-- The accesses of VLD and VST. -/
def linearAccs (q : Seq) (r : VRegs) (strided : Bool) : List MemAcc :=
  let base := q.s r.vs1.toNat
  let bits := fmtBits q.fmt
  (memElems q r).flatMap (fun i =>
    if bits < 8 then packedAcc q r.vd.toNat base i
    else
      let stride := if strided then q.s r.vs2.toNat else BitVec.ofNat 64 (bits / 8)
      [wideAcc q r.vd.toNat i (base + BitVec.ofNat 64 i * stride)])

/-- The accesses of VGATHER and VSCATTER: 64 signed byte offsets a register, from VS2 onward. -/
def indexedAccs (q : Seq) (r : VRegs) : List MemAcc :=
  (memElems q r).map (fun i =>
    wideAcc q r.vd.toNat i (q.s r.vs1.toNat + BitVec.ofNat 64 (groupAt q .f64 r.vs2.toNat i)))

/-- Writes the lanes of the elements below the failing one, read from a base. -/
def loadLanes (q : Seq) (vd base : Nat) (l : List (Nat × Nat × Nat)) (f : Option MFail) : Seq :=
  let done := (l.map (fun e => e.1)).dedup.filter (fun i => some i != failIndex f)
  done.foldl (fun q i =>
    let v := partsOf l i
    let x := if fmtBits q.fmt < 8 then v / 2 ^ (packedPos (fmtBits q.fmt) base i).2.1 else v
    q.setV vd (setElem q.fmt (q.v vd) i x)) q

def vecLoad (s : State) (p : Nat) (g : Prog) (vd base : Nat) (l : List MemAcc) : State :=
  memLoad s p g 3 l (fun s vals f => vecEnd (s.setSeq p (loadLanes (s.seq p) vd base vals f)) p g false f)

def vecStore (s : State) (p : Nat) (g : Prog) (l : List MemAcc) : State :=
  memStore s p g 3 l (fun s f => vecEnd s p g true f)

/-- VLD and VST, by the word. -/
def linearMem (s : State) (p : Nat) (g : Prog) (w : Nat) : State :=
  let r := vregsOf w
  let l := linearAccs (s.seq p) r (w.testBit 7)
  if w.testBit 8 then vecStore s p g l else vecLoad s p g r.vd.toNat ((s.seq p).s r.vs1.toNat).toNat l

/-- VGATHER and VSCATTER, by the word. -/
def indexedMem (s : State) (p : Nat) (g : Prog) (w : Nat) : State :=
  let r := vregsOf w
  let l := indexedAccs (s.seq p) r
  if w.testBit 8 then vecStore s p g l else vecLoad s p g r.vd.toNat ((s.seq p).s r.vs1.toNat).toNat l

def execVld (p : PClu) (a : VMem) (s : State) : Result :=
  .next (issue s p wholeWord (encVMem 0 a) (fun g s1 => linearMem s1 p g (encVMem 0 a)))
def execVst (p : PClu) (a : VMem) (s : State) : Result :=
  .next (issue s p wholeWord (encVMem 1 a) (fun g s1 => linearMem s1 p g (encVMem 1 a)))
def execVgather (p : PClu) (r : VRegs) (s : State) : Result :=
  .next (issue s p wholeWord (encGath 0 r) (fun g s1 => indexedMem s1 p g (encGath 0 r)))
def execVscatter (p : PClu) (r : VRegs) (s : State) : Result :=
  .next (issue s p wholeWord (encGath 1 r) (fun g s1 => indexedMem s1 p g (encGath 1 r)))

/-! ## Window records (R173, 04 R120, R124) -/

def recordAccs (a : W64) (data : List Byte) : List MemAcc :=
  splitAcc { i := 0, a := a, n := 160, val := natOfBytes data, mask := fullMask 160 }

/-- WLOAD's record: its CHECK, then its BASE, then the combination. -/
def loadRecord (s : State) (p : Nat) (a : W64) (b : List Byte) : State :=
  let c := s.clu p
  let w := winOfBytes b
  if !winCheckOk b then endProgram s p stSeal (addrDetail a.toNat)
  else if w.base != c.win.base then endProgram s p stStruct (detail2 0xFFFFFF0C (s.seq p).pc)
  else retire (s.setClu p { c with win := winCombine c.win w }) p

/-- WSAVE: the record to an address. -/
def windowSave (s : State) (p : Nat) (g : Prog) (a : W64) : State :=
  memStore s p g 4 (recordAccs a (winBytes (s.clu p).win)) (fun s f => scalarEnd s p g true f (fun s => retire s p))

/-- The bytes of a record, from the parts that were read. -/
def recordOf (l : List (Nat × Nat × Nat)) : List Byte := bytesOfNat 160 (partsOf l 0)

/-- WLOAD: a record from an address. -/
def windowLoad (s : State) (p : Nat) (g : Prog) (a : W64) : State :=
  memLoad s p g 4 (recordAccs a []) (fun s l f => scalarEnd s p g false f (fun s => loadRecord s p a (recordOf l)))

/-- WSAVE and WLOAD, by the word. -/
def windowMem (s : State) (p : Nat) (g : Prog) (w : Nat) : State :=
  let a := (s.seq p).s (field w 18 5)
  if field w 6 3 == 6 then windowSave s p g a else windowLoad s p g a

def execWsave (p : PClu) (a : VWin) (s : State) : Result :=
  .next (issue s p wholeWord (encWin 6 a) (fun g s1 => windowMem s1 p g (encWin 6 a)))
def execWload (p : PClu) (a : VWin) (s : State) : Result :=
  .next (issue s p wholeWord (encWin 7 a) (fun g s1 => windowMem s1 p g (encWin 7 a)))

/-! ## CSRs (R182) -/

/-- Sequencer and vector registers take the tables' access codes from their own sequencer, with no access table. -/
def csrOwn (n : Nat) : Bool := 0xC0 ≤ n && n < 0xDB

def csrRead (s : State) (p : Nat) (g : Prog) (sd n : Nat) : State :=
  let off := cluBase p + 4 * n
  let put (s : State) (w : W32) : State := retire (s.setSeq p ((s.seq p).setS sd (BitVec.ofNat 64 w.toNat))) p
  if csrOwn n then
    let r := regReadWord s (seqMaster p) off
    put r.1 r.2
  else match regRead s (seqMaster p) off with
    | (s1, some w) => put s1 w
    | (s1, none) => scalarEnd s1 p g false (some (.fault 0 stDenied (BitVec.ofNat 64 (regBase + off)))) id

def csrWrite (s : State) (p : Nat) (g : Prog) (sa n : Nat) : State :=
  let off := cluBase p + 4 * n
  let v := ((s.seq p).s sa).toNat % 2 ^ 32
  let r := if csrOwn n then (regWriteWord s (seqMaster p) (some p) off v, false)
    else regWrite s (seqMaster p) (some p) off v
  scalarEnd r.1 p g true (if r.2 then some (.fault 0 stDenied (BitVec.ofNat 64 (regBase + off))) else none)
    (fun s => retire s p)

def execCsrr (p : PClu) (sd : BitVec 5) (csr : BitVec 12) (s : State) : Result :=
  .next (issue s p (sysBits true false true) (encSys 0 sd.toNat 0 csr.toNat) (fun g s1 =>
    csrRead s1 p g sd.toNat csr.toNat))
def execCsrw (p : PClu) (sa : BitVec 5) (csr : BitVec 12) (s : State) : Result :=
  .next (issue s p (sysBits false true true) (encSys 1 0 sa.toNat csr.toNat) (fun g s1 =>
    csrWrite s1 p g sa.toNat csr.toNat))

/-! ## The end of a wait (R155) -/

/-- The waiting instruction is tried again: it retires, faults or waits on. -/
def waitAgain (s : State) (p : Nat) (g : Prog) (w : Nat) : State :=
  match w / 2 ^ 28 with
  | 2 => scalarMem s p g w
  | 4 => if field w 0 6 == 5 then teIssue s p g ((s.seq p).s (field w 18 5)).toNat
         else if field w 0 6 == 6 then teWait s p else s
  | 11 => linearMem s p g w
  | 12 => indexedMem s p g w
  | 13 => windowMem s p g w
  | _ => s

/-- A quiesce that waited for the instruction takes effect (R180). -/
def boundaryEnd (s : State) (p : Nat) : State :=
  match (s.seq p).prog with
  | some g => if atBoundary s p g then endQuiesced s p else s
  | none => s

def execSequencerWaitEnd (p : PClu) (s : State) : Result :=
  .next (
    match (s.seq p).prog with
    | none => s
    | some g =>
      if (s.seq p).wait = .none then s
      else match fetchWord s p g (s.seq p).pc with
        | (s1, .error e) => endProgram s1 p e.1 e.2
        | (s1, .ok w) => boundaryEnd (waitAgain s1 p g w) p)

end Sys2Proof.Machine
end

