-- ==== Sys2Proof/Machine/Dispatch.lean ====
section
/-! DEFINITION. One arm per command: its meaning, by name. -/

namespace Sys2Proof.Machine

def exec (i : Instr) (s : State) : Host.Outcome State Fault Refusal :=
  match i with
  | .registerWrite m off data => Sys2Proof.Machine.execRegisterWrite m off data s
  | .splitLoRead m off => Sys2Proof.Machine.execSplitLoRead m off s
  | .receiptRead m => Sys2Proof.Machine.execReceiptRead m s
  | .earlyAccess m addr write => Sys2Proof.Machine.execEarlyAccess m addr write s
  | .forwardingFlip t m => Sys2Proof.Machine.execForwardingFlip t m s
  | .rowSwap t m v => Sys2Proof.Machine.execRowSwap t m v s
  | .rowMoveComplete t => Sys2Proof.Machine.execRowMoveComplete t s
  | .suspend p m => Sys2Proof.Machine.execSuspend p m s
  | .teAbort p m => Sys2Proof.Machine.execTeAbort p m s
  | .waBaseWrite p m v => Sys2Proof.Machine.execWaBaseWrite p m v s
  | .qsCollect t m v => Sys2Proof.Machine.execQsCollect t m v s
  | .qsClose t q m v => Sys2Proof.Machine.execQsClose t q m v s
  | .qsCloseComplete q => Sys2Proof.Machine.execQsCloseComplete q s
  | .qsFlip t q m => Sys2Proof.Machine.execQsFlip t q m s
  | .qsShadowWrite t q m r v => Sys2Proof.Machine.execQsShadowWrite t q m r v s
  | .solveAbort t m v => Sys2Proof.Machine.execSolveAbort t m v s
  | .seAbort u m => Sys2Proof.Machine.execSeAbort u m s
  | .lwConfigWrite t w m r v => Sys2Proof.Machine.execLwConfigWrite t w m r v s
  | .courierResume c m v => Sys2Proof.Machine.execCourierResume c m v s
  | .courierAbort c m v => Sys2Proof.Machine.execCourierAbort c m v s
  | .courierReset c m v => Sys2Proof.Machine.execCourierReset c m v s
  | .courierBindWrite c m v => Sys2Proof.Machine.execCourierBindWrite c m v s
  | .portRetrain n m v => Sys2Proof.Machine.execPortRetrain n m v s
  | .portHold n m v => Sys2Proof.Machine.execPortHold n m v s
  | .routeFlip m => Sys2Proof.Machine.execRouteFlip m s
  | .takeover m v => Sys2Proof.Machine.execTakeover m v s
  | .takeoverClear m v => Sys2Proof.Machine.execTakeoverClear m v s
  | .apertureApply m => Sys2Proof.Machine.execApertureApply m s
  | .slotRelease m v => Sys2Proof.Machine.execSlotRelease m v s
  | .mirrorResync m => Sys2Proof.Machine.execMirrorResync m s
  | .streamClear m => Sys2Proof.Machine.execStreamClear m s
  | .letterboxConfig k m v => Sys2Proof.Machine.execLetterboxConfig k m v s
  | .noticeHeadWrite m v => Sys2Proof.Machine.execNoticeHeadWrite m v s
  | .imageLoad m v host => Sys2Proof.Machine.execImageLoad m v host s
  | .imageFlip => Sys2Proof.Machine.execImageFlip s
  | .moduleReset m => Sys2Proof.Machine.execModuleReset m s
  | .computeReset m => Sys2Proof.Machine.execComputeReset m s
  | .computeResetDone => Sys2Proof.Machine.execComputeResetDone s
  | .broadcastStart m v host => Sys2Proof.Machine.execBroadcastStart m v host s
  | .loadHeld m => Sys2Proof.Machine.execLoadHeld m s
  | .quiesce t m v => Sys2Proof.Machine.execQuiesce t m v s
  | .release t m v => Sys2Proof.Machine.execRelease t m v s
  | .clusterReset t m v => Sys2Proof.Machine.execClusterReset t m v s
  | .sleep t m v => Sys2Proof.Machine.execSleep t m v s
  | .wake t m v => Sys2Proof.Machine.execWake t m v s
  | .wakeComplete n => Sys2Proof.Machine.execWakeComplete n s
  | .idleTimeout n => Sys2Proof.Machine.execIdleTimeout n s
  | .packLoad m v host => Sys2Proof.Machine.execPackLoad m v host s
  | .packRun m v => Sys2Proof.Machine.execPackRun m v s
  | .packRunDone out => Sys2Proof.Machine.execPackRunDone out s
  | .powerCapWrite m v => Sys2Proof.Machine.execPowerCapWrite m v s
  | .collectionVisit k entries => Sys2Proof.Machine.execCollectionVisit k entries s
  | .letterboxReadTimeout k => Sys2Proof.Machine.execLetterboxReadTimeout k s
  | .operationIssue slot => Sys2Proof.Machine.execOperationIssue slot s
  | .sync slot => Sys2Proof.Machine.execSync slot s
  | .notifyVector k => Sys2Proof.Machine.execNotifyVector k s
  | .tensorDescriptor slot => Sys2Proof.Machine.execTensorDescriptor slot s
  | .gemmStart n => Sys2Proof.Machine.execGemmStart n s
  | .teBandDone n bad => Sys2Proof.Machine.execTeBandDone n bad s
  | .inspectorRecompute n bytes => Sys2Proof.Machine.execInspectorRecompute n bytes s
  | .inspectorRecheck n lines => Sys2Proof.Machine.execInspectorRecheck n lines s
  | .repeatTestStart p => Sys2Proof.Machine.execRepeatTestStart p s
  | .repeatTestDone p equalRuns => Sys2Proof.Machine.execRepeatTestDone p equalRuns s
  | .transientWindow => Sys2Proof.Machine.execTransientWindow s
  | .parityError u => Sys2Proof.Machine.execParityError u s
  | .programStart n => Sys2Proof.Machine.execProgramStart n s
  | .sequencerWaitEnd p => Sys2Proof.Machine.execSequencerWaitEnd p s
  | .add p a => Sys2Proof.Machine.execAdd p a s
  | .sub p a => Sys2Proof.Machine.execSub p a s
  | .mul p a => Sys2Proof.Machine.execMul p a s
  | .mulh p a => Sys2Proof.Machine.execMulh p a s
  | .mulhu p a => Sys2Proof.Machine.execMulhu p a s
  | .and p a => Sys2Proof.Machine.execAnd p a s
  | .or p a => Sys2Proof.Machine.execOr p a s
  | .xor p a => Sys2Proof.Machine.execXor p a s
  | .shl p a => Sys2Proof.Machine.execShl p a s
  | .shr p a => Sys2Proof.Machine.execShr p a s
  | .sra p a => Sys2Proof.Machine.execSra p a s
  | .min p a => Sys2Proof.Machine.execMin p a s
  | .max p a => Sys2Proof.Machine.execMax p a s
  | .slt p a => Sys2Proof.Machine.execSlt p a s
  | .sltu p a => Sys2Proof.Machine.execSltu p a s
  | .addi p a => Sys2Proof.Machine.execAddi p a s
  | .andi p a => Sys2Proof.Machine.execAndi p a s
  | .ori p a => Sys2Proof.Machine.execOri p a s
  | .xori p a => Sys2Proof.Machine.execXori p a s
  | .shli p a => Sys2Proof.Machine.execShli p a s
  | .shri p a => Sys2Proof.Machine.execShri p a s
  | .srai p a => Sys2Proof.Machine.execSrai p a s
  | .slti p a => Sys2Proof.Machine.execSlti p a s
  | .shin p a => Sys2Proof.Machine.execShin p a s
  | .ld8 p a => Sys2Proof.Machine.execLd8 p a s
  | .ld16 p a => Sys2Proof.Machine.execLd16 p a s
  | .ld32 p a => Sys2Proof.Machine.execLd32 p a s
  | .ld64 p a => Sys2Proof.Machine.execLd64 p a s
  | .st8 p a => Sys2Proof.Machine.execSt8 p a s
  | .st16 p a => Sys2Proof.Machine.execSt16 p a s
  | .st32 p a => Sys2Proof.Machine.execSt32 p a s
  | .st64 p a => Sys2Proof.Machine.execSt64 p a s
  | .beq p a => Sys2Proof.Machine.execBeq p a s
  | .bne p a => Sys2Proof.Machine.execBne p a s
  | .blt p a => Sys2Proof.Machine.execBlt p a s
  | .bge p a => Sys2Proof.Machine.execBge p a s
  | .bltu p a => Sys2Proof.Machine.execBltu p a s
  | .bgeu p a => Sys2Proof.Machine.execBgeu p a s
  | .jal p a => Sys2Proof.Machine.execJal p a s
  | .jalr p a => Sys2Proof.Machine.execJalr p a s
  | .csrr p sd csr => Sys2Proof.Machine.execCsrr p sd csr s
  | .csrw p sa csr => Sys2Proof.Machine.execCsrw p sa csr s
  | .halt p => Sys2Proof.Machine.execHalt p s
  | .eret p => Sys2Proof.Machine.execEret p s
  | .fence p => Sys2Proof.Machine.execFence p s
  | .teissue p sa => Sys2Proof.Machine.execTeissue p sa s
  | .tewait p => Sys2Proof.Machine.execTewait p s
  | .count p sa => Sys2Proof.Machine.execCount p sa s
  | .loss p vr sa => Sys2Proof.Machine.execLoss p vr sa s
  | .time p sd => Sys2Proof.Machine.execTime p sd s
  | .shape p sd sa fmt => Sys2Proof.Machine.execShape p sd sa fmt s
  | .vmvs p a => Sys2Proof.Machine.execVmvs p a s
  | .vmsv p a => Sys2Proof.Machine.execVmsv p a s
  | .vadd p a => Sys2Proof.Machine.execVadd p a s
  | .vsub p a => Sys2Proof.Machine.execVsub p a s
  | .vmul p a => Sys2Proof.Machine.execVmul p a s
  | .vfma p a => Sys2Proof.Machine.execVfma p a s
  | .vfms p a => Sys2Proof.Machine.execVfms p a s
  | .vdiv p a => Sys2Proof.Machine.execVdiv p a s
  | .vsqrt p a => Sys2Proof.Machine.execVsqrt p a s
  | .vmin p a => Sys2Proof.Machine.execVmin p a s
  | .vmax p a => Sys2Proof.Machine.execVmax p a s
  | .vabs p a => Sys2Proof.Machine.execVabs p a s
  | .vneg p a => Sys2Proof.Machine.execVneg p a s
  | .vcopysign p a => Sys2Proof.Machine.execVcopysign p a s
  | .vmov p a => Sys2Proof.Machine.execVmov p a s
  | .vand p a => Sys2Proof.Machine.execVand p a s
  | .vor p a => Sys2Proof.Machine.execVor p a s
  | .vxor p a => Sys2Proof.Machine.execVxor p a s
  | .vwmul p a => Sys2Proof.Machine.execVwmul p a s
  | .vwfma p a => Sys2Proof.Machine.execVwfma p a s
  | .vdotw p a => Sys2Proof.Machine.execVdotw p a s
  | .vcvt p a => Sys2Proof.Machine.execVcvt p a s
  | .redinit p a => Sys2Proof.Machine.execRedinit p a s
  | .redaccSum p a => Sys2Proof.Machine.execRedaccSum p a s
  | .redaccSumsq p a => Sys2Proof.Machine.execRedaccSumsq p a s
  | .redaccDot p a => Sys2Proof.Machine.execRedaccDot p a s
  | .redfin p a => Sys2Proof.Machine.execRedfin p a s
  | .redfold p a => Sys2Proof.Machine.execRedfold p a s
  | .redmax p a => Sys2Proof.Machine.execRedmax p a s
  | .redmin p a => Sys2Proof.Machine.execRedmin p a s
  | .redamax p a => Sys2Proof.Machine.execRedamax p a s
  | .mvinit p a => Sys2Proof.Machine.execMvinit p a s
  | .mvacc p a => Sys2Proof.Machine.execMvacc p a s
  | .mvfin p a => Sys2Proof.Machine.execMvfin p a s
  | .vcmpEq p r => Sys2Proof.Machine.execVcmpEq p r s
  | .vcmpNe p r => Sys2Proof.Machine.execVcmpNe p r s
  | .vcmpLt p r => Sys2Proof.Machine.execVcmpLt p r s
  | .vcmpLe p r => Sys2Proof.Machine.execVcmpLe p r s
  | .vcmpUn p r => Sys2Proof.Machine.execVcmpUn p r s
  | .mand p r => Sys2Proof.Machine.execMand p r s
  | .mor p r => Sys2Proof.Machine.execMor p r s
  | .mxor p r => Sys2Proof.Machine.execMxor p r s
  | .mandn p r => Sys2Proof.Machine.execMandn p r s
  | .mfirst p r => Sys2Proof.Machine.execMfirst p r s
  | .mpop p r => Sys2Proof.Machine.execMpop p r s
  | .mset p r => Sys2Proof.Machine.execMset p r s
  | .vld p a => Sys2Proof.Machine.execVld p a s
  | .vst p a => Sys2Proof.Machine.execVst p a s
  | .vgather p r => Sys2Proof.Machine.execVgather p r s
  | .vscatter p r => Sys2Proof.Machine.execVscatter p r s
  | .wacc p a => Sys2Proof.Machine.execWacc p a s
  | .wacc1 p a => Sys2Proof.Machine.execWacc1 p a s
  | .wrd p a => Sys2Proof.Machine.execWrd p a s
  | .wclr p a => Sys2Proof.Machine.execWclr p a s
  | .wbound p a => Sys2Proof.Machine.execWbound p a s
  | .wbase p a => Sys2Proof.Machine.execWbase p a s
  | .wsave p a => Sys2Proof.Machine.execWsave p a s
  | .wload p a => Sys2Proof.Machine.execWload p a s
  | .solveRequest slot => Sys2Proof.Machine.execSolveRequest slot s
  | .assembleOnly g k => Sys2Proof.Machine.execAssembleOnly g k s
  | .luSolve g k => Sys2Proof.Machine.execLuSolve g k s
  | .choleskySolve g k => Sys2Proof.Machine.execCholeskySolve g k s
  | .qrSolve g k => Sys2Proof.Machine.execQrSolve g k s
  | .cgSolve g k => Sys2Proof.Machine.execCgSolve g k s
  | .bicgstabSolve g k => Sys2Proof.Machine.execBicgstabSolve g k s
  | .gmresSolve g k => Sys2Proof.Machine.execGmresSolve g k s
  | .qpSolve g k => Sys2Proof.Machine.execQpSolve g k s
  | .gaussNewtonSolve g k => Sys2Proof.Machine.execGaussNewtonSolve g k s
  | .adjointSolve g k => Sys2Proof.Machine.execAdjointSolve g k s
  | .tangentSolve g k => Sys2Proof.Machine.execTangentSolve g k s
  | .residualProgramEnd g => Sys2Proof.Machine.execResidualProgramEnd g s
  | .solveDeadlineExpiry g => Sys2Proof.Machine.execSolveDeadlineExpiry g s
  | .seDescriptor slot => Sys2Proof.Machine.execSeDescriptor slot s
  | .update t k => Sys2Proof.Machine.execUpdate t k s
  | .reduce t k => Sys2Proof.Machine.execReduce t k s
  | .gather t k => Sys2Proof.Machine.execGather t k s
  | .drop t => Sys2Proof.Machine.execDrop t s
  | .verify t k => Sys2Proof.Machine.execVerify t k s
  | .gateWaitTimeout t => Sys2Proof.Machine.execGateWaitTimeout t s
  | .lossPost => Sys2Proof.Machine.execLossPost s
  | .lossWindowEnd w => Sys2Proof.Machine.execLossWindowEnd w s
  | .allReduce slot k => Sys2Proof.Machine.execAllReduce slot k s
  | .reduceScatter slot k => Sys2Proof.Machine.execReduceScatter slot k s
  | .allGather slot k => Sys2Proof.Machine.execAllGather slot k s
  | .collectiveBroadcast slot k => Sys2Proof.Machine.execCollectiveBroadcast slot k s
  | .collectiveReduce slot k => Sys2Proof.Machine.execCollectiveReduce slot k s
  | .joinRecord r => Sys2Proof.Machine.execJoinRecord r s
  | .joinResend slot => Sys2Proof.Machine.execJoinResend slot s
  | .readDoneReport comm seq rank => Sys2Proof.Machine.execReadDoneReport comm seq rank s
  | .abortNotice comm seq rank status => Sys2Proof.Machine.execAbortNotice comm seq rank status s
  | .collectiveDeadline slot => Sys2Proof.Machine.execCollectiveDeadline slot s
  | .roundRequest slot => Sys2Proof.Machine.execRoundRequest slot s
  | .roundStart c => Sys2Proof.Machine.execRoundStart c s
  | .move c k host => Sys2Proof.Machine.execMove c k host s
  | .loop c => Sys2Proof.Machine.execLoop c s
  | .wait c => Sys2Proof.Machine.execWait c s
  | .waitPoll c => Sys2Proof.Machine.execWaitPoll c s
  | .waitMet c => Sys2Proof.Machine.execWaitMet c s
  | .waitTimeout c => Sys2Proof.Machine.execWaitTimeout c s
  | .signal c => Sys2Proof.Machine.execSignal c s
  | .courierHalt c => Sys2Proof.Machine.execCourierHalt c s
  | .apertureRead off len => Sys2Proof.Machine.execApertureRead off len s
  | .apertureWrite off data => Sys2Proof.Machine.execApertureWrite off data s
  | .ideKm link sel => Sys2Proof.Machine.execIdeKm link sel s
  | .linkLoss => Sys2Proof.Machine.execLinkLoss s
  | .linkUp gen width => Sys2Proof.Machine.execLinkUp gen width s
  | .perstN low => Sys2Proof.Machine.execPerstN low s
  | .functionLevelReset => Sys2Proof.Machine.execFunctionLevelReset s
  | .read pkt => Sys2Proof.Machine.execRead pkt s
  | .write pkt => Sys2Proof.Machine.execWrite pkt s
  | .readData pkt => Sys2Proof.Machine.execReadData pkt s
  | .writeAck pkt => Sys2Proof.Machine.execWriteAck pkt s
  | .nack pkt => Sys2Proof.Machine.execNack pkt s
  | .packetForward inPort pkt => Sys2Proof.Machine.execPacketForward inPort pkt s
  | .remoteRequestTimeout tag => Sys2Proof.Machine.execRemoteRequestTimeout tag s
  | .discover n d => Sys2Proof.Machine.execDiscover n d s
  | .roster n r => Sys2Proof.Machine.execRoster n r s
  | .discoveryQuiet => Sys2Proof.Machine.execDiscoveryQuiet s
  | .linkState n l => Sys2Proof.Machine.execLinkState n l s
  | .fwdAddr n f => Sys2Proof.Machine.execFwdAddr n f s
  | .routeRebuild => Sys2Proof.Machine.execRouteRebuild s
  | .broadcast n b => Sys2Proof.Machine.execBroadcast n b s
  | .timeSyncSend => Sys2Proof.Machine.execTimeSyncSend s
  | .timeSync n t1 t2 t3 => Sys2Proof.Machine.execTimeSync n t1 t2 t3 s
  | .timeReply n t1 t2 t3 t4 => Sys2Proof.Machine.execTimeReply n t1 t2 t3 t4 s
  | .retryReq n flit => Sys2Proof.Machine.execRetryReq n flit s
  | .blockLockLost n => Sys2Proof.Machine.execBlockLockLost n s
  | .fecWindowEnd n corr uncorr => Sys2Proof.Machine.execFecWindowEnd n corr uncorr s
  | .ackTimeout n => Sys2Proof.Machine.execAckTimeout n s
  | .portTrained n tr => Sys2Proof.Machine.execPortTrained n tr s
  | .frefLost => Sys2Proof.Machine.execFrefLost s
  | .frefReturn => Sys2Proof.Machine.execFrefReturn s
  | .scrubStep u errs => Sys2Proof.Machine.execScrubStep u errs s
  | .remapService u => Sys2Proof.Machine.execRemapService u s
  | .memTempSample u base dram => Sys2Proof.Machine.execMemTempSample u base dram s
  | .powerInterval x => Sys2Proof.Machine.execPowerInterval x s
  | .peakWindowClose => Sys2Proof.Machine.execPeakWindowClose s
  | .minuteClose => Sys2Proof.Machine.execMinuteClose s
  | .forecastRecompute => Sys2Proof.Machine.execForecastRecompute s
  | .beatWindowUpdate t w => Sys2Proof.Machine.execBeatWindowUpdate t w s
  | .sorterHeartbeatTimeout => Sys2Proof.Machine.execSorterHeartbeatTimeout s
  | .powerOn => Sys2Proof.Machine.execPowerOn s
  | .powerOff => Sys2Proof.Machine.execPowerOff s
  | .resetNFall => Sys2Proof.Machine.execResetNFall s
  | .resetNRise => Sys2Proof.Machine.execResetNRise s
  | .rimClocksRun => Sys2Proof.Machine.execRimClocksRun s
  | .postmasterStart => Sys2Proof.Machine.execPostmasterStart s
  | .floorPlanBuild => Sys2Proof.Machine.execFloorPlanBuild s
  | .stackTrainingDone out => Sys2Proof.Machine.execStackTrainingDone out s
  | .attPrepared => Sys2Proof.Machine.execAttPrepared s
  | .attCeilingWritten => Sys2Proof.Machine.execAttCeilingWritten s
  | .getReport nonce => Sys2Proof.Machine.execGetReport nonce s
  | .getCert => Sys2Proof.Machine.execGetCert s
  | .getSigState => Sys2Proof.Machine.execGetSigState s
  | .calRead off => Sys2Proof.Machine.execCalRead off s
  | .calArm waive => Sys2Proof.Machine.execCalArm waive s
  | .calWrite off data => Sys2Proof.Machine.execCalWrite off data s
  | .calCommit compl digest => Sys2Proof.Machine.execCalCommit compl digest s
  | .calCancel => Sys2Proof.Machine.execCalCancel s
  | .calArmExpiry => Sys2Proof.Machine.execCalArmExpiry s
  | .fieldRemapCopied => Sys2Proof.Machine.execFieldRemapCopied s
  | .trainingSettingsSaved => Sys2Proof.Machine.execTrainingSettingsSaved s

end Sys2Proof.Machine
end

