-- ==== Sys2Proof/Machine/Tick.lean ====
section
/-! DEFINITION. What the block does by itself while no command waits: one period of its time clock (spec/02 R59,
R60). -/

namespace Sys2Proof.Machine

/-- One cycle of the rim time clock, on both rims: R59 lets their copies differ by up to 2 ns, and the model keeps one value
for both (DESIGN CHOICE, log 99). POSTMARK counts one nanosecond, and a slew adds its fraction (R59, R60). Units of
`frac` and `slew` are parts in 250,000 of a nanosecond. -/
def tickTime (t : TimeBase) : TimeBase :=
  let t := { t with cycles := t.cycles + 1 }
  if !t.running then t
  else
    let f := t.frac + t.slew
    if 250000 ≤ f then { t with pm := (t.pm + 2) % 2 ^ 64, frac := f - 250000 }
    else if f ≤ -250000 then { t with frac := f + 250000 }
    else { t with pm := (t.pm + 1) % 2 ^ 64, frac := f }

/-- The empty queue: the time clock of a module that is on runs on, what waited for a lock or a reply is tried again (05 R138,
R139, 18 R472), and ports return freed buffers and tell their ACKs (14 R351 to R353). -/
def tick (s : State) : State :=
  if powered s then
    (List.range 12).foldl linkIdle (retryTiles (retryWaiting { s with time := tickTime s.time }))
  else s

end Sys2Proof.Machine
end

