-- ==== Sys2Proof/Safety.lean ====
section
/-! DEFINITION. The terms in which statements about runs of the block are made: what a cluster executes next, how an
instruction or an operation ends, the tables of instructions that the rules give by name, and what a good state keeps. -/

namespace Sys2Proof.Machine

/-! ## Cluster programs (spec/06) -/

/-- Cluster p runs program g and stands at the word w: nothing is waited for, no quiesce is in progress, the code parcel has been fetched from
before, and another word of the store follows. -/
structure AtWord (s : State) (p : Nat) (g : Prog) (w : Nat) : Prop where
  runs : (s.seq p).prog = some g
  ready : (s.seq p).wait = .none
  going : (s.lclu g.lclu).quiescing = false
  fresh : (s.seq p).resuming = false
  aligned : (s.seq p).pc % 4 = 0
  inside : (s.seq p).pc + 4 < 0x400000
  fetched : (storeKey p (s.seq p).pc - storeKey p (s.seq p).pc % 4096) ∈ g.checked
  word : leAt (memBytes s (storeKey p (s.seq p).pc) 4) 0 4 = w

/-- The state after an instruction that leaves cluster p's sequencer registers as q and goes on at the next word. -/
def retiredAs (s : State) (p : Nat) (q : Seq) : State := s.setSeq p { q with pc := q.pc + 4 }

/-- The same, with what the instruction raised posted to the vector engine's registers and to the program's operation. -/
def postedAs (s : State) (p : Nat) (g : Prog) (q : Seq) (t : Tally) : State :=
  opTally (s.setClu p { s.clu p with seq := { q with pc := q.pc + 4 }, ve := arithPost (s.clu p).ve t }) g.slot t none

/-- An operation of the ledger that is still to end. -/
def OpRuns (s : State) (slot : Nat) (o : Op) : Prop := s.op slot = some o ∧ o.rcpt.state = .inProgress

/-- The operation of a slot has ended in error, PARTIAL when its count was above zero (00 R15). -/
def EndedIn (t : State) (slot : Nat) (o : Op) (status detail : Nat) : Prop :=
  ∃ x, t.op slot = some x ∧ x.rcpt.state = (if 0 < o.rcpt.count then RState.partialEnd else RState.failed) ∧
    x.rcpt.status = status ∧ x.rcpt.detail = detail ∧ x.rcpt.count = o.rcpt.count

/-- An integer as a 64-bit register value, modulo 2^64. -/
def wrap64 (i : Int) : W64 := BitVec.ofInt 64 i

/-- Class 0x0 in FN order (06 R161): the instruction, and sd as a function of sa and sb (R553). -/
def scalRows : List ((PClu → Scal → Instr) × (W64 → W64 → W64)) :=
  [(Instr.add, fun x y => wrap64 (x.toInt + y.toInt)),
   (Instr.sub, fun x y => wrap64 (x.toInt - y.toInt)),
   (Instr.mul, fun x y => wrap64 (x.toInt * y.toInt)),
   (Instr.mulh, fun x y => wrap64 (x.toInt * y.toInt / 2 ^ 64)),
   (Instr.mulhu, fun x y => BitVec.ofNat 64 (x.toNat * y.toNat / 2 ^ 64)),
   (Instr.and, fun x y => x &&& y),
   (Instr.or, fun x y => x ||| y),
   (Instr.xor, fun x y => x ^^^ y)] ++
  [(Instr.shl, fun x y => BitVec.ofNat 64 (x.toNat * 2 ^ (y.toNat % 64))),
   (Instr.shr, fun x y => BitVec.ofNat 64 (x.toNat / 2 ^ (y.toNat % 64))),
   (Instr.sra, fun x y => wrap64 (x.toInt / 2 ^ (y.toNat % 64))),
   (Instr.min, fun x y => wrap64 (min x.toInt y.toInt)),
   (Instr.max, fun x y => wrap64 (max x.toInt y.toInt)),
   (Instr.slt, fun x y => if x.toInt < y.toInt then 1 else 0),
   (Instr.sltu, fun x y => if x.toNat < y.toNat then 1 else 0)]

/-- Class 0x1 in FN order: sd as a function of sa and the signed immediate. -/
def immRows : List ((PClu → ScalImm → Instr) × (W64 → Int → W64)) :=
  [(Instr.addi, fun x i => wrap64 (x.toInt + i)),
   (Instr.andi, fun x i => x &&& wrap64 i),
   (Instr.ori, fun x i => x ||| wrap64 i),
   (Instr.xori, fun x i => x ^^^ wrap64 i),
   (Instr.shli, fun x i => BitVec.ofNat 64 (x.toNat * 2 ^ (i % 64).toNat)),
   (Instr.shri, fun x i => BitVec.ofNat 64 (x.toNat / 2 ^ (i % 64).toNat)),
   (Instr.srai, fun x i => wrap64 (x.toInt / 2 ^ (i % 64).toNat)),
   (Instr.slti, fun x i => if x.toInt < i then 1 else 0),
   (Instr.shin, fun x i => BitVec.ofNat 64 (x.toNat * 2 ^ 14 + (i % 2 ^ 14).toNat))]

/-- The conditional branches in FN order, each with its condition. -/
def branchRows : List ((PClu → Bran → Instr) × (W64 → W64 → Prop)) :=
  [(Instr.beq, fun x y => x = y), (Instr.bne, fun x y => x ≠ y),
   (Instr.blt, fun x y => x.toInt < y.toInt), (Instr.bge, fun x y => y.toInt ≤ x.toInt),
   (Instr.bltu, fun x y => x.toNat < y.toNat), (Instr.bgeu, fun x y => y.toNat ≤ x.toNat)]

/-- An offset that an instruction can be fetched from (06 R153). -/
def fetchable (t : Int) : Prop := 0 ≤ t ∧ t < 0x400000 ∧ t % 4 = 0

/-- Class 0x6 arithmetic in OP order: the instruction, whether its VS1 field is reserved, and the result of a lane from
the rounding, the values of vs1, of the second operand and of the old lane (06 R163, R552). -/
def elemRows : List ((PClu → VArith → Instr) × Bool × ((Val → Res) → Val → Val → Val → Res)) :=
  [(Instr.vadd, false, fun rd x y _ => resInv (rd (valAdd x y).1) (valAdd x y).2),
   (Instr.vsub, false, fun rd x y _ => resInv (rd (valSub x y).1) (valSub x y).2),
   (Instr.vmul, false, fun rd x y _ => resInv (rd (valMul x y).1) (valMul x y).2),
   (Instr.vfma, false, fun rd x y z => resInv (rd (valAdd (valMul x y).1 z).1) ((valMul x y).2 || (valAdd (valMul x y).1 z).2)),
   (Instr.vfms, false, fun rd x y z =>
      resInv (rd (valSub (valMul x y).1 z).1) ((valMul x y).2 || (valSub (valMul x y).1 z).2))] ++
  [(Instr.vdiv, false, fun rd x y _ =>
      { resInv (rd (valDiv x y).1) (valDiv x y).2.1 with
        fl := flagsOr (resInv (rd (valDiv x y).1) (valDiv x y).2.1).fl ⟨false, (valDiv x y).2.2, false, false⟩ }),
   (Instr.vsqrt, true, fun rd _ y _ => resInv (rd (valSqrt y).1) (valSqrt y).2),
   (Instr.vmin, false, fun rd x y _ => resInv (rd (valMin x y)) (valIsSig x || valIsSig y)),
   (Instr.vmax, false, fun rd x y _ => resInv (rd (valMax x y)) (valIsSig x || valIsSig y))]

/-- Class 0x6 instructions that move bits, from OP 9: the result bits of a lane from the width and the two operands. -/
def bitRows : List ((PClu → VArith → Instr) × Bool × (Nat → Nat → Nat → Nat)) :=
  [(Instr.vabs, true, fun w _ y => y % 2 ^ (w - 1)),
   (Instr.vneg, true, fun w _ y => (y + 2 ^ (w - 1)) % 2 ^ w),
   (Instr.vcopysign, false, fun w x y => x % 2 ^ (w - 1) + y / 2 ^ (w - 1) * 2 ^ (w - 1)),
   (Instr.vmov, true, fun _ _ y => y),
   (Instr.vand, false, fun _ x y => x &&& y),
   (Instr.vor, false, fun _ x y => x ||| y),
   (Instr.vxor, false, fun _ x y => x ^^^ y)]

/-- Every lane of register vd of a format, after an instruction on the registers q0 whose active lanes take `val`: an idle
or masked-off lane and every other register are unchanged (06 R159, R160). -/
def LanesBecome (q0 q : Seq) (f : Fmt) (r : VRegs) (val : Nat → Nat) : Prop :=
  q = { q0 with vreg := q.vreg } ∧ (∀ v, v ≠ r.vd.toNat → q.v v = q0.v v) ∧
  ∀ i, i < laneCap f → elemAt f (q.v r.vd.toNat) i =
    if activeAt q0 r i then val i % 2 ^ fmtBits f else elemAt f (q0.v r.vd.toNat) i

/-- What the active lanes of an instruction raised, together. -/
def raised (l : List Nat) (val : Nat → Res) : Tally := l.foldl (fun a i => tallyAdd a (resTally (val i))) {}

/-- Elements of the register group of a format from vd: the elements listed take their values; every other element of a
register of the group, and every register outside it, is unchanged. -/
def GroupBecomes (q0 q : Seq) (f : Fmt) (vd n : Nat) (l : List Nat) (val : Nat → Nat) : Prop :=
  (∀ v, ¬ (vd ≤ v ∧ v < vd + groupRegs f n) → q.v v = q0.v v) ∧
  ∀ i, i < groupRegs f n * laneCap f → groupAt q f vd i = if i ∈ l then val i % 2 ^ fmtBits f else groupAt q0 f vd i

/-- REDACC.SUM, .SUMSQ and .DOT in OP order: whether the accumulator must be wide, and an element's term (06 R169). -/
def redAccRows : List ((PClu → VRed → Instr) × Bool × (Val → Val → Val × Bool)) :=
  [(Instr.redaccSum, false, fun x _ => (x, valIsSig x)), (Instr.redaccSumsq, true, fun x _ => valMul x x),
   (Instr.redaccDot, false, fun x y => valMul x y)]

/-- The compares in OP order (06 R163). -/
def cmpRows : List ((PClu → VRegs → Instr) × (Val → Val → Bool)) :=
  [(Instr.vcmpEq, fun x y => valEq x y), (Instr.vcmpNe, fun x y => !valEq x y), (Instr.vcmpLt, fun x y => valLt x y),
   (Instr.vcmpLe, fun x y => valLt x y || valEq x y), (Instr.vcmpUn, fun x y => valIsNan x || valIsNan y)]

/-- The logic of mask registers, from OP 5. -/
def maskRows : List ((PClu → VRegs → Instr) × (Bool → Bool → Bool)) :=
  [(Instr.mand, fun x y => x && y), (Instr.mor, fun x y => x || y), (Instr.mxor, fun x y => xor x y),
   (Instr.mandn, fun x y => x && !y)]

/-- The cluster whose own local store logical number n names: p backs n, n is no dead letter, no compute reset runs and no
transfer of the tile's sequencer is to fail. -/
structure OwnStore (s : State) (p n : Nat) : Prop where
  lclu : n < 2048
  backs : physOfN s n = p
  alive : isDead s n = false
  running : s.boot.computeReset = false
  paths : s.chk.pathFail = []

/-- Device address of byte `off` of logical cluster n's local store (01 R43). -/
def storeAddr (n off : Nat) : Nat := 0x400000000000 + n * 0x400000 + off

/-- Store offset of an access to logical cluster n's local store. -/
def accOff (n : Nat) (x : MemAcc) : Nat := x.a.toNat - storeAddr n 0

/-- An aligned access inside logical cluster n's local store, whose parcels hold good seals. -/
def OwnAcc (s : State) (p n : Nat) (x : MemAcc) : Prop :=
  x.ok = true ∧ storeAddr n 0 ≤ x.a.toNat ∧ accOff n x + x.n ≤ 0x400000 ∧ accOff n x % 4096 + x.n ≤ 4096 ∧
  sealDeltaOf s (storeKey p (accOff n x)) = 0

/-- No engine, program or courier holds a read lock on the parcels an access alters, and no operation of the same stream
step has delivered to them. -/
def Unlocked (s : State) (p slot off : Nat) : Prop :=
  readLocked s (.prog p) (storeKey p off) = false ∧ clashOf s slot (storeKey p off - storeKey p off % 4096) = none

/-- Byte b of memory belongs to an access to cluster p's store. -/
def covers (p n : Nat) (x : MemAcc) (b : Nat) : Prop :=
  storeKey p (accOff n x) ≤ b ∧ b < storeKey p (accOff n x) + x.n

/-- What a store to the executing cluster's own local store changes: memory, the cluster's sequencer, and the record of
deliveries of the stream's step. -/
def StoredAs (s t : State) (p : Nat) : Prop :=
  t = { s with store := t.store, core := t.core, streams := t.streams } ∧
  t.store = { s.store with bytes := t.store.bytes, sealDelta := t.store.sealDelta } ∧
  t.core = { s.core with clus := t.core.clus } ∧ (∀ x, x ≠ p → t.clu x = s.clu x) ∧
  t.clu p = { s.clu p with seq := { s.seq p with pc := (s.seq p).pc + 4 } }

/-- The solver's rows: each with the method, or the derivative kind, of the requests it serves (08 R208, 09 R236). -/
def solveRows : List ((GroupNo → Nat → Instr) × Nat) :=
  [(Instr.assembleOnly, 0), (Instr.luSolve, 1), (Instr.choleskySolve, 2), (Instr.qrSolve, 3), (Instr.cgSolve, 0x10),
   (Instr.bicgstabSolve, 0x11), (Instr.gmresSolve, 0x12), (Instr.qpSolve, 0x20), (Instr.gaussNewtonSolve, 0x21),
   (Instr.adjointSolve, 0x100), (Instr.tangentSolve, 0x101)]

/-- The collective requests' rows, each with its KIND (15 R383). -/
def collRows : List ((Slot → Nat → Instr) × Nat) :=
  [(Instr.allReduce, 0), (Instr.reduceScatter, 1), (Instr.allGather, 2), (Instr.collectiveBroadcast, 3),
   (Instr.collectiveReduce, 4)]

/-- What was read for the sources of a piece, source by source. -/
def gatherBufs (keys : List (List Nat)) (l : List (List Byte)) : List (List Byte) :=
  (List.range keys.length).map (fun i =>
    ((l.drop (i * (keys.headD []).length)).take (keys.headD []).length).flatMap id)

/-- Courier c stands in a phase of round r at the instruction b, which is under way, or which a fetch from parcels
checked before gives it (13 R328 to R331). -/
structure AtIns (s : State) (c : Nat) (r : Round) (b : List Byte) (ph : CrrPhase) : Prop where
  round : (s.courier c).round = some r
  phase : (s.courier c).phase = ph
  fine : r.fault = none
  held : heldIns s c r = (s, { r with ins := some b }, .ins b)
  waits : ph = .waiting → r.ins = some b

/-- An operation as the end of a round leaves its count: its last output unit is whole unless a MOVE was under way
(13 R341). -/
def roundCounted (o : Op) (r : Round) : Op :=
  { o with rcpt := { o.rcpt with count := max o.rcpt.count (roundUnits r) } }

/-- Nothing but courier c changes, which becomes x. -/
def CourierBecomes (s t : State) (c : Nat) (x : Courier) : Prop :=
  t = { s with couriers := t.couriers } ∧ t.courier c = x ∧ ∀ j, j ≠ c → t.courier j = s.courier j

/-- Courier c has no round, and has counted one more. -/
def RoundOver (s t : State) (c : Nat) : Prop :=
  t.store = s.store ∧ (∀ j, j ≠ c → t.courier j = s.courier j) ∧
  t.courier c = { s.courier c with round := none, phase := .idle, rounds := inc32 (s.courier c).rounds }

/-- A TLP through BAR2 arrives at an idle aperture of a module that answers (16 R404, R405); a is its device address. -/
structure ApReady (s : State) (off : Nat) (write : Bool) (a : Nat) : Prop where
  link : s.hif.linkUp = true
  stage : s.boot.stage ≠ 0
  idle : s.ring.waiting = []
  place : a = (s.hif.apActive.toNat + off) % 2 ^ 64
  answers : addrEarly s hostMaster write (BitVec.ofNat 64 a) = false

/-- A failed access through BAR2 is recorded (16 R406). -/
def ApFaulted (t : State) (a : Nat) (write : Bool) (status : Nat) : Prop :=
  t.hif.apFaultValid = true ∧ t.hif.apFaultDir = write ∧ t.hif.apFaultCause = status ∧
  t.hif.apFaultAddr = BitVec.ofNat 64 a

/-- A route leads to a chip. -/
def Routed (s : State) (dst : W16) : Prop := (routePacket s { h := { headerBlank with dst := dst }, data := [] }).isSome = true

/-- A packet that the checks of every receiver let through, of a kind and for this module (14 R356). -/
def ForUs (s : State) (p : Packet) (kind : Nat) : Prop :=
  packetBad p = false ∧ p.h.kind.toNat = kind ∧ dstHere s p.h.dst.toNat = true

/-- Port n holds x in its output queue, or it has gone out (14 R352). -/
def OnPort (t : State) (n : Nat) (x : Sent) : Prop := x ∈ t.sent ∨ ∃ q ∈ (t.port n).queue, q.item = x

/-- From state s on, x alone was put on port n: it has gone out, or waits there behind what is on its VC or for credits
(14 R352, R353). -/
def PutOnPort (s t : State) (n : Nat) (x : Sent) : Prop :=
  t.sent = s.sent ++ [x] ∨ (t.sent = s.sent ∧ ∃ q, (t.port n).queue = (s.port n).queue ++ [q] ∧ q.item = x)

/-- The block has answered a request's source from state s (14 R358, R376). -/
def Answered (s t : State) (h : Header) (kind : Byte) (status : Nat) (data : List Byte) (check : Nat) : Prop :=
  t = { s with sent := t.sent, ports := t.ports } ∧ ∃ n q, PutOnPort s t n (.packet n q) ∧ q.h.kind = kind ∧
    q.h.status = BitVec.ofNat 8 status ∧ q.h.dst = h.src ∧ q.h.src = h.dst ∧ q.h.tag = h.tag ∧ q.h.addr = h.addr ∧
    q.h.check = BitVec.ofNat 32 check ∧ q.data = data

/-- The rows of TIL_CLU_CTRL, which a write of the register carries out by its OP (18 R477). -/
def cluRows : List (Tile → Master → W32 → Instr) :=
  [Instr.quiesce, Instr.release, Instr.clusterReset, Instr.sleep, Instr.wake]

/-- Every byte of a range reads as zero, and every other byte of memory is unchanged. -/
def ClearedRange (s t : State) (a b : Nat) : Prop :=
  ∀ k, memByte t k = if a ≤ k ∧ k < b then 0 else memByte s k

/-- The security block can take a request at once: nothing waits, no image loads and no ceiling is being written (20 R512). -/
structure SecIdle (s : State) : Prop where
  stage : 2 ≤ s.boot.stage
  empty : s.sec.waiting = []
  idle : s.sec.attWriting = false
  loads : s.image.result ≠ 1

/-- The block has answered a request: the command, the code, two zero bytes and what follows (20 R515). -/
def Replied (s t : State) (cmd code : Nat) (rest : List Byte) : Prop :=
  t = { s with sec := t.sec, flash := t.flash, sent := t.sent } ∧ t.sec.waiting = [] ∧
  t.sent = s.sent ++ [.answer (bytesOfNat 1 cmd ++ bytesOfNat 1 code ++ zeroBytes 2 ++ rest)]

/-- What R519 asks of a commit: the window, the challenge's complement, the digest and the staged record itself. -/
def calHolds (s : State) (compl : W32) (digest : List Byte) : Bool :=
  match s.sec.armed with
  | some (c, t) => decide (t ≤ s.now ∧ s.now < t + calWindow) && compl.toNat == 2 ^ 32 - 1 - c.toNat &&
      digest == shake256 32 (stagedBytes s) && stagedSound s (stagedBytes s)
  | none => false

end Sys2Proof.Machine
end

