-- ==== Sys2Proof/Certificates/Slice0/Obligations.lean ====
section
/-! DEFINITION. The statements about the block, from the numbered rules of the specification. Each docstring names the
rules it formalises and, where a clause rests on a choice of the model, the log entry. -/

open Sys2Proof Sys2Proof.Machine

/-! ## Cluster programs: scalar instructions (spec/06) -/

/-- R553, R157, R159 (spec/06): every class 0x0 instruction writes sd with its value modulo 2^64, s0 excepted, goes on
at the next word, and changes nothing else. R161, R553: every class 0x1 instruction, with its immediate sign-
extended (SHIN's unsigned). -/
def Obligations.ScalarArithmetic : Prop :=
  (∀ (s : State) (p : PClu) (g : Prog) (a : Scal), ∀ e ∈ scalRows.zipIdx, AtWord s p g (encScal e.2 a) →
     exec (e.1.1 p a) s = .next (retiredAs s p ((s.seq p).setS a.sd.toNat
       (e.1.2 ((s.seq p).s a.sa.toNat) ((s.seq p).s a.sb.toNat))))) ∧
  (∀ (s : State) (p : PClu) (g : Prog) (a : ScalImm), ∀ e ∈ immRows.zipIdx, AtWord s p g (encImm e.2 a) →
     exec (e.1.1 p a) s = .next (retiredAs s p ((s.seq p).setS a.sd.toNat
       (e.1.2 ((s.seq p).s a.sa.toNat) a.imm.toInt))))

/-- R553, R153: a conditional branch goes to its own offset plus 4 × offset when its condition holds, and to the next
word otherwise; it changes the PC alone. R553: JAL and JALR write the offset of the following instruction to the
register in sa and go to their target, which JALR forms before it writes the link. -/
def Obligations.ControlTransfer : Prop :=
  (∀ (s : State) (p : PClu) (g : Prog) (a : Bran), ∀ e ∈ branchRows.zipIdx, AtWord s p g (encBran e.2 a) →
     (e.1.2 ((s.seq p).s a.sa.toNat) ((s.seq p).s a.sb.toNat) → fetchable ((s.seq p).pc + 4 * a.off.toInt) →
       exec (e.1.1 p a) s = .next (s.setSeq p { s.seq p with pc := ((s.seq p).pc + 4 * a.off.toInt).toNat })) ∧
     (¬ e.1.2 ((s.seq p).s a.sa.toNat) ((s.seq p).s a.sb.toNat) →
       exec (e.1.1 p a) s = .next (retiredAs s p (s.seq p)))) ∧
  (∀ (s : State) (p : PClu) (g : Prog) (a : Bran),
     (AtWord s p g (encBran 6 a) → fetchable ((s.seq p).pc + 4 * a.off.toInt) →
       exec (.jal p a) s = .next (s.setSeq p { (s.seq p).setS a.sa.toNat (wrap64 ((s.seq p).pc + 4)) with
         pc := ((s.seq p).pc + 4 * a.off.toInt).toNat })) ∧
     (AtWord s p g (encBran 7 a) →
       fetchable (wrap64 (((s.seq p).s a.sb.toNat).toInt + 4 * a.off.toInt)).toNat →
       exec (.jalr p a) s = .next (s.setSeq p { (s.seq p).setS a.sa.toNat (wrap64 ((s.seq p).pc + 4)) with
         pc := (wrap64 (((s.seq p).s a.sb.toNat).toInt + 4 * a.off.toInt)).toNat })))

/-- R153, R162: a taken branch, JAL or JALR whose target cannot be fetched from ends the program with
STRUCTURE_MISMATCH, its detail naming the instruction that led there; no link is written. R162: a word that the rule
does not admit ends the program with STRUCTURE_MISMATCH, whatever instruction the command names; its count decides
between PARTIAL and FAILED, and the PC names it. -/
def Obligations.ProgramErrors : Prop :=
  (∀ (s : State) (p : PClu) (g : Prog) (a : Bran) (o : Op), OpRuns s g.slot o →
     (∀ e ∈ branchRows.zipIdx, AtWord s p g (encBran e.2 a) →
       e.1.2 ((s.seq p).s a.sa.toNat) ((s.seq p).s a.sb.toNat) → ¬ fetchable ((s.seq p).pc + 4 * a.off.toInt) →
       ∃ t, exec (e.1.1 p a) s = .next t ∧ (t.seq p).prog = none ∧
         EndedIn t g.slot o stStruct (0xFFFFFF0A + 2 ^ 32 * (s.seq p).pc)) ∧
     (AtWord s p g (encBran 6 a) → ¬ fetchable ((s.seq p).pc + 4 * a.off.toInt) →
       ∃ t, exec (.jal p a) s = .next t ∧ (t.seq p).prog = none ∧ (t.seq p).sreg = (s.seq p).sreg ∧
         EndedIn t g.slot o stStruct (0xFFFFFF0A + 2 ^ 32 * (s.seq p).pc)) ∧
     (AtWord s p g (encBran 7 a) → ¬ fetchable (wrap64 (((s.seq p).s a.sb.toNat).toInt + 4 * a.off.toInt)).toNat →
       ∃ t, exec (.jalr p a) s = .next t ∧ (t.seq p).prog = none ∧ (t.seq p).sreg = (s.seq p).sreg ∧
         EndedIn t g.slot o stStruct (0xFFFFFF0A + 2 ^ 32 * (s.seq p).pc))) ∧
  (∀ (s : State) (p : PClu) (g : Prog) (a : Scal) (w : Nat) (o : Op), AtWord s p g w → OpRuns s g.slot o →
     wordLegal (s.seq p) w = false →
     ∃ t, exec (.add p a) s = .next t ∧ (t.seq p).prog = none ∧ t.store = s.store ∧
       EndedIn t g.slot o stStruct (0xFFFFFF0A + 2 ^ 32 * (s.seq p).pc))

/-- R152, R155, R156, R181 (spec/06), R15 (spec/00): FENCE goes on; TIME reads the time base; COUNT raises the committed
count and never lowers it; LOSS posts element 0 of its vector register for the step in sa; HALT ends the program
DONE; TEWAIT goes on when the tensor engine is idle with none queued. R155, R178 (spec/06): TEISSUE puts the
descriptor at its own-store offset in the tensor engine's queue and goes on; ERET stands again at the faulted memory
instruction, to go on from RESUME; the end of a TEWAIT's wait retires it. -/
def Obligations.SystemInstructions : Prop :=
  (∀ (s : State) (p : PClu) (g : Prog) (r1 r2 : BitVec 5),
     (AtWord s p g (encSys 4 0 0 0) → exec (.fence p) s = .next (retiredAs s p (s.seq p))) ∧
     (AtWord s p g (encSys 9 r1.toNat 0 0) →
       exec (.time p r1) s = .next (retiredAs s p ((s.seq p).setS r1.toNat (BitVec.ofNat 64 s.now)))) ∧
     (AtWord s p g (encSys 7 0 r2.toNat 0) → ((s.seq p).s r2.toNat).toNat < 2 ^ 32 →
       ∀ o, s.op g.slot = some o →
       exec (.count p r2) s = .next (retiredAs (s.setOp g.slot { o with rcpt := { o.rcpt with
         count := max o.rcpt.count ((s.seq p).s r2.toNat).toNat } }) p (s.seq p))) ∧
     (AtWord s p g (encSys 8 r1.toNat r2.toNat 0) →
       exec (.loss p r1 r2) s = .next (retiredAs { s with core := { s.core with posts := s.core.posts ++
         [⟨g.lclu, g.stream, ((s.seq p).s r2.toNat).toNat % 2 ^ 32, ((s.seq p).v r1.toNat).toNat % 2 ^ 64⟩] } } p (s.seq p))) ∧
     (AtWord s p g (encSys 6 0 0 0) → (s.clu p).te.run = none → (s.clu p).te.queue = [] →
       exec (.tewait p) s = .next (retiredAs s p (s.seq p))) ∧
     (AtWord s p g (encSys 2 0 0 0) → ∀ o, OpRuns s g.slot o → o.sat = 0 → o.nonfin = 0 → o.warns = [] →
       ∃ t, exec (.halt p) s = .next t ∧ (t.seq p).prog = none ∧ t.store = s.store ∧
         t.op g.slot = some { o with
           place := .final, rcpt := { o.rcpt with state := .done, status := 0, detail := 0, postmark := s.now } })) ∧
  (∀ (s : State) (p : PClu) (g : Prog) (r : BitVec 5),
     (AtWord s p g (encSys 5 0 r.toNat 0) → s.boot.computeReset = false → teGrants s p ownSeq = true →
       ∀ off, off = ((s.seq p).s r.toNat).toNat → off % 64 = 0 → off + 64 ≤ 0x400000 →
       sealDeltaOf s (storeKey p off) = 0 → tdMalformed (memBytes s (storeKey p off) 64) = none →
       exec (.teissue p r) s = .next (s.setClu p { s.clu p with
         te := { (s.clu p).te with queue := (s.clu p).te.queue ++ [⟨g.slot, true, memBytes s (storeKey p off) 64⟩] },
         seq := { s.seq p with pc := (s.seq p).pc + 4 } })) ∧
     (AtWord s p g (encSys 3 0 0 0) →
       ∀ w, leAt (memBytes s (storeKey p (s.seq p).epc) 4) 0 4 = w → (w / 2 ^ 28 = 11 ∨ w / 2 ^ 28 = 12) →
       (storeKey p (s.seq p).epc - storeKey p (s.seq p).epc % 4096) ∈ g.checked →
       (s.seq p).resume < (s.seq p).act →
       exec (.eret p) s = .next (s.setSeq p { s.seq p with pc := (s.seq p).epc, inHandler := false, resuming := true })) ∧
     (∀ q : Seq, (s.seq p) = { q with wait := .tensor } → AtWord (s.setSeq p q) p g (encSys 6 0 0 0) →
       leAt (memBytes s (storeKey p q.pc) 4) 0 4 = encSys 6 0 0 0 →
       (s.clu p).te.run = none → (s.clu p).te.queue = [] →
       exec (.sequencerWaitEnd p) s = .next (retiredAs s p q)))

/-- R158, R556: SHAPE sets EFMT and ACT and returns what is left over; VMVS and VMSV move one element whatever EFMT and
ACT hold. R182, R162: CSRR reads and CSRW writes the cluster's own sequencer registers: the vector control, trap
vector, return offset, key, counter and position registers take the value; a read returns what they hold. -/
def Obligations.VectorMovesAndControl : Prop :=
  (∀ (s : State) (p : PClu) (g : Prog),
     (∀ (sd sa : BitVec 5) (fmt : BitVec 4), fmt.toNat < 12 → AtWord s p g (encCfg 0 sd.toNat sa.toNat fmt.toNat 0) →
       ∀ n, n = ((s.seq p).s sa.toNat).toNat →
       exec (.shape p sd sa fmt) s = .next (retiredAs s p
         (Seq.setS { s.seq p with efmt := fmt.toNat, act := min n (laneCap (fmtOr fmt.toNat)) } sd.toNat
           (BitVec.ofNat 64 (n - laneCap (fmtOr fmt.toNat)))))) ∧
     (∀ a : ElemMove, a.fmt.toNat < 11 → a.idx.toNat < laneCap (fmtOr a.fmt.toNat) →
       (AtWord s p g (encCfg 1 a.sr.toNat a.vr.toNat a.fmt.toNat a.idx.toNat) →
         exec (.vmvs p a) s = .next (retiredAs s p ((s.seq p).setS a.sr.toNat
           (BitVec.ofNat 64 (((s.seq p).v a.vr.toNat).toNat / 2 ^ (fmtBits (fmtOr a.fmt.toNat) * a.idx.toNat) %
             2 ^ fmtBits (fmtOr a.fmt.toNat)))))) ∧
       (AtWord s p g (encCfg 2 a.sr.toNat a.vr.toNat a.fmt.toNat a.idx.toNat) →
         ∃ q, exec (.vmsv p a) s = .next (retiredAs s p q) ∧ q = { s.seq p with vreg := q.vreg } ∧
           (∀ v, v ≠ a.vr.toNat → q.v v = (s.seq p).v v) ∧
           ∀ i, i < laneCap (fmtOr a.fmt.toNat) → elemAt (fmtOr a.fmt.toNat) (q.v a.vr.toNat) i =
             if i = a.idx.toNat then ((s.seq p).s a.sr.toNat).toNat % 2 ^ fmtBits (fmtOr a.fmt.toNat)
             else elemAt (fmtOr a.fmt.toNat) ((s.seq p).v a.vr.toNat) i))) ∧
  (∀ (s : State) (p : PClu) (g : Prog) (r : BitVec 5) (x : Nat), x = ((s.seq p).s r.toNat).toNat % 2 ^ 32 →
     (AtWord s p g (encSys 1 0 r.toNat 0xC2) →
       exec (.csrw p r 0xC2) s = .next (retiredAs s p { s.seq p with trapVec := x / 4 % 2 ^ 20 * 4 })) ∧
     (AtWord s p g (encSys 1 0 r.toNat 0xC3) →
       exec (.csrw p r 0xC3) s = .next (retiredAs s p { s.seq p with epc := x / 4 % 2 ^ 20 * 4 })) ∧
     (AtWord s p g (encSys 1 0 r.toNat 0xC4) →
       exec (.csrw p r 0xC4) s = .next (retiredAs s p { s.seq p with satWide := x % 2 == 1 })) ∧
     (AtWord s p g (encSys 0 r.toNat 0 0xC1) →
       exec (.csrr p r 0xC1) s = .next (retiredAs s p ((s.seq p).setS r.toNat (BitVec.ofNat 64 (s.seq p).pc)))) ∧
     (AtWord s p g (encSys 0 r.toNat 0 0xC3) → fetchable (s.seq p).epc →
       exec (.csrr p r 0xC3) s = .next (retiredAs s p ((s.seq p).setS r.toNat (BitVec.ofNat 64 (s.seq p).epc)))) ∧
     (AtWord s p g (encSys 0 r.toNat 0 0xC5) → (s.seq p).efmt < 12 →
       exec (.csrr p r 0xC5) s = .next (retiredAs s p ((s.seq p).setS r.toNat (BitVec.ofNat 64 (s.seq p).efmt)))) ∧
     (AtWord s p g (encSys 0 r.toNat 0 0xC6) → (s.seq p).act ≤ 1024 →
       exec (.csrr p r 0xC6) s = .next (retiredAs s p ((s.seq p).setS r.toNat (BitVec.ofNat 64 (s.seq p).act)))))

/-! ## Vector instructions on registers (spec/06) -/

/-- R163, R552, R159, R160: an elementwise arithmetic instruction rounds one exact value per active lane; idle and
masked-off lanes and every other register keep theirs; what it raised is posted once. R163, R552, R74 (spec/03):
VABS, VNEG, VCOPYSIGN, VMOV, VAND, VOR and VXOR move bits and raise nothing. The upper half that a scalar operand
broadcasts to an f64 pair is a free value of the scalar (log 20). -/
def Obligations.Elementwise : Prop :=
  (∀ (s : State) (p : PClu) (g : Prog) (a : VArith), ∀ e ∈ elemRows.zipIdx, AtWord s p g (encArith 6 e.2 a) →
     (s.seq p).efmt ≤ 3 → a.rm ≠ 2 → a.src ≠ 3 → (e.1.2.1 = true → a.r.vs1 = 0) →
     ∀ (f : Fmt) (val : Nat → Res), f = (s.seq p).fmt →
     (val = fun i => e.1.2.2 (roundAny f (rmPlain a.rm) (s.seq p).satWide)
       (decodeVal f (elemAt f ((s.seq p).v a.r.vs1.toNat) i)) (decodeVal f (srcAt (s.seq p) f a.r a.src.toNat i))
       (decodeVal f (elemAt f ((s.seq p).v a.r.vd.toNat) i))) →
     ∃ q, exec (e.1.1 p a) s = .next (postedAs s p g q (raised (activeList (s.seq p) a.r) val)) ∧
       LanesBecome (s.seq p) q f a.r (fun i => (val i).bits)) ∧
  (∀ (s : State) (p : PClu) (g : Prog) (a : VArith), ∀ e ∈ bitRows.zipIdx, AtWord s p g (encArith 6 (9 + e.2) a) →
     (e.2 < 3 → (s.seq p).efmt ≤ 3) → a.rm ≠ 2 → a.src ≠ 3 → (e.1.2.1 = true → a.r.vs1 = 0) →
     ∀ (f : Fmt), f = (s.seq p).fmt →
     ∃ q, exec (e.1.1 p a) s = .next (postedAs s p g q {}) ∧
       LanesBecome (s.seq p) q f a.r (fun i => e.1.2.2 (fmtBits f) (elemAt f ((s.seq p).v a.r.vs1.toNat) i)
         (srcAt (s.seq p) f a.r a.src.toNat i +
           (if f = .pair ∧ a.src = 1 then (Config.pairHigh ((s.seq p).s a.r.vs2.toNat)).toNat else 0) * 2 ^ 64)))

/-- R164, R165: VWMUL and VWFMA write the wide format's lanes over a register group, each an exact product, or product
and sum, rounded once; VDOTW adds r products to each wide lane under one rounding. R166 to R168, R94: VCVT rounds
each active element, scaled when SCALE is set, once into FMT_D; stochastic rounding takes position SR_POS + i and
moves SR_POS on by ACT; CAP_COUNT grows by the active elements. -/
def Obligations.Conversions : Prop :=
  (∀ (s : State) (p : PClu) (g : Prog) (a : VArith) (q0 : Seq) (f w : Fmt), q0 = s.seq p → f = q0.fmt → w = wideOf f →
     ∀ (sat : Bool) (rd : Val → Res) (x y : Nat → Val), sat = q0.satWide → rd = roundAny w (rmPlain a.rm) sat →
     (x = fun i => decodeVal f (elemAt f (q0.v a.r.vs1.toNat) i)) →
     (y = fun i => decodeVal f (srcAt q0 f a.r a.src.toNat i)) →
     (AtWord s p g (encArith 7 0 a) → legalWiden q0 (encArith 7 0 a) = true →
       ∃ q, exec (.vwmul p a) s = .next (postedAs s p g q (raised (activeList q0 a.r)
           (fun i => resInv (rd (valMul (x i) (y i)).1) (valMul (x i) (y i)).2))) ∧
         q = { q0 with vreg := q.vreg } ∧ GroupBecomes q0 q w a.r.vd.toNat q0.act (activeList q0 a.r)
           (fun i => (rd (valMul (x i) (y i)).1).bits)) ∧
     (AtWord s p g (encArith 7 1 a) → legalWiden q0 (encArith 7 1 a) = true →
       ∃ q, exec (.vwfma p a) s = .next (postedAs s p g q (raised (activeList q0 a.r)
           (fun i => resInv (rd (mulAdd (x i) (y i) (decodeVal w (groupAt q0 w a.r.vd.toNat i))).1)
             (mulAdd (x i) (y i) (decodeVal w (groupAt q0 w a.r.vd.toNat i))).2))) ∧
         q = { q0 with vreg := q.vreg } ∧ GroupBecomes q0 q w a.r.vd.toNat q0.act (activeList q0 a.r)
           (fun i => (rd (mulAdd (x i) (y i) (decodeVal w (groupAt q0 w a.r.vd.toNat i))).1).bits)) ∧
     (AtWord s p g (encArith 7 2 a) → legalWiden q0 (encArith 7 2 a) = true →
       ∃ q t, exec (.vdotw p a) s = .next (postedAs s p g q t) ∧ q = { q0 with vreg := q.vreg } ∧
         GroupBecomes q0 q w a.r.vd.toNat (q0.act / dotDepth f)
           ((List.range (q0.act / dotDepth f)).filter (fun j => !a.r.msk || (q0.m a.r.vm.toNat).getLsbD j))
           (fun j => (rd (exactSum (decodeVal w (elemAt w (q0.v a.r.vd.toNat) j) ::
             (List.range (dotDepth f)).map (fun k => (valMul (x (dotDepth f * j + k)) (y (dotDepth f * j + k))).1))).1).bits))) ∧
  (∀ (s : State) (p : PClu) (g : Prog) (a : VConv) (q0 : Seq) (d : Fmt), q0 = s.seq p → d = fmtOr a.fmtD.toNat →
     AtWord s p g (encConv a) → legalConv q0 (encConv a) = true →
     ∀ (x : Nat → Val) (val : Nat → Res),
     (x = fun i => decodeVal q0.fmt (elemAt q0.fmt (q0.v a.r.vs1.toNat) i)) →
     (val = fun i => roundAny d (rmOfField a.rm.toNat q0.srKey q0.srCounter (q0.srPos + BitVec.ofNat 64 i)) q0.satWide
       (if a.scale then (valMul (x i) (fpDecode .f32 ((q0.s a.r.vs2.toNat).toNat % 2 ^ 32))).1 else x i)) →
     ∃ q t, exec (.vcvt p a) s = .next (postedAs s p g q t) ∧
       q = { q0 with vreg := q.vreg, srPos := q.srPos, capMax := q.capMax, capSqerr := q.capSqerr, capCount := q.capCount } ∧
       q.srPos = (if a.rm = 2 then q0.srPos + BitVec.ofNat 64 q0.act else q0.srPos) ∧
       q.capCount = (if a.cap then q0.capCount + BitVec.ofNat 64 (activeList q0 a.r).length else q0.capCount) ∧
       (a.cap = false → q.capMax = q0.capMax ∧ q.capSqerr = q0.capSqerr) ∧
       GroupBecomes q0 q d a.r.vd.toNat q0.act (activeList q0 a.r) (fun i => (val i).bits))

/-- R169, R170, R105, R110 (spec/06, spec/04): REDINIT writes a fresh prefix record and zero into the rest of vd; a
REDACC of a sound record takes its ACT terms up; REDFIN of a finished record rounds it once into element 0 and posts
its flags; REDFOLD folds the run that follows the prefix. Nothing else changes. R170, R112 (spec/06, spec/04): a
record whose CHECK fails ends the program with SEAL_MISMATCH, and one that REDACC may not take up ends it with
STRUCTURE_MISMATCH, each with the record's ELEMENT and NEXT as the detail; no register changes. -/
def Obligations.Reductions : Prop :=
  (∀ (s : State) (p : PClu) (g : Prog) (a : VRed) (q0 : Seq) (d s1 : Nat), q0 = s.seq p → d = a.r.vd.toNat →
     s1 = a.r.vs1.toNat →
     (AtWord s p g (encRed 0 a) → legalRed (encRed 0 a) q0.efmt = true →
       ∃ v : VReg, exec (.redinit p a) s = .next (postedAs s p g (q0.setV d v) {}) ∧ v.toNat < 2 ^ 512 ∧
         regBytes v 0 = redBytes (initRec q0 a.r a.low)) ∧
     (∀ e ∈ redAccRows.zipIdx,
       AtWord s p g (encRed (e.2 + 1) a) → legalRed (encRed (e.2 + 1) a) q0.efmt = true → q0.act ≠ 0 →
       ∀ r, takeRec (regBytes (q0.v d) 0) 0 = .ok r → r.next + q0.act ≤ r.len →
         (q0.act % (recRow r).g = 0 ∨ r.next + q0.act = r.len) → r.fmt = q0.efmt → (e.1.2.1 = true → r.accF ≠ 0) →
       ∃ v : VReg, exec (e.1.1 p a) s = .next (postedAs s p g (q0.setV d v) {}) ∧
         v.toNat / 2 ^ 512 = (q0.v d).toNat / 2 ^ 512 ∧
         regBytes v 0 = redBytes (redAdvance (recRow r) q0.satWide r ((List.range q0.act).map (fun i =>
           if activeAt q0 a.r i then e.1.2.2 (decodeVal q0.fmt (elemAt q0.fmt (q0.v s1) i))
             (decodeVal q0.fmt (elemAt q0.fmt (q0.v a.r.vs2.toNat) i)) else (valZero, false))))) ∧
     (AtWord s p g (encRed 4 a) → legalRed (encRed 4 a) q0.efmt = true →
       ∀ r, takeRec (regBytes (q0.v s1) 0) 0 = .ok r → r.next = r.len → fmtOr a.fmtD.toNat ≠ .pair →
       ∃ q, exec (.redfin p a) s = .next (postedAs s p g q
           (resTally (redFinish (recRow r) (fmtOr a.fmtD.toNat) .rne q0.satWide r))) ∧ q = { q0 with vreg := q.vreg } ∧
         GroupBecomes q0 q (fmtOr a.fmtD.toNat) d (laneCap (fmtOr a.fmtD.toNat)) [0]
           (fun _ => (redFinish (recRow r) (fmtOr a.fmtD.toNat) .rne q0.satWide r).bits)) ∧
     (AtWord s p g (encRed 5 a) → legalRed (encRed 5 a) q0.efmt = true → q0.act ≠ 0 →
       ∀ r t, takeRec (regBytes (q0.v d) 0) 0 = .ok r → takeRec (regBytes (q0.v s1) 0) 1 = .ok t →
         r.fmt = t.fmt → r.accF = t.accF → r.len = t.len → r.opId = t.opId → r.element = t.element →
         r.accValid = false → t.accValid = true → 0 < t.next → r.next = (t.next - 1) / 4096 * 4096 →
       ∃ v : VReg, exec (.redfold p a) s = .next (postedAs s p g (q0.setV d v) {}) ∧
         v.toNat / 2 ^ 512 = (q0.v d).toNat / 2 ^ 512 ∧
         regBytes v 0 = redBytes (redFoldAcc (recRow r) q0.satWide
           { r with next := t.next, satSeen := r.satSeen || t.satSeen, fl := flagsOr r.fl t.fl } t.accHi t.accLo))) ∧
  (∀ (s : State) (p : PClu) (g : Prog) (a : VRed) (o : Op) (q0 : Seq) (r : RedRec), q0 = s.seq p → OpRuns s g.slot o →
     r = redOfBytes (regBytes (q0.v a.r.vd.toNat) 0) → q0.act ≠ 0 →
     ∀ e ∈ redAccRows.zipIdx, AtWord s p g (encRed (e.2 + 1) a) → legalRed (encRed (e.2 + 1) a) q0.efmt = true →
     (redCheckOk (regBytes (q0.v a.r.vd.toNat) 0) = false →
       ∃ t, exec (e.1.1 p a) s = .next t ∧ (t.seq p).prog = none ∧ (t.seq p).vreg = q0.vreg ∧
         EndedIn t g.slot o stSeal (detail2 r.element r.next)) ∧
     (redCheckOk (regBytes (q0.v a.r.vd.toNat) 0) = true →
       (r.len < r.next + q0.act ∨ r.fmt ≠ q0.efmt ∨ r.kind ≠ 0 ∨ (e.1.2.1 = true ∧ r.accF = 0)) →
       ∃ t, exec (e.1.1 p a) s = .next t ∧ (t.seq p).prog = none ∧ (t.seq p).vreg = q0.vreg ∧
         EndedIn t g.slot o stStruct (detail2 r.element r.next)))

/-- R171: REDMAX, REDMIN and REDAMAX write element 0 of vd as the extreme of its element 0 and every active element of
vs1, rounded into EFMT; every other element keeps its bits. R172 (spec/06), R117, R118 (spec/04): MVINIT starts two
records with the wide accumulator and c = 0; MVACC of sound records sets c at its first term and takes up d = x − c
and d²; MVFIN writes the mean and the variance. -/
def Obligations.ReductionResults : Prop :=
  (∀ (s : State) (p : PClu) (g : Prog) (a : VRed) (q0 : Seq) (d : Nat) (e : Fmt), q0 = s.seq p → d = a.r.vd.toNat →
     e = q0.fmt → q0.act ≠ 0 →
     ∀ x ∈ [(Instr.redmax, valMax), (Instr.redmin, valMin), (Instr.redamax, valAbsmax)].zipIdx,
       AtWord s p g (encRed (6 + x.2) a) → legalRed (encRed (6 + x.2) a) q0.efmt = true →
       ∃ q t, exec (x.1.1 p a) s = .next (postedAs s p g q t) ∧ q = { q0 with vreg := q.vreg } ∧
         GroupBecomes q0 q e d (laneCap e) [0] (fun _ => (roundAny e .rne q0.satWide
           (((activeList q0 a.r).map (fun i => decodeVal e (elemAt e (q0.v a.r.vs1.toNat) i))).foldl x.1.2
             (x.1.2 (decodeVal e (elemAt e (q0.v d) 0)) (decodeVal e (elemAt e (q0.v d) 0))))).bits)) ∧
  (∀ (s : State) (p : PClu) (g : Prog) (a : VRed) (q0 : Seq) (d : Nat), q0 = s.seq p → d = a.r.vd.toNat →
     (AtWord s p g (encRed 9 a) → legalRed (encRed 9 a) q0.efmt = true →
       ∃ v : VReg, exec (.mvinit p a) s = .next (postedAs s p g (q0.setV d v) {}) ∧ v.toNat < 2 ^ 1024 ∧
         regBytes v 0 = redBytes (initRec q0 a.r true) ∧ regBytes v 64 = redBytes (initRec q0 a.r true)) ∧
     (AtWord s p g (encRed 10 a) → legalRed (encRed 10 a) q0.efmt = true → q0.act ≠ 0 →
       ∀ r t, takeTwo (q0.v d) = .ok (r, t) → redTakes q0 r = true → redTakes q0 t = true →
       ∃ (v : VReg) (y : Tally) (c c1 : Nat), exec (.mvacc p a) s = .next (postedAs s p g (q0.setV d v) y) ∧
         c = (if r.next = 0 then f64Round (decodeVal q0.fmt (elemAt q0.fmt (q0.v a.r.vs1.toNat) 0))
           else (q0.v d).toNat / 2 ^ 1024 % 2 ^ 64) ∧
         c1 = (if ∀ i, i < q0.act → valFinite (decodeVal q0.fmt (elemAt q0.fmt (q0.v a.r.vs1.toNat) i)) = true then c
           else fmtNan .f64) ∧
         v.toNat / 2 ^ 1024 % 2 ^ 64 = c1 % 2 ^ 64 ∧
         regBytes v 0 = redBytes (redAdvance (recRow r) q0.satWide r ((List.range q0.act).map (fun i =>
           valSub (decodeVal q0.fmt (elemAt q0.fmt (q0.v a.r.vs1.toNat) i)) (f64Val c))))) ∧
     (AtWord s p g (encRed 11 a) → legalRed (encRed 11 a) q0.efmt = true →
       ∀ r t, takeTwo (q0.v a.r.vs1.toNat) = .ok (r, t) → r.next = r.len → t.next = t.len →
       ∀ x, x = meanVar q0.satWide ((q0.v a.r.vs1.toNat).toNat / 2 ^ 1024 % 2 ^ 64) r t a.low →
       ∃ q y, exec (.mvfin p a) s = .next (postedAs s p g q y) ∧ q = { q0 with vreg := q.vreg } ∧
         GroupBecomes q0 q .f64 d 64 [0, 1] (fun i => if i = 0 then x.1.bits else x.2.bits)))

/-- R160, R163 (spec/06): a compare writes the active bits of its mask register, leaves masked-off bits below ACT and
clears every bit from ACT up; NaN operands compare false but for NE and UN; with ACT = 0 it changes nothing. -/
def Obligations.Compares : Prop :=
  ∀ (s : State) (p : PClu) (g : Prog) (r : VRegs) (q0 : Seq) (f : Fmt) (x y : Nat → Val), q0 = s.seq p → f = q0.fmt →
    q0.efmt ≤ 3 → (x = fun i => decodeVal f (elemAt f (q0.v r.vs1.toNat) i)) →
    (y = fun i => decodeVal f (elemAt f (q0.v r.vs2.toNat) i)) →
    ∀ e ∈ cmpRows.zipIdx, AtWord s p g (encMask e.2 r) →
      ∃ q t, exec (e.1.1 p r) s = .next (postedAs s p g q t) ∧ q = { q0 with mreg := q.mreg } ∧
        (t.fl.invalid = true ↔ ∃ i ∈ activeList q0 r, valIsSig (x i) = true ∨ valIsSig (y i) = true) ∧
        (∀ m, m ≠ r.vd.toNat % 8 → q.m m = q0.m m) ∧
        ∀ i, i < 1024 → (q.m (r.vd.toNat % 8)).getLsbD i =
          if q0.act = 0 then (q0.m (r.vd.toNat % 8)).getLsbD i
          else if activeAt q0 r i then e.1.2 (x i) (y i)
          else if i < q0.act then (q0.m (r.vd.toNat % 8)).getLsbD i else false

/-- R160, R161 (spec/06): MAND, MOR, MXOR and MANDN write active bits alone; MFIRST gives the lowest active set index or −1,
MPOP the number of active set bits; MSET sets the low bits up to its count and clears every other one. -/
def Obligations.MaskInstructions : Prop :=
  ∀ (s : State) (p : PClu) (g : Prog) (r : VRegs) (q0 : Seq) (m1 m2 md : Nat), q0 = s.seq p → m1 = r.vs1.toNat % 8 →
    m2 = r.vs2.toNat % 8 → md = r.vd.toNat % 8 →
    (∀ e ∈ maskRows.zipIdx, AtWord s p g (encMask (5 + e.2) r) →
      ∃ q, exec (e.1.1 p r) s = .next (postedAs s p g q {}) ∧ q = { q0 with mreg := q.mreg } ∧
        (∀ m, m ≠ md → q.m m = q0.m m) ∧
        ∀ i, i < 1024 → (q.m md).getLsbD i =
          if activeAt q0 r i then e.1.2 ((q0.m m1).getLsbD i) ((q0.m m2).getLsbD i) else (q0.m md).getLsbD i) ∧
    (AtWord s p g (encMask 9 r) → q0.act ≠ 0 →
      ∃ v : W64, exec (.mfirst p r) s = .next (postedAs s p g (q0.setS r.vd.toNat v) {}) ∧
        ((∃ i, v = BitVec.ofNat 64 i ∧ i < q0.act ∧ activeAt q0 r i ∧ (q0.m m1).getLsbD i ∧
            ∀ j, j < i → ¬ (activeAt q0 r j ∧ (q0.m m1).getLsbD j)) ∨
          (v = wrap64 (-1) ∧ ∀ j, ¬ (activeAt q0 r j ∧ (q0.m m1).getLsbD j)))) ∧
    (AtWord s p g (encMask 10 r) → q0.act ≠ 0 →
      exec (.mpop p r) s = .next (postedAs s p g (q0.setS r.vd.toNat (BitVec.ofNat 64
        ((List.range q0.act).filter (fun i => activeAt q0 r i && (q0.m m1).getLsbD i)).length)) {})) ∧
    (AtWord s p g (encMask 11 r) →
      ∃ v : MReg, exec (.mset p r) s = .next (postedAs s p g (q0.setM md v) {}) ∧
        ∀ i, i < 1024 → (v.getLsbD i ↔ i < (q0.s r.vs1.toNat).toNat))

/-! ## The window accumulator (spec/06 R173, R174; spec/04 R119 to R126) -/

/-- R173, R119, R174: WACC and WACC1 admit every term when none is at or above the window, and none of them otherwise,
when the program ends with WINDOW_OVERFLOW. R173, R121, R122, R126: WRD writes the window's value to element 0; WCLR
clears the window and applies a pending base; WBOUND raises sd to the bound of the active elements; WBASE leaves its
base pending. -/
def Obligations.WindowInstructions : Prop :=
  (∀ (s : State) (p : PClu) (g : Prog) (a : VWin) (c : Clu) (o : Op), c = s.clu p → OpRuns s g.slot o →
     ∀ e ∈ [(Instr.wacc, valMul), (Instr.wacc1, fun x _ => (x, valIsSig x))].zipIdx,
       AtWord s p g (encWin e.2 a) → legalWin (encWin e.2 a) = true →
       ∀ ts, ts = winTerms c.seq a.r e.1.2 →
       ((∀ x ∈ ts, winRefuses c.win.base x.1 = false) →
         ∃ t y, exec (e.1.1 p a) s = .next t ∧ t = opTally (s.setClu p { c with
             win := (t.clu p).win, ve := arithPost c.ve y, seq := { c.seq with pc := c.seq.pc + 4 } }) g.slot y none ∧
           (t.clu p).win = ts.foldl (fun w x => winAdmit w x.1) c.win) ∧
       ((∃ x ∈ ts, winRefuses c.win.base x.1 = true) →
         ∃ t d, exec (e.1.1 p a) s = .next t ∧ (t.clu p).win = { c.win with overflow := true } ∧
           EndedIn t g.slot o stWinOvf d)) ∧
  (∀ (s : State) (p : PClu) (g : Prog) (a : VWin) (c : Clu), c = s.clu p →
     (AtWord s p g (encWin 2 a) → legalWin (encWin 2 a) = true → ∀ f : Fmt, f = (if a.low = 1 then .pair else .f64) →
       ∃ q, exec (.wrd p a) s = .next (postedAs s p g q (resTally (roundAny f .rne false (winVal c.win)))) ∧
         q = { c.seq with vreg := q.vreg } ∧
         GroupBecomes c.seq q f a.r.vd.toNat (laneCap f) [0] (fun _ => (roundAny f .rne false (winVal c.win)).bits)) ∧
     (AtWord s p g (encWin 3 a) → legalWin (encWin 3 a) = true →
       exec (.wclr p a) s = .next (s.setClu p { c with
         seq := { c.seq with pc := c.seq.pc + 4 },
         win := { c.win with w := 0, terms := 0, base := c.win.pending.getD c.win.base, pending := none } })) ∧
     (AtWord s p g (encWin 4 a) → legalWin (encWin 4 a) = true → c.seq.act ≠ 0 →
       ∃ v : Int, exec (.wbound p a) s = .next (retiredAs s p (c.seq.setS a.r.vd.toNat (wrap64 v))) ∧
         (∀ u, (u = (c.seq.s a.r.vd.toNat).toInt ∨ ∃ i ∈ activeList c.seq a.r, termBound (a.low == 1)
             (decodeVal c.seq.fmt (elemAt c.seq.fmt (c.seq.v a.r.vs1.toNat) i))
             (decodeVal c.seq.fmt (elemAt c.seq.fmt (c.seq.v a.r.vs2.toNat) i)) = some u) → u ≤ v) ∧
         (v = (c.seq.s a.r.vd.toNat).toInt ∨ ∃ i ∈ activeList c.seq a.r, termBound (a.low == 1)
             (decodeVal c.seq.fmt (elemAt c.seq.fmt (c.seq.v a.r.vs1.toNat) i))
             (decodeVal c.seq.fmt (elemAt c.seq.fmt (c.seq.v a.r.vs2.toNat) i)) = some v)) ∧
     (AtWord s p g (encWin 5 a) → legalWin (encWin 5 a) = true → ∀ b : Int, b = (c.seq.s a.r.vs1.toNat).toInt →
       -32768 ≤ b → b ≤ 31000 →
       exec (.wbase p a) s = .next (s.setClu p { c with
         seq := { c.seq with pc := c.seq.pc + 4 },
         win := { c.win with pending := some (if b = -32768 then -2148
           else if b + a.low.toNat - 959 < -32768 then b + a.low.toNat - 959 + 65536 else b + a.low.toNat - 959) } })))

/-! ## Memory instructions and program start (spec/06) -/

/-- R161, R175, R176: an aligned scalar access to the cluster's own local store. A load zero-extends its bytes into sd
and changes nothing else; a store writes the low bytes of its register and the parcel's new seal, and every other
byte of memory reads as before. R175, R178, R179: a misaligned scalar access fails with BUS_ERROR and ends the
program with VECTOR_FAULT, with no element index, the cause, the direction and the address; it stores nothing and
never enters the handler. -/
def Obligations.ScalarMemory : Prop :=
  (∀ (s : State) (p : PClu) (g : Prog) (a : ScalMem) (n off k : Nat), OwnStore s p n → k < 4 →
     ((s.seq p).s a.sa.toNat + BitVec.ofInt 64 a.off.toInt).toNat = storeAddr n off → off % 2 ^ k = 0 → off < 0x400000 →
     sealDeltaOf s (storeKey p off) = 0 →
     (∀ c, [Instr.ld8, Instr.ld16, Instr.ld32, Instr.ld64][k]? = some c → AtWord s p g (encMem k a) →
       exec (c p a) s = .next (retiredAs s p ((s.seq p).setS a.sd.toNat
         (BitVec.ofNat 64 (natOfBytes (memBytes s (storeKey p off) (2 ^ k))))))) ∧
     (∀ c, [Instr.st8, Instr.st16, Instr.st32, Instr.st64][k]? = some c → AtWord s p g (encMem (4 + k) a) →
       Unlocked s p g.slot off →
       ∃ t, exec (c p a) s = .next t ∧ StoredAs s t p ∧
         (∀ b, ¬ (storeKey p off ≤ b ∧ b < storeKey p off + 2 ^ k) → memByte t b = memByte s b) ∧
         memBytes t (storeKey p off) (2 ^ k) = bytesOfNat (2 ^ k) ((s.seq p).s a.sd.toNat).toNat ∧
         sealDeltaOf t (storeKey p off) = 0)) ∧
  (∀ (s : State) (p : PClu) (g : Prog) (a : ScalMem) (o : Op) (v k : Nat), OpRuns s g.slot o → 1 ≤ k → k < 4 →
     v = ((s.seq p).s a.sa.toNat + BitVec.ofInt 64 a.off.toInt).toNat → v % 2 ^ k ≠ 0 →
     (∀ c, [Instr.ld8, Instr.ld16, Instr.ld32, Instr.ld64][k]? = some c → AtWord s p g (encMem k a) →
       ∃ t, exec (c p a) s = .next t ∧ t.store = s.store ∧ (t.seq p).prog = none ∧ (t.seq p).faultValid = true ∧
         (t.seq p).faultIndex = 0x7FF ∧ (t.seq p).faultDir = false ∧
         EndedIn t g.slot o stVector (0x43FFFF + 2 ^ 32 * (v % 2 ^ 32))) ∧
     (∀ c, [Instr.st8, Instr.st16, Instr.st32, Instr.st64][k]? = some c → AtWord s p g (encMem (4 + k) a) →
       (∀ x, accKey s (BitVec.ofNat 64 v) = some x → readLocked s (.prog p) x = false) →
       (accRemote s (BitVec.ofNat 64 v)).isNone →
       ∃ t, exec (c p a) s = .next t ∧ t.store = s.store ∧ (t.seq p).prog = none ∧ (t.seq p).faultValid = true ∧
         (t.seq p).faultIndex = 0x7FF ∧ (t.seq p).faultDir = true ∧
         EndedIn t g.slot o stVector (0x143FFFF + 2 ^ 32 * (v % 2 ^ 32))))

/-- R175, R177, R159: VLD and VGATHER of elements of 8 bits or wider that all lie in the cluster's own local store,
while its tensor engine runs nothing, write each active lane with its element's bytes and no other lane or register.
R175 to R177: VST and VSCATTER of elements of 8 bits or wider into the cluster's own local store write each active
element's bytes, those of the highest-indexed element where elements overlap; every other byte of memory reads as
before and the registers keep their values. -/
def Obligations.VectorMemory : Prop :=
  (∀ (s : State) (p : PClu) (g : Prog) (n : Nat) (f : Fmt), OwnStore s p n → f = (s.seq p).fmt → 8 ≤ fmtBits f →
     (s.clu p).te.run = none → (s.seq p).act ≤ laneCap f →
     (∀ a : VMem, AtWord s p g (encVMem 0 a) → (∀ x ∈ linearAccs (s.seq p) a.r a.strided, OwnAcc s p n x) →
       ∃ q, exec (.vld p a) s = .next (retiredAs s p q) ∧ LanesBecome (s.seq p) q f a.r (fun i =>
         natOfBytes (memBytes s (storeKey p (((s.seq p).s a.r.vs1.toNat + BitVec.ofNat 64 i *
           (if a.strided then (s.seq p).s a.r.vs2.toNat else BitVec.ofNat 64 (fmtBits f / 8))).toNat - storeAddr n 0))
           (fmtBits f / 8)))) ∧
     (∀ r : VRegs, AtWord s p g (encGath 0 r) → legalGath (s.seq p) (encGath 0 r) = true →
       (∀ x ∈ indexedAccs (s.seq p) r, OwnAcc s p n x) →
       ∃ q, exec (.vgather p r) s = .next (retiredAs s p q) ∧ LanesBecome (s.seq p) q f r (fun i =>
         natOfBytes (memBytes s (storeKey p (((s.seq p).s r.vs1.toNat +
           BitVec.ofNat 64 (groupAt (s.seq p) .f64 r.vs2.toNat i)).toNat - storeAddr n 0)) (fmtBits f / 8))))) ∧
  (∀ (s : State) (p : PClu) (g : Prog) (n : Nat), OwnStore s p n → 8 ≤ fmtBits (s.seq p).fmt →
     ∀ (c : Instr) (l : List MemAcc),
     ((∃ a : VMem, c = .vst p a ∧ AtWord s p g (encVMem 1 a) ∧ l = linearAccs (s.seq p) a.r a.strided) ∨
       (∃ r : VRegs, c = .vscatter p r ∧ AtWord s p g (encGath 1 r) ∧ legalGath (s.seq p) (encGath 1 r) = true ∧
         l = indexedAccs (s.seq p) r)) →
     (∀ x ∈ l, OwnAcc s p n x ∧ Unlocked s p g.slot (accOff n x)) →
     ∃ t, exec c s = .next t ∧ StoredAs s t p ∧
       (∀ b, (∀ x ∈ l, ¬ covers p n x b) → memByte t b = memByte s b) ∧
       (∀ x ∈ l, ∀ j, j < x.n → (∀ y ∈ l, x.i < y.i → ¬ covers p n y (storeKey p (accOff n x) + j)) →
         memByte t (storeKey p (accOff n x) + j) = BitVec.ofNat 8 (x.val / 2 ^ (8 * j))))

/-- R175, R177 to R179: when the first active element of a VLD or VGATHER is misaligned, the fault is recorded with its
index, BUS_ERROR and its address; with a handler the sequencer goes on there with RESUME and EPC written, and with none the
program ends with VECTOR_FAULT. -/
def Obligations.VectorFault : Prop :=
  ∀ (s : State) (p : PClu) (g : Prog) (o : Op) (c : Instr) (l : List MemAcc) (x : MemAcc) (rest : List MemAcc),
    OpRuns s g.slot o → 8 ≤ fmtBits (s.seq p).fmt → (s.clu p).te.run = none →
    ((∃ a : VMem, c = .vld p a ∧ AtWord s p g (encVMem 0 a) ∧ l = linearAccs (s.seq p) a.r a.strided) ∨
      (∃ r : VRegs, c = .vgather p r ∧ AtWord s p g (encGath 0 r) ∧ legalGath (s.seq p) (encGath 0 r) = true ∧
        l = indexedAccs (s.seq p) r)) →
    l = x :: rest → x.ok = false → (∀ y ∈ rest, (accRemote s y.a) = none) → accRemote s x.a = none →
    ((s.seq p).trapVec ≠ 0 → (s.seq p).inHandler = false →
      exec c s = .next (s.setSeq p { s.seq p with
        faultIndex := x.i, faultValid := true, faultDir := false, faultCause := stBus, faultAddr := x.a,
        resume := x.i, epc := (s.seq p).pc, pc := (s.seq p).trapVec, inHandler := true })) ∧
    ((s.seq p).trapVec = 0 ∨ (s.seq p).inHandler = true →
      ∃ t, exec c s = .next t ∧ (t.seq p).prog = none ∧ (t.seq p).vreg = (s.seq p).vreg ∧ (t.seq p).faultAddr = x.a ∧
        EndedIn t g.slot o stVector (detail2 (x.i + stBus * 2 ^ 16) x.a.toNat))

/-- R173, R120, R124 (spec/06, spec/04): WSAVE stores the 160 bytes of the window's record in the cluster's own store and
no other byte; WLOAD of a record whose CHECK holds and whose BASE is the window's combines it into the window. -/
def Obligations.WindowRecords : Prop :=
  ∀ (s : State) (p : PClu) (g : Prog) (a : VWin) (n off : Nat), OwnStore s p n →
    ((s.seq p).s a.r.vs1.toNat).toNat = storeAddr n off → off + 160 ≤ 0x400000 →
    sealDeltaOf s (storeKey p off) = 0 → sealDeltaOf s (storeKey p (off + 159)) = 0 →
    (AtWord s p g (encWin 6 a) → legalWin (encWin 6 a) = true →
      Unlocked s p g.slot off → Unlocked s p g.slot (off + 159) →
      ∃ t, exec (.wsave p a) s = .next t ∧ StoredAs s t p ∧
        (∀ b, ¬ (storeKey p off ≤ b ∧ b < storeKey p off + 160) → memByte t b = memByte s b) ∧
        memBytes t (storeKey p off) 160 = winBytes (s.clu p).win) ∧
    (AtWord s p g (encWin 7 a) → legalWin (encWin 7 a) = true →
      winCheckOk (memBytes s (storeKey p off) 160) = true →
      (winOfBytes (memBytes s (storeKey p off) 160)).base = (s.clu p).win.base →
      exec (.wload p a) s = .next (s.setClu p { s.clu p with
        win := winCombine (s.clu p).win (winOfBytes (memBytes s (storeKey p off) 160)),
        seq := { s.seq p with pc := (s.seq p).pc + 4 } }))

/-- R152, R154, R183: a queued program starts on an idle sequencer: PC at the entry offset, s1 to s4 the argument, the
operation id, the logical number and the stream, every other register zero, EFMT f64, and its receipt IN_PROGRESS. -/
def Obligations.ProgramStarts : Prop :=
  ∀ (s : State) (n : LClu) (slot entry : Nat) (rest : List Nat) (o : Op) (arg : W64) (q : Seq),
    (s.seq (physOfN s n)).prog = none → (s.lclu n).progs = slot :: rest → mayStart s n = true →
    s.op slot = some o → o.rcpt.state = .notStarted → entry = leAt o.payload 4 4 → entry % 4 = 0 → entry < 0x400000 →
    arg = BitVec.ofNat 64 (leAt o.payload 8 8) →
    ∃ t, exec (.programStart n) s = .next t ∧ t.store = s.store ∧ (t.lclu n).progs = rest ∧
      t.op slot = some { o with place := .running, rcpt := { o.rcpt with state := .inProgress } } ∧
      (q = t.seq (physOfN s n) → q.pc = entry ∧ q.s 1 = arg ∧ q.s 2 = BitVec.ofNat 64 o.rcpt.opId ∧
        q.s 3 = BitVec.ofNat 64 n ∧ q.s 4 = BitVec.ofNat 64 o.rcpt.stream ∧ (∀ r, r = 0 ∨ 4 < r → q.s r = 0) ∧
        q.vreg = [] ∧ q.mreg = [] ∧ q.satWide = false ∧ q.efmt = 0 ∧ q.act = 0 ∧ q.resume = 0 ∧ q.trapVec = 0 ∧
        q.srKey = 0 ∧ q.srCounter = 0 ∧ q.srPos = 0 ∧ q.capMax = 0 ∧ q.capSqerr = 0 ∧ q.capCount = 0 ∧
        q.faultValid = false ∧ q.prog.isSome)

/-! ## The tensor engine and its inspection (spec/05, spec/19) -/

/-- R133 to R135 (spec/05): a descriptor issued to a live, awake cluster whose engine has room, and accepts its turn, is
malformed or waits in its engine; to a
dead letter or a sleeping cluster it fails. The first queued one starts on an idle engine of a cluster that may run: it
leaves the queue, becomes the current operation and adds its record beats. -/
def Obligations.TensorDescriptors : Prop :=
  (∀ (s : State) (slot : Slot) (o : Op), s.op slot = some o → o.kind = 1 → o.place = .atIssuer → o.rcpt.state = .notStarted →
    (isDead s o.target = true → ∃ t, exec (.tensorDescriptor slot) s = .next t ∧ t.core.clus = s.core.clus ∧
      t.store = s.store ∧ ∃ x, t.op slot = some x ∧ x.rcpt.state = .failed ∧ x.rcpt.status = stDead) ∧
    (isDead s o.target = false → isAsleep s o.target = true →
      ∃ t, exec (.tensorDescriptor slot) s = .next t ∧ t.core.clus = s.core.clus ∧ t.store = s.store ∧
      ∃ x, t.op slot = some x ∧ x.rcpt.state = .failed ∧ x.rcpt.status = stNotReady) ∧
    (isDead s o.target = false → isAsleep s o.target = false → teGrants s (physOfN s o.target) slot = true →
      (tdMalformed o.payload = none →
        ∃ t, exec (.tensorDescriptor slot) s = .next t ∧ t = { s with core := t.core, ledger := t.ledger } ∧
          t.op slot = some { o with place := .queued } ∧
          t.core = { s.core with clus := t.core.clus, lclus := t.core.lclus } ∧
          t.clu (physOfN s o.target) = { s.clu (physOfN s o.target) with
            te := { (s.clu (physOfN s o.target)).te with
              queue := (s.clu (physOfN s o.target)).te.queue ++ [⟨slot, false, o.payload⟩] } }) ∧
      (∀ e, tdMalformed o.payload = some e →
        ∃ t, exec (.tensorDescriptor slot) s = .next t ∧ t.core.clus = s.core.clus ∧ t.store = s.store ∧
          ∃ x, t.op slot = some x ∧ x.rcpt.state = .failed ∧ x.rcpt.status = stStruct ∧
            x.rcpt.detail = detail2 (0xFFFFFF00 + e.2) e.1))) ∧
  (∀ (s : State) (n : LClu) (p : Nat) (i : TeItem) (rest : List TeItem), p = physOfN s n → (s.clu p).te.run = none →
    (s.clu p).te.queue = i :: rest → mayStart s n = true →
    ∃ t, exec (.gemmStart n) s = .next t ∧ (t.clu p).te.queue = rest ∧
      (t.clu p).te.curOp = (tdescOf i.desc).opId ∧
      (t.clu p).te.beats = ((s.clu p).te.beats + 96 + ((tdescOf i.desc).inCount + 15) / 16) % 2 ^ 64 ∧
      t.store.bytes = s.store.bytes ∧ ((t.clu p).te.run = none ∨ ∃ r, (t.clu p).te.run = some r ∧ r.item = i))

/-- R126 (spec/04), R116, R144 (spec/04, spec/05): a write of CLU_WA_BASE that the checks let through leaves its base
pending; a suspension with nothing running completes at once with no records; an abort ends the running operation of a
descriptor in RESET_ABORTED, or DONE where its last parcel commits, and empties the array. -/
def Obligations.TensorRegisterActions : Prop :=
  ∀ (s : State) (p : PClu) (m : Master),
    (∀ v : W32, regGate s m.toNat (cluBase p + 0x180) true = .ok →
      exec (.waBaseWrite p m v) s = .next (s.setClu p { s.clu p with
        win := { (s.clu p).win with pending := some ((v.toNat % 2 ^ 16 : Nat) - (if v.toNat.testBit 15 then 65536 else 0) : Int) } })) ∧
    (regGate s m.toNat (cluBase p + 0x1C0) true = .ok → (s.clu p).te.redSave.toNat % 64 = 0 →
      (s.clu p).te.redPhase ≠ 1 → (s.clu p).te.susp = none → (s.clu p).te.run = none →
      exec (.suspend p m) s = .next (s.setClu p { s.clu p with
        te := { (s.clu p).te with redPhase := 2, redRecords := 0 } })) ∧
    (regGate s m.toNat (cluBase p + 0x1C0) true = .ok → (s.clu p).te.redSave.toNat % 64 ≠ 0 →
      exec (.suspend p m) s = .next (s.setClu p { s.clu p with te := { (s.clu p).te with redPhase := 3 } })) ∧
    (regGate s m.toNat (cluBase p + 0x200) true = .ok → ∀ r o, (s.clu p).te.run = some r → (s.clu p).te.susp = none →
      r.item.byProg = false → OpRuns s r.item.slot o →
      ∃ t, exec (.teAbort p m) s = .next t ∧ (t.clu p).te.run = none ∧ (t.clu p).te.queue = (s.clu p).te.queue ∧
        ∃ x, t.op r.item.slot = some x ∧ rstateFinal x.rcpt.state = true)

/-- R147, R139 (spec/05): when a band is done its beats are counted, and whatever commits or starts then, no byte of
memory outside the operation's output parcels changes; the recompute of a held parcel leaves its bytes with the
hold. R485 to R489 (spec/19): the recheck names the case. In cases 1 to 4 the parcel is released with the recomputed
bytes (case 2) or the original ones; in case 5 no byte of memory changes, the operation ends INSPECTOR_UNRESOLVED
and the cluster is quarantined where it was NORMAL. -/
def Obligations.BandsAndInspector : Prop :=
  (∀ (s : State) (n : LClu) (p : Nat) (r : TeRun) (d : TDesc), p = physOfN s n → (s.clu p).te.run = some r →
     d = tdescOf r.item.desc →
     (∀ bad, r.band < d.bands → (s.clu p).te.susp = none →
       ∃ t, exec (.teBandDone n bad) s = .next t ∧
         (t.clu p).te.beats = ((s.clu p).te.beats + d.bandBeats) % 2 ^ 64 ∧ (t.clu p).te.queue = (s.clu p).te.queue ∧
         (t.clu p).seq = (s.clu p).seq ∧ (t.clu p).win = (s.clu p).win ∧
         ∀ b, ¬ (storeKey p d.outOff ≤ b ∧ b < storeKey p (d.outOff + d.outParcels * 4096)) →
           memByte t b = memByte s b) ∧
     (∀ h k bytes, r.hold = some h → h.recompute = some k → h.c = none → bytes.length = 4096 →
       recomputeCheck s p r d h.parcel = (s, none) →
       exec (.inspectorRecompute n bytes) s = .next (s.setClu p { s.clu p with
         te := { (s.clu p).te with run := some { r with hold := some { h with c := some bytes } } } }))) ∧
  (∀ (s : State) (n : LClu) (p : Nat) (r : TeRun) (d : TDesc) (h : Hold) (o : Op) (k m : Nat) (cb lines : List Byte) (case : Nat),
     p = physOfN s n → (s.clu p).te.run = some r → d = tdescOf r.item.desc → r.hold = some h → h.recompute = some k →
     h.recheck = some m → h.c = some cb → cb.length = 4096 → h.orig.length = 4096 → lines ≠ [] → r.item.byProg = false →
     OpRuns s r.item.slot o → readLocked s (.te p) (storeKey p (d.outOff + h.parcel * 4096)) = false →
     case = outcomeCase h (runLines r d h.parcel) (some lines) →
     (case = 1 ↔ h.parity = false ∧ cb = h.orig ∧ lines = linesOf h.orig (runLines r d h.parcel)) ∧
     (case ≠ 5 → s.boot.computeReset = false →
       clashOf s r.item.slot (storeKey p (d.outOff + h.parcel * 4096)) = none →
       p < 2304 → d.outOff + (h.parcel + 1) * 4096 ≤ 0x400000 → d.outOff % 4096 = 0 → r.next = h.parcel →
       ∃ t, exec (.inspectorRecheck n lines) s = .next t ∧
         memBytes t (storeKey p (d.outOff + h.parcel * 4096)) 4096 = (if case = 2 then cb else h.orig)) ∧
     (case = 5 →
       ∃ t, exec (.inspectorRecheck n lines) s = .next t ∧ (t.clu p).te.run = none ∧
         ((s.clu (physOfN s k)).te.run = none ∨ physOfN s k = p → t.store.bytes = s.store.bytes) ∧
         ((s.clu p).chk.state = .normal → (t.clu p).chk.state = .quarantined) ∧
         EndedIn t r.item.slot o stInspUnres (detail2 h.parcel (5 + k * 2 ^ 16))))

/-- R482, R490 to R493 (spec/19): a suspect cluster on which nothing runs enters its test from stage S5; a test with no equal
run is a permanent fault and counts one, one with an equal run below the hourly limit is transient and returns the cluster
to NORMAL; the hour clears every cluster's TRANSIENTS; a parity error is counted, and one in control logic resets the
module. -/
def Obligations.RepeatTestsAndParity : Prop :=
  (∀ (s : State) (p : PClu), (s.clu p).chk.state = .suspect → cluStill s p = true → s.boot.computeReset = false →
    5 ≤ s.boot.stage →
    exec (.repeatTestStart p) s = .next (s.setClu p { s.clu p with chk := { (s.clu p).chk with state := .testing } })) ∧
  (∀ (s : State) (p : PClu) (k : Fin 4), (s.clu p).chk.state = .testing → s.boot.computeReset = false →
    s.chk.hour = s.now / 3600000000000 →
    ∃ t, exec (.repeatTestDone p k) s = .next t ∧ t.store.bytes = s.store.bytes ∧
      (k.val = 0 → t.chk.permanent = inc32 s.chk.permanent ∧ t.chk.transient = s.chk.transient ∧
        (s.chk.autoRetire = false → (t.clu p).chk.state = .quarantined)) ∧
      (k.val ≠ 0 → (s.clu p).chk.transients + 1 < s.chk.transLimit →
        t.chk.transient = inc32 s.chk.transient ∧ t.chk.permanent = s.chk.permanent ∧
        (t.clu p).chk.state = .normal ∧ (t.clu p).chk.transients = min ((s.clu p).chk.transients + 1) 255)) ∧
  (∀ s : State, KSorted s.core.clus → s.chk.hour ≠ s.now / 3600000000000 →
    ∃ t, exec .transientWindow s = .next t ∧ t.chk = { s.chk with hour := s.now / 3600000000000 } ∧
      t = { s with chk := t.chk, core := { s.core with clus := t.core.clus } } ∧
      ∀ p, t.clu p = { s.clu p with chk := { (s.clu p).chk with transients := 0 } }) ∧
  (∀ s : State, s.boot.stage ≠ 0 → s.pins.power = true →
    (∀ p : PClu, (s.seq p).prog = none →
      ∃ t, exec (.parityError (.vectorEngine p)) s = .next t ∧ t.chk.parity = inc32 s.chk.parity ∧
        ((s.clu p).chk.state = .normal → (t.clu p).chk.state = .suspect) ∧ t.store = s.store) ∧
    (∃ t, exec (.parityError .control) s = .next t ∧ t.boot.resetCause = 5))

/-! ## Letterboxes, streams, the ledger and register space (spec/00, spec/02, spec/16 to spec/18) -/

/-- R409, R412, R413 (spec/16): a visit that finds the ring's next entry ready and whole, on a free slot, allocates the slot
NOT_STARTED in its stream and moves TAIL on; an entry whose slot cannot be allocated is passed over and counted; one whose
phase is not the ring's leaves TAIL where it is. -/
def Obligations.CollectionVisit : Prop :=
  ∀ (s : State) (k : GroupNo) (b : List Byte) (x : Letterbox), x = s.box k → boxRuns s k = true → x.lastVisit = none →
    x.tail < 2 ^ 32 →
    (leAt b 0 1 % 2 ≠ ringPhase x.tail x.sizeLog2 →
      ∃ t, exec (.collectionVisit k [b]) s = .next t ∧ t.ledger = s.ledger ∧ t.streams = s.streams ∧ t.store = s.store ∧
        (t.box k).tail = x.tail) ∧
    (leAt b 0 1 % 2 = ringPhase x.tail x.sizeLog2 → crc32c (overlay b 60 (zeroBytes 4)) = leAt b 60 4 →
      (131072 ≤ entrySlot b ∨ (s.op (entrySlot b)).isSome = true →
        ∃ t, exec (.collectionVisit k [b]) s = .next t ∧ t.ledger = s.ledger ∧ t.streams = s.streams ∧
          t.hif.refusal = true ∧ t.ring.refuseValid = true ∧ t.ring.refuseBox = k ∧
          t.ring.refuseEntry = x.tail % 2 ^ x.sizeLog2 ∧ t.ring.refuseSlot = entrySlot b ∧
          (t.box k).refused = inc32 x.refused ∧ (t.box k).tail = (x.tail + 1) % 2 ^ 32) ∧
      (entrySlot b < 131072 → s.op (entrySlot b) = none → entryFault s b = none → leAt b 1 1 ≠ 7 →
        (s.strm (leAt b 8 2)).halted = false → (∀ e ∈ s.ledger, opDoomed s e.2 = none) → entryDeps b = [] →
        ∃ t, exec (.collectionVisit k [b]) s = .next t ∧ t.store = s.store ∧ t.core = s.core ∧
          t.op (entrySlot b) = some (entryOp k (s.strm (leAt b 8 2)).step b) ∧
          (t.strm (leAt b 8 2)).ops = (s.strm (leAt b 8 2)).ops ++ [entrySlot b] ∧
          (t.box k).collected = inc32 x.collected ∧ (t.box k).tail = (x.tail + 1) % 2 ^ 32))

/-- R411, R414, R415, R424 (spec/16), R152 (spec/06): a failed visit stops the letterbox; an operation whose dependencies and
predecessors allow it is handed to its unit, a program to its cluster's queue; a SYNC ends DONE once everything before it in
its stream is; a letterbox's vector is sent when its window ends. -/
def Obligations.StreamsIssue : Prop :=
  (∀ (s : State) (k : GroupNo), boxRuns s k = true →
    ∃ t, exec (.letterboxReadTimeout k) s = .next t ∧ t.box k = { s.box k with enable := false, stop := 1, badRun := 0 } ∧
      t.hif.lbFault = true ∧ t.ledger = s.ledger ∧ t.store = s.store) ∧
  (∀ (s : State) (slot : Slot) (o : Op), s.op slot = some o → opReady s slot o = true →
    (o.kind ≠ 7 → o.kind ≠ 2 → exec (.operationIssue slot) s = .next (s.setOp slot { o with place := .atIssuer })) ∧
    (o.kind = 2 → isDead s o.target = false → isAsleep s o.target = false →
      ∃ t, exec (.operationIssue slot) s = .next t ∧ t.op slot = some { o with place := .queued } ∧
        (t.lclu o.target).progs = (s.lclu o.target).progs ++ [slot.val] ∧ t.store = s.store)) ∧
  (∀ (s : State) (slot : Slot) (o : Op), s.op slot = some o → o.kind = 7 → o.rcpt.state = .notStarted → o.sat = 0 →
    o.nonfin = 0 → o.warns = [] → (∀ d ∈ o.deps, opIsDone s d = true) →
    (∀ d ∈ opsBefore s o.rcpt.stream slot, opIsDone s d = true) →
    ∃ t, exec (.sync slot) s = .next t ∧ t.op slot = some { o with
      place := .final, rcpt := { o.rcpt with state := .done, status := 0, detail := 0, postmark := s.now } }) ∧
  (∀ (s : State) (k : GroupNo) (v : Nat), (s.box k).notifyAt = some v → sameWindow (s.box k) v s.now = false →
    s.hif.linkUp = true → (msixWord s (4 * (s.box k).vector + 3)).toNat % 2 = 0 →
    exec (.notifyVector k) s = .next ((s.setBox k { s.box k with notifyAt := none }).send (.msix (s.box k).vector)))

/-- R405, R408, R416, R419, R421, R423 (spec/16): releasing the slot of a final operation that nothing waiting depends
on frees it, and a refused release is counted alone; CLEAR un-halts the indexed stream and opens a step; APPLY takes
an aligned aperture base and refuses another; NOTICE_HEAD stores; RESYNC with the mirror off changes nothing. R411,
R427 (spec/16): a write of a letterbox's CFG clamps its fields; SIZE_LOG2 changes only while ENABLE is 0 and a
change resets TAIL; enabling clears STOP; no other letterbox changes. -/
def Obligations.LedgerAndLetterboxRegisters : Prop :=
  (∀ (s : State) (m : Master) (v : W32),
     (regGate s m.toNat 0x10060 true = .ok →
       (∀ o, s.op (v.toNat % 2 ^ 17) = some o → rstateFinal o.rcpt.state = true →
         (∀ e ∈ s.ledger, e.2.rcpt.state = .notStarted → v.toNat % 2 ^ 17 ∉ e.2.deps) →
         ∃ t, exec (.slotRelease m v) s = .next t ∧ t = { s with ledger := t.ledger, streams := t.streams } ∧
           t.op (v.toNat % 2 ^ 17) = none ∧ (∀ k, k ≠ v.toNat % 2 ^ 17 → t.op k = s.op k)) ∧
       (∀ o, s.op (v.toNat % 2 ^ 17) = some o → rstateFinal o.rcpt.state = false →
         exec (.slotRelease m v) s = .next { s with ring := { s.ring with
           releaseRefused := inc32 s.ring.releaseRefused } })) ∧
     (regGate s m.toNat 0x10098 true = .ok → (s.strm s.ring.streamIndex).halted = true →
       ∃ t, exec (.streamClear m) s = .next t ∧ t = { s with streams := t.streams } ∧
         (t.strm s.ring.streamIndex).halted = false ∧
         (t.strm s.ring.streamIndex).step = (s.strm s.ring.streamIndex).step + 1 ∧
         ∀ k, k ≠ s.ring.streamIndex → t.strm k = s.strm k) ∧
     (regGate s m.toNat 0x10018 true = .ok →
       (s.hif.apBase.toNat % 2 ^ 30 = 0 →
         exec (.apertureApply m) s = .next { s with hif := { s.hif with apActive := s.hif.apBase } }) ∧
       (s.hif.apBase.toNat % 2 ^ 30 ≠ 0 →
         exec (.apertureApply m) s = .next { s with hif := { s.hif with apRefused := true } })) ∧
     (regGate s m.toNat 0x10054 true = .ok → s.ring.heldNotices = [] →
       exec (.noticeHeadWrite m v) s = .next { s with ring := { s.ring with noticeHead := v.toNat } }) ∧
     (regGate s m.toNat 0x10004 true = .ok →
       (s.hif.mirrorEn = false → exec (.mirrorResync m) s = .next s) ∧
       (s.hif.mirrorEn = true → s.hif.linkUp = true →
         ∃ t, exec (.mirrorResync m) s = .next t ∧ t = { s with sent := t.sent } ∧
           ∀ e ∈ s.ledger, e.1 < 131072 → s.op e.1 = some e.2 →
             Sent.hostWrite (s.hif.ledgerBase.toNat + 32 * e.1) (receiptBytes e.2.rcpt) ∈ t.sent))) ∧
  (∀ (s : State) (k : GroupNo) (m : Master) (v : W32), regGate s m.toNat (boxBase k + 8) true = .ok →
     ∃ t, exec (.letterboxConfig k m v) s = .next t ∧ t = { s with boxes := t.boxes } ∧
       (∀ j, j ≠ k.val → t.box j = s.box j) ∧ (t.box k).base = (s.box k).base ∧
       (t.box k).enable = v.toNat.testBit 31 ∧ (t.box k).vector = min 2047 (max 16 (v.toNat % 2 ^ 11)) ∧
       (t.box k).period = min 1000 (max 1 (v.toNat / 2 ^ 14 % 2 ^ 10)) ∧
       (t.box k).sizeLog2 = (if (s.box k).enable then (s.box k).sizeLog2 else min 16 (max 4 (v.toNat / 2 ^ 24 % 2 ^ 5))) ∧
       ((t.box k).sizeLog2 ≠ (s.box k).sizeLog2 → (t.box k).tail = 0) ∧
       ((t.box k).sizeLog2 = (s.box k).sizeLog2 → (t.box k).tail = (s.box k).tail) ∧
       (v.toNat.testBit 31 = true → (s.box k).enable = false → (t.box k).stop = 0))

/-- R9, R63, R554 (spec/00, spec/02), R427 (spec/16), R456 (spec/18): a write of a word that the checks let through is that
register's write, of two words both in ascending order, one not on whole words changes nothing; a read of a _LO register
answers its low half and latches the high half for the reading master, of the _HI register what was latched, of another word
its value; a read of HIF_RCPT0 latches the receipt that the index names, zero for a slot that holds none; a refused write
changes no register and is logged; before its block answers, an access is counted, recorded and a read returns all ones;
one that its block answers is no early access. -/
def Obligations.RegisterAccess : Prop :=
  (∀ (s : State) (m : Master) (off : Nat) (d e : W32), off % 4 = 0 → regGate s m.toNat off true = .ok →
    exec (.registerWrite m off (bytesOfNat 4 d.toNat)) s = .next (regWriteWord s m.toNat none off d.toNat) ∧
    ∀ s1, s1 = regWriteWord s m.toNat none off d.toNat → regGate s1 m.toNat (off + 4) true = .ok →
      exec (.registerWrite m off (bytesOfNat 4 d.toNat ++ bytesOfNat 4 e.toNat)) s =
        .next (regWriteWord s1 m.toNat none (off + 4) e.toNat)) ∧
  (∀ (s : State) (m : Master) (off : Nat) (l : List Byte), off % 4 ≠ 0 ∨ l.length % 4 ≠ 0 ∨ l = [] →
    exec (.registerWrite m off l) s = .next s) ∧
  (∀ (s : State) (m : Master) (d : W32), regGate s m.toNat 0x10068 true = .ok →
    exec (.registerWrite m 0x10068 (bytesOfNat 4 d.toNat)) s =
      .next { s with ring := { s.ring with rcptIndex := d.toNat % 2 ^ 17 } }) ∧
  (∀ (s : State) (m : Master) (off : Nat) (w : W64), regGate s m.toNat off false = .ok → off % 4 = 0 →
    rcptOff off = false → regPair s off = some w →
    ∃ t, exec (.splitLoRead m off) s = .next t ∧ t = { s with latch := t.latch, sent := t.sent } ∧
      t.sent = s.sent ++ [.readData m.toNat (regBase + off) (bytesOfNat 4 (w.toNat % 2 ^ 32))] ∧
      kget 0 t.latch (latchKey m.toNat (off + 4)) = BitVec.ofNat 32 (w.toNat / 2 ^ 32) ∧
      ∀ j, j ≠ latchKey m.toNat (off + 4) → kget 0 t.latch j = kget 0 s.latch j) ∧
  (∀ (s : State) (m : Master) (off : Nat), regGate s m.toNat off false = .ok → off % 4 = 0 → rcptOff off = false →
    regPair s off = none →
    exec (.splitLoRead m off) s = .next (s.send (.readData m.toNat (regBase + off) (bytesOfNat 4
      (if 4 ≤ off ∧ (regPair s (off - 4)).isSome = true then (kget 0 s.latch (latchKey m.toNat off)).toNat
        else regWord s off % 2 ^ 32))))) ∧
  (∀ (s : State) (m : Master), regGate s m.toNat 0x10070 false = .ok → s.op s.ring.rcptIndex = none →
    exec (.receiptRead m) s = .next ({ s with ring := { s.ring with
      rcptLatch := kset [] s.ring.rcptLatch m.toNat (List.replicate 8 0) } }.send
        (.readData m.toNat (regBase + 0x10070) [0, 0, 0, 0]))) ∧
  (∀ (s : State) (m : Master) (o : Op), regGate s m.toNat 0x10070 false = .ok → s.op s.ring.rcptIndex = some o →
    ∃ t, exec (.receiptRead m) s = .next t ∧ t = { s with ring := { s.ring with rcptLatch := t.ring.rcptLatch }, sent := t.sent } ∧
      t.sent = s.sent ++ [.readData m.toNat (regBase + 0x10070) (bytesOfNat 4 (o.rcpt.opId % 2 ^ 32))] ∧
      (kget [] t.ring.rcptLatch m.toNat).flatMap (fun w => bytesOfNat 4 w.toNat) = receiptBytes o.rcpt) ∧
  (∀ (s : State) (m : Master) (off : Nat) (d : W32), off % 4 = 0 → regGate s m.toNat off true = .denied →
    ∃ t, exec (.registerWrite m off (bytesOfNat 4 d.toNat)) s = .next t ∧ t = { s with sec := t.sec } ∧
      t.sec.atDenied = inc32 s.sec.atDenied ∧ t.sec.denyTail = (s.sec.denyTail + 1) % 2 ^ 32) ∧
  (∀ (s : State) (m : Master) (a : W64) (w : Bool), addrEarly s m.toNat w a = false →
    exec (.earlyAccess m a w) s = .next s) ∧
  (∀ (s : State) (m : Master) (a : W64) (w : Bool), addrEarly s m.toNat w a = true →
    ∃ t, exec (.earlyAccess m a w) s = .next t ∧ t = { s with boot := t.boot, sent := t.sent } ∧
      t.boot.earlyAddr = a ∧ t.boot.earlyValid = true ∧ t.boot.earlyDir = w ∧ t.boot.earlyMaster = m.toNat ∧
      t.boot.stage = s.boot.stage ∧
      (w = true → t.boot.earlyWrites = inc32 s.boot.earlyWrites ∧ t.sent = s.sent) ∧
      (w = false → t.boot.earlyReads = inc32 s.boot.earlyReads ∧
        t.sent = s.sent ++ [.readData m.toNat a.toNat [0xFF, 0xFF, 0xFF, 0xFF]]))

/-- R31, R32, R40 (spec/01): Postmaster's FLIP of a shadow copy that maps every row to a whole row of its own makes it the
active copy, and refuses another without effect but a log entry; a request to move a row is held or refused; the row moved
at its completion stands in a spare whole row. With no spare left, or a shadow copy that R32 refuses, the request ends
with result 3 (the model's choice: log 98). -/
def Obligations.RowMoves : Prop :=
  (∀ (s : State) (t : Tile), s.boot.stage ≠ 0 → shadowOk s t = true →
    ∃ u, exec (.forwardingFlip t 0) s = .next u ∧ (u.tile t).fwdActive = (s.tile t).fwdShadow ∧
      (u.tile t).fwdShadow = (s.tile t).fwdShadow ∧ (u.tile t).fwdEpoch = !(s.tile t).fwdEpoch ∧
      u.hif = s.hif ∧ u.ports = s.ports) ∧
  (∀ (s : State) (t : Tile), s.boot.stage ≠ 0 → shadowOk s t = false →
    ∃ u, exec (.forwardingFlip t 0) s = .next u ∧ u = { s with sec := u.sec } ∧
      u.sec.denyTail = (s.sec.denyTail + 1) % 2 ^ 32) ∧
  (∀ (s : State) (t : Tile) (m : Master) (v : W32), regGate s m.toNat (tilBase t + 0x1100) true = .ok →
    v.toNat.testBit 8 = true → (s.tile t).swapResult ≠ 1 →
    exec (.rowSwap t m v) s = .next (s.setTile t { s.tile t with
      swapRow := v.toNat % 16, swapMoving := v.toNat % 16,
      swapResult := if swapRefused s t (v.toNat % 16) then 3 else 1 })) ∧
  (∀ (s : State) (t : Tile), (s.tile t).swapResult = 1 →
    (wholeSpares s t = [] → exec (.rowMoveComplete t) s = .next (s.setTile t { s.tile t with swapResult := 3 })) ∧
    (∀ k rest x, wholeSpares s t = k :: rest → (s.tile t).swapMoving < 16 → k < 18 →
      x = { s.tile t with fwdShadow := fwdSet (s.tile t).fwdShadow (s.tile t).swapMoving k } →
      (shadowOk (s.setTile t x) t = true →
        ∃ u, exec (.rowMoveComplete t) s = .next u ∧ (u.tile t).swapResult = 2 ∧
          (u.tile t).fwdActive = x.fwdShadow ∧ (u.tile t).fwdEpoch = !x.fwdEpoch ∧
          fwdRow u t (s.tile t).swapMoving = k) ∧
      (shadowOk (s.setTile t x) t = false →
        ∃ u, exec (.rowMoveComplete t) s = .next u ∧ (u.tile t).swapResult = 3 ∧
          (u.tile t).fwdActive = (s.tile t).fwdActive ∧ u.store = s.store ∧ u.sec.denyTail = (s.sec.denyTail + 1) % 2 ^ 32)))

/-! ## Quantisation statistics and loss watches (spec/07, spec/10) -/

/-- R196 to R201 (spec/07): a collect for the slot's step takes a cluster's capture into its tile's partial and clears the
capture registers; an accepted close holds the slot until it completes, which clears every partial, exchanges the copies,
raises STEP by one and flips EPOCH; a flip exchanges the copies where the shadow is legal and is refused otherwise; a write
during a close is dropped. -/
def Obligations.QuantisationSlots : Prop :=
  (∀ (s : State) (t : Tile) (m : Master) (v : W32) (q n p : Nat), regGate s m.toNat (tilBase t + 0x4000) true = .ok →
    q = v.toNat / 2 ^ 16 % 2 ^ 8 → n = t.val * 256 + v.toNat % 2 ^ 8 → p = physOfN s n →
    (collectDropped s q (v.toNat / 2 ^ 24 % 2 ^ 8) n = true →
      exec (.qsCollect t m v) s = .next (s.setTile t { s.tile t with qsDropped := inc32 (s.tile t).qsDropped })) ∧
    (collectDropped s q (v.toNat / 2 ^ 24 % 2 ^ 8) n = false → v.toNat.testBit 8 = false →
      exec (.qsCollect t m v) s = .next ((s.setClu p { s.clu p with
        seq := { (s.clu p).seq with capMax := 0, capSqerr := 0, capCount := 0 } }).setQpart t q { s.qpart t q with
        nonfinite := (s.qpart t q).nonfinite || !valFinite (f64Val (s.clu p).seq.capSqerr.toNat),
        smax := f64Round (valAbsmax (f64Val (s.qpart t q).smax) (f64Val (s.clu p).seq.capMax.toNat)) }))) ∧
  (∀ (s : State) (t : Tile) (q : GroupNo) (m : Master) (v : W32) (x : QsSlot), x = s.qslot q →
    regGate s m.toNat (qsBase t q + 0x10) true = .ok → x.result ≠ 1 →
    (exec (.qsClose t q m v) s = .next (s.setQslot q { x with
      closeStep := v.toNat / 2 ^ 8 % 2 ^ 8,
      result := if x.actCfg.toNat.testBit 15 = true ∧ v.toNat / 2 ^ 8 % 2 ^ 8 = x.actCfg.toNat / 2 ^ 24 % 2 ^ 8 then 1 else 3 })) ∧
    (∀ e k, x.shdCfg.toNat % 16 = e → 4 ≤ e → e ≤ 8 → x.shdScale.toNat = k * 2 ^ 23 → 7 ≤ k → k ≤ 245 →
      exec (.qsFlip t q m) s = .next (s.setQslot q { x with
        actScale := x.shdScale, actCfg := x.shdCfg, shdScale := x.actScale, shdCfg := x.actCfg, epoch := !x.epoch })) ∧
    (x.shdCfg.toNat % 16 < 4 ∨ 8 < x.shdCfg.toNat % 16 →
      exec (.qsFlip t q m) s = .next (s.setQslot q { x with refused := true }))) ∧
  (∀ (s : State) (q : GroupNo), (s.qslot q).result = 1 →
    ∃ t, exec (.qsCloseComplete q) s = .next t ∧
      t = { s with core := { s.core with qs := t.core.qs, qsPart := t.core.qsPart } } ∧
      (∀ i, i < 8 → t.qpart i q = {}) ∧ (t.qslot q).result = 2 ∧ (t.qslot q).closed = true ∧
      (t.qslot q).epoch = !(s.qslot q).epoch ∧ (t.qslot q).shdScale = (s.qslot q).actScale ∧
      (t.qslot q).shdCfg = (s.qslot q).actCfg ∧
      (t.qslot q).actCfg.toNat = ((s.qslot q).actCfg.toNat + 2 ^ 24) % 2 ^ 32 ∧
      (t.qslot q).hist.length ≤ 16 + (s.qslot q).hist.length) ∧
  (∀ (s : State) (t : Tile) (q : GroupNo) (m : Master) (r : QsReg) (v : W32),
    regGate s m.toNat (qsBase t q + qsRegOff r) true = .ok →
    ((s.qslot q).result = 1 →
      exec (.qsShadowWrite t q m r v) s = .next (s.setQslot q { s.qslot q with writeDropped := true })) ∧
    ((s.qslot q).result ≠ 1 → r = .scale →
      exec (.qsShadowWrite t q m r v) s = .next (s.setQslot q { s.qslot q with shdScale := v })) ∧
    ((s.qslot q).result ≠ 1 → r = .cfg →
      exec (.qsShadowWrite t q m r v) s = .next (s.setQslot q { s.qslot q with shdCfg := v &&& 0xFF008F3F })))

/-- R280 to R287 (spec/10): a post reaches the enabled watches of its stream, is held for the open step, and a later one of
the same cluster replaces its value; the window's end gives the open step a verdict once a post is held, and none before;
a write of a watch's settings discards the held posts, after a verdict that was due. -/
def Obligations.LossWatches : Prop :=
  (∀ (s : State) (w : WatchNo) (x : Watch), x = s.watch w → verdictDue x s.now = true → x.cur ≠ [] → x.nxt = [] →
    ∃ t, exec (.lossWindowEnd w) s = .next t ∧ t = { s with core := { s.core with watches := t.core.watches } } ∧
      (∀ j, j ≠ w.val → t.watch j = s.watch j) ∧ (t.watch w).openStep = (x.openStep + 1) % 2 ^ 32 ∧
      (t.watch w).cur = [] ∧ (t.watch w).lastReason = verdictReason x x.cur ∧
      ((t.watch w).lastOpen = true ↔ verdictReason x x.cur = 0) ∧
      (x.cur.length < x.posts → (t.watch w).lastReason = 3)) ∧
  (∀ (s : State) (w : WatchNo), (s.watch w).cur = [] ∨ verdictDue (s.watch w) s.now = false →
    ∃ t, exec (.lossWindowEnd w) s = .next t ∧ t = { s with core := { s.core with watches := t.core.watches } } ∧
      ∀ j, t.watch j = s.watch j) ∧
  (∀ (s : State), s.core.posts = [] → exec .lossPost s = .next s) ∧
  (∀ (s : State) (m : PostMsg) (rest : List PostMsg), s.core.posts = m :: rest →
    ((∀ w, w < 16 → (s.watch w).enabled = false ∨ (s.watch w).stream ≠ m.stream) →
      exec .lossPost s = .next { s with core := { s.core with posts := rest, lwDropped := inc32 s.core.lwDropped } }) ∧
    (∀ w : WatchNo, (s.watch w).enabled = true → (s.watch w).stream = m.stream → (s.watch w).openStep = m.step →
      verdictDue (s.watch w) s.now = false → (s.watch w).cur.length + 1 < (s.watch w).posts → 0 < (s.watch w).windowUs →
      ∃ t, exec .lossPost s = .next t ∧ t.core.posts = rest ∧ t.store = s.store ∧ t.ledger = s.ledger ∧
        ∃ e ∈ (t.watch w).cur, e.cluster = m.cluster ∧ e.value = m.value)) ∧
  (∀ (s : State) (t : Tile) (w : WatchNo) (m : Master) (r : LwReg) (v : W32),
    regGate s m.toNat (tilBase t + 0x7000 + w.val * 0x40 + lwOffset r) true = .ok →
    ∃ u, exec (.lwConfigWrite t w m r v) s = .next u ∧ u = { s with core := { s.core with watches := u.core.watches } } ∧
      (∀ j, j ≠ w.val → u.watch j = s.watch j) ∧ (u.watch w).cur = [] ∧ (u.watch w).nxt = [] ∧
      (r = .cfg → (u.watch w).enabled = v.toNat.testBit 31 ∧ (u.watch w).stream = v.toNat % 2 ^ 16 ∧
        2 ≤ (u.watch w).hlen ∧ (u.watch w).hlen ≤ 64 ∧ (v.toNat.testBit 31 = false → (u.watch w).hist = [])) ∧
      (r = .window → (u.watch w).windowUs = max 1 (v.toNat / 2 ^ 16 % 2 ^ 16) ∧ 1 ≤ (u.watch w).posts ∧
        (u.watch w).posts ≤ 256) ∧
      (r = .openStep → (u.watch w).openStep = v.toNat))

/-! ## Stack engines (spec/10) -/

/-- R266, R267, R284, R285, R292, R295 (spec/10): an accepted descriptor joins its group's queue, a malformed one fails with
its field and reason; the head of the queue starts when nothing runs, an ungated or opened UPDATE as the group's running
operation, a gated one whose verdict is closed as DONE with STEP_GATED and nothing read or written; a gated UPDATE for which
no post came in the window ends so with reason 3; an abort ends the running operation, whose last commit is still to
come, in RESET_ABORTED. -/
def Obligations.StackEngineQueue : Prop :=
  (∀ (s : State) (slot : Slot) (o : Op) (t : Nat), s.op slot = some o → o.kind = 4 → o.place = .atIssuer →
    o.rcpt.state = .notStarted → t = seTile o.payload → (s.seg t).queue.length < 16 →
    (seMalformed s o.payload = none →
      exec (.seDescriptor slot) s = .next ((s.setSeg t { s.seg t with
        queue := (s.seg t).queue ++ [(slot.val, o.payload)] }).setOp slot { o with place := .queued })) ∧
    (∀ e, seMalformed s o.payload = some e →
      ∃ u, exec (.seDescriptor slot) s = .next u ∧ u.core = s.core ∧ u.store = s.store ∧
        ∃ x, u.op slot = some x ∧ x.rcpt.state = .failed ∧ x.rcpt.status = stStruct ∧
          x.rcpt.detail = detail2 (0xFFFFFF00 + e.2) e.1)) ∧
  (∀ (s : State) (t : Tile) (slot : Nat) (b : List Byte) (rest : List (Nat × List Byte)) (o : Op), (s.seg t).run = none →
    (s.seg t).queue = (slot, b) :: rest → s.op slot = some o → o.rcpt.state = .notStarted →
    (seOpcode b = 1 → ((udescOf b).gated = false ∨
        ∃ v, verdictOf (s.watch (udescOf b).watch) (udescOf b).step = some v ∧ v.opened = true) →
      ∃ u, exec (.update t 1) s = .next u ∧ u.store = s.store ∧ (u.seg t).queue = rest ∧
        (u.seg t).run = some { slot := slot, desc := b } ∧
        u.op slot = some { o with place := .running, rcpt := { o.rcpt with state := .inProgress } }) ∧
    (seOpcode b = 1 → (udescOf b).gated = true →
      ∀ v, verdictOf (s.watch (udescOf b).watch) (udescOf b).step = some v → v.opened = false →
      ∃ u, exec (.update t 1) s = .next u ∧ u.store = s.store ∧ (u.seg t).queue = rest ∧ (u.seg t).run = none ∧
        u.op slot = some { o with place := .final, rcpt := { o.rcpt with
          state := .done, status := stGated, detail := detail2 (leAt b 8 4) v.reason, postmark := s.now } }) ∧
    (seOpcode b = 5 →
      ∃ u, exec (.verify t 1) s = .next u ∧ u.store = s.store ∧ (u.seg t).queue = rest ∧
        (u.seg t).run = some { slot := slot, desc := b }) ∧
    (seOpcode b = 4 → o.sat = 0 → o.nonfin = 0 → o.warns = [] →
      ∃ u, exec (.drop t) s = .next u ∧ u.store = s.store ∧ (u.seg t).queue = rest ∧ (u.seg t).run = none ∧
        kget {} (u.seg t).stage (gdescOf b).slot = {} ∧
        ∃ x, u.op slot = some x ∧ x.rcpt.state = .done ∧ x.rcpt.status = 0) ∧
    (∀ s0 l, s0 = seWork (seBegin s t slot b []) t { slot := slot, desc := b } 0 →
      readAt s0 (seMaster t) (seBy slot) (leAt b 24 8)
          (if seOpcode b = 2 then 8 * (rdescOf b).sources else 16 * (gdescOf b).count) = (s0, .ok l) →
      worstField (listFaults b l).2 = none →
      (seOpcode b = 2 → ∃ u, exec (.reduce t 1) s = .next u ∧ u.store = s.store ∧ (u.seg t).queue = rest ∧
        (u.seg t).run = some { slot := slot, desc := b, sources := (listFaults b l).1 }) ∧
      (seOpcode b = 3 → ∃ u, exec (.gather t 1) s = .next u ∧ u.store = s.store ∧ (u.seg t).queue = rest ∧
        (u.seg t).run = some { slot := slot, desc := b, sources := (listFaults b l).1 } ∧
        (kget {} (u.seg t).stage (gdescOf b).slot).st = .filling))) ∧
  (∀ (s : State) (t : Tile) (slot since : Nat) (b : List Byte) (rest : List (Nat × List Byte)) (o : Op),
    (s.seg t).waiting = some since → (s.seg t).queue = (slot, b) :: rest → (s.seg t).posted = false →
    s.op slot = some o → o.rcpt.state = .notStarted →
    verdictOf (s.watch (udescOf b).watch) (udescOf b).step = none →
    since + (s.watch (udescOf b).watch).windowUs * 1000 ≤ s.now →
    ∃ u, exec (.gateWaitTimeout t) s = .next u ∧ u.store = s.store ∧ (u.seg t).queue = rest ∧ (u.seg t).waiting = none ∧
      ∃ x, u.op slot = some x ∧ x.rcpt.state = .done ∧ x.rcpt.status = stGated ∧
        x.rcpt.detail = detail2 (leAt b 8 4) 3) ∧
  (∀ (s : State) (k : StackNo) (m : Master) (r : SeRun) (o : Op), k.val % 4 = 0 →
    regGate s m.toNat (seBase k + 0x20) true = .ok → (s.seg (k.val / 4)).run = some r → OpRuns s r.slot o →
    seCommitted r = false →
    ∃ u, exec (.seAbort k m) s = .next u ∧ u.store = s.store ∧ (u.seg (k.val / 4)).run = none ∧
      (u.seg (k.val / 4)).queue = (s.seg (k.val / 4)).queue ∧ EndedIn u r.slot o stReset 0)

/-- R272, R278, R289, R292, R294 (spec/10): a group of an UPDATE whose weight parcels are all skipped reads its parcels and
writes nothing; one that is not writes exactly the parcels of the rule; an operation whose last piece is done ends DONE, a
GATHER with its staging slot FULL. -/
def Obligations.StackEnginePieces : Prop :=
  ∀ (s : State) (t : Tile) (r : SeRun) (o : Op), (s.seg t).run = some r → OpRuns s r.slot o → o.sat = 0 → o.nonfin = 0 →
    o.warns = [] → r.tags = [] →
    (seOpcode r.desc = 1 → ∀ d l x s0, d = udescOf r.desc → r.next < groupCount d →
      s0 = seWork s t r ((groupParcels d r.next).headD 0 / 256) →
      seRead s0 t r.slot (groupKeys d r.next) = (s0, .ok l) → x = groupOf d r.next l →
      ((∀ k ∈ groupSkips d x, k ≠ Skip.none) →
        ∃ u, exec (.update t 1) s = .next u ∧ u.store = s.store ∧ (u.seg t).run = some { r with next := r.next + 1 }) ∧
      (∀ y, x.ps = [y] → groupSkips d x = [Skip.none] →
        ∀ w, w = groupWrites d r.next x [(updateParcel d y).1] → (∀ e ∈ w, readLocked s0 .other e.1 = false) →
        (seWriteAll s0 t r.slot w {}).2.bad = none →
        ∃ u, exec (.update t 1) s = .next u ∧ u.store = (seWriteAll s0 t r.slot w {}).1.store ∧
          ∃ q, (u.seg t).run = some q ∧ q.next = r.next + 1 ∧
            q.done = r.done + (if (seWriteAll s0 t r.slot w {}).2.lost.contains (d.region 0 + y.p * 4096) then 0 else 1))) ∧
    (seOpcode r.desc = 1 → groupCount (udescOf r.desc) ≤ r.next →
      ∃ u, exec (.update t 1) s = .next u ∧ u.store = s.store ∧ (u.seg t).run = none ∧
        ∃ x, u.op r.slot = some x ∧ x.rcpt.state = .done ∧ x.rcpt.status = 0) ∧
    (seOpcode r.desc = 2 →
      ceilDiv (rdescOf r.desc).elements (4096 / (rdescOf r.desc).width (rdescOf r.desc).fmtOut) ≤ r.next →
      ∃ u, exec (.reduce t 1) s = .next u ∧ u.store = s.store ∧ (u.seg t).run = none ∧
        ∃ x, u.op r.slot = some x ∧ x.rcpt.state = .done) ∧
    (seOpcode r.desc = 3 → (gdescOf r.desc).parcels ≤ r.next →
      ∃ u, exec (.gather t 1) s = .next u ∧ u.store = s.store ∧ (u.seg t).run = none ∧
        kget {} (u.seg t).stage (gdescOf r.desc).slot = ⟨.full, (gdescOf r.desc).base, (gdescOf r.desc).parcels⟩ ∧
        ∃ x, u.op r.slot = some x ∧ x.rcpt.state = .done) ∧
    (seOpcode r.desc = 5 → r.next < (gdescOf r.desc).parcels →
      (∀ d s0, s0 = seWork s t r r.next → seRead s0 t r.slot [(gdescOf r.desc).base + r.next * 4096] = (s0, .ok d) →
        exec (.verify t 1) s = .next (s0.setSeg t { s.seg t with run := some { r with next := r.next + 1 } })))

/-! ## Solver groups (spec/08, spec/09) -/

/-- R208, R212, R235, R247, R250, R251, R255: a request with no fault is accepted, up to 64 a group; a malformed one fails; an
abort by the lead tile ends the running solve, before it publishes, in RESET_ABORTED; a deadline in phases 1 to 3 ends it PARTIAL in DEADLINE_MISS
with nothing published; the end of a residual program that ended DONE lets the loop go on. -/
def Obligations.SolverRequests : Prop :=
  (∀ (s u : State) (slot : Slot) (o : Op) (g : Nat), s.op slot = some o → o.kind = 3 → o.place = .atIssuer →
    o.rcpt.state = .notStarted → g = (sreqOf o.payload).group → (s.group g).queue.length < 64 →
    (solveCheck s g slot o.payload = (s, .ok none) →
      exec (.solveRequest slot) s = .next ((s.setGroup g { s.group g with
        queue := (s.group g).queue ++ [(slot.val, s.now, o.payload)] }).setOp slot { o with place := .queued })) ∧
    (∀ e, solveCheck s g slot o.payload = (u, .ok (some e)) → u.op slot = some o →
      ∃ t, exec (.solveRequest slot) s = .next t ∧ t.core = u.core ∧
        ∃ x, t.op slot = some x ∧ x.rcpt.state = .failed ∧ x.rcpt.status = stStruct ∧
          x.rcpt.detail = detail2 (0xFFFFFF00 + e.2) e.1)) ∧
  (∀ (s : State) (g : GroupNo) (r : SolveRun) (o : Op), (s.group g).run = some r → OpRuns s r.slot o → r.prog = none → r.fin = none →
    (∀ (t : Tile) (m : Master) (v : W32), regGate s m.toNat (tilBase t + 0x6000) true = .ok → v.toNat.testBit 8 = true →
      v.toNat % 256 = g.val → leadTile s g = t.val → r.late = none → s.now < (sreqOf r.req).deadline → r.phase ≠ 6 →
      ∃ u, exec (.solveAbort t m v) s = .next u ∧ u.store = s.store ∧ (u.group g).run = none ∧
        (u.group g).queue = (s.group g).queue ∧ EndedIn u r.slot o stReset 0) ∧
    ((sreqOf r.req).deadline ≤ s.now → r.late = none → r.abort = false → r.phase ≤ 3 →
      ∃ u, exec (.solveDeadlineExpiry g) s = .next u ∧ u.store = s.store ∧ (u.group g).run = none ∧
        ∃ x, u.op r.slot = some x ∧ x.rcpt.state = .partialEnd ∧ x.rcpt.status = stDeadline ∧
          x.rcpt.detail = solveDetail r.c r.phase none)) ∧
  (∀ (s : State) (g : GroupNo) (r : SolveRun) (id : Nat) (o : Op), (s.group g).run = some r → r.prog = some id →
    s.op id = some o → o.rcpt.state = .done → s.now < (sreqOf r.req).deadline →
    ∃ u, exec (.residualProgramEnd g) s = .next u ∧ u.store = s.store ∧ u.op id = none ∧
      (u.group g).run = some { r with prog := none, stage := 2 })

/-- R208, R209, R219, R250 (spec/08, spec/09): for every method and both derivative solves, the oldest request of a
group starts when none runs, no other solve holds its store or state, its deadline is to come and its members may
run; one whose deadline has passed fails; a running solve that waits for no other work, one of whose members is a
dead letter, ends in DEAD_LETTER. R210, R248, R249 (spec/08, spec/09): a solve in its last phase delivers its next output parcel and
counts it; with every parcel published and no gradient wanted it ends as its iteration decided. -/
def Obligations.SolveRuns : Prop :=
  (∀ e ∈ solveRows, ∀ (s : State) (g : GroupNo),
     (∀ (slot acc : Nat) (b ext : List Byte) (rest : List (Nat × Nat × List Byte)) (o : Op) (q : SReq)
         (x : Late), (s.group g).run = none → (s.group g).queue = (slot, acc, b) :: rest → q = sreqOf b →
       q.row = e.2 → solveWaits s g slot acc q = false → s.op slot = some o → o.rcpt.state = .notStarted →
       (q.deadline ≤ s.now →
         ∃ t, exec (e.1 g 1) s = .next t ∧ t.store = s.store ∧ (t.group g).queue = rest ∧ (t.group g).run = none ∧
           ∃ x, t.op slot = some x ∧ x.rcpt.state = .failed ∧ x.rcpt.status = stDeadline) ∧
       (s.now < q.deadline → (∃ i ∈ groupMembers s g, isDead s i = false) →
         (∀ i ∈ groupMembers s g, isDead s i = true ∨ isAsleep s i = false) →
         lateFaults (s.setGroup g { queue := rest, run := none }) (solveMaster (leadTile s g)) (solveBy slot) b =
           (s.setGroup g { queue := rest, run := none }, .ok x) → solveFault x.faults = none →
         (q.needsExt = true → readAt (s.setGroup g { queue := rest, run := none }) (solveMaster (leadTile s g))
           (solveBy slot) q.ext 256 = (s.setGroup g { queue := rest, run := none }, .ok ext)) →
         (q.needsExt = true → solveFault (extFaults ext q (if q.gn then gnOrder b ext else x.n) x.coefs x.csize
           (groupMembers s g)) = none) →
         ∃ t r, exec (e.1 g 1) s = .next t ∧ t.store = s.store ∧ (t.group g).queue = rest ∧ (t.group g).run = some r ∧
           r.slot = slot ∧ r.req = b ∧ r.pub = 0 ∧
           r.members = (groupMembers s g).filter (fun i => !isDead s i) ∧
           t.op slot = some { o with place := .running, rcpt := { o.rcpt with state := .inProgress } } ∧
           (t.tslv (leadTile s g)).curOp = q.opId)) ∧
     (∀ (r : SolveRun) (o : Op), (s.group g).run = some r → (sreqOf r.req).row = e.2 → OpRuns s r.slot o → r.prog = none →
       r.fin = none → r.late = none → s.now < (sreqOf r.req).deadline → memberWork s r = [] →
       (∃ i ∈ r.members, isDead s i = true) →
       ∃ t, exec (e.1 g 1) s = .next t ∧ t.store = s.store ∧ (t.group g).run = none ∧ EndedIn t r.slot o stDead 0)) ∧
  (∀ e ∈ solveRows, ∀ (s : State) (g : GroupNo) (r : SolveRun) (q : SReq) (o : Op) (m : Nat),
     (s.group g).run = some r → q = sreqOf r.req → q.row = e.2 → OpRuns s r.slot o → r.prog = none → r.late = none →
     s.now < q.deadline → r.abort = false → m = solveMaster (leadTile s g) → r.phase = 6 →
     r.members.any (isDead s) = false → r.members.any (isStopped s) = false →
     (∀ b s1, (padded (outBytes r))[r.pub]? = some b →
       putParcel s m r.slot (q.x + 4096 * r.pub) b = (s1, .ok) →
       ∃ t, exec (e.1 g 1) s = .next t ∧ t.store = s1.store ∧ (t.group g).run = some { r with pub := r.pub + 1, ahead := none } ∧
         ∃ x, t.op r.slot = some x ∧ x.rcpt.count = max o.rcpt.count (r.pub + 1)) ∧
     ((padded (outBytes r))[r.pub]? = none → r.stage ≠ 0 → wantsGrad r q = false → o.sat = 0 → o.nonfin = 0 → o.warns = [] →
       r.fin = some .done →
       ∃ t, exec (e.1 g 1) s = .next t ∧ t.store = s.store ∧ (t.group g).run = none ∧
         ∃ x, t.op r.slot = some x ∧ x.rcpt.state = .done ∧ x.rcpt.status = 0))


/-! ## Collectives (spec/15) -/

/-- R391, R393, R396 (spec/15), for every kind: a request with no fault joins its communicator's queue; the head starts when
none runs, with a join record to every other member; a running one delivers its next parcel of OUT, its own slice of an
all-reduce first, once the members it reads have joined, or the owner of a slice it copies has reported (the model's order:
log 47), and counts the parcels that stand whole from the first; with its own parcels whole it reports that it has finished
reading, and it is DONE when OUT is whole and every member has reported. Before its deadline. -/
def Obligations.Collectives : Prop :=
  ∀ e ∈ collRows, ∀ (s : State) (slot : Slot) (o : Op) (d : CDesc), s.op slot = some o → o.kind = 6 →
    collServes e.2 o.payload = true → d = cdescOf o.payload → (d.deadline = 0 ∨ s.now < d.deadline) →
    rstateFinal o.rcpt.state = false →
    (∀ l, o.place = .atIssuer → serviceOn s 1 = true → collFaults s o.payload = [] →
      readAt s (seMaster d.tile) (seBy slot) d.list (2 * d.members) = (s, .ok l) →
      worstField (listRules s d (listChips l)) = none →
      exec (e.1 slot 1) s = .next ((s.setComm d.comm { s.comm d.comm with
        queue := (s.comm d.comm).queue ++ [(slot.val, o.payload, listChips l)],
        usedSeq := d.seq :: (s.comm d.comm).usedSeq }).setOp slot { o with
          place := .queued, chips := listChips l })) ∧
    (∀ chips rest, o.place = .queued → o.rcpt.state = .notStarted → (s.comm d.comm).run = none →
      (s.comm d.comm).queue = (slot.val, o.payload, chips) :: rest → (s.comm d.comm).held = [] →
      (s.comm d.comm).early = [] →
      ∃ t, exec (e.1 slot 1) s = .next t ∧ t.store = s.store ∧ t.core = s.core ∧
        t.comm d.comm = { s.comm d.comm with
          queue := rest, run := some { slot := slot, req := o.payload, chips := chips, lastJoin := s.now } } ∧
        t.op slot = some { o with place := .running, rcpt := { o.rcpt with state := .inProgress } } ∧
        ∀ j, j < d.members → j ≠ d.rank → ∀ c, chips[j]? = some c → Sent.join c (joinOf o.payload chips) ∈ t.sent) ∧
    (∀ r, (s.comm d.comm).run = some r → r.slot = slot.val → r.req = o.payload → OpRuns s slot o → o.place = .running →
      r.tags = [] →
      (∀ p keys l data tl s1, r.next < d.parcels → (r.told = true ∨ r.next < d.ownParcels.2 - d.ownParcels.1) →
        p = d.piece (d.pieceAt r.next) →
        ((∀ a b, p = .reduced a b → ∀ j < d.members, j = d.rank ∨ j ∈ r.joined) ∧
          (∀ j a b, p = .copied false j a b → j = d.rank ∨ j ∈ r.joined) ∧
          (∀ j a b, p = .copied true j a b → j ∈ r.readDone)) →
        keys = pieceKeys s r.req r.chips p → seFetch s d.tile slot [] (keys.flatMap id) = (s, [], .ok l) →
        pieceBytes d p (gatherBufs keys l) = (data, tl) →
        collPut s d slot (d.pieceAt r.next) data = (s1, .ok) →
        ∃ t, exec (e.1 slot 1) s = .next t ∧ t.store = s1.store ∧
          (∃ x, t.op slot = some x ∧ x.rcpt.count = max o.rcpt.count (d.prefixOf (r.next + 1)) ∧ x.sat = o.sat + tl.sat ∧
            x.nonfin = o.nonfin + tl.nonfin ∧
            (x.rcpt.state = .done ↔ r.told = true ∧ d.parcels ≤ r.next + 1 ∧
              ∀ m ∈ otherMembers d r.chips, m.2 ∈ r.readDone)) ∧
          ((t.comm d.comm).run = some { r with next := r.next + 1 } ∨ (t.comm d.comm).run = none)) ∧
      (d.ownParcels.2 - d.ownParcels.1 ≤ r.next → r.told = false →
        (r.next < d.parcels ∨ (∃ m ∈ otherMembers d r.chips, m.2 ∉ r.readDone) →
          ∃ t, exec (e.1 slot 1) s = .next t ∧ t.store = s.store ∧ (t.comm d.comm).run = some { r with told := true } ∧
            ∀ m ∈ otherMembers d r.chips, Sent.readDone m.1 d.comm d.seq d.rank ∈ t.sent) ∧
        (d.parcels ≤ r.next → (∀ m ∈ otherMembers d r.chips, m.2 ∈ r.readDone) → o.sat = 0 → o.nonfin = 0 → o.warns = [] →
          ∃ t, exec (e.1 slot 1) s = .next t ∧ t.store = s.store ∧ (t.comm d.comm).run = none ∧
            ∃ x, t.op slot = some x ∧ x.rcpt.state = .done ∧ x.rcpt.status = 0)))

/-- R391 to R395 (spec/15): a join record of the running collective that agrees marks its member as joined, one that does
not ends the collective in STRUCTURE_MISMATCH, one for a later collective is held, up to 16; records are sent again after
100 µs; the last read report ends a finished collective DONE, and one that comes before its collective runs is held; an abort notice ends it in DEPENDENCY_FAILED; a deadline
reached ends it in DEADLINE_MISS when every member had joined. -/
def Obligations.CollectiveMessages : Prop :=
  (∀ (s : State) (j : JoinRec) (r : CollRun) (o : Op), (s.comm j.comm.toNat).run = some r →
    (cdescOf r.req).seq = j.seq.toNat →
    (joinDiffers r.req r.chips j = false →
      ∃ t, exec (.joinRecord j) s = .next t ∧ t = { s with comms := t.comms } ∧
        ∃ q, (t.comm j.comm.toNat).run = some q ∧ j.rank.toNat ∈ q.joined ∧ q = { r with joined := q.joined }) ∧
    (joinDiffers r.req r.chips j = true → (cdescOf r.req).comm = j.comm.toNat → OpRuns s r.slot o →
      ((cdescOf r.req).deadline = 0 ∨ s.now < (cdescOf r.req).deadline) →
      ∃ t, exec (.joinRecord j) s = .next t ∧ t.store = s.store ∧ (t.comm j.comm.toNat).run = none ∧
        EndedIn t r.slot o stStruct (detail2 0xFFFFFF47 0xFFFFFFFF))) ∧
  (∀ (s : State) (j : JoinRec), (s.comm j.comm.toNat).run = none → (s.comm j.comm.toNat).queue = [] →
    j.seq.toNat ∉ (s.comm j.comm.toNat).usedSeq →
    exec (.joinRecord j) s = .next (if j ∈ (s.comm j.comm.toNat).held ∨ 16 ≤ (s.comm j.comm.toNat).held.length then s
      else s.setComm j.comm.toNat { s.comm j.comm.toNat with held := (s.comm j.comm.toNat).held ++ [j] })) ∧
  (∀ (s : State) (slot : Slot) (o : Op) (d : CDesc) (r : CollRun), OpRuns s slot o → o.kind = 6 → d = cdescOf o.payload →
    (s.comm d.comm).run = some r → r.slot = slot.val → r.req = o.payload →
    (r.lastJoin + 100000 ≤ s.now →
      ∃ t, exec (.joinResend slot) s = .next t ∧ t = { s with comms := t.comms, sent := t.sent } ∧
        (t.comm d.comm).run = some { r with lastJoin := s.now } ∧
        ∀ j c, j < d.members → j ≠ d.rank → r.chips[j]? = some c →
          Sent.join c (joinOf o.payload r.chips) ∈ t.sent) ∧
    (∀ (c seq rank : W32), c.toNat = d.comm → seq.toNat = d.seq → r.told = true → rank.toNat ∉ r.readDone →
      d.parcels ≤ r.next → (d.deadline = 0 ∨ s.now < d.deadline) → (∀ m ∈ otherMembers d r.chips, m.2 = rank.toNat ∨ m.2 ∈ r.readDone) → o.sat = 0 → o.nonfin = 0 → o.warns = [] →
      ∃ t, exec (.readDoneReport c seq rank) s = .next t ∧ t.store = s.store ∧ (t.comm d.comm).run = none ∧
        ∃ x, t.op slot = some x ∧ x.rcpt.state = .done) ∧
    (∀ (c seq rank : W32) (st : Byte), c.toNat = d.comm → seq.toNat = d.seq → s.ledger = [(slot.val, o)] →
      (d.deadline = 0 ∨ s.now < d.deadline) →
      ∃ t, exec (.abortNotice c seq rank st) s = .next t ∧ t.store = s.store ∧ (t.comm d.comm).run = none ∧
        EndedIn t slot o stDep (detail2 rank.toNat st.toNat)) ∧
    (d.deadline ≠ 0 → d.deadline ≤ s.now →
      ∃ t, exec (.collectiveDeadline slot) s = .next t ∧ t.store = s.store ∧ (t.comm d.comm).run = none ∧
        EndedIn t slot o (if ∀ j, j < d.members → j = d.rank ∨ j ∈ r.joined then stDeadline else stNotReady) 0)) ∧
  (∀ (s : State) (c seq rank : W32) (x : CommS), x = s.comm c.toNat → x.run = none → seq.toNat ∉ x.usedSeq →
    (seq.toNat, rank.toNat) ∉ x.early →
    exec (.readDoneReport c seq rank) s = .next (s.setComm c.toNat { x with early := x.early ++ [(seq.toNat, rank.toNat)] }))


/-! ## Couriers (spec/13) -/

/-- R326, R327, R329, R342, R343, R345, R347 (spec/13): a request is queued or fails as malformed; a round starts at its
first instruction with its counters zero; a failed access halts its courier and is latched; RESUME, ABORT and RESET act as
the rules say, an ABORT during a delivery to another module by stopping the courier; a bind takes effect only on an idle courier, and GROUP is Postmaster's. -/
def Obligations.CourierControl : Prop :=
  (∀ (s : State) (slot : Slot) (o : Op) (c : Nat), s.op slot = some o → o.kind = 5 → o.place = .atIssuer →
    o.rcpt.state = .notStarted → c = reqCourier o.payload →
    (requestFault s o.payload o.rcpt.stream = none → (s.courier c).queue.length < 4 →
      exec (.roundRequest slot) s = .next ((s.setCourier c { s.courier c with
        queue := (s.courier c).queue ++ [slot.val] }).setOp slot { o with place := .queued })) ∧
    (∀ e, requestFault s o.payload o.rcpt.stream = some e →
      ∃ t, exec (.roundRequest slot) s = .next t ∧ t.couriers = s.couriers ∧ t.store = s.store ∧
        ∃ x, t.op slot = some x ∧ x.rcpt.state = .failed ∧ x.rcpt.status = stStruct ∧
          x.rcpt.detail = detail2 (0xFFFFFF00 + e.2) 0xFFFFFFFF)) ∧
  (∀ (s u s2 : State) (c : CourierNo) (slot : Nat) (rest : List Nat) (o : Op) (x : Courier) (r0 r : Round) (b : List Byte),
    (s.courier c).round = none → (s.courier c).queue = slot :: rest → s.op slot = some o → o.rcpt.state = .notStarted →
    r0 = { slot := slot, base := reqRound o.payload, locks := roundKeys s c (reqRound o.payload) } →
    x = { s.courier c with
      queue := rest, round := some r0, phase := .running, curOp := o.rcpt.opId, pc := reqRound o.payload,
      lc := [0, 0, 0, 0] } →
    u = opStart (s.setCourier c x) slot → fetchIns u c r0 = (s2, r, .ins b) →
    ∃ t, exec (.roundStart c) s = .next t ∧ t = { s2 with couriers := t.couriers } ∧
      t.courier c = { x with round := some { r with ins := some b } } ∧
      t.op slot = some { o with place := .running, rcpt := { o.rcpt with state := .inProgress } }) ∧
  (∀ (s : State) (c : CourierNo) (r : Round), (s.courier c).round = some r →
    (∀ st w a z, r.fault = some (st, w, a, z) →
      ∃ t, exec (.courierHalt c) s = .next t ∧ t.store = s.store ∧ t.ledger = s.ledger ∧
        (∀ j, j ≠ c.val → t.courier j = s.courier j) ∧
        t.courier c = { s.courier c with
          phase := .halted, faultAddr := a, faultValid := true, faultDir := w, faultCause := st, restart := z,
          halts := inc32 (s.courier c).halts,
          round := some { r with fault := none, tags := [], moveTags := [], cache := [], pend := none } }) ∧
    (∀ (m : Master) (v : W32), regGate s m.toNat (crrBase c) true = .ok →
      (v.toNat.testBit 2 = false → v.toNat.testBit 1 = false → v.toNat.testBit 0 = true → (s.courier c).phase = .halted →
        ∃ t, exec (.courierResume c m v) s = .next t ∧
          CourierBecomes s t c { s.courier c with phase := .running }) ∧
      (v.toNat.testBit 2 = false → v.toNat.testBit 1 = true → ∀ o, OpRuns s r.slot o →
        ((s.courier c).phase = .halted →
          ∃ t, exec (.courierAbort c m v) s = .next t ∧ RoundOver s t c ∧
            EndedIn t r.slot (roundCounted o r) (s.courier c).faultCause
              (detail2 (s.courier c).faultAddr (boolNat (s.courier c).faultDir * 2 ^ 31 +
                ((s.courier c).pc - r.base) % 65536))) ∧
        ((s.courier c).phase ≠ .halted → r.pend = none →
          ∃ t, exec (.courierAbort c m v) s = .next t ∧ RoundOver s t c ∧
            EndedIn t r.slot (roundCounted o r) stReset 0) ∧
        ((s.courier c).phase ≠ .halted → r.pend ≠ none →
          ∃ t, exec (.courierAbort c m v) s = .next t ∧
            CourierBecomes s t c { s.courier c with phase := .stopping })) ∧
      (v.toNat.testBit 2 = true → (s.courier c).phase = .halted ∨ r.pend = none → ∀ o, OpRuns s r.slot o →
        ∃ t, exec (.courierReset c m v) s = .next t ∧ t.store = s.store ∧
          EndedIn t r.slot (roundCounted o r) stReset 0 ∧
          (∀ j, j ≠ c.val → t.courier j = s.courier j) ∧
          t.courier c = { s.courier c with
            round := none, phase := .idle, rounds := inc32 (s.courier c).rounds, queue := [], lc := [0, 0, 0, 0],
            faultAddr := 0, faultValid := false, faultDir := false, faultCause := 0, restart := 0 } ∧
          ∀ k ∈ (s.courier c).queue, ∀ x, s.op k = some x → x.rcpt.state = .notStarted → x.place = .queued →
            ∃ y, t.op k = some y ∧ y.rcpt.state = .failed ∧ y.rcpt.status = stReset))) ∧
  (∀ (s : State) (c : CourierNo) (m : Master) (v : W32), regGate s m.toNat (crrBase c + 8) true = .ok →
    ((s.courier c).phase ≠ .idle ∨ (s.courier c).queue ≠ [] →
      ∃ t, exec (.courierBindWrite c m v) s = .next t ∧
        CourierBecomes s t c { s.courier c with bindRefused := true }) ∧
    ((s.courier c).phase = .idle → (s.courier c).queue = [] →
      ∃ t, exec (.courierBindWrite c m v) s = .next t ∧ t = { s with couriers := t.couriers, sec := t.sec } ∧
        (t.courier c).bound = v.toNat.testBit 31 ∧ (t.courier c).stream = v.toNat % 2 ^ 16 ∧
        (m = 0 → courierGroup t c = v.toNat / 2 ^ 16 % 16) ∧ (m ≠ 0 → courierGroup t c = courierGroup s c) ∧
        ∀ j, j ≠ c.val → t.courier j = s.courier j))

/-- R333, R334, R335 (spec/13): LOOP counts and goes back until COUNT, then clears its counter and goes on; WAIT holds the
round; a condition met in time lets it go on, but for an awaited receipt in error, which ends it in DEPENDENCY_FAILED; a
TIMEOUT reached first ends it in NOT_READY; a poll reads its word. -/
def Obligations.CourierLoopAndWait : Prop :=
  ∀ (s : State) (c : CourierNo) (r : Round) (b : List Byte) (x : Courier), x = s.courier c →
    (AtIns s c r b .running →
      (leAt b 0 1 = 2 →
        ∃ t, exec (.loop c) s = .next t ∧ CourierBecomes s t c (if x.lc.getD (leAt b 1 1) 0 + 1 < leAt b 4 4
          then
            { x with
              lc := x.lc.set (leAt b 1 1) (x.lc.getD (leAt b 1 1) 0 + 1), pc := (x.pc + signedOf 32 (leAt b 8 4)).toNat,
              round := some { r with ins := none } }
          else { x with lc := x.lc.set (leAt b 1 1) 0, pc := x.pc + 16, round := some { r with ins := none } })) ∧
      (leAt b 0 1 = 3 →
        ∃ t, exec (.wait c) s = .next t ∧ CourierBecomes s t c { x with
          phase := .waiting, round := some { r with ins := some b, waitFrom := s.now, lastPoll := none, met := false } })) ∧
    (AtIns s c r b .waiting →
      (waitHolds s r b = true → waitStatus s b < 0x40 →
        ∃ t, exec (.waitMet c) s = .next t ∧ CourierBecomes s t c { x with
          phase := .running, pc := x.pc + 32, round := some { r with ins := none } }) ∧
      (∀ o, OpRuns s r.slot o →
        (waitHolds s r b = true → 0x40 ≤ waitStatus s b →
          ∃ t, exec (.waitMet c) s = .next t ∧ RoundOver s t c ∧
            EndedIn t r.slot (roundCounted o r) stDep (detail2 (waitArg b) 0)) ∧
        (waitHolds s r b = false → waitTimeout b ≠ 0 → waitTimeout b ≤ s.now →
          ∃ t, exec (.waitTimeout c) s = .next t ∧ RoundOver s t c ∧
            EndedIn t r.slot (roundCounted o r) stNotReady (detail2 (waitArg b) (x.pc - r.base)))) ∧
      (∀ s1 r1 d, waitKind b = 1 → r.met = false → pollDue s r = true →
        pollWord s c r (waitArg b) = (s1, r1, .ok d) →
        ∃ t, exec (.waitPoll c) s = .next t ∧ t.store = s1.store ∧
          (t.courier c).round = some { r1 with
            moveTags := [], lastPoll := some s1.now,
            met := decide (leAt b 16 8 ≤ natOfBytes d) && (waitTimeout b == 0 || decide (s1.now < waitTimeout b)) }))

/-- R336, R339, R341 (spec/13): a MOVE commits its deliveries in stream order, each with the bytes read for it, and the last
one ends it; SIGNAL writes its word, and with END ends the round DONE. -/
def Obligations.CourierMoveAndSignal : Prop :=
  ∀ (s : State) (c : CourierNo) (r r0 : Round) (b : List Byte), AtIns s c r b .running → r0 = { r with ins := some b } →
    (leAt b 0 1 = 1 → ∀ (d : MDesc) (parts mine : List (Nat × Nat × Nat)) (par : Nat) (host : List HostRead) (s1 s2 : State)
        (r1 r2 : Round) (m : KMap Byte) (l : List (Nat × List Byte)), d = mdescOf b →
      parts = moveParts d (s.courier c).lc → (deliveries parts)[r.del]? = some par → mine = partsIn parts par →
      readSrc (setRound s c r0) c r0 d host (mine.flatMap (partBytes d)) [] = (s1, r1, .ok m) →
      l = mine.map (fun e => (e.2.1, (List.range e.2.2).map (fun j => kget 0 m (e.1 + j)))) →
      (if d.dstHost then ((hostPut s1 l).1, r1, (hostPut s1 l).2) else devicePut s1 c r1 l) = (s2, r2, .ok) →
      ∃ t, exec (.move c 1 host) s = .next t ∧ t.store = s2.store ∧
        (t.courier c).bytes = ((s2.courier c).bytes + (mine.map (fun e => e.2.2)).sum) % 2 ^ 64 ∧
        (r2.del + 1 < (deliveries parts).length →
          (t.courier c).round = some { r2 with del := r2.del + 1, moveTags := [], cache := [], pend := none } ∧
          (t.courier c).pc = (s2.courier c).pc) ∧
        (r2.del + 1 = (deliveries parts).length → r2.fault = none →
          (t.courier c).round = some { r2 with
            out := r2.out + d.total, del := 0, moveChecked := [], moveTags := [], cache := [], pend := none, ins := none } ∧
          (t.courier c).pc = (s2.courier c).pc + 64)) ∧
    (leAt b 0 1 = 4 →
      ((leAt b 1 1).testBit 1 = false → (leAt b 1 1).testBit 0 = false →
        ∃ t, exec (.signal c) s = .next t ∧ CourierBecomes s t c { s.courier c with
          pc := (s.courier c).pc + 32, round := some { r with ins := none } }) ∧
      ((leAt b 1 1).testBit 1 = true → (leAt b 1 1).testBit 2 = true → (leAt b 1 1).testBit 0 = false →
        s.hif.linkUp = true → 8 ≤ s.hif.fn.maxPayload →
        ∃ t, exec (.signal c) s = .next t ∧ t.store = s.store ∧ (t.courier c).pc = (s.courier c).pc + 32 ∧
          t.sent = s.sent ++ [.hostWrite (leAt b 8 8) (bytesAt b 16 8)]) ∧
      ((leAt b 1 1).testBit 1 = true → (leAt b 1 1).testBit 2 = false → (leAt b 1 1).testBit 0 = false →
        ∀ s1 r1, devicePut (setRound s c r0) c r0 [(leAt b 8 8, bytesAt b 16 8)] = (s1, r1, .ok) →
        ∃ t, exec (.signal c) s = .next t ∧ t.store = s1.store ∧ (t.courier c).pc = (s1.courier c).pc + 32) ∧
      (∀ o, (leAt b 1 1).testBit 1 = false → (leAt b 1 1).testBit 0 = true → OpRuns s r.slot o → o.sat = 0 →
        o.nonfin = 0 → o.warns = [] →
        ∃ t, exec (.signal c) s = .next t ∧ RoundOver s t c ∧
          ∃ x, t.op r.slot = some x ∧ x.rcpt.state = .done ∧ x.rcpt.status = 0 ∧
            x.rcpt.count = max o.rcpt.count (ceilDiv r.out 4096)))


/-! ## The host link and BAR2 (spec/16), remote packets (spec/14) -/

/-- R404, R405, R406, R403 (spec/16): a read through BAR2 returns the bytes read for it, or completes with a failure that is
recorded; a whole parcel written to HBM commits, a part of one is merged under the old parcel's seal; a write that may not
be made is dropped and recorded; IDE_KM sets what it names. -/
def Obligations.HostAccess : Prop :=
  (∀ (s s1 : State) (off len a : Nat) (tags : List Nat), ApReady s off false a →
    (∀ d, apRead s [] (apParts a len) = (s1, tags, .ok d) →
      ∃ t, exec (.apertureRead off len) s = .next t ∧ t.store = s1.store ∧ t.ring.waiting = [] ∧
        t.sent = s1.sent ++ [.readData 2 a d]) ∧
    (∀ st, apRead s [] (apParts a len) = (s1, tags, .fail st) →
      ∃ t, exec (.apertureRead off len) s = .next t ∧ t.store = s1.store ∧ ApFaulted t a false st ∧
        t.sent = s1.sent ++ [.readFail 2 a st])) ∧
  (∀ (s s1 : State) (off a k : Nat) (data : List Byte), ApReady s off true a → data ≠ [] → a % 4096 + data.length ≤ 4096 →
    (writePlace s hostMaster none (BitVec.ofNat 64 a) (data.length == 4096) = (s1, .mem k) →
      readLocked s1 .other k = false → keyIsHbm k = true → hbmRefuses s1 (k - k % 4096) true = none →
      (data.length = 4096 →
        ∃ t, exec (.apertureWrite off data) s = .next t ∧ t.store = (parcelWrite s1 (k - k % 4096) data).1.store ∧
          t.hif = s1.hif ∧ t.ledger = s.ledger) ∧
      (∀ s2 old, data.length < 4096 → parcelRead s1 (k - k % 4096) hostBy = (s2, .ok old) →
        ∃ t, exec (.apertureWrite off data) s = .next t ∧ t.hif = s1.hif ∧ t.ledger = s.ledger ∧
          t.store = (parcelWrite s2 (k - k % 4096) (overlay old (k % 4096) data)).1.store)) ∧
    (∀ st, writePlace s hostMaster none (BitVec.ofNat 64 a) (data.length == 4096) = (s1, .bad st) →
      ∃ t, exec (.apertureWrite off data) s = .next t ∧ t.store = s.store ∧ ApFaulted t a true st ∧ t.sent = s.sent)) ∧
  (∀ (s : State) (l x : Option Bool), s.hif.linkUp = true → 2 ≤ s.boot.stage →
    exec (.ideKm l x) s = .next { s with hif := { s.hif with ideLink := l.getD s.hif.ideLink, ideSel := x.getD s.hif.ideSel } })

/-- R425, R426 (spec/16), R547 (spec/22): a link that goes down takes collection and the mirror with it and is remembered; it
comes up with a width and generation it trains at from S1 on while PERST_N is high; PERST_N low takes it down; a Function
Level Reset stops collection and the mirror, disables the letterboxes and, from S6 on, begins a compute reset of cause 4. -/
def Obligations.LinkEvents : Prop :=
  (∀ (s : State), s.hif.linkUp = true →
    (∃ t, exec .linkLoss s = .next t ∧ t = { s with hif := t.hif, ring := t.ring } ∧ t.hif.linkUp = false ∧
      t.hif.collectEn = false ∧ t.hif.mirrorEn = false ∧ t.hif.linkDownSeen = true ∧ t.hif.ideSel = false ∧
      t.hif.ideLink = false ∧ t.ring.msixTable = [] ∧ t.ring.msixPending = [] ∧ t.hif.apActive = s.hif.apActive ∧
      t.hif.ledgerBase = s.hif.ledgerBase) ∧
    (∃ t, exec (.perstN true) s = .next t ∧ t.pins.perstN = false ∧ t.hif.linkUp = false ∧ t.store = s.store ∧
      t.ledger = s.ledger) ∧
    (∃ t, exec .functionLevelReset s = .next t ∧ t.hif.linkUp = true ∧ t.hif.collectEn = false ∧ t.hif.mirrorEn = false ∧
      t.hif.linkDownSeen = true ∧ t.ring.msixTable = [] ∧ (∀ k, (t.box k).enable = false) ∧
      (s.boot.stage < 6 → t.store = s.store ∧ t.boot = s.boot) ∧
      (6 ≤ s.boot.stage → s.boot.computeReset = false → t.boot.computeReset = true ∧ t.boot.resetCause = 4))) ∧
  (∀ (s : State), exec (.perstN false) s = .next { s with pins := { s.pins with perstN := true } }) ∧
  (∀ (s : State) (g : BitVec 4) (w : BitVec 5), s.hif.linkUp = false → s.pins.perstN = true → s.boot.stage ≠ 0 →
    (1 ≤ g.toNat → g.toNat ≤ 7 → w.toNat ∈ [1, 2, 4, 8, 16] →
      ∃ t, exec (.linkUp g w) s = .next t ∧ t = { s with hif := t.hif, ring := t.ring, sent := t.sent } ∧
        t.hif = { s.hif with linkUp := true, gen := g.toNat, width := w.toNat }) ∧
    (g = 0 ∨ 7 < g.toNat ∨ w.toNat ∉ [1, 2, 4, 8, 16] → exec (.linkUp g w) s = .next s))

/-- R358, R359, R372 (spec/14): of a packet that the link layer has received whole, a READ that passes the checks is
answered with the parcel and its stored seal, a WRITE whose CHECK holds commits before it is acknowledged, one whose CHECK
does not is turned away with SEAL_MISMATCH and nothing written, one to a read-locked parcel waits; a refused request is
answered with a NACK of its status; a packet for another module goes on with its TTL one lower, or is dropped and counted
and its source told. R358, R360 (spec/14): a reply closes the request of its tag with its status and data, a parcel whose
seal does not fit with SEAL_MISMATCH; a reply to no outstanding request is discarded and counted; a request without a
reply in time fails with LINK_LOST and its tag is retired. -/
def Obligations.FabricPackets : Prop :=
  ((∀ (s s0 s1 : State) (p : Packet), ForUs s p 1 → linkTake s p = (s0, true) →
     (∀ st, fabCheck s0 p.h false true = (s1, .error st) → Routed s1 p.h.src →
       ∃ t, exec (.read p) s = .next t ∧ Answered s1 t p.h 5 st [] 0) ∧
     (∀ k s2 d c, fabCheck s0 p.h false true = (s1, .ok (.mem k)) → parcelRaw s1 (k - k % 4096) = (s2, .ok (d, c)) →
       Routed s2 p.h.src → ∃ t, exec (.read p) s = .next t ∧ Answered s2 t p.h 2 0 d c)) ∧
   (∀ (s s0 s1 : State) (p : Packet), ForUs s p 3 → linkTake s p = (s0, true) → s0.net.held = [] →
     p.h.addr.toNat % 4096 + p.data.length ≤ 4096 →
     (∀ st, fabCheck s0 p.h true (p.data.length == 4096) = (s1, .error st) → Routed s1 p.h.src →
       ∃ t, exec (.write p) s = .next t ∧ t.store = s1.store ∧ Answered s1 t p.h 5 st [] 0) ∧
     (∀ k, fabCheck s0 p.h true (p.data.length == 4096) = (s1, .ok (.mem k)) →
       (readLocked s1 .other k = true →
         exec (.write p) s = .next { s1 with net := { s1.net with held := s1.net.held ++ [p] } }) ∧
       (readLocked s1 .other k = false → checkOk s1 p (k - k % 4096) = true →
         ∀ s2, parcelMerge s1 (k - k % 4096) (k % 4096) p.data fabBy = (s2, none) → Routed s2 p.h.src →
         ∃ t, exec (.write p) s = .next t ∧ t.store = s2.store ∧ Answered s2 t p.h 4 0 [] 0) ∧
       (readLocked s1 .other k = false → checkOk s1 p (k - k % 4096) = false → Routed s1 p.h.src →
         ∃ t, exec (.write p) s = .next t ∧ t.store = s1.store ∧
           t.chk.sealEvents = inc32 s1.chk.sealEvents ∧
           ∃ n q, OnPort t n (.packet n q) ∧ q.h.kind = 5 ∧ q.h.status = 0x41 ∧ q.h.tag = p.h.tag))) ∧
   (∀ (s s0 : State) (i : Option PortNo) (p : Packet), packetBad p = false → dstHere s p.h.dst.toNat = false →
     (∀ m, i = some m → (s.port m).state = 2) → linkTake s p = (s0, true) →
     (∀ n q, 1 < p.h.ttl.toNat → routePacket s0 { p with h := { p.h with ttl := BitVec.ofNat 8 (p.h.ttl.toNat - 1) } } = some (n, q) →
       ∃ t, exec (.packetForward i p) s = .next t ∧ t = { s0 with sent := t.sent, ports := t.ports } ∧
         PutOnPort s0 t n (.packet n { q with link := none }) ∧ q.data = p.data ∧ q.h.ttl.toNat = p.h.ttl.toNat - 1 ∧
         q.h.tag = p.h.tag ∧ q.h.dst = p.h.dst) ∧
     (p.h.ttl.toNat ≤ 1 → p.h.src.toNat ≠ ownSrc s → Routed s0 p.h.src →
       ∃ t, exec (.packetForward i p) s = .next t ∧
         t = { s0 with fab := { s0.fab with routeDrops := inc32 s.fab.routeDrops }, sent := t.sent, ports := t.ports } ∧
         ∃ n q, PutOnPort s0 t n (.packet n q) ∧ q.h.kind = 5 ∧ q.h.status = BitVec.ofNat 8 stLink ∧ q.h.dst = p.h.src ∧
           q.h.tag = p.h.tag))) ∧
  (∀ (s s0 : State) (p : Packet), linkTake s p = (s0, true) →
     (∀ r, reqOpen s0 p.h.tag.toNat = some r →
       (ForUs s p 2 → r.reg = true ∨ sealOf r.addr p.data = p.h.check.toNat →
         exec (.readData p) s = .next (consumed (reqReply s0 p.h.tag.toNat 0 p.data) p)) ∧
       (ForUs s p 2 → r.reg = false → sealOf r.addr p.data ≠ p.h.check.toNat →
         ∃ t, exec (.readData p) s = .next t ∧ t.net = (reqReply s0 r.tag stSeal []).net ∧
           t.chk.sealEvents = inc32 s.chk.sealEvents) ∧
       (ForUs s p 4 → exec (.writeAck p) s = .next (consumed (reqReply s0 p.h.tag.toNat 0 []) p)) ∧
       (ForUs s p 5 → exec (.nack p) s = .next (consumed (reqReply s0 p.h.tag.toNat p.h.status.toNat []) p))) ∧
     (reqOpen s0 p.h.tag.toNat = none → ForUs s p 2 ∨ ForUs s p 4 ∨ ForUs s p 5 →
       ∃ t, t = consumed { s0 with fab := { s0.fab with lateReplies := inc32 s0.fab.lateReplies },
                                   net := { s0.net with retiredTags := s0.net.retiredTags.erase p.h.tag.toNat } } p ∧
         (ForUs s p 2 → exec (.readData p) s = .next t) ∧ (ForUs s p 4 → exec (.writeAck p) s = .next t) ∧
         (ForUs s p 5 → exec (.nack p) s = .next t))) ∧
  (∀ (s : State) (tag : Nat) (r : Req), reqOpen s tag = some r → r.sent + s.fab.reqTimeout * 1000 ≤ s.now →
     exec (.remoteRequestTimeout tag) s = .next { s with net := { (reqReply s tag stLink []).net with
       retiredTags := tag :: s.net.retiredTags } })


/-! ## Fabric ports, position and routes (spec/14) -/

/-- R350 to R354, R364, R365, R366, R381 (spec/14): a trained port takes the width of its good lanes; its neighbour's
DISCOVER is kept and decides its state; a control flit's ACK empties the replay buffer and its credits come back, a
RETRY_REQ replays what is left, a flit that fails its checks is answered with one RETRY_REQ; a packet's flits in sequence
are received, those from a failing one on are not; a port in service goes down for lost block lock, a window of more than
16 uncorrectable codewords, an acknowledgement 20 µs late or an eighth replay; HOLD and RETRAIN act as written. -/
def Obligations.FabricPorts : Prop :=
  ∀ (s : State) (n : PortNo) (x : Port), x = s.port n →
    (portLive s n = true →
      (∃ t, exec (.blockLockLost n) s = .next t ∧ t.store = s.store ∧ t.core = s.core ∧ (t.port n).state = 0 ∧
        (t.port n).cause = 8 ∧ (t.port n).width = 0) ∧
      (∀ c u, 16 < u → ∃ t, exec (.fecWindowEnd n c u) s = .next t ∧ t.store = s.store ∧ (t.port n).state = 0 ∧
        (t.port n).cause = 6 ∧ (t.port n).fecCorr = add32 x.fecCorr c ∧ (t.port n).fecUncorr = add32 x.fecUncorr u) ∧
      ((∃ e ∈ x.replay, e.time + 20000 ≤ s.now) → ∃ t, exec (.ackTimeout n) s = .next t ∧ t.store = s.store ∧
        (t.port n).state = 0 ∧ (t.port n).cause = 9) ∧
      (∀ (f : List Byte) (h : FlitHead), flitRead f = some h → h.ftype = 0 → x.queue = [] →
        ∀ (y : Port) (l : List Replay), y = { x with
            replay := x.replay.filter (fun e => !seqFrom h.ack e.lastSeq),
            credits := kset 64 x.credits h.crvc (min 64 (kget 64 x.credits h.crvc + h.credits)) } →
          l = y.replay.map (fun e => { e with count := e.count + 1 }) →
        (h.ctrl ≠ 1 → exec (.retryReq n ⟨f, false⟩) s = .next (s.setPort n y)) ∧
        (h.ctrl = 1 → l ≠ [] → (∀ e ∈ l, e.count < 8) → ∃ t, exec (.retryReq n ⟨f, false⟩) s = .next t ∧
          t = { s with ports := t.ports, sent := s.sent ++ l.map (fun e => e.item) } ∧
          t.port n = { y with replay := l, retries := inc32 x.retries }) ∧
        (h.ctrl = 1 → (∃ e ∈ l, 8 ≤ e.count) → ∃ t, exec (.retryReq n ⟨f, false⟩) s = .next t ∧ (t.port n).state = 0 ∧
          (t.port n).cause = 7)) ∧
      (∀ (f : List Byte) (bad : Bool), bad = true ∨ flitRead f = none →
        (x.discarding = false → exec (.retryReq n ⟨f, bad⟩) s = .next ((s.setPort n { x with discarding := true }).send
          (.flit n (flitBytes { ftype := 0, ctrl := 1, seq := x.nextSeq, ack := (x.expect + 65535) % 65536 } [])))) ∧
        (x.discarding = true → exec (.retryReq n ⟨f, bad⟩) s = .next s))) ∧
    (∀ c u, u ≤ 16 → exec (.fecWindowEnd n c u) s = .next (s.setPort n { x with
      fecCorr := add32 x.fecCorr c, fecUncorr := add32 x.fecUncorr u })) ∧
    (x.state = 1 → x.width = 0 → ∀ tr : Training,
      (tr.signal = false → ∃ t, exec (.portTrained n tr) s = .next t ∧ (t.port n).state = 0 ∧ (t.port n).cause = 1) ∧
      (tr.signal = true → (widthOf tr.lanes.toNat).1 = 0 →
        ∃ t, exec (.portTrained n tr) s = .next t ∧ (t.port n).state = 0 ∧ (t.port n).cause = 2) ∧
      (tr.signal = true → (widthOf tr.lanes.toNat).1 ≠ 0 →
        ∃ t, exec (.portTrained n tr) s = .next t ∧ t.store = s.store ∧ (t.port n).width = (widthOf tr.lanes.toNat).1 ∧
          (t.port n).laneGroup = (widthOf tr.lanes.toNat).2 ∧ ∃ d, Sent.discover n d ∈ t.sent)) ∧
    (x.width ≠ 0 → x.badWire = false → ∀ d : Discover, d.rsv = false →
      (x.savedUsed = true → savedDiffers s n d = false) → x.hold = false →
      ∃ t, exec (.discover n d) s = .next t ∧ t.store = s.store ∧ (t.port n).nbrValid = true ∧
        (t.port n).nbrSerial = d.serial ∧ (t.port n).nbrPort = d.port.toNat % 16 ∧ (t.port n).nbrDigest = d.digest ∧
        (t.port n).state = (portVerdict s n (d.port.toNat % 16) d.lpv.toNat d.imageLoaded d.digest).1 ∧
        (t.port n).cause = (portVerdict s n (d.port.toNat % 16) d.lpv.toNat d.imageLoaded d.digest).2.1) ∧
    (∀ (m : Master) (v : W32), regGate s m.toNat (fabBase + 0x100 * n + 4) true = .ok →
      (v.toNat.testBit 0 = true → ∃ t, exec (.portHold n m v) s = .next t ∧ t.store = s.store ∧ (t.port n).hold = true ∧
        (t.port n).state = 0 ∧ (t.port n).cause = 10) ∧
      (v.toNat.testBit 0 = false → v.toNat.testBit 1 = true → ∃ t, exec (.portRetrain n m v) s = .next t ∧
        t.store = s.store ∧ (t.port n).hold = false ∧ (t.port n).state = 1 ∧ (t.port n).width = 0)) ∧
    (2 ≤ x.state → x.queue = [] → ∀ (p : Packet) (l : LinkIn) (k : Nat), p.link = some l → l.port = n →
      l.seq.toNat = x.expect → k = packetFlits p → k < 32768 →
      ((l.bad = none ∨ ∃ i, l.bad = some i ∧ k ≤ i) →
        ∃ t, linkTake s p = (t, true) ∧ t = { s with ports := t.ports } ∧ (t.port n).expect = (x.expect + k) % 65536 ∧
          (t.port n).discarding = false ∧ (t.port n).replay = x.replay.filter (fun e => !seqFrom l.ack.toNat e.lastSeq)) ∧
      (∀ i, l.bad = some i → i < k → ForUs s p 1 →
        ∃ t, exec (.read p) s = .next t ∧ t = { s with ports := t.ports, sent := t.sent } ∧
          (t.port n).expect = (x.expect + i) % 65536 ∧ (t.port n).discarding = true ∧
          t.sent = s.sent ++ [.flit n (flitBytes
            { ftype := 0, ctrl := 1, seq := x.nextSeq, ack := (x.expect + i + 65535) % 65536 } [])])) ∧
    (∀ (p : Packet) (vc f : Nat) (src : Option (Nat × Nat × Nat)), vc = vcOf p.h → f = packetFlits p → x.queue = [] →
      (f ≤ kget 64 x.credits vc → (x.replay.map (fun e => e.flits)).sum + f ≤ 2048 →
        portSend s n p none = (s.setPort n { x with
          credits := kset 64 x.credits vc (kget 64 x.credits vc - f), nextSeq := (x.nextSeq + f) % 65536,
          replay := x.replay ++ [{ seq := x.nextSeq, item := .packet n { p with link := none }, flits := f, time := s.now }]
          }).send (.packet n { p with link := none })) ∧
      (kget 64 x.credits vc < f ∨ 2048 < (x.replay.map (fun e => e.flits)).sum + f →
        portSend s n p src = s.setPort n { x with queue :=
          [{ vc := vc, item := .packet n { p with link := none }, flits := f, src := src }] }))

/-- R356, R367, R370, R373 to R377 (spec/14): a new ROSTER, LINK_STATE or FWD_ADDR is taken in and flooded on, a repeated one
changes nothing; a quiet discovery settles frame, coordinates and chip number; the builder's table and Postmaster's flip
become active; a takeover makes the spare answer for the failed chip until it is cleared. -/
def Obligations.FabricRoutes : Prop :=
  (∀ (s : State) (n : PortNo), portMaint s n = true →
    (∀ r : Roster, r.rsv = false → (0x21, r.origin.toNat, r.seq.toNat) ∉ s.net.seen →
      ∃ t, exec (.roster n r) s = .next t ∧
        t = { s with net := t.net, fab := t.fab, ports := t.ports, sent := t.sent } ∧
        r ∈ t.net.rosters ∧ (0x21, r.origin.toNat, r.seq.toNat) ∈ t.net.seen ∧
        ∀ k, k < 12 → k ≠ n.val → portMaint s k = true → OnPort t k (.roster k r)) ∧
    (∀ r : Roster, r.rsv = false → (0x21, r.origin.toNat, r.seq.toNat) ∈ s.net.seen →
      exec (.roster n r) s = .next (linkRecv s n 8 1)) ∧
    (∀ r : Roster, r.rsv = true → exec (.roster n r) s = .next { linkRecv s n 8 1 with
      fab := { s.fab with routeDrops := inc32 s.fab.routeDrops } }) ∧
    (∀ l : LinkState, l.rsv = false → (0x22, l.origin.toNat, l.seq.toNat) ∉ s.net.seen →
      ∃ t, exec (.linkState n l) s = .next t ∧ t = { s with net := t.net, fab := t.fab, time := t.time, ports := t.ports, sent := t.sent } ∧
        t.fab.rebuildDue = true ∧
        (∀ d, d < 6 → kget false t.net.linkDown (l.origin.toNat * 8 + d) = !(l.usable.getD d true) ∧
          kget false t.net.timeDown (l.origin.toNat * 8 + d) = !(l.timed.getD d true)) ∧
        ∀ k, k < 12 → k ≠ n.val → portMaint s k = true → OnPort t k (.linkState k l)) ∧
    (∀ f : FwdAddr, f.rsv = false → (0x23, f.entry.spare.toNat, f.entry.seq.toNat) ∉ s.net.seen →
      ∃ t, exec (.fwdAddr n f) s = .next t ∧
        t = { s with net := t.net, fab := t.fab, ports := t.ports, sent := t.sent } ∧
        t.fab = { s.fab with rebuildDue := true, fwd :=
          if f.remove then fwdDel s.fab.fwd f.entry.failed else fwdAdd s.fab.fwd f.entry } ∧
        ∀ k, k < 12 → k ≠ n.val → portMaint s k = true → OnPort t k (.fwdAddr k f))) ∧
  (∀ (s : State) (c : Coord), 4 ≤ s.boot.stage → s.fab.placed = false ∨ s.net.dirty = true →
    s.fab.lastRoster + 20000000 ≤ s.now →
    (∀ n, n < 12 → (s.port n).state = 1 → (s.port n).width ≠ 0) →
    ((settlePosition (modulesOf s)).2.find? (fun e => e.1 == Config.serial)).map Prod.snd = some c →
    ∃ t, exec .discoveryQuiet s = .next t ∧ t.store = s.store ∧ t.core = s.core ∧ t.fab.chip = chipAt c ∧
      t.fab.placed = true ∧ t.flash.coord = some c ∧ t.flash.frame = (settlePosition (modulesOf s)).1 ∧
      t.fab.sizeX = ringSize (modulesOf s) 0 ∧ t.fab.sizeY = ringSize (modulesOf s) 1 ∧
      t.fab.sizeZ = ringSize (modulesOf s) 2) ∧
  (∀ s : State, s.fab.auto = true → s.fab.rebuildDue = true →
    ∃ t, exec .routeRebuild s = .next t ∧ t = { s with fab := t.fab } ∧ t.fab.rtActive = buildRoutes s ∧
      t.fab.rebuildDue = false ∧ t.fab.rtEpoch = !s.fab.rtEpoch) ∧
  (∀ (s : State) (m : Master), regGate s m.toNat (fabBase + 0x1020) true = .ok →
    (m = 0 → s.fab.auto = false →
      ∃ t, exec (.routeFlip m) s = .next t ∧ t = { s with fab := t.fab } ∧ t.fab.rtActive = s.fab.rtShadow ∧
        t.fab.rtShadow = s.fab.rtShadow ∧ t.fab.rtEpoch = !s.fab.rtEpoch) ∧
    (m = 0 → s.fab.auto = true → exec (.routeFlip m) s = .next s) ∧
    (m ≠ 0 → ∃ t, exec (.routeFlip m) s = .next t ∧ t = { s with sec := t.sec } ∧
      t.sec.denyTail = (s.sec.denyTail + 1) % 2 ^ 32)) ∧
  (∀ (s : State) (v : W32), s.boot.stage ≠ 0 →
    (v.toNat.testBit 31 = true → v.toNat.testBit 30 = false → takeRefused s (v.toNat % 2 ^ 16) = false →
      ∃ t, exec (.takeover 0 v) s = .next t ∧
        t = { s with net := t.net, fab := t.fab, ports := t.ports, sent := t.sent } ∧
        t.fab.aliasValid = true ∧ t.fab.aliasChip = v.toNat % 2 ^ 16 ∧ t.fab.takeResult = 1 ∧ t.fab.rebuildDue = true ∧
        t.fab.fwd = fwdAdd s.fab.fwd
          ⟨BitVec.ofNat 16 (v.toNat % 2 ^ 16), BitVec.ofNat 16 s.fab.chip, BitVec.ofNat 16 ((s.fab.fwdSeq + 1) % 65536)⟩) ∧
    (v.toNat.testBit 31 = true → v.toNat.testBit 30 = true ∨ takeRefused s (v.toNat % 2 ^ 16) = true →
      exec (.takeover 0 v) s = .next { s with fab := { s.fab with takeFailed := v.toNat % 2 ^ 16, takeResult := 3 } }) ∧
    (v.toNat.testBit 31 = false → v.toNat.testBit 30 = true → s.fab.aliasValid = true →
      ∃ t, exec (.takeoverClear 0 v) s = .next t ∧
        t = { s with net := t.net, fab := t.fab, ports := t.ports, sent := t.sent } ∧
        t.fab.aliasValid = false ∧ t.fab.fwd = fwdDel s.fab.fwd (BitVec.ofNat 16 s.fab.aliasChip)))


/-! ## Time transfer (spec/14, spec/22) and stacked memory (spec/12) -/

/-- R379, R380 (spec/14), R544 (spec/22): every 16 µs TIME_SYNC goes out with its send time; a TIME_SYNC is answered; a reply
counts the exchange, sets or clears LOCKED, and slews the time base by steps of 4 ppm within 500 ppm, or steps it before S6
when it is 1 µs or more off (offsets in 1/16 ns, doubled); without FREF the internal oscillator runs and every port is down.
Which of the two nearest steps of SLEW an offset between them takes is free (log 21). -/
def Obligations.Timekeeping : Prop :=
  (∀ s : State, s.time.sourcePort ≠ 15 → portMaint s s.time.sourcePort = true → s.time.running = true →
    (∀ t1, s.time.t1 = some t1 → t1 + 16000 ≤ s.now) →
    ∃ t, exec .timeSyncSend s = .next t ∧
      t = { s with time := { s.time with t1 := some s.now }, ports := t.ports, sent := t.sent } ∧
      PutOnPort s t s.time.sourcePort (.timeSync s.time.sourcePort (s.now * 16))) ∧
  (∀ (s : State) (n : PortNo) (t1 t2 t3 : Int), portMaint s n = true → s.time.running = true →
    ∃ t, exec (.timeSync n t1 t2 t3) s = .next t ∧ t = { s with ports := t.ports, sent := t.sent } ∧
      PutOnPort s t n (.timeReply n t2 t3)) ∧
  (∀ (s : State) (n : PortNo) (t1 t2 t3 t4 d : Int), n.val = s.time.sourcePort → portMaint s n = true →
    s.time.t1.isSome = true → d = (t2 - t1) - (t4 - t3) →
    ∃ t, exec (.timeReply n t1 t2 t3 t4) s = .next t ∧ t.store = s.store ∧ t.core = s.core ∧ t.ledger = s.ledger ∧
      t.time.good = (if d.natAbs < 256 then s.time.good + 1 else 0) ∧
      t.time.bad = (if d.natAbs < 256 then 0 else s.time.bad + 1) ∧
      (8 ≤ t.time.good → t.time.locked = true) ∧ (4 ≤ t.time.bad → t.time.locked = false) ∧
      (t.time.good < 8 → t.time.bad < 4 → t.time.locked = s.time.locked) ∧
      (6 ≤ s.boot.stage ∨ d.natAbs < 32000 → t.time.pm = s.time.pm ∧ t.time.frac = s.time.frac ∧
        -125 ≤ t.time.slew ∧ t.time.slew ≤ 125 ∧
        (d.natAbs ≤ 1024 → -1024 < t.time.slew * 1024 - d * 125 ∧ t.time.slew * 1024 - d * 125 < 1024)) ∧
      (s.boot.stage < 6 → 32000 ≤ d.natAbs → t.time.stepSeen = true ∧
        (0 ≤ (s.time.pm : Int) * 250000 + s.time.frac + d * 250000 / 32 →
          (s.time.pm : Int) * 250000 + s.time.frac + d * 250000 / 32 < 2 ^ 64 * 250000 →
          (t.time.pm : Int) * 250000 + t.time.frac = s.time.pm * 250000 + s.time.frac + d * 250000 / 32))) ∧
  (∀ s : State, s.boot.stage ≠ 0 → s.time.fref = true →
    ∃ t, exec .frefLost s = .next t ∧ t.store = s.store ∧ t.core = s.core ∧ t.time.fref = false ∧
      t.time.internalOsc = true ∧ t.time.locked = false ∧ t.pins.alertN = false ∧ t.time.pm = s.time.pm ∧
      ∀ n, n < 12 → (t.port n).state = 0) ∧
  (∀ s : State, exec .frefReturn s = .next { s with time := { s.time with fref := true, internalOsc := false } })

/-- R312, R315, R317, R318, R320, R322 (spec/12), R460 (spec/18): the scrubber moves on by one parcel, round the stack; the
oldest trigger moves its row into the lowest free spare of its bank, or retires its page; a temperature sample sets the
stack's thermal step and trips the module at its limit; due remap records and training settings reach flash. -/
def Obligations.MemoryUpkeep : Prop :=
  (∀ (s : State) (k : StackNo) (x : StackS), x = s.stk k →
    (∀ errs, scrubRuns s x = true →
      ∃ t, exec (.scrubStep k errs) s = .next t ∧ t.store.bytes = s.store.bytes ∧ t.core = s.core ∧
        t.ledger = s.ledger ∧ (t.stk k).nextQ = (if x.nextQ + 1 < stackParcels then x.nextQ + 1 else 0)) ∧
    (∀ q rest i, x.triggers = q :: rest → (rowMap x q).rung ≤ 2 → freeSpare x (bankKey q) = some i →
      ∃ t, exec (.remapService k) s = .next t ∧ t.store.bytes = s.store.bytes ∧ t.ledger = s.ledger ∧
        rowMap (t.stk k) q = { rowMap x q with rung := (rowMap x q).rung + 1, spare := i } ∧
        (t.stk k).remaps = inc32 x.remaps ∧ (t.stk k).rmpEpoch = !x.rmpEpoch ∧ (t.stk k).copyDue = true ∧
        q ∉ (t.stk k).triggers) ∧
    (∀ q rest y, x.triggers = q :: rest → 3 ≤ (rowMap x q).rung ∨ freeSpare x (bankKey q) = none →
      offsetOf s k q = some y → (∀ e ∈ x.retired, e.1 ≠ y / 2 ^ 21) → x.retired.length < 4096 →
      ∃ t, exec (.remapService k) s = .next t ∧ t.store.bytes = s.store.bytes ∧
        (t.stk k).retired = x.retired ++ [(y / 2 ^ 21, s.image.epoch)] ∧ q ∉ (t.stk k).triggers) ∧
    (∀ b d : Int, s.time.running = true → x.tempIv ≠ s.now / 1000000 + 1 →
      (b + sensorOffset s (2 * k) < 16 * 110 → d + sensorOffset s (2 * k + 1) < 16 * 110 →
        exec (.memTempSample k b d) s = .next (s.setStk k { x with
          base := b + sensorOffset s (2 * k), dram := d + sensorOffset s (2 * k + 1), tempIv := s.now / 1000000 + 1,
          step := stackStepAfter x.step (max (b + sensorOffset s (2 * k)) (d + sensorOffset s (2 * k + 1))),
          thrTime := if 2 ≤ x.step then add32 x.thrTime ((s.now - x.thrSince) / 1000) else x.thrTime,
          thrSince := if 2 ≤ x.step then s.now - (s.now - x.thrSince) % 1000 else s.now })) ∧
      (16 * 110 ≤ b + sensorOffset s (2 * k) → d + sensorOffset s (2 * k + 1) < 16 * 110 →
        ∃ t, exec (.memTempSample k b d) s = .next t ∧ t.pins.tripped = true ∧ t.pins.alertN = false ∧
          t.pins.pwrgd = false ∧ t.flash.trip = some (2 * k.val, b + sensorOffset s (2 * k)) ∧ t.ledger = []))) ∧
  (∀ s : State,
    (∃ t, exec .fieldRemapCopied s = .next t ∧ t = { s with
        flash := { s.flash with stks := t.flash.stks, retiredClu := s.flash.retiredClu ++ s.due.clus },
        due := { s.due with clus := [] }, store := { s.store with stks := t.store.stks } } ∧
      ∀ k, k < 32 → t.stk k = { s.stk k with copyDue := false } ∧
        ((s.stk k).copyDue = true → (kget {} t.flash.stks k).rows = (s.stk k).rows ∧
          (kget {} t.flash.stks k).spares = (s.stk k).spares ∧ (kget {} t.flash.stks k).retired = (s.stk k).retired ∧
          (kget {} t.flash.stks k).lost = (s.stk k).lost) ∧
        ((s.stk k).copyDue = false → kget {} t.flash.stks k = kget {} s.flash.stks k)) ∧
    (∃ t, exec .trainingSettingsSaved s = .next t ∧ t = { s with flash := t.flash, due := t.due } ∧
      (6 ≤ s.boot.stage → t.due.stacksTrained = [] ∧ ∀ k, kget none t.flash.stkSaved k =
        (if k ∈ s.due.stacksTrained then some ((s.stk k).identity, max (s.stk k).base (s.stk k).dram)
         else kget none s.flash.stkSaved k)) ∧
      (s.boot.stage < 6 → t.flash.stkSaved = s.flash.stkSaved ∧ t.due.stacksTrained = s.due.stacksTrained)))


/-! ## Power and beats (spec/21, spec/02) -/

/-- R47 (spec/02), R524 to R533, R536, R537 (spec/21): a requested cap is in force from the first window that begins after
its request; an interval takes the sample and the temperatures and grants stamps, none to a tile at step 2, or trips; a
window and a minute close with what they used, the minute in the ledger; the forecast is the plan or the mean, under the
cap; the pacer keeps the beats of a window below the variant's. A mean that is not whole is the unit below or above, free
(log 22). -/
def Obligations.PowerGovernor : Prop :=
  (∀ (s : State) (m : Master) (v : W32), regGate s m.toNat pwrBase true = .ok →
    ∃ t, exec (.powerCapWrite m v) s = .next t ∧
      t = { s with power := { s.power with capReq := v, minCaps := t.power.minCaps, peakCaps := t.power.peakCaps } } ∧
      (∀ τ, (s.now / minuteNs + 1) * minuteNs ≤ τ → minCapAt t τ =
        (if v.toNat % 2 ^ 16 = 0 ∨ variantMinCap < v.toNat % 2 ^ 16 then variantMinCap else v.toNat % 2 ^ 16)) ∧
      (∀ τ, (s.now / windowNs + 1) * windowNs ≤ τ → peakCapAt t τ =
        (if v.toNat / 2 ^ 16 = 0 ∨ variantPeakCap < v.toNat / 2 ^ 16 then variantPeakCap else v.toNat / 2 ^ 16))) ∧
  (∀ (s : State) (x : PowerSample) (temps : List Int), intervalDue s = true →
    temps = (List.range 64).map (fun j => x.temps.getD j 0 + sensorOffset s (64 + j)) →
    (tripping temps = [] →
      ∃ t, exec (.powerInterval x) s = .next t ∧ t = { s with power := t.power, prun := t.prun, free := t.free } ∧
        t.power.lastSample = x.energy ∧ t.prun.minuteE = s.prun.minuteE + x.energy ∧
        t.prun.windowE = s.prun.windowE + x.energy ∧ t.prun.minuteN = s.prun.minuteN + 1 ∧
        t.prun.nextIv = s.now / 1000000 + 1 ∧ (∀ j, j < 64 → kget 0 t.power.temps j = temps.getD j 0) ∧
        ∀ j, j < 8 → (ptile t j).step = tileStepAfter (ptile s j).step
            (maxOf ((List.range 6).map (fun k => temps.getD (6 * j + k) 0))) ∧
          (ptile t j).grant ≤ 65535 ∧ (2 ≤ (ptile t j).step → (ptile t j).grant = 0)) ∧
    (∀ r, tripping temps = [r] →
      ∃ t, exec (.powerInterval x) s = .next t ∧ t.pins.tripped = true ∧ t.pins.alertN = false ∧ t.flash.trip = some r ∧
        t.ledger = [])) ∧
  (∀ (s : State), windowOver s windowNs s.prun.winIdx = true → s.prun.windowE % 100 = 0 →
    ∃ t, exec .peakWindowClose s = .next t ∧ t = { s with power := t.power, prun := t.prun } ∧
      t.power.nowPeak = s.prun.windowE / 100 ∧ t.prun.windowE = 0 ∧ t.prun.winIdx = s.now / windowNs ∧
      t.prun.minutePeak = max s.prun.minutePeak (s.prun.windowE / 100) ∧
      (peakCapAt s (s.prun.winIdx * windowNs) * 100 < s.prun.windowE → t.power.flags = s.power.flags ||| 2) ∧
      (s.prun.windowE ≤ peakCapAt s (s.prun.winIdx * windowNs) * 100 → t.power.flags = s.power.flags)) ∧
  (∀ (s : State), windowOver s minuteNs s.prun.minuteIdx = true → (s.prun.minuteIdx + 1) * 600 ≤ s.prun.winIdx →
    s.prun.minuteE % 60000 = 0 →
    ∃ t e, exec .minuteClose s = .next t ∧ t = { s with power := t.power, prun := t.prun, free := t.free } ∧
      kget none t.power.ledger (s.prun.minuteIdx % 60) = some e ∧ e.minute = s.prun.minuteIdx % 2 ^ 32 ∧
      e.mean = s.prun.minuteE / 60000 ∧ e.peak = s.prun.minutePeak ∧ e.forecast = s.prun.minuteFore ∧
      e.cap = minCapAt s (s.prun.minuteIdx * minuteNs) ∧
      t.power.ledgerTail = (s.power.ledgerTail + 1) % 2 ^ 32 ∧ t.prun.minuteIdx = s.now / minuteNs ∧
      t.prun.minuteE = 0 ∧ t.prun.minuteN = 0) ∧
  (∀ (s : State), s.time.running = true → s.prun.nextSec ≠ s.now / 1000000000 + 1 → s.now / minuteNs ≤ s.prun.minuteIdx →
    (s.power.plan.toNat.testBit 31 = true →
      ∃ t, exec .forecastRecompute s = .next t ∧ t = { s with power := t.power, prun := t.prun } ∧
        t.power.forecast = min (minCapAt s ((s.now / minuteNs + 1) * minuteNs)) (s.power.plan.toNat % 2 ^ 16)) ∧
    (∀ l, s.power.plan.toNat.testBit 31 = false → s.prun.hist = l → l ≠ [] → (l.foldl (· + ·) 0) % l.length = 0 →
      ∃ t, exec .forecastRecompute s = .next t ∧ t = { s with power := t.power, prun := t.prun } ∧
        t.power.forecast = min (minCapAt s ((s.now / minuteNs + 1) * minuteNs)) ((l.foldl (· + ·) 0) / l.length))) ∧
  (∀ (s : State) (t : Tile) (w : BeatWindow), s.time.running = true → (s.tile t).beatWin < s.now / 1000 →
    ∃ u, exec (.beatWindowUpdate t w) s = .next u ∧ u = { s with core := { s.core with tiles := u.core.tiles } } ∧
      (∀ j, j ≠ t.val → u.tile j = s.tile j) ∧
      (u.tile t).beatCount = ((s.tile t).beatCount + min (s.tile t).beatsDone
        (variantBeats * 256 * (s.now / 1000 - (s.tile t).beatWin))) % 2 ^ 64 ∧
      (u.tile t).beatWin = s.now / 1000 ∧
      (u.tile t).minRate ≤ variantBeats ∧ (u.tile t).meanRate ≤ variantBeats ∧
      (awakeCount s t ≠ 0 → (u.tile t).minRate = min variantBeats w.minRate.toNat ∧
        (u.tile t).meanRate = min variantBeats w.meanRate.toNat))


/-! ## Clusters at rest and resets (spec/18) -/

/-- R472 to R477 (spec/18): a request of TIL_CLU_CTRL for one cluster that a rule forbids leaves its reason and nothing
else; one that is allowed quiesces, releases, resets, puts to sleep or wakes the cluster; a wake ends with the store kept in
this epoch, any other cleared; a cluster idle for its group's time goes to sleep. -/
def Obligations.ClusterPower : Prop :=
  (∀ e ∈ cluRows, ∀ (s : State) (t : Tile) (m : Master) (v : W32) (n p op : Nat),
    regGate s m.toNat (tilBase t + 0x3000) true = .ok → (s.tile t).cluResult ≠ 1 → (s.tile t).wakePend = [] →
    v.toNat.testBit 16 = false → n = t.val * 256 + v.toNat % 256 → p = physOfN s n → op = v.toNat / 2 ^ 24 % 16 →
    (cluRefused s op n ≠ 0 →
      exec (e t m v) s = .next (s.setTile t { s.tile t with
        cluLast := v.toNat % 256, cluReason := cluRefused s op n, cluResult := 3 })) ∧
    (cluRefused s op n = 0 →
      ∃ u, exec (e t m v) s = .next u ∧ (u.tile t).cluLast = v.toNat % 256 ∧ (u.tile t).cluReason = 0 ∧
        (op = 1 → (s.lclu n).quiesced = false → (s.lclu n).quiescing = false → (s.te p).run = none → (s.te p).susp = none →
          (memInFlight s p = false → (u.lclu n).quiesced = true ∧ (u.seq p).prog = none ∧ (u.tile t).cluResult = 2) ∧
          (memInFlight s p = true → runningSolves s = [] → (u.lclu n).quiescing = true ∧ u.seq p = s.seq p ∧
            (u.tile t).wakePend = [n] ∧ (u.tile t).cluResult = 1)) ∧
        (op = 2 → u.store = s.store ∧ (u.lclu n).quiesced = false ∧ (u.tile t).cluResult = 2) ∧
        (op = 3 → u.store = s.store ∧ u.seq p = {} ∧ (u.te p).queue = [] ∧ (u.lclu n).progs = [] ∧
          (u.lclu n).quiesced = true ∧ (u.clu p).chk = (s.clu p).chk) ∧
        (op = 4 → u.store = s.store ∧ (u.lclu n).asleep = true ∧
          (u.lclu n).retained = (if (groupPolicy s n).2 then some s.image.epoch else none)) ∧
        (op = 5 → u.store = s.store ∧ ((s.lclu n).asleep = true → (u.lclu n).waking = true ∧
          (u.tile t).wakePend = [n] ∧ (u.tile t).cluResult = 1)))) ∧
  (∀ (s : State) (n : LClu), (s.lclu n).waking = true →
    ∃ u, exec (.wakeComplete n) s = .next u ∧ (u.lclu n).asleep = false ∧ (u.lclu n).waking = false ∧
      ((s.lclu n).retained = some s.image.epoch → u.store = s.store) ∧
      ((s.lclu n).retained ≠ some s.image.epoch →
        ClearedRange s u (storeKey (physOfN s n) 0) (storeKey (physOfN s n) 0x400000))) ∧
  (∀ (s : State) (n : LClu), (groupPolicy s n).1 ≠ 0 → clusterIdle s n = true →
    (s.lclu n).idleSince + (groupPolicy s n).1 * 1000 ≤ s.now →
    exec (.idleTimeout n) s = .next (s.setLclu n { s.lclu n with
      asleep := true, retained := if (groupPolicy s n).2 then some s.image.epoch else none }))

/-- R468 to R471 (spec/18): a compute reset ends every unfinished operation on the tiles in RESET_ABORTED, clears the local
stores, keeps every other byte, and lasts until its end; a module reset leaves the machine as State.reset has it but for
flash, pins and the records that survive, at stage S1 or, while RESET_N is low, S0. -/
def Obligations.ComputeAndModuleReset : Prop :=
  (∀ (s : State) (m : Master), regGate s m.toNat 0x1020 true = .ok →
    (6 ≤ s.boot.stage → s.boot.computeReset = false →
      ∃ t, exec (.computeReset m) s = .next t ∧ t.boot.computeReset = true ∧ t.boot.resetCause = 3 ∧
        t.ring.paused = true ∧ t.boot.stage = s.boot.stage ∧
        ClearedRange s t storeBase (storeBase + 2304 * 0x400000) ∧ t.core.groups = [] ∧ t.core.se = [] ∧
        ∀ slot o, slot < 131072 → s.op slot = some o → tileOp o = true → rstateFinal o.rcpt.state = false →
          ∃ x, t.op slot = some x ∧ x.rcpt.status = stReset ∧ o.rcpt.count ≤ x.rcpt.count ∧
            ((∀ e ∈ s.couriers, e.1 < 256 → ∀ r, e.2.round = some r → r.slot ≠ slot) → x.rcpt.count = o.rcpt.count) ∧
            x.rcpt.state = (if o.rcpt.state ≠ .notStarted ∧ 0 < x.rcpt.count then RState.partialEnd else RState.failed)) ∧
    (∃ t, exec (.moduleReset m) s = .next t ∧ t.core = {} ∧ t.store = {} ∧ t.ledger = [] ∧ t.streams = [] ∧
      t.image = {} ∧ t.access = defaultAccess ∧ t.boot.resetCause = 2 ∧ t.flash = (copyRecords s).flash ∧
      t.chk.ring = s.chk.ring ∧ t.time.pm = 0 ∧ t.time.running = s.pins.resetN ∧
      t.boot.stage = (if s.pins.resetN then 1 else 0))) ∧
  (∀ (s : State), s.boot.computeReset = true →
    ∃ t, exec .computeResetDone s = .next t ∧ t.store = s.store ∧ t.boot.computeReset = false ∧ t.ring.paused = false ∧
      t.ledger = s.ledger)

/-- R453 (spec/18), R537 (spec/21), R545, R546 (spec/22): input lost takes everything but flash; input applied starts at S0
and reports a recorded trip; RESET_N falling is a module reset of cause 1; S0 ends once the clocks run and RESET_N is high,
with the time base running from 0. -/
def Obligations.PowerAndPins : Prop :=
  (∀ (s : State), ∃ t, exec .powerOff s = .next t ∧ t.pins.power = false ∧ t.flash = s.flash ∧ t.core = {} ∧
    t.store = {} ∧ t.ledger = [] ∧ t.boot.stage = 0) ∧
  (∀ (s : State), s.pins.power = false →
    ∃ t, exec .powerOn s = .next t ∧ t.pins.power = true ∧ t.pins.tripped = false ∧ t.boot.stage = 0 ∧
      t.store = {} ∧ t.flash = { s.flash with trip := none } ∧ t.sec.calNow = s.flash.cal ∧
      (∀ r, s.flash.trip = some r → t.power.tripValid = true ∧ t.power.tripIdx = r.1 ∧ t.power.tripReading = r.2) ∧
      (s.flash.trip = none → t.power.tripValid = false)) ∧
  (∀ (s : State), s.pins.resetN = true → powered s = true → s.boot.stage ≠ 0 →
    ∃ t, exec .resetNFall s = .next t ∧ t.pins.resetN = false ∧ t.boot.stage = 0 ∧ t.boot.resetCause = 1 ∧
      t.core = {} ∧ t.ledger = []) ∧
  (∀ (s : State), powered s = true → s.boot.stage = 0 → s.boot.rimClocks = true →
    ∃ t, exec .resetNRise s = .next t ∧ t.pins.resetN = true ∧ t.boot.stage = 1 ∧ t.time.running = true ∧
      t.time.pm = 0 ∧ t.store = s.store) ∧
  (∀ (s : State), powered s = true → s.time.fref = true → s.boot.stage = 0 →
    ∃ t, exec .rimClocksRun s = .next t ∧ t.boot.rimClocks = true ∧ t.pins.pwrgd = true ∧ t.store = s.store ∧
      t.boot.stage = (if s.pins.resetN then 1 else 0))


/-! ## Bring-up, images, broadcast and pattern packs (spec/17 to spec/20) -/

/-- R453, R455, R459, R460 (spec/18), R506, R511 (spec/20): S1 ends with the verified Postmaster stage of the higher version,
or holds with error 1; S2 with the floor plan, or error 2; S3 with HBM initialised and the ports training, or error 3 when
every stack failed; a lost heartbeat restarts Sorter, and the third time within an hour leaves it stopped. -/
def Obligations.BringUp : Prop :=
  (∀ (s : State) (a b : List Byte), s.boot.stage = 1 → s.boot.error = 0 ∨ s.boot.error = 4 → a = slotBytes s false → b = slotBytes s true →
    ∃ t, exec .postmasterStart s = .next t ∧ t.store = s.store ∧ t.flash = s.flash ∧
      (if verifyStage s a = 1 ∧ (b = [] ∨ verifyStage s b ≠ 1 ∨
            Config.stageVersion (objBody b) ≤ Config.stageVersion (objBody a)) then
          t.boot.stage = 2 ∧ t.boot.runStage = a ∧ t.boot.postVer = Config.stageVersion (objBody a)
        else if b ≠ [] ∧ verifyStage s b = 1 then
          t.boot.stage = 2 ∧ t.boot.runStage = b ∧ t.boot.postVer = Config.stageVersion (objBody b)
        else t.boot.stage = 1 ∧ t.boot.error = 1)) ∧
  (∀ (s : State), s.boot.stage = 2 → s.boot.error = 0 ∨ s.boot.error = 4 →
    ∃ t, exec .floorPlanBuild s = .next t ∧
      (if Config.fusesReadable then
          t.boot.stage = 3 ∧ t.boot.error = (if Config.remapSound s.free then s.boot.error else 4)
        else t.boot.stage = 2 ∧ t.boot.error = 2)) ∧
  (∀ (s : State) (out : List StackTraining) (ok : Nat → Bool), s.boot.stage = 3 → s.boot.error = 0 ∨ s.boot.error = 4 →
    ok = (fun k => (out.getD k ⟨true, false, 0, false⟩).ok) →
    ((∃ k, k < 32 ∧ ok k = true) →
      ∃ t, exec (.stackTrainingDone out) s = .next t ∧ t.boot.stage = 4 ∧ (∀ k, k < hbmEnd → memByte t k = 0) ∧
        (∀ k, hbmEnd ≤ k → memByte t k = memByte s k) ∧ (∀ n, n < 12 → (t.port n).state = 1) ∧
        ∀ k, k < 32 → ok k = false → (t.stk k).present = false) ∧
    ((∀ k, k < 32 → ok k = false) →
      ∃ t, exec (.stackTrainingDone out) s = .next t ∧ t.boot.stage = 3 ∧ t.boot.error = 3)) ∧
  (∀ (s : State) (recent : List Nat), 5 ≤ s.boot.stage → s.boot.sorterStopped = false →
    recent = s.boot.restarts.filter (fun x => decide (s.now < x + hourNs)) →
    ∃ t, exec .sorterHeartbeatTimeout s = .next t ∧ t.store = s.store ∧ t.boot.restarts = s.now :: recent ∧
      (t.boot.sorterStopped = true ↔ 2 ≤ recent.length) ∧ t.boot.runBundle = flashBundle s ∧
      ∀ slot o, s.op slot = some o → o.kind = 6 → rstateFinal o.rcpt.state = false →
        ∃ x, t.op slot = some x ∧ x.rcpt.status = stReset ∧ rstateFinal x.rcpt.state = true)

/-- R437 to R440, R551 (spec/17, spec/00): an image that has been read and breaks no rule is accepted and collection
pauses; one at fault is refused with the reason and offset of its first field at fault, one that cannot be read with reason 7,
one offered to a busy module with reason 6; the flip puts the accepted image and its tables in force under a new epoch. -/
def Obligations.ImageLoadAndFlip : Prop :=
  (∀ (s s1 : State) (m : Master) (v : W32) (host : Option (List Byte)), regGate s m.toNat 0x1800 true = .ok →
    v.toNat.testBit 0 = true → s.image.result ≠ 1 →
    (6 ≤ s.boot.stage → quiescent s = false →
      ∃ t, exec (.imageLoad m v host) s = .next t ∧ t = { s with image := t.image } ∧ t.image.result = 3 ∧
        t.image.reason = 6 ∧ t.image.inForce = s.image.inForce) ∧
    (s.boot.stage < 6 ∨ quiescent s = true →
      (∀ img, readObject { s with image := { s.image with source := v.toNat.testBit 1 } } (v.toNat.testBit 1)
          s.image.src.toNat (min s.image.len.toNat maxImage) host = (s1, some img) →
        (imageFault s1 img s.image.len.toNat = none →
          ∃ t, exec (.imageLoad m v host) s = .next t ∧ t.store = s1.store ∧ t.image.result = 1 ∧ t.image.reason = 0 ∧
            t.image.staged = some img ∧ t.image.inForce = s1.image.inForce ∧ t.ring.paused = true) ∧
        (∀ e, imageFault s1 img s.image.len.toNat = some e →
          ∃ t, exec (.imageLoad m v host) s = .next t ∧ t.store = s1.store ∧ t.image.result = 3 ∧
            t.image.reason = e.2 ∧ t.image.refuseOff = BitVec.ofNat 32 e.1 ∧ t.image.inForce = s1.image.inForce)) ∧
      (readObject { s with image := { s.image with source := v.toNat.testBit 1 } } (v.toNat.testBit 1)
          s.image.src.toNat (min s.image.len.toNat maxImage) host = (s1, none) →
        ∃ t, exec (.imageLoad m v host) s = .next t ∧ t.image.result = 3 ∧ t.image.reason = 7))) ∧
  (∀ (s : State) (m : Master) (img : List Byte), regGate s m.toNat 0x1100 true = .ok → s.bcast.heldImage = some img →
    s.image.result ≠ 1 → 6 ≤ s.boot.stage → quiescent s = false →
    ∃ t, exec (.loadHeld m) s = .next t ∧ t = { s with image := t.image } ∧ t.image.result = 3 ∧ t.image.reason = 6) ∧
  (∀ (s : State) (img : List Byte), s.image.result = 1 → s.image.staged = some img →
    ∃ t, exec .imageFlip s = .next t ∧ t.image.inForce = img ∧ t.image.result = 2 ∧ t.image.loaded = true ∧
      t.image.staged = none ∧ t.image.epoch = (s.image.epoch + 1) % 2 ^ 32 ∧ t.image.digest = shake256 32 img ∧
      t.access = imgAccess img ∧ t.ring.paused = false)

/-- R462 to R466 (spec/18), R497 to R499 (spec/19): a fragment is flooded on once and kept; START broadcasts an object that
can be read; LOAD_HELD loads the held image; a pack is verified before it is held; RUN tests the clusters in its scope, and
its result parcel is written at the end. -/
def Obligations.BroadcastsAndPacks : Prop :=
  (∀ (s : State) (n : PortNo) (b : Bcast), b.rsv = false → portBcast s n = true → b.fcheck.toNat = crc32c b.frag →
    (0x24, b.origin.toNat, b.seq.toNat) ∉ s.net.seen → 5 ≤ s.boot.stage → 1 ≤ b.bkind.toNat → b.bkind.toNat ≤ 3 →
    4096 < b.total.toNat → b.total.toNat ≤ 2 ^ 26 → s.bcast.objs = [] →
    ∃ t, exec (.broadcast n b) s = .next t ∧
      t = { s with net := t.net, bcast := t.bcast, sent := t.sent, ports := t.ports } ∧
      (0x24, b.origin.toNat, b.seq.toNat) ∈ t.net.seen ∧
      (∀ k, k < 12 → k ≠ n.val → portBcast s k = true → OnPort t k (.bcast k b)) ∧
      ∃ o, t.bcast.objs = [o] ∧ o.id = b.id.toNat ∧ o.bkind = b.bkind.toNat ∧ o.complete = false ∧
        kfind o.frags b.offset.toNat = some b.frag) ∧
  (∀ (s s1 : State) (m : Master) (v : W32) (host : Option (List Byte)), regGate s m.toNat 0x1100 true = .ok →
    v.toNat.testBit 0 = true → v.toNat.testBit 1 = false → s.bcast.result ≠ 1 →
    (v.toNat / 64 % 4 = 0 ∨ s.bcast.len = 0 ∨ 2 ^ 26 < s.bcast.len.toNat ∨ (v.toNat.testBit 4 = true ∧ s.boot.stage < 6) →
      ∃ t, exec (.broadcastStart m v host) s = .next t ∧ t = { s with bcast := t.bcast } ∧ t.bcast.result = 3) ∧
    (∀ obj, v.toNat / 64 % 4 ≠ 0 → s.bcast.len ≠ 0 → s.bcast.len.toNat ≤ 2 ^ 26 →
      (v.toNat.testBit 4 = true → 6 ≤ s.boot.stage) →
      readObject { s with bcast := { s.bcast with
        bkind := v.toNat / 64 % 4, force := v.toNat.testBit 5, source := v.toNat.testBit 4 } } (v.toNat.testBit 4)
        s.bcast.src.toNat s.bcast.len.toNat host = (s1, some obj) →
      ∃ t, exec (.broadcastStart m v host) s = .next t ∧ t.bcast.result = 2 ∧
        t.bcast.lastId = (s1.bcast.sentCount + 1) % 65536 ∧ t.bcast.sentCount = (s1.bcast.sentCount + 1) % 65536)) ∧
  (∀ (s : State) (m : Master), regGate s m.toNat 0x1100 true = .ok →
    (s.bcast.heldImage = none → exec (.loadHeld m) s = .next s) ∧
    (∀ img, s.bcast.heldImage = some img → s.image.result ≠ 1 → s.boot.stage < 6 ∨ quiescent s = true →
      imageFault s img img.length = none →
      ∃ t, exec (.loadHeld m) s = .next t ∧ t.image.result = 1 ∧ t.image.staged = some img ∧
        t.bcast.heldImage = none ∧ t.ring.paused = true)) ∧
  (∀ (s : State) (m : Master) (v : W32), regGate s m.toNat 0x300100 true = .ok →
    (∀ (s1 : State) (host : Option (List Byte)) (obj : List Byte), v.toNat.testBit 1 = true → v.toNat.testBit 0 = false →
      readObject { s with chk := { s.chk with packSource := v.toNat.testBit 2 } } (v.toNat.testBit 2)
        s.chk.packSrc.toNat (min s.chk.packLen.toNat (2 ^ 26 + trailerLen)) host = (s1, some obj) → s1.chk.packResult ≠ 1 →
      ∃ t, exec (.packLoad m v host) s = .next t ∧ t.store = s1.store ∧ t.sec.verKind = 3 ∧
        t.sec.verResult = verifyObject obj "TLS1PK01" Config.packKeyDigest (packSound (objBody obj)) true ∧
        (t.sec.verResult = 1 → t.chk.pack = some (objBody obj)) ∧
        (t.sec.verResult ≠ 1 → t.chk.pack = s1.chk.pack ∧ t.chk.packResult = 3)) ∧
    (v.toNat.testBit 1 = false → v.toNat.testBit 0 = true → s.chk.packResult ≠ 1 →
      (∀ b, s.chk.pack = some b →
        ∃ t, exec (.packRun m v) s = .next t ∧ t = { s with chk := t.chk } ∧ t.chk.packResult = 1 ∧
          t.chk.packScope = (List.range 2304).filter (packInScope s (leAt b 18 1))) ∧
      (s.chk.pack = none →
        ∃ t, exec (.packRun m v) s = .next t ∧ t = { s with chk := t.chk } ∧ t.chk.packResult = 3))) ∧
  (∀ (s : State) (out : List PackOutcome) (b : List Byte), s.chk.packResult = 1 → s.chk.pack = some b →
    s.chk.packPending = none →
    ∃ t, exec (.packRunDone out) s = .next t ∧ t.chk.packScope = [] ∧ t.chk.pack = some b ∧
      (t.chk.packResult = 2 ∨ t.chk.packResult = 3) ∧
      (∀ s1 bytes, s.chk.packScope = [] → s.chk.packOut.toNat % 4096 = 0 → s.chk.packOut.toNat < hbmEnd →
        bytes = (List.range 2304).map (fun p => BitVec.ofNat 8
          (if (leAt b 18 1).testBit 0 && (logicalOfP s p).isSome && !isHole s p then 4 else 0)) ++ zeroBytes 1792 →
        parcelWrite s s.chk.packOut.toNat bytes = (s1, none) → t.store = s1.store ∧ t.chk.packResult = 2))


/-! ## Attestation and the calibration record (spec/20) -/

/-- R512 to R516 (spec/20): a report is signed under the next index while it is below the ceiling, and waits for the next
ceiling otherwise; requests before the path is ready, after the state is lost or beyond the last index are answered so; the
ceiling that reaches flash is 64 higher; the certificate and the signature state are answered. -/
def Obligations.Attestation : Prop :=
  (∀ (s : State) (nonce : List Byte), SecIdle s → nonce.length = 32 →
    (s.sec.attLost = false → s.sec.attReady = true → s.sec.attNext < 2 ^ 40 →
      (s.sec.attNext < ceiling s →
        ∃ t, exec (.getReport nonce) s = .next t ∧ Replied s t 1 0 (reportBytes s nonce ++
            Config.xmssMtSign s.sec.attNext (asciiBytes "TLS1AT01" ++ reportBytes s nonce)) ∧
          t.sec.attNext = s.sec.attNext + 1 ∧ t.sec.signs = inc32 s.sec.signs ∧ t.flash = s.flash) ∧
      (ceiling s ≤ s.sec.attNext →
        ∃ t, exec (.getReport nonce) s = .next t ∧ t = { s with sec := t.sec } ∧ t.sec.attWriting = true ∧
          t.sec.waiting = [bytesOfNat 4 1 ++ nonce] ∧ t.sec.attNext = s.sec.attNext)) ∧
    (s.sec.attLost = true → ∃ t, exec (.getReport nonce) s = .next t ∧ Replied s t 1 4 [] ∧ t.sec.attNext = s.sec.attNext) ∧
    (s.sec.attLost = false → s.sec.attReady = false →
      ∃ t, exec (.getReport nonce) s = .next t ∧ Replied s t 1 2 [] ∧ t.sec.attNext = s.sec.attNext) ∧
    (s.sec.attLost = false → s.sec.attReady = true → 2 ^ 40 ≤ s.sec.attNext →
      ∃ t, exec (.getReport nonce) s = .next t ∧ Replied s t 1 3 [] ∧ t.sec.attNext = s.sec.attNext)) ∧
  (∀ s : State, SecIdle s → s.sec.attReady = true →
    (∃ t, exec .getCert s = .next t ∧ Replied s t 2 0 (certBytes ++ Config.casgilKey ++ Config.certSignature) ∧
      t.flash = s.flash) ∧
    (∃ t, exec .getSigState s = .next t ∧ Replied s t 3 0 (bytesOfNat 5 s.sec.attNext ++ bytesOfNat 5 (ceiling s)) ∧
      t.flash = s.flash)) ∧
  (∀ s : State, s.sec.attWriting = true → s.sec.waiting = [] → s.image.result ≠ 1 → (ceilNow s.flash).isSome = true →
    ∃ t, exec .attCeilingWritten s = .next t ∧ t = { s with sec := t.sec, flash := t.flash } ∧
      ceiling t = ceiling s + 64 ∧ t.sec.attWriting = false) ∧
  (∀ s : State, 2 ≤ s.boot.stage → s.sec.attLost = false →
    exec .attPrepared s = .next { s with sec := { s.sec with attReady := true } })

/-- R517 to R520 (spec/20): the record is read by parts of 1,024 bytes; an arm is given once the whole record has been
read, or at once where that is waived; bytes are staged while it lasts; a commit ends the arm and takes the staged record
only when every check holds, a failed one is logged; a cancel or 30 s end the arm. -/
def Obligations.CalibrationRecord : Prop :=
  (∀ (s : State) (off : W32), SecIdle s →
    (off.toNat % 1024 = 0 → off.toNat < calLength →
      ∃ t, exec (.calRead off) s = .next t ∧
        Replied s t 0x10 0 (bytesOfNat 4 calLength ++ bytesAt (calRecord s) off.toNat 1024) ∧
        off.toNat ∈ t.sec.calRead ∧ (∀ k ∈ s.sec.calRead, k ∈ t.sec.calRead) ∧ t.flash = s.flash) ∧
    (off.toNat % 1024 ≠ 0 ∨ calLength ≤ off.toNat →
      ∃ t, exec (.calRead off) s = .next t ∧ Replied s t 0x10 5 [] ∧ t.sec.calRead = s.sec.calRead) ∧
    (∀ data : List Byte, data.length ≤ 1024 → off.toNat + data.length ≤ calLength →
      ((armNow s).isSome = true → ∃ t, exec (.calWrite off data) s = .next t ∧ Replied s t 0x12 0 [] ∧
        ∀ i, kget 0 t.sec.staging i =
          if off.toNat ≤ i ∧ i < off.toNat + data.length then data.getD (i - off.toNat) 0 else kget 0 s.sec.staging i) ∧
      (armNow s = none → ∃ t, exec (.calWrite off data) s = .next t ∧ Replied s t 0x12 6 [] ∧
        t.sec.staging = s.sec.staging))) ∧
  (∀ (s : State) (waive : Bool), SecIdle s →
    (armNow s = none → calReadWhole s = true ∨ waive = true →
      ∃ t, exec (.calArm waive) s = .next t ∧ t.sec.armed = some (Config.challenge s.sec.challenges, s.now) ∧
        t.sec.staging = [] ∧ Replied s t 0x11 0
          (bytesOfNat 4 (Config.challenge s.sec.challenges).toNat ++ bytesOfNat 8 (s.now + calWindow))) ∧
    ((armNow s).isSome = true ∨ (calReadWhole s = false ∧ waive = false) →
      ∃ t, exec (.calArm waive) s = .next t ∧ t.sec.armed = s.sec.armed ∧ Replied s t 0x11 6 [])) ∧
  (∀ (s : State) (compl : W32) (digest : List Byte), SecIdle s → digest.length = 32 →
    ∃ t, exec (.calCommit compl digest) s = .next t ∧ t.sec.armed = none ∧
      Replied s t 0x13 (if calHolds s compl digest then 0 else 6) [] ∧
      (if calHolds s compl digest then t.flash = { s.flash with cal := stagedBytes s } ∧ t.sec.calPending = true
        else t.flash = s.flash ∧ t.sec.denyTail = (s.sec.denyTail + 1) % 2 ^ 32)) ∧
  (∀ s : State, SecIdle s → ∃ t, exec .calCancel s = .next t ∧ t.sec.armed = none ∧ Replied s t 0x14 0 [] ∧
    t.flash = s.flash) ∧
  (∀ (s : State) (c : W32) (τ : Nat), s.sec.armed = some (c, τ) →
    (τ + calWindow ≤ s.now → exec .calArmExpiry s = .next { s with sec := { s.sec with armed := none } }) ∧
    (s.now < τ + calWindow → exec .calArmExpiry s = .next s))

/-! ## The block as a whole -/

/-- A step takes the command at the front of the queue and is that command's effect on the state with the queue's rest. -/
def Obligations.StepRunsCommand : Prop :=
  ∀ (s : State) (c : Instr), step { s with pending := c :: s.pending } = exec c s

/-- R59, R60 (spec/02), the model's choice for an empty queue (log 2): with no command waiting a powered block passes one cycle
of its time clock, in which a running POSTMARK counts one nanosecond while SLEW is zero and no fraction is pending, and
nothing else moves when nothing waits. -/
def Obligations.IdleTick : Prop :=
  ∀ s : State, s.pending = [] →
    (powered s = false → step s = .next s) ∧
    (powered s = true → s.net.held = [] → s.ring.waiting = [] → (∀ e ∈ s.core.clus, e.2.te.run = none) →
      (∀ n, (s.lclu n).quiescing = false) →
      (∀ n, n < 12 → (s.port n).state < 2 ∨ ((s.port n).owed = [] ∧ (s.port n).told = ackOf (s.port n))) →
      ∃ t, step s = .next t ∧ t = { s with time := t.time } ∧ t.time.cycles = s.time.cycles + 1 ∧
        (s.time.running = false → t.time.pm = s.time.pm ∧ t.time.frac = s.time.frac) ∧
        (s.time.running = true → s.time.slew = 0 → s.time.frac = 0 → t.time.pm = (s.time.pm + 1) % 2 ^ 64 ∧ t.time.frac = 0) ∧
        (s.time.running = true → (s.time.frac + s.time.slew).natAbs < 500000 → (s.time.pm : Int) + 2 < 2 ^ 64 →
          (t.time.pm : Int) * 250000 + t.time.frac = s.time.pm * 250000 + s.time.frac + s.time.slew + 250000))

/-- A read of memory after a write gives the bytes written, in their order, and every byte beside them as before; the write
keeps the canonical form. What memory reads as where nothing has been written is the model's choice (log 1). -/
def Obligations.MemoryReadsWrites : Prop :=
  ∀ (s : State) (a : Nat) (l : List Byte),
    (∀ b, memByte (memPut s a l) b = if a ≤ b ∧ b < a + l.length then l.getD (b - a) 0 else memByte s b) ∧
    memBytes (memPut s a l) a l.length = l ∧
    (Memory.wf s.store.bytes → Memory.wf (memPut s a l).store.bytes)

/-- Every command is answered with a next state, and none touches the queue of those that wait. -/
def Obligations.CommandsAnswer : Prop := ∀ (c : Instr) (s : State), ∃ t, exec c s = .next t ∧ t.pending = s.pending

/-- Memory keeps its canonical form, strictly rising addresses and no byte that reads so anyway, over every step from every
state that has it. -/
def Obligations.MemoryStaysCanonical : Prop :=
  ∀ s t : State, Memory.wf s.store.bytes → step s = .next t → Memory.wf t.store.bytes

/-- R453 (spec/18) and the register tables of spec/12, spec/14, spec/16, spec/17 and spec/19: after reset the module stands
at stage S0 with its time base stopped, no command waiting, no image, position or link, the default access tables in force,
and every register with a stated reset value at it; memory is canonical. -/
def Obligations.ResetState : Prop :=
  Memory.wf State.reset.store.bytes ∧ State.reset.pending = [] ∧ State.reset.boot.stage = 0 ∧
  State.reset.boot.error = 0 ∧ State.reset.boot.computeReset = false ∧ State.reset.time.running = false ∧
  State.reset.image.loaded = false ∧ State.reset.image.epoch = 0 ∧ State.reset.fab.placed = false ∧
  State.reset.fab.chip = 0xFFFF ∧ State.reset.fab.reqTimeout = 100 ∧ State.reset.fab.auto = true ∧
  State.reset.time.sourcePort = 15 ∧ State.reset.hif.linkUp = false ∧ State.reset.hif.collectEn = false ∧
  State.reset.hif.mirrorEn = false ∧ State.reset.chk.transLimit = 4 ∧ State.reset.chk.autoRetire = true ∧
  State.reset.access = defaultAccess ∧
  (∀ k, (State.reset.stk k).corrLimit = 4 ∧ (State.reset.stk k).symTrig = 3 ∧ (State.reset.stk k).rowTrig = 8 ∧
    (State.reset.stk k).scrubEnable = true ∧ (State.reset.stk k).periodS = 3600) ∧
  (∀ c, (State.reset.courier c).phase = .idle ∧ (State.reset.courier c).bound = false ∧
    courierGroup State.reset c = (if c < 256 then c / 32 else if c < 288 then 8 else 9)) ∧
  (∀ p, (State.reset.clu p).win.base = -2148 ∧ (State.reset.clu p).win.w = 0 ∧ (State.reset.seq p).prog = none) ∧
  (∀ n, (State.reset.lclu n).asleep = false ∧ (State.reset.lclu n).quiesced = false)
end

