-- ==== Sys2Proof/Laws/Table.lean ====
section
/-! SUPPORT. Laws of the sparse tables: reading what was written, leaving the rest, and keeping the canonical form. -/

namespace Sys2Proof.Machine

variable {α : Type}

theorem kfind_kins_same (t : KMap α) (k : Nat) (v : α) (h : ∀ e ∈ t, e.1 ≠ k) : kfind (kins t k v) k = some v := by
  induction t with
  | nil => simp [kins, kfind]
  | cons e r ih =>
    have he := h e (by simp)
    unfold kins
    split
    · simp [kfind]
    · have := ih (fun x hx => h x (by simp [hx]))
      simpa [kfind, he] using this

theorem kfind_kins_ne (t : KMap α) (k j : Nat) (v : α) (h : k ≠ j) : kfind (kins t k v) j = kfind t j := by
  induction t with
  | nil => simp [kins, kfind, h]
  | cons e r ih =>
    unfold kins
    split
    · simp [kfind, h]
    · by_cases hj : e.1 = j
      · simp [kfind, hj]
      · simpa [kfind, hj] using ih

theorem kfind_kdel_same (t : KMap α) (k : Nat) : kfind (kdel t k) k = none := by
  simp [kfind, kdel]

theorem kfind_kdel_ne (t : KMap α) (k j : Nat) (h : k ≠ j) : kfind (kdel t k) j = kfind t j := by
  induction t with
  | nil => rfl
  | cons e r ih =>
    by_cases he : e.1 = k
    · have : e.1 ≠ j := he ▸ h
      simpa [kfind, kdel, he, h] using ih
    · by_cases hj : e.1 = j
      · simp [kfind, kdel, hj, Ne.symm h]
      · simpa [kfind, kdel, he, hj] using ih

theorem kdel_keys (t : KMap α) (k : Nat) : ∀ e ∈ kdel t k, e.1 ≠ k := by
  intro e he
  simpa using (List.mem_filter.mp he).2

@[simp] theorem kfind_kput_same (t : KMap α) (k : Nat) (v : α) : kfind (kput t k v) k = some v :=
  kfind_kins_same _ _ _ (kdel_keys t k)

theorem kfind_kput_ne (t : KMap α) (k j : Nat) (v : α) (h : k ≠ j) : kfind (kput t k v) j = kfind t j := by
  rw [kput, kfind_kins_ne _ _ _ _ h, kfind_kdel_ne _ _ _ h]

/-- Reading a table where it was written gives the value written. -/
@[simp] theorem kget_kset_same [DecidableEq α] (d : α) (t : KMap α) (k : Nat) (v : α) :
    kget d (kset d t k v) k = v := by
  unfold kset kget
  split
  · simp_all [kfind_kdel_same]
  · simp

/-- A write leaves every other key as it was. -/
theorem kget_kset_ne [DecidableEq α] (d : α) (t : KMap α) (k j : Nat) (v : α) (h : k ≠ j) :
    kget d (kset d t k v) j = kget d t j := by
  unfold kset kget
  split
  · rw [kfind_kdel_ne _ _ _ h]
  · rw [kfind_kput_ne _ _ _ _ h]

theorem kget_kset [DecidableEq α] (d : α) (t : KMap α) (k j : Nat) (v : α) :
    kget d (kset d t k v) j = if k = j then v else kget d t j := by
  by_cases h : k = j
  · subst h; simp
  · simp [h, kget_kset_ne]

theorem kdel_of_keys (t : KMap α) (k : Nat) (h : ∀ e ∈ t, e.1 ≠ k) : kdel t k = t :=
  List.filter_eq_self.mpr (fun e he => by simpa using h e he)

theorem kdel_kins (t : KMap α) (k : Nat) (v : α) : kdel (kins t k v) k = kdel t k := by
  induction t with
  | nil => simp [kins, kdel]
  | cons e r ih =>
    unfold kins
    split
    · simp [kdel]
    · by_cases he : e.1 = k
      · simpa [kdel, he] using ih
      · simpa [kdel, he] using ih

@[simp] theorem kdel_kdel (t : KMap α) (k : Nat) : kdel (kdel t k) k = kdel t k :=
  kdel_of_keys _ _ (kdel_keys t k)

@[simp] theorem kdel_kput (t : KMap α) (k : Nat) (v : α) : kdel (kput t k v) k = kdel t k := by
  rw [kput, kdel_kins, kdel_kdel]

/-- The second of two writes to one key is the one that counts. -/
@[simp] theorem kset_kset [DecidableEq α] (d : α) (t : KMap α) (k : Nat) (v w : α) :
    kset d (kset d t k v) k w = kset d t k w := by
  unfold kset
  by_cases hv : v = d <;> by_cases hw : w = d <;> simp [hv, hw, kput]
  · rw [kdel_kins, kdel_kdel]
  · rw [kdel_kins, kdel_kdel]

@[simp] theorem kput_kput (t : KMap α) (k : Nat) (v w : α) : kput (kput t k v) k w = kput t k w := by
  rw [kput, kdel_kput, kput]

theorem kins_mem (t : KMap α) (k : Nat) (v : α) (e : Nat × α) (h : e ∈ kins t k v) : e = (k, v) ∨ e ∈ t := by
  induction t with
  | nil => simpa [kins] using h
  | cons x r ih =>
    unfold kins at h
    split at h
    · simpa using h
    · rcases List.mem_cons.mp h with h | h
      · simp [h]
      · rcases ih h with h | h <;> simp [h]

theorem kins_sorted (t : KMap α) (k : Nat) (v : α) (hs : KSorted t) (hk : ∀ e ∈ t, e.1 ≠ k) :
    KSorted (kins t k v) := by
  induction t with
  | nil => simp [kins]
  | cons x r ih =>
    obtain ⟨hx, hr⟩ := List.pairwise_cons.mp hs
    unfold kins
    split
    · rename_i hlt
      refine List.pairwise_cons.mpr ⟨fun e he => ?_, hs⟩
      rcases List.mem_cons.mp he with he | he
      · subst he; exact hlt
      · exact Nat.lt_trans hlt (hx e he)
    · rename_i hge
      refine List.pairwise_cons.mpr ⟨fun e he => ?_, ih hr (fun e he => hk e (by simp [he]))⟩
      rcases kins_mem r k v e he with he | he
      · have := hk x (by simp)
        subst he; simp only; omega
      · exact hx e he

theorem kdel_sorted (t : KMap α) (k : Nat) (h : KSorted t) : KSorted (kdel t k) :=
  List.Pairwise.sublist List.filter_sublist h

theorem kput_sorted (t : KMap α) (k : Nat) (v : α) (h : KSorted t) : KSorted (kput t k v) :=
  kins_sorted _ _ _ (kdel_sorted t k h) (kdel_keys t k)

/-- A write keeps a table's canonical form. -/
theorem kset_canon [DecidableEq α] (d : α) (t : KMap α) (k : Nat) (v : α) (h : KCanon d t) : KCanon d (kset d t k v) := by
  unfold kset
  split
  · exact ⟨kdel_sorted t k h.1, fun e he => h.2 e (List.mem_filter.mp he).1⟩
  · rename_i hv
    refine ⟨kput_sorted t k v h.1, fun e he => ?_⟩
    rcases kins_mem _ k v e he with he | he
    · subst he; exact hv
    · exact h.2 e (List.mem_filter.mp he).1

theorem filter_canon (d : α) (t : KMap α) (f : Nat × α → Bool) (h : KCanon d t) : KCanon d (t.filter f) :=
  ⟨List.Pairwise.sublist List.filter_sublist h.1, fun e he => h.2 e (List.mem_filter.mp he).1⟩

end Sys2Proof.Machine
end

