-- ==== Sys2Proof/Laws/Kept.lean ====
section
/-! SUPPORT. What every shared operation keeps: the queue, and the canonical form of memory. `Kept wq wc p m` says that the
queue is q and that memory m is canonical if b. Each lemma says of one operation that it keeps that. -/

namespace Sys2Proof.Machine

/-- The queue is q, and memory is canonical if b holds. -/
def Kept (q : List Instr) (b : Prop) (s : State) : Prop := s.pending = q ∧ (b → Memory.wf s.store.bytes)

section Kept

variable {wq : List Instr} {wc : Prop}

theorem kept_ite {c : Prop} [Decidable c] {s t : State} (h1 : Kept wq wc s)
    (h2 : Kept wq wc t) :
    Kept wq wc (if c then s else t) := by split <;> assumption

theorem kept_ite1 {α : Type} {c : Prop} [Decidable c] {s t : State × α} (h1 : Kept wq wc s.1)
    (h2 : Kept wq wc t.1) :
    Kept wq wc (if c then s else t).1 := by split <;> assumption

theorem kept_ite2 {α : Type} {c : Prop} [Decidable c] {s t : α × State} (h1 : Kept wq wc s.2)
    (h2 : Kept wq wc t.2) :
    Kept wq wc (if c then s else t).2 := by split <;> assumption

theorem kept_fst {α : Type} {x : State × α} {s : State} {y : α} (e : x = (s, y))
    (h : Kept wq wc x.1) : Kept wq wc s := by subst e; exact h

theorem kept_snd {α : Type} {x : α × State} {s : State} {y : α} (e : x = (y, s))
    (h : Kept wq wc x.2) : Kept wq wc s := by subst e; exact h

theorem kept_pair1 {α : Type} {s : State} {y : α} (h : Kept wq wc s) :
    Kept wq wc (s, y).1 := h

theorem kept_pair2 {α : Type} {s : State} {y : α} (h : Kept wq wc s) :
    Kept wq wc (y, s).2 := h

theorem kept_foldl {β : Type} {f : State → β → State} {s : State} {l : List β}
    (hf : ∀ u x, Kept wq wc u → Kept wq wc (f u x))
    (h : Kept wq wc s) : Kept wq wc (l.foldl f s) := by
  induction l generalizing s with
  | nil => exact h
  | cons e t ih => exact ih (hf _ _ h)

theorem kept_foldl1 {α β : Type} {f : State × α → β → State × α} {s : State × α} {l : List β}
    (hf : ∀ u x, Kept wq wc u.1 → Kept wq wc (f u x).1)
    (h : Kept wq wc s.1) : Kept wq wc (l.foldl f s).1 := by
  induction l generalizing s with
  | nil => exact h
  | cons e t ih => exact ih (hf _ _ h)

theorem kept_foldl2 {α β : Type} {f : α × State → β → α × State} {s : α × State} {l : List β}
    (hf : ∀ u x, Kept wq wc u.2 → Kept wq wc (f u x).2)
    (h : Kept wq wc s.2) : Kept wq wc (l.foldl f s).2 := by
  induction l generalizing s with
  | nil => exact h
  | cons e t ih => exact ih (hf _ _ h)

theorem kept_mk {p : List Instr} {st : Store} {s : State} {xtime : TimeBase} {xcore : Core} {xledger : KMap Op} {xstreams : KMap Stream} {xboxes : KMap Letterbox} {xhif : Hif} {xring : HifRing} {xcouriers : KMap Courier} {xports : KMap Port} {xfab : Fab} {xnet : FabNet} {xcomms : KMap CommS} {xbcast : BcastS} {ximage : ImageS} {xaccess : AccTab} {xboot : Boot} {xpins : Pins} {xchk : Chk} {xsec : Sec} {xpower : Power} {xprun : PowerRun} {xflash : Flash} {xdue : FlashDue} {xlatch : KMap W32} {xsent : List Sent} {xfree : Nat} (h : Kept wq wc s)
    (hp : p = s.pending) (hb : st.bytes = s.store.bytes) : Kept wq wc (State.mk p xtime st xcore xledger xstreams xboxes xhif xring xcouriers xports xfab xnet xcomms xbcast ximage xaccess xboot xpins xchk xsec xpower xprun xflash xdue xlatch xsent xfree) :=
  ⟨hp ▸ h.1, fun c => hb ▸ h.2 c⟩

/-- Bytes written one by one keep memory canonical. -/
theorem putBytes_wf (m : List Host.Cell) (a : Nat) (l : List Byte) (h : Memory.wf m) : Memory.wf (putBytes m a l) := by
  induction l generalizing m a with
  | nil => exact h
  | cons e t ih => exact ih _ _ (kset_canon _ _ _ _ h)

end Kept

end Sys2Proof.Machine
end

