-- ==== Sys2Proof/Laws/KeptMemory.lean ====
section
/-! SUPPORT. Each operation of memory, the fabric links, routing, commits and images keeps the queue and the canonical form of memory: one lemma per operation, to be
cited in place of unfolding it. -/

set_option linter.unusedTactic false
set_option linter.unreachableTactic false

namespace Sys2Proof.Machine

variable {wq : List Instr} {wc : Prop}

/-! ### Ops -/

theorem State.setClu_keeps {s : State} {p : Nat} {c : Clu} 
    (hK : Kept wq wc s) :
    Kept wq wc (State.setClu s p c) := by
  unfold State.setClu
  repeat' first
    | with_reducible assumption
    | with_reducible intro _
    | with_reducible apply kept_ite
    | with_reducible refine kept_fst (by assumption) ?_
    | with_reducible refine kept_snd (by assumption) ?_
    | extract_lets
    | split
    | fail_if_no_progress refine kept_mk ?_ rfl rfl
    | dsimp only
    | dsimp +zetaDelta only

theorem State.setLclu_keeps {s : State} {n : Nat} {c : LClus} 
    (hK : Kept wq wc s) :
    Kept wq wc (State.setLclu s n c) := by
  unfold State.setLclu
  repeat' first
    | with_reducible assumption
    | with_reducible intro _
    | with_reducible apply kept_ite
    | with_reducible refine kept_fst (by assumption) ?_
    | with_reducible refine kept_snd (by assumption) ?_
    | extract_lets
    | split
    | fail_if_no_progress refine kept_mk ?_ rfl rfl
    | dsimp only
    | dsimp +zetaDelta only

theorem State.setTile_keeps {s : State} {t : Nat} {x : TileS} 
    (hK : Kept wq wc s) :
    Kept wq wc (State.setTile s t x) := by
  unfold State.setTile
  repeat' first
    | with_reducible assumption
    | with_reducible intro _
    | with_reducible apply kept_ite
    | with_reducible refine kept_fst (by assumption) ?_
    | with_reducible refine kept_snd (by assumption) ?_
    | extract_lets
    | split
    | fail_if_no_progress refine kept_mk ?_ rfl rfl
    | dsimp only
    | dsimp +zetaDelta only

theorem State.setTslv_keeps {s : State} {t : Nat} {x : TileSlv} 
    (hK : Kept wq wc s) :
    Kept wq wc (State.setTslv s t x) := by
  unfold State.setTslv
  repeat' first
    | with_reducible assumption
    | with_reducible intro _
    | with_reducible apply kept_ite
    | with_reducible refine kept_fst (by assumption) ?_
    | with_reducible refine kept_snd (by assumption) ?_
    | extract_lets
    | split
    | fail_if_no_progress refine kept_mk ?_ rfl rfl
    | dsimp only
    | dsimp +zetaDelta only

theorem State.setQslot_keeps {s : State} {q : Nat} {x : QsSlot} 
    (hK : Kept wq wc s) :
    Kept wq wc (State.setQslot s q x) := by
  unfold State.setQslot
  repeat' first
    | with_reducible assumption
    | with_reducible intro _
    | with_reducible apply kept_ite
    | with_reducible refine kept_fst (by assumption) ?_
    | with_reducible refine kept_snd (by assumption) ?_
    | extract_lets
    | split
    | fail_if_no_progress refine kept_mk ?_ rfl rfl
    | dsimp only
    | dsimp +zetaDelta only

theorem State.setQpart_keeps {s : State} {t q : Nat} {x : QsPart} 
    (hK : Kept wq wc s) :
    Kept wq wc (State.setQpart s t q x) := by
  unfold State.setQpart
  repeat' first
    | with_reducible assumption
    | with_reducible intro _
    | with_reducible apply kept_ite
    | with_reducible refine kept_fst (by assumption) ?_
    | with_reducible refine kept_snd (by assumption) ?_
    | extract_lets
    | split
    | fail_if_no_progress refine kept_mk ?_ rfl rfl
    | dsimp only
    | dsimp +zetaDelta only

theorem State.setGroup_keeps {s : State} {g : Nat} {x : SolverGrp} 
    (hK : Kept wq wc s) :
    Kept wq wc (State.setGroup s g x) := by
  unfold State.setGroup
  repeat' first
    | with_reducible assumption
    | with_reducible intro _
    | with_reducible apply kept_ite
    | with_reducible refine kept_fst (by assumption) ?_
    | with_reducible refine kept_snd (by assumption) ?_
    | extract_lets
    | split
    | fail_if_no_progress refine kept_mk ?_ rfl rfl
    | dsimp only
    | dsimp +zetaDelta only

theorem State.setSeg_keeps {s : State} {t : Nat} {x : SeGroup} 
    (hK : Kept wq wc s) :
    Kept wq wc (State.setSeg s t x) := by
  unfold State.setSeg
  repeat' first
    | with_reducible assumption
    | with_reducible intro _
    | with_reducible apply kept_ite
    | with_reducible refine kept_fst (by assumption) ?_
    | with_reducible refine kept_snd (by assumption) ?_
    | extract_lets
    | split
    | fail_if_no_progress refine kept_mk ?_ rfl rfl
    | dsimp only
    | dsimp +zetaDelta only

theorem State.setSest_keeps {s : State} {k : Nat} {x : SeStack} 
    (hK : Kept wq wc s) :
    Kept wq wc (State.setSest s k x) := by
  unfold State.setSest
  repeat' first
    | with_reducible assumption
    | with_reducible intro _
    | with_reducible apply kept_ite
    | with_reducible refine kept_fst (by assumption) ?_
    | with_reducible refine kept_snd (by assumption) ?_
    | extract_lets
    | split
    | fail_if_no_progress refine kept_mk ?_ rfl rfl
    | dsimp only
    | dsimp +zetaDelta only

theorem State.setWatch_keeps {s : State} {w : Nat} {x : Watch} 
    (hK : Kept wq wc s) :
    Kept wq wc (State.setWatch s w x) := by
  unfold State.setWatch
  repeat' first
    | with_reducible assumption
    | with_reducible intro _
    | with_reducible apply kept_ite
    | with_reducible refine kept_fst (by assumption) ?_
    | with_reducible refine kept_snd (by assumption) ?_
    | extract_lets
    | split
    | fail_if_no_progress refine kept_mk ?_ rfl rfl
    | dsimp only
    | dsimp +zetaDelta only

theorem State.setStk_keeps {s : State} {k : Nat} {x : StackS} 
    (hK : Kept wq wc s) :
    Kept wq wc (State.setStk s k x) := by
  unfold State.setStk
  repeat' first
    | with_reducible assumption
    | with_reducible intro _
    | with_reducible apply kept_ite
    | with_reducible refine kept_fst (by assumption) ?_
    | with_reducible refine kept_snd (by assumption) ?_
    | extract_lets
    | split
    | fail_if_no_progress refine kept_mk ?_ rfl rfl
    | dsimp only
    | dsimp +zetaDelta only

theorem State.setCourier_keeps {s : State} {c : Nat} {x : Courier} 
    (hK : Kept wq wc s) :
    Kept wq wc (State.setCourier s c x) := by
  unfold State.setCourier
  repeat' first
    | with_reducible assumption
    | with_reducible intro _
    | with_reducible apply kept_ite
    | with_reducible refine kept_fst (by assumption) ?_
    | with_reducible refine kept_snd (by assumption) ?_
    | extract_lets
    | split
    | fail_if_no_progress refine kept_mk ?_ rfl rfl
    | dsimp only
    | dsimp +zetaDelta only

theorem State.setPort_keeps {s : State} {n : Nat} {x : Port} 
    (hK : Kept wq wc s) :
    Kept wq wc (State.setPort s n x) := by
  unfold State.setPort
  repeat' first
    | with_reducible assumption
    | with_reducible intro _
    | with_reducible apply kept_ite
    | with_reducible refine kept_fst (by assumption) ?_
    | with_reducible refine kept_snd (by assumption) ?_
    | extract_lets
    | split
    | fail_if_no_progress refine kept_mk ?_ rfl rfl
    | dsimp only
    | dsimp +zetaDelta only

theorem State.setBox_keeps {s : State} {k : Nat} {x : Letterbox} 
    (hK : Kept wq wc s) :
    Kept wq wc (State.setBox s k x) := by
  unfold State.setBox
  repeat' first
    | with_reducible assumption
    | with_reducible intro _
    | with_reducible apply kept_ite
    | with_reducible refine kept_fst (by assumption) ?_
    | with_reducible refine kept_snd (by assumption) ?_
    | extract_lets
    | split
    | fail_if_no_progress refine kept_mk ?_ rfl rfl
    | dsimp only
    | dsimp +zetaDelta only

theorem State.setStrm_keeps {s : State} {k : Nat} {x : Stream} 
    (hK : Kept wq wc s) :
    Kept wq wc (State.setStrm s k x) := by
  unfold State.setStrm
  repeat' first
    | with_reducible assumption
    | with_reducible intro _
    | with_reducible apply kept_ite
    | with_reducible refine kept_fst (by assumption) ?_
    | with_reducible refine kept_snd (by assumption) ?_
    | extract_lets
    | split
    | fail_if_no_progress refine kept_mk ?_ rfl rfl
    | dsimp only
    | dsimp +zetaDelta only

theorem State.setComm_keeps {s : State} {k : Nat} {x : CommS} 
    (hK : Kept wq wc s) :
    Kept wq wc (State.setComm s k x) := by
  unfold State.setComm
  repeat' first
    | with_reducible assumption
    | with_reducible intro _
    | with_reducible apply kept_ite
    | with_reducible refine kept_fst (by assumption) ?_
    | with_reducible refine kept_snd (by assumption) ?_
    | extract_lets
    | split
    | fail_if_no_progress refine kept_mk ?_ rfl rfl
    | dsimp only
    | dsimp +zetaDelta only

theorem State.setOp_keeps {s : State} {slot : Nat} {o : Op} 
    (hK : Kept wq wc s) :
    Kept wq wc (State.setOp s slot o) := by
  unfold State.setOp
  repeat' first
    | with_reducible assumption
    | with_reducible intro _
    | with_reducible apply kept_ite
    | with_reducible refine kept_fst (by assumption) ?_
    | with_reducible refine kept_snd (by assumption) ?_
    | extract_lets
    | split
    | fail_if_no_progress refine kept_mk ?_ rfl rfl
    | dsimp only
    | dsimp +zetaDelta only

theorem State.send_keeps {s : State} {x : Sent} 
    (hK : Kept wq wc s) :
    Kept wq wc (State.send s x) := by
  unfold State.send
  repeat' first
    | with_reducible assumption
    | with_reducible intro _
    | with_reducible apply kept_ite
    | with_reducible refine kept_fst (by assumption) ?_
    | with_reducible refine kept_snd (by assumption) ?_
    | extract_lets
    | split
    | fail_if_no_progress refine kept_mk ?_ rfl rfl
    | dsimp only
    | dsimp +zetaDelta only

theorem State.sendAll_keeps {s : State} {l : List Sent} 
    (hK : Kept wq wc s) :
    Kept wq wc (State.sendAll s l) := by
  unfold State.sendAll
  repeat' first
    | with_reducible assumption
    | with_reducible intro _
    | with_reducible apply kept_ite
    | with_reducible refine kept_fst (by assumption) ?_
    | with_reducible refine kept_snd (by assumption) ?_
    | extract_lets
    | split
    | fail_if_no_progress refine kept_mk ?_ rfl rfl
    | dsimp only
    | dsimp +zetaDelta only

theorem State.takeFree_keeps {s : State} 
    (hK : Kept wq wc s) :
    Kept wq wc (State.takeFree s).2 := by
  unfold State.takeFree
  repeat' first
    | with_reducible assumption
    | with_reducible intro _
    | with_reducible apply kept_ite1
    | with_reducible apply kept_ite2
    | with_reducible apply kept_ite
    | with_reducible refine kept_fst (by assumption) ?_
    | with_reducible refine kept_snd (by assumption) ?_
    | extract_lets
    | split
    | fail_if_no_progress refine kept_mk ?_ rfl rfl
    | dsimp only
    | dsimp +zetaDelta only

theorem denyAdd_keeps {s : State} {m : Nat} {write : Bool} {cause addr : Nat} 
    (hK : Kept wq wc s) :
    Kept wq wc (denyAdd s m write cause addr) := by
  unfold denyAdd
  repeat' first
    | with_reducible assumption
    | with_reducible intro _
    | with_reducible apply kept_ite
    | with_reducible refine kept_fst (by assumption) ?_
    | with_reducible refine kept_snd (by assumption) ?_
    | extract_lets
    | split
    | fail_if_no_progress refine kept_mk ?_ rfl rfl
    | dsimp only
    | dsimp +zetaDelta only

theorem sendMsix_keeps {s : State} {v : Nat} 
    (hK : Kept wq wc s) :
    Kept wq wc (sendMsix s v) := by
  unfold sendMsix
  repeat' first
    | with_reducible assumption
    | with_reducible intro _
    | with_reducible apply State.send_keeps
    | with_reducible apply kept_ite
    | with_reducible refine kept_fst (by assumption) ?_
    | with_reducible refine kept_snd (by assumption) ?_
    | extract_lets
    | split
    | fail_if_no_progress refine kept_mk ?_ rfl rfl
    | dsimp only
    | dsimp +zetaDelta only

theorem setStale_keeps {s : State} 
    (hK : Kept wq wc s) :
    Kept wq wc (setStale s) := by
  unfold setStale
  repeat' first
    | with_reducible assumption
    | with_reducible intro _
    | with_reducible apply sendMsix_keeps
    | with_reducible apply kept_ite
    | with_reducible refine kept_fst (by assumption) ?_
    | with_reducible refine kept_snd (by assumption) ?_
    | extract_lets
    | split
    | fail_if_no_progress refine kept_mk ?_ rfl rfl
    | dsimp only
    | dsimp +zetaDelta only

theorem setNoticeFull_keeps {s : State} 
    (hK : Kept wq wc s) :
    Kept wq wc (setNoticeFull s) := by
  unfold setNoticeFull
  repeat' first
    | with_reducible assumption
    | with_reducible intro _
    | with_reducible apply sendMsix_keeps
    | with_reducible apply kept_ite
    | with_reducible refine kept_fst (by assumption) ?_
    | with_reducible refine kept_snd (by assumption) ?_
    | extract_lets
    | split
    | fail_if_no_progress refine kept_mk ?_ rfl rfl
    | dsimp only
    | dsimp +zetaDelta only

theorem setRefusal_keeps {s : State} 
    (hK : Kept wq wc s) :
    Kept wq wc (setRefusal s) := by
  unfold setRefusal
  repeat' first
    | with_reducible assumption
    | with_reducible intro _
    | with_reducible apply sendMsix_keeps
    | with_reducible apply kept_ite
    | with_reducible refine kept_fst (by assumption) ?_
    | with_reducible refine kept_snd (by assumption) ?_
    | extract_lets
    | split
    | fail_if_no_progress refine kept_mk ?_ rfl rfl
    | dsimp only
    | dsimp +zetaDelta only

theorem setLbFault_keeps {s : State} 
    (hK : Kept wq wc s) :
    Kept wq wc (setLbFault s) := by
  unfold setLbFault
  repeat' first
    | with_reducible assumption
    | with_reducible intro _
    | with_reducible apply sendMsix_keeps
    | with_reducible apply kept_ite
    | with_reducible refine kept_fst (by assumption) ?_
    | with_reducible refine kept_snd (by assumption) ?_
    | extract_lets
    | split
    | fail_if_no_progress refine kept_mk ?_ rfl rfl
    | dsimp only
    | dsimp +zetaDelta only

theorem hostPost_keeps {s : State} {addr : Nat} {data : List Byte} 
    (hK : Kept wq wc s) :
    Kept wq wc (hostPost s addr data) := by
  unfold hostPost
  repeat' first
    | with_reducible assumption
    | with_reducible intro _
    | with_reducible apply State.send_keeps
    | with_reducible apply kept_ite
    | with_reducible refine kept_fst (by assumption) ?_
    | with_reducible refine kept_snd (by assumption) ?_
    | extract_lets
    | split
    | fail_if_no_progress refine kept_mk ?_ rfl rfl
    | dsimp only
    | dsimp +zetaDelta only

theorem cperStore_keeps {s : State} {c : Cper} 
    (hK : Kept wq wc s) :
    Kept wq wc (cperStore s c) := by
  unfold cperStore
  repeat' first
    | with_reducible assumption
    | with_reducible intro _
    | with_reducible apply kept_ite
    | with_reducible refine kept_fst (by assumption) ?_
    | with_reducible refine kept_snd (by assumption) ?_
    | extract_lets
    | split
    | fail_if_no_progress refine kept_mk ?_ rfl rfl
    | dsimp only
    | dsimp +zetaDelta only

theorem cperAdd_keeps {s : State} {event unitKey : Nat} {c : Cper} 
    (hK : Kept wq wc s) :
    Kept wq wc (cperAdd s event unitKey c) := by
  unfold cperAdd
  repeat' first
    | with_reducible assumption
    | with_reducible intro _
    | with_reducible apply cperStore_keeps
    | with_reducible apply kept_ite
    | with_reducible refine kept_fst (by assumption) ?_
    | with_reducible refine kept_snd (by assumption) ?_
    | extract_lets
    | split
    | fail_if_no_progress refine kept_mk ?_ rfl rfl
    | dsimp only
    | dsimp +zetaDelta only

theorem sealEvent_keeps {s : State} {u : By} {key loc home : Nat} 
    (hK : Kept wq wc s) :
    Kept wq wc (sealEvent s u key loc home) := by
  unfold sealEvent
  repeat' first
    | with_reducible assumption
    | with_reducible intro _
    | with_reducible apply cperAdd_keeps
    | with_reducible apply kept_ite
    | with_reducible refine kept_fst (by assumption) ?_
    | with_reducible refine kept_snd (by assumption) ?_
    | extract_lets
    | split
    | fail_if_no_progress refine kept_mk ?_ rfl rfl
    | dsimp only
    | dsimp +zetaDelta only

theorem mirrorReceipt_keeps {s : State} {slot : Nat} 
    (hK : Kept wq wc s) :
    Kept wq wc (mirrorReceipt s slot) := by
  unfold mirrorReceipt
  repeat' first
    | with_reducible assumption
    | with_reducible intro _
    | with_reducible apply setStale_keeps
    | with_reducible apply State.send_keeps
    | with_reducible apply kept_ite
    | with_reducible refine kept_fst (by assumption) ?_
    | with_reducible refine kept_snd (by assumption) ?_
    | extract_lets
    | split
    | fail_if_no_progress refine kept_mk ?_ rfl rfl
    | dsimp only
    | dsimp +zetaDelta only

theorem noticePut_keeps {s : State} {n : Option Nat × List Byte} 
    (hK : Kept wq wc s) :
    Kept wq wc (noticePut s n) := by
  unfold noticePut
  repeat' first
    | with_reducible assumption
    | with_reducible intro _
    | with_reducible apply State.send_keeps
    | with_reducible apply State.setBox_keeps
    | with_reducible apply kept_ite
    | with_reducible refine kept_fst (by assumption) ?_
    | with_reducible refine kept_snd (by assumption) ?_
    | extract_lets
    | split
    | fail_if_no_progress refine kept_mk ?_ rfl rfl
    | dsimp only
    | dsimp +zetaDelta only

theorem noticeDrain_keeps {s : State} {l : List (Option Nat × List Byte)} 
    (hK : Kept wq wc s) :
    Kept wq wc (noticeDrain s l) := by
  induction l generalizing s with
  | nil =>
    unfold noticeDrain
    repeat' first
      | with_reducible assumption
      | with_reducible intro _
      | with_reducible apply noticePut_keeps
      | with_reducible apply ih
      | with_reducible apply kept_ite
      | with_reducible refine kept_fst (by assumption) ?_
      | with_reducible refine kept_snd (by assumption) ?_
      | extract_lets
      | split
      | fail_if_no_progress refine kept_mk ?_ rfl rfl
      | dsimp only
      | dsimp +zetaDelta only
  | cons e t ih =>
    unfold noticeDrain
    repeat' first
      | with_reducible assumption
      | with_reducible intro _
      | with_reducible apply noticePut_keeps
      | with_reducible apply ih
      | with_reducible apply kept_ite
      | with_reducible refine kept_fst (by assumption) ?_
      | with_reducible refine kept_snd (by assumption) ?_
      | extract_lets
      | split
      | fail_if_no_progress refine kept_mk ?_ rfl rfl
      | dsimp only
      | dsimp +zetaDelta only

theorem noticeAppend_keeps {s : State} {slot : Nat} 
    (hK : Kept wq wc s) :
    Kept wq wc (noticeAppend s slot) := by
  unfold noticeAppend
  repeat' first
    | with_reducible assumption
    | with_reducible intro _
    | with_reducible apply setStale_keeps
    | with_reducible apply noticePut_keeps
    | with_reducible apply setNoticeFull_keeps
    | with_reducible apply kept_ite
    | with_reducible refine kept_fst (by assumption) ?_
    | with_reducible refine kept_snd (by assumption) ?_
    | extract_lets
    | split
    | fail_if_no_progress refine kept_mk ?_ rfl rfl
    | dsimp only
    | dsimp +zetaDelta only

theorem setReceipt_keeps {s : State} {slot : Nat} {o : Op} 
    (hK : Kept wq wc s) :
    Kept wq wc (setReceipt s slot o) := by
  unfold setReceipt
  repeat' first
    | with_reducible assumption
    | with_reducible intro _
    | with_reducible apply mirrorReceipt_keeps
    | with_reducible apply State.setOp_keeps
    | with_reducible apply kept_ite
    | with_reducible refine kept_fst (by assumption) ?_
    | with_reducible refine kept_snd (by assumption) ?_
    | extract_lets
    | split
    | fail_if_no_progress refine kept_mk ?_ rfl rfl
    | dsimp only
    | dsimp +zetaDelta only

theorem opStart_keeps {s : State} {slot : Nat} 
    (hK : Kept wq wc s) :
    Kept wq wc (opStart s slot) := by
  unfold opStart
  repeat' first
    | with_reducible assumption
    | with_reducible intro _
    | with_reducible apply setReceipt_keeps
    | with_reducible apply kept_ite
    | with_reducible refine kept_fst (by assumption) ?_
    | with_reducible refine kept_snd (by assumption) ?_
    | extract_lets
    | split
    | fail_if_no_progress refine kept_mk ?_ rfl rfl
    | dsimp only
    | dsimp +zetaDelta only

theorem abortNotices_keeps {s : State} {o : Op} {status : Nat} 
    (hK : Kept wq wc s) :
    Kept wq wc (abortNotices s o status) := by
  unfold abortNotices
  repeat' first
    | with_reducible assumption
    | with_reducible intro _
    | with_reducible apply State.sendAll_keeps
    | with_reducible apply kept_ite
    | with_reducible refine kept_fst (by assumption) ?_
    | with_reducible refine kept_snd (by assumption) ?_
    | extract_lets
    | split
    | fail_if_no_progress refine kept_mk ?_ rfl rfl
    | dsimp only
    | dsimp +zetaDelta only

theorem opFinal_keeps {s : State} {slot : Nat} {st : RState} {status detail : Nat} 
    (hK : Kept wq wc s) :
    Kept wq wc (opFinal s slot st status detail) := by
  unfold opFinal
  repeat' first
    | with_reducible assumption
    | with_reducible intro _
    | with_reducible apply noticeAppend_keeps
    | with_reducible apply setReceipt_keeps
    | with_reducible apply abortNotices_keeps
    | with_reducible apply kept_ite
    | with_reducible refine kept_fst (by assumption) ?_
    | with_reducible refine kept_snd (by assumption) ?_
    | extract_lets
    | split
    | fail_if_no_progress refine kept_mk ?_ rfl rfl
    | dsimp only
    | dsimp +zetaDelta only

theorem haltStream_keeps {s : State} {slot : Nat} 
    (hK : Kept wq wc s) :
    Kept wq wc (haltStream s slot) := by
  unfold haltStream
  repeat' first
    | with_reducible assumption
    | with_reducible intro _
    | with_reducible apply State.setStrm_keeps
    | with_reducible apply kept_ite
    | with_reducible refine kept_fst (by assumption) ?_
    | with_reducible refine kept_snd (by assumption) ?_
    | extract_lets
    | split
    | fail_if_no_progress refine kept_mk ?_ rfl rfl
    | dsimp only
    | dsimp +zetaDelta only

theorem settle_keeps {fuel : Nat} {s : State} 
    (hK : Kept wq wc s) :
    Kept wq wc (settle fuel s) := by
  induction fuel generalizing s with
  | zero =>
    unfold settle
    repeat' first
      | with_reducible assumption
      | with_reducible intro _
      | with_reducible apply haltStream_keeps
      | with_reducible apply opFinal_keeps
      | with_reducible apply ih
      | with_reducible apply kept_ite
      | with_reducible refine kept_fst (by assumption) ?_
      | with_reducible refine kept_snd (by assumption) ?_
      | extract_lets
      | split
      | fail_if_no_progress refine kept_mk ?_ rfl rfl
      | dsimp only
      | dsimp +zetaDelta only
  | succ n ih =>
    unfold settle
    repeat' first
      | with_reducible assumption
      | with_reducible intro _
      | with_reducible apply haltStream_keeps
      | with_reducible apply opFinal_keeps
      | with_reducible apply ih
      | with_reducible apply kept_ite
      | with_reducible refine kept_fst (by assumption) ?_
      | with_reducible refine kept_snd (by assumption) ?_
      | extract_lets
      | split
      | fail_if_no_progress refine kept_mk ?_ rfl rfl
      | dsimp only
      | dsimp +zetaDelta only

theorem opFailAs_keeps {s : State} {slot : Nat} {status detail : Nat} {forcePartial : Bool} 
    (hK : Kept wq wc s) :
    Kept wq wc (opFailAs s slot status detail forcePartial) := by
  unfold opFailAs
  repeat' first
    | with_reducible assumption
    | with_reducible intro _
    | with_reducible apply haltStream_keeps
    | with_reducible apply opFinal_keeps
    | with_reducible apply settle_keeps
    | with_reducible apply kept_ite
    | with_reducible refine kept_fst (by assumption) ?_
    | with_reducible refine kept_snd (by assumption) ?_
    | extract_lets
    | split
    | fail_if_no_progress refine kept_mk ?_ rfl rfl
    | dsimp only
    | dsimp +zetaDelta only

theorem opFail_keeps {s : State} {slot : Nat} {status detail : Nat} 
    (hK : Kept wq wc s) :
    Kept wq wc (opFail s slot status detail) := by
  unfold opFail
  repeat' first
    | with_reducible assumption
    | with_reducible intro _
    | with_reducible apply opFailAs_keeps
    | with_reducible apply kept_ite
    | with_reducible refine kept_fst (by assumption) ?_
    | with_reducible refine kept_snd (by assumption) ?_
    | extract_lets
    | split
    | fail_if_no_progress refine kept_mk ?_ rfl rfl
    | dsimp only
    | dsimp +zetaDelta only

theorem opMalformed_keeps {s : State} {slot reason off : Nat} 
    (hK : Kept wq wc s) :
    Kept wq wc (opMalformed s slot reason off) := by
  unfold opMalformed
  repeat' first
    | with_reducible assumption
    | with_reducible intro _
    | with_reducible apply opFail_keeps
    | with_reducible apply kept_ite
    | with_reducible refine kept_fst (by assumption) ?_
    | with_reducible refine kept_snd (by assumption) ?_
    | extract_lets
    | split
    | fail_if_no_progress refine kept_mk ?_ rfl rfl
    | dsimp only
    | dsimp +zetaDelta only

theorem opDone_keeps {s : State} {slot : Nat} 
    (hK : Kept wq wc s) :
    Kept wq wc (opDone s slot) := by
  unfold opDone
  repeat' first
    | with_reducible assumption
    | with_reducible intro _
    | with_reducible apply opFinal_keeps
    | with_reducible apply opStart_keeps
    | with_reducible apply kept_ite
    | with_reducible refine kept_fst (by assumption) ?_
    | with_reducible refine kept_snd (by assumption) ?_
    | extract_lets
    | split
    | fail_if_no_progress refine kept_mk ?_ rfl rfl
    | dsimp only
    | dsimp +zetaDelta only

theorem opCount_keeps {s : State} {slot : Nat} {n : Nat} 
    (hK : Kept wq wc s) :
    Kept wq wc (opCount s slot n) := by
  unfold opCount
  repeat' first
    | with_reducible assumption
    | with_reducible intro _
    | with_reducible apply State.setOp_keeps
    | with_reducible apply kept_ite
    | with_reducible refine kept_fst (by assumption) ?_
    | with_reducible refine kept_snd (by assumption) ?_
    | extract_lets
    | split
    | fail_if_no_progress refine kept_mk ?_ rfl rfl
    | dsimp only
    | dsimp +zetaDelta only

theorem opTally_keeps {s : State} {slot : Nat} {t : Tally} {parcel : Option Nat} 
    (hK : Kept wq wc s) :
    Kept wq wc (opTally s slot t parcel) := by
  unfold opTally
  repeat' first
    | with_reducible assumption
    | with_reducible intro _
    | with_reducible apply State.setOp_keeps
    | with_reducible apply kept_ite
    | with_reducible refine kept_fst (by assumption) ?_
    | with_reducible refine kept_snd (by assumption) ?_
    | extract_lets
    | split
    | fail_if_no_progress refine kept_mk ?_ rfl rfl
    | dsimp only
    | dsimp +zetaDelta only

theorem opWarn_keeps {s : State} {slot status detail : Nat} 
    (hK : Kept wq wc s) :
    Kept wq wc (opWarn s slot status detail) := by
  unfold opWarn
  repeat' first
    | with_reducible assumption
    | with_reducible intro _
    | with_reducible apply State.setOp_keeps
    | with_reducible apply kept_ite
    | with_reducible refine kept_fst (by assumption) ?_
    | with_reducible refine kept_snd (by assumption) ?_
    | extract_lets
    | split
    | fail_if_no_progress refine kept_mk ?_ rfl rfl
    | dsimp only
    | dsimp +zetaDelta only

theorem opPlace_keeps {s : State} {slot : Nat} {p : Place} 
    (hK : Kept wq wc s) :
    Kept wq wc (opPlace s slot p) := by
  unfold opPlace
  repeat' first
    | with_reducible assumption
    | with_reducible intro _
    | with_reducible apply State.setOp_keeps
    | with_reducible apply kept_ite
    | with_reducible refine kept_fst (by assumption) ?_
    | with_reducible refine kept_snd (by assumption) ?_
    | extract_lets
    | split
    | fail_if_no_progress refine kept_mk ?_ rfl rfl
    | dsimp only
    | dsimp +zetaDelta only

/-! ### Image -/

theorem denyAccess_keeps {s : State} {m : Nat} {write : Bool} {addr : Nat} 
    (hK : Kept wq wc s) :
    Kept wq wc (denyAccess s m write addr) := by
  unfold denyAccess
  repeat' first
    | with_reducible assumption
    | with_reducible intro _
    | with_reducible apply denyAdd_keeps
    | with_reducible apply kept_ite
    | with_reducible refine kept_fst (by assumption) ?_
    | with_reducible refine kept_snd (by assumption) ?_
    | extract_lets
    | split
    | fail_if_no_progress refine kept_mk ?_ rfl rfl
    | dsimp only
    | dsimp +zetaDelta only

theorem earlyAccess_keeps {s : State} {m : Nat} {write : Bool} {addr : Nat} 
    (hK : Kept wq wc s) :
    Kept wq wc (earlyAccess s m write addr) := by
  unfold earlyAccess
  repeat' first
    | with_reducible assumption
    | with_reducible intro _
    | with_reducible apply kept_ite
    | with_reducible refine kept_fst (by assumption) ?_
    | with_reducible refine kept_snd (by assumption) ?_
    | extract_lets
    | split
    | fail_if_no_progress refine kept_mk ?_ rfl rfl
    | dsimp only
    | dsimp +zetaDelta only

theorem gateFail_keeps {s : State} {g : Gate} {m off : Nat} {write : Bool} 
    (hK : Kept wq wc s) :
    Kept wq wc (gateFail s g m off write) := by
  unfold gateFail
  repeat' first
    | with_reducible assumption
    | with_reducible intro _
    | with_reducible apply earlyAccess_keeps
    | with_reducible apply denyAccess_keeps
    | with_reducible apply denyAdd_keeps
    | with_reducible apply kept_ite
    | with_reducible refine kept_fst (by assumption) ?_
    | with_reducible refine kept_snd (by assumption) ?_
    | extract_lets
    | split
    | fail_if_no_progress refine kept_mk ?_ rfl rfl
    | dsimp only
    | dsimp +zetaDelta only

theorem gated_keeps {s : State} {m off : Nat} {act : State → State} (hact : ∀ u0, Kept wq wc (u0) → Kept wq wc (act u0))
    (hK : Kept wq wc s) :
    Kept wq wc (gated s m off act) := by
  unfold gated
  repeat' first
    | with_reducible assumption
    | with_reducible intro _
    | with_reducible apply gateFail_keeps
    | with_reducible apply hact
    | with_reducible apply kept_ite
    | with_reducible refine kept_fst (by assumption) ?_
    | with_reducible refine kept_snd (by assumption) ?_
    | extract_lets
    | split
    | fail_if_no_progress refine kept_mk ?_ rfl rfl
    | dsimp only
    | dsimp +zetaDelta only

theorem rwlDenied_keeps {s : State} {m off cur new : Nat} 
    (hK : Kept wq wc s) :
    Kept wq wc (rwlDenied s m off cur new) := by
  unfold rwlDenied
  repeat' first
    | with_reducible assumption
    | with_reducible intro _
    | with_reducible apply denyAdd_keeps
    | with_reducible apply kept_ite
    | with_reducible refine kept_fst (by assumption) ?_
    | with_reducible refine kept_snd (by assumption) ?_
    | extract_lets
    | split
    | fail_if_no_progress refine kept_mk ?_ rfl rfl
    | dsimp only
    | dsimp +zetaDelta only

/-! ### Mem -/

theorem memPut_keeps {s : State} {a : Nat} {l : List Byte} (h : Kept wq wc s) :
    Kept wq wc (memPut s a l) :=
  ⟨h.1, fun c => putBytes_wf _ _ _ (h.2 c)⟩

theorem memClear_keeps {s : State} {a e : Nat} (h : Kept wq wc s) :
    Kept wq wc (memClear s a e) :=
  ⟨h.1, fun c => filter_canon _ _ _ (h.2 c)⟩

theorem meetCodeword_keeps {s : State} {k q cw : Nat} 
    (hK : Kept wq wc s) :
    Kept wq wc (meetCodeword s k q cw).1 := by
  unfold meetCodeword
  repeat' first
    | with_reducible assumption
    | with_reducible intro _
    | with_reducible apply cperAdd_keeps
    | with_reducible apply State.setStk_keeps
    | with_reducible apply kept_ite1
    | with_reducible apply kept_ite2
    | with_reducible apply kept_ite
    | with_reducible refine kept_fst (by assumption) ?_
    | with_reducible refine kept_snd (by assumption) ?_
    | extract_lets
    | split
    | fail_if_no_progress refine kept_mk ?_ rfl rfl
    | dsimp only
    | dsimp +zetaDelta only

theorem meetParcel_keeps {n : Nat} {s : State} {k q : Nat} 
    (hK : Kept wq wc s) :
    Kept wq wc (meetParcel n s k q).1 := by
  induction n generalizing s k q with
  | zero =>
    unfold meetParcel
    repeat' first
      | with_reducible assumption
      | with_reducible intro _
      | with_reducible apply meetCodeword_keeps
      | with_reducible apply ih
      | with_reducible apply kept_foldl
      | with_reducible apply kept_foldl1
      | with_reducible apply kept_foldl2
      | with_reducible apply kept_ite1
      | with_reducible apply kept_ite2
      | with_reducible apply kept_ite
      | with_reducible refine kept_fst (by assumption) ?_
      | with_reducible refine kept_snd (by assumption) ?_
      | extract_lets
      | split
      | fail_if_no_progress refine kept_mk ?_ rfl rfl
      | dsimp only
      | dsimp +zetaDelta only
  | succ n ih =>
    unfold meetParcel
    repeat' first
      | with_reducible assumption
      | with_reducible intro _
      | with_reducible apply meetCodeword_keeps
      | with_reducible apply ih
      | with_reducible apply kept_foldl
      | with_reducible apply kept_foldl1
      | with_reducible apply kept_foldl2
      | with_reducible apply kept_ite1
      | with_reducible apply kept_ite2
      | with_reducible apply kept_ite
      | with_reducible refine kept_fst (by assumption) ?_
      | with_reducible refine kept_snd (by assumption) ?_
      | extract_lets
      | split
      | fail_if_no_progress refine kept_mk ?_ rfl rfl
      | dsimp only
      | dsimp +zetaDelta only

theorem lostRead_keeps {s : State} {k q : Nat} 
    (hK : Kept wq wc s) :
    Kept wq wc (lostRead s k q) := by
  unfold lostRead
  repeat' first
    | with_reducible assumption
    | with_reducible intro _
    | with_reducible apply State.setStk_keeps
    | with_reducible apply kept_ite
    | with_reducible refine kept_fst (by assumption) ?_
    | with_reducible refine kept_snd (by assumption) ?_
    | extract_lets
    | split
    | fail_if_no_progress refine kept_mk ?_ rfl rfl
    | dsimp only
    | dsimp +zetaDelta only

theorem meetStored_keeps {s : State} {k q : Nat} {wantSeal : Bool} 
    (hK : Kept wq wc s) :
    Kept wq wc (meetStored s k q wantSeal).1 := by
  unfold meetStored
  repeat' first
    | with_reducible assumption
    | with_reducible intro _
    | with_reducible apply meetParcel_keeps
    | with_reducible apply meetCodeword_keeps
    | with_reducible apply kept_ite1
    | with_reducible apply kept_ite2
    | with_reducible apply kept_ite
    | with_reducible refine kept_fst (by assumption) ?_
    | with_reducible refine kept_snd (by assumption) ?_
    | extract_lets
    | split
    | fail_if_no_progress refine kept_mk ?_ rfl rfl
    | dsimp only
    | dsimp +zetaDelta only

theorem meetLost_keeps {s u : State} {k q : Nat} {b : Bool} (hK : Kept wq wc s) (h : meetLost s k q b = some u) :
    Kept wq wc u := by
  unfold meetLost at h
  split at h
  · injection h with h; subst h; exact lostRead_keeps hK
  · split at h
    · injection h with h; subst h; exact lostRead_keeps hK
    · contradiction

theorem parcelGet_keeps {s : State} {k : Nat} {check : Bool} {u : By}
    (hK : Kept wq wc s) :
    Kept wq wc (parcelGet s k check u).1 := by
  unfold parcelGet
  repeat' first
    | with_reducible assumption
    | with_reducible exact meetLost_keeps hK (by assumption)
    | with_reducible apply sealEvent_keeps
    | with_reducible apply meetStored_keeps
    | with_reducible apply kept_ite1
    | extract_lets
    | split
    | dsimp only
    | dsimp +zetaDelta only

theorem parcelRead_keeps {s : State} {k : Nat} {u : By} 
    (hK : Kept wq wc s) :
    Kept wq wc (parcelRead s k u).1 := by
  unfold parcelRead
  repeat' first
    | with_reducible assumption
    | with_reducible intro _
    | with_reducible apply parcelGet_keeps
    | with_reducible apply kept_ite1
    | with_reducible apply kept_ite2
    | with_reducible apply kept_ite
    | with_reducible refine kept_fst (by assumption) ?_
    | with_reducible refine kept_snd (by assumption) ?_
    | extract_lets
    | split
    | fail_if_no_progress refine kept_mk ?_ rfl rfl
    | dsimp only
    | dsimp +zetaDelta only

theorem parcelWrite_keeps {s : State} {k : Nat} {data : List Byte} 
    (hK : Kept wq wc s) :
    Kept wq wc (parcelWrite s k data).1 := by
  unfold parcelWrite
  repeat' first
    | with_reducible assumption
    | with_reducible intro _
    | with_reducible apply memPut_keeps
    | with_reducible apply State.setStk_keeps
    | with_reducible apply kept_ite1
    | with_reducible apply kept_ite2
    | with_reducible apply kept_ite
    | with_reducible refine kept_fst (by assumption) ?_
    | with_reducible refine kept_snd (by assumption) ?_
    | extract_lets
    | split
    | fail_if_no_progress refine kept_mk ?_ rfl rfl
    | dsimp only
    | dsimp +zetaDelta only

theorem parcelMerge_keeps {s : State} {k off : Nat} {data : List Byte} {u : By} 
    (hK : Kept wq wc s) :
    Kept wq wc (parcelMerge s k off data u).1 := by
  unfold parcelMerge
  repeat' first
    | with_reducible assumption
    | with_reducible intro _
    | with_reducible apply parcelWrite_keeps
    | with_reducible apply parcelRead_keeps
    | with_reducible apply kept_ite1
    | with_reducible apply kept_ite2
    | with_reducible apply kept_ite
    | with_reducible refine kept_fst (by assumption) ?_
    | with_reducible refine kept_snd (by assumption) ?_
    | extract_lets
    | split
    | fail_if_no_progress refine kept_mk ?_ rfl rfl
    | dsimp only
    | dsimp +zetaDelta only

theorem localPlace_keeps {s : State} {m : Nat} {own : Option Nat} {off : Nat} {write : Bool} 
    (hK : Kept wq wc s) :
    Kept wq wc (localPlace s m own off write).1 := by
  unfold localPlace
  repeat' first
    | with_reducible assumption
    | with_reducible intro _
    | with_reducible apply denyAccess_keeps
    | with_reducible apply denyAdd_keeps
    | with_reducible apply kept_ite1
    | with_reducible apply kept_ite2
    | with_reducible apply kept_ite
    | with_reducible refine kept_fst (by assumption) ?_
    | with_reducible refine kept_snd (by assumption) ?_
    | extract_lets
    | split
    | fail_if_no_progress refine kept_mk ?_ rfl rfl
    | dsimp only
    | dsimp +zetaDelta only

theorem addrPlace_keeps {s : State} {m : Nat} {own : Option Nat} {a : W64} {write : Bool} 
    (hK : Kept wq wc s) :
    Kept wq wc (addrPlace s m own a write).1 := by
  unfold addrPlace
  repeat' first
    | with_reducible assumption
    | with_reducible intro _
    | with_reducible apply localPlace_keeps
    | with_reducible apply kept_ite1
    | with_reducible apply kept_ite2
    | with_reducible apply kept_ite
    | with_reducible refine kept_fst (by assumption) ?_
    | with_reducible refine kept_snd (by assumption) ?_
    | extract_lets
    | split
    | fail_if_no_progress refine kept_mk ?_ rfl rfl
    | dsimp only
    | dsimp +zetaDelta only

theorem writePlace_keeps {s : State} {m : Nat} {own : Option Nat} {a : W64} {whole : Bool} 
    (hK : Kept wq wc s) :
    Kept wq wc (writePlace s m own a whole).1 := by
  unfold writePlace
  repeat' first
    | with_reducible assumption
    | with_reducible intro _
    | with_reducible apply addrPlace_keeps
    | with_reducible apply kept_ite1
    | with_reducible apply kept_ite2
    | with_reducible apply kept_ite
    | with_reducible refine kept_fst (by assumption) ?_
    | with_reducible refine kept_snd (by assumption) ?_
    | extract_lets
    | split
    | fail_if_no_progress refine kept_mk ?_ rfl rfl
    | dsimp only
    | dsimp +zetaDelta only

/-! ### Link -/

theorem linkOwe_keeps {s : State} {n vc k : Nat} 
    (hK : Kept wq wc s) :
    Kept wq wc (linkOwe s n vc k) := by
  unfold linkOwe
  repeat' first
    | with_reducible assumption
    | with_reducible intro _
    | with_reducible apply State.setPort_keeps
    | with_reducible apply kept_ite
    | with_reducible refine kept_fst (by assumption) ?_
    | with_reducible refine kept_snd (by assumption) ?_
    | extract_lets
    | split
    | fail_if_no_progress refine kept_mk ?_ rfl rfl
    | dsimp only
    | dsimp +zetaDelta only

theorem linkOut_keeps {s : State} {n : Nat} {q : LinkItem} 
    (hK : Kept wq wc s) :
    Kept wq wc (linkOut s n q) := by
  unfold linkOut
  repeat' first
    | with_reducible assumption
    | with_reducible intro _
    | with_reducible apply State.setPort_keeps
    | with_reducible apply State.send_keeps
    | with_reducible apply linkOwe_keeps
    | with_reducible apply kept_ite
    | with_reducible refine kept_fst (by assumption) ?_
    | with_reducible refine kept_snd (by assumption) ?_
    | extract_lets
    | split
    | fail_if_no_progress refine kept_mk ?_ rfl rfl
    | dsimp only
    | dsimp +zetaDelta only

theorem linkSend_keeps {s : State} {n : Nat} {q : LinkItem} 
    (hK : Kept wq wc s) :
    Kept wq wc (linkSend s n q) := by
  unfold linkSend
  repeat' first
    | with_reducible assumption
    | with_reducible intro _
    | with_reducible apply State.setPort_keeps
    | with_reducible apply linkOut_keeps
    | with_reducible apply kept_ite
    | with_reducible refine kept_fst (by assumption) ?_
    | with_reducible refine kept_snd (by assumption) ?_
    | extract_lets
    | split
    | fail_if_no_progress refine kept_mk ?_ rfl rfl
    | dsimp only
    | dsimp +zetaDelta only

theorem linkDrain_keeps {k : Nat} {s : State} {n : Nat} 
    (hK : Kept wq wc s) :
    Kept wq wc (linkDrain k s n) := by
  induction k generalizing s n with
  | zero =>
    unfold linkDrain
    repeat' first
      | with_reducible assumption
      | with_reducible intro _
      | with_reducible apply linkOut_keeps
      | with_reducible apply State.setPort_keeps
      | with_reducible apply ih
      | with_reducible apply kept_ite
      | with_reducible refine kept_fst (by assumption) ?_
      | with_reducible refine kept_snd (by assumption) ?_
      | extract_lets
      | split
      | fail_if_no_progress refine kept_mk ?_ rfl rfl
      | dsimp only
      | dsimp +zetaDelta only
  | succ n ih =>
    unfold linkDrain
    repeat' first
      | with_reducible assumption
      | with_reducible intro _
      | with_reducible apply linkOut_keeps
      | with_reducible apply State.setPort_keeps
      | with_reducible apply ih
      | with_reducible apply kept_ite
      | with_reducible refine kept_fst (by assumption) ?_
      | with_reducible refine kept_snd (by assumption) ?_
      | extract_lets
      | split
      | fail_if_no_progress refine kept_mk ?_ rfl rfl
      | dsimp only
      | dsimp +zetaDelta only

theorem linkAck_keeps {s : State} {n ack : Nat} {credits : List (Nat × Nat)} 
    (hK : Kept wq wc s) :
    Kept wq wc (linkAck s n ack credits) := by
  unfold linkAck
  repeat' first
    | with_reducible assumption
    | with_reducible intro _
    | with_reducible apply linkDrain_keeps
    | with_reducible apply State.setPort_keeps
    | with_reducible apply kept_foldl
    | with_reducible apply kept_foldl1
    | with_reducible apply kept_foldl2
    | with_reducible apply kept_ite
    | with_reducible refine kept_fst (by assumption) ?_
    | with_reducible refine kept_snd (by assumption) ?_
    | extract_lets
    | split
    | fail_if_no_progress refine kept_mk ?_ rfl rfl
    | dsimp only
    | dsimp +zetaDelta only

theorem linkRetry_keeps {s : State} {n : Nat} 
    (hK : Kept wq wc s) :
    Kept wq wc (linkRetry s n) := by
  unfold linkRetry
  repeat' first
    | with_reducible assumption
    | with_reducible intro _
    | with_reducible apply State.setPort_keeps
    | with_reducible apply State.send_keeps
    | with_reducible apply kept_ite
    | with_reducible refine kept_fst (by assumption) ?_
    | with_reducible refine kept_snd (by assumption) ?_
    | extract_lets
    | split
    | fail_if_no_progress refine kept_mk ?_ rfl rfl
    | dsimp only
    | dsimp +zetaDelta only

theorem linkGot_keeps {s : State} {n k : Nat} 
    (hK : Kept wq wc s) :
    Kept wq wc (linkGot s n k) := by
  unfold linkGot
  repeat' first
    | with_reducible assumption
    | with_reducible intro _
    | with_reducible apply State.setPort_keeps
    | with_reducible apply kept_ite
    | with_reducible refine kept_fst (by assumption) ?_
    | with_reducible refine kept_snd (by assumption) ?_
    | extract_lets
    | split
    | fail_if_no_progress refine kept_mk ?_ rfl rfl
    | dsimp only
    | dsimp +zetaDelta only

theorem linkRecv_keeps {s : State} {n vc k : Nat} 
    (hK : Kept wq wc s) :
    Kept wq wc (linkRecv s n vc k) := by
  unfold linkRecv
  repeat' first
    | with_reducible assumption
    | with_reducible intro _
    | with_reducible apply linkOwe_keeps
    | with_reducible apply linkGot_keeps
    | with_reducible apply kept_ite
    | with_reducible refine kept_fst (by assumption) ?_
    | with_reducible refine kept_snd (by assumption) ?_
    | extract_lets
    | split
    | fail_if_no_progress refine kept_mk ?_ rfl rfl
    | dsimp only
    | dsimp +zetaDelta only

theorem linkTake_keeps {s : State} {p : Packet} 
    (hK : Kept wq wc s) :
    Kept wq wc (linkTake s p).1 := by
  unfold linkTake
  repeat' first
    | with_reducible assumption
    | with_reducible intro _
    | with_reducible apply linkAck_keeps
    | with_reducible apply linkRetry_keeps
    | with_reducible apply linkGot_keeps
    | with_reducible apply kept_ite1
    | with_reducible apply kept_ite2
    | with_reducible apply kept_ite
    | with_reducible refine kept_fst (by assumption) ?_
    | with_reducible refine kept_snd (by assumption) ?_
    | extract_lets
    | split
    | fail_if_no_progress refine kept_mk ?_ rfl rfl
    | dsimp only
    | dsimp +zetaDelta only

theorem consumed_keeps {s : State} {p : Packet} 
    (hK : Kept wq wc s) :
    Kept wq wc (consumed s p) := by
  unfold consumed
  repeat' first
    | with_reducible assumption
    | with_reducible intro _
    | with_reducible apply linkOwe_keeps
    | with_reducible apply kept_ite
    | with_reducible refine kept_fst (by assumption) ?_
    | with_reducible refine kept_snd (by assumption) ?_
    | extract_lets
    | split
    | fail_if_no_progress refine kept_mk ?_ rfl rfl
    | dsimp only
    | dsimp +zetaDelta only

theorem linkIdle_keeps {s : State} {n : Nat} 
    (hK : Kept wq wc s) :
    Kept wq wc (linkIdle s n) := by
  unfold linkIdle
  repeat' first
    | with_reducible assumption
    | with_reducible intro _
    | with_reducible apply State.setPort_keeps
    | with_reducible apply State.sendAll_keeps
    | with_reducible apply kept_ite
    | with_reducible refine kept_fst (by assumption) ?_
    | with_reducible refine kept_snd (by assumption) ?_
    | extract_lets
    | split
    | fail_if_no_progress refine kept_mk ?_ rfl rfl
    | dsimp only
    | dsimp +zetaDelta only

/-! ### Route -/

theorem portSend_keeps {s : State} {n : Nat} {p : Packet} {src : Option (Nat × Nat × Nat)} 
    (hK : Kept wq wc s) :
    Kept wq wc (portSend s n p src) := by
  unfold portSend
  repeat' first
    | with_reducible assumption
    | with_reducible intro _
    | with_reducible apply linkSend_keeps
    | with_reducible apply kept_ite
    | with_reducible refine kept_fst (by assumption) ?_
    | with_reducible refine kept_snd (by assumption) ?_
    | extract_lets
    | split
    | fail_if_no_progress refine kept_mk ?_ rfl rfl
    | dsimp only
    | dsimp +zetaDelta only

theorem reqReply_keeps {s : State} {tag status : Nat} {data : List Byte} 
    (hK : Kept wq wc s) :
    Kept wq wc (reqReply s tag status data) := by
  unfold reqReply
  repeat' first
    | with_reducible assumption
    | with_reducible intro _
    | with_reducible apply kept_ite
    | with_reducible refine kept_fst (by assumption) ?_
    | with_reducible refine kept_snd (by assumption) ?_
    | extract_lets
    | split
    | fail_if_no_progress refine kept_mk ?_ rfl rfl
    | dsimp only
    | dsimp +zetaDelta only

theorem reqDrop_keeps {s : State} {tags : List Nat} 
    (hK : Kept wq wc s) :
    Kept wq wc (reqDrop s tags) := by
  unfold reqDrop
  repeat' first
    | with_reducible assumption
    | with_reducible intro _
    | with_reducible apply kept_ite
    | with_reducible refine kept_fst (by assumption) ?_
    | with_reducible refine kept_snd (by assumption) ?_
    | extract_lets
    | split
    | fail_if_no_progress refine kept_mk ?_ rfl rfl
    | dsimp only
    | dsimp +zetaDelta only

theorem reqSend_keeps {s : State} {m chip off : Nat} {write reg : Bool} {data : List Byte} {len check : Nat} 
    (hK : Kept wq wc s) :
    Kept wq wc (reqSend s m chip off write reg data len check).1 := by
  unfold reqSend
  repeat' first
    | with_reducible assumption
    | with_reducible intro _
    | with_reducible apply portSend_keeps
    | with_reducible apply reqReply_keeps
    | with_reducible apply kept_ite1
    | with_reducible apply kept_ite2
    | with_reducible apply kept_ite
    | with_reducible refine kept_fst (by assumption) ?_
    | with_reducible refine kept_snd (by assumption) ?_
    | extract_lets
    | split
    | fail_if_no_progress refine kept_mk ?_ rfl rfl
    | dsimp only
    | dsimp +zetaDelta only

theorem remoteRead_keeps {s : State} {tags : List Nat} {m chip off : Nat} 
    (hK : Kept wq wc s) :
    Kept wq wc (remoteRead s tags m chip off).1 := by
  unfold remoteRead
  repeat' first
    | with_reducible assumption
    | with_reducible intro _
    | with_reducible apply reqSend_keeps
    | with_reducible apply kept_ite1
    | with_reducible apply kept_ite2
    | with_reducible apply kept_ite
    | with_reducible refine kept_fst (by assumption) ?_
    | with_reducible refine kept_snd (by assumption) ?_
    | extract_lets
    | split
    | fail_if_no_progress refine kept_mk ?_ rfl rfl
    | dsimp only
    | dsimp +zetaDelta only

theorem remoteGet_keeps {s : State} {tags : List Nat} {m chip off n : Nat} 
    (hK : Kept wq wc s) :
    Kept wq wc (remoteGet s tags m chip off n).1 := by
  unfold remoteGet
  repeat' first
    | with_reducible assumption
    | with_reducible intro _
    | with_reducible apply remoteRead_keeps
    | with_reducible apply reqSend_keeps
    | with_reducible apply kept_ite1
    | with_reducible apply kept_ite2
    | with_reducible apply kept_ite
    | with_reducible refine kept_fst (by assumption) ?_
    | with_reducible refine kept_snd (by assumption) ?_
    | extract_lets
    | split
    | fail_if_no_progress refine kept_mk ?_ rfl rfl
    | dsimp only
    | dsimp +zetaDelta only

theorem remoteWrite_keeps {s : State} {tags : List Nat} {m chip off : Nat} {data : List Byte} 
    (hK : Kept wq wc s) :
    Kept wq wc (remoteWrite s tags m chip off data).1 := by
  unfold remoteWrite
  repeat' first
    | with_reducible assumption
    | with_reducible intro _
    | with_reducible apply reqSend_keeps
    | with_reducible apply kept_ite1
    | with_reducible apply kept_ite2
    | with_reducible apply kept_ite
    | with_reducible refine kept_fst (by assumption) ?_
    | with_reducible refine kept_snd (by assumption) ?_
    | extract_lets
    | split
    | fail_if_no_progress refine kept_mk ?_ rfl rfl
    | dsimp only
    | dsimp +zetaDelta only

theorem busParcel_keeps {s : State} {tags : List Nat} {m : Nat} {own : Option Nat} {a : W64} {u : By} 
    (hK : Kept wq wc s) :
    Kept wq wc (busParcel s tags m own a u).1 := by
  unfold busParcel
  repeat' first
    | with_reducible assumption
    | with_reducible intro _
    | with_reducible apply addrPlace_keeps
    | with_reducible apply parcelRead_keeps
    | with_reducible apply remoteRead_keeps
    | with_reducible apply kept_ite1
    | with_reducible apply kept_ite2
    | with_reducible apply kept_ite
    | with_reducible refine kept_fst (by assumption) ?_
    | with_reducible refine kept_snd (by assumption) ?_
    | extract_lets
    | split
    | fail_if_no_progress refine kept_mk ?_ rfl rfl
    | dsimp only
    | dsimp +zetaDelta only

/-! ### Commit -/

theorem noteWriter_keeps {s : State} {slot key : Nat} 
    (hK : Kept wq wc s) :
    Kept wq wc (noteWriter s slot key) := by
  unfold noteWriter
  repeat' first
    | with_reducible assumption
    | with_reducible intro _
    | with_reducible apply State.setStrm_keeps
    | with_reducible apply kept_ite
    | with_reducible refine kept_fst (by assumption) ?_
    | with_reducible refine kept_snd (by assumption) ?_
    | extract_lets
    | split
    | fail_if_no_progress refine kept_mk ?_ rfl rfl
    | dsimp only
    | dsimp +zetaDelta only

theorem deliver_keeps {s : State} {who : Who} {slot key off : Nat} {data : List Byte} {u : By} 
    (hK : Kept wq wc s) :
    Kept wq wc (deliver s who slot key off data u).1 := by
  unfold deliver
  repeat' first
    | with_reducible assumption
    | with_reducible intro _
    | with_reducible apply parcelMerge_keeps
    | with_reducible apply noteWriter_keeps
    | with_reducible apply kept_ite1
    | with_reducible apply kept_ite2
    | with_reducible apply kept_ite
    | with_reducible refine kept_fst (by assumption) ?_
    | with_reducible refine kept_snd (by assumption) ?_
    | extract_lets
    | split
    | fail_if_no_progress refine kept_mk ?_ rfl rfl
    | dsimp only
    | dsimp +zetaDelta only

theorem deliverParts_keeps {s : State} {who : Who} {slot key : Nat} {parts : List (Nat × List Byte)} {u : By} 
    (hK : Kept wq wc s) :
    Kept wq wc (deliverParts s who slot key parts u).1 := by
  unfold deliverParts
  repeat' first
    | with_reducible assumption
    | with_reducible intro _
    | with_reducible apply parcelWrite_keeps
    | with_reducible apply parcelRead_keeps
    | with_reducible apply noteWriter_keeps
    | with_reducible apply kept_ite1
    | with_reducible apply kept_ite2
    | with_reducible apply kept_ite
    | with_reducible refine kept_fst (by assumption) ?_
    | with_reducible refine kept_snd (by assumption) ?_
    | extract_lets
    | split
    | fail_if_no_progress refine kept_mk ?_ rfl rfl
    | dsimp only
    | dsimp +zetaDelta only

end Sys2Proof.Machine
end

