-- ==== Sys2Proof/Laws/KeptUnits.lean ====
section
/-! SUPPORT. Each operation of the letterbox, couriers, fabric, floor plan, memory service, power, quantisation, loading, trust and attestation keeps the queue and the canonical form of memory: one lemma per operation, to be
cited in place of unfolding it. -/

set_option linter.unusedTactic false
set_option linter.unreachableTactic false

namespace Sys2Proof.Machine

variable {wq : List Instr} {wc : Prop}

/-! ### Letterbox -/

theorem refuseEntry_keeps {s : State} {k index : Nat} {b : List Byte} 
    (hK : Kept wq wc s) :
    Kept wq wc (refuseEntry s k index b) := by
  unfold refuseEntry
  repeat' first
    | with_reducible assumption
    | with_reducible intro _
    | with_reducible apply setRefusal_keeps
    | with_reducible apply State.setBox_keeps
    | with_reducible apply ih
    | with_reducible apply kept_ite
    | with_reducible refine kept_fst (by assumption) ?_
    | with_reducible refine kept_snd (by assumption) ?_
    | extract_lets
    | split
    | fail_if_no_progress refine kept_mk ?_ rfl rfl
    | dsimp only
    | dsimp +zetaDelta only

theorem placeOp_keeps {s : State} {slot : Nat} {o : Op} {closes : Bool} 
    (hK : Kept wq wc s) :
    Kept wq wc (placeOp s slot o closes) := by
  unfold placeOp
  repeat' first
    | with_reducible assumption
    | with_reducible intro _
    | with_reducible apply State.setStrm_keeps
    | with_reducible apply kept_ite
    | with_reducible refine kept_fst (by assumption) ?_
    | with_reducible refine kept_snd (by assumption) ?_
    | extract_lets
    | split
    | fail_if_no_progress refine kept_mk ?_ rfl rfl
    | dsimp only
    | dsimp +zetaDelta only

theorem collectEntry_keeps {s : State} {k index : Nat} {b : List Byte} 
    (hK : Kept wq wc s) :
    Kept wq wc (collectEntry s k index b) := by
  unfold collectEntry
  repeat' first
    | with_reducible assumption
    | with_reducible intro _
    | with_reducible apply refuseEntry_keeps
    | with_reducible apply State.setBox_keeps
    | with_reducible apply State.setOp_keeps
    | with_reducible apply mirrorReceipt_keeps
    | with_reducible apply placeOp_keeps
    | with_reducible apply opMalformed_keeps
    | with_reducible apply opFail_keeps
    | with_reducible apply settle_keeps
    | with_reducible apply kept_ite
    | with_reducible refine kept_fst (by assumption) ?_
    | with_reducible refine kept_snd (by assumption) ?_
    | extract_lets
    | split
    | fail_if_no_progress refine kept_mk ?_ rfl rfl
    | dsimp only
    | dsimp +zetaDelta only

theorem stopBox_keeps {s : State} {k why : Nat} 
    (hK : Kept wq wc s) :
    Kept wq wc (stopBox s k why) := by
  unfold stopBox
  repeat' first
    | with_reducible assumption
    | with_reducible intro _
    | with_reducible apply setLbFault_keeps
    | with_reducible apply State.setBox_keeps
    | with_reducible apply kept_ite
    | with_reducible refine kept_fst (by assumption) ?_
    | with_reducible refine kept_snd (by assumption) ?_
    | extract_lets
    | split
    | fail_if_no_progress refine kept_mk ?_ rfl rfl
    | dsimp only
    | dsimp +zetaDelta only

theorem collectList_keeps {s : State} {k : Nat} {l : List (List Byte)} 
    (hK : Kept wq wc s) :
    Kept wq wc (collectList s k l) := by
  induction l generalizing s k with
  | nil =>
    unfold collectList
    repeat' first
      | with_reducible assumption
      | with_reducible intro _
      | with_reducible apply State.setBox_keeps
      | with_reducible apply stopBox_keeps
      | with_reducible apply collectEntry_keeps
      | with_reducible apply ih
      | with_reducible apply kept_ite
      | with_reducible refine kept_fst (by assumption) ?_
      | with_reducible refine kept_snd (by assumption) ?_
      | extract_lets
      | split
      | fail_if_no_progress refine kept_mk ?_ rfl rfl
      | dsimp only
      | dsimp +zetaDelta only
  | cons e t ih =>
    unfold collectList
    repeat' first
      | with_reducible assumption
      | with_reducible intro _
      | with_reducible apply State.setBox_keeps
      | with_reducible apply stopBox_keeps
      | with_reducible apply collectEntry_keeps
      | with_reducible apply ih
      | with_reducible apply kept_ite
      | with_reducible refine kept_fst (by assumption) ?_
      | with_reducible refine kept_snd (by assumption) ?_
      | extract_lets
      | split
      | fail_if_no_progress refine kept_mk ?_ rfl rfl
      | dsimp only
      | dsimp +zetaDelta only

theorem mirrorTail_keeps {s : State} {k : Nat} 
    (hK : Kept wq wc s) :
    Kept wq wc (mirrorTail s k) := by
  unfold mirrorTail
  repeat' first
    | with_reducible assumption
    | with_reducible intro _
    | with_reducible apply setStale_keeps
    | with_reducible apply State.send_keeps
    | with_reducible apply kept_ite
    | with_reducible refine kept_fst (by assumption) ?_
    | with_reducible refine kept_snd (by assumption) ?_
    | extract_lets
    | split
    | fail_if_no_progress refine kept_mk ?_ rfl rfl
    | dsimp only
    | dsimp +zetaDelta only

theorem issueProgram_keeps {s : State} {slot n : Nat} 
    (hK : Kept wq wc s) :
    Kept wq wc (issueProgram s slot n) := by
  unfold issueProgram
  repeat' first
    | with_reducible assumption
    | with_reducible intro _
    | with_reducible apply opFail_keeps
    | with_reducible apply opPlace_keeps
    | with_reducible apply State.setLclu_keeps
    | with_reducible apply kept_ite
    | with_reducible refine kept_fst (by assumption) ?_
    | with_reducible refine kept_snd (by assumption) ?_
    | extract_lets
    | split
    | fail_if_no_progress refine kept_mk ?_ rfl rfl
    | dsimp only
    | dsimp +zetaDelta only

theorem actStreamClear_keeps {s : State} 
    (hK : Kept wq wc s) :
    Kept wq wc (actStreamClear s) := by
  unfold actStreamClear
  repeat' first
    | with_reducible assumption
    | with_reducible intro _
    | with_reducible apply State.setStrm_keeps
    | with_reducible apply kept_ite
    | with_reducible refine kept_fst (by assumption) ?_
    | with_reducible refine kept_snd (by assumption) ?_
    | extract_lets
    | split
    | fail_if_no_progress refine kept_mk ?_ rfl rfl
    | dsimp only
    | dsimp +zetaDelta only

theorem actSlotRelease_keeps {s : State} {v : Nat} 
    (hK : Kept wq wc s) :
    Kept wq wc (actSlotRelease s v) := by
  unfold actSlotRelease
  repeat' first
    | with_reducible assumption
    | with_reducible intro _
    | with_reducible apply State.setStrm_keeps
    | with_reducible apply kept_ite
    | with_reducible refine kept_fst (by assumption) ?_
    | with_reducible refine kept_snd (by assumption) ?_
    | extract_lets
    | split
    | fail_if_no_progress refine kept_mk ?_ rfl rfl
    | dsimp only
    | dsimp +zetaDelta only

theorem drainHeld_keeps {s : State} 
    (hK : Kept wq wc s) :
    Kept wq wc (drainHeld s) := by
  unfold drainHeld
  repeat' first
    | with_reducible assumption
    | with_reducible intro _
    | with_reducible apply noticeDrain_keeps
    | with_reducible apply kept_ite
    | with_reducible refine kept_fst (by assumption) ?_
    | with_reducible refine kept_snd (by assumption) ?_
    | extract_lets
    | split
    | fail_if_no_progress refine kept_mk ?_ rfl rfl
    | dsimp only
    | dsimp +zetaDelta only

theorem actNoticeHead_keeps {s : State} {v : Nat} 
    (hK : Kept wq wc s) :
    Kept wq wc (actNoticeHead s v) := by
  unfold actNoticeHead
  repeat' first
    | with_reducible assumption
    | with_reducible intro _
    | with_reducible apply drainHeld_keeps
    | with_reducible apply kept_ite
    | with_reducible refine kept_fst (by assumption) ?_
    | with_reducible refine kept_snd (by assumption) ?_
    | extract_lets
    | split
    | fail_if_no_progress refine kept_mk ?_ rfl rfl
    | dsimp only
    | dsimp +zetaDelta only

theorem actResync_keeps {s : State} 
    (hK : Kept wq wc s) :
    Kept wq wc (actResync s) := by
  unfold actResync
  repeat' first
    | with_reducible assumption
    | with_reducible intro _
    | with_reducible apply mirrorTail_keeps
    | with_reducible apply mirrorReceipt_keeps
    | with_reducible apply kept_foldl
    | with_reducible apply kept_foldl1
    | with_reducible apply kept_foldl2
    | with_reducible apply kept_ite
    | with_reducible refine kept_fst (by assumption) ?_
    | with_reducible refine kept_snd (by assumption) ?_
    | extract_lets
    | split
    | fail_if_no_progress refine kept_mk ?_ rfl rfl
    | dsimp only
    | dsimp +zetaDelta only

theorem actBoxConfig_keeps {s : State} {k v : Nat} 
    (hK : Kept wq wc s) :
    Kept wq wc (actBoxConfig s k v) := by
  unfold actBoxConfig
  repeat' first
    | with_reducible assumption
    | with_reducible intro _
    | with_reducible apply State.setBox_keeps
    | with_reducible apply kept_ite
    | with_reducible refine kept_fst (by assumption) ?_
    | with_reducible refine kept_snd (by assumption) ?_
    | extract_lets
    | split
    | fail_if_no_progress refine kept_mk ?_ rfl rfl
    | dsimp only
    | dsimp +zetaDelta only

theorem actBoxBase_keeps {s : State} {k : Nat} {base : W64} 
    (hK : Kept wq wc s) :
    Kept wq wc (actBoxBase s k base) := by
  unfold actBoxBase
  repeat' first
    | with_reducible assumption
    | with_reducible intro _
    | with_reducible apply State.setBox_keeps
    | with_reducible apply kept_ite
    | with_reducible refine kept_fst (by assumption) ?_
    | with_reducible refine kept_snd (by assumption) ?_
    | extract_lets
    | split
    | fail_if_no_progress refine kept_mk ?_ rfl rfl
    | dsimp only
    | dsimp +zetaDelta only

theorem actApertureApply_keeps {s : State} 
    (hK : Kept wq wc s) :
    Kept wq wc (actApertureApply s) := by
  unfold actApertureApply
  repeat' first
    | with_reducible assumption
    | with_reducible intro _
    | with_reducible apply kept_ite
    | with_reducible refine kept_fst (by assumption) ?_
    | with_reducible refine kept_snd (by assumption) ?_
    | extract_lets
    | split
    | fail_if_no_progress refine kept_mk ?_ rfl rfl
    | dsimp only
    | dsimp +zetaDelta only

/-! ### Courier -/

theorem dropRound_keeps {s : State} {c : Nat} 
    (hK : Kept wq wc s) :
    Kept wq wc (dropRound s c) := by
  unfold dropRound
  repeat' first
    | with_reducible assumption
    | with_reducible intro _
    | with_reducible apply reqDrop_keeps
    | with_reducible apply State.setCourier_keeps
    | with_reducible apply kept_ite
    | with_reducible refine kept_fst (by assumption) ?_
    | with_reducible refine kept_snd (by assumption) ?_
    | extract_lets
    | split
    | fail_if_no_progress refine kept_mk ?_ rfl rfl
    | dsimp only
    | dsimp +zetaDelta only

theorem failRound_keeps {s : State} {c status detail : Nat} 
    (hK : Kept wq wc s) :
    Kept wq wc (failRound s c status detail) := by
  unfold failRound
  repeat' first
    | with_reducible assumption
    | with_reducible intro _
    | with_reducible apply opFail_keeps
    | with_reducible apply opCount_keeps
    | with_reducible apply dropRound_keeps
    | with_reducible apply kept_ite
    | with_reducible refine kept_fst (by assumption) ?_
    | with_reducible refine kept_snd (by assumption) ?_
    | extract_lets
    | split
    | fail_if_no_progress refine kept_mk ?_ rfl rfl
    | dsimp only
    | dsimp +zetaDelta only

theorem doneRound_keeps {s : State} {c : Nat} 
    (hK : Kept wq wc s) :
    Kept wq wc (doneRound s c) := by
  unfold doneRound
  repeat' first
    | with_reducible assumption
    | with_reducible intro _
    | with_reducible apply opDone_keeps
    | with_reducible apply opCount_keeps
    | with_reducible apply dropRound_keeps
    | with_reducible apply kept_ite
    | with_reducible refine kept_fst (by assumption) ?_
    | with_reducible refine kept_snd (by assumption) ?_
    | extract_lets
    | split
    | fail_if_no_progress refine kept_mk ?_ rfl rfl
    | dsimp only
    | dsimp +zetaDelta only

theorem setRound_keeps {s : State} {c : Nat} {r : Round} 
    (hK : Kept wq wc s) :
    Kept wq wc (setRound s c r) := by
  unfold setRound
  repeat' first
    | with_reducible assumption
    | with_reducible intro _
    | with_reducible apply State.setCourier_keeps
    | with_reducible apply kept_ite
    | with_reducible refine kept_fst (by assumption) ?_
    | with_reducible refine kept_snd (by assumption) ?_
    | extract_lets
    | split
    | fail_if_no_progress refine kept_mk ?_ rfl rfl
    | dsimp only
    | dsimp +zetaDelta only

theorem roundFault_keeps {s : State} {c : Nat} {r : Round} {status : Nat} {write : Bool} {addr restart : Nat} 
    (hK : Kept wq wc s) :
    Kept wq wc (roundFault s c r status write addr restart) := by
  unfold roundFault
  repeat' first
    | with_reducible assumption
    | with_reducible intro _
    | with_reducible apply setRound_keeps
    | with_reducible apply kept_ite
    | with_reducible refine kept_fst (by assumption) ?_
    | with_reducible refine kept_snd (by assumption) ?_
    | extract_lets
    | split
    | fail_if_no_progress refine kept_mk ?_ rfl rfl
    | dsimp only
    | dsimp +zetaDelta only

theorem roundParcel_keeps {s : State} {c : Nat} {r : Round} {a : Nat} 
    (hK : Kept wq wc s) :
    Kept wq wc (roundParcel s c r a).1 := by
  unfold roundParcel
  repeat' first
    | with_reducible assumption
    | with_reducible intro _
    | with_reducible apply addrPlace_keeps
    | with_reducible apply parcelGet_keeps
    | with_reducible apply remoteRead_keeps
    | with_reducible apply kept_ite1
    | with_reducible apply kept_ite2
    | with_reducible apply kept_ite
    | with_reducible refine kept_fst (by assumption) ?_
    | with_reducible refine kept_snd (by assumption) ?_
    | extract_lets
    | split
    | fail_if_no_progress refine kept_mk ?_ rfl rfl
    | dsimp only
    | dsimp +zetaDelta only

theorem roundBytes_keeps {s : State} {c : Nat} {r : Round} {a n : Nat} 
    (hK : Kept wq wc s) :
    Kept wq wc (roundBytes s c r a n).1 := by
  unfold roundBytes
  repeat' first
    | with_reducible assumption
    | with_reducible intro _
    | with_reducible apply roundParcel_keeps
    | with_reducible apply kept_ite1
    | with_reducible apply kept_ite2
    | with_reducible apply kept_ite
    | with_reducible refine kept_fst (by assumption) ?_
    | with_reducible refine kept_snd (by assumption) ?_
    | extract_lets
    | split
    | fail_if_no_progress refine kept_mk ?_ rfl rfl
    | dsimp only
    | dsimp +zetaDelta only

theorem fetchIns_keeps {s : State} {c : Nat} {r : Round} 
    (hK : Kept wq wc s) :
    Kept wq wc (fetchIns s c r).1 := by
  unfold fetchIns
  repeat' first
    | with_reducible assumption
    | with_reducible intro _
    | with_reducible apply roundBytes_keeps
    | with_reducible apply kept_ite1
    | with_reducible apply kept_ite2
    | with_reducible apply kept_ite
    | with_reducible refine kept_fst (by assumption) ?_
    | with_reducible refine kept_snd (by assumption) ?_
    | extract_lets
    | split
    | fail_if_no_progress refine kept_mk ?_ rfl rfl
    | dsimp only
    | dsimp +zetaDelta only

theorem heldIns_keeps {s : State} {c : Nat} {r : Round} 
    (hK : Kept wq wc s) :
    Kept wq wc (heldIns s c r).1 := by
  unfold heldIns
  repeat' first
    | with_reducible assumption
    | with_reducible intro _
    | with_reducible apply fetchIns_keeps
    | with_reducible apply kept_ite1
    | with_reducible apply kept_ite2
    | with_reducible apply kept_ite
    | with_reducible refine kept_fst (by assumption) ?_
    | with_reducible refine kept_snd (by assumption) ?_
    | extract_lets
    | split
    | fail_if_no_progress refine kept_mk ?_ rfl rfl
    | dsimp only
    | dsimp +zetaDelta only

theorem onIns_keeps {s : State} {c op : Nat} {act : State → Round → List Byte → State} (hact : ∀ u0 u1 u2, Kept wq wc (u0) → Kept wq wc (act u0 u1 u2))
    (hK : Kept wq wc s) :
    Kept wq wc (onIns s c op act) := by
  unfold onIns
  repeat' first
    | with_reducible assumption
    | with_reducible intro _
    | with_reducible apply heldIns_keeps
    | with_reducible apply setRound_keeps
    | with_reducible apply roundFault_keeps
    | with_reducible apply failRound_keeps
    | with_reducible apply hact
    | with_reducible apply kept_ite
    | with_reducible refine kept_fst (by assumption) ?_
    | with_reducible refine kept_snd (by assumption) ?_
    | extract_lets
    | split
    | fail_if_no_progress refine kept_mk ?_ rfl rfl
    | dsimp only
    | dsimp +zetaDelta only

theorem goTo_keeps {s : State} {c pc : Nat} 
    (hK : Kept wq wc s) :
    Kept wq wc (goTo s c pc) := by
  unfold goTo
  repeat' first
    | with_reducible assumption
    | with_reducible intro _
    | with_reducible apply State.setCourier_keeps
    | with_reducible apply kept_ite
    | with_reducible refine kept_fst (by assumption) ?_
    | with_reducible refine kept_snd (by assumption) ?_
    | extract_lets
    | split
    | fail_if_no_progress refine kept_mk ?_ rfl rfl
    | dsimp only
    | dsimp +zetaDelta only

theorem stepPc_keeps {s : State} {c n : Nat} 
    (hK : Kept wq wc s) :
    Kept wq wc (stepPc s c n) := by
  unfold stepPc
  repeat' first
    | with_reducible assumption
    | with_reducible intro _
    | with_reducible apply goTo_keeps
    | with_reducible apply kept_ite
    | with_reducible refine kept_fst (by assumption) ?_
    | with_reducible refine kept_snd (by assumption) ?_
    | extract_lets
    | split
    | fail_if_no_progress refine kept_mk ?_ rfl rfl
    | dsimp only
    | dsimp +zetaDelta only

theorem onWait_keeps {s : State} {c : Nat} {act : State → Round → List Byte → State} (hact : ∀ u0 u1 u2, Kept wq wc (u0) → Kept wq wc (act u0 u1 u2))
    (hK : Kept wq wc s) :
    Kept wq wc (onWait s c act) := by
  unfold onWait
  repeat' first
    | with_reducible assumption
    | with_reducible intro _
    | with_reducible apply hact
    | with_reducible apply kept_ite
    | with_reducible refine kept_fst (by assumption) ?_
    | with_reducible refine kept_snd (by assumption) ?_
    | extract_lets
    | split
    | fail_if_no_progress refine kept_mk ?_ rfl rfl
    | dsimp only
    | dsimp +zetaDelta only

theorem stopRound_keeps {s : State} {c : Nat} 
    (hK : Kept wq wc s) :
    Kept wq wc (stopRound s c) := by
  unfold stopRound
  repeat' first
    | with_reducible assumption
    | with_reducible intro _
    | with_reducible apply State.setCourier_keeps
    | with_reducible apply failRound_keeps
    | with_reducible apply kept_ite
    | with_reducible refine kept_fst (by assumption) ?_
    | with_reducible refine kept_snd (by assumption) ?_
    | extract_lets
    | split
    | fail_if_no_progress refine kept_mk ?_ rfl rfl
    | dsimp only
    | dsimp +zetaDelta only

theorem stopStep_keeps {s : State} {c : Nat} 
    (hK : Kept wq wc s) :
    Kept wq wc (stopStep s c) := by
  unfold stopStep
  repeat' first
    | with_reducible assumption
    | with_reducible intro _
    | with_reducible apply failRound_keeps
    | with_reducible apply opCount_keeps
    | with_reducible apply State.setCourier_keeps
    | with_reducible apply kept_ite
    | with_reducible refine kept_fst (by assumption) ?_
    | with_reducible refine kept_snd (by assumption) ?_
    | extract_lets
    | split
    | fail_if_no_progress refine kept_mk ?_ rfl rfl
    | dsimp only
    | dsimp +zetaDelta only

theorem actCourierAbort_keeps {s : State} {c : Nat} 
    (hK : Kept wq wc s) :
    Kept wq wc (actCourierAbort s c) := by
  unfold actCourierAbort
  repeat' first
    | with_reducible assumption
    | with_reducible intro _
    | with_reducible apply failRound_keeps
    | with_reducible apply stopRound_keeps
    | with_reducible apply kept_ite
    | with_reducible refine kept_fst (by assumption) ?_
    | with_reducible refine kept_snd (by assumption) ?_
    | extract_lets
    | split
    | fail_if_no_progress refine kept_mk ?_ rfl rfl
    | dsimp only
    | dsimp +zetaDelta only

theorem actCourierResume_keeps {s : State} {c : Nat} 
    (hK : Kept wq wc s) :
    Kept wq wc (actCourierResume s c) := by
  unfold actCourierResume
  repeat' first
    | with_reducible assumption
    | with_reducible intro _
    | with_reducible apply State.setCourier_keeps
    | with_reducible apply kept_ite
    | with_reducible refine kept_fst (by assumption) ?_
    | with_reducible refine kept_snd (by assumption) ?_
    | extract_lets
    | split
    | fail_if_no_progress refine kept_mk ?_ rfl rfl
    | dsimp only
    | dsimp +zetaDelta only

theorem failQueued_keeps {s : State} {l : List Nat} 
    (hK : Kept wq wc s) :
    Kept wq wc (failQueued s l) := by
  induction l generalizing s with
  | nil =>
    unfold failQueued
    repeat' first
      | with_reducible assumption
      | with_reducible intro _
      | with_reducible apply opFail_keeps
      | with_reducible apply ih
      | with_reducible apply kept_ite
      | with_reducible refine kept_fst (by assumption) ?_
      | with_reducible refine kept_snd (by assumption) ?_
      | extract_lets
      | split
      | fail_if_no_progress refine kept_mk ?_ rfl rfl
      | dsimp only
      | dsimp +zetaDelta only
  | cons e t ih =>
    unfold failQueued
    repeat' first
      | with_reducible assumption
      | with_reducible intro _
      | with_reducible apply opFail_keeps
      | with_reducible apply ih
      | with_reducible apply kept_ite
      | with_reducible refine kept_fst (by assumption) ?_
      | with_reducible refine kept_snd (by assumption) ?_
      | extract_lets
      | split
      | fail_if_no_progress refine kept_mk ?_ rfl rfl
      | dsimp only
      | dsimp +zetaDelta only

theorem actCourierReset_keeps {s : State} {c : Nat} 
    (hK : Kept wq wc s) :
    Kept wq wc (actCourierReset s c) := by
  unfold actCourierReset
  repeat' first
    | with_reducible assumption
    | with_reducible intro _
    | with_reducible apply failRound_keeps
    | with_reducible apply stopRound_keeps
    | with_reducible apply failQueued_keeps
    | with_reducible apply State.setCourier_keeps
    | with_reducible apply kept_ite
    | with_reducible refine kept_fst (by assumption) ?_
    | with_reducible refine kept_snd (by assumption) ?_
    | extract_lets
    | split
    | fail_if_no_progress refine kept_mk ?_ rfl rfl
    | dsimp only
    | dsimp +zetaDelta only

theorem actCourierCtrl_keeps {s : State} {c v : Nat} 
    (hK : Kept wq wc s) :
    Kept wq wc (actCourierCtrl s c v) := by
  unfold actCourierCtrl
  repeat' first
    | with_reducible assumption
    | with_reducible intro _
    | with_reducible apply actCourierReset_keeps
    | with_reducible apply actCourierAbort_keeps
    | with_reducible apply actCourierResume_keeps
    | with_reducible apply kept_ite
    | with_reducible refine kept_fst (by assumption) ?_
    | with_reducible refine kept_snd (by assumption) ?_
    | extract_lets
    | split
    | fail_if_no_progress refine kept_mk ?_ rfl rfl
    | dsimp only
    | dsimp +zetaDelta only

theorem actCourierBind_keeps {s : State} {m c v : Nat} 
    (hK : Kept wq wc s) :
    Kept wq wc (actCourierBind s m c v) := by
  unfold actCourierBind
  repeat' first
    | with_reducible assumption
    | with_reducible intro _
    | with_reducible apply State.setCourier_keeps
    | with_reducible apply rwlDenied_keeps
    | with_reducible apply kept_ite
    | with_reducible refine kept_fst (by assumption) ?_
    | with_reducible refine kept_snd (by assumption) ?_
    | extract_lets
    | split
    | fail_if_no_progress refine kept_mk ?_ rfl rfl
    | dsimp only
    | dsimp +zetaDelta only

/-! ### Fabric -/

theorem maintSend_keeps {s : State} {n : Nat} {x : Sent} 
    (hK : Kept wq wc s) :
    Kept wq wc (maintSend s n x) := by
  unfold maintSend
  repeat' first
    | with_reducible assumption
    | with_reducible intro _
    | with_reducible apply linkSend_keeps
    | with_reducible apply kept_ite
    | with_reducible refine kept_fst (by assumption) ?_
    | with_reducible refine kept_snd (by assumption) ?_
    | extract_lets
    | split
    | fail_if_no_progress refine kept_mk ?_ rfl rfl
    | dsimp only
    | dsimp +zetaDelta only

theorem maintSendAll_keeps {s : State} {l : List (Nat × Sent)} 
    (hK : Kept wq wc s) :
    Kept wq wc (maintSendAll s l) := by
  unfold maintSendAll
  repeat' first
    | with_reducible assumption
    | with_reducible intro _
    | with_reducible apply maintSend_keeps
    | with_reducible apply kept_foldl
    | with_reducible apply kept_foldl1
    | with_reducible apply kept_foldl2
    | with_reducible apply kept_ite
    | with_reducible refine kept_fst (by assumption) ?_
    | with_reducible refine kept_snd (by assumption) ?_
    | extract_lets
    | split
    | fail_if_no_progress refine kept_mk ?_ rfl rfl
    | dsimp only
    | dsimp +zetaDelta only

theorem dropPacket_keeps {s : State} 
    (hK : Kept wq wc s) :
    Kept wq wc (dropPacket s) := by
  unfold dropPacket
  repeat' first
    | with_reducible assumption
    | with_reducible intro _
    | with_reducible apply kept_ite
    | with_reducible refine kept_fst (by assumption) ?_
    | with_reducible refine kept_snd (by assumption) ?_
    | extract_lets
    | split
    | fail_if_no_progress refine kept_mk ?_ rfl rfl
    | dsimp only
    | dsimp +zetaDelta only

theorem sendDiscovers_keeps {s : State} 
    (hK : Kept wq wc s) :
    Kept wq wc (sendDiscovers s) := by
  unfold sendDiscovers
  repeat' first
    | with_reducible assumption
    | with_reducible intro _
    | with_reducible apply maintSendAll_keeps
    | with_reducible apply kept_ite
    | with_reducible refine kept_fst (by assumption) ?_
    | with_reducible refine kept_snd (by assumption) ?_
    | extract_lets
    | split
    | fail_if_no_progress refine kept_mk ?_ rfl rfl
    | dsimp only
    | dsimp +zetaDelta only

theorem floodOn_keeps {s : State} {ok : Nat → Bool} {but : Option Nat} {f : Nat → Sent} 
    (hK : Kept wq wc s) :
    Kept wq wc (floodOn s ok but f) := by
  unfold floodOn
  repeat' first
    | with_reducible assumption
    | with_reducible intro _
    | with_reducible apply maintSendAll_keeps
    | with_reducible apply kept_ite
    | with_reducible refine kept_fst (by assumption) ?_
    | with_reducible refine kept_snd (by assumption) ?_
    | extract_lets
    | split
    | fail_if_no_progress refine kept_mk ?_ rfl rfl
    | dsimp only
    | dsimp +zetaDelta only

theorem takeFlood_keeps {s : State} 
    (hK : Kept wq wc s) :
    Kept wq wc (takeFlood s).2 := by
  unfold takeFlood
  repeat' first
    | with_reducible assumption
    | with_reducible intro _
    | with_reducible apply kept_ite1
    | with_reducible apply kept_ite2
    | with_reducible apply kept_ite
    | with_reducible refine kept_fst (by assumption) ?_
    | with_reducible refine kept_snd (by assumption) ?_
    | extract_lets
    | split
    | fail_if_no_progress refine kept_mk ?_ rfl rfl
    | dsimp only
    | dsimp +zetaDelta only

theorem seenFlood_keeps {s : State} {kind origin seq : Nat} 
    (hK : Kept wq wc s) :
    Kept wq wc (seenFlood s kind origin seq).2 := by
  unfold seenFlood
  repeat' first
    | with_reducible assumption
    | with_reducible intro _
    | with_reducible apply kept_ite1
    | with_reducible apply kept_ite2
    | with_reducible apply kept_ite
    | with_reducible refine kept_fst (by assumption) ?_
    | with_reducible refine kept_snd (by assumption) ?_
    | extract_lets
    | split
    | fail_if_no_progress refine kept_mk ?_ rfl rfl
    | dsimp only
    | dsimp +zetaDelta only

theorem floodRoster_keeps {s : State} 
    (hK : Kept wq wc s) :
    Kept wq wc (floodRoster s) := by
  unfold floodRoster
  repeat' first
    | with_reducible assumption
    | with_reducible intro _
    | with_reducible apply takeFlood_keeps
    | with_reducible apply seenFlood_keeps
    | with_reducible apply floodOn_keeps
    | with_reducible apply kept_ite
    | with_reducible refine kept_fst (by assumption) ?_
    | with_reducible refine kept_snd (by assumption) ?_
    | extract_lets
    | split
    | fail_if_no_progress refine kept_mk ?_ rfl rfl
    | dsimp only
    | dsimp +zetaDelta only

theorem floodLinks_keeps {s : State} 
    (hK : Kept wq wc s) :
    Kept wq wc (floodLinks s) := by
  unfold floodLinks
  repeat' first
    | with_reducible assumption
    | with_reducible intro _
    | with_reducible apply takeFlood_keeps
    | with_reducible apply seenFlood_keeps
    | with_reducible apply floodOn_keeps
    | with_reducible apply kept_ite
    | with_reducible refine kept_fst (by assumption) ?_
    | with_reducible refine kept_snd (by assumption) ?_
    | extract_lets
    | split
    | fail_if_no_progress refine kept_mk ?_ rfl rfl
    | dsimp only
    | dsimp +zetaDelta only

theorem timeSelect_keeps {s : State} 
    (hK : Kept wq wc s) :
    Kept wq wc (timeSelect s) := by
  unfold timeSelect
  repeat' first
    | with_reducible assumption
    | with_reducible intro _
    | with_reducible apply kept_foldl
    | with_reducible apply kept_foldl1
    | with_reducible apply kept_foldl2
    | with_reducible apply kept_ite
    | with_reducible refine kept_fst (by assumption) ?_
    | with_reducible refine kept_snd (by assumption) ?_
    | extract_lets
    | split
    | fail_if_no_progress refine kept_mk ?_ rfl rfl
    | dsimp only
    | dsimp +zetaDelta only

theorem setStage_keeps {s : State} {n : Nat} 
    (hK : Kept wq wc s) :
    Kept wq wc (setStage s n) := by
  unfold setStage
  repeat' first
    | with_reducible assumption
    | with_reducible intro _
    | with_reducible apply sendDiscovers_keeps
    | with_reducible apply sendMsix_keeps
    | with_reducible apply kept_ite
    | with_reducible refine kept_fst (by assumption) ?_
    | with_reducible refine kept_snd (by assumption) ?_
    | extract_lets
    | split
    | fail_if_no_progress refine kept_mk ?_ rfl rfl
    | dsimp only
    | dsimp +zetaDelta only

theorem retestMask_keeps {s : State} 
    (hK : Kept wq wc s) :
    Kept wq wc (retestMask s) := by
  unfold retestMask
  repeat' first
    | with_reducible assumption
    | with_reducible intro _
    | with_reducible apply setStage_keeps
    | with_reducible apply kept_ite
    | with_reducible refine kept_fst (by assumption) ?_
    | with_reducible refine kept_snd (by assumption) ?_
    | extract_lets
    | split
    | fail_if_no_progress refine kept_mk ?_ rfl rfl
    | dsimp only
    | dsimp +zetaDelta only

theorem endS4_keeps {s : State} 
    (hK : Kept wq wc s) :
    Kept wq wc (endS4 s) := by
  unfold endS4
  repeat' first
    | with_reducible assumption
    | with_reducible intro _
    | with_reducible apply setStage_keeps
    | with_reducible apply kept_ite
    | with_reducible refine kept_fst (by assumption) ?_
    | with_reducible refine kept_snd (by assumption) ?_
    | extract_lets
    | split
    | fail_if_no_progress refine kept_mk ?_ rfl rfl
    | dsimp only
    | dsimp +zetaDelta only

theorem portChanged_keeps {s : State} 
    (hK : Kept wq wc s) :
    Kept wq wc (portChanged s) := by
  unfold portChanged
  repeat' first
    | with_reducible assumption
    | with_reducible intro _
    | with_reducible apply retestMask_keeps
    | with_reducible apply timeSelect_keeps
    | with_reducible apply floodLinks_keeps
    | with_reducible apply kept_ite
    | with_reducible refine kept_fst (by assumption) ?_
    | with_reducible refine kept_snd (by assumption) ?_
    | extract_lets
    | split
    | fail_if_no_progress refine kept_mk ?_ rfl rfl
    | dsimp only
    | dsimp +zetaDelta only

theorem nackSource_keeps {s : State} {p : Packet} {status : Nat} 
    (hK : Kept wq wc s) :
    Kept wq wc (nackSource s p status) := by
  unfold nackSource
  repeat' first
    | with_reducible assumption
    | with_reducible intro _
    | with_reducible apply reqReply_keeps
    | with_reducible apply portSend_keeps
    | with_reducible apply dropPacket_keeps
    | with_reducible apply kept_ite
    | with_reducible refine kept_fst (by assumption) ?_
    | with_reducible refine kept_snd (by assumption) ?_
    | extract_lets
    | split
    | fail_if_no_progress refine kept_mk ?_ rfl rfl
    | dsimp only
    | dsimp +zetaDelta only

theorem freeSources_keeps {s : State} {l : List LinkItem} 
    (hK : Kept wq wc s) :
    Kept wq wc (freeSources s l) := by
  unfold freeSources
  repeat' first
    | with_reducible assumption
    | with_reducible intro _
    | with_reducible apply linkOwe_keeps
    | with_reducible apply kept_foldl
    | with_reducible apply kept_foldl1
    | with_reducible apply kept_foldl2
    | with_reducible apply kept_ite
    | with_reducible refine kept_fst (by assumption) ?_
    | with_reducible refine kept_snd (by assumption) ?_
    | extract_lets
    | split
    | fail_if_no_progress refine kept_mk ?_ rfl rfl
    | dsimp only
    | dsimp +zetaDelta only

theorem portDown_keeps {s : State} {n cause : Nat} 
    (hK : Kept wq wc s) :
    Kept wq wc (portDown s n cause) := by
  unfold portDown
  repeat' first
    | with_reducible assumption
    | with_reducible intro _
    | with_reducible apply freeSources_keeps
    | with_reducible apply State.setPort_keeps
    | with_reducible apply nackSource_keeps
    | with_reducible apply portChanged_keeps
    | with_reducible apply cperAdd_keeps
    | with_reducible apply kept_foldl
    | with_reducible apply kept_foldl1
    | with_reducible apply kept_foldl2
    | with_reducible apply kept_ite
    | with_reducible refine kept_fst (by assumption) ?_
    | with_reducible refine kept_snd (by assumption) ?_
    | extract_lets
    | split
    | fail_if_no_progress refine kept_mk ?_ rfl rfl
    | dsimp only
    | dsimp +zetaDelta only

theorem portTrain_keeps {s : State} {n : Nat} 
    (hK : Kept wq wc s) :
    Kept wq wc (portTrain s n) := by
  unfold portTrain
  repeat' first
    | with_reducible assumption
    | with_reducible intro _
    | with_reducible apply portDown_keeps
    | with_reducible apply portChanged_keeps
    | with_reducible apply State.setPort_keeps
    | with_reducible apply kept_ite
    | with_reducible refine kept_fst (by assumption) ?_
    | with_reducible refine kept_snd (by assumption) ?_
    | extract_lets
    | split
    | fail_if_no_progress refine kept_mk ?_ rfl rfl
    | dsimp only
    | dsimp +zetaDelta only

theorem portJudge_keeps {s : State} {n : Nat} 
    (hK : Kept wq wc s) :
    Kept wq wc (portJudge s n) := by
  unfold portJudge
  repeat' first
    | with_reducible assumption
    | with_reducible intro _
    | with_reducible apply State.setPort_keeps
    | with_reducible apply portChanged_keeps
    | with_reducible apply kept_ite
    | with_reducible refine kept_fst (by assumption) ?_
    | with_reducible refine kept_snd (by assumption) ?_
    | extract_lets
    | split
    | fail_if_no_progress refine kept_mk ?_ rfl rfl
    | dsimp only
    | dsimp +zetaDelta only

theorem actPortCtrl_keeps {s : State} {n v : Nat} 
    (hK : Kept wq wc s) :
    Kept wq wc (actPortCtrl s n v) := by
  unfold actPortCtrl
  repeat' first
    | with_reducible assumption
    | with_reducible intro _
    | with_reducible apply State.setPort_keeps
    | with_reducible apply portDown_keeps
    | with_reducible apply portTrain_keeps
    | with_reducible apply kept_ite
    | with_reducible refine kept_fst (by assumption) ?_
    | with_reducible refine kept_snd (by assumption) ?_
    | extract_lets
    | split
    | fail_if_no_progress refine kept_mk ?_ rfl rfl
    | dsimp only
    | dsimp +zetaDelta only

theorem replayAll_keeps {s : State} {n : Nat} 
    (hK : Kept wq wc s) :
    Kept wq wc (replayAll s n) := by
  unfold replayAll
  repeat' first
    | with_reducible assumption
    | with_reducible intro _
    | with_reducible apply State.setPort_keeps
    | with_reducible apply State.sendAll_keeps
    | with_reducible apply portDown_keeps
    | with_reducible apply kept_ite
    | with_reducible refine kept_fst (by assumption) ?_
    | with_reducible refine kept_snd (by assumption) ?_
    | extract_lets
    | split
    | fail_if_no_progress refine kept_mk ?_ rfl rfl
    | dsimp only
    | dsimp +zetaDelta only

theorem holdWiring_keeps {l : List Roster} {placed : List (W64 × Coord)} {own : Coord} {s : State} {n : Nat} 
    (hK : Kept wq wc s) :
    Kept wq wc (holdWiring l placed own s n) := by
  unfold holdWiring
  repeat' first
    | with_reducible assumption
    | with_reducible intro _
    | with_reducible apply portJudge_keeps
    | with_reducible apply State.setPort_keeps
    | with_reducible apply kept_ite
    | with_reducible refine kept_fst (by assumption) ?_
    | with_reducible refine kept_snd (by assumption) ?_
    | extract_lets
    | split
    | fail_if_no_progress refine kept_mk ?_ rfl rfl
    | dsimp only
    | dsimp +zetaDelta only

theorem settleModule_keeps {s : State} 
    (hK : Kept wq wc s) :
    Kept wq wc (settleModule s) := by
  unfold settleModule
  repeat' first
    | with_reducible assumption
    | with_reducible intro _
    | with_reducible apply holdWiring_keeps
    | with_reducible apply endS4_keeps
    | with_reducible apply sendDiscovers_keeps
    | with_reducible apply timeSelect_keeps
    | with_reducible apply floodLinks_keeps
    | with_reducible apply kept_foldl
    | with_reducible apply kept_foldl1
    | with_reducible apply kept_foldl2
    | with_reducible apply kept_ite
    | with_reducible refine kept_fst (by assumption) ?_
    | with_reducible refine kept_snd (by assumption) ?_
    | extract_lets
    | split
    | fail_if_no_progress refine kept_mk ?_ rfl rfl
    | dsimp only
    | dsimp +zetaDelta only

theorem fwdApply_keeps {s : State} {f : FwdAddr} 
    (hK : Kept wq wc s) :
    Kept wq wc (fwdApply s f) := by
  unfold fwdApply
  repeat' first
    | with_reducible assumption
    | with_reducible intro _
    | with_reducible apply kept_ite
    | with_reducible refine kept_fst (by assumption) ?_
    | with_reducible refine kept_snd (by assumption) ?_
    | extract_lets
    | split
    | fail_if_no_progress refine kept_mk ?_ rfl rfl
    | dsimp only
    | dsimp +zetaDelta only

theorem routeFlip_keeps {s : State} 
    (hK : Kept wq wc s) :
    Kept wq wc (routeFlip s) := by
  unfold routeFlip
  repeat' first
    | with_reducible assumption
    | with_reducible intro _
    | with_reducible apply kept_ite
    | with_reducible refine kept_fst (by assumption) ?_
    | with_reducible refine kept_snd (by assumption) ?_
    | extract_lets
    | split
    | fail_if_no_progress refine kept_mk ?_ rfl rfl
    | dsimp only
    | dsimp +zetaDelta only

theorem actRouteFlip_keeps {s : State} {m : Nat} 
    (hK : Kept wq wc s) :
    Kept wq wc (actRouteFlip s m) := by
  unfold actRouteFlip
  repeat' first
    | with_reducible assumption
    | with_reducible intro _
    | with_reducible apply rwlDenied_keeps
    | with_reducible apply routeFlip_keeps
    | with_reducible apply kept_ite
    | with_reducible refine kept_fst (by assumption) ?_
    | with_reducible refine kept_snd (by assumption) ?_
    | extract_lets
    | split
    | fail_if_no_progress refine kept_mk ?_ rfl rfl
    | dsimp only
    | dsimp +zetaDelta only

theorem announceFwd_keeps {s : State} {f : Nat} {remove : Bool} 
    (hK : Kept wq wc s) :
    Kept wq wc (announceFwd s f remove) := by
  unfold announceFwd
  repeat' first
    | with_reducible assumption
    | with_reducible intro _
    | with_reducible apply fwdApply_keeps
    | with_reducible apply seenFlood_keeps
    | with_reducible apply floodOn_keeps
    | with_reducible apply kept_ite
    | with_reducible refine kept_fst (by assumption) ?_
    | with_reducible refine kept_snd (by assumption) ?_
    | extract_lets
    | split
    | fail_if_no_progress refine kept_mk ?_ rfl rfl
    | dsimp only
    | dsimp +zetaDelta only

theorem actTakeover_keeps {s : State} {m v : Nat} 
    (hK : Kept wq wc s) :
    Kept wq wc (actTakeover s m v) := by
  unfold actTakeover
  repeat' first
    | with_reducible assumption
    | with_reducible intro _
    | with_reducible apply rwlDenied_keeps
    | with_reducible apply announceFwd_keeps
    | with_reducible apply kept_ite
    | with_reducible refine kept_fst (by assumption) ?_
    | with_reducible refine kept_snd (by assumption) ?_
    | extract_lets
    | split
    | fail_if_no_progress refine kept_mk ?_ rfl rfl
    | dsimp only
    | dsimp +zetaDelta only

theorem timeSend_keeps {s : State} {n : Nat} {x : Sent} 
    (hK : Kept wq wc s) :
    Kept wq wc (timeSend s n x) := by
  unfold timeSend
  repeat' first
    | with_reducible assumption
    | with_reducible intro _
    | with_reducible apply linkSend_keeps
    | with_reducible apply kept_ite
    | with_reducible refine kept_fst (by assumption) ?_
    | with_reducible refine kept_snd (by assumption) ?_
    | extract_lets
    | split
    | fail_if_no_progress refine kept_mk ?_ rfl rfl
    | dsimp only
    | dsimp +zetaDelta only

/-! ### FloorPlan -/

theorem buildPage_keeps {s : State} {t : Nat} 
    (hK : Kept wq wc s) :
    Kept wq wc (buildPage s t) := by
  unfold buildPage
  repeat' first
    | with_reducible assumption
    | with_reducible intro _
    | with_reducible apply State.setTile_keeps
    | with_reducible apply kept_foldl
    | with_reducible apply kept_foldl1
    | with_reducible apply kept_foldl2
    | with_reducible apply kept_ite
    | with_reducible refine kept_fst (by assumption) ?_
    | with_reducible refine kept_snd (by assumption) ?_
    | extract_lets
    | split
    | fail_if_no_progress refine kept_mk ?_ rfl rfl
    | dsimp only
    | dsimp +zetaDelta only

theorem clearRow_keeps {s : State} {t k : Nat} 
    (hK : Kept wq wc s) :
    Kept wq wc (clearRow s t k) := by
  unfold clearRow
  repeat' first
    | with_reducible assumption
    | with_reducible intro _
    | with_reducible apply memClear_keeps
    | with_reducible apply kept_foldl
    | with_reducible apply kept_foldl1
    | with_reducible apply kept_foldl2
    | with_reducible apply kept_ite
    | with_reducible refine kept_fst (by assumption) ?_
    | with_reducible refine kept_snd (by assumption) ?_
    | extract_lets
    | split
    | fail_if_no_progress refine kept_mk ?_ rfl rfl
    | dsimp only
    | dsimp +zetaDelta only

theorem moveQueues_keeps {s : State} {t k k' : Nat} 
    (hK : Kept wq wc s) :
    Kept wq wc (moveQueues s t k k') := by
  unfold moveQueues
  repeat' first
    | with_reducible assumption
    | with_reducible intro _
    | with_reducible apply State.setClu_keeps
    | with_reducible apply kept_foldl
    | with_reducible apply kept_foldl1
    | with_reducible apply kept_foldl2
    | with_reducible apply kept_ite
    | with_reducible refine kept_fst (by assumption) ?_
    | with_reducible refine kept_snd (by assumption) ?_
    | extract_lets
    | split
    | fail_if_no_progress refine kept_mk ?_ rfl rfl
    | dsimp only
    | dsimp +zetaDelta only

theorem reviveRow_keeps {s : State} {t r : Nat} 
    (hK : Kept wq wc s) :
    Kept wq wc (reviveRow s t r) := by
  unfold reviveRow
  repeat' first
    | with_reducible assumption
    | with_reducible intro _
    | with_reducible apply kept_foldl
    | with_reducible apply kept_foldl1
    | with_reducible apply kept_foldl2
    | with_reducible apply kept_ite
    | with_reducible refine kept_fst (by assumption) ?_
    | with_reducible refine kept_snd (by assumption) ?_
    | extract_lets
    | split
    | fail_if_no_progress refine kept_mk ?_ rfl rfl
    | dsimp only
    | dsimp +zetaDelta only

theorem recordMove_keeps {s : State} {t r k : Nat} 
    (hK : Kept wq wc s) :
    Kept wq wc (recordMove s t r k) := by
  unfold recordMove
  repeat' first
    | with_reducible assumption
    | with_reducible intro _
    | with_reducible apply kept_ite
    | with_reducible refine kept_fst (by assumption) ?_
    | with_reducible refine kept_snd (by assumption) ?_
    | extract_lets
    | split
    | fail_if_no_progress refine kept_mk ?_ rfl rfl
    | dsimp only
    | dsimp +zetaDelta only

theorem moveRow_keeps {s : State} {t r k k' : Nat} 
    (hK : Kept wq wc s) :
    Kept wq wc (moveRow s t r k k') := by
  unfold moveRow
  repeat' first
    | with_reducible assumption
    | with_reducible intro _
    | with_reducible apply reviveRow_keeps
    | with_reducible apply moveQueues_keeps
    | with_reducible apply clearRow_keeps
    | with_reducible apply recordMove_keeps
    | with_reducible apply kept_ite
    | with_reducible refine kept_fst (by assumption) ?_
    | with_reducible refine kept_snd (by assumption) ?_
    | extract_lets
    | split
    | fail_if_no_progress refine kept_mk ?_ rfl rfl
    | dsimp only
    | dsimp +zetaDelta only

theorem flipForwarding_keeps {s : State} {t : Nat} 
    (hK : Kept wq wc s) :
    Kept wq wc (flipForwarding s t) := by
  unfold flipForwarding
  repeat' first
    | with_reducible assumption
    | with_reducible intro _
    | with_reducible apply moveRow_keeps
    | with_reducible apply buildPage_keeps
    | with_reducible apply State.setTile_keeps
    | with_reducible apply kept_foldl
    | with_reducible apply kept_foldl1
    | with_reducible apply kept_foldl2
    | with_reducible apply kept_ite
    | with_reducible refine kept_fst (by assumption) ?_
    | with_reducible refine kept_snd (by assumption) ?_
    | extract_lets
    | split
    | fail_if_no_progress refine kept_mk ?_ rfl rfl
    | dsimp only
    | dsimp +zetaDelta only

theorem flipChecked_keeps {s : State} {t : Nat} 
    (hK : Kept wq wc s) :
    Kept wq wc (flipChecked s t).1 := by
  unfold flipChecked
  repeat' first
    | with_reducible assumption
    | with_reducible intro _
    | with_reducible apply flipForwarding_keeps
    | with_reducible apply denyAdd_keeps
    | with_reducible apply kept_ite1
    | with_reducible apply kept_ite2
    | with_reducible apply kept_ite
    | with_reducible refine kept_fst (by assumption) ?_
    | with_reducible refine kept_snd (by assumption) ?_
    | extract_lets
    | split
    | fail_if_no_progress refine kept_mk ?_ rfl rfl
    | dsimp only
    | dsimp +zetaDelta only

theorem moveTo_keeps {s : State} {t r k : Nat} 
    (hK : Kept wq wc s) :
    Kept wq wc (moveTo s t r k).1 := by
  unfold moveTo
  repeat' first
    | with_reducible assumption
    | with_reducible intro _
    | with_reducible apply flipChecked_keeps
    | with_reducible apply State.setTile_keeps
    | with_reducible apply kept_ite1
    | with_reducible apply kept_ite2
    | with_reducible apply kept_ite
    | with_reducible refine kept_fst (by assumption) ?_
    | with_reducible refine kept_snd (by assumption) ?_
    | extract_lets
    | split
    | fail_if_no_progress refine kept_mk ?_ rfl rfl
    | dsimp only
    | dsimp +zetaDelta only

theorem imageRowMoves_keeps {s : State} 
    (hK : Kept wq wc s) :
    Kept wq wc (imageRowMoves s) := by
  unfold imageRowMoves
  repeat' first
    | with_reducible assumption
    | with_reducible intro _
    | with_reducible apply moveTo_keeps
    | with_reducible apply kept_foldl
    | with_reducible apply kept_foldl1
    | with_reducible apply kept_foldl2
    | with_reducible apply kept_ite
    | with_reducible refine kept_fst (by assumption) ?_
    | with_reducible refine kept_snd (by assumption) ?_
    | extract_lets
    | split
    | fail_if_no_progress refine kept_mk ?_ rfl rfl
    | dsimp only
    | dsimp +zetaDelta only

theorem failAll_keeps {s : State} {l : List Nat} {status detail : Nat} 
    (hK : Kept wq wc s) :
    Kept wq wc (failAll s l status detail) := by
  induction l generalizing s status detail with
  | nil =>
    unfold failAll
    repeat' first
      | with_reducible assumption
      | with_reducible intro _
      | with_reducible apply opFail_keeps
      | with_reducible apply ih
      | with_reducible apply kept_ite
      | with_reducible refine kept_fst (by assumption) ?_
      | with_reducible refine kept_snd (by assumption) ?_
      | extract_lets
      | split
      | fail_if_no_progress refine kept_mk ?_ rfl rfl
      | dsimp only
      | dsimp +zetaDelta only
  | cons e t ih =>
    unfold failAll
    repeat' first
      | with_reducible assumption
      | with_reducible intro _
      | with_reducible apply opFail_keeps
      | with_reducible apply ih
      | with_reducible apply kept_ite
      | with_reducible refine kept_fst (by assumption) ?_
      | with_reducible refine kept_snd (by assumption) ?_
      | extract_lets
      | split
      | fail_if_no_progress refine kept_mk ?_ rfl rfl
      | dsimp only
      | dsimp +zetaDelta only

theorem rehome_keeps {s : State} {p h h' : Nat} 
    (hK : Kept wq wc s) :
    Kept wq wc (rehome s p h h') := by
  unfold rehome
  repeat' first
    | with_reducible assumption
    | with_reducible intro _
    | with_reducible apply kept_ite
    | with_reducible refine kept_fst (by assumption) ?_
    | with_reducible refine kept_snd (by assumption) ?_
    | extract_lets
    | split
    | fail_if_no_progress refine kept_mk ?_ rfl rfl
    | dsimp only
    | dsimp +zetaDelta only

theorem retireCluster_keeps {s : State} {p : Nat} 
    (hK : Kept wq wc s) :
    Kept wq wc (retireCluster s p) := by
  unfold retireCluster
  repeat' first
    | with_reducible assumption
    | with_reducible intro _
    | with_reducible apply rehome_keeps
    | with_reducible apply State.setClu_keeps
    | with_reducible apply failAll_keeps
    | with_reducible apply State.setLclu_keeps
    | with_reducible apply buildPage_keeps
    | with_reducible apply kept_ite
    | with_reducible refine kept_fst (by assumption) ?_
    | with_reducible refine kept_snd (by assumption) ?_
    | extract_lets
    | split
    | fail_if_no_progress refine kept_mk ?_ rfl rfl
    | dsimp only
    | dsimp +zetaDelta only

theorem buildFloorPlan_keeps {s : State} 
    (hK : Kept wq wc s) :
    Kept wq wc (buildFloorPlan s) := by
  unfold buildFloorPlan
  repeat' first
    | with_reducible assumption
    | with_reducible intro _
    | with_reducible apply State.setTile_keeps
    | with_reducible apply buildPage_keeps
    | with_reducible apply kept_foldl
    | with_reducible apply kept_foldl1
    | with_reducible apply kept_foldl2
    | with_reducible apply kept_ite
    | with_reducible refine kept_fst (by assumption) ?_
    | with_reducible refine kept_snd (by assumption) ?_
    | extract_lets
    | split
    | fail_if_no_progress refine kept_mk ?_ rfl rfl
    | dsimp only
    | dsimp +zetaDelta only

theorem actForwardingFlip_keeps {s : State} {t m : Nat} 
    (hK : Kept wq wc s) :
    Kept wq wc (actForwardingFlip s t m) := by
  unfold actForwardingFlip
  repeat' first
    | with_reducible assumption
    | with_reducible intro _
    | with_reducible apply rwlDenied_keeps
    | with_reducible apply flipChecked_keeps
    | with_reducible apply kept_ite
    | with_reducible refine kept_fst (by assumption) ?_
    | with_reducible refine kept_snd (by assumption) ?_
    | extract_lets
    | split
    | fail_if_no_progress refine kept_mk ?_ rfl rfl
    | dsimp only
    | dsimp +zetaDelta only

theorem actRowSwap_keeps {s : State} {t v : Nat} 
    (hK : Kept wq wc s) :
    Kept wq wc (actRowSwap s t v) := by
  unfold actRowSwap
  repeat' first
    | with_reducible assumption
    | with_reducible intro _
    | with_reducible apply State.setTile_keeps
    | with_reducible apply kept_ite
    | with_reducible refine kept_fst (by assumption) ?_
    | with_reducible refine kept_snd (by assumption) ?_
    | extract_lets
    | split
    | fail_if_no_progress refine kept_mk ?_ rfl rfl
    | dsimp only
    | dsimp +zetaDelta only

/-! ### MemService -/

theorem mapStacks_keeps {s : State} {f : StackS → StackS} 
    (hK : Kept wq wc s) :
    Kept wq wc (mapStacks s f) := by
  unfold mapStacks
  repeat' first
    | with_reducible assumption
    | with_reducible intro _
    | with_reducible apply State.setStk_keeps
    | with_reducible apply kept_foldl
    | with_reducible apply kept_foldl1
    | with_reducible apply kept_foldl2
    | with_reducible apply kept_ite
    | with_reducible refine kept_fst (by assumption) ?_
    | with_reducible refine kept_snd (by assumption) ?_
    | extract_lets
    | split
    | fail_if_no_progress refine kept_mk ?_ rfl rfl
    | dsimp only
    | dsimp +zetaDelta only

theorem initRegion_keeps {s : State} {a b : Nat} 
    (hK : Kept wq wc s) :
    Kept wq wc (initRegion s a b) := by
  unfold initRegion
  repeat' first
    | with_reducible assumption
    | with_reducible intro _
    | with_reducible apply mapStacks_keeps
    | with_reducible apply memClear_keeps
    | with_reducible apply kept_ite
    | with_reducible refine kept_fst (by assumption) ?_
    | with_reducible refine kept_snd (by assumption) ?_
    | extract_lets
    | split
    | fail_if_no_progress refine kept_mk ?_ rfl rfl
    | dsimp only
    | dsimp +zetaDelta only

theorem initHbm_keeps {s : State} 
    (hK : Kept wq wc s) :
    Kept wq wc (initHbm s) := by
  unfold initHbm
  repeat' first
    | with_reducible assumption
    | with_reducible intro _
    | with_reducible apply mapStacks_keeps
    | with_reducible apply memClear_keeps
    | with_reducible apply kept_ite
    | with_reducible refine kept_fst (by assumption) ?_
    | with_reducible refine kept_snd (by assumption) ?_
    | extract_lets
    | split
    | fail_if_no_progress refine kept_mk ?_ rfl rfl
    | dsimp only
    | dsimp +zetaDelta only

theorem scrubParcel_keeps {n : Nat} {s : State} {k q : Nat} 
    (hK : Kept wq wc s) :
    Kept wq wc (scrubParcel n s k q) := by
  induction n generalizing s k q with
  | zero =>
    unfold scrubParcel
    repeat' first
      | with_reducible assumption
      | with_reducible intro _
      | with_reducible apply meetCodeword_keeps
      | with_reducible apply State.setStk_keeps
      | with_reducible apply ih
      | with_reducible apply kept_ite
      | with_reducible refine kept_fst (by assumption) ?_
      | with_reducible refine kept_snd (by assumption) ?_
      | extract_lets
      | split
      | fail_if_no_progress refine kept_mk ?_ rfl rfl
      | dsimp only
      | dsimp +zetaDelta only
  | succ n ih =>
    unfold scrubParcel
    repeat' first
      | with_reducible assumption
      | with_reducible intro _
      | with_reducible apply meetCodeword_keeps
      | with_reducible apply State.setStk_keeps
      | with_reducible apply ih
      | with_reducible apply kept_ite
      | with_reducible refine kept_fst (by assumption) ?_
      | with_reducible refine kept_snd (by assumption) ?_
      | extract_lets
      | split
      | fail_if_no_progress refine kept_mk ?_ rfl rfl
      | dsimp only
      | dsimp +zetaDelta only

theorem moveMemRow_keeps {s : State} {k q spare : Nat} 
    (hK : Kept wq wc s) :
    Kept wq wc (moveMemRow s k q spare) := by
  unfold moveMemRow
  repeat' first
    | with_reducible assumption
    | with_reducible intro _
    | with_reducible apply scrubParcel_keeps
    | with_reducible apply cperAdd_keeps
    | with_reducible apply State.setStk_keeps
    | with_reducible apply kept_ite
    | with_reducible refine kept_fst (by assumption) ?_
    | with_reducible refine kept_snd (by assumption) ?_
    | extract_lets
    | split
    | fail_if_no_progress refine kept_mk ?_ rfl rfl
    | dsimp only
    | dsimp +zetaDelta only

theorem retirePage_keeps {s : State} {k q : Nat} 
    (hK : Kept wq wc s) :
    Kept wq wc (retirePage s k q) := by
  unfold retirePage
  repeat' first
    | with_reducible assumption
    | with_reducible intro _
    | with_reducible apply cperAdd_keeps
    | with_reducible apply State.setStk_keeps
    | with_reducible apply buildPage_keeps
    | with_reducible apply kept_ite
    | with_reducible refine kept_fst (by assumption) ?_
    | with_reducible refine kept_snd (by assumption) ?_
    | extract_lets
    | split
    | fail_if_no_progress refine kept_mk ?_ rfl rfl
    | dsimp only
    | dsimp +zetaDelta only

theorem copyRecords_keeps {s : State} 
    (hK : Kept wq wc s) :
    Kept wq wc (copyRecords s) := by
  unfold copyRecords
  repeat' first
    | with_reducible assumption
    | with_reducible intro _
    | with_reducible apply State.setStk_keeps
    | with_reducible apply kept_foldl
    | with_reducible apply kept_foldl1
    | with_reducible apply kept_foldl2
    | with_reducible apply kept_ite
    | with_reducible refine kept_fst (by assumption) ?_
    | with_reducible refine kept_snd (by assumption) ?_
    | extract_lets
    | split
    | fail_if_no_progress refine kept_mk ?_ rfl rfl
    | dsimp only
    | dsimp +zetaDelta only

/-! ### Power -/

theorem requestCaps_keeps {s : State} {minCap peakCap : Nat} 
    (hK : Kept wq wc s) :
    Kept wq wc (requestCaps s minCap peakCap) := by
  unfold requestCaps
  repeat' first
    | with_reducible assumption
    | with_reducible intro _
    | with_reducible apply kept_ite
    | with_reducible refine kept_fst (by assumption) ?_
    | with_reducible refine kept_snd (by assumption) ?_
    | extract_lets
    | split
    | fail_if_no_progress refine kept_mk ?_ rfl rfl
    | dsimp only
    | dsimp +zetaDelta only

theorem actPowerCap_keeps {s : State} {v : Nat} 
    (hK : Kept wq wc s) :
    Kept wq wc (actPowerCap s v) := by
  unfold actPowerCap
  repeat' first
    | with_reducible assumption
    | with_reducible intro _
    | with_reducible apply requestCaps_keeps
    | with_reducible apply kept_ite
    | with_reducible refine kept_fst (by assumption) ?_
    | with_reducible refine kept_snd (by assumption) ?_
    | extract_lets
    | split
    | fail_if_no_progress refine kept_mk ?_ rfl rfl
    | dsimp only
    | dsimp +zetaDelta only

theorem roundFree_keeps {s : State} {a b : Nat} 
    (hK : Kept wq wc s) :
    Kept wq wc (roundFree s a b).2 := by
  unfold roundFree
  repeat' first
    | with_reducible assumption
    | with_reducible intro _
    | with_reducible apply State.takeFree_keeps
    | with_reducible apply kept_ite1
    | with_reducible apply kept_ite2
    | with_reducible apply kept_ite
    | with_reducible refine kept_fst (by assumption) ?_
    | with_reducible refine kept_snd (by assumption) ?_
    | extract_lets
    | split
    | fail_if_no_progress refine kept_mk ?_ rfl rfl
    | dsimp only
    | dsimp +zetaDelta only

theorem coldState_keeps {s : State} (h : Kept wq wc s) :
    Kept wq wc (coldState s) :=
  ⟨h.1, fun _ => ⟨List.Pairwise.nil, fun e he => absurd he (List.not_mem_nil)⟩⟩

theorem thermalTrip_keeps {s : State} {l : List (Nat × Int)} 
    (hK : Kept wq wc s) :
    Kept wq wc (thermalTrip s l) := by
  unfold thermalTrip
  repeat' first
    | with_reducible assumption
    | with_reducible intro _
    | with_reducible apply State.takeFree_keeps
    | with_reducible apply coldState_keeps
    | with_reducible apply kept_ite
    | with_reducible refine kept_fst (by assumption) ?_
    | with_reducible refine kept_snd (by assumption) ?_
    | extract_lets
    | split
    | fail_if_no_progress refine kept_mk ?_ rfl rfl
    | dsimp only
    | dsimp +zetaDelta only

theorem addSample_keeps {s : State} {x : PowerSample} 
    (hK : Kept wq wc s) :
    Kept wq wc (addSample s x) := by
  unfold addSample
  repeat' first
    | with_reducible assumption
    | with_reducible intro _
    | with_reducible apply roundFree_keeps
    | with_reducible apply kept_foldl
    | with_reducible apply kept_foldl1
    | with_reducible apply kept_foldl2
    | with_reducible apply kept_ite
    | with_reducible refine kept_fst (by assumption) ?_
    | with_reducible refine kept_snd (by assumption) ?_
    | extract_lets
    | split
    | fail_if_no_progress refine kept_mk ?_ rfl rfl
    | dsimp only
    | dsimp +zetaDelta only

theorem setTemps_keeps {s : State} {l : List Int} 
    (hK : Kept wq wc s) :
    Kept wq wc (setTemps s l) := by
  unfold setTemps
  repeat' first
    | with_reducible assumption
    | with_reducible intro _
    | with_reducible apply kept_foldl
    | with_reducible apply kept_foldl1
    | with_reducible apply kept_foldl2
    | with_reducible apply kept_ite
    | with_reducible refine kept_fst (by assumption) ?_
    | with_reducible refine kept_snd (by assumption) ?_
    | extract_lets
    | split
    | fail_if_no_progress refine kept_mk ?_ rfl rfl
    | dsimp only
    | dsimp +zetaDelta only

theorem setPwrFlag_keeps {s : State} {bit : Nat} {c : Bool} 
    (hK : Kept wq wc s) :
    Kept wq wc (setPwrFlag s bit c) := by
  unfold setPwrFlag
  repeat' first
    | with_reducible assumption
    | with_reducible intro _
    | with_reducible apply kept_ite
    | with_reducible refine kept_fst (by assumption) ?_
    | with_reducible refine kept_snd (by assumption) ?_
    | extract_lets
    | split
    | fail_if_no_progress refine kept_mk ?_ rfl rfl
    | dsimp only
    | dsimp +zetaDelta only

theorem startInterval_keeps {s : State} {x : PowerSample} {temps : List Int} 
    (hK : Kept wq wc s) :
    Kept wq wc (startInterval s x temps) := by
  unfold startInterval
  repeat' first
    | with_reducible assumption
    | with_reducible intro _
    | with_reducible apply setPwrFlag_keeps
    | with_reducible apply kept_foldl
    | with_reducible apply kept_foldl1
    | with_reducible apply kept_foldl2
    | with_reducible apply kept_ite
    | with_reducible refine kept_fst (by assumption) ?_
    | with_reducible refine kept_snd (by assumption) ?_
    | extract_lets
    | split
    | fail_if_no_progress refine kept_mk ?_ rfl rfl
    | dsimp only
    | dsimp +zetaDelta only

theorem meanDraw_keeps {s : State} (h : Kept wq wc s) :
    Kept wq wc (meanDraw s).2 := by
  unfold meanDraw
  split
  · exact State.takeFree_keeps h
  · exact roundFree_keeps h

/-! ### Quant -/

theorem collectInto_keeps {s : State} {t q n : Nat} {kind : Bool} 
    (hK : Kept wq wc s) :
    Kept wq wc (collectInto s t q n kind) := by
  unfold collectInto
  repeat' first
    | with_reducible assumption
    | with_reducible intro _
    | with_reducible apply State.setClu_keeps
    | with_reducible apply State.setQpart_keeps
    | with_reducible apply kept_ite
    | with_reducible refine kept_fst (by assumption) ?_
    | with_reducible refine kept_snd (by assumption) ?_
    | extract_lets
    | split
    | fail_if_no_progress refine kept_mk ?_ rfl rfl
    | dsimp only
    | dsimp +zetaDelta only

theorem actQsCollect_keeps {s : State} {t v : Nat} 
    (hK : Kept wq wc s) :
    Kept wq wc (actQsCollect s t v) := by
  unfold actQsCollect
  repeat' first
    | with_reducible assumption
    | with_reducible intro _
    | with_reducible apply State.setTile_keeps
    | with_reducible apply collectInto_keeps
    | with_reducible apply kept_ite
    | with_reducible refine kept_fst (by assumption) ?_
    | with_reducible refine kept_snd (by assumption) ?_
    | extract_lets
    | split
    | fail_if_no_progress refine kept_mk ?_ rfl rfl
    | dsimp only
    | dsimp +zetaDelta only

theorem actQsClose_keeps {s : State} {q v : Nat} 
    (hK : Kept wq wc s) :
    Kept wq wc (actQsClose s q v) := by
  unfold actQsClose
  repeat' first
    | with_reducible assumption
    | with_reducible intro _
    | with_reducible apply State.setQslot_keeps
    | with_reducible apply kept_ite
    | with_reducible refine kept_fst (by assumption) ?_
    | with_reducible refine kept_snd (by assumption) ?_
    | extract_lets
    | split
    | fail_if_no_progress refine kept_mk ?_ rfl rfl
    | dsimp only
    | dsimp +zetaDelta only

theorem closeSlot_keeps {s : State} {q : Nat} 
    (hK : Kept wq wc s) :
    Kept wq wc (closeSlot s q) := by
  unfold closeSlot
  repeat' first
    | with_reducible assumption
    | with_reducible intro _
    | with_reducible apply State.setQpart_keeps
    | with_reducible apply State.setQslot_keeps
    | with_reducible apply kept_foldl
    | with_reducible apply kept_foldl1
    | with_reducible apply kept_foldl2
    | with_reducible apply kept_ite
    | with_reducible refine kept_fst (by assumption) ?_
    | with_reducible refine kept_snd (by assumption) ?_
    | extract_lets
    | split
    | fail_if_no_progress refine kept_mk ?_ rfl rfl
    | dsimp only
    | dsimp +zetaDelta only

theorem actQsFlip_keeps {s : State} {q : Nat} 
    (hK : Kept wq wc s) :
    Kept wq wc (actQsFlip s q) := by
  unfold actQsFlip
  repeat' first
    | with_reducible assumption
    | with_reducible intro _
    | with_reducible apply State.setQslot_keeps
    | with_reducible apply kept_ite
    | with_reducible refine kept_fst (by assumption) ?_
    | with_reducible refine kept_snd (by assumption) ?_
    | extract_lets
    | split
    | fail_if_no_progress refine kept_mk ?_ rfl rfl
    | dsimp only
    | dsimp +zetaDelta only

theorem actQsShadow_keeps {s : State} {q : Nat} {r : QsReg} {v : W32} 
    (hK : Kept wq wc s) :
    Kept wq wc (actQsShadow s q r v) := by
  unfold actQsShadow
  repeat' first
    | with_reducible assumption
    | with_reducible intro _
    | with_reducible apply State.setQslot_keeps
    | with_reducible apply kept_ite
    | with_reducible refine kept_fst (by assumption) ?_
    | with_reducible refine kept_snd (by assumption) ?_
    | extract_lets
    | split
    | fail_if_no_progress refine kept_mk ?_ rfl rfl
    | dsimp only
    | dsimp +zetaDelta only

/-! ### Load -/

theorem imageRefused_keeps {s : State} {reason : Nat} {off : Nat} 
    (hK : Kept wq wc s) :
    Kept wq wc (imageRefused s reason off) := by
  unfold imageRefused
  repeat' first
    | with_reducible assumption
    | with_reducible intro _
    | with_reducible apply kept_ite
    | with_reducible refine kept_fst (by assumption) ?_
    | with_reducible refine kept_snd (by assumption) ?_
    | extract_lets
    | split
    | fail_if_no_progress refine kept_mk ?_ rfl rfl
    | dsimp only
    | dsimp +zetaDelta only

theorem readHbm_keeps {n : Nat} {s : State} {a : Nat} 
    (hK : Kept wq wc s) :
    Kept wq wc (readHbm n s a).1 := by
  induction n generalizing s a with
  | zero =>
    unfold readHbm
    repeat' first
      | with_reducible assumption
      | with_reducible intro _
      | with_reducible apply parcelRead_keeps
      | with_reducible apply ih
      | with_reducible apply kept_ite1
      | with_reducible apply kept_ite2
      | with_reducible apply kept_ite
      | with_reducible refine kept_fst (by assumption) ?_
      | with_reducible refine kept_snd (by assumption) ?_
      | extract_lets
      | split
      | fail_if_no_progress refine kept_mk ?_ rfl rfl
      | dsimp only
      | dsimp +zetaDelta only
  | succ n ih =>
    unfold readHbm
    repeat' first
      | with_reducible assumption
      | with_reducible intro _
      | with_reducible apply parcelRead_keeps
      | with_reducible apply ih
      | with_reducible apply kept_ite1
      | with_reducible apply kept_ite2
      | with_reducible apply kept_ite
      | with_reducible refine kept_fst (by assumption) ?_
      | with_reducible refine kept_snd (by assumption) ?_
      | extract_lets
      | split
      | fail_if_no_progress refine kept_mk ?_ rfl rfl
      | dsimp only
      | dsimp +zetaDelta only

theorem readObject_keeps {s : State} {local_ : Bool} {src len : Nat} {host : Option (List Byte)} 
    (hK : Kept wq wc s) :
    Kept wq wc (readObject s local_ src len host).1 := by
  unfold readObject
  repeat' first
    | with_reducible assumption
    | with_reducible intro _
    | with_reducible apply readHbm_keeps
    | with_reducible apply kept_ite1
    | with_reducible apply kept_ite2
    | with_reducible apply kept_ite
    | with_reducible refine kept_fst (by assumption) ?_
    | with_reducible refine kept_snd (by assumption) ?_
    | extract_lets
    | split
    | fail_if_no_progress refine kept_mk ?_ rfl rfl
    | dsimp only
    | dsimp +zetaDelta only

theorem offerImage_keeps {s : State} {img : List Byte} {len : Nat} 
    (hK : Kept wq wc s) :
    Kept wq wc (offerImage s img len) := by
  unfold offerImage
  repeat' first
    | with_reducible assumption
    | with_reducible intro _
    | with_reducible apply imageRefused_keeps
    | with_reducible apply kept_ite
    | with_reducible refine kept_fst (by assumption) ?_
    | with_reducible refine kept_snd (by assumption) ?_
    | extract_lets
    | split
    | fail_if_no_progress refine kept_mk ?_ rfl rfl
    | dsimp only
    | dsimp +zetaDelta only

theorem loadBytes_keeps {s : State} {img : List Byte} 
    (hK : Kept wq wc s) :
    Kept wq wc (loadBytes s img) := by
  unfold loadBytes
  repeat' first
    | with_reducible assumption
    | with_reducible intro _
    | with_reducible apply imageRefused_keeps
    | with_reducible apply offerImage_keeps
    | with_reducible apply kept_ite
    | with_reducible refine kept_fst (by assumption) ?_
    | with_reducible refine kept_snd (by assumption) ?_
    | extract_lets
    | split
    | fail_if_no_progress refine kept_mk ?_ rfl rfl
    | dsimp only
    | dsimp +zetaDelta only

theorem actImageCtrl_keeps {s : State} {v : Nat} {host : Option (List Byte)} 
    (hK : Kept wq wc s) :
    Kept wq wc (actImageCtrl s v host) := by
  unfold actImageCtrl
  repeat' first
    | with_reducible assumption
    | with_reducible intro _
    | with_reducible apply imageRefused_keeps
    | with_reducible apply readObject_keeps
    | with_reducible apply offerImage_keeps
    | with_reducible apply kept_ite
    | with_reducible refine kept_fst (by assumption) ?_
    | with_reducible refine kept_snd (by assumption) ?_
    | extract_lets
    | split
    | fail_if_no_progress refine kept_mk ?_ rfl rfl
    | dsimp only
    | dsimp +zetaDelta only

theorem endLoad_keeps {s : State} 
    (hK : Kept wq wc s) :
    Kept wq wc (endLoad s) := by
  unfold endLoad
  repeat' first
    | with_reducible assumption
    | with_reducible intro _
    | with_reducible apply imageRefused_keeps
    | with_reducible apply kept_ite
    | with_reducible refine kept_fst (by assumption) ?_
    | with_reducible refine kept_snd (by assumption) ?_
    | extract_lets
    | split
    | fail_if_no_progress refine kept_mk ?_ rfl rfl
    | dsimp only
    | dsimp +zetaDelta only

theorem remode_keeps {s : State} {img : List Byte} 
    (hK : Kept wq wc s) :
    Kept wq wc (remode s img) := by
  unfold remode
  repeat' first
    | with_reducible assumption
    | with_reducible intro _
    | with_reducible apply initRegion_keeps
    | with_reducible apply kept_foldl
    | with_reducible apply kept_foldl1
    | with_reducible apply kept_foldl2
    | with_reducible apply kept_ite
    | with_reducible refine kept_fst (by assumption) ?_
    | with_reducible refine kept_snd (by assumption) ?_
    | extract_lets
    | split
    | fail_if_no_progress refine kept_mk ?_ rfl rfl
    | dsimp only
    | dsimp +zetaDelta only

theorem bindCouriers_keeps {s : State} {img : List Byte} 
    (hK : Kept wq wc s) :
    Kept wq wc (bindCouriers s img) := by
  unfold bindCouriers
  repeat' first
    | with_reducible assumption
    | with_reducible intro _
    | with_reducible apply State.setCourier_keeps
    | with_reducible apply kept_foldl
    | with_reducible apply kept_foldl1
    | with_reducible apply kept_foldl2
    | with_reducible apply kept_ite
    | with_reducible refine kept_fst (by assumption) ?_
    | with_reducible refine kept_snd (by assumption) ?_
    | extract_lets
    | split
    | fail_if_no_progress refine kept_mk ?_ rfl rfl
    | dsimp only
    | dsimp +zetaDelta only

theorem presetSlots_keeps {s : State} {img : List Byte} 
    (hK : Kept wq wc s) :
    Kept wq wc (presetSlots s img) := by
  unfold presetSlots
  repeat' first
    | with_reducible assumption
    | with_reducible intro _
    | with_reducible apply State.setQslot_keeps
    | with_reducible apply actQsFlip_keeps
    | with_reducible apply kept_foldl
    | with_reducible apply kept_foldl1
    | with_reducible apply kept_foldl2
    | with_reducible apply kept_ite
    | with_reducible refine kept_fst (by assumption) ?_
    | with_reducible refine kept_snd (by assumption) ?_
    | extract_lets
    | split
    | fail_if_no_progress refine kept_mk ?_ rfl rfl
    | dsimp only
    | dsimp +zetaDelta only

theorem memorySettings_keeps {s : State} {img : List Byte} 
    (hK : Kept wq wc s) :
    Kept wq wc (memorySettings s img) := by
  unfold memorySettings
  repeat' first
    | with_reducible assumption
    | with_reducible intro _
    | with_reducible apply mapStacks_keeps
    | with_reducible apply kept_ite
    | with_reducible refine kept_fst (by assumption) ?_
    | with_reducible refine kept_snd (by assumption) ?_
    | extract_lets
    | split
    | fail_if_no_progress refine kept_mk ?_ rfl rfl
    | dsimp only
    | dsimp +zetaDelta only

theorem wireFabric_keeps {s : State} {img : List Byte} 
    (hK : Kept wq wc s) :
    Kept wq wc (wireFabric s img) := by
  unfold wireFabric
  repeat' first
    | with_reducible assumption
    | with_reducible intro _
    | with_reducible apply kept_ite
    | with_reducible refine kept_fst (by assumption) ?_
    | with_reducible refine kept_snd (by assumption) ?_
    | extract_lets
    | split
    | fail_if_no_progress refine kept_mk ?_ rfl rfl
    | dsimp only
    | dsimp +zetaDelta only

theorem imageInForce_keeps {s : State} {img : List Byte} 
    (hK : Kept wq wc s) :
    Kept wq wc (imageInForce s img) := by
  unfold imageInForce
  repeat' first
    | with_reducible assumption
    | with_reducible intro _
    | with_reducible apply kept_ite
    | with_reducible refine kept_fst (by assumption) ?_
    | with_reducible refine kept_snd (by assumption) ?_
    | extract_lets
    | split
    | fail_if_no_progress refine kept_mk ?_ rfl rfl
    | dsimp only
    | dsimp +zetaDelta only

theorem applyImage_keeps {s : State} {img : List Byte} 
    (hK : Kept wq wc s) :
    Kept wq wc (applyImage s img) := by
  unfold applyImage
  repeat' first
    | with_reducible assumption
    | with_reducible intro _
    | with_reducible apply imageInForce_keeps
    | with_reducible apply remode_keeps
    | with_reducible apply wireFabric_keeps
    | with_reducible apply memorySettings_keeps
    | with_reducible apply presetSlots_keeps
    | with_reducible apply bindCouriers_keeps
    | with_reducible apply requestCaps_keeps
    | with_reducible apply kept_ite
    | with_reducible refine kept_fst (by assumption) ?_
    | with_reducible refine kept_snd (by assumption) ?_
    | extract_lets
    | split
    | fail_if_no_progress refine kept_mk ?_ rfl rfl
    | dsimp only
    | dsimp +zetaDelta only

theorem rejudge_keeps {s : State} 
    (hK : Kept wq wc s) :
    Kept wq wc (rejudge s) := by
  unfold rejudge
  repeat' first
    | with_reducible assumption
    | with_reducible intro _
    | with_reducible apply portJudge_keeps
    | with_reducible apply kept_foldl
    | with_reducible apply kept_foldl1
    | with_reducible apply kept_foldl2
    | with_reducible apply kept_ite
    | with_reducible refine kept_fst (by assumption) ?_
    | with_reducible refine kept_snd (by assumption) ?_
    | extract_lets
    | split
    | fail_if_no_progress refine kept_mk ?_ rfl rfl
    | dsimp only
    | dsimp +zetaDelta only

theorem endS5_keeps {s : State} 
    (hK : Kept wq wc s) :
    Kept wq wc (endS5 s) := by
  unfold endS5
  repeat' first
    | with_reducible assumption
    | with_reducible intro _
    | with_reducible apply setStage_keeps
    | with_reducible apply retestMask_keeps
    | with_reducible apply kept_ite
    | with_reducible refine kept_fst (by assumption) ?_
    | with_reducible refine kept_snd (by assumption) ?_
    | extract_lets
    | split
    | fail_if_no_progress refine kept_mk ?_ rfl rfl
    | dsimp only
    | dsimp +zetaDelta only

theorem imageFlip_keeps {s : State} 
    (hK : Kept wq wc s) :
    Kept wq wc (imageFlip s) := by
  unfold imageFlip
  repeat' first
    | with_reducible assumption
    | with_reducible intro _
    | with_reducible apply applyImage_keeps
    | with_reducible apply imageRowMoves_keeps
    | with_reducible apply buildPage_keeps
    | with_reducible apply sendDiscovers_keeps
    | with_reducible apply rejudge_keeps
    | with_reducible apply endS5_keeps
    | with_reducible apply kept_foldl
    | with_reducible apply kept_foldl1
    | with_reducible apply kept_foldl2
    | with_reducible apply kept_ite
    | with_reducible refine kept_fst (by assumption) ?_
    | with_reducible refine kept_snd (by assumption) ?_
    | extract_lets
    | split
    | fail_if_no_progress refine kept_mk ?_ rfl rfl
    | dsimp only
    | dsimp +zetaDelta only

/-! ### Trust -/

theorem recordVerify_keeps {s : State} {kind result version : Nat} 
    (hK : Kept wq wc s) :
    Kept wq wc (recordVerify s kind result version) := by
  unfold recordVerify
  repeat' first
    | with_reducible assumption
    | with_reducible intro _
    | with_reducible apply kept_ite
    | with_reducible refine kept_fst (by assumption) ?_
    | with_reducible refine kept_snd (by assumption) ?_
    | extract_lets
    | split
    | fail_if_no_progress refine kept_mk ?_ rfl rfl
    | dsimp only
    | dsimp +zetaDelta only

theorem writeBundle_keeps {s : State} {b : List Byte} 
    (hK : Kept wq wc s) :
    Kept wq wc (writeBundle s b) := by
  unfold writeBundle
  repeat' first
    | with_reducible assumption
    | with_reducible intro _
    | with_reducible apply kept_ite
    | with_reducible refine kept_fst (by assumption) ?_
    | with_reducible refine kept_snd (by assumption) ?_
    | extract_lets
    | split
    | fail_if_no_progress refine kept_mk ?_ rfl rfl
    | dsimp only
    | dsimp +zetaDelta only

theorem startSorter_keeps {s : State} 
    (hK : Kept wq wc s) :
    Kept wq wc (startSorter s) := by
  unfold startSorter
  repeat' first
    | with_reducible assumption
    | with_reducible intro _
    | with_reducible apply kept_ite
    | with_reducible refine kept_fst (by assumption) ?_
    | with_reducible refine kept_snd (by assumption) ?_
    | extract_lets
    | split
    | fail_if_no_progress refine kept_mk ?_ rfl rfl
    | dsimp only
    | dsimp +zetaDelta only

/-! ### Attest -/

theorem raiseCeiling_keeps {s : State} 
    (hK : Kept wq wc s) :
    Kept wq wc (raiseCeiling s) := by
  unfold raiseCeiling
  repeat' first
    | with_reducible assumption
    | with_reducible intro _
    | with_reducible apply kept_ite
    | with_reducible refine kept_fst (by assumption) ?_
    | with_reducible refine kept_snd (by assumption) ?_
    | extract_lets
    | split
    | fail_if_no_progress refine kept_mk ?_ rfl rfl
    | dsimp only
    | dsimp +zetaDelta only

theorem startAttest_keeps {s : State} 
    (hK : Kept wq wc s) :
    Kept wq wc (startAttest s) := by
  unfold startAttest
  repeat' first
    | with_reducible assumption
    | with_reducible intro _
    | with_reducible apply kept_ite
    | with_reducible refine kept_fst (by assumption) ?_
    | with_reducible refine kept_snd (by assumption) ?_
    | extract_lets
    | split
    | fail_if_no_progress refine kept_mk ?_ rfl rfl
    | dsimp only
    | dsimp +zetaDelta only

theorem respond_keeps {s : State} {cmd code : Nat} {rest : List Byte} 
    (hK : Kept wq wc s) :
    Kept wq wc (respond s cmd code rest) := by
  unfold respond
  repeat' first
    | with_reducible assumption
    | with_reducible intro _
    | with_reducible apply State.send_keeps
    | with_reducible apply kept_ite
    | with_reducible refine kept_fst (by assumption) ?_
    | with_reducible refine kept_snd (by assumption) ?_
    | extract_lets
    | split
    | fail_if_no_progress refine kept_mk ?_ rfl rfl
    | dsimp only
    | dsimp +zetaDelta only

theorem signReport_keeps {s : State} {nonce : List Byte} 
    (hK : Kept wq wc s) :
    Kept wq wc (signReport s nonce) := by
  unfold signReport
  repeat' first
    | with_reducible assumption
    | with_reducible intro _
    | with_reducible apply respond_keeps
    | with_reducible apply kept_ite
    | with_reducible refine kept_fst (by assumption) ?_
    | with_reducible refine kept_snd (by assumption) ?_
    | extract_lets
    | split
    | fail_if_no_progress refine kept_mk ?_ rfl rfl
    | dsimp only
    | dsimp +zetaDelta only

theorem serveCalRead_keeps {s : State} {off : Nat} 
    (hK : Kept wq wc s) :
    Kept wq wc (serveCalRead s off) := by
  unfold serveCalRead
  repeat' first
    | with_reducible assumption
    | with_reducible intro _
    | with_reducible apply respond_keeps
    | with_reducible apply kept_ite
    | with_reducible refine kept_fst (by assumption) ?_
    | with_reducible refine kept_snd (by assumption) ?_
    | extract_lets
    | split
    | fail_if_no_progress refine kept_mk ?_ rfl rfl
    | dsimp only
    | dsimp +zetaDelta only

theorem serveCalArm_keeps {s : State} {waive : Bool} 
    (hK : Kept wq wc s) :
    Kept wq wc (serveCalArm s waive) := by
  unfold serveCalArm
  repeat' first
    | with_reducible assumption
    | with_reducible intro _
    | with_reducible apply respond_keeps
    | with_reducible apply kept_ite
    | with_reducible refine kept_fst (by assumption) ?_
    | with_reducible refine kept_snd (by assumption) ?_
    | extract_lets
    | split
    | fail_if_no_progress refine kept_mk ?_ rfl rfl
    | dsimp only
    | dsimp +zetaDelta only

theorem serveCalWrite_keeps {s : State} {off : Nat} {data : List Byte} 
    (hK : Kept wq wc s) :
    Kept wq wc (serveCalWrite s off data) := by
  unfold serveCalWrite
  repeat' first
    | with_reducible assumption
    | with_reducible intro _
    | with_reducible apply respond_keeps
    | with_reducible apply kept_foldl
    | with_reducible apply kept_foldl1
    | with_reducible apply kept_foldl2
    | with_reducible apply kept_ite
    | with_reducible refine kept_fst (by assumption) ?_
    | with_reducible refine kept_snd (by assumption) ?_
    | extract_lets
    | split
    | fail_if_no_progress refine kept_mk ?_ rfl rfl
    | dsimp only
    | dsimp +zetaDelta only

theorem serveCalCommit_keeps {s : State} {compl : Nat} {digest : List Byte} 
    (hK : Kept wq wc s) :
    Kept wq wc (serveCalCommit s compl digest) := by
  unfold serveCalCommit
  repeat' first
    | with_reducible assumption
    | with_reducible intro _
    | with_reducible apply respond_keeps
    | with_reducible apply denyAdd_keeps
    | with_reducible apply kept_ite
    | with_reducible refine kept_fst (by assumption) ?_
    | with_reducible refine kept_snd (by assumption) ?_
    | extract_lets
    | split
    | fail_if_no_progress refine kept_mk ?_ rfl rfl
    | dsimp only
    | dsimp +zetaDelta only

theorem kept_opt_ite {c : Prop} [Decidable c] {x y : Option State}
    (hx : ∀ u, x = some u → Kept wq wc u)
    (hy : ∀ u, y = some u → Kept wq wc u) :
    ∀ u, (if c then x else y) = some u → Kept wq wc u := by split <;> assumption

theorem kept_some {v : State} (h : Kept wq wc v) :
    ∀ u, some v = some u → Kept wq wc u := by
  intro u e
  injection e with e
  subst e
  exact h

theorem serveRequest_keeps {s : State} {l : List Byte} (hK : Kept wq wc s) :
    ∀ u, serveRequest s l = some u → Kept wq wc u := by
  unfold serveRequest
  extract_lets cmd f
  clear_value cmd
  repeat' first
    | with_reducible assumption
    | with_reducible apply kept_opt_ite
    | with_reducible refine kept_some ?_
    | with_reducible apply respond_keeps
    | with_reducible apply signReport_keeps
    | with_reducible apply serveCalRead_keeps
    | with_reducible apply serveCalArm_keeps
    | with_reducible apply serveCalWrite_keeps
    | with_reducible apply serveCalCommit_keeps
    | (intro u e; contradiction)
    | with_reducible refine kept_mk (s := s) ?_ rfl rfl
    | split
    | dsimp only

theorem serveAll_keeps {s : State} {l : List (List Byte)} (h : Kept wq wc s) :
    Kept wq wc (serveAll s l) := by
  induction l generalizing s with
  | nil => exact h
  | cons e t ih =>
    unfold serveAll
    split
    · exact ih (serveRequest_keeps h _ (by assumption))
    · exact h

theorem drainRequests_keeps {s : State} 
    (hK : Kept wq wc s) :
    Kept wq wc (drainRequests s) := by
  unfold drainRequests
  repeat' first
    | with_reducible assumption
    | with_reducible intro _
    | with_reducible apply serveAll_keeps
    | with_reducible apply kept_ite
    | with_reducible refine kept_fst (by assumption) ?_
    | with_reducible refine kept_snd (by assumption) ?_
    | extract_lets
    | split
    | fail_if_no_progress refine kept_mk ?_ rfl rfl
    | dsimp only
    | dsimp +zetaDelta only

theorem takeRequest_keeps {s : State} {q : List Byte} 
    (hK : Kept wq wc s) :
    Kept wq wc (takeRequest s q) := by
  unfold takeRequest
  repeat' first
    | with_reducible assumption
    | with_reducible intro _
    | with_reducible apply respond_keeps
    | with_reducible apply drainRequests_keeps
    | with_reducible apply kept_ite
    | with_reducible refine kept_fst (by assumption) ?_
    | with_reducible refine kept_snd (by assumption) ?_
    | extract_lets
    | split
    | fail_if_no_progress refine kept_mk ?_ rfl rfl
    | dsimp only
    | dsimp +zetaDelta only

theorem offerPack_keeps {s : State} {obj : List Byte} 
    (hK : Kept wq wc s) :
    Kept wq wc (offerPack s obj) := by
  unfold offerPack
  repeat' first
    | with_reducible assumption
    | with_reducible intro _
    | with_reducible apply recordVerify_keeps
    | with_reducible apply kept_ite
    | with_reducible refine kept_fst (by assumption) ?_
    | with_reducible refine kept_snd (by assumption) ?_
    | extract_lets
    | split
    | fail_if_no_progress refine kept_mk ?_ rfl rfl
    | dsimp only
    | dsimp +zetaDelta only

theorem takeWaiting_keeps {s : State} 
    (hK : Kept wq wc s) :
    Kept wq wc (takeWaiting s) := by
  unfold takeWaiting
  repeat' first
    | with_reducible assumption
    | with_reducible intro _
    | with_reducible apply offerPack_keeps
    | with_reducible apply kept_ite
    | with_reducible refine kept_fst (by assumption) ?_
    | with_reducible refine kept_snd (by assumption) ?_
    | extract_lets
    | split
    | fail_if_no_progress refine kept_mk ?_ rfl rfl
    | dsimp only
    | dsimp +zetaDelta only

end Sys2Proof.Machine
end

