-- ==== Sys2Proof/Laws/KeptEngines.lean ====
section
/-! SUPPORT. Each operation of operands, tensor, solver, stack and collective engines keeps the queue and the canonical form of memory: one lemma per operation, to be
cited in place of unfolding it. -/

set_option linter.unusedTactic false
set_option linter.unreachableTactic false

namespace Sys2Proof.Machine

variable {wq : List Instr} {wc : Prop}

/-! ### Operands -/

theorem State.setSeq_keeps {s : State} {p : Nat} {q : Seq} 
    (hK : Kept wq wc s) :
    Kept wq wc (State.setSeq s p q) := by
  unfold State.setSeq
  repeat' first
    | with_reducible assumption
    | with_reducible intro _
    | with_reducible apply State.setClu_keeps
    | with_reducible apply kept_ite
    | with_reducible refine kept_fst (by assumption) ?_
    | with_reducible refine kept_snd (by assumption) ?_
    | extract_lets
    | split
    | fail_if_no_progress refine kept_mk ?_ rfl rfl
    | dsimp only
    | dsimp +zetaDelta only

theorem touchIdle_keeps {s : State} {n : Nat} 
    (hK : Kept wq wc s) :
    Kept wq wc (touchIdle s n) := by
  unfold touchIdle
  repeat' first
    | with_reducible assumption
    | with_reducible intro _
    | with_reducible apply State.setLclu_keeps
    | with_reducible apply kept_ite
    | with_reducible refine kept_fst (by assumption) ?_
    | with_reducible refine kept_snd (by assumption) ?_
    | extract_lets
    | split
    | fail_if_no_progress refine kept_mk ?_ rfl rfl
    | dsimp only
    | dsimp +zetaDelta only

theorem noteLast_keeps {s : State} {p opId stream : Nat} 
    (hK : Kept wq wc s) :
    Kept wq wc (noteLast s p opId stream) := by
  unfold noteLast
  repeat' first
    | with_reducible assumption
    | with_reducible intro _
    | with_reducible apply State.setClu_keeps
    | with_reducible apply kept_ite
    | with_reducible refine kept_fst (by assumption) ?_
    | with_reducible refine kept_snd (by assumption) ?_
    | extract_lets
    | split
    | fail_if_no_progress refine kept_mk ?_ rfl rfl
    | dsimp only
    | dsimp +zetaDelta only

theorem dropProgram_keeps {s : State} {p : Nat} 
    (hK : Kept wq wc s) :
    Kept wq wc (dropProgram s p) := by
  unfold dropProgram
  repeat' first
    | with_reducible assumption
    | with_reducible intro _
    | with_reducible apply touchIdle_keeps
    | with_reducible apply reqDrop_keeps
    | with_reducible apply State.setSeq_keeps
    | with_reducible apply kept_ite
    | with_reducible refine kept_fst (by assumption) ?_
    | with_reducible refine kept_snd (by assumption) ?_
    | extract_lets
    | split
    | fail_if_no_progress refine kept_mk ?_ rfl rfl
    | dsimp only
    | dsimp +zetaDelta only

theorem endProgram_keeps {s : State} {p status detail : Nat} 
    (hK : Kept wq wc s) :
    Kept wq wc (endProgram s p status detail) := by
  unfold endProgram
  repeat' first
    | with_reducible assumption
    | with_reducible intro _
    | with_reducible apply opFail_keeps
    | with_reducible apply dropProgram_keeps
    | with_reducible apply kept_ite
    | with_reducible refine kept_fst (by assumption) ?_
    | with_reducible refine kept_snd (by assumption) ?_
    | extract_lets
    | split
    | fail_if_no_progress refine kept_mk ?_ rfl rfl
    | dsimp only
    | dsimp +zetaDelta only

theorem endIllegal_keeps {s : State} {p : Nat} 
    (hK : Kept wq wc s) :
    Kept wq wc (endIllegal s p) := by
  unfold endIllegal
  repeat' first
    | with_reducible assumption
    | with_reducible intro _
    | with_reducible apply endProgram_keeps
    | with_reducible apply kept_ite
    | with_reducible refine kept_fst (by assumption) ?_
    | with_reducible refine kept_snd (by assumption) ?_
    | extract_lets
    | split
    | fail_if_no_progress refine kept_mk ?_ rfl rfl
    | dsimp only
    | dsimp +zetaDelta only

theorem advance_keeps {s : State} {p : Nat} {next : Int} 
    (hK : Kept wq wc s) :
    Kept wq wc (advance s p next) := by
  unfold advance
  repeat' first
    | with_reducible assumption
    | with_reducible intro _
    | with_reducible apply endIllegal_keeps
    | with_reducible apply reqDrop_keeps
    | with_reducible apply State.setSeq_keeps
    | with_reducible apply kept_ite
    | with_reducible refine kept_fst (by assumption) ?_
    | with_reducible refine kept_snd (by assumption) ?_
    | extract_lets
    | split
    | fail_if_no_progress refine kept_mk ?_ rfl rfl
    | dsimp only
    | dsimp +zetaDelta only

theorem retire_keeps {s : State} {p : Nat} 
    (hK : Kept wq wc s) :
    Kept wq wc (retire s p) := by
  unfold retire
  repeat' first
    | with_reducible assumption
    | with_reducible intro _
    | with_reducible apply advance_keeps
    | with_reducible apply kept_ite
    | with_reducible refine kept_fst (by assumption) ?_
    | with_reducible refine kept_snd (by assumption) ?_
    | extract_lets
    | split
    | fail_if_no_progress refine kept_mk ?_ rfl rfl
    | dsimp only
    | dsimp +zetaDelta only

theorem fetchWord_keeps {s : State} {p : Nat} {g : Prog} {pc : Nat} 
    (hK : Kept wq wc s) :
    Kept wq wc (fetchWord s p g pc).1 := by
  unfold fetchWord
  repeat' first
    | with_reducible assumption
    | with_reducible intro _
    | with_reducible apply parcelRead_keeps
    | with_reducible apply State.setSeq_keeps
    | with_reducible apply kept_ite1
    | with_reducible apply kept_ite2
    | with_reducible apply kept_ite
    | with_reducible refine kept_fst (by assumption) ?_
    | with_reducible refine kept_snd (by assumption) ?_
    | extract_lets
    | split
    | fail_if_no_progress refine kept_mk ?_ rfl rfl
    | dsimp only
    | dsimp +zetaDelta only

theorem endQuiesced_keeps {s : State} {p : Nat} 
    (hK : Kept wq wc s) :
    Kept wq wc (endQuiesced s p) := by
  unfold endQuiesced
  repeat' first
    | with_reducible assumption
    | with_reducible intro _
    | with_reducible apply endProgram_keeps
    | with_reducible apply State.setSeq_keeps
    | with_reducible apply kept_ite
    | with_reducible refine kept_fst (by assumption) ?_
    | with_reducible refine kept_snd (by assumption) ?_
    | extract_lets
    | split
    | fail_if_no_progress refine kept_mk ?_ rfl rfl
    | dsimp only
    | dsimp +zetaDelta only

theorem issue_keeps {s : State} {p bits word : Nat} {act : Prog → State → State} (hact : ∀ u0 u1, Kept wq wc (u1) → Kept wq wc (act u0 u1))
    (hK : Kept wq wc s) :
    Kept wq wc (issue s p bits word act) := by
  unfold issue
  repeat' first
    | with_reducible assumption
    | with_reducible intro _
    | with_reducible apply endQuiesced_keeps
    | with_reducible apply fetchWord_keeps
    | with_reducible apply endProgram_keeps
    | with_reducible apply endIllegal_keeps
    | with_reducible apply hact
    | with_reducible apply kept_ite
    | with_reducible refine kept_fst (by assumption) ?_
    | with_reducible refine kept_snd (by assumption) ?_
    | extract_lets
    | split
    | fail_if_no_progress refine kept_mk ?_ rfl rfl
    | dsimp only
    | dsimp +zetaDelta only

theorem regOp_keeps {s : State} {p bits word : Nat} {act : Seq → Seq} 
    (hK : Kept wq wc s) :
    Kept wq wc (regOp s p bits word act) := by
  unfold regOp
  repeat' first
    | with_reducible assumption
    | with_reducible intro _
    | with_reducible apply issue_keeps
    | with_reducible apply retire_keeps
    | with_reducible apply State.setSeq_keeps
    | with_reducible apply kept_ite
    | with_reducible refine kept_fst (by assumption) ?_
    | with_reducible refine kept_snd (by assumption) ?_
    | extract_lets
    | split
    | fail_if_no_progress refine kept_mk ?_ rfl rfl
    | dsimp only
    | dsimp +zetaDelta only

theorem vecPost_keeps {s : State} {p slot : Nat} {t : Tally} 
    (hK : Kept wq wc s) :
    Kept wq wc (vecPost s p slot t) := by
  unfold vecPost
  repeat' first
    | with_reducible assumption
    | with_reducible intro _
    | with_reducible apply opTally_keeps
    | with_reducible apply State.setClu_keeps
    | with_reducible apply kept_ite
    | with_reducible refine kept_fst (by assumption) ?_
    | with_reducible refine kept_snd (by assumption) ?_
    | extract_lets
    | split
    | fail_if_no_progress refine kept_mk ?_ rfl rfl
    | dsimp only
    | dsimp +zetaDelta only

theorem vecOp_keeps {s : State} {p word : Nat} {act : Seq → Seq × Tally} 
    (hK : Kept wq wc s) :
    Kept wq wc (vecOp s p word act) := by
  unfold vecOp
  repeat' first
    | with_reducible assumption
    | with_reducible intro _
    | with_reducible apply issue_keeps
    | with_reducible apply retire_keeps
    | with_reducible apply vecPost_keeps
    | with_reducible apply State.setSeq_keeps
    | with_reducible apply kept_ite
    | with_reducible refine kept_fst (by assumption) ?_
    | with_reducible refine kept_snd (by assumption) ?_
    | extract_lets
    | split
    | fail_if_no_progress refine kept_mk ?_ rfl rfl
    | dsimp only
    | dsimp +zetaDelta only

/-! ### Scalar -/

theorem linkTo_keeps {s : State} {p : PClu} {a : Bran} {target : Int} 
    (hK : Kept wq wc s) :
    Kept wq wc (linkTo s p a target) := by
  unfold linkTo
  repeat' first
    | with_reducible assumption
    | with_reducible intro _
    | with_reducible apply endIllegal_keeps
    | with_reducible apply advance_keeps
    | with_reducible apply State.setSeq_keeps
    | with_reducible apply kept_ite
    | with_reducible refine kept_fst (by assumption) ?_
    | with_reducible refine kept_snd (by assumption) ?_
    | extract_lets
    | split
    | fail_if_no_progress refine kept_mk ?_ rfl rfl
    | dsimp only
    | dsimp +zetaDelta only

theorem eret_keeps {s : State} {p : Nat} {g : Prog} 
    (hK : Kept wq wc s) :
    Kept wq wc (eret s p g) := by
  unfold eret
  repeat' first
    | with_reducible assumption
    | with_reducible intro _
    | with_reducible apply fetchWord_keeps
    | with_reducible apply endProgram_keeps
    | with_reducible apply endIllegal_keeps
    | with_reducible apply State.setSeq_keeps
    | with_reducible apply kept_ite
    | with_reducible refine kept_fst (by assumption) ?_
    | with_reducible refine kept_snd (by assumption) ?_
    | extract_lets
    | split
    | fail_if_no_progress refine kept_mk ?_ rfl rfl
    | dsimp only
    | dsimp +zetaDelta only

/-! ### LossWatch -/

theorem markPosted_keeps {s : State} {w step : Nat} 
    (hK : Kept wq wc s) :
    Kept wq wc (markPosted s w step) := by
  unfold markPosted
  repeat' first
    | with_reducible assumption
    | with_reducible intro _
    | with_reducible apply kept_ite
    | with_reducible refine kept_fst (by assumption) ?_
    | with_reducible refine kept_snd (by assumption) ?_
    | extract_lets
    | split
    | fail_if_no_progress refine kept_mk ?_ rfl rfl
    | dsimp only
    | dsimp +zetaDelta only

theorem postTo_keeps {s : State} {m : PostMsg} {w : Nat} 
    (hK : Kept wq wc s) :
    Kept wq wc (postTo s m w) := by
  unfold postTo
  repeat' first
    | with_reducible assumption
    | with_reducible intro _
    | with_reducible apply State.setWatch_keeps
    | with_reducible apply markPosted_keeps
    | with_reducible apply kept_ite
    | with_reducible refine kept_fst (by assumption) ?_
    | with_reducible refine kept_snd (by assumption) ?_
    | extract_lets
    | split
    | fail_if_no_progress refine kept_mk ?_ rfl rfl
    | dsimp only
    | dsimp +zetaDelta only

theorem actLwWrite_keeps {s : State} {w : Nat} {r : LwReg} {v : Nat} 
    (hK : Kept wq wc s) :
    Kept wq wc (actLwWrite s w r v) := by
  unfold actLwWrite
  repeat' first
    | with_reducible assumption
    | with_reducible intro _
    | with_reducible apply State.setWatch_keeps
    | with_reducible apply kept_ite
    | with_reducible refine kept_fst (by assumption) ?_
    | with_reducible refine kept_snd (by assumption) ?_
    | extract_lets
    | split
    | fail_if_no_progress refine kept_mk ?_ rfl rfl
    | dsimp only
    | dsimp +zetaDelta only

/-! ### Tensor -/

theorem State.setTe_keeps {s : State} {p : Nat} {t : Te} 
    (hK : Kept wq wc s) :
    Kept wq wc (State.setTe s p t) := by
  unfold State.setTe
  repeat' first
    | with_reducible assumption
    | with_reducible intro _
    | with_reducible apply State.setClu_keeps
    | with_reducible apply kept_ite
    | with_reducible refine kept_fst (by assumption) ?_
    | with_reducible refine kept_snd (by assumption) ?_
    | extract_lets
    | split
    | fail_if_no_progress refine kept_mk ?_ rfl rfl
    | dsimp only
    | dsimp +zetaDelta only

theorem State.setRun_keeps {s : State} {p : Nat} {r : TeRun} 
    (hK : Kept wq wc s) :
    Kept wq wc (State.setRun s p r) := by
  unfold State.setRun
  repeat' first
    | with_reducible assumption
    | with_reducible intro _
    | with_reducible apply State.setTe_keeps
    | with_reducible apply kept_ite
    | with_reducible refine kept_fst (by assumption) ?_
    | with_reducible refine kept_snd (by assumption) ?_
    | extract_lets
    | split
    | fail_if_no_progress refine kept_mk ?_ rfl rfl
    | dsimp only
    | dsimp +zetaDelta only

theorem teFail_keeps {s : State} {p status detail : Nat} 
    (hK : Kept wq wc s) :
    Kept wq wc (teFail s p status detail) := by
  unfold teFail
  repeat' first
    | with_reducible assumption
    | with_reducible intro _
    | with_reducible apply State.setTe_keeps
    | with_reducible apply touchIdle_keeps
    | with_reducible apply opFail_keeps
    | with_reducible apply kept_ite
    | with_reducible refine kept_fst (by assumption) ?_
    | with_reducible refine kept_snd (by assumption) ?_
    | extract_lets
    | split
    | fail_if_no_progress refine kept_mk ?_ rfl rfl
    | dsimp only
    | dsimp +zetaDelta only

theorem teDone_keeps {s : State} {p : Nat} 
    (hK : Kept wq wc s) :
    Kept wq wc (teDone s p) := by
  unfold teDone
  repeat' first
    | with_reducible assumption
    | with_reducible intro _
    | with_reducible apply State.setTe_keeps
    | with_reducible apply noteLast_keeps
    | with_reducible apply touchIdle_keeps
    | with_reducible apply opDone_keeps
    | with_reducible apply kept_ite
    | with_reducible refine kept_fst (by assumption) ?_
    | with_reducible refine kept_snd (by assumption) ?_
    | extract_lets
    | split
    | fail_if_no_progress refine kept_mk ?_ rfl rfl
    | dsimp only
    | dsimp +zetaDelta only

theorem checkParcel_keeps {s : State} {p : Nat} {r : TeRun} {d : TDesc} {o other : Operand} {off : Nat}
    (h : Kept wq wc s) : Kept wq wc (checkParcel s p r d o other off).1 := by
  have h1 : ∀ k, Kept wq wc (parcelRead s k ⟨1, some r.item.slot⟩).1 := fun k => parcelRead_keeps h
  unfold checkParcel
  specialize h1 (storeKey p off)
  generalize parcelRead s (storeKey p off) ⟨1, some r.item.slot⟩ = x at h1 ⊢
  obtain ⟨s1, v⟩ := x
  extract_lets
  with_reducible apply kept_ite1
  · exact h
  · cases v with
    | ok b =>
      dsimp only at h1 ⊢
      with_reducible apply kept_ite1 <;> exact h1
    | fail st => exact h1
    | wait => exact h1

theorem checkParcels_keeps {s : State} {p : Nat} {r : TeRun} {d : TDesc} {o other : Operand} {l : List Nat} 
    (hK : Kept wq wc s) :
    Kept wq wc (checkParcels s p r d o other l).1 := by
  induction l generalizing s p r d o other with
  | nil =>
    unfold checkParcels
    repeat' first
      | with_reducible assumption
      | with_reducible intro _
      | with_reducible apply checkParcel_keeps
      | with_reducible apply ih
      | with_reducible apply kept_ite1
      | with_reducible apply kept_ite2
      | with_reducible apply kept_ite
      | with_reducible refine kept_fst (by assumption) ?_
      | with_reducible refine kept_snd (by assumption) ?_
      | extract_lets
      | split
      | fail_if_no_progress refine kept_mk ?_ rfl rfl
      | dsimp only
      | dsimp +zetaDelta only
  | cons e t ih =>
    unfold checkParcels
    repeat' first
      | with_reducible assumption
      | with_reducible intro _
      | with_reducible apply checkParcel_keeps
      | with_reducible apply ih
      | with_reducible apply kept_ite1
      | with_reducible apply kept_ite2
      | with_reducible apply kept_ite
      | with_reducible refine kept_fst (by assumption) ?_
      | with_reducible refine kept_snd (by assumption) ?_
      | extract_lets
      | split
      | fail_if_no_progress refine kept_mk ?_ rfl rfl
      | dsimp only
      | dsimp +zetaDelta only

theorem checkBlock_keeps {s : State} {p : Nat} {r : TeRun} {d : TDesc} {b r0 c0 : Nat} {first : Bool} 
    (hK : Kept wq wc s) :
    Kept wq wc (checkBlock s p r d b r0 c0 first).1 := by
  unfold checkBlock
  repeat' first
    | with_reducible assumption
    | with_reducible intro _
    | with_reducible apply checkParcels_keeps
    | with_reducible apply kept_ite1
    | with_reducible apply kept_ite2
    | with_reducible apply kept_ite
    | with_reducible refine kept_fst (by assumption) ?_
    | with_reducible refine kept_snd (by assumption) ?_
    | extract_lets
    | split
    | fail_if_no_progress refine kept_mk ?_ rfl rfl
    | dsimp only
    | dsimp +zetaDelta only

theorem checkBlocks_keeps {s : State} {p : Nat} {r : TeRun} {d : TDesc} {b r0 : Nat} {cols : List Nat} {first : Bool} 
    (hK : Kept wq wc s) :
    Kept wq wc (checkBlocks s p r d b r0 cols first).1 := by
  induction cols generalizing s p r d b r0 first with
  | nil =>
    unfold checkBlocks
    repeat' first
      | with_reducible assumption
      | with_reducible intro _
      | with_reducible apply checkBlock_keeps
      | with_reducible apply ih
      | with_reducible apply kept_ite1
      | with_reducible apply kept_ite2
      | with_reducible apply kept_ite
      | with_reducible refine kept_fst (by assumption) ?_
      | with_reducible refine kept_snd (by assumption) ?_
      | extract_lets
      | split
      | fail_if_no_progress refine kept_mk ?_ rfl rfl
      | dsimp only
      | dsimp +zetaDelta only
  | cons e t ih =>
    unfold checkBlocks
    repeat' first
      | with_reducible assumption
      | with_reducible intro _
      | with_reducible apply checkBlock_keeps
      | with_reducible apply ih
      | with_reducible apply kept_ite1
      | with_reducible apply kept_ite2
      | with_reducible apply kept_ite
      | with_reducible refine kept_fst (by assumption) ?_
      | with_reducible refine kept_snd (by assumption) ?_
      | extract_lets
      | split
      | fail_if_no_progress refine kept_mk ?_ rfl rfl
      | dsimp only
      | dsimp +zetaDelta only

theorem operandFail_keeps {s : State} {p : Nat} {e : Failed} 
    (hK : Kept wq wc s) :
    Kept wq wc (operandFail s p e) := by
  unfold operandFail
  repeat' first
    | with_reducible assumption
    | with_reducible intro _
    | with_reducible apply State.setTe_keeps
    | with_reducible apply teFail_keeps
    | with_reducible apply kept_ite
    | with_reducible refine kept_fst (by assumption) ?_
    | with_reducible refine kept_snd (by assumption) ?_
    | extract_lets
    | split
    | fail_if_no_progress refine kept_mk ?_ rfl rfl
    | dsimp only
    | dsimp +zetaDelta only

theorem startBand_keeps {s : State} {p : Nat} (h : Kept wq wc s) :
    Kept wq wc (startBand s p) := by
  unfold startBand
  split
  · exact h
  · extract_lets d b r0 oa y
    with_reducible apply kept_ite
    · exact h
    · have hx : Kept wq wc y.1 := by
        have h1 : ∀ r l, Kept wq wc (checkParcels s p r d oa (operandB d b) l).1 := fun r l => checkParcels_keeps h
        unfold y
        generalize operandParcels d oa r0 (min (r0 + 16) d.m) = l
        split
        · rename_i r1 _ e
          exact checkBlocks_keeps (kept_fst e (h1 _ _))
        · exact h1 _ l
      clear_value y
      split
      · exact hx
      · exact operandFail_keeps hx

theorem holdParcel_keeps {s : State} {p : Nat} {r : TeRun} {q : Nat} {formed lines : List Byte} {parity : Bool} 
    (hK : Kept wq wc s) :
    Kept wq wc (holdParcel s p r q formed lines parity) := by
  unfold holdParcel
  repeat' first
    | with_reducible assumption
    | with_reducible intro _
    | with_reducible apply State.setTe_keeps
    | with_reducible apply kept_ite
    | with_reducible refine kept_fst (by assumption) ?_
    | with_reducible refine kept_snd (by assumption) ?_
    | extract_lets
    | split
    | fail_if_no_progress refine kept_mk ?_ rfl rfl
    | dsimp only
    | dsimp +zetaDelta only

theorem releaseEnd_keeps {p : Nat} {r : TeRun} {d : TDesc} {q : Nat} {t : Tally} {x : State × Put}
    (h : Kept wq wc x.1) :
    Kept wq wc (releaseEnd p r d q t x) := by
  obtain ⟨s, v⟩ := x
  cases v with
  | double k => exact teFail_keeps h
  | fail st => exact teFail_keeps h
  | wait => exact h
  | ok =>
    unfold releaseEnd
    dsimp only
    with_reducible apply kept_ite
    · exact State.setTe_keeps h
    · exact opTally_keeps (opCount_keeps (State.setTe_keeps h))

theorem releaseParcel_keeps {s : State} {p : Nat} {r : TeRun} {d : TDesc} {q : Nat} {bytes : List Byte} {t : Tally}
    (h : Kept wq wc s) :
    Kept wq wc (releaseParcel s p r d q bytes t) := by
  unfold releaseParcel
  with_reducible apply releaseEnd_keeps
  with_reducible apply deliver_keeps
  exact h

theorem commitNext_keeps {s : State} {p : Nat} {r : TeRun} {d : TDesc} 
    (hK : Kept wq wc s) :
    Kept wq wc (commitNext s p r d) := by
  unfold commitNext
  repeat' first
    | with_reducible assumption
    | with_reducible intro _
    | with_reducible apply holdParcel_keeps
    | with_reducible apply releaseParcel_keeps
    | with_reducible apply kept_ite
    | with_reducible refine kept_fst (by assumption) ?_
    | with_reducible refine kept_snd (by assumption) ?_
    | extract_lets
    | split
    | fail_if_no_progress refine kept_mk ?_ rfl rfl
    | dsimp only
    | dsimp +zetaDelta only

theorem commitWhole_keeps {fuel : Nat} {s : State} {p : Nat} {whole : Nat → Bool} 
    (hK : Kept wq wc s) :
    Kept wq wc (commitWhole fuel s p whole) := by
  induction fuel generalizing s p whole with
  | zero =>
    unfold commitWhole
    repeat' first
      | with_reducible assumption
      | with_reducible intro _
      | with_reducible apply teDone_keeps
      | with_reducible apply commitNext_keeps
      | with_reducible apply ih
      | with_reducible apply kept_ite
      | with_reducible refine kept_fst (by assumption) ?_
      | with_reducible refine kept_snd (by assumption) ?_
      | extract_lets
      | split
      | fail_if_no_progress refine kept_mk ?_ rfl rfl
      | dsimp only
      | dsimp +zetaDelta only
  | succ n ih =>
    unfold commitWhole
    repeat' first
      | with_reducible assumption
      | with_reducible intro _
      | with_reducible apply teDone_keeps
      | with_reducible apply commitNext_keeps
      | with_reducible apply ih
      | with_reducible apply kept_ite
      | with_reducible refine kept_fst (by assumption) ?_
      | with_reducible refine kept_snd (by assumption) ?_
      | extract_lets
      | split
      | fail_if_no_progress refine kept_mk ?_ rfl rfl
      | dsimp only
      | dsimp +zetaDelta only

theorem commitBands_keeps {s : State} {p : Nat} 
    (hK : Kept wq wc s) :
    Kept wq wc (commitBands s p) := by
  unfold commitBands
  repeat' first
    | with_reducible assumption
    | with_reducible intro _
    | with_reducible apply commitWhole_keeps
    | with_reducible apply kept_ite
    | with_reducible refine kept_fst (by assumption) ?_
    | with_reducible refine kept_snd (by assumption) ?_
    | extract_lets
    | split
    | fail_if_no_progress refine kept_mk ?_ rfl rfl
    | dsimp only
    | dsimp +zetaDelta only

theorem teQueue_keeps {s : State} {p : Nat} {i : TeItem} 
    (hK : Kept wq wc s) :
    Kept wq wc (teQueue s p i) := by
  unfold teQueue
  repeat' first
    | with_reducible assumption
    | with_reducible intro _
    | with_reducible apply State.setTe_keeps
    | with_reducible apply kept_ite
    | with_reducible refine kept_fst (by assumption) ?_
    | with_reducible refine kept_snd (by assumption) ?_
    | extract_lets
    | split
    | fail_if_no_progress refine kept_mk ?_ rfl rfl
    | dsimp only
    | dsimp +zetaDelta only

theorem teAway_keeps {s : State} {p k : Nat} 
    (hK : Kept wq wc s) :
    Kept wq wc (teAway s p k) := by
  unfold teAway
  repeat' first
    | with_reducible assumption
    | with_reducible intro _
    | with_reducible apply State.setTe_keeps
    | with_reducible apply kept_ite
    | with_reducible refine kept_fst (by assumption) ?_
    | with_reducible refine kept_snd (by assumption) ?_
    | extract_lets
    | split
    | fail_if_no_progress refine kept_mk ?_ rfl rfl
    | dsimp only
    | dsimp +zetaDelta only

theorem addBeats_keeps {s : State} {n beats : Nat} 
    (hK : Kept wq wc s) :
    Kept wq wc (addBeats s n beats) := by
  unfold addBeats
  repeat' first
    | with_reducible assumption
    | with_reducible intro _
    | with_reducible apply State.setTile_keeps
    | with_reducible apply kept_ite
    | with_reducible refine kept_fst (by assumption) ?_
    | with_reducible refine kept_snd (by assumption) ?_
    | extract_lets
    | split
    | fail_if_no_progress refine kept_mk ?_ rfl rfl
    | dsimp only
    | dsimp +zetaDelta only

theorem writeRecord_keeps {s : State} {p : Nat} {tags : List Nat} {a : W64} {b : List Byte} 
    (hK : Kept wq wc s) :
    Kept wq wc (writeRecord s p tags a b).1 := by
  unfold writeRecord
  repeat' first
    | with_reducible assumption
    | with_reducible intro _
    | with_reducible apply writePlace_keeps
    | with_reducible apply parcelMerge_keeps
    | with_reducible apply remoteWrite_keeps
    | with_reducible apply kept_ite1
    | with_reducible apply kept_ite2
    | with_reducible apply kept_ite
    | with_reducible refine kept_fst (by assumption) ?_
    | with_reducible refine kept_snd (by assumption) ?_
    | extract_lets
    | split
    | fail_if_no_progress refine kept_mk ?_ rfl rfl
    | dsimp only
    | dsimp +zetaDelta only

theorem setSuspend_keeps {s : State} {p phase records : Nat} 
    (hK : Kept wq wc s) :
    Kept wq wc (setSuspend s p phase records) := by
  unfold setSuspend
  repeat' first
    | with_reducible assumption
    | with_reducible intro _
    | with_reducible apply State.setTe_keeps
    | with_reducible apply kept_ite
    | with_reducible refine kept_fst (by assumption) ?_
    | with_reducible refine kept_snd (by assumption) ?_
    | extract_lets
    | split
    | fail_if_no_progress refine kept_mk ?_ rfl rfl
    | dsimp only
    | dsimp +zetaDelta only

theorem setSusp_keeps {s : State} {p : Nat} {u : Susp} 
    (hK : Kept wq wc s) :
    Kept wq wc (setSusp s p u) := by
  unfold setSusp
  repeat' first
    | with_reducible assumption
    | with_reducible intro _
    | with_reducible apply State.setTe_keeps
    | with_reducible apply kept_ite
    | with_reducible refine kept_fst (by assumption) ?_
    | with_reducible refine kept_snd (by assumption) ?_
    | extract_lets
    | split
    | fail_if_no_progress refine kept_mk ?_ rfl rfl
    | dsimp only
    | dsimp +zetaDelta only

theorem suspendEnd_keeps {s : State} {p : Nat} {u : Susp} {f : Option Nat} 
    (hK : Kept wq wc s) :
    Kept wq wc (suspendEnd s p u f) := by
  unfold suspendEnd
  repeat' first
    | with_reducible assumption
    | with_reducible intro _
    | with_reducible apply teFail_keeps
    | with_reducible apply setSuspend_keeps
    | with_reducible apply reqDrop_keeps
    | with_reducible apply kept_ite
    | with_reducible refine kept_fst (by assumption) ?_
    | with_reducible refine kept_snd (by assumption) ?_
    | extract_lets
    | split
    | fail_if_no_progress refine kept_mk ?_ rfl rfl
    | dsimp only
    | dsimp +zetaDelta only

theorem suspendGo_keeps {fuel : Nat} {s : State} {p : Nat} 
    (hK : Kept wq wc s) :
    Kept wq wc (suspendGo fuel s p) := by
  induction fuel generalizing s p with
  | zero =>
    unfold suspendGo
    repeat' first
      | with_reducible assumption
      | with_reducible intro _
      | with_reducible apply suspendEnd_keeps
      | with_reducible apply writeRecord_keeps
      | with_reducible apply setSusp_keeps
      | with_reducible apply ih
      | with_reducible apply kept_ite
      | with_reducible refine kept_fst (by assumption) ?_
      | with_reducible refine kept_snd (by assumption) ?_
      | extract_lets
      | split
      | fail_if_no_progress refine kept_mk ?_ rfl rfl
      | dsimp only
      | dsimp +zetaDelta only
  | succ n ih =>
    unfold suspendGo
    repeat' first
      | with_reducible assumption
      | with_reducible intro _
      | with_reducible apply suspendEnd_keeps
      | with_reducible apply writeRecord_keeps
      | with_reducible apply setSusp_keeps
      | with_reducible apply ih
      | with_reducible apply kept_ite
      | with_reducible refine kept_fst (by assumption) ?_
      | with_reducible refine kept_snd (by assumption) ?_
      | extract_lets
      | split
      | fail_if_no_progress refine kept_mk ?_ rfl rfl
      | dsimp only
      | dsimp +zetaDelta only

theorem suspendBegin_keeps {s : State} {p : Nat} {r : TeRun} {recs : List (List Byte)} 
    (hK : Kept wq wc s) :
    Kept wq wc (suspendBegin s p r recs) := by
  unfold suspendBegin
  repeat' first
    | with_reducible assumption
    | with_reducible intro _
    | with_reducible apply suspendGo_keeps
    | with_reducible apply State.setTe_keeps
    | with_reducible apply kept_ite
    | with_reducible refine kept_fst (by assumption) ?_
    | with_reducible refine kept_snd (by assumption) ?_
    | extract_lets
    | split
    | fail_if_no_progress refine kept_mk ?_ rfl rfl
    | dsimp only
    | dsimp +zetaDelta only

theorem stopTensor_keeps {s : State} {p : Nat} {save : Bool} 
    (hK : Kept wq wc s) :
    Kept wq wc (stopTensor s p save) := by
  unfold stopTensor
  repeat' first
    | with_reducible assumption
    | with_reducible intro _
    | with_reducible apply State.takeFree_keeps
    | with_reducible apply commitWhole_keeps
    | with_reducible apply setSuspend_keeps
    | with_reducible apply suspendBegin_keeps
    | with_reducible apply teFail_keeps
    | with_reducible apply kept_ite
    | with_reducible refine kept_fst (by assumption) ?_
    | with_reducible refine kept_snd (by assumption) ?_
    | extract_lets
    | split
    | fail_if_no_progress refine kept_mk ?_ rfl rfl
    | dsimp only
    | dsimp +zetaDelta only

theorem actSuspend_keeps {s : State} {p : Nat} 
    (hK : Kept wq wc s) :
    Kept wq wc (actSuspend s p) := by
  unfold actSuspend
  repeat' first
    | with_reducible assumption
    | with_reducible intro _
    | with_reducible apply State.setTe_keeps
    | with_reducible apply setSuspend_keeps
    | with_reducible apply stopTensor_keeps
    | with_reducible apply kept_ite
    | with_reducible refine kept_fst (by assumption) ?_
    | with_reducible refine kept_snd (by assumption) ?_
    | extract_lets
    | split
    | fail_if_no_progress refine kept_mk ?_ rfl rfl
    | dsimp only
    | dsimp +zetaDelta only

theorem actTeAbort_keeps {s : State} {p : Nat} 
    (hK : Kept wq wc s) :
    Kept wq wc (actTeAbort s p) := by
  unfold actTeAbort
  repeat' first
    | with_reducible assumption
    | with_reducible intro _
    | with_reducible apply stopTensor_keeps
    | with_reducible apply kept_ite
    | with_reducible refine kept_fst (by assumption) ?_
    | with_reducible refine kept_snd (by assumption) ?_
    | extract_lets
    | split
    | fail_if_no_progress refine kept_mk ?_ rfl rfl
    | dsimp only
    | dsimp +zetaDelta only

theorem quiesceTensor_keeps {s : State} {p : Nat} 
    (hK : Kept wq wc s) :
    Kept wq wc (quiesceTensor s p) := by
  unfold quiesceTensor
  repeat' first
    | with_reducible assumption
    | with_reducible intro _
    | with_reducible apply setSuspend_keeps
    | with_reducible apply stopTensor_keeps
    | with_reducible apply kept_ite
    | with_reducible refine kept_fst (by assumption) ?_
    | with_reducible refine kept_snd (by assumption) ?_
    | extract_lets
    | split
    | fail_if_no_progress refine kept_mk ?_ rfl rfl
    | dsimp only
    | dsimp +zetaDelta only

theorem retryTe_keeps {s : State} {p : Nat} 
    (hK : Kept wq wc s) :
    Kept wq wc (retryTe s p) := by
  unfold retryTe
  repeat' first
    | with_reducible assumption
    | with_reducible intro _
    | with_reducible apply suspendGo_keeps
    | with_reducible apply commitBands_keeps
    | with_reducible apply kept_ite
    | with_reducible refine kept_fst (by assumption) ?_
    | with_reducible refine kept_snd (by assumption) ?_
    | extract_lets
    | split
    | fail_if_no_progress refine kept_mk ?_ rfl rfl
    | dsimp only
    | dsimp +zetaDelta only

theorem actWaBase_keeps {s : State} {p v : Nat} 
    (hK : Kept wq wc s) :
    Kept wq wc (actWaBase s p v) := by
  unfold actWaBase
  repeat' first
    | with_reducible assumption
    | with_reducible intro _
    | with_reducible apply State.setClu_keeps
    | with_reducible apply kept_ite
    | with_reducible refine kept_fst (by assumption) ?_
    | with_reducible refine kept_snd (by assumption) ?_
    | extract_lets
    | split
    | fail_if_no_progress refine kept_mk ?_ rfl rfl
    | dsimp only
    | dsimp +zetaDelta only

theorem setWait_keeps {s : State} {p : Nat} {w : SeqWait} 
    (hK : Kept wq wc s) :
    Kept wq wc (setWait s p w) := by
  unfold setWait
  repeat' first
    | with_reducible assumption
    | with_reducible intro _
    | with_reducible apply State.setSeq_keeps
    | with_reducible apply kept_ite
    | with_reducible refine kept_fst (by assumption) ?_
    | with_reducible refine kept_snd (by assumption) ?_
    | extract_lets
    | split
    | fail_if_no_progress refine kept_mk ?_ rfl rfl
    | dsimp only
    | dsimp +zetaDelta only

theorem ownRead_keeps {s : State} {p off len slot : Nat} 
    (hK : Kept wq wc s) :
    Kept wq wc (ownRead s p off len slot).1 := by
  unfold ownRead
  repeat' first
    | with_reducible assumption
    | with_reducible intro _
    | with_reducible apply parcelRead_keeps
    | with_reducible apply kept_ite1
    | with_reducible apply kept_ite2
    | with_reducible apply kept_ite
    | with_reducible refine kept_fst (by assumption) ?_
    | with_reducible refine kept_snd (by assumption) ?_
    | extract_lets
    | split
    | fail_if_no_progress refine kept_mk ?_ rfl rfl
    | dsimp only
    | dsimp +zetaDelta only

theorem scalarFault_keeps {s : State} {p status addr : Nat} {write : Bool} 
    (hK : Kept wq wc s) :
    Kept wq wc (scalarFault s p status addr write) := by
  unfold scalarFault
  repeat' first
    | with_reducible assumption
    | with_reducible intro _
    | with_reducible apply endProgram_keeps
    | with_reducible apply State.setSeq_keeps
    | with_reducible apply kept_ite
    | with_reducible refine kept_fst (by assumption) ?_
    | with_reducible refine kept_snd (by assumption) ?_
    | extract_lets
    | split
    | fail_if_no_progress refine kept_mk ?_ rfl rfl
    | dsimp only
    | dsimp +zetaDelta only

theorem teIssue_keeps {s : State} {p : Nat} {g : Prog} {off : Nat} 
    (hK : Kept wq wc s) :
    Kept wq wc (teIssue s p g off) := by
  unfold teIssue
  repeat' first
    | with_reducible assumption
    | with_reducible intro _
    | with_reducible apply setWait_keeps
    | with_reducible apply teAway_keeps
    | with_reducible apply ownRead_keeps
    | with_reducible apply retire_keeps
    | with_reducible apply teQueue_keeps
    | with_reducible apply scalarFault_keeps
    | with_reducible apply kept_ite
    | with_reducible refine kept_fst (by assumption) ?_
    | with_reducible refine kept_snd (by assumption) ?_
    | extract_lets
    | split
    | fail_if_no_progress refine kept_mk ?_ rfl rfl
    | dsimp only
    | dsimp +zetaDelta only

theorem teWait_keeps {s : State} {p : Nat} 
    (hK : Kept wq wc s) :
    Kept wq wc (teWait s p) := by
  unfold teWait
  repeat' first
    | with_reducible assumption
    | with_reducible intro _
    | with_reducible apply retire_keeps
    | with_reducible apply setWait_keeps
    | with_reducible apply kept_ite
    | with_reducible refine kept_fst (by assumption) ?_
    | with_reducible refine kept_snd (by assumption) ?_
    | extract_lets
    | split
    | fail_if_no_progress refine kept_mk ?_ rfl rfl
    | dsimp only
    | dsimp +zetaDelta only

/-! ### SolveAsm -/

theorem readParcels_keeps {s : State} {m : Nat} {u : By} {l : List Nat} 
    (hK : Kept wq wc s) :
    Kept wq wc (readParcels s m u l).1 := by
  induction l generalizing s m u with
  | nil =>
    unfold readParcels
    repeat' first
      | with_reducible assumption
      | with_reducible intro _
      | with_reducible apply localPlace_keeps
      | with_reducible apply parcelRead_keeps
      | with_reducible apply ih
      | with_reducible apply kept_ite1
      | with_reducible apply kept_ite2
      | with_reducible apply kept_ite
      | with_reducible refine kept_fst (by assumption) ?_
      | with_reducible refine kept_snd (by assumption) ?_
      | extract_lets
      | split
      | fail_if_no_progress refine kept_mk ?_ rfl rfl
      | dsimp only
      | dsimp +zetaDelta only
  | cons e t ih =>
    unfold readParcels
    repeat' first
      | with_reducible assumption
      | with_reducible intro _
      | with_reducible apply localPlace_keeps
      | with_reducible apply parcelRead_keeps
      | with_reducible apply ih
      | with_reducible apply kept_ite1
      | with_reducible apply kept_ite2
      | with_reducible apply kept_ite
      | with_reducible refine kept_fst (by assumption) ?_
      | with_reducible refine kept_snd (by assumption) ?_
      | extract_lets
      | split
      | fail_if_no_progress refine kept_mk ?_ rfl rfl
      | dsimp only
      | dsimp +zetaDelta only

theorem readAt_keeps {s : State} {m : Nat} {u : By} {a len : Nat} 
    (hK : Kept wq wc s) :
    Kept wq wc (readAt s m u a len).1 := by
  unfold readAt
  repeat' first
    | with_reducible assumption
    | with_reducible intro _
    | with_reducible apply readParcels_keeps
    | with_reducible apply kept_ite1
    | with_reducible apply kept_ite2
    | with_reducible apply kept_ite
    | with_reducible refine kept_fst (by assumption) ?_
    | with_reducible refine kept_snd (by assumption) ?_
    | extract_lets
    | split
    | fail_if_no_progress refine kept_mk ?_ rfl rfl
    | dsimp only
    | dsimp +zetaDelta only

theorem putParcel_keeps {s : State} {m slot k : Nat} {data : List Byte} 
    (hK : Kept wq wc s) :
    Kept wq wc (putParcel s m slot k data).1 := by
  unfold putParcel
  repeat' first
    | with_reducible assumption
    | with_reducible intro _
    | with_reducible apply localPlace_keeps
    | with_reducible apply deliver_keeps
    | with_reducible apply kept_ite1
    | with_reducible apply kept_ite2
    | with_reducible apply kept_ite
    | with_reducible refine kept_fst (by assumption) ?_
    | with_reducible refine kept_snd (by assumption) ?_
    | extract_lets
    | split
    | fail_if_no_progress refine kept_mk ?_ rfl rfl
    | dsimp only
    | dsimp +zetaDelta only

theorem putParcels_keeps {s : State} {m slot a : Nat} {l : List (List Byte)} 
    (hK : Kept wq wc s) :
    Kept wq wc (putParcels s m slot a l).1 := by
  induction l generalizing s m slot a with
  | nil =>
    unfold putParcels
    repeat' first
      | with_reducible assumption
      | with_reducible intro _
      | with_reducible apply putParcel_keeps
      | with_reducible apply ih
      | with_reducible apply kept_ite1
      | with_reducible apply kept_ite2
      | with_reducible apply kept_ite
      | with_reducible refine kept_fst (by assumption) ?_
      | with_reducible refine kept_snd (by assumption) ?_
      | extract_lets
      | split
      | fail_if_no_progress refine kept_mk ?_ rfl rfl
      | dsimp only
      | dsimp +zetaDelta only
  | cons e t ih =>
    unfold putParcels
    repeat' first
      | with_reducible assumption
      | with_reducible intro _
      | with_reducible apply putParcel_keeps
      | with_reducible apply ih
      | with_reducible apply kept_ite1
      | with_reducible apply kept_ite2
      | with_reducible apply kept_ite
      | with_reducible refine kept_fst (by assumption) ?_
      | with_reducible refine kept_snd (by assumption) ?_
      | extract_lets
      | split
      | fail_if_no_progress refine kept_mk ?_ rfl rfl
      | dsimp only
      | dsimp +zetaDelta only

theorem readHdr_keeps {s : State} {m : Nat} {u : By} {a : Nat} 
    (hK : Kept wq wc s) :
    Kept wq wc (readHdr s m u a).1 := by
  unfold readHdr
  repeat' first
    | with_reducible assumption
    | with_reducible intro _
    | with_reducible apply readAt_keeps
    | with_reducible apply kept_ite1
    | with_reducible apply kept_ite2
    | with_reducible apply kept_ite
    | with_reducible refine kept_fst (by assumption) ?_
    | with_reducible refine kept_snd (by assumption) ?_
    | extract_lets
    | split
    | fail_if_no_progress refine kept_mk ?_ rfl rfl
    | dsimp only
    | dsimp +zetaDelta only

theorem sysOfRegions_keeps {h : SHdr} {nrhs : Nat} {x : State × Except (Nat × Nat) (List Byte)}
    (hK : Kept wq wc x.1) :
    Kept wq wc (sysOfRegions h nrhs x).1 := by
  obtain ⟨s, v⟩ := x
  cases v <;> exact hK

theorem readStore_keeps {s : State} {m : Nat} {u : By} {a nrhs : Nat} (h : Kept wq wc s) :
    Kept wq wc (readStore s m u a nrhs).1 := by
  have h1 := readHdr_keeps (m := m) (u := u) (a := a) h
  unfold readStore
  generalize readHdr s m u a = x at h1 ⊢
  obtain ⟨s1, v⟩ := x
  cases v with
  | error e => exact h1
  | ok hd =>
    with_reducible apply sysOfRegions_keeps
    with_reducible apply readAt_keeps
    exact h1

theorem assembleAt_keeps {s : State} {m : Nat} {u : By} {t : STab} {base : Nat} 
    (hK : Kept wq wc s) :
    Kept wq wc (assembleAt s m u t base).1 := by
  unfold assembleAt
  repeat' first
    | with_reducible assumption
    | with_reducible intro _
    | with_reducible apply readStore_keeps
    | with_reducible apply readAt_keeps
    | with_reducible apply kept_ite1
    | with_reducible apply kept_ite2
    | with_reducible apply kept_ite
    | with_reducible refine kept_fst (by assumption) ?_
    | with_reducible refine kept_snd (by assumption) ?_
    | extract_lets
    | split
    | fail_if_no_progress refine kept_mk ?_ rfl rfl
    | dsimp only
    | dsimp +zetaDelta only

theorem assembleRhs_keeps {s : State} {m : Nat} {u : By} {r : SReq} {t : STab} {n : Nat} 
    (hK : Kept wq wc s) :
    Kept wq wc (assembleRhs s m u r t n).1 := by
  unfold assembleRhs
  repeat' first
    | with_reducible assumption
    | with_reducible intro _
    | with_reducible apply readAt_keeps
    | with_reducible apply readHdr_keeps
    | with_reducible apply readStore_keeps
    | with_reducible apply kept_ite1
    | with_reducible apply kept_ite2
    | with_reducible apply kept_ite
    | with_reducible refine kept_fst (by assumption) ?_
    | with_reducible refine kept_snd (by assumption) ?_
    | extract_lets
    | split
    | fail_if_no_progress refine kept_mk ?_ rfl rfl
    | dsimp only
    | dsimp +zetaDelta only

theorem assemble_keeps {s : State} {m : Nat} {u : By} {r : SReq} {t : STab} 
    (hK : Kept wq wc s) :
    Kept wq wc (assemble s m u r t).1 := by
  unfold assemble
  repeat' first
    | with_reducible assumption
    | with_reducible intro _
    | with_reducible apply assembleAt_keeps
    | with_reducible apply assembleRhs_keeps
    | with_reducible apply readAt_keeps
    | with_reducible apply kept_ite1
    | with_reducible apply kept_ite2
    | with_reducible apply kept_ite
    | with_reducible refine kept_fst (by assumption) ?_
    | with_reducible refine kept_snd (by assumption) ?_
    | extract_lets
    | split
    | fail_if_no_progress refine kept_mk ?_ rfl rfl
    | dsimp only
    | dsimp +zetaDelta only

/-! ### StackEngine -/

theorem setSeRun_keeps {s : State} {t : Nat} {r : Option SeRun} 
    (hK : Kept wq wc s) :
    Kept wq wc (setSeRun s t r) := by
  unfold setSeRun
  repeat' first
    | with_reducible assumption
    | with_reducible intro _
    | with_reducible apply State.setSeg_keeps
    | with_reducible apply kept_ite
    | with_reducible refine kept_fst (by assumption) ?_
    | with_reducible refine kept_snd (by assumption) ?_
    | extract_lets
    | split
    | fail_if_no_progress refine kept_mk ?_ rfl rfl
    | dsimp only
    | dsimp +zetaDelta only

theorem dropSeRun_keeps {s : State} {t : Nat} {r : SeRun} {st : StageSt} 
    (hK : Kept wq wc s) :
    Kept wq wc (dropSeRun s t r st) := by
  unfold dropSeRun
  repeat' first
    | with_reducible assumption
    | with_reducible intro _
    | with_reducible apply reqDrop_keeps
    | with_reducible apply setSeRun_keeps
    | with_reducible apply State.setSeg_keeps
    | with_reducible apply kept_ite
    | with_reducible refine kept_fst (by assumption) ?_
    | with_reducible refine kept_snd (by assumption) ?_
    | extract_lets
    | split
    | fail_if_no_progress refine kept_mk ?_ rfl rfl
    | dsimp only
    | dsimp +zetaDelta only

theorem seFail_keeps {s : State} {t : Nat} {r : SeRun} {status detail : Nat} 
    (hK : Kept wq wc s) :
    Kept wq wc (seFail s t r status detail) := by
  unfold seFail
  repeat' first
    | with_reducible assumption
    | with_reducible intro _
    | with_reducible apply opFail_keeps
    | with_reducible apply dropSeRun_keeps
    | with_reducible apply kept_ite
    | with_reducible refine kept_fst (by assumption) ?_
    | with_reducible refine kept_snd (by assumption) ?_
    | extract_lets
    | split
    | fail_if_no_progress refine kept_mk ?_ rfl rfl
    | dsimp only
    | dsimp +zetaDelta only

theorem seReadFail_keeps {s : State} {t : Nat} {r : SeRun} {j status a : Nat} 
    (hK : Kept wq wc s) :
    Kept wq wc (seReadFail s t r j status a) := by
  unfold seReadFail
  repeat' first
    | with_reducible assumption
    | with_reducible intro _
    | with_reducible apply State.setSest_keeps
    | with_reducible apply seFail_keeps
    | with_reducible apply kept_ite
    | with_reducible refine kept_fst (by assumption) ?_
    | with_reducible refine kept_snd (by assumption) ?_
    | extract_lets
    | split
    | fail_if_no_progress refine kept_mk ?_ rfl rfl
    | dsimp only
    | dsimp +zetaDelta only

theorem seRead_keeps {s : State} {t slot : Nat} {l : List Nat} 
    (hK : Kept wq wc s) :
    Kept wq wc (seRead s t slot l).1 := by
  induction l generalizing s t slot with
  | nil =>
    unfold seRead
    repeat' first
      | with_reducible assumption
      | with_reducible intro _
      | with_reducible apply readParcels_keeps
      | with_reducible apply ih
      | with_reducible apply kept_ite1
      | with_reducible apply kept_ite2
      | with_reducible apply kept_ite
      | with_reducible refine kept_fst (by assumption) ?_
      | with_reducible refine kept_snd (by assumption) ?_
      | extract_lets
      | split
      | fail_if_no_progress refine kept_mk ?_ rfl rfl
      | dsimp only
      | dsimp +zetaDelta only
  | cons e t ih =>
    unfold seRead
    repeat' first
      | with_reducible assumption
      | with_reducible intro _
      | with_reducible apply readParcels_keeps
      | with_reducible apply ih
      | with_reducible apply kept_ite1
      | with_reducible apply kept_ite2
      | with_reducible apply kept_ite
      | with_reducible refine kept_fst (by assumption) ?_
      | with_reducible refine kept_snd (by assumption) ?_
      | extract_lets
      | split
      | fail_if_no_progress refine kept_mk ?_ rfl rfl
      | dsimp only
      | dsimp +zetaDelta only

theorem seWriteAll_keeps {s : State} {t slot : Nat} {l : List (Nat × List Byte)} {w : Wrote} 
    (hK : Kept wq wc s) :
    Kept wq wc (seWriteAll s t slot l w).1 := by
  induction l generalizing s t slot w with
  | nil =>
    unfold seWriteAll
    repeat' first
      | with_reducible assumption
      | with_reducible intro _
      | with_reducible apply localPlace_keeps
      | with_reducible apply deliver_keeps
      | with_reducible apply ih
      | with_reducible apply kept_ite1
      | with_reducible apply kept_ite2
      | with_reducible apply kept_ite
      | with_reducible refine kept_fst (by assumption) ?_
      | with_reducible refine kept_snd (by assumption) ?_
      | extract_lets
      | split
      | fail_if_no_progress refine kept_mk ?_ rfl rfl
      | dsimp only
      | dsimp +zetaDelta only
  | cons e t ih =>
    unfold seWriteAll
    repeat' first
      | with_reducible assumption
      | with_reducible intro _
      | with_reducible apply localPlace_keeps
      | with_reducible apply deliver_keeps
      | with_reducible apply ih
      | with_reducible apply kept_ite1
      | with_reducible apply kept_ite2
      | with_reducible apply kept_ite
      | with_reducible refine kept_fst (by assumption) ?_
      | with_reducible refine kept_snd (by assumption) ?_
      | extract_lets
      | split
      | fail_if_no_progress refine kept_mk ?_ rfl rfl
      | dsimp only
      | dsimp +zetaDelta only

theorem seWork_keeps {s : State} {t : Nat} {r : SeRun} {j : Nat} 
    (hK : Kept wq wc s) :
    Kept wq wc (seWork s t r j) := by
  unfold seWork
  repeat' first
    | with_reducible assumption
    | with_reducible intro _
    | with_reducible apply State.setSest_keeps
    | with_reducible apply kept_ite
    | with_reducible refine kept_fst (by assumption) ?_
    | with_reducible refine kept_snd (by assumption) ?_
    | extract_lets
    | split
    | fail_if_no_progress refine kept_mk ?_ rfl rfl
    | dsimp only
    | dsimp +zetaDelta only

theorem sePost_keeps {s : State} {t : Nat} {r : SeRun} {j parcel : Nat} {x : Tally} {groups skips : Nat} 
    (hK : Kept wq wc s) :
    Kept wq wc (sePost s t r j parcel x groups skips) := by
  unfold sePost
  repeat' first
    | with_reducible assumption
    | with_reducible intro _
    | with_reducible apply opTally_keeps
    | with_reducible apply State.setSest_keeps
    | with_reducible apply kept_ite
    | with_reducible refine kept_fst (by assumption) ?_
    | with_reducible refine kept_snd (by assumption) ?_
    | extract_lets
    | split
    | fail_if_no_progress refine kept_mk ?_ rfl rfl
    | dsimp only
    | dsimp +zetaDelta only

theorem updateStep_keeps {s : State} {t : Nat} {r : SeRun} 
    (hK : Kept wq wc s) :
    Kept wq wc (updateStep s t r) := by
  unfold updateStep
  repeat' first
    | with_reducible assumption
    | with_reducible intro _
    | with_reducible apply opDone_keeps
    | with_reducible apply dropSeRun_keeps
    | with_reducible apply seRead_keeps
    | with_reducible apply seWork_keeps
    | with_reducible apply seReadFail_keeps
    | with_reducible apply setSeRun_keeps
    | with_reducible apply sePost_keeps
    | with_reducible apply seWriteAll_keeps
    | with_reducible apply opCount_keeps
    | with_reducible apply seFail_keeps
    | with_reducible apply kept_foldl
    | with_reducible apply kept_foldl1
    | with_reducible apply kept_foldl2
    | with_reducible apply kept_ite
    | with_reducible refine kept_fst (by assumption) ?_
    | with_reducible refine kept_snd (by assumption) ?_
    | extract_lets
    | split
    | fail_if_no_progress refine kept_mk ?_ rfl rfl
    | dsimp only
    | dsimp +zetaDelta only

theorem seFetch_keeps {s : State} {t slot : Nat} {tags : List Nat} {l : List Nat} 
    (hK : Kept wq wc s) :
    Kept wq wc (seFetch s t slot tags l).1 := by
  induction l generalizing s t slot tags with
  | nil =>
    unfold seFetch
    repeat' first
      | with_reducible assumption
      | with_reducible intro _
      | with_reducible apply busParcel_keeps
      | with_reducible apply ih
      | with_reducible apply kept_ite1
      | with_reducible apply kept_ite2
      | with_reducible apply kept_ite
      | with_reducible refine kept_fst (by assumption) ?_
      | with_reducible refine kept_snd (by assumption) ?_
      | extract_lets
      | split
      | fail_if_no_progress refine kept_mk ?_ rfl rfl
      | dsimp only
      | dsimp +zetaDelta only
  | cons e t ih =>
    unfold seFetch
    repeat' first
      | with_reducible assumption
      | with_reducible intro _
      | with_reducible apply busParcel_keeps
      | with_reducible apply ih
      | with_reducible apply kept_ite1
      | with_reducible apply kept_ite2
      | with_reducible apply kept_ite
      | with_reducible refine kept_fst (by assumption) ?_
      | with_reducible refine kept_snd (by assumption) ?_
      | extract_lets
      | split
      | fail_if_no_progress refine kept_mk ?_ rfl rfl
      | dsimp only
      | dsimp +zetaDelta only

theorem reduceStep_keeps {s : State} {t : Nat} {r : SeRun} 
    (hK : Kept wq wc s) :
    Kept wq wc (reduceStep s t r) := by
  unfold reduceStep
  repeat' first
    | with_reducible assumption
    | with_reducible intro _
    | with_reducible apply opDone_keeps
    | with_reducible apply dropSeRun_keeps
    | with_reducible apply seFetch_keeps
    | with_reducible apply seWork_keeps
    | with_reducible apply setSeRun_keeps
    | with_reducible apply seReadFail_keeps
    | with_reducible apply seWriteAll_keeps
    | with_reducible apply seFail_keeps
    | with_reducible apply opCount_keeps
    | with_reducible apply reqDrop_keeps
    | with_reducible apply sePost_keeps
    | with_reducible apply kept_ite
    | with_reducible refine kept_fst (by assumption) ?_
    | with_reducible refine kept_snd (by assumption) ?_
    | extract_lets
    | split
    | fail_if_no_progress refine kept_mk ?_ rfl rfl
    | dsimp only
    | dsimp +zetaDelta only

theorem gatherStep_keeps {s : State} {t : Nat} {r : SeRun} 
    (hK : Kept wq wc s) :
    Kept wq wc (gatherStep s t r) := by
  unfold gatherStep
  repeat' first
    | with_reducible assumption
    | with_reducible intro _
    | with_reducible apply opDone_keeps
    | with_reducible apply dropSeRun_keeps
    | with_reducible apply seFetch_keeps
    | with_reducible apply seWork_keeps
    | with_reducible apply setSeRun_keeps
    | with_reducible apply seReadFail_keeps
    | with_reducible apply seWriteAll_keeps
    | with_reducible apply seFail_keeps
    | with_reducible apply opCount_keeps
    | with_reducible apply reqDrop_keeps
    | with_reducible apply kept_ite
    | with_reducible refine kept_fst (by assumption) ?_
    | with_reducible refine kept_snd (by assumption) ?_
    | extract_lets
    | split
    | fail_if_no_progress refine kept_mk ?_ rfl rfl
    | dsimp only
    | dsimp +zetaDelta only

theorem verifyList_keeps {s : State} {t : Nat} {r : SeRun} {a : Nat} {l : List (List Byte)} {n : Nat} 
    (hK : Kept wq wc s) :
    Kept wq wc (verifyList s t r a l n) := by
  induction l generalizing s t r a n with
  | nil =>
    unfold verifyList
    repeat' first
      | with_reducible assumption
      | with_reducible intro _
      | with_reducible apply opDone_keeps
      | with_reducible apply dropSeRun_keeps
      | with_reducible apply writePlace_keeps
      | with_reducible apply deliver_keeps
      | with_reducible apply opCount_keeps
      | with_reducible apply seReadFail_keeps
      | with_reducible apply seFail_keeps
      | with_reducible apply ih
      | with_reducible apply kept_ite
      | with_reducible refine kept_fst (by assumption) ?_
      | with_reducible refine kept_snd (by assumption) ?_
      | extract_lets
      | split
      | fail_if_no_progress refine kept_mk ?_ rfl rfl
      | dsimp only
      | dsimp +zetaDelta only
  | cons e t ih =>
    unfold verifyList
    repeat' first
      | with_reducible assumption
      | with_reducible intro _
      | with_reducible apply opDone_keeps
      | with_reducible apply dropSeRun_keeps
      | with_reducible apply writePlace_keeps
      | with_reducible apply deliver_keeps
      | with_reducible apply opCount_keeps
      | with_reducible apply seReadFail_keeps
      | with_reducible apply seFail_keeps
      | with_reducible apply ih
      | with_reducible apply kept_ite
      | with_reducible refine kept_fst (by assumption) ?_
      | with_reducible refine kept_snd (by assumption) ?_
      | extract_lets
      | split
      | fail_if_no_progress refine kept_mk ?_ rfl rfl
      | dsimp only
      | dsimp +zetaDelta only

theorem verifyStep_keeps {s : State} {t : Nat} {r : SeRun} 
    (hK : Kept wq wc s) :
    Kept wq wc (verifyStep s t r) := by
  unfold verifyStep
  repeat' first
    | with_reducible assumption
    | with_reducible intro _
    | with_reducible apply verifyList_keeps
    | with_reducible apply seRead_keeps
    | with_reducible apply seWork_keeps
    | with_reducible apply setSeRun_keeps
    | with_reducible apply State.setSest_keeps
    | with_reducible apply seReadFail_keeps
    | with_reducible apply kept_ite
    | with_reducible refine kept_fst (by assumption) ?_
    | with_reducible refine kept_snd (by assumption) ?_
    | extract_lets
    | split
    | fail_if_no_progress refine kept_mk ?_ rfl rfl
    | dsimp only
    | dsimp +zetaDelta only

theorem seBegin_keeps {s : State} {t slot : Nat} {b : List Byte} {sources : List (Nat × Nat)} 
    (hK : Kept wq wc s) :
    Kept wq wc (seBegin s t slot b sources) := by
  unfold seBegin
  repeat' first
    | with_reducible assumption
    | with_reducible intro _
    | with_reducible apply State.setSeg_keeps
    | with_reducible apply opStart_keeps
    | with_reducible apply kept_ite
    | with_reducible refine kept_fst (by assumption) ?_
    | with_reducible refine kept_snd (by assumption) ?_
    | extract_lets
    | split
    | fail_if_no_progress refine kept_mk ?_ rfl rfl
    | dsimp only
    | dsimp +zetaDelta only

theorem sePop_keeps {s : State} {t : Nat} 
    (hK : Kept wq wc s) :
    Kept wq wc (sePop s t) := by
  unfold sePop
  repeat' first
    | with_reducible assumption
    | with_reducible intro _
    | with_reducible apply State.setSeg_keeps
    | with_reducible apply kept_ite
    | with_reducible refine kept_fst (by assumption) ?_
    | with_reducible refine kept_snd (by assumption) ?_
    | extract_lets
    | split
    | fail_if_no_progress refine kept_mk ?_ rfl rfl
    | dsimp only
    | dsimp +zetaDelta only

theorem seGated_keeps {s : State} {t slot : Nat} {b : List Byte} {reason : Nat} 
    (hK : Kept wq wc s) :
    Kept wq wc (seGated s t slot b reason) := by
  unfold seGated
  repeat' first
    | with_reducible assumption
    | with_reducible intro _
    | with_reducible apply opFinal_keeps
    | with_reducible apply opStart_keeps
    | with_reducible apply sePop_keeps
    | with_reducible apply kept_ite
    | with_reducible refine kept_fst (by assumption) ?_
    | with_reducible refine kept_snd (by assumption) ?_
    | extract_lets
    | split
    | fail_if_no_progress refine kept_mk ?_ rfl rfl
    | dsimp only
    | dsimp +zetaDelta only

theorem seList_keeps {s : State} {t slot : Nat} {b : List Byte} 
    (hK : Kept wq wc s) :
    Kept wq wc (seList s t slot b) := by
  unfold seList
  repeat' first
    | with_reducible assumption
    | with_reducible intro _
    | with_reducible apply readAt_keeps
    | with_reducible apply seWork_keeps
    | with_reducible apply seReadFail_keeps
    | with_reducible apply seFail_keeps
    | with_reducible apply setSeRun_keeps
    | with_reducible apply kept_ite
    | with_reducible refine kept_fst (by assumption) ?_
    | with_reducible refine kept_snd (by assumption) ?_
    | extract_lets
    | split
    | fail_if_no_progress refine kept_mk ?_ rfl rfl
    | dsimp only
    | dsimp +zetaDelta only

theorem seStart_keeps {s : State} {t slot : Nat} {b : List Byte} 
    (hK : Kept wq wc s) :
    Kept wq wc (seStart s t slot b) := by
  unfold seStart
  repeat' first
    | with_reducible assumption
    | with_reducible intro _
    | with_reducible apply seBegin_keeps
    | with_reducible apply seGated_keeps
    | with_reducible apply State.setSeg_keeps
    | with_reducible apply seList_keeps
    | with_reducible apply kept_ite
    | with_reducible refine kept_fst (by assumption) ?_
    | with_reducible refine kept_snd (by assumption) ?_
    | extract_lets
    | split
    | fail_if_no_progress refine kept_mk ?_ rfl rfl
    | dsimp only
    | dsimp +zetaDelta only

theorem seStep_keeps {s : State} {t : Nat} {r : SeRun} 
    (hK : Kept wq wc s) :
    Kept wq wc (seStep s t r) := by
  unfold seStep
  repeat' first
    | with_reducible assumption
    | with_reducible intro _
    | with_reducible apply updateStep_keeps
    | with_reducible apply reduceStep_keeps
    | with_reducible apply gatherStep_keeps
    | with_reducible apply opDone_keeps
    | with_reducible apply dropSeRun_keeps
    | with_reducible apply verifyStep_keeps
    | with_reducible apply kept_ite
    | with_reducible refine kept_fst (by assumption) ?_
    | with_reducible refine kept_snd (by assumption) ?_
    | extract_lets
    | split
    | fail_if_no_progress refine kept_mk ?_ rfl rfl
    | dsimp only
    | dsimp +zetaDelta only

theorem seAdvance_keeps {k : Nat} {s : State} {t op : Nat} 
    (hK : Kept wq wc s) :
    Kept wq wc (seAdvance k s t op) := by
  induction k generalizing s t op with
  | zero =>
    unfold seAdvance
    repeat' first
      | with_reducible assumption
      | with_reducible intro _
      | with_reducible apply seStep_keeps
      | with_reducible apply seStart_keeps
      | with_reducible apply ih
      | with_reducible apply kept_ite
      | with_reducible refine kept_fst (by assumption) ?_
      | with_reducible refine kept_snd (by assumption) ?_
      | extract_lets
      | split
      | fail_if_no_progress refine kept_mk ?_ rfl rfl
      | dsimp only
      | dsimp +zetaDelta only
  | succ n ih =>
    unfold seAdvance
    repeat' first
      | with_reducible assumption
      | with_reducible intro _
      | with_reducible apply seStep_keeps
      | with_reducible apply seStart_keeps
      | with_reducible apply ih
      | with_reducible apply kept_ite
      | with_reducible refine kept_fst (by assumption) ?_
      | with_reducible refine kept_snd (by assumption) ?_
      | extract_lets
      | split
      | fail_if_no_progress refine kept_mk ?_ rfl rfl
      | dsimp only
      | dsimp +zetaDelta only

theorem actSeAbort_keeps {s : State} {t : Nat} 
    (hK : Kept wq wc s) :
    Kept wq wc (actSeAbort s t) := by
  unfold actSeAbort
  repeat' first
    | with_reducible assumption
    | with_reducible intro _
    | with_reducible apply seFail_keeps
    | with_reducible apply opFail_keeps
    | with_reducible apply sePop_keeps
    | with_reducible apply kept_ite
    | with_reducible refine kept_fst (by assumption) ?_
    | with_reducible refine kept_snd (by assumption) ?_
    | extract_lets
    | split
    | fail_if_no_progress refine kept_mk ?_ rfl rfl
    | dsimp only
    | dsimp +zetaDelta only

/-! ### Collective -/

theorem sendJoins_keeps {s : State} {b : List Byte} {chips ranks : List Nat} 
    (hK : Kept wq wc s) :
    Kept wq wc (sendJoins s b chips ranks) := by
  unfold sendJoins
  repeat' first
    | with_reducible assumption
    | with_reducible intro _
    | with_reducible apply State.sendAll_keeps
    | with_reducible apply kept_ite
    | with_reducible refine kept_fst (by assumption) ?_
    | with_reducible refine kept_snd (by assumption) ?_
    | extract_lets
    | split
    | fail_if_no_progress refine kept_mk ?_ rfl rfl
    | dsimp only
    | dsimp +zetaDelta only

theorem sendReadDone_keeps {s : State} {b : List Byte} {chips : List Nat} 
    (hK : Kept wq wc s) :
    Kept wq wc (sendReadDone s b chips) := by
  unfold sendReadDone
  repeat' first
    | with_reducible assumption
    | with_reducible intro _
    | with_reducible apply State.sendAll_keeps
    | with_reducible apply kept_ite
    | with_reducible refine kept_fst (by assumption) ?_
    | with_reducible refine kept_snd (by assumption) ?_
    | extract_lets
    | split
    | fail_if_no_progress refine kept_mk ?_ rfl rfl
    | dsimp only
    | dsimp +zetaDelta only

theorem setColl_keeps {s : State} {c : Nat} {r : Option CollRun} 
    (hK : Kept wq wc s) :
    Kept wq wc (setColl s c r) := by
  unfold setColl
  repeat' first
    | with_reducible assumption
    | with_reducible intro _
    | with_reducible apply State.setComm_keeps
    | with_reducible apply kept_ite
    | with_reducible refine kept_fst (by assumption) ?_
    | with_reducible refine kept_snd (by assumption) ?_
    | extract_lets
    | split
    | fail_if_no_progress refine kept_mk ?_ rfl rfl
    | dsimp only
    | dsimp +zetaDelta only

theorem collFail_keeps {s : State} {slot : Nat} {b : List Byte} {status detail : Nat} 
    (hK : Kept wq wc s) :
    Kept wq wc (collFail s slot b status detail) := by
  unfold collFail
  repeat' first
    | with_reducible assumption
    | with_reducible intro _
    | with_reducible apply State.setComm_keeps
    | with_reducible apply opFail_keeps
    | with_reducible apply setColl_keeps
    | with_reducible apply reqDrop_keeps
    | with_reducible apply kept_ite
    | with_reducible refine kept_fst (by assumption) ?_
    | with_reducible refine kept_snd (by assumption) ?_
    | extract_lets
    | split
    | fail_if_no_progress refine kept_mk ?_ rfl rfl
    | dsimp only
    | dsimp +zetaDelta only

theorem collMiss_keeps {s : State} {slot : Nat} {b : List Byte} 
    (hK : Kept wq wc s) :
    Kept wq wc (collMiss s slot b) := by
  unfold collMiss
  repeat' first
    | with_reducible assumption
    | with_reducible intro _
    | with_reducible apply collFail_keeps
    | with_reducible apply kept_ite
    | with_reducible refine kept_fst (by assumption) ?_
    | with_reducible refine kept_snd (by assumption) ?_
    | extract_lets
    | split
    | fail_if_no_progress refine kept_mk ?_ rfl rfl
    | dsimp only
    | dsimp +zetaDelta only

theorem collEnd_keeps {s : State} {slot : Nat} {b : List Byte} {status detail : Nat} 
    (hK : Kept wq wc s) :
    Kept wq wc (collEnd s slot b status detail) := by
  unfold collEnd
  repeat' first
    | with_reducible assumption
    | with_reducible intro _
    | with_reducible apply collMiss_keeps
    | with_reducible apply collFail_keeps
    | with_reducible apply kept_ite
    | with_reducible refine kept_fst (by assumption) ?_
    | with_reducible refine kept_snd (by assumption) ?_
    | extract_lets
    | split
    | fail_if_no_progress refine kept_mk ?_ rfl rfl
    | dsimp only
    | dsimp +zetaDelta only

theorem collCheck_keeps {s : State} {c : Nat} 
    (hK : Kept wq wc s) :
    Kept wq wc (collCheck s c) := by
  unfold collCheck
  repeat' first
    | with_reducible assumption
    | with_reducible intro _
    | with_reducible apply collMiss_keeps
    | with_reducible apply opDone_keeps
    | with_reducible apply setColl_keeps
    | with_reducible apply reqDrop_keeps
    | with_reducible apply kept_ite
    | with_reducible refine kept_fst (by assumption) ?_
    | with_reducible refine kept_snd (by assumption) ?_
    | extract_lets
    | split
    | fail_if_no_progress refine kept_mk ?_ rfl rfl
    | dsimp only
    | dsimp +zetaDelta only

theorem collQueued_keeps {s : State} {slot : Nat} {chips : List Nat} 
    (hK : Kept wq wc s) :
    Kept wq wc (collQueued s slot chips) := by
  unfold collQueued
  repeat' first
    | with_reducible assumption
    | with_reducible intro _
    | with_reducible apply State.setOp_keeps
    | with_reducible apply kept_ite
    | with_reducible refine kept_fst (by assumption) ?_
    | with_reducible refine kept_snd (by assumption) ?_
    | extract_lets
    | split
    | fail_if_no_progress refine kept_mk ?_ rfl rfl
    | dsimp only
    | dsimp +zetaDelta only

theorem collAccept_keeps {s : State} {slot : Nat} {b : List Byte} 
    (hK : Kept wq wc s) :
    Kept wq wc (collAccept s slot b) := by
  unfold collAccept
  repeat' first
    | with_reducible assumption
    | with_reducible intro _
    | with_reducible apply opFail_keeps
    | with_reducible apply opMalformed_keeps
    | with_reducible apply readAt_keeps
    | with_reducible apply collQueued_keeps
    | with_reducible apply State.setComm_keeps
    | with_reducible apply kept_ite
    | with_reducible refine kept_fst (by assumption) ?_
    | with_reducible refine kept_snd (by assumption) ?_
    | extract_lets
    | split
    | fail_if_no_progress refine kept_mk ?_ rfl rfl
    | dsimp only
    | dsimp +zetaDelta only

theorem takeJoin_keeps {s : State} {c : Nat} {r : JoinRec} 
    (hK : Kept wq wc s) :
    Kept wq wc (takeJoin s c r) := by
  unfold takeJoin
  repeat' first
    | with_reducible assumption
    | with_reducible intro _
    | with_reducible apply collEnd_keeps
    | with_reducible apply setColl_keeps
    | with_reducible apply kept_ite
    | with_reducible refine kept_fst (by assumption) ?_
    | with_reducible refine kept_snd (by assumption) ?_
    | extract_lets
    | split
    | fail_if_no_progress refine kept_mk ?_ rfl rfl
    | dsimp only
    | dsimp +zetaDelta only

theorem takeJoins_keeps {s : State} {c : Nat} {l : List JoinRec} 
    (hK : Kept wq wc s) :
    Kept wq wc (takeJoins s c l) := by
  induction l generalizing s c with
  | nil =>
    unfold takeJoins
    repeat' first
      | with_reducible assumption
      | with_reducible intro _
      | with_reducible apply takeJoin_keeps
      | with_reducible apply ih
      | with_reducible apply kept_ite
      | with_reducible refine kept_fst (by assumption) ?_
      | with_reducible refine kept_snd (by assumption) ?_
      | extract_lets
      | split
      | fail_if_no_progress refine kept_mk ?_ rfl rfl
      | dsimp only
      | dsimp +zetaDelta only
  | cons e t ih =>
    unfold takeJoins
    repeat' first
      | with_reducible assumption
      | with_reducible intro _
      | with_reducible apply takeJoin_keeps
      | with_reducible apply ih
      | with_reducible apply kept_ite
      | with_reducible refine kept_fst (by assumption) ?_
      | with_reducible refine kept_snd (by assumption) ?_
      | extract_lets
      | split
      | fail_if_no_progress refine kept_mk ?_ rfl rfl
      | dsimp only
      | dsimp +zetaDelta only

theorem collStart_keeps {s : State} {c slot : Nat} {b : List Byte} {chips : List Nat} 
    (hK : Kept wq wc s) :
    Kept wq wc (collStart s c slot b chips) := by
  unfold collStart
  repeat' first
    | with_reducible assumption
    | with_reducible intro _
    | with_reducible apply State.setComm_keeps
    | with_reducible apply takeJoins_keeps
    | with_reducible apply sendJoins_keeps
    | with_reducible apply opStart_keeps
    | with_reducible apply kept_ite
    | with_reducible refine kept_fst (by assumption) ?_
    | with_reducible refine kept_snd (by assumption) ?_
    | extract_lets
    | split
    | fail_if_no_progress refine kept_mk ?_ rfl rfl
    | dsimp only
    | dsimp +zetaDelta only

theorem collPut_keeps {s : State} {d : CDesc} {slot q : Nat} {data : List Byte} 
    (hK : Kept wq wc s) :
    Kept wq wc (collPut s d slot q data).1 := by
  unfold collPut
  repeat' first
    | with_reducible assumption
    | with_reducible intro _
    | with_reducible apply writePlace_keeps
    | with_reducible apply deliver_keeps
    | with_reducible apply kept_ite1
    | with_reducible apply kept_ite2
    | with_reducible apply kept_ite
    | with_reducible refine kept_fst (by assumption) ?_
    | with_reducible refine kept_snd (by assumption) ?_
    | extract_lets
    | split
    | fail_if_no_progress refine kept_mk ?_ rfl rfl
    | dsimp only
    | dsimp +zetaDelta only

theorem collPost_keeps {s : State} {d : CDesc} {r : CollRun} {q : Nat} {t : Tally} 
    (hK : Kept wq wc s) :
    Kept wq wc (collPost s d r q t) := by
  unfold collPost
  repeat' first
    | with_reducible assumption
    | with_reducible intro _
    | with_reducible apply opTally_keeps
    | with_reducible apply State.setSest_keeps
    | with_reducible apply kept_ite
    | with_reducible refine kept_fst (by assumption) ?_
    | with_reducible refine kept_snd (by assumption) ?_
    | extract_lets
    | split
    | fail_if_no_progress refine kept_mk ?_ rfl rfl
    | dsimp only
    | dsimp +zetaDelta only

theorem collReadFail_keeps {s : State} {d : CDesc} {r : CollRun} {status a : Nat} 
    (hK : Kept wq wc s) :
    Kept wq wc (collReadFail s d r status a) := by
  unfold collReadFail
  repeat' first
    | with_reducible assumption
    | with_reducible intro _
    | with_reducible apply State.setSest_keeps
    | with_reducible apply collEnd_keeps
    | with_reducible apply kept_ite
    | with_reducible refine kept_fst (by assumption) ?_
    | with_reducible refine kept_snd (by assumption) ?_
    | extract_lets
    | split
    | fail_if_no_progress refine kept_mk ?_ rfl rfl
    | dsimp only
    | dsimp +zetaDelta only

theorem collStep_keeps {s : State} {c : Nat} {r : CollRun} 
    (hK : Kept wq wc s) :
    Kept wq wc (collStep s c r) := by
  unfold collStep
  repeat' first
    | with_reducible assumption
    | with_reducible intro _
    | with_reducible apply collCheck_keeps
    | with_reducible apply sendReadDone_keeps
    | with_reducible apply setColl_keeps
    | with_reducible apply seFetch_keeps
    | with_reducible apply collReadFail_keeps
    | with_reducible apply collPut_keeps
    | with_reducible apply collEnd_keeps
    | with_reducible apply reqDrop_keeps
    | with_reducible apply collPost_keeps
    | with_reducible apply opCount_keeps
    | with_reducible apply kept_ite
    | with_reducible refine kept_fst (by assumption) ?_
    | with_reducible refine kept_snd (by assumption) ?_
    | extract_lets
    | split
    | fail_if_no_progress refine kept_mk ?_ rfl rfl
    | dsimp only
    | dsimp +zetaDelta only

theorem collAdvance_keeps {k : Nat} {s : State} {slot kind : Nat} 
    (hK : Kept wq wc s) :
    Kept wq wc (collAdvance k s slot kind) := by
  induction k generalizing s slot kind with
  | zero =>
    unfold collAdvance
    repeat' first
      | with_reducible assumption
      | with_reducible intro _
      | with_reducible apply collMiss_keeps
      | with_reducible apply collAccept_keeps
      | with_reducible apply collStep_keeps
      | with_reducible apply collStart_keeps
      | with_reducible apply ih
      | with_reducible apply kept_ite
      | with_reducible refine kept_fst (by assumption) ?_
      | with_reducible refine kept_snd (by assumption) ?_
      | extract_lets
      | split
      | fail_if_no_progress refine kept_mk ?_ rfl rfl
      | dsimp only
      | dsimp +zetaDelta only
  | succ n ih =>
    unfold collAdvance
    repeat' first
      | with_reducible assumption
      | with_reducible intro _
      | with_reducible apply collMiss_keeps
      | with_reducible apply collAccept_keeps
      | with_reducible apply collStep_keeps
      | with_reducible apply collStart_keeps
      | with_reducible apply ih
      | with_reducible apply kept_ite
      | with_reducible refine kept_fst (by assumption) ?_
      | with_reducible refine kept_snd (by assumption) ?_
      | extract_lets
      | split
      | fail_if_no_progress refine kept_mk ?_ rfl rfl
      | dsimp only
      | dsimp +zetaDelta only

theorem holdReport_keeps {s : State} {c seq rank : Nat} 
    (hK : Kept wq wc s) :
    Kept wq wc (holdReport s c seq rank) := by
  unfold holdReport
  repeat' first
    | with_reducible assumption
    | with_reducible intro _
    | with_reducible apply State.setComm_keeps
    | with_reducible apply kept_ite
    | with_reducible refine kept_fst (by assumption) ?_
    | with_reducible refine kept_snd (by assumption) ?_
    | extract_lets
    | split
    | fail_if_no_progress refine kept_mk ?_ rfl rfl
    | dsimp only
    | dsimp +zetaDelta only

/-! ### SolveRun -/

theorem setSolve_keeps {s : State} {g : Nat} {r : Option SolveRun} 
    (hK : Kept wq wc s) :
    Kept wq wc (setSolve s g r) := by
  unfold setSolve
  repeat' first
    | with_reducible assumption
    | with_reducible intro _
    | with_reducible apply State.setGroup_keeps
    | with_reducible apply kept_ite
    | with_reducible refine kept_fst (by assumption) ?_
    | with_reducible refine kept_snd (by assumption) ?_
    | extract_lets
    | split
    | fail_if_no_progress refine kept_mk ?_ rfl rfl
    | dsimp only
    | dsimp +zetaDelta only

theorem setSlv_keeps {s : State} {g : Nat} {f : TileSlv → TileSlv} 
    (hK : Kept wq wc s) :
    Kept wq wc (setSlv s g f) := by
  unfold setSlv
  repeat' first
    | with_reducible assumption
    | with_reducible intro _
    | with_reducible apply State.setTslv_keeps
    | with_reducible apply kept_ite
    | with_reducible refine kept_fst (by assumption) ?_
    | with_reducible refine kept_snd (by assumption) ?_
    | extract_lets
    | split
    | fail_if_no_progress refine kept_mk ?_ rfl rfl
    | dsimp only
    | dsimp +zetaDelta only

theorem postRaised_keeps {s : State} {r : SolveRun} {x : Raised} {parcel : Option Nat} 
    (hK : Kept wq wc s) :
    Kept wq wc (postRaised s r x parcel) := by
  unfold postRaised
  repeat' first
    | with_reducible assumption
    | with_reducible intro _
    | with_reducible apply opTally_keeps
    | with_reducible apply State.setClu_keeps
    | with_reducible apply kept_ite
    | with_reducible refine kept_fst (by assumption) ?_
    | with_reducible refine kept_snd (by assumption) ?_
    | extract_lets
    | split
    | fail_if_no_progress refine kept_mk ?_ rfl rfl
    | dsimp only
    | dsimp +zetaDelta only

theorem dropResidual_keeps {s : State} {r : SolveRun} 
    (hK : Kept wq wc s) :
    Kept wq wc (dropResidual s r) := by
  unfold dropResidual
  repeat' first
    | with_reducible assumption
    | with_reducible intro _
    | with_reducible apply State.setLclu_keeps
    | with_reducible apply dropProgram_keeps
    | with_reducible apply kept_ite
    | with_reducible refine kept_fst (by assumption) ?_
    | with_reducible refine kept_snd (by assumption) ?_
    | extract_lets
    | split
    | fail_if_no_progress refine kept_mk ?_ rfl rfl
    | dsimp only
    | dsimp +zetaDelta only

theorem endSolve_keeps {s : State} {g : Nat} {e0 : SolveEnd} 
    (hK : Kept wq wc s) :
    Kept wq wc (endSolve s g e0) := by
  unfold endSolve
  repeat' first
    | with_reducible assumption
    | with_reducible intro _
    | with_reducible apply setSlv_keeps
    | with_reducible apply setSolve_keeps
    | with_reducible apply dropResidual_keeps
    | with_reducible apply opDone_keeps
    | with_reducible apply opFail_keeps
    | with_reducible apply opFailAs_keeps
    | with_reducible apply kept_ite
    | with_reducible refine kept_fst (by assumption) ?_
    | with_reducible refine kept_snd (by assumption) ?_
    | extract_lets
    | split
    | fail_if_no_progress refine kept_mk ?_ rfl rfl
    | dsimp only
    | dsimp +zetaDelta only

theorem toPublish_keeps {s : State} {g : Nat} {r : SolveRun} {e : SolveEnd} 
    (hK : Kept wq wc s) :
    Kept wq wc (toPublish s g r e) := by
  unfold toPublish
  repeat' first
    | with_reducible assumption
    | with_reducible intro _
    | with_reducible apply setSolve_keeps
    | with_reducible apply kept_ite
    | with_reducible refine kept_fst (by assumption) ?_
    | with_reducible refine kept_snd (by assumption) ?_
    | extract_lets
    | split
    | fail_if_no_progress refine kept_mk ?_ rfl rfl
    | dsimp only
    | dsimp +zetaDelta only

theorem onPut_keeps {s s1 : State} {g idx : Nat} {p : Put} {ok : State → State}
    (h : Kept wq wc s) (h1 : Kept wq wc s1)
    (hok : ∀ u, Kept wq wc u → Kept wq wc (ok u)) :
    Kept wq wc (onPut s s1 g idx p ok) := by
  cases p with
  | ok => exact hok _ h1
  | wait => exact h
  | fail st => exact endSolve_keeps h1
  | double k => exact endSolve_keeps h1

theorem onCalc_keeps {α : Type} {g : Nat} {r : SolveRun} {s : State} {x : α × Raised} {ok : State → α → State} (hok : ∀ u0 u1, Kept wq wc (u0) → Kept wq wc (ok u0 u1))
    (hK : Kept wq wc s) :
    Kept wq wc (onCalc g r s x ok) := by
  unfold onCalc
  repeat' first
    | with_reducible assumption
    | with_reducible intro _
    | with_reducible apply postRaised_keeps
    | with_reducible apply endSolve_keeps
    | with_reducible apply hok
    | with_reducible apply kept_ite
    | with_reducible refine kept_fst (by assumption) ?_
    | with_reducible refine kept_snd (by assumption) ?_
    | extract_lets
    | split
    | fail_if_no_progress refine kept_mk ?_ rfl rfl
    | dsimp only
    | dsimp +zetaDelta only

theorem onRead_keeps {α : Type} {g : Nat} {x : State × Except (Nat × Nat) α} {ok : State → α → State}
    (h : Kept wq wc x.1)
    (hok : ∀ u a, Kept wq wc u → Kept wq wc (ok u a)) :
    Kept wq wc (onRead g x ok) := by
  obtain ⟨s1, v⟩ := x
  cases v with
  | ok a => exact hok _ _ h
  | error e => exact endSolve_keeps h

theorem lateReads_keeps {s : State} {m : Nat} {u : By} {q : SReq} 
    (hK : Kept wq wc s) :
    Kept wq wc (lateReads s m u q).1 := by
  unfold lateReads
  repeat' first
    | with_reducible assumption
    | with_reducible intro _
    | with_reducible apply readAt_keeps
    | with_reducible apply readHdr_keeps
    | with_reducible apply kept_ite1
    | with_reducible apply kept_ite2
    | with_reducible apply kept_ite
    | with_reducible refine kept_fst (by assumption) ?_
    | with_reducible refine kept_snd (by assumption) ?_
    | extract_lets
    | split
    | fail_if_no_progress refine kept_mk ?_ rfl rfl
    | dsimp only
    | dsimp +zetaDelta only

theorem latePattern_keeps {s : State} {m : Nat} {u : By} {t : STab} {h : SHdr} {c : List Byte} 
    (hK : Kept wq wc s) :
    Kept wq wc (latePattern s m u t h c).1 := by
  unfold latePattern
  repeat' first
    | with_reducible assumption
    | with_reducible intro _
    | with_reducible apply readStore_keeps
    | with_reducible apply kept_ite1
    | with_reducible apply kept_ite2
    | with_reducible apply kept_ite
    | with_reducible refine kept_fst (by assumption) ?_
    | with_reducible refine kept_snd (by assumption) ?_
    | extract_lets
    | split
    | fail_if_no_progress refine kept_mk ?_ rfl rfl
    | dsimp only
    | dsimp +zetaDelta only

theorem lateFaults_keeps {s : State} {m : Nat} {u : By} {b : List Byte} 
    (hK : Kept wq wc s) :
    Kept wq wc (lateFaults s m u b).1 := by
  unfold lateFaults
  repeat' first
    | with_reducible assumption
    | with_reducible intro _
    | with_reducible apply lateReads_keeps
    | with_reducible apply latePattern_keeps
    | with_reducible apply kept_ite1
    | with_reducible apply kept_ite2
    | with_reducible apply kept_ite
    | with_reducible refine kept_fst (by assumption) ?_
    | with_reducible refine kept_snd (by assumption) ?_
    | extract_lets
    | split
    | fail_if_no_progress refine kept_mk ?_ rfl rfl
    | dsimp only
    | dsimp +zetaDelta only

theorem startSolve_keeps {s : State} {g : Nat} 
    (hK : Kept wq wc s) :
    Kept wq wc (startSolve s g) := by
  unfold startSolve
  repeat' first
    | with_reducible assumption
    | with_reducible intro _
    | with_reducible apply State.setGroup_keeps
    | with_reducible apply opFail_keeps
    | with_reducible apply setSlv_keeps
    | with_reducible apply lateFaults_keeps
    | with_reducible apply opMalformed_keeps
    | with_reducible apply readAt_keeps
    | with_reducible apply setSolve_keeps
    | with_reducible apply opStart_keeps
    | with_reducible apply kept_ite
    | with_reducible refine kept_fst (by assumption) ?_
    | with_reducible refine kept_snd (by assumption) ?_
    | extract_lets
    | split
    | fail_if_no_progress refine kept_mk ?_ rfl rfl
    | dsimp only
    | dsimp +zetaDelta only

theorem readTable_keeps {s : State} {m : Nat} {u : By} {q : SReq} 
    (hK : Kept wq wc s) :
    Kept wq wc (readTable s m u q).1 := by
  unfold readTable
  repeat' first
    | with_reducible assumption
    | with_reducible intro _
    | with_reducible apply readAt_keeps
    | with_reducible apply kept_ite1
    | with_reducible apply kept_ite2
    | with_reducible apply kept_ite
    | with_reducible refine kept_fst (by assumption) ?_
    | with_reducible refine kept_snd (by assumption) ?_
    | extract_lets
    | split
    | fail_if_no_progress refine kept_mk ?_ rfl rfl
    | dsimp only
    | dsimp +zetaDelta only

theorem stageAssemble_keeps {s : State} {g m : Nat} {r : SolveRun} {q : SReq} 
    (hK : Kept wq wc s) :
    Kept wq wc (stageAssemble s g m r q) := by
  unfold stageAssemble
  repeat' first
    | with_reducible assumption
    | with_reducible intro _
    | with_reducible apply putParcel_keeps
    | with_reducible apply onPut_keeps
    | with_reducible apply setSolve_keeps
    | with_reducible apply onRead_keeps
    | with_reducible apply readAt_keeps
    | with_reducible apply assemble_keeps
    | with_reducible apply onCalc_keeps
    | with_reducible apply putParcels_keeps
    | with_reducible apply kept_ite
    | with_reducible refine kept_fst (by assumption) ?_
    | with_reducible refine kept_snd (by assumption) ?_
    | extract_lets
    | split
    | fail_if_no_progress refine kept_mk ?_ rfl rfl
    | dsimp only
    | dsimp +zetaDelta only

theorem tangentSide_keeps {s : State} {m : Nat} {u : By} {r : SolveRun} {q : SReq} {y : Sys} 
    (hK : Kept wq wc s) :
    Kept wq wc (tangentSide s m u r q y).1 := by
  unfold tangentSide
  repeat' first
    | with_reducible assumption
    | with_reducible intro _
    | with_reducible apply readTable_keeps
    | with_reducible apply assembleAt_keeps
    | with_reducible apply readAt_keeps
    | with_reducible apply kept_ite1
    | with_reducible apply kept_ite2
    | with_reducible apply kept_ite
    | with_reducible refine kept_fst (by assumption) ?_
    | with_reducible refine kept_snd (by assumption) ?_
    | extract_lets
    | split
    | fail_if_no_progress refine kept_mk ?_ rfl rfl
    | dsimp only
    | dsimp +zetaDelta only

theorem prepareRhs_keeps {s : State} {m : Nat} {u : By} {r : SolveRun} {q : SReq} {y : Sys} 
    (hK : Kept wq wc s) :
    Kept wq wc (prepareRhs s m u r q y).1 := by
  unfold prepareRhs
  repeat' first
    | with_reducible assumption
    | with_reducible intro _
    | with_reducible apply readAt_keeps
    | with_reducible apply tangentSide_keeps
    | with_reducible apply kept_ite1
    | with_reducible apply kept_ite2
    | with_reducible apply kept_ite
    | with_reducible refine kept_fst (by assumption) ?_
    | with_reducible refine kept_snd (by assumption) ?_
    | extract_lets
    | split
    | fail_if_no_progress refine kept_mk ?_ rfl rfl
    | dsimp only
    | dsimp +zetaDelta only

theorem clearPcValid_keeps {s0 s : State} {g m : Nat} {r : SolveRun} {q : SReq} {ok : State → State}
    (hok : ∀ u, Kept wq wc u → Kept wq wc (ok u)) (h0 : Kept wq wc s0)
    (hK : Kept wq wc s) :
    Kept wq wc (clearPcValid s0 s g m r q ok) := by
  unfold clearPcValid
  refine onRead_keeps (readAt_keeps hK) ?_
  intro u a hu
  exact onPut_keeps h0 (putParcel_keeps hu) hok

theorem freeSet_keeps {s : State} {m : Nat} {r : SolveRun} {q : SReq} 
    (hK : Kept wq wc s) :
    Kept wq wc (freeSet s m r q).1 := by
  unfold freeSet
  repeat' first
    | with_reducible assumption
    | with_reducible intro _
    | with_reducible apply readAt_keeps
    | with_reducible apply kept_ite1
    | with_reducible apply kept_ite2
    | with_reducible apply kept_ite
    | with_reducible refine kept_fst (by assumption) ?_
    | with_reducible refine kept_snd (by assumption) ?_
    | extract_lets
    | split
    | fail_if_no_progress refine kept_mk ?_ rfl rfl
    | dsimp only
    | dsimp +zetaDelta only

theorem warmStart_keeps {s : State} {g m : Nat} {r : SolveRun} {q : SReq} {fp : Nat} 
    (hK : Kept wq wc s) :
    Kept wq wc (warmStart s g m r q fp) := by
  unfold warmStart
  repeat' first
    | with_reducible assumption
    | with_reducible intro _
    | with_reducible apply onRead_keeps
    | with_reducible apply freeSet_keeps
    | with_reducible apply setSolve_keeps
    | with_reducible apply readAt_keeps
    | with_reducible apply setSlv_keeps
    | with_reducible apply opWarn_keeps
    | with_reducible apply kept_ite
    | with_reducible refine kept_fst (by assumption) ?_
    | with_reducible refine kept_snd (by assumption) ?_
    | extract_lets
    | split
    | fail_if_no_progress refine kept_mk ?_ rfl rfl
    | dsimp only
    | dsimp +zetaDelta only

theorem stageRange_keeps {s : State} {g m : Nat} {r : SolveRun} {q : SReq} 
    (hK : Kept wq wc s) :
    Kept wq wc (stageRange s g m r q) := by
  unfold stageRange
  repeat' first
    | with_reducible assumption
    | with_reducible intro _
    | with_reducible apply clearPcValid_keeps
    | with_reducible apply setSolve_keeps
    | with_reducible apply putParcel_keeps
    | with_reducible apply onPut_keeps
    | with_reducible apply endSolve_keeps
    | with_reducible apply onRead_keeps
    | with_reducible apply readStore_keeps
    | with_reducible apply prepareRhs_keeps
    | with_reducible apply onCalc_keeps
    | with_reducible apply warmStart_keeps
    | with_reducible apply kept_ite
    | with_reducible refine kept_fst (by assumption) ?_
    | with_reducible refine kept_snd (by assumption) ?_
    | extract_lets
    | split
    | fail_if_no_progress refine kept_mk ?_ rfl rfl
    | dsimp only
    | dsimp +zetaDelta only

theorem noteReg_keeps {s : State} {g : Nat} {r : SolveRun} {reg : Nat × Nat} 
    (hK : Kept wq wc s) :
    Kept wq wc (noteReg s g r reg) := by
  unfold noteReg
  repeat' first
    | with_reducible assumption
    | with_reducible intro _
    | with_reducible apply opWarn_keeps
    | with_reducible apply setSlv_keeps
    | with_reducible apply kept_ite
    | with_reducible refine kept_fst (by assumption) ?_
    | with_reducible refine kept_snd (by assumption) ?_
    | extract_lets
    | split
    | fail_if_no_progress refine kept_mk ?_ rfl rfl
    | dsimp only
    | dsimp +zetaDelta only

theorem stageFactor_keeps {s : State} {g m : Nat} {r : SolveRun} {q : SReq} 
    (hK : Kept wq wc s) :
    Kept wq wc (stageFactor s g m r q) := by
  unfold stageFactor
  repeat' first
    | with_reducible assumption
    | with_reducible intro _
    | with_reducible apply onRead_keeps
    | with_reducible apply readAt_keeps
    | with_reducible apply readStore_keeps
    | with_reducible apply onCalc_keeps
    | with_reducible apply putParcels_keeps
    | with_reducible apply onPut_keeps
    | with_reducible apply noteReg_keeps
    | with_reducible apply setSolve_keeps
    | with_reducible apply readHdr_keeps
    | with_reducible apply putParcel_keeps
    | with_reducible apply setSlv_keeps
    | with_reducible apply endSolve_keeps
    | with_reducible apply kept_ite
    | with_reducible refine kept_fst (by assumption) ?_
    | with_reducible refine kept_snd (by assumption) ?_
    | extract_lets
    | split
    | fail_if_no_progress refine kept_mk ?_ rfl rfl
    | dsimp only
    | dsimp +zetaDelta only

theorem stageBlocks_keeps {s : State} {g m : Nat} {r : SolveRun} {q : SReq} 
    (hK : Kept wq wc s) :
    Kept wq wc (stageBlocks s g m r q) := by
  unfold stageBlocks
  repeat' first
    | with_reducible assumption
    | with_reducible intro _
    | with_reducible apply onRead_keeps
    | with_reducible apply readStore_keeps
    | with_reducible apply onCalc_keeps
    | with_reducible apply putParcels_keeps
    | with_reducible apply onPut_keeps
    | with_reducible apply noteReg_keeps
    | with_reducible apply setSolve_keeps
    | with_reducible apply kept_ite
    | with_reducible refine kept_fst (by assumption) ?_
    | with_reducible refine kept_snd (by assumption) ?_
    | extract_lets
    | split
    | fail_if_no_progress refine kept_mk ?_ rfl rfl
    | dsimp only
    | dsimp +zetaDelta only

theorem noteResid_keeps {s : State} {g : Nat} {l : List SolveCol} 
    (hK : Kept wq wc s) :
    Kept wq wc (noteResid s g l) := by
  unfold noteResid
  repeat' first
    | with_reducible assumption
    | with_reducible intro _
    | with_reducible apply setSlv_keeps
    | with_reducible apply kept_ite
    | with_reducible refine kept_fst (by assumption) ?_
    | with_reducible refine kept_snd (by assumption) ?_
    | extract_lets
    | split
    | fail_if_no_progress refine kept_mk ?_ rfl rfl
    | dsimp only
    | dsimp +zetaDelta only

theorem stageRefine_keeps {s : State} {g m : Nat} {r : SolveRun} {q : SReq} 
    (hK : Kept wq wc s) :
    Kept wq wc (stageRefine s g m r q) := by
  unfold stageRefine
  repeat' first
    | with_reducible assumption
    | with_reducible intro _
    | with_reducible apply onRead_keeps
    | with_reducible apply readStore_keeps
    | with_reducible apply onCalc_keeps
    | with_reducible apply noteResid_keeps
    | with_reducible apply toPublish_keeps
    | with_reducible apply setSolve_keeps
    | with_reducible apply readAt_keeps
    | with_reducible apply setSlv_keeps
    | with_reducible apply kept_ite
    | with_reducible refine kept_fst (by assumption) ?_
    | with_reducible refine kept_snd (by assumption) ?_
    | extract_lets
    | split
    | fail_if_no_progress refine kept_mk ?_ rfl rfl
    | dsimp only
    | dsimp +zetaDelta only

theorem iterCtx_keeps {s : State} {m : Nat} {r : SolveRun} {q : SReq} 
    (hK : Kept wq wc s) :
    Kept wq wc (iterCtx s m r q).1 := by
  unfold iterCtx
  repeat' first
    | with_reducible assumption
    | with_reducible intro _
    | with_reducible apply readStore_keeps
    | with_reducible apply readAt_keeps
    | with_reducible apply freeSet_keeps
    | with_reducible apply kept_ite1
    | with_reducible apply kept_ite2
    | with_reducible apply kept_ite
    | with_reducible refine kept_fst (by assumption) ?_
    | with_reducible refine kept_snd (by assumption) ?_
    | extract_lets
    | split
    | fail_if_no_progress refine kept_mk ?_ rfl rfl
    | dsimp only
    | dsimp +zetaDelta only

theorem writeWork_keeps {s0 s : State} {g m : Nat} {r : SolveRun} {q : SReq} {ok : State → State}
    (hok : ∀ u, Kept wq wc u → Kept wq wc (ok u)) (h0 : Kept wq wc s0)
    (hK : Kept wq wc s) :
    Kept wq wc (writeWork s0 s g m r q ok) := by
  unfold writeWork
  exact onPut_keeps h0 (putParcels_keeps hK) hok

theorem stageIterate_keeps {s : State} {g m : Nat} {r : SolveRun} {q : SReq} 
    (hK : Kept wq wc s) :
    Kept wq wc (stageIterate s g m r q) := by
  unfold stageIterate
  repeat' first
    | with_reducible assumption
    | with_reducible intro _
    | with_reducible apply writeWork_keeps
    | with_reducible apply setSolve_keeps
    | with_reducible apply onRead_keeps
    | with_reducible apply iterCtx_keeps
    | with_reducible apply endSolve_keeps
    | with_reducible apply onCalc_keeps
    | with_reducible apply noteResid_keeps
    | with_reducible apply toPublish_keeps
    | with_reducible apply setSlv_keeps
    | with_reducible apply kept_ite
    | with_reducible refine kept_fst (by assumption) ?_
    | with_reducible refine kept_snd (by assumption) ?_
    | extract_lets
    | split
    | fail_if_no_progress refine kept_mk ?_ rfl rfl
    | dsimp only
    | dsimp +zetaDelta only

theorem stageGn_keeps {s : State} {g m : Nat} {r : SolveRun} {q : SReq} 
    (hK : Kept wq wc s) :
    Kept wq wc (stageGn s g m r q) := by
  unfold stageGn
  repeat' first
    | with_reducible assumption
    | with_reducible intro _
    | with_reducible apply warmStart_keeps
    | with_reducible apply putParcels_keeps
    | with_reducible apply onPut_keeps
    | with_reducible apply State.setOp_keeps
    | with_reducible apply State.setLclu_keeps
    | with_reducible apply setSolve_keeps
    | with_reducible apply onRead_keeps
    | with_reducible apply readAt_keeps
    | with_reducible apply onCalc_keeps
    | with_reducible apply setSlv_keeps
    | with_reducible apply toPublish_keeps
    | with_reducible apply clearPcValid_keeps
    | with_reducible apply writeWork_keeps
    | with_reducible apply noteReg_keeps
    | with_reducible apply kept_ite
    | with_reducible refine kept_fst (by assumption) ?_
    | with_reducible refine kept_snd (by assumption) ?_
    | extract_lets
    | split
    | fail_if_no_progress refine kept_mk ?_ rfl rfl
    | dsimp only
    | dsimp +zetaDelta only

theorem noteNonfinite_keeps {s : State} {slot i : Nat} {b : List Byte} 
    (hK : Kept wq wc s) :
    Kept wq wc (noteNonfinite s slot i b) := by
  unfold noteNonfinite
  repeat' first
    | with_reducible assumption
    | with_reducible intro _
    | with_reducible apply State.setOp_keeps
    | with_reducible apply kept_ite
    | with_reducible refine kept_fst (by assumption) ?_
    | with_reducible refine kept_snd (by assumption) ?_
    | extract_lets
    | split
    | fail_if_no_progress refine kept_mk ?_ rfl rfl
    | dsimp only
    | dsimp +zetaDelta only

theorem gradParcels_keeps {s : State} {m : Nat} {r : SolveRun} {q : SReq} 
    (hK : Kept wq wc s) :
    Kept wq wc (gradParcels s m r q).1 := by
  unfold gradParcels
  repeat' first
    | with_reducible assumption
    | with_reducible intro _
    | with_reducible apply readTable_keeps
    | with_reducible apply readStore_keeps
    | with_reducible apply readAt_keeps
    | with_reducible apply kept_ite1
    | with_reducible apply kept_ite2
    | with_reducible apply kept_ite
    | with_reducible refine kept_fst (by assumption) ?_
    | with_reducible refine kept_snd (by assumption) ?_
    | extract_lets
    | split
    | fail_if_no_progress refine kept_mk ?_ rfl rfl
    | dsimp only
    | dsimp +zetaDelta only

theorem stageState_keeps {s : State} {g m : Nat} {r : SolveRun} {q : SReq} 
    (hK : Kept wq wc s) :
    Kept wq wc (stageState s g m r q) := by
  unfold stageState
  repeat' first
    | with_reducible assumption
    | with_reducible intro _
    | with_reducible apply setSolve_keeps
    | with_reducible apply onRead_keeps
    | with_reducible apply readHdr_keeps
    | with_reducible apply readAt_keeps
    | with_reducible apply putParcels_keeps
    | with_reducible apply onPut_keeps
    | with_reducible apply putParcel_keeps
    | with_reducible apply iterCtx_keeps
    | with_reducible apply onCalc_keeps
    | with_reducible apply kept_ite
    | with_reducible refine kept_fst (by assumption) ?_
    | with_reducible refine kept_snd (by assumption) ?_
    | extract_lets
    | split
    | fail_if_no_progress refine kept_mk ?_ rfl rfl
    | dsimp only
    | dsimp +zetaDelta only

theorem stagePublish_keeps {s : State} {g m : Nat} {r : SolveRun} {q : SReq} 
    (hK : Kept wq wc s) :
    Kept wq wc (stagePublish s g m r q) := by
  unfold stagePublish
  repeat' first
    | with_reducible assumption
    | with_reducible intro _
    | with_reducible apply putParcel_keeps
    | with_reducible apply onPut_keeps
    | with_reducible apply opCount_keeps
    | with_reducible apply setSolve_keeps
    | with_reducible apply endSolve_keeps
    | with_reducible apply noteNonfinite_keeps
    | with_reducible apply stageState_keeps
    | with_reducible apply onRead_keeps
    | with_reducible apply gradParcels_keeps
    | with_reducible apply postRaised_keeps
    | with_reducible apply kept_ite
    | with_reducible refine kept_fst (by assumption) ?_
    | with_reducible refine kept_snd (by assumption) ?_
    | extract_lets
    | split
    | fail_if_no_progress refine kept_mk ?_ rfl rfl
    | dsimp only
    | dsimp +zetaDelta only

theorem solveStage_keeps {s : State} {g : Nat} {r : SolveRun} 
    (hK : Kept wq wc s) :
    Kept wq wc (solveStage s g r) := by
  unfold solveStage
  repeat' first
    | with_reducible assumption
    | with_reducible intro _
    | with_reducible apply endSolve_keeps
    | with_reducible apply stageAssemble_keeps
    | with_reducible apply stageRange_keeps
    | with_reducible apply stageGn_keeps
    | with_reducible apply stageFactor_keeps
    | with_reducible apply stageBlocks_keeps
    | with_reducible apply stageRefine_keeps
    | with_reducible apply stageIterate_keeps
    | with_reducible apply stagePublish_keeps
    | with_reducible apply kept_ite
    | with_reducible refine kept_fst (by assumption) ?_
    | with_reducible refine kept_snd (by assumption) ?_
    | extract_lets
    | split
    | fail_if_no_progress refine kept_mk ?_ rfl rfl
    | dsimp only
    | dsimp +zetaDelta only

theorem publishRest_keeps {fuel : Nat} {s : State} {g : Nat} 
    (hK : Kept wq wc s) :
    Kept wq wc (publishRest fuel s g) := by
  induction fuel generalizing s g with
  | zero =>
    unfold publishRest
    repeat' first
      | with_reducible assumption
      | with_reducible intro _
      | with_reducible apply solveStage_keeps
      | with_reducible apply ih
      | with_reducible apply kept_ite
      | with_reducible refine kept_fst (by assumption) ?_
      | with_reducible refine kept_snd (by assumption) ?_
      | extract_lets
      | split
      | fail_if_no_progress refine kept_mk ?_ rfl rfl
      | dsimp only
      | dsimp +zetaDelta only
  | succ n ih =>
    unfold publishRest
    repeat' first
      | with_reducible assumption
      | with_reducible intro _
      | with_reducible apply solveStage_keeps
      | with_reducible apply ih
      | with_reducible apply kept_ite
      | with_reducible refine kept_fst (by assumption) ?_
      | with_reducible refine kept_snd (by assumption) ?_
      | extract_lets
      | split
      | fail_if_no_progress refine kept_mk ?_ rfl rfl
      | dsimp only
      | dsimp +zetaDelta only

theorem missSolve_keeps {s : State} {g : Nat} {r : SolveRun} 
    (hK : Kept wq wc s) :
    Kept wq wc (missSolve s g r) := by
  unfold missSolve
  repeat' first
    | with_reducible assumption
    | with_reducible intro _
    | with_reducible apply endSolve_keeps
    | with_reducible apply dropResidual_keeps
    | with_reducible apply publishRest_keeps
    | with_reducible apply setSolve_keeps
    | with_reducible apply kept_ite
    | with_reducible refine kept_fst (by assumption) ?_
    | with_reducible refine kept_snd (by assumption) ?_
    | extract_lets
    | split
    | fail_if_no_progress refine kept_mk ?_ rfl rfl
    | dsimp only
    | dsimp +zetaDelta only

theorem turnStage_keeps {s : State} {g : Nat} {r : SolveRun} 
    (hK : Kept wq wc s) :
    Kept wq wc (turnStage s g r) := by
  unfold turnStage
  repeat' first
    | with_reducible assumption
    | with_reducible intro _
    | with_reducible apply setSolve_keeps
    | with_reducible apply solveStage_keeps
    | with_reducible apply kept_ite
    | with_reducible refine kept_fst (by assumption) ?_
    | with_reducible refine kept_snd (by assumption) ?_
    | extract_lets
    | split
    | fail_if_no_progress refine kept_mk ?_ rfl rfl
    | dsimp only
    | dsimp +zetaDelta only

theorem solveAdvance_keeps {k : Nat} {s : State} {g row : Nat} 
    (hK : Kept wq wc s) :
    Kept wq wc (solveAdvance k s g row) := by
  induction k generalizing s g row with
  | zero =>
    unfold solveAdvance
    repeat' first
      | with_reducible assumption
      | with_reducible intro _
      | with_reducible apply missSolve_keeps
      | with_reducible apply turnStage_keeps
      | with_reducible apply startSolve_keeps
      | with_reducible apply ih
      | with_reducible apply kept_ite
      | with_reducible refine kept_fst (by assumption) ?_
      | with_reducible refine kept_snd (by assumption) ?_
      | extract_lets
      | split
      | fail_if_no_progress refine kept_mk ?_ rfl rfl
      | dsimp only
      | dsimp +zetaDelta only
  | succ n ih =>
    unfold solveAdvance
    repeat' first
      | with_reducible assumption
      | with_reducible intro _
      | with_reducible apply missSolve_keeps
      | with_reducible apply turnStage_keeps
      | with_reducible apply startSolve_keeps
      | with_reducible apply ih
      | with_reducible apply kept_ite
      | with_reducible refine kept_fst (by assumption) ?_
      | with_reducible refine kept_snd (by assumption) ?_
      | extract_lets
      | split
      | fail_if_no_progress refine kept_mk ?_ rfl rfl
      | dsimp only
      | dsimp +zetaDelta only

theorem solveCheck_keeps {s : State} {g slot : Nat} {b : List Byte} 
    (hK : Kept wq wc s) :
    Kept wq wc (solveCheck s g slot b).1 := by
  unfold solveCheck
  repeat' first
    | with_reducible assumption
    | with_reducible intro _
    | with_reducible apply readAt_keeps
    | with_reducible apply kept_ite1
    | with_reducible apply kept_ite2
    | with_reducible apply kept_ite
    | with_reducible refine kept_fst (by assumption) ?_
    | with_reducible refine kept_snd (by assumption) ?_
    | extract_lets
    | split
    | fail_if_no_progress refine kept_mk ?_ rfl rfl
    | dsimp only
    | dsimp +zetaDelta only

theorem actSolveAbort_keeps {s : State} {t v : Nat} 
    (hK : Kept wq wc s) :
    Kept wq wc (actSolveAbort s t v) := by
  unfold actSolveAbort
  repeat' first
    | with_reducible assumption
    | with_reducible intro _
    | with_reducible apply State.setTile_keeps
    | with_reducible apply solveStage_keeps
    | with_reducible apply setSolve_keeps
    | with_reducible apply endSolve_keeps
    | with_reducible apply kept_ite
    | with_reducible refine kept_fst (by assumption) ?_
    | with_reducible refine kept_snd (by assumption) ?_
    | extract_lets
    | split
    | fail_if_no_progress refine kept_mk ?_ rfl rfl
    | dsimp only
    | dsimp +zetaDelta only

end Sys2Proof.Machine
end

