-- ==== Sys2Proof/Laws/KeptControl.lean ====
section
/-! SUPPORT. Each operation of reset, inspection, boot, register access, moves and packets keeps the queue and the canonical form of memory: one lemma per operation, to be
cited in place of unfolding it. -/

set_option linter.unusedTactic false
set_option linter.unreachableTactic false

namespace Sys2Proof.Machine

variable {wq : List Instr} {wc : Prop}

/-! ### Reset -/

theorem endSolvesOf_keeps {s : State} {f : SolveRun → Bool} 
    (hK : Kept wq wc s) :
    Kept wq wc (endSolvesOf s f) := by
  unfold endSolvesOf
  repeat' first
    | with_reducible assumption
    | with_reducible intro _
    | with_reducible apply endSolve_keeps
    | with_reducible apply kept_foldl
    | with_reducible apply kept_foldl1
    | with_reducible apply kept_foldl2
    | with_reducible apply kept_ite
    | with_reducible refine kept_fst (by assumption) ?_
    | with_reducible refine kept_snd (by assumption) ?_
    | extract_lets
    | split
    | fail_if_no_progress refine kept_mk ?_ rfl rfl
    | dsimp only
    | dsimp +zetaDelta only

theorem quiesceEnd_keeps {s : State} {n : Nat} 
    (hK : Kept wq wc s) :
    Kept wq wc (quiesceEnd s n) := by
  unfold quiesceEnd
  repeat' first
    | with_reducible assumption
    | with_reducible intro _
    | with_reducible apply State.setLclu_keeps
    | with_reducible apply kept_ite
    | with_reducible refine kept_fst (by assumption) ?_
    | with_reducible refine kept_snd (by assumption) ?_
    | extract_lets
    | split
    | fail_if_no_progress refine kept_mk ?_ rfl rfl
    | dsimp only
    | dsimp +zetaDelta only

theorem quiesceCluster_keeps {s : State} {n : Nat} 
    (hK : Kept wq wc s) :
    Kept wq wc (quiesceCluster s n) := by
  unfold quiesceCluster
  repeat' first
    | with_reducible assumption
    | with_reducible intro _
    | with_reducible apply State.setLclu_keeps
    | with_reducible apply endQuiesced_keeps
    | with_reducible apply endSolvesOf_keeps
    | with_reducible apply quiesceTensor_keeps
    | with_reducible apply quiesceEnd_keeps
    | with_reducible apply kept_ite
    | with_reducible refine kept_fst (by assumption) ?_
    | with_reducible refine kept_snd (by assumption) ?_
    | extract_lets
    | split
    | fail_if_no_progress refine kept_mk ?_ rfl rfl
    | dsimp only
    | dsimp +zetaDelta only

theorem releaseCluster_keeps {s : State} {n : Nat} 
    (hK : Kept wq wc s) :
    Kept wq wc (releaseCluster s n) := by
  unfold releaseCluster
  repeat' first
    | with_reducible assumption
    | with_reducible intro _
    | with_reducible apply State.setLclu_keeps
    | with_reducible apply kept_ite
    | with_reducible refine kept_fst (by assumption) ?_
    | with_reducible refine kept_snd (by assumption) ?_
    | extract_lets
    | split
    | fail_if_no_progress refine kept_mk ?_ rfl rfl
    | dsimp only
    | dsimp +zetaDelta only

theorem resetCluster_keeps {s : State} {n : Nat} 
    (hK : Kept wq wc s) :
    Kept wq wc (resetCluster s n) := by
  unfold resetCluster
  repeat' first
    | with_reducible assumption
    | with_reducible intro _
    | with_reducible apply State.setClu_keeps
    | with_reducible apply failAll_keeps
    | with_reducible apply State.setLclu_keeps
    | with_reducible apply kept_ite
    | with_reducible refine kept_fst (by assumption) ?_
    | with_reducible refine kept_snd (by assumption) ?_
    | extract_lets
    | split
    | fail_if_no_progress refine kept_mk ?_ rfl rfl
    | dsimp only
    | dsimp +zetaDelta only

theorem sleepCluster_keeps {s : State} {n : Nat} 
    (hK : Kept wq wc s) :
    Kept wq wc (sleepCluster s n) := by
  unfold sleepCluster
  repeat' first
    | with_reducible assumption
    | with_reducible intro _
    | with_reducible apply State.setLclu_keeps
    | with_reducible apply kept_ite
    | with_reducible refine kept_fst (by assumption) ?_
    | with_reducible refine kept_snd (by assumption) ?_
    | extract_lets
    | split
    | fail_if_no_progress refine kept_mk ?_ rfl rfl
    | dsimp only
    | dsimp +zetaDelta only

theorem wakeStore_keeps {s : State} {n : Nat} 
    (hK : Kept wq wc s) :
    Kept wq wc (wakeStore s n) := by
  unfold wakeStore
  repeat' first
    | with_reducible assumption
    | with_reducible intro _
    | with_reducible apply memClear_keeps
    | with_reducible apply State.setTile_keeps
    | with_reducible apply kept_ite
    | with_reducible refine kept_fst (by assumption) ?_
    | with_reducible refine kept_snd (by assumption) ?_
    | extract_lets
    | split
    | fail_if_no_progress refine kept_mk ?_ rfl rfl
    | dsimp only
    | dsimp +zetaDelta only

theorem cluPend_keeps {s : State} {n : Nat} 
    (hK : Kept wq wc s) :
    Kept wq wc (cluPend s n) := by
  unfold cluPend
  repeat' first
    | with_reducible assumption
    | with_reducible intro _
    | with_reducible apply State.setTile_keeps
    | with_reducible apply kept_ite
    | with_reducible refine kept_fst (by assumption) ?_
    | with_reducible refine kept_snd (by assumption) ?_
    | extract_lets
    | split
    | fail_if_no_progress refine kept_mk ?_ rfl rfl
    | dsimp only
    | dsimp +zetaDelta only

theorem cluPendEnd_keeps {s : State} {n : Nat} 
    (hK : Kept wq wc s) :
    Kept wq wc (cluPendEnd s n) := by
  unfold cluPendEnd
  repeat' first
    | with_reducible assumption
    | with_reducible intro _
    | with_reducible apply State.setTile_keeps
    | with_reducible apply kept_ite
    | with_reducible refine kept_fst (by assumption) ?_
    | with_reducible refine kept_snd (by assumption) ?_
    | extract_lets
    | split
    | fail_if_no_progress refine kept_mk ?_ rfl rfl
    | dsimp only
    | dsimp +zetaDelta only

theorem cluApply_keeps {s : State} {op n : Nat} 
    (hK : Kept wq wc s) :
    Kept wq wc (cluApply s op n) := by
  unfold cluApply
  repeat' first
    | with_reducible assumption
    | with_reducible intro _
    | with_reducible apply quiesceCluster_keeps
    | with_reducible apply cluPend_keeps
    | with_reducible apply releaseCluster_keeps
    | with_reducible apply resetCluster_keeps
    | with_reducible apply sleepCluster_keeps
    | with_reducible apply State.setLclu_keeps
    | with_reducible apply kept_ite
    | with_reducible refine kept_fst (by assumption) ?_
    | with_reducible refine kept_snd (by assumption) ?_
    | extract_lets
    | split
    | fail_if_no_progress refine kept_mk ?_ rfl rfl
    | dsimp only
    | dsimp +zetaDelta only

theorem actCluCtrl_keeps {s : State} {t v : Nat} 
    (hK : Kept wq wc s) :
    Kept wq wc (actCluCtrl s t v) := by
  unfold actCluCtrl
  repeat' first
    | with_reducible assumption
    | with_reducible intro _
    | with_reducible apply cluApply_keeps
    | with_reducible apply State.setTile_keeps
    | with_reducible apply kept_foldl
    | with_reducible apply kept_foldl1
    | with_reducible apply kept_foldl2
    | with_reducible apply kept_ite
    | with_reducible refine kept_fst (by assumption) ?_
    | with_reducible refine kept_snd (by assumption) ?_
    | extract_lets
    | split
    | fail_if_no_progress refine kept_mk ?_ rfl rfl
    | dsimp only
    | dsimp +zetaDelta only

theorem cluCtrl_keeps {s : State} {t : Tile} {m : Master} {v : W32} 
    (hK : Kept wq wc s) :
    Kept wq wc (cluCtrl s t m v) := by
  unfold cluCtrl
  repeat' first
    | with_reducible assumption
    | with_reducible intro _
    | with_reducible apply gated_keeps
    | with_reducible apply actCluCtrl_keeps
    | with_reducible apply kept_ite
    | with_reducible refine kept_fst (by assumption) ?_
    | with_reducible refine kept_snd (by assumption) ?_
    | extract_lets
    | split
    | fail_if_no_progress refine kept_mk ?_ rfl rfl
    | dsimp only
    | dsimp +zetaDelta only

theorem retryQuiesce_keeps {s : State} {n : Nat} 
    (hK : Kept wq wc s) :
    Kept wq wc (retryQuiesce s n) := by
  unfold retryQuiesce
  repeat' first
    | with_reducible assumption
    | with_reducible intro _
    | with_reducible apply endQuiesced_keeps
    | with_reducible apply cluPendEnd_keeps
    | with_reducible apply quiesceEnd_keeps
    | with_reducible apply kept_ite
    | with_reducible refine kept_fst (by assumption) ?_
    | with_reducible refine kept_snd (by assumption) ?_
    | extract_lets
    | split
    | fail_if_no_progress refine kept_mk ?_ rfl rfl
    | dsimp only
    | dsimp +zetaDelta only

theorem retryTiles_keeps {s : State} 
    (hK : Kept wq wc s) :
    Kept wq wc (retryTiles s) := by
  unfold retryTiles
  repeat' first
    | with_reducible assumption
    | with_reducible intro _
    | with_reducible apply retryTe_keeps
    | with_reducible apply retryQuiesce_keeps
    | with_reducible apply kept_foldl
    | with_reducible apply kept_foldl1
    | with_reducible apply kept_foldl2
    | with_reducible apply kept_ite
    | with_reducible refine kept_fst (by assumption) ?_
    | with_reducible refine kept_snd (by assumption) ?_
    | extract_lets
    | split
    | fail_if_no_progress refine kept_mk ?_ rfl rfl
    | dsimp only
    | dsimp +zetaDelta only

theorem abortOp_keeps {s : State} {slot : Nat} 
    (hK : Kept wq wc s) :
    Kept wq wc (abortOp s slot) := by
  unfold abortOp
  repeat' first
    | with_reducible assumption
    | with_reducible intro _
    | with_reducible apply opFinal_keeps
    | with_reducible apply kept_ite
    | with_reducible refine kept_fst (by assumption) ?_
    | with_reducible refine kept_snd (by assumption) ?_
    | extract_lets
    | split
    | fail_if_no_progress refine kept_mk ?_ rfl rfl
    | dsimp only
    | dsimp +zetaDelta only

theorem abortOps_keeps {s : State} {l : List Nat} 
    (hK : Kept wq wc s) :
    Kept wq wc (abortOps s l) := by
  unfold abortOps
  repeat' first
    | with_reducible assumption
    | with_reducible intro _
    | with_reducible apply abortOp_keeps
    | with_reducible apply haltStream_keeps
    | with_reducible apply settle_keeps
    | with_reducible apply kept_foldl
    | with_reducible apply kept_foldl1
    | with_reducible apply kept_foldl2
    | with_reducible apply kept_ite
    | with_reducible refine kept_fst (by assumption) ?_
    | with_reducible refine kept_snd (by assumption) ?_
    | extract_lets
    | split
    | fail_if_no_progress refine kept_mk ?_ rfl rfl
    | dsimp only
    | dsimp +zetaDelta only

theorem requiesce_keeps {s : State} {old : KMap LClus} 
    (hK : Kept wq wc s) :
    Kept wq wc (requiesce s old) := by
  unfold requiesce
  repeat' first
    | with_reducible assumption
    | with_reducible intro _
    | with_reducible apply State.setLclu_keeps
    | with_reducible apply kept_foldl
    | with_reducible apply kept_foldl1
    | with_reducible apply kept_foldl2
    | with_reducible apply kept_ite
    | with_reducible refine kept_fst (by assumption) ?_
    | with_reducible refine kept_snd (by assumption) ?_
    | extract_lets
    | split
    | fail_if_no_progress refine kept_mk ?_ rfl rfl
    | dsimp only
    | dsimp +zetaDelta only

theorem countRounds_keeps {s : State} 
    (hK : Kept wq wc s) :
    Kept wq wc (countRounds s) := by
  unfold countRounds
  repeat' first
    | with_reducible assumption
    | with_reducible intro _
    | with_reducible apply opCount_keeps
    | with_reducible apply kept_foldl
    | with_reducible apply kept_foldl1
    | with_reducible apply kept_foldl2
    | with_reducible apply kept_ite
    | with_reducible refine kept_fst (by assumption) ?_
    | with_reducible refine kept_snd (by assumption) ?_
    | extract_lets
    | split
    | fail_if_no_progress refine kept_mk ?_ rfl rfl
    | dsimp only
    | dsimp +zetaDelta only

theorem computeReset_keeps {s : State} {cause : Nat} 
    (hK : Kept wq wc s) :
    Kept wq wc (computeReset s cause) := by
  unfold computeReset
  repeat' first
    | with_reducible assumption
    | with_reducible intro _
    | with_reducible apply abortOps_keeps
    | with_reducible apply countRounds_keeps
    | with_reducible apply drainRequests_keeps
    | with_reducible apply endLoad_keeps
    | with_reducible apply memClear_keeps
    | with_reducible apply takeWaiting_keeps
    | with_reducible apply requiesce_keeps
    | with_reducible apply ih
    | with_reducible apply kept_foldl
    | with_reducible apply kept_foldl1
    | with_reducible apply kept_foldl2
    | with_reducible apply kept_ite
    | with_reducible refine kept_fst (by assumption) ?_
    | with_reducible refine kept_snd (by assumption) ?_
    | extract_lets
    | split
    | fail_if_no_progress refine kept_mk ?_ rfl rfl
    | dsimp only
    | dsimp +zetaDelta only

theorem functionReset_keeps {s : State} 
    (hK : Kept wq wc s) :
    Kept wq wc (functionReset s) := by
  unfold functionReset
  repeat' first
    | with_reducible assumption
    | with_reducible intro _
    | with_reducible apply kept_ite
    | with_reducible refine kept_fst (by assumption) ?_
    | with_reducible refine kept_snd (by assumption) ?_
    | extract_lets
    | split
    | fail_if_no_progress refine kept_mk ?_ rfl rfl
    | dsimp only
    | dsimp +zetaDelta only

theorem linkLoss_keeps {s : State} 
    (hK : Kept wq wc s) :
    Kept wq wc (linkLoss s) := by
  unfold linkLoss
  repeat' first
    | with_reducible assumption
    | with_reducible intro _
    | with_reducible apply functionReset_keeps
    | with_reducible apply kept_ite
    | with_reducible refine kept_fst (by assumption) ?_
    | with_reducible refine kept_snd (by assumption) ?_
    | extract_lets
    | split
    | fail_if_no_progress refine kept_mk ?_ rfl rfl
    | dsimp only
    | dsimp +zetaDelta only

theorem enterS1_keeps {s : State} 
    (hK : Kept wq wc s) :
    Kept wq wc (enterS1 s) := by
  unfold enterS1
  repeat' first
    | with_reducible assumption
    | with_reducible intro _
    | with_reducible apply setStage_keeps
    | with_reducible apply kept_ite
    | with_reducible refine kept_fst (by assumption) ?_
    | with_reducible refine kept_snd (by assumption) ?_
    | extract_lets
    | split
    | fail_if_no_progress refine kept_mk ?_ rfl rfl
    | dsimp only
    | dsimp +zetaDelta only

theorem leaveS0_keeps {s : State} 
    (hK : Kept wq wc s) :
    Kept wq wc (leaveS0 s) := by
  unfold leaveS0
  repeat' first
    | with_reducible assumption
    | with_reducible intro _
    | with_reducible apply enterS1_keeps
    | with_reducible apply kept_ite
    | with_reducible refine kept_fst (by assumption) ?_
    | with_reducible refine kept_snd (by assumption) ?_
    | extract_lets
    | split
    | fail_if_no_progress refine kept_mk ?_ rfl rfl
    | dsimp only
    | dsimp +zetaDelta only

theorem moduleReset_keeps {s : State} {cause : Nat} (h : Kept wq wc s) :
    Kept wq wc (moduleReset s cause) :=
  leaveS0_keeps ⟨h.1, fun _ => ⟨List.Pairwise.nil, fun e he => absurd he (List.not_mem_nil)⟩⟩

theorem actResetCtrl_keeps {s : State} {v : Nat} 
    (hK : Kept wq wc s) :
    Kept wq wc (actResetCtrl s v) := by
  unfold actResetCtrl
  repeat' first
    | with_reducible assumption
    | with_reducible intro _
    | with_reducible apply moduleReset_keeps
    | with_reducible apply computeReset_keeps
    | with_reducible apply kept_ite
    | with_reducible refine kept_fst (by assumption) ?_
    | with_reducible refine kept_snd (by assumption) ?_
    | extract_lets
    | split
    | fail_if_no_progress refine kept_mk ?_ rfl rfl
    | dsimp only
    | dsimp +zetaDelta only

theorem reportTrip_keeps {s : State} 
    (hK : Kept wq wc s) :
    Kept wq wc (reportTrip s) := by
  unfold reportTrip
  repeat' first
    | with_reducible assumption
    | with_reducible intro _
    | with_reducible apply kept_ite
    | with_reducible refine kept_fst (by assumption) ?_
    | with_reducible refine kept_snd (by assumption) ?_
    | extract_lets
    | split
    | fail_if_no_progress refine kept_mk ?_ rfl rfl
    | dsimp only
    | dsimp +zetaDelta only

/-! ### Inspect -/

theorem hourTurn_keeps {s : State} 
    (hK : Kept wq wc s) :
    Kept wq wc (hourTurn s) := by
  unfold hourTurn
  repeat' first
    | with_reducible assumption
    | with_reducible intro _
    | with_reducible apply kept_foldl
    | with_reducible apply kept_foldl1
    | with_reducible apply kept_foldl2
    | with_reducible apply kept_ite
    | with_reducible refine kept_fst (by assumption) ?_
    | with_reducible refine kept_snd (by assumption) ?_
    | extract_lets
    | split
    | fail_if_no_progress refine kept_mk ?_ rfl rfl
    | dsimp only
    | dsimp +zetaDelta only

theorem recordSuspect_keeps {s : State} {p : Nat} 
    (hK : Kept wq wc s) :
    Kept wq wc (recordSuspect s p) := by
  unfold recordSuspect
  repeat' first
    | with_reducible assumption
    | with_reducible intro _
    | with_reducible apply kept_ite
    | with_reducible refine kept_fst (by assumption) ?_
    | with_reducible refine kept_snd (by assumption) ?_
    | extract_lets
    | split
    | fail_if_no_progress refine kept_mk ?_ rfl rfl
    | dsimp only
    | dsimp +zetaDelta only

theorem suspect_keeps {s : State} {p : Nat} {st : ChkState} {inspector : Bool} {test : Option TestInput} 
    (hK : Kept wq wc s) :
    Kept wq wc (suspect s p st inspector test) := by
  unfold suspect
  repeat' first
    | with_reducible assumption
    | with_reducible intro _
    | with_reducible apply recordSuspect_keeps
    | with_reducible apply State.setClu_keeps
    | with_reducible apply kept_ite
    | with_reducible refine kept_fst (by assumption) ?_
    | with_reducible refine kept_snd (by assumption) ?_
    | extract_lets
    | split
    | fail_if_no_progress refine kept_mk ?_ rfl rfl
    | dsimp only
    | dsimp +zetaDelta only

theorem quarantine_keeps {s : State} {p : Nat} {test : Option TestInput} 
    (hK : Kept wq wc s) :
    Kept wq wc (quarantine s p test) := by
  unfold quarantine
  repeat' first
    | with_reducible assumption
    | with_reducible intro _
    | with_reducible apply suspect_keeps
    | with_reducible apply quiesceCluster_keeps
    | with_reducible apply kept_ite
    | with_reducible refine kept_fst (by assumption) ?_
    | with_reducible refine kept_snd (by assumption) ?_
    | extract_lets
    | split
    | fail_if_no_progress refine kept_mk ?_ rfl rfl
    | dsimp only
    | dsimp +zetaDelta only

theorem recheckElem_keeps {s : State} {p : Nat} {r : TeRun} {d : TDesc} {e : Nat} 
    (hK : Kept wq wc s) :
    Kept wq wc (recheckElem s p r d e).1 := by
  unfold recheckElem
  repeat' first
    | with_reducible assumption
    | with_reducible intro _
    | with_reducible apply checkParcels_keeps
    | with_reducible apply kept_ite1
    | with_reducible apply kept_ite2
    | with_reducible apply kept_ite
    | with_reducible refine kept_fst (by assumption) ?_
    | with_reducible refine kept_snd (by assumption) ?_
    | extract_lets
    | split
    | fail_if_no_progress refine kept_mk ?_ rfl rfl
    | dsimp only
    | dsimp +zetaDelta only

theorem recheckElems_keeps {s : State} {p : Nat} {r : TeRun} {d : TDesc} {l : List Nat} 
    (hK : Kept wq wc s) :
    Kept wq wc (recheckElems s p r d l).1 := by
  induction l generalizing s p r d with
  | nil =>
    unfold recheckElems
    repeat' first
      | with_reducible assumption
      | with_reducible intro _
      | with_reducible apply recheckElem_keeps
      | with_reducible apply ih
      | with_reducible apply kept_ite1
      | with_reducible apply kept_ite2
      | with_reducible apply kept_ite
      | with_reducible refine kept_fst (by assumption) ?_
      | with_reducible refine kept_snd (by assumption) ?_
      | extract_lets
      | split
      | fail_if_no_progress refine kept_mk ?_ rfl rfl
      | dsimp only
      | dsimp +zetaDelta only
  | cons e t ih =>
    unfold recheckElems
    repeat' first
      | with_reducible assumption
      | with_reducible intro _
      | with_reducible apply recheckElem_keeps
      | with_reducible apply ih
      | with_reducible apply kept_ite1
      | with_reducible apply kept_ite2
      | with_reducible apply kept_ite
      | with_reducible refine kept_fst (by assumption) ?_
      | with_reducible refine kept_snd (by assumption) ?_
      | extract_lets
      | split
      | fail_if_no_progress refine kept_mk ?_ rfl rfl
      | dsimp only
      | dsimp +zetaDelta only

theorem recomputeCheck_keeps {s : State} {p : Nat} {r : TeRun} {d : TDesc} {q : Nat} 
    (hK : Kept wq wc s) :
    Kept wq wc (recomputeCheck s p r d q).1 := by
  unfold recomputeCheck
  repeat' first
    | with_reducible assumption
    | with_reducible intro _
    | with_reducible apply recheckElems_keeps
    | with_reducible apply checkParcels_keeps
    | with_reducible apply kept_ite1
    | with_reducible apply kept_ite2
    | with_reducible apply kept_ite
    | with_reducible refine kept_fst (by assumption) ?_
    | with_reducible refine kept_snd (by assumption) ?_
    | extract_lets
    | split
    | fail_if_no_progress refine kept_mk ?_ rfl rfl
    | dsimp only
    | dsimp +zetaDelta only

theorem touchHelpers_keeps {s : State} {h : Hold} 
    (hK : Kept wq wc s) :
    Kept wq wc (touchHelpers s h) := by
  unfold touchHelpers
  repeat' first
    | with_reducible assumption
    | with_reducible intro _
    | with_reducible apply touchIdle_keeps
    | with_reducible apply kept_ite
    | with_reducible refine kept_fst (by assumption) ?_
    | with_reducible refine kept_snd (by assumption) ?_
    | extract_lets
    | split
    | fail_if_no_progress refine kept_mk ?_ rfl rfl
    | dsimp only
    | dsimp +zetaDelta only

theorem markSuspects_keeps {s : State} {p : Nat} {h : Hold} {sample : List Nat} {case : Nat} {t : TestInput} 
    (hK : Kept wq wc s) :
    Kept wq wc (markSuspects s p h sample case t) := by
  unfold markSuspects
  repeat' first
    | with_reducible assumption
    | with_reducible intro _
    | with_reducible apply suspect_keeps
    | with_reducible apply kept_ite
    | with_reducible refine kept_fst (by assumption) ?_
    | with_reducible refine kept_snd (by assumption) ?_
    | extract_lets
    | split
    | fail_if_no_progress refine kept_mk ?_ rfl rfl
    | dsimp only
    | dsimp +zetaDelta only

theorem signUnresolved_keeps {s : State} {p : Nat} {r : TeRun} {d : TDesc} {h : Hold} 
    (hK : Kept wq wc s) :
    Kept wq wc (signUnresolved s p r d h) := by
  unfold signUnresolved
  repeat' first
    | with_reducible assumption
    | with_reducible intro _
    | with_reducible apply cperAdd_keeps
    | with_reducible apply kept_ite
    | with_reducible refine kept_fst (by assumption) ?_
    | with_reducible refine kept_snd (by assumption) ?_
    | extract_lets
    | split
    | fail_if_no_progress refine kept_mk ?_ rfl rfl
    | dsimp only
    | dsimp +zetaDelta only

theorem unresolved_keeps {s : State} {n p : Nat} {r : TeRun} {d : TDesc} {h : Hold} {t : TestInput} 
    (hK : Kept wq wc s) :
    Kept wq wc (unresolved s n p r d h t) := by
  unfold unresolved
  repeat' first
    | with_reducible assumption
    | with_reducible intro _
    | with_reducible apply State.takeFree_keeps
    | with_reducible apply quarantine_keeps
    | with_reducible apply teFail_keeps
    | with_reducible apply signUnresolved_keeps
    | with_reducible apply kept_ite
    | with_reducible refine kept_fst (by assumption) ?_
    | with_reducible refine kept_snd (by assumption) ?_
    | extract_lets
    | split
    | fail_if_no_progress refine kept_mk ?_ rfl rfl
    | dsimp only
    | dsimp +zetaDelta only

theorem restoreCluster_keeps {s : State} {p : Nat} 
    (hK : Kept wq wc s) :
    Kept wq wc (restoreCluster s p) := by
  unfold restoreCluster
  repeat' first
    | with_reducible assumption
    | with_reducible intro _
    | with_reducible apply State.setClu_keeps
    | with_reducible apply kept_ite
    | with_reducible refine kept_fst (by assumption) ?_
    | with_reducible refine kept_snd (by assumption) ?_
    | extract_lets
    | split
    | fail_if_no_progress refine kept_mk ?_ rfl rfl
    | dsimp only
    | dsimp +zetaDelta only

theorem retireFaulty_keeps {s : State} {p : Nat} 
    (hK : Kept wq wc s) :
    Kept wq wc (retireFaulty s p) := by
  unfold retireFaulty
  repeat' first
    | with_reducible assumption
    | with_reducible intro _
    | with_reducible apply retireCluster_keeps
    | with_reducible apply kept_ite
    | with_reducible refine kept_fst (by assumption) ?_
    | with_reducible refine kept_snd (by assumption) ?_
    | extract_lets
    | split
    | fail_if_no_progress refine kept_mk ?_ rfl rfl
    | dsimp only
    | dsimp +zetaDelta only

theorem quietPhys_keeps {s : State} {p : Nat} 
    (hK : Kept wq wc s) :
    Kept wq wc (quietPhys s p) := by
  unfold quietPhys
  repeat' first
    | with_reducible assumption
    | with_reducible intro _
    | with_reducible apply quiesceCluster_keeps
    | with_reducible apply kept_ite
    | with_reducible refine kept_fst (by assumption) ?_
    | with_reducible refine kept_snd (by assumption) ?_
    | extract_lets
    | split
    | fail_if_no_progress refine kept_mk ?_ rfl rfl
    | dsimp only
    | dsimp +zetaDelta only

theorem holdFaulty_keeps {s : State} {p : Nat} 
    (hK : Kept wq wc s) :
    Kept wq wc (holdFaulty s p) := by
  unfold holdFaulty
  repeat' first
    | with_reducible assumption
    | with_reducible intro _
    | with_reducible apply recordSuspect_keeps
    | with_reducible apply quietPhys_keeps
    | with_reducible apply State.setClu_keeps
    | with_reducible apply kept_ite
    | with_reducible refine kept_fst (by assumption) ?_
    | with_reducible refine kept_snd (by assumption) ?_
    | extract_lets
    | split
    | fail_if_no_progress refine kept_mk ?_ rfl rfl
    | dsimp only
    | dsimp +zetaDelta only

theorem permanentFault_keeps {s : State} {p : Nat} {retire : Bool} 
    (hK : Kept wq wc s) :
    Kept wq wc (permanentFault s p retire) := by
  unfold permanentFault
  repeat' first
    | with_reducible assumption
    | with_reducible intro _
    | with_reducible apply retire_keeps
    | with_reducible apply cperAdd_keeps
    | with_reducible apply retireFaulty_keeps
    | with_reducible apply holdFaulty_keeps
    | with_reducible apply kept_ite
    | with_reducible refine kept_fst (by assumption) ?_
    | with_reducible refine kept_snd (by assumption) ?_
    | extract_lets
    | split
    | fail_if_no_progress refine kept_mk ?_ rfl rfl
    | dsimp only
    | dsimp +zetaDelta only

theorem transientFault_keeps {s : State} {p : Nat} {retire : Bool} 
    (hK : Kept wq wc s) :
    Kept wq wc (transientFault s p retire) := by
  unfold transientFault
  repeat' first
    | with_reducible assumption
    | with_reducible intro _
    | with_reducible apply hourTurn_keeps
    | with_reducible apply State.setClu_keeps
    | with_reducible apply cperAdd_keeps
    | with_reducible apply permanentFault_keeps
    | with_reducible apply retire_keeps
    | with_reducible apply restoreCluster_keeps
    | with_reducible apply kept_ite
    | with_reducible refine kept_fst (by assumption) ?_
    | with_reducible refine kept_snd (by assumption) ?_
    | extract_lets
    | split
    | fail_if_no_progress refine kept_mk ?_ rfl rfl
    | dsimp only
    | dsimp +zetaDelta only

theorem classify_keeps {s : State} {p equalRuns : Nat} {retire : Bool} 
    (hK : Kept wq wc s) :
    Kept wq wc (classify s p equalRuns retire) := by
  unfold classify
  repeat' first
    | with_reducible assumption
    | with_reducible intro _
    | with_reducible apply permanentFault_keeps
    | with_reducible apply retire_keeps
    | with_reducible apply transientFault_keeps
    | with_reducible apply kept_ite
    | with_reducible refine kept_fst (by assumption) ?_
    | with_reducible refine kept_snd (by assumption) ?_
    | extract_lets
    | split
    | fail_if_no_progress refine kept_mk ?_ rfl rfl
    | dsimp only
    | dsimp +zetaDelta only

theorem parityEnd_keeps {s : State} {slot : Option Nat} {unit key loc logical : Nat} 
    (hK : Kept wq wc s) :
    Kept wq wc (parityEnd s slot unit key loc logical) := by
  unfold parityEnd
  repeat' first
    | with_reducible assumption
    | with_reducible intro _
    | with_reducible apply cperAdd_keeps
    | with_reducible apply kept_ite
    | with_reducible refine kept_fst (by assumption) ?_
    | with_reducible refine kept_snd (by assumption) ?_
    | extract_lets
    | split
    | fail_if_no_progress refine kept_mk ?_ rfl rfl
    | dsimp only
    | dsimp +zetaDelta only

theorem parityProgram_keeps {s : State} {p unit : Nat} 
    (hK : Kept wq wc s) :
    Kept wq wc (parityProgram s p unit) := by
  unfold parityProgram
  repeat' first
    | with_reducible assumption
    | with_reducible intro _
    | with_reducible apply parityEnd_keeps
    | with_reducible apply suspect_keeps
    | with_reducible apply endProgram_keeps
    | with_reducible apply kept_ite
    | with_reducible refine kept_fst (by assumption) ?_
    | with_reducible refine kept_snd (by assumption) ?_
    | extract_lets
    | split
    | fail_if_no_progress refine kept_mk ?_ rfl rfl
    | dsimp only
    | dsimp +zetaDelta only

theorem paritySolves_keeps {s : State} {t p : Nat} 
    (hK : Kept wq wc s) :
    Kept wq wc (paritySolves s t p) := by
  unfold paritySolves
  repeat' first
    | with_reducible assumption
    | with_reducible intro _
    | with_reducible apply endSolve_keeps
    | with_reducible apply parityEnd_keeps
    | with_reducible apply suspect_keeps
    | with_reducible apply kept_foldl
    | with_reducible apply kept_foldl1
    | with_reducible apply kept_foldl2
    | with_reducible apply kept_ite
    | with_reducible refine kept_fst (by assumption) ?_
    | with_reducible refine kept_snd (by assumption) ?_
    | extract_lets
    | split
    | fail_if_no_progress refine kept_mk ?_ rfl rfl
    | dsimp only
    | dsimp +zetaDelta only

theorem parityStack_keeps {s : State} {k : Nat} 
    (hK : Kept wq wc s) :
    Kept wq wc (parityStack s k) := by
  unfold parityStack
  repeat' first
    | with_reducible assumption
    | with_reducible intro _
    | with_reducible apply seFail_keeps
    | with_reducible apply parityEnd_keeps
    | with_reducible apply kept_ite
    | with_reducible refine kept_fst (by assumption) ?_
    | with_reducible refine kept_snd (by assumption) ?_
    | extract_lets
    | split
    | fail_if_no_progress refine kept_mk ?_ rfl rfl
    | dsimp only
    | dsimp +zetaDelta only

theorem parityPath_keeps {s : State} {unit m : Nat} {again : Bool} 
    (hK : Kept wq wc s) :
    Kept wq wc (parityPath s unit m again) := by
  unfold parityPath
  repeat' first
    | with_reducible assumption
    | with_reducible intro _
    | with_reducible apply cperAdd_keeps
    | with_reducible apply kept_ite
    | with_reducible refine kept_fst (by assumption) ?_
    | with_reducible refine kept_snd (by assumption) ?_
    | extract_lets
    | split
    | fail_if_no_progress refine kept_mk ?_ rfl rfl
    | dsimp only
    | dsimp +zetaDelta only

theorem parityParcel_keeps {s : State} {n parcel : Nat} 
    (hK : Kept wq wc s) :
    Kept wq wc (parityParcel s n parcel) := by
  unfold parityParcel
  repeat' first
    | with_reducible assumption
    | with_reducible intro _
    | with_reducible apply State.setRun_keeps
    | with_reducible apply kept_ite
    | with_reducible refine kept_fst (by assumption) ?_
    | with_reducible refine kept_snd (by assumption) ?_
    | extract_lets
    | split
    | fail_if_no_progress refine kept_mk ?_ rfl rfl
    | dsimp only
    | dsimp +zetaDelta only

/-! ### Boot -/

theorem holdStage_keeps {s : State} {error : Nat} 
    (hK : Kept wq wc s) :
    Kept wq wc (holdStage s error) := by
  unfold holdStage
  repeat' first
    | with_reducible assumption
    | with_reducible intro _
    | with_reducible apply kept_ite
    | with_reducible refine kept_fst (by assumption) ?_
    | with_reducible refine kept_snd (by assumption) ?_
    | extract_lets
    | split
    | fail_if_no_progress refine kept_mk ?_ rfl rfl
    | dsimp only
    | dsimp +zetaDelta only

theorem runPostmaster_keeps {s : State} {stage : List Byte} 
    (hK : Kept wq wc s) :
    Kept wq wc (runPostmaster s stage) := by
  unfold runPostmaster
  repeat' first
    | with_reducible assumption
    | with_reducible intro _
    | with_reducible apply startAttest_keeps
    | with_reducible apply setStage_keeps
    | with_reducible apply startSorter_keeps
    | with_reducible apply kept_ite
    | with_reducible refine kept_fst (by assumption) ?_
    | with_reducible refine kept_snd (by assumption) ?_
    | extract_lets
    | split
    | fail_if_no_progress refine kept_mk ?_ rfl rfl
    | dsimp only
    | dsimp +zetaDelta only

theorem recallSuspects_keeps {s : State} 
    (hK : Kept wq wc s) :
    Kept wq wc (recallSuspects s) := by
  unfold recallSuspects
  repeat' first
    | with_reducible assumption
    | with_reducible intro _
    | with_reducible apply State.setClu_keeps
    | with_reducible apply kept_foldl
    | with_reducible apply kept_foldl1
    | with_reducible apply kept_foldl2
    | with_reducible apply kept_ite
    | with_reducible refine kept_fst (by assumption) ?_
    | with_reducible refine kept_snd (by assumption) ?_
    | extract_lets
    | split
    | fail_if_no_progress refine kept_mk ?_ rfl rfl
    | dsimp only
    | dsimp +zetaDelta only

theorem checkRemap_keeps {s : State} 
    (hK : Kept wq wc s) :
    Kept wq wc (checkRemap s) := by
  unfold checkRemap
  repeat' first
    | with_reducible assumption
    | with_reducible intro _
    | with_reducible apply kept_ite
    | with_reducible refine kept_fst (by assumption) ?_
    | with_reducible refine kept_snd (by assumption) ?_
    | extract_lets
    | split
    | fail_if_no_progress refine kept_mk ?_ rfl rfl
    | dsimp only
    | dsimp +zetaDelta only

theorem trainStack_keeps {s : State} {k : Nat} {r : StackTraining} 
    (hK : Kept wq wc s) :
    Kept wq wc (trainStack s k r) := by
  unfold trainStack
  repeat' first
    | with_reducible assumption
    | with_reducible intro _
    | with_reducible apply State.setStk_keeps
    | with_reducible apply kept_ite
    | with_reducible refine kept_fst (by assumption) ?_
    | with_reducible refine kept_snd (by assumption) ?_
    | extract_lets
    | split
    | fail_if_no_progress refine kept_mk ?_ rfl rfl
    | dsimp only
    | dsimp +zetaDelta only

theorem packStart_keeps {s : State} 
    (hK : Kept wq wc s) :
    Kept wq wc (packStart s) := by
  unfold packStart
  repeat' first
    | with_reducible assumption
    | with_reducible intro _
    | with_reducible apply kept_ite
    | with_reducible refine kept_fst (by assumption) ?_
    | with_reducible refine kept_snd (by assumption) ?_
    | extract_lets
    | split
    | fail_if_no_progress refine kept_mk ?_ rfl rfl
    | dsimp only
    | dsimp +zetaDelta only

theorem actPackCtrl_keeps {s : State} {v : Nat} {host : Option (List Byte)} 
    (hK : Kept wq wc s) :
    Kept wq wc (actPackCtrl s v host) := by
  unfold actPackCtrl
  repeat' first
    | with_reducible assumption
    | with_reducible intro _
    | with_reducible apply readObject_keeps
    | with_reducible apply offerPack_keeps
    | with_reducible apply packStart_keeps
    | with_reducible apply kept_ite
    | with_reducible refine kept_fst (by assumption) ?_
    | with_reducible refine kept_snd (by assumption) ?_
    | extract_lets
    | split
    | fail_if_no_progress refine kept_mk ?_ rfl rfl
    | dsimp only
    | dsimp +zetaDelta only

theorem freeBytes_keeps {n : Nat} {s : State} 
    (hK : Kept wq wc s) :
    Kept wq wc (freeBytes n s).2 := by
  induction n generalizing s with
  | zero =>
    unfold freeBytes
    repeat' first
      | with_reducible assumption
      | with_reducible intro _
      | with_reducible apply State.takeFree_keeps
      | with_reducible apply ih
      | with_reducible apply kept_ite1
      | with_reducible apply kept_ite2
      | with_reducible apply kept_ite
      | with_reducible refine kept_fst (by assumption) ?_
      | with_reducible refine kept_snd (by assumption) ?_
      | extract_lets
      | split
      | fail_if_no_progress refine kept_mk ?_ rfl rfl
      | dsimp only
      | dsimp +zetaDelta only
  | succ n ih =>
    unfold freeBytes
    repeat' first
      | with_reducible assumption
      | with_reducible intro _
      | with_reducible apply State.takeFree_keeps
      | with_reducible apply ih
      | with_reducible apply kept_ite1
      | with_reducible apply kept_ite2
      | with_reducible apply kept_ite
      | with_reducible refine kept_fst (by assumption) ?_
      | with_reducible refine kept_snd (by assumption) ?_
      | extract_lets
      | split
      | fail_if_no_progress refine kept_mk ?_ rfl rfl
      | dsimp only
      | dsimp +zetaDelta only

theorem packLeaves_keeps {s : State} {b : List Byte} {p : Nat} {t : PackTest}
    (hK : Kept wq wc s) :
    Kept wq wc (packLeaves s b p t) := by
  unfold packLeaves
  extract_lets put f
  have hp : ∀ (a : State) off l, Kept wq wc a →
      Kept wq wc (put a off l) := fun a off l h => memPut_keeps h
  have hf : Kept wq wc f.2 := freeBytes_keeps hK
  clear_value put f
  exact hp _ _ _ (hp _ _ _ hf)

theorem packOutcome_keeps {s : State} {b : List Byte} {out : List PackOutcome} {p : Nat} 
    (hK : Kept wq wc s) :
    Kept wq wc (packOutcome s b out p).1 := by
  unfold packOutcome
  repeat' first
    | with_reducible assumption
    | with_reducible intro _
    | with_reducible apply classify_keeps
    | with_reducible apply kept_ite1
    | with_reducible apply kept_ite2
    | with_reducible apply kept_ite
    | with_reducible refine kept_fst (by assumption) ?_
    | with_reducible refine kept_snd (by assumption) ?_
    | extract_lets
    | split
    | fail_if_no_progress refine kept_mk ?_ rfl rfl
    | dsimp only
    | dsimp +zetaDelta only

theorem packResults_keeps {s : State} {b : List Byte} {out : List PackOutcome} {l : List Nat} 
    (hK : Kept wq wc s) :
    Kept wq wc (packResults s b out l).1 := by
  induction l generalizing s b out with
  | nil =>
    unfold packResults
    repeat' first
      | with_reducible assumption
      | with_reducible intro _
      | with_reducible apply packLeaves_keeps
      | with_reducible apply packOutcome_keeps
      | with_reducible apply cperAdd_keeps
      | with_reducible apply ih
      | with_reducible apply kept_foldl
      | with_reducible apply kept_foldl1
      | with_reducible apply kept_foldl2
      | with_reducible apply kept_ite1
      | with_reducible apply kept_ite2
      | with_reducible apply kept_ite
      | with_reducible refine kept_fst (by assumption) ?_
      | with_reducible refine kept_snd (by assumption) ?_
      | extract_lets
      | split
      | fail_if_no_progress refine kept_mk ?_ rfl rfl
      | dsimp only
      | dsimp +zetaDelta only
  | cons e t ih =>
    unfold packResults
    repeat' first
      | with_reducible assumption
      | with_reducible intro _
      | with_reducible apply packLeaves_keeps
      | with_reducible apply packOutcome_keeps
      | with_reducible apply cperAdd_keeps
      | with_reducible apply ih
      | with_reducible apply kept_foldl
      | with_reducible apply kept_foldl1
      | with_reducible apply kept_foldl2
      | with_reducible apply kept_ite1
      | with_reducible apply kept_ite2
      | with_reducible apply kept_ite
      | with_reducible refine kept_fst (by assumption) ?_
      | with_reducible refine kept_snd (by assumption) ?_
      | extract_lets
      | split
      | fail_if_no_progress refine kept_mk ?_ rfl rfl
      | dsimp only
      | dsimp +zetaDelta only

theorem bcastSend_keeps {s : State} {n : Nat} {b : Bcast} 
    (hK : Kept wq wc s) :
    Kept wq wc (bcastSend s n b) := by
  unfold bcastSend
  repeat' first
    | with_reducible assumption
    | with_reducible intro _
    | with_reducible apply linkSend_keeps
    | with_reducible apply kept_ite
    | with_reducible refine kept_fst (by assumption) ?_
    | with_reducible refine kept_snd (by assumption) ?_
    | extract_lets
    | split
    | fail_if_no_progress refine kept_mk ?_ rfl rfl
    | dsimp only
    | dsimp +zetaDelta only

theorem floodBcast_keeps {s : State} {but : Option Nat} {b : Bcast} 
    (hK : Kept wq wc s) :
    Kept wq wc (floodBcast s but b) := by
  unfold floodBcast
  repeat' first
    | with_reducible assumption
    | with_reducible intro _
    | with_reducible apply bcastSend_keeps
    | with_reducible apply kept_foldl
    | with_reducible apply kept_foldl1
    | with_reducible apply kept_foldl2
    | with_reducible apply kept_ite
    | with_reducible refine kept_fst (by assumption) ?_
    | with_reducible refine kept_snd (by assumption) ?_
    | extract_lets
    | split
    | fail_if_no_progress refine kept_mk ?_ rfl rfl
    | dsimp only
    | dsimp +zetaDelta only

theorem takeBundle_keeps {s : State} {obj : List Byte} {force : Bool} 
    (hK : Kept wq wc s) :
    Kept wq wc (takeBundle s obj force) := by
  unfold takeBundle
  repeat' first
    | with_reducible assumption
    | with_reducible intro _
    | with_reducible apply recordVerify_keeps
    | with_reducible apply startSorter_keeps
    | with_reducible apply writeBundle_keeps
    | with_reducible apply kept_ite
    | with_reducible refine kept_fst (by assumption) ?_
    | with_reducible refine kept_snd (by assumption) ?_
    | extract_lets
    | split
    | fail_if_no_progress refine kept_mk ?_ rfl rfl
    | dsimp only
    | dsimp +zetaDelta only

theorem takeImage_keeps {s : State} {img : List Byte} 
    (hK : Kept wq wc s) :
    Kept wq wc (takeImage s img) := by
  unfold takeImage
  repeat' first
    | with_reducible assumption
    | with_reducible intro _
    | with_reducible apply loadBytes_keeps
    | with_reducible apply kept_ite
    | with_reducible refine kept_fst (by assumption) ?_
    | with_reducible refine kept_snd (by assumption) ?_
    | extract_lets
    | split
    | fail_if_no_progress refine kept_mk ?_ rfl rfl
    | dsimp only
    | dsimp +zetaDelta only

theorem takeObject_keeps {s : State} {kind : Nat} {force : Bool} {obj : List Byte} 
    (hK : Kept wq wc s) :
    Kept wq wc (takeObject s kind force obj) := by
  unfold takeObject
  repeat' first
    | with_reducible assumption
    | with_reducible intro _
    | with_reducible apply takeBundle_keeps
    | with_reducible apply takeImage_keeps
    | with_reducible apply offerPack_keeps
    | with_reducible apply kept_ite
    | with_reducible refine kept_fst (by assumption) ?_
    | with_reducible refine kept_snd (by assumption) ?_
    | extract_lets
    | split
    | fail_if_no_progress refine kept_mk ?_ rfl rfl
    | dsimp only
    | dsimp +zetaDelta only

theorem takeFragment_keeps {s : State} {b : Bcast} 
    (hK : Kept wq wc s) :
    Kept wq wc (takeFragment s b) := by
  unfold takeFragment
  repeat' first
    | with_reducible assumption
    | with_reducible intro _
    | with_reducible apply takeObject_keeps
    | with_reducible apply kept_ite
    | with_reducible refine kept_fst (by assumption) ?_
    | with_reducible refine kept_snd (by assumption) ?_
    | extract_lets
    | split
    | fail_if_no_progress refine kept_mk ?_ rfl rfl
    | dsimp only
    | dsimp +zetaDelta only

theorem floodObject_keeps {s : State} {o : BObj} {i : Nat} {l : List (List Byte)} 
    (hK : Kept wq wc s) :
    Kept wq wc (floodObject s o i l).1 := by
  induction l generalizing s o i with
  | nil =>
    unfold floodObject
    repeat' first
      | with_reducible assumption
      | with_reducible intro _
      | with_reducible apply takeFlood_keeps
      | with_reducible apply seenFlood_keeps
      | with_reducible apply floodBcast_keeps
      | with_reducible apply ih
      | with_reducible apply kept_foldl
      | with_reducible apply kept_foldl1
      | with_reducible apply kept_foldl2
      | with_reducible apply kept_ite1
      | with_reducible apply kept_ite2
      | with_reducible apply kept_ite
      | with_reducible refine kept_fst (by assumption) ?_
      | with_reducible refine kept_snd (by assumption) ?_
      | extract_lets
      | split
      | fail_if_no_progress refine kept_mk ?_ rfl rfl
      | dsimp only
      | dsimp +zetaDelta only
  | cons e t ih =>
    unfold floodObject
    repeat' first
      | with_reducible assumption
      | with_reducible intro _
      | with_reducible apply takeFlood_keeps
      | with_reducible apply seenFlood_keeps
      | with_reducible apply floodBcast_keeps
      | with_reducible apply ih
      | with_reducible apply kept_foldl
      | with_reducible apply kept_foldl1
      | with_reducible apply kept_foldl2
      | with_reducible apply kept_ite1
      | with_reducible apply kept_ite2
      | with_reducible apply kept_ite
      | with_reducible refine kept_fst (by assumption) ?_
      | with_reducible refine kept_snd (by assumption) ?_
      | extract_lets
      | split
      | fail_if_no_progress refine kept_mk ?_ rfl rfl
      | dsimp only
      | dsimp +zetaDelta only

theorem startBroadcast_keeps {s : State} {kind : Nat} {force : Bool} {obj : List Byte} 
    (hK : Kept wq wc s) :
    Kept wq wc (startBroadcast s kind force obj) := by
  unfold startBroadcast
  repeat' first
    | with_reducible assumption
    | with_reducible intro _
    | with_reducible apply floodObject_keeps
    | with_reducible apply takeObject_keeps
    | with_reducible apply kept_ite
    | with_reducible refine kept_fst (by assumption) ?_
    | with_reducible refine kept_snd (by assumption) ?_
    | extract_lets
    | split
    | fail_if_no_progress refine kept_mk ?_ rfl rfl
    | dsimp only
    | dsimp +zetaDelta only

theorem loadHeld_keeps {s : State} 
    (hK : Kept wq wc s) :
    Kept wq wc (loadHeld s) := by
  unfold loadHeld
  repeat' first
    | with_reducible assumption
    | with_reducible intro _
    | with_reducible apply loadBytes_keeps
    | with_reducible apply kept_ite
    | with_reducible refine kept_fst (by assumption) ?_
    | with_reducible refine kept_snd (by assumption) ?_
    | extract_lets
    | split
    | fail_if_no_progress refine kept_mk ?_ rfl rfl
    | dsimp only
    | dsimp +zetaDelta only

theorem actBcastCtrl_keeps {s : State} {v : Nat} {host : Option (List Byte)} 
    (hK : Kept wq wc s) :
    Kept wq wc (actBcastCtrl s v host) := by
  unfold actBcastCtrl
  repeat' first
    | with_reducible assumption
    | with_reducible intro _
    | with_reducible apply loadHeld_keeps
    | with_reducible apply readObject_keeps
    | with_reducible apply startBroadcast_keeps
    | with_reducible apply kept_ite
    | with_reducible refine kept_fst (by assumption) ?_
    | with_reducible refine kept_snd (by assumption) ?_
    | extract_lets
    | split
    | fail_if_no_progress refine kept_mk ?_ rfl rfl
    | dsimp only
    | dsimp +zetaDelta only

theorem sendHeld_keeps {s : State} {n : Nat} 
    (hK : Kept wq wc s) :
    Kept wq wc (sendHeld s n) := by
  unfold sendHeld
  repeat' first
    | with_reducible assumption
    | with_reducible intro _
    | with_reducible apply bcastSend_keeps
    | with_reducible apply kept_foldl
    | with_reducible apply kept_foldl1
    | with_reducible apply kept_foldl2
    | with_reducible apply kept_ite
    | with_reducible refine kept_fst (by assumption) ?_
    | with_reducible refine kept_snd (by assumption) ?_
    | extract_lets
    | split
    | fail_if_no_progress refine kept_mk ?_ rfl rfl
    | dsimp only
    | dsimp +zetaDelta only

/-! ### RegRead -/

theorem latchSet_keeps {s : State} {m off : Nat} {v : W32} 
    (hK : Kept wq wc s) :
    Kept wq wc (latchSet s m off v) := by
  unfold latchSet
  repeat' first
    | with_reducible assumption
    | with_reducible intro _
    | with_reducible apply kept_ite
    | with_reducible refine kept_fst (by assumption) ?_
    | with_reducible refine kept_snd (by assumption) ?_
    | extract_lets
    | split
    | fail_if_no_progress refine kept_mk ?_ rfl rfl
    | dsimp only
    | dsimp +zetaDelta only

theorem rcptRead_keeps {s : State} {m off : Nat} 
    (hK : Kept wq wc s) :
    Kept wq wc (rcptRead s m off).1 := by
  unfold rcptRead
  repeat' first
    | with_reducible assumption
    | with_reducible intro _
    | with_reducible apply kept_ite1
    | with_reducible apply kept_ite2
    | with_reducible apply kept_ite
    | with_reducible refine kept_fst (by assumption) ?_
    | with_reducible refine kept_snd (by assumption) ?_
    | extract_lets
    | split
    | fail_if_no_progress refine kept_mk ?_ rfl rfl
    | dsimp only
    | dsimp +zetaDelta only

theorem regReadWord_keeps {s : State} {m off : Nat} 
    (hK : Kept wq wc s) :
    Kept wq wc (regReadWord s m off).1 := by
  unfold regReadWord
  repeat' first
    | with_reducible assumption
    | with_reducible intro _
    | with_reducible apply rcptRead_keeps
    | with_reducible apply latchSet_keeps
    | with_reducible apply kept_ite1
    | with_reducible apply kept_ite2
    | with_reducible apply kept_ite
    | with_reducible refine kept_fst (by assumption) ?_
    | with_reducible refine kept_snd (by assumption) ?_
    | extract_lets
    | split
    | fail_if_no_progress refine kept_mk ?_ rfl rfl
    | dsimp only
    | dsimp +zetaDelta only

theorem regRead_keeps {s : State} {m off : Nat} 
    (hK : Kept wq wc s) :
    Kept wq wc (regRead s m off).1 := by
  unfold regRead
  repeat' first
    | with_reducible assumption
    | with_reducible intro _
    | with_reducible apply regReadWord_keeps
    | with_reducible apply gateFail_keeps
    | with_reducible apply kept_ite1
    | with_reducible apply kept_ite2
    | with_reducible apply kept_ite
    | with_reducible refine kept_fst (by assumption) ?_
    | with_reducible refine kept_snd (by assumption) ?_
    | extract_lets
    | split
    | fail_if_no_progress refine kept_mk ?_ rfl rfl
    | dsimp only
    | dsimp +zetaDelta only

theorem regReadMany_keeps {n : Nat} {s : State} {m off : Nat} 
    (hK : Kept wq wc s) :
    Kept wq wc (regReadMany n s m off).1 := by
  induction n generalizing s m off with
  | zero =>
    unfold regReadMany
    repeat' first
      | with_reducible assumption
      | with_reducible intro _
      | with_reducible apply regRead_keeps
      | with_reducible apply ih
      | with_reducible apply kept_ite1
      | with_reducible apply kept_ite2
      | with_reducible apply kept_ite
      | with_reducible refine kept_fst (by assumption) ?_
      | with_reducible refine kept_snd (by assumption) ?_
      | extract_lets
      | split
      | fail_if_no_progress refine kept_mk ?_ rfl rfl
      | dsimp only
      | dsimp +zetaDelta only
  | succ n ih =>
    unfold regReadMany
    repeat' first
      | with_reducible assumption
      | with_reducible intro _
      | with_reducible apply regRead_keeps
      | with_reducible apply ih
      | with_reducible apply kept_ite1
      | with_reducible apply kept_ite2
      | with_reducible apply kept_ite
      | with_reducible refine kept_fst (by assumption) ?_
      | with_reducible refine kept_snd (by assumption) ?_
      | extract_lets
      | split
      | fail_if_no_progress refine kept_mk ?_ rfl rfl
      | dsimp only
      | dsimp +zetaDelta only

/-! ### RegWrite -/

theorem rwlWrite_keeps {s : State} {m off cur new : Nat} {act : State → State} (hact : ∀ u0, Kept wq wc (u0) → Kept wq wc (act u0))
    (hK : Kept wq wc s) :
    Kept wq wc (rwlWrite s m off cur new act) := by
  unfold rwlWrite
  repeat' first
    | with_reducible assumption
    | with_reducible intro _
    | with_reducible apply rwlDenied_keeps
    | with_reducible apply hact
    | with_reducible apply kept_ite
    | with_reducible refine kept_fst (by assumption) ?_
    | with_reducible refine kept_snd (by assumption) ?_
    | extract_lets
    | split
    | fail_if_no_progress refine kept_mk ?_ rfl rfl
    | dsimp only
    | dsimp +zetaDelta only

theorem bootWrite_keeps {s : State} {o v : Nat} 
    (hK : Kept wq wc s) :
    Kept wq wc (bootWrite s o v) := by
  unfold bootWrite
  repeat' first
    | with_reducible assumption
    | with_reducible intro _
    | with_reducible apply actResetCtrl_keeps
    | with_reducible apply actBcastCtrl_keeps
    | with_reducible apply actImageCtrl_keeps
    | with_reducible apply kept_ite
    | with_reducible refine kept_fst (by assumption) ?_
    | with_reducible refine kept_snd (by assumption) ?_
    | extract_lets
    | split
    | fail_if_no_progress refine kept_mk ?_ rfl rfl
    | dsimp only
    | dsimp +zetaDelta only

theorem hifCtrl_keeps {s : State} {v : Nat} 
    (hK : Kept wq wc s) :
    Kept wq wc (hifCtrl s v) := by
  unfold hifCtrl
  repeat' first
    | with_reducible assumption
    | with_reducible intro _
    | with_reducible apply drainHeld_keeps
    | with_reducible apply actResync_keeps
    | with_reducible apply kept_ite
    | with_reducible refine kept_fst (by assumption) ?_
    | with_reducible refine kept_snd (by assumption) ?_
    | extract_lets
    | split
    | fail_if_no_progress refine kept_mk ?_ rfl rfl
    | dsimp only
    | dsimp +zetaDelta only

theorem hifApCtrl_keeps {s : State} {v : Nat} 
    (hK : Kept wq wc s) :
    Kept wq wc (hifApCtrl s v) := by
  unfold hifApCtrl
  repeat' first
    | with_reducible assumption
    | with_reducible intro _
    | with_reducible apply actApertureApply_keeps
    | with_reducible apply kept_ite
    | with_reducible refine kept_fst (by assumption) ?_
    | with_reducible refine kept_snd (by assumption) ?_
    | extract_lets
    | split
    | fail_if_no_progress refine kept_mk ?_ rfl rfl
    | dsimp only
    | dsimp +zetaDelta only

theorem msixWrite_keeps {s : State} {i v : Nat} 
    (hK : Kept wq wc s) :
    Kept wq wc (msixWrite s i v) := by
  unfold msixWrite
  repeat' first
    | with_reducible assumption
    | with_reducible intro _
    | with_reducible apply sendMsix_keeps
    | with_reducible apply kept_ite
    | with_reducible refine kept_fst (by assumption) ?_
    | with_reducible refine kept_snd (by assumption) ?_
    | extract_lets
    | split
    | fail_if_no_progress refine kept_mk ?_ rfl rfl
    | dsimp only
    | dsimp +zetaDelta only

theorem boxWrite_keeps {s : State} {k o v : Nat} 
    (hK : Kept wq wc s) :
    Kept wq wc (boxWrite s k o v) := by
  unfold boxWrite
  repeat' first
    | with_reducible assumption
    | with_reducible intro _
    | with_reducible apply actBoxBase_keeps
    | with_reducible apply actBoxConfig_keeps
    | with_reducible apply State.setBox_keeps
    | with_reducible apply kept_ite
    | with_reducible refine kept_fst (by assumption) ?_
    | with_reducible refine kept_snd (by assumption) ?_
    | extract_lets
    | split
    | fail_if_no_progress refine kept_mk ?_ rfl rfl
    | dsimp only
    | dsimp +zetaDelta only

theorem hifWrite_keeps {s : State} {o v : Nat} 
    (hK : Kept wq wc s) :
    Kept wq wc (hifWrite s o v) := by
  unfold hifWrite
  repeat' first
    | with_reducible assumption
    | with_reducible intro _
    | with_reducible apply hifCtrl_keeps
    | with_reducible apply hifApCtrl_keeps
    | with_reducible apply drainHeld_keeps
    | with_reducible apply actNoticeHead_keeps
    | with_reducible apply actSlotRelease_keeps
    | with_reducible apply actStreamClear_keeps
    | with_reducible apply boxWrite_keeps
    | with_reducible apply msixWrite_keeps
    | with_reducible apply kept_ite
    | with_reducible refine kept_fst (by assumption) ?_
    | with_reducible refine kept_snd (by assumption) ?_
    | extract_lets
    | split
    | fail_if_no_progress refine kept_mk ?_ rfl rfl
    | dsimp only
    | dsimp +zetaDelta only

theorem pwrWrite_keeps {s : State} {o v : Nat} 
    (hK : Kept wq wc s) :
    Kept wq wc (pwrWrite s o v) := by
  unfold pwrWrite
  repeat' first
    | with_reducible assumption
    | with_reducible intro _
    | with_reducible apply actPowerCap_keeps
    | with_reducible apply kept_ite
    | with_reducible refine kept_fst (by assumption) ?_
    | with_reducible refine kept_snd (by assumption) ?_
    | extract_lets
    | split
    | fail_if_no_progress refine kept_mk ?_ rfl rfl
    | dsimp only
    | dsimp +zetaDelta only

theorem secWrite_keeps {s : State} {m off v : Nat} 
    (hK : Kept wq wc s) :
    Kept wq wc (secWrite s m off v) := by
  unfold secWrite
  repeat' first
    | with_reducible assumption
    | with_reducible intro _
    | with_reducible apply rwlWrite_keeps
    | with_reducible apply kept_ite
    | with_reducible refine kept_fst (by assumption) ?_
    | with_reducible refine kept_snd (by assumption) ?_
    | extract_lets
    | split
    | fail_if_no_progress refine kept_mk ?_ rfl rfl
    | dsimp only
    | dsimp +zetaDelta only

theorem chkWrite_keeps {s : State} {m off v : Nat} 
    (hK : Kept wq wc s) :
    Kept wq wc (chkWrite s m off v) := by
  unfold chkWrite
  repeat' first
    | with_reducible assumption
    | with_reducible intro _
    | with_reducible apply rwlWrite_keeps
    | with_reducible apply unresolved_keeps
    | with_reducible apply actPackCtrl_keeps
    | with_reducible apply kept_ite
    | with_reducible refine kept_fst (by assumption) ?_
    | with_reducible refine kept_snd (by assumption) ?_
    | extract_lets
    | split
    | fail_if_no_progress refine kept_mk ?_ rfl rfl
    | dsimp only
    | dsimp +zetaDelta only

theorem portWrite_keeps {s : State} {n o v : Nat} 
    (hK : Kept wq wc s) :
    Kept wq wc (portWrite s n o v) := by
  unfold portWrite
  repeat' first
    | with_reducible assumption
    | with_reducible intro _
    | with_reducible apply actPortCtrl_keeps
    | with_reducible apply State.setPort_keeps
    | with_reducible apply kept_ite
    | with_reducible refine kept_fst (by assumption) ?_
    | with_reducible refine kept_snd (by assumption) ?_
    | extract_lets
    | split
    | fail_if_no_progress refine kept_mk ?_ rfl rfl
    | dsimp only
    | dsimp +zetaDelta only

theorem rtCtrl_keeps {s : State} {m v : Nat} 
    (hK : Kept wq wc s) :
    Kept wq wc (rtCtrl s m v) := by
  unfold rtCtrl
  repeat' first
    | with_reducible assumption
    | with_reducible intro _
    | with_reducible apply rwlWrite_keeps
    | with_reducible apply actRouteFlip_keeps
    | with_reducible apply kept_ite
    | with_reducible refine kept_fst (by assumption) ?_
    | with_reducible refine kept_snd (by assumption) ?_
    | extract_lets
    | split
    | fail_if_no_progress refine kept_mk ?_ rfl rfl
    | dsimp only
    | dsimp +zetaDelta only

theorem fabWrite_keeps {s : State} {m o v : Nat} 
    (hK : Kept wq wc s) :
    Kept wq wc (fabWrite s m o v) := by
  unfold fabWrite
  repeat' first
    | with_reducible assumption
    | with_reducible intro _
    | with_reducible apply portWrite_keeps
    | with_reducible apply rtCtrl_keeps
    | with_reducible apply rwlWrite_keeps
    | with_reducible apply actTakeover_keeps
    | with_reducible apply kept_ite
    | with_reducible refine kept_fst (by assumption) ?_
    | with_reducible refine kept_snd (by assumption) ?_
    | extract_lets
    | split
    | fail_if_no_progress refine kept_mk ?_ rfl rfl
    | dsimp only
    | dsimp +zetaDelta only

theorem memWrite_keeps {s : State} {m off v : Nat} 
    (hK : Kept wq wc s) :
    Kept wq wc (memWrite s m off v) := by
  unfold memWrite
  repeat' first
    | with_reducible assumption
    | with_reducible intro _
    | with_reducible apply rwlWrite_keeps
    | with_reducible apply State.setStk_keeps
    | with_reducible apply kept_ite
    | with_reducible refine kept_fst (by assumption) ?_
    | with_reducible refine kept_snd (by assumption) ?_
    | extract_lets
    | split
    | fail_if_no_progress refine kept_mk ?_ rfl rfl
    | dsimp only
    | dsimp +zetaDelta only

theorem seWrite_keeps {s : State} {k o v : Nat} 
    (hK : Kept wq wc s) :
    Kept wq wc (seWrite s k o v) := by
  unfold seWrite
  repeat' first
    | with_reducible assumption
    | with_reducible intro _
    | with_reducible apply State.setSest_keeps
    | with_reducible apply actSeAbort_keeps
    | with_reducible apply kept_ite
    | with_reducible refine kept_fst (by assumption) ?_
    | with_reducible refine kept_snd (by assumption) ?_
    | extract_lets
    | split
    | fail_if_no_progress refine kept_mk ?_ rfl rfl
    | dsimp only
    | dsimp +zetaDelta only

theorem crrWrite_keeps {s : State} {m c o v : Nat} 
    (hK : Kept wq wc s) :
    Kept wq wc (crrWrite s m c o v) := by
  unfold crrWrite
  repeat' first
    | with_reducible assumption
    | with_reducible intro _
    | with_reducible apply actCourierCtrl_keeps
    | with_reducible apply State.setCourier_keeps
    | with_reducible apply actCourierBind_keeps
    | with_reducible apply kept_ite
    | with_reducible refine kept_fst (by assumption) ?_
    | with_reducible refine kept_snd (by assumption) ?_
    | extract_lets
    | split
    | fail_if_no_progress refine kept_mk ?_ rfl rfl
    | dsimp only
    | dsimp +zetaDelta only

theorem slvWrite_keeps {s : State} {t o v : Nat} 
    (hK : Kept wq wc s) :
    Kept wq wc (slvWrite s t o v) := by
  unfold slvWrite
  repeat' first
    | with_reducible assumption
    | with_reducible intro _
    | with_reducible apply actSolveAbort_keeps
    | with_reducible apply State.setTslv_keeps
    | with_reducible apply kept_ite
    | with_reducible refine kept_fst (by assumption) ?_
    | with_reducible refine kept_snd (by assumption) ?_
    | extract_lets
    | split
    | fail_if_no_progress refine kept_mk ?_ rfl rfl
    | dsimp only
    | dsimp +zetaDelta only

theorem lwRegWrite_keeps {s : State} {w o v : Nat} 
    (hK : Kept wq wc s) :
    Kept wq wc (lwRegWrite s w o v) := by
  unfold lwRegWrite
  repeat' first
    | with_reducible assumption
    | with_reducible intro _
    | with_reducible apply actLwWrite_keeps
    | with_reducible apply State.setWatch_keeps
    | with_reducible apply kept_ite
    | with_reducible refine kept_fst (by assumption) ?_
    | with_reducible refine kept_snd (by assumption) ?_
    | extract_lets
    | split
    | fail_if_no_progress refine kept_mk ?_ rfl rfl
    | dsimp only
    | dsimp +zetaDelta only

theorem qsCtrl_keeps {s : State} {q v : Nat} 
    (hK : Kept wq wc s) :
    Kept wq wc (qsCtrl s q v) := by
  unfold qsCtrl
  repeat' first
    | with_reducible assumption
    | with_reducible intro _
    | with_reducible apply actQsClose_keeps
    | with_reducible apply State.setQslot_keeps
    | with_reducible apply actQsFlip_keeps
    | with_reducible apply kept_ite
    | with_reducible refine kept_fst (by assumption) ?_
    | with_reducible refine kept_snd (by assumption) ?_
    | extract_lets
    | split
    | fail_if_no_progress refine kept_mk ?_ rfl rfl
    | dsimp only
    | dsimp +zetaDelta only

theorem qsWrite_keeps {s : State} {q o v : Nat} 
    (hK : Kept wq wc s) :
    Kept wq wc (qsWrite s q o v) := by
  unfold qsWrite
  repeat' first
    | with_reducible assumption
    | with_reducible intro _
    | with_reducible apply actQsShadow_keeps
    | with_reducible apply qsCtrl_keeps
    | with_reducible apply State.setQslot_keeps
    | with_reducible apply kept_ite
    | with_reducible refine kept_fst (by assumption) ?_
    | with_reducible refine kept_snd (by assumption) ?_
    | extract_lets
    | split
    | fail_if_no_progress refine kept_mk ?_ rfl rfl
    | dsimp only
    | dsimp +zetaDelta only

theorem shadowWrite_keeps {s : State} {m t r v : Nat} 
    (hK : Kept wq wc s) :
    Kept wq wc (shadowWrite s m t r v) := by
  unfold shadowWrite
  repeat' first
    | with_reducible assumption
    | with_reducible intro _
    | with_reducible apply rwlWrite_keeps
    | with_reducible apply State.setTile_keeps
    | with_reducible apply kept_ite
    | with_reducible refine kept_fst (by assumption) ?_
    | with_reducible refine kept_snd (by assumption) ?_
    | extract_lets
    | split
    | fail_if_no_progress refine kept_mk ?_ rfl rfl
    | dsimp only
    | dsimp +zetaDelta only

theorem tilWrite_keeps {s : State} {m t o v : Nat} 
    (hK : Kept wq wc s) :
    Kept wq wc (tilWrite s m t o v) := by
  unfold tilWrite
  repeat' first
    | with_reducible assumption
    | with_reducible intro _
    | with_reducible apply shadowWrite_keeps
    | with_reducible apply actForwardingFlip_keeps
    | with_reducible apply actRowSwap_keeps
    | with_reducible apply actCluCtrl_keeps
    | with_reducible apply State.setTile_keeps
    | with_reducible apply actQsCollect_keeps
    | with_reducible apply slvWrite_keeps
    | with_reducible apply lwRegWrite_keeps
    | with_reducible apply qsWrite_keeps
    | with_reducible apply kept_ite
    | with_reducible refine kept_fst (by assumption) ?_
    | with_reducible refine kept_snd (by assumption) ?_
    | extract_lets
    | split
    | fail_if_no_progress refine kept_mk ?_ rfl rfl
    | dsimp only
    | dsimp +zetaDelta only

theorem cluWrite_keeps {s : State} {own : Option Nat} {p o v : Nat} 
    (hK : Kept wq wc s) :
    Kept wq wc (cluWrite s own p o v) := by
  unfold cluWrite
  repeat' first
    | with_reducible assumption
    | with_reducible intro _
    | with_reducible apply State.setClu_keeps
    | with_reducible apply actWaBase_keeps
    | with_reducible apply actSuspend_keeps
    | with_reducible apply actTeAbort_keeps
    | with_reducible apply kept_ite
    | with_reducible refine kept_fst (by assumption) ?_
    | with_reducible refine kept_snd (by assumption) ?_
    | extract_lets
    | split
    | fail_if_no_progress refine kept_mk ?_ rfl rfl
    | dsimp only
    | dsimp +zetaDelta only

theorem regWriteWord_keeps {s : State} {m : Nat} {own : Option Nat} {off v : Nat} 
    (hK : Kept wq wc s) :
    Kept wq wc (regWriteWord s m own off v) := by
  unfold regWriteWord
  repeat' first
    | with_reducible assumption
    | with_reducible intro _
    | with_reducible apply bootWrite_keeps
    | with_reducible apply hifWrite_keeps
    | with_reducible apply pwrWrite_keeps
    | with_reducible apply secWrite_keeps
    | with_reducible apply chkWrite_keeps
    | with_reducible apply fabWrite_keeps
    | with_reducible apply memWrite_keeps
    | with_reducible apply seWrite_keeps
    | with_reducible apply crrWrite_keeps
    | with_reducible apply tilWrite_keeps
    | with_reducible apply cluWrite_keeps
    | with_reducible apply kept_ite
    | with_reducible refine kept_fst (by assumption) ?_
    | with_reducible refine kept_snd (by assumption) ?_
    | extract_lets
    | split
    | fail_if_no_progress refine kept_mk ?_ rfl rfl
    | dsimp only
    | dsimp +zetaDelta only

theorem regWrite_keeps {s : State} {m : Nat} {own : Option Nat} {off v : Nat} 
    (hK : Kept wq wc s) :
    Kept wq wc (regWrite s m own off v).1 := by
  unfold regWrite
  repeat' first
    | with_reducible assumption
    | with_reducible intro _
    | with_reducible apply regWriteWord_keeps
    | with_reducible apply gateFail_keeps
    | with_reducible apply kept_ite1
    | with_reducible apply kept_ite2
    | with_reducible apply kept_ite
    | with_reducible refine kept_fst (by assumption) ?_
    | with_reducible refine kept_snd (by assumption) ?_
    | extract_lets
    | split
    | fail_if_no_progress refine kept_mk ?_ rfl rfl
    | dsimp only
    | dsimp +zetaDelta only

theorem regWriteMany_keeps {s : State} {m : Nat} {own : Option Nat} {off : Nat} {l : List Nat} 
    (hK : Kept wq wc s) :
    Kept wq wc (regWriteMany s m own off l).1 := by
  induction l generalizing s m own off with
  | nil =>
    unfold regWriteMany
    repeat' first
      | with_reducible assumption
      | with_reducible intro _
      | with_reducible apply regWrite_keeps
      | with_reducible apply ih
      | with_reducible apply kept_ite1
      | with_reducible apply kept_ite2
      | with_reducible apply kept_ite
      | with_reducible refine kept_fst (by assumption) ?_
      | with_reducible refine kept_snd (by assumption) ?_
      | extract_lets
      | split
      | fail_if_no_progress refine kept_mk ?_ rfl rfl
      | dsimp only
      | dsimp +zetaDelta only
  | cons e t ih =>
    unfold regWriteMany
    repeat' first
      | with_reducible assumption
      | with_reducible intro _
      | with_reducible apply regWrite_keeps
      | with_reducible apply ih
      | with_reducible apply kept_ite1
      | with_reducible apply kept_ite2
      | with_reducible apply kept_ite
      | with_reducible refine kept_fst (by assumption) ?_
      | with_reducible refine kept_snd (by assumption) ?_
      | extract_lets
      | split
      | fail_if_no_progress refine kept_mk ?_ rfl rfl
      | dsimp only
      | dsimp +zetaDelta only

theorem regSpanWrite_keeps {s : State} {m : Nat} {own : Option Nat} {off : Nat} {data : List Byte} 
    (hK : Kept wq wc s) :
    Kept wq wc (regSpanWrite s m own off data).1 := by
  unfold regSpanWrite
  repeat' first
    | with_reducible assumption
    | with_reducible intro _
    | with_reducible apply regWriteMany_keeps
    | with_reducible apply kept_ite1
    | with_reducible apply kept_ite2
    | with_reducible apply kept_ite
    | with_reducible refine kept_fst (by assumption) ?_
    | with_reducible refine kept_snd (by assumption) ?_
    | extract_lets
    | split
    | fail_if_no_progress refine kept_mk ?_ rfl rfl
    | dsimp only
    | dsimp +zetaDelta only

theorem regSpanRead_keeps {s : State} {m off len : Nat} 
    (hK : Kept wq wc s) :
    Kept wq wc (regSpanRead s m off len).1 := by
  unfold regSpanRead
  repeat' first
    | with_reducible assumption
    | with_reducible intro _
    | with_reducible apply regReadMany_keeps
    | with_reducible apply kept_ite1
    | with_reducible apply kept_ite2
    | with_reducible apply kept_ite
    | with_reducible refine kept_fst (by assumption) ?_
    | with_reducible refine kept_snd (by assumption) ?_
    | extract_lets
    | split
    | fail_if_no_progress refine kept_mk ?_ rfl rfl
    | dsimp only
    | dsimp +zetaDelta only

theorem answerRead_keeps {s : State} {m off : Nat} 
    (hK : Kept wq wc s) :
    Kept wq wc (answerRead s m off) := by
  unfold answerRead
  repeat' first
    | with_reducible assumption
    | with_reducible intro _
    | with_reducible apply regRead_keeps
    | with_reducible apply State.send_keeps
    | with_reducible apply kept_ite
    | with_reducible refine kept_fst (by assumption) ?_
    | with_reducible refine kept_snd (by assumption) ?_
    | extract_lets
    | split
    | fail_if_no_progress refine kept_mk ?_ rfl rfl
    | dsimp only
    | dsimp +zetaDelta only

/-! ### Move -/

theorem tookReply_keeps {r : Round} {x : State × List Nat × Rd} (hK : Kept wq wc x.1) :
    Kept wq wc (tookReply r x).1 := by
  unfold tookReply
  split
  · exact hK
  · exact reqDrop_keeps hK

theorem moveParcel_keeps {s : State} {c : Nat} {r : Round} {words : Bool} {a : Nat}
    (hK : Kept wq wc s) :
    Kept wq wc (moveParcel s c r words a).1 := by
  unfold moveParcel
  repeat' first
    | with_reducible assumption
    | with_reducible intro _
    | with_reducible apply addrPlace_keeps
    | with_reducible apply parcelGet_keeps
    | with_reducible apply tookReply_keeps
    | with_reducible apply remoteGet_keeps
    | with_reducible apply remoteRead_keeps
    | with_reducible apply regSpanRead_keeps
    | with_reducible apply kept_ite1
    | with_reducible refine kept_fst (by assumption) ?_
    | with_reducible refine kept_snd (by assumption) ?_
    | extract_lets
    | split
    | dsimp only
    | dsimp +zetaDelta only

theorem readSrc_keeps {s : State} {c : Nat} {r : Round} {d : MDesc} {host : List HostRead} {l : List (Nat × Nat)} {acc : KMap Byte} 
    (hK : Kept wq wc s) :
    Kept wq wc (readSrc s c r d host l acc).1 := by
  induction l generalizing s c r d host acc with
  | nil =>
    unfold readSrc
    repeat' first
      | with_reducible assumption
      | with_reducible intro _
      | with_reducible apply moveParcel_keeps
      | with_reducible apply ih
      | with_reducible apply kept_ite1
      | with_reducible apply kept_ite2
      | with_reducible apply kept_ite
      | with_reducible refine kept_fst (by assumption) ?_
      | with_reducible refine kept_snd (by assumption) ?_
      | extract_lets
      | split
      | fail_if_no_progress refine kept_mk ?_ rfl rfl
      | dsimp only
      | dsimp +zetaDelta only
  | cons e t ih =>
    unfold readSrc
    repeat' first
      | with_reducible assumption
      | with_reducible intro _
      | with_reducible apply moveParcel_keeps
      | with_reducible apply ih
      | with_reducible apply kept_ite1
      | with_reducible apply kept_ite2
      | with_reducible apply kept_ite
      | with_reducible refine kept_fst (by assumption) ?_
      | with_reducible refine kept_snd (by assumption) ?_
      | extract_lets
      | split
      | fail_if_no_progress refine kept_mk ?_ rfl rfl
      | dsimp only
      | dsimp +zetaDelta only

theorem remotePuts_keeps {s : State} {m : Nat} {tags : List Nat} {l : List (Nat × Nat × List Byte)} 
    (hK : Kept wq wc s) :
    Kept wq wc (remotePuts s m tags l).1 := by
  induction l generalizing s m tags with
  | nil =>
    unfold remotePuts
    repeat' first
      | with_reducible assumption
      | with_reducible intro _
      | with_reducible apply remoteWrite_keeps
      | with_reducible apply ih
      | with_reducible apply kept_ite1
      | with_reducible apply kept_ite2
      | with_reducible apply kept_ite
      | with_reducible refine kept_fst (by assumption) ?_
      | with_reducible refine kept_snd (by assumption) ?_
      | extract_lets
      | split
      | fail_if_no_progress refine kept_mk ?_ rfl rfl
      | dsimp only
      | dsimp +zetaDelta only
  | cons e t ih =>
    unfold remotePuts
    repeat' first
      | with_reducible assumption
      | with_reducible intro _
      | with_reducible apply remoteWrite_keeps
      | with_reducible apply ih
      | with_reducible apply kept_ite1
      | with_reducible apply kept_ite2
      | with_reducible apply kept_ite
      | with_reducible refine kept_fst (by assumption) ?_
      | with_reducible refine kept_snd (by assumption) ?_
      | extract_lets
      | split
      | fail_if_no_progress refine kept_mk ?_ rfl rfl
      | dsimp only
      | dsimp +zetaDelta only

theorem remotePut_keeps {s : State} {m : Nat} {tags : List Nat} {chip par : Nat} {l : List (Nat × List Byte)} 
    (hK : Kept wq wc s) :
    Kept wq wc (remotePut s m tags chip par l).1 := by
  unfold remotePut
  repeat' first
    | with_reducible assumption
    | with_reducible intro _
    | with_reducible apply remoteWrite_keeps
    | with_reducible apply remoteRead_keeps
    | with_reducible apply kept_ite1
    | with_reducible apply kept_ite2
    | with_reducible apply kept_ite
    | with_reducible refine kept_fst (by assumption) ?_
    | with_reducible refine kept_snd (by assumption) ?_
    | extract_lets
    | split
    | fail_if_no_progress refine kept_mk ?_ rfl rfl
    | dsimp only
    | dsimp +zetaDelta only

theorem regPuts_keeps {s : State} {m : Nat} {l : List (Nat × List Byte)} 
    (hK : Kept wq wc s) :
    Kept wq wc (regPuts s m l).1 := by
  unfold regPuts
  repeat' first
    | with_reducible assumption
    | with_reducible intro _
    | with_reducible apply gateFail_keeps
    | with_reducible apply regSpanWrite_keeps
    | with_reducible apply kept_foldl
    | with_reducible apply kept_foldl1
    | with_reducible apply kept_foldl2
    | with_reducible apply kept_ite1
    | with_reducible apply kept_ite2
    | with_reducible apply kept_ite
    | with_reducible refine kept_fst (by assumption) ?_
    | with_reducible refine kept_snd (by assumption) ?_
    | extract_lets
    | split
    | fail_if_no_progress refine kept_mk ?_ rfl rfl
    | dsimp only
    | dsimp +zetaDelta only

theorem devicePut_keeps {s : State} {c : Nat} {r : Round} {l : List (Nat × List Byte)} 
    (hK : Kept wq wc s) :
    Kept wq wc (devicePut s c r l).1 := by
  unfold devicePut
  repeat' first
    | with_reducible assumption
    | with_reducible intro _
    | with_reducible apply writePlace_keeps
    | with_reducible apply deliverParts_keeps
    | with_reducible apply regPuts_keeps
    | with_reducible apply remotePuts_keeps
    | with_reducible apply remotePut_keeps
    | with_reducible apply kept_ite1
    | with_reducible apply kept_ite2
    | with_reducible apply kept_ite
    | with_reducible refine kept_fst (by assumption) ?_
    | with_reducible refine kept_snd (by assumption) ?_
    | extract_lets
    | split
    | fail_if_no_progress refine kept_mk ?_ rfl rfl
    | dsimp only
    | dsimp +zetaDelta only

theorem hostPut_keeps {s : State} {l : List (Nat × List Byte)} 
    (hK : Kept wq wc s) :
    Kept wq wc (hostPut s l).1 := by
  unfold hostPut
  repeat' first
    | with_reducible assumption
    | with_reducible intro _
    | with_reducible apply State.sendAll_keeps
    | with_reducible apply kept_ite1
    | with_reducible apply kept_ite2
    | with_reducible apply kept_ite
    | with_reducible refine kept_fst (by assumption) ?_
    | with_reducible refine kept_snd (by assumption) ?_
    | extract_lets
    | split
    | fail_if_no_progress refine kept_mk ?_ rfl rfl
    | dsimp only
    | dsimp +zetaDelta only

theorem deliveryDone_keeps {s : State} {c : Nat} {r : Round} {d : MDesc} {parts mine : List (Nat × Nat × Nat)} {pars : List Nat} 
    (hK : Kept wq wc s) :
    Kept wq wc (deliveryDone s c r d parts mine pars) := by
  unfold deliveryDone
  repeat' first
    | with_reducible assumption
    | with_reducible intro _
    | with_reducible apply reqDrop_keeps
    | with_reducible apply State.setCourier_keeps
    | with_reducible apply opCount_keeps
    | with_reducible apply kept_ite
    | with_reducible refine kept_fst (by assumption) ?_
    | with_reducible refine kept_snd (by assumption) ?_
    | extract_lets
    | split
    | fail_if_no_progress refine kept_mk ?_ rfl rfl
    | dsimp only
    | dsimp +zetaDelta only

theorem putWaits_keeps {s : State} {c : Nat} {r : Round} {gain : Nat × Nat} 
    (hK : Kept wq wc s) :
    Kept wq wc (putWaits s c r gain) := by
  unfold putWaits
  repeat' first
    | with_reducible assumption
    | with_reducible intro _
    | with_reducible apply setRound_keeps
    | with_reducible apply kept_ite
    | with_reducible refine kept_fst (by assumption) ?_
    | with_reducible refine kept_snd (by assumption) ?_
    | extract_lets
    | split
    | fail_if_no_progress refine kept_mk ?_ rfl rfl
    | dsimp only
    | dsimp +zetaDelta only

theorem moveOne_keeps {s : State} {c : Nat} {r : Round} {d : MDesc} {host : List HostRead} {parts : List (Nat × Nat × Nat)} {pars : List Nat} {par : Nat} 
    (hK : Kept wq wc s) :
    Kept wq wc (moveOne s c r d host parts pars par) := by
  unfold moveOne
  repeat' first
    | with_reducible assumption
    | with_reducible intro _
    | with_reducible apply readSrc_keeps
    | with_reducible apply setRound_keeps
    | with_reducible apply roundFault_keeps
    | with_reducible apply hostPut_keeps
    | with_reducible apply devicePut_keeps
    | with_reducible apply deliveryDone_keeps
    | with_reducible apply putWaits_keeps
    | with_reducible apply failRound_keeps
    | with_reducible apply kept_ite
    | with_reducible refine kept_fst (by assumption) ?_
    | with_reducible refine kept_snd (by assumption) ?_
    | extract_lets
    | split
    | fail_if_no_progress refine kept_mk ?_ rfl rfl
    | dsimp only
    | dsimp +zetaDelta only

theorem moveEnd_keeps {s : State} {c : Nat} {r : Round} {d : MDesc} 
    (hK : Kept wq wc s) :
    Kept wq wc (moveEnd s c r d) := by
  unfold moveEnd
  repeat' first
    | with_reducible assumption
    | with_reducible intro _
    | with_reducible apply setRound_keeps
    | with_reducible apply reqDrop_keeps
    | with_reducible apply stepPc_keeps
    | with_reducible apply kept_ite
    | with_reducible refine kept_fst (by assumption) ?_
    | with_reducible refine kept_snd (by assumption) ?_
    | extract_lets
    | split
    | fail_if_no_progress refine kept_mk ?_ rfl rfl
    | dsimp only
    | dsimp +zetaDelta only

theorem moveStep_keeps {s : State} {c : Nat} {host : List HostRead} 
    (hK : Kept wq wc s) :
    Kept wq wc (moveStep s c host) := by
  unfold moveStep
  repeat' first
    | with_reducible assumption
    | with_reducible intro _
    | with_reducible apply onIns_keeps
    | with_reducible apply moveOne_keeps
    | with_reducible apply moveEnd_keeps
    | with_reducible apply kept_ite
    | with_reducible refine kept_fst (by assumption) ?_
    | with_reducible refine kept_snd (by assumption) ?_
    | extract_lets
    | split
    | fail_if_no_progress refine kept_mk ?_ rfl rfl
    | dsimp only
    | dsimp +zetaDelta only

theorem moveRun_keeps {k : Nat} {s : State} {c : Nat} {host : List HostRead} 
    (hK : Kept wq wc s) :
    Kept wq wc (moveRun k s c host) := by
  induction k generalizing s c host with
  | zero =>
    unfold moveRun
    repeat' first
      | with_reducible assumption
      | with_reducible intro _
      | with_reducible apply moveStep_keeps
      | with_reducible apply ih
      | with_reducible apply kept_ite
      | with_reducible refine kept_fst (by assumption) ?_
      | with_reducible refine kept_snd (by assumption) ?_
      | extract_lets
      | split
      | fail_if_no_progress refine kept_mk ?_ rfl rfl
      | dsimp only
      | dsimp +zetaDelta only
  | succ n ih =>
    unfold moveRun
    repeat' first
      | with_reducible assumption
      | with_reducible intro _
      | with_reducible apply moveStep_keeps
      | with_reducible apply ih
      | with_reducible apply kept_ite
      | with_reducible refine kept_fst (by assumption) ?_
      | with_reducible refine kept_snd (by assumption) ?_
      | extract_lets
      | split
      | fail_if_no_progress refine kept_mk ?_ rfl rfl
      | dsimp only
      | dsimp +zetaDelta only

theorem signalEnd_keeps {s : State} {c : Nat} {b : List Byte} 
    (hK : Kept wq wc s) :
    Kept wq wc (signalEnd s c b) := by
  unfold signalEnd
  repeat' first
    | with_reducible assumption
    | with_reducible intro _
    | with_reducible apply doneRound_keeps
    | with_reducible apply stepPc_keeps
    | with_reducible apply kept_ite
    | with_reducible refine kept_fst (by assumption) ?_
    | with_reducible refine kept_snd (by assumption) ?_
    | extract_lets
    | split
    | fail_if_no_progress refine kept_mk ?_ rfl rfl
    | dsimp only
    | dsimp +zetaDelta only

theorem signalOk_keeps {s : State} {c : Nat} {r : Round} {b : List Byte} 
    (hK : Kept wq wc s) :
    Kept wq wc (signalOk s c r b) := by
  unfold signalOk
  repeat' first
    | with_reducible assumption
    | with_reducible intro _
    | with_reducible apply signalEnd_keeps
    | with_reducible apply setRound_keeps
    | with_reducible apply reqDrop_keeps
    | with_reducible apply kept_ite
    | with_reducible refine kept_fst (by assumption) ?_
    | with_reducible refine kept_snd (by assumption) ?_
    | extract_lets
    | split
    | fail_if_no_progress refine kept_mk ?_ rfl rfl
    | dsimp only
    | dsimp +zetaDelta only

theorem signal_keeps {s : State} {c : Nat} {r : Round} {b : List Byte} 
    (hK : Kept wq wc s) :
    Kept wq wc (signal s c r b) := by
  unfold signal
  repeat' first
    | with_reducible assumption
    | with_reducible intro _
    | with_reducible apply signalEnd_keeps
    | with_reducible apply hostPut_keeps
    | with_reducible apply devicePut_keeps
    | with_reducible apply signalOk_keeps
    | with_reducible apply putWaits_keeps
    | with_reducible apply roundFault_keeps
    | with_reducible apply State.takeFree_keeps
    | with_reducible apply failRound_keeps
    | with_reducible apply setRound_keeps
    | with_reducible apply kept_ite
    | with_reducible refine kept_fst (by assumption) ?_
    | with_reducible refine kept_snd (by assumption) ?_
    | extract_lets
    | split
    | fail_if_no_progress refine kept_mk ?_ rfl rfl
    | dsimp only
    | dsimp +zetaDelta only

theorem pollWord_keeps {s : State} {c : Nat} {r : Round} {a : Nat} 
    (hK : Kept wq wc s) :
    Kept wq wc (pollWord s c r a).1 := by
  unfold pollWord
  repeat' first
    | with_reducible assumption
    | with_reducible intro _
    | with_reducible apply addrPlace_keeps
    | with_reducible apply parcelRead_keeps
    | with_reducible apply regSpanRead_keeps
    | with_reducible apply remoteGet_keeps
    | with_reducible apply kept_ite1
    | with_reducible apply kept_ite2
    | with_reducible apply kept_ite
    | with_reducible refine kept_fst (by assumption) ?_
    | with_reducible refine kept_snd (by assumption) ?_
    | extract_lets
    | split
    | fail_if_no_progress refine kept_mk ?_ rfl rfl
    | dsimp only
    | dsimp +zetaDelta only

theorem pollStep_keeps {s : State} {c : Nat} {r : Round} {b : List Byte} 
    (hK : Kept wq wc s) :
    Kept wq wc (pollStep s c r b) := by
  unfold pollStep
  repeat' first
    | with_reducible assumption
    | with_reducible intro _
    | with_reducible apply setRound_keeps
    | with_reducible apply reqDrop_keeps
    | with_reducible apply pollWord_keeps
    | with_reducible apply roundFault_keeps
    | with_reducible apply kept_ite
    | with_reducible refine kept_fst (by assumption) ?_
    | with_reducible refine kept_snd (by assumption) ?_
    | extract_lets
    | split
    | fail_if_no_progress refine kept_mk ?_ rfl rfl
    | dsimp only
    | dsimp +zetaDelta only

/-! ### Packet -/

theorem fabRegPlace_keeps {s : State} {off : Nat} {write : Bool} 
    (hK : Kept wq wc s) :
    Kept wq wc (fabRegPlace s off write).1 := by
  unfold fabRegPlace
  repeat' first
    | with_reducible assumption
    | with_reducible intro _
    | with_reducible apply gateFail_keeps
    | with_reducible apply kept_ite1
    | with_reducible apply kept_ite2
    | with_reducible apply kept_ite
    | with_reducible refine kept_fst (by assumption) ?_
    | with_reducible refine kept_snd (by assumption) ?_
    | extract_lets
    | split
    | fail_if_no_progress refine kept_mk ?_ rfl rfl
    | dsimp only
    | dsimp +zetaDelta only

theorem fabCheck_keeps {s : State} {h : Header} {write whole : Bool} 
    (hK : Kept wq wc s) :
    Kept wq wc (fabCheck s h write whole).1 := by
  unfold fabCheck
  repeat' first
    | with_reducible assumption
    | with_reducible intro _
    | with_reducible apply localPlace_keeps
    | with_reducible apply fabRegPlace_keeps
    | with_reducible apply kept_ite1
    | with_reducible apply kept_ite2
    | with_reducible apply kept_ite
    | with_reducible refine kept_fst (by assumption) ?_
    | with_reducible refine kept_snd (by assumption) ?_
    | extract_lets
    | split
    | fail_if_no_progress refine kept_mk ?_ rfl rfl
    | dsimp only
    | dsimp +zetaDelta only

theorem parcelRaw_keeps {s : State} {k : Nat}
    (hK : Kept wq wc s) :
    Kept wq wc (parcelRaw s k).1 := by
  unfold parcelRaw
  repeat' first
    | with_reducible assumption
    | with_reducible exact meetLost_keeps hK (by assumption)
    | with_reducible apply meetStored_keeps
    | with_reducible apply kept_ite1
    | extract_lets
    | split
    | dsimp only
    | dsimp +zetaDelta only

theorem replyTo_keeps {s : State} {q : Header} {kind status : Nat} {data : List Byte} {check : Nat} 
    (hK : Kept wq wc s) :
    Kept wq wc (replyTo s q kind status data check) := by
  unfold replyTo
  repeat' first
    | with_reducible assumption
    | with_reducible intro _
    | with_reducible apply portSend_keeps
    | with_reducible apply dropPacket_keeps
    | with_reducible apply kept_ite
    | with_reducible refine kept_fst (by assumption) ?_
    | with_reducible refine kept_snd (by assumption) ?_
    | extract_lets
    | split
    | fail_if_no_progress refine kept_mk ?_ rfl rfl
    | dsimp only
    | dsimp +zetaDelta only

theorem nackTo_keeps {s : State} {q : Header} {status : Nat} 
    (hK : Kept wq wc s) :
    Kept wq wc (nackTo s q status) := by
  unfold nackTo
  repeat' first
    | with_reducible assumption
    | with_reducible intro _
    | with_reducible apply replyTo_keeps
    | with_reducible apply kept_ite
    | with_reducible refine kept_fst (by assumption) ?_
    | with_reducible refine kept_snd (by assumption) ?_
    | extract_lets
    | split
    | fail_if_no_progress refine kept_mk ?_ rfl rfl
    | dsimp only
    | dsimp +zetaDelta only

theorem serveRead_keeps {s : State} {p : Packet} 
    (hK : Kept wq wc s) :
    Kept wq wc (serveRead s p) := by
  unfold serveRead
  repeat' first
    | with_reducible assumption
    | with_reducible intro _
    | with_reducible apply fabCheck_keeps
    | with_reducible apply nackTo_keeps
    | with_reducible apply parcelRaw_keeps
    | with_reducible apply replyTo_keeps
    | with_reducible apply regSpanRead_keeps
    | with_reducible apply kept_ite
    | with_reducible refine kept_fst (by assumption) ?_
    | with_reducible refine kept_snd (by assumption) ?_
    | extract_lets
    | split
    | fail_if_no_progress refine kept_mk ?_ rfl rfl
    | dsimp only
    | dsimp +zetaDelta only

theorem commitWrite_keeps {s : State} {p : Packet} {k : Nat} 
    (hK : Kept wq wc s) :
    Kept wq wc (commitWrite s p k) := by
  unfold commitWrite
  repeat' first
    | with_reducible assumption
    | with_reducible intro _
    | with_reducible apply nackTo_keeps
    | with_reducible apply sealEvent_keeps
    | with_reducible apply parcelMerge_keeps
    | with_reducible apply replyTo_keeps
    | with_reducible apply kept_ite
    | with_reducible refine kept_fst (by assumption) ?_
    | with_reducible refine kept_snd (by assumption) ?_
    | extract_lets
    | split
    | fail_if_no_progress refine kept_mk ?_ rfl rfl
    | dsimp only
    | dsimp +zetaDelta only

theorem serveWrite_keeps {s : State} {p : Packet} 
    (hK : Kept wq wc s) :
    Kept wq wc (serveWrite s p) := by
  unfold serveWrite
  repeat' first
    | with_reducible assumption
    | with_reducible intro _
    | with_reducible apply consumed_keeps
    | with_reducible apply nackTo_keeps
    | with_reducible apply fabCheck_keeps
    | with_reducible apply commitWrite_keeps
    | with_reducible apply regSpanWrite_keeps
    | with_reducible apply replyTo_keeps
    | with_reducible apply kept_ite
    | with_reducible refine kept_fst (by assumption) ?_
    | with_reducible refine kept_snd (by assumption) ?_
    | extract_lets
    | split
    | fail_if_no_progress refine kept_mk ?_ rfl rfl
    | dsimp only
    | dsimp +zetaDelta only

theorem retryHeld_keeps {s : State} 
    (hK : Kept wq wc s) :
    Kept wq wc (retryHeld s) := by
  unfold retryHeld
  repeat' first
    | with_reducible assumption
    | with_reducible intro _
    | with_reducible apply serveWrite_keeps
    | with_reducible apply kept_foldl
    | with_reducible apply kept_foldl1
    | with_reducible apply kept_foldl2
    | with_reducible apply kept_ite
    | with_reducible refine kept_fst (by assumption) ?_
    | with_reducible refine kept_snd (by assumption) ?_
    | extract_lets
    | split
    | fail_if_no_progress refine kept_mk ?_ rfl rfl
    | dsimp only
    | dsimp +zetaDelta only

theorem arrive_keeps {s : State} {p : Packet} {mine : Bool} {act : State → State} (hact : ∀ u0, Kept wq wc (u0) → Kept wq wc (act u0))
    (hK : Kept wq wc s) :
    Kept wq wc (arrive s p mine act) := by
  unfold arrive
  repeat' first
    | with_reducible assumption
    | with_reducible intro _
    | with_reducible apply linkTake_keeps
    | with_reducible apply consumed_keeps
    | with_reducible apply dropPacket_keeps
    | with_reducible apply hact
    | with_reducible apply kept_ite
    | with_reducible refine kept_fst (by assumption) ?_
    | with_reducible refine kept_snd (by assumption) ?_
    | extract_lets
    | split
    | fail_if_no_progress refine kept_mk ?_ rfl rfl
    | dsimp only
    | dsimp +zetaDelta only

theorem lateReply_keeps {s : State} {tag : Nat} 
    (hK : Kept wq wc s) :
    Kept wq wc (lateReply s tag) := by
  unfold lateReply
  repeat' first
    | with_reducible assumption
    | with_reducible intro _
    | with_reducible apply kept_ite
    | with_reducible refine kept_fst (by assumption) ?_
    | with_reducible refine kept_snd (by assumption) ?_
    | extract_lets
    | split
    | fail_if_no_progress refine kept_mk ?_ rfl rfl
    | dsimp only
    | dsimp +zetaDelta only

theorem takeReply_keeps {s : State} {p : Packet} {kind : Nat} {act : State → Req → State} (hact : ∀ u0 u1, Kept wq wc (u0) → Kept wq wc (act u0 u1))
    (hK : Kept wq wc s) :
    Kept wq wc (takeReply s p kind act) := by
  unfold takeReply
  repeat' first
    | with_reducible assumption
    | with_reducible intro _
    | with_reducible apply arrive_keeps
    | with_reducible apply consumed_keeps
    | with_reducible apply lateReply_keeps
    | with_reducible apply hact
    | with_reducible apply kept_ite
    | with_reducible refine kept_fst (by assumption) ?_
    | with_reducible refine kept_snd (by assumption) ?_
    | extract_lets
    | split
    | fail_if_no_progress refine kept_mk ?_ rfl rfl
    | dsimp only
    | dsimp +zetaDelta only

theorem forwardPacket_keeps {s : State} {p : Packet} 
    (hK : Kept wq wc s) :
    Kept wq wc (forwardPacket s p) := by
  unfold forwardPacket
  repeat' first
    | with_reducible assumption
    | with_reducible intro _
    | with_reducible apply consumed_keeps
    | with_reducible apply nackSource_keeps
    | with_reducible apply dropPacket_keeps
    | with_reducible apply portSend_keeps
    | with_reducible apply kept_ite
    | with_reducible refine kept_fst (by assumption) ?_
    | with_reducible refine kept_snd (by assumption) ?_
    | extract_lets
    | split
    | fail_if_no_progress refine kept_mk ?_ rfl rfl
    | dsimp only
    | dsimp +zetaDelta only

theorem apFault_keeps {s : State} {a : Nat} {write : Bool} {status : Nat} 
    (hK : Kept wq wc s) :
    Kept wq wc (apFault s a write status) := by
  unfold apFault
  repeat' first
    | with_reducible assumption
    | with_reducible intro _
    | with_reducible apply State.send_keeps
    | with_reducible apply kept_ite
    | with_reducible refine kept_fst (by assumption) ?_
    | with_reducible refine kept_snd (by assumption) ?_
    | extract_lets
    | split
    | fail_if_no_progress refine kept_mk ?_ rfl rfl
    | dsimp only
    | dsimp +zetaDelta only

theorem apReadPart_keeps {s : State} {tags : List Nat} {e : Nat × Nat × Nat} 
    (hK : Kept wq wc s) :
    Kept wq wc (apReadPart s tags e).1 := by
  unfold apReadPart
  repeat' first
    | with_reducible assumption
    | with_reducible intro _
    | with_reducible apply addrPlace_keeps
    | with_reducible apply parcelRead_keeps
    | with_reducible apply regSpanRead_keeps
    | with_reducible apply remoteGet_keeps
    | with_reducible apply kept_ite1
    | with_reducible apply kept_ite2
    | with_reducible apply kept_ite
    | with_reducible refine kept_fst (by assumption) ?_
    | with_reducible refine kept_snd (by assumption) ?_
    | extract_lets
    | split
    | fail_if_no_progress refine kept_mk ?_ rfl rfl
    | dsimp only
    | dsimp +zetaDelta only

theorem apRead_keeps {s : State} {tags : List Nat} {l : List (Nat × Nat × Nat)} 
    (hK : Kept wq wc s) :
    Kept wq wc (apRead s tags l).1 := by
  induction l generalizing s tags with
  | nil =>
    unfold apRead
    repeat' first
      | with_reducible assumption
      | with_reducible intro _
      | with_reducible apply apReadPart_keeps
      | with_reducible apply ih
      | with_reducible apply kept_ite1
      | with_reducible apply kept_ite2
      | with_reducible apply kept_ite
      | with_reducible refine kept_fst (by assumption) ?_
      | with_reducible refine kept_snd (by assumption) ?_
      | extract_lets
      | split
      | fail_if_no_progress refine kept_mk ?_ rfl rfl
      | dsimp only
      | dsimp +zetaDelta only
  | cons e t ih =>
    unfold apRead
    repeat' first
      | with_reducible assumption
      | with_reducible intro _
      | with_reducible apply apReadPart_keeps
      | with_reducible apply ih
      | with_reducible apply kept_ite1
      | with_reducible apply kept_ite2
      | with_reducible apply kept_ite
      | with_reducible refine kept_fst (by assumption) ?_
      | with_reducible refine kept_snd (by assumption) ?_
      | extract_lets
      | split
      | fail_if_no_progress refine kept_mk ?_ rfl rfl
      | dsimp only
      | dsimp +zetaDelta only

theorem apWritePart_keeps {s : State} {tags : List Nat} {data : List Byte} {e : Nat × Nat × Nat} 
    (hK : Kept wq wc s) :
    Kept wq wc (apWritePart s tags data e).1 := by
  unfold apWritePart
  repeat' first
    | with_reducible assumption
    | with_reducible intro _
    | with_reducible apply writePlace_keeps
    | with_reducible apply parcelRead_keeps
    | with_reducible apply remoteWrite_keeps
    | with_reducible apply kept_ite1
    | with_reducible apply kept_ite2
    | with_reducible apply kept_ite
    | with_reducible refine kept_fst (by assumption) ?_
    | with_reducible refine kept_snd (by assumption) ?_
    | extract_lets
    | split
    | fail_if_no_progress refine kept_mk ?_ rfl rfl
    | dsimp only
    | dsimp +zetaDelta only

theorem apWrite_keeps {s : State} {tags : List Nat} {data : List Byte} {l : List (Nat × Nat × Nat)} 
    (hK : Kept wq wc s) :
    Kept wq wc (apWrite s tags data l).1 := by
  induction l generalizing s tags data with
  | nil =>
    unfold apWrite
    repeat' first
      | with_reducible assumption
      | with_reducible intro _
      | with_reducible apply apWritePart_keeps
      | with_reducible apply ih
      | with_reducible apply kept_ite1
      | with_reducible apply kept_ite2
      | with_reducible apply kept_ite
      | with_reducible refine kept_fst (by assumption) ?_
      | with_reducible refine kept_snd (by assumption) ?_
      | extract_lets
      | split
      | fail_if_no_progress refine kept_mk ?_ rfl rfl
      | dsimp only
      | dsimp +zetaDelta only
  | cons e t ih =>
    unfold apWrite
    repeat' first
      | with_reducible assumption
      | with_reducible intro _
      | with_reducible apply apWritePart_keeps
      | with_reducible apply ih
      | with_reducible apply kept_ite1
      | with_reducible apply kept_ite2
      | with_reducible apply kept_ite
      | with_reducible refine kept_fst (by assumption) ?_
      | with_reducible refine kept_snd (by assumption) ?_
      | extract_lets
      | split
      | fail_if_no_progress refine kept_mk ?_ rfl rfl
      | dsimp only
      | dsimp +zetaDelta only

theorem apCommit_keeps {s : State} {a : Nat} {l : List ApPut} 
    (hK : Kept wq wc s) :
    Kept wq wc (apCommit s a l) := by
  unfold apCommit
  repeat' first
    | with_reducible assumption
    | with_reducible intro _
    | with_reducible apply parcelWrite_keeps
    | with_reducible apply regSpanWrite_keeps
    | with_reducible apply apFault_keeps
    | with_reducible apply kept_foldl
    | with_reducible apply kept_foldl1
    | with_reducible apply kept_foldl2
    | with_reducible apply kept_ite
    | with_reducible refine kept_fst (by assumption) ?_
    | with_reducible refine kept_snd (by assumption) ?_
    | extract_lets
    | split
    | fail_if_no_progress refine kept_mk ?_ rfl rfl
    | dsimp only
    | dsimp +zetaDelta only

theorem apServe_keeps {s : State} {t : ApTlp} 
    (hK : Kept wq wc s) :
    Kept wq wc (apServe s t).1 := by
  unfold apServe
  repeat' first
    | with_reducible assumption
    | with_reducible intro _
    | with_reducible apply earlyAccess_keeps
    | with_reducible apply State.send_keeps
    | with_reducible apply apWrite_keeps
    | with_reducible apply apCommit_keeps
    | with_reducible apply reqDrop_keeps
    | with_reducible apply apFault_keeps
    | with_reducible apply apRead_keeps
    | with_reducible apply kept_ite1
    | with_reducible apply kept_ite2
    | with_reducible apply kept_ite
    | with_reducible refine kept_fst (by assumption) ?_
    | with_reducible refine kept_snd (by assumption) ?_
    | extract_lets
    | split
    | fail_if_no_progress refine kept_mk ?_ rfl rfl
    | dsimp only
    | dsimp +zetaDelta only

theorem apDrain_keeps {l : List ApTlp} {s : State} 
    (hK : Kept wq wc s) :
    Kept wq wc (apDrain l s) := by
  induction l generalizing s with
  | nil =>
    unfold apDrain
    repeat' first
      | with_reducible assumption
      | with_reducible intro _
      | with_reducible apply apServe_keeps
      | with_reducible apply ih
      | with_reducible apply kept_ite
      | with_reducible refine kept_fst (by assumption) ?_
      | with_reducible refine kept_snd (by assumption) ?_
      | extract_lets
      | split
      | fail_if_no_progress refine kept_mk ?_ rfl rfl
      | dsimp only
      | dsimp +zetaDelta only
  | cons e t ih =>
    unfold apDrain
    repeat' first
      | with_reducible assumption
      | with_reducible intro _
      | with_reducible apply apServe_keeps
      | with_reducible apply ih
      | with_reducible apply kept_ite
      | with_reducible refine kept_fst (by assumption) ?_
      | with_reducible refine kept_snd (by assumption) ?_
      | extract_lets
      | split
      | fail_if_no_progress refine kept_mk ?_ rfl rfl
      | dsimp only
      | dsimp +zetaDelta only

theorem apTake_keeps {s : State} {t : ApTlp} 
    (hK : Kept wq wc s) :
    Kept wq wc (apTake s t) := by
  unfold apTake
  repeat' first
    | with_reducible assumption
    | with_reducible intro _
    | with_reducible apply apDrain_keeps
    | with_reducible apply kept_ite
    | with_reducible refine kept_fst (by assumption) ?_
    | with_reducible refine kept_snd (by assumption) ?_
    | extract_lets
    | split
    | fail_if_no_progress refine kept_mk ?_ rfl rfl
    | dsimp only
    | dsimp +zetaDelta only

theorem retryWaiting_keeps {s : State} 
    (hK : Kept wq wc s) :
    Kept wq wc (retryWaiting s) := by
  unfold retryWaiting
  repeat' first
    | with_reducible assumption
    | with_reducible intro _
    | with_reducible apply retryHeld_keeps
    | with_reducible apply apDrain_keeps
    | with_reducible apply kept_ite
    | with_reducible refine kept_fst (by assumption) ?_
    | with_reducible refine kept_snd (by assumption) ?_
    | extract_lets
    | split
    | fail_if_no_progress refine kept_mk ?_ rfl rfl
    | dsimp only
    | dsimp +zetaDelta only

end Sys2Proof.Machine
end

