-- ==== Sys2Proof/Laws/KeptVector.lean ====
section
/-! SUPPORT. Each operation of reductions, vector memory and the tick keeps the queue and the canonical form of memory: one lemma per operation, to be
cited in place of unfolding it. -/

set_option linter.unusedTactic false
set_option linter.unreachableTactic false

namespace Sys2Proof.Machine

variable {wq : List Instr} {wc : Prop}

/-! ### RedOps -/

theorem setWin_keeps {s : State} {p : Nat} {w : Win} 
    (hK : Kept wq wc s) :
    Kept wq wc (setWin s p w) := by
  unfold setWin
  repeat' first
    | with_reducible assumption
    | with_reducible intro _
    | with_reducible apply State.setClu_keeps
    | with_reducible apply kept_ite
    | with_reducible refine kept_fst (by assumption) ?_
    | with_reducible refine kept_snd (by assumption) ?_
    | extract_lets
    | split
    | fail_if_no_progress refine kept_mk ?_ rfl rfl
    | dsimp only
    | dsimp +zetaDelta only

/-! ### VecMem -/

theorem askRemote_keeps {s : State} {m : Nat} {tags : List Nat} {l : List MemAcc} 
    (hK : Kept wq wc s) :
    Kept wq wc (askRemote s m tags l).1 := by
  unfold askRemote
  repeat' first
    | with_reducible assumption
    | with_reducible intro _
    | with_reducible apply remoteGet_keeps
    | with_reducible apply kept_foldl
    | with_reducible apply kept_foldl1
    | with_reducible apply kept_foldl2
    | with_reducible apply kept_ite1
    | with_reducible apply kept_ite2
    | with_reducible apply kept_ite
    | with_reducible refine kept_fst (by assumption) ?_
    | with_reducible refine kept_snd (by assumption) ?_
    | extract_lets
    | split
    | fail_if_no_progress refine kept_mk ?_ rfl rfl
    | dsimp only
    | dsimp +zetaDelta only

theorem loadOne_keeps {s : State} {m p : Nat} {u : By} {tags : List Nat} {cache : KMap (List Byte)} {x : MemAcc} 
    (hK : Kept wq wc s) :
    Kept wq wc (loadOne s m p u tags cache x).1 := by
  unfold loadOne
  repeat' first
    | with_reducible assumption
    | with_reducible intro _
    | with_reducible apply addrPlace_keeps
    | with_reducible apply parcelRead_keeps
    | with_reducible apply regSpanRead_keeps
    | with_reducible apply remoteGet_keeps
    | with_reducible apply kept_ite1
    | with_reducible apply kept_ite2
    | with_reducible apply kept_ite
    | with_reducible refine kept_fst (by assumption) ?_
    | with_reducible refine kept_snd (by assumption) ?_
    | extract_lets
    | split
    | fail_if_no_progress refine kept_mk ?_ rfl rfl
    | dsimp only
    | dsimp +zetaDelta only

theorem loadAll_keeps {s : State} {m p : Nat} {u : By} {tags : List Nat} {cache : KMap (List Byte)} {l : List MemAcc} 
    (hK : Kept wq wc s) :
    Kept wq wc (loadAll s m p u tags cache l).1 := by
  induction l generalizing s m p u tags cache with
  | nil =>
    unfold loadAll
    repeat' first
      | with_reducible assumption
      | with_reducible intro _
      | with_reducible apply loadOne_keeps
      | with_reducible apply ih
      | with_reducible apply kept_ite1
      | with_reducible apply kept_ite2
      | with_reducible apply kept_ite
      | with_reducible refine kept_fst (by assumption) ?_
      | with_reducible refine kept_snd (by assumption) ?_
      | extract_lets
      | split
      | fail_if_no_progress refine kept_mk ?_ rfl rfl
      | dsimp only
      | dsimp +zetaDelta only
  | cons e t ih =>
    unfold loadAll
    repeat' first
      | with_reducible assumption
      | with_reducible intro _
      | with_reducible apply loadOne_keeps
      | with_reducible apply ih
      | with_reducible apply kept_ite1
      | with_reducible apply kept_ite2
      | with_reducible apply kept_ite
      | with_reducible refine kept_fst (by assumption) ?_
      | with_reducible refine kept_snd (by assumption) ?_
      | extract_lets
      | split
      | fail_if_no_progress refine kept_mk ?_ rfl rfl
      | dsimp only
      | dsimp +zetaDelta only

theorem memLoad_keeps {s : State} {p : Nat} {g : Prog} {unit : Nat} {l : List MemAcc} {fin : State → List (Nat × Nat × Nat) → Option MFail → State} (hfin : ∀ u0 u1 u2, Kept wq wc (u0) → Kept wq wc (fin u0 u1 u2))
    (hK : Kept wq wc s) :
    Kept wq wc (memLoad s p g unit l fin) := by
  unfold memLoad
  repeat' first
    | with_reducible assumption
    | with_reducible intro _
    | with_reducible apply askRemote_keeps
    | with_reducible apply setWait_keeps
    | with_reducible apply loadAll_keeps
    | with_reducible apply reqDrop_keeps
    | with_reducible apply hfin
    | with_reducible apply kept_ite
    | with_reducible refine kept_fst (by assumption) ?_
    | with_reducible refine kept_snd (by assumption) ?_
    | extract_lets
    | split
    | fail_if_no_progress refine kept_mk ?_ rfl rfl
    | dsimp only
    | dsimp +zetaDelta only

theorem storeOne_keeps {s : State} {m p slot : Nat} {u : By} {staged : KMap (List Byte)} {x : MemAcc} 
    (hK : Kept wq wc s) :
    Kept wq wc (storeOne s m p slot u staged x).1 := by
  unfold storeOne
  repeat' first
    | with_reducible assumption
    | with_reducible intro _
    | with_reducible apply writePlace_keeps
    | with_reducible apply parcelRead_keeps
    | with_reducible apply regSpanWrite_keeps
    | with_reducible apply kept_ite1
    | with_reducible apply kept_ite2
    | with_reducible apply kept_ite
    | with_reducible refine kept_fst (by assumption) ?_
    | with_reducible refine kept_snd (by assumption) ?_
    | extract_lets
    | split
    | fail_if_no_progress refine kept_mk ?_ rfl rfl
    | dsimp only
    | dsimp +zetaDelta only

theorem storeWalk_keeps {s : State} {m p slot : Nat} {u : By} {staged : KMap (List Byte)} {l : List MemAcc} 
    (hK : Kept wq wc s) :
    Kept wq wc (storeWalk s m p slot u staged l).1 := by
  induction l generalizing s m p slot u staged with
  | nil =>
    unfold storeWalk
    repeat' first
      | with_reducible assumption
      | with_reducible intro _
      | with_reducible apply storeOne_keeps
      | with_reducible apply ih
      | with_reducible apply kept_ite1
      | with_reducible apply kept_ite2
      | with_reducible apply kept_ite
      | with_reducible refine kept_fst (by assumption) ?_
      | with_reducible refine kept_snd (by assumption) ?_
      | extract_lets
      | split
      | fail_if_no_progress refine kept_mk ?_ rfl rfl
      | dsimp only
      | dsimp +zetaDelta only
  | cons e t ih =>
    unfold storeWalk
    repeat' first
      | with_reducible assumption
      | with_reducible intro _
      | with_reducible apply storeOne_keeps
      | with_reducible apply ih
      | with_reducible apply kept_ite1
      | with_reducible apply kept_ite2
      | with_reducible apply kept_ite
      | with_reducible refine kept_fst (by assumption) ?_
      | with_reducible refine kept_snd (by assumption) ?_
      | extract_lets
      | split
      | fail_if_no_progress refine kept_mk ?_ rfl rfl
      | dsimp only
      | dsimp +zetaDelta only

theorem commitStaged_keeps {s : State} {slot : Nat} {l : KMap (List Byte)} 
    (hK : Kept wq wc s) :
    Kept wq wc (commitStaged s slot l) := by
  unfold commitStaged
  repeat' first
    | with_reducible assumption
    | with_reducible intro _
    | with_reducible apply parcelWrite_keeps
    | with_reducible apply noteWriter_keeps
    | with_reducible apply kept_foldl
    | with_reducible apply kept_foldl1
    | with_reducible apply kept_foldl2
    | with_reducible apply kept_ite
    | with_reducible refine kept_fst (by assumption) ?_
    | with_reducible refine kept_snd (by assumption) ?_
    | extract_lets
    | split
    | fail_if_no_progress refine kept_mk ?_ rfl rfl
    | dsimp only
    | dsimp +zetaDelta only

theorem sendRuns_keeps {s : State} {m : Nat} {tags sent : List Nat} {l : List RRun} 
    (hK : Kept wq wc s) :
    Kept wq wc (sendRuns s m tags sent l).1 := by
  induction l generalizing s m tags sent with
  | nil =>
    unfold sendRuns
    repeat' first
      | with_reducible assumption
      | with_reducible intro _
      | with_reducible apply reqSend_keeps
      | with_reducible apply ih
      | with_reducible apply kept_ite1
      | with_reducible apply kept_ite2
      | with_reducible apply kept_ite
      | with_reducible refine kept_fst (by assumption) ?_
      | with_reducible refine kept_snd (by assumption) ?_
      | extract_lets
      | split
      | fail_if_no_progress refine kept_mk ?_ rfl rfl
      | dsimp only
      | dsimp +zetaDelta only
  | cons e t ih =>
    unfold sendRuns
    repeat' first
      | with_reducible assumption
      | with_reducible intro _
      | with_reducible apply reqSend_keeps
      | with_reducible apply ih
      | with_reducible apply kept_ite1
      | with_reducible apply kept_ite2
      | with_reducible apply kept_ite
      | with_reducible refine kept_fst (by assumption) ?_
      | with_reducible refine kept_snd (by assumption) ?_
      | extract_lets
      | split
      | fail_if_no_progress refine kept_mk ?_ rfl rfl
      | dsimp only
      | dsimp +zetaDelta only

theorem memStore_keeps {s : State} {p : Nat} {g : Prog} {unit : Nat} {l : List MemAcc} {fin : State → Option MFail → State} (hfin : ∀ u0 u1, Kept wq wc (u0) → Kept wq wc (fin u0 u1))
    (hK : Kept wq wc s) :
    Kept wq wc (memStore s p g unit l fin) := by
  unfold memStore
  repeat' first
    | with_reducible assumption
    | with_reducible intro _
    | with_reducible apply storeWalk_keeps
    | with_reducible apply reqDrop_keeps
    | with_reducible apply commitStaged_keeps
    | with_reducible apply setWait_keeps
    | with_reducible apply askRemote_keeps
    | with_reducible apply sendRuns_keeps
    | with_reducible apply hfin
    | with_reducible apply kept_ite
    | with_reducible refine kept_fst (by assumption) ?_
    | with_reducible refine kept_snd (by assumption) ?_
    | extract_lets
    | split
    | fail_if_no_progress refine kept_mk ?_ rfl rfl
    | dsimp only
    | dsimp +zetaDelta only

theorem endDouble_keeps {s : State} {p other key : Nat} 
    (hK : Kept wq wc s) :
    Kept wq wc (endDouble s p other key) := by
  unfold endDouble
  repeat' first
    | with_reducible assumption
    | with_reducible intro _
    | with_reducible apply endProgram_keeps
    | with_reducible apply kept_ite
    | with_reducible refine kept_fst (by assumption) ?_
    | with_reducible refine kept_snd (by assumption) ?_
    | extract_lets
    | split
    | fail_if_no_progress refine kept_mk ?_ rfl rfl
    | dsimp only
    | dsimp +zetaDelta only

theorem vecFault_keeps {s : State} {p f status : Nat} {addr : W64} {write : Bool} 
    (hK : Kept wq wc s) :
    Kept wq wc (vecFault s p f status addr write) := by
  unfold vecFault
  repeat' first
    | with_reducible assumption
    | with_reducible intro _
    | with_reducible apply reqDrop_keeps
    | with_reducible apply State.setSeq_keeps
    | with_reducible apply endProgram_keeps
    | with_reducible apply kept_ite
    | with_reducible refine kept_fst (by assumption) ?_
    | with_reducible refine kept_snd (by assumption) ?_
    | extract_lets
    | split
    | fail_if_no_progress refine kept_mk ?_ rfl rfl
    | dsimp only
    | dsimp +zetaDelta only

theorem vecEnd_keeps {s : State} {p : Nat} {g : Prog} {write : Bool} {f : Option MFail} 
    (hK : Kept wq wc s) :
    Kept wq wc (vecEnd s p g write f) := by
  unfold vecEnd
  repeat' first
    | with_reducible assumption
    | with_reducible intro _
    | with_reducible apply retire_keeps
    | with_reducible apply vecFault_keeps
    | with_reducible apply endDouble_keeps
    | with_reducible apply kept_ite
    | with_reducible refine kept_fst (by assumption) ?_
    | with_reducible refine kept_snd (by assumption) ?_
    | extract_lets
    | split
    | fail_if_no_progress refine kept_mk ?_ rfl rfl
    | dsimp only
    | dsimp +zetaDelta only

theorem scalarEnd_keeps {s : State} {p : Nat} {g : Prog} {write : Bool} {f : Option MFail} {ok : State → State} (hok : ∀ u0, Kept wq wc (u0) → Kept wq wc (ok u0))
    (hK : Kept wq wc s) :
    Kept wq wc (scalarEnd s p g write f ok) := by
  unfold scalarEnd
  repeat' first
    | with_reducible assumption
    | with_reducible intro _
    | with_reducible apply scalarFault_keeps
    | with_reducible apply endDouble_keeps
    | with_reducible apply hok
    | with_reducible apply kept_ite
    | with_reducible refine kept_fst (by assumption) ?_
    | with_reducible refine kept_snd (by assumption) ?_
    | extract_lets
    | split
    | fail_if_no_progress refine kept_mk ?_ rfl rfl
    | dsimp only
    | dsimp +zetaDelta only

theorem scalarMem_keeps {s : State} {p : Nat} {g : Prog} {w : Nat} 
    (hK : Kept wq wc s) :
    Kept wq wc (scalarMem s p g w) := by
  unfold scalarMem
  repeat' first
    | with_reducible assumption
    | with_reducible intro _
    | with_reducible apply memLoad_keeps
    | with_reducible apply scalarEnd_keeps
    | with_reducible apply retire_keeps
    | with_reducible apply State.setSeq_keeps
    | with_reducible apply memStore_keeps
    | with_reducible apply kept_ite
    | with_reducible refine kept_fst (by assumption) ?_
    | with_reducible refine kept_snd (by assumption) ?_
    | extract_lets
    | split
    | fail_if_no_progress refine kept_mk ?_ rfl rfl
    | dsimp only
    | dsimp +zetaDelta only

theorem memOp_keeps {s : State} {p : PClu} {fn : Nat} {a : ScalMem} 
    (hK : Kept wq wc s) :
    Kept wq wc (memOp s p fn a) := by
  unfold memOp
  repeat' first
    | with_reducible assumption
    | with_reducible intro _
    | with_reducible apply issue_keeps
    | with_reducible apply scalarMem_keeps
    | with_reducible apply kept_ite
    | with_reducible refine kept_fst (by assumption) ?_
    | with_reducible refine kept_snd (by assumption) ?_
    | extract_lets
    | split
    | fail_if_no_progress refine kept_mk ?_ rfl rfl
    | dsimp only
    | dsimp +zetaDelta only

theorem vecLoad_keeps {s : State} {p : Nat} {g : Prog} {vd base : Nat} {l : List MemAcc} 
    (hK : Kept wq wc s) :
    Kept wq wc (vecLoad s p g vd base l) := by
  unfold vecLoad
  repeat' first
    | with_reducible assumption
    | with_reducible intro _
    | with_reducible apply memLoad_keeps
    | with_reducible apply vecEnd_keeps
    | with_reducible apply State.setSeq_keeps
    | with_reducible apply kept_ite
    | with_reducible refine kept_fst (by assumption) ?_
    | with_reducible refine kept_snd (by assumption) ?_
    | extract_lets
    | split
    | fail_if_no_progress refine kept_mk ?_ rfl rfl
    | dsimp only
    | dsimp +zetaDelta only

theorem vecStore_keeps {s : State} {p : Nat} {g : Prog} {l : List MemAcc} 
    (hK : Kept wq wc s) :
    Kept wq wc (vecStore s p g l) := by
  unfold vecStore
  repeat' first
    | with_reducible assumption
    | with_reducible intro _
    | with_reducible apply memStore_keeps
    | with_reducible apply vecEnd_keeps
    | with_reducible apply kept_ite
    | with_reducible refine kept_fst (by assumption) ?_
    | with_reducible refine kept_snd (by assumption) ?_
    | extract_lets
    | split
    | fail_if_no_progress refine kept_mk ?_ rfl rfl
    | dsimp only
    | dsimp +zetaDelta only

theorem linearMem_keeps {s : State} {p : Nat} {g : Prog} {w : Nat} 
    (hK : Kept wq wc s) :
    Kept wq wc (linearMem s p g w) := by
  unfold linearMem
  repeat' first
    | with_reducible assumption
    | with_reducible intro _
    | with_reducible apply vecStore_keeps
    | with_reducible apply vecLoad_keeps
    | with_reducible apply kept_ite
    | with_reducible refine kept_fst (by assumption) ?_
    | with_reducible refine kept_snd (by assumption) ?_
    | extract_lets
    | split
    | fail_if_no_progress refine kept_mk ?_ rfl rfl
    | dsimp only
    | dsimp +zetaDelta only

theorem indexedMem_keeps {s : State} {p : Nat} {g : Prog} {w : Nat} 
    (hK : Kept wq wc s) :
    Kept wq wc (indexedMem s p g w) := by
  unfold indexedMem
  repeat' first
    | with_reducible assumption
    | with_reducible intro _
    | with_reducible apply vecStore_keeps
    | with_reducible apply vecLoad_keeps
    | with_reducible apply kept_ite
    | with_reducible refine kept_fst (by assumption) ?_
    | with_reducible refine kept_snd (by assumption) ?_
    | extract_lets
    | split
    | fail_if_no_progress refine kept_mk ?_ rfl rfl
    | dsimp only
    | dsimp +zetaDelta only

theorem loadRecord_keeps {s : State} {p : Nat} {a : W64} {b : List Byte} 
    (hK : Kept wq wc s) :
    Kept wq wc (loadRecord s p a b) := by
  unfold loadRecord
  repeat' first
    | with_reducible assumption
    | with_reducible intro _
    | with_reducible apply endProgram_keeps
    | with_reducible apply retire_keeps
    | with_reducible apply State.setClu_keeps
    | with_reducible apply kept_ite
    | with_reducible refine kept_fst (by assumption) ?_
    | with_reducible refine kept_snd (by assumption) ?_
    | extract_lets
    | split
    | fail_if_no_progress refine kept_mk ?_ rfl rfl
    | dsimp only
    | dsimp +zetaDelta only

theorem windowSave_keeps {s : State} {p : Nat} {g : Prog} {a : W64} 
    (hK : Kept wq wc s) :
    Kept wq wc (windowSave s p g a) := by
  unfold windowSave
  repeat' first
    | with_reducible assumption
    | with_reducible intro _
    | with_reducible apply memStore_keeps
    | with_reducible apply scalarEnd_keeps
    | with_reducible apply retire_keeps
    | with_reducible apply kept_ite
    | with_reducible refine kept_fst (by assumption) ?_
    | with_reducible refine kept_snd (by assumption) ?_
    | extract_lets
    | split
    | fail_if_no_progress refine kept_mk ?_ rfl rfl
    | dsimp only
    | dsimp +zetaDelta only

theorem windowLoad_keeps {s : State} {p : Nat} {g : Prog} {a : W64} 
    (hK : Kept wq wc s) :
    Kept wq wc (windowLoad s p g a) := by
  unfold windowLoad
  repeat' first
    | with_reducible assumption
    | with_reducible intro _
    | with_reducible apply memLoad_keeps
    | with_reducible apply scalarEnd_keeps
    | with_reducible apply loadRecord_keeps
    | with_reducible apply kept_ite
    | with_reducible refine kept_fst (by assumption) ?_
    | with_reducible refine kept_snd (by assumption) ?_
    | extract_lets
    | split
    | fail_if_no_progress refine kept_mk ?_ rfl rfl
    | dsimp only
    | dsimp +zetaDelta only

theorem windowMem_keeps {s : State} {p : Nat} {g : Prog} {w : Nat} 
    (hK : Kept wq wc s) :
    Kept wq wc (windowMem s p g w) := by
  unfold windowMem
  repeat' first
    | with_reducible assumption
    | with_reducible intro _
    | with_reducible apply windowSave_keeps
    | with_reducible apply windowLoad_keeps
    | with_reducible apply kept_ite
    | with_reducible refine kept_fst (by assumption) ?_
    | with_reducible refine kept_snd (by assumption) ?_
    | extract_lets
    | split
    | fail_if_no_progress refine kept_mk ?_ rfl rfl
    | dsimp only
    | dsimp +zetaDelta only

theorem csrRead_keeps {s : State} {p : Nat} {g : Prog} {sd n : Nat} 
    (hK : Kept wq wc s) :
    Kept wq wc (csrRead s p g sd n) := by
  unfold csrRead
  repeat' first
    | with_reducible assumption
    | with_reducible intro _
    | with_reducible apply retire_keeps
    | with_reducible apply State.setSeq_keeps
    | with_reducible apply regReadWord_keeps
    | with_reducible apply regRead_keeps
    | with_reducible apply scalarEnd_keeps
    | with_reducible apply kept_ite
    | with_reducible refine kept_fst (by assumption) ?_
    | with_reducible refine kept_snd (by assumption) ?_
    | extract_lets
    | split
    | fail_if_no_progress refine kept_mk ?_ rfl rfl
    | dsimp only
    | dsimp +zetaDelta only

theorem csrWrite_keeps {s : State} {p : Nat} {g : Prog} {sa n : Nat} 
    (hK : Kept wq wc s) :
    Kept wq wc (csrWrite s p g sa n) := by
  unfold csrWrite
  repeat' first
    | with_reducible assumption
    | with_reducible intro _
    | with_reducible apply regWriteWord_keeps
    | with_reducible apply regWrite_keeps
    | with_reducible apply scalarEnd_keeps
    | with_reducible apply retire_keeps
    | with_reducible apply kept_ite
    | with_reducible refine kept_fst (by assumption) ?_
    | with_reducible refine kept_snd (by assumption) ?_
    | extract_lets
    | split
    | fail_if_no_progress refine kept_mk ?_ rfl rfl
    | dsimp only
    | dsimp +zetaDelta only

theorem waitAgain_keeps {s : State} {p : Nat} {g : Prog} {w : Nat} 
    (hK : Kept wq wc s) :
    Kept wq wc (waitAgain s p g w) := by
  unfold waitAgain
  repeat' first
    | with_reducible assumption
    | with_reducible intro _
    | with_reducible apply scalarMem_keeps
    | with_reducible apply teIssue_keeps
    | with_reducible apply teWait_keeps
    | with_reducible apply linearMem_keeps
    | with_reducible apply indexedMem_keeps
    | with_reducible apply windowMem_keeps
    | with_reducible apply kept_ite
    | with_reducible refine kept_fst (by assumption) ?_
    | with_reducible refine kept_snd (by assumption) ?_
    | extract_lets
    | split
    | fail_if_no_progress refine kept_mk ?_ rfl rfl
    | dsimp only
    | dsimp +zetaDelta only

theorem boundaryEnd_keeps {s : State} {p : Nat} 
    (hK : Kept wq wc s) :
    Kept wq wc (boundaryEnd s p) := by
  unfold boundaryEnd
  repeat' first
    | with_reducible assumption
    | with_reducible intro _
    | with_reducible apply endQuiesced_keeps
    | with_reducible apply kept_ite
    | with_reducible refine kept_fst (by assumption) ?_
    | with_reducible refine kept_snd (by assumption) ?_
    | extract_lets
    | split
    | fail_if_no_progress refine kept_mk ?_ rfl rfl
    | dsimp only
    | dsimp +zetaDelta only

/-! ### Tick -/

theorem tick_keeps {s : State} 
    (hK : Kept wq wc s) :
    Kept wq wc (tick s) := by
  unfold tick
  repeat' first
    | with_reducible assumption
    | with_reducible intro _
    | with_reducible apply linkIdle_keeps
    | with_reducible apply retryTiles_keeps
    | with_reducible apply retryWaiting_keeps
    | with_reducible apply kept_foldl
    | with_reducible apply kept_foldl1
    | with_reducible apply kept_foldl2
    | with_reducible apply kept_ite
    | with_reducible refine kept_fst (by assumption) ?_
    | with_reducible refine kept_snd (by assumption) ?_
    | extract_lets
    | split
    | fail_if_no_progress refine kept_mk ?_ rfl rfl
    | dsimp only
    | dsimp +zetaDelta only

end Sys2Proof.Machine
end

