-- ==== Sys2Proof/Laws/Mem.lean ====
section
/-! SUPPORT. Laws of byte memory: reading what was written, leaving every other byte, and reading through the other updates. -/

namespace Sys2Proof.Machine

/-- A byte of a written string reads back; every other byte reads as before. -/
theorem kget_putBytes (m : List Host.Cell) (a : Nat) (l : List Byte) (j : Nat) :
    kget 0 (putBytes m a l) j = if a ≤ j ∧ j < a + l.length then l.getD (j - a) 0 else kget 0 m j := by
  induction l generalizing m a with
  | nil =>
    rw [if_neg (by simp)]
    rfl
  | cons b t ih =>
    rw [putBytes, ih, kget_kset]
    by_cases h : a = j
    · subst h
      have : ¬ (a + 1 ≤ a) := by omega
      simp [this]
    · by_cases h2 : a + 1 ≤ j ∧ j < a + 1 + t.length
      · have h3 : a ≤ j ∧ j < a + (b :: t).length := by simp; omega
        have h4 : j - a = (j - (a + 1)) + 1 := by omega
        rw [if_pos h2, if_pos h3, h4, List.getD_cons_succ]
      · have h3 : ¬ (a ≤ j ∧ j < a + (b :: t).length) := by simp; omega
        rw [if_neg h2, if_neg h3, if_neg h]

/-- What one byte of memory reads after a write. -/
theorem memByte_memPut (s : State) (a : Nat) (l : List Byte) (j : Nat) :
    memByte (memPut s a l) j = if a ≤ j ∧ j < a + l.length then l.getD (j - a) 0 else memByte s j :=
  kget_putBytes _ _ _ _

/-- Frame: a write leaves every byte outside its own alone. -/
theorem memByte_memPut_out (s : State) (a : Nat) (l : List Byte) (j : Nat) (h : j < a ∨ a + l.length ≤ j) :
    memByte (memPut s a l) j = memByte s j := by
  rw [memByte_memPut, if_neg (by omega)]

@[simp] theorem memBytes_length (s : State) (a n : Nat) : (memBytes s a n).length = n := by
  induction n generalizing a with
  | zero => rfl
  | succ k ih => simp [memBytes, ih]

/-- Bytes read where a string was written are that string. -/
theorem memBytes_memPut_same (s : State) (a : Nat) (l : List Byte) : memBytes (memPut s a l) a l.length = l := by
  have key : ∀ n k, k + n = l.length → memBytes (memPut s a l) (a + k) n = l.drop k := by
    intro n
    induction n with
    | zero => intro k hk; simp [memBytes, List.drop_of_length_le (by omega : l.length ≤ k)]
    | succ n ih =>
      intro k hk
      have hl : k < l.length := by omega
      rw [memBytes, Nat.add_assoc, ih (k + 1) (by omega), memByte_memPut, if_pos (by omega),
        List.drop_eq_getElem_cons hl, Nat.add_sub_cancel_left]
      simp [hl]
  simpa using key l.length 0 (by omega)

/-- Bytes read outside a written string are as before. -/
theorem memBytes_memPut_out (s : State) (a : Nat) (l : List Byte) (b n : Nat)
    (h : b + n ≤ a ∨ a + l.length ≤ b) : memBytes (memPut s a l) b n = memBytes s b n := by
  induction n generalizing b with
  | zero => rfl
  | succ n ih => rw [memBytes, memBytes, ih _ (by omega), memByte_memPut_out _ _ _ _ (by omega)]

/-- Looking a key up in a table filtered by its keys. -/
theorem kfind_filter {α : Type} (t : KMap α) (p : Nat → Bool) (j : Nat) :
    kfind (t.filter (fun e => p e.1)) j = if p j then kfind t j else none := by
  induction t with
  | nil => simp [kfind]
  | cons e r ih =>
    rw [List.filter_cons]
    by_cases hj : e.1 = j
    · subst hj
      cases hp : p e.1
      · simpa [hp] using ih
      · simp [kfind]
    · have hc : ∀ l : KMap α, kfind (e :: l) j = kfind l j := fun l => by simp [kfind, hj]
      rw [hc]
      split
      · rw [hc, ih]
      · exact ih

/-- A cleared range reads as zero; every other byte reads as before. -/
theorem memByte_memClear (s : State) (a b j : Nat) :
    memByte (memClear s a b) j = if a ≤ j ∧ j < b then 0 else memByte s j := by
  have h := kfind_filter s.store.bytes (fun k => decide (k < a ∨ b ≤ k)) j
  unfold memByte kget
  rw [show (memClear s a b).store.bytes = s.store.bytes.filter (fun e => decide (e.1 < a ∨ b ≤ e.1)) from rfl, h]
  by_cases hr : a ≤ j ∧ j < b
  · rw [if_pos hr, if_neg (by simp; omega)]; rfl
  · rw [if_neg hr, if_pos (by simp; omega)]

/-- Memory after reset lists nothing. -/
theorem reset_wf : Memory.wf State.reset.store.bytes := by
  unfold Memory.wf
  decide

end Sys2Proof.Machine
end

