-- ==== Sys2Proof/Laws/State.lean ====
section
/-! SUPPORT. Laws of the units of the state: a unit reads as it was last written, a write of one unit changes neither
another unit of its kind nor any other part of the state, and a unit written as it stands, or twice, is as written once.
So no proof unfolds a record update. -/

namespace Sys2Proof.Machine

variable (s : State) (k j : Nat)

/-! ## Clu -/

@[simp] theorem State.clu_setClu_same (x : Clu) : (s.setClu k x).clu k = x := kget_kset_same _ _ _ _
theorem State.clu_setClu_ne (x : Clu) (h : k ≠ j) : (s.setClu k x).clu j = s.clu j := kget_kset_ne _ _ _ _ _ h
theorem State.clu_setClu (x : Clu) : (s.setClu k x).clu j = if k = j then x else s.clu j := kget_kset _ _ _ _ _
@[simp] theorem State.setClu_setClu (x y : Clu) : (s.setClu k x).setClu k y = s.setClu k y := by simp [State.setClu]
@[simp] theorem State.setClu_pending (x : Clu) : (s.setClu k x).pending = s.pending := rfl
@[simp] theorem State.setClu_time (x : Clu) : (s.setClu k x).time = s.time := rfl
@[simp] theorem State.setClu_store (x : Clu) : (s.setClu k x).store = s.store := rfl
@[simp] theorem State.setClu_ledger (x : Clu) : (s.setClu k x).ledger = s.ledger := rfl
@[simp] theorem State.setClu_streams (x : Clu) : (s.setClu k x).streams = s.streams := rfl
@[simp] theorem State.setClu_boxes (x : Clu) : (s.setClu k x).boxes = s.boxes := rfl
@[simp] theorem State.setClu_hif (x : Clu) : (s.setClu k x).hif = s.hif := rfl
@[simp] theorem State.setClu_ring (x : Clu) : (s.setClu k x).ring = s.ring := rfl
@[simp] theorem State.setClu_couriers (x : Clu) : (s.setClu k x).couriers = s.couriers := rfl
@[simp] theorem State.setClu_ports (x : Clu) : (s.setClu k x).ports = s.ports := rfl
@[simp] theorem State.setClu_fab (x : Clu) : (s.setClu k x).fab = s.fab := rfl
@[simp] theorem State.setClu_net (x : Clu) : (s.setClu k x).net = s.net := rfl
@[simp] theorem State.setClu_comms (x : Clu) : (s.setClu k x).comms = s.comms := rfl
@[simp] theorem State.setClu_bcast (x : Clu) : (s.setClu k x).bcast = s.bcast := rfl
@[simp] theorem State.setClu_image (x : Clu) : (s.setClu k x).image = s.image := rfl
@[simp] theorem State.setClu_access (x : Clu) : (s.setClu k x).access = s.access := rfl
@[simp] theorem State.setClu_boot (x : Clu) : (s.setClu k x).boot = s.boot := rfl
@[simp] theorem State.setClu_pins (x : Clu) : (s.setClu k x).pins = s.pins := rfl
@[simp] theorem State.setClu_chk (x : Clu) : (s.setClu k x).chk = s.chk := rfl
@[simp] theorem State.setClu_sec (x : Clu) : (s.setClu k x).sec = s.sec := rfl
@[simp] theorem State.setClu_power (x : Clu) : (s.setClu k x).power = s.power := rfl
@[simp] theorem State.setClu_prun (x : Clu) : (s.setClu k x).prun = s.prun := rfl
@[simp] theorem State.setClu_flash (x : Clu) : (s.setClu k x).flash = s.flash := rfl
@[simp] theorem State.setClu_due (x : Clu) : (s.setClu k x).due = s.due := rfl
@[simp] theorem State.setClu_latch (x : Clu) : (s.setClu k x).latch = s.latch := rfl
@[simp] theorem State.setClu_sent (x : Clu) : (s.setClu k x).sent = s.sent := rfl
@[simp] theorem State.setClu_free (x : Clu) : (s.setClu k x).free = s.free := rfl
@[simp] theorem State.setClu_core_lclus (x : Clu) : (s.setClu k x).core.lclus = s.core.lclus := rfl
@[simp] theorem State.setClu_core_tiles (x : Clu) : (s.setClu k x).core.tiles = s.core.tiles := rfl
@[simp] theorem State.setClu_core_tileSlv (x : Clu) : (s.setClu k x).core.tileSlv = s.core.tileSlv := rfl
@[simp] theorem State.setClu_core_dead (x : Clu) : (s.setClu k x).core.dead = s.core.dead := rfl
@[simp] theorem State.setClu_core_holes (x : Clu) : (s.setClu k x).core.holes = s.core.holes := rfl
@[simp] theorem State.setClu_core_qs (x : Clu) : (s.setClu k x).core.qs = s.core.qs := rfl
@[simp] theorem State.setClu_core_qsPart (x : Clu) : (s.setClu k x).core.qsPart = s.core.qsPart := rfl
@[simp] theorem State.setClu_core_groups (x : Clu) : (s.setClu k x).core.groups = s.core.groups := rfl
@[simp] theorem State.setClu_core_se (x : Clu) : (s.setClu k x).core.se = s.core.se := rfl
@[simp] theorem State.setClu_core_seStack (x : Clu) : (s.setClu k x).core.seStack = s.core.seStack := rfl
@[simp] theorem State.setClu_core_watches (x : Clu) : (s.setClu k x).core.watches = s.core.watches := rfl
@[simp] theorem State.setClu_core_posts (x : Clu) : (s.setClu k x).core.posts = s.core.posts := rfl
@[simp] theorem State.setClu_core_lwDropped (x : Clu) : (s.setClu k x).core.lwDropped = s.core.lwDropped := rfl
@[simp] theorem State.lclu_setClu (x : Clu) : (s.setClu k x).lclu j = s.lclu j := rfl
@[simp] theorem State.tile_setClu (x : Clu) : (s.setClu k x).tile j = s.tile j := rfl
@[simp] theorem State.tslv_setClu (x : Clu) : (s.setClu k x).tslv j = s.tslv j := rfl
@[simp] theorem State.qslot_setClu (x : Clu) : (s.setClu k x).qslot j = s.qslot j := rfl
@[simp] theorem State.group_setClu (x : Clu) : (s.setClu k x).group j = s.group j := rfl
@[simp] theorem State.seg_setClu (x : Clu) : (s.setClu k x).seg j = s.seg j := rfl
@[simp] theorem State.sest_setClu (x : Clu) : (s.setClu k x).sest j = s.sest j := rfl
@[simp] theorem State.watch_setClu (x : Clu) : (s.setClu k x).watch j = s.watch j := rfl
@[simp] theorem State.stk_setClu (x : Clu) : (s.setClu k x).stk j = s.stk j := rfl
@[simp] theorem State.courier_setClu (x : Clu) : (s.setClu k x).courier j = s.courier j := rfl
@[simp] theorem State.port_setClu (x : Clu) : (s.setClu k x).port j = s.port j := rfl
@[simp] theorem State.box_setClu (x : Clu) : (s.setClu k x).box j = s.box j := rfl
@[simp] theorem State.strm_setClu (x : Clu) : (s.setClu k x).strm j = s.strm j := rfl
@[simp] theorem State.comm_setClu (x : Clu) : (s.setClu k x).comm j = s.comm j := rfl
@[simp] theorem State.op_setClu (x : Clu) : (s.setClu k x).op j = s.op j := rfl

/-! ## LClus -/

@[simp] theorem State.lclu_setLclu_same (x : LClus) : (s.setLclu k x).lclu k = x := kget_kset_same _ _ _ _
theorem State.lclu_setLclu_ne (x : LClus) (h : k ≠ j) : (s.setLclu k x).lclu j = s.lclu j := kget_kset_ne _ _ _ _ _ h
theorem State.lclu_setLclu (x : LClus) : (s.setLclu k x).lclu j = if k = j then x else s.lclu j := kget_kset _ _ _ _ _
@[simp] theorem State.setLclu_setLclu (x y : LClus) : (s.setLclu k x).setLclu k y = s.setLclu k y := by simp [State.setLclu]
@[simp] theorem State.setLclu_pending (x : LClus) : (s.setLclu k x).pending = s.pending := rfl
@[simp] theorem State.setLclu_time (x : LClus) : (s.setLclu k x).time = s.time := rfl
@[simp] theorem State.setLclu_store (x : LClus) : (s.setLclu k x).store = s.store := rfl
@[simp] theorem State.setLclu_ledger (x : LClus) : (s.setLclu k x).ledger = s.ledger := rfl
@[simp] theorem State.setLclu_streams (x : LClus) : (s.setLclu k x).streams = s.streams := rfl
@[simp] theorem State.setLclu_boxes (x : LClus) : (s.setLclu k x).boxes = s.boxes := rfl
@[simp] theorem State.setLclu_hif (x : LClus) : (s.setLclu k x).hif = s.hif := rfl
@[simp] theorem State.setLclu_ring (x : LClus) : (s.setLclu k x).ring = s.ring := rfl
@[simp] theorem State.setLclu_couriers (x : LClus) : (s.setLclu k x).couriers = s.couriers := rfl
@[simp] theorem State.setLclu_ports (x : LClus) : (s.setLclu k x).ports = s.ports := rfl
@[simp] theorem State.setLclu_fab (x : LClus) : (s.setLclu k x).fab = s.fab := rfl
@[simp] theorem State.setLclu_net (x : LClus) : (s.setLclu k x).net = s.net := rfl
@[simp] theorem State.setLclu_comms (x : LClus) : (s.setLclu k x).comms = s.comms := rfl
@[simp] theorem State.setLclu_bcast (x : LClus) : (s.setLclu k x).bcast = s.bcast := rfl
@[simp] theorem State.setLclu_image (x : LClus) : (s.setLclu k x).image = s.image := rfl
@[simp] theorem State.setLclu_access (x : LClus) : (s.setLclu k x).access = s.access := rfl
@[simp] theorem State.setLclu_boot (x : LClus) : (s.setLclu k x).boot = s.boot := rfl
@[simp] theorem State.setLclu_pins (x : LClus) : (s.setLclu k x).pins = s.pins := rfl
@[simp] theorem State.setLclu_chk (x : LClus) : (s.setLclu k x).chk = s.chk := rfl
@[simp] theorem State.setLclu_sec (x : LClus) : (s.setLclu k x).sec = s.sec := rfl
@[simp] theorem State.setLclu_power (x : LClus) : (s.setLclu k x).power = s.power := rfl
@[simp] theorem State.setLclu_prun (x : LClus) : (s.setLclu k x).prun = s.prun := rfl
@[simp] theorem State.setLclu_flash (x : LClus) : (s.setLclu k x).flash = s.flash := rfl
@[simp] theorem State.setLclu_due (x : LClus) : (s.setLclu k x).due = s.due := rfl
@[simp] theorem State.setLclu_latch (x : LClus) : (s.setLclu k x).latch = s.latch := rfl
@[simp] theorem State.setLclu_sent (x : LClus) : (s.setLclu k x).sent = s.sent := rfl
@[simp] theorem State.setLclu_free (x : LClus) : (s.setLclu k x).free = s.free := rfl
@[simp] theorem State.setLclu_core_clus (x : LClus) : (s.setLclu k x).core.clus = s.core.clus := rfl
@[simp] theorem State.setLclu_core_tiles (x : LClus) : (s.setLclu k x).core.tiles = s.core.tiles := rfl
@[simp] theorem State.setLclu_core_tileSlv (x : LClus) : (s.setLclu k x).core.tileSlv = s.core.tileSlv := rfl
@[simp] theorem State.setLclu_core_dead (x : LClus) : (s.setLclu k x).core.dead = s.core.dead := rfl
@[simp] theorem State.setLclu_core_holes (x : LClus) : (s.setLclu k x).core.holes = s.core.holes := rfl
@[simp] theorem State.setLclu_core_qs (x : LClus) : (s.setLclu k x).core.qs = s.core.qs := rfl
@[simp] theorem State.setLclu_core_qsPart (x : LClus) : (s.setLclu k x).core.qsPart = s.core.qsPart := rfl
@[simp] theorem State.setLclu_core_groups (x : LClus) : (s.setLclu k x).core.groups = s.core.groups := rfl
@[simp] theorem State.setLclu_core_se (x : LClus) : (s.setLclu k x).core.se = s.core.se := rfl
@[simp] theorem State.setLclu_core_seStack (x : LClus) : (s.setLclu k x).core.seStack = s.core.seStack := rfl
@[simp] theorem State.setLclu_core_watches (x : LClus) : (s.setLclu k x).core.watches = s.core.watches := rfl
@[simp] theorem State.setLclu_core_posts (x : LClus) : (s.setLclu k x).core.posts = s.core.posts := rfl
@[simp] theorem State.setLclu_core_lwDropped (x : LClus) : (s.setLclu k x).core.lwDropped = s.core.lwDropped := rfl
@[simp] theorem State.clu_setLclu (x : LClus) : (s.setLclu k x).clu j = s.clu j := rfl
@[simp] theorem State.tile_setLclu (x : LClus) : (s.setLclu k x).tile j = s.tile j := rfl
@[simp] theorem State.tslv_setLclu (x : LClus) : (s.setLclu k x).tslv j = s.tslv j := rfl
@[simp] theorem State.qslot_setLclu (x : LClus) : (s.setLclu k x).qslot j = s.qslot j := rfl
@[simp] theorem State.group_setLclu (x : LClus) : (s.setLclu k x).group j = s.group j := rfl
@[simp] theorem State.seg_setLclu (x : LClus) : (s.setLclu k x).seg j = s.seg j := rfl
@[simp] theorem State.sest_setLclu (x : LClus) : (s.setLclu k x).sest j = s.sest j := rfl
@[simp] theorem State.watch_setLclu (x : LClus) : (s.setLclu k x).watch j = s.watch j := rfl
@[simp] theorem State.stk_setLclu (x : LClus) : (s.setLclu k x).stk j = s.stk j := rfl
@[simp] theorem State.courier_setLclu (x : LClus) : (s.setLclu k x).courier j = s.courier j := rfl
@[simp] theorem State.port_setLclu (x : LClus) : (s.setLclu k x).port j = s.port j := rfl
@[simp] theorem State.box_setLclu (x : LClus) : (s.setLclu k x).box j = s.box j := rfl
@[simp] theorem State.strm_setLclu (x : LClus) : (s.setLclu k x).strm j = s.strm j := rfl
@[simp] theorem State.comm_setLclu (x : LClus) : (s.setLclu k x).comm j = s.comm j := rfl
@[simp] theorem State.op_setLclu (x : LClus) : (s.setLclu k x).op j = s.op j := rfl

/-! ## TileS -/

@[simp] theorem State.tile_setTile_same (x : TileS) : (s.setTile k x).tile k = x := kget_kset_same _ _ _ _
theorem State.tile_setTile_ne (x : TileS) (h : k ≠ j) : (s.setTile k x).tile j = s.tile j := kget_kset_ne _ _ _ _ _ h
theorem State.tile_setTile (x : TileS) : (s.setTile k x).tile j = if k = j then x else s.tile j := kget_kset _ _ _ _ _
@[simp] theorem State.setTile_setTile (x y : TileS) : (s.setTile k x).setTile k y = s.setTile k y := by simp [State.setTile]
@[simp] theorem State.setTile_pending (x : TileS) : (s.setTile k x).pending = s.pending := rfl
@[simp] theorem State.setTile_time (x : TileS) : (s.setTile k x).time = s.time := rfl
@[simp] theorem State.setTile_store (x : TileS) : (s.setTile k x).store = s.store := rfl
@[simp] theorem State.setTile_ledger (x : TileS) : (s.setTile k x).ledger = s.ledger := rfl
@[simp] theorem State.setTile_streams (x : TileS) : (s.setTile k x).streams = s.streams := rfl
@[simp] theorem State.setTile_boxes (x : TileS) : (s.setTile k x).boxes = s.boxes := rfl
@[simp] theorem State.setTile_hif (x : TileS) : (s.setTile k x).hif = s.hif := rfl
@[simp] theorem State.setTile_ring (x : TileS) : (s.setTile k x).ring = s.ring := rfl
@[simp] theorem State.setTile_couriers (x : TileS) : (s.setTile k x).couriers = s.couriers := rfl
@[simp] theorem State.setTile_ports (x : TileS) : (s.setTile k x).ports = s.ports := rfl
@[simp] theorem State.setTile_fab (x : TileS) : (s.setTile k x).fab = s.fab := rfl
@[simp] theorem State.setTile_net (x : TileS) : (s.setTile k x).net = s.net := rfl
@[simp] theorem State.setTile_comms (x : TileS) : (s.setTile k x).comms = s.comms := rfl
@[simp] theorem State.setTile_bcast (x : TileS) : (s.setTile k x).bcast = s.bcast := rfl
@[simp] theorem State.setTile_image (x : TileS) : (s.setTile k x).image = s.image := rfl
@[simp] theorem State.setTile_access (x : TileS) : (s.setTile k x).access = s.access := rfl
@[simp] theorem State.setTile_boot (x : TileS) : (s.setTile k x).boot = s.boot := rfl
@[simp] theorem State.setTile_pins (x : TileS) : (s.setTile k x).pins = s.pins := rfl
@[simp] theorem State.setTile_chk (x : TileS) : (s.setTile k x).chk = s.chk := rfl
@[simp] theorem State.setTile_sec (x : TileS) : (s.setTile k x).sec = s.sec := rfl
@[simp] theorem State.setTile_power (x : TileS) : (s.setTile k x).power = s.power := rfl
@[simp] theorem State.setTile_prun (x : TileS) : (s.setTile k x).prun = s.prun := rfl
@[simp] theorem State.setTile_flash (x : TileS) : (s.setTile k x).flash = s.flash := rfl
@[simp] theorem State.setTile_due (x : TileS) : (s.setTile k x).due = s.due := rfl
@[simp] theorem State.setTile_latch (x : TileS) : (s.setTile k x).latch = s.latch := rfl
@[simp] theorem State.setTile_sent (x : TileS) : (s.setTile k x).sent = s.sent := rfl
@[simp] theorem State.setTile_free (x : TileS) : (s.setTile k x).free = s.free := rfl
@[simp] theorem State.setTile_core_clus (x : TileS) : (s.setTile k x).core.clus = s.core.clus := rfl
@[simp] theorem State.setTile_core_lclus (x : TileS) : (s.setTile k x).core.lclus = s.core.lclus := rfl
@[simp] theorem State.setTile_core_tileSlv (x : TileS) : (s.setTile k x).core.tileSlv = s.core.tileSlv := rfl
@[simp] theorem State.setTile_core_dead (x : TileS) : (s.setTile k x).core.dead = s.core.dead := rfl
@[simp] theorem State.setTile_core_holes (x : TileS) : (s.setTile k x).core.holes = s.core.holes := rfl
@[simp] theorem State.setTile_core_qs (x : TileS) : (s.setTile k x).core.qs = s.core.qs := rfl
@[simp] theorem State.setTile_core_qsPart (x : TileS) : (s.setTile k x).core.qsPart = s.core.qsPart := rfl
@[simp] theorem State.setTile_core_groups (x : TileS) : (s.setTile k x).core.groups = s.core.groups := rfl
@[simp] theorem State.setTile_core_se (x : TileS) : (s.setTile k x).core.se = s.core.se := rfl
@[simp] theorem State.setTile_core_seStack (x : TileS) : (s.setTile k x).core.seStack = s.core.seStack := rfl
@[simp] theorem State.setTile_core_watches (x : TileS) : (s.setTile k x).core.watches = s.core.watches := rfl
@[simp] theorem State.setTile_core_posts (x : TileS) : (s.setTile k x).core.posts = s.core.posts := rfl
@[simp] theorem State.setTile_core_lwDropped (x : TileS) : (s.setTile k x).core.lwDropped = s.core.lwDropped := rfl
@[simp] theorem State.clu_setTile (x : TileS) : (s.setTile k x).clu j = s.clu j := rfl
@[simp] theorem State.lclu_setTile (x : TileS) : (s.setTile k x).lclu j = s.lclu j := rfl
@[simp] theorem State.tslv_setTile (x : TileS) : (s.setTile k x).tslv j = s.tslv j := rfl
@[simp] theorem State.qslot_setTile (x : TileS) : (s.setTile k x).qslot j = s.qslot j := rfl
@[simp] theorem State.group_setTile (x : TileS) : (s.setTile k x).group j = s.group j := rfl
@[simp] theorem State.seg_setTile (x : TileS) : (s.setTile k x).seg j = s.seg j := rfl
@[simp] theorem State.sest_setTile (x : TileS) : (s.setTile k x).sest j = s.sest j := rfl
@[simp] theorem State.watch_setTile (x : TileS) : (s.setTile k x).watch j = s.watch j := rfl
@[simp] theorem State.stk_setTile (x : TileS) : (s.setTile k x).stk j = s.stk j := rfl
@[simp] theorem State.courier_setTile (x : TileS) : (s.setTile k x).courier j = s.courier j := rfl
@[simp] theorem State.port_setTile (x : TileS) : (s.setTile k x).port j = s.port j := rfl
@[simp] theorem State.box_setTile (x : TileS) : (s.setTile k x).box j = s.box j := rfl
@[simp] theorem State.strm_setTile (x : TileS) : (s.setTile k x).strm j = s.strm j := rfl
@[simp] theorem State.comm_setTile (x : TileS) : (s.setTile k x).comm j = s.comm j := rfl
@[simp] theorem State.op_setTile (x : TileS) : (s.setTile k x).op j = s.op j := rfl

/-! ## TileSlv -/

@[simp] theorem State.tslv_setTslv_same (x : TileSlv) : (s.setTslv k x).tslv k = x := kget_kset_same _ _ _ _
theorem State.tslv_setTslv_ne (x : TileSlv) (h : k ≠ j) : (s.setTslv k x).tslv j = s.tslv j := kget_kset_ne _ _ _ _ _ h
theorem State.tslv_setTslv (x : TileSlv) : (s.setTslv k x).tslv j = if k = j then x else s.tslv j := kget_kset _ _ _ _ _
@[simp] theorem State.setTslv_setTslv (x y : TileSlv) : (s.setTslv k x).setTslv k y = s.setTslv k y := by simp [State.setTslv]
@[simp] theorem State.setTslv_pending (x : TileSlv) : (s.setTslv k x).pending = s.pending := rfl
@[simp] theorem State.setTslv_time (x : TileSlv) : (s.setTslv k x).time = s.time := rfl
@[simp] theorem State.setTslv_store (x : TileSlv) : (s.setTslv k x).store = s.store := rfl
@[simp] theorem State.setTslv_ledger (x : TileSlv) : (s.setTslv k x).ledger = s.ledger := rfl
@[simp] theorem State.setTslv_streams (x : TileSlv) : (s.setTslv k x).streams = s.streams := rfl
@[simp] theorem State.setTslv_boxes (x : TileSlv) : (s.setTslv k x).boxes = s.boxes := rfl
@[simp] theorem State.setTslv_hif (x : TileSlv) : (s.setTslv k x).hif = s.hif := rfl
@[simp] theorem State.setTslv_ring (x : TileSlv) : (s.setTslv k x).ring = s.ring := rfl
@[simp] theorem State.setTslv_couriers (x : TileSlv) : (s.setTslv k x).couriers = s.couriers := rfl
@[simp] theorem State.setTslv_ports (x : TileSlv) : (s.setTslv k x).ports = s.ports := rfl
@[simp] theorem State.setTslv_fab (x : TileSlv) : (s.setTslv k x).fab = s.fab := rfl
@[simp] theorem State.setTslv_net (x : TileSlv) : (s.setTslv k x).net = s.net := rfl
@[simp] theorem State.setTslv_comms (x : TileSlv) : (s.setTslv k x).comms = s.comms := rfl
@[simp] theorem State.setTslv_bcast (x : TileSlv) : (s.setTslv k x).bcast = s.bcast := rfl
@[simp] theorem State.setTslv_image (x : TileSlv) : (s.setTslv k x).image = s.image := rfl
@[simp] theorem State.setTslv_access (x : TileSlv) : (s.setTslv k x).access = s.access := rfl
@[simp] theorem State.setTslv_boot (x : TileSlv) : (s.setTslv k x).boot = s.boot := rfl
@[simp] theorem State.setTslv_pins (x : TileSlv) : (s.setTslv k x).pins = s.pins := rfl
@[simp] theorem State.setTslv_chk (x : TileSlv) : (s.setTslv k x).chk = s.chk := rfl
@[simp] theorem State.setTslv_sec (x : TileSlv) : (s.setTslv k x).sec = s.sec := rfl
@[simp] theorem State.setTslv_power (x : TileSlv) : (s.setTslv k x).power = s.power := rfl
@[simp] theorem State.setTslv_prun (x : TileSlv) : (s.setTslv k x).prun = s.prun := rfl
@[simp] theorem State.setTslv_flash (x : TileSlv) : (s.setTslv k x).flash = s.flash := rfl
@[simp] theorem State.setTslv_due (x : TileSlv) : (s.setTslv k x).due = s.due := rfl
@[simp] theorem State.setTslv_latch (x : TileSlv) : (s.setTslv k x).latch = s.latch := rfl
@[simp] theorem State.setTslv_sent (x : TileSlv) : (s.setTslv k x).sent = s.sent := rfl
@[simp] theorem State.setTslv_free (x : TileSlv) : (s.setTslv k x).free = s.free := rfl
@[simp] theorem State.setTslv_core_clus (x : TileSlv) : (s.setTslv k x).core.clus = s.core.clus := rfl
@[simp] theorem State.setTslv_core_lclus (x : TileSlv) : (s.setTslv k x).core.lclus = s.core.lclus := rfl
@[simp] theorem State.setTslv_core_tiles (x : TileSlv) : (s.setTslv k x).core.tiles = s.core.tiles := rfl
@[simp] theorem State.setTslv_core_dead (x : TileSlv) : (s.setTslv k x).core.dead = s.core.dead := rfl
@[simp] theorem State.setTslv_core_holes (x : TileSlv) : (s.setTslv k x).core.holes = s.core.holes := rfl
@[simp] theorem State.setTslv_core_qs (x : TileSlv) : (s.setTslv k x).core.qs = s.core.qs := rfl
@[simp] theorem State.setTslv_core_qsPart (x : TileSlv) : (s.setTslv k x).core.qsPart = s.core.qsPart := rfl
@[simp] theorem State.setTslv_core_groups (x : TileSlv) : (s.setTslv k x).core.groups = s.core.groups := rfl
@[simp] theorem State.setTslv_core_se (x : TileSlv) : (s.setTslv k x).core.se = s.core.se := rfl
@[simp] theorem State.setTslv_core_seStack (x : TileSlv) : (s.setTslv k x).core.seStack = s.core.seStack := rfl
@[simp] theorem State.setTslv_core_watches (x : TileSlv) : (s.setTslv k x).core.watches = s.core.watches := rfl
@[simp] theorem State.setTslv_core_posts (x : TileSlv) : (s.setTslv k x).core.posts = s.core.posts := rfl
@[simp] theorem State.setTslv_core_lwDropped (x : TileSlv) : (s.setTslv k x).core.lwDropped = s.core.lwDropped := rfl
@[simp] theorem State.clu_setTslv (x : TileSlv) : (s.setTslv k x).clu j = s.clu j := rfl
@[simp] theorem State.lclu_setTslv (x : TileSlv) : (s.setTslv k x).lclu j = s.lclu j := rfl
@[simp] theorem State.tile_setTslv (x : TileSlv) : (s.setTslv k x).tile j = s.tile j := rfl
@[simp] theorem State.qslot_setTslv (x : TileSlv) : (s.setTslv k x).qslot j = s.qslot j := rfl
@[simp] theorem State.group_setTslv (x : TileSlv) : (s.setTslv k x).group j = s.group j := rfl
@[simp] theorem State.seg_setTslv (x : TileSlv) : (s.setTslv k x).seg j = s.seg j := rfl
@[simp] theorem State.sest_setTslv (x : TileSlv) : (s.setTslv k x).sest j = s.sest j := rfl
@[simp] theorem State.watch_setTslv (x : TileSlv) : (s.setTslv k x).watch j = s.watch j := rfl
@[simp] theorem State.stk_setTslv (x : TileSlv) : (s.setTslv k x).stk j = s.stk j := rfl
@[simp] theorem State.courier_setTslv (x : TileSlv) : (s.setTslv k x).courier j = s.courier j := rfl
@[simp] theorem State.port_setTslv (x : TileSlv) : (s.setTslv k x).port j = s.port j := rfl
@[simp] theorem State.box_setTslv (x : TileSlv) : (s.setTslv k x).box j = s.box j := rfl
@[simp] theorem State.strm_setTslv (x : TileSlv) : (s.setTslv k x).strm j = s.strm j := rfl
@[simp] theorem State.comm_setTslv (x : TileSlv) : (s.setTslv k x).comm j = s.comm j := rfl
@[simp] theorem State.op_setTslv (x : TileSlv) : (s.setTslv k x).op j = s.op j := rfl

/-! ## QsSlot -/

@[simp] theorem State.qslot_setQslot_same (x : QsSlot) : (s.setQslot k x).qslot k = x := kget_kset_same _ _ _ _
theorem State.qslot_setQslot_ne (x : QsSlot) (h : k ≠ j) : (s.setQslot k x).qslot j = s.qslot j := kget_kset_ne _ _ _ _ _ h
theorem State.qslot_setQslot (x : QsSlot) : (s.setQslot k x).qslot j = if k = j then x else s.qslot j := kget_kset _ _ _ _ _
@[simp] theorem State.setQslot_setQslot (x y : QsSlot) : (s.setQslot k x).setQslot k y = s.setQslot k y := by simp [State.setQslot]
@[simp] theorem State.setQslot_pending (x : QsSlot) : (s.setQslot k x).pending = s.pending := rfl
@[simp] theorem State.setQslot_time (x : QsSlot) : (s.setQslot k x).time = s.time := rfl
@[simp] theorem State.setQslot_store (x : QsSlot) : (s.setQslot k x).store = s.store := rfl
@[simp] theorem State.setQslot_ledger (x : QsSlot) : (s.setQslot k x).ledger = s.ledger := rfl
@[simp] theorem State.setQslot_streams (x : QsSlot) : (s.setQslot k x).streams = s.streams := rfl
@[simp] theorem State.setQslot_boxes (x : QsSlot) : (s.setQslot k x).boxes = s.boxes := rfl
@[simp] theorem State.setQslot_hif (x : QsSlot) : (s.setQslot k x).hif = s.hif := rfl
@[simp] theorem State.setQslot_ring (x : QsSlot) : (s.setQslot k x).ring = s.ring := rfl
@[simp] theorem State.setQslot_couriers (x : QsSlot) : (s.setQslot k x).couriers = s.couriers := rfl
@[simp] theorem State.setQslot_ports (x : QsSlot) : (s.setQslot k x).ports = s.ports := rfl
@[simp] theorem State.setQslot_fab (x : QsSlot) : (s.setQslot k x).fab = s.fab := rfl
@[simp] theorem State.setQslot_net (x : QsSlot) : (s.setQslot k x).net = s.net := rfl
@[simp] theorem State.setQslot_comms (x : QsSlot) : (s.setQslot k x).comms = s.comms := rfl
@[simp] theorem State.setQslot_bcast (x : QsSlot) : (s.setQslot k x).bcast = s.bcast := rfl
@[simp] theorem State.setQslot_image (x : QsSlot) : (s.setQslot k x).image = s.image := rfl
@[simp] theorem State.setQslot_access (x : QsSlot) : (s.setQslot k x).access = s.access := rfl
@[simp] theorem State.setQslot_boot (x : QsSlot) : (s.setQslot k x).boot = s.boot := rfl
@[simp] theorem State.setQslot_pins (x : QsSlot) : (s.setQslot k x).pins = s.pins := rfl
@[simp] theorem State.setQslot_chk (x : QsSlot) : (s.setQslot k x).chk = s.chk := rfl
@[simp] theorem State.setQslot_sec (x : QsSlot) : (s.setQslot k x).sec = s.sec := rfl
@[simp] theorem State.setQslot_power (x : QsSlot) : (s.setQslot k x).power = s.power := rfl
@[simp] theorem State.setQslot_prun (x : QsSlot) : (s.setQslot k x).prun = s.prun := rfl
@[simp] theorem State.setQslot_flash (x : QsSlot) : (s.setQslot k x).flash = s.flash := rfl
@[simp] theorem State.setQslot_due (x : QsSlot) : (s.setQslot k x).due = s.due := rfl
@[simp] theorem State.setQslot_latch (x : QsSlot) : (s.setQslot k x).latch = s.latch := rfl
@[simp] theorem State.setQslot_sent (x : QsSlot) : (s.setQslot k x).sent = s.sent := rfl
@[simp] theorem State.setQslot_free (x : QsSlot) : (s.setQslot k x).free = s.free := rfl
@[simp] theorem State.setQslot_core_clus (x : QsSlot) : (s.setQslot k x).core.clus = s.core.clus := rfl
@[simp] theorem State.setQslot_core_lclus (x : QsSlot) : (s.setQslot k x).core.lclus = s.core.lclus := rfl
@[simp] theorem State.setQslot_core_tiles (x : QsSlot) : (s.setQslot k x).core.tiles = s.core.tiles := rfl
@[simp] theorem State.setQslot_core_tileSlv (x : QsSlot) : (s.setQslot k x).core.tileSlv = s.core.tileSlv := rfl
@[simp] theorem State.setQslot_core_dead (x : QsSlot) : (s.setQslot k x).core.dead = s.core.dead := rfl
@[simp] theorem State.setQslot_core_holes (x : QsSlot) : (s.setQslot k x).core.holes = s.core.holes := rfl
@[simp] theorem State.setQslot_core_qsPart (x : QsSlot) : (s.setQslot k x).core.qsPart = s.core.qsPart := rfl
@[simp] theorem State.setQslot_core_groups (x : QsSlot) : (s.setQslot k x).core.groups = s.core.groups := rfl
@[simp] theorem State.setQslot_core_se (x : QsSlot) : (s.setQslot k x).core.se = s.core.se := rfl
@[simp] theorem State.setQslot_core_seStack (x : QsSlot) : (s.setQslot k x).core.seStack = s.core.seStack := rfl
@[simp] theorem State.setQslot_core_watches (x : QsSlot) : (s.setQslot k x).core.watches = s.core.watches := rfl
@[simp] theorem State.setQslot_core_posts (x : QsSlot) : (s.setQslot k x).core.posts = s.core.posts := rfl
@[simp] theorem State.setQslot_core_lwDropped (x : QsSlot) : (s.setQslot k x).core.lwDropped = s.core.lwDropped := rfl
@[simp] theorem State.clu_setQslot (x : QsSlot) : (s.setQslot k x).clu j = s.clu j := rfl
@[simp] theorem State.lclu_setQslot (x : QsSlot) : (s.setQslot k x).lclu j = s.lclu j := rfl
@[simp] theorem State.tile_setQslot (x : QsSlot) : (s.setQslot k x).tile j = s.tile j := rfl
@[simp] theorem State.tslv_setQslot (x : QsSlot) : (s.setQslot k x).tslv j = s.tslv j := rfl
@[simp] theorem State.group_setQslot (x : QsSlot) : (s.setQslot k x).group j = s.group j := rfl
@[simp] theorem State.seg_setQslot (x : QsSlot) : (s.setQslot k x).seg j = s.seg j := rfl
@[simp] theorem State.sest_setQslot (x : QsSlot) : (s.setQslot k x).sest j = s.sest j := rfl
@[simp] theorem State.watch_setQslot (x : QsSlot) : (s.setQslot k x).watch j = s.watch j := rfl
@[simp] theorem State.stk_setQslot (x : QsSlot) : (s.setQslot k x).stk j = s.stk j := rfl
@[simp] theorem State.courier_setQslot (x : QsSlot) : (s.setQslot k x).courier j = s.courier j := rfl
@[simp] theorem State.port_setQslot (x : QsSlot) : (s.setQslot k x).port j = s.port j := rfl
@[simp] theorem State.box_setQslot (x : QsSlot) : (s.setQslot k x).box j = s.box j := rfl
@[simp] theorem State.strm_setQslot (x : QsSlot) : (s.setQslot k x).strm j = s.strm j := rfl
@[simp] theorem State.comm_setQslot (x : QsSlot) : (s.setQslot k x).comm j = s.comm j := rfl
@[simp] theorem State.op_setQslot (x : QsSlot) : (s.setQslot k x).op j = s.op j := rfl

/-! ## SolverGrp -/

@[simp] theorem State.group_setGroup_same (x : SolverGrp) : (s.setGroup k x).group k = x := kget_kset_same _ _ _ _
theorem State.group_setGroup_ne (x : SolverGrp) (h : k ≠ j) : (s.setGroup k x).group j = s.group j := kget_kset_ne _ _ _ _ _ h
theorem State.group_setGroup (x : SolverGrp) : (s.setGroup k x).group j = if k = j then x else s.group j := kget_kset _ _ _ _ _
@[simp] theorem State.setGroup_setGroup (x y : SolverGrp) : (s.setGroup k x).setGroup k y = s.setGroup k y := by simp [State.setGroup]
@[simp] theorem State.setGroup_pending (x : SolverGrp) : (s.setGroup k x).pending = s.pending := rfl
@[simp] theorem State.setGroup_time (x : SolverGrp) : (s.setGroup k x).time = s.time := rfl
@[simp] theorem State.setGroup_store (x : SolverGrp) : (s.setGroup k x).store = s.store := rfl
@[simp] theorem State.setGroup_ledger (x : SolverGrp) : (s.setGroup k x).ledger = s.ledger := rfl
@[simp] theorem State.setGroup_streams (x : SolverGrp) : (s.setGroup k x).streams = s.streams := rfl
@[simp] theorem State.setGroup_boxes (x : SolverGrp) : (s.setGroup k x).boxes = s.boxes := rfl
@[simp] theorem State.setGroup_hif (x : SolverGrp) : (s.setGroup k x).hif = s.hif := rfl
@[simp] theorem State.setGroup_ring (x : SolverGrp) : (s.setGroup k x).ring = s.ring := rfl
@[simp] theorem State.setGroup_couriers (x : SolverGrp) : (s.setGroup k x).couriers = s.couriers := rfl
@[simp] theorem State.setGroup_ports (x : SolverGrp) : (s.setGroup k x).ports = s.ports := rfl
@[simp] theorem State.setGroup_fab (x : SolverGrp) : (s.setGroup k x).fab = s.fab := rfl
@[simp] theorem State.setGroup_net (x : SolverGrp) : (s.setGroup k x).net = s.net := rfl
@[simp] theorem State.setGroup_comms (x : SolverGrp) : (s.setGroup k x).comms = s.comms := rfl
@[simp] theorem State.setGroup_bcast (x : SolverGrp) : (s.setGroup k x).bcast = s.bcast := rfl
@[simp] theorem State.setGroup_image (x : SolverGrp) : (s.setGroup k x).image = s.image := rfl
@[simp] theorem State.setGroup_access (x : SolverGrp) : (s.setGroup k x).access = s.access := rfl
@[simp] theorem State.setGroup_boot (x : SolverGrp) : (s.setGroup k x).boot = s.boot := rfl
@[simp] theorem State.setGroup_pins (x : SolverGrp) : (s.setGroup k x).pins = s.pins := rfl
@[simp] theorem State.setGroup_chk (x : SolverGrp) : (s.setGroup k x).chk = s.chk := rfl
@[simp] theorem State.setGroup_sec (x : SolverGrp) : (s.setGroup k x).sec = s.sec := rfl
@[simp] theorem State.setGroup_power (x : SolverGrp) : (s.setGroup k x).power = s.power := rfl
@[simp] theorem State.setGroup_prun (x : SolverGrp) : (s.setGroup k x).prun = s.prun := rfl
@[simp] theorem State.setGroup_flash (x : SolverGrp) : (s.setGroup k x).flash = s.flash := rfl
@[simp] theorem State.setGroup_due (x : SolverGrp) : (s.setGroup k x).due = s.due := rfl
@[simp] theorem State.setGroup_latch (x : SolverGrp) : (s.setGroup k x).latch = s.latch := rfl
@[simp] theorem State.setGroup_sent (x : SolverGrp) : (s.setGroup k x).sent = s.sent := rfl
@[simp] theorem State.setGroup_free (x : SolverGrp) : (s.setGroup k x).free = s.free := rfl
@[simp] theorem State.setGroup_core_clus (x : SolverGrp) : (s.setGroup k x).core.clus = s.core.clus := rfl
@[simp] theorem State.setGroup_core_lclus (x : SolverGrp) : (s.setGroup k x).core.lclus = s.core.lclus := rfl
@[simp] theorem State.setGroup_core_tiles (x : SolverGrp) : (s.setGroup k x).core.tiles = s.core.tiles := rfl
@[simp] theorem State.setGroup_core_tileSlv (x : SolverGrp) : (s.setGroup k x).core.tileSlv = s.core.tileSlv := rfl
@[simp] theorem State.setGroup_core_dead (x : SolverGrp) : (s.setGroup k x).core.dead = s.core.dead := rfl
@[simp] theorem State.setGroup_core_holes (x : SolverGrp) : (s.setGroup k x).core.holes = s.core.holes := rfl
@[simp] theorem State.setGroup_core_qs (x : SolverGrp) : (s.setGroup k x).core.qs = s.core.qs := rfl
@[simp] theorem State.setGroup_core_qsPart (x : SolverGrp) : (s.setGroup k x).core.qsPart = s.core.qsPart := rfl
@[simp] theorem State.setGroup_core_se (x : SolverGrp) : (s.setGroup k x).core.se = s.core.se := rfl
@[simp] theorem State.setGroup_core_seStack (x : SolverGrp) : (s.setGroup k x).core.seStack = s.core.seStack := rfl
@[simp] theorem State.setGroup_core_watches (x : SolverGrp) : (s.setGroup k x).core.watches = s.core.watches := rfl
@[simp] theorem State.setGroup_core_posts (x : SolverGrp) : (s.setGroup k x).core.posts = s.core.posts := rfl
@[simp] theorem State.setGroup_core_lwDropped (x : SolverGrp) : (s.setGroup k x).core.lwDropped = s.core.lwDropped := rfl
@[simp] theorem State.clu_setGroup (x : SolverGrp) : (s.setGroup k x).clu j = s.clu j := rfl
@[simp] theorem State.lclu_setGroup (x : SolverGrp) : (s.setGroup k x).lclu j = s.lclu j := rfl
@[simp] theorem State.tile_setGroup (x : SolverGrp) : (s.setGroup k x).tile j = s.tile j := rfl
@[simp] theorem State.tslv_setGroup (x : SolverGrp) : (s.setGroup k x).tslv j = s.tslv j := rfl
@[simp] theorem State.qslot_setGroup (x : SolverGrp) : (s.setGroup k x).qslot j = s.qslot j := rfl
@[simp] theorem State.seg_setGroup (x : SolverGrp) : (s.setGroup k x).seg j = s.seg j := rfl
@[simp] theorem State.sest_setGroup (x : SolverGrp) : (s.setGroup k x).sest j = s.sest j := rfl
@[simp] theorem State.watch_setGroup (x : SolverGrp) : (s.setGroup k x).watch j = s.watch j := rfl
@[simp] theorem State.stk_setGroup (x : SolverGrp) : (s.setGroup k x).stk j = s.stk j := rfl
@[simp] theorem State.courier_setGroup (x : SolverGrp) : (s.setGroup k x).courier j = s.courier j := rfl
@[simp] theorem State.port_setGroup (x : SolverGrp) : (s.setGroup k x).port j = s.port j := rfl
@[simp] theorem State.box_setGroup (x : SolverGrp) : (s.setGroup k x).box j = s.box j := rfl
@[simp] theorem State.strm_setGroup (x : SolverGrp) : (s.setGroup k x).strm j = s.strm j := rfl
@[simp] theorem State.comm_setGroup (x : SolverGrp) : (s.setGroup k x).comm j = s.comm j := rfl
@[simp] theorem State.op_setGroup (x : SolverGrp) : (s.setGroup k x).op j = s.op j := rfl

/-! ## SeGroup -/

@[simp] theorem State.seg_setSeg_same (x : SeGroup) : (s.setSeg k x).seg k = x := kget_kset_same _ _ _ _
theorem State.seg_setSeg_ne (x : SeGroup) (h : k ≠ j) : (s.setSeg k x).seg j = s.seg j := kget_kset_ne _ _ _ _ _ h
theorem State.seg_setSeg (x : SeGroup) : (s.setSeg k x).seg j = if k = j then x else s.seg j := kget_kset _ _ _ _ _
@[simp] theorem State.setSeg_setSeg (x y : SeGroup) : (s.setSeg k x).setSeg k y = s.setSeg k y := by simp [State.setSeg]
@[simp] theorem State.setSeg_pending (x : SeGroup) : (s.setSeg k x).pending = s.pending := rfl
@[simp] theorem State.setSeg_time (x : SeGroup) : (s.setSeg k x).time = s.time := rfl
@[simp] theorem State.setSeg_store (x : SeGroup) : (s.setSeg k x).store = s.store := rfl
@[simp] theorem State.setSeg_ledger (x : SeGroup) : (s.setSeg k x).ledger = s.ledger := rfl
@[simp] theorem State.setSeg_streams (x : SeGroup) : (s.setSeg k x).streams = s.streams := rfl
@[simp] theorem State.setSeg_boxes (x : SeGroup) : (s.setSeg k x).boxes = s.boxes := rfl
@[simp] theorem State.setSeg_hif (x : SeGroup) : (s.setSeg k x).hif = s.hif := rfl
@[simp] theorem State.setSeg_ring (x : SeGroup) : (s.setSeg k x).ring = s.ring := rfl
@[simp] theorem State.setSeg_couriers (x : SeGroup) : (s.setSeg k x).couriers = s.couriers := rfl
@[simp] theorem State.setSeg_ports (x : SeGroup) : (s.setSeg k x).ports = s.ports := rfl
@[simp] theorem State.setSeg_fab (x : SeGroup) : (s.setSeg k x).fab = s.fab := rfl
@[simp] theorem State.setSeg_net (x : SeGroup) : (s.setSeg k x).net = s.net := rfl
@[simp] theorem State.setSeg_comms (x : SeGroup) : (s.setSeg k x).comms = s.comms := rfl
@[simp] theorem State.setSeg_bcast (x : SeGroup) : (s.setSeg k x).bcast = s.bcast := rfl
@[simp] theorem State.setSeg_image (x : SeGroup) : (s.setSeg k x).image = s.image := rfl
@[simp] theorem State.setSeg_access (x : SeGroup) : (s.setSeg k x).access = s.access := rfl
@[simp] theorem State.setSeg_boot (x : SeGroup) : (s.setSeg k x).boot = s.boot := rfl
@[simp] theorem State.setSeg_pins (x : SeGroup) : (s.setSeg k x).pins = s.pins := rfl
@[simp] theorem State.setSeg_chk (x : SeGroup) : (s.setSeg k x).chk = s.chk := rfl
@[simp] theorem State.setSeg_sec (x : SeGroup) : (s.setSeg k x).sec = s.sec := rfl
@[simp] theorem State.setSeg_power (x : SeGroup) : (s.setSeg k x).power = s.power := rfl
@[simp] theorem State.setSeg_prun (x : SeGroup) : (s.setSeg k x).prun = s.prun := rfl
@[simp] theorem State.setSeg_flash (x : SeGroup) : (s.setSeg k x).flash = s.flash := rfl
@[simp] theorem State.setSeg_due (x : SeGroup) : (s.setSeg k x).due = s.due := rfl
@[simp] theorem State.setSeg_latch (x : SeGroup) : (s.setSeg k x).latch = s.latch := rfl
@[simp] theorem State.setSeg_sent (x : SeGroup) : (s.setSeg k x).sent = s.sent := rfl
@[simp] theorem State.setSeg_free (x : SeGroup) : (s.setSeg k x).free = s.free := rfl
@[simp] theorem State.setSeg_core_clus (x : SeGroup) : (s.setSeg k x).core.clus = s.core.clus := rfl
@[simp] theorem State.setSeg_core_lclus (x : SeGroup) : (s.setSeg k x).core.lclus = s.core.lclus := rfl
@[simp] theorem State.setSeg_core_tiles (x : SeGroup) : (s.setSeg k x).core.tiles = s.core.tiles := rfl
@[simp] theorem State.setSeg_core_tileSlv (x : SeGroup) : (s.setSeg k x).core.tileSlv = s.core.tileSlv := rfl
@[simp] theorem State.setSeg_core_dead (x : SeGroup) : (s.setSeg k x).core.dead = s.core.dead := rfl
@[simp] theorem State.setSeg_core_holes (x : SeGroup) : (s.setSeg k x).core.holes = s.core.holes := rfl
@[simp] theorem State.setSeg_core_qs (x : SeGroup) : (s.setSeg k x).core.qs = s.core.qs := rfl
@[simp] theorem State.setSeg_core_qsPart (x : SeGroup) : (s.setSeg k x).core.qsPart = s.core.qsPart := rfl
@[simp] theorem State.setSeg_core_groups (x : SeGroup) : (s.setSeg k x).core.groups = s.core.groups := rfl
@[simp] theorem State.setSeg_core_seStack (x : SeGroup) : (s.setSeg k x).core.seStack = s.core.seStack := rfl
@[simp] theorem State.setSeg_core_watches (x : SeGroup) : (s.setSeg k x).core.watches = s.core.watches := rfl
@[simp] theorem State.setSeg_core_posts (x : SeGroup) : (s.setSeg k x).core.posts = s.core.posts := rfl
@[simp] theorem State.setSeg_core_lwDropped (x : SeGroup) : (s.setSeg k x).core.lwDropped = s.core.lwDropped := rfl
@[simp] theorem State.clu_setSeg (x : SeGroup) : (s.setSeg k x).clu j = s.clu j := rfl
@[simp] theorem State.lclu_setSeg (x : SeGroup) : (s.setSeg k x).lclu j = s.lclu j := rfl
@[simp] theorem State.tile_setSeg (x : SeGroup) : (s.setSeg k x).tile j = s.tile j := rfl
@[simp] theorem State.tslv_setSeg (x : SeGroup) : (s.setSeg k x).tslv j = s.tslv j := rfl
@[simp] theorem State.qslot_setSeg (x : SeGroup) : (s.setSeg k x).qslot j = s.qslot j := rfl
@[simp] theorem State.group_setSeg (x : SeGroup) : (s.setSeg k x).group j = s.group j := rfl
@[simp] theorem State.sest_setSeg (x : SeGroup) : (s.setSeg k x).sest j = s.sest j := rfl
@[simp] theorem State.watch_setSeg (x : SeGroup) : (s.setSeg k x).watch j = s.watch j := rfl
@[simp] theorem State.stk_setSeg (x : SeGroup) : (s.setSeg k x).stk j = s.stk j := rfl
@[simp] theorem State.courier_setSeg (x : SeGroup) : (s.setSeg k x).courier j = s.courier j := rfl
@[simp] theorem State.port_setSeg (x : SeGroup) : (s.setSeg k x).port j = s.port j := rfl
@[simp] theorem State.box_setSeg (x : SeGroup) : (s.setSeg k x).box j = s.box j := rfl
@[simp] theorem State.strm_setSeg (x : SeGroup) : (s.setSeg k x).strm j = s.strm j := rfl
@[simp] theorem State.comm_setSeg (x : SeGroup) : (s.setSeg k x).comm j = s.comm j := rfl
@[simp] theorem State.op_setSeg (x : SeGroup) : (s.setSeg k x).op j = s.op j := rfl

/-! ## SeStack -/

@[simp] theorem State.sest_setSest_same (x : SeStack) : (s.setSest k x).sest k = x := kget_kset_same _ _ _ _
theorem State.sest_setSest_ne (x : SeStack) (h : k ≠ j) : (s.setSest k x).sest j = s.sest j := kget_kset_ne _ _ _ _ _ h
theorem State.sest_setSest (x : SeStack) : (s.setSest k x).sest j = if k = j then x else s.sest j := kget_kset _ _ _ _ _
@[simp] theorem State.setSest_setSest (x y : SeStack) : (s.setSest k x).setSest k y = s.setSest k y := by simp [State.setSest]
@[simp] theorem State.setSest_pending (x : SeStack) : (s.setSest k x).pending = s.pending := rfl
@[simp] theorem State.setSest_time (x : SeStack) : (s.setSest k x).time = s.time := rfl
@[simp] theorem State.setSest_store (x : SeStack) : (s.setSest k x).store = s.store := rfl
@[simp] theorem State.setSest_ledger (x : SeStack) : (s.setSest k x).ledger = s.ledger := rfl
@[simp] theorem State.setSest_streams (x : SeStack) : (s.setSest k x).streams = s.streams := rfl
@[simp] theorem State.setSest_boxes (x : SeStack) : (s.setSest k x).boxes = s.boxes := rfl
@[simp] theorem State.setSest_hif (x : SeStack) : (s.setSest k x).hif = s.hif := rfl
@[simp] theorem State.setSest_ring (x : SeStack) : (s.setSest k x).ring = s.ring := rfl
@[simp] theorem State.setSest_couriers (x : SeStack) : (s.setSest k x).couriers = s.couriers := rfl
@[simp] theorem State.setSest_ports (x : SeStack) : (s.setSest k x).ports = s.ports := rfl
@[simp] theorem State.setSest_fab (x : SeStack) : (s.setSest k x).fab = s.fab := rfl
@[simp] theorem State.setSest_net (x : SeStack) : (s.setSest k x).net = s.net := rfl
@[simp] theorem State.setSest_comms (x : SeStack) : (s.setSest k x).comms = s.comms := rfl
@[simp] theorem State.setSest_bcast (x : SeStack) : (s.setSest k x).bcast = s.bcast := rfl
@[simp] theorem State.setSest_image (x : SeStack) : (s.setSest k x).image = s.image := rfl
@[simp] theorem State.setSest_access (x : SeStack) : (s.setSest k x).access = s.access := rfl
@[simp] theorem State.setSest_boot (x : SeStack) : (s.setSest k x).boot = s.boot := rfl
@[simp] theorem State.setSest_pins (x : SeStack) : (s.setSest k x).pins = s.pins := rfl
@[simp] theorem State.setSest_chk (x : SeStack) : (s.setSest k x).chk = s.chk := rfl
@[simp] theorem State.setSest_sec (x : SeStack) : (s.setSest k x).sec = s.sec := rfl
@[simp] theorem State.setSest_power (x : SeStack) : (s.setSest k x).power = s.power := rfl
@[simp] theorem State.setSest_prun (x : SeStack) : (s.setSest k x).prun = s.prun := rfl
@[simp] theorem State.setSest_flash (x : SeStack) : (s.setSest k x).flash = s.flash := rfl
@[simp] theorem State.setSest_due (x : SeStack) : (s.setSest k x).due = s.due := rfl
@[simp] theorem State.setSest_latch (x : SeStack) : (s.setSest k x).latch = s.latch := rfl
@[simp] theorem State.setSest_sent (x : SeStack) : (s.setSest k x).sent = s.sent := rfl
@[simp] theorem State.setSest_free (x : SeStack) : (s.setSest k x).free = s.free := rfl
@[simp] theorem State.setSest_core_clus (x : SeStack) : (s.setSest k x).core.clus = s.core.clus := rfl
@[simp] theorem State.setSest_core_lclus (x : SeStack) : (s.setSest k x).core.lclus = s.core.lclus := rfl
@[simp] theorem State.setSest_core_tiles (x : SeStack) : (s.setSest k x).core.tiles = s.core.tiles := rfl
@[simp] theorem State.setSest_core_tileSlv (x : SeStack) : (s.setSest k x).core.tileSlv = s.core.tileSlv := rfl
@[simp] theorem State.setSest_core_dead (x : SeStack) : (s.setSest k x).core.dead = s.core.dead := rfl
@[simp] theorem State.setSest_core_holes (x : SeStack) : (s.setSest k x).core.holes = s.core.holes := rfl
@[simp] theorem State.setSest_core_qs (x : SeStack) : (s.setSest k x).core.qs = s.core.qs := rfl
@[simp] theorem State.setSest_core_qsPart (x : SeStack) : (s.setSest k x).core.qsPart = s.core.qsPart := rfl
@[simp] theorem State.setSest_core_groups (x : SeStack) : (s.setSest k x).core.groups = s.core.groups := rfl
@[simp] theorem State.setSest_core_se (x : SeStack) : (s.setSest k x).core.se = s.core.se := rfl
@[simp] theorem State.setSest_core_watches (x : SeStack) : (s.setSest k x).core.watches = s.core.watches := rfl
@[simp] theorem State.setSest_core_posts (x : SeStack) : (s.setSest k x).core.posts = s.core.posts := rfl
@[simp] theorem State.setSest_core_lwDropped (x : SeStack) : (s.setSest k x).core.lwDropped = s.core.lwDropped := rfl
@[simp] theorem State.clu_setSest (x : SeStack) : (s.setSest k x).clu j = s.clu j := rfl
@[simp] theorem State.lclu_setSest (x : SeStack) : (s.setSest k x).lclu j = s.lclu j := rfl
@[simp] theorem State.tile_setSest (x : SeStack) : (s.setSest k x).tile j = s.tile j := rfl
@[simp] theorem State.tslv_setSest (x : SeStack) : (s.setSest k x).tslv j = s.tslv j := rfl
@[simp] theorem State.qslot_setSest (x : SeStack) : (s.setSest k x).qslot j = s.qslot j := rfl
@[simp] theorem State.group_setSest (x : SeStack) : (s.setSest k x).group j = s.group j := rfl
@[simp] theorem State.seg_setSest (x : SeStack) : (s.setSest k x).seg j = s.seg j := rfl
@[simp] theorem State.watch_setSest (x : SeStack) : (s.setSest k x).watch j = s.watch j := rfl
@[simp] theorem State.stk_setSest (x : SeStack) : (s.setSest k x).stk j = s.stk j := rfl
@[simp] theorem State.courier_setSest (x : SeStack) : (s.setSest k x).courier j = s.courier j := rfl
@[simp] theorem State.port_setSest (x : SeStack) : (s.setSest k x).port j = s.port j := rfl
@[simp] theorem State.box_setSest (x : SeStack) : (s.setSest k x).box j = s.box j := rfl
@[simp] theorem State.strm_setSest (x : SeStack) : (s.setSest k x).strm j = s.strm j := rfl
@[simp] theorem State.comm_setSest (x : SeStack) : (s.setSest k x).comm j = s.comm j := rfl
@[simp] theorem State.op_setSest (x : SeStack) : (s.setSest k x).op j = s.op j := rfl

/-! ## Watch -/

@[simp] theorem State.watch_setWatch_same (x : Watch) : (s.setWatch k x).watch k = x := kget_kset_same _ _ _ _
theorem State.watch_setWatch_ne (x : Watch) (h : k ≠ j) : (s.setWatch k x).watch j = s.watch j := kget_kset_ne _ _ _ _ _ h
theorem State.watch_setWatch (x : Watch) : (s.setWatch k x).watch j = if k = j then x else s.watch j := kget_kset _ _ _ _ _
@[simp] theorem State.setWatch_setWatch (x y : Watch) : (s.setWatch k x).setWatch k y = s.setWatch k y := by simp [State.setWatch]
@[simp] theorem State.setWatch_pending (x : Watch) : (s.setWatch k x).pending = s.pending := rfl
@[simp] theorem State.setWatch_time (x : Watch) : (s.setWatch k x).time = s.time := rfl
@[simp] theorem State.setWatch_store (x : Watch) : (s.setWatch k x).store = s.store := rfl
@[simp] theorem State.setWatch_ledger (x : Watch) : (s.setWatch k x).ledger = s.ledger := rfl
@[simp] theorem State.setWatch_streams (x : Watch) : (s.setWatch k x).streams = s.streams := rfl
@[simp] theorem State.setWatch_boxes (x : Watch) : (s.setWatch k x).boxes = s.boxes := rfl
@[simp] theorem State.setWatch_hif (x : Watch) : (s.setWatch k x).hif = s.hif := rfl
@[simp] theorem State.setWatch_ring (x : Watch) : (s.setWatch k x).ring = s.ring := rfl
@[simp] theorem State.setWatch_couriers (x : Watch) : (s.setWatch k x).couriers = s.couriers := rfl
@[simp] theorem State.setWatch_ports (x : Watch) : (s.setWatch k x).ports = s.ports := rfl
@[simp] theorem State.setWatch_fab (x : Watch) : (s.setWatch k x).fab = s.fab := rfl
@[simp] theorem State.setWatch_net (x : Watch) : (s.setWatch k x).net = s.net := rfl
@[simp] theorem State.setWatch_comms (x : Watch) : (s.setWatch k x).comms = s.comms := rfl
@[simp] theorem State.setWatch_bcast (x : Watch) : (s.setWatch k x).bcast = s.bcast := rfl
@[simp] theorem State.setWatch_image (x : Watch) : (s.setWatch k x).image = s.image := rfl
@[simp] theorem State.setWatch_access (x : Watch) : (s.setWatch k x).access = s.access := rfl
@[simp] theorem State.setWatch_boot (x : Watch) : (s.setWatch k x).boot = s.boot := rfl
@[simp] theorem State.setWatch_pins (x : Watch) : (s.setWatch k x).pins = s.pins := rfl
@[simp] theorem State.setWatch_chk (x : Watch) : (s.setWatch k x).chk = s.chk := rfl
@[simp] theorem State.setWatch_sec (x : Watch) : (s.setWatch k x).sec = s.sec := rfl
@[simp] theorem State.setWatch_power (x : Watch) : (s.setWatch k x).power = s.power := rfl
@[simp] theorem State.setWatch_prun (x : Watch) : (s.setWatch k x).prun = s.prun := rfl
@[simp] theorem State.setWatch_flash (x : Watch) : (s.setWatch k x).flash = s.flash := rfl
@[simp] theorem State.setWatch_due (x : Watch) : (s.setWatch k x).due = s.due := rfl
@[simp] theorem State.setWatch_latch (x : Watch) : (s.setWatch k x).latch = s.latch := rfl
@[simp] theorem State.setWatch_sent (x : Watch) : (s.setWatch k x).sent = s.sent := rfl
@[simp] theorem State.setWatch_free (x : Watch) : (s.setWatch k x).free = s.free := rfl
@[simp] theorem State.setWatch_core_clus (x : Watch) : (s.setWatch k x).core.clus = s.core.clus := rfl
@[simp] theorem State.setWatch_core_lclus (x : Watch) : (s.setWatch k x).core.lclus = s.core.lclus := rfl
@[simp] theorem State.setWatch_core_tiles (x : Watch) : (s.setWatch k x).core.tiles = s.core.tiles := rfl
@[simp] theorem State.setWatch_core_tileSlv (x : Watch) : (s.setWatch k x).core.tileSlv = s.core.tileSlv := rfl
@[simp] theorem State.setWatch_core_dead (x : Watch) : (s.setWatch k x).core.dead = s.core.dead := rfl
@[simp] theorem State.setWatch_core_holes (x : Watch) : (s.setWatch k x).core.holes = s.core.holes := rfl
@[simp] theorem State.setWatch_core_qs (x : Watch) : (s.setWatch k x).core.qs = s.core.qs := rfl
@[simp] theorem State.setWatch_core_qsPart (x : Watch) : (s.setWatch k x).core.qsPart = s.core.qsPart := rfl
@[simp] theorem State.setWatch_core_groups (x : Watch) : (s.setWatch k x).core.groups = s.core.groups := rfl
@[simp] theorem State.setWatch_core_se (x : Watch) : (s.setWatch k x).core.se = s.core.se := rfl
@[simp] theorem State.setWatch_core_seStack (x : Watch) : (s.setWatch k x).core.seStack = s.core.seStack := rfl
@[simp] theorem State.setWatch_core_posts (x : Watch) : (s.setWatch k x).core.posts = s.core.posts := rfl
@[simp] theorem State.setWatch_core_lwDropped (x : Watch) : (s.setWatch k x).core.lwDropped = s.core.lwDropped := rfl
@[simp] theorem State.clu_setWatch (x : Watch) : (s.setWatch k x).clu j = s.clu j := rfl
@[simp] theorem State.lclu_setWatch (x : Watch) : (s.setWatch k x).lclu j = s.lclu j := rfl
@[simp] theorem State.tile_setWatch (x : Watch) : (s.setWatch k x).tile j = s.tile j := rfl
@[simp] theorem State.tslv_setWatch (x : Watch) : (s.setWatch k x).tslv j = s.tslv j := rfl
@[simp] theorem State.qslot_setWatch (x : Watch) : (s.setWatch k x).qslot j = s.qslot j := rfl
@[simp] theorem State.group_setWatch (x : Watch) : (s.setWatch k x).group j = s.group j := rfl
@[simp] theorem State.seg_setWatch (x : Watch) : (s.setWatch k x).seg j = s.seg j := rfl
@[simp] theorem State.sest_setWatch (x : Watch) : (s.setWatch k x).sest j = s.sest j := rfl
@[simp] theorem State.stk_setWatch (x : Watch) : (s.setWatch k x).stk j = s.stk j := rfl
@[simp] theorem State.courier_setWatch (x : Watch) : (s.setWatch k x).courier j = s.courier j := rfl
@[simp] theorem State.port_setWatch (x : Watch) : (s.setWatch k x).port j = s.port j := rfl
@[simp] theorem State.box_setWatch (x : Watch) : (s.setWatch k x).box j = s.box j := rfl
@[simp] theorem State.strm_setWatch (x : Watch) : (s.setWatch k x).strm j = s.strm j := rfl
@[simp] theorem State.comm_setWatch (x : Watch) : (s.setWatch k x).comm j = s.comm j := rfl
@[simp] theorem State.op_setWatch (x : Watch) : (s.setWatch k x).op j = s.op j := rfl

/-! ## StackS -/

@[simp] theorem State.stk_setStk_same (x : StackS) : (s.setStk k x).stk k = x := kget_kset_same _ _ _ _
theorem State.stk_setStk_ne (x : StackS) (h : k ≠ j) : (s.setStk k x).stk j = s.stk j := kget_kset_ne _ _ _ _ _ h
theorem State.stk_setStk (x : StackS) : (s.setStk k x).stk j = if k = j then x else s.stk j := kget_kset _ _ _ _ _
@[simp] theorem State.setStk_setStk (x y : StackS) : (s.setStk k x).setStk k y = s.setStk k y := by simp [State.setStk]
@[simp] theorem State.setStk_pending (x : StackS) : (s.setStk k x).pending = s.pending := rfl
@[simp] theorem State.setStk_time (x : StackS) : (s.setStk k x).time = s.time := rfl
@[simp] theorem State.setStk_core (x : StackS) : (s.setStk k x).core = s.core := rfl
@[simp] theorem State.setStk_ledger (x : StackS) : (s.setStk k x).ledger = s.ledger := rfl
@[simp] theorem State.setStk_streams (x : StackS) : (s.setStk k x).streams = s.streams := rfl
@[simp] theorem State.setStk_boxes (x : StackS) : (s.setStk k x).boxes = s.boxes := rfl
@[simp] theorem State.setStk_hif (x : StackS) : (s.setStk k x).hif = s.hif := rfl
@[simp] theorem State.setStk_ring (x : StackS) : (s.setStk k x).ring = s.ring := rfl
@[simp] theorem State.setStk_couriers (x : StackS) : (s.setStk k x).couriers = s.couriers := rfl
@[simp] theorem State.setStk_ports (x : StackS) : (s.setStk k x).ports = s.ports := rfl
@[simp] theorem State.setStk_fab (x : StackS) : (s.setStk k x).fab = s.fab := rfl
@[simp] theorem State.setStk_net (x : StackS) : (s.setStk k x).net = s.net := rfl
@[simp] theorem State.setStk_comms (x : StackS) : (s.setStk k x).comms = s.comms := rfl
@[simp] theorem State.setStk_bcast (x : StackS) : (s.setStk k x).bcast = s.bcast := rfl
@[simp] theorem State.setStk_image (x : StackS) : (s.setStk k x).image = s.image := rfl
@[simp] theorem State.setStk_access (x : StackS) : (s.setStk k x).access = s.access := rfl
@[simp] theorem State.setStk_boot (x : StackS) : (s.setStk k x).boot = s.boot := rfl
@[simp] theorem State.setStk_pins (x : StackS) : (s.setStk k x).pins = s.pins := rfl
@[simp] theorem State.setStk_chk (x : StackS) : (s.setStk k x).chk = s.chk := rfl
@[simp] theorem State.setStk_sec (x : StackS) : (s.setStk k x).sec = s.sec := rfl
@[simp] theorem State.setStk_power (x : StackS) : (s.setStk k x).power = s.power := rfl
@[simp] theorem State.setStk_prun (x : StackS) : (s.setStk k x).prun = s.prun := rfl
@[simp] theorem State.setStk_flash (x : StackS) : (s.setStk k x).flash = s.flash := rfl
@[simp] theorem State.setStk_due (x : StackS) : (s.setStk k x).due = s.due := rfl
@[simp] theorem State.setStk_latch (x : StackS) : (s.setStk k x).latch = s.latch := rfl
@[simp] theorem State.setStk_sent (x : StackS) : (s.setStk k x).sent = s.sent := rfl
@[simp] theorem State.setStk_free (x : StackS) : (s.setStk k x).free = s.free := rfl
@[simp] theorem State.setStk_store_bytes (x : StackS) : (s.setStk k x).store.bytes = s.store.bytes := rfl
@[simp] theorem State.setStk_store_sealDelta (x : StackS) : (s.setStk k x).store.sealDelta = s.store.sealDelta := rfl
@[simp] theorem State.clu_setStk (x : StackS) : (s.setStk k x).clu j = s.clu j := rfl
@[simp] theorem State.lclu_setStk (x : StackS) : (s.setStk k x).lclu j = s.lclu j := rfl
@[simp] theorem State.tile_setStk (x : StackS) : (s.setStk k x).tile j = s.tile j := rfl
@[simp] theorem State.tslv_setStk (x : StackS) : (s.setStk k x).tslv j = s.tslv j := rfl
@[simp] theorem State.qslot_setStk (x : StackS) : (s.setStk k x).qslot j = s.qslot j := rfl
@[simp] theorem State.group_setStk (x : StackS) : (s.setStk k x).group j = s.group j := rfl
@[simp] theorem State.seg_setStk (x : StackS) : (s.setStk k x).seg j = s.seg j := rfl
@[simp] theorem State.sest_setStk (x : StackS) : (s.setStk k x).sest j = s.sest j := rfl
@[simp] theorem State.watch_setStk (x : StackS) : (s.setStk k x).watch j = s.watch j := rfl
@[simp] theorem State.courier_setStk (x : StackS) : (s.setStk k x).courier j = s.courier j := rfl
@[simp] theorem State.port_setStk (x : StackS) : (s.setStk k x).port j = s.port j := rfl
@[simp] theorem State.box_setStk (x : StackS) : (s.setStk k x).box j = s.box j := rfl
@[simp] theorem State.strm_setStk (x : StackS) : (s.setStk k x).strm j = s.strm j := rfl
@[simp] theorem State.comm_setStk (x : StackS) : (s.setStk k x).comm j = s.comm j := rfl
@[simp] theorem State.op_setStk (x : StackS) : (s.setStk k x).op j = s.op j := rfl

/-! ## Courier -/

@[simp] theorem State.courier_setCourier_same (x : Courier) : (s.setCourier k x).courier k = x := kget_kset_same _ _ _ _
theorem State.courier_setCourier_ne (x : Courier) (h : k ≠ j) : (s.setCourier k x).courier j = s.courier j := kget_kset_ne _ _ _ _ _ h
theorem State.courier_setCourier (x : Courier) : (s.setCourier k x).courier j = if k = j then x else s.courier j := kget_kset _ _ _ _ _
@[simp] theorem State.setCourier_setCourier (x y : Courier) : (s.setCourier k x).setCourier k y = s.setCourier k y := by simp [State.setCourier]
@[simp] theorem State.setCourier_pending (x : Courier) : (s.setCourier k x).pending = s.pending := rfl
@[simp] theorem State.setCourier_time (x : Courier) : (s.setCourier k x).time = s.time := rfl
@[simp] theorem State.setCourier_store (x : Courier) : (s.setCourier k x).store = s.store := rfl
@[simp] theorem State.setCourier_core (x : Courier) : (s.setCourier k x).core = s.core := rfl
@[simp] theorem State.setCourier_ledger (x : Courier) : (s.setCourier k x).ledger = s.ledger := rfl
@[simp] theorem State.setCourier_streams (x : Courier) : (s.setCourier k x).streams = s.streams := rfl
@[simp] theorem State.setCourier_boxes (x : Courier) : (s.setCourier k x).boxes = s.boxes := rfl
@[simp] theorem State.setCourier_hif (x : Courier) : (s.setCourier k x).hif = s.hif := rfl
@[simp] theorem State.setCourier_ring (x : Courier) : (s.setCourier k x).ring = s.ring := rfl
@[simp] theorem State.setCourier_ports (x : Courier) : (s.setCourier k x).ports = s.ports := rfl
@[simp] theorem State.setCourier_fab (x : Courier) : (s.setCourier k x).fab = s.fab := rfl
@[simp] theorem State.setCourier_net (x : Courier) : (s.setCourier k x).net = s.net := rfl
@[simp] theorem State.setCourier_comms (x : Courier) : (s.setCourier k x).comms = s.comms := rfl
@[simp] theorem State.setCourier_bcast (x : Courier) : (s.setCourier k x).bcast = s.bcast := rfl
@[simp] theorem State.setCourier_image (x : Courier) : (s.setCourier k x).image = s.image := rfl
@[simp] theorem State.setCourier_access (x : Courier) : (s.setCourier k x).access = s.access := rfl
@[simp] theorem State.setCourier_boot (x : Courier) : (s.setCourier k x).boot = s.boot := rfl
@[simp] theorem State.setCourier_pins (x : Courier) : (s.setCourier k x).pins = s.pins := rfl
@[simp] theorem State.setCourier_chk (x : Courier) : (s.setCourier k x).chk = s.chk := rfl
@[simp] theorem State.setCourier_sec (x : Courier) : (s.setCourier k x).sec = s.sec := rfl
@[simp] theorem State.setCourier_power (x : Courier) : (s.setCourier k x).power = s.power := rfl
@[simp] theorem State.setCourier_prun (x : Courier) : (s.setCourier k x).prun = s.prun := rfl
@[simp] theorem State.setCourier_flash (x : Courier) : (s.setCourier k x).flash = s.flash := rfl
@[simp] theorem State.setCourier_due (x : Courier) : (s.setCourier k x).due = s.due := rfl
@[simp] theorem State.setCourier_latch (x : Courier) : (s.setCourier k x).latch = s.latch := rfl
@[simp] theorem State.setCourier_sent (x : Courier) : (s.setCourier k x).sent = s.sent := rfl
@[simp] theorem State.setCourier_free (x : Courier) : (s.setCourier k x).free = s.free := rfl
@[simp] theorem State.clu_setCourier (x : Courier) : (s.setCourier k x).clu j = s.clu j := rfl
@[simp] theorem State.lclu_setCourier (x : Courier) : (s.setCourier k x).lclu j = s.lclu j := rfl
@[simp] theorem State.tile_setCourier (x : Courier) : (s.setCourier k x).tile j = s.tile j := rfl
@[simp] theorem State.tslv_setCourier (x : Courier) : (s.setCourier k x).tslv j = s.tslv j := rfl
@[simp] theorem State.qslot_setCourier (x : Courier) : (s.setCourier k x).qslot j = s.qslot j := rfl
@[simp] theorem State.group_setCourier (x : Courier) : (s.setCourier k x).group j = s.group j := rfl
@[simp] theorem State.seg_setCourier (x : Courier) : (s.setCourier k x).seg j = s.seg j := rfl
@[simp] theorem State.sest_setCourier (x : Courier) : (s.setCourier k x).sest j = s.sest j := rfl
@[simp] theorem State.watch_setCourier (x : Courier) : (s.setCourier k x).watch j = s.watch j := rfl
@[simp] theorem State.stk_setCourier (x : Courier) : (s.setCourier k x).stk j = s.stk j := rfl
@[simp] theorem State.port_setCourier (x : Courier) : (s.setCourier k x).port j = s.port j := rfl
@[simp] theorem State.box_setCourier (x : Courier) : (s.setCourier k x).box j = s.box j := rfl
@[simp] theorem State.strm_setCourier (x : Courier) : (s.setCourier k x).strm j = s.strm j := rfl
@[simp] theorem State.comm_setCourier (x : Courier) : (s.setCourier k x).comm j = s.comm j := rfl
@[simp] theorem State.op_setCourier (x : Courier) : (s.setCourier k x).op j = s.op j := rfl

/-! ## Port -/

@[simp] theorem State.port_setPort_same (x : Port) : (s.setPort k x).port k = x := kget_kset_same _ _ _ _
theorem State.port_setPort_ne (x : Port) (h : k ≠ j) : (s.setPort k x).port j = s.port j := kget_kset_ne _ _ _ _ _ h
theorem State.port_setPort (x : Port) : (s.setPort k x).port j = if k = j then x else s.port j := kget_kset _ _ _ _ _
@[simp] theorem State.setPort_setPort (x y : Port) : (s.setPort k x).setPort k y = s.setPort k y := by simp [State.setPort]
@[simp] theorem State.setPort_pending (x : Port) : (s.setPort k x).pending = s.pending := rfl
@[simp] theorem State.setPort_time (x : Port) : (s.setPort k x).time = s.time := rfl
@[simp] theorem State.setPort_store (x : Port) : (s.setPort k x).store = s.store := rfl
@[simp] theorem State.setPort_core (x : Port) : (s.setPort k x).core = s.core := rfl
@[simp] theorem State.setPort_ledger (x : Port) : (s.setPort k x).ledger = s.ledger := rfl
@[simp] theorem State.setPort_streams (x : Port) : (s.setPort k x).streams = s.streams := rfl
@[simp] theorem State.setPort_boxes (x : Port) : (s.setPort k x).boxes = s.boxes := rfl
@[simp] theorem State.setPort_hif (x : Port) : (s.setPort k x).hif = s.hif := rfl
@[simp] theorem State.setPort_ring (x : Port) : (s.setPort k x).ring = s.ring := rfl
@[simp] theorem State.setPort_couriers (x : Port) : (s.setPort k x).couriers = s.couriers := rfl
@[simp] theorem State.setPort_fab (x : Port) : (s.setPort k x).fab = s.fab := rfl
@[simp] theorem State.setPort_net (x : Port) : (s.setPort k x).net = s.net := rfl
@[simp] theorem State.setPort_comms (x : Port) : (s.setPort k x).comms = s.comms := rfl
@[simp] theorem State.setPort_bcast (x : Port) : (s.setPort k x).bcast = s.bcast := rfl
@[simp] theorem State.setPort_image (x : Port) : (s.setPort k x).image = s.image := rfl
@[simp] theorem State.setPort_access (x : Port) : (s.setPort k x).access = s.access := rfl
@[simp] theorem State.setPort_boot (x : Port) : (s.setPort k x).boot = s.boot := rfl
@[simp] theorem State.setPort_pins (x : Port) : (s.setPort k x).pins = s.pins := rfl
@[simp] theorem State.setPort_chk (x : Port) : (s.setPort k x).chk = s.chk := rfl
@[simp] theorem State.setPort_sec (x : Port) : (s.setPort k x).sec = s.sec := rfl
@[simp] theorem State.setPort_power (x : Port) : (s.setPort k x).power = s.power := rfl
@[simp] theorem State.setPort_prun (x : Port) : (s.setPort k x).prun = s.prun := rfl
@[simp] theorem State.setPort_flash (x : Port) : (s.setPort k x).flash = s.flash := rfl
@[simp] theorem State.setPort_due (x : Port) : (s.setPort k x).due = s.due := rfl
@[simp] theorem State.setPort_latch (x : Port) : (s.setPort k x).latch = s.latch := rfl
@[simp] theorem State.setPort_sent (x : Port) : (s.setPort k x).sent = s.sent := rfl
@[simp] theorem State.setPort_free (x : Port) : (s.setPort k x).free = s.free := rfl
@[simp] theorem State.clu_setPort (x : Port) : (s.setPort k x).clu j = s.clu j := rfl
@[simp] theorem State.lclu_setPort (x : Port) : (s.setPort k x).lclu j = s.lclu j := rfl
@[simp] theorem State.tile_setPort (x : Port) : (s.setPort k x).tile j = s.tile j := rfl
@[simp] theorem State.tslv_setPort (x : Port) : (s.setPort k x).tslv j = s.tslv j := rfl
@[simp] theorem State.qslot_setPort (x : Port) : (s.setPort k x).qslot j = s.qslot j := rfl
@[simp] theorem State.group_setPort (x : Port) : (s.setPort k x).group j = s.group j := rfl
@[simp] theorem State.seg_setPort (x : Port) : (s.setPort k x).seg j = s.seg j := rfl
@[simp] theorem State.sest_setPort (x : Port) : (s.setPort k x).sest j = s.sest j := rfl
@[simp] theorem State.watch_setPort (x : Port) : (s.setPort k x).watch j = s.watch j := rfl
@[simp] theorem State.stk_setPort (x : Port) : (s.setPort k x).stk j = s.stk j := rfl
@[simp] theorem State.courier_setPort (x : Port) : (s.setPort k x).courier j = s.courier j := rfl
@[simp] theorem State.box_setPort (x : Port) : (s.setPort k x).box j = s.box j := rfl
@[simp] theorem State.strm_setPort (x : Port) : (s.setPort k x).strm j = s.strm j := rfl
@[simp] theorem State.comm_setPort (x : Port) : (s.setPort k x).comm j = s.comm j := rfl
@[simp] theorem State.op_setPort (x : Port) : (s.setPort k x).op j = s.op j := rfl

/-! ## Letterbox -/

@[simp] theorem State.box_setBox_same (x : Letterbox) : (s.setBox k x).box k = x := kget_kset_same _ _ _ _
theorem State.box_setBox_ne (x : Letterbox) (h : k ≠ j) : (s.setBox k x).box j = s.box j := kget_kset_ne _ _ _ _ _ h
theorem State.box_setBox (x : Letterbox) : (s.setBox k x).box j = if k = j then x else s.box j := kget_kset _ _ _ _ _
@[simp] theorem State.setBox_setBox (x y : Letterbox) : (s.setBox k x).setBox k y = s.setBox k y := by simp [State.setBox]
@[simp] theorem State.setBox_pending (x : Letterbox) : (s.setBox k x).pending = s.pending := rfl
@[simp] theorem State.setBox_time (x : Letterbox) : (s.setBox k x).time = s.time := rfl
@[simp] theorem State.setBox_store (x : Letterbox) : (s.setBox k x).store = s.store := rfl
@[simp] theorem State.setBox_core (x : Letterbox) : (s.setBox k x).core = s.core := rfl
@[simp] theorem State.setBox_ledger (x : Letterbox) : (s.setBox k x).ledger = s.ledger := rfl
@[simp] theorem State.setBox_streams (x : Letterbox) : (s.setBox k x).streams = s.streams := rfl
@[simp] theorem State.setBox_hif (x : Letterbox) : (s.setBox k x).hif = s.hif := rfl
@[simp] theorem State.setBox_ring (x : Letterbox) : (s.setBox k x).ring = s.ring := rfl
@[simp] theorem State.setBox_couriers (x : Letterbox) : (s.setBox k x).couriers = s.couriers := rfl
@[simp] theorem State.setBox_ports (x : Letterbox) : (s.setBox k x).ports = s.ports := rfl
@[simp] theorem State.setBox_fab (x : Letterbox) : (s.setBox k x).fab = s.fab := rfl
@[simp] theorem State.setBox_net (x : Letterbox) : (s.setBox k x).net = s.net := rfl
@[simp] theorem State.setBox_comms (x : Letterbox) : (s.setBox k x).comms = s.comms := rfl
@[simp] theorem State.setBox_bcast (x : Letterbox) : (s.setBox k x).bcast = s.bcast := rfl
@[simp] theorem State.setBox_image (x : Letterbox) : (s.setBox k x).image = s.image := rfl
@[simp] theorem State.setBox_access (x : Letterbox) : (s.setBox k x).access = s.access := rfl
@[simp] theorem State.setBox_boot (x : Letterbox) : (s.setBox k x).boot = s.boot := rfl
@[simp] theorem State.setBox_pins (x : Letterbox) : (s.setBox k x).pins = s.pins := rfl
@[simp] theorem State.setBox_chk (x : Letterbox) : (s.setBox k x).chk = s.chk := rfl
@[simp] theorem State.setBox_sec (x : Letterbox) : (s.setBox k x).sec = s.sec := rfl
@[simp] theorem State.setBox_power (x : Letterbox) : (s.setBox k x).power = s.power := rfl
@[simp] theorem State.setBox_prun (x : Letterbox) : (s.setBox k x).prun = s.prun := rfl
@[simp] theorem State.setBox_flash (x : Letterbox) : (s.setBox k x).flash = s.flash := rfl
@[simp] theorem State.setBox_due (x : Letterbox) : (s.setBox k x).due = s.due := rfl
@[simp] theorem State.setBox_latch (x : Letterbox) : (s.setBox k x).latch = s.latch := rfl
@[simp] theorem State.setBox_sent (x : Letterbox) : (s.setBox k x).sent = s.sent := rfl
@[simp] theorem State.setBox_free (x : Letterbox) : (s.setBox k x).free = s.free := rfl
@[simp] theorem State.clu_setBox (x : Letterbox) : (s.setBox k x).clu j = s.clu j := rfl
@[simp] theorem State.lclu_setBox (x : Letterbox) : (s.setBox k x).lclu j = s.lclu j := rfl
@[simp] theorem State.tile_setBox (x : Letterbox) : (s.setBox k x).tile j = s.tile j := rfl
@[simp] theorem State.tslv_setBox (x : Letterbox) : (s.setBox k x).tslv j = s.tslv j := rfl
@[simp] theorem State.qslot_setBox (x : Letterbox) : (s.setBox k x).qslot j = s.qslot j := rfl
@[simp] theorem State.group_setBox (x : Letterbox) : (s.setBox k x).group j = s.group j := rfl
@[simp] theorem State.seg_setBox (x : Letterbox) : (s.setBox k x).seg j = s.seg j := rfl
@[simp] theorem State.sest_setBox (x : Letterbox) : (s.setBox k x).sest j = s.sest j := rfl
@[simp] theorem State.watch_setBox (x : Letterbox) : (s.setBox k x).watch j = s.watch j := rfl
@[simp] theorem State.stk_setBox (x : Letterbox) : (s.setBox k x).stk j = s.stk j := rfl
@[simp] theorem State.courier_setBox (x : Letterbox) : (s.setBox k x).courier j = s.courier j := rfl
@[simp] theorem State.port_setBox (x : Letterbox) : (s.setBox k x).port j = s.port j := rfl
@[simp] theorem State.strm_setBox (x : Letterbox) : (s.setBox k x).strm j = s.strm j := rfl
@[simp] theorem State.comm_setBox (x : Letterbox) : (s.setBox k x).comm j = s.comm j := rfl
@[simp] theorem State.op_setBox (x : Letterbox) : (s.setBox k x).op j = s.op j := rfl

/-! ## Stream -/

@[simp] theorem State.strm_setStrm_same (x : Stream) : (s.setStrm k x).strm k = x := kget_kset_same _ _ _ _
theorem State.strm_setStrm_ne (x : Stream) (h : k ≠ j) : (s.setStrm k x).strm j = s.strm j := kget_kset_ne _ _ _ _ _ h
theorem State.strm_setStrm (x : Stream) : (s.setStrm k x).strm j = if k = j then x else s.strm j := kget_kset _ _ _ _ _
@[simp] theorem State.setStrm_setStrm (x y : Stream) : (s.setStrm k x).setStrm k y = s.setStrm k y := by simp [State.setStrm]
@[simp] theorem State.setStrm_pending (x : Stream) : (s.setStrm k x).pending = s.pending := rfl
@[simp] theorem State.setStrm_time (x : Stream) : (s.setStrm k x).time = s.time := rfl
@[simp] theorem State.setStrm_store (x : Stream) : (s.setStrm k x).store = s.store := rfl
@[simp] theorem State.setStrm_core (x : Stream) : (s.setStrm k x).core = s.core := rfl
@[simp] theorem State.setStrm_ledger (x : Stream) : (s.setStrm k x).ledger = s.ledger := rfl
@[simp] theorem State.setStrm_boxes (x : Stream) : (s.setStrm k x).boxes = s.boxes := rfl
@[simp] theorem State.setStrm_hif (x : Stream) : (s.setStrm k x).hif = s.hif := rfl
@[simp] theorem State.setStrm_ring (x : Stream) : (s.setStrm k x).ring = s.ring := rfl
@[simp] theorem State.setStrm_couriers (x : Stream) : (s.setStrm k x).couriers = s.couriers := rfl
@[simp] theorem State.setStrm_ports (x : Stream) : (s.setStrm k x).ports = s.ports := rfl
@[simp] theorem State.setStrm_fab (x : Stream) : (s.setStrm k x).fab = s.fab := rfl
@[simp] theorem State.setStrm_net (x : Stream) : (s.setStrm k x).net = s.net := rfl
@[simp] theorem State.setStrm_comms (x : Stream) : (s.setStrm k x).comms = s.comms := rfl
@[simp] theorem State.setStrm_bcast (x : Stream) : (s.setStrm k x).bcast = s.bcast := rfl
@[simp] theorem State.setStrm_image (x : Stream) : (s.setStrm k x).image = s.image := rfl
@[simp] theorem State.setStrm_access (x : Stream) : (s.setStrm k x).access = s.access := rfl
@[simp] theorem State.setStrm_boot (x : Stream) : (s.setStrm k x).boot = s.boot := rfl
@[simp] theorem State.setStrm_pins (x : Stream) : (s.setStrm k x).pins = s.pins := rfl
@[simp] theorem State.setStrm_chk (x : Stream) : (s.setStrm k x).chk = s.chk := rfl
@[simp] theorem State.setStrm_sec (x : Stream) : (s.setStrm k x).sec = s.sec := rfl
@[simp] theorem State.setStrm_power (x : Stream) : (s.setStrm k x).power = s.power := rfl
@[simp] theorem State.setStrm_prun (x : Stream) : (s.setStrm k x).prun = s.prun := rfl
@[simp] theorem State.setStrm_flash (x : Stream) : (s.setStrm k x).flash = s.flash := rfl
@[simp] theorem State.setStrm_due (x : Stream) : (s.setStrm k x).due = s.due := rfl
@[simp] theorem State.setStrm_latch (x : Stream) : (s.setStrm k x).latch = s.latch := rfl
@[simp] theorem State.setStrm_sent (x : Stream) : (s.setStrm k x).sent = s.sent := rfl
@[simp] theorem State.setStrm_free (x : Stream) : (s.setStrm k x).free = s.free := rfl
@[simp] theorem State.clu_setStrm (x : Stream) : (s.setStrm k x).clu j = s.clu j := rfl
@[simp] theorem State.lclu_setStrm (x : Stream) : (s.setStrm k x).lclu j = s.lclu j := rfl
@[simp] theorem State.tile_setStrm (x : Stream) : (s.setStrm k x).tile j = s.tile j := rfl
@[simp] theorem State.tslv_setStrm (x : Stream) : (s.setStrm k x).tslv j = s.tslv j := rfl
@[simp] theorem State.qslot_setStrm (x : Stream) : (s.setStrm k x).qslot j = s.qslot j := rfl
@[simp] theorem State.group_setStrm (x : Stream) : (s.setStrm k x).group j = s.group j := rfl
@[simp] theorem State.seg_setStrm (x : Stream) : (s.setStrm k x).seg j = s.seg j := rfl
@[simp] theorem State.sest_setStrm (x : Stream) : (s.setStrm k x).sest j = s.sest j := rfl
@[simp] theorem State.watch_setStrm (x : Stream) : (s.setStrm k x).watch j = s.watch j := rfl
@[simp] theorem State.stk_setStrm (x : Stream) : (s.setStrm k x).stk j = s.stk j := rfl
@[simp] theorem State.courier_setStrm (x : Stream) : (s.setStrm k x).courier j = s.courier j := rfl
@[simp] theorem State.port_setStrm (x : Stream) : (s.setStrm k x).port j = s.port j := rfl
@[simp] theorem State.box_setStrm (x : Stream) : (s.setStrm k x).box j = s.box j := rfl
@[simp] theorem State.comm_setStrm (x : Stream) : (s.setStrm k x).comm j = s.comm j := rfl
@[simp] theorem State.op_setStrm (x : Stream) : (s.setStrm k x).op j = s.op j := rfl

/-! ## CommS -/

@[simp] theorem State.comm_setComm_same (x : CommS) : (s.setComm k x).comm k = x := kget_kset_same _ _ _ _
theorem State.comm_setComm_ne (x : CommS) (h : k ≠ j) : (s.setComm k x).comm j = s.comm j := kget_kset_ne _ _ _ _ _ h
theorem State.comm_setComm (x : CommS) : (s.setComm k x).comm j = if k = j then x else s.comm j := kget_kset _ _ _ _ _
@[simp] theorem State.setComm_setComm (x y : CommS) : (s.setComm k x).setComm k y = s.setComm k y := by simp [State.setComm]
@[simp] theorem State.setComm_pending (x : CommS) : (s.setComm k x).pending = s.pending := rfl
@[simp] theorem State.setComm_time (x : CommS) : (s.setComm k x).time = s.time := rfl
@[simp] theorem State.setComm_store (x : CommS) : (s.setComm k x).store = s.store := rfl
@[simp] theorem State.setComm_core (x : CommS) : (s.setComm k x).core = s.core := rfl
@[simp] theorem State.setComm_ledger (x : CommS) : (s.setComm k x).ledger = s.ledger := rfl
@[simp] theorem State.setComm_streams (x : CommS) : (s.setComm k x).streams = s.streams := rfl
@[simp] theorem State.setComm_boxes (x : CommS) : (s.setComm k x).boxes = s.boxes := rfl
@[simp] theorem State.setComm_hif (x : CommS) : (s.setComm k x).hif = s.hif := rfl
@[simp] theorem State.setComm_ring (x : CommS) : (s.setComm k x).ring = s.ring := rfl
@[simp] theorem State.setComm_couriers (x : CommS) : (s.setComm k x).couriers = s.couriers := rfl
@[simp] theorem State.setComm_ports (x : CommS) : (s.setComm k x).ports = s.ports := rfl
@[simp] theorem State.setComm_fab (x : CommS) : (s.setComm k x).fab = s.fab := rfl
@[simp] theorem State.setComm_net (x : CommS) : (s.setComm k x).net = s.net := rfl
@[simp] theorem State.setComm_bcast (x : CommS) : (s.setComm k x).bcast = s.bcast := rfl
@[simp] theorem State.setComm_image (x : CommS) : (s.setComm k x).image = s.image := rfl
@[simp] theorem State.setComm_access (x : CommS) : (s.setComm k x).access = s.access := rfl
@[simp] theorem State.setComm_boot (x : CommS) : (s.setComm k x).boot = s.boot := rfl
@[simp] theorem State.setComm_pins (x : CommS) : (s.setComm k x).pins = s.pins := rfl
@[simp] theorem State.setComm_chk (x : CommS) : (s.setComm k x).chk = s.chk := rfl
@[simp] theorem State.setComm_sec (x : CommS) : (s.setComm k x).sec = s.sec := rfl
@[simp] theorem State.setComm_power (x : CommS) : (s.setComm k x).power = s.power := rfl
@[simp] theorem State.setComm_prun (x : CommS) : (s.setComm k x).prun = s.prun := rfl
@[simp] theorem State.setComm_flash (x : CommS) : (s.setComm k x).flash = s.flash := rfl
@[simp] theorem State.setComm_due (x : CommS) : (s.setComm k x).due = s.due := rfl
@[simp] theorem State.setComm_latch (x : CommS) : (s.setComm k x).latch = s.latch := rfl
@[simp] theorem State.setComm_sent (x : CommS) : (s.setComm k x).sent = s.sent := rfl
@[simp] theorem State.setComm_free (x : CommS) : (s.setComm k x).free = s.free := rfl
@[simp] theorem State.clu_setComm (x : CommS) : (s.setComm k x).clu j = s.clu j := rfl
@[simp] theorem State.lclu_setComm (x : CommS) : (s.setComm k x).lclu j = s.lclu j := rfl
@[simp] theorem State.tile_setComm (x : CommS) : (s.setComm k x).tile j = s.tile j := rfl
@[simp] theorem State.tslv_setComm (x : CommS) : (s.setComm k x).tslv j = s.tslv j := rfl
@[simp] theorem State.qslot_setComm (x : CommS) : (s.setComm k x).qslot j = s.qslot j := rfl
@[simp] theorem State.group_setComm (x : CommS) : (s.setComm k x).group j = s.group j := rfl
@[simp] theorem State.seg_setComm (x : CommS) : (s.setComm k x).seg j = s.seg j := rfl
@[simp] theorem State.sest_setComm (x : CommS) : (s.setComm k x).sest j = s.sest j := rfl
@[simp] theorem State.watch_setComm (x : CommS) : (s.setComm k x).watch j = s.watch j := rfl
@[simp] theorem State.stk_setComm (x : CommS) : (s.setComm k x).stk j = s.stk j := rfl
@[simp] theorem State.courier_setComm (x : CommS) : (s.setComm k x).courier j = s.courier j := rfl
@[simp] theorem State.port_setComm (x : CommS) : (s.setComm k x).port j = s.port j := rfl
@[simp] theorem State.box_setComm (x : CommS) : (s.setComm k x).box j = s.box j := rfl
@[simp] theorem State.strm_setComm (x : CommS) : (s.setComm k x).strm j = s.strm j := rfl
@[simp] theorem State.op_setComm (x : CommS) : (s.setComm k x).op j = s.op j := rfl

/-! ## Operations of the ledger -/

@[simp] theorem State.op_setOp_same (o : Op) : (s.setOp k o).op k = some o := kfind_kput_same _ _ _
theorem State.op_setOp_ne (o : Op) (h : k ≠ j) : (s.setOp k o).op j = s.op j := kfind_kput_ne _ _ _ _ h
@[simp] theorem State.setOp_setOp (o x : Op) : (s.setOp k o).setOp k x = s.setOp k x := by simp [State.setOp]
@[simp] theorem State.setOp_pending (o : Op) : (s.setOp k o).pending = s.pending := rfl
@[simp] theorem State.setOp_time (o : Op) : (s.setOp k o).time = s.time := rfl
@[simp] theorem State.setOp_store (o : Op) : (s.setOp k o).store = s.store := rfl
@[simp] theorem State.setOp_core (o : Op) : (s.setOp k o).core = s.core := rfl
@[simp] theorem State.setOp_streams (o : Op) : (s.setOp k o).streams = s.streams := rfl
@[simp] theorem State.setOp_boxes (o : Op) : (s.setOp k o).boxes = s.boxes := rfl
@[simp] theorem State.setOp_hif (o : Op) : (s.setOp k o).hif = s.hif := rfl
@[simp] theorem State.setOp_ring (o : Op) : (s.setOp k o).ring = s.ring := rfl
@[simp] theorem State.setOp_couriers (o : Op) : (s.setOp k o).couriers = s.couriers := rfl
@[simp] theorem State.setOp_ports (o : Op) : (s.setOp k o).ports = s.ports := rfl
@[simp] theorem State.setOp_fab (o : Op) : (s.setOp k o).fab = s.fab := rfl
@[simp] theorem State.setOp_net (o : Op) : (s.setOp k o).net = s.net := rfl
@[simp] theorem State.setOp_comms (o : Op) : (s.setOp k o).comms = s.comms := rfl
@[simp] theorem State.setOp_bcast (o : Op) : (s.setOp k o).bcast = s.bcast := rfl
@[simp] theorem State.setOp_image (o : Op) : (s.setOp k o).image = s.image := rfl
@[simp] theorem State.setOp_access (o : Op) : (s.setOp k o).access = s.access := rfl
@[simp] theorem State.setOp_boot (o : Op) : (s.setOp k o).boot = s.boot := rfl
@[simp] theorem State.setOp_pins (o : Op) : (s.setOp k o).pins = s.pins := rfl
@[simp] theorem State.setOp_chk (o : Op) : (s.setOp k o).chk = s.chk := rfl
@[simp] theorem State.setOp_sec (o : Op) : (s.setOp k o).sec = s.sec := rfl
@[simp] theorem State.setOp_power (o : Op) : (s.setOp k o).power = s.power := rfl
@[simp] theorem State.setOp_prun (o : Op) : (s.setOp k o).prun = s.prun := rfl
@[simp] theorem State.setOp_flash (o : Op) : (s.setOp k o).flash = s.flash := rfl
@[simp] theorem State.setOp_due (o : Op) : (s.setOp k o).due = s.due := rfl
@[simp] theorem State.setOp_latch (o : Op) : (s.setOp k o).latch = s.latch := rfl
@[simp] theorem State.setOp_sent (o : Op) : (s.setOp k o).sent = s.sent := rfl
@[simp] theorem State.setOp_free (o : Op) : (s.setOp k o).free = s.free := rfl
@[simp] theorem State.clu_setOp (o : Op) : (s.setOp k o).clu j = s.clu j := rfl
@[simp] theorem State.lclu_setOp (o : Op) : (s.setOp k o).lclu j = s.lclu j := rfl
@[simp] theorem State.tile_setOp (o : Op) : (s.setOp k o).tile j = s.tile j := rfl
@[simp] theorem State.tslv_setOp (o : Op) : (s.setOp k o).tslv j = s.tslv j := rfl
@[simp] theorem State.qslot_setOp (o : Op) : (s.setOp k o).qslot j = s.qslot j := rfl
@[simp] theorem State.group_setOp (o : Op) : (s.setOp k o).group j = s.group j := rfl
@[simp] theorem State.seg_setOp (o : Op) : (s.setOp k o).seg j = s.seg j := rfl
@[simp] theorem State.sest_setOp (o : Op) : (s.setOp k o).sest j = s.sest j := rfl
@[simp] theorem State.watch_setOp (o : Op) : (s.setOp k o).watch j = s.watch j := rfl
@[simp] theorem State.stk_setOp (o : Op) : (s.setOp k o).stk j = s.stk j := rfl
@[simp] theorem State.courier_setOp (o : Op) : (s.setOp k o).courier j = s.courier j := rfl
@[simp] theorem State.port_setOp (o : Op) : (s.setOp k o).port j = s.port j := rfl
@[simp] theorem State.box_setOp (o : Op) : (s.setOp k o).box j = s.box j := rfl
@[simp] theorem State.strm_setOp (o : Op) : (s.setOp k o).strm j = s.strm j := rfl
@[simp] theorem State.comm_setOp (o : Op) : (s.setOp k o).comm j = s.comm j := rfl

/-! ## Statistics partials, messages and free values -/

@[simp] theorem State.qpart_setQpart_same (x : QsPart) : (s.setQpart j k x).qpart j k = x := kget_kset_same _ _ _ _
@[simp] theorem State.setQpart_pending (x : QsPart) : (s.setQpart j k x).pending = s.pending := rfl
@[simp] theorem State.setQpart_time (x : QsPart) : (s.setQpart j k x).time = s.time := rfl
@[simp] theorem State.setQpart_store (x : QsPart) : (s.setQpart j k x).store = s.store := rfl
@[simp] theorem State.setQpart_ledger (x : QsPart) : (s.setQpart j k x).ledger = s.ledger := rfl
@[simp] theorem State.setQpart_streams (x : QsPart) : (s.setQpart j k x).streams = s.streams := rfl
@[simp] theorem State.setQpart_boxes (x : QsPart) : (s.setQpart j k x).boxes = s.boxes := rfl
@[simp] theorem State.setQpart_hif (x : QsPart) : (s.setQpart j k x).hif = s.hif := rfl
@[simp] theorem State.setQpart_ring (x : QsPart) : (s.setQpart j k x).ring = s.ring := rfl
@[simp] theorem State.setQpart_couriers (x : QsPart) : (s.setQpart j k x).couriers = s.couriers := rfl
@[simp] theorem State.setQpart_ports (x : QsPart) : (s.setQpart j k x).ports = s.ports := rfl
@[simp] theorem State.setQpart_fab (x : QsPart) : (s.setQpart j k x).fab = s.fab := rfl
@[simp] theorem State.setQpart_net (x : QsPart) : (s.setQpart j k x).net = s.net := rfl
@[simp] theorem State.setQpart_comms (x : QsPart) : (s.setQpart j k x).comms = s.comms := rfl
@[simp] theorem State.setQpart_bcast (x : QsPart) : (s.setQpart j k x).bcast = s.bcast := rfl
@[simp] theorem State.setQpart_image (x : QsPart) : (s.setQpart j k x).image = s.image := rfl
@[simp] theorem State.setQpart_access (x : QsPart) : (s.setQpart j k x).access = s.access := rfl
@[simp] theorem State.setQpart_boot (x : QsPart) : (s.setQpart j k x).boot = s.boot := rfl
@[simp] theorem State.setQpart_pins (x : QsPart) : (s.setQpart j k x).pins = s.pins := rfl
@[simp] theorem State.setQpart_chk (x : QsPart) : (s.setQpart j k x).chk = s.chk := rfl
@[simp] theorem State.setQpart_sec (x : QsPart) : (s.setQpart j k x).sec = s.sec := rfl
@[simp] theorem State.setQpart_power (x : QsPart) : (s.setQpart j k x).power = s.power := rfl
@[simp] theorem State.setQpart_prun (x : QsPart) : (s.setQpart j k x).prun = s.prun := rfl
@[simp] theorem State.setQpart_flash (x : QsPart) : (s.setQpart j k x).flash = s.flash := rfl
@[simp] theorem State.setQpart_due (x : QsPart) : (s.setQpart j k x).due = s.due := rfl
@[simp] theorem State.setQpart_latch (x : QsPart) : (s.setQpart j k x).latch = s.latch := rfl
@[simp] theorem State.setQpart_sent (x : QsPart) : (s.setQpart j k x).sent = s.sent := rfl
@[simp] theorem State.setQpart_free (x : QsPart) : (s.setQpart j k x).free = s.free := rfl
@[simp] theorem State.setQpart_core_clus (x : QsPart) : (s.setQpart j k x).core.clus = s.core.clus := rfl
@[simp] theorem State.setQpart_core_lclus (x : QsPart) : (s.setQpart j k x).core.lclus = s.core.lclus := rfl
@[simp] theorem State.setQpart_core_tiles (x : QsPart) : (s.setQpart j k x).core.tiles = s.core.tiles := rfl
@[simp] theorem State.setQpart_core_tileSlv (x : QsPart) : (s.setQpart j k x).core.tileSlv = s.core.tileSlv := rfl
@[simp] theorem State.setQpart_core_dead (x : QsPart) : (s.setQpart j k x).core.dead = s.core.dead := rfl
@[simp] theorem State.setQpart_core_holes (x : QsPart) : (s.setQpart j k x).core.holes = s.core.holes := rfl
@[simp] theorem State.setQpart_core_qs (x : QsPart) : (s.setQpart j k x).core.qs = s.core.qs := rfl
@[simp] theorem State.setQpart_core_groups (x : QsPart) : (s.setQpart j k x).core.groups = s.core.groups := rfl
@[simp] theorem State.setQpart_core_se (x : QsPart) : (s.setQpart j k x).core.se = s.core.se := rfl
@[simp] theorem State.setQpart_core_seStack (x : QsPart) : (s.setQpart j k x).core.seStack = s.core.seStack := rfl
@[simp] theorem State.setQpart_core_watches (x : QsPart) : (s.setQpart j k x).core.watches = s.core.watches := rfl
@[simp] theorem State.setQpart_core_posts (x : QsPart) : (s.setQpart j k x).core.posts = s.core.posts := rfl
@[simp] theorem State.setQpart_core_lwDropped (x : QsPart) : (s.setQpart j k x).core.lwDropped = s.core.lwDropped := rfl
@[simp] theorem State.send_pending (x : Sent) : (s.send x).pending = s.pending := rfl
@[simp] theorem State.sendAll_pending (l : List Sent) : (s.sendAll l).pending = s.pending := rfl
@[simp] theorem State.send_time (x : Sent) : (s.send x).time = s.time := rfl
@[simp] theorem State.sendAll_time (l : List Sent) : (s.sendAll l).time = s.time := rfl
@[simp] theorem State.send_store (x : Sent) : (s.send x).store = s.store := rfl
@[simp] theorem State.sendAll_store (l : List Sent) : (s.sendAll l).store = s.store := rfl
@[simp] theorem State.send_core (x : Sent) : (s.send x).core = s.core := rfl
@[simp] theorem State.sendAll_core (l : List Sent) : (s.sendAll l).core = s.core := rfl
@[simp] theorem State.send_ledger (x : Sent) : (s.send x).ledger = s.ledger := rfl
@[simp] theorem State.sendAll_ledger (l : List Sent) : (s.sendAll l).ledger = s.ledger := rfl
@[simp] theorem State.send_streams (x : Sent) : (s.send x).streams = s.streams := rfl
@[simp] theorem State.sendAll_streams (l : List Sent) : (s.sendAll l).streams = s.streams := rfl
@[simp] theorem State.send_boxes (x : Sent) : (s.send x).boxes = s.boxes := rfl
@[simp] theorem State.sendAll_boxes (l : List Sent) : (s.sendAll l).boxes = s.boxes := rfl
@[simp] theorem State.send_hif (x : Sent) : (s.send x).hif = s.hif := rfl
@[simp] theorem State.sendAll_hif (l : List Sent) : (s.sendAll l).hif = s.hif := rfl
@[simp] theorem State.send_ring (x : Sent) : (s.send x).ring = s.ring := rfl
@[simp] theorem State.sendAll_ring (l : List Sent) : (s.sendAll l).ring = s.ring := rfl
@[simp] theorem State.send_couriers (x : Sent) : (s.send x).couriers = s.couriers := rfl
@[simp] theorem State.sendAll_couriers (l : List Sent) : (s.sendAll l).couriers = s.couriers := rfl
@[simp] theorem State.send_ports (x : Sent) : (s.send x).ports = s.ports := rfl
@[simp] theorem State.sendAll_ports (l : List Sent) : (s.sendAll l).ports = s.ports := rfl
@[simp] theorem State.send_fab (x : Sent) : (s.send x).fab = s.fab := rfl
@[simp] theorem State.sendAll_fab (l : List Sent) : (s.sendAll l).fab = s.fab := rfl
@[simp] theorem State.send_net (x : Sent) : (s.send x).net = s.net := rfl
@[simp] theorem State.sendAll_net (l : List Sent) : (s.sendAll l).net = s.net := rfl
@[simp] theorem State.send_comms (x : Sent) : (s.send x).comms = s.comms := rfl
@[simp] theorem State.sendAll_comms (l : List Sent) : (s.sendAll l).comms = s.comms := rfl
@[simp] theorem State.send_bcast (x : Sent) : (s.send x).bcast = s.bcast := rfl
@[simp] theorem State.sendAll_bcast (l : List Sent) : (s.sendAll l).bcast = s.bcast := rfl
@[simp] theorem State.send_image (x : Sent) : (s.send x).image = s.image := rfl
@[simp] theorem State.sendAll_image (l : List Sent) : (s.sendAll l).image = s.image := rfl
@[simp] theorem State.send_access (x : Sent) : (s.send x).access = s.access := rfl
@[simp] theorem State.sendAll_access (l : List Sent) : (s.sendAll l).access = s.access := rfl
@[simp] theorem State.send_boot (x : Sent) : (s.send x).boot = s.boot := rfl
@[simp] theorem State.sendAll_boot (l : List Sent) : (s.sendAll l).boot = s.boot := rfl
@[simp] theorem State.send_pins (x : Sent) : (s.send x).pins = s.pins := rfl
@[simp] theorem State.sendAll_pins (l : List Sent) : (s.sendAll l).pins = s.pins := rfl
@[simp] theorem State.send_chk (x : Sent) : (s.send x).chk = s.chk := rfl
@[simp] theorem State.sendAll_chk (l : List Sent) : (s.sendAll l).chk = s.chk := rfl
@[simp] theorem State.send_sec (x : Sent) : (s.send x).sec = s.sec := rfl
@[simp] theorem State.sendAll_sec (l : List Sent) : (s.sendAll l).sec = s.sec := rfl
@[simp] theorem State.send_power (x : Sent) : (s.send x).power = s.power := rfl
@[simp] theorem State.sendAll_power (l : List Sent) : (s.sendAll l).power = s.power := rfl
@[simp] theorem State.send_prun (x : Sent) : (s.send x).prun = s.prun := rfl
@[simp] theorem State.sendAll_prun (l : List Sent) : (s.sendAll l).prun = s.prun := rfl
@[simp] theorem State.send_flash (x : Sent) : (s.send x).flash = s.flash := rfl
@[simp] theorem State.sendAll_flash (l : List Sent) : (s.sendAll l).flash = s.flash := rfl
@[simp] theorem State.send_due (x : Sent) : (s.send x).due = s.due := rfl
@[simp] theorem State.sendAll_due (l : List Sent) : (s.sendAll l).due = s.due := rfl
@[simp] theorem State.send_latch (x : Sent) : (s.send x).latch = s.latch := rfl
@[simp] theorem State.sendAll_latch (l : List Sent) : (s.sendAll l).latch = s.latch := rfl
@[simp] theorem State.send_free (x : Sent) : (s.send x).free = s.free := rfl
@[simp] theorem State.sendAll_free (l : List Sent) : (s.sendAll l).free = s.free := rfl
@[simp] theorem State.send_sent (x : Sent) : (s.send x).sent = s.sent ++ [x] := rfl
@[simp] theorem State.sendAll_sent (l : List Sent) : (s.sendAll l).sent = s.sent ++ l := rfl
@[simp] theorem State.clu_send (x : Sent) : (s.send x).clu j = s.clu j := rfl
@[simp] theorem State.clu_sendAll (l : List Sent) : (s.sendAll l).clu j = s.clu j := rfl
@[simp] theorem State.lclu_send (x : Sent) : (s.send x).lclu j = s.lclu j := rfl
@[simp] theorem State.lclu_sendAll (l : List Sent) : (s.sendAll l).lclu j = s.lclu j := rfl
@[simp] theorem State.tile_send (x : Sent) : (s.send x).tile j = s.tile j := rfl
@[simp] theorem State.tile_sendAll (l : List Sent) : (s.sendAll l).tile j = s.tile j := rfl
@[simp] theorem State.tslv_send (x : Sent) : (s.send x).tslv j = s.tslv j := rfl
@[simp] theorem State.tslv_sendAll (l : List Sent) : (s.sendAll l).tslv j = s.tslv j := rfl
@[simp] theorem State.qslot_send (x : Sent) : (s.send x).qslot j = s.qslot j := rfl
@[simp] theorem State.qslot_sendAll (l : List Sent) : (s.sendAll l).qslot j = s.qslot j := rfl
@[simp] theorem State.group_send (x : Sent) : (s.send x).group j = s.group j := rfl
@[simp] theorem State.group_sendAll (l : List Sent) : (s.sendAll l).group j = s.group j := rfl
@[simp] theorem State.seg_send (x : Sent) : (s.send x).seg j = s.seg j := rfl
@[simp] theorem State.seg_sendAll (l : List Sent) : (s.sendAll l).seg j = s.seg j := rfl
@[simp] theorem State.sest_send (x : Sent) : (s.send x).sest j = s.sest j := rfl
@[simp] theorem State.sest_sendAll (l : List Sent) : (s.sendAll l).sest j = s.sest j := rfl
@[simp] theorem State.watch_send (x : Sent) : (s.send x).watch j = s.watch j := rfl
@[simp] theorem State.watch_sendAll (l : List Sent) : (s.sendAll l).watch j = s.watch j := rfl
@[simp] theorem State.stk_send (x : Sent) : (s.send x).stk j = s.stk j := rfl
@[simp] theorem State.stk_sendAll (l : List Sent) : (s.sendAll l).stk j = s.stk j := rfl
@[simp] theorem State.courier_send (x : Sent) : (s.send x).courier j = s.courier j := rfl
@[simp] theorem State.courier_sendAll (l : List Sent) : (s.sendAll l).courier j = s.courier j := rfl
@[simp] theorem State.port_send (x : Sent) : (s.send x).port j = s.port j := rfl
@[simp] theorem State.port_sendAll (l : List Sent) : (s.sendAll l).port j = s.port j := rfl
@[simp] theorem State.box_send (x : Sent) : (s.send x).box j = s.box j := rfl
@[simp] theorem State.box_sendAll (l : List Sent) : (s.sendAll l).box j = s.box j := rfl
@[simp] theorem State.strm_send (x : Sent) : (s.send x).strm j = s.strm j := rfl
@[simp] theorem State.strm_sendAll (l : List Sent) : (s.sendAll l).strm j = s.strm j := rfl
@[simp] theorem State.comm_send (x : Sent) : (s.send x).comm j = s.comm j := rfl
@[simp] theorem State.comm_sendAll (l : List Sent) : (s.sendAll l).comm j = s.comm j := rfl
@[simp] theorem State.op_send (x : Sent) : (s.send x).op j = s.op j := rfl
@[simp] theorem State.op_sendAll (l : List Sent) : (s.sendAll l).op j = s.op j := rfl
@[simp] theorem State.takeFree_fst : s.takeFree.1 = Config.freeValue s.free := rfl
@[simp] theorem State.takeFree_free : s.takeFree.2.free = s.free + 1 := rfl
@[simp] theorem State.takeFree_pending : s.takeFree.2.pending = s.pending := rfl
@[simp] theorem State.takeFree_time : s.takeFree.2.time = s.time := rfl
@[simp] theorem State.takeFree_store : s.takeFree.2.store = s.store := rfl
@[simp] theorem State.takeFree_core : s.takeFree.2.core = s.core := rfl
@[simp] theorem State.takeFree_ledger : s.takeFree.2.ledger = s.ledger := rfl
@[simp] theorem State.takeFree_streams : s.takeFree.2.streams = s.streams := rfl
@[simp] theorem State.takeFree_boxes : s.takeFree.2.boxes = s.boxes := rfl
@[simp] theorem State.takeFree_hif : s.takeFree.2.hif = s.hif := rfl
@[simp] theorem State.takeFree_ring : s.takeFree.2.ring = s.ring := rfl
@[simp] theorem State.takeFree_couriers : s.takeFree.2.couriers = s.couriers := rfl
@[simp] theorem State.takeFree_ports : s.takeFree.2.ports = s.ports := rfl
@[simp] theorem State.takeFree_fab : s.takeFree.2.fab = s.fab := rfl
@[simp] theorem State.takeFree_net : s.takeFree.2.net = s.net := rfl
@[simp] theorem State.takeFree_comms : s.takeFree.2.comms = s.comms := rfl
@[simp] theorem State.takeFree_bcast : s.takeFree.2.bcast = s.bcast := rfl
@[simp] theorem State.takeFree_image : s.takeFree.2.image = s.image := rfl
@[simp] theorem State.takeFree_access : s.takeFree.2.access = s.access := rfl
@[simp] theorem State.takeFree_boot : s.takeFree.2.boot = s.boot := rfl
@[simp] theorem State.takeFree_pins : s.takeFree.2.pins = s.pins := rfl
@[simp] theorem State.takeFree_chk : s.takeFree.2.chk = s.chk := rfl
@[simp] theorem State.takeFree_sec : s.takeFree.2.sec = s.sec := rfl
@[simp] theorem State.takeFree_power : s.takeFree.2.power = s.power := rfl
@[simp] theorem State.takeFree_prun : s.takeFree.2.prun = s.prun := rfl
@[simp] theorem State.takeFree_flash : s.takeFree.2.flash = s.flash := rfl
@[simp] theorem State.takeFree_due : s.takeFree.2.due = s.due := rfl
@[simp] theorem State.takeFree_latch : s.takeFree.2.latch = s.latch := rfl
@[simp] theorem State.takeFree_sent : s.takeFree.2.sent = s.sent := rfl

end Sys2Proof.Machine
end

