-- ==== Sys2Proof/WellFormed.lean ====
section
/-! DEFINITION. Which commands are well formed: operands that no field of the table bounds are bounded here, each
check by the rule that gives the bound. A meaning is total: on an ill-formed command it does what its rule does
with the operand as it stands. -/

namespace Sys2Proof

/-- A register-space offset (00 R9): 64 MiB, a whole 32-bit word. -/
def regOffOk (off : Nat) : Bool := off < 0x4000000 && off % 4 == 0

/-- A register access is one word or a pair (00 R9, 02 R63). -/
def regDataOk (data : List Byte) : Bool := data.length == 4 || data.length == 8

def symErrOk (e : SymErr) : Bool := e.cw < 64 && e.sym < 72 && e.mask != 0

def badOk (b : BadResult) : Bool := b.orig.length == 4096 || b.orig.isEmpty

/-- A packet's data fits its kind (14 R356, R357): 1 to 4,096 bytes with data, none without. -/
def packetOk (p : Packet) (withData : Bool) : Bool :=
  if withData then 1 ≤ p.data.length && p.data.length ≤ 4096 && p.h.length.toNat == p.data.length
  else p.data.isEmpty

/-- A fragment carries 1 to 4,096 bytes and the head a 32-byte digest (18 R462). -/
def bcastOk (b : Bcast) : Bool := 1 ≤ b.frag.length && b.frag.length ≤ 4096 && b.digest.length == 32

def powerOk (x : PowerSample) : Bool :=
  x.drawn.length == 8 && x.waited.length == 8 && x.ranShort.length == 8 && x.temps.length == 64

def Instr.wellFormed (i : Instr) : Bool :=
  match i with
  | .registerWrite _ off data => regOffOk off && regDataOk data
  | .splitLoRead _ off => regOffOk off
  | .earlyAccess _ addr _ => 0x7F0000000000 ≤ addr.toNat && addr.toNat < 0x7F0004000000
  | .collectionVisit _ es => es.length ≤ 16 && es.all (fun e => e.length == 256)
  | .teBandDone _ bad => bad.all badOk
  | .inspectorRecompute _ b => b.length == 4096 || b.isEmpty
  | .packRunDone out => out.all (fun o => o.equalRuns ≤ 3)
  | .apertureRead _ len => 1 ≤ len && len ≤ 4096
  | .apertureWrite _ d => 1 ≤ d.length && d.length ≤ 512
  | .linkUp gen width => 1 ≤ gen.toNat && gen.toNat ≤ 7 && [1, 2, 4, 8, 16].contains width.toNat
  | .read p => packetOk p false
  | .write p => packetOk p true
  | .readData p => packetOk p true
  | .writeAck p => packetOk p false
  | .nack p => packetOk p false
  | .discover _ d => d.digest.length == 32
  | .linkState _ l => l.usable.length == 6 && l.timed.length == 6
  | .retryReq _ f => f.bytes.length == 272
  | .broadcast _ b => bcastOk b
  | .scrubStep _ es => es.all symErrOk
  | .powerInterval x => powerOk x
  | .stackTrainingDone out => out.length == 32
  | .getReport nonce => nonce.length == 32
  | .calWrite _ d => 1 ≤ d.length && d.length ≤ 1024
  | .calCommit _ d => d.length == 32
  | _ => true

end Sys2Proof
end

