-- ==== Sys2Proof/Tests/Slice0.lean ====
section
/-! SUPPORT. Tests of the model on small states: ill-formed commands, instruction words written out from the encoding tables
of 06 R161, single steps, and, for every statement with hypotheses, states that meet them (`wit_...`). -/

set_option Elab.async false
set_option linter.unusedTactic false
set_option linter.unreachableTactic false
set_option linter.unusedVariables false

namespace Sys2Proof.Tests

open Sys2Proof Sys2Proof.Machine

/-! ## Ill-formed commands -/

def head0 : Header := ⟨1, 0, false, false, 8, 0, 0, 0, 0, 0, 0, 0, 0, 0, false⟩
def bcast0 : Bcast := ⟨0, 0, 1, false, 0, 0, 0, 0, List.replicate 32 0, [1], false⟩
def sample0 : PowerSample := ⟨0, List.replicate 8 0, List.replicate 8 0, List.replicate 8 false, List.replicate 64 0⟩

/-- Ill-formed commands, one for each check. -/
theorem test_illFormed_refused1 : ([.registerWrite 2 0x4000000 [0, 0, 0, 0], .registerWrite 2 2 [0, 0, 0, 0], .registerWrite 2 0 [0], .splitLoRead 2 1,
   .earlyAccess 2 0x7EFFFFFFFFFC true, .earlyAccess 2 0x7F0004000000 true,
   .collectionVisit 0 [[0]], .collectionVisit 0 (List.replicate 17 (zeroBytes 256))] : List Instr).all (fun i => !i.wellFormed) = true := by
  decide +kernel

/-- Ill-formed commands, one for each check. -/
theorem test_illFormed_refused2 : ([.teBandDone 0 [⟨0, [1], []⟩], .inspectorRecompute 0 [1], .packRunDone [⟨0, false, 4⟩], .apertureRead 0 0,
   .apertureRead 0 4097, .apertureWrite 0 [], .apertureWrite 0 (zeroBytes 513), .read ⟨head0, [1], none⟩] : List Instr).all (fun i => !i.wellFormed) = true := by
  decide +kernel

/-- Ill-formed commands, one for each check. -/
theorem test_illFormed_refused3 : ([.write ⟨head0, [], none⟩, .write ⟨head0, [1], none⟩, .readData ⟨head0, [], none⟩, .writeAck ⟨head0, [1], none⟩, .nack ⟨head0, [1], none⟩,
   .discover 0 ⟨0, 0, 0, 0, false, false, false, false, 0, 0, [], false⟩, .linkState 0 ⟨0, 0, [], [], false⟩,
   .retryReq 0 ⟨[], false⟩, .linkUp 0 1, .linkUp 8 1, .linkUp 1 3] : List Instr).all (fun i => !i.wellFormed) = true := by
  decide +kernel

/-- Ill-formed commands, one for each check. -/
theorem test_illFormed_refused4 : ([.broadcast 0 { bcast0 with frag := [] }, .broadcast 0 { bcast0 with frag := zeroBytes 4097 },
   .broadcast 0 { bcast0 with digest := [] }, .scrubStep 0 [⟨0, 64, 0, 1⟩], .scrubStep 0 [⟨0, 0, 72, 1⟩],
   .scrubStep 0 [⟨0, 0, 0, 0⟩]] : List Instr).all (fun i => !i.wellFormed) = true := by
  decide +kernel

/-- Ill-formed commands, one for each check. -/
theorem test_illFormed_refused5 : ([.powerInterval { sample0 with drawn := [] }, .powerInterval { sample0 with waited := [] },
   .powerInterval { sample0 with ranShort := [] }, .powerInterval { sample0 with temps := [] }, .stackTrainingDone [],
   .getReport [], .calWrite 0 [], .calWrite 0 (zeroBytes 1025), .calCommit 0 []] : List Instr).all (fun i => !i.wellFormed) = true := by
  decide +kernel

/-- Beside them, commands that the same checks admit. -/
theorem test_wellFormed_admits : [Instr.registerWrite 2 0x3FFFFFC (zeroBytes 8), .earlyAccess 2 0x7F0003FFFFFC false,
    .apertureRead 0 4096, .linkUp 7 16, .retryReq 0 ⟨zeroBytes 272, true⟩, .write ⟨{ head0 with length := 1 }, [1], none⟩, .broadcast 0 bcast0, .scrubStep 0 [⟨0, 63, 71, 1⟩],
    .powerInterval sample0, .getReport (zeroBytes 32), .calWrite 0 (zeroBytes 1024)].all Instr.wellFormed = true := by
  decide +kernel

/-! ## Instruction words, written out from 06 R161 -/

theorem test_word_add : encScal 0 ⟨3, 1, 2⟩ = 0x01844000 := by decide
theorem test_word_sltu : encScal 14 ⟨3, 1, 2⟩ = 0x0184400E := by decide
theorem test_word_addi : encImm 0 ⟨1, 2, -1⟩ = 0x10883FFF := by decide
theorem test_word_shin : encImm 8 ⟨1, 2, 1⟩ = 0x108A0001 := by decide
theorem test_word_ld64 : encMem 3 ⟨3, 1, -8⟩ = 0x2185FFF8 := by decide
theorem test_word_st8 : encMem 4 ⟨3, 1, 0⟩ = 0x21860000 := by decide
theorem test_word_jalr : encBran 7 ⟨1, 2, 3⟩ = 0x308B8003 := by decide
theorem test_word_csrr : encSys 0 1 0 0xC1 = 0x40803040 := by decide
theorem test_word_time : encSys 9 1 0 0 = 0x40800009 := by decide
theorem test_word_shape : encCfg 0 1 2 1 0 = 0x50884000 := by decide
theorem test_word_vmsv : encCfg 2 1 2 1 3 = 0x5088401A := by decide
theorem test_word_vfma : encArith 6 3 ⟨⟨1, 2, 3, false, 0⟩, 0, 0⟩ = 0x60886030 := by decide
theorem test_word_vdotw : encArith 7 2 ⟨⟨1, 2, 3, false, 0⟩, 0, 0⟩ = 0x70886020 := by decide
theorem test_word_vcvt : encConv ⟨⟨1, 2, 0, false, 0⟩, 2, 1, true, false⟩ = 0x8088004C := by decide
/-- The two words that R161 writes out. -/
theorem test_word_redacc : encRed 1 ⟨⟨4, 9, 0, true, 3⟩, 0, false⟩ = 0x92241620 ∧
    encRed 2 ⟨⟨4, 9, 0, true, 3⟩, 0, false⟩ = 0x92241640 := by decide
theorem test_word_vcmp : encMask 2 ⟨1, 2, 3, false, 0⟩ = 0xA0886040 := by decide
theorem test_word_vst : encVMem 1 ⟨⟨1, 2, 3, false, 0⟩, true⟩ = 0xB0886180 := by decide
theorem test_word_vgather : encGath 0 ⟨8, 10, 12, false, 0⟩ = 0xC4298000 := by decide
theorem test_word_wbase : encWin 5 ⟨⟨0, 2, 0, false, 0⟩, 5⟩ = 0xD0080145 := by decide
theorem test_noWord : decodeTableWord 32 0x01844000 = none := by decide

/-! ## States with a program that stands at a word -/

/-- A powered module at stage S6 whose time base runs. -/
def up : State := { State.reset with
  boot := { State.reset.boot with stage := 6 }, time := { State.reset.time with running := true, pm := 5000 } }

def prog0 : Prog := { slot := 5, opId := 9, stream := 1, lclu := 0, checked := [storeKey 0 0] }
def op0 : Op := { rcpt := { opId := 9, state := .inProgress, stream := 1 }, kind := 2, place := .running }

/-- Physical cluster 0, which backs logical cluster 0, runs a program with the registers q at word w of its store. -/
def run (w : Nat) (q : Seq) : State := { up with
  store := { up.store with bytes := putBytes [] (storeKey 0 0) (bytesOfNat 4 w) }
  core := { up.core with clus := [(0, { seq := { q with prog := some prog0 } })] }
  ledger := [(5, op0)] }

theorem natOfBytes_bytesOfNat (k w : Nat) : natOfBytes (bytesOfNat k w) = w % 256 ^ k := by
  induction k generalizing w with
  | zero => simp [bytesOfNat, natOfBytes, Nat.mod_one]
  | succ k ih =>
    rw [bytesOfNat, natOfBytes, ih, Nat.pow_succ, Nat.mul_comm (256 ^ k), Nat.mod_mul]
    simp

theorem bytesOfNat_length (k w : Nat) : (bytesOfNat k w).length = k := by
  induction k generalizing w with
  | zero => rfl
  | succ k ih => simp [bytesOfNat, ih]

theorem run_seq (w : Nat) (q : Seq) : (run w q).seq 0 = { q with prog := some prog0 } := rfl

theorem run_word (w : Nat) (q : Seq) (h : w < 2 ^ 32) : leAt (memBytes (run w q) (storeKey 0 0) 4) 0 4 = w := by
  have e : memBytes (run w q) (storeKey 0 0) 4 = bytesOfNat 4 w := by
    have := memBytes_memPut_same { run w q with store := { bytes := [] } } (storeKey 0 0) (bytesOfNat 4 w)
    rw [bytesOfNat_length] at this
    exact this
  have l := bytesOfNat_length 4 w
  rw [e, leAt, bytesAt, List.drop_zero, List.take_of_length_le (by omega), natOfBytes_bytesOfNat]
  omega

/-- Every word can be stood at. -/
theorem run_at (w : Nat) (q : Seq) (h : w < 2 ^ 32) (h0 : q.wait = .none) (h1 : q.resuming = false) (h2 : q.pc = 0) :
    AtWord (run w q) 0 prog0 w := by
  have hp : ((run w q).seq 0).pc = 0 := h2
  refine ⟨rfl, h0, rfl, h1, ?_, ?_, ?_, ?_⟩
  · rw [hp]
  · rw [hp]; decide
  · rw [hp]; decide
  · rw [hp]; exact run_word w q h

theorem zipIdx_lt {α : Type} (l : List α) : ∀ e ∈ l.zipIdx, e.2 < l.length := by
  intro e h
  have := List.mem_zipIdx h
  omega

/-- The program's operation is still to end. -/
theorem run_op (w : Nat) (q : Seq) : OpRuns (run w q) prog0.slot op0 := ⟨rfl, rfl⟩

/-- The next state of an answer. -/
def nextOf (o : Host.Outcome State Fault Refusal) : Option State :=
  match o with
  | .next t => some t
  | _ => none

theorem test_exec_add : (nextOf (exec (.add 0 ⟨3, 1, 2⟩) (run 0x01844000 { sreg := [(1, 7), (2, 8)] }))).map
    (fun t => ((t.seq 0).s 3, (t.seq 0).pc)) = some (15, 4) := by decide +kernel
theorem test_exec_jal_links : (nextOf (exec (.jal 0 ⟨1, 0, 3⟩) (run (encBran 6 ⟨1, 0, 3⟩) {}))).map
    (fun t => ((t.seq 0).s 1, (t.seq 0).pc)) = some (4, 12) := by decide +kernel

/-! ## Witnesses: cluster programs -/

theorem encScal_lt (k : Nat) (a : Scal) (h : k < 32) : encScal k a < 2 ^ 32 := by
  have := a.sd.isLt; have := a.sa.isLt; have := a.sb.isLt; unfold encScal; omega
theorem encImm_lt (k : Nat) (a : ScalImm) (h : k < 16) : encImm k a < 2 ^ 32 := by
  have := a.sd.isLt; have := a.sa.isLt; have := a.imm.isLt; unfold encImm; omega
theorem encMem_lt (k : Nat) (a : ScalMem) (h : k < 8) : encMem k a < 2 ^ 32 := by
  have := a.sd.isLt; have := a.sa.isLt; have := a.off.isLt; unfold encMem; omega
theorem encBran_lt (k : Nat) (a : Bran) (h : k < 8) : encBran k a < 2 ^ 32 := by
  have := a.sa.isLt; have := a.sb.isLt; have := a.off.isLt; unfold encBran; omega
theorem encVec_lt (c f : Nat) (r : VRegs) (hc : c < 16) (hf : f < 512) : encVec c f r < 2 ^ 32 := by
  have := r.vd.isLt; have := r.vs1.isLt; have := r.vs2.isLt; have := r.vm.isLt
  have : boolNat r.msk < 2 := by cases r.msk <;> decide
  unfold encVec; omega

/-- Registers: s2 = 1, every other 0. -/
def qLess : Seq := { sreg := [(2, 1)] }

theorem wit_ScalarArithmetic :
    (∀ e ∈ scalRows.zipIdx, AtWord (run (encScal e.2 ⟨3, 1, 2⟩) qLess) 0 prog0 (encScal e.2 ⟨3, 1, 2⟩)) ∧
    (∀ e ∈ immRows.zipIdx, AtWord (run (encImm e.2 ⟨0, 1, -1⟩) qLess) 0 prog0 (encImm e.2 ⟨0, 1, -1⟩)) :=
  ⟨fun e h => run_at _ _ (encScal_lt _ _ (Nat.lt_of_lt_of_le (zipIdx_lt _ e h) (by decide))) rfl rfl rfl,
   fun e h => run_at _ _ (encImm_lt _ _ (Nat.lt_of_lt_of_le (zipIdx_lt _ e h) (by decide))) rfl rfl rfl⟩

/-- Each branch is taken with some registers, to the last word of the store, and not taken with others. -/
theorem wit_ControlTransfer_branches (k : Nat) (h : k < 6) (a : Bran) (q : Seq) (hq : q.wait = .none ∧ q.resuming = false ∧ q.pc = 0) :
    AtWord (run (encBran k a) q) 0 prog0 (encBran k a) :=
  run_at _ _ (encBran_lt _ _ (by omega)) hq.1 hq.2.1 hq.2.2

theorem wit_ControlTransfer_conditions : branchRows.length = 6 ∧
    (∀ p ∈ [((0 : W64), (0 : W64)), (0, 1), (0, 1), (0, 0), (0, 1), (0, 0)].zip branchRows, p.2.2 p.1.1 p.1.2) ∧
    (∀ p ∈ [((0 : W64), (1 : W64)), (0, 0), (1, 0), (0, 1), (1, 0), (0, 1)].zip branchRows, ¬ p.2.2 p.1.1 p.1.2) ∧
    fetchable (0 + 4 * (3 : BitVec 15).toInt) ∧ (run 0 qLess).seq 0 = { qLess with prog := some prog0 } := by
  refine ⟨rfl, ?_, ?_, ?_, rfl⟩
  · simp [branchRows]
  · simp [branchRows]
  · refine ⟨?_, ?_, ?_⟩ <;> decide

/-- JAL and JALR to a word of the store, the highest one included. -/
theorem wit_ControlTransfer_links :
    AtWord (run (encBran 6 ⟨1, 0, 3⟩) {}) 0 prog0 (encBran 6 ⟨1, 0, 3⟩) ∧ fetchable (((run 0 {}).seq 0).pc + 4 * (3 : BitVec 15).toInt) ∧
    AtWord (run (encBran 7 ⟨1, 2, 0⟩) { sreg := [(2, 0x3FFFFC)] }) 0 prog0 (encBran 7 ⟨1, 2, 0⟩) ∧
    fetchable (wrap64 ((0x3FFFFC : W64).toInt + 4 * (0 : BitVec 15).toInt)).toNat := by
  refine ⟨run_at _ _ (encBran_lt _ _ (by decide)) rfl rfl rfl, ⟨by decide, by decide, by decide⟩,
    run_at _ _ (encBran_lt _ _ (by decide)) rfl rfl rfl, ⟨by decide, by decide, by decide⟩⟩

/-- A branch back from word 0, a JAL back and a JALR to an odd address lead nowhere; a reserved FN is not legal. -/
theorem wit_ProgramErrors :
    OpRuns (run 0 {}) prog0.slot op0 ∧ ¬ fetchable (((run 0 {}).seq 0).pc + 4 * (-1 : BitVec 15).toInt) ∧
    AtWord (run (encBran 6 ⟨1, 0, -1⟩) {}) 0 prog0 (encBran 6 ⟨1, 0, -1⟩) ∧
    AtWord (run (encBran 7 ⟨1, 2, 0⟩) { sreg := [(2, 2)] }) 0 prog0 (encBran 7 ⟨1, 2, 0⟩) ∧
    ¬ fetchable (wrap64 ((2 : W64).toInt + 4 * (0 : BitVec 15).toInt)).toNat ∧
    AtWord (run 15 {}) 0 prog0 15 ∧ wordLegal ((run 15 {}).seq 0) 15 = false := by
  refine ⟨run_op 0 {}, ?_, run_at _ _ (encBran_lt _ _ (by decide)) rfl rfl rfl,
    run_at _ _ (encBran_lt _ _ (by decide)) rfl rfl rfl, ?_, run_at _ _ (by decide) rfl rfl rfl, by decide +kernel⟩
  · rintro ⟨h, -, -⟩; revert h; decide
  · rintro ⟨-, -, h⟩; revert h; decide

/-- A well-formed tensor descriptor: all its bytes zero but the fields that a rule wants otherwise. -/
theorem wit_SystemInstructions :
    (∀ k ∈ [2, 3, 4, 6, 7, 8, 9], AtWord (run (encSys k 0 0 0) {}) 0 prog0 (encSys k 0 0 0)) ∧
    AtWord (run (encSys 7 0 2 0) { sreg := [(2, 0xFFFFFFFF)] }) 0 prog0 (encSys 7 0 2 0) ∧
    (((run (encSys 7 0 2 0) { sreg := [(2, 0xFFFFFFFF)] }).seq 0).s 2).toNat < 2 ^ 32 ∧
    (run 0 {}).op 5 = some op0 ∧ op0.sat = 0 ∧ op0.nonfin = 0 ∧ op0.warns = [] ∧
    ((run 0 {}).clu 0).te.run = none ∧ ((run 0 {}).clu 0).te.queue = [] ∧ (run 0 {}).boot.computeReset = false := by
  refine ⟨?_, run_at _ _ (by decide) rfl rfl rfl, by decide, rfl, rfl, rfl, rfl, rfl, rfl, rfl⟩
  intro k hk
  refine run_at _ _ ?_ rfl rfl rfl
  simp only [List.mem_cons, List.not_mem_nil, or_false] at hk
  rcases hk with rfl | rfl | rfl | rfl | rfl | rfl | rfl <;> decide

theorem at_intro {s : State} {p : Nat} {g : Prog} {w : Nat} (h : (s.seq p).prog = some g ∧ (s.seq p).wait = .none ∧
    (s.lclu g.lclu).quiescing = false ∧ (s.seq p).resuming = false ∧ (s.seq p).pc % 4 = 0 ∧ (s.seq p).pc + 4 < 0x400000 ∧
    (storeKey p (s.seq p).pc - storeKey p (s.seq p).pc % 4096) ∈ g.checked ∧
    leAt (memBytes s (storeKey p (s.seq p).pc) 4) 0 4 = w) : AtWord s p g w := by
  obtain ⟨h1, h2, h3, h4, h5, h6, h7, h8⟩ := h
  exact ⟨h1, h2, h3, h4, h5, h6, h7, h8⟩

/-- The tensor descriptor of a one-element f32 product, with operands at 0x1000 and 0x2000 and its result at 0x3000. -/
def td0 : List Byte :=
  bytesOfNat 4 7 ++ zeroBytes 4 ++ [1, 0x11, 1, 0] ++ bytesOfNat 4 1 ++ bytesOfNat 4 1 ++ bytesOfNat 4 1 ++ zeroBytes 4 ++
  bytesOfNat 4 1 ++ bytesOfNat 4 1 ++ bytesOfNat 4 0x1000 ++ bytesOfNat 4 0x2000 ++ bytesOfNat 4 0x3000 ++ zeroBytes 16

/-- The same with bytes of its own at an offset of the store. -/
def runWith (w : Nat) (q : Seq) (off : Nat) (b : List Byte) : State := memPut (run w q) (storeKey 0 off) b

/-- A descriptor in the last 64 bytes of the store. -/
theorem wit_SystemInstructions_teissue :
    AtWord (runWith (encSys 5 0 2 0) { sreg := [(2, 0x3FFFC0)] } 0x3FFFC0 td0) 0 prog0 (encSys 5 0 2 0) ∧
    (0x3FFFC0 = (((run 0 { sreg := [(2, 0x3FFFC0)] }).seq 0).s 2).toNat ∧ 0x3FFFC0 % 64 = 0 ∧ 0x3FFFC0 + 64 ≤ 0x400000 ∧
      sealDeltaOf (runWith (encSys 5 0 2 0) { sreg := [(2, 0x3FFFC0)] } 0x3FFFC0 td0) (storeKey 0 0x3FFFC0) = 0 ∧
      tdMalformed (memBytes (runWith (encSys 5 0 2 0) { sreg := [(2, 0x3FFFC0)] } 0x3FFFC0 td0) (storeKey 0 0x3FFFC0) 64) =
        none ∧
      teGrants (runWith (encSys 5 0 2 0) { sreg := [(2, 0x3FFFC0)] } 0x3FFFC0 td0) 0 ownSeq = true) :=
  ⟨at_intro (by decide +kernel), by decide +kernel⟩

/-- A VLD at EPC faulted at its last active element. -/
theorem wit_SystemInstructions_eret :
    AtWord (runWith (encSys 3 0 0 0) { epc := 8, act := 4, resume := 3 } 8 (bytesOfNat 4 0xB0880000)) 0 prog0 (encSys 3 0 0 0) ∧
    (leAt (memBytes (runWith (encSys 3 0 0 0) { epc := 8, act := 4, resume := 3 } 8 (bytesOfNat 4 0xB0880000))
      (storeKey 0 8) 4) 0 4 = 0xB0880000 ∧ 0xB0880000 / 2 ^ 28 = 11 ∧
      (storeKey 0 8 - storeKey 0 8 % 4096) ∈ prog0.checked ∧ 3 < 4) :=
  ⟨at_intro (by decide +kernel), by decide +kernel⟩

/-- A program that waits for the tensor engine, which is idle. -/
theorem wit_SystemInstructions_wait :
    ((run (encSys 6 0 0 0) { wait := .tensor }).seq 0 = { { prog := some prog0 : Seq } with wait := .tensor }) ∧
    AtWord ((run (encSys 6 0 0 0) { wait := .tensor }).setSeq 0 { prog := some prog0 }) 0 prog0 (encSys 6 0 0 0) ∧
    leAt (memBytes (run (encSys 6 0 0 0) { wait := .tensor }) (storeKey 0 0) 4) 0 4 = encSys 6 0 0 0 ∧
    ((run (encSys 6 0 0 0) { wait := .tensor }).clu 0).te.run = none ∧
    ((run (encSys 6 0 0 0) { wait := .tensor }).clu 0).te.queue = [] :=
  ⟨rfl, at_intro (by decide +kernel), by decide +kernel, rfl, rfl⟩

/-- SHAPE to every format; an element's highest index; every CSR of the statement. -/
theorem wit_VectorMovesAndControl :
    (∀ f, f < 12 → AtWord (run (encCfg 0 1 2 f 0) {}) 0 prog0 (encCfg 0 1 2 f 0)) ∧
    (∀ k ∈ [1, 2], AtWord (run (encCfg k 1 2 1 127) {}) 0 prog0 (encCfg k 1 2 1 127)) ∧
    ((1 : BitVec 4).toNat < 11 ∧ (127 : BitVec 11).toNat < laneCap (fmtOr (1 : BitVec 4).toNat)) ∧
    (∀ c ∈ [0xC2, 0xC3, 0xC4], AtWord (run (encSys 1 0 2 c) { sreg := [(2, 0xFFFFFFFFFFFFFFFF)] }) 0 prog0 (encSys 1 0 2 c)) ∧
    (∀ c ∈ [0xC1, 0xC3, 0xC5, 0xC6], AtWord (run (encSys 0 1 0 c) { epc := 0x3FFFFC, efmt := 11, act := 1024 }) 0 prog0 (encSys 0 1 0 c)) ∧
    fetchable (0x3FFFFC : Nat) ∧ 11 < 12 ∧ 1024 ≤ 1024 := by
  refine ⟨fun f h => run_at _ _ (by unfold encCfg; omega) rfl rfl rfl, ?_, by decide +kernel, ?_, ?_, ⟨by decide, by decide, by decide⟩,
    by decide, by decide⟩
  · intro k h
    refine run_at _ _ ?_ rfl rfl rfl
    simp only [List.mem_cons, List.not_mem_nil, or_false] at h
    rcases h with rfl | rfl <;> decide
  · intro k h
    refine run_at _ _ ?_ rfl rfl rfl
    simp only [List.mem_cons, List.not_mem_nil, or_false] at h
    rcases h with rfl | rfl | rfl <;> decide
  · intro k h
    refine run_at _ _ ?_ rfl rfl rfl
    simp only [List.mem_cons, List.not_mem_nil, or_false] at h
    rcases h with rfl | rfl | rfl | rfl <;> decide

/-- Registers of 2 active f32 elements. -/
def qVec : Seq := { efmt := 1, act := 2, vreg := [(2, 0x3F8000003F800000)] }

/-- Every elementwise and bitwise instruction, with a vector and with an f64 pair and a scalar as second operand. -/
theorem wit_Elementwise (a : VArith) (k : Nat) (h : k < 32) (q : Seq) (hq : q.wait = .none ∧ q.resuming = false ∧ q.pc = 0) :
    AtWord (run (encArith 6 k a) q) 0 prog0 (encArith 6 k a) := by
  refine run_at _ _ (encVec_lt _ _ _ (by decide) ?_) hq.1 hq.2.1 hq.2.2
  have := a.rm.isLt; have := a.src.isLt; omega

theorem wit_Elementwise_operands : ((run 0 qVec).seq 0).efmt ≤ 3 ∧ (0 : BitVec 2) ≠ 2 ∧ (1 : BitVec 2) ≠ 3 ∧
    (⟨1, 0, 2, false, 0⟩ : VRegs).vs1 = 0 ∧ elemRows.length = 9 ∧ bitRows.length = 7 ∧
    ((run 0 { efmt := 11, act := 1 }).seq 0).fmt = .pair := by decide +kernel

theorem wit_Conversions :
    (∀ k, k < 3 → AtWord (run (encArith 7 k ⟨⟨4, 2, 3, false, 0⟩, 0, 0⟩) qVec) 0 prog0 (encArith 7 k ⟨⟨4, 2, 3, false, 0⟩, 0, 0⟩)) ∧
    (∀ k, k < 3 → legalWiden ((run 0 qVec).seq 0) (encArith 7 k ⟨⟨4, 2, 3, false, 0⟩, 0, 0⟩) = true) ∧
    AtWord (run (encConv ⟨⟨1, 2, 0, false, 0⟩, 2, 2, true, false⟩) qVec) 0 prog0 (encConv ⟨⟨1, 2, 0, false, 0⟩, 2, 2, true, false⟩) ∧
    legalConv ((run 0 qVec).seq 0) (encConv ⟨⟨1, 2, 0, false, 0⟩, 2, 2, true, false⟩) = true ∧
    AtWord (run (encConv ⟨⟨1, 2, 3, false, 0⟩, 0, 0, false, true⟩) qVec) 0 prog0 (encConv ⟨⟨1, 2, 3, false, 0⟩, 0, 0, false, true⟩) ∧
    legalConv ((run 0 qVec).seq 0) (encConv ⟨⟨1, 2, 3, false, 0⟩, 0, 0, false, true⟩) = true := by
  refine ⟨fun k h => run_at _ _ (encVec_lt _ _ _ (by decide) ?_) rfl rfl rfl, by decide +kernel, at_intro (by decide +kernel),
    by decide +kernel, at_intro (by decide +kernel), by decide +kernel⟩
  show k * 16 + (0 : BitVec 2).toNat * 4 + (0 : BitVec 2).toNat < 512
  have : (0 : BitVec 2).toNat = 0 := rfl
  omega

/-! ## Witnesses: reductions, masks, windows -/

theorem takeRec_ok {l : List Byte} {k : Nat} {r : RedRec}
    (h : redCheckOk l = true ∧ recOk (redOfBytes l) k = true ∧ redOfBytes l = r) : takeRec l k = .ok r := by
  obtain ⟨h1, h2, rfl⟩ := h
  simp [takeRec, h1, h2]

theorem encRed_lt (k : Nat) (a : VRed) (h : k < 16) : encRed k a < 2 ^ 32 := by
  refine encVec_lt _ _ _ (by decide) ?_
  have := a.fmtD.isLt
  have : boolNat a.low < 2 := by cases a.low <;> decide
  omega

theorem encMask_lt (k : Nat) (r : VRegs) (h : k < 16) : encMask k r < 2 ^ 32 := encVec_lt _ _ _ (by decide) (by omega)

theorem encWin_lt (k : Nat) (a : VWin) (h : k < 8) : encWin k a < 2 ^ 32 := by
  refine encVec_lt _ _ _ (by decide) ?_
  have := a.low.isLt
  omega

/-- A vector register that begins with bytes. -/
def regOf (l : List Byte) : VReg := BitVec.ofNat 4096 (natOfBytes l)

/-- A record that lacks its last two f32 terms, one that has them all, and the run that follows it. -/
def rec0 : RedRec := redFresh .f32 true 2 9 0
def rec1 : RedRec := { rec0 with next := 2, accValid := true }
def runRec : RedRec := { rec0 with next := 2, kind := 1, accValid := true }

def qRed (d s1 : RedRec) (act : Nat) : Seq :=
  { efmt := 1, act := act, vreg := [(4, regOf (redBytes d)), (9, regOf (redBytes s1))] }
def red0 : VRed := ⟨⟨4, 9, 0, false, 0⟩, 0, false⟩

theorem wit_Reductions_words (k : Nat) (h : k < 12) (q : Seq) (hq : q.wait = .none ∧ q.resuming = false ∧ q.pc = 0) :
    AtWord (run (encRed k red0) q) 0 prog0 (encRed k red0) ∧ (k < 12 → legalRed (encRed k red0) 1 = true) :=
  ⟨run_at _ _ (encRed_lt _ _ (by omega)) hq.1 hq.2.1 hq.2.2, fun _ => by
    have : ∀ k, k < 12 → legalRed (encRed k red0) 1 = true := by decide +kernel
    exact this k h⟩

/-- A record that a REDACC completes, one that REDFIN rounds, and a prefix that a run folds into. -/
theorem wit_Reductions :
    (takeRec (regBytes ((qRed rec0 rec1 2).v 4) 0) 0 = .ok rec0 ∧ rec0.next + 2 ≤ rec0.len ∧ rec0.next + 2 = rec0.len ∧
      rec0.fmt = 1 ∧ rec0.accF ≠ 0) ∧
    (takeRec (regBytes ((qRed rec0 rec1 2).v 9) 0) 0 = .ok rec1 ∧ rec1.next = rec1.len ∧ fmtOr (0 : BitVec 4).toNat ≠ .pair) ∧
    (takeRec (regBytes ((qRed rec0 runRec 2).v 9) 0) 1 = .ok runRec ∧ rec0.fmt = runRec.fmt ∧ rec0.accF = runRec.accF ∧
      rec0.len = runRec.len ∧ rec0.opId = runRec.opId ∧ rec0.element = runRec.element ∧ rec0.accValid = false ∧
      runRec.accValid = true ∧ 0 < runRec.next ∧ rec0.next = (runRec.next - 1) / 4096 * 4096) ∧
    (redCheckOk (regBytes ((qRed rec0 rec1 2).v 1) 0) = false ∧
      redCheckOk (regBytes ((qRed rec0 rec1 3).v 4) 0) = true ∧ rec0.len < rec0.next + 3 ∧
      rec0 = redOfBytes (regBytes ((qRed rec0 rec1 3).v 4) 0)) :=
  ⟨⟨takeRec_ok (by decide +kernel), by decide +kernel⟩, ⟨takeRec_ok (by decide +kernel), by decide +kernel⟩,
    ⟨takeRec_ok (by decide +kernel), by decide +kernel⟩, by decide +kernel⟩

/-- Two records of one register for the mean and the variance: with both terms to come, and with both taken. -/
theorem wit_ReductionResults :
    (takeTwo (regOf (redBytes rec0 ++ redBytes rec0)) = .ok (rec0, rec0) ∧
      redTakes (qRed rec0 rec0 2) rec0 = true) ∧
    (takeTwo (regOf (redBytes rec1 ++ redBytes rec1)) = .ok (rec1, rec1) ∧ rec1.next = rec1.len) ∧ (2 : Nat) ≠ 0 := by
  have h (r : RedRec) (h1 : takeRec (regBytes (regOf (redBytes r ++ redBytes r)) 0) 0 = .ok r)
      (h2 : takeRec (regBytes (regOf (redBytes r ++ redBytes r)) 64) 0 = .ok r) :
      takeTwo (regOf (redBytes r ++ redBytes r)) = .ok (r, r) := by
    unfold takeTwo; rw [h1, h2]
  exact ⟨⟨h _ (takeRec_ok (by decide +kernel)) (takeRec_ok (by decide +kernel)), by decide +kernel⟩,
    ⟨h _ (takeRec_ok (by decide +kernel)) (takeRec_ok (by decide +kernel)), by decide +kernel⟩, by decide⟩

/-- Compares with none, and with two, of the elements active. -/
theorem wit_Compares : (∀ e ∈ cmpRows.zipIdx, ∀ r : VRegs, AtWord (run (encMask e.2 r) qVec) 0 prog0 (encMask e.2 r)) ∧
    ((run 0 qVec).seq 0).efmt ≤ 3 ∧ ((run 0 {}).seq 0).act = 0 ∧ ((run 0 qVec).seq 0).act = 2 :=
  ⟨fun e h r => run_at _ _ (encMask_lt _ _ (Nat.lt_of_lt_of_le (zipIdx_lt _ e h) (by decide))) rfl rfl rfl, by decide, rfl, rfl⟩

theorem wit_MaskInstructions : (∀ e ∈ maskRows.zipIdx, ∀ r : VRegs, AtWord (run (encMask (5 + e.2) r) qVec) 0 prog0 (encMask (5 + e.2) r)) ∧
    (∀ k ∈ [9, 10, 11], ∀ r : VRegs, AtWord (run (encMask k r) qVec) 0 prog0 (encMask k r)) ∧ ((run 0 qVec).seq 0).act ≠ 0 := by
  refine ⟨fun e h r => run_at _ _ (encMask_lt _ _ ?_) rfl rfl rfl, fun k h r => run_at _ _ (encMask_lt _ _ ?_) rfl rfl rfl, by decide⟩
  · have h4 : e.2 < 4 := zipIdx_lt _ e h
    omega
  · simp only [List.mem_cons, List.not_mem_nil, or_false] at h
    omega

/-- The registers that each window instruction names, and the others zero. -/
def win0 (k : Nat) : VWin :=
  if k ≤ 1 then ⟨⟨0, 2, 0, false, 0⟩, 0⟩ else if k = 2 then ⟨⟨1, 0, 0, false, 0⟩, 1⟩ else if k = 3 then ⟨⟨0, 0, 0, false, 0⟩, 0⟩
  else if k = 4 then ⟨⟨1, 2, 0, false, 0⟩, 0⟩ else ⟨⟨0, 2, 0, false, 0⟩, 0⟩

theorem wit_WindowInstructions :
    (∀ k, k < 8 → AtWord (run (encWin k (win0 k)) qVec) 0 prog0 (encWin k (win0 k)) ∧ legalWin (encWin k (win0 k)) = true) ∧
    (∀ x ∈ winTerms ((run 0 qVec).seq 0) (win0 1).r (fun x _ => (x, valIsSig x)), winRefuses (-512) x.1 = false) ∧
    (∃ x ∈ winTerms ((run 0 qVec).seq 0) (win0 1).r (fun x _ => (x, valIsSig x)),
      winRefuses ((run 0 qVec).clu 0).win.base x.1 = true) ∧
    (-32768 ≤ (((run 0 { sreg := [(2, 31000)] }).seq 0).s 2).toInt ∧ (((run 0 { sreg := [(2, 31000)] }).seq 0).s 2).toInt ≤ 31000) := by
  refine ⟨fun k h => ⟨run_at _ _ (encWin_lt _ _ h) rfl rfl rfl, ?_⟩, by decide +kernel, ?_, by decide, by decide⟩
  · have : ∀ k, k < 8 → legalWin (encWin k (win0 k)) = true := by decide +kernel
    exact this k h
  · decide +kernel

/-- The window's base lies where the terms of `qVec` fit. -/
def runWin (k : Nat) : State :=
  (run (encWin k (win0 k)) qVec).setClu 0 { (run (encWin k (win0 k)) qVec).clu 0 with win := { base := -512 } }

theorem wit_WindowInstructions_admits : AtWord (runWin 1) 0 prog0 (encWin 1 (win0 1)) ∧ OpRuns (runWin 1) prog0.slot op0 ∧
    ∀ x ∈ winTerms ((runWin 1).clu 0).seq (win0 1).r (fun x _ => (x, valIsSig x)), winRefuses ((runWin 1).clu 0).win.base x.1 = false :=
  ⟨at_intro (by decide +kernel), ⟨rfl, rfl⟩, by decide +kernel⟩

/-! ## Witnesses: memory instructions and program start -/

theorem run_own (w : Nat) (q : Seq) : OwnStore (run w q) 0 0 := by
  refine ⟨by decide, ?_, rfl, rfl, rfl⟩
  rfl

/-- Registers: s1 the device address of byte `off` of the cluster's own store, s2 = 0x1234. -/
def qAddr (off : Nat) : Seq := { sreg := [(1, BitVec.ofNat 64 (storeAddr 0 off)), (2, 0x1234)] }

/-- The last bytes of the store, for each size; and an address between two halfwords. -/
theorem wit_ScalarMemory :
    (∀ k, k < 8 → ∀ a : ScalMem, ∀ off, AtWord (run (encMem k a) (qAddr off)) 0 prog0 (encMem k a)) ∧
    (∀ k, k < 4 → ((((run 0 (qAddr (0x400000 - 2 ^ k))).seq 0).s 1) + BitVec.ofInt 64 (0 : BitVec 15).toInt).toNat =
        storeAddr 0 (0x400000 - 2 ^ k) ∧ (0x400000 - 2 ^ k) % 2 ^ k = 0 ∧ 0x400000 - 2 ^ k < 0x400000 ∧
        sealDeltaOf (run 0 (qAddr (0x400000 - 2 ^ k))) (storeKey 0 (0x400000 - 2 ^ k)) = 0) ∧
    (∀ k, k < 4 → 1 ≤ k → ((((run 0 (qAddr 1)).seq 0).s 1) + BitVec.ofInt 64 (0 : BitVec 15).toInt).toNat % 2 ^ k ≠ 0) ∧
    (∀ x, accKey (run 0 (qAddr 1)) (BitVec.ofNat 64 (storeAddr 0 1)) = some x → readLocked (run 0 (qAddr 1)) (.prog 0) x = false) ∧
    (accRemote (run 0 (qAddr 1)) (BitVec.ofNat 64 (storeAddr 0 1))).isNone :=
  ⟨fun k h a off => run_at _ _ (encMem_lt _ _ h) rfl rfl rfl, by decide +kernel, by decide +kernel, by
      intro x h
      have e : x = storeKey 0 1 := by
        have : accKey (run 0 (qAddr 1)) (BitVec.ofNat 64 (storeAddr 0 1)) = some (storeKey 0 1) := by decide +kernel
        rw [this] at h; exact (Option.some.inj h).symm
      subst e; decide +kernel, by decide +kernel⟩

/-- Two f32 elements in the last 8 bytes of the store. -/
def qLast : Seq := { qAddr 0x3FFFF8 with efmt := 1, act := 2 }
def vmem0 : VMem := ⟨⟨4, 1, 0, false, 0⟩, false⟩
/-- The same elements by their offsets, which stand in register v2; the base is the start of the store. -/
def qIdx : Seq := { qAddr 0 with efmt := 1, act := 2, vreg := [(2, 0x3FFFF8 + 0x3FFFFC * 2 ^ 64)] }
def gath0 : VRegs := ⟨4, 1, 2, false, 0⟩

theorem wit_VectorMemory :
    (∀ d, d < 2 → AtWord (run (encVMem d vmem0) qLast) 0 prog0 (encVMem d vmem0) ∧
      AtWord (run (encGath d gath0) qIdx) 0 prog0 (encGath d gath0)) ∧
    8 ≤ fmtBits ((run 0 qLast).seq 0).fmt ∧ ((run 0 qLast).clu 0).te.run = none ∧
    ((run 0 qLast).seq 0).act ≤ laneCap ((run 0 qLast).seq 0).fmt ∧
    (∀ d, d < 2 → legalGath ((run 0 qIdx).seq 0) (encGath d gath0) = true) ∧
    (∀ x ∈ linearAccs ((run 0 qLast).seq 0) vmem0.r vmem0.strided, OwnAcc (run 0 qLast) 0 0 x ∧ Unlocked (run 0 qLast) 0 5 (accOff 0 x)) ∧
    (∀ x ∈ indexedAccs ((run 0 qIdx).seq 0) gath0, OwnAcc (run 0 qIdx) 0 0 x ∧ Unlocked (run 0 qIdx) 0 5 (accOff 0 x)) ∧
    (linearAccs ((run 0 qLast).seq 0) vmem0.r vmem0.strided).length = 2 ∧ (indexedAccs ((run 0 qIdx).seq 0) gath0).length = 2 := by
  refine ⟨fun d h => ⟨run_at _ _ (encVec_lt _ _ _ (by decide) ?_) rfl rfl rfl, run_at _ _ (encVec_lt _ _ _ (by decide) (by omega)) rfl rfl rfl⟩,
    by decide, rfl, by decide, by decide +kernel, ?_, ?_, by decide +kernel, by decide +kernel⟩
  · show d * 256 + boolNat false * 128 < 512
    have : boolNat false = 0 := rfl
    omega
  · unfold OwnAcc Unlocked; decide +kernel
  · unfold OwnAcc Unlocked; decide +kernel

/-- A load whose first element lies between two words, without a handler and with one. -/
def qMis : Seq := { qAddr 2 with efmt := 1, act := 2 }

theorem wit_VectorFault :
    AtWord (run (encVMem 0 vmem0) qMis) 0 prog0 (encVMem 0 vmem0) ∧ OpRuns (run (encVMem 0 vmem0) qMis) prog0.slot op0 ∧
    (∃ x rest, linearAccs ((run 0 qMis).seq 0) vmem0.r vmem0.strided = x :: rest ∧ x.ok = false ∧
      (∀ y ∈ rest, accRemote (run 0 qMis) y.a = none) ∧ accRemote (run 0 qMis) x.a = none) ∧
    ((run 0 qMis).seq 0).trapVec = 0 ∧
    (((run 0 { qMis with trapVec := 0x3FFFFC }).seq 0).trapVec ≠ 0 ∧ ((run 0 { qMis with trapVec := 0x3FFFFC }).seq 0).inHandler = false) ∧
    AtWord (run (encGath 0 gath0) { qIdx with vreg := [(2, 2)] }) 0 prog0 (encGath 0 gath0) ∧
    (∃ x rest, indexedAccs ((run 0 { qIdx with vreg := [(2, 2)] }).seq 0) gath0 = x :: rest ∧ x.ok = false) := by
  refine ⟨at_intro (by decide +kernel), run_op _ _, ?_, rfl, by decide, at_intro (by decide +kernel), ?_⟩
  · exact ⟨_, _, rfl, by decide +kernel, by decide +kernel, by decide +kernel⟩
  · exact ⟨_, _, rfl, by decide +kernel⟩

theorem crcBits_lt (k c : Nat) (h : c < 2 ^ 32) : crcBits k c < 2 ^ 32 := by
  induction k generalizing c with
  | zero => exact h
  | succ k ih =>
    unfold crcBits
    apply ih
    split
    · exact Nat.xor_lt_two_pow (by omega) (by decide)
    · omega

theorem crcStep_lt (l : List Byte) (c : Nat) (h : c < 2 ^ 32) : crcStep c l < 2 ^ 32 := by
  induction l generalizing c with
  | nil => exact h
  | cons b t ih =>
    apply ih
    apply crcBits_lt
    have := b.isLt
    exact Nat.xor_lt_two_pow h (by omega)

theorem crc_lt (l : List Byte) : crc32c l < 2 ^ 32 :=
  Nat.xor_lt_two_pow (crcStep_lt l _ (by decide)) (by decide)

theorem winBody_length (w : Win) : (winBody w).length = 156 := by
  simp [winBody, bytesOfNat_length]

/-- The CHECK of a saved window holds. -/
theorem winCheck (w : Win) : winCheckOk (winBytes w) = true := by
  have h := winBody_length w
  have e : natOfBytes (bytesOfNat 4 (crc32c (winBody w))) = crc32c (winBody w) % 256 ^ 4 := natOfBytes_bytesOfNat _ _
  have hc : crc32c (winBody w) % 256 ^ 4 = crc32c (winBody w) := Nat.mod_eq_of_lt (crc_lt _)
  have l := bytesOfNat_length 4 (crc32c (winBody w))
  unfold winCheckOk winBytes leAt bytesAt
  rw [List.take_append_of_le_length (by omega), List.take_of_length_le (by omega), List.drop_append_of_le_length (by omega),
    List.drop_of_length_le (by omega), List.nil_append, List.take_of_length_le (by omega), e, hc]
  simp

theorem win_stored : memBytes (runWith 0 {} (0x400000 - 160) (winBytes {})) (storeKey 0 (0x400000 - 160)) 160 = winBytes {} := by
  have := memBytes_memPut_same (run 0 {}) (storeKey 0 (0x400000 - 160)) (winBytes {})
  have l : (winBytes {}).length = 160 := by simp [winBytes, winBody_length, bytesOfNat_length]
  rw [l] at this
  exact this

/-- A window record in the last 160 bytes of the store. -/
theorem wit_WindowRecords :
    (∀ k, k < 8 → 6 ≤ k → AtWord (run (encWin k (win0 k)) { sreg := [(2, BitVec.ofNat 64 (storeAddr 0 (0x400000 - 160)))] }) 0 prog0
      (encWin k (win0 k)) ∧ legalWin (encWin k (win0 k)) = true) ∧
    (((run 0 { sreg := [(2, BitVec.ofNat 64 (storeAddr 0 (0x400000 - 160)))] }).seq 0).s (win0 6).r.vs1.toNat).toNat =
      storeAddr 0 (0x400000 - 160) ∧
    sealDeltaOf (run 0 {}) (storeKey 0 (0x400000 - 160)) = 0 ∧ sealDeltaOf (run 0 {}) (storeKey 0 (0x400000 - 1)) = 0 ∧
    winCheckOk (memBytes (runWith 0 {} (0x400000 - 160) (winBytes {})) (storeKey 0 (0x400000 - 160)) 160) = true ∧
    (winOfBytes (memBytes (runWith 0 {} (0x400000 - 160) (winBytes {})) (storeKey 0 (0x400000 - 160)) 160)).base =
      ((runWith 0 {} (0x400000 - 160) (winBytes {})).clu 0).win.base := by
  refine ⟨fun k h h6 => ⟨run_at _ _ (encWin_lt _ _ h) rfl rfl rfl, ?_⟩, by decide +kernel, by decide +kernel, by decide +kernel,
    ?_, ?_⟩
  rotate_left
  · rw [win_stored]; exact winCheck {}
  · rw [win_stored]; decide +kernel
  have : ∀ k, k < 8 → legalWin (encWin k (win0 k)) = true := by decide +kernel
  exact this k h

/-- A program of entry 0x3FFFFC queued for logical cluster 3. -/
def opProg : Op := {
  rcpt := { opId := 7, stream := 2 }
  kind := 2
  place := .queued
  target := 3
  payload := zeroBytes 4 ++ bytesOfNat 4 0x3FFFFC ++ bytesOfNat 8 5 }
def upProg : State := { up with ledger := [(8, opProg)], core := { up.core with lclus := [(3, { progs := [8] })] } }

theorem wit_ProgramStarts : (upProg.seq (physOfN upProg 3)).prog = none ∧ (upProg.lclu 3).progs = [8] ∧ mayStart upProg 3 = true ∧
    upProg.op 8 = some opProg ∧ opProg.rcpt.state = .notStarted ∧ leAt opProg.payload 4 4 = 0x3FFFFC ∧ 0x3FFFFC % 4 = 0 ∧
    0x3FFFFC < 0x400000 := by decide +kernel

/-! ## Witnesses: the tensor engine and its inspection -/

/-- A descriptor for logical cluster 3 at its issuer. -/
def opTe (b : List Byte) : Op := { rcpt := { opId := 7, stream := 2 }, kind := 1, place := .atIssuer, target := 3, payload := b }
def upTe (b : List Byte) : State := { up with ledger := [(8, opTe b)] }
def lcluOf (s : State) (c : LClus) : State := { s with core := { s.core with lclus := [(3, c)] } }

theorem wit_TensorDescriptors_issue :
    ((upTe td0).op 8 = some (opTe td0) ∧ (opTe td0).kind = 1 ∧ (opTe td0).place = .atIssuer ∧ (opTe td0).rcpt.state = .notStarted) ∧
    isDead { upTe td0 with core := { up.core with dead := [(3, true)] } } (opTe td0).target = true ∧
    (isDead (lcluOf (upTe td0) { asleep := true }) (opTe td0).target = false ∧
      isAsleep (lcluOf (upTe td0) { asleep := true }) (opTe td0).target = true) ∧
    (isDead (upTe td0) 3 = false ∧ isAsleep (upTe td0) 3 = false ∧
      teGrants (upTe td0) (physOfN (upTe td0) (opTe td0).target) 8 = true ∧ tdMalformed (opTe td0).payload = none ∧
      (tdMalformed (opTe []).payload).isSome = true) := by decide +kernel

/-- Cluster 3 with one queued descriptor, and with the same one running. -/
def item0 : TeItem := ⟨8, false, td0⟩
def upQueue : State := { up with
  ledger := [(8, { opTe td0 with place := .queued })], core := { up.core with clus := [(3, { te := { queue := [item0] } })] } }
def upRun (r : TeRun) : State := { up with
  ledger := [(8, { opTe td0 with place := .running, rcpt := { opId := 7, stream := 2, state := .inProgress } })]
  core := { up.core with clus := [(3, { te := { run := some r } })] } }

theorem wit_TensorDescriptors_start : physOfN upQueue 3 = 3 ∧ (upQueue.clu 3).te.run = none ∧
    (upQueue.clu 3).te.queue = [item0] ∧ mayStart upQueue 3 = true := by decide +kernel

theorem wit_TensorRegisterActions :
    (regGate up 2 (cluBase 0 + 0x180) true = .ok ∧ regGate up 2 (cluBase 2303 + 0x180) true = .ok) ∧
    (regGate up 2 (cluBase 0 + 0x1C0) true = .ok ∧ (up.clu 0).te.redSave.toNat % 64 = 0 ∧ (up.clu 0).te.redPhase ≠ 1 ∧
      (up.clu 0).te.susp = none ∧
      (up.clu 0).te.run = none) ∧
    ({ (up.clu 0).te with redSave := 1 }.redSave.toNat % 64 ≠ 0) ∧
    (regGate (upRun { item := item0 }) 2 (cluBase 3 + 0x200) true = .ok ∧
      ((upRun { item := item0 }).clu 3).te.run = some { item := item0 } ∧
      ((upRun { item := item0 }).clu 3).te.susp = none ∧ item0.byProg = false ∧
      (∃ o, OpRuns (upRun { item := item0 }) item0.slot o)) := by
  refine ⟨by decide +kernel, by decide +kernel, by decide, by decide +kernel, by decide +kernel, rfl, rfl, _, rfl, rfl⟩

def hold0 : Hold := ⟨0, zeroBytes 4096, zeroBytes 64, some 5, some 6, none, false⟩
def runOf (h : Hold) : TeRun := { item := item0, hold := some h }

theorem wit_BandsAndInspector_band : physOfN (upRun (runOf hold0)) 3 = 3 ∧
    ((upRun (runOf hold0)).clu 3).te.run = some (runOf hold0) ∧ (runOf hold0).band < (tdescOf td0).bands ∧
    ((upRun (runOf hold0)).clu 3).te.susp = none ∧
    (runOf hold0).hold = some hold0 ∧ hold0.recompute = some 5 ∧ hold0.c = none ∧ (zeroBytes 4096).length = 4096 := by
  exact ⟨by decide +kernel, rfl, by decide +kernel, rfl, rfl, rfl, rfl, List.length_replicate⟩

/-- A recompute of the parcel's one element reads its operands, whose seals fit. -/
theorem wit_BandsAndInspector_recompute :
    recomputeCheck (upRun { item := item0 }) 3 { item := item0 } (tdescOf td0) 0 = (upRun { item := item0 }, none) := by
  decide +kernel

/-- Holds that have been recomputed: right, wrong, and of an original with a parity error. -/
def hold1 (c : Byte) (par : Bool) : Hold :=
  { hold0 with c := some (List.replicate 4096 c), parity := par }

/-- Each of the five cases, by what recomputing and rechecking bring. -/
theorem case_of (h : Hold) (x : List Byte) (l : List Nat) (b : List Byte) (hc : h.c = some x) :
    (h.parity = false → x = h.orig → b = linesOf h.orig l → outcomeCase h l (some b) = 1) ∧
    (h.parity = true → b = linesOf x l → outcomeCase h l (some b) = 2) ∧
    (h.parity = false → x ≠ h.orig → linesOf x l ≠ b → b = linesOf h.orig l → outcomeCase h l (some b) = 3) ∧
    (h.parity = false → x = h.orig → b ≠ linesOf h.orig l → outcomeCase h l (some b) = 4) ∧
    (h.parity = true → linesOf x l ≠ b → outcomeCase h l (some b) = 5) := by
  refine ⟨?_, ?_, ?_, ?_, ?_⟩ <;> intros <;> simp_all [outcomeCase] <;> split <;> simp_all

theorem zeros_ne_ones : List.replicate 4096 (1 : Byte) ≠ zeroBytes 4096 := by
  intro h
  have := congrArg (fun l => l.headD 2) h
  revert this; decide +kernel

theorem wit_BandsAndInspector_cases : runLines (runOf (hold1 0 false)) (tdescOf td0) 0 = [12] ∧
    outcomeCase (hold1 0 false) [12] (some (linesOf (zeroBytes 4096) [12])) = 1 ∧
    outcomeCase (hold1 1 true) [12] (some (linesOf (List.replicate 4096 1) [12])) = 2 ∧
    outcomeCase (hold1 1 false) [12] (some (linesOf (zeroBytes 4096) [12])) = 3 ∧
    outcomeCase (hold1 0 false) [12] (some [1]) = 4 ∧ outcomeCase (hold1 0 true) [12] (some [1]) = 5 := by
  refine ⟨by decide +kernel, (case_of _ _ _ _ rfl).1 rfl rfl rfl, (case_of _ _ _ _ rfl).2.1 rfl rfl,
    (case_of _ _ _ _ rfl).2.2.1 rfl zeros_ne_ones ?_ rfl, (case_of _ _ _ _ rfl).2.2.2.1 rfl rfl ?_,
    (case_of _ _ _ _ rfl).2.2.2.2 rfl ?_⟩ <;> decide +kernel

theorem wit_BandsAndInspector_state (c : Byte) (par : Bool) :
    ((upRun (runOf (hold1 c par))).clu 3).te.run = some (runOf (hold1 c par)) ∧
    (∃ o, OpRuns (upRun (runOf (hold1 c par))) item0.slot o) ∧
    readLocked (upRun (runOf (hold1 c par))) (.te 3) (storeKey 3 ((tdescOf td0).outOff + 0 * 4096)) = false ∧
    (upRun (runOf (hold1 c par))).boot.computeReset = false ∧
    clashOf (upRun (runOf (hold1 c par))) item0.slot (storeKey 3 ((tdescOf td0).outOff + 0 * 4096)) = none ∧
    (tdescOf td0).outOff + (0 + 1) * 4096 ≤ 0x400000 ∧ (tdescOf td0).outOff % 4096 = 0 ∧ (runOf (hold1 c par)).next = 0 := by
  refine ⟨rfl, ⟨_, rfl, rfl⟩, ?_, rfl, ?_, by decide +kernel, by decide +kernel, rfl⟩
  · cases par <;> (revert c; intro c; rfl)
  · rfl

/-- Check states: a suspect, and a cluster under test with its last chance before the limit. -/
def upChk (c : CluChk) : State := { up with core := { up.core with clus := [(3, { chk := c })] } }

theorem wit_RepeatTestsAndParity :
    (((upChk { state := .suspect }).clu 3).chk.state = .suspect ∧ cluStill (upChk { state := .suspect }) 3 = true ∧
      up.boot.computeReset = false ∧ 5 ≤ up.boot.stage) ∧
    (((upChk { state := .testing, transients := 2 }).clu 3).chk.state = .testing ∧ up.chk.hour = up.now / 3600000000000 ∧
      ((upChk { state := .testing, transients := 2 }).clu 3).chk.transients + 1 < up.chk.transLimit) ∧
    (KSorted (upChk {}).core.clus ∧ { up with chk := { up.chk with hour := 1 } }.chk.hour ≠
      { up with chk := { up.chk with hour := 1 } }.now / 3600000000000) ∧
    (up.boot.stage ≠ 0 ∧ up.pins.power = true ∧ (up.seq 3).prog = none) := by
  refine ⟨by decide +kernel, by decide +kernel, ⟨?_, by decide +kernel⟩, by decide +kernel⟩
  simp [upChk]

/-! ## Witnesses: letterboxes, streams, the ledger and registers -/

/-- The first 64 bytes of an entry whose CHECK holds when the rest are zero and not there: phase bit, kind and slot. -/
def entryHead (phase kind slot : Nat) : List Byte := bytesOfNat 4 (phase + 256 * kind) ++ bytesOfNat 4 slot ++ zeroBytes 56
def entry (phase kind slot : Nat) : List Byte := overlay (entryHead phase kind slot) 60 (bytesOfNat 4 (crc32c (entryHead phase kind slot)))

/-- A module whose letterbox 255 is enabled, with its tail at the last count before it wraps. -/
def upBox : State := { up with
  hif := { up.hif with linkUp := true, collectEn := true }
  boxes := [(255, { enable := true, tail := 0xFFFFFFFF })] }

theorem wit_CollectionVisit : boxRuns upBox 255 = true ∧ (upBox.box 255).lastVisit = none ∧ (upBox.box 255).tail < 2 ^ 32 ∧
    leAt (entry 1 2 0) 0 1 % 2 ≠ ringPhase (upBox.box 255).tail (upBox.box 255).sizeLog2 ∧
    leAt (entry 0 2 131071) 0 1 % 2 = ringPhase (upBox.box 255).tail (upBox.box 255).sizeLog2 := by decide +kernel

/-- The highest slot, free; a slot in use; and a slot that does not exist. -/
theorem wit_CollectionVisit_entries :
    crc32c (overlay (entry 0 2 131071) 60 (zeroBytes 4)) = leAt (entry 0 2 131071) 60 4 ∧
    crc32c (overlay (entry 0 2 131072) 60 (zeroBytes 4)) = leAt (entry 0 2 131072) 60 4 ∧ 131072 ≤ entrySlot (entry 0 2 131072) ∧
    (({ upBox with ledger := [(131071, op0)] }).op (entrySlot (entry 0 2 131071))).isSome = true ∧
    entrySlot (entry 0 2 131071) < 131072 ∧ upBox.op (entrySlot (entry 0 2 131071)) = none ∧
    entryFault upBox (entry 0 2 131071) = none ∧ leAt (entry 0 2 131071) 1 1 ≠ 7 ∧
    (upBox.strm (leAt (entry 0 2 131071) 8 2)).halted = false ∧ (∀ e ∈ upBox.ledger, opDoomed upBox e.2 = none) ∧
    entryDeps (entry 0 2 131071) = [] := by decide +kernel

/-- An operation of a kind in its stream, behind one that is done and on which it depends. -/
def opDone : Op := { rcpt := { opId := 6, stream := 2, state := .done }, kind := 2, place := .final }
def opWait (kind : Nat) : Op := { rcpt := { opId := 7, stream := 2 }, kind := kind, target := 3, deps := [7] }
def upWait (kind : Nat) : State := { up with
  ledger := [(7, opDone), (8, opWait kind)], streams := [(2, { ops := [7, 8] })] }

theorem wit_StreamsIssue :
    (∀ k ∈ [1, 2, 3, 4, 5, 6], (upWait k).op 8 = some (opWait k) ∧ opReady (upWait k) 8 (opWait k) = true) ∧
    (isDead (upWait 2) 3 = false ∧ isAsleep (upWait 2) 3 = false) ∧
    ((upWait 7).op 8 = some (opWait 7) ∧ (opWait 7).rcpt.state = .notStarted ∧ (opWait 7).sat = 0 ∧ (opWait 7).nonfin = 0 ∧
      (opWait 7).warns = [] ∧ (∀ d ∈ (opWait 7).deps, opIsDone (upWait 7) d = true) ∧
      (∀ d ∈ opsBefore (upWait 7) 2 8, opIsDone (upWait 7) d = true)) := by decide +kernel

/-- A notice whose window has ended, with its vector unmasked. -/
def upNotify : State := { upBox with
  boxes := [(255, { notifyAt := some 0, period := 1, vector := 17 })], ring := { up.ring with msixTable := [(71, 0)] }
  time := { up.time with pm := 10000 } }
theorem wit_StreamsIssue_notify : (upNotify.box 255).notifyAt = some 0 ∧ sameWindow (upNotify.box 255) 0 upNotify.now = false ∧
    upNotify.hif.linkUp = true ∧ (msixWord upNotify (4 * (upNotify.box 255).vector + 3)).toNat % 2 = 0 := by decide +kernel

/-- A final operation that nothing waits for, one that runs, a halted stream, aligned and unaligned aperture bases. -/
def upLedger : State := { upBox with
  ledger := [(7, opDone), (131071, op0)], streams := [(65535, { halted := true })]
  ring := { up.ring with streamIndex := 65535 }
  hif := { upBox.hif with mirrorEn := true, apBase := 0x40000000 } }
theorem wit_LedgerAndLetterboxRegisters :
    (∀ o ∈ [0x10060, 0x10098, 0x10018, 0x10054, 0x10004, boxBase 255 + 8], regGate upLedger 2 o true = .ok) ∧
    (upLedger.op 7 = some opDone ∧ rstateFinal opDone.rcpt.state = true ∧
      (∀ e ∈ upLedger.ledger, e.2.rcpt.state = .notStarted → 7 ∉ e.2.deps)) ∧
    (upLedger.op ((131071 : W32).toNat % 2 ^ 17) = some op0 ∧ rstateFinal op0.rcpt.state = false) ∧
    (upLedger.strm upLedger.ring.streamIndex).halted = true ∧
    upLedger.hif.apBase.toNat % 2 ^ 30 = 0 ∧ { upLedger.hif with apBase := 0x3FFFFFFF }.apBase.toNat % 2 ^ 30 ≠ 0 ∧
    upLedger.ring.heldNotices = [] ∧ up.hif.mirrorEn = false ∧ (upLedger.hif.mirrorEn = true ∧ upLedger.hif.linkUp = true) ∧
    (0x80000000 : W32).toNat.testBit 31 = true ∧ (up.box 255).enable = false := by decide +kernel

/-- The table lets Sorter write HIF_RCPT_INDEX; a receipt's index; a register pair; an access before its block answers and one
that a table refuses. -/
def upRcpt : State := { up with ledger := [(5, op0)], ring := { up.ring with rcptIndex := 5 } }
theorem wit_RegisterAccess :
    (regGate up 1 0x10068 true = .ok ∧ regGate (regWriteWord up 1 none 0x10068 0x1FFFF) 1 (0x10068 + 4) true = .ok) ∧
    (0x10069 % 4 ≠ 0 ∧ [(1 : Byte)].length % 4 ≠ 0) ∧
    (∀ o ∈ [0x10000, 0x10014], regGate up 2 o false = .ok ∧ o % 4 = 0 ∧ rcptOff o = false ∧ regPair up o = none) ∧
    ((regPair up (0x10014 - 4)).isSome = true ∧ (regPair up (0x10000 - 4)).isSome = false) ∧
    (regGate up 2 0x10070 false = .ok ∧ up.op up.ring.rcptIndex = none) ∧ addrEarly up 2 true 0x7F0000010068 = false ∧
    (regGate up 2 0x10010 false = .ok ∧ 0x10010 % 4 = 0 ∧ rcptOff 0x10010 = false ∧ (regPair up 0x10010).isSome = true) ∧
    (regGate upRcpt 2 0x10070 false = .ok ∧ upRcpt.op upRcpt.ring.rcptIndex = some op0) ∧
    regGate { up with access := { masks := [], wins := [] } } 2 0x10068 true = .denied ∧
    (addrEarly { up with boot := { up.boot with stage := 1 } } 2 true 0x7F0000010068 = true ∧
      addrEarly { up with boot := { up.boot with stage := 1 } } 2 false 0x7F0000010068 = true) := by decide +kernel

/-- A row moved to the first whole spare row, and a tile none of whose spares is whole. -/
def upMove : State := { up with core := { up.core with tiles := [(7, { swapResult := 1, swapMoving := 15 })] } }
/-- The same with a shadow copy that maps two rows to one. -/
def upTwice : State := { up with core := { up.core with tiles := [(7, { swapResult := 1, swapMoving := 15, fwdShadow := [(0, 2)] })] } }
theorem wit_RowMoves :
    (up.boot.stage ≠ 0 ∧ shadowOk up 7 = true) ∧
    shadowOk { up with core := { up.core with tiles := [(7, { fwdShadow := [(0, 2)] })] } } 7 = false ∧
    (regGate up 2 (tilBase 7 + 0x1100) true = .ok ∧ (0x10F : W32).toNat.testBit 8 = true ∧ (up.tile 7).swapResult ≠ 1) ∧
    ((upMove.tile 7).swapResult = 1 ∧ wholeSpares upMove 7 = [16, 17] ∧ (upMove.tile 7).swapMoving < 16 ∧ 16 < 18 ∧
      shadowOk (upMove.setTile 7 { upMove.tile 7 with fwdShadow := fwdSet (upMove.tile 7).fwdShadow 15 16 }) 7 = true) ∧
    (wholeSpares upTwice 7 = [16, 17] ∧ (upTwice.tile 7).swapResult = 1 ∧
      shadowOk (upTwice.setTile 7 { upTwice.tile 7 with fwdShadow := fwdSet (upTwice.tile 7).fwdShadow 15 16 }) 7 = false) ∧
    wholeSpares { upMove with core := { upMove.core with holes := [(7 * 288 + 16 * 16, true), (7 * 288 + 17 * 16, true)] } } 7 = [] := by
  decide +kernel

/-! ## Witnesses: statistics slots, loss watches, stack engines -/

/-- The same module with all its stacks present. -/
def upMem : State := { up with store := { up.store with stks := (List.range 32).map (fun k => (k, { present := true })) } }

/-- A descriptor of an UPDATE of one element at step 5, with a TOUCHED region or without. -/
def ud (gate : Nat) (touch : Nat) : List Byte :=
  bytesOfNat 4 7 ++ [1, 2, 0, BitVec.ofNat 8 gate] ++ bytesOfNat 4 5 ++ bytesOfNat 4 1 ++ bytesOfNat 8 0x10000000 ++
  bytesOfNat 8 0x20000000 ++ bytesOfNat 8 0x30000000 ++ bytesOfNat 8 0x40000000 ++ bytesOfNat 8 0x50000000 ++ zeroBytes 8 ++
  bytesOfNat 8 touch ++ zeroBytes 16 ++ bytesOfNat 8 0x3FF0000000000000 ++ zeroBytes 16 ++ bytesOfNat 8 0x3FF0000000000000 ++
  zeroBytes 40

/-- What a read that went well brought. -/
def okVal {ε α : Type} [Inhabited α] (x : State × Except ε α) : α :=
  match x.2 with
  | .ok a => a
  | .error _ => default
def okB {ε α : Type} (x : State × Except ε α) : Bool :=
  match x.2 with
  | .ok _ => true
  | .error _ => false
theorem ok_eq {ε α : Type} [Inhabited α] {x : State × Except ε α} {s : State} (h : x.1 = s ∧ okB x = true) : x = (s, .ok (okVal x)) := by
  obtain ⟨a, b⟩ := x
  obtain ⟨h1, h2⟩ := h
  cases b with
  | error e => exact absurd h2 Bool.false_ne_true
  | ok v => exact congrArg (·, _) h1


/-- Slot 15 enabled for step 255, a legal shadow; its close in progress; slots whose shadow format is illegal. -/
def upQs (x : QsSlot) : State := { up with core := { up.core with
  qs := [(15, x)], qsPart := [(7 * 16 + 15, { smax := 0x3FF0000000000000, count := 1 })] } }
def qsOn : QsSlot := { actCfg := 0xFF008004, shdCfg := 8, shdScale := 0x7A800000 }
theorem wit_QuantisationSlots_collect :
    regGate (upQs qsOn) 2 (tilBase 7 + 0x4000) true = .ok ∧ collectDropped (upQs qsOn) 15 254 2047 = true ∧
    collectDropped (upQs qsOn) 15 255 2047 = false ∧ (0xFF0F00FF : W32).toNat.testBit 8 = false ∧
    (0xFF0F00FF : W32).toNat / 2 ^ 24 % 2 ^ 8 = 255 ∧ (0xFF0F00FF : W32).toNat / 2 ^ 16 % 2 ^ 8 = 15 := by decide +kernel
theorem wit_QuantisationSlots_control :
    (∀ o ∈ [qsBase 7 15 + 0x10, qsBase 7 15 + qsRegOff .scale, qsBase 7 15 + qsRegOff .cfg], regGate (upQs qsOn) 2 o true = .ok) ∧
    ((upQs qsOn).qslot 15).result ≠ 1 ∧ ((upQs qsOn).qslot 15).shdCfg.toNat % 16 = 8 ∧
    ((upQs qsOn).qslot 15).shdScale.toNat = 245 * 2 ^ 23 ∧ ((upQs { shdCfg := 9 }).qslot 15).result ≠ 1 ∧
    8 < ((upQs { shdCfg := 9 }).qslot 15).shdCfg.toNat % 16 ∧ ((upQs { shdCfg := 3 }).qslot 15).shdCfg.toNat % 16 < 4 ∧
    ((upQs { qsOn with result := 1 }).qslot 15).result = 1 := by decide +kernel

/-- A watch whose window has ended with one of two posts held, and posts for it, for an unwatched stream. -/
def upWatch (x : Watch) : State := { up with core := { up.core with
  watches := [(15, x)], posts := [⟨2047, 65535, 0xFFFFFFFF, 0x4000000000000000⟩, ⟨3, 4, 5, 6⟩] } }
def lwOn : Watch := { enabled := true, stream := 65535, windowUs := 5, posts := 2, openStep := 0xFFFFFFFF, cur := [⟨3, 0, 0⟩] }
theorem wit_LossWatches :
    (verdictDue ((upWatch lwOn).watch 15) (upWatch lwOn).now = true ∧ ((upWatch lwOn).watch 15).cur ≠ [] ∧
      ((upWatch lwOn).watch 15).nxt = [] ∧ ((upWatch lwOn).watch 15).cur.length < ((upWatch lwOn).watch 15).posts) ∧
    (∀ w, w < 16 → ((upWatch { lwOn with stream := 1 }).watch w).enabled = false ∨
      ((upWatch { lwOn with stream := 1 }).watch w).stream ≠ 65535) ∧
    (∀ x, x = (upWatch { lwOn with cur := [] }).watch 15 → x.enabled = true ∧ x.stream = 65535 ∧ x.openStep = 0xFFFFFFFF ∧
      verdictDue x up.now = false ∧ x.cur.length + 1 < x.posts ∧ 0 < x.windowUs) ∧
    (∀ r ∈ [LwReg.cfg, LwReg.window, LwReg.openStep],
      regGate (upWatch lwOn) 2 (tilBase 7 + 0x7000 + 15 * 0x40 + lwOffset r) true = .ok) ∧
    ((upWatch {}).watch 15).cur = [] := by
  refine ⟨by decide +kernel, by decide +kernel, ?_, by decide +kernel, by decide +kernel⟩
  rintro x rfl
  decide +kernel

/-- A descriptor of a GATHER, DROP or VERIFY on tile 7, and one of a REDUCE of f32 sums there. -/
def gd (op slot base n cnt list : Nat) : List Byte :=
  bytesOfNat 4 7 ++ [BitVec.ofNat 8 op, BitVec.ofNat 8 slot, 7, 0] ++ bytesOfNat 8 base ++ bytesOfNat 4 n ++ bytesOfNat 4 cnt ++
  bytesOfNat 8 list ++ zeroBytes 32
def rd (n : Nat) : List Byte :=
  bytesOfNat 4 7 ++ [2, 0x33, 7, 0] ++ bytesOfNat 4 n ++ bytesOfNat 4 2 ++ bytesOfNat 8 0x20000000 ++ bytesOfNat 8 0x10000000 ++
  zeroBytes 32

def seOp (b : List Byte) (pl : Place) (st : RState) : Op :=
  { rcpt := { opId := 7, stream := 2, state := st }, kind := 4, place := pl, payload := b, target := 7 }
/-- Tile 7's stack-engine group with a queue and a running operation; slot 131071 holds the operation. -/
def upSe (g : SeGroup) (o : Op) : State := { upMem with
  core := { up.core with se := [(7, g)], watches := [(3, { enabled := true, windowUs := 5, verdicts := [⟨5, true, 0, 0, 0⟩, ⟨6, false, 2, 0, 0⟩] })] }
  ledger := [(131071, o)] }
def seNew (b : List Byte) : State := upSe { stage := [(63, ⟨.full, 0x10000000, 5⟩)] } (seOp b .atIssuer .notStarted)
def seHead (b : List Byte) : State := upSe { queue := [(131071, b)], stage := [(63, ⟨.full, 0x10000000, 5⟩)] } (seOp b .queued .notStarted)

theorem wit_StackEngineQueue_descriptor :
    (∀ o, o = seOp (gd 4 63 0 0 0 0) .atIssuer .notStarted → (seNew (gd 4 63 0 0 0 0)).op 131071 = some o ∧ o.kind = 4 ∧
      o.place = .atIssuer ∧ o.rcpt.state = .notStarted ∧ seTile o.payload = 7) ∧
    ((seNew (gd 4 63 0 0 0 0)).seg 7).queue.length < 16 ∧ seMalformed (seNew (gd 4 63 0 0 0 0)) (gd 4 63 0 0 0 0) = none ∧
    seMalformed (seNew (gd 4 62 0 0 0 0)) (gd 4 62 0 0 0 0) = some (5, 0x28) := by
  refine ⟨?_, by decide +kernel, by decide +kernel, by decide +kernel⟩
  rintro o rfl
  decide +kernel

/-- Gated steps 5, whose verdict is open, and 6, whose verdict is closed. -/
def ug (step : Nat) : List Byte := (ud 0x83 0).take 8 ++ bytesOfNat 4 step ++ (ud 0x83 0).drop 12
theorem wit_StackEngineQueue_start : (∀ b ∈ [ud 0 0, ug 5, ug 6, gd 5 0 0x10000000 1 1 0x20000000, gd 4 63 0 0 0 0, rd 4, gd 3 63 0x10000000 1 1 0x20000000],
      ((seHead b).seg 7).run = none ∧ ((seHead b).seg 7).queue = [(131071, b)] ∧
      (seHead b).op 131071 = some (seOp b .queued .notStarted) ∧ (seOp b .queued .notStarted).rcpt.state = .notStarted ∧
      (seOp b .queued .notStarted).sat = 0 ∧ (seOp b .queued .notStarted).nonfin = 0 ∧ (seOp b .queued .notStarted).warns = []) ∧
    (seOpcode (ud 0 0) = 1 ∧ (udescOf (ud 0 0)).gated = false) ∧
    (seOpcode (ug 5) = 1 ∧ (udescOf (ug 5)).gated = true ∧
      verdictOf ((seHead (ug 5)).watch (udescOf (ug 5)).watch) (udescOf (ug 5)).step = some ⟨5, true, 0, 0, 0⟩) ∧
    (seOpcode (ug 6) = 1 ∧ (udescOf (ug 6)).gated = true ∧
      verdictOf ((seHead (ug 6)).watch (udescOf (ug 6)).watch) (udescOf (ug 6)).step = some ⟨6, false, 2, 0, 0⟩) ∧
    seOpcode (gd 5 0 0x10000000 1 1 0x20000000) = 5 ∧ seOpcode (gd 4 63 0 0 0 0) = 4 ∧ seOpcode (rd 4) = 2 ∧
    seOpcode (gd 3 63 0x10000000 1 1 0x20000000) = 3 := by decide +kernel

/-- The lists of a REDUCE and of a GATHER, in the bytes of HBM. -/
def listState (b l : List Byte) : State := { seHead b with store := { upMem.store with bytes := putBytes [] 0x10000000 l } }
def redState : State := listState (rd 4) (bytesOfNat 8 0x30000000 ++ bytesOfNat 8 0x40000000)
/-- Piece j's engine is one of the tile's four. -/
theorem seWork_any {P : State → Prop} (s : State) (t : Nat) (r : SeRun) (j : Nat)
    (h : ∀ k ∈ [4 * t, 4 * t + 1, 4 * t + 2, 4 * t + 3], P (s.setSest k { s.sest k with curOp := leAt r.desc 0 4 })) :
    P (seWork s t r j) := by
  have : seStackOf t r.desc j ∈ [4 * t, 4 * t + 1, 4 * t + 2, 4 * t + 3] := by
    have := Nat.mod_lt (Config.engineOf t (leAt r.desc 0 4) j) (show 4 > 0 by decide)
    unfold seStackOf
    generalize Config.engineOf t (leAt r.desc 0 4) j % 4 = x at *
    have : x = 0 ∨ x = 1 ∨ x = 2 ∨ x = 3 := by omega
    rcases this with rfl | rfl | rfl | rfl <;> simp
  exact h _ this
def seStarted (s : State) (b : List Byte) : State := seWork (seBegin s 7 131071 b []) 7 { slot := 131071, desc := b } 0
def redFrom (s : State) : State × Except (Nat × Nat) (List Byte) := readAt s (seMaster 7) (seBy 131071) (leAt (rd 4) 24 8) (8 * (rdescOf (rd 4)).sources)
def gatB : List Byte := gd 3 62 0x20000000 1 1 0x10000000
def gatState : State := listState gatB (bytesOfNat 8 0x30000000 ++ bytesOfNat 8 1)
def gatFrom (s : State) : State × Except (Nat × Nat) (List Byte) := readAt s (seMaster 7) (seBy 131071) (leAt gatB 24 8) (16 * (gdescOf gatB).count)
theorem wit_StackEngineQueue_list :
    (redFrom (seStarted redState (rd 4)) = (seStarted redState (rd 4), .ok (okVal (redFrom (seStarted redState (rd 4))))) ∧
      worstField (listFaults (rd 4) (okVal (redFrom (seStarted redState (rd 4))))).2 = none) ∧
    (gatFrom (seStarted gatState gatB) = (seStarted gatState gatB, .ok (okVal (gatFrom (seStarted gatState gatB)))) ∧
      worstField (listFaults gatB (okVal (gatFrom (seStarted gatState gatB)))).2 = none) := by
  refine ⟨seWork_any (P := fun x => redFrom x = (x, .ok (okVal (redFrom x))) ∧ worstField (listFaults (rd 4) (okVal (redFrom x))).2 = none)
      (seBegin redState 7 131071 (rd 4) []) 7 { slot := 131071, desc := rd 4 } 0 fun k h => ⟨ok_eq ?_, ?_⟩,
    seWork_any (P := fun x => gatFrom x = (x, .ok (okVal (gatFrom x))) ∧ worstField (listFaults gatB (okVal (gatFrom x))).2 = none)
      (seBegin gatState 7 131071 gatB []) 7 { slot := 131071, desc := gatB } 0 fun k h => ⟨ok_eq ?_, ?_⟩⟩
  all_goals
    revert k
    decide +kernel

/-- A gated UPDATE for a step without a verdict, whose wait has ended, and a running operation of each opcode at its end. -/
def seWaits : State := upSe { queue := [(131071, ug 9)], waiting := some 0 } (seOp (ug 9) .queued .notStarted)
theorem wit_StackEngineQueue_gate : (seWaits.seg 7).waiting = some 0 ∧ (seWaits.seg 7).queue = [(131071, ug 9)] ∧
    (seWaits.seg 7).posted = false ∧ seWaits.op 131071 = some (seOp (ug 9) .queued .notStarted) ∧
    verdictOf (seWaits.watch (udescOf (ug 9)).watch) (udescOf (ug 9)).step = none ∧
    0 + (seWaits.watch (udescOf (ug 9)).watch).windowUs * 1000 ≤ seWaits.now := by decide +kernel
def seRuns (b : List Byte) (next : Nat) : State := upSe { run := some { slot := 131071, desc := b, next := next } } (seOp b .running .inProgress)
theorem wit_StackEngineQueue_abort : (28 : StackNo).val % 4 = 0 ∧ regGate (seRuns (rd 4) 0) 2 (seBase 28 + 0x20) true = .ok ∧
    ((seRuns (rd 4) 0).seg ((28 : StackNo).val / 4)).run = some { slot := 131071, desc := rd 4, next := 0 } ∧
    OpRuns (seRuns (rd 4) 0) 131071 (seOp (rd 4) .running .inProgress) ∧
    seCommitted { slot := 131071, desc := rd 4, next := 0 } = false :=
  ⟨by decide, by decide +kernel, by decide +kernel, ⟨rfl, rfl⟩, by decide +kernel⟩

/-- What the first group of an UPDATE reads. -/
def seAt (b : List Byte) : State :=
  seWork (seRuns b 0) 7 { slot := 131071, desc := b } ((groupParcels (udescOf b) 0).headD 0 / 256)
def seReadOf (b : List Byte) (s : State) : State × Except (Nat × Nat) (List (List Byte)) := seRead s 7 131071 (groupKeys (udescOf b) 0)
def groupRead (b : List Byte) (s : State) : UGroup := groupOf (udescOf b) 0 (okVal (seReadOf b s))
/-- What it writes. -/
def udWrites (s : State) : List (Nat × List Byte) :=
  let x := groupRead (ud 0 0) s
  groupWrites (udescOf (ud 0 0)) 0 x [(updateParcel (udescOf (ud 0 0)) (x.ps.headD ⟨0, [], [], [], [], [], [], []⟩)).1]

theorem seAt_any (b : List Byte) {P : State → Prop}
    (h : ∀ k ∈ [28, 29, 30, 31], P ((seRuns b 0).setSest k { (seRuns b 0).sest k with curOp := leAt b 0 4 })) : P (seAt b) :=
  seWork_any (P := P) (seRuns b 0) 7 { slot := 131071, desc := b } ((groupParcels (udescOf b) 0).headD 0 / 256) h
/-- An UPDATE whose only weight parcel is not touched, and one that writes it. -/
def udSkipped (x : State) : Prop :=
  seReadOf (ud 0 0x60000000) x = (x, .ok (okVal (seReadOf (ud 0 0x60000000) x))) ∧
    ∀ k ∈ groupSkips (udescOf (ud 0 0x60000000)) (groupRead (ud 0 0x60000000) x), k ≠ Skip.none
def udWritten (x : State) : Prop :=
  seReadOf (ud 0 0) x = (x, .ok (okVal (seReadOf (ud 0 0) x))) ∧
    groupSkips (udescOf (ud 0 0)) (groupRead (ud 0 0) x) = [Skip.none] ∧ (groupRead (ud 0 0) x).ps.length = 1 ∧
    (∀ e ∈ udWrites x, readLocked x .other e.1 = false) ∧ (seWriteAll x 7 131071 (udWrites x) {}).2.bad.isNone = true
theorem wit_StackEnginePieces_update : 0 < groupCount (udescOf (ud 0 0x60000000)) ∧
    udSkipped (seAt (ud 0 0x60000000)) ∧ udWritten (seAt (ud 0 0)) := by
  refine ⟨by decide, seAt_any _ (P := udSkipped) fun k h => ⟨ok_eq ?_, ?_⟩,
    seAt_any _ (P := udWritten) fun k h => ⟨ok_eq ?_, ?_, ?_, ?_, ?_⟩⟩
  all_goals
    revert k
    decide +kernel

theorem wit_StackEnginePieces_ends :
    (∀ b ∈ [ud 0 0, rd 4, gatB, gd 5 0 0x10000000 1 1 0x20000000],
      ((seRuns b 1).seg (7 : Tile)).run = some { slot := 131071, desc := b, next := 1 } ∧
      OpRuns (seRuns b 1) 131071 (seOp b .running .inProgress)) ∧
    groupCount (udescOf (ud 0 0)) ≤ 1 ∧
    ceilDiv (rdescOf (rd 4)).elements (4096 / (rdescOf (rd 4)).width (rdescOf (rd 4)).fmtOut) ≤ 1 ∧ (gdescOf gatB).parcels ≤ 1 ∧
    1 < (gdescOf (gd 5 0 0x10000000 2 1 0x20000000)).parcels := by
  refine ⟨?_, by decide +kernel, by decide +kernel, by decide +kernel, by decide +kernel⟩
  intro b h
  exact ⟨rfl, rfl, rfl⟩
def verB : List Byte := gd 5 0 0x10000000 2 1 0x20000000
def verAt : State := seWork (seRuns verB 1) 7 { slot := 131071, desc := verB, next := 1 } 1
def verRead (s : State) : State × Except (Nat × Nat) (List (List Byte)) := seRead s 7 131071 [(gdescOf verB).base + 1 * 4096]
theorem wit_StackEnginePieces_verify : verRead verAt = (verAt, .ok (okVal (verRead verAt))) := by
  refine seWork_any (P := fun x => verRead x = (x, .ok (okVal (verRead x)))) (seRuns verB 1) 7
    { slot := 131071, desc := verB, next := 1 } 1 fun k h => ok_eq ?_
  revert k
  decide +kernel

/-! ## Witnesses: solver groups -/

/-- A header with one section, of TYPE 1 and no bytes: every byte of it reads as zero, so that solver group 0 holds every
logical cluster. -/
def solveImage : List Byte := zeroBytes 10 ++ [1, 0] ++ zeroBytes 52 ++ [1, 0, 0, 0] ++ bytesOfNat 4 80 ++ zeroBytes 8

/-- A table of a dense system of order 4, and a request of a row on it; the extension block of 0x21 has M = 131,072. -/
def tabBytes : List Byte := [0, 0, 1, 0, 0, 0, 0, 0] ++ bytesOfNat 8 0x50000000 ++ bytesOfNat 4 4
def reqBytes (row deadline : Nat) : List Byte :=
  let it := 0x10 ≤ row && row < 0x100
  let gn := row == 0x21
  bytesOfNat 4 9 ++ [0, 0, BitVec.ofNat 8 (if 0x100 ≤ row then 1 else row),
    BitVec.ofNat 8 (0x10 + (if row == 0x100 then 0x80 else if row == 0x101 then 0x40 else 0)), 0, 0, 0, 0] ++ bytesOfNat 4 1 ++
  bytesOfNat 8 deadline ++ bytesOfNat 8 (if gn then 0 else 0x10000000) ++ bytesOfNat 8 (if gn then 0 else 0x20000000) ++
  bytesOfNat 8 0x30000000 ++ bytesOfNat 8 0x40000000 ++ bytesOfNat 8 (if it then 0 else 0x60000000) ++ zeroBytes 8 ++
  bytesOfNat 4 (if it then 10 else 0) ++ zeroBytes 4 ++ bytesOfNat 8 (if it then 0x70000000 else 0) ++ zeroBytes 8 ++
  bytesOfNat 8 (if gn then 0x90000000 else if 0x20 ≤ row then 0x80000000 else 0) ++ [0, 0, if row == 0x12 then 7 else 0] ++ zeroBytes 21

def svOp (row deadline : Nat) (pl : Place) (st : RState) : Op :=
  { rcpt := { opId := 9, stream := 2, state := st }, kind := 3, place := pl, payload := reqBytes row deadline }
/-- Group 0 with a queue and a running solve; slot 131071 holds its operation. -/
def upSolve (g : SolverGrp) (o : Op) : State := { upMem with
  image := { up.image with loaded := true, inForce := solveImage }
  store := { upMem.store with bytes := putBytes (putBytes [] 0x10000000 tabBytes) 0x90000058 (bytesOfNat 4 131072) }
  core := { up.core with groups := [(0, g)] }
  ledger := [(131071, o)] }

theorem upSolve_members (g : SolverGrp) (o : Op) : groupMembers (upSolve g o) 0 = 0 :: (List.range 2047).map Nat.succ := by
  have h : ∀ n, imgSolverOf solveImage n = some 0 := by
    intro n
    have e : imgSection solveImage 1 = some [] := by decide +kernel
    simp [imgSolverOf, e, leAt, bytesAt, natOfBytes]
  have e : imgSection solveImage 1 = some [] := by decide +kernel
  show solverClusters solveImage 0 = _
  simp only [solverClusters, e, h]
  rw [List.filter_eq_self.mpr (by simp)]
  exact List.range_succ_eq_map
theorem lead_zero (l : List Nat) : l.foldl (fun a n => min a (tileOfN n)) 0 = 0 := by
  induction l with
  | nil => rfl
  | cons a t ih => simp only [List.foldl_cons, Nat.zero_min]; exact ih
theorem upSolve_lead (g : SolverGrp) (o : Op) : leadTile (upSolve g o) 0 = 0 := by
  rw [leadTile, upSolve_members, List.foldl_cons]
  exact lead_zero _

def svNew (row dl : Nat) : State := upSolve {} (svOp row dl .atIssuer .notStarted)

def tab256 : List Byte := tabBytes ++ zeroBytes 236
/-- A check whose table is read and that has no extension block. -/
def plainFaults (now : Nat) (b tb : List Byte) : List (Nat × Nat) :=
  reqFaults b now ++ reqRegions (sreqOf b) (((some (stabOf tb)).bind STab.order).getD 0)
    ((some (stabOf tb)).bind (fun t => match t.order, t.blocks with
        | some k, some z => some (storeMap (t.kind == 0) k t.u z (sreqOf b).nrhs)
        | _, _ => none)) 0 ++ tabFaults tb (sreqOf b).method
theorem solveCheck_of (s : State) (g slot lead a : Nat) (b tb : List Byte) (hm : (groupMembers s g).isEmpty = false)
    (hl : leadTile s g = lead)
    (ha : (sreqOf b).system = a) (hr : readAt s (solveMaster lead) (solveBy slot) a 256 = (s, .ok tb))
    (hg : (sreqOf b).gn = false) (hs : badRegion a 256 = false) (hx : (sreqOf b).ext = 0)
    (hi : (sreqOf b).iterative = false) (ht : tb.isEmpty = false) :
    solveCheck s g slot b = (s, .ok (solveFault (plainFaults s.now b tb))) := by
  have e : (sextOf []).m = 0 := by decide +kernel
  simp [solveCheck, plainFaults, hl, ha, hr, hg, hs, hx, hi, ht, hm, e, broken] <;> rfl

def svRead (dl : Nat) : State × Except (Nat × Nat) (List Byte) := readAt (svNew 1 dl) (solveMaster 0) (solveBy 131071) 0x10000000 256
theorem svNew_read (dl : Nat) (h : (svRead dl).1 = svNew 1 dl ∧ okB (svRead dl) = true) (v : okVal (svRead dl) = tab256) :
    readAt (svNew 1 dl) (solveMaster 0) (solveBy 131071) 0x10000000 256 = (svNew 1 dl, .ok tab256) := by
  rw [← v]
  exact ok_eq h

/-- A request in time that nothing is wrong with, and one whose deadline lies too far ahead. -/
theorem wit_SolverRequests_accept :
    (svNew 1 9000).op 131071 = some (svOp 1 9000 .atIssuer .notStarted) ∧ (sreqOf (reqBytes 1 9000)).group = 0 ∧
    ((svNew 1 9000).group 0).queue.length < 64 ∧
    solveCheck (svNew 1 9000) 0 131071 (reqBytes 1 9000) = (svNew 1 9000, .ok none) ∧
    solveCheck (svNew 1 20000000000) 0 131071 (reqBytes 1 20000000000) = (svNew 1 20000000000, .ok (some (16, 24))) := by
  have h (dl : Nat) : (groupMembers (svNew 1 dl) 0).isEmpty = false := by rw [svNew, upSolve_members]; rfl
  refine ⟨by decide +kernel, by decide +kernel, by decide +kernel, ?_, ?_⟩
  · exact (solveCheck_of _ 0 131071 0 0x10000000 _ tab256 (h _) (upSolve_lead _ _) (by decide +kernel)
      (svNew_read 9000 (by decide +kernel) (by decide +kernel)) (by decide +kernel) (by decide +kernel) (by decide +kernel)
      (by decide +kernel) (by decide +kernel)).trans (congrArg (fun x => (svNew 1 9000, Except.ok x)) (by decide +kernel))
  · exact (solveCheck_of _ 0 131071 0 0x10000000 _ tab256 (h _) (upSolve_lead _ _) (by decide +kernel)
      (svNew_read 20000000000 (by decide +kernel) (by decide +kernel)) (by decide +kernel) (by decide +kernel) (by decide +kernel)
      (by decide +kernel) (by decide +kernel)).trans (congrArg (fun x => (svNew 1 20000000000, Except.ok x)) (by decide +kernel))

/-- A running solve of a row, with one member and one column of one value. -/
def svRun (row dl phase : Nat) : SolveRun :=
  { slot := 131071, accepted := 0, req := reqBytes row dl, members := [2047], n := 1, phase := phase, cols := [{ x := [0x3FF0000000000000] }] }
def svBusy (row dl : Nat) (r : SolveRun) : State := upSolve { run := some r } (svOp row dl .running .inProgress)
theorem svBusy_runs (row dl : Nat) (r : SolveRun) : OpRuns (svBusy row dl r) 131071 (svOp row dl .running .inProgress) := ⟨rfl, rfl⟩

/-- A solve in time, one whose deadline is reached, and one whose residual program has ended. -/
def svProg : State := { svBusy 0x21 9000 { svRun 0x21 9000 5 with prog := some 131072 } with
  ledger := [(131071, svOp 0x21 9000 .running .inProgress), (131072, opDone)] }
theorem wit_SolverRequests_run :
    (((svBusy 1 9000 (svRun 1 9000 3)).group 0).run = some (svRun 1 9000 3) ∧ (svRun 1 9000 3).prog = none ∧
      regGate (svBusy 1 9000 (svRun 1 9000 3)) 2 (tilBase 0 + 0x6000) true = .ok ∧ (0x100 : W32).toNat.testBit 8 = true ∧
      (0x100 : W32).toNat % 256 = (0 : GroupNo).val ∧ (svRun 1 9000 3).late = none ∧
      (svRun 1 9000 3).fin = none ∧ (svRun 1 9000 3).phase ≠ 6 ∧ (svBusy 1 9000 (svRun 1 9000 3)).now < (sreqOf (svRun 1 9000 3).req).deadline) ∧
    leadTile (svBusy 1 9000 (svRun 1 9000 3)) 0 = (0 : Tile).val ∧
    ((sreqOf (svRun 1 5000 3).req).deadline ≤ (svBusy 1 5000 (svRun 1 5000 3)).now ∧ (svRun 1 5000 3).abort = false ∧
      (svRun 1 5000 3).late = none ∧ (svRun 1 5000 3).phase ≤ 3) ∧
    ((svProg.group 0).run = some { svRun 0x21 9000 5 with prog := some 131072 } ∧ svProg.op 131072 = some opDone ∧
      opDone.rcpt.state = .done ∧ svProg.now < (sreqOf (svRun 0x21 9000 5).req).deadline) :=
  ⟨by decide +kernel, upSolve_lead _ _, by decide +kernel, by decide +kernel⟩

/-- The oldest request of the group, of each row, in time and too late. -/
def svHead (row dl : Nat) : State := upSolve { queue := [(131071, 0, reqBytes row dl)] } (svOp row dl .queued .notStarted)
def svFree (row : Nat) : State := (svHead row 9000).setGroup 0 { queue := [], run := none }
def svLate (row : Nat) : State × Except (Nat × Nat) Late := lateFaults (svFree row) (solveMaster 0) (solveBy 131071) (reqBytes row 9000)
def svExt (row : Nat) : State × Except (Nat × Nat) (List Byte) := readAt (svFree row) (solveMaster 0) (solveBy 131071) (sreqOf (reqBytes row 9000)).ext 256
def lateVal (x : State × Except (Nat × Nat) Late) : Late :=
  match x.2 with
  | .ok a => a
  | .error _ => {}
theorem wit_SolvesStart_head : ∀ e ∈ solveRows,
    ((svHead e.2 9000).group 0).run = none ∧ ((svHead e.2 9000).group 0).queue = [(131071, 0, reqBytes e.2 9000)] ∧
    (sreqOf (reqBytes e.2 9000)).row = e.2 ∧ solveWaits (svHead e.2 9000) 0 131071 0 (sreqOf (reqBytes e.2 9000)) = false ∧
    (svHead e.2 9000).op 131071 = some (svOp e.2 9000 .queued .notStarted) ∧
    (svHead e.2 9000).now < (sreqOf (reqBytes e.2 9000)).deadline ∧
    (sreqOf (reqBytes e.2 5000)).deadline ≤ (svHead e.2 5000).now := by decide +kernel
theorem wit_SolvesStart_members (row : Nat) : leadTile (svHead row 9000) 0 = 0 ∧
    (∃ i ∈ groupMembers (svHead row 9000) 0, isDead (svHead row 9000) i = false) ∧
    ∀ i ∈ groupMembers (svHead row 9000) 0, isDead (svHead row 9000) i = true ∨ isAsleep (svHead row 9000) i = false := by
  refine ⟨upSolve_lead _ _, ⟨0, ?_, rfl⟩, fun i _ => Or.inr rfl⟩
  rw [svHead, upSolve_members]
  exact List.mem_cons_self
theorem wit_SolvesStart_faults : ∀ e ∈ solveRows, (svLate e.2).1 = svFree e.2 ∧ okB (svLate e.2) = true ∧
    solveFault (lateVal (svLate e.2)).faults = none ∧
    ((sreqOf (reqBytes e.2 9000)).needsExt = true → (svExt e.2).1 = svFree e.2 ∧ okB (svExt e.2) = true) := by decide +kernel
theorem ext_members (b : List Byte) (q : SReq) (n c z : Nat) (l : List Nat) (h : q.gn = false) :
    extFaults b q n c z l = extFaults b q n c z [] := by simp [extFaults, h]
/-- Extension blocks: of a QP, an adjoint and a tangent solve, and of 0x21 whatever its order is. -/
theorem wit_SolvesStart_ext (l : List Nat) : (∀ row ∈ [0x20, 0x100, 0x101],
      solveFault (extFaults (okVal (svExt row)) (sreqOf (reqBytes row 9000)) (lateVal (svLate row)).n
        (lateVal (svLate row)).coefs (lateVal (svLate row)).csize l) = none) ∧
    solveFault (extFaults (okVal (svExt 0x21)) (sreqOf (reqBytes 0x21 9000)) (gnOrder (reqBytes 0x21 9000) (okVal (svExt 0x21)))
      0 0 (0 :: l)) = none := by
  constructor
  · intro row h
    have g : (sreqOf (reqBytes row 9000)).gn = false := by revert row; decide +kernel
    rw [ext_members _ _ _ _ _ _ g]
    revert row
    decide +kernel
  · have e : sextOf (okVal (svExt 0x21)) = ⟨0, 0, 0, 0, 0, 0, 0, 0, 0, 0, 0, 131072, 0, 0⟩ := by decide +kernel
    have q : (sreqOf (reqBytes 0x21 9000)).nrhs = 1 ∧ (sreqOf (reqBytes 0x21 9000)).gn = true ∧
        (sreqOf (reqBytes 0x21 9000)).qp = false ∧ (sreqOf (reqBytes 0x21 9000)).adjoint = false ∧
        (sreqOf (reqBytes 0x21 9000)).tangent = false ∧ (sreqOf (reqBytes 0x21 9000)).derivative = false := by decide +kernel
    have r : leAt (okVal (svExt 0x21)) 33 7 = 0 ∧ leAt (okVal (svExt 0x21)) 100 156 = 0 := by decide +kernel
    have n1 : gnOrder (reqBytes 0x21 9000) (okVal (svExt 0x21)) ≤ 131072 := by unfold gnOrder; omega
    generalize gnOrder (reqBytes 0x21 9000) (okVal (svExt 0x21)) = n at n1
    have a1 : ¬ 3281355014144 < 131072 * n * 8 := by omega
    have a2 : ¬ 3281355014144 < 8 * n := by omega
    have a4 : ¬ 131072 < n := by omega
    simp only [extFaults, e, q, r, badRegion, broken, solveFault, hbmEnd]
    simp [a1, a2, a4, worstField]
theorem wit_SolvesStart_dead : ∀ e ∈ solveRows, ∀ s, s = { svBusy e.2 9000 (svRun e.2 9000 5) with
      core := { (svBusy e.2 9000 (svRun e.2 9000 5)).core with dead := [(2047, true)] } } →
    (s.group 0).run = some (svRun e.2 9000 5) ∧ (sreqOf (svRun e.2 9000 5).req).row = e.2 ∧
    s.op 131071 = some (svOp e.2 9000 .running .inProgress) ∧ isDead s 2047 = true ∧ s.now < (sreqOf (svRun e.2 9000 5).req).deadline ∧
    memberWork s (svRun e.2 9000 5) = [] := by
  intro e h s q
  subst q
  revert e
  decide +kernel

/-- A solve in its last phase: its one parcel of X, and all of it published. -/
def svPub (row : Nat) : State × Put :=
  putParcel (svBusy row 9000 (svRun row 9000 6)) (solveMaster 0) 131071 ((sreqOf (reqBytes row 9000)).x + 4096 * 0)
    ((padded (outBytes (svRun row 9000 6))).headD [])
theorem wit_SolvesPublish : ∀ e ∈ solveRows,
    ((svBusy e.2 9000 (svRun e.2 9000 6)).group 0).run = some (svRun e.2 9000 6) ∧ (sreqOf (svRun e.2 9000 6).req).row = e.2 ∧
    (svRun e.2 9000 6).late = none ∧ (svRun e.2 9000 6).abort = false ∧ (svRun e.2 9000 6).phase = 6 ∧
    (svRun e.2 9000 6).members.any (isDead (svBusy e.2 9000 (svRun e.2 9000 6))) = false ∧
    (svRun e.2 9000 6).members.any (isStopped (svBusy e.2 9000 (svRun e.2 9000 6))) = false ∧
    (padded (outBytes (svRun e.2 9000 6)))[0]?.isSome = true ∧ (svPub e.2).2 = .ok := by decide +kernel
theorem wit_SolvesPublish_end : ∀ e ∈ solveRows, ∀ r, r = { svRun e.2 9000 6 with pub := 1, stage := 2, fin := some .done } →
    (padded (outBytes r))[r.pub]? = none ∧ r.stage ≠ 0 ∧ wantsGrad r (sreqOf r.req) = false ∧ r.fin = some .done := by
  intro e h r q
  subst q
  revert e
  decide +kernel

/-! ## Witnesses: collectives -/

/-- A header with one section, of TYPE 2: the first 128 GiB of HBM are one tile-local region. -/
def localImage : List Byte := zeroBytes 10 ++ [1, 0] ++ zeroBytes 52 ++ [2, 0, 0, 0] ++ bytesOfNat 4 80 ++ bytesOfNat 4 8 ++ zeroBytes 4 ++
  [0, 0, 8, 0, 1, 0, 0, 0]

/-- A collective request of a kind for this module as member 0 of n. -/
def cb (kind n dl : Nat) : List Byte :=
  bytesOfNat 4 9 ++ [0x10, BitVec.ofNat 8 kind, 0, 0] ++ bytesOfNat 4 4 ++ bytesOfNat 4 n ++ bytesOfNat 4 0 ++ bytesOfNat 4 0 ++
  [0, 1, 0, 0] ++ bytesOfNat 4 0xFFFFFFFF ++ bytesOfNat 4 5 ++ zeroBytes 4 ++ bytesOfNat 8 0x10000000 ++ bytesOfNat 8 0x20000000 ++
  bytesOfNat 8 0x30000000 ++ zeroBytes 8 ++ bytesOfNat 8 dl ++ zeroBytes 16

def cOp (b : List Byte) (pl : Place) (st : RState) : Op :=
  { rcpt := { opId := 9, stream := 2, state := st }, kind := 6, place := pl, payload := b }
/-- Chip 6, whose communicator 0xFFFFFFFF is x, with the request's list in memory. -/
def upColl (x : CommS) (o : Op) : State := { upMem with
  image := { up.image with loaded := true, inForce := localImage }
  store := { upMem.store with bytes := putBytes [] 0x30000000 [6, 0, 7, 0] }
  fab := { up.fab with chip := 6, placed := true }
  comms := [(0xFFFFFFFF, x)]
  ledger := [(131071, o)] }

def cNew (kind : Nat) : State := upColl {} (cOp (cb kind 2 0) .atIssuer .notStarted)
def cList (kind : Nat) : State × Except (Nat × Nat) (List Byte) :=
  readAt (cNew kind) (seMaster (cdescOf (cb kind 2 0)).tile) (seBy 131071) (cdescOf (cb kind 2 0)).list (2 * (cdescOf (cb kind 2 0)).members)

theorem wit_Collectives_accept : ∀ e ∈ collRows,
    (cNew e.2).op 131071 = some (cOp (cb e.2 2 0) .atIssuer .notStarted) ∧ collServes e.2 (cb e.2 2 0) = true ∧
    serviceOn (cNew e.2) 1 = true ∧ (cdescOf (cb e.2 2 0)).deadline = 0 ∧ collFaults (cNew e.2) (cb e.2 2 0) = [] ∧ (cList e.2).1 = cNew e.2 ∧ okB (cList e.2) = true ∧
    worstField (listRules (cNew e.2) (cdescOf (cb e.2 2 0)) (listChips (okVal (cList e.2)))) = none := by decide +kernel
def cHead (kind : Nat) : State := upColl { queue := [(131071, cb kind 2 0, [6, 7])] } (cOp (cb kind 2 0) .queued .notStarted)
theorem wit_Collectives_start : ∀ e ∈ collRows,
    (cHead e.2).op 131071 = some (cOp (cb e.2 2 0) .queued .notStarted) ∧
    ((cHead e.2).comm (cdescOf (cb e.2 2 0)).comm).run = none ∧
    ((cHead e.2).comm (cdescOf (cb e.2 2 0)).comm).queue = [((131071 : Slot).val, cb e.2 2 0, [6, 7])] ∧
    ((cHead e.2).comm (cdescOf (cb e.2 2 0)).comm).held = [] ∧
    ((cHead e.2).comm (cdescOf (cb e.2 2 0)).comm).early = [] := by decide +kernel

/-- A running collective of n members, whose chips the run knows. -/
def cRun (kind n dl next : Nat) (told : Bool) : CollRun :=
  { slot := 131071, req := cb kind n dl, chips := [6, 7].take n, next := next, told := told }
def cBusy (r : CollRun) : State := upColl { run := some r } (cOp r.req .running .inProgress)
theorem cBusy_runs (r : CollRun) : OpRuns (cBusy r) (131071 : Slot) (cOp r.req .running .inProgress) := ⟨rfl, rfl⟩

/-- The first parcel of OUT of a member alone: what it reads, forms and delivers. -/
def cFetch (kind : Nat) : State × List Nat × Except (Option (Nat × Nat)) (List (List Byte)) :=
  let r := cRun kind 1 0 0 false
  let d := cdescOf r.req
  seFetch (cBusy r) d.tile 131071 [] ((pieceKeys (cBusy r) r.req r.chips (d.piece (d.pieceAt r.next))).flatMap id)
def cPut (kind : Nat) : State × Put :=
  let r := cRun kind 1 0 0 false
  let d := cdescOf r.req
  collPut (cBusy r) d 131071 (d.pieceAt r.next)
    (pieceBytes d (d.piece (d.pieceAt r.next)) (gatherBufs (pieceKeys (cBusy r) r.req r.chips (d.piece (d.pieceAt r.next))) (okVal ((cFetch kind).1, (cFetch kind).2.2)))).1
theorem wit_Collectives_piece : ∀ e ∈ collRows, ∀ r, r = cRun e.2 1 0 0 false → ∀ d, d = cdescOf r.req →
    ((cBusy r).comm d.comm).run = some r ∧ collServes e.2 r.req = true ∧ r.tags = [] ∧ r.next < d.parcels ∧
    r.next < d.ownParcels.2 - d.ownParcels.1 ∧ pieceReady d r (d.piece (d.pieceAt r.next)) = true := by
  intro e h r q d u
  subst u q
  revert e
  decide +kernel
/-- What a ready piece waits for has come: the members it reads have joined, an owner it copies from has reported. -/
theorem wit_Collectives_ready (d : CDesc) (r : CollRun) (p : Piece) (h : pieceReady d r p = true) :
    (∀ a b, p = .reduced a b → ∀ j < d.members, j = d.rank ∨ j ∈ r.joined) ∧
    (∀ j a b, p = .copied false j a b → j = d.rank ∨ j ∈ r.joined) ∧ (∀ j a b, p = .copied true j a b → j ∈ r.readDone) := by
  refine ⟨?_, ?_, ?_⟩
  · rintro a b rfl j hj
    simp only [pieceReady, pieceMembers, List.all_eq_true, List.mem_range, Bool.or_eq_true, beq_iff_eq,
      List.contains_iff_mem] at h
    exact h j hj
  · rintro j a b rfl
    simpa [pieceReady, pieceMembers] using h
  · rintro j a b rfl
    simpa [pieceReady] using h
/-- A slice that another member has reduced, once its report has come. -/
theorem wit_Collectives_slice : ∀ r, r = { cRun 0 2 0 4 true with readDone := [1] } → ∀ d, d = { cdescOf r.req with count := 4096 } →
    r.next < d.parcels ∧ ∃ a b, d.piece (d.pieceAt r.next) = .copied true 1 a b ∧ 1 ∈ r.readDone := by
  intro r q d u
  subst u q
  exact ⟨by decide +kernel, 16384, 4096, by decide +kernel, by decide⟩
theorem wit_Collectives_pieceData : ∀ e ∈ collRows, (cFetch e.2).1 = cBusy (cRun e.2 1 0 0 false) ∧ (cFetch e.2).2.1 = [] ∧
    okB ((cFetch e.2).1, (cFetch e.2).2.2) = true ∧ (cPut e.2).2 = .ok := by decide +kernel

/-- OUT is whole: another member still reads, or none does. -/
theorem wit_Collectives_end : ∀ e ∈ collRows, ∀ d, d = cdescOf (cb e.2 2 0) →
    d.parcels ≤ (cRun e.2 2 0 5 false).next ∧
    d.ownParcels.2 - d.ownParcels.1 ≤ (cRun e.2 2 0 5 false).next ∧ (cRun e.2 2 0 5 false).told = false ∧
    (∃ m ∈ otherMembers d (cRun e.2 2 0 5 false).chips, m.2 ∉ (cRun e.2 2 0 5 false).readDone) ∧
    (∀ m ∈ otherMembers d (cRun e.2 2 0 5 false).chips, m.2 ∈ { cRun e.2 2 0 5 false with readDone := [1] }.readDone) := by
  intro e h d u
  subst u
  revert e
  decide +kernel

/-- A join record of member 1 that agrees, one that does not, and one for a communicator that runs nothing. -/
def jr : JoinRec := { joinOf (cb 0 2 0) [6, 7] with rank := 1 }
theorem wit_CollectiveMessages_join : ∀ r, r = cRun 0 2 0 0 false →
    ((cBusy r).comm jr.comm.toNat).run = some r ∧ (cdescOf r.req).seq = jr.seq.toNat ∧ joinDiffers r.req r.chips jr = false ∧
    joinDiffers r.req r.chips { jr with count := 9 } = true ∧ (cdescOf r.req).comm = jr.comm.toNat ∧
    (up.comm jr.comm.toNat).run = none ∧ (up.comm jr.comm.toNat).queue = [] ∧ jr.seq.toNat ∉ (up.comm jr.comm.toNat).usedSeq := by
  intro r q
  subst q
  decide +kernel
/-- The record is due again; the last report, an abort and the deadline reach a running collective. -/
theorem wit_CollectiveMessages_run : ∀ dl ∈ [0, 1], ∀ r, r = cRun 0 2 dl 5 true →
    ∀ s, s = { cBusy r with time := { up.time with pm := 200000 } } →
    (cOp r.req .running .inProgress).kind = 6 ∧ (s.comm (cdescOf r.req).comm).run = some r ∧ r.slot = (131071 : Slot).val ∧
    r.lastJoin + 100000 ≤ s.now ∧ (0xFFFFFFFF : W32).toNat = (cdescOf r.req).comm ∧ (5 : W32).toNat = (cdescOf r.req).seq ∧
    r.told = true ∧ (1 : W32).toNat ∉ r.readDone ∧ (cdescOf r.req).parcels ≤ r.next ∧
    (∀ m ∈ otherMembers (cdescOf r.req) r.chips, m.2 = (1 : W32).toNat ∨ m.2 ∈ r.readDone) ∧
    s.ledger = [((131071 : Slot).val, cOp r.req .running .inProgress)] ∧ (cdescOf r.req).deadline = dl ∧
    (1 : Nat) ≤ s.now := by
  intro dl h r q s u
  subst u q
  revert dl
  decide +kernel
theorem wit_CollectiveMessages_early : (up.comm (5 : W32).toNat).run = none ∧ (6 : W32).toNat ∉ (up.comm (5 : W32).toNat).usedSeq ∧
    ((6 : W32).toNat, (7 : W32).toNat) ∉ (up.comm (5 : W32).toNat).early := by decide +kernel

/-! ## Witnesses: couriers -/

def crOp (b : List Byte) (pl : Place) (st : RState) : Op :=
  { rcpt := { opId := 9, stream := 65535, state := st }, kind := 5, place := pl, payload := b }
/-- A round request for courier 256 or another. -/
def crReq (c round : Nat) : List Byte := bytesOfNat 4 9 ++ bytesOfNat 2 c ++ zeroBytes 2 ++ bytesOfNat 8 round
/-- Courier 256, with an instruction 16 bytes into the round at 0x10000000 and a word at 0x40000000. -/
def upCrr (b : List Byte) (x : Courier) (o : Op) : State := { upMem with
  store := { upMem.store with bytes := putBytes (putBytes [] 0x10000010 b) 0x40000000 [5] }
  hif := { up.hif with linkUp := true }
  couriers := [(256, { x with bound := true, stream := 65535 })]
  ledger := [(131071, o)] }
def crNew (b : List Byte) : State := upCrr [] {} (crOp b .atIssuer .notStarted)
theorem wit_CourierControl_request : ∀ b ∈ [crReq 256 0x10000010, crReq 319 0x10000010],
    (crNew b).op 131071 = some (crOp b .atIssuer .notStarted) ∧
    (requestFault (crNew b) (crReq 256 0x10000010) 65535 = none ∧ ((crNew b).courier 256).queue.length < 4) ∧
    requestFault (crNew b) (crReq 319 0x10000010) 65535 = some (4, 0x36) := by decide +kernel

def loopB (count : Nat) : List Byte := [2, 3, 0, 0] ++ bytesOfNat 4 count ++ bytesOfNat 4 0xFFFFFFF0 ++ zeroBytes 4
def waitB (kind arg val timeout : Nat) : List Byte :=
  [3, BitVec.ofNat 8 kind] ++ zeroBytes 6 ++ bytesOfNat 8 arg ++ bytesOfNat 8 val ++ bytesOfNat 8 timeout
def sigB (f addr data : Nat) : List Byte := [4, BitVec.ofNat 8 f] ++ zeroBytes 6 ++ bytesOfNat 8 addr ++ bytesOfNat 8 data ++ zeroBytes 8
def moveB (mode n : Nat) : List Byte :=
  [1, BitVec.ofNat 8 mode, 0, 0] ++ bytesOfNat 4 4 ++ bytesOfNat 4 1 ++ bytesOfNat 4 0 ++ bytesOfNat 4 (4 / n) ++ bytesOfNat 4 n ++
  bytesOfNat 4 0x10000 ++ bytesOfNat 8 0x40000000 ++ bytesOfNat 8 0x50000000 ++ zeroBytes 20

/-- The first instruction of a queued round is fetched. -/
def crQueued : State := upCrr (waitB 0 0 0 0) { queue := [131071] } (crOp (crReq 256 0x10000010) .queued .notStarted)
def crFirst : Round := { slot := 131071, base := 0x10000010, locks := roundKeys crQueued 256 0x10000010 }
def crStarted : Courier := { crQueued.courier 256 with
  queue := [], round := some crFirst, phase := .running, curOp := 9, pc := 0x10000010, lc := [0, 0, 0, 0] }
def crFetch : State × Round × Fetched := fetchIns (opStart (crQueued.setCourier 256 crStarted) 131071) 256 crFirst
theorem wit_CourierControl_start : (crQueued.courier 256).round = none ∧ (crQueued.courier 256).queue = [131071] ∧
    crQueued.op 131071 = some (crOp (crReq 256 0x10000010) .queued .notStarted) ∧
    reqRound (crReq 256 0x10000010) = 0x10000010 ∧ crFetch.2.2 = .ins (waitB 0 0 0 0) := by decide +kernel

/-- Courier 256 in a phase of a round that has fetched from its parcel before. -/
def crRound : Round := { slot := 131071, base := 0x10000000, checked := [0x10000000] }
def crAt (b : List Byte) (ph : CrrPhase) (r : Round) : State :=
  upCrr b { round := some r, phase := ph, pc := 0x10000010, queue := [7] } (crOp (crReq 256 0x10000000) .running .inProgress)
theorem crAt_runs (b : List Byte) (ph : CrrPhase) (r : Round) : OpRuns (crAt b ph r) 131071 (crOp (crReq 256 0x10000000) .running .inProgress) :=
  ⟨rfl, rfl⟩

/-- A fault to latch; a halted round under CTRL; binds of a busy and of an idle courier. -/
theorem wit_CourierControl_control :
    ((crAt [] .running { crRound with fault := some (0x41, true, 5, 6) }).courier 256).round =
      some { crRound with fault := some (0x41, true, 5, 6) } ∧
    (regGate (crAt [] .halted crRound) 2 (crrBase 256) true = .ok ∧ ((crAt [] .halted crRound).courier 256).round = some crRound ∧
      ((crAt [] .halted crRound).courier 256).phase = .halted ∧ ((crAt [] .running crRound).courier 256).phase ≠ .halted ∧
      (1 : W32).toNat.testBit 0 = true ∧ (1 : W32).toNat.testBit 1 = false ∧ (1 : W32).toNat.testBit 2 = false ∧
      ((crAt [] .halted crRound).courier 256).queue = [7] ∧ crRound.pend = none ∧ { crRound with pend := some (8, 0) }.pend ≠ none ∧
      (2 : W32).toNat.testBit 1 = true ∧ (2 : W32).toNat.testBit 2 = false ∧ (4 : W32).toNat.testBit 2 = true) ∧
    (regGate (crAt [] .halted crRound) 2 (crrBase 256 + 8) true = .ok ∧ ((crAt [] .halted crRound).courier 256).phase ≠ .idle) ∧
    (regGate crQueued 0 (crrBase 256 + 8) true = .ok ∧ (crQueued.courier 256).queue ≠ []) ∧
    (regGate (crNew []) 0 (crrBase 256 + 8) true = .ok ∧ ((crNew []).courier 256).phase = .idle ∧ ((crNew []).courier 256).queue = []) := by
  decide +kernel

theorem crAt_ins (b : List Byte) (ph : CrrPhase) (r : Round)
    (h : heldIns (crAt b ph r) 256 r = (crAt b ph r, { r with ins := some b }, .ins b)) (f : r.fault = none) (w : ph = .waiting → r.ins = some b) :
    AtIns (crAt b ph r) 256 r b ph := ⟨rfl, rfl, f, h, w⟩

/-- LOOP before and at its last count; WAITs for a postmark, for a word and for a receipt. -/
theorem wit_CourierLoopAndWait_run : ∀ b ∈ [loopB 1, loopB 2, waitB 0 0 0 0],
    AtIns (crAt b .running crRound) 256 crRound b .running := by
  intro b h
  refine crAt_ins _ _ _ ?_ rfl nofun
  revert b
  decide +kernel
/-- The bytes of an operation whose receipt ended in error. -/
def crHeld (b : List Byte) : Round := { crRound with ins := some b }
def crWait (b : List Byte) : State := { crAt b .waiting (crHeld b) with
  ledger := [(5, { opDone with rcpt := { opDone.rcpt with state := .failed, status := 0x41 } }), (131071, crOp (crReq 256 0x10000000) .running .inProgress)] }
def crPoll : State × Round × Rd :=
  pollWord (crWait (waitB 1 0x40000000 5 0)) 256 (crHeld (waitB 1 0x40000000 5 0)) (waitArg (waitB 1 0x40000000 5 0))
theorem wit_CourierLoopAndWait_wait :
    (∀ b ∈ [waitB 0 5000 0 5001, waitB 2 5 0 0, waitB 0 9000 0 5000, waitB 1 0x40000000 5 0],
      AtIns (crWait b) 256 (crHeld b) b .waiting ∧ OpRuns (crWait b) 131071 (crOp (crReq 256 0x10000000) .running .inProgress)) ∧
    (waitHolds (crWait (waitB 0 5000 0 5001)) (crHeld (waitB 0 5000 0 5001)) (waitB 0 5000 0 5001) = true ∧
      waitStatus (crWait (waitB 0 5000 0 5001)) (waitB 0 5000 0 5001) < 0x40) ∧
    (waitHolds (crWait (waitB 2 5 0 0)) (crHeld (waitB 2 5 0 0)) (waitB 2 5 0 0) = true ∧ 0x40 ≤ waitStatus (crWait (waitB 2 5 0 0)) (waitB 2 5 0 0)) ∧
    (waitHolds (crWait (waitB 0 9000 0 5000)) (crHeld (waitB 0 9000 0 5000)) (waitB 0 9000 0 5000) = false ∧ waitTimeout (waitB 0 9000 0 5000) ≠ 0 ∧
      waitTimeout (waitB 0 9000 0 5000) ≤ (crWait (waitB 0 9000 0 5000)).now) ∧
    (waitKind (waitB 1 0x40000000 5 0) = 1 ∧ (crHeld (waitB 1 0x40000000 5 0)).met = false ∧
      pollDue (crWait (waitB 1 0x40000000 5 0)) (crHeld (waitB 1 0x40000000 5 0)) = true ∧ crPoll.2.2 = .ok (bytesOfNat 8 5)) := by
  refine ⟨?_, by decide +kernel, by decide +kernel, by decide +kernel, by decide +kernel⟩
  intro b h
  exact ⟨⟨rfl, rfl, rfl, rfl, fun _ => rfl⟩, rfl, rfl⟩

/-- SIGNAL without a write, to host memory, to HBM, and with END. -/
theorem wit_CourierMoveAndSignal_signal :
    (∀ b ∈ [sigB 0 0 0, sigB 6 8 9, sigB 2 0x40000008 9, sigB 1 0 0], AtIns (crAt b .running crRound) 256 crRound b .running) ∧
    (crAt (sigB 6 8 9) .running crRound).hif.linkUp = true ∧ 8 ≤ (crAt (sigB 6 8 9) .running crRound).hif.fn.maxPayload ∧
    (devicePut (setRound (crAt (sigB 2 0x40000008 9) .running crRound) 256 (crHeld (sigB 2 0x40000008 9))) 256
      (crHeld (sigB 2 0x40000008 9)) [(0x40000008, bytesAt (sigB 2 0x40000008 9) 16 8)]).2.2 = .ok := by
  refine ⟨?_, by decide +kernel, by decide +kernel, by decide +kernel⟩
  intro b h
  refine crAt_ins _ _ _ ?_ rfl nofun
  revert b
  decide +kernel

/-- The first of two deliveries of a MOVE, the only one of another, and one to host memory. -/
def mvSrc (b : List Byte) : State × Round × Got :=
  let s := crAt b .running crRound
  readSrc (setRound s 256 (crHeld b)) 256 (crHeld b) (mdescOf b) []
    ((partsIn (moveParts (mdescOf b) [0, 0, 0, 0]) ((deliveries (moveParts (mdescOf b) [0, 0, 0, 0])).headD 0)).flatMap (partBytes (mdescOf b))) []
def mvPut (b : List Byte) : State × Round × Put :=
  let mine := partsIn (moveParts (mdescOf b) [0, 0, 0, 0]) ((deliveries (moveParts (mdescOf b) [0, 0, 0, 0])).headD 0)
  let m : KMap Byte := match (mvSrc b).2.2 with | .ok m => m | _ => []
  let l := mine.map (fun e => (e.2.1, (List.range e.2.2).map (fun j => kget 0 m (e.1 + j))))
  if (mdescOf b).dstHost then ((hostPut (mvSrc b).1 l).1, (mvSrc b).2.1, (hostPut (mvSrc b).1 l).2)
  else devicePut (mvSrc b).1 256 (mvSrc b).2.1 l
def gotOk (g : Got) : Bool :=
  match g with
  | .ok _ => true
  | _ => false
theorem wit_CourierMoveAndSignal_move :
    (∀ b ∈ [moveB 0 1, moveB 0 2, moveB 8 1], AtIns (crAt b .running crRound) 256 crRound b .running ∧ leAt b 0 1 = 1) ∧
    (∀ b ∈ [moveB 0 1, moveB 0 2, moveB 8 1], gotOk (mvSrc b).2.2 = true ∧ (mvPut b).2.2 = .ok ∧
      (mvPut b).2.1.fault = none) ∧
    (deliveries (moveParts (mdescOf (moveB 0 1)) [0, 0, 0, 0])).length = 1 ∧
    (deliveries (moveParts (mdescOf (moveB 0 2)) [0, 0, 0, 0])).length = 2 := by
  refine ⟨?_, by decide +kernel, by decide +kernel, by decide +kernel⟩
  intro b h
  refine ⟨crAt_ins _ _ _ ?_ rfl nofun, ?_⟩
  all_goals
    revert b
    decide +kernel

/-! ## Witnesses: the host link and the fabric -/

/-- A module whose link is up, with its aperture at an HBM parcel, at another chip's and at one that the tables refuse. -/
def upAp (base : W64) : State := { upMem with
  hif := { up.hif with linkUp := true, apBase := base, apActive := base }
  access := { up.access with wins := [⟨0, 100000, maskOf [0, 2]⟩] } }
theorem wit_HostAccess_ready : (∀ w ∈ [false, true], ∀ e ∈ [(0xFF8, 0x40000FF8), (0x1FFFFF000, 0x23FFFF000)],
      (upAp 0x40000000).hif.linkUp = true ∧ (upAp 0x40000000).boot.stage ≠ 0 ∧ (upAp 0x40000000).ring.waiting = [] ∧
      e.2 = ((upAp 0x40000000).hif.apActive.toNat + e.1) % 2 ^ 64 ∧
      addrEarly (upAp 0x40000000) hostMaster w (BitVec.ofNat 64 e.2) = false) ∧
    (upAp 0x3000000000).hif.apActive.toNat + 0x1FFFFF000 = 0x31FFFFF000 ∧ 2 ≤ (upAp 0).boot.stage := by decide +kernel
/-- Two parcels are read; a refused one fails. -/
def apR : State × List Nat × Rd := apRead (upAp 0x40000000) [] (apParts 0x40000FF8 16)
def rdOk (r : Rd) : Bool :=
  match r with
  | .ok _ => true
  | _ => false
theorem wit_HostAccess_read : rdOk apR.2.2 = true ∧ (apRead (upAp 0x3000000000) [] (apParts 0x31FFFFF000 16)).2.2 = .fail stDenied := by
  decide +kernel
/-- A whole parcel and a part of one are written; a write that the tables refuse. -/
theorem wit_HostAccess_write :
    (writePlace (upAp 0x40000000) hostMaster none (BitVec.ofNat 64 0x23FFFF000) true).2 = .mem 0x23FFFF000 ∧
    (writePlace (upAp 0x40000000) hostMaster none (BitVec.ofNat 64 0x40000FF8) false).2 = .mem 0x40000FF8 ∧
    (∀ k ∈ [0x23FFFF000, 0x40000FF8], readLocked (upAp 0x40000000) .other k = false ∧ keyIsHbm k = true ∧
      hbmRefuses (upAp 0x40000000) (k - k % 4096) true = none ∧ rdOk (parcelRead (upAp 0x40000000) (k - k % 4096) hostBy).2 = true) ∧
    (writePlace (upAp 0x3000000000) hostMaster none (BitVec.ofNat 64 0x31FFFFF000) false).2 = .bad stDenied := by decide +kernel

theorem wit_LinkEvents : upBox.hif.linkUp = true ∧ 6 ≤ upBox.boot.stage ∧ upBox.boot.computeReset = false ∧
    { upBox with boot := { upBox.boot with stage := 5 } }.boot.stage < 6 ∧
    (up.hif.linkUp = false ∧ up.pins.perstN = true ∧ up.boot.stage ≠ 0) ∧
    (∀ g ∈ [(1 : BitVec 4), 7], 1 ≤ g.toNat ∧ g.toNat ≤ 7) ∧ (∀ w ∈ [(1 : BitVec 5), 16], w.toNat ∈ [1, 2, 4, 8, 16]) ∧
    7 < (8 : BitVec 4).toNat ∧ (3 : BitVec 5).toNat ∉ [1, 2, 4, 8, 16] := by decide +kernel

/-- Chip 6 of a ring of 8, whose neighbour 7 lies by port 0. -/
def upFab : State := { upMem with
  fab := { up.fab with chip := 6, placed := true, sizeX := 8, rtActive := [(7, 1)] }
  ports := [(0, { state := 2, width := 1 })] }
def pk (kind : Byte) (addr : W64) (data : List Byte) (check : W32) : Packet :=
  ⟨{ headerBlank with kind := kind, dst := 6, src := 7, tag := 9, addr := addr, length := BitVec.ofNat 16 data.length, check := check }, data, none⟩
theorem wit_forUs (s : State) (h : s.fab = upFab.fab) (kind : Byte) (addr : W64) (data : List Byte) (check : W32) (k : kind ∈ [1, 2, 3, 4, 5]) :
    ForUs s (pk kind addr data check) kind.toNat := by
  have d : dstHere s 6 = dstHere upFab 6 := by simp only [dstHere, chipIsHere, fwdTarget, h]
  have b : ∀ k ∈ ([1, 2, 3, 4, 5] : List Byte), (headerBlank.rsv || k == 0 || 5 < k.toNat) = false := by decide
  exact ⟨b kind k, rfl, d.trans (by decide +kernel)⟩
def wr : Packet := pk 3 0x40000010 [1, 2, 3, 4] (BitVec.ofNat 32 (crc32c (bytesOfNat 8 0x40000010 ++ [1, 2, 3, 4])))
def rawRead : State × Except Nat (List Byte × Nat) := parcelRaw upFab 0x40000000
def fabPut : State × Option Nat := parcelMerge upFab 0x40000000 0x10 [1, 2, 3, 4] fabBy
/-- A READ and a WRITE that pass the checks; ones outside the address space; a WRITE to a locked parcel; one whose CHECK fails. -/
theorem wit_FabricRequests :
    Routed upFab 7 ∧ okB (fabCheck upFab (pk 1 0x40000000 [] 0).h false true) = true ∧ okB rawRead = true ∧ fabPut.2 = none ∧
    Routed fabPut.1 7 ∧ okB (fabCheck upFab (pk 1 0x800000000000 [] 0).h false true) = false ∧
    okB (fabCheck upFab (pk 3 0x800000000000 [] 0).h true false) = false ∧ okB (fabCheck upFab wr.h true false) = true ∧
    readLocked upFab .other 0x40000010 = false ∧ checkOk upFab wr 0x40000000 = true ∧
    checkOk upFab { wr with h := { wr.h with check := 0 } } 0x40000000 = false ∧
    readLocked { upFab with couriers := [(0, { round := some { slot := 0, base := 0, locks := [0x40000000] } })] } .other 0x40000010 = true ∧
    upFab.net.held = [] := by
  unfold Routed
  decide +kernel
/-- A packet whose arrival at port 0 is stated: its flits in sequence, before them and with one that fails. -/
def onLink (p : Packet) (seq : W16) (bad : Option Nat) : Packet := { p with link := some ⟨0, seq, 65535, [(0, 4)], bad⟩ }
theorem wit_linkTake : (∀ p, p.link = none → linkTake upFab p = (upFab, true)) ∧
    (linkTake upFab (onLink wr 0 none)).2 = true ∧ (linkTake upFab (onLink wr 0 (some 0))).2 = false ∧
    (linkTake upFab (onLink wr 65535 none)).2 = false := by
  refine ⟨fun p h => by rw [linkTake, h], by decide +kernel, by decide +kernel, by decide +kernel⟩
/-- Packets for chip 7 that go on, and one whose last hop this was. -/
def pass (kind : Byte) (ttl : Byte) : Packet := ⟨{ headerBlank with kind := kind, dst := 7, src := 7, ttl := ttl }, [], none⟩
theorem wit_FabricRequests_forward : packetBad (pass 2 2) = false ∧ dstHere upFab 7 = false ∧
    (routePacket upFab (pass 2 1)).isSome = true ∧ 1 < (pass 2 2).h.ttl.toNat ∧ (pass 2 1).h.ttl.toNat ≤ 1 ∧
    (pass 2 1).h.src.toNat ≠ ownSrc upFab ∧ (upFab.port 0).state = 2 := by decide +kernel

/-- Replies to an outstanding request, and to none. -/
def fabReq (reg : Bool) : Req := { tag := 9, chip := 7, addr := 0x1000, write := false, reg := reg, sent := 0 }
def upReq (reg : Bool) : State := { upFab with fab := { upFab.fab with reqTimeout := 1 }, net := { upFab.net with reqs := [fabReq reg] } }
theorem wit_FabricReplies : (∀ g ∈ [false, true], reqOpen (upReq g) (pk 2 0x1000 [5] 0).h.tag.toNat = some (fabReq g)) ∧
    (fabReq true).reg = true ∧ sealOf (fabReq false).addr (pk 2 0x1000 [5] 0).data ≠ (pk 2 0x1000 [5] 0).h.check.toNat ∧
    (fabReq false).sent + (upReq false).fab.reqTimeout * 1000 ≤ (upReq false).now ∧
    reqOpen upFab (pk 2 0x1000 [5] 0).h.tag.toNat = none ∧ (∀ g, ∀ k ∈ [(2 : Byte), 4, 5], packetBad (pk k 0x1000 [5] 0) = false ∧
      dstHere (upReq g) (pk k 0x1000 [5] 0).h.dst.toNat = true) := by decide +kernel

/-- Port 11 in a state, and what a packet of its replay buffer was sent with. -/
def upPort (x : Port) : State := { up with ports := [(11, x)] }
def rp (count : Nat) : Replay := { seq := 7, item := .packet 11 (pass 2 9), flits := 1, time := 0, count := count }
def upLive (count : Nat) : State := { upPort { state := 2, width := 3, replay := [rp count] } with time := { up.time with pm := 30000 } }
/-- A RETRY_REQ that names SEQ 7, and an idle flit that acknowledges it and returns credits of VC 9. -/
def askFlit : List Byte := flitBytes { ftype := 0, ctrl := 1, seq := 5, ack := 6 } []
def idleFlit : List Byte := flitBytes { ftype := 0, seq := 5, ack := 7, crvc := 9, credits := 255 } []
theorem flit_read (h : FlitHead) : flitRead (flitBytes h []) = (let b := flitBytes h []
    some { ftype := field (leAt b 0 1) 6 2, last := (leAt b 0 1).testBit 5, vc := field (leAt b 0 1) 1 4, ctrl := leAt b 1 1,
           seq := leAt b 2 2, ack := leAt b 4 2, crvc := field (leAt b 6 1) 0 4, credits := leAt b 7 1 }) := by
  have l : (flitBody h []).length = 264 := by
    simp only [flitBody, List.length_append, bytesOfNat_length, zeroBytes, List.length_replicate, List.length_nil]
  have lz : (flitBytes h []).length = 272 := by
    simp only [flitBytes, List.length_append, l, bytesOfNat_length, zeroBytes, List.length_replicate]
  have t : (flitBytes h []).take 264 = flitBody h [] := by
    unfold flitBytes
    rw [List.append_assoc, List.take_append_of_le_length (by omega), List.take_of_length_le (by omega)]
  have c : leAt (flitBytes h []) 264 4 = crc32c (flitBody h []) := by
    have l4 := bytesOfNat_length 4 (crc32c (flitBody h []))
    unfold flitBytes leAt bytesAt
    rw [List.append_assoc, ← l, List.drop_left, List.take_left' l4, natOfBytes_bytesOfNat]
    exact Nat.mod_eq_of_lt (crc_lt _)
  unfold flitRead
  rw [lz, t, c]
  simp
def acked (c : Nat) (h : FlitHead) : List Replay :=
  (((upLive c).port 11).replay.filter (fun e => !seqFrom h.ack e.lastSeq)).map (fun e => { e with count := e.count + 1 })
theorem wit_FabricPorts_live : portLive (upLive 0) 11 = true ∧ portLive (upLive 7) 11 = true ∧
    (∃ e ∈ ((upLive 0).port 11).replay, e.time + 20000 ≤ (upLive 0).now) ∧ ((upLive 0).port 11).queue = [] ∧
    flitRead [] = none ∧
    acked 0 { ftype := 0, ctrl := 1, seq := 5, ack := 6 } ≠ [] ∧
    (∀ e ∈ acked 0 { ftype := 0, ctrl := 1, seq := 5, ack := 6 }, e.count < 8) ∧
    (∃ e ∈ acked 7 { ftype := 0, ctrl := 1, seq := 5, ack := 6 }, 8 ≤ e.count) ∧
    ((upLive 0).port 11).discarding = false ∧ { (upLive 0).port 11 with discarding := true }.discarding = true := by
  decide +kernel
theorem wit_FabricPorts_control : flitRead askFlit = some { ftype := 0, ctrl := 1, seq := 5, ack := 6 } ∧
    flitRead idleFlit = some { ftype := 0, seq := 5, ack := 7, crvc := 9, credits := 255 } := by
  rw [askFlit, idleFlit, flit_read, flit_read]
  decide +kernel
/-- A packet of two flits that arrives at port 11 in sequence, whole or with its second flit failing; one that goes out, one
that waits for credits, one for room in the replay buffer. -/
def rd2 (bad : Option Nat) : Packet :=
  { pk 1 0x40000000 [] 0 with data := List.replicate 200 0, link := some ⟨11, 65535, 7, [], bad⟩ }
def upWide : State := { upFab with ports := [(11, { state := 2, width := 3, expect := 65535, replay := [rp 0] })] }
theorem wit_FabricPorts_flits : 2 ≤ (upWide.port 11).state ∧ (upWide.port 11).queue = [] ∧
    (65535 : W16).toNat = (upWide.port 11).expect ∧ packetFlits (rd2 none) = 2 ∧ (1 : Nat) < 2 ∧ 2 ≤ (2 : Nat) ∧
    packetBad (rd2 none) = false ∧ packetFlits (pass 1 2) ≤ kget 64 (upWide.port 11).credits (vcOf (pass 1 2).h) ∧
    ((upWide.port 11).replay.map (fun e => e.flits)).sum + packetFlits (pass 1 2) ≤ 2048 ∧
    kget 64 [(2, 0)] 2 < packetFlits (pass 1 2) := by decide +kernel
def neighbour10 : Discover := ⟨5, 9, 5, 6, false, true, false, false, 0xFFFF, 0, [], false⟩
theorem wit_FabricPorts_training : ((upPort { state := 1 }).port 11).state = 1 ∧ ((upPort { state := 1 }).port 11).width = 0 ∧
    (widthOf (0xAA : Byte).toNat).1 = 0 ∧ (widthOf (0xC0 : Byte).toNat).1 ≠ 0 ∧
    (((upLive 0).port 11).width ≠ 0 ∧ ((upLive 0).port 11).savedUsed = false ∧ ((upLive 0).port 11).badWire = false ∧
      ((upLive 0).port 11).hold = false) ∧
    regGate (upLive 0) 2 (fabBase + 0x100 * 11 + 4) true = .ok := by decide +kernel

/-- A flood that is new and one that has been seen; a module that stands alone; a builder that is due. -/
theorem wit_FabricRoutes_floods : portMaint (upLive 0) 11 = true ∧ (0x21, (5 : W64).toNat, (6 : W16).toNat) ∉ (upLive 0).net.seen ∧
    (0x22, (5 : W16).toNat, (6 : W16).toNat) ∉ (upLive 0).net.seen ∧ (0x23, (5 : W16).toNat, (6 : W16).toNat) ∉ (upLive 0).net.seen ∧
    (0x21, (5 : W64).toNat, (6 : W16).toNat) ∈ { upLive 0 with net := { up.net with seen := [(0x21, 5, 6)] } }.net.seen := by
  decide +kernel
theorem alone_coord (w : W64) : ((settlePosition [⟨w, 0, 0, none, [], [], false⟩]).2.find? (fun e => e.1 == w)).map Prod.snd = some (0, 0, 0) := by
  simp [settlePosition, sortSerial, insertSerial, frameVote, placeRest]
def upAlone : State := { up with time := { up.time with pm := 20000000 } }
theorem wit_FabricRoutes_quiet : 4 ≤ upAlone.boot.stage ∧ upAlone.fab.placed = false ∧ upAlone.fab.lastRoster + 20000000 ≤ upAlone.now ∧
    (∀ n, n < 12 → (upAlone.port n).state = 1 → (upAlone.port n).width ≠ 0) ∧
    ((settlePosition (modulesOf upAlone)).2.find? (fun e => e.1 == Config.serial)).map Prod.snd = some (0, 0, 0) :=
  ⟨by decide +kernel, by decide +kernel, by decide +kernel, by decide +kernel, alone_coord Config.serial⟩
theorem wit_FabricRoutes_registers : ({ upFab.fab with rebuildDue := true }.auto = true ∧ { upFab.fab with rebuildDue := true }.rebuildDue = true) ∧
    (∀ m ∈ [(0 : Master), 2], regGate upFab m.toNat (fabBase + 0x1020) true = .ok) ∧ { upFab.fab with auto := false }.auto = false ∧
    upFab.boot.stage ≠ 0 ∧ takeRefused { upFab with fab := { upFab.fab with spare := true } } 0xFFFF = false ∧
    takeRefused upFab 0xFFFF = true ∧ { upFab.fab with aliasValid := true }.aliasValid = true ∧
    (0x8000FFFF : W32).toNat.testBit 31 = true ∧ (0x8000FFFF : W32).toNat.testBit 30 = false ∧ (0x8000FFFF : W32).toNat % 2 ^ 16 = 0xFFFF ∧
    (0x40000000 : W32).toNat.testBit 31 = false ∧ (0x40000000 : W32).toNat.testBit 30 = true := by decide +kernel

/-! ## Witnesses: the time base and stacked memory -/

def upTime (stage : Nat) : State := { upLive 0 with
  boot := { up.boot with stage := stage }, time := { (upLive 0).time with sourcePort := 11, t1 := some 0 } }
theorem wit_Timekeeping : ((upTime 6).time.sourcePort ≠ 15 ∧ portMaint (upTime 6) (upTime 6).time.sourcePort = true ∧
      (upTime 6).time.running = true ∧ (∀ t1, (upTime 6).time.t1 = some t1 → t1 + 16000 ≤ (upTime 6).now)) ∧
    ((11 : PortNo).val = (upTime 4).time.sourcePort ∧ portMaint (upTime 4) 11 = true ∧ (upTime 4).time.t1.isSome = true ∧
      (upTime 4).boot.stage < 6 ∧ 32000 ≤ (((32000 : Int) - 0) - (0 - 0)).natAbs) ∧
    (up.boot.stage ≠ 0 ∧ up.time.fref = true) := by
  refine ⟨⟨by decide +kernel, by decide +kernel, by decide +kernel, ?_⟩, by decide +kernel, by decide +kernel⟩
  intro t1 h
  cases h
  decide +kernel

/-- Stack 31 with a trigger: its row has a spare, or is on its last rung. -/
def upStk (x : StackS) : State := { up with store := { up.store with stks := [(31, { x with present := true })] } }
theorem wit_MemoryUpkeep :
    scrubRuns (upStk {}) ((upStk {}).stk 31) = true ∧
    (((upStk { triggers := [5] }).stk 31).triggers = [5] ∧ (rowMap ((upStk { triggers := [5] }).stk 31) 5).rung ≤ 2 ∧
      (freeSpare ((upStk { triggers := [5] }).stk 31) (bankKey 5)).isSome = true) ∧
    (3 ≤ (rowMap ((upStk { triggers := [5], rows := [(5, { rung := 3 })] }).stk 31) 5).rung ∧
      (offsetOf (upStk { triggers := [5], rows := [(5, { rung := 3 })] }) 31 5).isSome = true ∧
      ((upStk { triggers := [5], rows := [(5, { rung := 3 })] }).stk 31).retired = []) ∧
    (up.time.running = true ∧ ((upStk {}).stk 31).tempIv ≠ (upStk {}).now / 1000000 + 1) := by decide +kernel
/-- With no sensor offsets in the calibration record: below the limit, and at it. -/
def upCold : State := { upStk {} with sec := { up.sec with calNow := [0] } }
theorem wit_MemoryUpkeep_temps : 0 + sensorOffset upCold 62 < 16 * 110 ∧ 0 + sensorOffset upCold 63 < 16 * 110 ∧
    16 * 110 ≤ 1760 + sensorOffset upCold 62 := by decide +kernel
theorem wit_MemoryUpkeep_copies : (({ up with store := { up.store with stks := [(31, { copyDue := true })] } }).stk 31).copyDue = true ∧
    (up.stk 31).copyDue = false ∧ 6 ≤ up.boot.stage ∧ { up.boot with stage := 4 }.stage < 6 := by decide +kernel

/-! ## Witnesses: power -/

/-- At 1 ms past the first minute: an interval, a window and a minute are due. -/
def upMinute : State := { upCold with
  time := { up.time with pm := 60001000000 }
  prun := { up.prun with winIdx := 600, nextIv := 60001, minuteE := 120000, windowE := 500, hist := [4, 2] } }
theorem wit_PowerGovernor :
    (∀ m ∈ [(2 : Master), 4], regGate upMinute m.toNat pwrBase true = .ok) ∧
    intervalDue { upMinute with prun := { upMinute.prun with nextIv := 0, minuteIdx := 1 } } = true ∧
    (∀ j, j < 64 → sensorOffset upMinute (64 + j) = 0) ∧
    (windowOver { upMinute with prun := { upMinute.prun with winIdx := 599 } } windowNs 599 = true ∧ upMinute.prun.windowE % 100 = 0) ∧
    (windowOver upMinute minuteNs upMinute.prun.minuteIdx = true ∧ (upMinute.prun.minuteIdx + 1) * 600 ≤ upMinute.prun.winIdx ∧
      upMinute.prun.minuteE % 60000 = 0) ∧
    (upMinute.time.running = true ∧ { upMinute.prun with minuteIdx := 1 }.nextSec ≠ upMinute.now / 1000000000 + 1 ∧
      upMinute.now / minuteNs ≤ { upMinute.prun with minuteIdx := 1 }.minuteIdx ∧ (0x80000000 : W32).toNat.testBit 31 = true ∧
      upMinute.power.plan.toNat.testBit 31 = false ∧ (upMinute.prun.hist.foldl (· + ·) 0) % upMinute.prun.hist.length = 0) := by
  decide +kernel
/-- Sensors that are all cool, and one die sensor at its trip temperature. -/
theorem wit_PowerGovernor_beats : (upMinute.tile 7).beatWin < upMinute.now / 1000 ∧ awakeCount upMinute 7 ≠ 0 := by
  refine ⟨by decide +kernel, ?_⟩
  rw [awakeCount]
  refine Nat.ne_of_gt (List.length_pos_of_mem (a := 255) (List.mem_filter.mpr ⟨by simp, ?_⟩))
  decide +kernel
theorem wit_PowerGovernor_trip : tripping (List.replicate 64 0) = [] ∧ tripping (List.replicate 47 0 ++ [1840]) = [(111, 1840)] ∧
    tripping (List.replicate 48 0 ++ [1999, 1999]) = [] ∧ tripping (List.replicate 54 0 ++ [2000]) = [(118, 2000)] := by decide +kernel

/-! ## Witnesses: clusters at rest, resets, power and pins -/

/-- Tile 7's last cluster: quiesced, asleep, or with work queued. -/
def upClu (x : LClus) : State := { up with core := { up.core with lclus := [(2047, x)] } }
theorem wit_ClusterPower :
    (∀ s ∈ [upClu {}, upClu { quiesced := true }, upClu { asleep := true }, upClu { progs := [3] }],
      regGate s 2 (tilBase 7 + 0x3000) true = .ok ∧ (s.tile 7).cluResult ≠ 1 ∧ (s.tile 7).wakePend = []) ∧
    (∀ op ∈ [0, 1, 2, 3, 4, 5, 15], (BitVec.ofNat 32 (op * 2 ^ 24 + 255)).toNat.testBit 16 = false ∧
      2047 = (7 : Tile).val * 256 + (BitVec.ofNat 32 (op * 2 ^ 24 + 255)).toNat % 256 ∧
      op = (BitVec.ofNat 32 (op * 2 ^ 24 + 255)).toNat / 2 ^ 24 % 16) ∧
    (cluRefused (upClu {}) 0 2047 ≠ 0 ∧ cluRefused (upClu {}) 3 2047 ≠ 0 ∧ cluRefused (upClu { progs := [3] }) 4 2047 ≠ 0) ∧
    (cluRefused (upClu {}) 1 2047 = 0 ∧ ((upClu {}).lclu 2047).quiesced = false ∧ ((upClu {}).lclu 2047).quiescing = false ∧
      ((upClu {}).te (physOfN (upClu {}) 2047)).run = none ∧ ((upClu {}).te (physOfN (upClu {}) 2047)).susp = none ∧
      memInFlight (upClu {}) (physOfN (upClu {}) 2047) = false ∧
      memInFlight ((upClu {}).setSeq (physOfN (upClu {}) 2047) { wait := .memory }) (physOfN (upClu {}) 2047) = true ∧
      runningSolves (upClu {}) = [] ∧ cluRefused (upClu { quiesced := true }) 2 2047 = 0 ∧
      cluRefused (upClu { quiesced := true }) 3 2047 = 0 ∧ cluRefused (upClu {}) 4 2047 = 0 ∧
      cluRefused (upClu { asleep := true }) 5 2047 = 0) ∧
    (((upClu { asleep := true, waking := true, retained := some 0 }).lclu 2047).waking = true ∧
      ((upClu { asleep := true, waking := true, retained := some 0 }).lclu 2047).retained = some (upClu {}).image.epoch ∧
      ((upClu { asleep := true, waking := true }).lclu 2047).retained ≠ some (upClu {}).image.epoch) := by decide +kernel
/-- An image whose cluster group 0 goes to sleep after 5 µs. -/
def idleImage : List Byte := zeroBytes 10 ++ [1, 0] ++ zeroBytes 52 ++ [1, 0, 0, 0] ++ bytesOfNat 4 80 ++ bytesOfNat 4 2052 ++ zeroBytes 4 ++
  zeroBytes 2048 ++ [5, 0, 0, 0]
def upIdle : State := { upClu {} with image := { up.image with loaded := true, inForce := idleImage } }
theorem wit_ClusterPower_idle : (groupPolicy upIdle 5).1 ≠ 0 ∧ clusterIdle upIdle 5 = true ∧
    (upIdle.lclu 5).idleSince + (groupPolicy upIdle 5).1 * 1000 ≤ upIdle.now := by decide +kernel

/-- A round of courier 3, whose last unit of 9 bytes stands whole, and another operation. -/
def upReset : State := { up with
  ledger := [(8, opWait 5), (9, opWait 2)]
  couriers := [(3, { round := some { slot := 8, base := 0, out := 9 } })] }
theorem wit_ComputeAndModuleReset : regGate upReset 2 0x1020 true = .ok ∧ 6 ≤ upReset.boot.stage ∧ upReset.boot.computeReset = false ∧
    (upReset.op 9 = some (opWait 2) ∧ tileOp (opWait 2) = true ∧ rstateFinal (opWait 2).rcpt.state = false) ∧
    (∀ e ∈ upReset.couriers, e.1 < 256 → ∀ r, e.2.round = some r → r.slot ≠ 9) ∧
    { upReset.boot with computeReset := true }.computeReset = true := by decide +kernel

theorem wit_PowerAndPins : { up.pins with power := false }.power = false ∧ { up.flash with trip := some (5, 1840) }.trip = some (5, 1840) ∧
    up.flash.trip = none ∧ (up.pins.resetN = true ∧ powered up = true ∧ up.boot.stage ≠ 0) ∧
    (powered State.reset = true ∧ State.reset.boot.stage = 0 ∧ State.reset.time.fref = true ∧
      { State.reset.boot with rimClocks := true }.rimClocks = true) := by decide +kernel

/-! ## Witnesses: bring-up, images, broadcast, packs and the security block -/

def upStage (n : Nat) : State := { up with boot := { up.boot with stage := n } }
theorem wit_BringUp : (∀ n ∈ [1, 2, 3], (upStage n).boot.stage = n ∧ (upStage n).boot.error = 0) ∧
    { up.boot with error := 4 }.error = 4 ∧
    (∃ k, k < 32 ∧ ((List.replicate 31 (⟨false, false, 0, false⟩ : StackTraining)).getD k ⟨true, false, 0, false⟩).ok = true) ∧
    (∀ k, k < 32 → ((List.replicate 32 (⟨false, false, 0, false⟩ : StackTraining)).getD k ⟨true, false, 0, false⟩).ok = false) ∧
    (5 ≤ (upStage 5).boot.stage ∧ (upStage 5).boot.sorterStopped = false ∧
      ({ upStage 5 with ledger := [(9, opWait 6)] }).op 9 = some (opWait 6) ∧ (opWait 6).kind = 6 ∧
      rstateFinal (opWait 6).rcpt.state = false) := by decide +kernel

/-- An image of a header and no sections, and the module that reads it from the host. -/
def image0 : List Byte :=
  let h := bytesOfNat 8 zynetteMagic ++ [1, 0, 0, 0] ++ bytesOfNat 4 64 ++ zeroBytes 8 ++ [0xB1] ++ zeroBytes 35
  h ++ bytesOfNat 4 (crc32c h)
def upImage (n : Nat) : State := { upStage n with
  hif := { up.hif with linkUp := true }
  image := { up.image with len := 64, src := 0x1000 } }
def imgRead (b : List Byte) : State × Option (List Byte) :=
  let s := upImage 5
  readObject { s with image := { s.image with source := false } } false s.image.src.toNat (min s.image.len.toNat maxImage) (some b)
theorem wit_ImageLoadAndFlip : regGate (upImage 6) 2 0x1800 true = .ok ∧ regGate (upImage 5) 2 0x1800 true = .ok ∧
    (upImage 6).image.result ≠ 1 ∧ quiescent { upImage 6 with ledger := [(9, op0)] } = false ∧ quiescent (upImage 6) = true ∧
    (imgRead image0).2 = some image0 ∧ imageFault (imgRead image0).1 image0 64 = none ∧
    (imgRead (zeroBytes 64)).2 = some (zeroBytes 64) ∧ imageFault (imgRead (zeroBytes 64)).1 (zeroBytes 64) 64 = some (0, 1) ∧
    (imgRead [1]).2 = none ∧ (regGate upReset 2 0x1100 true = .ok ∧ quiescent upReset = false) := by decide +kernel

/-- A fragment of a bundle, on a port that carries broadcasts. -/
def frag : Bcast := { bcast0 with bkind := 1, id := 5, total := 5000, fcheck := BitVec.ofNat 32 (crc32c [1]) }
theorem wit_BroadcastsAndPacks_fragment : frag.rsv = false ∧ portBcast (upLive 0) 11 = true ∧ frag.fcheck.toNat = crc32c frag.frag ∧
    (0x24, frag.origin.toNat, frag.seq.toNat) ∉ (upLive 0).net.seen ∧ 5 ≤ (upLive 0).boot.stage ∧ 1 ≤ frag.bkind.toNat ∧
    frag.bkind.toNat ≤ 3 ∧ 4096 < frag.total.toNat ∧ frag.total.toNat ≤ 2 ^ 26 ∧ (upLive 0).bcast.objs = [] := by decide +kernel
def upBcast (x : BcastS) : State := { upImage 6 with bcast := x }
def bcRead : State × Option (List Byte) :=
  let s := upBcast { len := 2, src := 0x1000 }
  readObject { s with bcast := { s.bcast with bkind := 0x41 / 64 % 4, force := false, source := false } } false s.bcast.src.toNat
    s.bcast.len.toNat (some [7, 8])
theorem wit_BroadcastsAndPacks_start : regGate (upBcast {}) 2 0x1100 true = .ok ∧ (0x41 : W32).toNat.testBit 0 = true ∧
    (0x41 : W32).toNat.testBit 1 = false ∧ (0x41 : W32).toNat.testBit 4 = false ∧ (0x41 : W32).toNat.testBit 5 = false ∧
    (0x41 : W32).toNat / 64 % 4 ≠ 0 ∧ (0x01 : W32).toNat / 64 % 4 = 0 ∧ (upBcast { len := 2 }).bcast.len ≠ 0 ∧
    (upBcast { len := 0x4000001 }).bcast.len.toNat = 2 ^ 26 + 1 ∧ bcRead.2 = some [7, 8] ∧
    (upBcast {}).bcast.heldImage = none ∧ (upBcast { heldImage := some image0 }).bcast.heldImage = some image0 ∧
    imageFault (upBcast { heldImage := some image0 }) image0 image0.length = none := by decide +kernel
def upPack (x : Chk) : State := { upMem with hif := { up.hif with linkUp := true }, chk := x }
def pkRead : State × Option (List Byte) :=
  let s := upPack { packLen := 2, packSrc := 0x1000 }
  readObject { s with chk := { s.chk with packSource := false } } false s.chk.packSrc.toNat
    (min s.chk.packLen.toNat (2 ^ 26 + trailerLen)) (some [7, 8])
theorem wit_BroadcastsAndPacks_pack : regGate (upPack {}) 2 0x300100 true = .ok ∧ pkRead.2 = some [7, 8] ∧
    pkRead.1.chk.packResult ≠ 1 ∧ (2 : W32).toNat.testBit 1 = true ∧ (2 : W32).toNat.testBit 0 = false ∧
    (1 : W32).toNat.testBit 1 = false ∧ (1 : W32).toNat.testBit 0 = true ∧ (upPack { pack := some [1] }).chk.pack = some [1] ∧
    (upPack {}).chk.pack = none ∧ (upPack { pack := some [1], packResult := 1, packOut := 0x1000 }).chk.packPending = none ∧
    (parcelWrite (upPack { pack := some [1], packResult := 1, packOut := 0x1000 }) 0x1000 (zeroBytes 4096)).2 = none := by decide +kernel

/-- A security block that can sign, that has reached its ceiling, its last index, that lost its state or is not ready. -/
def upSec (x : Sec) : State := { up with sec := x, flash := { up.flash with ceilA := some (1, 64) } }
theorem wit_secIdle (x : Sec) (h : x.waiting = []) (w : x.attWriting = false) : SecIdle (upSec x) := by
  have a : 2 ≤ up.boot.stage := by decide +kernel
  have b : up.image.result ≠ 1 := by decide +kernel
  exact ⟨a, h, w, b⟩
theorem wit_Attestation : (zeroBytes 32).length = 32 ∧
    ((upSec { attReady := true, attNext := 63 }).sec.attNext < ceiling (upSec { attReady := true, attNext := 63 })) ∧
    (ceiling (upSec { attReady := true, attNext := 64 }) ≤ (upSec { attReady := true, attNext := 64 }).sec.attNext ∧ 64 < 2 ^ 40) ∧
    2 ^ 40 ≤ (upSec { attReady := true, attNext := 2 ^ 40 }).sec.attNext ∧ (upSec { attLost := true }).sec.attLost = true ∧
    (upSec {}).sec.attReady = false ∧ (upSec {}).sec.attLost = false ∧
    ((upSec { attWriting := true }).sec.attWriting = true ∧ (upSec { attWriting := true }).sec.waiting = [] ∧
      (upSec { attWriting := true }).image.result ≠ 1 ∧ (ceilNow (upSec { attWriting := true }).flash).isSome = true) ∧
    2 ≤ (upSec {}).boot.stage := by decide +kernel
theorem wit_CalibrationRecord : ((20480 : W32).toNat % 1024 = 0 ∧ (20480 : W32).toNat < calLength) ∧
    (calLength ≤ (20800 : W32).toNat ∧ (1 : W32).toNat % 1024 ≠ 0) ∧ (20799 : W32).toNat + [(1 : Byte)].length ≤ calLength ∧
    (armNow (upSec { armed := some (7, 0) })).isSome = true ∧ armNow (upSec {}) = none ∧
    (upSec { armed := some (7, 0) }).sec.armed = some (7, 0) ∧
    calReadWhole (upSec { calRead := (List.range 21).map (fun i => 1024 * i) }) = true ∧ calReadWhole (upSec {}) = false ∧
    (upSec {}).now < 0 + calWindow ∧ 0 + calWindow ≤ { up.time with pm := 30000000000 }.pm := by decide +kernel

/-! ## Witnesses: the block as a whole -/

theorem wit_IdleTick : up.pending = [] ∧ up.net.held = [] ∧ up.ring.waiting = [] ∧ powered up = true ∧
    (∀ e ∈ up.core.clus, e.2.te.run = none) ∧ (up.lclu 0).quiescing = false ∧
    (∀ n, n < 12 → (up.port n).state < 2 ∨ ((up.port n).owed = [] ∧ (up.port n).told = ackOf (up.port n))) ∧
    ((upLive 0).port 11).owed = [] ∧ ((upLive 0).port 11).told = ackOf ((upLive 0).port 11) ∧
    powered { up with pins := { up.pins with power := false } } = false ∧ up.time.running = true ∧ up.time.slew = 0 ∧
    up.time.frac = 0 ∧ State.reset.time.running = false ∧ (up.time.frac + up.time.slew).natAbs < 500000 ∧
    (up.time.pm : Int) + 2 < 2 ^ 64 := by
  decide +kernel
theorem wit_IdleTick_quiescing (n : Nat) : (up.lclu n).quiescing = false := rfl
/-- A step writes a byte of memory that has one already. -/
def upStore : State := run (encMem 4 ⟨3, 1, 0⟩) { sreg := [(1, BitVec.ofNat 64 (storeAddr 0 8)), (3, 7)] }
theorem step_st8 (s : State) (p : PClu) (x : ScalMem) : ∃ t, step { s with pending := [.st8 p x] } = .next t := ⟨_, rfl⟩
theorem wit_MemoryStaysCanonical : Memory.wf upStore.store.bytes ∧ ∃ t, step { upStore with pending := [.st8 0 ⟨3, 1, 0⟩] } = .next t :=
  ⟨by unfold Memory.wf; decide +kernel, step_st8 upStore 0 ⟨3, 1, 0⟩⟩

end Sys2Proof.Tests
end

section
/-! PROOF. How an operation and a courier's round end, and what LOOP and WAIT do (spec/00 R14 to R16, spec/13 R333 to R335). -/

namespace Sys2Proof.Machine

/-! ## Reports to the host: mirror, notices and messages -/

/-- From s to t only letterbox windows, host-interface registers, rings and the list of what was sent may change. -/
def ReportsOnly (s t : State) : Prop :=
  ∃ b h r x, t = { s with boxes := b, hif := h, ring := r, sent := x }

theorem ReportsOnly.refl (s : State) : ReportsOnly s s := ⟨_, _, _, _, rfl⟩

theorem ReportsOnly.trans {s t u : State} (h1 : ReportsOnly s t) (h2 : ReportsOnly t u) : ReportsOnly s u := by
  obtain ⟨_, _, _, _, rfl⟩ := h1
  obtain ⟨_, _, _, _, rfl⟩ := h2
  exact ⟨_, _, _, _, rfl⟩

theorem ReportsOnly.setOp {s t : State} (h : ReportsOnly s t) (k : Nat) (o : Op) :
    ReportsOnly (s.setOp k o) (t.setOp k o) := by
  obtain ⟨_, _, _, _, rfl⟩ := h
  exact ⟨_, _, _, _, rfl⟩

theorem ReportsOnly.op {s t : State} (h : ReportsOnly s t) (k : Nat) : t.op k = s.op k := by
  obtain ⟨_, _, _, _, rfl⟩ := h
  rfl

theorem sendMsix_reports (s : State) (v : Nat) : ReportsOnly s (sendMsix s v) := by
  unfold sendMsix
  split
  · exact .refl s
  · split <;> exact ⟨_, _, _, _, rfl⟩

theorem setStale_reports (s : State) : ReportsOnly s (setStale s) := by
  have hflag : ReportsOnly s { s with hif := { s.hif with mirrorStale := true } } := ⟨_, _, _, _, rfl⟩
  unfold setStale
  simp only
  split
  · exact hflag
  · exact hflag.trans (sendMsix_reports _ _)

theorem setNoticeFull_reports (s : State) : ReportsOnly s (setNoticeFull s) := by
  have hflag : ReportsOnly s { s with hif := { s.hif with noticeFull := true } } := ⟨_, _, _, _, rfl⟩
  unfold setNoticeFull
  simp only
  split
  · exact hflag
  · exact hflag.trans (sendMsix_reports _ _)

theorem mirrorReceipt_reports (s : State) (slot : Nat) : ReportsOnly s (mirrorReceipt s slot) := by
  unfold mirrorReceipt
  split
  · exact .refl s
  · split
    · exact .refl s
    · split
      · exact setStale_reports s
      · split <;> exact ⟨_, _, _, _, rfl⟩

theorem noticePut_reports (s : State) (n : Option Nat × List Byte) : ReportsOnly s (noticePut s n) := by
  unfold noticePut
  simp only
  split <;> exact ⟨_, _, _, _, rfl⟩

theorem noticeAppend_reports (s : State) (slot : Nat) : ReportsOnly s (noticeAppend s slot) := by
  unfold noticeAppend
  split
  · exact .refl s
  · simp only
    split
    · exact .refl s
    · split
      · exact setStale_reports s
      · split
        · exact .refl s
        · split
          · exact noticePut_reports s _
          · exact .trans ⟨_, _, _, _, rfl⟩ (setNoticeFull_reports _)

theorem abortNotices_reports (s : State) (o : Op) (status : Nat) : ReportsOnly s (abortNotices s o status) := by
  unfold abortNotices
  split <;> exact ⟨_, _, _, _, rfl⟩

/-! ## The end of an operation -/

/-- From s to t operations may have ended: a final receipt stays as it is, and besides the reports only the ledger and
the streams may change. -/
structure OpsEnded (s t : State) : Prop where
  frame : ∃ l st, ReportsOnly { s with ledger := l, streams := st } t
  final : ∀ k x, s.op k = some x → rstateFinal x.rcpt.state = true → t.op k = some x

theorem OpsEnded.refl (s : State) : OpsEnded s s := ⟨⟨_, _, .refl s⟩, fun _ _ h _ => h⟩

theorem OpsEnded.trans {s t u : State} (h1 : OpsEnded s t) (h2 : OpsEnded t u) : OpsEnded s u := by
  refine ⟨?_, fun k x hx hf => h2.final k x (h1.final k x hx hf) hf⟩
  obtain ⟨_, _, _, _, _, _, rfl⟩ := h1.frame
  obtain ⟨_, _, _, _, _, _, rfl⟩ := h2.frame
  exact ⟨_, _, _, _, _, _, rfl⟩

theorem OpsEnded.store {s t : State} (h : OpsEnded s t) : t.store = s.store := by
  obtain ⟨_, _, _, _, _, _, rfl⟩ := h.frame
  rfl

theorem OpsEnded.courier {s t : State} (h : OpsEnded s t) (j : Nat) : t.courier j = s.courier j := by
  obtain ⟨_, _, _, _, _, _, rfl⟩ := h.frame
  rfl

/-- An operation that had not ended takes its final receipt, and the rest is reports. -/
theorem opFinal_reports {s : State} {slot : Nat} {o : Op} (h : s.op slot = some o) (hf : rstateFinal o.rcpt.state = false)
    (st : RState) (status detail : Nat) :
    ReportsOnly (s.setOp slot { o with
      place := .final
      rcpt := { o.rcpt with state := st, status := status, detail := detail, postmark := s.now } })
      (opFinal s slot st status detail) := by
  have habort : ReportsOnly s (if st = .done then s else abortNotices s o status) := by
    split
    · exact .refl s
    · exact abortNotices_reports s o status
  simp only [opFinal, h, hf, Bool.false_eq_true, if_false, setReceipt]
  exact ((habort.setOp slot _).trans (mirrorReceipt_reports _ _)).trans (noticeAppend_reports _ _)

theorem op_opFinal {s : State} {slot : Nat} {o : Op} (h : s.op slot = some o) (hf : rstateFinal o.rcpt.state = false)
    (st : RState) (status detail : Nat) :
    (opFinal s slot st status detail).op slot = some { o with
      place := .final
      rcpt := { o.rcpt with state := st, status := status, detail := detail, postmark := s.now } } := by
  rw [(opFinal_reports h hf st status detail).op, State.op_setOp_same]

theorem opFinal_ended (s : State) (slot : Nat) (st : RState) (status detail : Nat) :
    OpsEnded s (opFinal s slot st status detail) := by
  cases ho : s.op slot with
  | none => simpa [opFinal, ho] using OpsEnded.refl s
  | some o =>
    cases hf : rstateFinal o.rcpt.state with
    | true => simpa [opFinal, ho, hf] using OpsEnded.refl s
    | false =>
      have hrep := opFinal_reports ho hf st status detail
      refine ⟨⟨_, _, hrep⟩, fun k x hx hxf => ?_⟩
      have hk : slot ≠ k := by
        rintro rfl
        simp_all
      rw [hrep.op, State.op_setOp_ne _ _ _ _ hk, hx]

theorem haltStream_ended (s : State) (slot : Nat) : OpsEnded s (haltStream s slot) := by
  unfold haltStream
  split
  · exact .refl s
  · simp only
    split
    · exact .refl s
    · exact ⟨⟨s.ledger, _, .refl _⟩, fun _ _ h _ => h⟩

theorem settle_ended (fuel : Nat) (s : State) : OpsEnded s (settle fuel s) := by
  induction fuel generalizing s with
  | zero => exact .refl s
  | succ n ih =>
    unfold settle
    split
    · exact .refl s
    · exact ((opFinal_ended _ _ _ _ _).trans (haltStream_ended _ _)).trans (ih _)

theorem opFail_ended (s : State) (slot status detail : Nat) : OpsEnded s (opFail s slot status detail) := by
  unfold opFail opFailAs
  split
  · exact .refl s
  · split
    · exact .refl s
    · exact ((opFinal_ended _ _ _ _ _).trans (haltStream_ended _ _)).trans (settle_ended _ _)

/-- The state of an operation in progress that ends in error (00 R15). -/
def errorState (o : Op) : RState := if 0 < o.rcpt.count then .partialEnd else .failed

theorem rstateFinal_errorState (o : Op) : rstateFinal (errorState o) = true := by
  unfold errorState
  split <;> rfl

/-- An operation in progress that fails takes its final receipt, halts its stream, and ends what it dooms. -/
theorem opFail_of_runs {s : State} {slot : Nat} {o : Op} (h : OpRuns s slot o) (status detail : Nat) :
    ∃ fuel, opFail s slot status detail =
      settle fuel (haltStream (opFinal s slot (errorState o) status detail) slot) := by
  obtain ⟨ho, hst⟩ := h
  exact ⟨(haltStream (opFinal s slot (errorState o) status detail) slot).ledger.length + 1,
    by simp [opFail, opFailAs, ho, hst, rstateFinal, errorState]⟩

theorem opFail_endedIn {s : State} {slot : Nat} {o : Op} (h : OpRuns s slot o) (status detail : Nat) :
    EndedIn (opFail s slot status detail) slot o status detail := by
  have hf : rstateFinal o.rcpt.state = false := by simp [h.2, rstateFinal]
  obtain ⟨fuel, heq⟩ := opFail_of_runs h status detail
  have hlater := (haltStream_ended (opFinal s slot (errorState o) status detail) slot).trans (settle_ended fuel _)
  rw [heq]
  exact ⟨_, hlater.final slot _ (op_opFinal h.1 hf _ _ _) (rstateFinal_errorState o), rfl, rfl, rfl, rfl⟩

/-! ## The committed count -/

theorem opCount_op {s : State} {slot : Nat} {o : Op} (h : s.op slot = some o) (n : Nat) :
    (opCount s slot n).op slot = some { o with rcpt := { o.rcpt with count := max o.rcpt.count n } } := by
  simp [opCount, h]

@[simp] theorem opCount_store (s : State) (slot n : Nat) : (opCount s slot n).store = s.store := by
  unfold opCount
  split <;> rfl

@[simp] theorem opCount_courier (s : State) (slot n j : Nat) : (opCount s slot n).courier j = s.courier j := by
  unfold opCount
  split <;> rfl

/-! ## The end of a round -/

@[simp] theorem reqDrop_store (s : State) (l : List Nat) : (reqDrop s l).store = s.store := rfl
@[simp] theorem reqDrop_courier (s : State) (l : List Nat) (j : Nat) : (reqDrop s l).courier j = s.courier j := rfl
@[simp] theorem reqDrop_now (s : State) (l : List Nat) : (reqDrop s l).now = s.now := rfl

theorem dropRound_op (s : State) (c k : Nat) : (dropRound s c).op k = s.op k := by
  unfold dropRound
  simp only
  split <;> rfl

theorem dropRound_over {s : State} {c : Nat} {r : Round} (h : (s.courier c).round = some r) :
    RoundOver s (dropRound s c) c := by
  simp only [dropRound, h]
  exact ⟨rfl, fun j hj => State.courier_setCourier_ne _ _ _ _ (Ne.symm hj), State.courier_setCourier_same _ _ _⟩

theorem failRound_over {s : State} {c : Nat} {r : Round} (h : (s.courier c).round = some r) (status detail : Nat) :
    RoundOver s (failRound s c status detail) c := by
  obtain ⟨hstore, hothers, hthis⟩ := dropRound_over h
  have hend := opFail_ended (opCount (dropRound s c) r.slot (roundUnits r)) r.slot status detail
  simp only [failRound, h]
  refine ⟨?_, fun j hj => ?_, ?_⟩
  · rw [hend.store, opCount_store, hstore]
  · rw [hend.courier, opCount_courier, hothers _ hj]
  · rw [hend.courier, opCount_courier, hthis]

theorem failRound_endedIn {s : State} {c : Nat} {r : Round} {o : Op} (h : (s.courier c).round = some r)
    (ho : OpRuns s r.slot o) (status detail : Nat) :
    EndedIn (failRound s c status detail) r.slot (roundCounted o r) status detail := by
  have hdrop : (dropRound s c).op r.slot = some o := (dropRound_op s c r.slot).trans ho.1
  have hruns : OpRuns (opCount (dropRound s c) r.slot (roundUnits r)) r.slot (roundCounted o r) :=
    ⟨opCount_op hdrop _, ho.2⟩
  simpa only [failRound, h] using opFail_endedIn hruns status detail

/-! ## The instruction a courier stands at -/

theorem courierBecomes_setCourier (s : State) (c : Nat) (x : Courier) : CourierBecomes s (s.setCourier c x) c x :=
  ⟨rfl, State.courier_setCourier_same _ _ _, fun _ hj => State.courier_setCourier_ne _ _ _ _ (Ne.symm hj)⟩

/-- A running courier carries out the instruction it stands at, with its bytes held in the round. -/
theorem onIns_running {s : State} {c op : Nat} {r : Round} {b : List Byte} (h : AtIns s c r b .running)
    (hop : leAt b 0 1 = op) (act : State → Round → List Byte → State) :
    onIns s c op act = act (setRound s c { r with ins := some b }) { r with ins := some b } b := by
  simp [onIns, h.round, h.phase, h.fine, h.held, hop]

/-- A waiting courier's WAIT is the instruction under way. -/
theorem onWait_waiting {s : State} {c : Nat} {r : Round} {b : List Byte} (h : AtIns s c r b .waiting)
    (act : State → Round → List Byte → State) : onWait s c act = act s r b := by
  simp [onWait, h.round, h.phase, h.fine, h.waits rfl]

@[simp] theorem setRound_courier_same (s : State) (c : Nat) (r : Round) :
    (setRound s c r).courier c = { s.courier c with round := some r } := by simp [setRound]

@[simp] theorem setRound_now (s : State) (c : Nat) (r : Round) : (setRound s c r).now = s.now := rfl

@[simp] theorem setCourier_setRound (s : State) (c : Nat) (r : Round) (x : Courier) :
    (setRound s c r).setCourier c x = s.setCourier c x := by simp [setRound]

theorem goTo_setCourier (s : State) (c pc : Nat) (x : Courier) :
    goTo (s.setCourier c x) c pc =
      s.setCourier c { x with pc := pc, round := x.round.map (fun r => { r with ins := none }) } := by
  simp [goTo]

/-! ## LOOP (13 R333) -/

/-- The courier after a LOOP: back at the body's first instruction until COUNT, and then at the next one with the counter
clear. -/
def afterLoop (x : Courier) (r : Round) (b : List Byte) : Courier :=
  if x.lc.getD (leAt b 1 1) 0 + 1 < leAt b 4 4 then
    { x with
      lc := x.lc.set (leAt b 1 1) (x.lc.getD (leAt b 1 1) 0 + 1), pc := (x.pc + signedOf 32 (leAt b 8 4)).toNat,
      round := some { r with ins := none } }
  else { x with lc := x.lc.set (leAt b 1 1) 0, pc := x.pc + 16, round := some { r with ins := none } }

theorem exec_loop {s : State} {c : CourierNo} {r : Round} {b : List Byte} (h : AtIns s c r b .running)
    (hop : leAt b 0 1 = 2) : exec (.loop c) s = .next (s.setCourier c (afterLoop (s.courier c) r b)) := by
  change execLoop c s = _
  rw [execLoop, onIns_running h hop]
  simp only [setRound_courier_same, setCourier_setRound, goTo_setCourier, Option.map_some, afterLoop]
  split <;> rfl

/-! ## WAIT (13 R334, R335) -/

theorem exec_wait {s : State} {c : CourierNo} {r : Round} {b : List Byte} (h : AtIns s c r b .running)
    (hop : leAt b 0 1 = 3) :
    exec (.wait c) s = .next (s.setCourier c { s.courier c with
      phase := .waiting, round := some { r with ins := some b, waitFrom := s.now, lastPoll := none, met := false } }) := by
  change execWait c s = _
  rw [execWait, onIns_running h hop]
  simp

theorem exec_waitMet_holds {s : State} {c : CourierNo} {r : Round} {b : List Byte} (h : AtIns s c r b .waiting)
    (hw : waitHolds s r b = true) (hs : waitStatus s b < 0x40) :
    exec (.waitMet c) s = .next (s.setCourier c { s.courier c with
      phase := .running, pc := (s.courier c).pc + 32, round := some { r with ins := none } }) := by
  change execWaitMet c s = _
  rw [execWaitMet, onWait_waiting h]
  simp [hw, Nat.not_le.mpr hs, goTo_setCourier, h.round]

theorem exec_waitMet_depFailed {s : State} {c : CourierNo} {r : Round} {b : List Byte} (h : AtIns s c r b .waiting)
    (hw : waitHolds s r b = true) (hs : 0x40 ≤ waitStatus s b) :
    exec (.waitMet c) s = .next (failRound s c stDep (detail2 (waitArg b) 0)) := by
  change execWaitMet c s = _
  rw [execWaitMet, onWait_waiting h]
  simp [hw, hs]

theorem exec_waitTimeout {s : State} {c : CourierNo} {r : Round} {b : List Byte} (h : AtIns s c r b .waiting)
    (hw : waitHolds s r b = false) (h0 : waitTimeout b ≠ 0) (hn : waitTimeout b ≤ s.now) :
    exec (.waitTimeout c) s =
      .next (failRound s c stNotReady (detail2 (waitArg b) ((s.courier c).pc - r.base))) := by
  change execWaitTimeout c s = _
  rw [execWaitTimeout, onWait_waiting h]
  simp [hw, h0, Nat.not_lt.mpr hn]

/-- A poll that reads its word notes its time and whether the condition is met, and drops its requests. -/
theorem exec_waitPoll {s s1 : State} {c : CourierNo} {r r1 : Round} {b d : List Byte} (h : AtIns s c r b .waiting)
    (hk : waitKind b = 1) (hm : r.met = false) (hd : pollDue s r = true)
    (hp : pollWord s c r (waitArg b) = (s1, r1, .ok d)) :
    exec (.waitPoll c) s = .next (setRound (reqDrop s1 r1.moveTags) c { r1 with
      moveTags := [], lastPoll := some s1.now,
      met := decide (leAt b 16 8 ≤ natOfBytes d) && (waitTimeout b == 0 || decide (s1.now < waitTimeout b)) }) := by
  change execWaitPoll c s = _
  rw [execWaitPoll, onWait_waiting h]
  simp [pollStep, hk, hm, hd, hp]

/-- Settles O36: LOOP and WAIT rewrite their courier alone, a WAIT that fails ends its round, and a poll notes what it
read. -/
theorem courierLoopAndWait : Obligations.CourierLoopAndWait := by
  unfold Obligations.CourierLoopAndWait
  rintro s c r b x rfl
  refine ⟨fun h => ⟨fun hop => ?_, fun hop => ?_⟩,
    fun h => ⟨fun hw hs => ?_, fun o ho => ⟨fun hw hs => ?_, fun hw h0 hn => ?_⟩, fun s1 r1 d hk hm hd hp => ?_⟩⟩
  · exact ⟨_, exec_loop h hop, courierBecomes_setCourier _ _ _⟩
  · exact ⟨_, exec_wait h hop, courierBecomes_setCourier _ _ _⟩
  · exact ⟨_, exec_waitMet_holds h hw hs, courierBecomes_setCourier _ _ _⟩
  · exact ⟨_, exec_waitMet_depFailed h hw hs, failRound_over h.round _ _, failRound_endedIn h.round ho _ _⟩
  · exact ⟨_, exec_waitTimeout h hw h0 hn, failRound_over h.round _ _, failRound_endedIn h.round ho _ _⟩
  · exact ⟨_, exec_waitPoll h hk hm hd hp, rfl, by rw [setRound_courier_same]⟩

end Sys2Proof.Machine
end

section
/-! PROOF. What one visit of the collection round does (spec/16 R409, R412, R413). -/

namespace Sys2Proof.Machine

/-! ## What is sent while the host link is up -/

/-- From s to t only messages are sent. -/
def SendsOnly (s t : State) : Prop := ∃ l, t = s.sendAll l

theorem SendsOnly.refl (s : State) : SendsOnly s s := ⟨[], by simp [State.sendAll]⟩

theorem SendsOnly.send (s : State) (x : Sent) : SendsOnly s (s.send x) := ⟨[x], rfl⟩

theorem mirrorReceipt_sends {s : State} (hup : s.hif.linkUp = true) (slot : Nat) : SendsOnly s (mirrorReceipt s slot) := by
  unfold mirrorReceipt
  split
  · exact .refl s
  · simp only [hup, Bool.not_true, Bool.false_eq_true, if_false]
    split
    · exact .refl s
    · split
      · exact .send s _
      · exact .refl s

theorem mirrorTail_sends {s : State} (hup : s.hif.linkUp = true) (k : Nat) : SendsOnly s (mirrorTail s k) := by
  simp only [mirrorTail, hup, Bool.not_true, Bool.false_eq_true, if_false]
  split
  · exact .send s _
  · exact .refl s

/-- An MSI-X message is sent, or stays pending in the ring's registers. -/
theorem sendMsix_eq (s : State) (v : Nat) :
    ∃ p l, sendMsix s v = { s with ring := { s.ring with msixPending := p }, sent := l } := by
  unfold sendMsix
  split
  · exact ⟨_, _, rfl⟩
  · split <;> exact ⟨_, _, rfl⟩

theorem setRefusal_eq (s : State) : ∃ p l, setRefusal s =
    { s with hif := { s.hif with refusal := true }, ring := { s.ring with msixPending := p }, sent := l } := by
  unfold setRefusal
  simp only
  split
  · exact ⟨_, _, rfl⟩
  · exact sendMsix_eq _ _

/-! ## Operations that a failure dooms (00 R16, 16 R416, R417) -/

/-- Where no waiting operation is doomed, nothing ends. -/
theorem settle_of_none_doomed {s : State} (h : ∀ e ∈ s.ledger, opDoomed s e.2 = none) (fuel : Nat) :
    settle fuel s = s := by
  cases fuel with
  | zero => rfl
  | succ n =>
    have hfind : s.ledger.find? (fun e => (opDoomed s e.2).isSome) = none :=
      List.find?_eq_none.mpr fun e he => by simp [h e he]
    simp [settle, hfind]

/-! ## Placing an operation in its stream (16 R414) -/

@[simp] theorem placeOp_op (s : State) (slot : Nat) (o : Op) (closes : Bool) (d : Nat) :
    (placeOp s slot o closes).op d = s.op d := State.op_setStrm _ _ _ _

@[simp] theorem placeOp_box (s : State) (slot : Nat) (o : Op) (closes : Bool) (j : Nat) :
    (placeOp s slot o closes).box j = s.box j := State.box_setStrm _ _ _ _

@[simp] theorem placeOp_store (s : State) (slot : Nat) (o : Op) (closes : Bool) :
    (placeOp s slot o closes).store = s.store := rfl
@[simp] theorem placeOp_core (s : State) (slot : Nat) (o : Op) (closes : Bool) :
    (placeOp s slot o closes).core = s.core := rfl

theorem placeOp_ops (s : State) {slot q : Nat} {o : Op} (closes : Bool) (hq : o.rcpt.stream = q) :
    ((placeOp s slot o closes).strm q).ops = (s.strm q).ops ++ [slot] := by
  subst hq
  simp [placeOp]

/-- Placing an operation neither halts a stream nor clears a halt. -/
theorem placeOp_halt (s : State) (slot : Nat) (o : Op) (closes : Bool) (q : Nat) :
    ((placeOp s slot o closes).strm q).halted = (s.strm q).halted ∧
    ((placeOp s slot o closes).strm q).failStep = (s.strm q).failStep ∧
    ((placeOp s slot o closes).strm q).failSlot = (s.strm q).failSlot := by
  simp only [placeOp, State.strm_setStrm]
  split
  · next h => simp [h]
  · simp

/-- An operation that has not started, placed in its stream on a slot that was free, dooms no operation and saves none. -/
theorem opDoomed_placeOp_setOp {s : State} {slot : Nat} {o : Op} (hfree : s.op slot = none)
    (hnew : o.rcpt.state = .notStarted) (closes : Bool) (x : Op) :
    opDoomed (placeOp (s.setOp slot o) slot o closes) x = opDoomed s x := by
  obtain ⟨hhalt, hstep, hslot⟩ := placeOp_halt (s.setOp slot o) slot o closes x.rcpt.stream
  simp only [opDoomed, hhalt, hstep, hslot, placeOp_op, State.strm_setOp]
  congr 3
  funext d
  by_cases h : slot = d
  · subst h
    simp [hnew, hfree]
  · rw [State.op_setOp_ne _ _ _ _ h]

theorem opDoomed_of_no_deps {s : State} {o : Op} (hdeps : o.deps = []) (hrun : (s.strm o.rcpt.stream).halted = false) :
    opDoomed s o = none := by
  simp [opDoomed, hdeps, hrun]

/-- Where no operation is doomed, none is after a new one that depends on none and whose stream runs. -/
theorem none_doomed_placeOp_setOp {s : State} {slot : Nat} {o : Op} (hfree : s.op slot = none)
    (hnew : o.rcpt.state = .notStarted) (hdeps : o.deps = []) (hrun : (s.strm o.rcpt.stream).halted = false)
    (hnone : ∀ e ∈ s.ledger, opDoomed s e.2 = none) (closes : Bool) :
    ∀ e ∈ (placeOp (s.setOp slot o) slot o closes).ledger,
      opDoomed (placeOp (s.setOp slot o) slot o closes) e.2 = none := by
  intro e he
  rw [opDoomed_placeOp_setOp hfree hnew]
  rcases kins_mem _ _ _ _ he with rfl | hold
  · exact opDoomed_of_no_deps hdeps hrun
  · exact hnone e (List.mem_filter.mp hold).1

/-! ## One entry -/

theorem worstField_eq_none {l : List (Nat × Nat)} : worstField l = none ↔ l = [] := by
  cases l with
  | nil => simp [worstField]
  | cons a t =>
    simp only [worstField, reduceCtorEq, iff_false]
    split
    · simp
    · split <;> simp

theorem broken_eq_nil {c : Bool} {reason off : Nat} : broken c reason [off] = [] ↔ c = false := by
  cases c <;> simp [broken]

theorem entryOp_stream (k step : Nat) (b : List Byte) : (entryOp k step b).rcpt.stream = leAt b 8 2 := rfl

/-- An entry without a fault names a stream that the image allots to this module. -/
theorem imgStreamAlloc_of_entryFault_none {s : State} {b : List Byte} (h : entryFault s b = none) :
    imgStreamAlloc s.image.inForce (leAt b 8 2) = 1 := by
  simp only [entryFault, worstField_eq_none, List.append_eq_nil_iff, broken_eq_nil] at h
  obtain ⟨⟨⟨⟨-, hstream⟩, -⟩, -⟩, -⟩ := h
  simpa using hstream

/-- From s to t an entry of letterbox k was passed over: counted, and named in the refusal registers. -/
structure EntryRefused (s : State) (k index slot : Nat) (t : State) : Prop where
  ledger : t.ledger = s.ledger
  streams : t.streams = s.streams
  linkUp : t.hif.linkUp = s.hif.linkUp
  refusal : t.hif.refusal = true
  valid : t.ring.refuseValid = true
  letterbox : t.ring.refuseBox = k
  entry : t.ring.refuseEntry = index
  slot : t.ring.refuseSlot = slot
  counted : t.box k = { s.box k with refused := inc32 (s.box k).refused }

theorem refuseEntry_refused (s : State) (k index : Nat) (b : List Byte) :
    EntryRefused s k index (entrySlot b) (refuseEntry s k index b) := by
  obtain ⟨p, l, hset⟩ := setRefusal_eq (({ s with ring := { s.ring with
    refuseValid := true, refuseBox := k, refuseEntry := index, refuseSlot := entrySlot b } }).setBox k
      { s.box k with refused := inc32 (s.box k).refused })
  rw [refuseEntry, hset]
  exact ⟨rfl, rfl, rfl, rfl, rfl, rfl, rfl, rfl, State.box_setBox_same _ _ _⟩

/-- An entry whose slot cannot be allocated is passed over (R412). -/
theorem collectEntry_refused {s : State} {b : List Byte} (k index : Nat)
    (h : 131072 ≤ entrySlot b ∨ (s.op (entrySlot b)).isSome = true) :
    EntryRefused s k index (entrySlot b) (collectEntry s k index b) := by
  have hcond : (decide (131072 ≤ entrySlot b) || (s.op (entrySlot b)).isSome) = true := by simpa using h
  simpa only [collectEntry, hcond, if_true] using refuseEntry_refused s k index b

/-- The state after an entry's operation was counted, put on its slot and placed in its stream. -/
def allocateEntry (s : State) (k : Nat) (b : List Byte) : State :=
  let o := entryOp k (s.strm (leAt b 8 2)).step b
  placeOp ((s.setBox k { s.box k with collected := inc32 (s.box k).collected }).setOp (entrySlot b) o) (entrySlot b) o false

/-- An entry without a fault, on a free slot, that is no SYNC and depends on nothing in a stream that runs, is allocated
(R409). -/
theorem collectEntry_allocated {s : State} {k index : Nat} {b : List Byte} (hup : s.hif.linkUp = true)
    (hslot : entrySlot b < 131072) (hfree : s.op (entrySlot b) = none) (hfault : entryFault s b = none)
    (hkind : leAt b 1 1 ≠ 7) (hrun : (s.strm (leAt b 8 2)).halted = false)
    (hnone : ∀ e ∈ s.ledger, opDoomed s e.2 = none) (hdeps : entryDeps b = []) :
    SendsOnly (allocateEntry s k b) (collectEntry s k index b) := by
  obtain ⟨l, hl⟩ := mirrorReceipt_sends (s := allocateEntry s k b) hup (entrySlot b)
  have hdoomed : ∀ e ∈ (allocateEntry s k b).ledger, opDoomed (allocateEntry s k b) e.2 = none :=
    none_doomed_placeOp_setOp (s := s.setBox k { s.box k with collected := inc32 (s.box k).collected })
      (o := entryOp k (s.strm (leAt b 8 2)).step b) hfree rfl hdeps hrun hnone false
  have hsettle (fuel : Nat) : settle fuel ((allocateEntry s k b).sendAll l) = (allocateEntry s k b).sendAll l :=
    settle_of_none_doomed (s := (allocateEntry s k b).sendAll l) hdoomed fuel
  have hours : imgStreamAlloc s.image.inForce (entryOp k (s.strm (leAt b 8 2)).step b).rcpt.stream = 1 :=
    imgStreamAlloc_of_entryFault_none hfault
  have hopen : ((entryOp k (s.strm (leAt b 8 2)).step b).kind == 7) = false := by simpa [entryOp] using hkind
  simp only [collectEntry, hfree, hfault, hours, hopen, hrun, Nat.not_le.mpr hslot]
  simp only [allocateEntry] at hl hsettle
  exact ⟨l, by simp [hl, hsettle, allocateEntry]⟩

/-! ## One visit -/

/-- The state of a visit that has noted its time. -/
def noteVisit (s : State) (k : Nat) : State := s.setBox k { s.box k with lastVisit := some s.now }

@[simp] theorem noteVisit_box (s : State) (k : Nat) : (noteVisit s k).box k = { s.box k with lastVisit := some s.now } :=
  State.box_setBox_same _ _ _
@[simp] theorem noteVisit_ledger (s : State) (k : Nat) : (noteVisit s k).ledger = s.ledger := rfl
@[simp] theorem noteVisit_streams (s : State) (k : Nat) : (noteVisit s k).streams = s.streams := rfl
@[simp] theorem noteVisit_store (s : State) (k : Nat) : (noteVisit s k).store = s.store := rfl

/-- A visit to a running letterbox that has had none in this window collects its entry, and mirrors TAIL. -/
theorem exec_collectionVisit {s : State} {k : GroupNo} (b : List Byte) (hruns : boxRuns s k = true)
    (hfirst : (s.box k).lastVisit = none) :
    exec (.collectionVisit k [b]) s = .next (mirrorTail (collectList (noteVisit s k) k [b]) k) := by
  change execCollectionVisit k [b] s = _
  simp [execCollectionVisit, hruns, hfirst, noteVisit]

theorem linkUp_of_boxRuns {s : State} {k : Nat} (h : boxRuns s k = true) : s.hif.linkUp = true := by
  simp only [boxRuns, Bool.and_eq_true] at h
  obtain ⟨⟨⟨⟨-, hup⟩, -⟩, -⟩, -⟩ := h
  exact hup

/-- An entry whose phase is not the ring's ends the visit. -/
theorem collectList_notReady {s : State} {k : Nat} {b : List Byte} (rest : List (List Byte))
    (h : leAt b 0 1 % 2 ≠ ringPhase (s.box k).tail (s.box k).sizeLog2) :
    collectList s k (b :: rest) = s.setBox k { s.box k with badRun := 0 } := by
  simp [collectList, h]

/-- TAIL moves past an entry. -/
def passEntry (s : State) (k tail : Nat) : State :=
  s.setBox k { s.box k with tail := (tail + 1) % 2 ^ 32, badRun := 0 }

@[simp] theorem passEntry_box (s : State) (k tail : Nat) :
    (passEntry s k tail).box k = { s.box k with tail := (tail + 1) % 2 ^ 32, badRun := 0 } := State.box_setBox_same _ _ _

/-- A ready and whole entry is collected, and TAIL moves past it. -/
theorem collectList_ready {s : State} {k : Nat} {b : List Byte}
    (hphase : leAt b 0 1 % 2 = ringPhase (s.box k).tail (s.box k).sizeLog2)
    (hwhole : crc32c (overlay b 60 (zeroBytes 4)) = leAt b 60 4) :
    collectList s k [b] =
      passEntry (collectEntry s k ((s.box k).tail % 2 ^ (s.box k).sizeLog2) b) k (s.box k).tail := by
  simp [collectList, hphase, hwhole, passEntry]

/-- A visit that finds one ready and whole entry: what its collection makes, TAIL past it, and the write to the mirror. -/
theorem exec_collectionVisit_ready {s e : State} {k : GroupNo} {b : List Byte} (hruns : boxRuns s k = true)
    (hfirst : (s.box k).lastVisit = none) (hphase : leAt b 0 1 % 2 = ringPhase (s.box k).tail (s.box k).sizeLog2)
    (hwhole : crc32c (overlay b 60 (zeroBytes 4)) = leAt b 60 4)
    (hentry : collectEntry (noteVisit s k) k ((s.box k).tail % 2 ^ (s.box k).sizeLog2) b = e) (hup : e.hif.linkUp = true) :
    ∃ l, exec (.collectionVisit k [b]) s = .next ((passEntry e k (s.box k).tail).sendAll l) := by
  have hlist : collectList (noteVisit s k) k [b] = passEntry e k (s.box k).tail := by
    rw [collectList_ready (by simpa using hphase) hwhole]
    simp [← hentry]
  obtain ⟨l, hl⟩ := mirrorTail_sends (s := passEntry e k (s.box k).tail) hup k
  exact ⟨l, by rw [exec_collectionVisit b hruns hfirst, hlist, hl]⟩

/-- Settles O22: a visit of one entry is the entry's collection, a move of TAIL, and what is sent to the mirror. -/
theorem collectionVisit : Obligations.CollectionVisit := by
  unfold Obligations.CollectionVisit
  rintro s k b x rfl hruns hfirst -
  have hup := linkUp_of_boxRuns hruns
  refine ⟨fun hphase => ?_, fun hphase hwhole => ⟨fun hrefuse => ?_, fun hslot hfree hfault hkind hrun hnone hdeps => ?_⟩⟩
  · have hlist : collectList (noteVisit s k) k [b] = _ := collectList_notReady [] (by simpa using hphase)
    obtain ⟨l, hl⟩ := mirrorTail_sends (s := (noteVisit s k).setBox k _) hup k
    rw [exec_collectionVisit b hruns hfirst, hlist, hl]
    refine ⟨_, rfl, ?_⟩
    simp
  · have hentry := collectEntry_refused (s := noteVisit s k) k ((s.box k).tail % 2 ^ (s.box k).sizeLog2) hrefuse
    obtain ⟨l, hvisit⟩ := exec_collectionVisit_ready hruns hfirst hphase hwhole rfl (hentry.linkUp.trans hup)
    refine ⟨_, hvisit, ?_⟩
    simp [passEntry, hentry.ledger, hentry.streams, hentry.refusal, hentry.valid, hentry.letterbox, hentry.entry,
      hentry.slot, hentry.counted]
  · obtain ⟨m, hentry⟩ :=
      collectEntry_allocated (s := noteVisit s k) hup hslot hfree hfault hkind hrun hnone hdeps
    obtain ⟨l, hvisit⟩ := exec_collectionVisit_ready hruns hfirst hphase hwhole hentry hup
    refine ⟨_, hvisit, ?_⟩
    simp [passEntry, noteVisit, allocateEntry, placeOp_ops _ _ (entryOp_stream _ _ b)]

end Sys2Proof.Machine
end

section
/-! PROOF. How a load of an image is answered, and what its flip puts in force (spec/17 R437 to R440, spec/00 R551). -/

namespace Sys2Proof.Machine

/-! ## The answer to a load (17 R437, R438) -/

/-- A write that every check lets through acts. -/
theorem gated_ok {s : State} {m off : Nat} (h : regGate s m off true = .ok) (act : State → State) :
    gated s m off act = act s := by
  simp [gated, h]

/-- From S6 on, a module that is not quiescent (R438). -/
def loadBusy (s : State) : Bool := decide (6 ≤ s.boot.stage) && !quiescent s

theorem loadBusy_of_running {s : State} (hstage : 6 ≤ s.boot.stage) (hq : quiescent s = false) : loadBusy s = true := by
  simp [loadBusy, hstage, hq]

theorem loadBusy_of_free {s : State} (h : s.boot.stage < 6 ∨ quiescent s = true) : loadBusy s = false := by
  rcases h with hstage | hq
  · simp [loadBusy, Nat.not_le.mpr hstage]
  · simp [loadBusy, hq]

/-- The state of a load that has noted its source. -/
def noteSource (s : State) (v : W32) : State := { s with image := { s.image with source := v.toNat.testBit 1 } }

theorem exec_imageLoad {s : State} {m : Master} (hgate : regGate s m.toNat 0x1800 true = .ok) (v : W32)
    (host : Option (List Byte)) : exec (.imageLoad m v host) s = .next (actImageCtrl s v.toNat host) := by
  change execImageLoad m v host s = _
  rw [execImageLoad, gated_ok hgate]

section
variable {s s1 : State} {v : W32} {host : Option (List Byte)}
variable (hgo : v.toNat.testBit 0 = true) (hidle : s.image.result ≠ 1)
include hgo hidle

/-- A busy module refuses with reason 6, before anything is read. -/
theorem actImageCtrl_busy (hbusy : loadBusy s = true) :
    actImageCtrl s v.toNat host = imageRefused (noteSource s v) 6 0xFFFFFFFF := by
  simp only [loadBusy] at hbusy
  simp [actImageCtrl, noteSource, hgo, hidle, hbusy]

/-- An image that could be read is checked. -/
theorem actImageCtrl_read {img : List Byte} (hfree : loadBusy s = false)
    (hread : readObject (noteSource s v) (v.toNat.testBit 1) s.image.src.toNat (min s.image.len.toNat maxImage) host =
      (s1, some img)) : actImageCtrl s v.toNat host = offerImage s1 img s.image.len.toNat := by
  simp only [loadBusy, noteSource] at hfree hread
  have hload : (!v.toNat.testBit 0 || s.image.result == 1) = false := by simp [hgo, hidle]
  simp only [actImageCtrl, hload, hfree, hread, Bool.false_eq_true, if_false]

/-- An image that could not be read is refused with reason 7. -/
theorem actImageCtrl_unread (hfree : loadBusy s = false)
    (hread : readObject (noteSource s v) (v.toNat.testBit 1) s.image.src.toNat (min s.image.len.toNat maxImage) host =
      (s1, none)) : actImageCtrl s v.toNat host = imageRefused s1 7 0xFFFFFFFF := by
  simp only [loadBusy, noteSource] at hfree hread
  have hload : (!v.toNat.testBit 0 || s.image.result == 1) = false := by simp [hgo, hidle]
  simp only [actImageCtrl, hload, hfree, hread, Bool.false_eq_true, if_false]

end

theorem offerImage_sound {s : State} {img : List Byte} {len : Nat} (h : imageFault s img len = none) :
    offerImage s img len = { s with
      image := { s.image with result := 1, reason := 0, refuseOff := 0xFFFFFFFF, staged := some img }
      ring := { s.ring with paused := true } } := by
  simp [offerImage, h]

theorem offerImage_fault {s : State} {img : List Byte} {len : Nat} {e : Nat × Nat} (h : imageFault s img len = some e) :
    offerImage s img len = imageRefused s e.2 e.1 := by
  simp [offerImage, h]

/-- LOAD_HELD on a busy module refuses the image, which stays held. -/
theorem exec_loadHeld_busy {s : State} {m : Master} {img : List Byte} (hgate : regGate s m.toNat 0x1100 true = .ok)
    (hheld : s.bcast.heldImage = some img) (hidle : s.image.result ≠ 1) (hbusy : loadBusy s = true) :
    exec (.loadHeld m) s = .next (imageRefused s 6 0xFFFFFFFF) := by
  have hbytes : loadBytes s img = imageRefused s 6 0xFFFFFFFF := by
    rw [loadBytes, if_neg (by simpa using hidle)]
    exact if_pos hbusy
  change execLoadHeld m s = _
  rw [execLoadHeld, gated_ok hgate]
  simp [loadHeld, hheld, hbytes, imageRefused]

/-! ## What the flip leaves of the image registers

The work of the flip besides `imageInForce` changes neither the image registers nor the access tables, and only
`imageFlip` itself lets collection go on. -/

/-- From s to t the image registers, the access tables and the pause of collection are kept. -/
structure ConfigKept (s t : State) : Prop where
  image : t.image = s.image
  access : t.access = s.access
  paused : t.ring.paused = s.ring.paused

namespace ConfigKept

theorem refl (s : State) : ConfigKept s s := ⟨rfl, rfl, rfl⟩

/-- Transitivity, the later change first: so a chain reads as the model nests its functions. -/
theorem after {s t u : State} (h2 : ConfigKept t u) (h1 : ConfigKept s t) : ConfigKept s u :=
  ⟨h2.image.trans h1.image, h2.access.trans h1.access, h2.paused.trans h1.paused⟩

theorem foldl {α : Type} {f : State → α → State} (hf : ∀ u x, ConfigKept u (f u x)) (l : List α) (s : State) :
    ConfigKept s (l.foldl f s) :=
  List.foldlRecOn l f (refl s) fun u hu x _ => (hf u x).after hu

end ConfigKept

/-! ### Rows that move (01 R36, R37) -/

theorem setTile_config (s : State) (t : Nat) (x : TileS) : ConfigKept s (s.setTile t x) := ⟨rfl, rfl, rfl⟩

theorem setClu_config (s : State) (p : Nat) (x : Clu) : ConfigKept s (s.setClu p x) := ⟨rfl, rfl, rfl⟩

theorem memClear_config (s : State) (a b : Nat) : ConfigKept s (memClear s a b) := by
  constructor <;> simp only [memClear]

theorem clearRow_config (s : State) (t k : Nat) : ConfigKept s (clearRow s t k) := by
  unfold clearRow
  exact .foldl (fun _ _ => memClear_config _ _ _) _ _

theorem moveQueues_config (s : State) (t k k' : Nat) : ConfigKept s (moveQueues s t k k') := by
  unfold moveQueues
  exact .foldl (fun _ _ => (setClu_config _ _ _).after (setClu_config _ _ _)) _ _

theorem reviveRow_config (s : State) (t r : Nat) : ConfigKept s (reviveRow s t r) := by
  constructor <;> simp only [reviveRow]

theorem recordMove_config (s : State) (t r k : Nat) : ConfigKept s (recordMove s t r k) := ⟨rfl, rfl, rfl⟩

theorem moveRow_config (s : State) (t r k k' : Nat) : ConfigKept s (moveRow s t r k k') :=
  (reviveRow_config _ t r).after <| (moveQueues_config _ t k k').after <| (clearRow_config _ t k').after <|
    (clearRow_config _ t k).after <| recordMove_config s t r k'

theorem buildPage_config (s : State) (t : Nat) : ConfigKept s (buildPage s t) := setTile_config _ _ _

theorem flipForwarding_config (s : State) (t : Nat) : ConfigKept s (flipForwarding s t) := by
  unfold flipForwarding
  refine (buildPage_config _ t).after <| (setTile_config _ t _).after <| .foldl (fun u r => ?_) _ s
  split
  · exact .refl u
  · exact moveRow_config _ _ _ _ _

theorem moveTo_config (s : State) (t r k : Nat) : ConfigKept s (moveTo s t r k).1 := by
  unfold moveTo flipChecked
  dsimp only
  split
  · exact (flipForwarding_config _ t).after (setTile_config s t _)
  · exact ⟨rfl, rfl, rfl⟩

theorem imageRowMoves_config (s : State) : ConfigKept s (imageRowMoves s) := by
  unfold imageRowMoves
  refine .foldl (fun _ _ => .foldl (fun u r => ?_) _ _) _ _
  split
  · split
    · exact moveTo_config _ _ _ _
    · exact .refl u
  · exact .refl u

/-! ### What takes effect together (17 R439) -/

theorem setStk_config (s : State) (k : Nat) (x : StackS) : ConfigKept s (s.setStk k x) := ⟨rfl, rfl, rfl⟩

theorem mapStacks_config (s : State) (f : StackS → StackS) : ConfigKept s (mapStacks s f) := by
  unfold mapStacks
  exact .foldl (fun _ _ => setStk_config _ _ _) _ _

theorem initRegion_config (s : State) (a b : Nat) : ConfigKept s (initRegion s a b) := by
  unfold initRegion
  exact (mapStacks_config _ _).after (memClear_config s a b)

theorem remode_config (s : State) (img : List Byte) : ConfigKept s (remode s img) := by
  unfold remode
  refine .foldl (fun u _ => ?_) _ _
  dsimp only
  split
  · exact initRegion_config _ _ _
  · exact .refl u

theorem setCourier_config (s : State) (c : Nat) (x : Courier) : ConfigKept s (s.setCourier c x) := ⟨rfl, rfl, rfl⟩

theorem bindCouriers_config (s : State) (img : List Byte) : ConfigKept s (bindCouriers s img) := by
  unfold bindCouriers
  exact .foldl (fun _ _ => setCourier_config _ _ _) _ _

theorem setQslot_config (s : State) (q : Nat) (x : QsSlot) : ConfigKept s (s.setQslot q x) := ⟨rfl, rfl, rfl⟩

theorem actQsFlip_config (s : State) (q : Nat) : ConfigKept s (actQsFlip s q) := by
  unfold actQsFlip
  dsimp only
  split
  · exact setQslot_config _ _ _
  · split <;> exact setQslot_config _ _ _

theorem presetSlots_config (s : State) (img : List Byte) : ConfigKept s (presetSlots s img) := by
  unfold presetSlots
  split
  · exact .refl s
  · refine .foldl (fun u e => ?_) _ _
    dsimp only
    split
    · exact setQslot_config _ _ _
    · exact (actQsFlip_config _ _).after (setQslot_config _ _ _)

theorem memorySettings_config (s : State) (img : List Byte) : ConfigKept s (memorySettings s img) := by
  unfold memorySettings
  exact mapStacks_config _ _

theorem wireFabric_config (s : State) (img : List Byte) : ConfigKept s (wireFabric s img) := by
  unfold wireFabric
  dsimp only
  split <;> exact ⟨rfl, rfl, rfl⟩

theorem requestCaps_config (s : State) (minCap peakCap : Nat) : ConfigKept s (requestCaps s minCap peakCap) :=
  ⟨rfl, rfl, rfl⟩

/-- All that the flip puts in force at once keeps what `imageInForce` wrote. -/
theorem applyImage_config (s : State) (img : List Byte) :
    ConfigKept (imageInForce (remode s img) img) (applyImage s img) := by
  have hwired := (wireFabric_config _ img).after <| (memorySettings_config _ img).after <|
    (presetSlots_config _ img).after <| bindCouriers_config (imageInForce (remode s img) img) img
  unfold applyImage
  dsimp only
  split <;> exact (requestCaps_config _ _ _).after hwired

/-! ### Packets, ports and stages (14 R364, R369, R373) -/

theorem setPort_config (s : State) (n : Nat) (x : Port) : ConfigKept s (s.setPort n x) := ⟨rfl, rfl, rfl⟩

theorem linkOut_config (s : State) (n : Nat) (q : LinkItem) : ConfigKept s (linkOut s n q) := by
  unfold linkOut
  dsimp only
  split <;> exact ⟨rfl, rfl, rfl⟩

theorem linkSend_config (s : State) (n : Nat) (q : LinkItem) : ConfigKept s (linkSend s n q) := by
  unfold linkSend
  dsimp only
  split
  · exact setPort_config _ _ _
  · exact linkOut_config _ _ _

theorem maintSendAll_config (s : State) (l : List (Nat × Sent)) : ConfigKept s (maintSendAll s l) := by
  unfold maintSendAll
  exact .foldl (fun _ _ => linkSend_config _ _ _) _ _

theorem sendDiscovers_config (s : State) : ConfigKept s (sendDiscovers s) := maintSendAll_config _ _

theorem seenFlood_config (s : State) (kind origin seq : Nat) : ConfigKept s (seenFlood s kind origin seq).2 := by
  unfold seenFlood
  split <;> exact ⟨rfl, rfl, rfl⟩

theorem floodLinks_config (s : State) : ConfigKept s (floodLinks s) := by
  unfold floodLinks
  split
  · exact .refl s
  · exact (maintSendAll_config _ _).after <| (seenFlood_config _ _ _ _).after ⟨rfl, rfl, rfl⟩

theorem timeSelect_config (s : State) : ConfigKept s (timeSelect s) := by
  unfold timeSelect
  split <;> exact ⟨rfl, rfl, rfl⟩

theorem sendMsix_config (s : State) (v : Nat) : ConfigKept s (sendMsix s v) := by
  obtain ⟨_, _, h⟩ := sendMsix_eq s v
  rw [h]
  exact ⟨rfl, rfl, rfl⟩

theorem setStage_config (s : State) (n : Nat) : ConfigKept s (setStage s n) :=
  (sendDiscovers_config _).after <| (sendMsix_config _ 0).after ⟨rfl, rfl, rfl⟩

theorem retestMask_config (s : State) : ConfigKept s (retestMask s) := by
  unfold retestMask
  split
  · exact setStage_config s 6
  · exact .refl s

theorem portChanged_config (s : State) : ConfigKept s (portChanged s) :=
  (retestMask_config _).after <| (timeSelect_config _).after <| (floodLinks_config _).after ⟨rfl, rfl, rfl⟩

theorem portJudge_config (s : State) (n : Nat) : ConfigKept s (portJudge s n) := by
  unfold portJudge
  extract_lets x r v s1
  split
  · exact .refl s
  · split
    · exact setPort_config _ _ _
    · exact (portChanged_config _).after (setPort_config _ _ _)

theorem rejudge_config (s : State) : ConfigKept s (rejudge s) := .foldl portJudge_config (List.range 12) s

theorem endS5_config (s : State) : ConfigKept s (endS5 s) := by
  unfold endS5
  split
  · exact setStage_config s _
  · exact retestMask_config s

/-! ### Requests that waited (20 R515) -/

theorem respond_config (s : State) (cmd code : Nat) (rest : List Byte) : ConfigKept s (respond s cmd code rest) :=
  ⟨rfl, rfl, rfl⟩

theorem signReport_config (s : State) (nonce : List Byte) : ConfigKept s (signReport s nonce) :=
  (respond_config _ _ _ _).after ⟨rfl, rfl, rfl⟩

theorem serveCalRead_config (s : State) (off : Nat) : ConfigKept s (serveCalRead s off) := by
  unfold serveCalRead
  split
  · exact respond_config _ _ _ _
  · exact (respond_config _ _ _ _).after ⟨rfl, rfl, rfl⟩

theorem serveCalArm_config (s : State) (waive : Bool) : ConfigKept s (serveCalArm s waive) := by
  unfold serveCalArm
  split
  · exact respond_config _ _ _ _
  · exact (respond_config _ _ _ _).after ⟨rfl, rfl, rfl⟩

theorem serveCalWrite_config (s : State) (off : Nat) (data : List Byte) : ConfigKept s (serveCalWrite s off data) := by
  unfold serveCalWrite
  split
  · exact respond_config _ _ _ _
  · split
    · exact respond_config _ _ _ _
    · exact (respond_config _ _ _ _).after ⟨rfl, rfl, rfl⟩

theorem serveCalCommit_config (s : State) (compl : Nat) (digest : List Byte) :
    ConfigKept s (serveCalCommit s compl digest) := by
  unfold serveCalCommit
  extract_lets b ok s1
  split <;> exact (respond_config _ _ _ _).after ⟨rfl, rfl, rfl⟩

theorem serveRequest_config {s u : State} {q : List Byte} (h : serveRequest s q = some u) : ConfigKept s u := by
  have hanswer {cmd code : Nat} {rest : List Byte} (h : some (respond s cmd code rest) = some u) : ConfigKept s u :=
    Option.some.inj h ▸ respond_config s cmd code rest
  unfold serveRequest at h
  extract_lets cmd at h
  clear_value cmd
  split at h
  · exact hanswer h
  split at h
  · exact hanswer h
  split at h
  · exact hanswer h
  split at h
  · split at h
    · exact hanswer h
    · split at h
      · exact absurd h nofun
      · exact Option.some.inj h ▸ signReport_config s _
  · exact hanswer h
  · exact hanswer h
  · exact Option.some.inj h ▸ serveCalRead_config s _
  · exact Option.some.inj h ▸ serveCalArm_config s _
  · exact Option.some.inj h ▸ serveCalWrite_config s _ _
  · exact Option.some.inj h ▸ serveCalCommit_config s _ _
  · exact Option.some.inj h ▸ (respond_config _ _ _ _).after ⟨rfl, rfl, rfl⟩

theorem serveAll_config (s : State) (l : List (List Byte)) : ConfigKept s (serveAll s l) := by
  induction l generalizing s with
  | nil => exact ⟨rfl, rfl, rfl⟩
  | cons q t ih =>
    unfold serveAll
    split
    · next h => exact (ih _).after (serveRequest_config h)
    · exact ⟨rfl, rfl, rfl⟩

theorem drainRequests_config (s : State) : ConfigKept s (drainRequests s) := by
  unfold drainRequests
  split
  · exact .refl s
  · exact serveAll_config _ _

/-! ## The flip (17 R439, R440) -/

/-- Collection goes on (17 R439). -/
def resumed (s : State) : State := { s with ring := { s.ring with paused := false } }

theorem ConfigKept.resumed {s t : State} (h : ConfigKept s t) : ConfigKept (resumed s) (resumed t) :=
  ⟨h.image, h.access, rfl⟩

theorem ConfigKept.imageInForce {s t : State} (h : ConfigKept s t) (img : List Byte) :
    ConfigKept (imageInForce s img) (imageInForce t img) :=
  ⟨by simp only [Machine.imageInForce, h.image], rfl, h.paused⟩

/-- After a flip the image registers and the access tables are those that `imageInForce` wrote, and collection goes on. -/
theorem imageFlip_config {s : State} {img : List Byte} (hres : s.image.result = 1) (hstaged : s.image.staged = some img) :
    ConfigKept (resumed (imageInForce s img)) (imageFlip s) := by
  have hremoded : ConfigKept s (remode (imageRowMoves s) img) := (remode_config _ img).after (imageRowMoves_config s)
  have hpages : ConfigKept (imageInForce s img) ((List.range 8).foldl buildPage (applyImage (imageRowMoves s) img)) :=
    (ConfigKept.foldl buildPage_config _ _).after <| (applyImage_config _ img).after <| hremoded.imageInForce img
  simp only [imageFlip, hres, hstaged]
  exact (endS5_config _).after <| (sendDiscovers_config _).after <| (rejudge_config _).after hpages.resumed

/-- Settles O50: a load is answered by the module's rest, by the reading and by the check, in this order; and what the flip
puts in force, nothing it does later changes. -/
theorem imageLoadAndFlip : Obligations.ImageLoadAndFlip := by
  unfold Obligations.ImageLoadAndFlip
  refine ⟨fun s s1 m v host hgate hgo hidle => ⟨fun hstage hq => ?busy,
      fun hfree => ⟨fun img hread => ⟨fun hsound => ?sound, fun e hfault => ?fault⟩, fun hread => ?unread⟩⟩,
    fun s m img hgate hheld hidle hstage hq => ?held, fun s img hres hstaged => ?flip⟩
  case busy =>
    refine ⟨_, exec_imageLoad hgate v host, ?_⟩
    rw [actImageCtrl_busy hgo hidle (loadBusy_of_running hstage hq)]
    exact ⟨rfl, rfl, rfl, rfl⟩
  case sound =>
    refine ⟨_, exec_imageLoad hgate v host, ?_⟩
    rw [actImageCtrl_read hgo hidle (loadBusy_of_free hfree) hread, offerImage_sound hsound]
    exact ⟨rfl, rfl, rfl, rfl, rfl, rfl⟩
  case fault =>
    refine ⟨_, exec_imageLoad hgate v host, ?_⟩
    rw [actImageCtrl_read hgo hidle (loadBusy_of_free hfree) hread, offerImage_fault hfault]
    exact ⟨rfl, rfl, rfl, rfl, rfl⟩
  case unread =>
    refine ⟨_, exec_imageLoad hgate v host, ?_⟩
    rw [actImageCtrl_unread hgo hidle (loadBusy_of_free hfree) hread]
    exact ⟨rfl, rfl⟩
  case held => exact ⟨_, exec_loadHeld_busy hgate hheld hidle (loadBusy_of_running hstage hq), rfl, rfl, rfl⟩
  case flip =>
    have hkept := (drainRequests_config _).after (imageFlip_config hres hstaged)
    refine ⟨drainRequests (imageFlip s), rfl, ?_⟩
    rw [hkept.image, hkept.access, hkept.paused]
    exact ⟨rfl, rfl, rfl, rfl, rfl, rfl, rfl, rfl⟩

end Sys2Proof.Machine
end

section
/-! PROOF. The block as a whole: every command is answered with a next state, which keeps the queue and the canonical form
of memory (log 1, 4). -/

namespace Sys2Proof.Machine

/-- The answer is a next state whose queue is q and, if c holds, whose memory is canonical. -/
def Answers (q : List Instr) (c : Prop) (o : Result) : Prop := ∃ t, o = .next t ∧ Kept q c t

section
variable {wq : List Instr} {wc : Prop}

theorem Answers.next {t : State} (h : Kept wq wc t) : Answers wq wc (.next t) := ⟨t, rfl, h⟩

/-! ## The shared forms of instructions -/

theorem scalar_answers {s : State} {p : PClu} {fn : Nat} {a : Scal} {f : W64 → W64 → W64} (h : Kept wq wc s) :
    Answers wq wc (scalar s p fn a f) :=
  .next (regOp_keeps h)

theorem scalarImm_answers {s : State} {p : PClu} {fn : Nat} {a : ScalImm} {f : W64 → W64 → W64} (h : Kept wq wc s) :
    Answers wq wc (scalarImm s p fn a f) :=
  .next (regOp_keeps h)

theorem branchOn_answers {s : State} {p : PClu} {fn : Nat} {a : Bran} {c : W64 → W64 → Bool} (h : Kept wq wc s) :
    Answers wq wc (branchOn s p fn a c) :=
  .next (issue_keeps (fun _ _ hu => kept_ite (advance_keeps hu) (retire_keeps hu)) h)

theorem elementwise_answers {s : State} {p : PClu} {op : Nat} {a : VArith} {f : Val → Val → Val → Val × Bool} (h : Kept wq wc s) :
    Answers wq wc (elementwise s p op a f) :=
  .next (vecOp_keeps h)

theorem bitwise_answers {s : State} {p : PClu} {op : Nat} {a : VArith} {f : Fmt → Nat → Nat → Nat} (h : Kept wq wc s) :
    Answers wq wc (bitwise s p op a f) :=
  .next (vecOp_keeps h)

theorem bitwiseAny_answers {s : State} {p : PClu} {op : Nat} {a : VArith} {f : Nat → Nat → Nat} (h : Kept wq wc s) :
    Answers wq wc (bitwiseAny s p op a f) :=
  .next (issue_keeps (fun _ _ hu => retire_keeps (vecPost_keeps (State.setSeq_keeps hu))) h)

theorem compareOp_answers {s : State} {p : PClu} {op : Nat} {r : VRegs} {f : Val → Val → Bool} (h : Kept wq wc s) :
    Answers wq wc (compareOp s p op r f) :=
  .next (vecOp_keeps h)

theorem maskLogic_answers {s : State} {p : PClu} {op : Nat} {r : VRegs} {f : MReg → MReg → MReg} (h : Kept wq wc s) :
    Answers wq wc (maskLogic s p op r f) :=
  .next (vecOp_keeps h)

theorem redExtreme_answers {s : State} {p : PClu} {op : Nat} {a : VRed} {f : Val → Val → Val} (h : Kept wq wc s) :
    Answers wq wc (redExtreme s p op a f) :=
  .next (vecOp_keeps h)

theorem checkedOp_answers {s : State} {p : PClu} {word : Nat} {act : Seq → Except (Nat × Nat) (Seq × Tally)} (h : Kept wq wc s) :
    Answers wq wc (checkedOp s p word act) := by
  refine .next (issue_keeps (fun g u hu => ?_) h)
  split
  · exact endProgram_keeps hu
  · exact retire_keeps (vecPost_keeps (State.setSeq_keeps hu))

theorem redAcc_answers {s : State} {p : PClu} {op : Nat} {a : VRed} {wide : Bool} {f : Val → Val → Val × Bool} (h : Kept wq wc s) :
    Answers wq wc (redAcc s p op a wide f) :=
  checkedOp_answers h

theorem windowAdd_answers {s : State} {p : PClu} {op : Nat} {a : VWin} {f : Val → Val → Val × Bool} (h : Kept wq wc s) :
    Answers wq wc (windowAdd s p op a f) := by
  refine .next (issue_keeps (fun g u hu => ?_) h)
  extract_lets
  split
  · exact endProgram_keeps (setWin_keeps hu)
  · exact retire_keeps (vecPost_keeps (setWin_keeps hu))

/-! ## Commands with a meaning of several steps

Each proof follows the meaning's own branches, and cites for every shared operation what it keeps. -/

theorem execCollectionVisit_answers {k : GroupNo} {entries : List (List Byte)} {s : State} (h : Kept wq wc s) :
    Answers wq wc (execCollectionVisit k entries s) := by
  unfold execCollectionVisit
  refine .next ?_
  repeat' first
    | with_reducible first
        | assumption | apply State.setBox_keeps | apply collectList_keeps | apply mirrorTail_keeps
    | extract_lets
    | split

theorem execLetterboxReadTimeout_answers {k : GroupNo} {s : State} (h : Kept wq wc s) :
    Answers wq wc (execLetterboxReadTimeout k s) := by
  unfold execLetterboxReadTimeout
  refine .next ?_
  repeat' first
    | with_reducible first
        | assumption | apply stopBox_keeps
    | split

theorem execOperationIssue_answers {slot : Slot} {s : State} (h : Kept wq wc s) :
    Answers wq wc (execOperationIssue slot s) := by
  unfold execOperationIssue
  refine .next ?_
  repeat' first
    | with_reducible first
        | assumption | apply opPlace_keeps | apply issueProgram_keeps
    | split

theorem execSync_answers {slot : Slot} {s : State} (h : Kept wq wc s) :
    Answers wq wc (execSync slot s) := by
  unfold execSync
  refine .next ?_
  repeat' first
    | with_reducible first
        | assumption | apply opDone_keeps
    | split

theorem execNotifyVector_answers {k : GroupNo} {s : State} (h : Kept wq wc s) :
    Answers wq wc (execNotifyVector k s) := by
  unfold execNotifyVector
  refine .next ?_
  repeat' first
    | with_reducible first
        | assumption | apply State.setBox_keeps | apply sendMsix_keeps
    | extract_lets
    | split

theorem execRoundRequest_answers {slot : Slot} {s : State} (h : Kept wq wc s) :
    Answers wq wc (execRoundRequest slot s) := by
  unfold execRoundRequest
  refine .next ?_
  repeat' first
    | with_reducible first
        | assumption | apply State.setCourier_keeps | apply opMalformed_keeps | apply opPlace_keeps
    | extract_lets
    | split

theorem execRoundStart_answers {c : CourierNo} {s : State} (h : Kept wq wc s) :
    Answers wq wc (execRoundStart c s) := by
  unfold execRoundStart
  refine .next ?_
  repeat' first
    | with_reducible first
        | assumption | apply State.setCourier_keeps | apply opStart_keeps | apply failRound_keeps
        | apply setRound_keeps | apply roundFault_keeps | apply heldIns_keeps | refine kept_fst (by assumption) ?_
    | extract_lets
    | split

theorem execLoop_answers {c : CourierNo} {s : State} (h : Kept wq wc s) :
    Answers wq wc (execLoop c s) := by
  unfold execLoop
  refine .next ?_
  repeat' first
    | with_reducible first
        | assumption | intro _ | apply State.setCourier_keeps | apply onIns_keeps | apply goTo_keeps
    | extract_lets
    | split

theorem execWait_answers {c : CourierNo} {s : State} (h : Kept wq wc s) :
    Answers wq wc (execWait c s) := by
  unfold execWait
  refine .next ?_
  repeat' first
    | with_reducible first
        | assumption | intro _ | apply State.setCourier_keeps | apply onIns_keeps

theorem execWaitMet_answers {c : CourierNo} {s : State} (h : Kept wq wc s) :
    Answers wq wc (execWaitMet c s) := by
  unfold execWaitMet
  refine .next ?_
  repeat' first
    | with_reducible first
        | assumption | intro _ | apply State.setCourier_keeps | apply failRound_keeps | apply goTo_keeps
        | apply onWait_keeps
    | split

theorem execWaitTimeout_answers {c : CourierNo} {s : State} (h : Kept wq wc s) :
    Answers wq wc (execWaitTimeout c s) := by
  unfold execWaitTimeout
  refine .next ?_
  repeat' first
    | with_reducible first
        | assumption | intro _ | apply failRound_keeps | apply onWait_keeps
    | split

theorem execCourierHalt_answers {c : CourierNo} {s : State} (h : Kept wq wc s) :
    Answers wq wc (execCourierHalt c s) := by
  unfold execCourierHalt
  refine .next ?_
  repeat' first
    | with_reducible first
        | assumption | apply State.setCourier_keeps | apply sendMsix_keeps | apply reqDrop_keeps
    | extract_lets
    | split

theorem execPortTrained_answers {n : PortNo} {tr : Training} {s : State} (h : Kept wq wc s) :
    Answers wq wc (execPortTrained n tr s) := by
  unfold execPortTrained
  refine .next ?_
  repeat' first
    | with_reducible first
        | assumption | apply maintSend_keeps | apply retestMask_keeps | apply portChanged_keeps
        | apply portJudge_keeps | apply kept_ite
    | fail_if_no_progress refine kept_mk ?_ rfl rfl

theorem execBlockLockLost_answers {n : PortNo} {s : State} (h : Kept wq wc s) :
    Answers wq wc (execBlockLockLost n s) := by
  unfold execBlockLockLost
  refine .next ?_
  repeat' first
    | with_reducible first
        | assumption | apply portDown_keeps
    | split

theorem execFecWindowEnd_answers {n : PortNo} {corr : Nat} {uncorr : Nat} {s : State} (h : Kept wq wc s) :
    Answers wq wc (execFecWindowEnd n corr uncorr s) := by
  unfold execFecWindowEnd
  refine .next ?_
  repeat' first
    | with_reducible first
        | assumption | apply State.setPort_keeps | apply portDown_keeps
    | split

theorem execAckTimeout_answers {n : PortNo} {s : State} (h : Kept wq wc s) :
    Answers wq wc (execAckTimeout n s) := by
  unfold execAckTimeout
  refine .next ?_
  repeat' first
    | with_reducible first
        | assumption | apply portDown_keeps
    | split

theorem execRetryReq_answers {n : PortNo} {flit : FlitIn} {s : State} (h : Kept wq wc s) :
    Answers wq wc (execRetryReq n flit s) := by
  unfold execRetryReq
  refine .next ?_
  repeat' first
    | with_reducible first
        | assumption | apply linkAck_keeps | apply linkRetry_keeps | apply replayAll_keeps
    | split

theorem execDiscoveryQuiet_answers {s : State} (h : Kept wq wc s) :
    Answers wq wc (execDiscoveryQuiet s) := by
  unfold execDiscoveryQuiet
  refine .next ?_
  repeat' first
    | with_reducible first
        | assumption | apply settleModule_keeps
    | split

theorem execRoster_answers {n : PortNo} {r : Roster} {s : State} (h : Kept wq wc s) :
    Answers wq wc (execRoster n r s) := by
  unfold execRoster
  refine .next ?_
  repeat' first
    | with_reducible first
        | assumption | apply floodOn_keeps | apply seenFlood_keeps | apply kept_ite
    | fail_if_no_progress refine kept_mk ?_ rfl rfl

theorem execLinkState_answers {n : PortNo} {l : LinkState} {s : State} (h : Kept wq wc s) :
    Answers wq wc (execLinkState n l s) := by
  unfold execLinkState
  refine .next ?_
  repeat' first
    | with_reducible first
        | assumption | apply floodOn_keeps | apply seenFlood_keeps | apply timeSelect_keeps
    | extract_lets
    | split
    | fail_if_no_progress refine kept_mk ?_ rfl rfl

theorem execFwdAddr_answers {n : PortNo} {f : FwdAddr} {s : State} (h : Kept wq wc s) :
    Answers wq wc (execFwdAddr n f s) := by
  unfold execFwdAddr
  refine .next ?_
  repeat' first
    | with_reducible first
        | assumption | apply linkRecv_keeps | apply dropPacket_keeps | apply floodOn_keeps | apply seenFlood_keeps
        | apply fwdApply_keeps
    | extract_lets
    | split

theorem execRouteRebuild_answers {s : State} (h : Kept wq wc s) :
    Answers wq wc (execRouteRebuild s) := by
  unfold execRouteRebuild
  refine .next ?_
  repeat' first
    | with_reducible first
        | assumption
    | split
    | fail_if_no_progress refine kept_mk ?_ rfl rfl

theorem execTimeSyncSend_answers {s : State} (h : Kept wq wc s) :
    Answers wq wc (execTimeSyncSend s) := by
  unfold execTimeSyncSend
  refine .next ?_
  repeat' first
    | with_reducible first
        | assumption | apply timeSend_keeps
    | extract_lets
    | split
    | fail_if_no_progress refine kept_mk ?_ rfl rfl

theorem execTimeSync_answers {n : PortNo} {t1 t2 t3 : Int} {s : State} (h : Kept wq wc s) :
    Answers wq wc (execTimeSync n t1 t2 t3 s) := by
  unfold execTimeSync
  refine .next ?_
  repeat' first
    | with_reducible first
        | assumption | apply linkRecv_keeps | apply timeSend_keeps
    | extract_lets
    | split

theorem execTimeReply_answers {n : PortNo} {t1 t2 t3 t4 : Int} {s : State} (h : Kept wq wc s) :
    Answers wq wc (execTimeReply n t1 t2 t3 t4 s) := by
  unfold execTimeReply
  refine .next ?_
  repeat' first
    | with_reducible first
        | assumption | apply endS4_keeps
    | extract_lets
    | split
    | fail_if_no_progress refine kept_mk ?_ rfl rfl

theorem execFrefLost_answers {s : State} (h : Kept wq wc s) :
    Answers wq wc (execFrefLost s) := by
  unfold execFrefLost
  refine .next ?_
  repeat' first
    | with_reducible first
        | assumption | intro _ | apply portDown_keeps | apply kept_foldl
    | split
    | fail_if_no_progress refine kept_mk ?_ rfl rfl

theorem execFrefReturn_answers {s : State} (h : Kept wq wc s) :
    Answers wq wc (execFrefReturn s) := by
  unfold execFrefReturn
  refine .next ?_
  repeat' first
    | with_reducible first
        | assumption
    | fail_if_no_progress refine kept_mk ?_ rfl rfl

theorem execRowMoveComplete_answers {u : Tile} {s : State} (h : Kept wq wc s) :
    Answers wq wc (execRowMoveComplete u s) := by
  unfold execRowMoveComplete
  refine .next ?_
  repeat' first
    | with_reducible first
        | assumption | apply State.setTile_keeps | apply moveTo_keeps
    | extract_lets
    | split

theorem execScrubStep_answers {k : StackNo} {errs : List SymErr} {s : State} (h : Kept wq wc s) :
    Answers wq wc (execScrubStep k errs s) := by
  unfold execScrubStep
  refine .next ?_
  repeat' first
    | with_reducible first
        | assumption | apply State.setStk_keeps | apply scrubParcel_keeps | apply kept_ite

theorem execRemapService_answers {k : StackNo} {s : State} (h : Kept wq wc s) :
    Answers wq wc (execRemapService k s) := by
  unfold execRemapService
  refine .next ?_
  repeat' first
    | with_reducible first
        | assumption | apply State.setStk_keeps | apply moveMemRow_keeps | apply retirePage_keeps
    | split

theorem execTrainingSettingsSaved_answers {s : State} (h : Kept wq wc s) :
    Answers wq wc (execTrainingSettingsSaved s) := by
  unfold execTrainingSettingsSaved
  refine .next ?_
  repeat' first
    | with_reducible first
        | assumption
    | fail_if_no_progress refine kept_mk ?_ rfl rfl

theorem execPowerInterval_answers {x : PowerSample} {s : State} (h : Kept wq wc s) :
    Answers wq wc (execPowerInterval x s) := by
  unfold execPowerInterval
  refine .next ?_
  repeat' first
    | with_reducible first
        | assumption | apply thermalTrip_keeps | apply addSample_keeps | apply setTemps_keeps | apply setPwrFlag_keeps
        | apply startInterval_keeps
    | extract_lets
    | split

theorem execPeakWindowClose_answers {s : State} (h : Kept wq wc s) :
    Answers wq wc (execPeakWindowClose s) := by
  unfold execPeakWindowClose
  refine .next ?_
  repeat' first
    | with_reducible first
        | assumption | apply roundFree_keeps | apply setPwrFlag_keeps
    | split
    | fail_if_no_progress refine kept_mk ?_ rfl rfl

theorem execMinuteClose_answers {s : State} (h : Kept wq wc s) :
    Answers wq wc (execMinuteClose s) := by
  unfold execMinuteClose
  refine .next ?_
  repeat' first
    | with_reducible first
        | assumption | apply roundFree_keeps | apply setPwrFlag_keeps
    | extract_lets
    | split
    | fail_if_no_progress refine kept_mk ?_ rfl rfl

theorem execForecastRecompute_answers {s : State} (h : Kept wq wc s) :
    Answers wq wc (execForecastRecompute s) := by
  unfold execForecastRecompute
  refine .next ?_
  repeat' first
    | with_reducible first
        | assumption | apply meanDraw_keeps
    | split
    | fail_if_no_progress refine kept_mk ?_ rfl rfl

theorem execMemTempSample_answers {k : StackNo} {base : Int} {dram : Int} {s : State} (h : Kept wq wc s) :
    Answers wq wc (execMemTempSample k base dram s) := by
  unfold execMemTempSample
  refine .next ?_
  repeat' first
    | with_reducible first
        | assumption | apply State.setStk_keeps | apply thermalTrip_keeps
    | extract_lets
    | split

theorem execBeatWindowUpdate_answers {u : Tile} {w : BeatWindow} {s : State} (h : Kept wq wc s) :
    Answers wq wc (execBeatWindowUpdate u w s) := by
  unfold execBeatWindowUpdate
  refine .next ?_
  repeat' first
    | with_reducible first
        | assumption | apply State.setTile_keeps
    | extract_lets
    | split

theorem execQsCloseComplete_answers {q : GroupNo} {s : State} (h : Kept wq wc s) :
    Answers wq wc (execQsCloseComplete q s) := by
  unfold execQsCloseComplete
  refine .next ?_
  repeat' first
    | with_reducible first
        | assumption | apply closeSlot_keeps
    | split

theorem execCalArmExpiry_answers {s : State} (h : Kept wq wc s) :
    Answers wq wc (execCalArmExpiry s) := by
  unfold execCalArmExpiry
  refine .next ?_
  repeat' first
    | with_reducible first
        | assumption
    | split
    | fail_if_no_progress refine kept_mk ?_ rfl rfl

theorem execAttPrepared_answers {s : State} (h : Kept wq wc s) :
    Answers wq wc (execAttPrepared s) := by
  unfold execAttPrepared
  refine .next ?_
  repeat' first
    | with_reducible first
        | assumption
    | split
    | fail_if_no_progress refine kept_mk ?_ rfl rfl

theorem execAttCeilingWritten_answers {s : State} (h : Kept wq wc s) :
    Answers wq wc (execAttCeilingWritten s) := by
  unfold execAttCeilingWritten
  refine .next ?_
  repeat' first
    | with_reducible first
        | assumption | apply drainRequests_keeps
    | split
    | fail_if_no_progress refine kept_mk ?_ rfl rfl

theorem execHalt_answers {p : PClu} {s : State} (h : Kept wq wc s) :
    Answers wq wc (execHalt p s) := by
  unfold execHalt
  refine .next ?_
  repeat' first
    | with_reducible first
        | assumption | intro _ | apply opDone_keeps | apply noteLast_keeps | apply dropProgram_keeps
        | apply issue_keeps

theorem execCount_answers {p : PClu} {sa : BitVec 5} {s : State} (h : Kept wq wc s) :
    Answers wq wc (execCount p sa s) := by
  unfold execCount
  refine .next ?_
  repeat' first
    | with_reducible first
        | assumption | intro _ | apply opCount_keeps | apply retire_keeps | apply issue_keeps

theorem execLoss_answers {p : PClu} {vr : BitVec 5} {sa : BitVec 5} {s : State} (h : Kept wq wc s) :
    Answers wq wc (execLoss p vr sa s) := by
  unfold execLoss
  refine .next ?_
  repeat' first
    | with_reducible first
        | assumption | intro _ | apply retire_keeps | apply issue_keeps
    | fail_if_no_progress refine kept_mk ?_ rfl rfl

theorem execTime_answers {p : PClu} {sd : BitVec 5} {s : State} (h : Kept wq wc s) :
    Answers wq wc (execTime p sd s) := by
  unfold execTime
  refine .next ?_
  repeat' first
    | with_reducible first
        | assumption | intro _ | apply State.setSeq_keeps | apply retire_keeps | apply issue_keeps

theorem execLossPost_answers {s : State} (h : Kept wq wc s) :
    Answers wq wc (execLossPost s) := by
  unfold execLossPost
  refine .next ?_
  repeat' first
    | with_reducible first
        | assumption | intro _ | apply postTo_keeps | apply kept_foldl
    | extract_lets
    | split
    | fail_if_no_progress refine kept_mk ?_ rfl rfl

theorem execLossWindowEnd_answers {w : WatchNo} {s : State} (h : Kept wq wc s) :
    Answers wq wc (execLossWindowEnd w s) := by
  unfold execLossWindowEnd
  refine .next ?_
  repeat' first
    | with_reducible first
        | assumption | apply State.setWatch_keeps

theorem execTensorDescriptor_answers {slot : Slot} {s : State} (h : Kept wq wc s) :
    Answers wq wc (execTensorDescriptor slot s) := by
  unfold execTensorDescriptor
  refine .next ?_
  repeat' first
    | with_reducible first
        | assumption | apply opFail_keeps | apply opMalformed_keeps | apply opPlace_keeps | apply touchIdle_keeps
        | apply teQueue_keeps | apply teAway_keeps
    | extract_lets
    | split

theorem execGemmStart_answers {n : LClu} {s : State} (h : Kept wq wc s) :
    Answers wq wc (execGemmStart n s) := by
  unfold execGemmStart
  refine .next ?_
  repeat' first
    | with_reducible first
        | assumption | apply opStart_keeps | apply State.setTe_keeps | apply startBand_keeps | apply addBeats_keeps
    | extract_lets
    | split

theorem execTeBandDone_answers {n : LClu} {bad : List BadResult} {s : State} (h : Kept wq wc s) :
    Answers wq wc (execTeBandDone n bad s) := by
  unfold execTeBandDone
  refine .next ?_
  repeat' first
    | with_reducible first
        | assumption | apply State.setTe_keeps | apply startBand_keeps | apply commitBands_keeps
        | apply addBeats_keeps
    | extract_lets
    | split

theorem execSeDescriptor_answers {slot : Slot} {s : State} (h : Kept wq wc s) :
    Answers wq wc (execSeDescriptor slot s) := by
  unfold execSeDescriptor
  refine .next ?_
  repeat' first
    | with_reducible first
        | assumption | apply State.setSeg_keeps | apply opMalformed_keeps | apply opPlace_keeps
    | extract_lets
    | split

theorem execGateWaitTimeout_answers {u : Tile} {s : State} (h : Kept wq wc s) :
    Answers wq wc (execGateWaitTimeout u s) := by
  unfold execGateWaitTimeout
  refine .next ?_
  repeat' first
    | with_reducible first
        | assumption | apply seGated_keeps
    | extract_lets
    | split

theorem execSeAbort_answers {k : StackNo} {m : Master} {s : State} (h : Kept wq wc s) :
    Answers wq wc (execSeAbort k m s) := by
  unfold execSeAbort
  refine .next ?_
  repeat' first
    | with_reducible first
        | assumption | intro _ | apply gated_keeps | apply actSeAbort_keeps
    | split

theorem execJoinRecord_answers {r : JoinRec} {s : State} (h : Kept wq wc s) :
    Answers wq wc (execJoinRecord r s) := by
  unfold execJoinRecord
  refine .next ?_
  repeat' first
    | with_reducible first
        | assumption | apply State.setComm_keeps | apply takeJoin_keeps
    | extract_lets
    | split

theorem execJoinResend_answers {slot : Slot} {s : State} (h : Kept wq wc s) :
    Answers wq wc (execJoinResend slot s) := by
  unfold execJoinResend
  refine .next ?_
  repeat' first
    | with_reducible first
        | assumption | apply sendJoins_keeps | apply setColl_keeps
    | extract_lets
    | split

theorem execReadDoneReport_answers {comm : W32} {seq : W32} {rank : W32} {s : State} (h : Kept wq wc s) :
    Answers wq wc (execReadDoneReport comm seq rank s) := by
  unfold execReadDoneReport
  refine .next ?_
  repeat' first
    | with_reducible first
        | assumption | apply setColl_keeps | apply collCheck_keeps | apply holdReport_keeps
    | extract_lets
    | split

theorem execAbortNotice_answers {comm : W32} {seq : W32} {rank : W32} {status : Byte} {s : State} (h : Kept wq wc s) :
    Answers wq wc (execAbortNotice comm seq rank status s) := by
  unfold execAbortNotice
  refine .next ?_
  repeat' first
    | with_reducible first
        | assumption | intro _ | apply collEnd_keeps | apply kept_foldl

theorem execCollectiveDeadline_answers {slot : Slot} {s : State} (h : Kept wq wc s) :
    Answers wq wc (execCollectiveDeadline slot s) := by
  unfold execCollectiveDeadline
  refine .next ?_
  repeat' first
    | with_reducible first
        | assumption | apply collMiss_keeps
    | split

theorem execProgramStart_answers {n : LClu} {s : State} (h : Kept wq wc s) :
    Answers wq wc (execProgramStart n s) := by
  unfold execProgramStart
  refine .next ?_
  repeat' first
    | with_reducible first
        | assumption | apply State.setLclu_keeps | apply opStart_keeps | apply opFail_keeps | apply State.setSeq_keeps
    | extract_lets
    | split

theorem execSolveRequest_answers {slot : Slot} {s : State} (h : Kept wq wc s) :
    Answers wq wc (execSolveRequest slot s) := by
  unfold execSolveRequest
  refine .next ?_
  repeat' first
    | with_reducible first
        | assumption | apply State.setGroup_keeps | apply opFail_keeps | apply opMalformed_keeps | apply opPlace_keeps
        | apply solveCheck_keeps | refine kept_fst (by assumption) ?_
    | extract_lets
    | split

theorem execSolveDeadlineExpiry_answers {g : GroupNo} {s : State} (h : Kept wq wc s) :
    Answers wq wc (execSolveDeadlineExpiry g s) := by
  unfold execSolveDeadlineExpiry
  refine .next ?_
  repeat' first
    | with_reducible first
        | assumption | apply missSolve_keeps
    | split

theorem execResidualProgramEnd_answers {g : GroupNo} {s : State} (h : Kept wq wc s) :
    Answers wq wc (execResidualProgramEnd g s) := by
  unfold execResidualProgramEnd
  refine .next ?_
  repeat' first
    | with_reducible first
        | assumption | apply setSolve_keeps | apply dropResidual_keeps | apply toPublish_keeps | apply missSolve_keeps
    | split

theorem execWakeComplete_answers {n : LClu} {s : State} (h : Kept wq wc s) :
    Answers wq wc (execWakeComplete n s) := by
  unfold execWakeComplete
  refine .next ?_
  repeat' first
    | with_reducible first
        | assumption | apply State.setLclu_keeps | apply wakeStore_keeps | apply cluPendEnd_keeps
    | split

theorem execIdleTimeout_answers {n : LClu} {s : State} (h : Kept wq wc s) :
    Answers wq wc (execIdleTimeout n s) := by
  unfold execIdleTimeout
  refine .next ?_
  repeat' first
    | with_reducible first
        | assumption | apply sleepCluster_keeps
    | extract_lets
    | split

theorem execComputeResetDone_answers {s : State} (h : Kept wq wc s) :
    Answers wq wc (execComputeResetDone s) := by
  unfold execComputeResetDone
  refine .next ?_
  repeat' first
    | with_reducible first
        | assumption | apply presetSlots_keeps
    | split
    | fail_if_no_progress refine kept_mk ?_ rfl rfl

theorem execLinkLoss_answers {s : State} (h : Kept wq wc s) :
    Answers wq wc (execLinkLoss s) := by
  unfold execLinkLoss
  refine .next ?_
  repeat' first
    | with_reducible first
        | assumption | apply linkLoss_keeps
    | split

theorem execLinkUp_answers {gen : BitVec 4} {width : BitVec 5} {s : State} (h : Kept wq wc s) :
    Answers wq wc (execLinkUp gen width s) := by
  unfold execLinkUp
  refine .next ?_
  repeat' first
    | with_reducible first
        | assumption | apply sendMsix_keeps
    | split
    | fail_if_no_progress refine kept_mk ?_ rfl rfl

theorem execPerstN_answers {low : Bool} {s : State} (h : Kept wq wc s) :
    Answers wq wc (execPerstN low s) := by
  unfold execPerstN
  refine .next ?_
  repeat' first
    | with_reducible first
        | assumption
    | split
    | fail_if_no_progress refine kept_mk ?_ rfl rfl

theorem execFunctionLevelReset_answers {s : State} (h : Kept wq wc s) :
    Answers wq wc (execFunctionLevelReset s) := by
  unfold execFunctionLevelReset
  refine .next ?_
  repeat' first
    | with_reducible first
        | assumption | apply computeReset_keeps
    | split
    | fail_if_no_progress refine kept_mk ?_ rfl rfl

theorem execPowerOn_answers {s : State} (h : Kept wq wc s) :
    Answers wq wc (execPowerOn s) := by
  unfold execPowerOn
  refine .next ?_
  repeat' first
    | with_reducible first
        | assumption | apply coldState_keeps
    | split
    | fail_if_no_progress refine kept_mk ?_ rfl rfl

theorem execPowerOff_answers {s : State} (h : Kept wq wc s) :
    Answers wq wc (execPowerOff s) := by
  unfold execPowerOff
  refine .next ?_
  repeat' first
    | with_reducible first
        | assumption | apply coldState_keeps
    | fail_if_no_progress refine kept_mk ?_ rfl rfl

theorem execResetNFall_answers {s : State} (h : Kept wq wc s) :
    Answers wq wc (execResetNFall s) := by
  unfold execResetNFall
  refine .next ?_
  repeat' first
    | with_reducible first
        | assumption | apply moduleReset_keeps
    | split
    | fail_if_no_progress refine kept_mk ?_ rfl rfl

theorem execResetNRise_answers {s : State} (h : Kept wq wc s) :
    Answers wq wc (execResetNRise s) := by
  unfold execResetNRise
  refine .next ?_
  repeat' first
    | with_reducible first
        | assumption | apply leaveS0_keeps
    | split
    | fail_if_no_progress refine kept_mk ?_ rfl rfl

theorem execRimClocksRun_answers {s : State} (h : Kept wq wc s) :
    Answers wq wc (execRimClocksRun s) := by
  unfold execRimClocksRun
  refine .next ?_
  repeat' first
    | with_reducible first
        | assumption | apply leaveS0_keeps
    | split
    | fail_if_no_progress refine kept_mk ?_ rfl rfl

theorem execInspectorRecompute_answers {n : LClu} {bytes : List Byte} {s : State} (h : Kept wq wc s) :
    Answers wq wc (execInspectorRecompute n bytes s) := by
  unfold execInspectorRecompute
  refine .next ?_
  repeat' first
    | with_reducible first
        | assumption | apply State.setRun_keeps | apply operandFail_keeps | apply recomputeCheck_keeps
        | refine kept_fst (by assumption) ?_
    | extract_lets
    | split

theorem execInspectorRecheck_answers {n : LClu} {lines : List Byte} {s : State} (h : Kept wq wc s) :
    Answers wq wc (execInspectorRecheck n lines s) := by
  unfold execInspectorRecheck
  refine .next ?_
  repeat' first
    | with_reducible first
        | assumption | apply cperAdd_keeps | apply opWarn_keeps | apply releaseParcel_keeps | apply commitBands_keeps
        | apply markSuspects_keeps | apply unresolved_keeps | apply kept_ite
    | extract_lets
    | split
    | fail_if_no_progress refine kept_mk ?_ rfl rfl

theorem execRepeatTestStart_answers {p : PClu} {s : State} (h : Kept wq wc s) :
    Answers wq wc (execRepeatTestStart p s) := by
  unfold execRepeatTestStart
  refine .next ?_
  repeat' first
    | with_reducible first
        | assumption | apply State.setClu_keeps
    | extract_lets
    | split

theorem execRepeatTestDone_answers {p : PClu} {equalRuns : Fin 4} {s : State} (h : Kept wq wc s) :
    Answers wq wc (execRepeatTestDone p equalRuns s) := by
  unfold execRepeatTestDone
  refine .next ?_
  repeat' first
    | with_reducible first
        | assumption | apply classify_keeps
    | split

theorem execParityError_answers {u : ParityUnit} {s : State} (h : Kept wq wc s) :
    Answers wq wc (execParityError u s) := by
  unfold execParityError
  refine .next ?_
  repeat' first
    | with_reducible first
        | assumption | apply moduleReset_keeps | apply parityProgram_keeps | apply paritySolves_keeps
        | apply parityStack_keeps | apply parityPath_keeps | apply parityParcel_keeps
    | split
    | fail_if_no_progress refine kept_mk ?_ rfl rfl

theorem execPostmasterStart_answers {s : State} (h : Kept wq wc s) :
    Answers wq wc (execPostmasterStart s) := by
  unfold execPostmasterStart
  refine .next ?_
  repeat' first
    | with_reducible first
        | assumption | apply recordVerify_keeps | apply holdStage_keeps | apply runPostmaster_keeps | apply kept_ite

theorem execFloorPlanBuild_answers {s : State} (h : Kept wq wc s) :
    Answers wq wc (execFloorPlanBuild s) := by
  unfold execFloorPlanBuild
  refine .next ?_
  repeat' first
    | with_reducible first
        | assumption | apply cperAdd_keeps | apply setStage_keeps | apply buildFloorPlan_keeps | apply holdStage_keeps
        | apply recallSuspects_keeps | apply checkRemap_keeps | apply kept_ite

theorem execStackTrainingDone_answers {out : List StackTraining} {s : State} (h : Kept wq wc s) :
    Answers wq wc (execStackTrainingDone out s) := by
  unfold execStackTrainingDone
  refine .next ?_
  repeat' first
    | with_reducible first
        | assumption | intro _ | apply setStage_keeps | apply portTrain_keeps | apply buildPage_keeps
        | apply initHbm_keeps | apply holdStage_keeps | apply trainStack_keeps | apply kept_foldl
    | extract_lets
    | split

theorem execSorterHeartbeatTimeout_answers {s : State} (h : Kept wq wc s) :
    Answers wq wc (execSorterHeartbeatTimeout s) := by
  unfold execSorterHeartbeatTimeout
  refine .next ?_
  repeat' first
    | with_reducible first
        | assumption | apply abortOps_keeps
    | split
    | fail_if_no_progress refine kept_mk ?_ rfl rfl

theorem execPackRunDone_answers {out : List PackOutcome} {s : State} (h : Kept wq wc s) :
    Answers wq wc (execPackRunDone out s) := by
  unfold execPackRunDone
  refine .next ?_
  repeat' first
    | with_reducible first
        | assumption | apply parcelWrite_keeps | apply takeWaiting_keeps | apply packResults_keeps
    | split
    | fail_if_no_progress refine kept_mk ?_ rfl rfl

theorem execBroadcast_answers {n : PortNo} {b : Bcast} {s : State} (h : Kept wq wc s) :
    Answers wq wc (execBroadcast n b s) := by
  unfold execBroadcast
  refine .next ?_
  repeat' first
    | with_reducible first
        | assumption | apply linkRecv_keeps | apply dropPacket_keeps | apply seenFlood_keeps | apply floodBcast_keeps
        | apply takeFragment_keeps
    | split
    | dsimp only

theorem execDiscover_answers {n : PortNo} {d : Discover} {s : State} (h : Kept wq wc s) :
    Answers wq wc (execDiscover n d s) := by
  unfold execDiscover
  refine .next ?_
  repeat' first
    | with_reducible first
        | assumption | apply floodRoster_keeps | apply portTrain_keeps | apply portJudge_keeps | apply sendHeld_keeps
        | apply kept_ite
    | fail_if_no_progress refine kept_mk ?_ rfl rfl

theorem execRegisterWrite_answers {m : Master} {off : Nat} {data : List Byte} {s : State} (h : Kept wq wc s) :
    Answers wq wc (execRegisterWrite m off data s) := by
  unfold execRegisterWrite
  refine .next ?_
  repeat' first
    | with_reducible first
        | assumption | apply regSpanWrite_keeps

theorem execSplitLoRead_answers {m : Master} {off : Nat} {s : State} (h : Kept wq wc s) :
    Answers wq wc (execSplitLoRead m off s) := by
  unfold execSplitLoRead
  refine .next ?_
  repeat' first
    | with_reducible first
        | assumption | apply State.send_keeps | apply answerRead_keeps
    | split

theorem execReceiptRead_answers {m : Master} {s : State} (h : Kept wq wc s) :
    Answers wq wc (execReceiptRead m s) := by
  unfold execReceiptRead
  refine .next ?_
  repeat' first
    | with_reducible first
        | assumption | apply answerRead_keeps
    | split

theorem execEarlyAccess_answers {m : Master} {addr : W64} {write : Bool} {s : State} (h : Kept wq wc s) :
    Answers wq wc (execEarlyAccess m addr write s) := by
  unfold execEarlyAccess
  refine .next ?_
  repeat' first
    | with_reducible first
        | assumption | apply State.send_keeps | apply earlyAccess_keeps
    | split

theorem execMove_answers {c : CourierNo} {k : Nat} {host : List HostRead} {s : State} (h : Kept wq wc s) :
    Answers wq wc (execMove c k host s) := by
  unfold execMove
  refine .next ?_
  repeat' first
    | with_reducible first
        | assumption | apply stopStep_keeps | apply moveRun_keeps
    | split

theorem execSignal_answers {c : CourierNo} {s : State} (h : Kept wq wc s) :
    Answers wq wc (execSignal c s) := by
  unfold execSignal
  refine .next ?_
  repeat' first
    | with_reducible first
        | assumption | intro _ | apply onIns_keeps | apply stopStep_keeps | apply signal_keeps
    | split

theorem execWaitPoll_answers {c : CourierNo} {s : State} (h : Kept wq wc s) :
    Answers wq wc (execWaitPoll c s) := by
  unfold execWaitPoll
  refine .next ?_
  repeat' first
    | with_reducible first
        | assumption | intro _ | apply onWait_keeps | apply pollStep_keeps

theorem execRead_answers {pkt : Packet} {s : State} (h : Kept wq wc s) :
    Answers wq wc (execRead pkt s) := by
  unfold execRead
  refine .next ?_
  repeat' first
    | with_reducible first
        | assumption | intro _ | apply consumed_keeps | apply serveRead_keeps | apply arrive_keeps

theorem execWrite_answers {pkt : Packet} {s : State} (h : Kept wq wc s) :
    Answers wq wc (execWrite pkt s) := by
  unfold execWrite
  refine .next ?_
  repeat' first
    | with_reducible first
        | assumption | intro _ | apply serveWrite_keeps | apply retryHeld_keeps | apply arrive_keeps

theorem execReadData_answers {pkt : Packet} {s : State} (h : Kept wq wc s) :
    Answers wq wc (execReadData pkt s) := by
  unfold execReadData
  refine .next ?_
  repeat' first
    | with_reducible first
        | assumption | intro _ | apply sealEvent_keeps | apply reqReply_keeps | apply takeReply_keeps
    | split

theorem execWriteAck_answers {pkt : Packet} {s : State} (h : Kept wq wc s) :
    Answers wq wc (execWriteAck pkt s) := by
  unfold execWriteAck
  refine .next ?_
  repeat' first
    | with_reducible first
        | assumption | intro _ | apply reqReply_keeps | apply takeReply_keeps

theorem execNack_answers {pkt : Packet} {s : State} (h : Kept wq wc s) :
    Answers wq wc (execNack pkt s) := by
  unfold execNack
  refine .next ?_
  repeat' first
    | with_reducible first
        | assumption | intro _ | apply reqReply_keeps | apply takeReply_keeps

theorem execRemoteRequestTimeout_answers {tag : Nat} {s : State} (h : Kept wq wc s) :
    Answers wq wc (execRemoteRequestTimeout tag s) := by
  unfold execRemoteRequestTimeout
  refine .next ?_
  repeat' first
    | with_reducible first
        | assumption
    | split
    | fail_if_no_progress refine kept_mk ?_ rfl rfl

theorem execPacketForward_answers {inPort : Option PortNo} {pkt : Packet} {s : State} (h : Kept wq wc s) :
    Answers wq wc (execPacketForward inPort pkt s) := by
  unfold execPacketForward
  refine .next ?_
  repeat' first
    | with_reducible first
        | assumption | intro _ | apply arrive_keeps | apply forwardPacket_keeps
    | split

theorem execApertureWrite_answers {off : Nat} {data : List Byte} {s : State} (h : Kept wq wc s) :
    Answers wq wc (execApertureWrite off data s) := by
  unfold execApertureWrite
  refine .next ?_
  repeat' first
    | with_reducible first
        | assumption | apply apTake_keeps
    | split

theorem execIdeKm_answers {link : Option Bool} {sel : Option Bool} {s : State} (h : Kept wq wc s) :
    Answers wq wc (execIdeKm link sel s) := by
  unfold execIdeKm
  refine .next ?_
  repeat' first
    | with_reducible first
        | assumption
    | split
    | fail_if_no_progress refine kept_mk ?_ rfl rfl

theorem execWrd_answers {p : PClu} {a : VWin} {s : State} (h : Kept wq wc s) :
    Answers wq wc (execWrd p a s) := by
  unfold execWrd
  refine .next ?_
  repeat' first
    | with_reducible first
        | assumption | intro _ | apply State.setSeq_keeps | apply retire_keeps | apply issue_keeps
        | apply vecPost_keeps

theorem execWclr_answers {p : PClu} {a : VWin} {s : State} (h : Kept wq wc s) :
    Answers wq wc (execWclr p a s) := by
  unfold execWclr
  refine .next ?_
  repeat' first
    | with_reducible first
        | assumption | intro _ | apply retire_keeps | apply issue_keeps | apply setWin_keeps

theorem execWbase_answers {p : PClu} {a : VWin} {s : State} (h : Kept wq wc s) :
    Answers wq wc (execWbase p a s) := by
  unfold execWbase
  refine .next ?_
  repeat' first
    | with_reducible first
        | assumption | intro _ | apply retire_keeps | apply issue_keeps | apply setWin_keeps

theorem execSequencerWaitEnd_answers {p : PClu} {s : State} (h : Kept wq wc s) :
    Answers wq wc (execSequencerWaitEnd p s) := by
  unfold execSequencerWaitEnd
  refine .next ?_
  repeat' first
    | with_reducible first
        | assumption | apply endProgram_keeps | apply fetchWord_keeps | apply waitAgain_keeps
        | apply boundaryEnd_keeps | refine kept_fst (by assumption) ?_
    | split

/-! ## Every command -/

theorem exec_answers (c : Instr) {s : State} (h : Kept wq wc s) : Answers wq wc (exec c s) := by
  unfold exec
  cases c <;> dsimp only
  case registerWrite => exact execRegisterWrite_answers h
  case splitLoRead => exact execSplitLoRead_answers h
  case receiptRead => exact execReceiptRead_answers h
  case earlyAccess => exact execEarlyAccess_answers h
  case forwardingFlip => exact .next (gated_keeps (fun _ => actForwardingFlip_keeps) h)
  case rowSwap => exact .next (gated_keeps (fun _ => actRowSwap_keeps) h)
  case rowMoveComplete => exact execRowMoveComplete_answers h
  case suspend => exact .next (gated_keeps (fun _ => actSuspend_keeps) h)
  case teAbort => exact .next (gated_keeps (fun _ => actTeAbort_keeps) h)
  case waBaseWrite => exact .next (gated_keeps (fun _ => actWaBase_keeps) h)
  case qsCollect => exact .next (gated_keeps (fun _ => actQsCollect_keeps) h)
  case qsClose => exact .next (gated_keeps (fun _ => actQsClose_keeps) h)
  case qsCloseComplete => exact execQsCloseComplete_answers h
  case qsFlip => exact .next (gated_keeps (fun _ => actQsFlip_keeps) h)
  case qsShadowWrite => exact .next (gated_keeps (fun _ => actQsShadow_keeps) h)
  case solveAbort => exact .next (gated_keeps (fun _ => actSolveAbort_keeps) h)
  case seAbort => exact execSeAbort_answers h
  case lwConfigWrite => exact .next (gated_keeps (fun _ => actLwWrite_keeps) h)
  case courierResume | courierAbort | courierReset => exact .next (gated_keeps (fun _ => actCourierCtrl_keeps) h)
  case courierBindWrite => exact .next (gated_keeps (fun _ => actCourierBind_keeps) h)
  case portRetrain | portHold => exact .next (gated_keeps (fun _ => actPortCtrl_keeps) h)
  case routeFlip => exact .next (gated_keeps (fun _ => actRouteFlip_keeps) h)
  case takeover | takeoverClear => exact .next (gated_keeps (fun _ => actTakeover_keeps) h)
  case apertureApply => exact .next (gated_keeps (fun _ => actApertureApply_keeps) h)
  case slotRelease => exact .next (gated_keeps (fun _ => actSlotRelease_keeps) h)
  case mirrorResync => exact .next (gated_keeps (fun _ => actResync_keeps) h)
  case streamClear => exact .next (gated_keeps (fun _ => actStreamClear_keeps) h)
  case letterboxConfig => exact .next (gated_keeps (fun _ => actBoxConfig_keeps) h)
  case noticeHeadWrite => exact .next (gated_keeps (fun _ => actNoticeHead_keeps) h)
  case imageLoad => exact .next (gated_keeps (fun _ => actImageCtrl_keeps) h)
  case imageFlip => exact .next (drainRequests_keeps (imageFlip_keeps h))
  case moduleReset => exact .next (gated_keeps (fun _ => moduleReset_keeps) h)
  case computeReset => exact .next (gated_keeps (fun _ => computeReset_keeps) h)
  case computeResetDone => exact execComputeResetDone_answers h
  case broadcastStart => exact .next (gated_keeps (fun _ => actBcastCtrl_keeps) h)
  case loadHeld => exact .next (gated_keeps (fun _ => loadHeld_keeps) h)
  case quiesce | release | clusterReset | sleep | wake => exact .next (cluCtrl_keeps h)
  case wakeComplete => exact execWakeComplete_answers h
  case idleTimeout => exact execIdleTimeout_answers h
  case packLoad | packRun => exact .next (gated_keeps (fun _ => actPackCtrl_keeps) h)
  case packRunDone => exact execPackRunDone_answers h
  case powerCapWrite => exact .next (gated_keeps (fun _ => actPowerCap_keeps) h)
  case collectionVisit => exact execCollectionVisit_answers h
  case letterboxReadTimeout => exact execLetterboxReadTimeout_answers h
  case operationIssue => exact execOperationIssue_answers h
  case sync => exact execSync_answers h
  case notifyVector => exact execNotifyVector_answers h
  case tensorDescriptor => exact execTensorDescriptor_answers h
  case gemmStart => exact execGemmStart_answers h
  case teBandDone => exact execTeBandDone_answers h
  case inspectorRecompute => exact execInspectorRecompute_answers h
  case inspectorRecheck => exact execInspectorRecheck_answers h
  case repeatTestStart => exact execRepeatTestStart_answers h
  case repeatTestDone => exact execRepeatTestDone_answers h
  case transientWindow => exact .next (hourTurn_keeps h)
  case parityError => exact execParityError_answers h
  case programStart => exact execProgramStart_answers h
  case sequencerWaitEnd => exact execSequencerWaitEnd_answers h
  case add | sub | mul | mulh | mulhu | and | or | xor | shl | shr | sra | min | max | slt | sltu =>
    exact scalar_answers h
  case addi | andi | ori | xori | shli | shri | srai | slti | shin => exact scalarImm_answers h
  case ld8 | ld16 | ld32 | ld64 | st8 | st16 | st32 | st64 => exact .next (memOp_keeps h)
  case beq | bne | blt | bge | bltu | bgeu => exact branchOn_answers h
  case jal | jalr => exact .next (issue_keeps (fun _ _ => linkTo_keeps) h)
  case csrr => exact .next (issue_keeps (fun _ _ => csrRead_keeps) h)
  case csrw => exact .next (issue_keeps (fun _ _ => csrWrite_keeps) h)
  case halt => exact execHalt_answers h
  case eret => exact .next (issue_keeps (fun _ _ => eret_keeps) h)
  case fence => exact .next (issue_keeps (fun _ _ => retire_keeps) h)
  case teissue => exact .next (issue_keeps (fun _ _ => teIssue_keeps) h)
  case tewait => exact .next (issue_keeps (fun _ _ => teWait_keeps) h)
  case count => exact execCount_answers h
  case loss => exact execLoss_answers h
  case time => exact execTime_answers h
  case shape | vmvs | vmsv | wbound => exact .next (regOp_keeps h)
  case vadd | vsub | vmul | vfma | vfms | vsqrt | vmin | vmax => exact elementwise_answers h
  case vdiv | vwmul | vwfma | vdotw | vcvt | redinit | mvinit | mfirst | mpop | mset => exact .next (vecOp_keeps h)
  case vabs | vneg | vcopysign => exact bitwise_answers h
  case vmov | vand | vor | vxor => exact bitwiseAny_answers h
  case redaccSum | redaccSumsq | redaccDot => exact redAcc_answers h
  case redfin | redfold | mvacc | mvfin => exact checkedOp_answers h
  case redmax | redmin | redamax => exact redExtreme_answers h
  case vcmpEq | vcmpNe | vcmpLt | vcmpLe | vcmpUn => exact compareOp_answers h
  case mand | mor | mxor | mandn => exact maskLogic_answers h
  case vld | vst => exact .next (issue_keeps (fun _ _ => linearMem_keeps) h)
  case vgather | vscatter => exact .next (issue_keeps (fun _ _ => indexedMem_keeps) h)
  case wacc | wacc1 => exact windowAdd_answers h
  case wrd => exact execWrd_answers h
  case wclr => exact execWclr_answers h
  case wbase => exact execWbase_answers h
  case wsave | wload => exact .next (issue_keeps (fun _ _ => windowMem_keeps) h)
  case solveRequest => exact execSolveRequest_answers h
  case assembleOnly | luSolve | choleskySolve | qrSolve | cgSolve | bicgstabSolve | gmresSolve | qpSolve
      | gaussNewtonSolve | adjointSolve | tangentSolve => exact .next (solveAdvance_keeps h)
  case residualProgramEnd => exact execResidualProgramEnd_answers h
  case solveDeadlineExpiry => exact execSolveDeadlineExpiry_answers h
  case seDescriptor => exact execSeDescriptor_answers h
  case update | reduce | gather | drop | verify => exact .next (seAdvance_keeps h)
  case gateWaitTimeout => exact execGateWaitTimeout_answers h
  case lossPost => exact execLossPost_answers h
  case lossWindowEnd => exact execLossWindowEnd_answers h
  case allReduce | reduceScatter | allGather | collectiveBroadcast | collectiveReduce =>
    exact .next (collAdvance_keeps h)
  case joinRecord => exact execJoinRecord_answers h
  case joinResend => exact execJoinResend_answers h
  case readDoneReport => exact execReadDoneReport_answers h
  case abortNotice => exact execAbortNotice_answers h
  case collectiveDeadline => exact execCollectiveDeadline_answers h
  case roundRequest => exact execRoundRequest_answers h
  case roundStart => exact execRoundStart_answers h
  case move => exact execMove_answers h
  case loop => exact execLoop_answers h
  case wait => exact execWait_answers h
  case waitPoll => exact execWaitPoll_answers h
  case waitMet => exact execWaitMet_answers h
  case waitTimeout => exact execWaitTimeout_answers h
  case signal => exact execSignal_answers h
  case courierHalt => exact execCourierHalt_answers h
  case apertureRead => exact .next (apTake_keeps h)
  case apertureWrite => exact execApertureWrite_answers h
  case ideKm => exact execIdeKm_answers h
  case linkLoss => exact execLinkLoss_answers h
  case linkUp => exact execLinkUp_answers h
  case perstN => exact execPerstN_answers h
  case functionLevelReset => exact execFunctionLevelReset_answers h
  case read => exact execRead_answers h
  case write => exact execWrite_answers h
  case readData => exact execReadData_answers h
  case writeAck => exact execWriteAck_answers h
  case nack => exact execNack_answers h
  case packetForward => exact execPacketForward_answers h
  case remoteRequestTimeout => exact execRemoteRequestTimeout_answers h
  case discover => exact execDiscover_answers h
  case roster => exact execRoster_answers h
  case discoveryQuiet => exact execDiscoveryQuiet_answers h
  case linkState => exact execLinkState_answers h
  case fwdAddr => exact execFwdAddr_answers h
  case routeRebuild => exact execRouteRebuild_answers h
  case broadcast => exact execBroadcast_answers h
  case timeSyncSend => exact execTimeSyncSend_answers h
  case timeSync => exact execTimeSync_answers h
  case timeReply => exact execTimeReply_answers h
  case retryReq => exact execRetryReq_answers h
  case blockLockLost => exact execBlockLockLost_answers h
  case fecWindowEnd => exact execFecWindowEnd_answers h
  case ackTimeout => exact execAckTimeout_answers h
  case portTrained => exact execPortTrained_answers h
  case frefLost => exact execFrefLost_answers h
  case frefReturn => exact execFrefReturn_answers h
  case scrubStep => exact execScrubStep_answers h
  case remapService => exact execRemapService_answers h
  case memTempSample => exact execMemTempSample_answers h
  case powerInterval => exact execPowerInterval_answers h
  case peakWindowClose => exact execPeakWindowClose_answers h
  case minuteClose => exact execMinuteClose_answers h
  case forecastRecompute => exact execForecastRecompute_answers h
  case beatWindowUpdate => exact execBeatWindowUpdate_answers h
  case sorterHeartbeatTimeout => exact execSorterHeartbeatTimeout_answers h
  case powerOn => exact execPowerOn_answers h
  case powerOff => exact execPowerOff_answers h
  case resetNFall => exact execResetNFall_answers h
  case resetNRise => exact execResetNRise_answers h
  case rimClocksRun => exact execRimClocksRun_answers h
  case postmasterStart => exact execPostmasterStart_answers h
  case floorPlanBuild => exact execFloorPlanBuild_answers h
  case stackTrainingDone => exact execStackTrainingDone_answers h
  case attPrepared => exact execAttPrepared_answers h
  case attCeilingWritten => exact execAttCeilingWritten_answers h
  case getReport | getCert | getSigState | calRead | calArm | calWrite | calCommit | calCancel =>
    exact .next (takeRequest_keeps h)
  case calArmExpiry => exact execCalArmExpiry_answers h
  case fieldRemapCopied => exact .next (copyRecords_keeps h)
  case trainingSettingsSaved => exact execTrainingSettingsSaved_answers h

theorem step_answers {s : State} (hwf : Memory.wf s.store.bytes) : ∃ t, step s = .next t ∧ Memory.wf t.store.bytes := by
  unfold step
  split
  · next hq => exact ⟨_, rfl, (tick_keeps (wc := True) ⟨hq, fun _ => hwf⟩).2 trivial⟩
  · next c rest _ =>
    obtain ⟨t, ht, hk⟩ := exec_answers (wq := rest) (wc := True) c (s := { s with pending := rest }) ⟨rfl, fun _ => hwf⟩
    exact ⟨t, ht, hk.2 trivial⟩

end

/-- Settles O58: each command keeps memory canonical, and so does a tick. -/
theorem memoryStaysCanonical : Obligations.MemoryStaysCanonical := by
  unfold Obligations.MemoryStaysCanonical
  intro s t hwf hstep
  obtain ⟨u, hu, hcanon⟩ := step_answers hwf
  rw [hu] at hstep
  cases hstep
  exact hcanon

/-- Settles O57: no meaning is a fault or a refusal, and each keeps the queue. -/
theorem commandsAnswer : Obligations.CommandsAnswer := by
  unfold Obligations.CommandsAnswer
  intro c s
  obtain ⟨t, ht, hk⟩ := exec_answers (wq := s.pending) (wc := False) c (s := s) ⟨rfl, False.elim⟩
  exact ⟨t, ht, hk.1⟩

/-- Settles O54: a step of a non-empty queue is its front command's effect. -/
theorem stepRunsCommand : Obligations.StepRunsCommand := by
  unfold Obligations.StepRunsCommand
  intro s c
  rfl

/-- Settles O56, by the laws of byte memory. -/
theorem memoryReadsWrites : Obligations.MemoryReadsWrites := by
  unfold Obligations.MemoryReadsWrites
  intro s a l
  exact ⟨memByte_memPut s a l, memBytes_memPut_same s a l, fun h => putBytes_wf _ a l h⟩

end Sys2Proof.Machine
end

section
/-! PROOF. What a step of an empty queue moves, and the state after reset (log 2). -/

namespace Sys2Proof.Machine

/-! ## The tick of an empty queue (02 R59, R60; log 2) -/

theorem foldl_eq_self {α β : Type} {f : β → α → β} {b : β} {l : List α} (h : ∀ a ∈ l, f b a = b) : l.foldl f b = b :=
  List.foldlRecOn (motive := fun x => x = b) l f rfl fun _ hx a ha => hx ▸ h a ha

theorem linkIdle_of_settled {s : State} {n : Nat}
    (h : (s.port n).state < 2 ∨ ((s.port n).owed = [] ∧ (s.port n).told = ackOf (s.port n))) : linkIdle s n = s := by
  unfold linkIdle
  rcases h with hdown | ⟨howed, htold⟩
  · simp [hdown]
  · simp [howed, htold]

theorem retryQuiesce_of_not_quiescing {s : State} {n : Nat} (h : (s.lclu n).quiescing = false) : retryQuiesce s n = s := by
  simp [retryQuiesce, h]

theorem retryTiles_of_idle {s : State} (hrun : ∀ e ∈ s.core.clus, e.2.te.run = none)
    (hquiet : ∀ n, (s.lclu n).quiescing = false) : retryTiles s = s := by
  have hengines : s.core.clus.foldl (fun a e => if e.2.te.run.isSome then retryTe a e.1 else a) s = s :=
    foldl_eq_self fun e he => by simp [hrun e he]
  unfold retryTiles
  rw [hengines]
  exact foldl_eq_self fun e _ => retryQuiesce_of_not_quiescing (hquiet e.1)

theorem retryWaiting_of_none {s : State} (hheld : s.net.held = []) (hwait : s.ring.waiting = []) : retryWaiting s = s := by
  simp [retryWaiting, hheld, hwait]

/-- A tick on which nothing waits moves the time clock alone. -/
theorem tick_of_idle {s : State} (hon : powered s = true) (hheld : s.net.held = []) (hwait : s.ring.waiting = [])
    (hrun : ∀ e ∈ s.core.clus, e.2.te.run = none) (hquiet : ∀ n, (s.lclu n).quiescing = false)
    (hports : ∀ n, n < 12 → (s.port n).state < 2 ∨ ((s.port n).owed = [] ∧ (s.port n).told = ackOf (s.port n))) :
    tick s = { s with time := tickTime s.time } := by
  have hwaiting : retryWaiting { s with time := tickTime s.time } = { s with time := tickTime s.time } :=
    retryWaiting_of_none hheld hwait
  have htiles : retryTiles { s with time := tickTime s.time } = { s with time := tickTime s.time } :=
    retryTiles_of_idle hrun hquiet
  rw [tick, if_pos hon, hwaiting, htiles]
  exact foldl_eq_self fun n hn => linkIdle_of_settled (s := { s with time := tickTime s.time }) (hports n (List.mem_range.mp hn))

theorem tickTime_cycles (t : TimeBase) : (tickTime t).cycles = t.cycles + 1 := by
  simp only [tickTime]
  split
  · rfl
  · split
    · rfl
    · split <;> rfl

theorem tickTime_stopped {t : TimeBase} (h : t.running = false) :
    (tickTime t).pm = t.pm ∧ (tickTime t).frac = t.frac := by
  simp [tickTime, h]

theorem tickTime_unslewed {t : TimeBase} (h : t.running = true) (hslew : t.slew = 0) (hfrac : t.frac = 0) :
    (tickTime t).pm = (t.pm + 1) % 2 ^ 64 ∧ (tickTime t).frac = 0 := by
  simp [tickTime, h, hslew, hfrac]

/-- A running time base gains one nanosecond and the slew, in units of a 250,000th of a nanosecond. -/
theorem tickTime_gains {t : TimeBase} (h : t.running = true) (hpm : (t.pm : Int) + 2 < 2 ^ 64) :
    ((tickTime t).pm : Int) * 250000 + (tickTime t).frac = t.pm * 250000 + t.frac + t.slew + 250000 := by
  have h1 : (t.pm + 1) % 2 ^ 64 = t.pm + 1 := Nat.mod_eq_of_lt (by omega)
  have h2 : (t.pm + 2) % 2 ^ 64 = t.pm + 2 := Nat.mod_eq_of_lt (by omega)
  simp only [tickTime, h, Bool.not_true, Bool.false_eq_true, if_false, h1, h2]
  split
  · simp only
    omega
  · split
    · simp only
      omega
    · simp only
      omega

/-- Settles O55: an empty queue's step is a tick, and a tick on which nothing waits moves the time clock alone. -/
theorem idleTick : Obligations.IdleTick := by
  unfold Obligations.IdleTick
  intro s hq
  have hstep : step s = .next (tick s) := by simp [step, hq]
  refine ⟨fun hoff => by simp [hstep, tick, hoff], fun hon hheld hwait hrun hquiet hports => ?_⟩
  rw [hstep, tick_of_idle hon hheld hwait hrun hquiet hports]
  exact ⟨_, rfl, rfl, tickTime_cycles _, tickTime_stopped, tickTime_unslewed, fun h _ hpm => tickTime_gains h hpm⟩

/-! ## Reset -/

/-- Settles O59: a unit that nothing has written reads as its default, and the defaults are the stated reset values. -/
theorem resetState : Obligations.ResetState := by
  unfold Obligations.ResetState
  exact ⟨reset_wf, rfl, rfl, rfl, rfl, rfl, rfl, rfl, rfl, rfl, rfl, rfl, rfl, rfl, rfl, rfl, rfl, rfl, rfl,
    fun _ => ⟨rfl, rfl, rfl, rfl, rfl⟩, fun _ => ⟨rfl, rfl, rfl⟩, fun _ => ⟨rfl, rfl, rfl⟩, fun _ => ⟨rfl, rfl⟩⟩

end Sys2Proof.Machine
end

section
/-! PROOF. One rule for the issue of an instruction at a given word, and one for its retirement (spec/06 R153, R161,
R162). -/

namespace Sys2Proof.Machine

/-! ## Reading and writing a cluster's sequencer -/

@[simp] theorem State.seq_setSeq_same (s : State) (p : Nat) (q : Seq) : (s.setSeq p q).seq p = q := by
  simp [State.seq, State.setSeq]

@[simp] theorem State.setSeq_setSeq (s : State) (p : Nat) (q r : Seq) : (s.setSeq p q).setSeq p r = s.setSeq p r := by
  simp [State.setSeq]

@[simp] theorem State.clu_setSeq_same (s : State) (p : Nat) (q : Seq) :
    (s.setSeq p q).clu p = { s.clu p with seq := q } := by
  simp [State.setSeq]

@[simp] theorem State.lclu_setSeq (s : State) (p : Nat) (q : Seq) (n : Nat) : (s.setSeq p q).lclu n = s.lclu n := rfl

@[simp] theorem Seq.setS_wait (q : Seq) (r : Nat) (v : W64) : (q.setS r v).wait = q.wait := by
  unfold Seq.setS; split <;> rfl
@[simp] theorem Seq.setS_resuming (q : Seq) (r : Nat) (v : W64) : (q.setS r v).resuming = q.resuming := by
  unfold Seq.setS; split <;> rfl
@[simp] theorem Seq.setS_pc (q : Seq) (r : Nat) (v : W64) : (q.setS r v).pc = q.pc := by
  unfold Seq.setS; split <;> rfl

/-! ## Words -/

theorem natOfBytes_lt (l : List Byte) : natOfBytes l < 256 ^ l.length := by
  induction l with
  | nil => simp [natOfBytes]
  | cons b t ih =>
    have hb : b.toNat < 256 := b.isLt
    have hpow : 256 ^ (t.length + 1) = 256 ^ t.length * 256 := Nat.pow_succ 256 t.length
    simp only [natOfBytes, List.length_cons, hpow]
    omega

theorem leAt_lt (l : List Byte) (off n : Nat) : leAt l off n < 256 ^ n :=
  Nat.lt_of_lt_of_le (natOfBytes_lt _) (Nat.pow_le_pow_right (by decide) (by simp [bytesAt]))

theorem and_wholeWord {w : Nat} (h : w < 2 ^ 32) : w &&& wholeWord = w := by
  rw [show wholeWord = 2 ^ 32 - 1 from rfl, Nat.and_two_pow_sub_one_eq_mod, Nat.mod_eq_of_lt h]

/-! ## The cluster's own store -/

theorem bytesAt_memBytes (s : State) (k n off m : Nat) (h : off + m ≤ n) :
    bytesAt (memBytes s k n) off m = memBytes s (k + off) m := by
  induction off generalizing k n with
  | zero =>
    induction m generalizing k n with
    | zero => rfl
    | succ m ih =>
      obtain ⟨n, rfl⟩ : ∃ n', n = n' + 1 := ⟨n - 1, by omega⟩
      simpa [bytesAt, memBytes] using ih (k + 1) n (by omega)
  | succ off ih =>
    obtain ⟨n, rfl⟩ : ∃ n', n = n' + 1 := ⟨n - 1, by omega⟩
    have := ih (k + 1) n (by omega)
    rw [show k + 1 + off = k + (off + 1) by omega] at this
    simpa [bytesAt, memBytes] using this

theorem keyIsHbm_storeKey (p off : Nat) : keyIsHbm (storeKey p off) = false := by
  have : ¬ storeKey p off < hbmEnd := by
    simp only [storeKey, storeBase, hbmEnd]
    omega
  simpa [keyIsHbm] using this

/-- A parcel of a local store that holds a good seal is read whole while no compute reset runs. -/
theorem parcelRead_storeKey {s : State} {p off : Nat} {u : By} (hrun : s.boot.computeReset = false)
    (hseal : sealDeltaOf s (storeKey p off) = 0) :
    parcelRead s (storeKey p off) u = (s, .ok (memBytes s (storeKey p off) 4096)) := by
  simp [parcelRead, parcelGet, keyIsHbm_storeKey, hrun, hseal]

/-- The seal of a byte's parcel is the parcel's. -/
theorem sealDeltaOf_storeKey_floor (s : State) (p off : Nat) :
    sealDeltaOf s (storeKey p (off - off % 4096)) = sealDeltaOf s (storeKey p off) := by
  have : storeKey p (off - off % 4096) / 4096 = storeKey p off / 4096 := by
    simp only [storeKey, storeBase]
    omega
  rw [sealDeltaOf, sealDeltaOf, this]

/-! ## Issue and retirement -/

/-- Dropping no request changes nothing. -/
@[simp] theorem reqDrop_nil (s : State) : reqDrop s [] = s := by simp [reqDrop]

section
variable {s : State} {p : Nat} {g : Prog} {w : Nat}

theorem AtWord.word_lt (h : AtWord s p g w) : w < 2 ^ 32 := by
  rw [← h.word]
  exact leAt_lt _ _ 4

/-- The instruction word at PC comes from a parcel that was checked before. -/
theorem fetchWord_atWord (h : AtWord s p g w) : fetchWord s p g (s.seq p).pc = (s, .ok w) := by
  simp [fetchWord, h.fetched, h.word]

theorem issue_atWord {bits : Nat} {act : Prog → State → State} (h : AtWord s p g w)
    (hlegal : wordLegal (s.seq p) w = true) (hnamed : w &&& bits = w) : issue s p bits w act = act g s := by
  simp [issue, h.runs, atBoundary, h.going, fetchWord_atWord h, hlegal, hnamed]

/-- Every bit of the word names the instruction. -/
theorem issue_whole {act : Prog → State → State} (h : AtWord s p g w) (hlegal : wordLegal (s.seq p) w = true) :
    issue s p wholeWord w act = act g s :=
  issue_atWord h hlegal (and_wholeWord h.word_lt)

/-- An instruction that waits for no request goes on inside the store: PC moves and the wait ends. -/
theorem advance_of_waitTags_nil {next : Int} (hwait : waitTags (s.seq p).wait = []) (hfresh : (s.seq p).resuming = false)
    (hnext : fetchable next) :
    advance s p next = s.setSeq p { s.seq p with pc := next.toNat, wait := .none } := by
  obtain ⟨h0, hlt, halign⟩ := hnext
  have hin : (decide (next < 0) || decide (0x400000 ≤ next) || next % 4 != 0) = false := by
    simp [halign]
    omega
  simp only [advance, hin, hwait, hfresh, reqDrop_nil, Bool.false_eq_true, if_false]

/-- An instruction that goes on inside the store moves PC alone. -/
theorem advance_of_fetchable {next : Int} (hwait : (s.seq p).wait = .none) (hfresh : (s.seq p).resuming = false)
    (hnext : fetchable next) : advance s p next = s.setSeq p { s.seq p with pc := next.toNat } := by
  rw [advance_of_waitTags_nil (by simp [hwait, waitTags]) hfresh hnext, ← hwait]

theorem AtWord.next_fetchable (h : AtWord s p g w) : fetchable (((s.seq p).pc : Int) + 4) := by
  have := h.aligned
  have := h.inside
  unfold fetchable
  omega

/-- A retirement from a state whose sequencer stands where an instruction at a word stood. -/
theorem retire_atWord {t : State} (h : AtWord s p g w) (hpc : (t.seq p).pc = (s.seq p).pc)
    (hwait : (t.seq p).wait = .none) (hfresh : (t.seq p).resuming = false) : retire t p = retiredAs t p (t.seq p) := by
  rw [retire, advance_of_fetchable hwait hfresh (hpc ▸ h.next_fetchable), retiredAs]
  norm_cast

/-- A retirement from a state that differs only outside the clusters' registers. -/
theorem retire_of_clus_eq {t : State} (h : AtWord s p g w) (hclus : t.core.clus = s.core.clus) :
    retire t p = retiredAs t p (s.seq p) := by
  have hseq : t.seq p = s.seq p := by simp only [State.seq, State.clu, hclus]
  rw [retire_atWord h (by rw [hseq]) (by rw [hseq, h.ready]) (by rw [hseq, h.fresh]), hseq]

theorem retiredAs_setSeq (q r : Seq) : retiredAs (s.setSeq p q) p r = retiredAs s p r := by simp [retiredAs]

/-- An instruction on the cluster's own registers that leaves PC and the waits alone. -/
theorem regOp_atWord {bits : Nat} {act : Seq → Seq} (h : AtWord s p g w) (hlegal : wordLegal (s.seq p) w = true)
    (hnamed : w &&& bits = w) (hpc : (act (s.seq p)).pc = (s.seq p).pc)
    (hwait : (act (s.seq p)).wait = (s.seq p).wait) (hfresh : (act (s.seq p)).resuming = (s.seq p).resuming) :
    regOp s p bits w act = retiredAs s p (act (s.seq p)) := by
  rw [regOp, issue_atWord h hlegal hnamed, retire_atWord h]
  · simp [retiredAs_setSeq]
  · simpa using hpc
  · simpa [h.ready] using hwait
  · simpa [h.fresh] using hfresh

/-- The end of a program that runs leaves the sequencer without one. -/
theorem dropProgram_of_runs (h : AtWord s p g w) :
    dropProgram s p = (touchIdle s g.lclu).setSeq p { s.seq p with
      prog := none, wait := .none, inHandler := false, resuming := false, resume := 0, ran := true } := by
  simp [dropProgram, h.runs, h.ready, waitTags]

end

end Sys2Proof.Machine
end

section
/-! PROOF. Scalar instructions and transfers of control (spec/06 R153, R157, R159, R161, R553). -/

namespace Sys2Proof.Machine

/-! ## The values of class 0x0 and 0x1 (R553) -/

theorem wrap64_toInt (x : W64) : wrap64 x.toInt = x := BitVec.ofInt_toInt

theorem add_eq_wrap64 (x y : W64) : x + y = wrap64 (x.toInt + y.toInt) := by
  rw [wrap64, BitVec.ofInt_add, BitVec.ofInt_toInt, BitVec.ofInt_toInt]

theorem sub_eq_wrap64 (x y : W64) : x - y = wrap64 (x.toInt - y.toInt) := by
  apply BitVec.eq_of_toInt_eq
  rw [wrap64, BitVec.toInt_sub, BitVec.toInt_ofInt]

theorem mul_eq_wrap64 (x y : W64) : x * y = wrap64 (x.toInt * y.toInt) := by
  rw [wrap64, BitVec.ofInt_mul, BitVec.ofInt_toInt, BitVec.ofInt_toInt]

theorem shiftLeft_eq_ofNat (x : W64) (n : Nat) : x <<< n = BitVec.ofNat 64 (x.toNat * 2 ^ n) := by
  apply BitVec.eq_of_toNat_eq
  simp [Nat.shiftLeft_eq]

theorem shiftRight_eq_ofNat (x : W64) (n : Nat) : x >>> n = BitVec.ofNat 64 (x.toNat / 2 ^ n) := by
  apply BitVec.eq_of_toNat_eq
  have hle : x.toNat / 2 ^ n ≤ x.toNat := Nat.div_le_self _ _
  rw [BitVec.toNat_ushiftRight, Nat.shiftRight_eq_div_pow, BitVec.toNat_ofNat,
    Nat.mod_eq_of_lt (Nat.lt_of_le_of_lt hle x.isLt)]

theorem sshiftRight_eq_wrap64 (x : W64) (n : Nat) : x.sshiftRight n = wrap64 (x.toInt / 2 ^ n) := by
  simp [wrap64, BitVec.sshiftRight, Int.shiftRight_eq_div_pow]

theorem ite_slt_eq_min (x y : W64) : (if x.slt y then x else y) = wrap64 (min x.toInt y.toInt) := by
  rw [BitVec.slt_eq_decide]
  by_cases h : x.toInt < y.toInt
  · simp [h, min_eq_left h.le, wrap64_toInt]
  · simp [h, min_eq_right (not_lt.mp h), wrap64_toInt]

theorem ite_slt_eq_max (x y : W64) : (if x.slt y then y else x) = wrap64 (max x.toInt y.toInt) := by
  rw [BitVec.slt_eq_decide]
  by_cases h : x.toInt < y.toInt
  · simp [h, max_eq_right h.le, wrap64_toInt]
  · simp [h, max_eq_left (not_lt.mp h), wrap64_toInt]

theorem w64OfBool_slt (x y : W64) : w64OfBool (x.slt y) = if x.toInt < y.toInt then 1 else 0 := by
  simp [w64OfBool, BitVec.slt_eq_decide]

theorem w64OfBool_ult (x y : W64) : w64OfBool (x.ult y) = if x.toNat < y.toNat then 1 else 0 := by
  simp [w64OfBool, BitVec.ult_eq_decide]

/-! ## Class 0x0 -/

/-- The instruction of each row of class 0x0 is the scalar operation of its function code and its stated value. -/
theorem exec_scalRow : ∀ e ∈ scalRows.zipIdx, e.2 < 15 ∧ ∀ (p : PClu) (a : Scal) (s : State),
    exec (e.1.1 p a) s = scalar s p e.2 a e.1.2 := by
  simp only [scalRows, List.cons_append, List.nil_append, List.zipIdx_cons, List.zipIdx_nil, List.forall_mem_cons,
    List.not_mem_nil, false_imp_iff, implies_true, and_true, Nat.zero_add, Nat.reduceAdd, ← add_eq_wrap64,
    ← sub_eq_wrap64, ← mul_eq_wrap64, ← shiftLeft_eq_ofNat, ← shiftRight_eq_ofNat, ← sshiftRight_eq_wrap64,
    ← ite_slt_eq_min, ← ite_slt_eq_max, ← w64OfBool_slt, ← w64OfBool_ult]
  refine ⟨?_, ?_, ?_, ?_, ?_, ?_, ?_, ?_, ?_, ?_, ?_, ?_, ?_, ?_, ?_⟩
  all_goals exact ⟨by decide, fun _ _ _ => rfl⟩

theorem wordLegal_encScal (q : Seq) {fn : Nat} (a : Scal) (hfn : fn < 15) : wordLegal q (encScal fn a) = true := by
  have := a.sd.isLt
  have := a.sa.isLt
  have := a.sb.isLt
  have hclass : encScal fn a / 2 ^ 28 = 0 := by unfold encScal; omega
  have hzero : field (encScal fn a) 5 8 = 0 := by simp only [field, encScal]; omega
  have hcode : field (encScal fn a) 0 5 = fn := by simp only [field, encScal]; omega
  simp only [wordLegal, hclass, hzero, hcode]
  simpa using hfn

theorem scalar_atWord {s : State} {p : PClu} {g : Prog} {fn : Nat} {a : Scal} (f : W64 → W64 → W64) (hfn : fn < 15)
    (h : AtWord s p g (encScal fn a)) :
    scalar s p fn a f = .next (retiredAs s p ((s.seq p).setS a.sd.toNat
      (f ((s.seq p).s a.sa.toNat) ((s.seq p).s a.sb.toNat)))) := by
  rw [scalar, regOp_atWord h (wordLegal_encScal _ a hfn) (and_wholeWord h.word_lt)] <;> simp

/-! ## Class 0x1 -/

theorem addImm_eq_wrap64 (x : W64) (i : BitVec 14) : x + i.signExtend 64 = wrap64 (x.toInt + i.toInt) := by
  rw [add_eq_wrap64, BitVec.toInt_signExtend_of_le (by decide)]

theorem signExtend_eq_wrap64 (i : BitVec 14) : i.signExtend 64 = wrap64 i.toInt := rfl

/-- The shift amount of an immediate is its value modulo 64. -/
theorem shAmt_signExtend (i : BitVec 14) : shAmt (i.signExtend 64) = (i.toInt % 64).toNat := by
  have h : ((i.signExtend 64).toNat : Int) = i.toInt % 2 ^ 64 := by
    rw [signExtend_eq_wrap64, wrap64, BitVec.toNat_ofInt]
    exact Int.toNat_of_nonneg (Int.emod_nonneg _ (by decide))
  unfold shAmt
  omega

theorem w64OfBool_sltImm (x : W64) (i : BitVec 14) :
    w64OfBool (x.slt (i.signExtend 64)) = if x.toInt < i.toInt then 1 else 0 := by
  rw [w64OfBool_slt, BitVec.toInt_signExtend_of_le (by decide)]

theorem shin_eq_ofNat (x : W64) (i : BitVec 14) :
    x <<< 14 ||| i.zeroExtend 64 = BitVec.ofNat 64 (x.toNat * 2 ^ 14 + (i.toInt % 2 ^ 14).toNat) := by
  have himm : (i.toInt % 2 ^ 14).toNat = i.toNat := by
    have := i.isLt
    rw [BitVec.toInt_eq_toNat_bmod, show (2 : Int) ^ 14 = ((2 ^ 14 : Nat) : Int) from rfl, Int.bmod_emod]
    omega
  apply BitVec.eq_of_toNat_eq
  rw [himm, BitVec.toNat_or, BitVec.toNat_shiftLeft, BitVec.toNat_ofNat, Nat.shiftLeft_eq]
  have hi : i.toNat < 2 ^ 14 := i.isLt
  have hsplit : x.toNat * 2 ^ 14 % 2 ^ 64 = 2 ^ 14 * (x.toNat % 2 ^ 50) := by omega
  rw [hsplit, BitVec.toNat_setWidth, Nat.mod_eq_of_lt (a := i.toNat) (by omega), ← Nat.two_pow_add_eq_or_of_lt hi]
  omega

/-- The instruction of each row of class 0x1 writes its stated value to sd. -/
theorem exec_immRow : ∀ e ∈ immRows.zipIdx, e.2 < 9 ∧ ∀ (p : PClu) (a : ScalImm) (s : State),
    exec (e.1.1 p a) s = .next (regOp s p wholeWord (encImm e.2 a)
      (fun q => q.setS a.sd.toNat (e.1.2 (q.s a.sa.toNat) a.imm.toInt))) := by
  simp only [immRows, List.zipIdx_cons, List.zipIdx_nil, List.forall_mem_cons, List.not_mem_nil, false_imp_iff,
    implies_true, and_true, Nat.zero_add, Nat.reduceAdd, ← addImm_eq_wrap64, ← signExtend_eq_wrap64, ← shAmt_signExtend,
    ← shiftLeft_eq_ofNat, ← shiftRight_eq_ofNat, ← sshiftRight_eq_wrap64, ← w64OfBool_sltImm, ← shin_eq_ofNat]
  refine ⟨?_, ?_, ?_, ?_, ?_, ?_, ?_, ?_, ?_⟩
  all_goals exact ⟨by decide, fun _ _ _ => rfl⟩

theorem wordLegal_encImm (q : Seq) {fn : Nat} (a : ScalImm) (hfn : fn < 9) : wordLegal q (encImm fn a) = true := by
  have := a.sd.isLt
  have := a.sa.isLt
  have := a.imm.isLt
  have hclass : encImm fn a / 2 ^ 28 = 1 := by unfold encImm; omega
  have hcode : field (encImm fn a) 14 4 = fn := by simp only [field, encImm]; omega
  simp only [wordLegal, hclass, hcode]
  simpa using hfn

/-- Settles O1: every row writes its value to sd and retires. -/
theorem scalarArithmetic : Obligations.ScalarArithmetic := by
  unfold Obligations.ScalarArithmetic
  refine ⟨fun s p g a e he h => ?_, fun s p g a e he h => ?_⟩
  · obtain ⟨hfn, hexec⟩ := exec_scalRow e he
    rw [hexec, scalar_atWord _ hfn h]
  · obtain ⟨hfn, hexec⟩ := exec_immRow e he
    rw [hexec, regOp_atWord h (wordLegal_encImm _ a hfn) (and_wholeWord h.word_lt)] <;> simp

/-! ## Branches, JAL and JALR (R153, R553) -/

theorem wordLegal_encBran (q : Seq) {fn : Nat} (a : Bran) (hfn : fn < 8) : wordLegal q (encBran fn a) = true := by
  have := a.sa.isLt
  have := a.sb.isLt
  have := a.off.isLt
  have hclass : encBran fn a / 2 ^ 28 = 3 := by unfold encBran; omega
  simp only [wordLegal, hclass]

section
variable {s : State} {p : PClu} {g : Prog} {a : Bran}

theorem branchOn_taken {fn : Nat} {c : W64 → W64 → Bool} (hfn : fn < 6) (h : AtWord s p g (encBran fn a))
    (hc : c ((s.seq p).s a.sa.toNat) ((s.seq p).s a.sb.toNat) = true)
    (htarget : fetchable ((s.seq p).pc + 4 * a.off.toInt)) :
    branchOn s p fn a c = .next (s.setSeq p { s.seq p with pc := ((s.seq p).pc + 4 * a.off.toInt).toNat }) := by
  rw [branchOn, issue_whole h (wordLegal_encBran _ a (by omega))]
  simp only [hc, if_true]
  rw [advance_of_fetchable h.ready h.fresh htarget]

theorem branchOn_not_taken {fn : Nat} {c : W64 → W64 → Bool} (hfn : fn < 6) (h : AtWord s p g (encBran fn a))
    (hc : c ((s.seq p).s a.sa.toNat) ((s.seq p).s a.sb.toNat) = false) :
    branchOn s p fn a c = .next (retiredAs s p (s.seq p)) := by
  rw [branchOn, issue_whole h (wordLegal_encBran _ a (by omega))]
  simp only [hc, Bool.false_eq_true, if_false]
  rw [retire_atWord h rfl h.ready h.fresh]

theorem linkTo_of_fetchable {w : Nat} {target : Int} (h : AtWord s p g w) (htarget : fetchable target) :
    linkTo s p a target = s.setSeq p { (s.seq p).setS a.sa.toNat (wrap64 ((s.seq p).pc + 4)) with pc := target.toNat } := by
  have hin : (decide (target < 0) || decide (0x400000 ≤ target) || target % 4 != 0) = false := by
    obtain ⟨h0, hlt, halign⟩ := htarget
    simp [halign]
    omega
  have hlink : BitVec.ofNat 64 ((s.seq p).pc + 4) = wrap64 ((s.seq p).pc + 4) := by
    rw [wrap64, ← BitVec.ofInt_natCast]
    norm_cast
  simp only [linkTo, hin, Bool.false_eq_true, if_false, hlink]
  rw [advance_of_fetchable _ _ htarget]
  · simp
  · simpa using h.ready
  · simpa using h.fresh

end

/-- The instruction of each branch row branches on the row's condition. -/
theorem exec_branchRow : ∀ e ∈ branchRows.zipIdx, e.2 < 6 ∧ ∃ c : W64 → W64 → Bool, (∀ x y, c x y = true ↔ e.1.2 x y) ∧
    ∀ (p : PClu) (a : Bran) (s : State), exec (e.1.1 p a) s = branchOn s p e.2 a c := by
  simp only [branchRows, List.zipIdx_cons, List.zipIdx_nil, List.forall_mem_cons, List.not_mem_nil, false_imp_iff,
    implies_true, and_true, Nat.zero_add, Nat.reduceAdd]
  refine ⟨⟨by decide, fun x y => x == y, ?_, fun _ _ _ => rfl⟩, ⟨by decide, fun x y => x != y, ?_, fun _ _ _ => rfl⟩,
    ⟨by decide, fun x y => x.slt y, ?_, fun _ _ _ => rfl⟩, ⟨by decide, fun x y => !x.slt y, ?_, fun _ _ _ => rfl⟩,
    ⟨by decide, fun x y => x.ult y, ?_, fun _ _ _ => rfl⟩, ⟨by decide, fun x y => !x.ult y, ?_, fun _ _ _ => rfl⟩⟩
  all_goals simp [BitVec.slt_eq_decide, BitVec.ult_eq_decide]

/-- Settles O2: a transfer whose target can be fetched from moves PC there, and JAL and JALR write the link besides. -/
theorem controlTransfer : Obligations.ControlTransfer := by
  unfold Obligations.ControlTransfer
  refine ⟨fun s p g a e he h => ?branch, fun s p g a => ⟨fun h htarget => ?jal, fun h htarget => ?jalr⟩⟩
  case branch =>
    obtain ⟨hfn, c, hc, hexec⟩ := exec_branchRow e he
    refine ⟨fun hcond htarget => ?_, fun hcond => ?_⟩
    · rw [hexec, branchOn_taken hfn h ((hc _ _).mpr hcond) htarget]
    · rw [hexec, branchOn_not_taken hfn h (Bool.eq_false_iff.mpr fun h => hcond ((hc _ _).mp h))]
  case jal =>
    change execJal p a s = _
    rw [execJal, issue_whole h (wordLegal_encBran _ a (by decide)), linkTo_of_fetchable h htarget]
  case jalr =>
    have htarget' : (s.seq p).s a.sb.toNat + BitVec.ofInt 64 (4 * a.off.toInt) =
        wrap64 (((s.seq p).s a.sb.toNat).toInt + 4 * a.off.toInt) := by
      rw [wrap64, BitVec.ofInt_add, BitVec.ofInt_toInt]
    change execJalr p a s = _
    rw [execJalr, issue_whole h (wordLegal_encBran _ a (by decide)), htarget', linkTo_of_fetchable h htarget]
    rfl

end Sys2Proof.Machine
end

section
/-! PROOF. System instructions: FENCE, TIME, COUNT, LOSS, TEWAIT, HALT, TEISSUE, ERET and the end of a wait (spec/06 R152,
R155, R156, R178, R181; log 25, 26). -/

namespace Sys2Proof.Machine

/-! ## The words of class 0x4 -/

/-- A class 0x4 word of one of the listed functions is legal in every state. -/
theorem wordLegal_encSys (q : Seq) {fn sd sa : Nat} (hfn : 2 ≤ fn ∧ fn < 10) (hsd : sd < 32) (hsa : sa < 32) :
    wordLegal q (encSys fn sd sa 0) = true := by
  have hclass : encSys fn sd sa 0 / 2 ^ 28 = 4 := by unfold encSys; omega
  have hcode : field (encSys fn sd sa 0) 0 6 = fn := by simp only [field, encSys]; omega
  simp only [wordLegal, hclass, hcode]
  simp [hfn]

theorem encSys_and_sd : ∀ r : BitVec 5, encSys 9 r.toNat 0 0 &&& sysBits true false false = encSys 9 r.toNat 0 0 := by
  decide

theorem encSys_and_sa : ∀ r : BitVec 5, encSys 7 0 r.toNat 0 &&& sysBits false true false = encSys 7 0 r.toNat 0 ∧
    encSys 5 0 r.toNat 0 &&& sysBits false true false = encSys 5 0 r.toNat 0 := by
  decide

theorem encSys_and_both : ∀ r1 r2 : BitVec 5,
    encSys 8 r1.toNat r2.toNat 0 &&& sysBits true true false = encSys 8 r1.toNat r2.toNat 0 := by
  decide +kernel

/-! ## HALT -/

theorem OpsEnded.core {s t : State} (h : OpsEnded s t) : t.core = s.core := by
  obtain ⟨_, _, _, _, _, _, rfl⟩ := h.frame
  rfl

/-- An operation in progress that met no warning ends DONE with status 0. -/
theorem opDone_of_runs {s : State} {slot : Nat} {o : Op} (h : OpRuns s slot o) (hsat : o.sat = 0) (hnon : o.nonfin = 0)
    (hwarn : o.warns = []) : opDone s slot = opFinal s slot .done 0 0 := by
  have hstart : opStart s slot = s := by simp [opStart, h.1, h.2]
  simp [opDone, h.1, opWarning, hsat, hnon, hwarn, hstart]

section
variable {s : State} {p : PClu} {g : Prog} {r : BitVec 5}

theorem exec_halt {o : Op} (h : AtWord s p g (encSys 2 0 0 0)) (ho : OpRuns s g.slot o) (hsat : o.sat = 0)
    (hnon : o.nonfin = 0) (hwarn : o.warns = []) :
    ∃ t, exec (.halt p) s = .next t ∧ (t.seq p).prog = none ∧ t.store = s.store ∧
      t.op g.slot = some { o with
        place := .final, rcpt := { o.rcpt with state := .done, status := 0, detail := 0, postmark := s.now } } := by
  have hdrop := dropProgram_of_runs h
  have hop : OpRuns (dropProgram s p) g.slot o := by
    rw [hdrop]
    exact ho
  have hended := opFinal_ended (dropProgram s p) g.slot .done 0 0
  have hfinal := op_opFinal hop.1 (by simp [hop.2, rstateFinal]) .done 0 0
  refine ⟨noteLast (opDone (dropProgram s p) g.slot) p g.opId g.stream, ?_, ?_, ?_, ?_⟩
  · change execHalt p s = _
    rw [execHalt, issue_atWord h (wordLegal_encSys _ (by decide) (by decide) (by decide)) (by decide)]
  · rw [opDone_of_runs hop hsat hnon hwarn]
    have hclu : (opFinal (dropProgram s p) g.slot .done 0 0).clu p = (dropProgram s p).clu p := by
      simp only [State.clu, hended.core]
    simp only [noteLast, State.seq, State.clu_setClu_same, hclu]
    simp [hdrop]
  · rw [opDone_of_runs hop hsat hnon hwarn, noteLast, State.setClu_store, hended.store, hdrop]
    rfl
  · rw [opDone_of_runs hop hsat hnon hwarn, noteLast, State.op_setClu, hfinal, hdrop]
    rfl

/-! ## COUNT, TEISSUE, ERET and the end of a TEWAIT's wait -/

theorem exec_count {o : Op} (h : AtWord s p g (encSys 7 0 r.toNat 0)) (hlt : ((s.seq p).s r.toNat).toNat < 2 ^ 32)
    (ho : s.op g.slot = some o) :
    exec (.count p r) s = .next (retiredAs (s.setOp g.slot { o with rcpt := { o.rcpt with
      count := max o.rcpt.count ((s.seq p).s r.toNat).toNat } }) p (s.seq p)) := by
  change execCount p r s = _
  rw [execCount, issue_atWord h (wordLegal_encSys _ (by decide) (by decide) r.isLt) (encSys_and_sa r).1]
  simp only [hlt, if_true, opCount, ho]
  rw [retire_atWord (t := s.setOp _ _) h rfl h.ready h.fresh]
  rfl

theorem teIssue_accepted {w off : Nat} (h : AtWord s p g w) (hrun : s.boot.computeReset = false)
    (hgrant : teGrants s p ownSeq = true) (halign : off % 64 = 0) (hin : off + 64 ≤ 0x400000)
    (hseal : sealDeltaOf s (storeKey p off) = 0) (hfine : tdMalformed (memBytes s (storeKey p off) 64) = none) :
    teIssue s p g off = s.setClu p { s.clu p with
      te := { (s.clu p).te with queue := (s.clu p).te.queue ++ [⟨g.slot, true, memBytes s (storeKey p off) 64⟩] },
      seq := { s.seq p with pc := (s.seq p).pc + 4 } } := by
  have hread : ownRead s p off 64 g.slot = (s, .ok (memBytes s (storeKey p off) 64)) := by
    have hkey : storeKey p (off - off % 4096) + off % 4096 = storeKey p off := by
      simp only [storeKey]
      omega
    have hparcel := parcelRead_storeKey (u := ⟨4, some g.slot⟩) hrun ((sealDeltaOf_storeKey_floor s p off).trans hseal)
    rw [ownRead, if_neg (by omega), hparcel]
    simp only
    rw [if_pos (by omega), bytesAt_memBytes _ _ _ _ _ (by omega), hkey]
  simp only [teIssue, hgrant, hread, hfine, Bool.not_true, Bool.false_eq_true, if_false, Option.isSome_none]
  rw [retire_atWord h _ _ _]
  · simp [retiredAs, teQueue, State.setTe, State.te, State.seq, State.setSeq]
  · simp [teQueue, State.setTe, State.seq]
  · simpa [teQueue, State.setTe, State.seq] using h.ready
  · simpa [teQueue, State.setTe, State.seq] using h.fresh

theorem exec_eret {w : Nat} (h : AtWord s p g (encSys 3 0 0 0))
    (hword : leAt (memBytes s (storeKey p (s.seq p).epc) 4) 0 4 = w) (hmem : w / 2 ^ 28 = 11 ∨ w / 2 ^ 28 = 12)
    (hfetched : (storeKey p (s.seq p).epc - storeKey p (s.seq p).epc % 4096) ∈ g.checked)
    (hresume : (s.seq p).resume < (s.seq p).act) :
    exec (.eret p) s = .next (s.setSeq p { s.seq p with pc := (s.seq p).epc, inHandler := false, resuming := true }) := by
  have hfetch : fetchWord s p g (s.seq p).epc = (s, .ok w) := by simp [fetchWord, hfetched, hword]
  have hgood : (w / 2 ^ 28 != 11 && w / 2 ^ 28 != 12 || decide ((s.seq p).act ≤ (s.seq p).resume)) = false := by
    simpa [Nat.not_le.mpr hresume, or_iff_not_imp_left] using hmem
  change execEret p s = _
  rw [execEret, issue_atWord h (wordLegal_encSys _ (by decide) (by decide) (by decide)) (by decide)]
  simp only [eret, hfetch, hgood, Bool.false_eq_true, if_false]

/-- The engine is idle with nothing queued: a TEWAIT that waited retires. -/
theorem exec_sequencerWaitEnd_tewait {q : Seq} (hq : s.seq p = { q with wait := .tensor })
    (h : AtWord (s.setSeq p q) p g (encSys 6 0 0 0)) (hword : leAt (memBytes s (storeKey p q.pc) 4) 0 4 = encSys 6 0 0 0)
    (hrun : (s.clu p).te.run = none) (hqueue : (s.clu p).te.queue = []) :
    exec (.sequencerWaitEnd p) s = .next (retiredAs s p q) := by
  obtain ⟨hprog, hready, hgoing, hfresh, halign, hinside, hfetched, -⟩ := h
  simp only [State.seq_setSeq_same] at hprog hready hfresh halign hinside hfetched
  have hfetch : fetchWord s p g (s.seq p).pc = (s, .ok (encSys 6 0 0 0)) := by simp [fetchWord, hq, hfetched, hword]
  have hdone : waitAgain s p g (encSys 6 0 0 0) = retiredAs s p q := by
    have hgo : teWait s p = retire s p := by simp [teWait, State.te, hrun, hqueue]
    have hnext : fetchable (((s.seq p).pc : Int) + 4) := by
      simp only [hq]
      unfold fetchable
      omega
    change teWait s p = _
    rw [hgo, retire, advance_of_waitTags_nil (by simp [hq, waitTags]) (by simpa [hq] using hfresh) hnext, hq, ← hready]
    rfl
  have hstays : atBoundary (retiredAs s p q) p g = false := by
    simp [atBoundary, retiredAs, show (s.lclu g.lclu).quiescing = false from hgoing]
  change execSequencerWaitEnd p s = _
  have hwaits : (s.seq p).wait ≠ .none := by simp [hq]
  have hruns : (s.seq p).prog = some g := by simp [hq, hprog]
  have hstill : ((retiredAs s p q).seq p).prog = some g := by simp [retiredAs, hprog]
  simp only [execSequencerWaitEnd, hruns, hfetch, hdone, hwaits, if_false, boundaryEnd, hstill, hstays,
    Bool.false_eq_true]

end

/-- Settles O4: each instruction is issued at its word, and what it does is what its own lemma says. -/
theorem systemInstructions : Obligations.SystemInstructions := by
  unfold Obligations.SystemInstructions
  refine ⟨fun s p g r1 r2 => ⟨fun h => ?fence, fun h => ?time, fun h hlt o ho => exec_count h hlt ho, fun h => ?loss,
      fun h hrun hqueue => ?tewait, fun h o ho hsat hnon hwarn => exec_halt h ho hsat hnon hwarn⟩,
    fun s p g r => ⟨fun h hrun hgrant off hoff halign hin hseal hfine => ?teissue,
      fun h w hword hmem hfetched hresume => exec_eret h hword hmem hfetched hresume,
      fun q hq h hword hrun hqueue => exec_sequencerWaitEnd_tewait hq h hword hrun hqueue⟩⟩
  case fence =>
    change execFence p s = _
    rw [execFence, issue_atWord h (wordLegal_encSys _ (by decide) (by decide) (by decide)) (by decide),
      retire_atWord h rfl h.ready h.fresh]
  case time =>
    change execTime p r1 s = _
    rw [execTime, issue_atWord h (wordLegal_encSys _ (by decide) r1.isLt (by decide)) (encSys_and_sd r1),
      retire_atWord h (by simp) (by simpa using h.ready) (by simpa using h.fresh)]
    simp [retiredAs_setSeq]
  case loss =>
    change execLoss p r1 r2 s = _
    rw [execLoss, issue_atWord h (wordLegal_encSys _ (by decide) r1.isLt r2.isLt) (encSys_and_both r1 r2)]
    simp only
    rw [retire_of_clus_eq h (by rfl)]
    simp [elemAt, field, fmtBits]
  case tewait =>
    change execTewait p s = _
    rw [execTewait, issue_atWord h (wordLegal_encSys _ (by decide) (by decide) (by decide)) (by decide)]
    simp only [teWait, State.te, hrun, hqueue]
    rw [if_pos (by decide), retire_atWord h rfl h.ready h.fresh]
  case teissue =>
    change execTeissue p r s = _
    rw [execTeissue, issue_atWord h (wordLegal_encSys _ (by decide) (by decide) r.isLt) (encSys_and_sa r).2, ← hoff,
      teIssue_accepted h hrun hgrant halign hin hseal hfine]

end Sys2Proof.Machine
end

section
/-! PROOF. Elements of vector registers: what one reads after another was written, and what an instruction that maps the
active lanes leaves (spec/06 R157, R159, R160, R164). -/

namespace Sys2Proof.Machine

/-! ## Bit fields -/

theorem testBit_field (v lo n j : Nat) : (field v lo n).testBit j = (decide (j < n) && v.testBit (lo + j)) := by
  rw [field, Nat.testBit_mod_two_pow, ← Nat.shiftRight_eq_div_pow, Nat.testBit_shiftRight]

/-- A number written as what lies below, inside and above a field. -/
theorem putField_eq (v lo n x : Nat) :
    putField v lo n x = 2 ^ lo * (2 ^ n * (v / 2 ^ (lo + n)) + x % 2 ^ n) + v % 2 ^ lo := by
  have h1 := Nat.div_add_mod v (2 ^ lo)
  have h2 := Nat.div_add_mod (v / 2 ^ lo) (2 ^ n)
  rw [Nat.div_div_eq_div_mul, ← Nat.pow_add] at h2
  have hv : v = 2 ^ lo * (2 ^ n * (v / 2 ^ (lo + n))) + 2 ^ lo * (v / 2 ^ lo % 2 ^ n) + v % 2 ^ lo := by
    rw [← Nat.mul_add, h2, h1]
  rw [putField, field, Nat.mul_add, Nat.mul_comm (v / 2 ^ lo % 2 ^ n), Nat.mul_comm (x % 2 ^ n)]
  omega

theorem testBit_putField (v lo n x j : Nat) :
    (putField v lo n x).testBit j = if lo ≤ j ∧ j < lo + n then x.testBit (j - lo) else v.testBit j := by
  rw [putField_eq, Nat.testBit_two_pow_mul_add _ (Nat.mod_lt _ (Nat.two_pow_pos lo))]
  by_cases hlo : j < lo
  · rw [if_pos hlo, if_neg (by omega), Nat.testBit_mod_two_pow]
    simp [hlo]
  · rw [if_neg hlo, Nat.testBit_two_pow_mul_add _ (Nat.mod_lt _ (Nat.two_pow_pos n))]
    by_cases hn : j - lo < n
    · rw [if_pos hn, if_pos (by omega), Nat.testBit_mod_two_pow]
      simp [hn]
    · rw [if_neg hn, if_neg (by omega), ← Nat.shiftRight_eq_div_pow, Nat.testBit_shiftRight]
      congr 1
      omega

/-! ## Elements of one register -/

theorem fmtBits_pos (f : Fmt) : 0 < fmtBits f := by cases f <;> decide

/-- The bits of an element lie inside the register. -/
theorem elem_inside {f : Fmt} {i : Nat} (h : i < laneCap f) : fmtBits f * i + fmtBits f ≤ 4096 := by
  have hle : fmtBits f * (i + 1) ≤ fmtBits f * laneCap f := Nat.mul_le_mul_left _ h
  have hcap : fmtBits f * laneCap f ≤ 4096 := Nat.mul_div_le 4096 _
  rw [Nat.mul_add, Nat.mul_one] at hle
  omega

/-- The bits of two elements are apart. -/
theorem elem_apart (f : Fmt) {i j : Nat} (h : i ≠ j) :
    fmtBits f * i + fmtBits f ≤ fmtBits f * j ∨ fmtBits f * j + fmtBits f ≤ fmtBits f * i := by
  rcases Nat.lt_or_gt_of_ne h with h | h
  · exact .inl (by rw [← Nat.mul_succ]; exact Nat.mul_le_mul_left _ h)
  · exact .inr (by rw [← Nat.mul_succ]; exact Nat.mul_le_mul_left _ h)

theorem testBit_setElem (f : Fmt) (v : VReg) (i x : Nat) {j : Nat} (hj : j < 4096) :
    (setElem f v i x).toNat.testBit j =
      if fmtBits f * i ≤ j ∧ j < fmtBits f * i + fmtBits f then x.testBit (j - fmtBits f * i) else v.toNat.testBit j := by
  rw [BitVec.testBit_toNat, setElem, BitVec.getLsbD_ofNat, testBit_putField, decide_eq_true hj, Bool.true_and]

/-- Element j after a write of element i. -/
theorem elemAt_setElem {f : Fmt} (v : VReg) (i x : Nat) {j : Nat} (hj : j < laneCap f) :
    elemAt f (setElem f v i x) j = if i = j then x % 2 ^ fmtBits f else elemAt f v j := by
  have hin := elem_inside hj
  apply Nat.eq_of_testBit_eq
  intro b
  rw [elemAt, testBit_field]
  by_cases hb : b < fmtBits f
  · rw [testBit_setElem _ _ _ _ (by omega)]
    by_cases hij : i = j
    · subst hij
      rw [if_pos rfl, if_pos (by omega), Nat.testBit_mod_two_pow, Nat.add_sub_cancel_left]
    · have hapart := elem_apart f hij
      rw [if_neg hij, if_neg (by omega), elemAt, testBit_field]
  · split
    · simp [hb]
    · simp [elemAt, testBit_field, hb]

theorem elemAt_lt (f : Fmt) (v : VReg) (i : Nat) : elemAt f v i < 2 ^ fmtBits f := Nat.mod_lt _ (Nat.two_pow_pos _)

/-! ## Vector registers of a sequencer -/

@[simp] theorem Seq.v_setV_same (q : Seq) (r : Nat) (x : VReg) : (q.setV r x).v r = x := kget_kset_same _ _ _ _
theorem Seq.v_setV_ne (q : Seq) {r k : Nat} (x : VReg) (h : r ≠ k) : (q.setV r x).v k = q.v k := kget_kset_ne _ _ _ _ _ h
theorem Seq.v_setV (q : Seq) (r k : Nat) (x : VReg) : (q.setV r x).v k = if r = k then x else q.v k := kget_kset _ _ _ _ _

/-- Only vector registers differ. -/
def VregOnly (q0 q : Seq) : Prop := q = { q0 with vreg := q.vreg }

theorem VregOnly.refl (q : Seq) : VregOnly q q := rfl

theorem VregOnly.setV {q0 q : Seq} (h : VregOnly q0 q) (r : Nat) (x : VReg) : VregOnly q0 (q.setV r x) := by
  unfold VregOnly at h ⊢
  rw [h]
  rfl

/-! ## Instructions that map the active lanes (R159, R160) -/

theorem mem_activeList {q : Seq} {r : VRegs} {i : Nat} : i ∈ activeList q r ↔ activeAt q r i = true := by
  simp only [activeList, List.mem_filter, List.mem_range, and_iff_right_iff_imp]
  intro h
  simp only [activeAt, Bool.and_eq_true, decide_eq_true_eq] at h
  exact h.1

/-- One lane of `mapLanes`, with what it raised. -/
def laneStep (f : Fmt) (vd : Nat) (op : Nat → Res) (a : Seq × Tally) (i : Nat) : Seq × Tally :=
  (a.1.setV vd (setElem f (a.1.v vd) i (op i).bits), tallyAdd a.2 (resTally (op i)))

theorem mapLanes_eq (q : Seq) (f : Fmt) (r : VRegs) (op : Nat → Res) :
    mapLanes q f r op = (activeList q r).foldl (laneStep f r.vd.toNat op) (q, {}) := rfl

theorem foldl_laneStep_snd (f : Fmt) (vd : Nat) (op : Nat → Res) (l : List Nat) (q : Seq) (t : Tally) :
    (l.foldl (laneStep f vd op) (q, t)).2 = l.foldl (fun a i => tallyAdd a (resTally (op i))) t := by
  induction l generalizing q t with
  | nil => rfl
  | cons a l ih => exact ih _ _

/-- Lanes written one by one: the listed lanes take their values, and nothing else of the registers changes. -/
theorem foldl_laneStep_fst (f : Fmt) (vd : Nat) (op : Nat → Res) (l : List Nat) (q : Seq) (t : Tally) :
    VregOnly q (l.foldl (laneStep f vd op) (q, t)).1 ∧
    (∀ v, v ≠ vd → (l.foldl (laneStep f vd op) (q, t)).1.v v = q.v v) ∧
    ∀ i, i < laneCap f → elemAt f ((l.foldl (laneStep f vd op) (q, t)).1.v vd) i =
      if i ∈ l then (op i).bits % 2 ^ fmtBits f else elemAt f (q.v vd) i := by
  induction l using List.reverseRecOn with
  | nil => exact ⟨.refl q, fun _ _ => rfl, fun i _ => by simp⟩
  | append_singleton l k ih =>
    obtain ⟨honly, hothers, hlanes⟩ := ih
    rw [List.foldl_append]
    generalize l.foldl (laneStep f vd op) (q, t) = a at honly hothers hlanes
    refine ⟨honly.setV _ _, fun v hv => ?_, fun i hi => ?_⟩
    · rw [← hothers v hv]
      exact Seq.v_setV_ne _ _ (Ne.symm hv)
    · simp only [List.foldl_cons, List.foldl_nil, laneStep, Seq.v_setV_same, elemAt_setElem _ _ _ hi, hlanes i hi,
        List.mem_append, List.mem_singleton]
      by_cases hk : k = i
      · simp [hk]
      · simp [hk, Ne.symm hk]

/-- What an instruction that maps the active lanes leaves of the registers. -/
theorem mapLanes_lanes (q : Seq) (f : Fmt) (r : VRegs) (op : Nat → Res) :
    LanesBecome q (mapLanes q f r op).1 f r (fun i => (op i).bits) := by
  obtain ⟨honly, hothers, hlanes⟩ := foldl_laneStep_fst f r.vd.toNat op (activeList q r) q {}
  rw [mapLanes_eq]
  refine ⟨honly, hothers, fun i hi => ?_⟩
  simp only [hlanes i hi, mem_activeList]

theorem mapLanes_raised (q : Seq) (f : Fmt) (r : VRegs) (op : Nat → Res) :
    (mapLanes q f r op).2 = raised (activeList q r) op :=
  foldl_laneStep_snd _ _ _ _ _ _

/-! ## Issue of a vector instruction -/

/-- Posting to an operation's tally changes the ledger alone. -/
theorem opTally_eq (s : State) (slot : Nat) (t : Tally) (parcel : Option Nat) :
    ∃ l, ∀ u : State, u.ledger = s.ledger → opTally u slot t parcel = { u with ledger := l } := by
  cases ho : s.op slot with
  | none =>
    refine ⟨s.ledger, fun u hu => ?_⟩
    have hn : u.op slot = none := by rw [State.op, hu]; exact ho
    rw [opTally, hn, ← hu]
  | some o =>
    refine ⟨(opTally s slot t parcel).ledger, fun u hu => ?_⟩
    have hn : u.op slot = some o := by rw [State.op, hu]; exact ho
    simp only [opTally, hn, ho, State.setOp, hu]

/-- The registers other than the vector, mask and scalar files and the capture are untouched: an instruction may retire. -/
structure StaysAt (q q' : Seq) : Prop where
  pc : q'.pc = q.pc
  wait : q'.wait = q.wait
  resuming : q'.resuming = q.resuming

theorem VregOnly.stays {q q' : Seq} (h : VregOnly q q') : StaysAt q q' := by
  rw [h]
  exact ⟨rfl, rfl, rfl⟩

section
variable {s : State} {p : Nat} {g : Prog} {w : Nat}

/-- New registers, and what the instruction raised, posted as it retires. -/
theorem retire_vecPost {q : Seq} (t : Tally) (h : AtWord s p g w) (hq : StaysAt (s.seq p) q) :
    retire (vecPost (s.setSeq p q) p g.slot t) p = postedAs s p g q t := by
  obtain ⟨l, hl⟩ := opTally_eq s g.slot t none
  rw [vecPost, hl _ (by rfl), retire_atWord h, postedAs, hl _ (by rfl)]
  · simp [retiredAs, State.setSeq, State.seq, State.setClu, State.clu]
  · simpa [State.seq, State.clu, State.setClu, State.setSeq] using hq.pc
  · simpa [State.seq, State.clu, State.setClu, State.setSeq] using hq.wait.trans h.ready
  · simpa [State.seq, State.clu, State.setClu, State.setSeq] using hq.resuming.trans h.fresh

theorem vecOp_atWord {act : Seq → Seq × Tally} (h : AtWord s p g w) (hlegal : wordLegal (s.seq p) w = true)
    (hq : StaysAt (s.seq p) (act (s.seq p)).1) :
    vecOp s p w act = postedAs s p g (act (s.seq p)).1 (act (s.seq p)).2 := by
  rw [vecOp, issue_whole h hlegal]
  exact retire_vecPost _ h hq

end

end Sys2Proof.Machine
end

section
/-! PROOF. Elementwise vector instructions (spec/06 R74, R159, R160, R163, R552; log 20). -/

namespace Sys2Proof.Machine

/-! ## Fields of a vector word (R161) -/

/-- The registers' fields of a vector word, beside its class and its low nine bits. -/
theorem encVec_fields (cls : Nat) {fn9 : Nat} (r : VRegs) (hfn : fn9 < 512) :
    encVec cls fn9 r / 2 ^ 28 = cls ∧ field (encVec cls fn9 r) 23 5 = r.vd.toNat ∧
    field (encVec cls fn9 r) 18 5 = r.vs1.toNat ∧ field (encVec cls fn9 r) 13 5 = r.vs2.toNat ∧
    field (encVec cls fn9 r) 12 1 = boolNat r.msk ∧ field (encVec cls fn9 r) 9 3 = r.vm.toNat := by
  have := r.vd.isLt
  have := r.vs1.isLt
  have := r.vs2.isLt
  have := r.vm.isLt
  have : boolNat r.msk < 2 := by cases r.msk <;> decide
  simp only [field, encVec]
  refine ⟨?_, ?_, ?_, ?_, ?_, ?_⟩ <;> omega

/-- A field of the low nine bits of a vector word. -/
theorem field_encVec_low (cls : Nat) {fn9 : Nat} (r : VRegs) (hfn : fn9 < 2 ^ 9) {lo n : Nat} (hn : lo + n ≤ 9) :
    field (encVec cls fn9 r) lo n = field fn9 lo n := by
  obtain ⟨c, hc⟩ : ∃ c, encVec cls fn9 r = 2 ^ 9 * c + fn9 :=
    ⟨cls * 2 ^ 19 + r.vd.toNat * 2 ^ 14 + r.vs1.toNat * 2 ^ 9 + r.vs2.toNat * 2 ^ 4 + boolNat r.msk * 2 ^ 3 + r.vm.toNat, by
      unfold encVec
      omega⟩
  apply Nat.eq_of_testBit_eq
  intro j
  rw [testBit_field, testBit_field, hc]
  by_cases hj : j < n
  · rw [Nat.testBit_two_pow_mul_add _ hfn, if_pos (by omega)]
  · simp [hj]

/-! ## Legality of class 0x6 (R162) -/

theorem wordLegal_encArith_six {q : Seq} {op : Nat} {a : VArith} (hop : op < 16) (hrm : a.rm ≠ 2) (hsrc : a.src ≠ 3)
    (hfmt : op < 12 → q.efmt ≤ 3) (hvs1 : [6, 9, 10, 12].contains op = true → a.r.vs1 = 0) :
    wordLegal q (encArith 6 op a) = true := by
  have hrm4 := a.rm.isLt
  have hsrc4 := a.src.isLt
  have hrmn : a.rm.toNat ≠ 2 := fun h => hrm (BitVec.eq_of_toNat_eq h)
  have hsrcn : a.src.toNat ≠ 3 := fun h => hsrc (BitVec.eq_of_toNat_eq h)
  have hlt : op * 16 + a.rm.toNat * 4 + a.src.toNat < 512 := by omega
  obtain ⟨hcls, -, hv1, -⟩ := encVec_fields 6 a.r hlt
  have h45 : field (encArith 6 op a) 4 5 = op := by
    rw [encArith, field_encVec_low _ _ hlt (by decide), field]; omega
  have h02 : field (encArith 6 op a) 0 2 = a.src.toNat := by
    rw [encArith, field_encVec_low _ _ hlt (by decide), field]; omega
  have h22 : field (encArith 6 op a) 2 2 = a.rm.toNat := by
    rw [encArith, field_encVec_low _ _ hlt (by decide), field]; omega
  rw [← encArith] at hcls hv1
  have hv1z : [6, 9, 10, 12].contains op = true → a.r.vs1.toNat = 0 := fun h => by rw [hvs1 h]; rfl
  simp only [wordLegal, hcls, legalElem, h45, h02, h22, hv1]
  cases hc : [6, 9, 10, 12].contains op
  · simpa [hop, hrmn, hsrcn, or_iff_not_imp_left] using hfmt
  · simpa [hop, hrmn, hsrcn, or_iff_not_imp_left, hv1z hc] using hfmt

/-! ## Arithmetic (R163, R552) -/

/-- The instruction of each row of class 0x6 arithmetic maps the row's value over the active lanes. -/
theorem exec_elemRow : ∀ e ∈ elemRows.zipIdx, e.2 < 9 ∧ ([6, 9, 10, 12].contains e.2 = e.1.2.1) ∧
    ∀ (p : PClu) (a : VArith) (s : State), exec (e.1.1 p a) s = .next (vecOp s p (encArith 6 e.2 a) (fun q =>
      mapLanes q q.fmt a.r (fun i => e.1.2.2 (roundAny q.fmt (rmPlain a.rm) q.satWide)
        (decodeVal q.fmt (elemAt q.fmt (q.v a.r.vs1.toNat) i)) (decodeVal q.fmt (srcAt q q.fmt a.r a.src.toNat i))
        (decodeVal q.fmt (elemAt q.fmt (q.v a.r.vd.toNat) i))))) := by
  simp only [elemRows, List.cons_append, List.nil_append, List.zipIdx_cons, List.zipIdx_nil, List.forall_mem_cons,
    List.not_mem_nil, false_imp_iff, implies_true, and_true, Nat.zero_add, Nat.reduceAdd]
  refine ⟨?_, ?_, ?_, ?_, ?_, ?_, ?_, ?_, ?_⟩
  case refine_6 =>
    refine ⟨by decide, by decide, fun p a s => ?_⟩
    change execVdiv p a s = _
    simp [execVdiv, resInv, flagsOr]
  all_goals exact ⟨by decide, by decide, fun _ _ _ => rfl⟩

/-- What an instruction that maps the active lanes leaves. -/
theorem mapLanes_atWord {s : State} {p : PClu} {g : Prog} {w : Nat} {r : VRegs} (val : Seq → Nat → Res)
    (h : AtWord s p g w) (hlegal : wordLegal (s.seq p) w = true) :
    ∃ q, vecOp s p w (fun q => mapLanes q q.fmt r (val q)) =
        postedAs s p g q (raised (activeList (s.seq p) r) (val (s.seq p))) ∧
      LanesBecome (s.seq p) q (s.seq p).fmt r (fun i => (val (s.seq p) i).bits) := by
  have hlanes := mapLanes_lanes (s.seq p) (s.seq p).fmt r (val (s.seq p))
  refine ⟨(mapLanes (s.seq p) (s.seq p).fmt r (val (s.seq p))).1, ?_, hlanes⟩
  have hstays : StaysAt (s.seq p) (mapLanes (s.seq p) (s.seq p).fmt r (val (s.seq p))).1 := VregOnly.stays hlanes.1
  rw [vecOp_atWord h hlegal hstays, mapLanes_raised]

/-! ## Instructions that move bits (R74, R552) -/

/-- A lane's bits, moved: no flag and no count. -/
def quietRes (x : Nat) : Res := ⟨x, {}, false, false⟩

theorem raised_quiet (l : List Nat) (val : Nat → Nat) : raised l (fun i => quietRes (val i)) = {} := by
  induction l with
  | nil => rfl
  | cons i l ih => exact ih

/-- Values that agree in the format's bits leave the same lanes. -/
theorem LanesBecome.congr {q0 q : Seq} {f : Fmt} {r : VRegs} {u v : Nat → Nat} (h : LanesBecome q0 q f r u)
    (huv : ∀ i, u i % 2 ^ fmtBits f = v i % 2 ^ fmtBits f) : LanesBecome q0 q f r v := by
  obtain ⟨honly, hothers, hlanes⟩ := h
  refine ⟨honly, hothers, fun i hi => ?_⟩
  rw [hlanes i hi, huv]

theorem srcAt_lt (q : Seq) (f : Fmt) (r : VRegs) (src i : Nat) : srcAt q f r src i < 2 ^ fmtBits f := by
  unfold srcAt
  split
  · exact Nat.mod_lt _ (Nat.two_pow_pos _)
  · exact elemAt_lt _ _ _

theorem two_pow_fmtBits (f : Fmt) : 2 ^ fmtBits f = 2 ^ (fmtBits f - 1) * 2 := by
  rw [← Nat.pow_succ, Nat.succ_eq_add_one, Nat.sub_add_cancel (fmtBits_pos f)]

/-- The sign of an element is the bit above the rest. -/
theorem signBit_eq {f : Fmt} {x : Nat} (h : x < 2 ^ fmtBits f) : signBit f x = x / 2 ^ (fmtBits f - 1) := by
  have hdiv : x / 2 ^ (fmtBits f - 1) < 2 := by
    rw [Nat.div_lt_iff_lt_mul (Nat.two_pow_pos _), Nat.mul_comm, ← two_pow_fmtBits]
    exact h
  rw [signBit, field, Nat.pow_one]
  exact Nat.mod_eq_of_lt hdiv

theorem noSign_eq (f : Fmt) (x : Nat) : noSign f x = x % 2 ^ (fmtBits f - 1) := by simp [noSign, field]

/-- The element with its sign turned. -/
theorem putSign_flip {f : Fmt} {y : Nat} (h : y < 2 ^ fmtBits f) :
    putSign f y (1 - signBit f y) = (y + 2 ^ (fmtBits f - 1)) % 2 ^ fmtBits f := by
  have hdm := Nat.div_add_mod y (2 ^ (fmtBits f - 1))
  have hlt := Nat.mod_lt y (Nat.two_pow_pos (fmtBits f - 1))
  rw [putSign, noSign_eq, signBit_eq h]
  rw [two_pow_fmtBits] at h ⊢
  generalize 2 ^ (fmtBits f - 1) = n at *
  generalize y % n = m at *
  have hb : y / n = 0 ∨ y / n = 1 := Nat.le_one_iff_eq_zero_or_eq_one.mp (Nat.le_of_lt_succ (Nat.div_lt_of_lt_mul h))
  rcases hb with hb | hb
  · rw [hb, Nat.mul_zero] at hdm
    rw [hb, Nat.mod_eq_of_lt (by omega : y + n < n * 2), Nat.sub_zero, Nat.one_mul]
    omega
  · rw [hb, Nat.mul_one] at hdm
    rw [hb, Nat.mod_eq_sub_mod (by omega), Nat.mod_eq_of_lt (by omega), Nat.sub_self, Nat.zero_mul]
    omega

/-- What a scalar operand broadcasts above bit 63 of an f64 pair, its free value in place (log 20). -/
def pairHighOf (q : Seq) (a : VArith) : Nat :=
  (if q.fmt = .pair ∧ a.src = 1 then (Config.pairHigh (q.s a.r.vs2.toNat)).toNat else 0) * 2 ^ 64

/-- A lane's bits before an instruction of `bitRows`. -/
def bitLane (f : Nat → Nat → Nat → Nat) (q : Seq) (a : VArith) (i : Nat) : Nat :=
  f (fmtBits q.fmt) (elemAt q.fmt (q.v a.r.vs1.toNat) i) (srcAt q q.fmt a.r a.src.toNat i + pairHighOf q a)

theorem bitwise_atWord {s : State} {p : PClu} {g : Prog} {op : Nat} {a : VArith} {f : Fmt → Nat → Nat → Nat}
    (h : AtWord s p g (encArith 6 op a)) (hlegal : wordLegal (s.seq p) (encArith 6 op a) = true) :
    ∃ q, bitwise s p op a f = .next (postedAs s p g q {}) ∧
      LanesBecome (s.seq p) q (s.seq p).fmt a.r (fun i => f (s.seq p).fmt
        (elemAt (s.seq p).fmt ((s.seq p).v a.r.vs1.toNat) i) (srcAt (s.seq p) (s.seq p).fmt a.r a.src.toNat i)) := by
  obtain ⟨q, hq, hlanes⟩ := mapLanes_atWord (r := a.r) (fun q i => quietRes (f q.fmt
    (elemAt q.fmt (q.v a.r.vs1.toNat) i) (srcAt q q.fmt a.r a.src.toNat i))) h hlegal
  rw [raised_quiet] at hq
  exact ⟨q, congrArg Host.Outcome.next hq, hlanes⟩

theorem bitwiseAny_atWord {s : State} {p : PClu} {g : Prog} {op : Nat} {a : VArith} (f : Nat → Nat → Nat)
    (h : AtWord s p g (encArith 6 op a)) (hlegal : wordLegal (s.seq p) (encArith 6 op a) = true) :
    ∃ q, bitwiseAny s p op a f = .next (postedAs s p g q {}) ∧
      LanesBecome (s.seq p) q (s.seq p).fmt a.r (bitLane (fun _ => f) (s.seq p) a) := by
  obtain ⟨q, hq, hlanes⟩ :=
    mapLanes_atWord (r := a.r) (fun q i => quietRes (bitLane (fun _ => f) q a i)) h hlegal
  rw [raised_quiet, vecOp, issue_whole h hlegal] at hq
  have hhigh : (if (s.seq p).fmt = .pair ∧ a.src.toNat = 1 then
      (Config.pairHigh ((s.seq p).s a.r.vs2.toNat)).toNat * 2 ^ 64 else 0) = pairHighOf (s.seq p) a := by
    have hsrc : a.src.toNat = 1 ↔ a.src = 1 := ⟨fun h => BitVec.eq_of_toNat_eq h, fun h => by rw [h]; rfl⟩
    simp only [pairHighOf, hsrc, ite_mul, Nat.zero_mul]
  refine ⟨q, ?_, hlanes⟩
  rw [bitwiseAny, issue_whole h hlegal, ← hq]
  simp only [hhigh]
  rfl

/-- Each instruction of `bitRows` moves the row's bits over the active lanes. -/
theorem exec_bitRow {s : State} {p : PClu} {g : Prog} {a : VArith} : ∀ e ∈ bitRows.zipIdx,
    AtWord s p g (encArith 6 (9 + e.2) a) → wordLegal (s.seq p) (encArith 6 (9 + e.2) a) = true →
    (e.2 < 3 → (s.seq p).fmt ≠ .pair) →
    ∃ q, exec (e.1.1 p a) s = .next (postedAs s p g q {}) ∧
      LanesBecome (s.seq p) q (s.seq p).fmt a.r (bitLane e.1.2.2 (s.seq p) a) := by
  have hnone : (s.seq p).fmt ≠ .pair → pairHighOf (s.seq p) a = 0 := fun hp => by simp [pairHighOf, hp]
  have moves (op : Nat) (f : Fmt → Nat → Nat → Nat) (row : Nat → Nat → Nat → Nat)
      (hrow : ∀ x y, x < 2 ^ fmtBits (s.seq p).fmt → y < 2 ^ fmtBits (s.seq p).fmt →
        f (s.seq p).fmt x y = row (fmtBits (s.seq p).fmt) x y)
      (h : AtWord s p g (encArith 6 op a)) (hlegal : wordLegal (s.seq p) (encArith 6 op a) = true)
      (hpair : (s.seq p).fmt ≠ .pair) :
      ∃ q, bitwise s p op a f = .next (postedAs s p g q {}) ∧
        LanesBecome (s.seq p) q (s.seq p).fmt a.r (bitLane row (s.seq p) a) := by
    obtain ⟨q, hq, hlanes⟩ := bitwise_atWord (f := f) h hlegal
    refine ⟨q, hq, hlanes.congr fun i => ?_⟩
    rw [bitLane, hnone hpair, Nat.add_zero, hrow _ _ (elemAt_lt _ _ _) (srcAt_lt _ _ _ _ _)]
  simp only [bitRows, List.zipIdx_cons, List.zipIdx_nil, List.forall_mem_cons,
    List.not_mem_nil, false_imp_iff, implies_true, and_true, Nat.zero_add, Nat.reduceAdd]
  refine ⟨fun h hl hp => ?_, fun h hl hp => ?_, fun h hl hp => ?_, fun h hl _ => ?_, fun h hl _ => ?_, fun h hl _ => ?_,
    fun h hl _ => ?_⟩
  · have hx : exec (.vabs p a) s = bitwise s p 9 a (fun e _ y => noSign e y) := rfl
    rw [hx]
    exact moves 9 _ _ (fun _ y _ _ => noSign_eq _ y) h hl (hp (by decide))
  · have hx : exec (.vneg p a) s = bitwise s p 10 a (fun e _ y => putSign e y (1 - signBit e y)) := rfl
    rw [hx]
    exact moves 10 _ _ (fun _ _ _ hy => putSign_flip hy) h hl (hp (by decide))
  · have hx : exec (.vcopysign p a) s = bitwise s p 11 a (fun e x y => putSign e x (signBit e y)) := rfl
    rw [hx]
    exact moves 11 _ _ (fun x _ _ hy => by rw [putSign, noSign_eq, signBit_eq hy]) h hl (hp (by decide))
  · have hx : exec (.vmov p a) s = bitwiseAny s p 12 a (fun _ y => y) := rfl
    rw [hx]
    exact bitwiseAny_atWord _ h hl
  · have hx : exec (.vand p a) s = bitwiseAny s p 13 a (fun x y => x &&& y) := rfl
    rw [hx]
    exact bitwiseAny_atWord _ h hl
  · have hx : exec (.vor p a) s = bitwiseAny s p 14 a (fun x y => x ||| y) := rfl
    rw [hx]
    exact bitwiseAny_atWord _ h hl
  · have hx : exec (.vxor p a) s = bitwiseAny s p 15 a (fun x y => x ^^^ y) := rfl
    rw [hx]
    exact bitwiseAny_atWord _ h hl

/-! ## The statement -/

theorem fmtOr_ne_pair {n : Nat} (h : n ≤ 3) : fmtOr n ≠ .pair := by
  interval_cases n <;> decide

end Sys2Proof.Machine

namespace Sys2Proof
open Machine

/-- Settles O6: an elementwise instruction maps its row's value over the active lanes and posts what that raised. -/
theorem elementwise : Obligations.Elementwise := by
  unfold Obligations.Elementwise
  refine ⟨fun s p g a e he h hfmt hrm hsrc hvs1 f val hf hval => ?_, fun s p g a e he h hfmt hrm hsrc hvs1 f hf => ?_⟩
  · obtain ⟨hop, hres, hexec⟩ := exec_elemRow e he
    have hlegal : wordLegal (s.seq p) (encArith 6 e.2 a) = true :=
      wordLegal_encArith_six (by omega) hrm hsrc (fun _ => hfmt) (fun hc => hvs1 (hres ▸ hc))
    subst hf hval
    rw [hexec]
    obtain ⟨q, hq, hlanes⟩ := mapLanes_atWord (r := a.r) (fun q i => e.1.2.2 (roundAny q.fmt (rmPlain a.rm) q.satWide)
      (decodeVal q.fmt (elemAt q.fmt (q.v a.r.vs1.toNat) i)) (decodeVal q.fmt (srcAt q q.fmt a.r a.src.toNat i))
      (decodeVal q.fmt (elemAt q.fmt (q.v a.r.vd.toNat) i))) h hlegal
    exact ⟨q, congrArg Host.Outcome.next hq, hlanes⟩
  · have hrow : ∀ e ∈ bitRows.zipIdx, e.2 < 7 ∧ [6, 9, 10, 12].contains (9 + e.2) = e.1.2.1 := by decide
    obtain ⟨hop, hres⟩ := hrow e he
    subst hf
    refine exec_bitRow e he h (wordLegal_encArith_six (by omega) hrm hsrc (fun hlt => hfmt (by omega))
      (fun hc => hvs1 (hres ▸ hc))) fun hlt => fmtOr_ne_pair (hfmt hlt)

end Sys2Proof
end

section
/-! PROOF. Vector compares and the instructions on mask registers (spec/06 R160, R161, R163). -/

namespace Sys2Proof.Machine

/-! ## Mask registers -/

@[simp] theorem Seq.m_setM_same (q : Seq) (r : Nat) (x : MReg) : (q.setM r x).m r = x := kget_kset_same _ _ _ _
theorem Seq.m_setM_ne (q : Seq) {r k : Nat} (x : MReg) (h : r ≠ k) : (q.setM r x).m k = q.m k := kget_kset_ne _ _ _ _ _ h

theorem Seq.setM_only (q : Seq) (r : Nat) (x : MReg) : q.setM r x = { q with mreg := (q.setM r x).mreg } := rfl

theorem Seq.setM_stays (q : Seq) (r : Nat) (x : MReg) : StaysAt q (q.setM r x) := ⟨rfl, rfl, rfl⟩

theorem Seq.setS_stays (q : Seq) (r : Nat) (x : W64) : StaysAt q (q.setS r x) := ⟨by simp, by simp, by simp⟩

theorem StaysAt.refl (q : Seq) : StaysAt q q := ⟨rfl, rfl, rfl⟩

theorem getLsbD_twoPow {a i : Nat} (hi : i < 1024) : (BitVec.ofNat 1024 (2 ^ a)).getLsbD i = decide (a = i) := by
  rw [BitVec.getLsbD_ofNat, Nat.testBit_two_pow, decide_eq_true hi, Bool.true_and]

/-- One bit written in a mask register. -/
def maskStep (f : Nat → Bool) (m : MReg) (a : Nat) : MReg :=
  if f a then m ||| BitVec.ofNat 1024 (2 ^ a) else m &&& ~~~BitVec.ofNat 1024 (2 ^ a)

theorem getLsbD_maskStep (f : Nat → Bool) (m : MReg) (a : Nat) {i : Nat} (hi : i < 1024) :
    (maskStep f m a).getLsbD i = if a = i then f i else m.getLsbD i := by
  unfold maskStep
  split
  next hf =>
    rw [BitVec.getLsbD_or, getLsbD_twoPow hi]
    by_cases ha : a = i
    · subst ha
      rw [if_pos rfl, hf, decide_eq_true rfl, Bool.or_true]
    · rw [if_neg ha, decide_eq_false ha, Bool.or_false]
  next hf =>
    rw [BitVec.getLsbD_and, BitVec.getLsbD_not, getLsbD_twoPow hi, decide_eq_true hi]
    by_cases ha : a = i
    · subst ha
      rw [if_pos rfl, Bool.eq_false_of_not_eq_true hf, decide_eq_true rfl, Bool.not_true, Bool.and_false, Bool.and_false]
    · rw [if_neg ha, decide_eq_false ha, Bool.not_false, Bool.and_true, Bool.and_true]

theorem maskWith_eq (m : MReg) (l : List Nat) (f : Nat → Bool) : maskWith m l f = l.foldl (maskStep f) m := rfl

/-- A bit below 1,024 after the bits of a list were written from a predicate. -/
theorem getLsbD_maskWith (l : List Nat) (f : Nat → Bool) (m : MReg) {i : Nat} (hi : i < 1024) :
    (maskWith m l f).getLsbD i = if i ∈ l then f i else m.getLsbD i := by
  rw [maskWith_eq]
  induction l generalizing m with
  | nil => simp
  | cons a l ih =>
    rw [List.foldl_cons, ih, getLsbD_maskStep _ _ _ hi]
    by_cases hl : i ∈ l
    · simp [hl]
    · simp [hl, eq_comm]

/-- The low bits of a mask register. -/
theorem getLsbD_lowMask {n i : Nat} (hi : i < 1024) : (BitVec.ofNat 1024 (2 ^ n - 1)).getLsbD i = decide (i < n) := by
  rw [BitVec.getLsbD_ofNat, Nat.testBit_two_pow_sub_one, decide_eq_true hi, Bool.true_and]

theorem maskReg_eq (r : BitVec 5) : maskReg r = r.toNat % 8 := rfl

/-! ## Legality of class 0xA (R162) -/

theorem wordLegal_encMask {q : Seq} {op : Nat} (r : VRegs) (hop : op < 12) (hfmt : op < 5 → q.efmt ≤ 3) :
    wordLegal q (encMask op r) = true := by
  have hlt : op * 32 < 512 := by omega
  obtain ⟨hcls, -⟩ := encVec_fields 10 r hlt
  have h05 : field (encMask op r) 0 5 = 0 := by
    rw [encMask, field_encVec_low _ _ hlt (by decide), field]; omega
  have h54 : field (encMask op r) 5 4 = op := by
    rw [encMask, field_encVec_low _ _ hlt (by decide), field]; omega
  rw [← encMask] at hcls
  simp only [wordLegal, hcls, legalMask, h05, h54]
  simpa [hop, or_iff_not_imp_left] using hfmt

/-! ## Compares -/

/-- The mask bits that a compare writes. -/
def compareBits (q : Seq) (r : VRegs) (f : Val → Val → Bool) : MReg :=
  maskWith (q.m (maskReg r.vd)) (activeList q r)
    (fun i => f (decodeVal q.fmt (elemAt q.fmt (q.v r.vs1.toNat) i)) (decodeVal q.fmt (elemAt q.fmt (q.v r.vs2.toNat) i))) &&&
    BitVec.ofNat 1024 (2 ^ q.act - 1)

/-- What a compare raises: INVALID where an operand of an active element signals. -/
def compareRaised (q : Seq) (r : VRegs) : Tally :=
  { fl := ⟨(activeList q r).any (fun i => valIsSig (decodeVal q.fmt (elemAt q.fmt (q.v r.vs1.toNat) i)) ||
    valIsSig (decodeVal q.fmt (elemAt q.fmt (q.v r.vs2.toNat) i))), false, false, false⟩ }

/-- What a compare leaves of the registers, and what it raises. -/
def compareAct (r : VRegs) (f : Val → Val → Bool) (q : Seq) : Seq × Tally :=
  if q.act == 0 then (q, {}) else (q.setM (maskReg r.vd) (compareBits q r f), compareRaised q r)

theorem compareAct_stays (r : VRegs) (f : Val → Val → Bool) (q : Seq) : StaysAt q (compareAct r f q).1 := by
  unfold compareAct
  split
  · exact .refl _
  · exact Seq.setM_stays _ _ _

theorem exec_cmpRow : ∀ e ∈ cmpRows.zipIdx, e.2 < 5 ∧ ∀ (p : PClu) (r : VRegs) (s : State),
    exec (e.1.1 p r) s = .next (vecOp s p (encMask e.2 r) (compareAct r e.1.2)) := by
  simp only [cmpRows, List.zipIdx_cons, List.zipIdx_nil, List.forall_mem_cons,
    List.not_mem_nil, false_imp_iff, implies_true, and_true, Nat.zero_add, Nat.reduceAdd]
  refine ⟨?_, ?_, ?_, ?_, ?_⟩
  all_goals exact ⟨by decide, fun _ _ _ => rfl⟩

/-- The bits of the mask that a compare of some elements leaves. -/
theorem getLsbD_compareBits (q : Seq) (r : VRegs) (f : Val → Val → Bool) {i : Nat} (hi : i < 1024) :
    (compareBits q r f).getLsbD i =
      if activeAt q r i then
        f (decodeVal q.fmt (elemAt q.fmt (q.v r.vs1.toNat) i)) (decodeVal q.fmt (elemAt q.fmt (q.v r.vs2.toNat) i))
      else if i < q.act then (q.m (maskReg r.vd)).getLsbD i else false := by
  rw [compareBits, BitVec.getLsbD_and, getLsbD_maskWith _ _ _ hi, getLsbD_lowMask hi]
  simp only [mem_activeList]
  by_cases hlt : i < q.act
  · simp [hlt]
  · simp [hlt, activeAt]

theorem activeList_eq_nil {q : Seq} (r : VRegs) (h : q.act = 0) : activeList q r = [] := by simp [activeList, h]

/-- Settles O10: a compare writes its mask's active bits from the two operands, and clears those from ACT up. -/
theorem compares : Obligations.Compares := by
  unfold Obligations.Compares
  intro s p g r q0 f x y hq0 hf hfmt hx hy e he h
  obtain ⟨hop, hexec⟩ := exec_cmpRow e he
  subst hq0 hf hx hy
  refine ⟨(compareAct r e.1.2 (s.seq p)).1, (compareAct r e.1.2 (s.seq p)).2, ?_, ?_⟩
  · rw [hexec, vecOp_atWord h (wordLegal_encMask r (by omega) fun _ => hfmt) (compareAct_stays _ _ _)]
  · by_cases hact : (s.seq p).act = 0
    · have hidle : compareAct r e.1.2 (s.seq p) = (s.seq p, {}) := by simp [compareAct, hact]
      rw [hidle]
      exact ⟨rfl, by simp [activeList_eq_nil r hact], fun _ _ => rfl, fun _ _ => by rw [if_pos hact]⟩
    · have hsome : compareAct r e.1.2 (s.seq p) =
          ((s.seq p).setM (maskReg r.vd) (compareBits (s.seq p) r e.1.2), compareRaised (s.seq p) r) := by
        simp [compareAct, hact]
      rw [hsome]
      refine ⟨rfl, by simp [compareRaised], fun m hm => Seq.m_setM_ne _ _ (Ne.symm hm), fun i hi => ?_⟩
      rw [if_neg hact, ← maskReg_eq, Seq.m_setM_same, getLsbD_compareBits _ _ _ hi]

/-! ## Logic between mask registers -/

theorem exec_maskRow : ∀ e ∈ maskRows.zipIdx, e.2 < 4 ∧ ∃ f : MReg → MReg → MReg,
    (∀ x y i, i < 1024 → (f x y).getLsbD i = e.1.2 (x.getLsbD i) (y.getLsbD i)) ∧
    ∀ (p : PClu) (r : VRegs) (s : State), exec (e.1.1 p r) s = maskLogic s p (5 + e.2) r f := by
  simp only [maskRows, List.zipIdx_cons, List.zipIdx_nil, List.forall_mem_cons,
    List.not_mem_nil, false_imp_iff, implies_true, and_true, Nat.zero_add, Nat.reduceAdd]
  refine ⟨⟨by decide, fun x y => x &&& y, ?_, fun _ _ _ => rfl⟩, ⟨by decide, fun x y => x ||| y, ?_, fun _ _ _ => rfl⟩,
    ⟨by decide, fun x y => x ^^^ y, ?_, fun _ _ _ => rfl⟩, ⟨by decide, fun x y => x &&& ~~~y, ?_, fun _ _ _ => rfl⟩⟩
  all_goals intro x y i hi
  all_goals simp [hi]

theorem maskLogic_atWord {s : State} {p : PClu} {g : Prog} {op : Nat} {r : VRegs} {f : MReg → MReg → MReg}
    {b : Bool → Bool → Bool} (h : AtWord s p g (encMask op r)) (hop : 5 ≤ op ∧ op < 12)
    (hf : ∀ x y i, i < 1024 → (f x y).getLsbD i = b (x.getLsbD i) (y.getLsbD i)) :
    ∃ q, maskLogic s p op r f = .next (postedAs s p g q {}) ∧ q = { s.seq p with mreg := q.mreg } ∧
      (∀ m, m ≠ r.vd.toNat % 8 → q.m m = (s.seq p).m m) ∧
      ∀ i, i < 1024 → (q.m (r.vd.toNat % 8)).getLsbD i =
        if activeAt (s.seq p) r i then b (((s.seq p).m (r.vs1.toNat % 8)).getLsbD i) (((s.seq p).m (r.vs2.toNat % 8)).getLsbD i)
        else ((s.seq p).m (r.vd.toNat % 8)).getLsbD i := by
  refine ⟨_, congrArg Host.Outcome.next (vecOp_atWord h (wordLegal_encMask r hop.2 (by omega)) (Seq.setM_stays _ _ _)),
    rfl, fun m hm => Seq.m_setM_ne _ _ (Ne.symm hm), fun i hi => ?_⟩
  simp only [Seq.m_setM_same, maskReg_eq, getLsbD_maskWith _ _ _ hi, mem_activeList, hf _ _ _ hi]

/-! ## MFIRST, MPOP and MSET -/

theorem setActive_eq (q : Seq) (r : VRegs) : setActive q r =
    (List.range q.act).filter (fun i => activeAt q r i && (q.m (r.vs1.toNat % 8)).getLsbD i) := by
  rw [setActive, activeList, List.filter_filter]
  simp only [maskReg_eq, Bool.and_comm]

/-- The lowest active element whose mask bit is set, or −1. -/
def firstSet (q : Seq) (r : VRegs) : W64 :=
  match (setActive q r).head? with | some i => BitVec.ofNat 64 i | none => BitVec.ofInt 64 (-1)

theorem firstSet_spec (q : Seq) (r : VRegs) :
    (∃ i, firstSet q r = BitVec.ofNat 64 i ∧ i < q.act ∧ activeAt q r i ∧ (q.m (r.vs1.toNat % 8)).getLsbD i ∧
      ∀ j, j < i → ¬ (activeAt q r j ∧ (q.m (r.vs1.toNat % 8)).getLsbD j)) ∨
    (firstSet q r = wrap64 (-1) ∧ ∀ j, ¬ (activeAt q r j ∧ (q.m (r.vs1.toNat % 8)).getLsbD j)) := by
  rw [firstSet, setActive_eq, List.head?_filter]
  cases hfind : (List.range q.act).find? (fun i => activeAt q r i && (q.m (r.vs1.toNat % 8)).getLsbD i) with
  | none =>
    refine .inr ⟨rfl, fun j hj => ?_⟩
    have hlt : j < q.act := by
      have := hj.1
      simp only [activeAt, Bool.and_eq_true, decide_eq_true_eq] at this
      exact this.1
    simpa [hj.1, hj.2] using List.find?_eq_none.mp hfind j (List.mem_range.mpr hlt)
  | some i =>
    obtain ⟨hi, hmem, hfirst⟩ := List.find?_range_eq_some.mp hfind
    simp only [Bool.and_eq_true] at hi
    exact .inl ⟨i, rfl, List.mem_range.mp hmem, hi.1, hi.2, fun j hj hb => by simpa [hb.1, hb.2] using hfirst j hj⟩

/-- Settles O11: each mask instruction writes what it is to write of one register. -/
theorem maskInstructions : Obligations.MaskInstructions := by
  unfold Obligations.MaskInstructions
  intro s p g r q0 m1 m2 md hq0 hm1 hm2 hmd
  subst hq0 hm1 hm2 hmd
  refine ⟨fun e he h => ?_, fun h hact => ⟨firstSet (s.seq p) r, ?_, firstSet_spec _ _⟩, fun h hact => ?_, fun h => ?_⟩
  · obtain ⟨hop, f, hf, hexec⟩ := exec_maskRow e he
    rw [hexec]
    exact maskLogic_atWord h (by omega) hf
  · have hexec : exec (.mfirst p r) s = .next (vecOp s p (encMask 9 r) (fun q =>
        if q.act == 0 then (q, {}) else (q.setS r.vd.toNat (firstSet q r), {}))) := rfl
    have hpost := vecOp_atWord (act := fun q => if q.act == 0 then (q, {}) else (q.setS r.vd.toNat (firstSet q r), {})) h
      (wordLegal_encMask r (by decide) (by omega)) (by simp [hact, Seq.setS_stays])
    rw [hexec, hpost]
    simp [hact]
  · have hexec : exec (.mpop p r) s = .next (vecOp s p (encMask 10 r) (fun q =>
        if q.act == 0 then (q, {}) else (q.setS r.vd.toNat (BitVec.ofNat 64 (setActive q r).length), {}))) := rfl
    have hpost := vecOp_atWord (act := fun q =>
        if q.act == 0 then (q, {}) else (q.setS r.vd.toNat (BitVec.ofNat 64 (setActive q r).length), {})) h
      (wordLegal_encMask r (by decide) (by omega)) (by simp [hact, Seq.setS_stays])
    rw [hexec, hpost]
    simp [hact, setActive_eq]
  · refine ⟨_, congrArg Host.Outcome.next (vecOp_atWord h (wordLegal_encMask r (by decide) (by omega)) (Seq.setM_stays _ _ _)),
      fun i hi => ?_⟩
    rw [getLsbD_lowMask hi, decide_eq_true_eq]
    omega

end Sys2Proof.Machine
end

section
/-! PROOF. VCVT into a 6-bit format at an ACT that no SHAPE sets (spec/06 R159, R164, R166). -/

namespace Sys2Proof.Machine

open Sys2Proof.Tests

/-- One element of `mapGroup`, with what it raised. -/
def groupStep (f : Fmt) (vd : Nat) (op : Nat → Res) (a : Seq × Tally) (i : Nat) : Seq × Tally :=
  (setGroup a.1 f vd i (op i).bits, tallyAdd a.2 (resTally (op i)))

theorem mapGroup_eq (q : Seq) (f : Fmt) (vd : Nat) (l : List Nat) (op : Nat → Res) :
    mapGroup q f vd l op = l.foldl (groupStep f vd op) (q, {}) := rfl

/-- Group elements written one by one change vector registers alone. -/
theorem mapGroup_only (q : Seq) (f : Fmt) (vd : Nat) (l : List Nat) (op : Nat → Res) :
    VregOnly q (mapGroup q f vd l op).1 := by
  rw [mapGroup_eq]
  induction l using List.reverseRecOn with
  | nil => exact .refl q
  | append_singleton l i ih =>
    rw [List.foldl_append]
    exact ih.setV _ _

/-- The registers that an instruction leaves as it posts. -/
theorem seq_postedAs (s : State) (p : Nat) (g : Prog) (q : Seq) (t : Tally) :
    (postedAs s p g q t).seq p = { q with pc := q.pc + 4 } := by
  obtain ⟨l, hl⟩ := opTally_eq s g.slot t none
  rw [postedAs, hl _ (by rfl)]
  simp [State.seq, State.clu, State.setClu]

/-- The element that `mapGroup` writes last. -/
theorem elemAt_mapGroup_last (q : Seq) (f : Fmt) (vd : Nat) (l : List Nat) (i : Nat) (op : Nat → Res)
    (hi : i % laneCap f < laneCap f) :
    elemAt f ((mapGroup q f vd (l ++ [i]) op).1.v (vd + i / laneCap f)) (i % laneCap f) = (op i).bits % 2 ^ fmtBits f := by
  rw [mapGroup_eq, List.foldl_append]
  simp only [List.foldl_cons, List.foldl_nil, groupStep, setGroup, Seq.v_setV_same, elemAt_setElem _ _ _ hi, if_true]

/-- VCVT of v0 into e3m2 at v1. -/
def longConv : VConv := ⟨⟨1, 0, 0, false, 0⟩, 6, 0, false, false⟩

/-- f64 registers, all zero but v3, with an ACT of 1,365: one more than two e3m2 registers hold. -/
def longRegs : Seq := { prog := some prog0, act := 1365, vreg := [(3, 1)] }

theorem longConv_atWord : AtWord (run (encConv longConv) longRegs) 0 prog0 (encConv longConv) :=
  run_at _ _ (by decide) rfl rfl rfl

theorem activeList_longConv : activeList longRegs longConv.r = List.range 1364 ++ [1364] := by decide +kernel

/-- Element 1,364 goes to lane 0 of v3. -/
theorem elemAt_longConv :
    elemAt .e3m2 ((mapGroup longRegs .e3m2 1 (activeList longRegs longConv.r) (convLane longRegs longConv)).1.v 3) 0 = 0 := by
  have hlast := elemAt_mapGroup_last longRegs .e3m2 1 (List.range 1364) 1364 (convLane longRegs longConv) (by decide)
  have hvalue : (convLane longRegs longConv 1364).bits = 0 := by decide +kernel
  rw [hvalue] at hlast
  rw [activeList_longConv]
  exact hlast

/-- What VCVT leaves of the registers, and what it raised. -/
def convAct (a : VConv) (q : Seq) : Seq × Tally :=
  let r := mapGroup q (fmtOr a.fmtD.toNat) a.r.vd.toNat (activeList q a.r) (convLane q a)
  let c := if a.cap && q.act != 0 then capture q a else q
  ({ r.1 with
      capMax := c.capMax, capSqerr := c.capSqerr, capCount := c.capCount,
      srPos := if a.rm.toNat == 2 then q.srPos + BitVec.ofNat 64 q.act else q.srPos }, r.2)

theorem exec_vcvt (p : PClu) (a : VConv) (s : State) :
    exec (.vcvt p a) s = .next (vecOp s p (encConv a) (convAct a)) := rfl

theorem convAct_v (a : VConv) (q : Seq) (v : Nat) : (convAct a q).1.v v =
    (mapGroup q (fmtOr a.fmtD.toNat) a.r.vd.toNat (activeList q a.r) (convLane q a)).1.v v := rfl

theorem convAct_stays (a : VConv) (q : Seq) : StaysAt q (convAct a q).1 := by
  obtain ⟨hpc, hwait, hresuming⟩ :=
    (mapGroup_only q (fmtOr a.fmtD.toNat) a.r.vd.toNat (activeList q a.r) (convLane q a)).stays
  exact ⟨hpc, hwait, hresuming⟩

theorem exec_vcvt_atWord {s : State} {p : PClu} {g : Prog} {a : VConv} (h : AtWord s p g (encConv a))
    (hlegal : wordLegal (s.seq p) (encConv a) = true) :
    exec (.vcvt p a) s = .next (postedAs s p g (convAct a (s.seq p)).1 (convAct a (s.seq p)).2) := by
  rw [exec_vcvt, vecOp_atWord h hlegal (convAct_stays a _)]

/-- Two states that an instruction leaves agree in the vector registers that it left. -/
theorem v_of_postedAs_eq {s : State} {p : Nat} {g : Prog} {q r : Seq} {t u : Tally}
    (h : postedAs s p g q t = postedAs s p g r u) (v : Nat) : q.v v = r.v v := by
  have hvreg := congrArg (fun x => (State.seq x p).vreg) h
  simp only [seq_postedAs] at hvreg
  rw [Seq.v, Seq.v, hvreg]

/-- Settles O7 (refutes it): e3m2 elements do not fill a register, so that 1,365 of them reach a third register, of which the
statement's ⌈1,365 × 6 / 4,096⌉ = 2 says that it keeps its bits. No SHAPE sets such an ACT, but the statement is about
every state. -/
theorem not_conversions : ¬ Obligations.Conversions := by
  unfold Obligations.Conversions
  rintro ⟨-, hconv⟩
  have hseq : (run (encConv longConv) longRegs).seq ((0 : PClu) : Nat) = longRegs := rfl
  have hlegal : wordLegal longRegs (encConv longConv) = true := by decide +kernel
  obtain ⟨q, t, hexec, -, -, -, -, hothers, -⟩ := hconv (run (encConv longConv) longRegs) 0 prog0 longConv longRegs .e3m2
    hseq.symm rfl longConv_atWord (by decide +kernel) _ _ rfl rfl
  rw [exec_vcvt_atWord longConv_atWord (by rw [hseq]; exact hlegal), hseq] at hexec
  have hkeeps : q.v 3 = longRegs.v 3 := hothers 3 (by decide +kernel)
  have hwrites : (convAct longConv longRegs).1.v 3 = q.v 3 :=
    v_of_postedAs_eq (Host.Outcome.next.inj hexec) 3
  have hone : elemAt .e3m2 (longRegs.v 3) 0 = 1 := by decide +kernel
  rw [← hkeeps, ← hwrites, convAct_v] at hone
  exact absurd (elemAt_longConv.symm.trans hone) (by decide)

end Sys2Proof.Machine
end

section
/-! PROOF. Programs that end in error, and reductions (spec/06 R162, R169, R170; spec/04 R105, R110 to R112). -/

namespace Sys2Proof.Machine

open Sys2Proof.Tests

/-! ## The end of a program in error (R15, R162) -/

/-- The sequencer after its program ended. -/
def Seq.dropped (q : Seq) : Seq :=
  { q with prog := none, wait := .none, inHandler := false, resuming := false, resume := 0, ran := true }

/-- What the end of a program in error leaves: its operation has ended, and the cluster has its registers still. -/
theorem endProgram_of_runs {s : State} {p : Nat} {g : Prog} {o : Op} (hprog : (s.seq p).prog = some g)
    (hwait : (s.seq p).wait = .none) (ho : OpRuns s g.slot o) (status detail : Nat) :
    (endProgram s p status detail).clu p = { s.clu p with seq := (s.seq p).dropped } ∧
    (endProgram s p status detail).store = s.store ∧ EndedIn (endProgram s p status detail) g.slot o status detail := by
  have hdrop : dropProgram s p = (touchIdle s g.lclu).setSeq p (s.seq p).dropped := by
    simp [dropProgram, hprog, hwait, waitTags, Seq.dropped]
  have hend : endProgram s p status detail = opFail (dropProgram s p) g.slot status detail := by
    simp [endProgram, hprog]
  have hended := opFail_ended (dropProgram s p) g.slot status detail
  have hop : OpRuns (dropProgram s p) g.slot o := by
    rw [hdrop]
    exact ho
  rw [hend]
  refine ⟨?_, ?_, opFail_endedIn hop status detail⟩
  · rw [State.clu, hended.core, hdrop, ← State.clu, State.clu_setSeq_same]
    rfl
  · rw [hended.store, hdrop]
    rfl

section
variable {s : State} {p : PClu} {g : Prog} {w : Nat} {act : Seq → Except (Nat × Nat) (Seq × Tally)}

/-- An instruction whose operands it takes up. -/
theorem checkedOp_ok {r : Seq × Tally} (h : AtWord s p g w) (hlegal : wordLegal (s.seq p) w = true)
    (hact : act (s.seq p) = .ok r) (hq : StaysAt (s.seq p) r.1) :
    checkedOp s p w act = .next (postedAs s p g r.1 r.2) := by
  rw [checkedOp, issue_whole h hlegal, hact, ← retire_vecPost r.2 h hq]

/-- An instruction whose operands end its program. -/
theorem checkedOp_error {status detail : Nat} {o : Op} (h : AtWord s p g w) (ho : OpRuns s g.slot o)
    (hlegal : wordLegal (s.seq p) w = true) (hact : act (s.seq p) = .error (status, detail)) :
    ∃ t, checkedOp s p w act = .next t ∧ (t.seq p).prog = none ∧ (t.seq p).vreg = (s.seq p).vreg ∧
      EndedIn t g.slot o status detail := by
  obtain ⟨hclu, -, hended⟩ := endProgram_of_runs h.runs h.ready ho status detail
  refine ⟨endProgram s p status detail, by rw [checkedOp, issue_whole h hlegal, hact], ?_, ?_, hended⟩
  all_goals rw [State.seq, hclu]
  all_goals rfl

end

/-! ## Bytes of a register -/

theorem bytesOfNat_natOfBytes (l : List Byte) : bytesOfNat l.length (natOfBytes l) = l := by
  induction l with
  | nil => rfl
  | cons b t ih =>
    have hb : b.toNat < 256 := b.isLt
    have hdiv : (b.toNat + 256 * natOfBytes t) / 256 = natOfBytes t := by omega
    have hlow : BitVec.ofNat 8 (b.toNat + 256 * natOfBytes t) = b := by
      apply BitVec.eq_of_toNat_eq
      rw [BitVec.toNat_ofNat]
      omega
    simp only [List.length_cons, bytesOfNat, natOfBytes, hdiv, hlow, ih]

/-- Only the low bits of a number reach its bytes. -/
theorem bytesOfNat_congr (k : Nat) {m n : Nat} (h : m % 256 ^ k = n % 256 ^ k) : bytesOfNat k m = bytesOfNat k n := by
  induction k generalizing m n with
  | zero => rfl
  | succ k ih =>
    have hlow : m % 256 = n % 256 := by
      have hm := Nat.mod_mod_of_dvd m (Dvd.intro_left (256 ^ k) (Nat.pow_succ 256 k).symm)
      have hn := Nat.mod_mod_of_dvd n (Dvd.intro_left (256 ^ k) (Nat.pow_succ 256 k).symm)
      rw [← hm, h, hn]
    have hhigh : m / 256 % 256 ^ k = n / 256 % 256 ^ k := by
      rw [Nat.pow_succ, Nat.mul_comm] at h
      rw [← Nat.mod_mul_right_div_self, ← Nat.mod_mul_right_div_self, h]
    rw [bytesOfNat, bytesOfNat, ih hhigh]
    congr 1
    apply BitVec.eq_of_toNat_eq
    rw [BitVec.toNat_ofNat, BitVec.toNat_ofNat]
    exact hlow

theorem redBody_length (r : RedRec) : (redBody r).length = 60 := by simp [redBody, bytesOfNat_length]
theorem redBytes_length (r : RedRec) : (redBytes r).length = 64 := by simp [redBytes, redBody_length, bytesOfNat_length]

theorem putField_lt {v lo n x m : Nat} (hv : v < 2 ^ m) (h : lo + n ≤ m) : putField v lo n x < 2 ^ m := by
  refine Nat.lt_pow_two_of_testBit _ fun j hj => ?_
  rw [testBit_putField, if_neg (by omega)]
  exact Nat.testBit_lt_two_pow (Nat.lt_of_lt_of_le hv (Nat.pow_le_pow_right (by decide) hj))

/-- A number after its low bits were replaced. -/
theorem putField_zero (v n x : Nat) : putField v 0 n x = 2 ^ n * (v / 2 ^ n) + x % 2 ^ n := by
  simp [putField_eq, Nat.mod_one]

theorem putField_zero_div (v n x : Nat) : putField v 0 n x / 2 ^ n = v / 2 ^ n := by
  rw [putField_zero, Nat.mul_add_div (Nat.two_pow_pos n), Nat.div_eq_of_lt (Nat.mod_lt _ (Nat.two_pow_pos n)), Nat.add_zero]

theorem bytesOfNat_putField (v : Nat) (l : List Byte) :
    bytesOfNat l.length (putField v 0 (8 * l.length) (natOfBytes l)) = l := by
  have hpow : 256 ^ l.length = 2 ^ (8 * l.length) := (Nat.pow_mul 2 8 l.length).symm
  have hlow : putField v 0 (8 * l.length) (natOfBytes l) % 256 ^ l.length = natOfBytes l % 256 ^ l.length := by
    rw [putField_zero, hpow, Nat.mul_add_mod, Nat.mod_mod]
  rw [bytesOfNat_congr _ hlow, bytesOfNat_natOfBytes]

theorem toNat_ofNat_putField {m lo n x : Nat} (v : BitVec m) (h : lo + n ≤ m) :
    (BitVec.ofNat m (putField v.toNat lo n x)).toNat = putField v.toNat lo n x := by
  rw [BitVec.toNat_ofNat, Nat.mod_eq_of_lt (putField_lt v.isLt h)]

theorem toNat_putRegBytes {v : VReg} {off : Nat} {l : List Byte} (h : 8 * off + 8 * l.length ≤ 4096) :
    (putRegBytes v off l).toNat = putField v.toNat (8 * off) (8 * l.length) (natOfBytes l) := by
  exact toNat_ofNat_putField v h

/-- Bytes put at the start of a register are read there. -/
theorem regBytes_putRegBytes (v : VReg) {l : List Byte} (hl : l.length = 64) : regBytes (putRegBytes v 0 l) 0 = l := by
  have hbytes := bytesOfNat_putField v.toNat l
  rw [regBytes, toNat_putRegBytes (by omega), Nat.mul_zero, Nat.pow_zero, Nat.div_one]
  rwa [hl] at hbytes ⊢

/-- They leave what follows them. -/
theorem putRegBytes_div (v : VReg) {l : List Byte} {n : Nat} (hn : 8 * l.length = n) (hle : n ≤ 4096) :
    (putRegBytes v 0 l).toNat / 2 ^ n = v.toNat / 2 ^ n := by
  subst hn
  rw [toNat_putRegBytes (by omega), putField_zero_div]

/-- Put into an empty register they are all of it. -/
theorem putRegBytes_empty_lt {l : List Byte} {n : Nat} (hn : 8 * l.length = n) (hle : n ≤ 4096) :
    (putRegBytes 0 0 l).toNat < 2 ^ n := by
  subst hn
  rw [toNat_putRegBytes (by omega)]
  refine putField_lt ?_ (by omega)
  rw [BitVec.ofNat_eq_ofNat, BitVec.toNat_zero]
  exact Nat.two_pow_pos _

end Sys2Proof.Machine
end

section
/-! PROOF. REDINIT, REDACC, REDFIN and REDFOLD (spec/06 R169, R170; spec/04 R105, R110 to R112). -/

namespace Sys2Proof.Machine

open Sys2Proof.Tests

/-! ## Registers and groups of one element -/

theorem Seq.setV_only (q : Seq) (r : Nat) (x : VReg) : VregOnly q (q.setV r x) := (VregOnly.refl q).setV r x

theorem Seq.setV_stays (q : Seq) (r : Nat) (x : VReg) : StaysAt q (q.setV r x) := (Seq.setV_only q r x).stays

theorem laneCap_pos (f : Fmt) : 0 < laneCap f := by cases f <;> decide

theorem groupRegs_laneCap (f : Fmt) : groupRegs f (laneCap f) = 1 := by cases f <;> decide

theorem groupAt_of_lt {q : Seq} {f : Fmt} {vd i : Nat} (h : i < laneCap f) : groupAt q f vd i = elemAt f (q.v vd) i := by
  rw [groupAt, Nat.div_eq_of_lt h, Nat.mod_eq_of_lt h, Nat.add_zero]

/-- A register in which element 0 alone was written. -/
theorem groupBecomes_setElem_zero (q : Seq) (f : Fmt) (vd x : Nat) :
    GroupBecomes q (q.setV vd (setElem f (q.v vd) 0 x)) f vd (laneCap f) [0] (fun _ => x) := by
  rw [GroupBecomes, groupRegs_laneCap]
  refine ⟨fun v hv => Seq.v_setV_ne _ _ (by omega), fun i hi => ?_⟩
  have hlt : i < laneCap f := by omega
  rw [groupAt_of_lt hlt, groupAt_of_lt hlt, Seq.v_setV_same, elemAt_setElem _ _ _ hlt]
  simp [eq_comm]

/-! ## Records taken from a register -/

theorem takeRec_bad {l : List Byte} {k : Nat} (h : redCheckOk l = false) :
    takeRec l k = .error (stSeal, recDetail (redOfBytes l)) := by
  simp [takeRec, h]

theorem takeRec_wrong {l : List Byte} {k : Nat} (h : redCheckOk l = true) (hk : recOk (redOfBytes l) k = false) :
    takeRec l k = .error (stStruct, recDetail (redOfBytes l)) := by
  simp [takeRec, h, hk]

theorem takeRec_sound {l : List Byte} {k : Nat} (h : redCheckOk l = true) (hk : recOk (redOfBytes l) k = true) :
    takeRec l k = .ok (redOfBytes l) := by
  simp [takeRec, h, hk]

theorem recOk_kind {r : RedRec} {k : Nat} (h : recOk r k = true) : r.kind = k := by
  simp only [recOk, Bool.and_eq_true, beq_iff_eq] at h
  exact h.1.1.1.1.1

/-! ## REDACC -/

/-- What a REDACC does with the record in vd. -/
def redAccAct (a : VRed) (wideOnly : Bool) (f : Val → Val → Val × Bool) (q : Seq) : Except (Nat × Nat) (Seq × Tally) :=
  if q.act == 0 then .ok (q, {})
  else match takeRec (regBytes (q.v a.r.vd.toNat) 0) 0 with
    | .error e => .error e
    | .ok r =>
      if !redTakes q r || r.fmt != q.efmt || (wideOnly && r.accF == 0) then .error (stStruct, recDetail r)
      else .ok (q.setV a.r.vd.toNat (putRegBytes (q.v a.r.vd.toNat) 0
        (redBytes (redAdvance (recRow r) q.satWide r (redTerms q a f)))), {})

theorem exec_redAccRow : ∀ e ∈ redAccRows.zipIdx, ∀ (p : PClu) (a : VRed) (s : State),
    exec (e.1.1 p a) s = checkedOp s p (encRed (e.2 + 1) a) (redAccAct a e.1.2.1 e.1.2.2) := by
  simp only [redAccRows, List.zipIdx_cons, List.zipIdx_nil, List.forall_mem_cons,
    List.not_mem_nil, false_imp_iff, implies_true, and_true, Nat.zero_add, Nat.reduceAdd]
  refine ⟨?_, ?_, ?_⟩
  all_goals exact fun _ _ _ => rfl

/-- Whether a REDACC takes up a record. -/
theorem redAccAct_takes {a : VRed} {wideOnly : Bool} {f : Val → Val → Val × Bool} {q : Seq} {r : RedRec}
    (hact : q.act ≠ 0) (hr : takeRec (regBytes (q.v a.r.vd.toNat) 0) 0 = .ok r) (hlen : r.next + q.act ≤ r.len)
    (hgroup : q.act % (recRow r).g = 0 ∨ r.next + q.act = r.len) (hfmt : r.fmt = q.efmt)
    (hwide : wideOnly = true → r.accF ≠ 0) :
    redAccAct a wideOnly f q = .ok (q.setV a.r.vd.toNat (putRegBytes (q.v a.r.vd.toNat) 0
        (redBytes (redAdvance (recRow r) q.satWide r (redTerms q a f)))), {}) := by
  have htakes : redTakes q r = true := by simpa [redTakes, hlen] using hgroup
  have hw : (wideOnly && r.accF == 0) = false := by
    cases wideOnly
    · rfl
    · simpa using hwide rfl
  simp only [redAccAct, hr, htakes, hfmt, hw, bne_self_eq_false, beq_iff_eq, hact, if_false, Bool.not_true, Bool.or_self,
    Bool.false_eq_true]

/-- A record that a REDACC may not take up. -/
theorem redAccAct_refuses {a : VRed} {wideOnly : Bool} {f : Val → Val → Val × Bool} {q : Seq} {r : RedRec}
    (hr : r = redOfBytes (regBytes (q.v a.r.vd.toNat) 0)) (hact : q.act ≠ 0)
    (hcheck : redCheckOk (regBytes (q.v a.r.vd.toNat) 0) = true)
    (hbad : r.len < r.next + q.act ∨ r.fmt ≠ q.efmt ∨ r.kind ≠ 0 ∨ (wideOnly = true ∧ r.accF = 0)) :
    redAccAct a wideOnly f q = .error (stStruct, recDetail r) := by
  subst hr
  have ha : (q.act == 0) = false := by simpa using hact
  rw [redAccAct, ha]
  cases hok : recOk (redOfBytes (regBytes (q.v a.r.vd.toNat) 0)) 0 with
  | false => simp only [takeRec_wrong hcheck hok, Bool.false_eq_true, if_false]
  | true =>
    rw [takeRec_sound hcheck hok]
    generalize redOfBytes (regBytes (q.v a.r.vd.toNat) 0) = r at hbad hok ⊢
    have hrefused : (!redTakes q r || r.fmt != q.efmt || (wideOnly && r.accF == 0)) = true := by
      rcases hbad with hlen | hfmt | hkind | ⟨hwide, hacc⟩
      · simp [redTakes, Nat.not_le.mpr hlen]
      · simp [hfmt]
      · exact absurd (recOk_kind hok) hkind
      · simp [hwide, hacc]
    simp only [hrefused, Bool.false_eq_true, if_false, if_true]

/-! ## REDFIN and REDFOLD -/

/-- What REDFIN does with the record in vs1. -/
def redfinAct (a : VRed) (q : Seq) : Except (Nat × Nat) (Seq × Tally) :=
  match takeRec (regBytes (q.v a.r.vs1.toNat) 0) 0 with
  | .error e => .error e
  | .ok r =>
    let d := fmtOr a.fmtD.toNat
    if r.next != r.len then .error (stStruct, recDetail r)
    else if d = .pair ∧ (recRow r).spill ≠ .pair then .error (stStruct, detail2 0xFFFFFF0A q.pc)
    else
      let x := redFinish (recRow r) d .rne q.satWide r
      .ok (q.setV a.r.vd.toNat (setElem d (q.v a.r.vd.toNat) 0 x.bits), resTally x)

theorem redfinAct_finishes {a : VRed} {q : Seq} {r : RedRec} (hr : takeRec (regBytes (q.v a.r.vs1.toNat) 0) 0 = .ok r)
    (hnext : r.next = r.len) (hpair : fmtOr a.fmtD.toNat ≠ .pair) :
    redfinAct a q = .ok (q.setV a.r.vd.toNat (setElem (fmtOr a.fmtD.toNat) (q.v a.r.vd.toNat) 0
        (redFinish (recRow r) (fmtOr a.fmtD.toNat) .rne q.satWide r).bits),
      resTally (redFinish (recRow r) (fmtOr a.fmtD.toNat) .rne q.satWide r)) := by
  simp [redfinAct, hr, hnext, hpair]

/-- What REDFOLD does with the leading record in vd and the run record in vs1. -/
def redfoldAct (a : VRed) (q : Seq) : Except (Nat × Nat) (Seq × Tally) :=
  if q.act == 0 then .ok (q, {})
  else match takeRec (regBytes (q.v a.r.vd.toNat) 0) 0, takeRec (regBytes (q.v a.r.vs1.toNat) 0) 1 with
    | .error e, _ => .error e
    | _, .error e => .error e
    | .ok r, .ok t =>
      if r.fmt != t.fmt || r.accF != t.accF || r.len != t.len || r.opId != t.opId || r.element != t.element ||
          r.accValid || !t.accValid || t.next == 0 || r.next != runStart t.next then .error (stStruct, recDetail t)
      else
        let n := redFoldAcc (recRow r) q.satWide
          { r with next := t.next, satSeen := r.satSeen || t.satSeen, fl := flagsOr r.fl t.fl } t.accHi t.accLo
        .ok (q.setV a.r.vd.toNat (putRegBytes (q.v a.r.vd.toNat) 0 (redBytes n)), {})

theorem exec_redfin (p : PClu) (a : VRed) (s : State) :
    exec (.redfin p a) s = checkedOp s p (encRed 4 a) (redfinAct a) := rfl

theorem exec_redfold (p : PClu) (a : VRed) (s : State) :
    exec (.redfold p a) s = checkedOp s p (encRed 5 a) (redfoldAct a) := rfl

theorem exec_redinit (p : PClu) (a : VRed) (s : State) : exec (.redinit p a) s = .next (vecOp s p (encRed 0 a) (fun q =>
    (q.setV a.r.vd.toNat (putRegBytes 0 0 (redBytes (initRec q a.r a.low))), {}))) := rfl

/-- The instruction's legality is that of class 0x9. -/
theorem wordLegal_encRed (q : Seq) {op : Nat} (a : VRed) (hop : op < 15) :
    wordLegal q (encRed op a) = legalRed (encRed op a) q.efmt := by
  have hfmt := a.fmtD.isLt
  have hlow : boolNat a.low < 2 := by cases a.low <;> decide
  have hcls : encRed op a / 2 ^ 28 = 9 := (encVec_fields 9 a.r (by omega)).1
  simp only [wordLegal, hcls]

/-! ## The statement -/

/-- Settles O8: the instructions take a sound record up as stated, and end the program at an unsound one. -/
theorem reductions : Obligations.Reductions := by
  unfold Obligations.Reductions
  refine ⟨fun s p g a q0 d s1 hq0 hd hs1 => ?_, fun s p g a o q0 r hq0 ho hr hact e he h hlegal => ?_⟩
  · subst hq0 hd hs1
    refine ⟨fun h hlegal => ?_, fun e he h hlegal hact r hr hlen hgroup hfmt hwide => ?_,
      fun h hlegal r hr hnext hpair => ?_, fun h hlegal hact r t hr ht hfmt hacc hlen hop helem hvalid htvalid hpos hrun => ?_⟩
    · rw [← wordLegal_encRed _ _ (by decide)] at hlegal
      refine ⟨putRegBytes 0 0 (redBytes (initRec (s.seq p) a.r a.low)), ?_, putRegBytes_empty_lt (by rw [redBytes_length]) (by decide),
        regBytes_putRegBytes _ (redBytes_length _)⟩
      rw [exec_redinit, vecOp_atWord h hlegal (Seq.setV_stays _ _ _)]
    · have hop : e.2 < 3 := zipIdx_lt _ e he
      rw [← wordLegal_encRed _ _ (by omega)] at hlegal
      refine ⟨_, ?_, putRegBytes_div _ (by rw [redBytes_length]) (by decide), regBytes_putRegBytes _ (redBytes_length _)⟩
      rw [exec_redAccRow e he,
        checkedOp_ok h hlegal (redAccAct_takes hact hr hlen hgroup hfmt hwide) (Seq.setV_stays _ _ _)]
      rfl
    · rw [← wordLegal_encRed _ _ (by decide)] at hlegal
      refine ⟨_, ?_, ?_, groupBecomes_setElem_zero _ _ _ _⟩
      · rw [exec_redfin, checkedOp_ok h hlegal (redfinAct_finishes hr hnext hpair) (Seq.setV_stays _ _ _)]
      · exact Seq.setV_only _ _ _
    · rw [← wordLegal_encRed _ _ (by decide)] at hlegal
      have hfold : redfoldAct a (s.seq p) = .ok ((s.seq p).setV a.r.vd.toNat (putRegBytes ((s.seq p).v a.r.vd.toNat) 0
          (redBytes (redFoldAcc (recRow r) (s.seq p).satWide
            { r with next := t.next, satSeen := r.satSeen || t.satSeen, fl := flagsOr r.fl t.fl } t.accHi t.accLo))), {}) := by
        simp [redfoldAct, hact, hr, ht, hfmt, hacc, hlen, hop, helem, hvalid, htvalid, Nat.pos_iff_ne_zero.mp hpos, hrun, runStart]
      refine ⟨_, ?_, putRegBytes_div _ (by rw [redBytes_length]) (by decide), regBytes_putRegBytes _ (redBytes_length _)⟩
      rw [exec_redfold, checkedOp_ok h hlegal hfold (Seq.setV_stays _ _ _)]
  · subst hq0
    have hop : e.2 < 3 := zipIdx_lt _ e he
    rw [← wordLegal_encRed _ _ (by omega)] at hlegal
    rw [exec_redAccRow e he]
    refine ⟨fun hcheck => ?_, fun hcheck hbad => ?_⟩
    · have hseal : redAccAct a e.1.2.1 e.1.2.2 (s.seq p) = .error (stSeal, recDetail r) := by
        simp [redAccAct, hact, takeRec_bad hcheck, hr]
      exact checkedOp_error h ho hlegal hseal
    · exact checkedOp_error h ho hlegal (redAccAct_refuses hr hact hcheck hbad)

end Sys2Proof.Machine
end

section
/-! PROOF. The window accumulator's instructions on registers (spec/06 R173, R174; spec/04 R119, R121, R122, R126). -/

namespace Sys2Proof.Machine

open Sys2Proof.Tests

/-! ## Retirement with a changed cluster -/

section
variable {s : State} {p : Nat} {g : Prog} {w : Nat}

theorem retire_setClu {c : Clu} (h : AtWord s p g w) (hc : StaysAt (s.seq p) c.seq) :
    retire (s.setClu p c) p = s.setClu p { c with seq := { c.seq with pc := c.seq.pc + 4 } } := by
  have hseq : (s.setClu p c).seq p = c.seq := by rw [State.seq, State.clu_setClu_same]
  rw [retire_atWord h (by rw [hseq, hc.pc]) (by rw [hseq, hc.wait, h.ready]) (by rw [hseq, hc.resuming, h.fresh]),
    retiredAs, hseq, State.setSeq, State.clu_setClu_same]
  simp

theorem retire_setWin (h : AtWord s p g w) (x : Win) : retire (setWin s p x) p = s.setClu p { s.clu p with
    seq := { (s.clu p).seq with pc := (s.clu p).seq.pc + 4 }, win := x } :=
  retire_setClu (c := { s.clu p with win := x }) h (.refl _)

theorem retire_vecPost_setClu {c : Clu} (t : Tally) (h : AtWord s p g w) (hc : StaysAt (s.seq p) c.seq) :
    retire (vecPost (s.setClu p c) p g.slot t) p =
      opTally (s.setClu p { c with ve := arithPost c.ve t, seq := { c.seq with pc := c.seq.pc + 4 } }) g.slot t none := by
  obtain ⟨l, hl⟩ := opTally_eq s g.slot t none
  rw [vecPost, hl _ (by rfl), hl _ (by rfl), retire_atWord h]
  · simp [retiredAs, State.setSeq, State.seq, State.setClu, State.clu]
  · simpa [State.seq, State.clu, State.setClu, State.setSeq] using hc.pc
  · simpa [State.seq, State.clu, State.setClu, State.setSeq] using hc.wait.trans h.ready
  · simpa [State.seq, State.clu, State.setClu, State.setSeq] using hc.resuming.trans h.fresh

end

/-- Posting to an operation leaves the clusters alone. -/
theorem clu_opTally (s : State) (slot : Nat) (t : Tally) (x : Option Nat) (p : Nat) : (opTally s slot t x).clu p = s.clu p := by
  obtain ⟨l, hl⟩ := opTally_eq s slot t x
  rw [hl s rfl]
  rfl

/-! ## Words of class 0xD -/

theorem wordLegal_encWin (q : Seq) {op : Nat} (a : VWin) (hop : op < 8) :
    wordLegal q (encWin op a) = legalWin (encWin op a) := by
  have hlow := a.low.isLt
  have hcls : encWin op a / 2 ^ 28 = 13 := (encVec_fields 13 a.r (by omega)).1
  simp only [wordLegal, hcls]

/-! ## WACC and WACC1 -/

theorem firstRefused_eq_none {base : Int} {l : List Term} {i : Nat} (h : ∀ x ∈ l, winRefuses base x.1 = false) :
    firstRefused base l i = none := by
  induction l generalizing i with
  | nil => rfl
  | cons x l ih =>
    rw [List.forall_mem_cons] at h
    simp only [firstRefused, h.1, Bool.false_eq_true, if_false, ih h.2]

theorem firstRefused_isSome {base : Int} {l : List Term} {i : Nat} (h : ∃ x ∈ l, winRefuses base x.1 = true) :
    ∃ k v, firstRefused base l i = some (k, v) := by
  induction l generalizing i with
  | nil => simp at h
  | cons x l ih =>
    rw [firstRefused]
    split
    · exact ⟨_, _, rfl⟩
    next hx =>
      refine ih ?_
      simpa [hx] using h

/-- Flags and counts that admitted terms raise. -/
def winRaised (terms : List Term) : Tally :=
  { fl := ⟨terms.any (fun x => x.2), false, false, false⟩, nonfin := (terms.filter (fun x => !valFinite x.1)).length }

section
variable {s : State} {p : PClu} {g : Prog} {op : Nat} {a : VWin} {f : Val → Val → Val × Bool}

theorem windowAdd_admits (h : AtWord s p g (encWin op a)) (hlegal : wordLegal (s.seq p) (encWin op a) = true)
    (hall : ∀ x ∈ winTerms (s.seq p) a.r f, winRefuses (s.clu p).win.base x.1 = false) :
    windowAdd s p op a f = .next (opTally (s.setClu p { s.clu p with
      win := (winTerms (s.seq p) a.r f).foldl (fun w x => winAdmit w x.1) (s.clu p).win,
      ve := arithPost (s.clu p).ve (winRaised (winTerms (s.seq p) a.r f)),
      seq := { s.seq p with pc := (s.seq p).pc + 4 } }) g.slot (winRaised (winTerms (s.seq p) a.r f)) none) := by
  have hfirst : firstRefused (s.clu p).win.base (winTerms (s.clu p).seq a.r f) 0 = none := firstRefused_eq_none hall
  rw [windowAdd, issue_whole h hlegal]
  simp only [hfirst]
  exact congrArg Host.Outcome.next (retire_vecPost_setClu (c := { s.clu p with
    win := (winTerms (s.seq p) a.r f).foldl (fun w x => winAdmit w x.1) (s.clu p).win }) _ h (.refl _))

theorem windowAdd_refuses {o : Op} (h : AtWord s p g (encWin op a)) (hlegal : wordLegal (s.seq p) (encWin op a) = true)
    (ho : OpRuns s g.slot o) (hbad : ∃ x ∈ winTerms (s.seq p) a.r f, winRefuses (s.clu p).win.base x.1 = true) :
    ∃ t d, windowAdd s p op a f = .next t ∧ (t.clu p).win = { (s.clu p).win with overflow := true } ∧
      EndedIn t g.slot o stWinOvf d := by
  obtain ⟨k, v, hfirst⟩ := firstRefused_isSome (i := 0) hbad
  change firstRefused (s.clu p).win.base (winTerms (s.clu p).seq a.r f) 0 = some (k, v) at hfirst
  have hseq : (setWin s p { (s.clu p).win with overflow := true }).seq p = s.seq p := by
    rw [setWin, State.seq, State.clu_setClu_same]
    rfl
  have hprog := h.runs
  have hwait := h.ready
  rw [← hseq] at hprog hwait
  obtain ⟨hclu, -, hended⟩ := endProgram_of_runs hprog hwait (o := o) ho stWinOvf
    (detail2 k (unsignedOf 16 ((valExp v).getD 0) + 2 ^ 16 * unsignedOf 16 (s.clu p).win.base))
  refine ⟨_, _, ?_, ?_, hended⟩
  · rw [windowAdd, issue_whole h hlegal]
    simp only [hfirst]
  · rw [hclu, setWin, State.clu_setClu_same]

end

/-! ## WRD, WCLR, WBOUND and WBASE -/

section
variable {s : State} {p : PClu} {g : Prog} {a : VWin}

theorem exec_wrd_atWord {f : Fmt} (h : AtWord s p g (encWin 2 a)) (hlegal : wordLegal (s.seq p) (encWin 2 a) = true)
    (hf : f = if a.low.toNat == 1 then .pair else .f64) :
    exec (.wrd p a) s = .next (postedAs s p g ((s.seq p).setV a.r.vd.toNat (setElem f ((s.seq p).v a.r.vd.toNat) 0
      (roundAny f .rne false (winVal (s.clu p).win)).bits)) (resTally (roundAny f .rne false (winVal (s.clu p).win)))) := by
  subst hf
  change execWrd p a s = _
  rw [execWrd, issue_whole h hlegal, ← retire_vecPost _ h (Seq.setV_stays _ _ _)]
  rfl

theorem exec_wclr_atWord (h : AtWord s p g (encWin 3 a)) (hlegal : wordLegal (s.seq p) (encWin 3 a) = true) :
    exec (.wclr p a) s = .next (s.setClu p { s.clu p with
      seq := { (s.clu p).seq with pc := (s.clu p).seq.pc + 4 }, win := winClear (s.clu p).win }) := by
  change execWclr p a s = _
  rw [execWclr, issue_whole h hlegal, retire_setWin h]

/-- A base of 16 bits that wraps at most once. -/
theorem signedOf_unsignedOf {b : Int} (hlow : -65536 ≤ b) (hhigh : b < 32768) :
    signedOf 16 (unsignedOf 16 b) = if b < -32768 then b + 65536 else b := by
  simp only [signedOf, unsignedOf]
  omega

theorem exec_wbase_atWord {b : Int} (h : AtWord s p g (encWin 5 a)) (hlegal : wordLegal (s.seq p) (encWin 5 a) = true)
    (hb : b = ((s.clu p).seq.s a.r.vs1.toNat).toInt) (hlow : -32768 ≤ b) (hhigh : b ≤ 31000) :
    exec (.wbase p a) s = .next (s.setClu p { s.clu p with
      seq := { (s.clu p).seq with pc := (s.clu p).seq.pc + 4 },
      win := { (s.clu p).win with pending := some (if b = -32768 then -2148
        else if b + a.low.toNat - 959 < -32768 then b + a.low.toNat - 959 + 65536 else b + a.low.toNat - 959) } }) := by
  have hbase : signedOf 16 (unsignedOf 16 (winBase (if b == -32768 then none else some b) a.low.toNat)) =
      if b = -32768 then -2148
      else if b + a.low.toNat - 959 < -32768 then b + a.low.toNat - 959 + 65536 else b + a.low.toNat - 959 := by
    have hlt := a.low.isLt
    by_cases hmin : b = -32768
    · simp [hmin, winBase]
      rfl
    · simp only [beq_iff_eq, hmin, if_false, winBase]
      exact signedOf_unsignedOf (by omega) (by omega)
  change execWbase p a s = _
  rw [execWbase, issue_whole h hlegal]
  simp only [← hb, winPend, hbase]
  rw [retire_setWin h]

end

/-- The bound of a term, when it has one, raises the bound so far. -/
def raiseBound (m : Int) (b : Option Int) : Int := match b with | some x => max m x | none => m

/-- The highest of a start value and the bounds of a list's elements. -/
theorem foldl_raiseBound_spec (l : List Nat) (b : Nat → Option Int) (m : Int) :
    (∀ u, (u = m ∨ ∃ i ∈ l, b i = some u) → u ≤ l.foldl (fun m i => raiseBound m (b i)) m) ∧
    (l.foldl (fun m i => raiseBound m (b i)) m = m ∨ ∃ i ∈ l, b i = some (l.foldl (fun m i => raiseBound m (b i)) m)) := by
  induction l using List.reverseRecOn with
  | nil => simp
  | append_singleton l k ih =>
    obtain ⟨hle, hmem⟩ := ih
    rw [List.foldl_append]
    generalize l.foldl (fun m i => raiseBound m (b i)) m = v at hle hmem
    simp only [List.foldl_cons, List.foldl_nil, raiseBound, List.mem_append, List.mem_singleton]
    cases hk : b k with
    | none =>
      refine ⟨fun u hu => hle u ?_, ?_⟩
      · grind
      · grind
    | some x =>
      refine ⟨?_, ?_⟩
      · rintro u (rfl | ⟨i, hi | rfl, hb⟩)
        · exact le_max_of_le_left (hle u (.inl rfl))
        · exact le_max_of_le_left (hle u (.inr ⟨i, hi, hb⟩))
        · rw [hk, Option.some.injEq] at hb
          exact hb ▸ le_max_right v x
      · rcases max_choice v x with hv | hx
        · simp only [hv]
          exact hmem.imp_right fun ⟨i, hi, hb⟩ => ⟨i, .inl hi, hb⟩
        · simp only [hx]
          exact .inr ⟨k, .inr rfl, hk⟩

/-- The bounds of the active elements' terms. -/
def elemBound (q : Seq) (a : VWin) (i : Nat) : Option Int :=
  termBound (a.low == 1) (decodeVal q.fmt (elemAt q.fmt (q.v a.r.vs1.toNat) i))
    (decodeVal q.fmt (elemAt q.fmt (q.v a.r.vs2.toNat) i))

theorem low_beq_one (a : VWin) : (a.low.toNat == 1) = (a.low == 1) := by
  rw [Bool.eq_iff_iff, beq_iff_eq, beq_iff_eq]
  exact ⟨fun h => BitVec.eq_of_toNat_eq h, fun h => by rw [h]; rfl⟩

theorem exec_wbound_atWord {s : State} {p : PClu} {g : Prog} {a : VWin} (h : AtWord s p g (encWin 4 a))
    (hlegal : wordLegal (s.seq p) (encWin 4 a) = true) (hact : (s.seq p).act ≠ 0) :
    exec (.wbound p a) s = .next (retiredAs s p ((s.seq p).setS a.r.vd.toNat (wrap64 ((activeList (s.seq p) a.r).foldl
      (fun m i => raiseBound m (elemBound (s.seq p) a i)) ((s.seq p).s a.r.vd.toNat).toInt)))) := by
  have hexec : exec (.wbound p a) s = .next (regOp s p wholeWord (encWin 4 a) (fun q =>
      if q.act == 0 then q else q.setS a.r.vd.toNat (wrap64 ((activeList q a.r).foldl
        (fun m i => raiseBound m (termBound (a.low.toNat == 1) (decodeVal q.fmt (elemAt q.fmt (q.v a.r.vs1.toNat) i))
          (decodeVal q.fmt (elemAt q.fmt (q.v a.r.vs2.toNat) i)))) (q.s a.r.vd.toNat).toInt)))) := rfl
  have ha : ((s.seq p).act == 0) = false := by simpa using hact
  rw [hexec, regOp_atWord h hlegal (and_wholeWord h.word_lt)]
  all_goals simp [ha, low_beq_one, elemBound]

/-! ## The statement -/

/-- WACC and WACC1 in OP order, with the terms that they take up. -/
theorem exec_winRow {s : State} {p : PClu} {a : VWin} :
    ∀ e ∈ [(Instr.wacc, valMul), (Instr.wacc1, fun x _ => (x, valIsSig x))].zipIdx,
      e.2 < 2 ∧ exec (e.1.1 p a) s = windowAdd s p e.2 a e.1.2 := by
  simp only [List.zipIdx_cons, List.zipIdx_nil, List.forall_mem_cons, List.not_mem_nil, false_imp_iff, implies_true, and_true,
    Nat.zero_add, Nat.reduceAdd]
  exact ⟨⟨by decide, rfl⟩, by decide, rfl⟩

/-- Settles O12: each window instruction retires with the window and the registers stated, or ends its program. -/
theorem windowInstructions : Obligations.WindowInstructions := by
  unfold Obligations.WindowInstructions
  refine ⟨fun s p g a c o hc ho e he h hlegal ts hts => ?_, fun s p g a c hc => ?_⟩
  · subst hc hts
    obtain ⟨hop, hexec⟩ := exec_winRow (s := s) (p := p) (a := a) e he
    rw [← wordLegal_encWin (s.seq p) _ (by omega)] at hlegal
    rw [hexec]
    refine ⟨fun hall => ⟨_, winRaised (winTerms (s.seq p) a.r e.1.2), windowAdd_admits h hlegal hall, ?_, ?_⟩,
      fun hbad => windowAdd_refuses h hlegal ho hbad⟩
    · rw [clu_opTally, State.clu_setClu_same]
      rfl
    · rw [clu_opTally, State.clu_setClu_same]
      rfl
  · subst hc
    refine ⟨fun h hlegal f hf => ?_, fun h hlegal => ?_, fun h hlegal hact => ?_, fun h hlegal b hb hlow hhigh => ?_⟩
    all_goals rw [← wordLegal_encWin (s.seq p) _ (by decide)] at hlegal
    · refine ⟨_, exec_wrd_atWord h hlegal ?_, Seq.setV_only _ _ _, groupBecomes_setElem_zero _ _ _ _⟩
      rw [hf, low_beq_one]
      simp
    · exact exec_wclr_atWord h hlegal
    · obtain ⟨hle, hmem⟩ := foldl_raiseBound_spec (activeList (s.seq p) a.r) (elemBound (s.seq p) a)
        ((s.seq p).s a.r.vd.toNat).toInt
      exact ⟨_, exec_wbound_atWord h hlegal hact, hle, hmem⟩
    · exact exec_wbase_atWord h hlegal hb hlow hhigh

end Sys2Proof.Machine
end

section
/-! PROOF. Accesses to the executing cluster's own local store, and what loads from it take up (spec/01 R43; spec/06 R175
to R177). -/

namespace Sys2Proof.Machine

open Sys2Proof.Tests

/-! ## Addresses of the own store (01 R43) -/

section
variable {s : State} {p n off : Nat} {a : W64}

theorem storeAddr_lt (hn : n < 2048) (hoff : off < 0x400000) : storeAddr n off < 2 ^ 47 := by
  unfold storeAddr
  omega

theorem accRemote_storeAddr (ha : a.toNat = storeAddr n off) (hn : n < 2048) (hoff : off < 0x400000) :
    accRemote s a = none := by
  have hlt := storeAddr_lt hn hoff
  have hbit : a.toNat.testBit 63 = false := Nat.testBit_lt_two_pow (by omega)
  simp [accRemote, hbit]

theorem accKey_storeAddr (ha : a.toNat = storeAddr n off) (hn : n < 2048) (hoff : off < 0x400000) :
    accKey s a = some (storeKey (physOfN s n) off) := by
  have hlt := storeAddr_lt hn hoff
  have hbit : a.toNat.testBit 63 = false := Nat.testBit_lt_two_pow (by omega)
  have hchip : field a.toNat 47 16 = 0 := by simp only [field]; omega
  have hlow : field a.toNat 0 47 = storeAddr n off := by simp only [field]; omega
  have hhbm : ¬ storeAddr n off < hbmEnd := by unfold storeAddr hbmEnd; omega
  have hin : logStoreBase ≤ storeAddr n off ∧ storeAddr n off < logStoreBase + 2048 * 0x400000 := by
    unfold storeAddr logStoreBase; omega
  have hnum : (storeAddr n off - logStoreBase) / 0x400000 = n := by unfold storeAddr logStoreBase; omega
  have hoffset : (storeAddr n off - logStoreBase) % 0x400000 = off := by unfold storeAddr logStoreBase; omega
  simp [accKey, accRemote_storeAddr ha hn hoff, hbit, hchip, hlow, hhbm, hin, hnum, hoffset]

/-- The own store answers at its key, with no check of a table. -/
theorem addrPlace_storeAddr (hown : OwnStore s p n) (ha : a.toNat = storeAddr n off) (hoff : off < 0x400000) (m : Nat)
    (write : Bool) : addrPlace s m (some p) a write = (s, .mem (storeKey p off)) := by
  obtain ⟨hn, hback, halive, -, hpaths⟩ := hown
  have hlt := storeAddr_lt hn hoff
  have hbit : a.toNat.testBit 63 = false := Nat.testBit_lt_two_pow (by omega)
  have hchip : field a.toNat 47 16 = 0 := by simp only [field]; omega
  have hhbm : ¬ storeAddr n off < hbmEnd := by unfold storeAddr hbmEnd; omega
  have hin : logStoreBase ≤ storeAddr n off ∧ storeAddr n off < logStoreBase + 2048 * 0x400000 := by
    unfold storeAddr logStoreBase; omega
  have hnum : (storeAddr n off - logStoreBase) / 0x400000 = n := by unfold storeAddr logStoreBase; omega
  have hoffset : (storeAddr n off - logStoreBase) % 0x400000 = off := by unfold storeAddr logStoreBase; omega
  rw [ha] at hbit hchip
  simp [addrPlace, localPlace, hbit, hchip, ha, hpaths, hhbm, hin, hnum, hoffset, hback, halive]

end

/-! ## Accesses that lie in the own store -/

section
variable {s : State} {p n : Nat} {x : MemAcc}

theorem OwnAcc.addr (h : OwnAcc s p n x) : x.a.toNat = storeAddr n (accOff n x) := by
  obtain ⟨-, hle, -⟩ := h
  unfold accOff storeAddr at *
  omega

theorem OwnAcc.off_lt (h : OwnAcc s p n x) (hn : 0 < x.n) : accOff n x < 0x400000 := by
  obtain ⟨-, -, hin, -⟩ := h
  omega

theorem OwnAcc.near (h : OwnAcc s p n x) (hown : OwnStore s p n) (hn : 0 < x.n) : accRemote s x.a = none :=
  accRemote_storeAddr h.addr hown.lclu (h.off_lt hn)

theorem storeKey_mod (p off : Nat) : storeKey p off % 4096 = off % 4096 := by
  unfold storeKey storeBase
  omega

theorem storeKey_floor (p off : Nat) : storeKey p off - storeKey p off % 4096 = storeKey p (off - off % 4096) := by
  rw [storeKey_mod]
  unfold storeKey
  have := Nat.mod_le off 4096
  omega

/-- The bytes that an access takes from its parcel. -/
theorem bytesAt_parcel (h : OwnAcc s p n x) : bytesAt (memBytes s (storeKey p (accOff n x) - storeKey p (accOff n x) % 4096) 4096)
    (storeKey p (accOff n x) % 4096) x.n = memBytes s (storeKey p (accOff n x)) x.n := by
  obtain ⟨-, -, -, hpart, -⟩ := h
  rw [← storeKey_mod p] at hpart
  rw [bytesAt_memBytes _ _ _ _ _ hpart, Nat.sub_add_cancel (Nat.mod_le _ _)]

/-- The parcel of an access is read whole. -/
theorem parcelRead_own (hown : OwnStore s p n) (h : OwnAcc s p n x) (u : By) :
    parcelRead s (storeKey p (accOff n x) - storeKey p (accOff n x) % 4096) u =
      (s, .ok (memBytes s (storeKey p (accOff n x) - storeKey p (accOff n x) % 4096) 4096)) := by
  obtain ⟨-, -, -, -, hseal⟩ := h
  rw [storeKey_floor]
  exact parcelRead_storeKey hown.running ((sealDeltaOf_storeKey_floor s p _).trans hseal)

end

/-! ## Loads -/

/-- A cache that holds parcels as memory has them. -/
def CacheOf (s : State) (c : KMap (List Byte)) : Prop := ∀ k d, kfind c k = some d → d = memBytes s k 4096

theorem CacheOf.kput {s : State} {c : KMap (List Byte)} (h : CacheOf s c) (k : Nat) {d : List Byte}
    (hd : d = memBytes s k 4096) : CacheOf s (kput c k d) := by
  intro j x hj
  by_cases hk : k = j
  · subst hk
    rw [kfind_kput_same, Option.some.injEq] at hj
    rw [← hj, hd]
  · rw [kfind_kput_ne _ _ _ _ hk] at hj
    exact h j x hj

/-- What a load takes from the own store for an access: its index, its bytes and its value. -/
def ownPart (s : State) (p n : Nat) (x : MemAcc) : Nat × Nat × Nat :=
  (x.i, x.n, natOfBytes (memBytes s (storeKey p (accOff n x)) x.n))

section
variable {s : State} {p n : Nat}

/-- An access's value in its parcel. -/
theorem leAt_parcel {x : MemAcc} (h : OwnAcc s p n x) {d : List Byte}
    (hd : d = memBytes s (storeKey p (accOff n x) - storeKey p (accOff n x) % 4096) 4096) :
    leAt d (storeKey p (accOff n x) % 4096) x.n = natOfBytes (memBytes s (storeKey p (accOff n x)) x.n) := by
  rw [← bytesAt_parcel h, ← hd]
  rfl

theorem loadOne_own (hown : OwnStore s p n) {x : MemAcc} (h : OwnAcc s p n x) (hn : 0 < x.n) {c : KMap (List Byte)}
    (hc : CacheOf s c) (m : Nat) (u : By) (tags : List Nat) : ∃ c', CacheOf s c' ∧
      loadOne s m p u tags c x = (s, c', .ok (natOfBytes (memBytes s (storeKey p (accOff n x)) x.n))) := by
  have hok := h.1
  simp only [loadOne, hok, Bool.not_true, Bool.false_eq_true, if_false, addrPlace_storeAddr hown h.addr (h.off_lt hn)]
  cases hfind : kfind c (storeKey p (accOff n x) - storeKey p (accOff n x) % 4096) with
  | some d =>
    refine ⟨c, hc, ?_⟩
    simp only [leAt_parcel h (hc _ _ hfind)]
  | none =>
    rw [parcelRead_own hown h]
    have hval := leAt_parcel h rfl
    have hcache := hc.kput (storeKey p (accOff n x) - storeKey p (accOff n x) % 4096) rfl
    generalize memBytes s (storeKey p (accOff n x) - storeKey p (accOff n x) % 4096) 4096 = d at hval hcache ⊢
    exact ⟨_, hcache, by simp only [hval]⟩

theorem loadAll_own (hown : OwnStore s p n) {l : List MemAcc} (h : ∀ x ∈ l, OwnAcc s p n x ∧ 0 < x.n) {c : KMap (List Byte)}
    (hc : CacheOf s c) (m : Nat) (u : By) (tags : List Nat) :
    loadAll s m p u tags c l = (s, l.map (ownPart s p n), none) := by
  induction l generalizing c with
  | nil => rfl
  | cons x t ih =>
    rw [List.forall_mem_cons] at h
    obtain ⟨c', hc', hone⟩ := loadOne_own hown h.1.1 h.1.2 hc m u tags
    rw [loadAll, hone]
    simp only [ih h.2 hc', List.map_cons, ownPart]

end

/-- Accesses that ask for nothing remote. -/
def NearAccs (s : State) (l : List MemAcc) : Prop := ∀ x ∈ l, accRemote s x.a = none ∨ (x.ok = false ∧ x.n ≠ 16)

theorem flatMap_regHalves {s : State} {l : List MemAcc} (h : NearAccs s l) : l.flatMap (regHalves s) = l := by
  induction l with
  | nil => rfl
  | cons x t ih =>
    have hx : regHalves s x = [x] := by
      rcases h x List.mem_cons_self with hnear | ⟨-, hn⟩
      · simp [regHalves, hnear]
      · simp [regHalves, hn]
    rw [List.flatMap_cons, hx, ih fun y hy => h y (List.mem_cons_of_mem _ hy), List.singleton_append]

theorem askRemote_near {s : State} {l : List MemAcc} (h : NearAccs s l) (m : Nat) (tags : List Nat) :
    askRemote s m tags l = (s, tags, false) := by
  rw [askRemote]
  induction l with
  | nil => rfl
  | cons x t ih =>
    have hx : (if x.ok then accRemote s x.a else none) = none := by
      rcases h x List.mem_cons_self with hnear | ⟨hok, -⟩
      · simp [hnear]
      · simp [hok]
    rw [List.foldl_cons]
    simp only [hx]
    exact ih fun y hy => h y (List.mem_cons_of_mem _ hy)

/-- A load that waits for nothing takes its accesses at once. -/
theorem memLoad_near {s : State} {p : Nat} {g : Prog} {unit : Nat} {l : List MemAcc}
    {fin : State → List (Nat × Nat × Nat) → Option MFail → State} (hwait : (s.seq p).wait = .none)
    (hte : unit = 3 → (s.clu p).te.run = none) (h : NearAccs s l) :
    memLoad s p g unit l fin = fin (reqDrop (loadAll s (seqMaster p) p ⟨unit, some g.slot⟩ [] [] l).1 [])
      (loadAll s (seqMaster p) p ⟨unit, some g.slot⟩ [] [] l).2.1
      (loadAll s (seqMaster p) p ⟨unit, some g.slot⟩ [] [] l).2.2 := by
  have htags : memTags s p = [] := by simp [memTags, hwait, waitTags]
  have hout : (unit == 3 && l.any (fun x => (accKey s x.a).any (teOutput s p))) = false := by
    by_cases hu : unit = 3
    · have hno : teOutput s p = fun _ => false := by
        funext k
        simp [teOutput, hte hu]
      simp [hno]
    · simp [hu]
  simp only [memLoad, flatMap_regHalves h, htags, askRemote_near h, hout, Bool.false_eq_true, if_false]

/-- A load whose accesses all lie in the own store. -/
theorem memLoad_own {s : State} {p n : Nat} {g : Prog} {unit : Nat} {l : List MemAcc}
    {fin : State → List (Nat × Nat × Nat) → Option MFail → State} (hown : OwnStore s p n) (hwait : (s.seq p).wait = .none)
    (hte : unit = 3 → (s.clu p).te.run = none) (h : ∀ x ∈ l, OwnAcc s p n x ∧ 0 < x.n) :
    memLoad s p g unit l fin = fin s (l.map (ownPart s p n)) none := by
  rw [memLoad_near hwait hte fun x hx => .inl ((h x hx).1.near hown (h x hx).2),
    loadAll_own hown h (fun _ _ hk => by simp [kfind] at hk), reqDrop_nil]

end Sys2Proof.Machine
end

section
/-! PROOF. Loads of the scalar and vector registers, and the faults of memory instructions (spec/06 R161, R175 to R179). -/

namespace Sys2Proof.Machine

open Sys2Proof.Tests

/-! ## The words of class 0x2, 0xB and 0xC -/

theorem encMem_fields {fn : Nat} (a : ScalMem) (hfn : fn < 8) :
    encMem fn a / 2 ^ 28 = 2 ∧ field (encMem fn a) 23 5 = a.sd.toNat ∧ field (encMem fn a) 18 5 = a.sa.toNat ∧
    field (encMem fn a) 15 3 = fn ∧ field (encMem fn a) 0 15 = a.off.toNat := by
  have := a.sd.isLt
  have := a.sa.isLt
  have := a.off.isLt
  simp only [field, encMem]
  refine ⟨?_, ?_, ?_, ?_, ?_⟩ <;> omega

theorem signedOf_toNat (x : BitVec 15) : signedOf 15 x.toNat = x.toInt := by
  have hlt := x.isLt
  rw [signedOf, Nat.mod_eq_of_lt hlt, BitVec.toInt_eq_toNat_cond]
  split <;> split <;> omega

theorem wordLegal_encMem (q : Seq) {fn : Nat} (a : ScalMem) (hfn : fn < 8) : wordLegal q (encMem fn a) = true := by
  obtain ⟨hcls, -⟩ := encMem_fields a hfn
  simp only [wordLegal, hcls]

theorem testBit_encVec_low (cls : Nat) {fn9 : Nat} (r : VRegs) (hfn : fn9 < 2 ^ 9) {j : Nat} (hj : j < 9) :
    (encVec cls fn9 r).testBit j = fn9.testBit j := by
  have hbit := congrArg (fun v => Nat.testBit v 0) (field_encVec_low cls r hfn (lo := j) (n := 1) (by omega))
  simp only [testBit_field] at hbit
  simpa using hbit

/-- The registers' fields of a vector word are the instruction's. -/
theorem vregsOf_encVec (cls : Nat) {fn9 : Nat} (r : VRegs) (hfn : fn9 < 512) : vregsOf (encVec cls fn9 r) = r := by
  obtain ⟨-, hvd, hv1, hv2, hmk, hvm⟩ := encVec_fields cls r hfn
  have hmsk : (boolNat r.msk == 1) = r.msk := by cases r.msk <;> rfl
  simp [vregsOf, hvd, hv1, hv2, hmk, hvm, hmsk]

theorem encVMem_low_lt {dir : Nat} (a : VMem) (hdir : dir < 2) : dir * 256 + boolNat a.strided * 128 < 2 ^ 9 := by
  have : boolNat a.strided < 2 := by cases a.strided <;> decide
  omega

theorem encVMem_bits {dir : Nat} (a : VMem) (hdir : dir < 2) :
    (encVMem dir a).testBit 7 = a.strided ∧ (encVMem dir a).testBit 8 = decide (dir = 1) := by
  have hlt := encVMem_low_lt a hdir
  rw [encVMem, testBit_encVec_low _ _ hlt (by decide), testBit_encVec_low _ _ hlt (by decide)]
  interval_cases dir <;> cases a.strided <;> decide

theorem wordLegal_encVMem {q : Seq} {dir : Nat} (a : VMem) (hdir : dir < 2) (hfmt : 8 ≤ fmtBits q.fmt) :
    wordLegal q (encVMem dir a) = true := by
  have hlt := encVMem_low_lt a hdir
  have hcls : encVMem dir a / 2 ^ 28 = 11 := (encVec_fields 11 a.r hlt).1
  have hzero : field (encVMem dir a) 0 7 = 0 := by
    rw [encVMem, field_encVec_low _ _ hlt (by decide), field]
    omega
  simp only [wordLegal, hcls, legalVMem, hzero]
  simp [hfmt]

theorem encGath_bit {dir : Nat} (r : VRegs) (hdir : dir < 2) : (encGath dir r).testBit 8 = decide (dir = 1) := by
  rw [encGath, testBit_encVec_low _ _ (by omega) (by decide)]
  interval_cases dir <;> decide

theorem wordLegal_encGath (q : Seq) {dir : Nat} (r : VRegs) (hdir : dir < 2) :
    wordLegal q (encGath dir r) = legalGath q (encGath dir r) := by
  have hcls : encGath dir r / 2 ^ 28 = 12 := (encVec_fields 12 r (by omega)).1
  simp only [wordLegal, hcls]

/-! ## Lanes written by a load -/

/-- The accesses of elements in order are one each. -/
theorem filter_map_index {α : Type} {l : List Nat} (hnd : l.Nodup) (f : Nat → α) {i : Nat} (hi : i ∈ l) :
    (l.map (fun j => (j, f j))).filter (fun e => e.1 == i) = [(i, f i)] := by
  rw [List.filter_map]
  have hone : l.filter ((fun e : Nat × α => e.1 == i) ∘ fun j => (j, f j)) = [i] := by
    change l.filter (· == i) = [i]
    rw [List.filter_beq, List.count_eq_one_of_mem hnd hi]
    rfl
  rw [hone]
  rfl

/-- The value of an element that was read whole. -/
theorem partsOf_map {l : List Nat} (hnd : l.Nodup) (n : Nat) (v : Nat → Nat) {i : Nat} (hi : i ∈ l) :
    partsOf (l.map (fun j => (j, n, v j))) i = v i := by
  rw [partsOf, filter_map_index hnd (fun j => (n, v j)) hi]
  simp

/-- Lanes written from what was read, for elements of 8 bits or wider and no failure. -/
theorem loadLanes_wide {q : Seq} {vd base : Nat} {l : List (Nat × Nat × Nat)} (hfmt : 8 ≤ fmtBits q.fmt) :
    loadLanes q vd base l none =
      ((l.map (fun e => e.1)).dedup.foldl (laneStep q.fmt vd (fun i => quietRes (partsOf l i))) (q, {})).1 := by
  have hall : (l.map (fun e => e.1)).dedup.filter (fun i => some i != failIndex none) = (l.map (fun e => e.1)).dedup :=
    List.filter_eq_self.mpr fun i _ => rfl
  rw [loadLanes, hall]
  have step (ms : List Nat) (q' : Seq) (t : Tally) (hq : q'.fmt = q.fmt) :
      ms.foldl (fun q i => q.setV vd (setElem q.fmt (q.v vd) i
        (if fmtBits q.fmt < 8 then partsOf l i / 2 ^ (packedPos (fmtBits q.fmt) base i).2.1 else partsOf l i))) q' =
      (ms.foldl (laneStep q.fmt vd (fun i => quietRes (partsOf l i))) (q', t)).1 := by
    induction ms generalizing q' t with
    | nil => rfl
    | cons i ms ih =>
      rw [List.foldl_cons, List.foldl_cons, laneStep]
      simp only [hq, Nat.not_lt.mpr hfmt, if_false]
      exact ih _ _ hq
  exact step _ _ _ rfl

/-- Lanes written from values read for each active element. -/
theorem loadLanes_lanes (q : Seq) (r : VRegs) (n base : Nat) (v : Nat → Nat) (hfmt : 8 ≤ fmtBits q.fmt) :
    LanesBecome q (loadLanes q r.vd.toNat base ((activeList q r).map (fun i => (i, n, v i))) none) q.fmt r v := by
  have hfst : ((activeList q r).map (fun i => (i, n, v i))).map (fun e => e.1) = activeList q r := by
    rw [List.map_map]
    exact List.map_id _
  have hnd : (activeList q r).Nodup := List.nodup_range.filter _
  rw [loadLanes_wide hfmt, hfst, hnd.dedup]
  obtain ⟨honly, hothers, hlanes⟩ := foldl_laneStep_fst q.fmt r.vd.toNat
    (fun i => quietRes (partsOf ((activeList q r).map (fun i => (i, n, v i))) i)) (activeList q r) q {}
  refine ⟨honly, hothers, fun i hi => ?_⟩
  rw [hlanes i hi]
  simp only [mem_activeList]
  by_cases ha : activeAt q r i = true
  · simp only [ha, if_true, quietRes, partsOf_map hnd n v (mem_activeList.mpr ha)]
  · rw [if_neg ha, if_neg ha]

/-! ## Loads from the own store -/

theorem stillRuns_atWord {s t : State} {p : Nat} {g : Prog} {w : Nat} (h : AtWord s p g w)
    (hprog : (t.seq p).prog = (s.seq p).prog) : stillRuns t p g = true := by
  simp [stillRuns, hprog, h.runs]

theorem memElems_atWord {s : State} {p : Nat} {g : Prog} {w : Nat} (h : AtWord s p g w) (r : VRegs) :
    memElems (s.seq p) r = activeList (s.seq p) r := by
  simp [memElems, h.fresh]

/-- The bytes of element i at an address, as a number. -/
def elemBytes (s : State) (p n : Nat) (f : Fmt) (a : W64) : Nat :=
  natOfBytes (memBytes s (storeKey p (a.toNat - storeAddr n 0)) (fmtBits f / 8))

/-- The accesses of a vector load, by the addresses of its elements. -/
def wideAccs (q : Seq) (r : VRegs) (addr : Nat → W64) : List MemAcc :=
  (activeList q r).map (fun i => wideAcc q r.vd.toNat i (addr i))

theorem map_ownPart_wideAccs (s : State) (p n : Nat) (q : Seq) (r : VRegs) (addr : Nat → W64) :
    (wideAccs q r addr).map (ownPart s p n) =
      (activeList q r).map (fun i => (i, fmtBits q.fmt / 8, elemBytes s p n q.fmt (addr i))) := by
  rw [wideAccs, List.map_map]
  rfl

theorem vecLoad_own {s : State} {p n : Nat} {g : Prog} {w : Nat} {r : VRegs} {addr : Nat → W64} (base : Nat)
    (h : AtWord s p g w) (hown : OwnStore s p n) (hfmt : 8 ≤ fmtBits (s.seq p).fmt) (hte : (s.clu p).te.run = none)
    (hacc : ∀ x ∈ wideAccs (s.seq p) r addr, OwnAcc s p n x) :
    ∃ q, vecLoad s p g r.vd.toNat base (wideAccs (s.seq p) r addr) = retiredAs s p q ∧
      LanesBecome (s.seq p) q (s.seq p).fmt r (fun i => elemBytes s p n (s.seq p).fmt (addr i)) := by
  have hpos : ∀ x ∈ wideAccs (s.seq p) r addr, OwnAcc s p n x ∧ 0 < x.n := by
    refine fun x hx => ⟨hacc x hx, ?_⟩
    obtain ⟨i, -, rfl⟩ := List.mem_map.mp hx
    simp only [wideAcc]
    omega
  have hlanes := loadLanes_lanes (s.seq p) r (fmtBits (s.seq p).fmt / 8) base
    (fun i => elemBytes s p n (s.seq p).fmt (addr i)) hfmt
  have hstays := VregOnly.stays hlanes.1
  rw [vecLoad, memLoad_own hown h.ready (fun _ => hte) hpos, map_ownPart_wideAccs]
  generalize loadLanes _ _ _ _ _ = q at hlanes hstays ⊢
  refine ⟨q, ?_, hlanes⟩
  have hprog : ((s.setSeq p q).seq p).prog = (s.seq p).prog := by
    rw [State.seq_setSeq_same, hlanes.1]
  simp only [vecEnd, stillRuns_atWord h hprog, Bool.not_true, Bool.false_eq_true, if_false]
  rw [retire_atWord h, State.seq_setSeq_same, retiredAs_setSeq]
  · rw [State.seq_setSeq_same, hstays.pc]
  · rw [State.seq_setSeq_same, hstays.wait, h.ready]
  · rw [State.seq_setSeq_same, hstays.resuming, h.fresh]

/-! ## VLD and VGATHER -/

/-- The addresses of VLD's and VST's elements. -/
def linearAddr (q : Seq) (a : VMem) (i : Nat) : W64 :=
  q.s a.r.vs1.toNat + BitVec.ofNat 64 i *
    (if a.strided then q.s a.r.vs2.toNat else BitVec.ofNat 64 (fmtBits q.fmt / 8))

/-- The addresses of VGATHER's and VSCATTER's elements. -/
def indexedAddr (q : Seq) (r : VRegs) (i : Nat) : W64 :=
  q.s r.vs1.toNat + BitVec.ofNat 64 (groupAt q .f64 r.vs2.toNat i)

theorem linearAccs_atWord {s : State} {p : Nat} {g : Prog} {w : Nat} (h : AtWord s p g w) (a : VMem)
    (hfmt : 8 ≤ fmtBits (s.seq p).fmt) :
    linearAccs (s.seq p) a.r a.strided = wideAccs (s.seq p) a.r (linearAddr (s.seq p) a) := by
  rw [linearAccs, memElems_atWord h]
  simp only [Nat.not_lt.mpr hfmt, if_false]
  exact List.flatMap_pure_eq_map (fun i => wideAcc (s.seq p) a.r.vd.toNat i (linearAddr (s.seq p) a i)) _

theorem indexedAccs_atWord {s : State} {p : Nat} {g : Prog} {w : Nat} (h : AtWord s p g w) (r : VRegs) :
    indexedAccs (s.seq p) r = wideAccs (s.seq p) r (indexedAddr (s.seq p) r) := by
  rw [indexedAccs, memElems_atWord h]
  rfl

theorem exec_vld_eq {s : State} {p : PClu} {g : Prog} {a : VMem} (h : AtWord s p g (encVMem 0 a))
    (hfmt : 8 ≤ fmtBits (s.seq p).fmt) : exec (.vld p a) s = .next (vecLoad s p g a.r.vd.toNat
      ((s.seq p).s a.r.vs1.toNat).toNat (linearAccs (s.seq p) a.r a.strided)) := by
  have hr : vregsOf (encVMem 0 a) = a.r := vregsOf_encVec 11 a.r (encVMem_low_lt a (by decide))
  obtain ⟨h7, h8⟩ := encVMem_bits a (by decide : 0 < 2)
  change execVld p a s = _
  rw [execVld, issue_whole h (wordLegal_encVMem a (by decide) hfmt)]
  simp only [linearMem, hr, h7, h8]
  rfl

theorem exec_vgather_eq {s : State} {p : PClu} {g : Prog} {r : VRegs} (h : AtWord s p g (encGath 0 r))
    (hlegal : legalGath (s.seq p) (encGath 0 r) = true) : exec (.vgather p r) s = .next (vecLoad s p g r.vd.toNat
      ((s.seq p).s r.vs1.toNat).toNat (indexedAccs (s.seq p) r)) := by
  have hr : vregsOf (encGath 0 r) = r := vregsOf_encVec 12 r (by decide)
  have h8 := encGath_bit r (by decide : 0 < 2)
  change execVgather p r s = _
  rw [execVgather, issue_whole h (by rw [wordLegal_encGath _ _ (by decide), hlegal])]
  simp only [indexedMem, hr, h8]
  rfl

/-! ## Faults of vector loads -/

/-- A load whose first element is misaligned records it. -/
theorem vecLoad_misaligned {s : State} {p : Nat} {g : Prog} {w vd base : Nat} {x : MemAcc} {rest : List MemAcc}
    (h : AtWord s p g w) (hte : (s.clu p).te.run = none) (hok : x.ok = false)
    (hnear : ∀ y ∈ x :: rest, accRemote s y.a = none) :
    vecLoad s p g vd base (x :: rest) = vecFault (s.setSeq p (s.seq p)) p x.i stBus x.a false := by
  rw [vecLoad, memLoad_near h.ready (fun _ => hte) fun y hy => .inl (hnear y hy)]
  simp only [loadAll, loadOne, hok, Bool.not_false, if_true, reqDrop_nil]
  have hnone : loadLanes (s.seq p) vd base [] (some (.fault x.i stBus x.a)) = s.seq p := rfl
  have hruns : stillRuns (s.setSeq p (s.seq p)) p g = true := stillRuns_atWord h (by rw [State.seq_setSeq_same])
  simp only [hnone, vecEnd, hruns, Bool.not_true, Bool.false_eq_true, if_false]

/-- The fault registers of a sequencer at a precise fault of a read. -/
def faultedAt (q : Seq) (f : Nat) (a : W64) : Seq :=
  { q with faultIndex := f, faultValid := true, faultDir := false, faultCause := stBus, faultAddr := a }

theorem vecFault_handled {s : State} {p : Nat} {g : Prog} {w f : Nat} {a : W64} (h : AtWord s p g w)
    (hvec : (s.seq p).trapVec ≠ 0) (hout : (s.seq p).inHandler = false) :
    vecFault (s.setSeq p (s.seq p)) p f stBus a false = s.setSeq p { faultedAt (s.seq p) f a with
      resume := f, epc := (s.seq p).pc, pc := (s.seq p).trapVec, inHandler := true } := by
  have hwait := h.ready
  have hfresh := h.fresh
  simp only [vecFault, faultedAt, State.seq_setSeq_same]
  generalize s.seq p = q at *
  simp only [bne_iff_ne, ne_eq, hvec, not_false_eq_true, hout, Bool.not_false, hwait, waitTags, reqDrop_nil, Bool.and_true,
    if_true, State.setSeq_setSeq, hfresh]

theorem vecFault_ends {s : State} {p : Nat} {g : Prog} {w f : Nat} {a : W64} {o : Op} (h : AtWord s p g w)
    (ho : OpRuns s g.slot o) (hvec : (s.seq p).trapVec = 0 ∨ (s.seq p).inHandler = true) :
    ((vecFault (s.setSeq p (s.seq p)) p f stBus a false).seq p = (faultedAt (s.seq p) f a).dropped) ∧
      EndedIn (vecFault (s.setSeq p (s.seq p)) p f stBus a false) g.slot o stVector (detail2 (f + stBus * 2 ^ 16) a.toNat) := by
  have hno : ((s.seq p).trapVec != 0 && !(s.seq p).inHandler) = false := by
    rcases hvec with hv | hv <;> simp [hv]
  have hend : vecFault (s.setSeq p (s.seq p)) p f stBus a false =
      endProgram (s.setSeq p (faultedAt (s.seq p) f a)) p stVector (detail2 (f + stBus * 2 ^ 16) a.toNat) := by
    simp only [vecFault, State.seq_setSeq_same, hno, Bool.false_eq_true, if_false, State.setSeq_setSeq]
    rfl
  have hseq := State.seq_setSeq_same s p (faultedAt (s.seq p) f a)
  obtain ⟨hclu, -, hended⟩ := endProgram_of_runs (s := s.setSeq p (faultedAt (s.seq p) f a)) (g := g) (o := o)
    (by rw [hseq]; exact h.runs) (by rw [hseq]; exact h.ready) ho stVector (detail2 (f + stBus * 2 ^ 16) a.toNat)
  rw [hend]
  refine ⟨?_, hended⟩
  rw [State.seq, hclu, hseq]

/-- Settles O15: a vector load whose first active element is misaligned enters the handler, or ends its program. -/
theorem vectorFault : Obligations.VectorFault := by
  unfold Obligations.VectorFault
  intro s p g o c l x rest ho hfmt hte hc hl hok hrest hx
  have hnear : ∀ y ∈ x :: rest, accRemote s y.a = none := List.forall_mem_cons.mpr ⟨hx, hrest⟩
  obtain ⟨w, h, hexec⟩ : ∃ w, AtWord s p g w ∧ exec c s = .next (vecFault (s.setSeq p (s.seq p)) p x.i stBus x.a false) := by
    rcases hc with ⟨a, rfl, h, rfl⟩ | ⟨r, rfl, h, hlegal, rfl⟩
    · exact ⟨_, h, by rw [exec_vld_eq h hfmt, hl, vecLoad_misaligned h hte hok hnear]⟩
    · exact ⟨_, h, by rw [exec_vgather_eq h hlegal, hl, vecLoad_misaligned h hte hok hnear]⟩
  rw [hexec]
  refine ⟨fun hvec hout => by rw [vecFault_handled h hvec hout]; rfl, fun hvec => ?_⟩
  obtain ⟨hseq, hended⟩ := vecFault_ends (f := x.i) (a := x.a) h ho hvec
  exact ⟨_, rfl, by rw [hseq]; rfl, by rw [hseq]; rfl, by rw [hseq]; rfl, hended⟩

end Sys2Proof.Machine
end

section
/-! PROOF. Stores to the executing cluster's own local store: the parcels they stage, and memory once these are committed
(spec/06 R175 to R177). -/

namespace Sys2Proof.Machine

open Sys2Proof.Tests

/-! ## Bytes laid over bytes -/

theorem getD_bytesOfNat (n x j : Nat) (hj : j < n) : (bytesOfNat n x).getD j 0 = BitVec.ofNat 8 (x / 2 ^ (8 * j)) := by
  induction n generalizing x j with
  | zero => omega
  | succ n ih =>
    cases j with
    | zero => simp [bytesOfNat]
    | succ j =>
      rw [bytesOfNat, List.getD_cons_succ, ih _ _ (by omega), Nat.div_div_eq_div_mul]
      congr 2
      rw [Nat.mul_succ, Nat.pow_add, Nat.mul_comm]

theorem getD_memBytes (s : State) (a n j : Nat) (hj : j < n) : (memBytes s a n).getD j 0 = memByte s (a + j) := by
  induction n generalizing a j with
  | zero => omega
  | succ n ih =>
    cases j with
    | zero => rfl
    | succ j =>
      rw [memBytes, List.getD_cons_succ, ih _ _ (by omega)]
      congr 1
      omega

theorem overlay_length {l x : List Byte} {o : Nat} (h : o + x.length ≤ l.length) : (overlay l o x).length = l.length := by
  simp only [overlay, List.length_append, List.length_take, List.length_drop]
  omega

theorem getD_overlay {l x : List Byte} {o : Nat} (h : o + x.length ≤ l.length) (j : Nat) :
    (overlay l o x).getD j 0 = if o ≤ j ∧ j < o + x.length then x.getD (j - o) 0 else l.getD j 0 := by
  have htake : (l.take o).length = o := by rw [List.length_take]; omega
  rw [overlay, List.append_assoc]
  by_cases hlow : j < o
  · rw [if_neg (by omega), List.getD_append _ _ _ _ (by omega), List.getD_eq_getElem?_getD, List.getElem?_take_of_lt hlow,
      ← List.getD_eq_getElem?_getD]
  · rw [List.getD_append_right _ _ _ _ (by omega), htake]
    by_cases hin : j < o + x.length
    · rw [if_pos (by omega), List.getD_append _ _ _ _ (by omega)]
    · rw [if_neg (by omega), List.getD_append_right _ _ _ _ (by omega), List.getD_eq_getElem?_getD, List.getElem?_drop,
        ← List.getD_eq_getElem?_getD]
      congr 1
      omega

/-- A store of whole bytes lays its value over the old ones. -/
theorem mergeBits_full (old : List Byte) (val : Nat) :
    mergeBits old val (fullMask old.length) = bytesOfNat old.length val := by
  rw [mergeBits, fullMask, Nat.sub_self, Nat.and_zero, Nat.zero_or, Nat.and_two_pow_sub_one_eq_mod]
  refine bytesOfNat_congr _ ?_
  rw [Nat.pow_mul 2 8, Nat.mod_mod]

theorem mem_kput {α : Type} {t : KMap α} {k : Nat} {v : α} {e : Nat × α} (h : e ∈ kput t k v) :
    e = (k, v) ∨ (e ∈ t ∧ e.1 ≠ k) := by
  rcases kins_mem _ _ _ _ h with h | h
  · exact .inl h
  · exact .inr ⟨(List.mem_filter.mp h).1, kdel_keys t k e h⟩

theorem mem_of_kfind {α : Type} {t : KMap α} {k : Nat} {v : α} (h : kfind t k = some v) : (k, v) ∈ t := by
  simp only [kfind, Option.map_eq_some_iff] at h
  obtain ⟨e, hfind, rfl⟩ := h
  have hkey : e.1 = k := by simpa using List.find?_some hfind
  rw [← hkey]
  exact List.mem_of_find?_eq_some hfind

/-! ## What stores in order leave of memory -/

/-- Memory after one store of whole bytes to cluster p's own store, which logical number n names. -/
def layAcc (p n : Nat) (f : Nat → Byte) (x : MemAcc) (b : Nat) : Byte :=
  if storeKey p (accOff n x) ≤ b ∧ b < storeKey p (accOff n x) + x.n
  then BitVec.ofNat 8 (x.val / 2 ^ (8 * (b - storeKey p (accOff n x)))) else f b

/-- Memory after a list of stores. -/
def laid (p n : Nat) (f : Nat → Byte) (l : List MemAcc) : Nat → Byte := l.foldl (layAcc p n) f

/-- Staged parcels: whole, of no HBM, and the bytes of f, which is memory beside them. -/
structure Stages (s : State) (f : Nat → Byte) (st : KMap (List Byte)) : Prop where
  parcels : ∀ e ∈ st, e.1 % 4096 = 0 ∧ keyIsHbm e.1 = false ∧ e.2.length = 4096 ∧
    ∀ j, j < 4096 → e.2.getD j 0 = f (e.1 + j)
  beside : ∀ b, kfind st (b - b % 4096) = none → f b = memByte s b

theorem Stages.empty (s : State) : Stages s (memByte s) [] := ⟨fun _ h => absurd h List.not_mem_nil, fun _ _ => rfl⟩

/-- An access of whole bytes to the own store that nothing locks and no other operation's delivery forbids. -/
def OwnStoreAcc (s : State) (p n slot : Nat) (x : MemAcc) : Prop :=
  OwnAcc s p n x ∧ 0 < x.n ∧ x.mask = fullMask x.n ∧ Unlocked s p slot (accOff n x)

section
variable {s : State} {p n : Nat}

/-- A parcel that takes an access's bytes is staged as memory will have it. -/
theorem Stages.put {f : Nat → Byte} {st : KMap (List Byte)} (h : Stages s f st) {x : MemAcc} (hx : OwnAcc s p n x)
    {d : List Byte} (hd : d.length = 4096)
    (hfd : ∀ j, j < 4096 → d.getD j 0 = f (storeKey p (accOff n x) - storeKey p (accOff n x) % 4096 + j)) :
    Stages s (layAcc p n f x) (kput st (storeKey p (accOff n x) - storeKey p (accOff n x) % 4096)
      (overlay d (storeKey p (accOff n x) % 4096) (bytesOfNat x.n x.val))) := by
  have hpart : storeKey p (accOff n x) % 4096 + x.n ≤ 4096 := by
    obtain ⟨-, -, -, hp, -⟩ := hx
    rwa [storeKey_mod]
  have hhbm : keyIsHbm (storeKey p (accOff n x) - storeKey p (accOff n x) % 4096) = false := by
    rw [storeKey_floor]
    exact keyIsHbm_storeKey _ _
  have hlen : (bytesOfNat x.n x.val).length = x.n := bytesOfNat_length _ _
  have hlay (b : Nat) : layAcc p n f x b = if storeKey p (accOff n x) ≤ b ∧ b < storeKey p (accOff n x) + x.n
    then BitVec.ofNat 8 (x.val / 2 ^ (8 * (b - storeKey p (accOff n x)))) else f b := rfl
  generalize storeKey p (accOff n x) = k at *
  refine ⟨fun e he => ?_, fun b hb => ?_⟩
  · rcases mem_kput he with rfl | ⟨he, hne⟩
    · refine ⟨by simp only; omega, hhbm, by rw [overlay_length (by omega), hd], fun j hj => ?_⟩
      rw [getD_overlay (by omega), hlen, hlay]
      by_cases hin : k % 4096 ≤ j ∧ j < k % 4096 + x.n
      · rw [if_pos hin, if_pos (by simp only; omega), getD_bytesOfNat _ _ _ (by omega)]
        congr 4
        simp only
        omega
      · rw [if_neg hin, if_neg (by simp only; omega), hfd j hj]
    · obtain ⟨hal, hh, hl, hf⟩ := h.parcels e he
      refine ⟨hal, hh, hl, fun j hj => ?_⟩
      rw [hf j hj, hlay, if_neg (by omega)]
  · have hne : k - k % 4096 ≠ b - b % 4096 := by
      intro heq
      rw [heq, kfind_kput_same] at hb
      exact absurd hb (by simp)
    rw [kfind_kput_ne _ _ _ _ hne] at hb
    rw [hlay, if_neg (by omega), h.beside b hb]

/-- The parcel that an access alters, as memory has it. -/
theorem parcelRead_own_bytes (hown : OwnStore s p n) {x : MemAcc} (hx : OwnAcc s p n x) (u : By) :
    ∃ d : List Byte, d.length = 4096 ∧
      (∀ j, j < 4096 → d.getD j 0 = memByte s (storeKey p (accOff n x) - storeKey p (accOff n x) % 4096 + j)) ∧
      parcelRead s (storeKey p (accOff n x) - storeKey p (accOff n x) % 4096) u = (s, .ok d) :=
  ⟨_, memBytes_length _ _ _, fun _ hj => getD_memBytes _ _ _ _ hj, parcelRead_own hown hx u⟩

/-- A store into a parcel that the instruction has met. -/
theorem storeOne_staged {m slot k : Nat} {u : By} {st : KMap (List Byte)} {x : MemAcc} {d : List Byte} (hok : x.ok = true)
    (hplace : writePlace s m (some p) x.a false = (s, .mem k)) (hfind : kfind st (k - k % 4096) = some d) :
    storeOne s m p slot u st x = (s, kput st (k - k % 4096)
      (overlay d (k % 4096) (mergeBits (bytesAt d (k % 4096) x.n) x.val x.mask)), none) := by
  simp only [storeOne, hok, Bool.not_true, Bool.false_eq_true, if_false, hplace, hfind]

/-- A store into a parcel that it meets first. -/
theorem storeOne_met {m slot k : Nat} {u : By} {st : KMap (List Byte)} {x : MemAcc} {d : List Byte} (hok : x.ok = true)
    (hplace : writePlace s m (some p) x.a false = (s, .mem k)) (hfind : kfind st (k - k % 4096) = none)
    (hclash : clashOf s slot (k - k % 4096) = none) (hhbm : keyIsHbm (k - k % 4096) = false)
    (hread : parcelRead s (k - k % 4096) u = (s, .ok d)) :
    storeOne s m p slot u st x = (s, kput st (k - k % 4096)
      (overlay d (k % 4096) (mergeBits (bytesAt d (k % 4096) x.n) x.val x.mask)), none) := by
  simp only [storeOne, hok, Bool.not_true, Bool.false_eq_true, if_false, hplace, hfind, hclash, hhbm, hread]

theorem storeOne_own (hown : OwnStore s p n) {slot : Nat} {x : MemAcc} (hx : OwnStoreAcc s p n slot x) {f : Nat → Byte}
    {st : KMap (List Byte)} (h : Stages s f st) (m : Nat) (u : By) :
    ∃ st', storeOne s m p slot u st x = (s, st', none) ∧ Stages s (layAcc p n f x) st' := by
  obtain ⟨hacc, hpos, hmask, -, hclash⟩ := hx
  have hplace : writePlace s m (some p) x.a false = (s, .mem (storeKey p (accOff n x))) := by
    simp only [writePlace, addrPlace_storeAddr hown hacc.addr (hacc.off_lt hpos), Bool.false_eq_true, if_false]
  have hhbm : keyIsHbm (storeKey p (accOff n x) - storeKey p (accOff n x) % 4096) = false := by
    rw [storeKey_floor]
    exact keyIsHbm_storeKey _ _
  obtain ⟨d0, hlen, hd0, hread⟩ := parcelRead_own_bytes hown hacc u
  have hpart : storeKey p (accOff n x) % 4096 + x.n ≤ 4096 := by
    obtain ⟨-, -, -, hp, -⟩ := hacc
    rwa [storeKey_mod]
  have hmerge (d : List Byte) (hd : d.length = 4096) :
      mergeBits (bytesAt d (storeKey p (accOff n x) % 4096) x.n) x.val x.mask = bytesOfNat x.n x.val := by
    have hlen : (bytesAt d (storeKey p (accOff n x) % 4096) x.n).length = x.n := by
      rw [bytesAt, List.length_take, List.length_drop, hd]
      omega
    have hfull := mergeBits_full (bytesAt d (storeKey p (accOff n x) % 4096) x.n) x.val
    rwa [hlen, ← hmask] at hfull
  have hok := hacc.1
  cases hfind : kfind st (storeKey p (accOff n x) - storeKey p (accOff n x) % 4096) with
  | some d =>
    obtain ⟨-, -, hd, hfd⟩ := h.parcels _ (mem_of_kfind hfind)
    exact ⟨_, by rw [storeOne_staged hok hplace hfind, hmerge d hd], h.put hacc hd hfd⟩
  | none =>
    have hfd (j : Nat) (hj : j < 4096) :
        d0.getD j 0 = f (storeKey p (accOff n x) - storeKey p (accOff n x) % 4096 + j) := by
      rw [hd0 j hj, h.beside _ (by rw [← hfind]; congr 1; omega)]
    exact ⟨_, by rw [storeOne_met hok hplace hfind hclash hhbm hread, hmerge d0 hlen], h.put hacc hlen hfd⟩

theorem storeWalk_own (hown : OwnStore s p n) {slot : Nat} {l : List MemAcc} (hl : ∀ x ∈ l, OwnStoreAcc s p n slot x)
    {f : Nat → Byte} {st : KMap (List Byte)} (h : Stages s f st) (m : Nat) (u : By) :
    ∃ st', storeWalk s m p slot u st l = (s, st', none) ∧ Stages s (laid p n f l) st' := by
  induction l generalizing f st with
  | nil => exact ⟨st, rfl, h⟩
  | cons x t ih =>
    rw [List.forall_mem_cons] at hl
    obtain ⟨st1, hone, h1⟩ := storeOne_own hown hl.1 h m u
    obtain ⟨st2, hwalk, h2⟩ := ih hl.2 h1
    refine ⟨st2, ?_, h2⟩
    rw [storeWalk, hone]
    exact hwalk

end

/-! ## Staged parcels committed -/

/-- Only bytes, seals and the deliveries of stream steps differ. -/
structure Stored (s t : State) : Prop where
  frame : t = { s with store := t.store, streams := t.streams }
  store : t.store = { s.store with bytes := t.store.bytes, sealDelta := t.store.sealDelta }

theorem Stored.refl (s : State) : Stored s s := ⟨rfl, rfl⟩

theorem Stored.trans {s t u : State} (h : Stored s t) (h' : Stored t u) : Stored s u := by
  obtain ⟨hf, hs⟩ := h
  obtain ⟨hf', hs'⟩ := h'
  refine ⟨?_, ?_⟩
  · rw [hf']
    rw [hf]
  · rw [hs', hs]

theorem Stored.core {s t : State} (h : Stored s t) : t.core = s.core := by rw [h.frame]
theorem Stored.boot {s t : State} (h : Stored s t) : t.boot = s.boot := by rw [h.frame]

theorem noteWriter_stored (s : State) (slot key : Nat) :
    Stored s (noteWriter s slot key) ∧ (noteWriter s slot key).store = s.store := by
  unfold noteWriter
  split
  · exact ⟨.refl s, rfl⟩
  next o _ =>
    cases hc : (if (s.strm o.rcpt.stream).writersStep == o.step then (s.strm o.rcpt.stream).writers else []).contains
        (key / 4096, slot) with
    | true =>
      simp only [hc, if_true]
      exact ⟨.refl s, trivial⟩
    | false =>
      simp only [hc, Bool.false_eq_true, if_false]
      exact ⟨⟨rfl, rfl⟩, rfl⟩

/-- A parcel of a local store, written with a new seal. -/
def sealedPut (s : State) (k : Nat) (d : List Byte) : State :=
  { memPut s k d with store := { (memPut s k d).store with sealDelta := kset 0 (memPut s k d).store.sealDelta (k / 4096) 0 } }

theorem sealedPut_stored (s : State) (k : Nat) (d : List Byte) : Stored s (sealedPut s k d) := ⟨rfl, rfl⟩

theorem memByte_sealedPut (s : State) (k : Nat) (d : List Byte) (b : Nat) :
    memByte (sealedPut s k d) b = if k ≤ b ∧ b < k + d.length then d.getD (b - k) 0 else memByte s b :=
  memByte_memPut s k d b

theorem sealDeltaOf_sealedPut {s : State} {k j : Nat} {d : List Byte} (h : sealDeltaOf s j = 0) :
    sealDeltaOf (sealedPut s k d) j = 0 := by
  rw [sealDeltaOf, sealedPut]
  simp only [kget_kset]
  split
  · rfl
  · exact h

theorem parcelWrite_store {s : State} {k : Nat} {d : List Byte} (hk : keyIsHbm k = false)
    (hrun : s.boot.computeReset = false) : parcelWrite s k d = (sealedPut s k d, none) := by
  simp only [parcelWrite, hk, hrun, Bool.false_eq_true, if_false]
  rfl

/-- What the commit of staged parcels leaves of memory. -/
theorem commitStaged_spec {f : Nat → Byte} (slot : Nat) (st : KMap (List Byte)) (s : State)
    (hrun : s.boot.computeReset = false)
    (hst : ∀ e ∈ st, e.1 % 4096 = 0 ∧ keyIsHbm e.1 = false ∧ e.2.length = 4096 ∧ ∀ j, j < 4096 → e.2.getD j 0 = f (e.1 + j)) :
    Stored s (commitStaged s slot st) ∧
    (∀ b, memByte (commitStaged s slot st) b = if ∃ e ∈ st, e.1 = b - b % 4096 then f b else memByte s b) ∧
    ∀ k, sealDeltaOf s k = 0 → sealDeltaOf (commitStaged s slot st) k = 0 := by
  induction st generalizing s with
  | nil => exact ⟨.refl s, fun b => by simp [commitStaged], fun _ h => h⟩
  | cons e st ih =>
    rw [List.forall_mem_cons] at hst
    obtain ⟨⟨halign, hhbm, hlen, hf⟩, hrest⟩ := hst
    have hstep : commitStaged s slot (e :: st) = commitStaged (noteWriter (sealedPut s e.1 e.2) slot e.1) slot st := by
      simp only [commitStaged, List.foldl_cons, parcelWrite_store hhbm hrun]
    obtain ⟨hnote, hnoteStore⟩ := noteWriter_stored (sealedPut s e.1 e.2) slot e.1
    have hput := (sealedPut_stored s e.1 e.2).trans hnote
    obtain ⟨hstored, hbytes, hseals⟩ := ih (noteWriter (sealedPut s e.1 e.2) slot e.1) (by rw [hput.boot, hrun]) hrest
    rw [hstep]
    refine ⟨hput.trans hstored, fun b => ?_, fun k hk => hseals k ?_⟩
    · have hbyte : memByte (noteWriter (sealedPut s e.1 e.2) slot e.1) b = memByte (sealedPut s e.1 e.2) b := by
        rw [memByte, hnoteStore, memByte]
      rw [hbytes, hbyte, memByte_sealedPut, hlen]
      by_cases hlater : ∃ x ∈ st, x.1 = b - b % 4096
      · rw [if_pos hlater, if_pos (hlater.imp fun x hx => ⟨List.mem_cons_of_mem _ hx.1, hx.2⟩)]
      · rw [if_neg hlater]
        by_cases hin : e.1 ≤ b ∧ b < e.1 + 4096
        · rw [if_pos hin, if_pos ⟨e, List.mem_cons_self, by omega⟩, hf _ (by omega)]
          congr 1
          omega
        · rw [if_neg hin, if_neg]
          rintro ⟨x, hx, hxb⟩
          rcases List.mem_cons.mp hx with rfl | hx
          · omega
          · exact hlater ⟨x, hx, hxb⟩
    · rw [sealDeltaOf, hnoteStore]
      exact sealDeltaOf_sealedPut hk

theorem kfind_eq_none_of_keys {α : Type} {t : KMap α} {k : Nat} (h : ∀ e ∈ t, e.1 ≠ k) : kfind t k = none := by
  cases hf : kfind t k with
  | none => rfl
  | some v => exact absurd rfl (h _ (mem_of_kfind hf))

/-- A store whose accesses all lie in the own store, nothing locked. -/
theorem memStore_own {s : State} {p n : Nat} {g : Prog} {unit : Nat} {l : List MemAcc}
    {fin : State → Option MFail → State} (hown : OwnStore s p n) (hl : ∀ x ∈ l, OwnStoreAcc s p n g.slot x) :
    ∃ t, memStore s p g unit l fin = fin t none ∧ Stored s t ∧ (∀ b, memByte t b = laid p n (memByte s) l b) ∧
      ∀ k, sealDeltaOf s k = 0 → sealDeltaOf t k = 0 := by
  have hunlocked : (l.any (fun x => (accKey s x.a).any (readLocked s (.prog p)))) = false := by
    rw [List.any_eq_false]
    intro x hx
    obtain ⟨hacc, hpos, -, hlock, -⟩ := hl x hx
    rw [accKey_storeAddr hacc.addr hown.lclu (hacc.off_lt hpos), hown.backs, Option.any_some, hlock]
    exact Bool.false_ne_true
  have hnear : (l.all (fun x => (accRemote s x.a).isNone)) = true := by
    rw [List.all_eq_true]
    intro x hx
    obtain ⟨hacc, hpos, -⟩ := hl x hx
    rw [hacc.near hown hpos]
    rfl
  obtain ⟨st, hwalk, hst⟩ := storeWalk_own hown hl (Stages.empty s) (seqMaster p) ⟨unit, some g.slot⟩
  obtain ⟨hstored, hbytes, hseals⟩ := commitStaged_spec g.slot st s hown.running hst.parcels
  refine ⟨commitStaged s g.slot st, ?_, hstored, fun b => ?_, hseals⟩
  · rw [memStore, hunlocked, hnear, if_neg Bool.false_ne_true, if_pos rfl]
    dsimp only
    rw [hwalk]
    simp only [reqDrop_nil]
  · rw [hbytes]
    split
    · rfl
    next hno =>
      rw [hst.beside b (kfind_eq_none_of_keys fun e he hb => hno ⟨e, he, hb⟩)]

/-- The end of a store: its instruction retires. -/
theorem storedAs_retire {s t : State} {p : Nat} {g : Prog} {w : Nat} (h : AtWord s p g w) (hs : Stored s t) :
    StoredAs s (retire t p) p := by
  have hcore := hs.core
  have hclu (x : Nat) : t.clu x = s.clu x := by rw [State.clu, hcore]; rfl
  have hframe := hs.frame
  have hstore := hs.store
  rw [retire_of_clus_eq h (by rw [hcore])]
  refine ⟨?_, hstore, ?_, fun x hx => ?_, ?_⟩
  · rw [hframe]
    rfl
  · rw [retiredAs, State.setSeq, State.setClu, hcore]
  · rw [retiredAs, State.setSeq, State.clu_setClu_ne _ _ _ _ (Ne.symm hx), hclu]
  · rw [retiredAs, State.setSeq, State.clu_setClu_same, hclu]

theorem memByte_retire {s t : State} {p : Nat} {g : Prog} {w : Nat} (h : AtWord s p g w) (hs : Stored s t) (b : Nat) :
    memByte (retire t p) b = memByte t b := by
  rw [retire_of_clus_eq h (by rw [hs.core])]
  rfl

end Sys2Proof.Machine
end

section
/-! PROOF. Scalar and vector memory instructions and window records in the own store (spec/06 R161, R173, R175 to R179;
spec/04 R120, R124; log 30). -/

namespace Sys2Proof.Machine

open Sys2Proof.Tests

/-! ## Scalar accesses -/

section
variable {s : State} {p : PClu} {g : Prog} {a : ScalMem}

/-- The address of a scalar access. -/
def scalAddr (q : Seq) (a : ScalMem) : W64 := q.s a.sa.toNat + BitVec.ofInt 64 a.off.toInt

/-- The one access of a scalar load or store of 2^(fn mod 4) bytes. -/
def scalAcc (q : Seq) (fn : Nat) (a : ScalMem) : MemAcc :=
  ⟨0, scalAddr q a, 2 ^ (fn % 4), (q.s a.sd.toNat).toNat % 2 ^ (8 * 2 ^ (fn % 4)), fullMask (2 ^ (fn % 4)),
    (scalAddr q a).toNat % 2 ^ (fn % 4) == 0⟩

theorem memOp_load {fn : Nat} (h : AtWord s p g (encMem fn a)) (hfn : fn < 4) :
    memOp s p fn a = memLoad s p g 4 [scalAcc (s.seq p) fn a] (fun s l f => scalarEnd s p g false f (fun s =>
      retire (s.setSeq p ((s.seq p).setS a.sd.toNat (BitVec.ofNat 64 (partsOf l 0)))) p)) := by
  obtain ⟨-, hsd, hsa, hcode, hoff⟩ := encMem_fields a (by omega : fn < 8)
  rw [memOp, issue_whole h (wordLegal_encMem _ a (by omega)), scalarMem]
  simp only [hsd, hsa, hcode, hoff, signedOf_toNat, hfn, if_true, scalAcc, scalAddr]

theorem memOp_store {fn : Nat} (h : AtWord s p g (encMem fn a)) (hfn : 4 ≤ fn) (hlt : fn < 8) :
    memOp s p fn a = memStore s p g 4 [scalAcc (s.seq p) fn a] (fun s f => scalarEnd s p g true f (fun s => retire s p)) := by
  obtain ⟨-, hsd, hsa, hcode, hoff⟩ := encMem_fields a hlt
  rw [memOp, issue_whole h (wordLegal_encMem _ a hlt), scalarMem]
  simp only [hsd, hsa, hcode, hoff, signedOf_toNat, Nat.not_lt.mpr hfn, if_false, scalAcc, scalAddr]

/-- The loads and the stores by their width. -/
theorem exec_load {k : Nat} {c : PClu → ScalMem → Instr}
    (hc : [Instr.ld8, Instr.ld16, Instr.ld32, Instr.ld64][k]? = some c) : exec (c p a) s = .next (memOp s p k a) := by
  match k, hc with
  | 0, hc => cases hc; rfl
  | 1, hc => cases hc; rfl
  | 2, hc => cases hc; rfl
  | 3, hc => cases hc; rfl

theorem exec_store {k : Nat} {c : PClu → ScalMem → Instr}
    (hc : [Instr.st8, Instr.st16, Instr.st32, Instr.st64][k]? = some c) : exec (c p a) s = .next (memOp s p (4 + k) a) := by
  match k, hc with
  | 0, hc => cases hc; rfl
  | 1, hc => cases hc; rfl
  | 2, hc => cases hc; rfl
  | 3, hc => cases hc; rfl

/-- The access of an aligned scalar instruction lies in the own store. -/
theorem scalAcc_own {n off k fn : Nat} (hk : k < 4) (hfn : fn % 4 = k) (haddr : (scalAddr (s.seq p) a).toNat = storeAddr n off)
    (halign : off % 2 ^ k = 0) (hoff : off < 0x400000) (hseal : sealDeltaOf s (storeKey p off) = 0) :
    OwnAcc s p n (scalAcc (s.seq p) fn a) ∧ accOff n (scalAcc (s.seq p) fn a) = off ∧
      (scalAcc (s.seq p) fn a).n = 2 ^ k := by
  have hacc : accOff n (scalAcc (s.seq p) fn a) = off := by
    simp only [accOff, scalAcc, haddr, storeAddr]
    omega
  have hn : (scalAcc (s.seq p) fn a).n = 2 ^ k := by rw [scalAcc, hfn]
  refine ⟨⟨?_, ?_, ?_, ?_, by rw [hacc]; exact hseal⟩, hacc, hn⟩
  · simp only [scalAcc, haddr, hfn, beq_iff_eq, storeAddr]
    interval_cases k <;> omega
  · simp only [scalAcc, haddr, storeAddr]
    omega
  · rw [hacc, hn]
    interval_cases k <;> omega
  · rw [hacc, hn]
    interval_cases k <;> omega

theorem memBytes_eq_bytesOfNat {t : State} {b n x : Nat} (h : ∀ j, j < n → memByte t (b + j) = BitVec.ofNat 8 (x / 2 ^ (8 * j))) :
    memBytes t b n = bytesOfNat n x := by
  refine List.ext_getElem (by rw [memBytes_length, bytesOfNat_length]) fun j hj _ => ?_
  rw [memBytes_length] at hj
  have hget := h j hj
  rw [← getD_memBytes t b n j hj, ← getD_bytesOfNat n x j hj] at hget
  rwa [List.getD_eq_getElem _ _ (by rwa [memBytes_length]), List.getD_eq_getElem _ _ (by rwa [bytesOfNat_length])] at hget

theorem exec_load_own {n off k : Nat} {c : PClu → ScalMem → Instr} (hown : OwnStore s p n) (hk : k < 4)
    (haddr : (scalAddr (s.seq p) a).toNat = storeAddr n off) (halign : off % 2 ^ k = 0) (hoff : off < 0x400000)
    (hseal : sealDeltaOf s (storeKey p off) = 0)
    (hc : [Instr.ld8, Instr.ld16, Instr.ld32, Instr.ld64][k]? = some c) (h : AtWord s p g (encMem k a)) :
    exec (c p a) s = .next (retiredAs s p ((s.seq p).setS a.sd.toNat
      (BitVec.ofNat 64 (natOfBytes (memBytes s (storeKey p off) (2 ^ k)))))) := by
  obtain ⟨hacc, hat, hn⟩ := scalAcc_own (fn := k) hk (Nat.mod_eq_of_lt hk) haddr halign hoff hseal
  have hpart : partsOf ([scalAcc (s.seq p) k a].map (ownPart s p n)) 0 = natOfBytes (memBytes s (storeKey p off) (2 ^ k)) := by
    have hidx : (scalAcc (s.seq p) k a).i = 0 := rfl
    simp [partsOf, ownPart, hat, hn, hidx]
  have hall : ∀ x ∈ [scalAcc (s.seq p) k a], OwnAcc s p n x ∧ 0 < x.n := by
    rw [List.forall_mem_singleton]
    exact ⟨hacc, by rw [hn]; exact Nat.two_pow_pos k⟩
  rw [exec_load hc, memOp_load h hk, memLoad_own hown h.ready (fun hu => absurd hu (by decide)) hall, hpart]
  simp only [scalarEnd, stillRuns_atWord h rfl, Bool.not_true, Bool.false_eq_true, if_false]
  rw [retire_atWord h, State.seq_setSeq_same, retiredAs_setSeq]
  · simp
  · simpa using h.ready
  · simpa using h.fresh

theorem exec_store_own {n off k : Nat} {c : PClu → ScalMem → Instr} (hown : OwnStore s p n) (hk : k < 4)
    (haddr : (scalAddr (s.seq p) a).toNat = storeAddr n off) (halign : off % 2 ^ k = 0) (hoff : off < 0x400000)
    (hseal : sealDeltaOf s (storeKey p off) = 0)
    (hc : [Instr.st8, Instr.st16, Instr.st32, Instr.st64][k]? = some c) (h : AtWord s p g (encMem (4 + k) a))
    (hfree : Unlocked s p g.slot off) :
    ∃ t, exec (c p a) s = .next t ∧ StoredAs s t p ∧
      (∀ b, ¬ (storeKey p off ≤ b ∧ b < storeKey p off + 2 ^ k) → memByte t b = memByte s b) ∧
      memBytes t (storeKey p off) (2 ^ k) = bytesOfNat (2 ^ k) ((s.seq p).s a.sd.toNat).toNat ∧
      sealDeltaOf t (storeKey p off) = 0 := by
  have hmod : (4 + k) % 4 = k := by omega
  obtain ⟨hacc, hat, hn⟩ := scalAcc_own (fn := 4 + k) hk hmod haddr halign hoff hseal
  have hall : ∀ x ∈ [scalAcc (s.seq p) (4 + k) a], OwnStoreAcc s p n g.slot x := by
    rw [List.forall_mem_singleton]
    exact ⟨hacc, by rw [hn]; exact Nat.two_pow_pos k, rfl, by rw [hat]; exact hfree⟩
  obtain ⟨t, hstore, hstored, hbytes, hseals⟩ := memStore_own (unit := 4) (g := g)
    (fin := fun s f => scalarEnd s p g true f (fun s => retire s p)) hown hall
  have hval : (scalAcc (s.seq p) (4 + k) a).val = ((s.seq p).s a.sd.toNat).toNat % 2 ^ (8 * 2 ^ k) := by
    rw [scalAcc, hmod]
  have hlaid (b : Nat) : memByte (retire t p) b = if storeKey p off ≤ b ∧ b < storeKey p off + 2 ^ k
      then BitVec.ofNat 8 (((s.seq p).s a.sd.toNat).toNat % 2 ^ (8 * 2 ^ k) / 2 ^ (8 * (b - storeKey p off)))
      else memByte s b := by
    rw [memByte_retire h hstored, hbytes, laid, List.foldl_cons, List.foldl_nil, layAcc, hat, hn, hval]
  refine ⟨retire t p, ?_, storedAs_retire h hstored, fun b hb => ?_, ?_, ?_⟩
  · rw [exec_store hc, memOp_store h (by omega) (by omega), hstore]
    simp only [scalarEnd, stillRuns_atWord h (show (t.seq p).prog = (s.seq p).prog by rw [State.seq, State.clu, hstored.core]; rfl),
      Bool.not_true, Bool.false_eq_true, if_false]
  · rw [hlaid, if_neg hb]
  · rw [memBytes_eq_bytesOfNat fun j hj => by
      rw [hlaid, if_pos ⟨Nat.le_add_right _ _, by omega⟩, Nat.add_sub_cancel_left]]
    refine bytesOfNat_congr _ ?_
    rw [Nat.pow_mul 2 8, Nat.mod_mod]
  · rw [retire_of_clus_eq h (by rw [hstored.core])]
    exact hseals _ hseal

/-! ## Misaligned scalar accesses -/

theorem scalarFault_ends {o : Op} {w : Nat} (h : AtWord s p g w) (ho : OpRuns s g.slot o) (v : Nat) (write : Bool) :
    (scalarFault s p stBus v write).store = s.store ∧
    ((scalarFault s p stBus v write).seq p).prog = none ∧ ((scalarFault s p stBus v write).seq p).faultValid = true ∧
    ((scalarFault s p stBus v write).seq p).faultIndex = 0x7FF ∧
    ((scalarFault s p stBus v write).seq p).faultDir = write ∧
    EndedIn (scalarFault s p stBus v write) g.slot o stVector (detail2 (0xFFFF + stBus * 2 ^ 16 + boolNat write * 2 ^ 24) v) := by
  obtain ⟨hclu, hstore, hended⟩ := endProgram_of_runs (g := g) (o := o) (p := p) (s := s.setSeq p { s.seq p with
      faultIndex := 0x7FF, faultValid := true, faultDir := write, faultCause := stBus, faultAddr := BitVec.ofNat 64 v })
    (by rw [State.seq_setSeq_same]; exact h.runs) (by rw [State.seq_setSeq_same]; exact h.ready) ho stVector
    (detail2 (0xFFFF + stBus * 2 ^ 16 + boolNat write * 2 ^ 24) v)
  refine ⟨hstore, ?_, ?_, ?_, ?_, hended⟩
  all_goals rw [State.seq, scalarFault, hclu, State.seq_setSeq_same]
  all_goals rfl

theorem scalAcc_misaligned {k fn : Nat} (hk : 1 ≤ k ∧ k < 4) (hfn : fn % 4 = k) (hmis : (scalAddr (s.seq p) a).toNat % 2 ^ k ≠ 0) :
    (scalAcc (s.seq p) fn a).ok = false ∧ (scalAcc (s.seq p) fn a).n ≠ 16 := by
  obtain ⟨h1, h2⟩ := hk
  refine ⟨by simpa [scalAcc, hfn] using hmis, ?_⟩
  simp only [scalAcc, hfn]
  interval_cases k <;> decide

theorem exec_load_misaligned {k : Nat} {c : PClu → ScalMem → Instr} (hk : 1 ≤ k ∧ k < 4)
    (hmis : (scalAddr (s.seq p) a).toNat % 2 ^ k ≠ 0)
    (hc : [Instr.ld8, Instr.ld16, Instr.ld32, Instr.ld64][k]? = some c) (h : AtWord s p g (encMem k a)) :
    exec (c p a) s = .next (scalarFault s p stBus (scalAddr (s.seq p) a).toNat false) := by
  obtain ⟨hok, hn⟩ := scalAcc_misaligned hk (Nat.mod_eq_of_lt hk.2) hmis
  have hnear : NearAccs s [scalAcc (s.seq p) k a] := List.forall_mem_singleton.mpr (.inr ⟨hok, hn⟩)
  rw [exec_load hc, memOp_load h hk.2, memLoad_near h.ready (fun hu => absurd hu (by decide)) hnear]
  simp only [loadAll, loadOne, hok, Bool.not_false, if_true, reqDrop_nil, scalarEnd, stillRuns_atWord h rfl, Bool.not_true,
    Bool.false_eq_true, if_false]
  rfl

theorem exec_store_misaligned {k : Nat} {c : PClu → ScalMem → Instr} (hk : 1 ≤ k ∧ k < 4)
    (hmis : (scalAddr (s.seq p) a).toNat % 2 ^ k ≠ 0)
    (hc : [Instr.st8, Instr.st16, Instr.st32, Instr.st64][k]? = some c) (h : AtWord s p g (encMem (4 + k) a))
    (hlock : ∀ x, accKey s (scalAddr (s.seq p) a) = some x → readLocked s (.prog p) x = false)
    (hnear : (accRemote s (scalAddr (s.seq p) a)).isNone) :
    exec (c p a) s = .next (scalarFault s p stBus (scalAddr (s.seq p) a).toNat true) := by
  obtain ⟨hok, -⟩ := scalAcc_misaligned hk (by omega : (4 + k) % 4 = k) hmis
  have haddr : (scalAcc (s.seq p) (4 + k) a).a = scalAddr (s.seq p) a := rfl
  have hunlocked : ([scalAcc (s.seq p) (4 + k) a].any (fun x => (accKey s x.a).any (readLocked s (.prog p)))) = false := by
    rw [List.any_cons, List.any_nil, Bool.or_false, haddr]
    cases hkey : accKey s (scalAddr (s.seq p) a) with
    | none => rfl
    | some x => exact hlock x hkey
  have hall : ([scalAcc (s.seq p) (4 + k) a].all (fun x => (accRemote s x.a).isNone)) = true := by
    rw [List.all_cons, List.all_nil, Bool.and_true, haddr]
    exact hnear
  rw [exec_store hc, memOp_store h (by omega) (by omega), memStore, hunlocked, hall, if_neg Bool.false_ne_true, if_pos rfl]
  simp only [storeWalk, storeOne, hok, Bool.not_false, if_true, commitStaged, List.foldl_nil, reqDrop_nil, scalarEnd,
    stillRuns_atWord h rfl, Bool.not_true, Bool.false_eq_true, if_false]
  rfl

end

/-- Settles O13: an aligned scalar access takes its bytes from the own store or puts them there, and a misaligned one ends
the program. -/
theorem scalarMemory : Obligations.ScalarMemory := by
  unfold Obligations.ScalarMemory
  refine ⟨fun s p g a n off k hown hk haddr halign hoff hseal => ⟨fun c hc h => ?_, fun c hc h hfree => ?_⟩,
    fun s p g a o v k ho h1 hk hv hmis => ⟨fun c hc h => ?_, fun c hc h hlock hnear => ?_⟩⟩
  · exact exec_load_own hown hk haddr halign hoff hseal hc h
  · exact exec_store_own hown hk haddr halign hoff hseal hc h hfree
  · subst hv
    obtain ⟨hstore, hprog, hvalid, hindex, hdir, hended⟩ := scalarFault_ends h ho (scalAddr (s.seq p) a).toNat false
    exact ⟨_, exec_load_misaligned ⟨h1, hk⟩ hmis hc h, hstore, hprog, hvalid, hindex, hdir, hended⟩
  · have hof : BitVec.ofNat 64 v = scalAddr (s.seq p) a := by
      rw [hv, BitVec.ofNat_toNat, BitVec.setWidth_eq]
      rfl
    rw [hof] at hlock hnear
    subst hv
    obtain ⟨hstore, hprog, hvalid, hindex, hdir, hended⟩ := scalarFault_ends h ho (scalAddr (s.seq p) a).toNat true
    exact ⟨_, exec_store_misaligned ⟨h1, hk⟩ hmis hc h hlock hnear, hstore, hprog, hvalid, hindex, hdir, hended⟩

end Sys2Proof.Machine
end

section
/-! PROOF. Vector loads and stores, and window records, in the own store (spec/06 R173, R175 to R177; spec/04 R120, R124;
log 30). -/

namespace Sys2Proof.Machine

open Sys2Proof.Tests

/-! ## Which store a byte keeps -/

section
variable {p n : Nat} {f : Nat → Byte} {b : Nat}

theorem layAcc_of_covers {x : MemAcc} (h : covers p n x b) :
    layAcc p n f x b = BitVec.ofNat 8 (x.val / 2 ^ (8 * (b - storeKey p (accOff n x)))) := if_pos h

theorem layAcc_of_not_covers {x : MemAcc} (h : ¬ covers p n x b) : layAcc p n f x b = f b := if_neg h

/-- A byte that no store covers. -/
theorem laid_beside {l : List MemAcc} (h : ∀ x ∈ l, ¬ covers p n x b) : laid p n f l b = f b := by
  induction l generalizing f with
  | nil => rfl
  | cons x t ih =>
    rw [List.forall_mem_cons] at h
    rw [laid, List.foldl_cons, ← laid, ih h.2, layAcc_of_not_covers h.1]

/-- A byte keeps the store of the highest-indexed element that covers it. -/
theorem laid_last {l : List MemAcc} (hord : l.Pairwise (fun x y => x.i < y.i)) {x : MemAcc} (hx : x ∈ l)
    (hb : covers p n x b) (hlast : ∀ y ∈ l, x.i < y.i → ¬ covers p n y b) :
    laid p n f l b = BitVec.ofNat 8 (x.val / 2 ^ (8 * (b - storeKey p (accOff n x)))) := by
  induction l generalizing f with
  | nil => exact absurd hx List.not_mem_nil
  | cons y t ih =>
    obtain ⟨hy, ht⟩ := List.pairwise_cons.mp hord
    rw [laid, List.foldl_cons, ← laid]
    rcases List.mem_cons.mp hx with rfl | hx
    · rw [laid_beside fun z hz => hlast z (List.mem_cons_of_mem _ hz) (hy z hz), layAcc_of_covers hb]
    · exact ih ht hx fun z hz => hlast z (List.mem_cons_of_mem _ hz)

end

/-! ## VST and VSCATTER -/

theorem wideAccs_ordered (q : Seq) (r : VRegs) (addr : Nat → W64) :
    (wideAccs q r addr).Pairwise (fun x y => x.i < y.i) := by
  rw [wideAccs, List.pairwise_map]
  exact List.pairwise_lt_range.filter _

theorem wideAccs_whole {q : Seq} {r : VRegs} {addr : Nat → W64} (hfmt : 8 ≤ fmtBits q.fmt) {x : MemAcc}
    (hx : x ∈ wideAccs q r addr) : 0 < x.n ∧ x.mask = fullMask x.n := by
  obtain ⟨i, -, rfl⟩ := List.mem_map.mp hx
  refine ⟨?_, rfl⟩
  simp only [wideAcc]
  omega

section
variable {s : State} {p : PClu} {g : Prog}

theorem exec_vst_eq {a : VMem} (h : AtWord s p g (encVMem 1 a)) (hfmt : 8 ≤ fmtBits (s.seq p).fmt) :
    exec (.vst p a) s = .next (vecStore s p g (linearAccs (s.seq p) a.r a.strided)) := by
  have hr : vregsOf (encVMem 1 a) = a.r := vregsOf_encVec 11 a.r (encVMem_low_lt a (by decide))
  obtain ⟨h7, h8⟩ := encVMem_bits a (by decide : 1 < 2)
  change execVst p a s = _
  rw [execVst, issue_whole h (wordLegal_encVMem a (by decide) hfmt)]
  simp only [linearMem, hr, h7, h8]
  rfl

theorem exec_vscatter_eq {r : VRegs} (h : AtWord s p g (encGath 1 r)) (hlegal : legalGath (s.seq p) (encGath 1 r) = true) :
    exec (.vscatter p r) s = .next (vecStore s p g (indexedAccs (s.seq p) r)) := by
  have hr : vregsOf (encGath 1 r) = r := vregsOf_encVec 12 r (by decide)
  have h8 := encGath_bit r (by decide : 1 < 2)
  change execVscatter p r s = _
  rw [execVscatter, issue_whole h (by rw [wordLegal_encGath _ _ (by decide), hlegal])]
  simp only [indexedMem, hr, h8]
  rfl

theorem vecStore_own {n w : Nat} {l : List MemAcc} (h : AtWord s p g w) (hown : OwnStore s p n)
    (hl : ∀ x ∈ l, OwnStoreAcc s p n g.slot x) :
    ∃ t, vecStore s p g l = t ∧ StoredAs s t p ∧ ∀ b, memByte t b = laid p n (memByte s) l b := by
  obtain ⟨t, hstore, hstored, hbytes, -⟩ := memStore_own (unit := 3) (g := g) (fin := fun s f => vecEnd s p g true f) hown hl
  have hprog : (t.seq p).prog = (s.seq p).prog := by
    rw [State.seq, State.clu, hstored.core]
    rfl
  refine ⟨retire t p, ?_, storedAs_retire h hstored, fun b => by rw [memByte_retire h hstored, hbytes]⟩
  rw [vecStore, hstore]
  simp only [vecEnd, stillRuns_atWord h hprog, Bool.not_true, Bool.false_eq_true, if_false]

end

/-- Settles O14: vector loads take each active element's bytes from the own store, and vector stores put them there in the
elements' order. -/
theorem vectorMemory : Obligations.VectorMemory := by
  unfold Obligations.VectorMemory
  refine ⟨fun s p g n f hown hf hfmt hte _ => ?_, fun s p g n hown hfmt c l hc hl => ?_⟩
  · subst hf
    refine ⟨fun a h hacc => ?_, fun r h hlegal hacc => ?_⟩
    · rw [linearAccs_atWord h a hfmt] at hacc
      obtain ⟨q, hq, hlanes⟩ := vecLoad_own ((s.seq p).s a.r.vs1.toNat).toNat h hown hfmt hte hacc
      exact ⟨q, by rw [exec_vld_eq h hfmt, linearAccs_atWord h a hfmt, hq], hlanes⟩
    · rw [indexedAccs_atWord h r] at hacc
      obtain ⟨q, hq, hlanes⟩ := vecLoad_own ((s.seq p).s r.vs1.toNat).toNat h hown hfmt hte hacc
      exact ⟨q, by rw [exec_vgather_eq h hlegal, indexedAccs_atWord h r, hq], hlanes⟩
  · obtain ⟨w, r, addr, h, hexec, rfl⟩ : ∃ w r addr, AtWord s p g w ∧ exec c s = .next (vecStore s p g l) ∧
        l = wideAccs (s.seq p) r addr := by
      rcases hc with ⟨a, rfl, h, rfl⟩ | ⟨r, rfl, h, hlegal, rfl⟩
      · exact ⟨_, a.r, linearAddr (s.seq p) a, h, exec_vst_eq h hfmt, linearAccs_atWord h a hfmt⟩
      · exact ⟨_, r, indexedAddr (s.seq p) r, h, exec_vscatter_eq h hlegal, indexedAccs_atWord h r⟩
    obtain ⟨t, hstore, hstored, hbytes⟩ := vecStore_own h hown fun x hx =>
      ⟨(hl x hx).1, (wideAccs_whole hfmt hx).1, (wideAccs_whole hfmt hx).2, (hl x hx).2⟩
    refine ⟨t, by rw [hexec, hstore], hstored, fun b hb => by rw [hbytes, laid_beside hb], fun x hx j hj hlast => ?_⟩
    have hcov : covers p n x (storeKey p (accOff n x) + j) := ⟨Nat.le_add_right _ _, by omega⟩
    rw [hbytes, laid_last (wideAccs_ordered _ _ _) hx hcov hlast, Nat.add_sub_cancel_left]

/-! ## Window records -/

theorem natOfBytes_append (a b : List Byte) : natOfBytes (a ++ b) = natOfBytes a + 256 ^ a.length * natOfBytes b := by
  induction a with
  | nil => simp [natOfBytes]
  | cons x t ih =>
    simp only [List.cons_append, natOfBytes, ih, List.length_cons, Nat.pow_succ]
    ring

theorem memBytes_add (s : State) (a m n : Nat) : memBytes s a (m + n) = memBytes s a m ++ memBytes s (a + m) n := by
  induction m generalizing a with
  | zero => simp [memBytes]
  | succ m ih =>
    rw [Nat.succ_add, memBytes, ih, memBytes, List.cons_append]
    congr 3
    omega

/-- Two accesses that adjoin are one record of the own store. -/
def recordParts (a : W64) (data : List Byte) (k : Nat) : List MemAcc :=
  [⟨0, a, k, natOfBytes data % 2 ^ (8 * k), fullMask k, true⟩,
   ⟨0, a + BitVec.ofNat 64 k, 160 - k, natOfBytes data / 2 ^ (8 * k), fullMask (160 - k), true⟩]

theorem fullMask_mod {k n : Nat} (h : k ≤ n) : fullMask n % 2 ^ (8 * k) = fullMask k := by
  rw [fullMask, fullMask]
  apply Nat.eq_of_testBit_eq
  intro j
  rw [Nat.testBit_mod_two_pow, Nat.testBit_two_pow_sub_one, Nat.testBit_two_pow_sub_one, ← Bool.decide_and]
  congr 1
  apply propext
  omega

theorem fullMask_div (k n : Nat) : fullMask n / 2 ^ (8 * k) = fullMask (n - k) := by
  rw [fullMask, fullMask, ← Nat.shiftRight_eq_div_pow]
  apply Nat.eq_of_testBit_eq
  intro j
  rw [Nat.testBit_shiftRight, Nat.testBit_two_pow_sub_one, Nat.testBit_two_pow_sub_one]
  congr 1
  apply propext
  omega

/-- A record is one access, or two where a parcel ends within it. -/
theorem recordAccs_eq (a : W64) (data : List Byte) : recordAccs a data =
    if 160 ≤ 4096 - a.toNat % 4096 then [⟨0, a, 160, natOfBytes data, fullMask 160, true⟩]
    else recordParts a data (4096 - a.toNat % 4096) := by
  rw [recordAccs, splitAcc]
  simp only [Bool.not_true, Bool.or_false, decide_eq_true_eq]
  split
  · rfl
  next h => rw [recordParts, fullMask_mod (by omega), fullMask_div]

section
variable {s : State} {p n off : Nat} {a : W64} {data : List Byte}

/-- The parcel's bytes that a record's address leaves. -/
theorem storeAddr_mod (n off : Nat) : storeAddr n off % 4096 = off % 4096 := by
  unfold storeAddr
  omega

/-- The accesses of a record in the own store, by where they lie. -/
theorem recordAccs_places (ha : a.toNat = storeAddr n off) (hn : n < 2048) (hin : off + 160 ≤ 0x400000) :
    (160 ≤ 4096 - off % 4096 ∧ ∃ x, recordAccs a data = [x] ∧ x = ⟨0, a, 160, natOfBytes data, fullMask 160, true⟩ ∧
      accOff n x = off) ∨
    (¬ 160 ≤ 4096 - off % 4096 ∧ ∃ x y, recordAccs a data = [x, y] ∧
      x = ⟨0, a, 4096 - off % 4096, natOfBytes data % 2 ^ (8 * (4096 - off % 4096)), fullMask (4096 - off % 4096), true⟩ ∧
      accOff n x = off ∧ y.a.toNat = storeAddr n (off + (4096 - off % 4096)) ∧ accOff n y = off + (4096 - off % 4096) ∧
      y = ⟨0, y.a, 160 - (4096 - off % 4096), natOfBytes data / 2 ^ (8 * (4096 - off % 4096)),
        fullMask (160 - (4096 - off % 4096)), true⟩) := by
  rw [recordAccs_eq, ha, storeAddr_mod]
  have hlow (x : MemAcc) (hx : x.a = a) : accOff n x = off := by
    rw [accOff, hx, ha]
    unfold storeAddr
    omega
  split
  next hk => exact .inl ⟨hk, _, rfl, rfl, hlow _ rfl⟩
  next hk =>
    have hhigh : (a + BitVec.ofNat 64 (4096 - off % 4096)).toNat = storeAddr n (off + (4096 - off % 4096)) := by
      rw [BitVec.toNat_add, BitVec.toNat_ofNat, ha]
      unfold storeAddr
      omega
    refine .inr ⟨hk, _, _, rfl, rfl, hlow _ rfl, hhigh, ?_, rfl⟩
    rw [accOff, hhigh]
    unfold storeAddr
    omega

/-- Whether the own store's parcel can be altered depends on the parcel alone. -/
theorem unlocked_of_parcel {slot off' : Nat} (hpar : off' - off' % 4096 = off - off % 4096) (h : Unlocked s p slot off) :
    Unlocked s p slot off' := by
  have hfloor : storeKey p off' - storeKey p off' % 4096 = storeKey p off - storeKey p off % 4096 := by
    rw [storeKey_floor, storeKey_floor, hpar]
  obtain ⟨hlock, hclash⟩ := h
  refine ⟨?_, by rw [hfloor]; exact hclash⟩
  unfold readLocked at hlock ⊢
  rw [hfloor]
  exact hlock

theorem sealDeltaOf_of_parcel {off' : Nat} (hpar : off' - off' % 4096 = off - off % 4096)
    (h : sealDeltaOf s (storeKey p off) = 0) : sealDeltaOf s (storeKey p off') = 0 := by
  rw [← sealDeltaOf_storeKey_floor, hpar, sealDeltaOf_storeKey_floor]
  exact h

/-- The accesses of a record lie in the own store's parcels that hold its first and its last byte. -/
theorem recordAccs_own (ha : a.toNat = storeAddr n off) (hn : n < 2048) (hin : off + 160 ≤ 0x400000)
    (hfirst : sealDeltaOf s (storeKey p off) = 0) (hlast : sealDeltaOf s (storeKey p (off + 159)) = 0) :
    ∀ x ∈ recordAccs a data, OwnAcc s p n x ∧ 0 < x.n ∧ x.mask = fullMask x.n ∧
      (accOff n x = off ∨ accOff n x - accOff n x % 4096 = off + 159 - (off + 159) % 4096) := by
  have hle : storeAddr n 0 ≤ storeAddr n off := by unfold storeAddr; omega
  rcases recordAccs_places (data := data) ha hn hin with ⟨hk, x, hl, hx, hxo⟩ | ⟨hk, x, y, hl, hx, hxo, hya, hyo, hy⟩
  · rw [hl, List.forall_mem_singleton]
    have hxn : x.n = 160 := by rw [hx]
    have hxa : x.a = a := by rw [hx]
    exact ⟨⟨by rw [hx], by rw [hxa, ha]; exact hle, by omega, by omega, by rw [hxo]; exact hfirst⟩, by omega, by rw [hx],
      .inl hxo⟩
  · have hyle : storeAddr n 0 ≤ y.a.toNat := by rw [hya]; unfold storeAddr; omega
    have hpar : accOff n y - accOff n y % 4096 = off + 159 - (off + 159) % 4096 := by omega
    have hxn : x.n = 4096 - off % 4096 := by rw [hx]
    have hxa : x.a = a := by rw [hx]
    have hyn : y.n = 160 - (4096 - off % 4096) := by rw [hy]
    rw [hl, List.forall_mem_cons, List.forall_mem_singleton]
    exact ⟨⟨⟨by rw [hx], by rw [hxa, ha]; exact hle, by omega, by omega, by rw [hxo]; exact hfirst⟩, by omega, by rw [hx],
        .inl hxo⟩,
      ⟨by rw [hy], hyle, by omega, by omega, sealDeltaOf_of_parcel hpar hlast⟩, by omega, by rw [hy], .inr hpar⟩

/-- Memory after a record was stored. -/
theorem laid_recordAccs (ha : a.toNat = storeAddr n off) (hn : n < 2048) (hin : off + 160 ≤ 0x400000) (f : Nat → Byte)
    (b : Nat) : laid p n f (recordAccs a data) b =
      if storeKey p off ≤ b ∧ b < storeKey p off + 160
      then BitVec.ofNat 8 (natOfBytes data / 2 ^ (8 * (b - storeKey p off))) else f b := by
  rcases recordAccs_places (data := data) ha hn hin with ⟨hk, x, hl, hx, hxo⟩ | ⟨hk, x, y, hl, hx, hxo, hya, hyo, hy⟩
  · have hxn : x.n = 160 := by rw [hx]
    have hxv : x.val = natOfBytes data := by rw [hx]
    rw [hl, laid, List.foldl_cons, List.foldl_nil, layAcc, hxo, hxn, hxv]
  · have hxn : x.n = 4096 - off % 4096 := by rw [hx]
    have hxv : x.val = natOfBytes data % 2 ^ (8 * (4096 - off % 4096)) := by rw [hx]
    have hyn : y.n = 160 - (4096 - off % 4096) := by rw [hy]
    have hyv : y.val = natOfBytes data / 2 ^ (8 * (4096 - off % 4096)) := by rw [hy]
    have hkey : storeKey p (off + (4096 - off % 4096)) = storeKey p off + (4096 - off % 4096) := by
      unfold storeKey
      omega
    rw [hl, laid, List.foldl_cons, List.foldl_cons, List.foldl_nil, layAcc, layAcc, hxo, hyo, hxn, hyn, hxv, hyv, hkey]
    generalize 4096 - off % 4096 = k at *
    generalize storeKey p off = key at *
    by_cases hhigh : key + k ≤ b ∧ b < key + k + (160 - k)
    · rw [if_pos hhigh, if_pos (by omega), Nat.div_div_eq_div_mul, ← Nat.pow_add]
      congr 3
      omega
    · rw [if_neg hhigh]
      by_cases hlow : key ≤ b ∧ b < key + k
      · rw [if_pos hlow, if_pos (by omega)]
        obtain ⟨j, rfl⟩ := Nat.exists_eq_add_of_le hlow.1
        rw [Nat.add_sub_cancel_left]
        have hj : j < k := by omega
        have hbytes := bytesOfNat_congr k (m := natOfBytes data % 2 ^ (8 * k)) (n := natOfBytes data)
          (by rw [Nat.pow_mul 2 8, Nat.mod_mod])
        rw [← getD_bytesOfNat k _ j hj, hbytes, getD_bytesOfNat k _ j hj]
      · rw [if_neg hlow, if_neg (by omega)]

/-- The bytes of a record that was loaded. -/
theorem recordOf_recordAccs (ha : a.toNat = storeAddr n off) (hn : n < 2048) (hin : off + 160 ≤ 0x400000) :
    recordOf ((recordAccs a data).map (ownPart s p n)) = memBytes s (storeKey p off) 160 := by
  have hparts : partsOf ((recordAccs a data).map (ownPart s p n)) 0 = natOfBytes (memBytes s (storeKey p off) 160) := by
    rcases recordAccs_places (data := data) ha hn hin with ⟨hk, x, hl, hx, hxo⟩ | ⟨hk, x, y, hl, hx, hxo, hya, hyo, hy⟩
    · have hxn : x.n = 160 := by rw [hx]
      have hxi : x.i = 0 := by rw [hx]
      simp [hl, partsOf, ownPart, hxo, hxn, hxi]
    · have hxn : x.n = 4096 - off % 4096 := by rw [hx]
      have hxi : x.i = 0 := by rw [hx]
      have hyn : y.n = 160 - (4096 - off % 4096) := by rw [hy]
      have hyi : y.i = 0 := by rw [hy]
      have hkey : storeKey p (off + (4096 - off % 4096)) = storeKey p off + (4096 - off % 4096) := by
        unfold storeKey
        omega
      have hsplit := memBytes_add s (storeKey p off) (4096 - off % 4096) (160 - (4096 - off % 4096))
      rw [Nat.add_sub_of_le (by omega)] at hsplit
      have hpow : 256 ^ (4096 - off % 4096) = 2 ^ (8 * (4096 - off % 4096)) := (Nat.pow_mul 2 8 _).symm
      rw [hsplit, natOfBytes_append, memBytes_length, hpow, Nat.mul_comm (2 ^ _)]
      simp [hl, partsOf, ownPart, hxo, hyo, hxn, hyn, hxi, hyi, hkey]
  have hlen := memBytes_length s (storeKey p off) 160
  rw [recordOf, hparts]
  have hbytes := bytesOfNat_natOfBytes (memBytes s (storeKey p off) 160)
  rwa [hlen] at hbytes

end

/-! ## WSAVE and WLOAD -/

theorem winBytes_length (w : Win) : (winBytes w).length = 160 := by
  rw [winBytes, List.length_append, winBody_length, bytesOfNat_length]

section
variable {s : State} {p : PClu} {g : Prog} {a : VWin}

theorem encWin_fields {op : Nat} (a : VWin) (hop : op < 8) :
    field (encWin op a) 6 3 = op ∧ field (encWin op a) 18 5 = a.r.vs1.toNat := by
  have hlow := a.low.isLt
  have hlt : op * 64 + a.low.toNat < 2 ^ 9 := by omega
  obtain ⟨-, -, hv1, -⟩ := encVec_fields 13 a.r hlt
  refine ⟨?_, hv1⟩
  rw [encWin, field_encVec_low _ _ hlt (by decide), field]
  omega

theorem exec_wsave_eq (h : AtWord s p g (encWin 6 a)) (hlegal : legalWin (encWin 6 a) = true) :
    exec (.wsave p a) s = .next (windowSave s p g ((s.seq p).s a.r.vs1.toNat)) := by
  obtain ⟨hop, hv1⟩ := encWin_fields a (by decide : 6 < 8)
  change execWsave p a s = _
  rw [execWsave, issue_whole h (by rw [wordLegal_encWin _ _ (by decide), hlegal]), windowMem, hop, hv1]
  rfl

theorem exec_wload_eq (h : AtWord s p g (encWin 7 a)) (hlegal : legalWin (encWin 7 a) = true) :
    exec (.wload p a) s = .next (windowLoad s p g ((s.seq p).s a.r.vs1.toNat)) := by
  obtain ⟨hop, hv1⟩ := encWin_fields a (by decide : 7 < 8)
  change execWload p a s = _
  rw [execWload, issue_whole h (by rw [wordLegal_encWin _ _ (by decide), hlegal]), windowMem, hop, hv1]
  rfl

theorem windowSave_own {n off w : Nat} {x : W64} (h : AtWord s p g w) (hown : OwnStore s p n) (hx : x.toNat = storeAddr n off)
    (hin : off + 160 ≤ 0x400000) (hfirst : sealDeltaOf s (storeKey p off) = 0)
    (hlast : sealDeltaOf s (storeKey p (off + 159)) = 0) (hfree : Unlocked s p g.slot off)
    (hfree' : Unlocked s p g.slot (off + 159)) :
    StoredAs s (windowSave s p g x) p ∧
      (∀ b, ¬ (storeKey p off ≤ b ∧ b < storeKey p off + 160) → memByte (windowSave s p g x) b = memByte s b) ∧
      memBytes (windowSave s p g x) (storeKey p off) 160 = winBytes (s.clu p).win := by
  have hall : ∀ y ∈ recordAccs x (winBytes (s.clu p).win), OwnStoreAcc s p n g.slot y := by
    intro y hy
    obtain ⟨hacc, hpos, hmask, hplace⟩ := recordAccs_own hx hown.lclu hin hfirst hlast y hy
    refine ⟨hacc, hpos, hmask, ?_⟩
    rcases hplace with hoff | hpar
    · exact hoff ▸ hfree
    · exact unlocked_of_parcel hpar hfree'
  obtain ⟨t, hstore, hstored, hbytes, -⟩ := memStore_own (unit := 4) (g := g)
    (fin := fun s f => scalarEnd s p g true f (fun s => retire s p)) hown hall
  have hprog : (t.seq p).prog = (s.seq p).prog := by
    rw [State.seq, State.clu, hstored.core]
    rfl
  have hsave : windowSave s p g x = retire t p := by
    rw [windowSave, hstore]
    simp only [scalarEnd, stillRuns_atWord h hprog, Bool.not_true, Bool.false_eq_true, if_false]
  have hlaid (b : Nat) := (memByte_retire h hstored b).trans ((hbytes b).trans (laid_recordAccs hx hown.lclu hin (memByte s) b))
  rw [hsave]
  refine ⟨storedAs_retire h hstored, fun b hb => by rw [hlaid, if_neg hb], ?_⟩
  have hrecord := bytesOfNat_natOfBytes (winBytes (s.clu p).win)
  rw [winBytes_length] at hrecord
  rw [← hrecord]
  refine memBytes_eq_bytesOfNat fun j hj => ?_
  rw [hlaid, if_pos ⟨Nat.le_add_right _ _, by omega⟩, Nat.add_sub_cancel_left]

theorem windowLoad_own {n off w : Nat} {x : W64} (h : AtWord s p g w) (hown : OwnStore s p n) (hx : x.toNat = storeAddr n off)
    (hin : off + 160 ≤ 0x400000) (hfirst : sealDeltaOf s (storeKey p off) = 0)
    (hlast : sealDeltaOf s (storeKey p (off + 159)) = 0) (hcheck : winCheckOk (memBytes s (storeKey p off) 160) = true)
    (hbase : (winOfBytes (memBytes s (storeKey p off) 160)).base = (s.clu p).win.base) :
    windowLoad s p g x = s.setClu p { s.clu p with
      win := winCombine (s.clu p).win (winOfBytes (memBytes s (storeKey p off) 160)),
      seq := { s.seq p with pc := (s.seq p).pc + 4 } } := by
  have hall : ∀ y ∈ recordAccs x [], OwnAcc s p n y ∧ 0 < y.n := fun y hy =>
    ⟨(recordAccs_own hx hown.lclu hin hfirst hlast y hy).1, (recordAccs_own hx hown.lclu hin hfirst hlast y hy).2.1⟩
  rw [windowLoad, memLoad_own hown h.ready (fun hu => absurd hu (by decide)) hall, recordOf_recordAccs hx hown.lclu hin]
  simp only [scalarEnd, stillRuns_atWord h rfl, Bool.not_true, Bool.false_eq_true, if_false, loadRecord, hcheck, hbase,
    bne_self_eq_false]
  exact retire_setWin h _

end

/-- Settles O16: the record goes to and comes from its 160 bytes of the own store, in one parcel or two. -/
theorem windowRecords : Obligations.WindowRecords := by
  unfold Obligations.WindowRecords
  intro s p g a n off hown haddr hin hfirst hlast
  refine ⟨fun h hlegal hfree hfree' => ?_, fun h hlegal hcheck hbase => ?_⟩
  · exact ⟨_, exec_wsave_eq h hlegal, windowSave_own h hown haddr hin hfirst hlast hfree hfree'⟩
  · rw [exec_wload_eq h hlegal, windowLoad_own h hown haddr hin hfirst hlast hcheck hbase]

end Sys2Proof.Machine
end

section
/-! PROOF. The start of a queued program (spec/06 R152, R154, R183). -/

namespace Sys2Proof.Machine

/-! ## Operations that start (00 R14) -/

theorem ReportsOnly.core {s t : State} (h : ReportsOnly s t) : t.core = s.core := by
  obtain ⟨_, _, _, _, rfl⟩ := h
  rfl

theorem ReportsOnly.store {s t : State} (h : ReportsOnly s t) : t.store = s.store := by
  obtain ⟨_, _, _, _, rfl⟩ := h
  rfl

theorem setReceipt_reports (s : State) (slot : Nat) (o : Op) : ReportsOnly (s.setOp slot o) (setReceipt s slot o) :=
  mirrorReceipt_reports _ _

/-- An operation that had not started is in progress, and the rest is reports. -/
theorem opStart_reports {s : State} {slot : Nat} {o : Op} (h : s.op slot = some o) (hst : o.rcpt.state = .notStarted) :
    ReportsOnly (s.setOp slot { o with place := .running, rcpt := { o.rcpt with state := .inProgress } })
      (opStart s slot) := by
  simp only [opStart, h, hst, if_true]
  exact setReceipt_reports _ _ _

/-! ## Registers at the start of a program -/

theorem Seq.s_setS (q : Seq) (r k : Nat) (v : W64) :
    (q.setS r v).s k = if k = 0 then 0 else if r = k then v else q.s k := by
  by_cases hr : r = 0
  · subst hr
    by_cases hk : k = 0
    · simp [Seq.s, hk]
    · simp [Seq.setS, hk, Ne.symm hk]
  · by_cases hk : k = 0
    · simp [Seq.s, hk]
    · simp [Seq.setS, Seq.s, hr, hk, kget_kset]

/-- A program that nothing keeps from starting takes the sequencer. -/
theorem exec_programStart {s : State} {n : LClu} {slot entry : Nat} {rest : List Nat} {o : Op} {p : Nat} (hp : p = physOfN s n)
    (hidle : (s.seq p).prog = none) (hprogs : (s.lclu n).progs = slot :: rest) (hmay : mayStart s n = true)
    (ho : s.op slot = some o) (hentry : entry = leAt o.payload 4 4) (halign : entry % 4 = 0) (hlt : entry < 0x400000) :
    exec (.programStart n) s = .next (opStart ((s.setLclu n { s.lclu n with progs := rest }).setSeq p
      (startSeq { slot := slot, opId := o.rcpt.opId, stream := o.rcpt.stream, lclu := n } entry
        (BitVec.ofNat 64 (leAt o.payload 8 8)))) slot) := by
  subst hp
  have hfine : (entry % 4 != 0 || decide (0x400000 ≤ entry)) = false := by simp [halign, hlt]
  change execProgramStart n s = _
  simp only [execProgramStart, hidle, hprogs, hmay, ho, ← hentry, hfine, Bool.not_true, Bool.false_eq_true, if_false]

/-- Settles O17: the queued program leaves its queue, and the registers are those of a fresh start. -/
theorem programStarts : Obligations.ProgramStarts := by
  unfold Obligations.ProgramStarts
  intro s n slot entry rest o arg q hidle hprogs hmay ho hst hentry halign hlt harg
  have hexec := exec_programStart rfl hidle hprogs hmay ho hentry halign hlt
  rw [← harg] at hexec
  generalize hg : ({ slot := slot, opId := o.rcpt.opId, stream := o.rcpt.stream, lclu := n } : Prog) = g at hexec
  generalize hu : (s.setLclu n { s.lclu n with progs := rest }).setSeq (physOfN s n) (startSeq g entry arg) = u at hexec
  have huop : u.op slot = some o := by rw [← hu]; exact ho
  have hrep := opStart_reports huop hst
  refine ⟨opStart u slot, hexec, ?_, ?_, ?_, fun hq => ?_⟩
  · rw [hrep.store, ← hu]
    rfl
  · rw [State.lclu, hrep.core, ← hu]
    exact congrArg LClus.progs (State.lclu_setLclu_same _ _ _)
  · rw [hrep.op, State.op_setOp_same]
  · have hseq : q = startSeq g entry arg := by
      rw [hq, State.seq, State.clu, hrep.core, ← hu]
      exact State.seq_setSeq_same _ _ _
    subst hseq hg
    refine ⟨by simp [startSeq], by simp [startSeq, Seq.s_setS], by simp [startSeq, Seq.s_setS], by simp [startSeq, Seq.s_setS],
      by simp [startSeq, Seq.s_setS], fun r hr => ?_, ?_⟩
    · rcases hr with rfl | hr
      · rfl
      · have h0 : r ≠ 0 := by omega
        have h1 : 1 ≠ r := by omega
        have h2 : 2 ≠ r := by omega
        have h3 : 3 ≠ r := by omega
        have h4 : 4 ≠ r := by omega
        simp [startSeq, Seq.s_setS, h0, h1, h2, h3, h4]
        simp [Seq.s, kget, kfind]
    · simp [startSeq, Seq.setS]

end Sys2Proof.Machine
end

section
/-! PROOF. Requests to the security block (spec/20): what the fields of a request are, what an idle block answers, and
the obligations on attestation and on the calibration record (O52, O53). -/

namespace Sys2Proof.Machine

/-! ## The fields of a request (R512) -/

theorem leAt_bytesOfNat_mod (n v : Nat) (rest : List Byte) : leAt (bytesOfNat n v ++ rest) 0 n = v % 256 ^ n := by
  have hlen : (bytesOfNat n v).length = n := Tests.bytesOfNat_length n v
  rw [leAt, bytesAt, List.drop_zero, List.take_append_of_le_length (by omega), List.take_of_length_le (by omega),
    Tests.natOfBytes_bytesOfNat]

theorem leAt_bytesOfNat_head (n v : Nat) (rest : List Byte) (h : v < 256 ^ n) : leAt (bytesOfNat n v ++ rest) 0 n = v := by
  rw [leAt_bytesOfNat_mod, Nat.mod_eq_of_lt h]

theorem requestBytes_cmd (cmd flag off : Nat) (rest : List Byte) (h : cmd < 256) :
    leAt (requestBytes cmd flag off rest) 0 1 = cmd := by
  rw [requestBytes, List.append_assoc, List.append_assoc, List.append_assoc]
  exact leAt_bytesOfNat_head 1 cmd _ (by simpa using h)

theorem requestBytes_flag (cmd flag off : Nat) (rest : List Byte) (h : flag < 256) :
    leAt (requestBytes cmd flag off rest) 1 1 = flag := by
  rw [requestBytes, List.append_assoc, List.append_assoc, List.append_assoc]
  exact leAt_bytesOfNat_head 1 flag _ (by simpa using h)

theorem requestBytes_off (cmd flag : Nat) (off : W32) (rest : List Byte) :
    leAt (requestBytes cmd flag off.toNat rest) 4 4 = off.toNat := by
  rw [requestBytes, List.append_assoc, List.append_assoc, List.append_assoc]
  exact leAt_bytesOfNat_head 4 off.toNat _ off.isLt

theorem requestBytes_rest (cmd flag off : Nat) (rest : List Byte) :
    (requestBytes cmd flag off rest).drop 8 = rest := rfl

/-! ## An idle block serves a request at once (R512, R515) -/

/-- The state in which the requests that wait are l. -/
def withWaiting (s : State) (l : List (List Byte)) : State := { s with sec := { s.sec with waiting := l } }

theorem takeRequest_idle (s : State) (h : SecIdle s) (q : List Byte) :
    takeRequest s q = serveAll (withWaiting s [q]) [q] := by
  obtain ⟨hstage, hempty, hidle, hloads⟩ := h
  have hroom : ¬ 4 ≤ s.sec.waiting.length := by simp [hempty]
  rw [takeRequest, if_neg (by omega), if_neg hroom, hempty]
  exact if_neg (by simp [hidle, hloads])

theorem takeRequest_served (s t : State) (h : SecIdle s) (q : List Byte)
    (hs : serveRequest (withWaiting s [q]) q = some t) : takeRequest s q = withWaiting t [] := by
  rw [takeRequest_idle s h, serveAll, hs]; rfl

theorem takeRequest_held (s : State) (h : SecIdle s) (q : List Byte)
    (hs : serveRequest (withWaiting s [q]) q = none) :
    takeRequest s q = { s with sec := { s.sec with waiting := [q], attWriting := true } } := by
  rw [takeRequest_idle s h, serveAll, hs]; rfl

/-- A request that changes the security block and the flash alone, as x and f, is answered. -/
theorem replied_respond (s : State) (x : Sec) (f : Flash) (cmd code : Nat) (rest : List Byte) :
    Replied s (withWaiting (respond { s with sec := x, flash := f } cmd code rest) []) cmd code rest := ⟨rfl, rfl, rfl⟩

/-! ## Attestation (R512 to R516) -/

section
variable {s : State} {q : List Byte}

theorem serveRequest_report_lost (hq : leAt q 0 1 = 1) (hlen : q.length = 36) (hl : s.sec.attLost = true) :
    serveRequest s q = some (respond s 1 4 []) := by
  simp [serveRequest, hq, hlen, hl]

theorem serveRequest_report_notReady (hq : leAt q 0 1 = 1) (hlen : q.length = 36) (hl : s.sec.attLost = false)
    (hr : s.sec.attReady = false) : serveRequest s q = some (respond s 1 2 []) := by
  simp [serveRequest, hq, hlen, hl, hr]

theorem serveRequest_report (hq : leAt q 0 1 = 1) (hlen : q.length = 36) (hl : s.sec.attLost = false)
    (hr : s.sec.attReady = true) :
    serveRequest s q = if 2 ^ 40 ≤ s.sec.attNext then some (respond s 1 3 [])
      else if ceiling s ≤ s.sec.attNext then none else some (signReport s (bytesAt q 4 32)) := by
  simp [serveRequest, hq, hlen, hl, hr]

theorem serveRequest_cert (hq : leAt q 0 1 = 2) (hr : s.sec.attReady = true) :
    serveRequest s q = some (respond s 2 0 (certBytes ++ Config.casgilKey ++ Config.certSignature)) := by
  simp [serveRequest, hq, hr]

theorem serveRequest_sigState (hq : leAt q 0 1 = 3) (hr : s.sec.attReady = true) :
    serveRequest s q = some (respond s 3 0 (bytesOfNat 5 s.sec.attNext ++ bytesOfNat 5 (ceiling s))) := by
  simp [serveRequest, hq, hr]

end

/-- The request for a report. -/
def reportRequest (nonce : List Byte) : List Byte := bytesOfNat 4 1 ++ nonce

theorem reportRequest_length (nonce : List Byte) (h : nonce.length = 32) : (reportRequest nonce).length = 36 := by
  rw [reportRequest, List.length_append, Tests.bytesOfNat_length, h]

theorem reportRequest_nonce (nonce : List Byte) (h : nonce.length = 32) : bytesAt (reportRequest nonce) 4 32 = nonce :=
  List.take_of_length_le (by change nonce.length ≤ 32; omega)

theorem getReport_spec (s : State) (nonce : List Byte) (h : SecIdle s) (hn : nonce.length = 32) :
    (s.sec.attLost = false → s.sec.attReady = true → s.sec.attNext < 2 ^ 40 →
      (s.sec.attNext < ceiling s →
        ∃ t, exec (.getReport nonce) s = .next t ∧ Replied s t 1 0 (reportBytes s nonce ++
            Config.xmssMtSign s.sec.attNext (asciiBytes "TLS1AT01" ++ reportBytes s nonce)) ∧
          t.sec.attNext = s.sec.attNext + 1 ∧ t.sec.signs = inc32 s.sec.signs ∧ t.flash = s.flash) ∧
      (ceiling s ≤ s.sec.attNext →
        ∃ t, exec (.getReport nonce) s = .next t ∧ t = { s with sec := t.sec } ∧ t.sec.attWriting = true ∧
          t.sec.waiting = [bytesOfNat 4 1 ++ nonce] ∧ t.sec.attNext = s.sec.attNext)) ∧
    (s.sec.attLost = true → ∃ t, exec (.getReport nonce) s = .next t ∧ Replied s t 1 4 [] ∧ t.sec.attNext = s.sec.attNext) ∧
    (s.sec.attLost = false → s.sec.attReady = false →
      ∃ t, exec (.getReport nonce) s = .next t ∧ Replied s t 1 2 [] ∧ t.sec.attNext = s.sec.attNext) ∧
    (s.sec.attLost = false → s.sec.attReady = true → 2 ^ 40 ≤ s.sec.attNext →
      ∃ t, exec (.getReport nonce) s = .next t ∧ Replied s t 1 3 [] ∧ t.sec.attNext = s.sec.attNext) := by
  have hexec : exec (.getReport nonce) s = .next (takeRequest s (reportRequest nonce)) := rfl
  have hlen := reportRequest_length nonce hn
  have hsign (hl : s.sec.attLost = false) (hr : s.sec.attReady = true) :=
    serveRequest_report (s := withWaiting s [reportRequest nonce]) (q := reportRequest nonce) rfl hlen hl hr
  refine ⟨fun hl hr hnext => ⟨fun hc => ?_, fun hc => ?_⟩, fun hl => ?_, fun hl hr => ?_, fun hl hr hnext => ?_⟩
  · have hs := hsign hl hr
    rw [if_neg (by exact Nat.not_le.mpr hnext), if_neg (by exact Nat.not_le.mpr hc), reportRequest_nonce nonce hn] at hs
    rw [hexec, takeRequest_served s _ h _ hs]
    exact ⟨_, rfl, ⟨rfl, rfl, rfl⟩, rfl, rfl, rfl⟩
  · have hs := hsign hl hr
    rw [if_neg (by exact Nat.not_le.mpr hnext), if_pos (by exact hc)] at hs
    rw [hexec, takeRequest_held s h _ hs]
    exact ⟨_, rfl, rfl, rfl, rfl, rfl⟩
  · rw [hexec, takeRequest_served s _ h _ (serveRequest_report_lost rfl hlen hl)]
    exact ⟨_, rfl, ⟨rfl, rfl, rfl⟩, rfl⟩
  · rw [hexec, takeRequest_served s _ h _ (serveRequest_report_notReady rfl hlen hl hr)]
    exact ⟨_, rfl, ⟨rfl, rfl, rfl⟩, rfl⟩
  · have hs := hsign hl hr
    rw [if_pos (by exact hnext)] at hs
    rw [hexec, takeRequest_served s _ h _ hs]
    exact ⟨_, rfl, ⟨rfl, rfl, rfl⟩, rfl⟩

/-- The ceiling that reaches flash takes the older copy's place and is 64 higher (R513). -/
theorem ceiling_raiseCeiling (s : State) (h : (ceilNow s.flash).isSome = true) :
    ceiling (raiseCeiling s) = ceiling s + 64 := by
  cases ha : s.flash.ceilA with
  | none =>
    cases hb : s.flash.ceilB with
    | none => simp [ceilNow, ceilFirst, ha, hb] at h
    | some b => simp [raiseCeiling, ceiling, ceilNow, ceilFirst, ha, hb]
  | some a =>
    cases hb : s.flash.ceilB with
    | none => simp [raiseCeiling, ceiling, ceilNow, ceilFirst, ha, hb]
    | some b =>
      by_cases hab : b.1 ≤ a.1
      · simp [raiseCeiling, ceiling, ceilNow, ceilFirst, ha, hb, hab]
      · simp [raiseCeiling, ceiling, ceilNow, ceilFirst, ha, hb, hab, show b.1 ≤ b.1 + 1 by omega]

theorem raiseCeiling_flash (s : State) : raiseCeiling s = { s with flash := (raiseCeiling s).flash } := rfl

theorem drainRequests_nothing (s : State) (hw : s.sec.waiting = []) (hi : s.image.result ≠ 1)
    (ha : s.sec.attWriting = false) : drainRequests s = withWaiting s [] := by
  rw [drainRequests, if_neg (by simp [hi, ha]), hw]
  rfl

theorem attCeilingWritten_spec (s : State) (hw : s.sec.attWriting = true) (he : s.sec.waiting = [])
    (hi : s.image.result ≠ 1) (hc : (ceilNow s.flash).isSome = true) :
    ∃ t, exec .attCeilingWritten s = .next t ∧ t = { s with sec := t.sec, flash := t.flash } ∧
      ceiling t = ceiling s + 64 ∧ t.sec.attWriting = false := by
  refine ⟨_, congrArg Host.Outcome.next ((if_neg (by simp [hw])).trans (drainRequests_nothing _ he hi rfl)), rfl, ?_, rfl⟩
  exact ceiling_raiseCeiling s hc

/-- Settles O52: an idle block serves a request at once, by the branch of `serveRequest` that its command, the state of
signing and the ceiling select. -/
theorem attestation : Obligations.Attestation := by
  unfold Obligations.Attestation
  refine ⟨getReport_spec, fun s h hr => ⟨?_, ?_⟩, attCeilingWritten_spec, fun s hs hl => ?_⟩
  · have hexec : exec .getCert s = .next (takeRequest s (bytesOfNat 4 2)) := rfl
    rw [hexec, takeRequest_served s _ h _ (serveRequest_cert rfl hr)]
    exact ⟨_, rfl, ⟨rfl, rfl, rfl⟩, rfl⟩
  · have hexec : exec .getSigState s = .next (takeRequest s (bytesOfNat 4 3)) := rfl
    rw [hexec, takeRequest_served s _ h _ (serveRequest_sigState rfl hr)]
    exact ⟨_, rfl, ⟨rfl, rfl, rfl⟩, rfl⟩
  · exact congrArg Host.Outcome.next (if_neg (by simp [hl]; omega))

/-! ## The calibration record (R517 to R520) -/

section
variable (s : State)

theorem serveRequest_calRead (off : W32) : serveRequest s (requestBytes 0x10 0 off.toNat []) =
    some (serveCalRead s off.toNat) := by
  simp [serveRequest, requestBytes_cmd, requestBytes_off]

theorem serveRequest_calArm (waive : Bool) : serveRequest s (requestBytes 0x11 (boolNat waive) 0 []) =
    some (serveCalArm s waive) := by
  cases waive <;> simp [serveRequest, requestBytes_cmd, requestBytes_flag, boolNat]

theorem serveRequest_calWrite (off : W32) (data : List Byte) : serveRequest s (requestBytes 0x12 0 off.toNat data) =
    some (serveCalWrite s off.toNat data) := by
  simp [serveRequest, requestBytes_cmd, requestBytes_off, requestBytes_rest]

theorem serveRequest_calCommit (compl : W32) (digest : List Byte) (h : digest.length = 32) :
    serveRequest s (requestBytes 0x13 0 compl.toNat digest) = some (serveCalCommit s compl.toNat digest) := by
  have hd : bytesAt (requestBytes 0x13 0 compl.toNat digest) 8 32 = digest := by
    rw [bytesAt, requestBytes_rest, List.take_of_length_le (by omega)]
  simp [serveRequest, requestBytes_cmd, requestBytes_off, hd]

theorem serveRequest_calCancel : serveRequest s (requestBytes 0x14 0 0 []) =
    some (respond { s with sec := { s.sec with armed := none } } 0x14 0 []) := by
  simp [serveRequest, requestBytes_cmd]

end

theorem foldl_kset_zipIdx (m : KMap Byte) (off k : Nat) (l : List Byte) :
    (l.zipIdx k).foldl (fun (m : KMap Byte) e => kset 0 m (off + e.2) e.1) m = putBytes m (off + k) l := by
  induction l generalizing m k with
  | nil => rfl
  | cons b t ih => rw [List.zipIdx_cons, List.foldl_cons, ih]; rfl

theorem calRead_spec (s : State) (off : W32) (h : SecIdle s) :
    (off.toNat % 1024 = 0 → off.toNat < calLength →
      ∃ t, exec (.calRead off) s = .next t ∧
        Replied s t 0x10 0 (bytesOfNat 4 calLength ++ bytesAt (calRecord s) off.toNat 1024) ∧
        off.toNat ∈ t.sec.calRead ∧ (∀ k ∈ s.sec.calRead, k ∈ t.sec.calRead) ∧ t.flash = s.flash) ∧
    (off.toNat % 1024 ≠ 0 ∨ calLength ≤ off.toNat →
      ∃ t, exec (.calRead off) s = .next t ∧ Replied s t 0x10 5 [] ∧ t.sec.calRead = s.sec.calRead) := by
  have hexec : exec (.calRead off) s = .next (takeRequest s (requestBytes 0x10 0 off.toNat [])) := rfl
  rw [hexec, takeRequest_served s _ h _ (serveRequest_calRead _ off), serveCalRead]
  refine ⟨fun h0 hl => ?_, fun hbad => ?_⟩
  · rw [if_neg (by simp [h0]; omega)]
    refine ⟨_, rfl, ⟨rfl, rfl, rfl⟩, ?_, fun k hk => ?_, rfl⟩
    · change off.toNat ∈ (if s.sec.calRead.contains off.toNat then s.sec.calRead else s.sec.calRead ++ [off.toNat])
      split
      · exact List.contains_iff_mem.mp ‹_›
      · simp
    · change k ∈ (if s.sec.calRead.contains off.toNat then s.sec.calRead else s.sec.calRead ++ [off.toNat])
      split
      · exact hk
      · exact List.mem_append_left _ hk
  · rw [if_pos (by simpa using hbad)]
    exact ⟨_, rfl, ⟨rfl, rfl, rfl⟩, rfl⟩

theorem calWrite_spec (s : State) (off : W32) (h : SecIdle s) (data : List Byte) (hd : data.length ≤ 1024)
    (hl : off.toNat + data.length ≤ calLength) :
    ((armNow s).isSome = true → ∃ t, exec (.calWrite off data) s = .next t ∧ Replied s t 0x12 0 [] ∧
      ∀ i, kget 0 t.sec.staging i =
        if off.toNat ≤ i ∧ i < off.toNat + data.length then data.getD (i - off.toNat) 0 else kget 0 s.sec.staging i) ∧
    (armNow s = none → ∃ t, exec (.calWrite off data) s = .next t ∧ Replied s t 0x12 6 [] ∧
      t.sec.staging = s.sec.staging) := by
  have hexec : exec (.calWrite off data) s = .next (takeRequest s (requestBytes 0x12 0 off.toNat data)) := rfl
  rw [hexec, takeRequest_served s _ h _ (serveRequest_calWrite _ off data), serveCalWrite,
    if_neg (by simp; omega)]
  have harm : armNow (withWaiting s [requestBytes 0x12 0 off.toNat data]) = armNow s := rfl
  rw [harm]
  refine ⟨fun ha => ?_, fun ha => ?_⟩
  · rw [if_neg (by simp [Option.isSome_iff_ne_none.mp ha])]
    refine ⟨_, rfl, ⟨rfl, rfl, rfl⟩, fun i => ?_⟩
    exact (congrArg (kget 0 · i) (foldl_kset_zipIdx s.sec.staging off.toNat 0 data)).trans (kget_putBytes _ _ _ _)
  · rw [if_pos (by simp [ha])]
    exact ⟨_, rfl, ⟨rfl, rfl, rfl⟩, rfl⟩

theorem calArm_spec (s : State) (waive : Bool) (h : SecIdle s) :
    (armNow s = none → calReadWhole s = true ∨ waive = true →
      ∃ t, exec (.calArm waive) s = .next t ∧ t.sec.armed = some (Config.challenge s.sec.challenges, s.now) ∧
        t.sec.staging = [] ∧ Replied s t 0x11 0
          (bytesOfNat 4 (Config.challenge s.sec.challenges).toNat ++ bytesOfNat 8 (s.now + calWindow))) ∧
    ((armNow s).isSome = true ∨ (calReadWhole s = false ∧ waive = false) →
      ∃ t, exec (.calArm waive) s = .next t ∧ t.sec.armed = s.sec.armed ∧ Replied s t 0x11 6 []) := by
  have hexec : exec (.calArm waive) s = .next (takeRequest s (requestBytes 0x11 (boolNat waive) 0 [])) := rfl
  have hs := takeRequest_served s _ h _ (serveRequest_calArm (withWaiting s [requestBytes 0x11 (boolNat waive) 0 []]) waive)
  have harm : armNow (withWaiting s [requestBytes 0x11 (boolNat waive) 0 []]) = armNow s := rfl
  have hread : calReadWhole (withWaiting s [requestBytes 0x11 (boolNat waive) 0 []]) = calReadWhole s := rfl
  rw [serveCalArm, harm, hread] at hs
  refine ⟨fun ha hr => ?_, fun hbad => ?_⟩
  · rw [if_neg (by obtain hr | hr := hr <;> simp [ha, hr])] at hs
    rw [hexec, hs]
    exact ⟨_, rfl, rfl, rfl, rfl, rfl, rfl⟩
  · rw [if_pos (by obtain hr | ⟨hr, hw⟩ := hbad <;> simp [*])] at hs
    rw [hexec, hs]
    exact ⟨_, rfl, rfl, rfl, rfl, rfl⟩

/-- A commit ends the arm; what the checks of R519 let through becomes the record of the next epoch, anything else is
logged. -/
theorem serveCalCommit_eq (s : State) (compl : W32) (digest : List Byte) :
    serveCalCommit s compl.toNat digest =
      if calHolds s compl digest then
        respond { s with flash := { s.flash with cal := stagedBytes s },
                         sec := { s.sec with armed := none, calPending := true } } 0x13 0 []
      else respond (denyAdd { s with sec := { s.sec with armed := none } } 4 true 6 0) 0x13 6 [] := rfl

theorem serveCalCommit_spec (s : State) (compl : W32) (digest : List Byte) :
    ∃ x f, serveCalCommit s compl.toNat digest =
        respond { s with sec := x, flash := f } 0x13 (if calHolds s compl digest then 0 else 6) [] ∧ x.armed = none ∧
      if calHolds s compl digest then f = { s.flash with cal := stagedBytes s } ∧ x.calPending = true
      else f = s.flash ∧ x.denyTail = (s.sec.denyTail + 1) % 2 ^ 32 := by
  rw [serveCalCommit_eq]
  generalize stagedBytes s = rec
  by_cases hok : calHolds s compl digest = true
  · rw [if_pos hok, if_pos hok]
    simp only [if_pos hok]
    exact ⟨_, _, rfl, rfl, rfl, rfl⟩
  · rw [if_neg hok, if_neg hok]
    simp only [if_neg hok]
    exact ⟨_, _, rfl, rfl, rfl, rfl⟩

theorem calCommit_spec (s : State) (compl : W32) (digest : List Byte) (h : SecIdle s) (hd : digest.length = 32) :
    ∃ t, exec (.calCommit compl digest) s = .next t ∧ t.sec.armed = none ∧
      Replied s t 0x13 (if calHolds s compl digest then 0 else 6) [] ∧
      (if calHolds s compl digest then t.flash = { s.flash with cal := stagedBytes s } ∧ t.sec.calPending = true
        else t.flash = s.flash ∧ t.sec.denyTail = (s.sec.denyTail + 1) % 2 ^ 32) := by
  have hexec : exec (.calCommit compl digest) s = .next (takeRequest s (requestBytes 0x13 0 compl.toNat digest)) := rfl
  obtain ⟨x, f, hserve, harmed, hrest⟩ :=
    serveCalCommit_spec (withWaiting s [requestBytes 0x13 0 compl.toNat digest]) compl digest
  have hc : calHolds (withWaiting s [requestBytes 0x13 0 compl.toNat digest]) compl digest = calHolds s compl digest := rfl
  have hb : stagedBytes (withWaiting s [requestBytes 0x13 0 compl.toNat digest]) = stagedBytes s := rfl
  rw [hc, hb] at hrest
  rw [hc] at hserve
  rw [hexec, takeRequest_served s _ h _ (serveRequest_calCommit _ compl digest hd), hserve]
  exact ⟨_, rfl, harmed, replied_respond s x f _ _ _, hrest⟩

theorem calArmExpiry_spec (s : State) (c : W32) (τ : Nat) (h : s.sec.armed = some (c, τ)) :
    (τ + calWindow ≤ s.now → exec .calArmExpiry s = .next { s with sec := { s.sec with armed := none } }) ∧
    (s.now < τ + calWindow → exec .calArmExpiry s = .next s) := by
  have hexec : exec .calArmExpiry s =
    .next (if (armNow s).isSome then s else { s with sec := { s.sec with armed := none } }) := rfl
  refine ⟨fun hn => ?_, fun hn => ?_⟩
  · rw [hexec, if_neg (by simp [armNow, h, Option.filter]; omega)]
  · rw [hexec, if_pos (by simp [armNow, h, Option.filter, hn])]

/-- Settles O53: each command of an idle block is the branch of `serveRequest` for its command byte, with the fields that
it carries. -/
theorem calibrationRecord : Obligations.CalibrationRecord := by
  unfold Obligations.CalibrationRecord
  refine ⟨fun s off h => ⟨(calRead_spec s off h).1, (calRead_spec s off h).2, calWrite_spec s off h⟩, calArm_spec,
    calCommit_spec, fun s h => ?_, calArmExpiry_spec⟩
  have hexec : exec .calCancel s = .next (takeRequest s (requestBytes 0x14 0 0 [])) := rfl
  rw [hexec, takeRequest_served s _ h _ (serveRequest_calCancel _)]
  exact ⟨_, rfl, rfl, ⟨rfl, rfl, rfl⟩, rfl⟩

end Sys2Proof.Machine
end

section
/-! PROOF. Streams and letterbox registers (spec/16 R405 to R424): the obligations on the issue of operations and on the
registers of the ledger and the letterboxes (O23, O24). -/

namespace Sys2Proof.Machine

/-! ## A visit that fails (R411) -/

theorem setLbFault_eq (s : State) : ∃ p l, setLbFault s =
    { s with hif := { s.hif with lbFault := true }, ring := { s.ring with msixPending := p }, sent := l } := by
  unfold setLbFault
  simp only
  split
  · exact ⟨_, _, rfl⟩
  · exact sendMsix_eq _ _

theorem exec_letterboxReadTimeout {s : State} {k : GroupNo} (h : boxRuns s k = true) :
    ∃ t, exec (.letterboxReadTimeout k) s = .next t ∧ t.box k = { s.box k with enable := false, stop := 1, badRun := 0 } ∧
      t.hif.lbFault = true ∧ t.ledger = s.ledger ∧ t.store = s.store := by
  obtain ⟨p, l, hset⟩ := setLbFault_eq (s.setBox k { s.box k with enable := false, stop := 1, badRun := 0 })
  refine ⟨_, congrArg Host.Outcome.next ((if_pos h).trans hset), ?_, rfl, rfl, rfl⟩
  exact State.box_setBox_same _ _ _

/-! ## The issue of an operation (R414, R415) -/

theorem opPlace_of_op {s : State} {slot : Nat} {o : Op} (h : s.op slot = some o) (p : Place) :
    opPlace s slot p = s.setOp slot { o with place := p } := by
  simp [opPlace, h]

theorem execOperationIssue_unit {s : State} {slot : Slot} {o : Op} (ho : s.op slot = some o) (hr : opReady s slot o = true)
    (h7 : o.kind ≠ 7) (h2 : o.kind ≠ 2) :
    exec (.operationIssue slot) s = .next (s.setOp slot { o with place := .atIssuer }) := by
  change execOperationIssue slot s = _
  simp [execOperationIssue, ho, hr, h7, h2, opPlace]

theorem execOperationIssue_program {s : State} {slot : Slot} {o : Op} (ho : s.op slot = some o)
    (hr : opReady s slot o = true) (h2 : o.kind = 2) (hd : isDead s o.target = false) (ha : isAsleep s o.target = false) :
    exec (.operationIssue slot) s = .next ((s.setLclu o.target { s.lclu o.target with
      progs := (s.lclu o.target).progs ++ [slot.val], idleSince := s.now }).setOp slot { o with place := .queued }) := by
  change execOperationIssue slot s = _
  simp [execOperationIssue, ho, hr, h2, issueProgram, hd, ha, opPlace]

/-! ## The end of an operation without a warning -/

/-- An operation that has not started, and met no warning, ends DONE with status 0. -/
theorem op_opDone_of_notStarted {s : State} {slot : Nat} {o : Op} (h : s.op slot = some o)
    (hst : o.rcpt.state = .notStarted) (hsat : o.sat = 0) (hnon : o.nonfin = 0) (hwarn : o.warns = []) :
    (opDone s slot).op slot = some { o with
      place := .final, rcpt := { o.rcpt with state := .done, status := 0, detail := 0, postmark := s.now } } := by
  have hrep := opStart_reports h hst
  have hop := hrep.op slot
  rw [State.op_setOp_same] at hop
  have hnow : (opStart s slot).now = s.now := by
    obtain ⟨_, _, _, _, heq⟩ := hrep
    rw [heq]
    rfl
  have hdone : opDone s slot = opFinal (opStart s slot) slot .done 0 0 := by
    simp [opDone, h, opWarning, hsat, hnon, hwarn]
  rw [hdone, op_opFinal hop rfl, hnow]

/-- Settles O23: each command is the branch that its enabling conditions select. -/
theorem streamsIssue : Obligations.StreamsIssue := by
  unfold Obligations.StreamsIssue
  refine ⟨fun s k h => exec_letterboxReadTimeout h,
    fun s slot o ho hr => ⟨execOperationIssue_unit ho hr, fun h2 hd ha => ?program⟩,
    fun s slot o ho h7 hst hsat hnon hwarn hdeps hbefore => ?sync, fun s k v hv hw hup hmask => ?vector⟩
  case program =>
    exact ⟨_, execOperationIssue_program ho hr h2 hd ha, State.op_setOp_same _ _ _,
      congrArg LClus.progs (State.lclu_setLclu_same _ _ _), rfl⟩
  case sync =>
    refine ⟨opDone s slot, ?_, op_opDone_of_notStarted ho hst hsat hnon hwarn⟩
    change execSync slot s = _
    simp only [execSync, ho]
    rw [if_pos]
    simp only [h7, hst, List.all_eq_true.mpr hdeps, List.all_eq_true.mpr hbefore]
    rfl
  case vector =>
    change execNotifyVector k s = _
    have hunmasked : ¬ (msixWord (s.setBox k { s.box k with notifyAt := none }) (4 * (s.box k).vector + 3)).toNat % 2 = 1 := by
      change ¬ (msixWord s (4 * (s.box k).vector + 3)).toNat % 2 = 1
      omega
    simp only [execNotifyVector, hv, hw]
    rw [if_neg (by decide), sendMsix, if_neg (by simp [hup]), if_neg (by simpa using hunmasked)]

/-! ## The release of a slot (R419) -/

theorem releaseRefused_of_final {s : State} {slot : Nat} {o : Op} (ho : s.op slot = some o)
    (hf : rstateFinal o.rcpt.state = true)
    (hw : ∀ e ∈ s.ledger, e.2.rcpt.state = .notStarted → slot ∉ e.2.deps) : releaseRefused s slot = false := by
  simp only [releaseRefused, ho, hf, Bool.not_true, Bool.false_or, List.any_eq_false]
  intro e he hbad
  simp only [Bool.and_eq_true, decide_eq_true_eq, List.contains_iff_mem] at hbad
  exact hw e he hbad.1 hbad.2

theorem actSlotRelease_final {s : State} {v : Nat} {o : Op} (ho : s.op (v % 2 ^ 17) = some o)
    (hf : rstateFinal o.rcpt.state = true)
    (hw : ∀ e ∈ s.ledger, e.2.rcpt.state = .notStarted → v % 2 ^ 17 ∉ e.2.deps) :
    ∃ t, actSlotRelease s v = t ∧ t = { s with ledger := t.ledger, streams := t.streams } ∧
      t.op (v % 2 ^ 17) = none ∧ ∀ k, k ≠ v % 2 ^ 17 → t.op k = s.op k := by
  have hslot : field v 0 17 = v % 2 ^ 17 := by simp [field]
  rw [actSlotRelease, hslot, releaseRefused_of_final ho hf hw]
  exact ⟨_, rfl, rfl, kfind_kdel_same _ _, fun k hk => kfind_kdel_ne _ _ _ (Ne.symm hk)⟩

theorem actSlotRelease_running {s : State} {v : Nat} {o : Op} (ho : s.op (v % 2 ^ 17) = some o)
    (hf : rstateFinal o.rcpt.state = false) :
    actSlotRelease s v = { s with ring := { s.ring with releaseRefused := inc32 s.ring.releaseRefused } } := by
  have hslot : field v 0 17 = v % 2 ^ 17 := by simp [field]
  rw [actSlotRelease, hslot, if_pos (by simp only [releaseRefused, ho, hf, Bool.not_false, Bool.true_or])]

/-! ## RESYNC (R423) -/

theorem SendsOnly.trans {s t u : State} (h1 : SendsOnly s t) (h2 : SendsOnly t u) : SendsOnly s u := by
  obtain ⟨l1, rfl⟩ := h1
  obtain ⟨l2, rfl⟩ := h2
  exact ⟨l1 ++ l2, by simp [State.sendAll]⟩

theorem SendsOnly.linkUp {s t : State} (h : SendsOnly s t) : t.hif.linkUp = s.hif.linkUp := by
  obtain ⟨l, rfl⟩ := h
  rfl

theorem SendsOnly.sent_subset {s t : State} (h : SendsOnly s t) {x : Sent} (hx : x ∈ s.sent) : x ∈ t.sent := by
  obtain ⟨l, rfl⟩ := h
  exact List.mem_append_left _ hx

/-- A fold of steps that only send while the link is up only sends. -/
theorem foldl_sends {α : Type} {f : State → α → State} (hf : ∀ u a, u.hif.linkUp = true → SendsOnly u (f u a))
    (l : List α) {s : State} (hup : s.hif.linkUp = true) : SendsOnly s (l.foldl f s) := by
  induction l generalizing s with
  | nil => exact .refl s
  | cons a t ih => exact (hf s a hup).trans (ih ((hf s a hup).linkUp.trans hup))

theorem mirrorReceipt_mirrored {s : State} {slot : Nat} {o : Op} (ho : s.op slot = some o) (hlt : slot < 131072)
    (hup : s.hif.linkUp = true) (hen : s.hif.mirrorEn = true) :
    mirrorReceipt s slot = s.send (.hostWrite (s.hif.ledgerBase.toNat + 32 * slot) (receiptBytes o.rcpt)) := by
  simp [mirrorReceipt, ho, hup, hen, Nat.not_le.mpr hlt]

/-- The receipt of every listed operation is among what the fold of the mirror sends. -/
theorem foldl_mirrorReceipt_sent (l : List (Nat × Op)) {s : State} (hup : s.hif.linkUp = true)
    (hen : s.hif.mirrorEn = true) : ∀ e ∈ l, e.1 < 131072 → s.op e.1 = some e.2 →
      Sent.hostWrite (s.hif.ledgerBase.toNat + 32 * e.1) (receiptBytes e.2.rcpt) ∈
        (l.foldl (fun a e => mirrorReceipt a e.1) s).sent := by
  induction l generalizing s with
  | nil => simp
  | cons x t ih =>
    intro e he hlt ho
    have hfirst := mirrorReceipt_sends hup x.1
    rw [List.foldl_cons]
    rcases List.mem_cons.mp he with rfl | he
    · refine (foldl_sends (fun u a hu => mirrorReceipt_sends hu a.1) t (hfirst.linkUp.trans hup)).sent_subset ?_
      rw [mirrorReceipt_mirrored ho hlt hup hen]
      exact List.mem_append_right _ (List.mem_singleton.mpr rfl)
    · obtain ⟨l', hl'⟩ := hfirst
      rw [hl']
      exact ih (s := s.sendAll l') hup hen e he hlt ho

theorem actResync_mirrored {s : State} (hen : s.hif.mirrorEn = true) (hup : s.hif.linkUp = true) :
    ∃ t, actResync s = t ∧ t = { s with sent := t.sent } ∧ ∀ e ∈ s.ledger, e.1 < 131072 → s.op e.1 = some e.2 →
      Sent.hostWrite (s.hif.ledgerBase.toNat + 32 * e.1) (receiptBytes e.2.rcpt) ∈ t.sent := by
  have hfirst := foldl_sends (fun u (a : Nat × Op) hu => mirrorReceipt_sends hu a.1) s.ledger hup
  have hsecond := foldl_sends (fun u k hu => mirrorTail_sends hu k) (List.range 256) (hfirst.linkUp.trans hup)
  have hall := hfirst.trans hsecond
  refine ⟨actResync s, rfl, ?_, fun e he hlt ho => ?_⟩
  · rw [actResync, if_neg (by simp [hen])]
    obtain ⟨l, hl⟩ := hall
    rw [hl]
    rfl
  · rw [actResync, if_neg (by simp [hen])]
    exact hsecond.sent_subset (foldl_mirrorReceipt_sent s.ledger hup hen e he hlt ho)

/-! ## The configuration of a letterbox (R411, R427) -/

/-- A letterbox after a write of its CFG register. -/
def configuredBox (x : Letterbox) (v : Nat) : Letterbox :=
  let size := clampNat 4 16 (field v 24 5)
  let y := { x with vector := clampNat 16 2047 (field v 0 11), period := clampNat 1 1000 (field v 14 10) }
  let y := if x.enable || size == x.sizeLog2 then y else { y with sizeLog2 := size, tail := 0, badRun := 0 }
  if v.testBit 31 && !x.enable then { y with enable := true, stop := 0, badRun := 0 } else { y with enable := v.testBit 31 }

theorem actBoxConfig_eq (s : State) (k v : Nat) : actBoxConfig s k v = s.setBox k (configuredBox (s.box k) v) := rfl

theorem configuredBox_spec (x : Letterbox) (v : Nat) :
    (configuredBox x v).base = x.base ∧ (configuredBox x v).enable = v.testBit 31 ∧
    (configuredBox x v).vector = min 2047 (max 16 (v % 2 ^ 11)) ∧
    (configuredBox x v).period = min 1000 (max 1 (v / 2 ^ 14 % 2 ^ 10)) ∧
    (configuredBox x v).sizeLog2 = (if x.enable then x.sizeLog2 else min 16 (max 4 (v / 2 ^ 24 % 2 ^ 5))) ∧
    ((configuredBox x v).sizeLog2 ≠ x.sizeLog2 → (configuredBox x v).tail = 0) ∧
    ((configuredBox x v).sizeLog2 = x.sizeLog2 → (configuredBox x v).tail = x.tail) ∧
    (v.testBit 31 = true → x.enable = false → (configuredBox x v).stop = 0) := by
  have hvec : clampNat 16 2047 (field v 0 11) = min 2047 (max 16 (v % 2 ^ 11)) := by simp [clampNat, field]
  have hper : clampNat 1 1000 (field v 14 10) = min 1000 (max 1 (v / 2 ^ 14 % 2 ^ 10)) := rfl
  have hsize : clampNat 4 16 (field v 24 5) = min 16 (max 4 (v / 2 ^ 24 % 2 ^ 5)) := rfl
  rw [configuredBox, hvec, hper, hsize]
  generalize min 16 (max 4 (v / 2 ^ 24 % 2 ^ 5)) = size
  generalize v.testBit 31 = on
  cases hen : x.enable
  · by_cases hs : size = x.sizeLog2 <;> cases on <;> simp [hs]
  · cases on <;> simp

/-- Settles O24: each register write that the checks let through is its action, and the action is the branch that the
state selects. -/
theorem ledgerAndLetterboxRegisters : Obligations.LedgerAndLetterboxRegisters := by
  unfold Obligations.LedgerAndLetterboxRegisters
  refine ⟨fun s m v => ⟨fun hg => ?release, fun hg hhalt => ?clear, fun hg => ?aperture, fun hg hheld => ?notice,
    fun hg => ?resync⟩, fun s k m v hg => ?config⟩
  case release =>
    have hexec : exec (.slotRelease m v) s = .next (actSlotRelease s v.toNat) :=
      congrArg Host.Outcome.next (gated_ok hg _)
    rw [hexec]
    refine ⟨fun o ho hf hw => ?_, fun o ho hf => by rw [actSlotRelease_running ho hf]⟩
    obtain ⟨t, rfl, ht⟩ := actSlotRelease_final ho hf hw
    exact ⟨_, rfl, ht⟩
  case clear =>
    refine ⟨_, congrArg Host.Outcome.next ((gated_ok hg _).trans (if_neg (by simp [hhalt]))), rfl, ?_, ?_, fun k hk => ?_⟩
    · exact congrArg Stream.halted (State.strm_setStrm_same _ _ _)
    · exact congrArg Stream.step (State.strm_setStrm_same _ _ _)
    · exact State.strm_setStrm_ne _ _ _ _ (Ne.symm hk)
  case aperture =>
    exact ⟨fun ha => congrArg Host.Outcome.next ((gated_ok hg _).trans (if_neg (by simpa using ha))),
      fun ha => congrArg Host.Outcome.next ((gated_ok hg _).trans (if_pos (by simpa using ha)))⟩
  case notice =>
    refine congrArg Host.Outcome.next ((gated_ok hg _).trans ?_)
    rw [actNoticeHead, drainHeld]
    split
    · rw [hheld]
      exact congrArg (fun l => { s with ring := { s.ring with noticeHead := v.toNat, heldNotices := l } }) hheld.symm
    · rfl
  case resync =>
    have hexec : exec (.mirrorResync m) s = .next (actResync s) := congrArg Host.Outcome.next (gated_ok hg _)
    rw [hexec]
    refine ⟨fun hen => by rw [actResync, if_pos (by simp [hen])], fun hen hup => ?_⟩
    obtain ⟨t, rfl, ht⟩ := actResync_mirrored hen hup
    exact ⟨_, rfl, ht⟩
  case config =>
    refine ⟨_, congrArg Host.Outcome.next ((gated_ok hg _).trans (actBoxConfig_eq s k v.toNat)), rfl,
      fun j hj => State.box_setBox_ne _ _ _ _ (Ne.symm hj), ?_⟩
    rw [State.box_setBox_same]
    exact configuredBox_spec _ _

end Sys2Proof.Machine
end

section
/-! PROOF. Register space (spec/00 R9, R554, spec/02 R63, spec/16 R427, spec/18 R456): the obligation on register accesses
(O25). -/

namespace Sys2Proof.Machine

/-! ## Words and bytes -/

theorem natOfBytes_word (d : W32) : natOfBytes (bytesOfNat 4 d.toNat) = d.toNat := by
  rw [Tests.natOfBytes_bytesOfNat]
  exact Nat.mod_eq_of_lt d.isLt

theorem wordsOf_one (d : W32) : wordsOf (bytesOfNat 4 d.toNat) = [d.toNat] :=
  congrArg (fun n => [n]) (natOfBytes_word d)

theorem wordsOf_two (d e : W32) : wordsOf (bytesOfNat 4 d.toNat ++ bytesOfNat 4 e.toNat) = [d.toNat, e.toNat] := by
  have hwords : wordsOf (bytesOfNat 4 d.toNat ++ bytesOfNat 4 e.toNat) =
      [natOfBytes (bytesOfNat 4 d.toNat), natOfBytes (bytesOfNat 4 e.toNat)] := rfl
  rw [hwords, natOfBytes_word, natOfBytes_word]

theorem leAt_word_lt (b : List Byte) (off : Nat) : leAt b off 4 < 2 ^ 32 := by
  have hlen : (bytesAt b off 4).length ≤ 4 := by simp [bytesAt]
  calc leAt b off 4 < 256 ^ (bytesAt b off 4).length := natOfBytes_lt _
    _ ≤ 256 ^ 4 := Nat.pow_le_pow_right (by decide) hlen

/-- The four bytes of a word of a byte string. -/
theorem bytesOfNat_word (b : List Byte) (off : Nat) (h : off + 4 ≤ b.length) :
    bytesOfNat 4 (BitVec.ofNat 32 (leAt b off 4)).toNat = bytesAt b off 4 := by
  have hlen : (bytesAt b off 4).length = 4 := by simp [bytesAt]; omega
  have hback := bytesOfNat_natOfBytes (bytesAt b off 4)
  rw [hlen] at hback
  rw [BitVec.toNat_ofNat, Nat.mod_eq_of_lt (leAt_word_lt b off), leAt, hback]

/-- The words of a byte string, one after another, are its first bytes. -/
theorem flatMap_words (b : List Byte) (n : Nat) (h : 4 * n ≤ b.length) :
    ((List.range n).map (fun i => BitVec.ofNat 32 (leAt b (4 * i) 4))).flatMap (fun w => bytesOfNat 4 w.toNat) =
      b.take (4 * n) := by
  induction n with
  | zero => simp
  | succ n ih =>
    rw [List.range_succ, List.map_append, List.flatMap_append, ih (by omega), Nat.mul_succ, List.take_add]
    rw [List.map_singleton, List.flatMap_singleton, bytesOfNat_word b (4 * n) (by omega), bytesAt]

theorem receiptBytes_length (r : Receipt) : (receiptBytes r).length = 32 := by
  simp only [receiptBytes, List.length_append, Tests.bytesOfNat_length]

/-- The first word of a receipt is its operation's id. -/
theorem leAt_receiptBytes_opId (r : Receipt) : leAt (receiptBytes r) 0 4 = r.opId % 2 ^ 32 := by
  simp only [receiptBytes, List.append_assoc]
  exact leAt_bytesOfNat_mod 4 r.opId _

theorem receiptWords_of_op {s : State} {o : Op} (h : s.op s.ring.rcptIndex = some o) :
    receiptWords s = (List.range 8).map (fun i => BitVec.ofNat 32 (leAt (receiptBytes o.rcpt) (4 * i) 4)) := by
  simp [receiptWords, h]

theorem receiptWords_of_free {s : State} (h : s.op s.ring.rcptIndex = none) :
    receiptWords s = List.replicate 8 0 := by
  rw [receiptWords, h]
  decide

/-! ## Gates -/

theorem stage_of_gate {s : State} {m off : Nat} {write : Bool} {g : Gate} (h : regGate s m off write = g) (hg : g ≠ .off) :
    (s.boot.stage == 0) = false := by
  cases hs : s.boot.stage == 0
  · rfl
  · rw [regGate, hs, if_pos rfl] at h
    exact absurd h.symm hg

theorem regWrite_ok {s : State} {m off v : Nat} (own : Option Nat) (h : regGate s m off true = .ok) :
    regWrite s m own off v = (regWriteWord s m own off v, false) := by
  simp [regWrite, h]

theorem regWrite_denied {s : State} {m off v : Nat} (own : Option Nat) (h : regGate s m off true = .denied) :
    regWrite s m own off v = (denyAccess s m true (regBase + off), true) := by
  simp [regWrite, h, gateFail]

theorem regAligned_words {off n : Nat} (h : off % 4 = 0) (hn : n % 4 = 0) (h0 : 0 < n) : regAligned off n = true := by
  simp [regAligned, h, hn, h0]

theorem answerRead_ok {s : State} {m off : Nat} (h : regGate s m off false = .ok) :
    answerRead s m off = (regReadWord s m off).1.send
      (.readData m (regBase + off) (bytesOfNat 4 (regReadWord s m off).2.toNat)) := by
  simp only [answerRead, regRead, h]

/-! ## Writes (R554) -/

section
variable {s : State} {m : Master} {off : Nat}

theorem exec_registerWrite_one {d : W32} (halign : off % 4 = 0) (hg : regGate s m.toNat off true = .ok) :
    exec (.registerWrite m off (bytesOfNat 4 d.toNat)) s = .next (regWriteWord s m.toNat none off d.toNat) := by
  change execRegisterWrite m off _ s = _
  rw [execRegisterWrite, regSpanWrite, stage_of_gate hg (by decide), if_neg (by decide),
    regAligned_words halign (by simp [Tests.bytesOfNat_length]) (by simp [Tests.bytesOfNat_length]),
    if_neg (by decide), wordsOf_one, regWriteMany, regWrite_ok none hg]
  rfl

theorem exec_registerWrite_two {d e : W32} (halign : off % 4 = 0) (hg : regGate s m.toNat off true = .ok)
    (hg' : regGate (regWriteWord s m.toNat none off d.toNat) m.toNat (off + 4) true = .ok) :
    exec (.registerWrite m off (bytesOfNat 4 d.toNat ++ bytesOfNat 4 e.toNat)) s =
      .next (regWriteWord (regWriteWord s m.toNat none off d.toNat) m.toNat none (off + 4) e.toNat) := by
  change execRegisterWrite m off _ s = _
  rw [execRegisterWrite, regSpanWrite, stage_of_gate hg (by decide), if_neg (by decide),
    regAligned_words halign (by simp [Tests.bytesOfNat_length]) (by simp [Tests.bytesOfNat_length]),
    if_neg (by decide), wordsOf_two, regWriteMany, regWrite_ok none hg]
  dsimp only
  rw [if_neg (by decide), regWriteMany, regWrite_ok none hg']
  rfl

theorem exec_registerWrite_unaligned {l : List Byte} (h : off % 4 ≠ 0 ∨ l.length % 4 ≠ 0 ∨ l = []) :
    exec (.registerWrite m off l) s = .next s := by
  have hbad : regAligned off l.length = false := by
    rcases h with h | h | rfl
    · simp [regAligned, h]
    · simp [regAligned, h]
    · simp [regAligned]
  change execRegisterWrite m off _ s = _
  rw [execRegisterWrite, regSpanWrite, hbad]
  split <;> rfl

theorem exec_registerWrite_denied {d : W32} (halign : off % 4 = 0) (hg : regGate s m.toNat off true = .denied) :
    exec (.registerWrite m off (bytesOfNat 4 d.toNat)) s = .next (denyAccess s m.toNat true (regBase + off)) := by
  change execRegisterWrite m off _ s = _
  rw [execRegisterWrite, regSpanWrite, stage_of_gate hg (by decide), if_neg (by decide),
    regAligned_words halign (by simp [Tests.bytesOfNat_length]) (by simp [Tests.bytesOfNat_length]),
    if_neg (by decide), wordsOf_one, regWriteMany, regWrite_denied none hg]
  rfl

/-! ## Reads (R63, R427) -/

theorem exec_splitLoRead_ok (halign : off % 4 = 0) (hg : regGate s m.toNat off false = .ok) :
    exec (.splitLoRead m off) s = .next ((regReadWord s m.toNat off).1.send
      (.readData m.toNat (regBase + off) (bytesOfNat 4 (regReadWord s m.toNat off).2.toNat))) := by
  change execSplitLoRead m off s = _
  rw [execSplitLoRead, stage_of_gate hg (by decide), if_neg (by decide), if_neg (by simp [halign]), answerRead_ok hg]

theorem regReadWord_pair {w : W64} (hr : rcptOff off = false) (hw : regPair s off = some w) :
    regReadWord s m.toNat off = (latchSet s m.toNat (off + 4) (BitVec.ofNat 32 (w.toNat / 2 ^ 32)),
      BitVec.ofNat 32 (w.toNat % 2 ^ 32)) := by
  have hhigh : BitVec.ofNat 32 (w.toNat / 2 ^ 32 % 2 ^ 32) = BitVec.ofNat 32 (w.toNat / 2 ^ 32) := by
    rw [Nat.mod_eq_of_lt (by have := w.isLt; omega)]
  simp only [regReadWord, hr, hw, field, Bool.false_eq_true, if_false, hhigh, Nat.pow_zero, Nat.div_one]

theorem regReadWord_single (hr : rcptOff off = false) (hw : regPair s off = none) :
    regReadWord s m.toNat off = (s, if 4 ≤ off ∧ (regPair s (off - 4)).isSome = true
      then kget 0 s.latch (latchKey m.toNat off) else BitVec.ofNat 32 (regWord s off)) := by
  simp only [regReadWord, hr, hw, Bool.false_eq_true, if_false, Bool.and_eq_true, decide_eq_true_eq]
  split <;> rfl

theorem exec_receiptRead_ok (hg : regGate s m.toNat 0x10070 false = .ok) :
    exec (.receiptRead m) s = .next ({ s with ring := { s.ring with
      rcptLatch := kset [] s.ring.rcptLatch m.toNat (receiptWords s) } }.send
        (.readData m.toNat (regBase + 0x10070) (bytesOfNat 4 ((receiptWords s).getD 0 0).toNat))) := by
  have hread : regReadWord s m.toNat 0x10070 = ({ s with ring := { s.ring with
      rcptLatch := kset [] s.ring.rcptLatch m.toNat (receiptWords s) } }, (receiptWords s).getD 0 0) := rfl
  change execReceiptRead m s = _
  rw [execReceiptRead, stage_of_gate hg (by decide), if_neg (by decide), answerRead_ok hg, hread]

end

/-- Settles O25: an access is what the gate of its word makes of it, and the read of a word is the branch of
`regReadWord` for the word's kind. -/
theorem registerAccess : Obligations.RegisterAccess := by
  unfold Obligations.RegisterAccess
  refine ⟨fun s m off d e halign hg => ⟨exec_registerWrite_one halign hg, ?two⟩,
    fun s m off l h => exec_registerWrite_unaligned h, fun s m d hg => ?index, fun s m off w hg halign hr hw => ?pair,
    fun s m off hg halign hr hw => ?single, fun s m hg ho => ?free, fun s m o hg ho => ?receipt,
    fun s m off d halign hg => ?denied, fun s m a w h => ?answered, fun s m a w h => ?early⟩
  case two =>
    rintro s1 rfl hg'
    exact exec_registerWrite_two halign hg hg'
  case index =>
    rw [exec_registerWrite_one rfl hg]
    have hfield : field d.toNat 0 17 = d.toNat % 2 ^ 17 := by simp [field]
    rw [← hfield]
    rfl
  case pair =>
    rw [exec_splitLoRead_ok halign hg, regReadWord_pair hr hw]
    have hlow : (BitVec.ofNat 32 (w.toNat % 2 ^ 32)).toNat = w.toNat % 2 ^ 32 := by simp
    rw [hlow]
    exact ⟨_, rfl, rfl, rfl, kget_kset_same _ _ _ _, fun j hj => kget_kset_ne _ _ _ _ _ (Ne.symm hj)⟩
  case single =>
    rw [exec_splitLoRead_ok halign hg, regReadWord_single hr hw]
    congr 4
    split
    · rfl
    · exact BitVec.toNat_ofNat _ _
  case free =>
    rw [exec_receiptRead_ok hg, receiptWords_of_free ho]
    rfl
  case receipt =>
    rw [exec_receiptRead_ok hg, receiptWords_of_op ho]
    refine ⟨_, rfl, rfl, ?_, ?_⟩
    · have hword : (BitVec.ofNat 32 (leAt (receiptBytes o.rcpt) 0 4)).toNat = o.rcpt.opId % 2 ^ 32 := by
        rw [leAt_receiptBytes_opId, BitVec.toNat_ofNat, Nat.mod_mod]
      rw [← hword]
      rfl
    · have hlatch : kget [] (kset [] s.ring.rcptLatch m.toNat ((List.range 8).map (fun i =>
          BitVec.ofNat 32 (leAt (receiptBytes o.rcpt) (4 * i) 4)))) m.toNat =
          (List.range 8).map (fun i => BitVec.ofNat 32 (leAt (receiptBytes o.rcpt) (4 * i) 4)) := kget_kset_same _ _ _ _
      have hlen := receiptBytes_length o.rcpt
      have hbytes := flatMap_words (receiptBytes o.rcpt) 8 (by omega)
      rw [List.take_of_length_le (by omega)] at hbytes
      exact (congrArg (List.flatMap (fun w => bytesOfNat 4 w.toNat)) hlatch).trans hbytes
  case denied =>
    rw [exec_registerWrite_denied halign hg]
    exact ⟨_, rfl, rfl, rfl, rfl⟩
  case answered => exact congrArg Host.Outcome.next (if_pos (by simp [h]))
  case early =>
    have hexec : exec (.earlyAccess m a w) s = .next (if w then earlyAccess s m.toNat w a.toNat else
        (earlyAccess s m.toNat w a.toNat).send (.readData m.toNat a.toNat [0xFF, 0xFF, 0xFF, 0xFF])) :=
      congrArg Host.Outcome.next (if_neg (by simp [h]))
    have haddr : BitVec.ofNat 64 a.toNat = a := by simp
    rw [hexec]
    cases w
    · exact ⟨_, rfl, rfl, haddr, rfl, rfl, rfl, rfl, nofun, fun _ => ⟨rfl, rfl⟩⟩
    · exact ⟨_, rfl, rfl, haddr, rfl, rfl, rfl, rfl, fun _ => ⟨rfl, rfl⟩, nofun⟩

end Sys2Proof.Machine
end

section
/-! PROOF. Quantisation statistics (spec/07 R196 to R205): the obligation on collects, closes, flips and shadow writes
(O27). -/

namespace Sys2Proof.Machine

/-! ## Collects and flips (R197, R201) -/

section
variable {s : State} {t : Tile} {q : GroupNo} {m : Master} {v : W32}

theorem exec_qsCollect_dropped (hg : regGate s m.toNat (tilBase t + 0x4000) true = .ok)
    (hd : collectDropped s (field v.toNat 16 8) (field v.toNat 24 8) (t.val * 256 + field v.toNat 0 8) = true) :
    exec (.qsCollect t m v) s =
      .next (s.setTile t { s.tile t with qsDropped := inc32 (s.tile t).qsDropped }) :=
  congrArg Host.Outcome.next ((gated_ok hg _).trans (if_pos hd))

theorem exec_qsCollect_taken (hg : regGate s m.toNat (tilBase t + 0x4000) true = .ok)
    (hd : collectDropped s (field v.toNat 16 8) (field v.toNat 24 8) (t.val * 256 + field v.toNat 0 8) = false) :
    exec (.qsCollect t m v) s =
      .next (collectInto s t (field v.toNat 16 8) (t.val * 256 + field v.toNat 0 8) (v.toNat.testBit 8)) :=
  congrArg Host.Outcome.next ((gated_ok hg _).trans (if_neg (by rw [hd]; decide)))

/-- A collect of a maximum (R197). -/
theorem collectInto_max (s : State) (t q n : Nat) :
    collectInto s t q n false = (s.setClu (physOfN s n) { s.clu (physOfN s n) with
      seq := { (s.clu (physOfN s n)).seq with capMax := 0, capSqerr := 0, capCount := 0 } }).setQpart t q { s.qpart t q with
      nonfinite := (s.qpart t q).nonfinite || !valFinite (f64Val (s.clu (physOfN s n)).seq.capSqerr.toNat),
      smax := f64Round (valAbsmax (f64Val (s.qpart t q).smax) (f64Val (s.clu (physOfN s n)).seq.capMax.toNat)) } := rfl

theorem exec_qsClose (hg : regGate s m.toNat (qsBase t q + 0x10) true = .ok) (hr : (s.qslot q).result ≠ 1) :
    exec (.qsClose t q m v) s = .next (s.setQslot q { s.qslot q with
      closeStep := v.toNat / 2 ^ 8 % 2 ^ 8,
      result := if (s.qslot q).actCfg.toNat.testBit 15 = true ∧
        v.toNat / 2 ^ 8 % 2 ^ 8 = (s.qslot q).actCfg.toNat / 2 ^ 24 % 2 ^ 8 then 1 else 3 }) := by
  refine congrArg Host.Outcome.next ((gated_ok hg _).trans ?_)
  change actQsClose s q v.toNat = s.setQslot q { s.qslot q with
    closeStep := field v.toNat 8 8,
    result := if qsEnabled (s.qslot q) = true ∧ field v.toNat 8 8 = qsStep (s.qslot q) then 1 else 3 }
  rw [actQsClose, if_neg (by simpa using hr)]
  by_cases hok : qsEnabled (s.qslot q) = true ∧ field v.toNat 8 8 = qsStep (s.qslot q)
  · rw [if_pos hok, if_neg (by simp [hok.1, hok.2])]
  · rw [if_neg hok, if_pos]
    simpa [or_iff_not_imp_left] using hok

theorem exec_qsFlip_legal {e k : Nat} (hg : regGate s m.toNat (qsBase t q + 0x10) true = .ok) (hr : (s.qslot q).result ≠ 1)
    (he : (s.qslot q).shdCfg.toNat % 16 = e) (h4 : 4 ≤ e) (h8 : e ≤ 8) (hk : (s.qslot q).shdScale.toNat = k * 2 ^ 23)
    (h7 : 7 ≤ k) (h245 : k ≤ 245) :
    exec (.qsFlip t q m) s = .next (s.setQslot q { s.qslot q with
      actScale := (s.qslot q).shdScale, actCfg := (s.qslot q).shdCfg, shdScale := (s.qslot q).actScale,
      shdCfg := (s.qslot q).actCfg, epoch := !(s.qslot q).epoch }) := by
  have hfmt : qsFmt (s.qslot q).shdCfg = e := by rw [← he]; simp [qsFmt, field]
  have hscale : scaleOk (s.qslot q).shdScale = true := by
    rw [scaleOk, hk, Nat.mul_mod_left, Nat.mul_div_cancel _ (by decide)]
    simp [h7, h245]
  refine congrArg Host.Outcome.next ((gated_ok hg _).trans ?_)
  rw [actQsFlip]
  simp only [beq_iff_eq, hr, if_false]
  rw [if_neg (by simp [hfmt, hscale, h4, h8])]

theorem exec_qsFlip_refused (hg : regGate s m.toNat (qsBase t q + 0x10) true = .ok) (hr : (s.qslot q).result ≠ 1)
    (hbad : (s.qslot q).shdCfg.toNat % 16 < 4 ∨ 8 < (s.qslot q).shdCfg.toNat % 16) :
    exec (.qsFlip t q m) s = .next (s.setQslot q { s.qslot q with refused := true }) := by
  have hfmt : qsFmt (s.qslot q).shdCfg = (s.qslot q).shdCfg.toNat % 16 := by simp [qsFmt, field]
  refine congrArg Host.Outcome.next ((gated_ok hg _).trans ?_)
  rw [actQsFlip]
  simp only [beq_iff_eq, hr, if_false]
  rw [if_pos]
  simp only [hfmt, Bool.or_eq_true, Bool.not_eq_true', Bool.and_eq_false_iff, decide_eq_false_iff_not]
  omega

end

/-! ## The completion of a close (R199, R205) -/

/-- The partials of a slot cleared in the listed tiles. -/
def clearParts (s : State) (q : Nat) (l : List Nat) : State := l.foldl (fun s t => s.setQpart t q {}) s

theorem clearParts_frame (s : State) (q : Nat) (l : List Nat) :
    ∃ x, clearParts s q l = { s with core := { s.core with qsPart := x } } := by
  induction l generalizing s with
  | nil => exact ⟨_, rfl⟩
  | cons a t ih => exact ih (s.setQpart a q {})

theorem qpart_clearParts (s : State) (q i : Nat) (l : List Nat) :
    (clearParts s q l).qpart i q = if i ∈ l then {} else s.qpart i q := by
  induction l generalizing s with
  | nil => rfl
  | cons a t ih =>
    have hcons : clearParts s q (a :: t) = clearParts (s.setQpart a q {}) q t := rfl
    have hset : (s.setQpart a q {}).qpart i q = if a = i then {} else s.qpart i q := by
      have hkey : (qsPartKey a q = qsPartKey i q) = (a = i) := by simp only [qsPartKey, eq_iff_iff]; omega
      simp only [State.qpart, State.setQpart, kget_kset, hkey]
    rw [hcons, ih, hset]
    by_cases hi : i ∈ t
    · simp [hi]
    · by_cases ha : a = i
      · simp [ha]
      · simp [hi, ha, Ne.symm ha]

theorem adapt_hist_length (x : QsSlot) (m : Nat) : (adapt x m).1.length ≤ 16 + x.hist.length := by
  rw [adapt]
  split
  · simp
  · have hdepth : field x.actCfg.toNat 8 4 < 16 := Nat.mod_lt _ (by decide)
    simp only [List.length_drop, List.length_append, List.length_singleton]
    omega

/-- STEP raised by one, modulo 256, in bits [31:24]. -/
theorem toNat_stepRaised (c : W32) :
    (BitVec.ofNat 32 (putField c.toNat 24 8 (field c.toNat 24 8 + 1))).toNat = (c.toNat + 2 ^ 24) % 2 ^ 32 := by
  rw [toNat_ofNat_putField c (by decide), putField_eq, field]
  have := c.isLt
  omega

theorem exec_qsCloseComplete {s : State} {q : GroupNo} (h : (s.qslot q).result = 1) :
    ∃ t, exec (.qsCloseComplete q) s = .next t ∧
      t = { s with core := { s.core with qs := t.core.qs, qsPart := t.core.qsPart } } ∧
      (∀ i, i < 8 → t.qpart i q = {}) ∧ (t.qslot q).result = 2 ∧ (t.qslot q).closed = true ∧
      (t.qslot q).epoch = !(s.qslot q).epoch ∧ (t.qslot q).shdScale = (s.qslot q).actScale ∧
      (t.qslot q).shdCfg = (s.qslot q).actCfg ∧
      (t.qslot q).actCfg.toNat = ((s.qslot q).actCfg.toNat + 2 ^ 24) % 2 ^ 32 ∧
      (t.qslot q).hist.length ≤ 16 + (s.qslot q).hist.length := by
  have hexec : exec (.qsCloseComplete q) s = .next (closeSlot s q) := congrArg Host.Outcome.next (if_pos (by simp [h]))
  obtain ⟨x, hx⟩ := clearParts_frame s q (List.range 8)
  have hparts (i : Nat) (hi : i < 8) : (clearParts s q (List.range 8)).qpart i q = {} := by
    rw [qpart_clearParts, if_pos (List.mem_range.mpr hi)]
  obtain ⟨y, hy, hres, hclosed, hepoch, hscale, hcfg, hact, hhist⟩ : ∃ y : QsSlot,
      closeSlot s q = (clearParts s q (List.range 8)).setQslot q y ∧ y.result = 2 ∧ y.closed = true ∧
      y.epoch = !(s.qslot q).epoch ∧ y.shdScale = (s.qslot q).actScale ∧ y.shdCfg = (s.qslot q).actCfg ∧
      y.actCfg = BitVec.ofNat 32 (putField (s.qslot q).actCfg.toNat 24 8 (field (s.qslot q).actCfg.toNat 24 8 + 1)) ∧
      y.hist = (adapt (s.qslot q) (combinedPart s q).smax).1 := ⟨_, rfl, rfl, rfl, rfl, rfl, rfl, rfl, rfl⟩
  rw [hexec, hy]
  refine ⟨_, rfl, ?_, hparts, ?_⟩
  · rw [hx]
    rfl
  · rw [State.qslot_setQslot_same, hact, hhist]
    exact ⟨hres, hclosed, hepoch, hscale, hcfg, toNat_stepRaised _, adapt_hist_length _ _⟩

/-- Settles O27: each command is the branch of its action that the slot's state selects; a close combines, clears and
exchanges. -/
theorem quantisationSlots : Obligations.QuantisationSlots := by
  unfold Obligations.QuantisationSlots
  refine ⟨?collect, ?control, fun s q h => exec_qsCloseComplete h, fun s t q m r v hg => ⟨fun h => ?_, fun h hr => ?_,
    fun h hr => ?_⟩⟩
  case collect =>
    rintro s t m v q n p hg rfl rfl rfl
    have hlow : field v.toNat 0 8 = v.toNat % 2 ^ 8 := by simp [field]
    rw [← hlow]
    refine ⟨fun hd => exec_qsCollect_dropped hg hd, fun hd h8 => ?_⟩
    rw [exec_qsCollect_taken hg hd, h8, collectInto_max]
    rfl
  case control =>
    rintro s t q m v x rfl hg hr
    exact ⟨exec_qsClose hg hr, fun e k he h4 h8 hk h7 h245 => exec_qsFlip_legal hg hr he h4 h8 hk h7 h245,
      fun hbad => exec_qsFlip_refused hg hr hbad⟩
  · exact congrArg Host.Outcome.next ((gated_ok hg _).trans (if_pos (by simp [h])))
  · subst hr
    exact congrArg Host.Outcome.next ((gated_ok hg _).trans (if_neg (by simpa using h)))
  · subst hr
    exact congrArg Host.Outcome.next ((gated_ok hg _).trans (if_neg (by simpa using h)))

end Sys2Proof.Machine
end

section
/-! PROOF. Rows that move (spec/01 R31, R32, R36 to R40): the obligation on the forwarding flip and on row moves (O26). -/

namespace Sys2Proof.Machine

/-! ## What a move of a row leaves unchanged -/

/-- From s to t only the store, the clusters, the dead letters and the flash may change. -/
def RowMoved (s t : State) : Prop :=
  ∃ m c d f, t = { s with store := m, core := { s.core with clus := c, dead := d }, flash := f }

theorem RowMoved.refl (s : State) : RowMoved s s := ⟨_, _, _, _, rfl⟩

theorem RowMoved.trans {s t u : State} (h1 : RowMoved s t) (h2 : RowMoved t u) : RowMoved s u := by
  obtain ⟨_, _, _, _, rfl⟩ := h1
  obtain ⟨_, _, _, _, rfl⟩ := h2
  exact ⟨_, _, _, _, rfl⟩

theorem RowMoved.foldl {α : Type} {f : State → α → State} (hf : ∀ u a, RowMoved u (f u a)) (l : List α) (s : State) :
    RowMoved s (l.foldl f s) :=
  List.foldlRecOn l f (refl s) fun _ hu a _ => hu.trans (hf _ a)

theorem clearRow_moved (s : State) (t k : Nat) : RowMoved s (clearRow s t k) :=
  .foldl (fun _ _ => ⟨_, _, _, _, rfl⟩) _ s

theorem moveQueues_moved (s : State) (t k k' : Nat) : RowMoved s (moveQueues s t k k') :=
  .foldl (fun _ _ => ⟨_, _, _, _, rfl⟩) _ s

theorem moveRow_moved (s : State) (t r k k' : Nat) : RowMoved s (moveRow s t r k k') := by
  have hrecord : RowMoved s (recordMove s t r k') := ⟨_, _, _, _, rfl⟩
  exact (((hrecord.trans (clearRow_moved _ t k)).trans (clearRow_moved _ t k')).trans (moveQueues_moved _ t k k')).trans
    ⟨_, _, _, _, rfl⟩

/-! ## The flip (R31, R32) -/

/-- The flip of a legal shadow copy: it becomes the active copy and stays the shadow copy; no block but the floor plan's
changes. -/
structure Flipped (s : State) (t : Nat) (u : State) : Prop where
  active : (u.tile t).fwdActive = (s.tile t).fwdShadow
  shadow : (u.tile t).fwdShadow = (s.tile t).fwdShadow
  epoch : (u.tile t).fwdEpoch = !(s.tile t).fwdEpoch
  hif : u.hif = s.hif
  ports : u.ports = s.ports

theorem flipForwarding_flipped (s : State) (t : Nat) : Flipped s t (flipForwarding s t) := by
  have hmoved : RowMoved s ((List.range 16).foldl (fun a r =>
      if fwdRow s t r == fwdShadowRow s t r then a else moveRow a t r (fwdRow s t r) (fwdShadowRow s t r)) s) := by
    refine .foldl (fun u r => ?_) _ s
    split
    · exact .refl u
    · exact moveRow_moved _ _ _ _ _
  obtain ⟨_, _, _, _, hm⟩ := hmoved
  rw [flipForwarding]
  simp only [hm]
  constructor
  · simp [buildPage]
  · simp [buildPage]; rfl
  · simp [buildPage]
  · rfl
  · rfl

theorem flipChecked_legal {s : State} {t : Nat} (h : shadowOk s t = true) : flipChecked s t = (flipForwarding s t, true) :=
  if_pos h

theorem flipChecked_refused {s : State} {t : Nat} (h : shadowOk s t = false) :
    flipChecked s t = (denyAdd s 0 true 4 (regBase + tilBase t + 0x1080), false) :=
  if_neg (by simp [h])

/-- Postmaster's register accesses pass every check once the module has started. -/
theorem regGate_postmaster {s : State} (h : s.boot.stage ≠ 0) (off : Nat) (write : Bool) :
    regGate s 0 off write = .ok := by
  simp [regGate, h]

theorem exec_forwardingFlip {s : State} (t : Tile) (h : s.boot.stage ≠ 0) :
    exec (.forwardingFlip t 0) s = .next (flipChecked s t).1 :=
  congrArg Host.Outcome.next (gated_ok (regGate_postmaster h _ true) _)

/-! ## The move of a row (R40) -/

/-- A row listed in a forwarding table reads back. -/
theorem kget_fwdSet (m : KMap Nat) (r k : Nat) :
    (if kget 0 (fwdSet m r k) r == 0 then r else kget 0 (fwdSet m r k) r - 1) = k := by
  rw [fwdSet, kget_kset_same]
  by_cases h : k = r <;> simp [h]

theorem exec_rowMoveComplete_none {s : State} {t : Tile} (h1 : (s.tile t).swapResult = 1) (hs : wholeSpares s t = []) :
    exec (.rowMoveComplete t) s = .next (s.setTile t { s.tile t with swapResult := 3 }) := by
  change execRowMoveComplete t s = _
  simp [execRowMoveComplete, h1, hs]

theorem exec_rowMoveComplete_spare {s : State} {t : Tile} {k : Nat} {rest : List Nat} (h1 : (s.tile t).swapResult = 1)
    (hs : wholeSpares s t = k :: rest) :
    exec (.rowMoveComplete t) s = .next ((moveTo s t (s.tile t).swapMoving k).1.setTile t
      { (moveTo s t (s.tile t).swapMoving k).1.tile t with
        swapResult := if (moveTo s t (s.tile t).swapMoving k).2 then 2 else 3 }) := by
  change execRowMoveComplete t s = _
  simp [execRowMoveComplete, h1, hs]

/-- Settles O26: a flip is judged by R32 and, where it takes effect, exchanges the copies; a move is a shadow entry and a
flip. -/
theorem rowMoves : Obligations.RowMoves := by
  unfold Obligations.RowMoves
  refine ⟨fun s t hst hok => ?flip, fun s t hst hbad => ?refused, fun s t m v hg h8 hr => ?swap,
    fun s t h1 => ⟨fun hs => exec_rowMoveComplete_none h1 hs, ?spare⟩⟩
  case flip =>
    have h := flipForwarding_flipped s t
    rw [exec_forwardingFlip t hst, flipChecked_legal hok]
    exact ⟨_, rfl, h.active, h.shadow, h.epoch, h.hif, h.ports⟩
  case refused =>
    rw [exec_forwardingFlip t hst, flipChecked_refused hbad]
    exact ⟨_, rfl, rfl, rfl⟩
  case swap =>
    have hrow : field v.toNat 0 4 = v.toNat % 16 := by simp [field]
    refine congrArg Host.Outcome.next ((gated_ok hg _).trans ?_)
    simp [actRowSwap, h8, hr, hrow]
  case spare =>
    rintro k rest x hs hrow hk rfl
    rw [exec_rowMoveComplete_spare h1 hs]
    refine ⟨fun hok => ?_, fun hbad => ?_⟩
    · have h := flipForwarding_flipped (s.setTile t
        { s.tile t with fwdShadow := fwdSet (s.tile t).fwdShadow (s.tile t).swapMoving k }) t
      rw [moveTo, flipChecked_legal hok]
      refine ⟨_, rfl, ?_, ?_, ?_, ?_⟩
      · rw [State.tile_setTile_same]
        rfl
      · rw [State.tile_setTile_same]
        simpa using h.active
      · rw [State.tile_setTile_same]
        simpa using h.epoch
      · rw [fwdRow, State.tile_setTile_same]
        have hactive := h.active
        rw [State.tile_setTile_same] at hactive
        simp only [hactive]
        exact kget_fwdSet _ _ _
    · rw [moveTo, flipChecked_refused hbad]
      refine ⟨_, rfl, ?_, ?_, rfl, rfl⟩
      · rw [State.tile_setTile_same]
        rfl
      · rw [State.tile_setTile_same]
        change ((s.setTile t { s.tile t with
          fwdShadow := fwdSet (s.tile t).fwdShadow (s.tile t).swapMoving k }).tile t).fwdActive = _
        rw [State.tile_setTile_same]

end Sys2Proof.Machine
end

section
/-! PROOF. Repeat tests (spec/19 R490 to R493): the obligation on repeat tests and parity (O21) fails in a state where an
operation runs on the cluster under test, whose whole parcel the quiesce of a permanent fault commits. -/

namespace Sys2Proof.Machine

/-! ## What leaves memory alone -/

theorem cperStore_store (s : State) (c : Cper) : (cperStore s c).store = s.store := by
  unfold cperStore
  simp only
  split <;> rfl

theorem cperAdd_store (s : State) (event key : Nat) (c : Cper) : (cperAdd s event key c).store = s.store := by
  unfold cperAdd
  extract_lets c' k sec f
  split
  · exact cperStore_store _ _
  · split
    · rfl
    · exact cperStore_store _ _

theorem recordSuspect_store (s : State) (p : Nat) : (recordSuspect s p).store = s.store := by
  unfold recordSuspect
  split <;> rfl

theorem opFailAs_ended (s : State) (slot status detail : Nat) (force : Bool) :
    OpsEnded s (opFailAs s slot status detail force) := by
  unfold opFailAs
  split
  · exact .refl s
  · split
    · exact .refl s
    · exact ((opFinal_ended _ _ _ _ _).trans (haltStream_ended _ _)).trans (settle_ended _ _)

theorem opStart_store (s : State) (slot : Nat) : (opStart s slot).store = s.store := by
  unfold opStart
  split
  · rfl
  · split
    · exact (setReceipt_reports _ _ _).store
    · rfl

theorem opDone_store (s : State) (slot : Nat) : (opDone s slot).store = s.store := by
  unfold opDone
  split
  · rfl
  · exact (opFinal_ended _ _ _ _ _).store.trans (opStart_store _ _)

theorem dropProgram_store (s : State) (p : Nat) : (dropProgram s p).store = s.store := by
  unfold dropProgram
  simp only
  split <;> rfl

theorem dropResidual_store (s : State) (r : SolveRun) : (dropResidual s r).store = s.store := by
  unfold dropResidual
  split
  · rfl
  · extract_lets n x s1 p s2
    change s2.store = s.store
    subst s2
    split
    · split
      · exact dropProgram_store _ _
      · rfl
    · rfl

theorem endSolve_store (s : State) (g : Nat) (e : SolveEnd) : (endSolve s g e).store = s.store := by
  unfold endSolve
  split
  · rfl
  next r _ =>
    extract_lets e' q s1
    have hs1 : s1.store = s.store := dropResidual_store s r
    clear_value s1 e'
    cases e'
    · exact (opDone_store _ _).trans hs1
    · exact (opFail_ended _ _ _ _).store.trans hs1
    · exact (opFailAs_ended _ _ _ _ _).store.trans hs1
    · exact (opFailAs_ended _ _ _ _ _).store.trans hs1

theorem foldl_store {α : Type} {f : State → α → State} (hf : ∀ u a, (f u a).store = u.store) (l : List α) (s : State) :
    (l.foldl f s).store = s.store :=
  List.foldlRecOn (motive := fun u => u.store = s.store) l f rfl fun _ hu a _ => (hf _ a).trans hu

theorem endSolvesOf_store (s : State) (f : SolveRun → Bool) : (endSolvesOf s f).store = s.store := by
  refine foldl_store (fun u e => ?_) _ s
  split
  · exact endSolve_store _ _ _
  · rfl

theorem teFail_store (s : State) (p status detail : Nat) : (teFail s p status detail).store = s.store := by
  unfold teFail
  simp only
  split
  · rfl
  · split
    · split <;> rfl
    · refine (opFail_ended _ _ _ _).store.trans ?_
      split <;> rfl

theorem teDone_store (s : State) (p : Nat) : (teDone s p).store = s.store := by
  unfold teDone
  simp only
  split
  · rfl
  · split
    · split <;> rfl
    · refine (opDone_store _ _).trans ?_
      split <;> rfl

/-! ## The quiesce of a cluster whose tensor operation has one whole parcel to commit -/

/-- A quiesce changes memory only by what it commits or saves of the tensor operation. -/
theorem quiesceCluster_store {s : State} {n p : Nat} (hp : p = physOfN s n) (hgo : isStopped s n = false)
    (hidle : memInFlight s p = false) :
    (quiesceCluster s n).store =
      (quiesceTensor (endQuiesced (s.setLclu n { s.lclu n with quiescing := true }) p) p).store := by
  subst hp
  have hidle' : memInFlight (s.setLclu n { s.lclu n with quiescing := true }) (physOfN s n) = false := hidle
  rw [quiesceCluster, if_neg (by simp [hgo])]
  simp only [hidle', Bool.false_eq_true, if_false]
  split
  · exact endSolvesOf_store _ _
  · exact endSolvesOf_store _ _

/-- A faulty cluster that is not retired, held in quarantine and not yet quiesced. -/
def heldFaulty (s : State) (p : Nat) : State :=
  let s1 := { s with chk := { s.chk with permanent := inc32 s.chk.permanent } }
  s1.setClu p { s1.clu p with chk := { (s1.clu p).chk with state := .quarantined, test := none } }

theorem permanentFault_store {s : State} {p n : Nat} (hn : logicalOfP (heldFaulty s p) p = some n) :
    (permanentFault s p false).store = (quiesceCluster (heldFaulty s p) n).store := by
  have hquiet : quietPhys (heldFaulty s p) p = quiesceCluster (heldFaulty s p) n := by rw [quietPhys, hn]
  rw [permanentFault, if_neg (by decide), cperAdd_store, ← hquiet]
  exact recordSuspect_store _ _

theorem exec_repeatTestDone_zero {s : State} {p : PClu} (hp : (s.clu p).chk.state = .testing)
    (hr : s.boot.computeReset = false) : exec (.repeatTestDone p 0) s = .next (permanentFault s p s.chk.autoRetire) := by
  have hclass : classify s p 0 s.chk.autoRetire = permanentFault s p s.chk.autoRetire := if_pos (by decide)
  have hgo : ¬ (decide ((s.clu p).chk.state ≠ .testing) || s.boot.computeReset) = true := by simp [hp, hr]
  exact congrArg Host.Outcome.next ((if_neg hgo).trans hclass)

/-- The stop of an operation between bands commits what is whole and saves nothing. -/
theorem stopTensor_store {s : State} {p : Nat} {r : TeRun} {d : TDesc} (hd : d = tdescOf r.item.desc)
    (hr : (s.te p).run = some r) (hs : (s.te p).susp = none) (hb : d.bands ≤ r.band) :
    (stopTensor s p true).store =
      (commitWhole (d.outParcels + 2) s.takeFree.2 p (fun q => decide (d.lastBand q < r.band))).store := by
  subst hd
  have hmid : decide (r.band < (tdescOf r.item.desc).bands) = false := by simpa using hb
  simp only [stopTensor, hr, hs, hmid, Bool.false_eq_true, if_false]
  split
  · rfl
  · simp only [Bool.and_false, Bool.false_and, Bool.false_eq_true, if_false, if_true]
    exact teFail_store _ _ _ _

/-- Once the last parcel has been passed, committing goes on without a write. -/
theorem commitWhole_store_of_passed {s : State} {p : Nat} {r : TeRun} {whole : Nat → Bool}
    (hr : (s.te p).run = some r) (hlast : (tdescOf r.item.desc).outParcels ≤ r.next) (k : Nat) :
    (commitWhole k s p whole).store = s.store := by
  cases k with
  | zero => rfl
  | succ k =>
    simp only [commitWhole, hr, hlast, if_true]
    split
    · rfl
    · exact teDone_store _ _

/-- A whole parcel that nothing holds back is the next to be committed. -/
theorem commitWhole_next {s : State} {p : Nat} {r : TeRun} {whole : Nat → Bool} (hr : (s.te p).run = some r)
    (hs : (s.te p).susp = none) (hmore : ¬ (tdescOf r.item.desc).outParcels ≤ r.next) (hhold : r.hold = none)
    (hw : whole r.next = true) (k : Nat) :
    commitWhole (k + 1) s p whole =
      if passedParcel (commitNext s p r (tdescOf r.item.desc)) p r.next
      then commitWhole k (commitNext s p r (tdescOf r.item.desc)) p whole
      else commitNext s p r (tdescOf r.item.desc) := by
  simp [commitWhole, hr, hs, hmore, hhold, hw]

/-- A delivered parcel of a program's operation is passed, and its bytes are those delivered. -/
theorem releaseEnd_byProg {s : State} {p q : Nat} {r : TeRun} {d : TDesc} {t : Tally} (h : r.item.byProg = true) :
    ((releaseEnd p r d q t (s, .ok)).te p).run = some { r with next := q + 1, hold := none } ∧
    (releaseEnd p r d q t (s, .ok)).store = s.store := by
  simp [releaseEnd, h, State.te, State.setTe]

/-! ## The counterexample -/

/-- A one-element f32 product whose output is a record at 0x3000. -/
def recordProduct : List Byte :=
  bytesOfNat 4 7 ++ zeroBytes 4 ++ [1, 0x11, 0x41, 0] ++ bytesOfNat 4 1 ++ bytesOfNat 4 1 ++ bytesOfNat 4 1 ++ zeroBytes 4 ++
  bytesOfNat 4 1 ++ bytesOfNat 4 1 ++ bytesOfNat 4 0x1000 ++ bytesOfNat 4 0x2000 ++ bytesOfNat 4 0x3000 ++ zeroBytes 16

/-- The operation, with its band done and its parcel formed as zeros. -/
def wholeRun : TeRun := { item := ⟨0, true, recordProduct⟩, band := 1, bad := [⟨0, zeroBytes 4096, [1]⟩] }

/-- Cluster 0 is under test while the operation runs on it; the first byte of the output parcel holds 1. -/
def busyTest : State := { Tests.up with
  core := { Tests.up.core with clus := [(0, { chk := { state := .testing }, te := { run := some wholeRun } })] }
  chk := { Tests.up.chk with autoRetire := false }
  store := { Tests.up.store with bytes := [(storeKey 0 0x3000, 1)] } }

/-- The same with the test failed and the quiesce of its cluster begun. -/
def busyStop : State :=
  endQuiesced ((heldFaulty busyTest 0).setLclu 0 { (heldFaulty busyTest 0).lclu 0 with quiescing := true }) 0

theorem commitNext_busyStop :
    commitNext busyStop.takeFree.2 0 wholeRun (tdescOf recordProduct) =
      releaseEnd 0 wholeRun (tdescOf recordProduct) 0 (outParcel busyStop.takeFree.2 0 (tdescOf recordProduct) 0).2
        (noteWriter (sealedPut busyStop.takeFree.2 (storeKey 0 0x3000) (zeroBytes 4096)) 0 (storeKey 0 0x3000), .ok) := by
  have hlen : (zeroBytes 4096).length = 4096 := List.length_replicate
  have hformed : (formedParcel wholeRun (tdescOf recordProduct) 0
      (outParcel busyStop.takeFree.2 0 (tdescOf recordProduct) 0).1).1 = zeroBytes 4096 := by
    simp [formedParcel, wholeRun, hlen]
  have hlock : readLocked busyStop.takeFree.2 (.te 0) (storeKey 0 0x3000) = false := by decide +kernel
  have hclash : clashOf busyStop.takeFree.2 0 (storeKey 0 0x3000) = none := by decide +kernel
  have hkey : storeKey 0 ((tdescOf recordProduct).outOff + 0 * 4096) = storeKey 0 0x3000 := by decide +kernel
  have hhbm : keyIsHbm (storeKey 0 0x3000) = false := by decide +kernel
  have hkind : ((tdescOf recordProduct).outKind == 0) = false := by decide +kernel
  have hwrite := parcelWrite_store (s := busyStop.takeFree.2) (d := zeroBytes 4096) hhbm (by decide +kernel)
  have hdeliver : deliver busyStop.takeFree.2 (.te 0) 0 (storeKey 0 0x3000) 0 (zeroBytes 4096) ⟨1, some 0⟩ =
      (noteWriter (sealedPut busyStop.takeFree.2 (storeKey 0 0x3000) (zeroBytes 4096)) 0 (storeKey 0 0x3000), .ok) := by
    rw [deliver, if_neg (by rw [hlock]; decide), hclash]
    simp only
    rw [parcelMerge, if_pos (by rw [hlen]; rfl), hwrite]
  have hparity : wholeRun.parity.contains wholeRun.next = false := rfl
  simp only [commitNext, hparity, hkind, Bool.false_and, Bool.false_eq_true, if_false]
  rw [releaseParcel]
  change releaseEnd 0 wholeRun (tdescOf recordProduct) 0 _ (deliver _ (.te 0) 0
    (storeKey 0 ((tdescOf recordProduct).outOff + 0 * 4096)) 0 (formedParcel wholeRun (tdescOf recordProduct) 0
      (outParcel busyStop.takeFree.2 0 (tdescOf recordProduct) 0).1).1 ⟨1, some 0⟩) = _
  rw [hformed, hkey, hdeliver]
  rfl

/-- The quiesce writes zeros over the byte of the output parcel. -/
theorem memByte_quiesced : memByte (quiesceTensor busyStop 0) (storeKey 0 0x3000) = 0 := by
  have hrun : (busyStop.te 0).run = some wholeRun := by rfl
  have hsusp : (busyStop.te 0).susp = none := by rfl
  have hstop : quiesceTensor busyStop 0 = stopTensor busyStop 0 true := by
    rw [quiesceTensor, hsusp, hrun, if_neg (by decide), if_neg (by decide +kernel), if_neg (by decide)]
  have hparcels : (tdescOf recordProduct).outParcels + 2 = 2 + 1 := by decide +kernel
  have hmore : ¬ (tdescOf recordProduct).outParcels ≤ 0 := by decide +kernel
  have hwhole : decide ((tdescOf recordProduct).lastBand 0 < 1) = true := by decide +kernel
  rw [memByte, hstop, stopTensor_store (d := tdescOf recordProduct) rfl hrun hsusp (by decide +kernel), hparcels]
  obtain ⟨hnext, hstore⟩ := releaseEnd_byProg (p := 0) (q := 0) (d := tdescOf recordProduct)
    (t := (outParcel busyStop.takeFree.2 0 (tdescOf recordProduct) 0).2)
    (s := noteWriter (sealedPut busyStop.takeFree.2 (storeKey 0 0x3000) (zeroBytes 4096)) 0 (storeKey 0 0x3000))
    (show wholeRun.item.byProg = true from rfl)
  rw [← commitNext_busyStop] at hnext hstore
  rw [commitWhole_next (s := busyStop.takeFree.2) (r := wholeRun) hrun hsusp hmore rfl hwhole 2]
  have hcommit : (if passedParcel (commitNext busyStop.takeFree.2 0 wholeRun (tdescOf recordProduct)) 0 wholeRun.next
      then commitWhole 2 (commitNext busyStop.takeFree.2 0 wholeRun (tdescOf recordProduct)) 0
        (fun q => decide ((tdescOf recordProduct).lastBand q < wholeRun.band))
      else commitNext busyStop.takeFree.2 0 wholeRun (tdescOf recordProduct)).store =
      (commitNext busyStop.takeFree.2 0 wholeRun (tdescOf recordProduct)).store := by
    split
    · exact commitWhole_store_of_passed hnext (by decide +kernel) 2
    · rfl
  rw [show tdescOf wholeRun.item.desc = tdescOf recordProduct from rfl, hcommit, hstore, (noteWriter_stored _ _ _).2]
  refine (memByte_sealedPut _ _ _ _).trans ?_
  rw [if_pos ⟨Nat.le_refl _, by rw [zeroBytes, List.length_replicate]; omega⟩, Nat.sub_self]
  rfl

theorem store_permanentFault_busyTest :
    (permanentFault busyTest 0 false).store = (quiesceTensor busyStop 0).store :=
  (permanentFault_store (by decide +kernel)).trans
    (quiesceCluster_store (p := 0) (by decide +kernel) (by decide +kernel) (by decide +kernel))

/-- Refutes O21: with retirement off, a test without an equal run quiesces its cluster, and where a tensor operation with
a whole parcel still runs there (a state that no run reaches, but that the statement admits) the quiesce commits the
parcel, so memory changes. -/
theorem not_repeatTestsAndParity : ¬ Obligations.RepeatTestsAndParity := by
  unfold Obligations.RepeatTestsAndParity
  rintro ⟨-, htest, -, -⟩
  have hstate : (busyTest.clu ((0 : PClu) : Nat)).chk.state = .testing := by decide +kernel
  have hreset : busyTest.boot.computeReset = false := by decide +kernel
  have hhour : busyTest.chk.hour = busyTest.now / 3600000000000 := by decide +kernel
  obtain ⟨t, hexec, hbytes, -⟩ := htest busyTest 0 0 hstate hreset hhour
  have hretire : busyTest.chk.autoRetire = false := by decide +kernel
  have hdone := exec_repeatTestDone_zero hstate hreset
  rw [hretire] at hdone
  have ht : t = permanentFault busyTest 0 false := Host.Outcome.next.inj (hexec.symm.trans hdone)
  have hbefore : memByte busyTest (storeKey 0 0x3000) = 1 := by decide +kernel
  have hafter : memByte t (storeKey 0 0x3000) = 0 := by
    rw [ht, memByte, store_permanentFault_busyTest]
    exact memByte_quiesced
  rw [memByte, hbytes] at hafter
  exact absurd (hbefore.symm.trans hafter) (by decide)

end Sys2Proof.Machine
end

section
/-! PROOF. What packets on the ports and a change of stage leave unchanged (spec/14 R352, spec/18 R453), and the obligation
on power and pins (O48). -/

namespace Sys2Proof.Machine

/-! ## Packets put on the ports -/

/-- From x to y only what waits on a port, its buffers and its credits differ. -/
def PortKept (x y : Port) : Prop :=
  y = { x with queue := y.queue, credits := y.credits, replay := y.replay, nextSeq := y.nextSeq, owed := y.owed }

theorem PortKept.refl (x : Port) : PortKept x x := rfl

theorem PortKept.trans {x y z : Port} (h1 : PortKept x y) (h2 : PortKept y z) : PortKept x z := by
  rw [PortKept, h2, h1]

/-- From s to t packets were put on the ports, and nothing else. -/
structure PortsOnly (s t : State) : Prop where
  frame : t = { s with ports := t.ports, sent := t.sent }
  port : ∀ k, PortKept (s.port k) (t.port k)
  sent : s.sent ⊆ t.sent

namespace PortsOnly

theorem refl (s : State) : PortsOnly s s := ⟨rfl, fun _ => .refl _, fun _ h => h⟩

theorem trans {s t u : State} (h1 : PortsOnly s t) (h2 : PortsOnly t u) : PortsOnly s u :=
  ⟨by rw [h2.frame, h1.frame], fun k => (h1.port k).trans (h2.port k), fun _ h => h2.sent (h1.sent h)⟩

theorem setPort {s : State} {n : Nat} {x : Port} (h : PortKept (s.port n) x) : PortsOnly s (s.setPort n x) := by
  refine ⟨rfl, fun k => ?_, fun _ h => h⟩
  rw [State.port_setPort]
  split
  · next hk => exact hk ▸ h
  · exact .refl _

theorem send (s : State) (x : Sent) : PortsOnly s (s.send x) :=
  ⟨rfl, fun _ => .refl _, fun _ h => List.mem_append_left _ h⟩

theorem foldl {α : Type} {f : State → α → State} (hf : ∀ u a, PortsOnly u (f u a)) (l : List α) (s : State) :
    PortsOnly s (l.foldl f s) :=
  List.foldlRecOn l f (refl s) fun _ hu a _ => hu.trans (hf _ a)

end PortsOnly

theorem linkOwe_ports (s : State) (n vc k : Nat) : PortsOnly s (linkOwe s n vc k) := .setPort rfl

theorem linkOut_ports (s : State) (n : Nat) (q : LinkItem) : PortsOnly s (linkOut s n q) := by
  have hout (x : Port) (hx : PortKept (s.port n) x) : PortsOnly s ((s.setPort n x).send q.item) :=
    (PortsOnly.setPort hx).trans (.send _ _)
  rw [linkOut]
  split
  · exact (hout _ (by exact rfl)).trans (linkOwe_ports _ _ _ _)
  · exact hout _ (by exact rfl)

theorem linkSend_ports (s : State) (n : Nat) (q : LinkItem) : PortsOnly s (linkSend s n q) := by
  rw [linkSend]
  split
  · exact .setPort rfl
  · exact linkOut_ports _ _ _

theorem maintSendAll_ports (s : State) (l : List (Nat × Sent)) : PortsOnly s (maintSendAll s l) :=
  .foldl (fun _ _ => linkSend_ports _ _ _) l s

theorem sendDiscovers_ports (s : State) : PortsOnly s (sendDiscovers s) := maintSendAll_ports _ _

/-! ## A change of stage (R453) -/

/-- A stage is entered: the boot registers name it, and besides only its DISCOVERs and its vector appear. -/
structure StageEntered (s : State) (n : Nat) (t : State) : Prop where
  stage : t.boot.stage = n
  frame : t = { s with boot := t.boot, ring := t.ring, ports := t.ports, sent := t.sent }
  boot : t.boot = { s.boot with
    stage := t.boot.stage, stagePm := t.boot.stagePm, stageCyc := t.boot.stageCyc, durS3 := t.boot.durS3,
    durS4 := t.boot.durS4, forceFull := t.boot.forceFull }
  port : ∀ k, PortKept (s.port k) (t.port k)
  sent : s.sent ⊆ t.sent

/-- The boot registers at the start of a stage. -/
def atStage (s : State) (n : Nat) : State :=
  { s with boot := { s.boot with
      stage := n, stagePm := s.now, stageCyc := s.time.cycles,
      durS3 := if s.boot.stage == 3 && n == 4 then min 65535 ((s.time.cycles - s.boot.stageCyc) / 10000000) else s.boot.durS3,
      durS4 := if s.boot.stage == 4 && n == 5 then min 65535 ((s.time.cycles - s.boot.stageCyc) / 10000000) else s.boot.durS4,
      forceFull := if n == 6 then false else s.boot.forceFull } }

theorem setStage_eq (s : State) (n : Nat) : setStage s n = sendDiscovers (sendMsix (atStage s n) 0) := rfl

theorem sendMsix_sent (s : State) (v : Nat) : s.sent ⊆ (sendMsix s v).sent := by
  unfold sendMsix
  split
  · exact fun _ h => h
  · split
    · exact fun _ h => h
    · exact fun _ h => List.mem_append_left _ h

theorem setStage_entered (s : State) (n : Nat) : StageEntered s n (setStage s n) := by
  obtain ⟨p, l, hmsix⟩ := sendMsix_eq (atStage s n) 0
  obtain ⟨hframe, hport, hsent⟩ := sendDiscovers_ports (sendMsix (atStage s n) 0)
  have hgrow : s.sent ⊆ (sendMsix (atStage s n) 0).sent := sendMsix_sent (atStage s n) 0
  rw [setStage_eq]
  refine ⟨?_, ?_, ?_, ?_, fun _ h => hsent (hgrow h)⟩
  all_goals rw [hmsix] at hframe hport ⊢
  · rw [hframe]
    rfl
  · rw [hframe]
    rfl
  · rw [hframe]
    rfl
  · exact hport

namespace StageEntered

variable {s t : State} {n : Nat}

theorem store (h : StageEntered s n t) : t.store = s.store := by rw [h.frame]
theorem core (h : StageEntered s n t) : t.core = s.core := by rw [h.frame]
theorem pins (h : StageEntered s n t) : t.pins = s.pins := by rw [h.frame]
theorem time (h : StageEntered s n t) : t.time = s.time := by rw [h.frame]
theorem ledger (h : StageEntered s n t) : t.ledger = s.ledger := by rw [h.frame]
theorem flash (h : StageEntered s n t) : t.flash = s.flash := by rw [h.frame]
theorem rimClocks (h : StageEntered s n t) : t.boot.rimClocks = s.boot.rimClocks := by rw [h.boot]
theorem error (h : StageEntered s n t) : t.boot.error = s.boot.error := by rw [h.boot]
theorem runStage (h : StageEntered s n t) : t.boot.runStage = s.boot.runStage := by rw [h.boot]
theorem postVer (h : StageEntered s n t) : t.boot.postVer = s.boot.postVer := by rw [h.boot]

end StageEntered

/-! ## Power and pins (18 R453, 21 R537, 22 R545, R546) -/

/-- S0 ends with the time base running from 0, once the clocks run and RESET_N is high. -/
theorem leaveS0_entered {s : State} (h0 : s.boot.stage = 0) (hc : s.boot.rimClocks = true) (hr : s.pins.resetN = true) :
    StageEntered { s with time := { s.time with running := true, pm := 0, frac := 0, slew := 0 } } 1 (leaveS0 s) := by
  rw [leaveS0, if_pos (by simp [h0, hc, hr])]
  exact setStage_entered _ _

theorem leaveS0_held {s : State} (hr : s.pins.resetN = false) : leaveS0 s = s := if_neg (by simp [hr])

theorem coldState_spec (s : State) : (coldState s).flash = s.flash ∧ (coldState s).core = {} ∧ (coldState s).store = {} ∧
    (coldState s).ledger = [] ∧ (coldState s).boot.stage = 0 ∧ (coldState s).power.tripValid = false :=
  ⟨rfl, rfl, rfl, rfl, rfl, rfl⟩

/-- A recorded trip is reported and forgotten, and nothing but flash and the power registers changes. -/
theorem reportTrip_spec (s : State) :
    reportTrip s = { s with flash := (reportTrip s).flash, power := (reportTrip s).power } ∧
    (reportTrip s).flash = { s.flash with trip := none } ∧
    (∀ r, s.flash.trip = some r → (reportTrip s).power.tripValid = true ∧ (reportTrip s).power.tripIdx = r.1 ∧
      (reportTrip s).power.tripReading = r.2) ∧
    (s.flash.trip = none → (reportTrip s).power = s.power) := by
  cases h : s.flash.trip with
  | none =>
    have hsame : reportTrip s = s := by rw [reportTrip, h]
    rw [hsame]
    exact ⟨rfl, by rw [← h], nofun, fun _ => rfl⟩
  | some r =>
    rw [reportTrip, h]
    refine ⟨rfl, rfl, ?_, nofun⟩
    rintro _ ⟨⟩
    exact ⟨rfl, rfl, rfl⟩

/-- Settles O48: each pin and supply command is the cold state, a module reset, or the end of S0. -/
theorem powerAndPins : Obligations.PowerAndPins := by
  unfold Obligations.PowerAndPins
  refine ⟨fun s => ⟨_, rfl, rfl, rfl, rfl, rfl, rfl, rfl⟩, fun s hp => ?on, fun s hr hp hs => ?fall,
    fun s hp h0 hc => ?rise, fun s hp hf h0 => ?clocks⟩
  case on =>
    have hexec : exec .powerOn s = .next (reportTrip { coldState s with
        pins := { (coldState s).pins with
          power := true, tripped := false, pwrgd := false, alertN := true, straps := Config.straps.val },
        sec := { (coldState s).sec with calNow := (coldState s).flash.cal } }) :=
      congrArg Host.Outcome.next (if_neg (by simp [hp]))
    generalize hu : ({ coldState s with
        pins := { (coldState s).pins with
          power := true, tripped := false, pwrgd := false, alertN := true, straps := Config.straps.val },
        sec := { (coldState s).sec with calNow := (coldState s).flash.cal } } : State) = u at hexec
    obtain ⟨hframe, hflash, hsome, hnone⟩ := reportTrip_spec u
    have huflash : u.flash = s.flash := by rw [← hu]; rfl
    rw [huflash] at hflash hsome hnone
    refine ⟨_, hexec, ?_, ?_, ?_, ?_, hflash, ?_, hsome, fun h => ?_⟩
    · rw [hframe, ← hu]
    · rw [hframe, ← hu]
    · rw [hframe, ← hu]; rfl
    · rw [hframe, ← hu]; rfl
    · rw [hframe, ← hu]; rfl
    · rw [hnone h, ← hu]; rfl
  case fall =>
    refine ⟨_, congrArg Host.Outcome.next ((if_pos (by simp [hr, hp, hs])).trans (leaveS0_held rfl)), rfl, rfl, rfl, rfl, rfl⟩
  case rise =>
    have h := leaveS0_entered (s := { s with pins := { s.pins with resetN := true } }) h0 hc rfl
    refine ⟨_, congrArg Host.Outcome.next (if_pos hp), ?_, h.stage, ?_, ?_, h.store⟩
    · rw [h.pins]
    · rw [h.time]
    · rw [h.time]
  case clocks =>
    have hexec : exec .rimClocksRun s = .next (leaveS0 { s with
        pins := { s.pins with pwrgd := true }, boot := { s.boot with rimClocks := true } }) :=
      congrArg Host.Outcome.next (if_neg (by simp [hp, hf, h0]))
    cases hr : s.pins.resetN with
    | false =>
      rw [hexec, leaveS0_held (by exact hr)]
      exact ⟨_, rfl, rfl, rfl, rfl, h0⟩
    | true =>
      have h := leaveS0_entered (s := { s with
        pins := { s.pins with pwrgd := true }, boot := { s.boot with rimClocks := true } }) h0 rfl hr
      refine ⟨_, hexec, h.rimClocks, ?_, h.store, h.stage⟩
      rw [h.pins]

end Sys2Proof.Machine
end

section
/-! PROOF. Events of the host link (spec/16 R425, R426, spec/22 R547): what a compute reset leaves of the link, and the
obligation on the link's events (O39). -/

namespace Sys2Proof.Machine

/-! ## Reports keep the link

`ReportsOnly` lets the registers of the host interface change; the link itself stays as it is. -/

/-- From s to t the host link stays up or down. -/
def LinkKept (s t : State) : Prop := t.hif.linkUp = s.hif.linkUp

namespace LinkKept

theorem refl (s : State) : LinkKept s s := rfl
theorem trans {s t u : State} (h1 : LinkKept s t) (h2 : LinkKept t u) : LinkKept s u := Eq.trans h2 h1

theorem foldl {α : Type} {f : State → α → State} (hf : ∀ u a, LinkKept u (f u a)) (l : List α) (s : State) :
    LinkKept s (l.foldl f s) :=
  List.foldlRecOn l f (refl s) fun _ hu a _ => hu.trans (hf _ a)

end LinkKept

theorem sendMsix_link (s : State) (v : Nat) : LinkKept s (sendMsix s v) := by
  obtain ⟨_, _, h⟩ := sendMsix_eq s v
  rw [h]
  rfl

theorem setStale_link (s : State) : LinkKept s (setStale s) := by
  have hflag : LinkKept s { s with hif := { s.hif with mirrorStale := true } } := rfl
  unfold setStale
  simp only
  split
  · exact hflag
  · exact hflag.trans (sendMsix_link _ _)

theorem setNoticeFull_link (s : State) : LinkKept s (setNoticeFull s) := by
  have hflag : LinkKept s { s with hif := { s.hif with noticeFull := true } } := rfl
  unfold setNoticeFull
  simp only
  split
  · exact hflag
  · exact hflag.trans (sendMsix_link _ _)

theorem mirrorReceipt_link (s : State) (slot : Nat) : LinkKept s (mirrorReceipt s slot) := by
  unfold mirrorReceipt
  split
  · rfl
  · split
    · rfl
    · split
      · exact setStale_link s
      · split <;> rfl

theorem noticeAppend_link (s : State) (slot : Nat) : LinkKept s (noticeAppend s slot) := by
  unfold noticeAppend
  split
  · rfl
  · simp only
    split
    · rfl
    · split
      · exact setStale_link s
      · split
        · rfl
        · split
          · unfold noticePut
            simp only
            split <;> rfl
          · exact setNoticeFull_link _

theorem opFinal_link (s : State) (slot : Nat) (st : RState) (status detail : Nat) :
    LinkKept s (opFinal s slot st status detail) := by
  unfold opFinal
  split
  · rfl
  · split
    · rfl
    next o _ _ =>
      have habort : LinkKept s (if st = .done then s else abortNotices s o status) := by
        split
        · rfl
        · unfold abortNotices
          split <;> rfl
      exact (LinkKept.trans (t := State.setOp _ slot _) habort (mirrorReceipt_link _ slot)).trans (noticeAppend_link _ slot)

theorem haltStream_link (s : State) (slot : Nat) : LinkKept s (haltStream s slot) := by
  unfold haltStream
  split
  · rfl
  · simp only
    split <;> rfl

theorem settle_link (fuel : Nat) (s : State) : LinkKept s (settle fuel s) := by
  induction fuel generalizing s with
  | zero => rfl
  | succ n ih =>
    unfold settle
    split
    · rfl
    · exact ((opFinal_link _ _ _ _ _).trans (haltStream_link _ _)).trans (ih _)

/-! ## Requests served, loads ended, packs taken -/

theorem serveRequest_hif {s u : State} {q : List Byte} (h : serveRequest s q = some u) : u.hif = s.hif := by
  have hanswer {cmd code : Nat} {rest : List Byte} (h : some (respond s cmd code rest) = some u) : u.hif = s.hif :=
    Option.some.inj h ▸ rfl
  unfold serveRequest at h
  extract_lets cmd at h
  clear_value cmd
  split at h
  · exact hanswer h
  split at h
  · exact hanswer h
  split at h
  · exact hanswer h
  split at h
  · split at h
    · exact hanswer h
    · split at h
      · exact absurd h nofun
      · exact Option.some.inj h ▸ rfl
  · exact hanswer h
  · exact hanswer h
  · obtain rfl := Option.some.inj h
    unfold serveCalRead
    split <;> rfl
  · obtain rfl := Option.some.inj h
    unfold serveCalArm
    split <;> rfl
  · obtain rfl := Option.some.inj h
    unfold serveCalWrite
    split
    · rfl
    · split <;> rfl
  · obtain rfl := Option.some.inj h
    obtain ⟨x, f, hserve, -⟩ := serveCalCommit_spec s (BitVec.ofNat 32 (leAt q 4 4)) (bytesAt q 8 32)
    rw [BitVec.toNat_ofNat, Nat.mod_eq_of_lt (leAt_word_lt q 4)] at hserve
    rw [hserve]
    rfl
  · exact Option.some.inj h ▸ rfl

theorem serveAll_hif (s : State) (l : List (List Byte)) : (serveAll s l).hif = s.hif := by
  induction l generalizing s with
  | nil => rfl
  | cons q t ih =>
    unfold serveAll
    split
    · next h => exact (ih _).trans (serveRequest_hif h)
    · rfl

theorem drainRequests_hif (s : State) : (drainRequests s).hif = s.hif := by
  unfold drainRequests
  split
  · rfl
  · exact serveAll_hif _ _

theorem endLoad_hif (s : State) : (endLoad s).hif = s.hif := by
  unfold endLoad
  split <;> rfl

/-- A pack that waited is offered: the check registers and the security block's change. -/
theorem takeWaiting_frame (s : State) : takeWaiting s = { s with chk := (takeWaiting s).chk, sec := (takeWaiting s).sec } := by
  unfold takeWaiting
  split
  · unfold offerPack
    extract_lets b r s1
    split
    · rfl
    · split <;> rfl
  · rfl

theorem requiesce_frame (s : State) (old : KMap LClus) : requiesce s old = { s with core := (requiesce s old).core } := by
  unfold requiesce
  refine List.foldlRecOn (motive := fun u : State => u = { s with core := u.core }) old _ rfl fun u hu e _ => ?_
  dsimp only
  split
  · rw [hu]
    rfl
  · exact hu

/-! ## A compute reset (R470) and the link -/

theorem countRounds_hif (s : State) : (countRounds s).hif = s.hif := by
  unfold countRounds
  refine List.foldlRecOn (motive := fun u : State => u.hif = s.hif) _ _ rfl fun u hu e _ => ?_
  split
  · split
    · unfold opCount
      split <;> exact hu
    · exact hu
  · exact hu

theorem abortOps_link (s : State) (l : List Nat) : LinkKept s (abortOps s l) := by
  have hops : LinkKept s (l.foldl abortOp s) := by
    refine .foldl (fun u k => ?_) l s
    unfold abortOp
    split
    · rfl
    · exact opFinal_link _ _ _ _ _
  refine (hops.trans (.foldl (fun u e => ?_) _ _)).trans (settle_link _ _)
  split
  · exact haltStream_link _ _
  · rfl

theorem computeReset_early {s : State} (cause : Nat) (h : s.boot.stage < 6) : computeReset s cause = s :=
  if_pos (by simp [h])

/-- A compute reset that begins is noted with its cause, and the host link stays as it is. -/
theorem computeReset_begun {s : State} (cause : Nat) (h : 6 ≤ s.boot.stage) (hr : s.boot.computeReset = false) :
    (computeReset s cause).boot.computeReset = true ∧ (computeReset s cause).boot.resetCause = cause ∧
    LinkKept s (computeReset s cause) := by
  have hlink := abortOps_link (countRounds (drainRequests (endLoad s))) (tileSlots s)
  have hstart : LinkKept s (countRounds (drainRequests (endLoad s))) := by
    rw [LinkKept, countRounds_hif, drainRequests_hif, endLoad_hif]
  rw [computeReset, if_neg (by simp [hr]; omega)]
  extract_lets s1 tags s2 s3
  rw [takeWaiting_frame, requiesce_frame]
  exact ⟨rfl, rfl, hstart.trans hlink⟩

theorem computeReset_link (s : State) (cause : Nat) : LinkKept s (computeReset s cause) := by
  by_cases h : s.boot.computeReset || s.boot.stage < 6
  · rw [computeReset, if_pos h]
    rfl
  · simp only [Bool.or_eq_true, decide_eq_true_eq, not_or, Bool.not_eq_true, Nat.not_lt] at h
    exact (computeReset_begun cause h.2 h.1).2.2

/-! ## The events -/

/-- A table all of whose entries satisfy a predicate of the default reads so everywhere. -/
theorem kget_foldl_kset_of {α : Type} [DecidableEq α] {d : α} {P : α → Prop} {f : α → α} (hf : ∀ x, P (f x))
    (l : KMap α) (m : KMap α) (hm : ∀ k, P (kget d m k)) (k : Nat) :
    P (kget d (l.foldl (fun m e => kset d m e.1 (f e.2)) m) k) := by
  induction l generalizing m with
  | nil => exact hm k
  | cons e t ih =>
    refine ih (kset d m e.1 (f e.2)) fun j => ?_
    rw [kget_kset]
    split
    · exact hf _
    · exact hm j

theorem exec_functionLevelReset {s : State} (h : s.hif.linkUp = true) :
    ∃ t, exec .functionLevelReset s = .next t ∧
      t = { functionReset (computeReset s 4) with boxes := t.boxes } ∧ ∀ k, (t.box k).enable = false :=
  ⟨_, congrArg Host.Outcome.next (if_neg (by simp [h])), rfl,
    kget_foldl_kset_of (d := ({} : Letterbox)) (P := fun x => x.enable = false) (f := fun x => { x with enable := false })
      (fun _ => rfl) _ [] fun _ => rfl⟩

theorem linkTrains_iff (g : BitVec 4) (w : BitVec 5) :
    linkTrains g.toNat w.toNat = true ↔ 1 ≤ g.toNat ∧ g.toNat ≤ 7 ∧ w.toNat ∈ [1, 2, 4, 8, 16] := by
  simp only [linkTrains, Bool.and_eq_true, decide_eq_true_eq, List.contains_iff_mem, and_assoc]

/-- Settles O39: each event is its action on the link's registers; a Function Level Reset is that of a compute reset of
cause 4 and of the function. -/
theorem linkEvents : Obligations.LinkEvents := by
  unfold Obligations.LinkEvents
  refine ⟨fun s hup => ⟨?loss, ?perst, ?flr⟩, fun s => rfl, fun s g w hdown hpin hst => ?up⟩
  case loss =>
    exact ⟨_, congrArg Host.Outcome.next (if_pos hup), rfl, rfl, rfl, rfl, rfl, rfl, rfl, rfl, rfl, rfl, rfl⟩
  case perst =>
    exact ⟨_, congrArg Host.Outcome.next (if_pos (by simp [hup])), rfl, rfl, rfl, rfl⟩
  case flr =>
    obtain ⟨t, hexec, hframe, hbox⟩ := exec_functionLevelReset hup
    have hlink : t.hif.linkUp = true := by
      rw [hframe]
      exact Eq.trans (computeReset_link s 4) hup
    refine ⟨t, hexec, hlink, ?_, ?_, ?_, ?_, hbox, fun hearly => ?_, fun h6 hr => ?_⟩
    · rw [hframe]; rfl
    · rw [hframe]; rfl
    · rw [hframe]; rfl
    · rw [hframe]; rfl
    · rw [hframe, computeReset_early 4 hearly]
      exact ⟨rfl, rfl⟩
    · obtain ⟨hbegun, hcause, -⟩ := computeReset_begun 4 h6 hr
      rw [hframe]
      exact ⟨hbegun, hcause⟩
  case up =>
    have hexec : exec (.linkUp g w) s = .next (
        if s.hif.linkUp || !s.pins.perstN || s.boot.stage == 0 || !linkTrains g.toNat w.toNat then s
        else if s.hif.linkDownSeen then
          sendMsix { s with hif := { s.hif with linkUp := true, gen := g.toNat, width := w.toNat } } 0
        else { s with hif := { s.hif with linkUp := true, gen := g.toNat, width := w.toNat } }) := rfl
    rw [hexec]
    refine ⟨fun h1 h7 hw => ?_, fun hbad => ?_⟩
    · have htrains := (linkTrains_iff g w).mpr ⟨h1, h7, hw⟩
      rw [if_neg (by simp [hdown, hpin, hst, htrains])]
      split
      · obtain ⟨p, l, hmsix⟩ := sendMsix_eq
          { s with hif := { s.hif with linkUp := true, gen := g.toNat, width := w.toNat } } 0
        rw [hmsix]
        exact ⟨_, rfl, rfl, rfl⟩
      · exact ⟨_, rfl, rfl, rfl⟩
    · have htrains : linkTrains g.toNat w.toNat = false := by
        rw [Bool.eq_false_iff, Ne, linkTrains_iff]
        rintro ⟨h1, h7, hw⟩
        rcases hbad with rfl | hbad | hbad
        · exact absurd h1 (by decide)
        · omega
        · exact hbad hw
      rw [if_pos (by simp [htrains])]

end Sys2Proof.Machine
end

section
/-! PROOF. Clusters at rest (spec/18 R472 to R477): what the end of work leaves unchanged, the requests of TIL_CLU_CTRL one by
one, the end of a wake, and the obligation on them (O46). -/

namespace Sys2Proof.Machine

/-! ## The end of programs and solves -/

/-- From s to t programs and solves may have ended: tiles and tensor engines are as they were, a cluster with no program
has none, no sequencer waits for anything new, and no cluster became or ceased to be quiesced. -/
structure WorkEnded (s t : State) : Prop where
  tile : ∀ k, t.tile k = s.tile k
  te : ∀ p, t.te p = s.te p
  prog : ∀ p, (s.seq p).prog = none → (t.seq p).prog = none
  wait : ∀ p, (t.seq p).wait = (s.seq p).wait ∨ (t.seq p).wait = .none
  quiesced : ∀ n, (t.lclu n).quiesced = (s.lclu n).quiesced
  quiescing : ∀ n, (t.lclu n).quiescing = (s.lclu n).quiescing

namespace WorkEnded

theorem refl (s : State) : WorkEnded s s :=
  ⟨fun _ => rfl, fun _ => rfl, fun _ h => h, fun _ => .inl rfl, fun _ => rfl, fun _ => rfl⟩

theorem trans {s t u : State} (h1 : WorkEnded s t) (h2 : WorkEnded t u) : WorkEnded s u := by
  refine ⟨fun k => (h2.tile k).trans (h1.tile k), fun p => (h2.te p).trans (h1.te p), fun p h => h2.prog p (h1.prog p h),
    fun p => ?_, fun n => (h2.quiesced n).trans (h1.quiesced n), fun n => (h2.quiescing n).trans (h1.quiescing n)⟩
  rcases h2.wait p with h | h
  · rw [h]
    exact h1.wait p
  · exact .inr h

theorem of_core {s t : State} (h : t.core = s.core) : WorkEnded s t := by
  refine ⟨fun k => ?_, fun p => ?_, fun p hp => ?_, fun p => .inl ?_, fun n => ?_, fun n => ?_⟩
  · rw [State.tile, h]; rfl
  · rw [State.te, State.clu, h]; rfl
  · rw [State.seq, State.clu, h]; exact hp
  · rw [State.seq, State.clu, h]; rfl
  · rw [State.lclu, h]; rfl
  · rw [State.lclu, h]; rfl

theorem memInFlight_false {s t : State} (h : WorkEnded s t) {p : Nat} (hp : memInFlight s p = false) :
    memInFlight t p = false := by
  rcases h.wait p with hw | hw
  · rw [memInFlight, hw]
    exact hp
  · rw [memInFlight, hw]

end WorkEnded

theorem setLclu_work {s : State} {n : Nat} {x : LClus} (hq : x.quiesced = (s.lclu n).quiesced)
    (hg : x.quiescing = (s.lclu n).quiescing) : WorkEnded s (s.setLclu n x) := by
  refine ⟨fun _ => rfl, fun _ => rfl, fun _ h => h, fun _ => .inl rfl, fun k => ?_, fun k => ?_⟩
  · rw [State.lclu_setLclu]
    split
    · next hk => exact hk ▸ hq
    · rfl
  · rw [State.lclu_setLclu]
    split
    · next hk => exact hk ▸ hg
    · rfl

theorem setSeq_work {s : State} {p : Nat} {q : Seq} (hp : (s.seq p).prog = none → q.prog = none)
    (hw : q.wait = (s.seq p).wait ∨ q.wait = .none) : WorkEnded s (s.setSeq p q) := by
  have hseq (k : Nat) : (s.setSeq p q).seq k = if p = k then q else s.seq k := by
    simp only [State.seq, State.setSeq, State.clu_setClu]
    split <;> rfl
  refine ⟨fun _ => rfl, fun k => ?_, fun k hk => ?_, fun k => ?_, fun _ => rfl, fun _ => rfl⟩
  · simp only [State.te, State.setSeq, State.clu_setClu]
    split
    · next h => rw [h]
    · rfl
  · rw [hseq]
    split
    · next h => exact hp (h ▸ hk)
    · exact hk
  · rw [hseq]
    split
    · next h => exact h ▸ hw
    · exact .inl rfl

theorem dropProgram_work (s : State) (p : Nat) : WorkEnded s (dropProgram s p) := by
  unfold dropProgram
  extract_lets q s1
  have hs1 : WorkEnded s s1 := by
    subst s1
    split
    · exact setLclu_work rfl rfl
    · exact .refl s
  exact (hs1.trans (.of_core (t := reqDrop s1 (waitTags q.wait)) rfl)).trans (setSeq_work (fun _ => rfl) (.inr rfl))

theorem endProgram_work (s : State) (p status detail : Nat) : WorkEnded s (endProgram s p status detail) := by
  unfold endProgram
  split
  · exact .refl s
  · exact (dropProgram_work s p).trans (.of_core (opFail_ended _ _ _ _).core)

theorem endQuiesced_work (s : State) (p : Nat) : WorkEnded s (endQuiesced s p) :=
  (endProgram_work s p stReset 0).trans (setSeq_work id (.inl rfl))

theorem dropProgram_prog (s : State) (p : Nat) : ((dropProgram s p).seq p).prog = none :=
  congrArg Seq.prog (State.seq_setSeq_same _ _ _)

theorem endProgram_prog (s : State) (p status detail : Nat) : ((endProgram s p status detail).seq p).prog = none := by
  unfold endProgram
  split
  · next h => exact h
  · rw [State.seq, State.clu, (opFail_ended _ _ _ _).core]
    exact dropProgram_prog s p

theorem endQuiesced_prog (s : State) (p : Nat) : ((endQuiesced s p).seq p).prog = none :=
  (congrArg Seq.prog (State.seq_setSeq_same _ _ _)).trans (endProgram_prog s p stReset 0)

theorem opDone_core (s : State) (slot : Nat) : (opDone s slot).core = s.core := by
  unfold opDone
  split
  · rfl
  · refine (opFinal_ended _ _ _ _ _).core.trans ?_
    unfold opStart
    split
    · rfl
    · split
      · exact (setReceipt_reports _ _ _).core
      · rfl

theorem dropResidual_work (s : State) (r : SolveRun) : WorkEnded s (dropResidual s r) := by
  unfold dropResidual
  split
  · exact .refl s
  · extract_lets n x s1 p s2
    have hs1 : WorkEnded s s1 := setLclu_work rfl rfl
    have hs2 : WorkEnded s1 s2 := by
      subst s2
      split
      · split
        · exact dropProgram_work _ _
        · exact .refl _
      · exact .refl _
    exact (hs1.trans hs2).trans (.of_core rfl)

theorem endSolve_work (s : State) (g : Nat) (e : SolveEnd) : WorkEnded s (endSolve s g e) := by
  unfold endSolve
  split
  · exact .refl s
  next r _ =>
    extract_lets e' q s1
    have hs1 : WorkEnded s s1 := by
      have hunits : WorkEnded (dropResidual s r) s1 :=
        ⟨fun _ => rfl, fun _ => rfl, fun _ h => h, fun _ => .inl rfl, fun _ => rfl, fun _ => rfl⟩
      exact (dropResidual_work s r).trans hunits
    clear_value s1 e'
    cases e'
    · exact hs1.trans (.of_core (opDone_core _ _))
    · exact hs1.trans (.of_core (opFail_ended _ _ _ _).core)
    · exact hs1.trans (.of_core (opFailAs_ended _ _ _ _ _).core)
    · exact hs1.trans (.of_core (opFailAs_ended _ _ _ _ _).core)

theorem endSolvesOf_work (s : State) (f : SolveRun → Bool) : WorkEnded s (endSolvesOf s f) := by
  refine List.foldlRecOn (motive := fun u : State => WorkEnded s u) _ _ (.refl s) fun u hu e _ => hu.trans ?_
  split
  · exact endSolve_work _ _ _
  · exact .refl _

theorem failAll_ended (l : List Nat) (s : State) (status detail : Nat) : OpsEnded s (failAll s l status detail) := by
  induction l generalizing s with
  | nil => exact .refl s
  | cons k t ih => exact (opFail_ended _ _ _ _).trans (ih _)

/-! ## A quiesce (R472) -/

/-- From s to t, at most the phase of a suspension differs, in a tensor engine with nothing running. -/
theorem quiesceTensor_idle {s : State} {p : Nat} (hr : (s.te p).run = none) (hs : (s.te p).susp = none) :
    ∃ ph, quiesceTensor s p = setSuspend s p ph 0 := by
  have hstop : stopTensor s p false = s := by simp only [stopTensor, hs, hr]
  unfold quiesceTensor
  rw [hstop, hs, hr]
  split
  · contradiction
  · split
    · exact ⟨3, rfl⟩
    · exact ⟨2, rfl⟩

theorem setSuspend_susp (s : State) (p ph n : Nat) : ((setSuspend s p ph n).te p).susp = (s.te p).susp := by
  simp [setSuspend, State.te, State.setTe]

theorem setSuspend_seq (s : State) (p ph n : Nat) : (setSuspend s p ph n).seq p = s.seq p := by
  simp [setSuspend, State.te, State.seq, State.setTe]

theorem memInFlight_congr {s t : State} {p : Nat} (h : t.seq p = s.seq p) : memInFlight t p = memInFlight s p := by
  rw [memInFlight, memInFlight, h]

/-- The end of a program leaves nothing in flight where nothing was. -/
theorem endQuiesced_memInFlight {s : State} {p : Nat} (h : memInFlight s p = false) :
    memInFlight (endQuiesced s p) p = false :=
  (endQuiesced_work s p).memInFlight_false h

/-- Nothing in flight and an idle tensor engine: the quiesce is complete at once. -/
theorem quiesceCluster_complete {s : State} {n : Nat} (hstop : isStopped s n = false)
    (hmem : memInFlight s (physOfN s n) = false) (hr : (s.te (physOfN s n)).run = none)
    (hs : (s.te (physOfN s n)).susp = none) :
    ((quiesceCluster s n).lclu n).quiesced = true ∧ ((quiesceCluster s n).lclu n).quiescing = false ∧
      ((quiesceCluster s n).seq (physOfN s n)).prog = none ∧ ∀ k, (quiesceCluster s n).tile k = s.tile k := by
  unfold quiesceCluster
  extract_lets p l s0 s1 s2
  have hs0 : memInFlight s0 p = false := hmem
  have hs1 : s1 = endQuiesced s0 p := if_neg (by simp [hs0])
  have hw1 : WorkEnded s0 s1 := hs1 ▸ endQuiesced_work s0 p
  have hte : s1.te p = s.te p := hw1.te p
  obtain ⟨ph, hq⟩ : ∃ ph, quiesceTensor s1 p = setSuspend s1 p ph 0 :=
    quiesceTensor_idle (by rw [hte]; exact hr) (by rw [hte]; exact hs)
  have hw2 : WorkEnded (setSuspend s1 p ph 0) s2 := hq ▸ endSolvesOf_work _ _
  have hprog1 : (s1.seq p).prog = none := hs1 ▸ endQuiesced_prog s0 p
  have hmem2 : memInFlight s2 p = false :=
    hw2.memInFlight_false ((memInFlight_congr (setSuspend_seq s1 p ph 0)).trans (hw1.memInFlight_false hs0))
  have hwait : quiesceWaits s2 p = false := by
    rw [quiesceWaits, hmem2, hw2.te, setSuspend_susp, hte, hs]
    rfl
  rw [if_neg (by simp [hstop]), hwait]
  refine ⟨?_, ?_, hw2.prog p ?_, fun k => (hw2.tile k).trans (hw1.tile k)⟩
  · exact congrArg LClus.quiesced (State.lclu_setLclu_same _ _ _)
  · exact congrArg LClus.quiescing (State.lclu_setLclu_same _ _ _)
  · rw [setSuspend_seq]
    exact hprog1

/-- An instruction in flight, and no solve: the quiesce waits, and the program goes on to its boundary. -/
theorem quiesceCluster_waits {s : State} {n : Nat} (hstop : isStopped s n = false)
    (hmem : memInFlight s (physOfN s n) = true) (hr : (s.te (physOfN s n)).run = none)
    (hs : (s.te (physOfN s n)).susp = none) (hsol : runningSolves s = []) :
    ((quiesceCluster s n).lclu n).quiescing = true ∧
      (quiesceCluster s n).seq (physOfN s n) = s.seq (physOfN s n) ∧ ∀ k, (quiesceCluster s n).tile k = s.tile k := by
  unfold quiesceCluster
  extract_lets p l s0 s1 s2
  have hs1 : s1 = s0 := if_pos hmem
  obtain ⟨ph, hq⟩ : ∃ ph, quiesceTensor s0 p = setSuspend s0 p ph 0 := quiesceTensor_idle hr hs
  have hsol0 : runningSolves (setSuspend s0 p ph 0) = [] := hsol
  have hs2 : s2 = setSuspend s0 p ph 0 := by
    subst s2
    rw [hs1, hq, endSolvesOf, hsol0]
    rfl
  have hseq : s2.seq p = s.seq p := hs2 ▸ setSuspend_seq s0 p ph 0
  have hwait : quiesceWaits s2 p = true := by
    rw [quiesceWaits, memInFlight_congr hseq, hmem]
    rfl
  rw [if_neg (by simp [hstop]), if_pos hwait]
  refine ⟨?_, hseq, fun k => ?_⟩
  · rw [hs2]
    exact congrArg LClus.quiescing (State.lclu_setLclu_same _ _ _)
  · rw [hs2]
    rfl

/-! ## A request of TIL_CLU_CTRL for one cluster (R477) -/

theorem cluNamed_one {t v : Nat} (h : v.testBit 16 = false) : cluNamed t v = [t * 256 + v % 256] := by
  rw [cluNamed, h]
  simp [field]

/-- A refused request leaves its reason. -/
theorem actCluCtrl_refused {s : State} {t v n op : Nat} (hres : (s.tile t).cluResult ≠ 1) (hpend : (s.tile t).wakePend = [])
    (hv : v.testBit 16 = false) (hn : n = t * 256 + v % 256) (hop : op = v / 2 ^ 24 % 16) (href : cluRefused s op n ≠ 0) :
    actCluCtrl s t v = s.setTile t { s.tile t with cluLast := v % 256, cluReason := cluRefused s op n, cluResult := 3 } := by
  have hop' : field v 24 4 = op := hop.symm
  unfold actCluCtrl
  rw [if_neg (by simpa using hres), cluNamed_one hv, ← hn, hop']
  simp [href, hpend, field]

/-- The tile's registers after an allowed request has been carried out. -/
def cluAnswered (s : State) (t last : Nat) : State :=
  s.setTile t { s.tile t with
    cluLast := last, cluReason := 0, cluResult := if (s.tile t).wakePend.isEmpty then 2 else 1 }

/-- An allowed request is carried out and answered. -/
theorem actCluCtrl_allowed {s : State} {t v n op : Nat} (hres : (s.tile t).cluResult ≠ 1)
    (hv : v.testBit 16 = false) (hn : n = t * 256 + v % 256) (hop : op = v / 2 ^ 24 % 16) (href : cluRefused s op n = 0) :
    actCluCtrl s t v = cluAnswered (cluApply s op n) t (v % 256) := by
  have hop' : field v 24 4 = op := hop.symm
  unfold actCluCtrl cluAnswered
  rw [if_neg (by simpa using hres), cluNamed_one hv, ← hn, hop']
  simp only [List.map_cons, List.map_nil, List.find?, href, bne_self_eq_false, List.filter, beq_self_eq_true,
    List.foldl_cons, List.foldl_nil, Option.getD_none, if_true]
  have hlast : field v 0 8 = v % 256 := by simp [field]
  rw [hlast]
  cases ((cluApply s op n).tile t).wakePend
  · rfl
  · rfl

theorem exec_cluRows {e : Tile → Master → W32 → Instr} (he : e ∈ cluRows) (s : State) (t : Tile) (m : Master) (v : W32) :
    exec (e t m v) s = .next (cluCtrl s t m v) := by
  simp only [cluRows, List.mem_cons, List.not_mem_nil, or_false] at he
  rcases he with rfl | rfl | rfl | rfl | rfl
  all_goals rfl

@[simp] theorem cluAnswered_cluLast (s : State) (t l : Nat) : ((cluAnswered s t l).tile t).cluLast = l := by
  simp [cluAnswered]
@[simp] theorem cluAnswered_cluReason (s : State) (t l : Nat) : ((cluAnswered s t l).tile t).cluReason = 0 := by
  simp [cluAnswered]
@[simp] theorem cluAnswered_cluResult (s : State) (t l : Nat) :
    ((cluAnswered s t l).tile t).cluResult = if (s.tile t).wakePend.isEmpty then 2 else 1 := by
  simp [cluAnswered]
@[simp] theorem cluAnswered_wakePend (s : State) (t l : Nat) :
    ((cluAnswered s t l).tile t).wakePend = (s.tile t).wakePend := by
  simp [cluAnswered]
@[simp] theorem cluAnswered_lclu (s : State) (t l n : Nat) : (cluAnswered s t l).lclu n = s.lclu n := rfl
@[simp] theorem cluAnswered_clu (s : State) (t l p : Nat) : (cluAnswered s t l).clu p = s.clu p := rfl
@[simp] theorem cluAnswered_store (s : State) (t l : Nat) : (cluAnswered s t l).store = s.store := rfl
@[simp] theorem cluAnswered_seq (s : State) (t l p : Nat) : (cluAnswered s t l).seq p = s.seq p := rfl
@[simp] theorem cluAnswered_te (s : State) (t l p : Nat) : (cluAnswered s t l).te p = s.te p := rfl

theorem cluPend_wakePend (s : State) (n : Nat) :
    ((cluPend s n).tile (tileOfN n)).wakePend = (s.tile (tileOfN n)).wakePend ++ [n] := by
  simp [cluPend]

theorem isQuiesced_of_reset_allowed {s : State} {n : Nat} (h : cluRefused s 3 n = 0) : isQuiesced s n = true := by
  unfold cluRefused at h
  cases hq : isQuiesced s n
  · rw [hq] at h
    revert h
    repeat' split
    all_goals simp_all
    all_goals split
    all_goals decide
  · rfl

theorem resetCluster_spec (s : State) (n : Nat) :
    (resetCluster s n).store = s.store ∧ (resetCluster s n).seq (physOfN s n) = {} ∧
      ((resetCluster s n).te (physOfN s n)).queue = [] ∧ ((resetCluster s n).lclu n).progs = [] ∧
      ((resetCluster s n).lclu n).quiesced = (s.lclu n).quiesced ∧
      ((resetCluster s n).clu (physOfN s n)).chk = (s.clu (physOfN s n)).chk := by
  unfold resetCluster
  extract_lets p c l te win s1
  have h := failAll_ended (itemSlots c.te.queue ++ l.progs) (s1.setLclu n { l with progs := [] }) stReset 0
  have hclu : (failAll (s1.setLclu n { l with progs := [] }) (itemSlots c.te.queue ++ l.progs) stReset 0).clu p =
      s1.clu p := by
    rw [State.clu, h.core]; rfl
  have hlclu : (failAll (s1.setLclu n { l with progs := [] }) (itemSlots c.te.queue ++ l.progs) stReset 0).lclu n =
      { l with progs := [] } := by
    rw [State.lclu, h.core]; exact State.lclu_setLclu_same _ _ _
  have hs1 := State.clu_setClu_same (s := s) (k := p) { c with
    seq := {}, te := { c.te with queue := [], key := 0, rateLog2 := 0 },
    win := { c.win with w := 0, base := -2148, pending := none } }
  refine ⟨h.store, ?_, ?_, ?_, ?_, ?_⟩
  · rw [State.seq, hclu, hs1]
  · rw [State.te, hclu, hs1]
  · rw [hlclu]
  · rw [hlclu]
  · rw [hclu, hs1]

theorem releaseCluster_store (s : State) (n : Nat) : (releaseCluster s n).store = s.store := by
  unfold releaseCluster
  split
  · rfl
  · rfl

theorem releaseCluster_tile (s : State) (n k : Nat) : (releaseCluster s n).tile k = s.tile k := by
  unfold releaseCluster
  split
  · rfl
  · rfl

theorem releaseCluster_quiesced (s : State) (n : Nat) : ((releaseCluster s n).lclu n).quiesced = false := by
  unfold releaseCluster
  split
  · exact congrArg LClus.quiesced (State.lclu_setLclu_same _ _ _)
  · next h => simpa [isQuiesced] using h

/-! ## The end of a wake (R475) -/

/-- From s to t memory has changed at most, and a tile's count of stale stores. -/
theorem cluPendEnd_only (s : State) (n : Nat) : ∃ x, cluPendEnd s n = s ∨ cluPendEnd s n = s.setTile (tileOfN n) x := by
  unfold cluPendEnd
  extract_lets t x pend
  split
  · exact ⟨_, .inr rfl⟩
  · exact ⟨{}, .inl rfl⟩

theorem cluPendEnd_lclu (s : State) (n k : Nat) : (cluPendEnd s n).lclu k = s.lclu k := by
  obtain ⟨x, h | h⟩ := cluPendEnd_only s n
  all_goals rw [h]
  rfl

theorem cluPendEnd_store (s : State) (n : Nat) : (cluPendEnd s n).store = s.store := by
  obtain ⟨x, h | h⟩ := cluPendEnd_only s n
  all_goals rw [h]
  rfl

theorem clearedRange_memClear {s t : State} (h : t.store = s.store) (a b : Nat) : ClearedRange s (memClear t a b) a b := by
  intro k
  rw [memByte_memClear, memByte, memByte, h]

theorem wakeStore_kept {s : State} {n : Nat} (h : (s.lclu n).retained = some s.image.epoch) : wakeStore s n = s := by
  simp [wakeStore, h]

theorem wakeStore_cleared {s : State} {n : Nat} (h : (s.lclu n).retained ≠ some s.image.epoch) :
    ClearedRange s (wakeStore s n) (storeKey (physOfN s n) 0) (storeKey (physOfN s n) 0x400000) := by
  unfold wakeStore
  split
  · next e he =>
    rw [if_neg (by simpa using fun h' : e = s.image.epoch => h (h' ▸ he))]
    exact clearedRange_memClear rfl _ _
  · exact clearedRange_memClear rfl _ _

/-- Settles O46: the request of TIL_CLU_CTRL is split by its refusal and its OP; the end of a wake and the idle time-out are
direct. -/
theorem clusterPower : Obligations.ClusterPower := by
  unfold Obligations.ClusterPower
  refine ⟨?_, ?_, ?_⟩
  · intro e he s t m v n p op hg hres hpend hv hn hp hop
    have hexec : exec (e t m v) s = .next (actCluCtrl s t v.toNat) :=
      (exec_cluRows he s t m v).trans (congrArg Host.Outcome.next (gated_ok hg _))
    have ht : tileOfN n = t.val := by
      rw [tileOfN, hn]
      omega
    refine ⟨fun href => ?_, fun href => ?_⟩
    · exact hexec.trans (congrArg Host.Outcome.next (actCluCtrl_refused hres hpend hv hn hop href))
    refine ⟨_, hexec.trans (congrArg Host.Outcome.next (actCluCtrl_allowed hres hv hn hop href)),
      cluAnswered_cluLast _ _ _, cluAnswered_cluReason _ _ _, ?_, ?_, ?_, ?_, ?_⟩
    · intro h1 hq hqg hr hs
      have hstop : isStopped s n = false := by simp [isStopped, hq, hqg]
      rw [h1]
      refine ⟨fun hmem => ?_, fun hmem hsol => ?_⟩
      · obtain ⟨hqd, hqn, hprog, htile⟩ :=
          quiesceCluster_complete hstop (hp ▸ hmem) (hp ▸ hr) (hp ▸ hs)
        have happ : cluApply s 1 n = quiesceCluster s n := if_neg (by simp [hqn])
        rw [happ]
        refine ⟨hqd, by rw [hp]; exact hprog, ?_⟩
        rw [cluAnswered_cluResult, htile, hpend]
        rfl
      · obtain ⟨hqn, hseq, htile⟩ :=
          quiesceCluster_waits hstop (hp ▸ hmem) (hp ▸ hr) (hp ▸ hs) hsol
        have happ : cluApply s 1 n = cluPend (quiesceCluster s n) n := if_pos hqn
        have hwake : ((cluPend (quiesceCluster s n) n).tile t.val).wakePend = [n] := by
          rw [← ht, cluPend_wakePend, htile, ht, hpend]
          rfl
        rw [happ]
        refine ⟨hqn, by rw [hp]; exact hseq, (cluAnswered_wakePend _ _ _).trans hwake, ?_⟩
        rw [cluAnswered_cluResult, hwake]
        rfl
    · intro h2
      rw [h2]
      refine ⟨?_, ?_, ?_⟩
      · exact releaseCluster_store s n
      · exact releaseCluster_quiesced s n
      · rw [cluAnswered_cluResult, show (cluApply s 2 n).tile t.val = s.tile t.val from releaseCluster_tile s n _, hpend]
        rfl
    · intro h3
      rw [h3] at href ⊢
      obtain ⟨hst, hseq, hqueue, hprogs, hquiet, hchk⟩ := resetCluster_spec s n
      exact ⟨hst, hp ▸ hseq, hp ▸ hqueue, hprogs, hquiet.trans (isQuiesced_of_reset_allowed href), hp ▸ hchk⟩
    · intro h4
      rw [h4]
      have hl : (sleepCluster s n).lclu n = _ := State.lclu_setLclu_same _ _ _
      exact ⟨rfl, congrArg LClus.asleep hl, congrArg LClus.retained hl⟩
    · intro h5
      rw [h5]
      refine ⟨?_, fun hsl => ?_⟩
      · simp only [cluAnswered_store, cluApply]
        split
        · rfl
        · rfl
      · have happ : cluApply s 5 n = cluPend (s.setLclu n { s.lclu n with waking := true }) n := if_pos hsl
        have hwake : ((cluApply s 5 n).tile t.val).wakePend = [n] := by
          rw [happ, ← ht, cluPend_wakePend, State.tile_setLclu, ht, hpend]
          rfl
        refine ⟨?_, (cluAnswered_wakePend _ _ _).trans hwake, ?_⟩
        · rw [happ]
          exact congrArg LClus.waking (State.lclu_setLclu_same _ _ _)
        · rw [cluAnswered_cluResult, hwake]
          rfl
  · intro s n hw
    refine ⟨_, congrArg Host.Outcome.next (if_neg (by simp [hw])), ?_, ?_, fun hk => ?_, fun hk => ?_⟩
    · rw [cluPendEnd_lclu, State.lclu_setLclu_same]
    · rw [cluPendEnd_lclu, State.lclu_setLclu_same]
    · rw [cluPendEnd_store, wakeStore_kept hk]
      rfl
    · intro k
      refine Eq.trans ?_ (wakeStore_cleared hk k)
      rw [memByte, memByte, cluPendEnd_store]
      rfl
  · intro s n hpol hidle hdue
    exact congrArg Host.Outcome.next (if_pos (by simp [hpol, hidle, hdue]))

end Sys2Proof.Machine
end

section
/-! PROOF. What a change of a port leaves unchanged (spec/14 R355, R373, R378): the frame of the fabric's own work, and the
ports that go down, train or are judged. -/

namespace Sys2Proof.Machine

/-- From s to t the fabric did work of its own: packets and replies, counts, records of failure, the choice of the time
source, and the stage S6 that a required port lets S7 end in. Memory and the tiles are as they were. -/
structure FabricFrame (s t : State) : Prop where
  frame : t = { s with
    ports := t.ports, sent := t.sent, net := t.net, fab := t.fab, time := t.time, chk := t.chk, flash := t.flash,
    boot := t.boot, ring := t.ring }
  time : t.time = { s.time with
    isMaster := t.time.isMaster, sourcePort := t.time.sourcePort, good := t.time.good, bad := t.time.bad, t1 := t.time.t1 }
  flash : t.flash = { s.flash with cperId := t.flash.cperId }
  fab : t.fab = { s.fab with
    lateReplies := t.fab.lateReplies, routeDrops := t.fab.routeDrops, rebuildDue := t.fab.rebuildDue }
  boot : t.boot = { s.boot with
    stage := t.boot.stage, stagePm := t.boot.stagePm, stageCyc := t.boot.stageCyc, durS3 := t.boot.durS3,
    durS4 := t.boot.durS4, forceFull := t.boot.forceFull }
  stage : t.boot.stage = s.boot.stage ∨ s.boot.stage = 7 ∧ t.boot.stage = 6
  sent : s.sent ⊆ t.sent

namespace FabricFrame

theorem refl (s : State) : FabricFrame s s := ⟨rfl, rfl, rfl, rfl, rfl, .inl rfl, fun _ h => h⟩

theorem trans {s t u : State} (h1 : FabricFrame s t) (h2 : FabricFrame t u) : FabricFrame s u := by
  refine ⟨by rw [h2.frame, h1.frame], by rw [h2.time, h1.time], by rw [h2.flash, h1.flash], by rw [h2.fab, h1.fab],
    by rw [h2.boot, h1.boot], ?_, fun _ h => h2.sent (h1.sent h)⟩
  rcases h1.stage, h2.stage with ⟨h | ⟨h, h'⟩, k | ⟨k, k'⟩⟩
  · exact .inl (k.trans h)
  · exact .inr ⟨h ▸ k, k'⟩
  · exact .inr ⟨h, k ▸ h'⟩
  · omega

theorem of_ports {s t : State} (h : t = { s with ports := t.ports, sent := t.sent }) (hs : s.sent ⊆ t.sent) :
    FabricFrame s t := by
  refine ⟨?_, ?_, ?_, ?_, ?_, ?_, hs⟩
  · rw [h]
  · rw [h]
  · rw [h]
  · rw [h]
  · rw [h]
  · rw [h]; exact .inl rfl

theorem foldl {α : Type} {f : State → α → State} (hf : ∀ u a, FabricFrame u (f u a)) (l : List α) (s : State) :
    FabricFrame s (l.foldl f s) :=
  List.foldlRecOn (motive := fun u : State => FabricFrame s u) l f (refl s) fun _ hu a _ => hu.trans (hf _ a)

variable {s t : State}

theorem store (h : FabricFrame s t) : t.store = s.store := by rw [h.frame]
theorem core (h : FabricFrame s t) : t.core = s.core := by rw [h.frame]
theorem ledger (h : FabricFrame s t) : t.ledger = s.ledger := by rw [h.frame]
theorem pins (h : FabricFrame s t) : t.pins = s.pins := by rw [h.frame]
theorem stk (h : FabricFrame s t) (k : Nat) : t.stk k = s.stk k := by rw [State.stk, State.stk, h.store]
theorem stage_of_ne (h : FabricFrame s t) (h7 : s.boot.stage ≠ 7) : t.boot.stage = s.boot.stage := by
  rcases h.stage with h | ⟨h, _⟩
  · exact h
  · exact absurd h h7

end FabricFrame

/-- The fabric's own work while no port's own state changes: what waits on the ports may. -/
structure FabricWork (s t : State) : Prop extends FabricFrame s t where
  port : ∀ k, PortKept (s.port k) (t.port k)

namespace FabricWork

theorem refl (s : State) : FabricWork s s := ⟨.refl s, fun _ => .refl _⟩

theorem trans {s t u : State} (h1 : FabricWork s t) (h2 : FabricWork t u) : FabricWork s u :=
  ⟨h1.toFabricFrame.trans h2.toFabricFrame, fun k => (h1.port k).trans (h2.port k)⟩

theorem of_ports {s t : State} (h : PortsOnly s t) : FabricWork s t := ⟨.of_ports h.frame h.sent, h.port⟩

theorem foldl {α : Type} {f : State → α → State} (hf : ∀ u a, FabricWork u (f u a)) (l : List α) (s : State) :
    FabricWork s (l.foldl f s) :=
  List.foldlRecOn (motive := fun u : State => FabricWork s u) l f (refl s) fun _ hu a _ => hu.trans (hf _ a)

end FabricWork

theorem PortKept.state {x y : Port} (h : PortKept x y) : y.state = x.state := by rw [h]
theorem PortKept.cause {x y : Port} (h : PortKept x y) : y.cause = x.cause := by rw [h]
theorem PortKept.width {x y : Port} (h : PortKept x y) : y.width = x.width := by rw [h]
theorem PortKept.hold {x y : Port} (h : PortKept x y) : y.hold = x.hold := by rw [h]

/-! ## Packets of the fabric's own -/

theorem takeFlood_work (s : State) : FabricWork s (takeFlood s).2 :=
  ⟨⟨rfl, rfl, rfl, rfl, rfl, .inl rfl, fun _ h => h⟩, fun _ => .refl _⟩

theorem seenFlood_work (s : State) (kind origin seq : Nat) : FabricWork s (seenFlood s kind origin seq).2 := by
  unfold seenFlood
  split
  · exact .refl s
  · exact ⟨⟨rfl, rfl, rfl, rfl, rfl, .inl rfl, fun _ h => h⟩, fun _ => .refl _⟩

theorem floodOn_ports (s : State) (ok : Nat → Bool) (but : Option Nat) (f : Nat → Sent) : PortsOnly s (floodOn s ok but f) :=
  maintSendAll_ports _ _

theorem floodLinks_work (s : State) : FabricWork s (floodLinks s) := by
  unfold floodLinks
  split
  · exact .refl s
  · exact ((takeFlood_work s).trans (seenFlood_work _ _ _ _)).trans (.of_ports (floodOn_ports _ _ _ _))

theorem floodRoster_work (s : State) : FabricWork s (floodRoster s) :=
  ((takeFlood_work s).trans (seenFlood_work _ _ _ _)).trans (.of_ports (floodOn_ports _ _ _ _))

theorem timeSelect_work (s : State) : FabricWork s (timeSelect s) := by
  unfold timeSelect
  split
  · exact .refl s
  · exact ⟨⟨rfl, rfl, rfl, rfl, rfl, .inl rfl, fun _ h => h⟩, fun _ => .refl _⟩

theorem retestMask_work (s : State) : FabricWork s (retestMask s) := by
  unfold retestMask
  split
  · next h =>
    have he := setStage_entered s 6
    have h7 : s.boot.stage = 7 := by simpa using (Bool.and_eq_true_iff.mp h).1
    refine ⟨⟨?_, ?_, ?_, ?_, he.boot, .inr ⟨h7, he.stage⟩, he.sent⟩, he.port⟩
    · rw [he.frame]
    · rw [he.time]
    · rw [he.flash]
    · rw [he.frame]
  · exact .refl s

theorem portChanged_work (s : State) : FabricWork s (portChanged s) :=
  have hdue : FabricWork s { s with fab := { s.fab with rebuildDue := true } } :=
    ⟨⟨rfl, rfl, rfl, rfl, rfl, .inl rfl, fun _ h => h⟩, fun _ => .refl _⟩
  ((hdue.trans (floodLinks_work _)).trans (timeSelect_work _)).trans (retestMask_work _)

theorem portSend_ports (s : State) (n : Nat) (p : Packet) (src : Option (Nat × Nat × Nat)) : PortsOnly s (portSend s n p src) :=
  linkSend_ports _ _ _

theorem nackSource_work (s : State) (p : Packet) (status : Nat) : FabricWork s (nackSource s p status) := by
  unfold nackSource
  split
  · split
    · exact ⟨⟨rfl, rfl, rfl, rfl, rfl, .inl rfl, fun _ h => h⟩, fun _ => .refl _⟩
    · exact ⟨⟨rfl, rfl, rfl, rfl, rfl, .inl rfl, fun _ h => h⟩, fun _ => .refl _⟩
  · extract_lets h
    split
    · exact .of_ports (portSend_ports _ _ _ _)
    · exact ⟨⟨rfl, rfl, rfl, rfl, rfl, .inl rfl, fun _ h => h⟩, fun _ => .refl _⟩

theorem cperStore_work (s : State) (c : Cper) : FabricWork s (cperStore s c) := by
  unfold cperStore
  extract_lets id s1
  split
  · exact ⟨⟨rfl, rfl, rfl, rfl, rfl, .inl rfl, fun _ h => h⟩, fun _ => .refl _⟩
  · exact ⟨⟨rfl, rfl, rfl, rfl, rfl, .inl rfl, fun _ h => h⟩, fun _ => .refl _⟩

theorem cperAdd_work (s : State) (event key : Nat) (c : Cper) : FabricWork s (cperAdd s event key c) := by
  unfold cperAdd
  extract_lets c' k sec f
  split
  · exact cperStore_work _ _
  · split
    · exact ⟨⟨rfl, rfl, rfl, rfl, rfl, .inl rfl, fun _ h => h⟩, fun _ => .refl _⟩
    · refine FabricWork.trans ?_ (cperStore_work _ _)
      exact ⟨⟨rfl, rfl, rfl, rfl, rfl, .inl rfl, fun _ h => h⟩, fun _ => .refl _⟩

theorem freeSources_ports (s : State) (l : List LinkItem) : PortsOnly s (freeSources s l) := by
  refine .foldl (fun u q => ?_) l s
  split
  · exact linkOwe_ports _ _ _ _
  · exact .refl _

/-! ## A port's own state -/

theorem setPort_frame (s : State) (n : Nat) (x : Port) : FabricFrame s (s.setPort n x) := .of_ports rfl fun _ h => h

/-- The port as its going down leaves it. -/
def downPort (x : Port) (cause : Nat) : Port :=
  { linkReset x with state := 0, cause := cause, width := 0, laneGroup := 0, savedUsed := false }

theorem portDown_work (s : State) (n cause : Nat) :
    FabricWork (s.setPort n (downPort (s.port n) cause)) (portDown s n cause) := by
  unfold portDown
  extract_lets x held x0 s1 s2
  have hs1 : FabricWork (s.setPort n (downPort x cause)) s1 := .of_ports (freeSources_ports _ _)
  have hs2 : FabricWork s1 s2 := .foldl (fun _ _ => nackSource_work _ _ _) held s1
  split
  · exact hs1.trans hs2
  · exact (hs1.trans hs2).trans ((cperAdd_work _ _ _ _).trans (portChanged_work _))

theorem portDown_frame (s : State) (n cause : Nat) : FabricFrame s (portDown s n cause) :=
  (setPort_frame _ _ _).trans (portDown_work s n cause).toFabricFrame

theorem portDown_same (s : State) (n cause : Nat) : PortKept (downPort (s.port n) cause) ((portDown s n cause).port n) := by
  simpa using (portDown_work s n cause).port n

theorem portDown_ne {n k : Nat} (h : n ≠ k) (s : State) (cause : Nat) :
    PortKept (s.port k) ((portDown s n cause).port k) := by
  simpa [State.port_setPort_ne _ _ _ _ h] using (portDown_work s n cause).port k

/-- The port as the start of its training leaves it. -/
def trainingPort (x : Port) : Port := { x with state := 1, cause := 0, width := 0, laneGroup := 0, savedUsed := false }

theorem portTrain_frame (s : State) (n : Nat) : FabricFrame s (portTrain s n) := by
  unfold portTrain
  extract_lets s1
  have hs1 : FabricFrame s s1 := by
    subst s1
    split
    · exact .refl s
    · exact portDown_frame _ _ _
  exact (hs1.trans (setPort_frame _ _ _)).trans (portChanged_work _).toFabricFrame

theorem portTrain_same (s : State) (n : Nat) : ((portTrain s n).port n).state = 1 ∧ ((portTrain s n).port n).width = 0 ∧
    ((portTrain s n).port n).hold = (s.port n).hold := by
  unfold portTrain
  extract_lets s1
  have hold1 : (s1.port n).hold = (s.port n).hold := by
    subst s1
    split
    · rfl
    · exact (portDown_same s n 0).hold.trans rfl
  have hkept := (portChanged_work (s1.setPort n (trainingPort (s1.port n)))).port n
  rw [State.port_setPort_same] at hkept
  exact ⟨hkept.state, hkept.width, hkept.hold.trans hold1⟩

theorem portTrain_ne {n k : Nat} (h : n ≠ k) (s : State) : PortKept (s.port k) ((portTrain s n).port k) := by
  unfold portTrain
  extract_lets s1
  have hs1 : PortKept (s.port k) (s1.port k) := by
    subst s1
    split
    · exact .refl _
    · exact portDown_ne h s 0
  have hkept := (portChanged_work (s1.setPort n (trainingPort (s1.port n)))).port k
  rw [State.port_setPort_ne _ _ _ _ h] at hkept
  exact hs1.trans hkept

/-- Ports trained one after another: each stands in state 1, whatever the later ones do. -/
theorem foldl_portTrain_state {l : List Nat} (hl : l.Nodup) {n : Nat} (hn : n ∈ l) (s : State) :
    ((l.foldl portTrain s).port n).state = 1 := by
  have hkeep (l : List Nat) (hn : n ∉ l) (u : State) : ((l.foldl portTrain u).port n).state = (u.port n).state := by
    induction l generalizing u with
    | nil => rfl
    | cons k t ih =>
      rw [List.mem_cons, not_or] at hn
      exact (ih hn.2 _).trans (portTrain_ne (Ne.symm hn.1) u).state
  induction l generalizing s with
  | nil => exact absurd hn List.not_mem_nil
  | cons k t ih =>
    rw [List.nodup_cons] at hl
    rcases List.mem_cons.mp hn with rfl | hn
    · exact (hkeep t hl.1 _).trans (portTrain_same s n).1
    · exact ih hl.2 hn _

end Sys2Proof.Machine
end

section
/-! PROOF. The stages S1 to S4 and Sorter's restarts (spec/18 R453, R455; spec/20 R506, R511), and the obligation on them
(O49). -/

namespace Sys2Proof.Machine

/-! ## Stages S1 and S2 -/

theorem holdStage_error (s : State) (e : Nat) : (holdStage s e).boot.error = e := rfl

/-- A Postmaster stage that starts is recorded at stage S2. -/
theorem runPostmaster_spec (s : State) (stage : List Byte) :
    (runPostmaster s stage).store = s.store ∧ (runPostmaster s stage).flash = s.flash ∧
      (runPostmaster s stage).boot.stage = 2 ∧ (runPostmaster s stage).boot.runStage = stage ∧
      (runPostmaster s stage).boot.postVer = Config.stageVersion (objBody stage) := by
  unfold runPostmaster
  extract_lets b s1
  have h := setStage_entered (startSorter s1) 2
  exact ⟨h.store, h.flash, h.stage, h.runStage, h.postVer⟩

theorem stageHeld_of {s : State} (h : s.boot.error = 0 ∨ s.boot.error = 4) : stageHeld s = false := by
  rcases h with h | h
  · simp [stageHeld, h]
  · simp [stageHeld, h]

/-- What S1 leaves: the stage that starts, or the hold. -/
def postmasterStage (s : State) (a b : List Byte) : State :=
  let s1 := recordVerify s 1 (verifyStage s a) (Config.stageVersion (objBody a))
  let rb := if b.isEmpty then 0 else verifyStage s b
  let s2 := if b.isEmpty then s1 else recordVerify s1 1 rb (Config.stageVersion (objBody b))
  if verifyStage s a == 1 && (rb != 1 || Config.stageVersion (objBody b) ≤ Config.stageVersion (objBody a)) then
    runPostmaster s2 a
  else if rb == 1 then runPostmaster s2 b
  else holdStage s2 1

theorem exec_postmasterStart {s : State} {a b : List Byte} (h1 : s.boot.stage = 1) (hheld : stageHeld s = false)
    (ha : a = slotBytes s false) (hb : b = slotBytes s true) :
    exec .postmasterStart s = .next (postmasterStage s a b) := by
  subst ha hb
  exact congrArg Host.Outcome.next (if_neg (by simp [h1, hheld]))

theorem postmasterStage_spec {s : State} (a b : List Byte) (h1 : s.boot.stage = 1) :
    (postmasterStage s a b).store = s.store ∧ (postmasterStage s a b).flash = s.flash ∧
      (if verifyStage s a = 1 ∧ (b = [] ∨ verifyStage s b ≠ 1 ∨
            Config.stageVersion (objBody b) ≤ Config.stageVersion (objBody a)) then
          (postmasterStage s a b).boot.stage = 2 ∧ (postmasterStage s a b).boot.runStage = a ∧
            (postmasterStage s a b).boot.postVer = Config.stageVersion (objBody a)
        else if b ≠ [] ∧ verifyStage s b = 1 then
          (postmasterStage s a b).boot.stage = 2 ∧ (postmasterStage s a b).boot.runStage = b ∧
            (postmasterStage s a b).boot.postVer = Config.stageVersion (objBody b)
        else (postmasterStage s a b).boot.stage = 1 ∧ (postmasterStage s a b).boot.error = 1) := by
  unfold postmasterStage
  extract_lets s1 rb s2
  have hs2 : s2 = { s with sec := s2.sec } := by
    subst s2
    split
    · rfl
    · rfl
  have hrb : rb = 1 ↔ b ≠ [] ∧ verifyStage s b = 1 := by
    subst rb
    cases b with
    | nil => simp
    | cons x t => simp
  have hfirst : (verifyStage s a == 1 && (rb != 1 || decide (Config.stageVersion (objBody b) ≤ Config.stageVersion (objBody a))))
      = true ↔ verifyStage s a = 1 ∧ (b = [] ∨ verifyStage s b ≠ 1 ∨
        Config.stageVersion (objBody b) ≤ Config.stageVersion (objBody a)) := by
    simp only [Bool.and_eq_true, beq_iff_eq, Bool.or_eq_true, bne_iff_ne, decide_eq_true_eq, ne_eq, hrb]
    rw [not_and_or, not_not, or_assoc]
  simp only [hfirst, beq_iff_eq, hrb]
  split
  · obtain ⟨hst, hfl, hrest⟩ := runPostmaster_spec s2 a
    exact ⟨hst.trans (by rw [hs2]), hfl.trans (by rw [hs2]), hrest⟩
  · split
    · obtain ⟨hst, hfl, hrest⟩ := runPostmaster_spec s2 b
      exact ⟨hst.trans (by rw [hs2]), hfl.trans (by rw [hs2]), hrest⟩
    · refine ⟨?_, ?_, ?_, rfl⟩
      · rw [hs2]; rfl
      · rw [hs2]; rfl
      · rw [hs2]; exact h1

/-- From s to t at most the tiles' own state differs. -/
def CoreOnly (s t : State) : Prop := t = { s with core := t.core }

namespace CoreOnly

theorem trans {s t u : State} (h1 : CoreOnly s t) (h2 : CoreOnly t u) : CoreOnly s u := by
  rw [CoreOnly, h2, h1]

theorem foldl {α : Type} {f : State → α → State} (hf : ∀ u a, CoreOnly u (f u a)) (l : List α) (s : State) :
    CoreOnly s (l.foldl f s) :=
  List.foldlRecOn (motive := fun u : State => CoreOnly s u) l f rfl fun _ hu a _ => hu.trans (hf _ a)

theorem boot {s t : State} (h : CoreOnly s t) : t.boot = s.boot := by rw [h]
theorem store {s t : State} (h : CoreOnly s t) : t.store = s.store := by rw [h]

end CoreOnly

theorem buildPage_core (s : State) (t : Nat) : CoreOnly s (buildPage s t) := rfl

theorem buildFloorPlan_core (s : State) : CoreOnly s (buildFloorPlan s) := by
  unfold buildFloorPlan
  extract_lets holes c s1 s2 dead c2 s3
  have hs1 : CoreOnly s s1 := rfl
  have hs2 : CoreOnly s1 s2 := by
    refine .foldl (fun u t => ?_) _ _
    rfl
  have hs3 : CoreOnly s2 s3 := rfl
  exact ((hs1.trans hs2).trans hs3).trans (.foldl buildPage_core _ _)

theorem recallSuspects_core (s : State) : CoreOnly s (recallSuspects s) := by
  refine .foldl (fun u p => ?_) _ _
  split
  · rfl
  · rfl

theorem checkRemap_error (s : State) :
    (checkRemap s).boot.error = if Config.remapSound s.free then s.boot.error else 4 := by
  unfold checkRemap
  extract_lets t
  split
  · rfl
  · rfl

/-- S2 ends with the floor plan built over the remap tables as they were found. -/
theorem exec_floorPlanBuild {s : State} (h2 : s.boot.stage = 2) (hheld : stageHeld s = false)
    (hf : Config.fusesReadable = true) :
    ∃ t, exec .floorPlanBuild s = .next t ∧ t.boot.stage = 3 ∧
      t.boot.error = if Config.remapSound s.free then s.boot.error else 4 := by
  have hplan : CoreOnly (checkRemap s) (recallSuspects (buildFloorPlan (checkRemap s))) :=
    (buildFloorPlan_core _).trans (recallSuspects_core _)
  have hexec : exec .floorPlanBuild s = execFloorPlanBuild s := rfl
  rw [hexec, execFloorPlanBuild, if_neg (by simp [h2, hheld]), if_neg (by simp [hf])]
  generalize recallSuspects (buildFloorPlan (checkRemap s)) = s1 at hplan ⊢
  extract_lets s1' c s2
  have herr : s2.boot.error = s1.boot.error := by
    subst s2
    split
    · rw [(cperAdd_work _ _ _ _).boot]
    · rfl
  have h := setStage_entered s2 3
  exact ⟨_, rfl, h.stage, by rw [h.error, herr, hplan.boot, checkRemap_error]⟩

/-! ## Stage S3 -/

/-- What the training of one stack may change. -/
structure StackTrained (s t : State) : Prop where
  bytes : t.store.bytes = s.store.bytes
  stage : t.boot.stage = s.boot.stage

theorem trainStack_trained (s : State) (k : Nat) (r : StackTraining) : StackTrained s (trainStack s k r) := by
  unfold trainStack
  extract_lets saved x b
  split
  · exact ⟨rfl, rfl⟩
  · split
    · exact ⟨rfl, rfl⟩
    · exact ⟨rfl, rfl⟩

theorem trainStack_stk_ne {j k : Nat} (h : j ≠ k) (s : State) (r : StackTraining) : (trainStack s j r).stk k = s.stk k := by
  unfold trainStack
  extract_lets saved x b
  split
  · exact State.stk_setStk_ne _ _ _ _ h
  · split
    · exact State.stk_setStk_ne _ _ _ _ h
    · exact State.stk_setStk_ne _ _ _ _ h

theorem trainStack_failed {r : StackTraining} (h : r.ok = false) (s : State) (k : Nat) :
    ((trainStack s k r).stk k).present = false := by
  unfold trainStack
  extract_lets saved x b
  rw [if_pos (by simp [h])]
  exact congrArg StackS.present (State.stk_setStk_same _ _ _)

theorem foldl_trainStack_trained (r : Nat → StackTraining) (l : List Nat) (s : State) :
    StackTrained s (l.foldl (fun a k => trainStack a k (r k)) s) :=
  List.foldlRecOn (motive := fun u : State => StackTrained s u) l _ ⟨rfl, rfl⟩ fun u hu k _ =>
    have h := trainStack_trained u k (r k)
    ⟨h.bytes.trans hu.bytes, h.stage.trans hu.stage⟩

/-- Stacks trained one after another: a failed one stays absent. -/
theorem foldl_trainStack_failed {r : Nat → StackTraining} {l : List Nat} {k : Nat} (hk : k ∈ l) (hr : (r k).ok = false)
    (s : State) : ((l.foldl (fun a k => trainStack a k (r k)) s).stk k).present = false := by
  have hkeep (l : List Nat) (u : State) (hu : (u.stk k).present = false) :
      ((l.foldl (fun a k => trainStack a k (r k)) u).stk k).present = false := by
    refine List.foldlRecOn (motive := fun u : State => (u.stk k).present = false) l _ hu fun v hv j _ => ?_
    by_cases hj : j = k
    · exact hj ▸ trainStack_failed (hj ▸ hr) v j
    · rw [trainStack_stk_ne hj]
      exact hv
  induction l generalizing s with
  | nil => exact absurd hk List.not_mem_nil
  | cons j t ih =>
    rcases List.mem_cons.mp hk with rfl | hk
    · exact hkeep t _ (trainStack_failed hr s _)
    · exact ih hk _

theorem mapStacks_stk_present {f : StackS → StackS} (hf : ∀ x, (f x).present = x.present) (s : State) (k : Nat) :
    ((mapStacks s f).stk k).present = (s.stk k).present := by
  refine List.foldlRecOn (motive := fun u : State => (u.stk k).present = (s.stk k).present) _ _ rfl fun u hu j _ => ?_
  rw [State.stk_setStk]
  split
  · next h => rw [hf, h, hu]
  · exact hu

theorem mapStacks_frame (f : StackS → StackS) (s : State) :
    mapStacks s f = { s with store := { s.store with stks := (mapStacks s f).store.stks } } :=
  List.foldlRecOn (motive := fun u : State => u = { s with store := { s.store with stks := u.store.stks } }) _ _ rfl
    fun u hu j _ => by rw [State.setStk, hu]

theorem memByte_initHbm (s : State) (k : Nat) : memByte (initHbm s) k = if k < hbmEnd then 0 else memByte s k := by
  have h : memByte (initHbm s) k = memByte (memClear s 0 hbmEnd) k := by
    rw [initHbm, memByte, memByte, mapStacks_frame]
  rw [h, memByte_memClear]
  simp

theorem initHbm_stk_present (s : State) (k : Nat) : ((initHbm s).stk k).present = (s.stk k).present := by
  have hclear : (memClear s 0 hbmEnd).stk k = s.stk k := by
    unfold memClear
    rfl
  rw [initHbm, mapStacks_stk_present (fun x => by unfold initStack; rfl), hclear]

theorem memByte_of_bytes {s t : State} (h : t.store.bytes = s.store.bytes) (k : Nat) : memByte t k = memByte s k := by
  rw [memByte, memByte, h]

/-- Memory and stacks as stage S3 leaves them, once at least one stack has trained. -/
def hbmReady (s : State) (r : Nat → StackTraining) : State :=
  (List.range 8).foldl buildPage (initHbm ((List.range 32).foldl (fun a k => trainStack a k (r k)) s))

theorem hbmReady_core (s : State) (r : Nat → StackTraining) :
    CoreOnly (initHbm ((List.range 32).foldl (fun a k => trainStack a k (r k)) s)) (hbmReady s r) :=
  .foldl buildPage_core _ _

theorem memByte_hbmReady (s : State) (r : Nat → StackTraining) (k : Nat) :
    memByte (hbmReady s r) k = if k < hbmEnd then 0 else memByte s k := by
  have hbytes := congrArg Store.bytes (hbmReady_core s r).store
  rw [memByte_of_bytes hbytes, memByte_initHbm, memByte_of_bytes (foldl_trainStack_trained r _ s).bytes]

theorem hbmReady_present {s : State} {r : Nat → StackTraining} {k : Nat} (hk : k < 32) (hr : (r k).ok = false) :
    ((hbmReady s r).stk k).present = false := by
  rw [State.stk, (hbmReady_core s r).store]
  exact (initHbm_stk_present _ k).trans (foldl_trainStack_failed (List.mem_range.mpr hk) hr s)

/-- The module at stage S4: memory is ready, and every port trains. -/
theorem portsTraining_spec {s : State} {r : Nat → StackTraining} {t : State}
    (ht : t = (List.range 12).foldl portTrain (setStage (hbmReady s r) 4)) :
    t.boot.stage = 4 ∧ (∀ k, memByte t k = if k < hbmEnd then 0 else memByte s k) ∧
      (∀ n, n < 12 → (t.port n).state = 1) ∧ ∀ k, k < 32 → (r k).ok = false → (t.stk k).present = false := by
  have hst := setStage_entered (hbmReady s r) 4
  have hports : FabricFrame (setStage (hbmReady s r) 4) t := ht ▸ .foldl portTrain_frame _ _
  have hstore : t.store = (hbmReady s r).store := hports.store.trans hst.store
  refine ⟨?_, fun k => ?_, fun n hn => ?_, fun k hk hr => ?_⟩
  · rw [hports.stage_of_ne (by rw [hst.stage]; decide), hst.stage]
  · rw [memByte_of_bytes (congrArg Store.bytes hstore), memByte_hbmReady]
  · rw [ht]
    exact foldl_portTrain_state List.nodup_range (List.mem_range.mpr hn) _
  · rw [State.stk, hstore]
    exact hbmReady_present hk hr

/-- How stack k's training ended, of the outcomes listed. -/
def stackOutcome (out : List StackTraining) (k : Nat) : StackTraining := out.getD k ⟨true, false, 0, false⟩

theorem exec_stackTrainingDone_ready {s : State} {out : List StackTraining} {k : Nat} (h3 : s.boot.stage = 3)
    (hheld : stageHeld s = false) (hk : k < 32) (hok : (stackOutcome out k).ok = true) :
    exec (.stackTrainingDone out) s =
      .next ((List.range 12).foldl portTrain (setStage (hbmReady s (stackOutcome out)) 4)) := by
  have hsome : ¬ (List.range 32).all (fun k => !(stackOutcome out k).ok) = true := by
    intro h
    have hno := List.all_eq_true.mp h k (List.mem_range.mpr hk)
    rw [hok] at hno
    exact absurd hno (by decide)
  have hexec : exec (.stackTrainingDone out) s = execStackTrainingDone out s := rfl
  rw [hexec, execStackTrainingDone, if_neg (by simp [h3, hheld])]
  exact congrArg Host.Outcome.next (if_neg hsome)

theorem exec_stackTrainingDone_failed {s : State} {out : List StackTraining} (h3 : s.boot.stage = 3)
    (hheld : stageHeld s = false) (hall : ∀ k, k < 32 → (stackOutcome out k).ok = false) :
    ∃ t, exec (.stackTrainingDone out) s = .next t ∧ t.boot.stage = 3 ∧ t.boot.error = 3 := by
  have hnone : (List.range 32).all (fun k => !(stackOutcome out k).ok) = true :=
    List.all_eq_true.mpr fun k hk => by rw [hall k (List.mem_range.mp hk)]; rfl
  have hexec : exec (.stackTrainingDone out) s = execStackTrainingDone out s := rfl
  rw [hexec, execStackTrainingDone, if_neg (by simp [h3, hheld])]
  refine ⟨_, congrArg Host.Outcome.next (if_pos hnone), ?_, rfl⟩
  exact (foldl_trainStack_trained _ _ s).stage.trans h3

/-! ## Sorter's restarts (R506) -/

theorem abortOp_ended (s : State) (slot : Nat) : OpsEnded s (abortOp s slot) := by
  unfold abortOp
  split
  · exact .refl s
  · exact opFinal_ended _ _ _ _ _

theorem foldl_ended {α : Type} {f : State → α → State} (hf : ∀ u a, OpsEnded u (f u a)) (l : List α) (s : State) :
    OpsEnded s (l.foldl f s) :=
  List.foldlRecOn (motive := fun u : State => OpsEnded s u) l f (.refl s) fun _ hu a _ => hu.trans (hf _ a)

theorem abortOp_op_ne {j k : Nat} (h : j ≠ k) (s : State) : (abortOp s j).op k = s.op k := by
  cases ho : s.op j with
  | none => simp [abortOp, ho]
  | some o =>
    cases hf : rstateFinal o.rcpt.state with
    | true => simp [abortOp, ho, opFinal, hf]
    | false =>
      simp only [abortOp, ho]
      rw [(opFinal_reports ho hf _ _ _).op, State.op_setOp_ne _ _ _ _ h]

/-- An operation that is aborted is final, with RESET_ABORTED. -/
theorem abortOp_op {s : State} {k : Nat} {o : Op} (ho : s.op k = some o) (hf : rstateFinal o.rcpt.state = false) :
    ∃ x, (abortOp s k).op k = some x ∧ x.rcpt.status = stReset ∧ rstateFinal x.rcpt.state = true := by
  simp only [abortOp, ho]
  refine ⟨_, op_opFinal ho hf _ _ _, rfl, ?_⟩
  dsimp only
  split
  · rfl
  · rfl

theorem foldl_abortOp_op {l : List Nat} {k : Nat} (hk : k ∈ l) {s : State} {o : Op} (ho : s.op k = some o)
    (hf : rstateFinal o.rcpt.state = false) :
    ∃ x, (l.foldl abortOp s).op k = some x ∧ x.rcpt.status = stReset ∧ rstateFinal x.rcpt.state = true := by
  induction l generalizing s with
  | nil => exact absurd hk List.not_mem_nil
  | cons j t ih =>
    by_cases hj : j = k
    · obtain ⟨x, hx, hst, hfin⟩ := abortOp_op ho hf
      exact ⟨x, (foldl_ended abortOp_ended t _).final k x (hj ▸ hx) hfin, hst, hfin⟩
    · exact ih ((List.mem_cons.mp hk).resolve_left (Ne.symm hj)) ((abortOp_op_ne hj s).trans ho)

/-- The streams of aborted operations halt, and what they doomed ends. -/
theorem abortOps_after (s : State) (l : List Nat) : OpsEnded (l.foldl abortOp s) (abortOps s l) := by
  refine (foldl_ended (fun u e => ?_) _ _).trans (settle_ended _ _)
  split
  · exact haltStream_ended _ _
  · exact .refl _

theorem abortOps_ended (s : State) (l : List Nat) : OpsEnded s (abortOps s l) :=
  (foldl_ended abortOp_ended l s).trans (abortOps_after s l)

theorem OpsEnded.boot {s t : State} (h : OpsEnded s t) : t.boot = s.boot := by
  obtain ⟨_, _, _, _, _, _, rfl⟩ := h.frame
  rfl

theorem OpsEnded.flash {s t : State} (h : OpsEnded s t) : t.flash = s.flash := by
  obtain ⟨_, _, _, _, _, _, rfl⟩ := h.frame
  rfl

theorem mem_serviceSlots {s : State} {slot : Nat} {o : Op} (ho : s.op slot = some o) (hk : o.kind = 6)
    (hf : rstateFinal o.rcpt.state = false) : slot ∈ serviceSlots s :=
  List.mem_map.mpr ⟨(slot, o), List.mem_filter.mpr ⟨mem_of_kfind ho, by simp [hk, hf]⟩, rfl⟩

/-- Sorter restarts on a module none of whose communicators runs anything. -/
theorem restart_spec {s u t : State} {recent : List Nat} {net : FabNet} {comms : KMap CommS} (hu : OpsEnded s u)
    (ht : t = startSorter { u with
      net := net, comms := comms
      boot := { u.boot with restarts := s.now :: recent, sorterStopped := decide (2 ≤ recent.length) } }) :
    t.store = s.store ∧ t.boot.restarts = s.now :: recent ∧ (t.boot.sorterStopped = true ↔ 2 ≤ recent.length) ∧
      t.boot.runBundle = flashBundle s ∧ ∀ k, t.op k = u.op k := by
  subst ht
  refine ⟨hu.store, rfl, decide_eq_true_iff, ?_, fun k => rfl⟩
  exact congrArg (fun f : Flash => if f.bundle.isEmpty then Config.factoryBundle else f.bundle) hu.flash

/-- Settles O49: each stage is its action behind the check that it is the one reached and not held; the restart is that
of the operations it aborts. -/
theorem bringUp : Obligations.BringUp := by
  unfold Obligations.BringUp
  refine ⟨fun s a b h1 he ha hb => ?_, fun s h2 he => ?_, fun s out ok h3 he hok => ?_, fun s recent h5 hgo hrec => ?_⟩
  · exact ⟨_, exec_postmasterStart h1 (stageHeld_of he) ha hb, postmasterStage_spec a b h1⟩
  · have hheld : stageHeld s = false := stageHeld_of he
    by_cases hf : Config.fusesReadable
    · obtain ⟨t, hexec, hst, herr⟩ := exec_floorPlanBuild h2 hheld hf
      exact ⟨t, hexec, by rw [if_pos hf]; exact ⟨hst, herr⟩⟩
    · refine ⟨holdStage s 2, ?_, by rw [if_neg hf]; exact ⟨h2, rfl⟩⟩
      have hexec : exec .floorPlanBuild s = execFloorPlanBuild s := rfl
      rw [hexec, execFloorPlanBuild, if_neg (by simp [h2, hheld]), if_pos (by simp [hf])]
  · have hheld : stageHeld s = false := stageHeld_of he
    subst hok
    refine ⟨fun ⟨k, hk, hkok⟩ => ?_, fun hall => ?_⟩
    · obtain ⟨hst, hmem, hport, hpres⟩ := portsTraining_spec (s := s) (r := stackOutcome out) rfl
      refine ⟨_, exec_stackTrainingDone_ready h3 hheld hk hkok, hst, fun k hk => ?_, fun k hk => ?_, hport, hpres⟩
      · exact (hmem k).trans (if_pos hk)
      · exact (hmem k).trans (if_neg (by omega))
    · obtain ⟨t, hexec, hst, herr⟩ := exec_stackTrainingDone_failed h3 hheld hall
      exact ⟨t, hexec, hst, herr⟩
  · have hexec : exec .sorterHeartbeatTimeout s = execSorterHeartbeatTimeout s := rfl
    rw [hexec, execSorterHeartbeatTimeout, if_neg (by simp [hgo]; omega), ← hrec]
    obtain ⟨hstore, hrest, hstop, hrun, hop⟩ := restart_spec (abortOps_ended s (serviceSlots s)) rfl
    refine ⟨_, rfl, hstore, hrest, hstop, hrun, fun slot o ho hk hf => ?_⟩
    obtain ⟨x, hx, hst, hfin⟩ := foldl_abortOp_op (mem_serviceSlots ho hk hf) ho hf
    exact ⟨x, (hop slot).trans ((abortOps_after s _).final slot x hx hfin), hst, hfin⟩

end Sys2Proof.Machine
end

section
/-! PROOF. Packets put on one port or on every port (spec/14 R352, R364), and time transfer over them (R379, R380; spec/22
R544): the obligation O43. -/

namespace Sys2Proof.Machine

/-! ## One packet on one port -/

/-- A packet put on a port has gone out, or waits at the end of the port's queue. -/
theorem linkSend_put (s : State) (n : Nat) (q : LinkItem) : PutOnPort s (linkSend s n q) n q.item := by
  unfold linkSend
  extract_lets x
  split
  · exact .inr ⟨rfl, q, congrArg Port.queue (State.port_setPort_same _ _ _), rfl⟩
  · refine .inl ?_
    unfold linkOut
    split
    · rfl
    · rfl

/-- What was put on a port stays there, or goes out, while the queues only grow. -/
theorem OnPort.grow {s t : State} {n : Nat} {x : Sent} (h : OnPort s n x) (hs : s.sent ⊆ t.sent)
    (hq : (s.port n).queue ⊆ (t.port n).queue) : OnPort t n x := by
  rcases h with h | ⟨q, hmem, hitem⟩
  · exact .inl (hs h)
  · exact .inr ⟨q, hq hmem, hitem⟩

theorem linkOwe_queue (s : State) (n vc k j : Nat) : ((linkOwe s n vc k).port j).queue = (s.port j).queue := by
  unfold linkOwe
  rw [State.port_setPort]
  split
  · next h => rw [← h]
  · rfl

theorem linkOut_queue (s : State) (n : Nat) (q : LinkItem) (j : Nat) :
    ((linkOut s n q).port j).queue = (s.port j).queue := by
  have hout (y : Port) (hy : y.queue = (s.port n).queue) :
      (((s.setPort n y).send q.item).port j).queue = (s.port j).queue := by
    change ((s.setPort n y).port j).queue = _
    rw [State.port_setPort]
    split
    · next h => rw [hy, h]
    · rfl
  unfold linkOut
  extract_lets x s1
  split
  · rw [linkOwe_queue]
    exact hout _ rfl
  · exact hout _ rfl

theorem linkSend_queue (s : State) (n : Nat) (q : LinkItem) (j : Nat) :
    (s.port j).queue ⊆ ((linkSend s n q).port j).queue := by
  unfold linkSend
  extract_lets x
  split
  · rw [State.port_setPort]
    split
    · next h => exact h ▸ List.subset_append_left _ _
    · exact fun _ h => h
  · rw [linkOut_queue]
    exact fun _ h => h

theorem OnPort.linkSend {s : State} {k : Nat} {x : Sent} (h : OnPort s k x) (n : Nat) (q : LinkItem) :
    OnPort (linkSend s n q) k x :=
  h.grow (linkSend_ports s n q).sent (linkSend_queue s n q k)

theorem PutOnPort.onPort {s t : State} {n : Nat} {x : Sent} (h : PutOnPort s t n x) : OnPort t n x := by
  rcases h with h | ⟨_, q, hq, hitem⟩
  · exact .inl (h ▸ List.mem_append_right _ (List.mem_singleton_self x))
  · exact .inr ⟨q, hq ▸ List.mem_append_right _ (List.mem_singleton_self q), hitem⟩

/-- What is put on a port before or after, elsewhere or there, does not change that a packet was put on it. -/
theorem PutOnPort.congr_left {s u t : State} {n : Nat} {x : Sent} (h : PutOnPort u t n x) (hs : u.sent = s.sent)
    (hq : (u.port n).queue = (s.port n).queue) : PutOnPort s t n x := by
  rcases h with h | ⟨h, q, hq', hitem⟩
  · exact .inl (by rw [h, hs])
  · exact .inr ⟨h.trans hs, q, by rw [hq', hq], hitem⟩

theorem PutOnPort.congr_right {s u t : State} {n : Nat} {x : Sent} (h : PutOnPort s u n x) (hs : t.sent = u.sent)
    (hq : (t.port n).queue = (u.port n).queue) : PutOnPort s t n x := by
  rcases h with h | ⟨h, q, hq', hitem⟩
  · exact .inl (by rw [hs, h])
  · exact .inr ⟨hs.trans h, q, by rw [hq, hq'], hitem⟩

/-! ## A packet on every port -/

theorem maintSendAll_onPort {l : List (Nat × Sent)} {e : Nat × Sent} (he : e ∈ l) (s : State) :
    OnPort (maintSendAll s l) e.1 e.2 := by
  have hkeep (l : List (Nat × Sent)) (u : State) (hu : OnPort u e.1 e.2) : OnPort (maintSendAll u l) e.1 e.2 :=
    List.foldlRecOn (motive := fun u : State => OnPort u e.1 e.2) l _ hu fun _ hv a _ => hv.linkSend _ _
  induction l generalizing s with
  | nil => exact absurd he List.not_mem_nil
  | cons a t ih =>
    rcases List.mem_cons.mp he with rfl | he
    · exact hkeep t _ (linkSend_put s e.1 { vc := vcMaint, item := e.2 }).onPort
    · exact ih he _

theorem floodOn_onPort {s : State} {ok : Nat → Bool} {but : Option Nat} {k : Nat} (hk : k < 12) (hok : ok k = true)
    (hbut : but ≠ some k) (f : Nat → Sent) : OnPort (floodOn s ok but f) k (f k) := by
  refine maintSendAll_onPort (e := (k, f k)) (List.mem_map.mpr ⟨k, ?_, rfl⟩) s
  exact List.mem_filter.mpr ⟨List.mem_range.mpr hk, by simpa [hok] using Ne.symm hbut⟩

/-! ## Packets received -/

theorem linkGot_ports (s : State) (n k : Nat) :
    linkGot s n k = { s with ports := (linkGot s n k).ports } := rfl

/-- A maintenance or time packet received whole: only the link layer's place in the stream and its buffers move. -/
theorem linkRecv_frame (s : State) (n vc k : Nat) : linkRecv s n vc k = { s with ports := (linkRecv s n vc k).ports } := rfl

/-- A port's own registers after a packet has been received on some port. -/
theorem linkRecv_port (s : State) (n vc k j : Nat) : (linkRecv s n vc k).port j = { s.port j with
    expect := ((linkRecv s n vc k).port j).expect, discarding := ((linkRecv s n vc k).port j).discarding,
    owed := ((linkRecv s n vc k).port j).owed } := by
  unfold linkRecv linkOwe linkGot
  by_cases h : n = j
  · subst h
    simp
  · rw [State.port_setPort_ne _ _ _ _ h, State.port_setPort_ne _ _ _ _ h]

theorem portMaint_linkRecv (s : State) (n vc k j : Nat) : portMaint (linkRecv s n vc k) j = portMaint s j := by
  rw [portMaint, linkRecv_port, portMaint]

theorem linkRecv_queue (s : State) (n vc k j : Nat) : ((linkRecv s n vc k).port j).queue = (s.port j).queue := by
  rw [linkRecv_port]

theorem linkRecv_fabric (s : State) (n vc k : Nat) : FabricFrame s (linkRecv s n vc k) := .of_ports rfl fun _ h => h

/-! ## The end of S4 -/

/-- Entering S5 leaves memory, tiles, ledger and time as they are. -/
theorem endS4_spec (s : State) : (endS4 s).store = s.store ∧ (endS4 s).core = s.core ∧ (endS4 s).ledger = s.ledger ∧
    (endS4 s).time = s.time ∧ (endS4 s).fab = s.fab ∧ (endS4 s).flash = s.flash := by
  unfold endS4
  split
  · have h := setStage_entered s 5
    exact ⟨h.store, h.core, h.ledger, h.time, by rw [h.frame], h.flash⟩
  · exact ⟨rfl, rfl, rfl, rfl, rfl, rfl⟩

/-! ## The correction of time (R380) -/

/-- SLEW stays within 500 ppm, and within one step of the offset where the offset is within that. -/
theorem slewOf_bounds (d : Int) (f : Nat) : -125 ≤ slewOf d f ∧ slewOf d f ≤ 125 ∧
    (d.natAbs ≤ 1024 → -1024 < slewOf d f * 1024 - d * 125 ∧ slewOf d f * 1024 - d * 125 < 1024) := by
  unfold slewOf
  extract_lets q v
  have hv : v = q ∧ d * 125 = q * 1024 ∨ (v = q ∨ v = q + 1) ∧ q * 1024 < d * 125 ∧ d * 125 < q * 1024 + 1024 := by
    subst v q
    split
    · next h =>
      have : d * 125 % 1024 = 0 := by simpa using h
      exact .inl ⟨rfl, by omega⟩
    · next h =>
      have : d * 125 % 1024 ≠ 0 := by simpa using h
      exact .inr ⟨by omega, by omega, by omega⟩
  clear_value v q
  refine ⟨by omega, by omega, fun hd => ?_⟩
  have hd' : -1024 ≤ d ∧ d ≤ 1024 := by omega
  rcases hv with ⟨rfl, h⟩ | ⟨h | h, h1, h2⟩
  · omega
  · omega
  · omega

/-- A step of the time base moves it by half of the doubled offset, where the result is a time. -/
theorem stepTime_exact {t : TimeBase} {d : Int} (h0 : 0 ≤ (t.pm : Int) * 250000 + t.frac + d * 250000 / 32)
    (h1 : (t.pm : Int) * 250000 + t.frac + d * 250000 / 32 < 2 ^ 64 * 250000) :
    ((stepTime t d).pm : Int) * 250000 + (stepTime t d).frac = t.pm * 250000 + t.frac + d * 250000 / 32 := by
  simp only [stepTime, unsignedOf]
  generalize (t.pm : Int) * 250000 + t.frac + d * 250000 / 32 = u at h0 h1 ⊢
  omega

/-- The counts and LOCKED after an exchange. -/
def exchanged (t : TimeBase) (d : Int) : TimeBase :=
  let good := if decide (d.natAbs < 256) then t.good + 1 else 0
  let bad := if decide (d.natAbs < 256) then 0 else t.bad + 1
  { t with good := good, bad := bad, locked := if 8 ≤ good then true else if 4 ≤ bad then false else t.locked }

theorem exchanged_locked (t : TimeBase) (d : Int) :
    (8 ≤ (exchanged t d).good → (exchanged t d).locked = true) ∧ (4 ≤ (exchanged t d).bad → (exchanged t d).locked = false) ∧
      ((exchanged t d).good < 8 → (exchanged t d).bad < 4 → (exchanged t d).locked = t.locked) := by
  unfold exchanged
  by_cases hd : d.natAbs < 256
  · simp only [hd, decide_true, if_true]
    refine ⟨fun h => if_pos h, fun h => by omega, fun h1 h2 => ?_⟩
    rw [if_neg (by omega), if_neg (by omega)]
  · simp only [hd, decide_false, Bool.false_eq_true, if_false]
    refine ⟨fun h => by omega, fun h => ?_, fun h1 h2 => ?_⟩
    · rw [if_neg (by omega), if_pos h]
    · rw [if_neg (by omega), if_neg (by omega)]

/-- A reply that counts is carried out on the time base. -/
def replied (s : State) (d : Int) : State :=
  if s.boot.stage < 6 && decide (32000 ≤ d.natAbs) then
    endS4 { s with time := stepTime (exchanged s.time d) d, prun := rejoin s.prun (stepTime (exchanged s.time d) d).pm }
  else endS4 { s.takeFree.2 with time := { exchanged s.time d with slew := slewOf d s.takeFree.1.toNat } }

theorem exec_timeReply {s : State} {n : PortNo} {t1 t2 t3 t4 d : Int} (hn : n.val = s.time.sourcePort)
    (hp : portMaint s n = true) (ht : s.time.t1.isSome = true) (hd : d = (t2 - t1) - (t4 - t3)) :
    exec (.timeReply n t1 t2 t3 t4) s = .next (replied (linkRecv s n vcTime 1) d) := by
  subst hd
  have hgo : (n.val != (linkRecv s n vcTime 1).time.sourcePort || !portMaint (linkRecv s n vcTime 1) n ||
      (linkRecv s n vcTime 1).time.t1.isNone) = false := by
    have hsome : (linkRecv s n vcTime 1).time.t1.isNone = false := by
      change s.time.t1.isNone = false
      cases h : s.time.t1 with
      | none => rw [h] at ht; exact absurd ht (by decide)
      | some _ => rfl
    rw [hsome, portMaint_linkRecv, hp, show (linkRecv s n vcTime 1).time.sourcePort = s.time.sourcePort from rfl, ← hn]
    simp
  exact congrArg Host.Outcome.next (if_neg (by rw [hgo]; decide))

/-- What a reply that counts leaves. -/
theorem replied_spec (s : State) (d : Int) :
    (replied s d).store = s.store ∧ (replied s d).core = s.core ∧ (replied s d).ledger = s.ledger ∧
      (replied s d).time = if s.boot.stage < 6 ∧ 32000 ≤ d.natAbs then stepTime (exchanged s.time d) d
        else { exchanged s.time d with slew := slewOf d s.takeFree.1.toNat } := by
  unfold replied
  by_cases h : s.boot.stage < 6 ∧ 32000 ≤ d.natAbs
  · rw [if_pos (by simpa using h), if_pos h]
    obtain ⟨h1, h2, h3, h4, _, _⟩ := endS4_spec
      { s with time := stepTime (exchanged s.time d) d, prun := rejoin s.prun (stepTime (exchanged s.time d) d).pm }
    exact ⟨h1, h2, h3, h4⟩
  · rw [if_neg (by simpa using h), if_neg h]
    obtain ⟨h1, h2, h3, h4, _, _⟩ := endS4_spec
      { s.takeFree.2 with time := { exchanged s.time d with slew := slewOf d s.takeFree.1.toNat } }
    exact ⟨h1, h2, h3, h4⟩

/-! ## The reference clock -/

theorem foldl_portDown_frame (cause : Nat) (l : List Nat) (s : State) :
    FabricFrame s (l.foldl (fun a n => portDown a n cause) s) :=
  .foldl (fun u n => portDown_frame u n cause) l s

/-- Ports taken down one after another are all down. -/
theorem foldl_portDown_state {l : List Nat} {n : Nat} (hn : n ∈ l) (cause : Nat) (s : State) :
    ((l.foldl (fun a n => portDown a n cause) s).port n).state = 0 := by
  have hkeep (l : List Nat) (u : State) (hu : (u.port n).state = 0) :
      ((l.foldl (fun a n => portDown a n cause) u).port n).state = 0 := by
    refine List.foldlRecOn (motive := fun u : State => (u.port n).state = 0) l _ hu fun v hv k _ => ?_
    by_cases hk : k = n
    · subst hk
      exact (portDown_same v k cause).state
    · exact (portDown_ne hk v cause).state.trans hv
  induction l generalizing s with
  | nil => exact absurd hn List.not_mem_nil
  | cons k t ih =>
    rcases List.mem_cons.mp hn with rfl | hn
    · exact hkeep t _ (portDown_same s n cause).state
    · exact ih hn _

/-- Every port goes down while the internal oscillator takes over. -/
theorem frefLost_spec {s s1 t : State} (hdown : t = (List.range 12).foldl (fun a n => portDown a n 8) s1)
    (ht : s1.time = { s.time with fref := false, internalOsc := true, locked := false, good := 0 })
    (hs : s1 = { s with time := s1.time, pins := { s.pins with alertN := false } }) :
    t.store = s.store ∧ t.core = s.core ∧ t.time.fref = false ∧ t.time.internalOsc = true ∧ t.time.locked = false ∧
      t.pins.alertN = false ∧ t.time.pm = s.time.pm ∧ ∀ n, n < 12 → (t.port n).state = 0 := by
  have h := foldl_portDown_frame 8 (List.range 12) s1
  rw [hdown]
  refine ⟨?_, ?_, ?_, ?_, ?_, ?_, ?_, fun n hn => foldl_portDown_state (List.mem_range.mpr hn) 8 s1⟩
  · rw [h.store, hs]
  · rw [h.core, hs]
  · rw [h.time, ht]
  · rw [h.time, ht]
  · rw [h.time, ht]
  · rw [h.pins, hs]
  · rw [h.time, ht]

/-- Settles O43: TIME_SYNC and its answer are packets put on a port; the correction is split by its size and the stage; the
loss of FREF takes the ports down one after another. -/
theorem timekeeping : Obligations.Timekeeping := by
  unfold Obligations.Timekeeping
  refine ⟨fun s hsrc hport hrun hdue => ?_, fun s n t1 t2 t3 hport hrun => ?_,
    fun s n t1 t2 t3 t4 d hn hport ht hd => ?_, fun s hst hfref => ?_, fun s => rfl⟩
  · have hexec : exec .timeSyncSend s = execTimeSyncSend s := rfl
    rw [hexec, execTimeSyncSend]
    extract_lets n due
    have hgo : due = true := by
      subst due
      cases h : s.time.t1 with
      | none => rfl
      | some t => exact decide_eq_true (hdue t h)
    refine ⟨_, congrArg Host.Outcome.next (if_neg (by simp [n, hsrc, hport, hrun, hgo])), ?_, ?_⟩
    · exact (linkSend_ports _ _ _).frame
    · exact (linkSend_put _ _ _).congr_left rfl rfl
  · have hgo : (portMaint (linkRecv s n vcTime 1) n && (linkRecv s n vcTime 1).time.running) = true := by
      rw [portMaint_linkRecv, hport]
      exact hrun
    refine ⟨_, congrArg Host.Outcome.next (if_pos hgo), ?_, ?_⟩
    · exact (linkSend_ports _ _ _).frame
    · exact (linkSend_put _ _ _).congr_left rfl (linkRecv_queue _ _ _ _ _)
  · obtain ⟨hstore, hcore, hledger, htime⟩ := replied_spec (linkRecv s n vcTime 1) d
    obtain ⟨hlock, hunlock, hsame⟩ := exchanged_locked s.time d
    have htime : (replied (linkRecv s n vcTime 1) d).time =
        if s.boot.stage < 6 ∧ 32000 ≤ d.natAbs then stepTime (exchanged s.time d) d
        else { exchanged s.time d with slew := slewOf d (linkRecv s n vcTime 1).takeFree.1.toNat } := htime
    refine ⟨_, exec_timeReply hn hport ht hd, hstore, hcore, hledger, ?_⟩
    rw [htime]
    by_cases hstep : s.boot.stage < 6 ∧ 32000 ≤ d.natAbs
    · rw [if_pos hstep]
      refine ⟨?_, ?_, hlock, hunlock, hsame, fun h => by omega, fun _ _ => ⟨rfl, fun h0 h1 => ?_⟩⟩
      · simp [stepTime, exchanged]
      · simp [stepTime, exchanged]
      · exact stepTime_exact (t := exchanged s.time d) h0 h1
    · rw [if_neg hstep]
      obtain ⟨hlo, hhi, hnear⟩ := slewOf_bounds d (linkRecv s n vcTime 1).takeFree.1.toNat
      refine ⟨?_, ?_, hlock, hunlock, hsame, fun _ => ⟨rfl, rfl, hlo, hhi, hnear⟩, fun h1 h2 => absurd ⟨h1, h2⟩ hstep⟩
      · simp [exchanged]
      · simp [exchanged]
  · have hgo : (s.boot.stage == 0 || !s.time.fref) = false := by simp [hst, hfref]
    have hexec : exec .frefLost s = execFrefLost s := rfl
    rw [hexec, execFrefLost, if_neg (by rw [hgo]; decide)]
    exact ⟨_, rfl, frefLost_spec rfl rfl rfl⟩

end Sys2Proof.Machine
end

section
/-! PROOF. Floods, position, routes and takeover (spec/14 R367 to R377): the obligation O42. -/

namespace Sys2Proof.Machine

/-! ## Floods -/

/-- A flood reaches every port that carries it but the one it came by, and moves nothing but packets. -/
theorem floodOn_spec (s : State) (n : PortNo) (f : Nat → Sent) :
    PortsOnly s (floodOn s (portMaint s) (some n.val) f) ∧
      ∀ k, k < 12 → k ≠ n.val → portMaint s k = true → OnPort (floodOn s (portMaint s) (some n.val) f) k (f k) :=
  ⟨floodOn_ports _ _ _ _, fun _ hk hn hok => floodOn_onPort hk hok (fun h => hn (Option.some.inj h).symm) f⟩

/-- The state that remembers a flooded packet never seen before. -/
theorem seenFlood_new {s : State} {kind origin seq : Nat} (h : (kind, origin, seq) ∉ s.net.seen) :
    seenFlood s kind origin seq =
      (false, { s with net := { s.net with seen := (kind, origin, seq) :: s.net.seen } }) :=
  if_neg (by simpa using h)

theorem seenFlood_old {s : State} {kind origin seq : Nat} (h : (kind, origin, seq) ∈ s.net.seen) :
    seenFlood s kind origin seq = (true, s) :=
  if_pos (by simpa using h)

theorem portMaint_congr {s t : State} (h : t.ports = s.ports) : portMaint t = portMaint s := by
  funext n
  rw [portMaint, portMaint, State.port, State.port, h]

/-! ## Rosters (R367) -/

/-- A new roster is stored in place of its module's last. -/
def rosterStored (s : State) (r : Roster) : State :=
  let q := (seenFlood s 0x21 r.origin.toNat r.seq.toNat).2
  let same := match rosterOf q.net.rosters r.origin with
    | some o => { o with seq := r.seq } == r
    | none => false
  let s2 := { q with net := { q.net with
    rosters := q.net.rosters.filter (fun x => x.origin != r.origin) ++ [r], dirty := q.net.dirty || !same } }
  if same then s2 else { s2 with fab := { s2.fab with lastRoster := s2.now } }

theorem exec_roster {s : State} {n : PortNo} {r : Roster} (hp : portMaint s n = true) (hr : r.rsv = false)
    (hnew : (0x21, r.origin.toNat, r.seq.toNat) ∉ s.net.seen) :
    exec (.roster n r) s = .next (floodOn (rosterStored (linkRecv s n vcMaint 1) r)
      (portMaint (rosterStored (linkRecv s n vcMaint 1) r)) (some n.val) (fun k => .roster k r)) := by
  have hq : (seenFlood (linkRecv s n vcMaint 1) 0x21 r.origin.toNat r.seq.toNat).1 = false := by
    rw [seenFlood_new (s := linkRecv s n vcMaint 1) hnew]
  have hexec : exec (.roster n r) s = execRoster n r s := rfl
  rw [hexec, execRoster]
  exact congrArg Host.Outcome.next ((if_neg (by simp [hr])).trans
    (if_neg (by rw [portMaint_linkRecv, hp, hq]; decide)))

theorem rosterStored_spec {s : State} {r : Roster} (hnew : (0x21, r.origin.toNat, r.seq.toNat) ∉ s.net.seen) :
    rosterStored s r = { s with net := (rosterStored s r).net, fab := (rosterStored s r).fab } ∧
      r ∈ (rosterStored s r).net.rosters ∧ (0x21, r.origin.toNat, r.seq.toNat) ∈ (rosterStored s r).net.seen := by
  unfold rosterStored
  rw [seenFlood_new hnew]
  extract_lets q same r0 net s2
  have hmem : r ∈ s2.net.rosters := List.mem_append_right _ (List.mem_singleton_self r)
  have hseen : (0x21, r.origin.toNat, r.seq.toNat) ∈ s2.net.seen := List.mem_cons_self
  have hs2 : s2 = { s with net := s2.net, fab := s2.fab } := rfl
  split
  · exact ⟨hs2, hmem, hseen⟩
  · exact ⟨rfl, hmem, hseen⟩

/-! ## Link states (R373) -/

/-- A table marked for the six directions of a module. -/
def markLinks (origin : Nat) (t : KMap Bool) (up : List Bool) : KMap Bool :=
  (List.range 6).foldl (fun m d => kset false m (origin * 8 + d) (!(up.getD d true))) t

theorem kget_markLinks (origin : Nat) (t : KMap Bool) (up : List Bool) {d : Nat} (hd : d < 6) :
    kget false (markLinks origin t up) (origin * 8 + d) = !(up.getD d true) := by
  have hkey (e : Nat) : origin * 8 + e = origin * 8 + d ↔ e = d := by omega
  simp only [markLinks, show List.range 6 = [0, 1, 2, 3, 4, 5] from rfl, List.foldl_cons, List.foldl_nil, kget_kset, hkey]
  split_ifs with h5 h4 h3 h2 h1 h0
  · rw [h5]
  · rw [h4]
  · rw [h3]
  · rw [h2]
  · rw [h1]
  · rw [h0]
  · omega

/-- A new LINK_STATE is taken in: the directions of its module are marked, and the routes follow. -/
def linkStateStored (s : State) (l : LinkState) : State :=
  let q := (seenFlood s 0x22 l.origin.toNat l.seq.toNat).2
  { q with
    net := { q.net with
      linkDown := markLinks l.origin.toNat q.net.linkDown l.usable
      timeDown := markLinks l.origin.toNat q.net.timeDown l.timed }
    fab := { q.fab with rebuildDue := true } }

theorem exec_linkState {s : State} {n : PortNo} {l : LinkState} (hp : portMaint s n = true) (hl : l.rsv = false)
    (hnew : (0x22, l.origin.toNat, l.seq.toNat) ∉ s.net.seen) :
    exec (.linkState n l) s = .next (timeSelect (floodOn (linkStateStored (linkRecv s n vcMaint 1) l)
      (portMaint (linkStateStored (linkRecv s n vcMaint 1) l)) (some n.val) (fun k => .linkState k l))) := by
  have hq : (seenFlood (linkRecv s n vcMaint 1) 0x22 l.origin.toNat l.seq.toNat).1 = false := by
    rw [seenFlood_new (s := linkRecv s n vcMaint 1) hnew]
  have hexec : exec (.linkState n l) s = execLinkState n l s := rfl
  rw [hexec, execLinkState]
  exact congrArg Host.Outcome.next ((if_neg (by simp [hl])).trans
    (if_neg (by rw [portMaint_linkRecv, hp, hq]; decide)))

theorem linkStateStored_frame {s : State} {l : LinkState} (hnew : (0x22, l.origin.toNat, l.seq.toNat) ∉ s.net.seen) :
    linkStateStored s l = { s with net := (linkStateStored s l).net, fab := { s.fab with rebuildDue := true } } := by
  unfold linkStateStored
  rw [seenFlood_new hnew]

/-- The time source is chosen: the time base's own registers may move, and nothing else. -/
theorem timeSelect_frame (s : State) : timeSelect s = { s with time := (timeSelect s).time } := by
  unfold timeSelect
  split
  · rfl
  · rfl

/-! ## Forwarding entries (R375, R377) -/

/-- A new FWD_ADDR is taken in. -/
def fwdStored (s : State) (f : FwdAddr) : State :=
  fwdApply (seenFlood s 0x23 f.entry.spare.toNat f.entry.seq.toNat).2 f

theorem fwdStored_frame {s : State} {f : FwdAddr} (hnew : (0x23, f.entry.spare.toNat, f.entry.seq.toNat) ∉ s.net.seen) :
    fwdStored s f = { s with
      net := (fwdStored s f).net
      fab := { s.fab with rebuildDue := true, fwd :=
        if f.remove then fwdDel s.fab.fwd f.entry.failed else fwdAdd s.fab.fwd f.entry } } := by
  unfold fwdStored
  rw [seenFlood_new hnew]
  rfl

theorem exec_fwdAddr {s : State} {n : PortNo} {f : FwdAddr} (hp : portMaint s n = true) (hf : f.rsv = false)
    (hnew : (0x23, f.entry.spare.toNat, f.entry.seq.toNat) ∉ s.net.seen) :
    exec (.fwdAddr n f) s = .next (floodOn
      (fwdStored (linkRecv s n vcMaint 1) f) (portMaint (fwdStored (linkRecv s n vcMaint 1) f))
      (some n.val) (fun k => .fwdAddr k f)) := by
  have hq : (seenFlood (linkRecv s n vcMaint 1) 0x23 f.entry.spare.toNat f.entry.seq.toNat).1 = false := by
    rw [seenFlood_new (s := linkRecv s n vcMaint 1) hnew]
  have hexec : exec (.fwdAddr n f) s = execFwdAddr n f s := rfl
  rw [hexec, execFwdAddr]
  exact congrArg Host.Outcome.next ((if_neg (by simp [hf])).trans
    (if_neg (by rw [portMaint_linkRecv, hp, hq]; decide)))

/-- A spare's own announcement is applied here, and flooded. -/
theorem announceFwd_spec (s : State) (f : Nat) (remove : Bool) :
    announceFwd s f remove = { s with
        net := (announceFwd s f remove).net, fab := (announceFwd s f remove).fab, ports := (announceFwd s f remove).ports,
        sent := (announceFwd s f remove).sent } ∧
      (announceFwd s f remove).fab = { s.fab with
        fwdSeq := (s.fab.fwdSeq + 1) % 65536, rebuildDue := true,
        fwd := if remove then fwdDel s.fab.fwd (BitVec.ofNat 16 f) else fwdAdd s.fab.fwd
          ⟨BitVec.ofNat 16 f, BitVec.ofNat 16 s.fab.chip, BitVec.ofNat 16 ((s.fab.fwdSeq + 1) % 65536)⟩ } := by
  unfold announceFwd
  extract_lets seq a fab s1 s2
  have hs2 : s2 = { s with net := s2.net, fab := { s.fab with
      fwdSeq := seq, rebuildDue := true,
      fwd := if remove then fwdDel s.fab.fwd (BitVec.ofNat 16 f) else fwdAdd s.fab.fwd
        ⟨BitVec.ofNat 16 f, BitVec.ofNat 16 s.fab.chip, BitVec.ofNat 16 seq⟩ } } := by
    subst s2
    unfold seenFlood
    split
    · rfl
    · rfl
  have hf := (floodOn_ports s2 (portMaint s2) none (fun n => .fwdAddr n a)).frame
  rw [hf, hs2]
  exact ⟨rfl, rfl⟩

/-! ## Position (R367, R368) -/

theorem portJudge_frame (s : State) (n : Nat) : FabricFrame s (portJudge s n) := by
  unfold portJudge
  extract_lets x r v s1
  split
  · exact .refl s
  · split
    · exact setPort_frame _ _ _
    · exact (setPort_frame _ _ _).trans (portChanged_work _).toFabricFrame

theorem holdWiring_frame (l : List Roster) (placed : List (W64 × Coord)) (own : Coord) (s : State) (n : Nat) :
    FabricFrame s (holdWiring l placed own s n) := by
  unfold holdWiring
  extract_lets x bad
  split
  · exact .refl s
  · exact (setPort_frame _ _ _).trans (portJudge_frame _ _)

/-- The registers of position, as it settles at coordinates c of a frame. -/
structure Settled (s t : State) (frame : W64) (c : Coord) : Prop where
  store : t.store = s.store
  core : t.core = s.core
  chip : t.fab.chip = chipAt c
  placed : t.fab.placed = true
  coord : t.flash.coord = some c
  frame : t.flash.frame = frame
  sizeX : t.fab.sizeX = ringSize (modulesOf s) 0
  sizeY : t.fab.sizeY = ringSize (modulesOf s) 1
  sizeZ : t.fab.sizeZ = ringSize (modulesOf s) 2

theorem Settled.fabric {s t u : State} {f : W64} {c : Coord} (h : Settled s t f c) (hu : FabricFrame t u) : Settled s u f c := by
  refine ⟨hu.store.trans h.store, hu.core.trans h.core, ?_, ?_, ?_, ?_, ?_, ?_, ?_⟩
  · rw [hu.fab]; exact h.chip
  · rw [hu.fab]; exact h.placed
  · rw [hu.flash]; exact h.coord
  · rw [hu.flash]; exact h.frame
  · rw [hu.fab]; exact h.sizeX
  · rw [hu.fab]; exact h.sizeY
  · rw [hu.fab]; exact h.sizeZ

theorem Settled.endS4 {s t : State} {f : W64} {c : Coord} (h : Settled s t f c) : Settled s (endS4 t) f c := by
  obtain ⟨hstore, hcore, _, _, hfab, hflash⟩ := endS4_spec t
  exact ⟨hstore.trans h.store, hcore.trans h.core, hfab ▸ h.chip, hfab ▸ h.placed, hflash ▸ h.coord, hflash ▸ h.frame,
    hfab ▸ h.sizeX, hfab ▸ h.sizeY, hfab ▸ h.sizeZ⟩

/-- The registers as position at coordinates c is taken, before the wiring is judged by it. -/
def positionTaken (s : State) (c : Coord) : State :=
  let l := modulesOf s
  let pos := settlePosition l
  let changed := match s.flash.coord with | some o => o != c | none => false
  { s with
    flash := { s.flash with frame := pos.1, coord := some c },
    net := { s.net with coord := some c, frame := pos.1, dirty := false, noLink := downLinks l pos.2 },
    fab := { s.fab with
      chip := chipAt c, placed := true, spare := (imgWiring s.image.inForce).spares.contains (chipAt c),
      coordChanged := s.fab.coordChanged || changed,
      fwd := ((l.flatMap (fun r => r.fwd)).filter (fwdLive s)).foldl fwdAdd s.fab.fwd,
      sizeX := ringSize l 0, sizeY := ringSize l 1, sizeZ := ringSize l 2, rebuildDue := true } }

theorem positionTaken_settled (s : State) (c : Coord) :
    Settled s (positionTaken s c) (settlePosition (modulesOf s)).1 c :=
  ⟨rfl, rfl, rfl, rfl, rfl, rfl, rfl, rfl, rfl⟩

theorem settleModule_eq {s : State} {c : Coord}
    (h : ((settlePosition (modulesOf s)).2.find? (fun e => e.1 == Config.serial)).map Prod.snd = some c) :
    settleModule s = endS4 (sendDiscovers (timeSelect (floodLinks
      ((List.range 12).foldl (holdWiring (modulesOf s) (settlePosition (modulesOf s)).2 c) (positionTaken s c))))) := by
  unfold settleModule
  extract_lets l pos
  rw [show (pos.2.find? (fun e => e.1 == Config.serial)).map Prod.snd = some c from h]
  unfold positionTaken
  rfl

theorem settleModule_settled {s : State} {c : Coord}
    (h : ((settlePosition (modulesOf s)).2.find? (fun e => e.1 == Config.serial)).map Prod.snd = some c) :
    Settled s (settleModule s) (settlePosition (modulesOf s)).1 c := by
  rw [settleModule_eq h]
  have hwired := (positionTaken_settled s c).fabric
    (.foldl (fun u n => holdWiring_frame (modulesOf s) (settlePosition (modulesOf s)).2 c u n) (List.range 12) _)
  refine (hwired.fabric ?_).endS4
  exact ((floodLinks_work _).trans (timeSelect_work _)).toFabricFrame.trans
    (FabricWork.of_ports (sendDiscovers_ports _)).toFabricFrame

theorem exec_discoveryQuiet {s : State} (h4 : 4 ≤ s.boot.stage) (hd : s.fab.placed = false ∨ s.net.dirty = true)
    (hquiet : s.fab.lastRoster + 20000000 ≤ s.now) (hports : ∀ n, n < 12 → (s.port n).state = 1 → (s.port n).width ≠ 0) :
    exec .discoveryQuiet s = .next (settleModule s) := by
  have hnone : (List.range 12).any (fun n => (s.port n).state == 1 && (s.port n).width == 0) = false := by
    rw [List.any_eq_false]
    intro n hn
    have := hports n (List.mem_range.mp hn)
    simpa using this
  have hnew : (s.fab.placed && !s.net.dirty) = false := by
    rcases hd with hd | hd
    · rw [hd]; rfl
    · rw [hd, Bool.not_true, Bool.and_false]
  have hexec : exec .discoveryQuiet s = execDiscoveryQuiet s := rfl
  rw [hexec, execDiscoveryQuiet, hnone, hnew, if_neg]
  simp only [Bool.or_false, decide_eq_true_eq, Bool.or_eq_true, not_or, Nat.not_lt]
  exact ⟨h4, hquiet⟩

/-! ## Takeover (R375) -/

theorem exec_takeover {s : State} (hst : s.boot.stage ≠ 0) (v : W32) :
    exec (.takeover 0 v) s = .next (actTakeover s 0 v.toNat) ∧ exec (.takeoverClear 0 v) s = .next (actTakeover s 0 v.toNat) :=
  ⟨congrArg Host.Outcome.next (gated_ok (regGate_postmaster hst _ true) _),
    congrArg Host.Outcome.next (gated_ok (regGate_postmaster hst _ true) _)⟩

/-- The state in which a write of FAB_TAKEOVER is judged. -/
def takeAsked (s : State) (v : Nat) : State := { s with fab := { s.fab with takeFailed := v % 2 ^ 16 } }

/-- The failed number taken over: this spare answers under the failed chip's number. -/
def takeBegun (s : State) (v : Nat) : State :=
  { takeAsked s v with
    fab := { (takeAsked s v).fab with aliasValid := true, aliasChip := v % 2 ^ 16, takeResult := 1 } }

/-- The failed number given up. -/
def takeCleared (s : State) (v : Nat) : State :=
  { takeAsked s v with fab := { (takeAsked s v).fab with aliasValid := false, aliasChip := 0 } }

theorem actTakeover_eq (s : State) (v : Nat) :
    actTakeover s 0 v =
      if v.testBit 31 && v.testBit 30 then { takeAsked s v with fab := { (takeAsked s v).fab with takeResult := 3 } }
      else if v.testBit 31 then
        if takeRefused s (v % 2 ^ 16) then { takeAsked s v with fab := { (takeAsked s v).fab with takeResult := 3 } }
        else announceFwd (takeBegun s v) (v % 2 ^ 16) false
      else if v.testBit 30 && s.fab.aliasValid then announceFwd (takeCleared s v) s.fab.aliasChip true
      else takeAsked s v := by
  have hf : field v 0 16 = v % 2 ^ 16 := by simp [field]
  unfold actTakeover
  rw [if_neg (by decide), hf]
  rfl

/-! ## The rows -/

theorem roster_taken {s : State} {n : PortNo} {r : Roster} (hp : portMaint s n = true) (hr : r.rsv = false)
    (hnew : (0x21, r.origin.toNat, r.seq.toNat) ∉ s.net.seen) :
    ∃ t, exec (.roster n r) s = .next t ∧
      t = { s with net := t.net, fab := t.fab, ports := t.ports, sent := t.sent } ∧
      r ∈ t.net.rosters ∧ (0x21, r.origin.toNat, r.seq.toNat) ∈ t.net.seen ∧
      ∀ k, k < 12 → k ≠ n.val → portMaint s k = true → OnPort t k (.roster k r) := by
  obtain ⟨hframe, hmem, hseen⟩ := rosterStored_spec (s := linkRecv s n vcMaint 1) (r := r) hnew
  obtain ⟨hports, hon⟩ := floodOn_spec (rosterStored (linkRecv s n vcMaint 1) r) n (fun k => .roster k r)
  have hmaint : portMaint (rosterStored (linkRecv s n vcMaint 1) r) = portMaint (linkRecv s n vcMaint 1) :=
    portMaint_congr (by rw [hframe])
  have hrecv := linkRecv_frame s n vcMaint 1
  refine ⟨_, exec_roster hp hr hnew, ?_, ?_, ?_, fun k hk hkn hok => hon k hk hkn ?_⟩
  · rw [hports.frame, hframe, hrecv]
  · rw [hports.frame]
    exact hmem
  · rw [hports.frame]
    exact hseen
  · rw [hmaint, portMaint_linkRecv]
    exact hok

theorem linkState_taken {s : State} {n : PortNo} {l : LinkState} (hp : portMaint s n = true) (hl : l.rsv = false)
    (hnew : (0x22, l.origin.toNat, l.seq.toNat) ∉ s.net.seen) :
    ∃ t, exec (.linkState n l) s = .next t ∧
      t = { s with net := t.net, fab := t.fab, time := t.time, ports := t.ports, sent := t.sent } ∧
      t.fab.rebuildDue = true ∧
      (∀ d, d < 6 → kget false t.net.linkDown (l.origin.toNat * 8 + d) = !(l.usable.getD d true) ∧
        kget false t.net.timeDown (l.origin.toNat * 8 + d) = !(l.timed.getD d true)) ∧
      ∀ k, k < 12 → k ≠ n.val → portMaint s k = true → OnPort t k (.linkState k l) := by
  have hframe := linkStateStored_frame (s := linkRecv s n vcMaint 1) (l := l) hnew
  have hdown : ∀ d, d < 6 →
      kget false (linkStateStored (linkRecv s n vcMaint 1) l).net.linkDown (l.origin.toNat * 8 + d) = !(l.usable.getD d true) ∧
      kget false (linkStateStored (linkRecv s n vcMaint 1) l).net.timeDown (l.origin.toNat * 8 + d) = !(l.timed.getD d true) :=
    fun d hd => ⟨kget_markLinks _ _ _ hd, kget_markLinks _ _ _ hd⟩
  obtain ⟨hports, hon⟩ := floodOn_spec (linkStateStored (linkRecv s n vcMaint 1) l) n (fun k => .linkState k l)
  have hmaint : portMaint (linkStateStored (linkRecv s n vcMaint 1) l) = portMaint (linkRecv s n vcMaint 1) :=
    portMaint_congr (by rw [hframe])
  have hexec := exec_linkState hp hl hnew
  have hrecv := linkRecv_frame s n vcMaint 1
  have hmaint' : portMaint (linkRecv s n vcMaint 1) = portMaint s := funext (portMaint_linkRecv s n vcMaint 1)
  generalize linkRecv s n vcMaint 1 = s0 at *
  generalize linkStateStored s0 l = s1 at *
  refine ⟨_, hexec, ?_, ?_, fun d hd => ?_, fun k hk hkn hok => ?_⟩
  · rw [timeSelect_frame, hports.frame, hframe, hrecv]
  · rw [timeSelect_frame, hports.frame, hframe]
  · rw [timeSelect_frame, hports.frame]
    exact hdown d hd
  · rw [timeSelect_frame]
    exact hon k hk hkn (by rw [hmaint, hmaint']; exact hok)

theorem fwdAddr_taken {s : State} {n : PortNo} {f : FwdAddr} (hp : portMaint s n = true) (hf : f.rsv = false)
    (hnew : (0x23, f.entry.spare.toNat, f.entry.seq.toNat) ∉ s.net.seen) :
    ∃ t, exec (.fwdAddr n f) s = .next t ∧
      t = { s with net := t.net, fab := t.fab, ports := t.ports, sent := t.sent } ∧
      t.fab = { s.fab with rebuildDue := true, fwd :=
        if f.remove then fwdDel s.fab.fwd f.entry.failed else fwdAdd s.fab.fwd f.entry } ∧
      ∀ k, k < 12 → k ≠ n.val → portMaint s k = true → OnPort t k (.fwdAddr k f) := by
  have hframe := fwdStored_frame (s := linkRecv s n vcMaint 1) (f := f) hnew
  obtain ⟨hports, hon⟩ := floodOn_spec (fwdStored (linkRecv s n vcMaint 1) f) n (fun k => .fwdAddr k f)
  have hmaint : portMaint (fwdStored (linkRecv s n vcMaint 1) f) = portMaint (linkRecv s n vcMaint 1) :=
    portMaint_congr (by rw [hframe])
  have hrecv := linkRecv_frame s n vcMaint 1
  refine ⟨_, exec_fwdAddr hp hf hnew, ?_, ?_, fun k hk hkn hok => hon k hk hkn ?_⟩
  · rw [hports.frame, hframe, hrecv]
  · rw [hports.frame, hframe, hrecv]
  · rw [hmaint, portMaint_linkRecv]
    exact hok

theorem takeover_goes {s : State} {v : W32} (hst : s.boot.stage ≠ 0) (h31 : v.toNat.testBit 31 = true)
    (h30 : v.toNat.testBit 30 = false) (href : takeRefused s (v.toNat % 2 ^ 16) = false) :
    ∃ t, exec (.takeover 0 v) s = .next t ∧
      t = { s with net := t.net, fab := t.fab, ports := t.ports, sent := t.sent } ∧
      t.fab.aliasValid = true ∧ t.fab.aliasChip = v.toNat % 2 ^ 16 ∧ t.fab.takeResult = 1 ∧ t.fab.rebuildDue = true ∧
      t.fab.fwd = fwdAdd s.fab.fwd
        ⟨BitVec.ofNat 16 (v.toNat % 2 ^ 16), BitVec.ofNat 16 s.fab.chip, BitVec.ofNat 16 ((s.fab.fwdSeq + 1) % 65536)⟩ := by
  have heq : actTakeover s 0 v.toNat = announceFwd (takeBegun s v.toNat) (v.toNat % 2 ^ 16) false := by
    rw [actTakeover_eq, h31, h30, if_neg (by decide), if_pos rfl, href, if_neg (by decide)]
  obtain ⟨hframe, hfab⟩ := announceFwd_spec (takeBegun s v.toNat) (v.toNat % 2 ^ 16) false
  refine ⟨_, (exec_takeover hst v).1.trans (congrArg Host.Outcome.next heq), hframe, ?_, ?_, ?_, ?_, ?_⟩
  · rw [hfab, takeBegun]
  · rw [hfab, takeBegun]
  · rw [hfab, takeBegun]
  · rw [hfab]
  · rw [hfab, takeBegun, takeAsked]
    rfl

theorem takeover_cleared {s : State} {v : W32} (hst : s.boot.stage ≠ 0) (h31 : v.toNat.testBit 31 = false)
    (h30 : v.toNat.testBit 30 = true) (halias : s.fab.aliasValid = true) :
    ∃ t, exec (.takeoverClear 0 v) s = .next t ∧
      t = { s with net := t.net, fab := t.fab, ports := t.ports, sent := t.sent } ∧
      t.fab.aliasValid = false ∧ t.fab.fwd = fwdDel s.fab.fwd (BitVec.ofNat 16 s.fab.aliasChip) := by
  have heq : actTakeover s 0 v.toNat = announceFwd (takeCleared s v.toNat) s.fab.aliasChip true := by
    rw [actTakeover_eq, h31, h30, halias]
    rfl
  obtain ⟨hframe, hfab⟩ := announceFwd_spec (takeCleared s v.toNat) s.fab.aliasChip true
  refine ⟨_, (exec_takeover hst v).2.trans (congrArg Host.Outcome.next heq), hframe, ?_, ?_⟩
  · rw [hfab, takeCleared]
  · rw [hfab, takeCleared, takeAsked]
    rfl

/-- Settles O42: each packet that is new is stored and flooded; position, the builder, the flip and a takeover are their
actions behind their checks. -/
theorem fabricRoutes : Obligations.FabricRoutes := by
  unfold Obligations.FabricRoutes
  refine ⟨fun s n hp => ⟨fun r => roster_taken hp, fun r hr hold => ?_, fun r hr => ?_, fun l => linkState_taken hp,
      fun f => fwdAddr_taken hp⟩,
    fun s c h4 hd hquiet hports hc => ?_, fun s hauto hdue => ?_, fun s m hg => ⟨?_, ?_, ?_⟩,
    fun s v hst => ⟨takeover_goes hst, ?_, takeover_cleared hst⟩⟩
  · have hexec : exec (.roster n r) s = execRoster n r s := rfl
    rw [hexec, execRoster]
    refine congrArg Host.Outcome.next ((if_neg (by simp [hr])).trans (if_pos ?_))
    rw [seenFlood_old (s := linkRecv s n vcMaint 1) hold]
    simp
  · exact congrArg Host.Outcome.next (if_pos hr)
  · obtain ⟨h1, h2, h3, h4', h5, h6, h7, h8, h9⟩ := settleModule_settled hc
    exact ⟨_, exec_discoveryQuiet h4 hd hquiet hports, h1, h2, h3, h4', h5, h6, h7, h8, h9⟩
  · have hexec : exec .routeRebuild s = execRouteRebuild s := rfl
    rw [hexec, execRouteRebuild, if_neg (by simp [hauto, hdue])]
    exact ⟨_, rfl, rfl, rfl, rfl, rfl⟩
  · rintro rfl hauto
    refine ⟨_, congrArg Host.Outcome.next ((gated_ok hg _).trans ((if_neg (by decide)).trans (if_neg (by simp [hauto])))),
      rfl, rfl, rfl, rfl⟩
  · rintro rfl hauto
    exact congrArg Host.Outcome.next ((gated_ok hg _).trans ((if_neg (by decide)).trans (if_pos hauto)))
  · intro hm
    have hm' : (m.toNat != 0) = true := by
      rw [bne_iff_ne]
      exact fun h => hm (BitVec.eq_of_toNat_eq h)
    exact ⟨_, congrArg Host.Outcome.next ((gated_ok hg _).trans (if_pos hm')), rfl, rfl⟩
  · intro h31 h
    rw [(exec_takeover hst v).1, actTakeover_eq, h31]
    rcases h with h30 | href
    · rw [h30]
      rfl
    · cases v.toNat.testBit 30
      · rw [href]
        rfl
      · rfl

end Sys2Proof.Machine
end

section
/-! PROOF. The link layer and the ports (spec/14 R350 to R354, R364 to R366): the obligation O41. -/

namespace Sys2Proof.Machine

/-! ## Ports that go down or train -/

theorem portDown_causes (s : State) (n cause : Nat) : (portDown s n cause).store = s.store ∧
    (portDown s n cause).core = s.core ∧ ((portDown s n cause).port n).state = 0 ∧
    ((portDown s n cause).port n).cause = cause ∧ ((portDown s n cause).port n).width = 0 := by
  have h := portDown_same s n cause
  exact ⟨(portDown_frame s n cause).store, (portDown_frame s n cause).core, h.state, h.cause, h.width⟩

theorem portDown_fec (s : State) (n cause : Nat) : ((portDown s n cause).port n).fecCorr = (s.port n).fecCorr ∧
    ((portDown s n cause).port n).fecUncorr = (s.port n).fecUncorr := by
  have h := portDown_same s n cause
  exact ⟨by rw [h]; rfl, by rw [h]; rfl⟩

theorem portDown_hold (s : State) (n cause : Nat) : ((portDown s n cause).port n).hold = (s.port n).hold :=
  (portDown_same s n cause).hold.trans rfl

/-- What a change of a port's state leaves of the port itself. -/
theorem portChanged_setPort (s : State) (n : Nat) (x : Port) :
    PortKept x ((portChanged (s.setPort n x)).port n) ∧ (portChanged (s.setPort n x)).store = s.store ∧
      s.sent ⊆ (portChanged (s.setPort n x)).sent := by
  have h := portChanged_work (s.setPort n x)
  have hp := h.port n
  rw [State.port_setPort_same] at hp
  exact ⟨hp, h.store, h.sent⟩

/-! ## FEC windows (R354) -/

/-- The port with a window's counts added. -/
def fecCounted (x : Port) (c u : Nat) : Port := { x with fecCorr := add32 x.fecCorr c, fecUncorr := add32 x.fecUncorr u }

theorem exec_fecWindowEnd (s : State) (n : PortNo) (c u : Nat) :
    exec (.fecWindowEnd n c u) s = .next (if 16 < u && portLive s n then
      portDown (s.setPort n (fecCounted (s.port n) c u)) n 6 else s.setPort n (fecCounted (s.port n) c u)) := rfl

/-! ## Control flits (R352, R353) -/

/-- A flit that cannot be read is asked for again, once. -/
theorem exec_retryReq_bad {s : State} {n : PortNo} {f : List Byte} {bad : Bool} (hlive : portLive s n = true)
    (hbad : bad = true ∨ flitRead f = none) : exec (.retryReq n ⟨f, bad⟩) s = .next (linkRetry s n) := by
  have hexec : exec (.retryReq n ⟨f, bad⟩) s = execRetryReq n ⟨f, bad⟩ s := rfl
  rw [hexec, execRetryReq, if_neg (by simp [hlive])]
  rcases hbad with h | h
  · simp only [h, if_true]
  · simp only [h, ite_self]

/-- A control flit whose checks pass acknowledges, and replays where it asks for it. -/
theorem exec_retryReq {s : State} {n : PortNo} {f : List Byte} {h : FlitHead} (hlive : portLive s n = true)
    (hf : flitRead f = some h) (htype : h.ftype = 0) :
    exec (.retryReq n ⟨f, false⟩) s = .next (if h.ctrl == 1 then replayAll (linkAck s n h.ack [(h.crvc, h.credits)]) n
      else linkAck s n h.ack [(h.crvc, h.credits)]) := by
  have hexec : exec (.retryReq n ⟨f, false⟩) s = execRetryReq n ⟨f, false⟩ s := rfl
  rw [hexec, execRetryReq, if_neg (by simp [hlive])]
  simp only [Bool.false_eq_true, if_false, hf, htype, bne_self_eq_false]

/-- An acknowledgement on a port where nothing waits. -/
theorem linkAck_quiet {s : State} {n : Nat} (hq : (s.port n).queue = []) (ack : Nat) (l : List (Nat × Nat)) :
    linkAck s n ack l = s.setPort n { s.port n with
      replay := (s.port n).replay.filter (fun e => !seqFrom ack e.lastSeq)
      credits := l.foldl (fun m c => kset 64 m c.1 (min 64 (kget 64 m c.1 + c.2))) (s.port n).credits } := by
  have hnone : (s.port n).queue.length = 0 := by rw [hq]; rfl
  change linkDrain (s.port n).queue.length _ n = _
  rw [hnone]
  rfl

/-- The packets of a replay, each counted once more. -/
def replayed (l : List Replay) : List Replay := l.map (fun e => { e with count := e.count + 1 })

theorem replayAll_spec {s : State} {n : Nat} {l : List Replay} (hl : l = replayed (s.port n).replay) (hne : l ≠ []) :
    replayAll s n =
      if l.any (fun e => decide (8 ≤ e.count)) then
        portDown ((s.setPort n { s.port n with replay := l, retries := inc32 (s.port n).retries }).sendAll
          (l.map (fun e => e.item))) n 7
      else (s.setPort n { s.port n with replay := l, retries := inc32 (s.port n).retries }).sendAll
        (l.map (fun e => e.item)) := by
  subst hl
  exact if_neg (by simpa [replayed] using hne)

/-! ## Packets received (R352, R353) -/

theorem packetFlits_pos (p : Packet) : 0 < packetFlits p := by
  unfold packetFlits flitsFor
  split
  · decide
  · omega

/-- The port after the acknowledgement and credits that a packet carries. -/
def ackedPort (x : Port) (l : LinkIn) : Port :=
  { x with
    replay := x.replay.filter (fun e => !seqFrom l.ack.toNat e.lastSeq)
    credits := (l.credits.map (fun c => (c.1.toNat, c.2.toNat))).foldl
      (fun m c => kset 64 m c.1 (min 64 (kget 64 m c.1 + c.2))) x.credits }

/-- A packet in sequence on a port in service, where nothing waits: whole, or up to its first failing flit. -/
theorem linkTake_inSequence {s : State} {p : Packet} {l : LinkIn} {n : Nat} (hst : 2 ≤ (s.port n).state)
    (hq : (s.port n).queue = []) (hl : p.link = some l) (hn : l.port.val = n) (hseq : l.seq.toNat = (s.port n).expect) :
    linkTake s p = match l.bad with
      | some i => if i < packetFlits p then
          (linkRetry (linkGot (s.setPort n (ackedPort (s.port n) l)) n i) n, false)
        else (linkGot (s.setPort n (ackedPort (s.port n) l)) n (packetFlits p), true)
      | none => (linkGot (s.setPort n (ackedPort (s.port n) l)) n (packetFlits p), true) := by
  have hack : linkAck s n l.ack.toNat (l.credits.map (fun c => (c.1.toNat, c.2.toNat))) =
      s.setPort n (ackedPort (s.port n) l) := linkAck_quiet hq _ _
  have hold : (((s.setPort n (ackedPort (s.port n) l)).port n).expect + 65536 - l.seq.toNat) % 65536 = 0 := by
    rw [State.port_setPort_same, hseq]
    change ((s.port n).expect + 65536 - (s.port n).expect) % 65536 = 0
    omega
  unfold linkTake
  rw [hl]
  simp only [hn, hack, hold]
  rw [if_neg (by omega), if_neg (by have := packetFlits_pos p; omega)]
  cases l.bad with
  | none => rfl
  | some i => simp

theorem linkRetry_frame (s : State) (n : Nat) :
    linkRetry s n = { s with ports := (linkRetry s n).ports, sent := (linkRetry s n).sent } := by
  unfold linkRetry
  extract_lets x
  split
  · rfl
  · rfl

theorem linkRetry_port {s : State} {n : Nat} (h : (s.port n).discarding = false) :
    (linkRetry s n).port n = { s.port n with discarding := true } := by
  unfold linkRetry
  extract_lets x
  rw [if_neg (by rw [h]; decide)]
  exact State.port_setPort_same _ _ _

theorem linkRetry_sent {s : State} {n : Nat} (h : (s.port n).discarding = false) :
    (linkRetry s n).sent = s.sent ++ [.flit n (controlFlit (s.port n) 1 0 0)] := by
  unfold linkRetry
  extract_lets x
  rw [if_neg (by rw [h]; decide)]
  rfl

/-- A packet not received whole does nothing more. -/
theorem arrive_cut {s t : State} {p : Packet} {mine : Bool} (hm : mine = true) (h : linkTake s p = (t, false))
    (act : State → State) : arrive s p mine act = t := by
  rw [arrive, if_neg (by simp [hm]), h]

/-- A sound packet received whole is acted on. -/
theorem arrive_whole {s t : State} {p : Packet} {mine : Bool} (hm : mine = true) (hbad : packetBad p = false)
    (h : linkTake s p = (t, true)) (act : State → State) : arrive s p mine act = act t := by
  rw [arrive, if_neg (by simp [hm]), h]
  exact if_neg (by simp [hbad])

/-! ## Packets sent (R352) -/

theorem linkSend_quiet {s : State} {n : Nat} (hq : (s.port n).queue = []) (q : LinkItem) :
    linkSend s n q = if linkRoom (s.port n) q.vc q.flits then linkOut s n q
      else s.setPort n { s.port n with queue := [q] } := by
  unfold linkSend
  extract_lets x
  rw [show x.queue = [] from hq]
  cases h : linkRoom x q.vc q.flits
  · rfl
  · rfl

/-! ## Training and discovery (R350, R364 to R366) -/

theorem portJudge_spec (s : State) (n : Nat) :
    (portJudge s n).store = s.store ∧ s.sent ⊆ (portJudge s n).sent ∧
      ((portJudge s n).port n).width = (s.port n).width ∧ ((portJudge s n).port n).laneGroup = (s.port n).laneGroup := by
  unfold portJudge
  extract_lets x r v s1
  split
  · exact ⟨rfl, fun _ h => h, rfl, rfl⟩
  · have hport : (s1.port n).width = (s.port n).width ∧ (s1.port n).laneGroup = (s.port n).laneGroup :=
      ⟨by rw [show s1.port n = _ from State.port_setPort_same _ _ _], by rw [show s1.port n = _ from State.port_setPort_same _ _ _]⟩
    split
    · exact ⟨rfl, fun _ h => h, hport⟩
    · have hc := portChanged_work s1
      have hp := hc.port n
      exact ⟨hc.store, hc.sent, by rw [hp]; exact hport.1, by rw [hp]; exact hport.2⟩

/-- A maintenance packet put on a port at the start of its service goes out at once. -/
theorem maintSend_fresh {s : State} {n : Nat} {x : Port} (hx : s.port n = linkReset x) (d : Sent) :
    d ∈ (maintSend s n d).sent := by
  have hq : (s.port n).queue = [] := by rw [hx]; rfl
  have hroom : linkRoom (s.port n) vcMaint 1 = true := by rw [hx]; rfl
  have hsend : maintSend s n d = linkOut s n { vc := vcMaint, item := d } :=
    (linkSend_quiet hq _).trans (if_pos hroom)
  rw [hsend]
  exact List.mem_append_right _ (List.mem_singleton_self d)

/-- The port's first DISCOVER after its training, and the verdict on it. -/
theorem trained_spec {s u : State} {n : PortNo} {x : Port} (hu : u.port n = linkReset x) (hstore : u.store = s.store)
    (d : Discover) {t : State} (ht : t = retestMask (portJudge (maintSend u n (.discover n d)) n)) :
    t.store = s.store ∧ (t.port n).width = x.width ∧ (t.port n).laneGroup = x.laneGroup ∧
      ∃ d, Sent.discover n d ∈ t.sent := by
  have hsend : PortsOnly u (maintSend u n (.discover n d)) := linkSend_ports _ _ _
  have hmem := maintSend_fresh hu (.discover n d)
  obtain ⟨hst, hgrow, hw, hg⟩ := portJudge_spec (maintSend u n (.discover n d)) n
  have hm := retestMask_work (portJudge (maintSend u n (.discover n d)) n)
  have hpu := hsend.port n
  have hpm := hm.port n
  rw [hu] at hpu
  subst ht
  refine ⟨?_, ?_, ?_, d, hm.sent (hgrow hmem)⟩
  · rw [hm.store, hst, hsend.frame, hstore]
  · rw [hpm]
    exact hw.trans (by rw [hpu]; rfl)
  · rw [hpm]
    exact hg.trans (by rw [hpu]; rfl)

/-- The port as it comes out of training with a width. -/
theorem portTrained_wide {s : State} {n : PortNo} {tr : Training} (hst : (s.port n).state = 1) (hw : (s.port n).width = 0)
    (hsig : tr.signal = true) (hlanes : (widthOf tr.lanes.toNat).1 ≠ 0) :
    ∃ t, exec (.portTrained n tr) s = .next t ∧ t.store = s.store ∧ (t.port n).width = (widthOf tr.lanes.toNat).1 ∧
      (t.port n).laneGroup = (widthOf tr.lanes.toNat).2 ∧ ∃ d, Sent.discover n d ∈ t.sent := by
  have hexec : exec (.portTrained n tr) s = execPortTrained n tr s := rfl
  rw [hexec, execPortTrained, if_neg (by simp [hst, hw])]
  extract_lets w saved eq y s1 b d s2
  rw [if_neg (by simp [hsig]), if_neg (by simpa using hlanes)]
  refine ⟨_, rfl, trained_spec (x := { s.port n with
    width := w.1, laneGroup := w.2, lanes := tr.lanes.toNat, savedUsed := saved, eq := eq }) ?_ ?_ _ rfl⟩
  · subst s2
    split
    · exact State.port_setPort_same _ _ _
    · exact State.port_setPort_same _ _ _
  · subst s2
    split
    · rfl
    · rfl

theorem portTrained_none {s : State} {n : PortNo} {tr : Training} (hst : (s.port n).state = 1) (hw : (s.port n).width = 0) :
    (tr.signal = false → ∃ t, exec (.portTrained n tr) s = .next t ∧ (t.port n).state = 0 ∧ (t.port n).cause = 1) ∧
      (tr.signal = true → (widthOf tr.lanes.toNat).1 = 0 →
        ∃ t, exec (.portTrained n tr) s = .next t ∧ (t.port n).state = 0 ∧ (t.port n).cause = 2) := by
  have hexec : exec (.portTrained n tr) s = execPortTrained n tr s := rfl
  rw [hexec, execPortTrained, if_neg (by simp [hst, hw])]
  extract_lets w saved eq y s1 b d s2
  refine ⟨fun hsig => ?_, fun hsig hlanes => ?_⟩
  · rw [if_pos (by simp [hsig])]
    obtain ⟨hkept, _, _⟩ := portChanged_setPort s n { s.port n with state := 0, cause := 1, lanes := 0 }
    exact ⟨_, rfl, hkept.state, hkept.cause⟩
  · rw [if_neg (by simp [hsig]), if_pos (by simpa using hlanes)]
    obtain ⟨hkept, _, _⟩ := portChanged_setPort s n { s.port n with state := 0, cause := 2, lanes := tr.lanes.toNat }
    exact ⟨_, rfl, hkept.state, hkept.cause⟩

/-- A port that holds what its neighbour said. -/
structure NeighbourKept (t : State) (n : Nat) (d : Discover) (v : Nat × Nat × Bool) : Prop where
  valid : (t.port n).nbrValid = true
  serial : (t.port n).nbrSerial = d.serial
  port : (t.port n).nbrPort = d.port.toNat % 16
  digest : (t.port n).nbrDigest = d.digest
  state : (t.port n).state = v.1
  cause : (t.port n).cause = v.2.1

theorem NeighbourKept.work {t u : State} {n : Nat} {d : Discover} {v : Nat × Nat × Bool} (h : NeighbourKept t n d v)
    (hu : FabricWork t u) : NeighbourKept u n d v := by
  have hp := hu.port n
  exact ⟨by rw [hp]; exact h.valid, by rw [hp]; exact h.serial, by rw [hp]; exact h.port, by rw [hp]; exact h.digest,
    by rw [hp]; exact h.state, by rw [hp]; exact h.cause⟩

/-- The port with what its neighbour said. -/
def toldPort (x : Port) (d : Discover) : Port :=
  { x with
    nbrSerial := d.serial, nbrValid := true, nbrPort := d.port.toNat % 16,
    nbrChip := if d.placed then d.chip.toNat else 0xFFFF, nbrDigest := d.digest, nbrLoaded := d.imageLoaded,
    nbrLpv := d.lpv.toNat }

/-- A port judged by what its neighbour has just said. -/
theorem portJudge_told {s : State} {n : Nat} {x : Port} {d : Discover} (hw : x.width ≠ 0) (hwire : x.badWire = false)
    (hhold : x.hold = false) : (portJudge (s.setPort n (toldPort x d)) n).store = s.store ∧
      NeighbourKept (portJudge (s.setPort n (toldPort x d)) n) n d
        (portVerdict s n (d.port.toNat % 16) d.lpv.toNat d.imageLoaded d.digest) := by
  unfold portJudge
  rw [State.port_setPort_same]
  extract_lets y r v s1
  have hgo : ((toldPort x d).width == 0 || !(toldPort x d).nbrValid || (toldPort x d).hold) = false := by
    simp [toldPort, hw, hhold]
  have hv : v = portVerdict s n (d.port.toNat % 16) d.lpv.toNat d.imageLoaded d.digest :=
    if_neg (show ¬ x.badWire = true by simp [hwire])
  have hs1 : NeighbourKept s1 n d v := by
    have hp : s1.port n = _ := State.port_setPort_same _ _ _
    exact ⟨by rw [hp]; rfl, by rw [hp]; rfl, by rw [hp]; rfl, by rw [hp]; rfl, by rw [hp], by rw [hp]⟩
  rw [if_neg (show ¬ (y.width == 0 || !y.nbrValid || y.hold) = true by rw [hgo]; decide), ← hv]
  split
  · exact ⟨rfl, hs1⟩
  · exact ⟨(portChanged_work s1).store, hs1.work (portChanged_work s1)⟩

theorem sendHeld_ports (s : State) (n : Nat) : PortsOnly s (sendHeld s n) :=
  .foldl (fun _ _ => linkSend_ports _ _ _) _ s

/-- What follows a DISCOVER: a new roster where the pairings changed, and the held objects for a neighbour at S5. -/
theorem discover_after {s t : State} {n : Nat} {d : Discover} {v : Nat × Nat × Bool} {c : Bool} (h : NeighbourKept s n d v)
    (ht : t = if d.stage == 5 then
        sendHeld (if c then floodRoster { s with net := { s.net with dirty := true } } else s) n
      else if c then floodRoster { s with net := { s.net with dirty := true } } else s) :
    t.store = s.store ∧ NeighbourKept t n d v := by
  have hroster : FabricWork s (if c then floodRoster { s with net := { s.net with dirty := true } } else s) := by
    split
    · refine FabricWork.trans ?_ (floodRoster_work _)
      exact ⟨⟨rfl, rfl, rfl, rfl, rfl, .inl rfl, fun _ h => h⟩, fun _ => .refl _⟩
    · exact .refl s
  have hall : FabricWork s t := by
    rw [ht]
    split
    · exact hroster.trans (.of_ports (sendHeld_ports _ _))
    · exact hroster
  exact ⟨hall.store, h.work hall⟩

theorem discover_judged {s : State} {n : PortNo} {d : Discover} (hw : (s.port n).width ≠ 0)
    (hwire : (s.port n).badWire = false) (hrsv : d.rsv = false) (hsaved : (s.port n).savedUsed = true → savedDiffers s n d = false)
    (hhold : (s.port n).hold = false) :
    ∃ t, exec (.discover n d) s = .next t ∧ t.store = s.store ∧
      NeighbourKept t n d (portVerdict s n (d.port.toNat % 16) d.lpv.toNat d.imageLoaded d.digest) := by
  have hx := linkRecv_port s n vcMaint 1 n
  have hstore : (linkRecv s n vcMaint 1).store = s.store := rfl
  have hverdict : portVerdict (linkRecv s n vcMaint 1) n (d.port.toNat % 16) d.lpv.toNat d.imageLoaded d.digest =
      portVerdict s n (d.port.toNat % 16) d.lpv.toNat d.imageLoaded d.digest := rfl
  have hno : (((linkRecv s n vcMaint 1).port n).savedUsed && savedDiffers (linkRecv s n vcMaint 1) n d) = false := by
    rw [hx]
    cases h : (s.port n).savedUsed with
    | false => rfl
    | true => rw [Bool.true_and]; exact hsaved h
  have hexec : exec (.discover n d) s = execDiscover n d s := rfl
  have hw' : ((linkRecv s n vcMaint 1).port n).width ≠ 0 := by rw [hx]; exact hw
  have hwire' : ((linkRecv s n vcMaint 1).port n).badWire = false := by rw [hx]; exact hwire
  have hhold' : ((linkRecv s n vcMaint 1).port n).hold = false := by rw [hx]; exact hhold
  rw [hexec, execDiscover]
  generalize linkRecv s n vcMaint 1 = s0 at *
  obtain ⟨hst, hnbr⟩ := portJudge_told (s := s0) (n := n) (d := d) hw' hwire' hhold'
  extract_lets x
  rw [if_neg (by simp [hrsv]), if_neg (by simpa using hw'), if_neg (by rw [hno]; decide)]
  obtain ⟨hst2, hkept⟩ := discover_after hnbr rfl
  exact ⟨_, rfl, hst2.trans (hst.trans hstore), hverdict ▸ hkept⟩

/-! ## The rows -/

theorem portHold_done {s : State} {n : PortNo} {m : Master} {v : W32}
    (hg : regGate s m.toNat (fabBase + 0x100 * n + 4) true = .ok) (h0 : v.toNat.testBit 0 = true) :
    ∃ t, exec (.portHold n m v) s = .next t ∧ t.store = s.store ∧ (t.port n).hold = true ∧ (t.port n).state = 0 ∧
      (t.port n).cause = 10 := by
  refine ⟨_, congrArg Host.Outcome.next ((gated_ok hg _).trans (if_pos h0)), ?_, ?_, ?_, ?_⟩
  · exact (portDown_frame _ _ _).store
  · rw [State.port_setPort_same]
    exact (portDown_hold _ _ _).trans (congrArg Port.hold (State.port_setPort_same _ _ _))
  · rw [State.port_setPort_same]
  · rw [State.port_setPort_same]

theorem portRetrain_done {s : State} {n : PortNo} {m : Master} {v : W32}
    (hg : regGate s m.toNat (fabBase + 0x100 * n + 4) true = .ok) (h0 : v.toNat.testBit 0 = false)
    (h1 : v.toNat.testBit 1 = true) :
    ∃ t, exec (.portRetrain n m v) s = .next t ∧ t.store = s.store ∧ (t.port n).hold = false ∧ (t.port n).state = 1 ∧
      (t.port n).width = 0 := by
  obtain ⟨hst, hw, hhold⟩ := portTrain_same (s.setPort n { s.port n with hold := false }) n
  refine ⟨_, congrArg Host.Outcome.next ((gated_ok hg _).trans ((if_neg (by simp [h0])).trans (if_pos h1))), ?_, ?_, hst, hw⟩
  · exact (portTrain_frame _ _).store
  · exact hhold.trans (congrArg Port.hold (State.port_setPort_same _ _ _))

/-- A control flit on a port in service where nothing waits (R352, R353). -/
theorem controlFlit_taken {s : State} {n : PortNo} {f : List Byte} {h : FlitHead} {y : Port} {l : List Replay}
    (hlive : portLive s n = true) (hf : flitRead f = some h) (htype : h.ftype = 0) (hq : (s.port n).queue = [])
    (hy : y = { s.port n with
      replay := (s.port n).replay.filter (fun e => !seqFrom h.ack e.lastSeq),
      credits := kset 64 (s.port n).credits h.crvc (min 64 (kget 64 (s.port n).credits h.crvc + h.credits)) })
    (hl : l = y.replay.map (fun e => { e with count := e.count + 1 })) :
    (h.ctrl ≠ 1 → exec (.retryReq n ⟨f, false⟩) s = .next (s.setPort n y)) ∧
    (h.ctrl = 1 → l ≠ [] → (∀ e ∈ l, e.count < 8) → ∃ t, exec (.retryReq n ⟨f, false⟩) s = .next t ∧
      t = { s with ports := t.ports, sent := s.sent ++ l.map (fun e => e.item) } ∧
      t.port n = { y with replay := l, retries := inc32 (s.port n).retries }) ∧
    (h.ctrl = 1 → (∃ e ∈ l, 8 ≤ e.count) → ∃ t, exec (.retryReq n ⟨f, false⟩) s = .next t ∧ (t.port n).state = 0 ∧
      (t.port n).cause = 7) := by
  have hack : linkAck s n h.ack [(h.crvc, h.credits)] = s.setPort n y := (linkAck_quiet hq _ _).trans (by rw [hy]; rfl)
  have hret : y.retries = (s.port n).retries := by rw [hy]
  have hexec := exec_retryReq hlive hf htype
  rw [hack] at hexec
  have hreplay (hne : l ≠ []) := replayAll_spec (s := s.setPort n y) (n := n) (l := l)
    (by rw [State.port_setPort_same]; exact hl) hne
  rw [State.port_setPort_same, State.setPort_setPort] at hreplay
  refine ⟨fun hc => ?_, fun hc hne hfew => ?_, fun hc ⟨e, he, h8⟩ => ?_⟩
  · rw [hexec, if_neg (by simpa using hc)]
  · have hno : l.any (fun e => decide (8 ≤ e.count)) = false := by
      rw [List.any_eq_false]
      intro e he
      have := hfew e he
      simpa using this
    rw [if_pos (by simpa using hc), hreplay hne, hno] at hexec
    refine ⟨_, hexec, rfl, ?_⟩
    rw [← hret]
    exact State.port_setPort_same _ _ _
  · have hyes : l.any (fun e => decide (8 ≤ e.count)) = true := List.any_eq_true.mpr ⟨e, he, by simpa using h8⟩
    rw [if_pos (by simpa using hc), hreplay (List.ne_nil_of_mem he), if_pos hyes] at hexec
    obtain ⟨_, _, hst, hcause, _⟩ := portDown_causes
      ((s.setPort n { y with replay := l, retries := inc32 y.retries }).sendAll (l.map (fun e => e.item))) n 7
    exact ⟨_, hexec, hst, hcause⟩

/-- A flit that cannot be read, on a port in service (R353). -/
theorem badFlit_taken {s : State} {n : PortNo} {f : List Byte} {bad : Bool} (hlive : portLive s n = true)
    (hbad : bad = true ∨ flitRead f = none) :
    ((s.port n).discarding = false → exec (.retryReq n ⟨f, bad⟩) s = .next ((s.setPort n { s.port n with
      discarding := true }).send (.flit n (flitBytes
        { ftype := 0, ctrl := 1, seq := (s.port n).nextSeq, ack := ((s.port n).expect + 65535) % 65536 } [])))) ∧
    ((s.port n).discarding = true → exec (.retryReq n ⟨f, bad⟩) s = .next s) := by
  rw [exec_retryReq_bad hlive hbad]
  refine ⟨fun hd => ?_, fun hd => ?_⟩
  · exact congrArg Host.Outcome.next (if_neg (by simp [hd]))
  · exact congrArg Host.Outcome.next (if_pos hd)

/-- A packet in sequence on a port in service where nothing waits (R352, R353). -/
theorem packet_inSequence {s : State} {n : PortNo} {p : Packet} {l : LinkIn} {k : Nat} (hst : 2 ≤ (s.port n).state)
    (hq : (s.port n).queue = []) (hl : p.link = some l) (hn : l.port = n) (hseq : l.seq.toNat = (s.port n).expect)
    (hk : k = packetFlits p) :
    ((l.bad = none ∨ ∃ i, l.bad = some i ∧ k ≤ i) →
      ∃ t, linkTake s p = (t, true) ∧ t = { s with ports := t.ports } ∧
        (t.port n).expect = ((s.port n).expect + k) % 65536 ∧ (t.port n).discarding = false ∧
        (t.port n).replay = (s.port n).replay.filter (fun e => !seqFrom l.ack.toNat e.lastSeq)) ∧
    (∀ i, l.bad = some i → i < k → ForUs s p 1 →
      ∃ t, exec (.read p) s = .next t ∧ t = { s with ports := t.ports, sent := t.sent } ∧
        (t.port n).expect = ((s.port n).expect + i) % 65536 ∧ (t.port n).discarding = true ∧
        t.sent = s.sent ++ [.flit n (flitBytes
          { ftype := 0, ctrl := 1, seq := (s.port n).nextSeq, ack := ((s.port n).expect + i + 65535) % 65536 } [])]) := by
  have htake := linkTake_inSequence hst hq hl (congrArg Fin.val hn) hseq
  have hport (j : Nat) : (linkGot (s.setPort n (ackedPort (s.port n) l)) n j).port n =
      { ackedPort (s.port n) l with expect := ((s.port n).expect + j) % 65536, discarding := false } := by
    rw [linkGot, State.port_setPort_same, State.port_setPort_same]
    rfl
  rw [← hk] at htake
  refine ⟨fun hgood => ?_, fun i hbad hi hfor => ?_⟩
  · have hwhole : linkTake s p = (linkGot (s.setPort n (ackedPort (s.port n) l)) n k, true) := by
      rcases hgood with h | ⟨i, h, hki⟩
      · rw [htake, h]
      · rw [htake, h]
        exact if_neg (by omega)
    refine ⟨_, hwhole, rfl, ?_, ?_, ?_⟩
    · rw [hport]
    · rw [hport]
    · rw [hport]
      rfl
  · rw [hbad] at htake
    have hcut : linkTake s p = (linkRetry (linkGot (s.setPort n (ackedPort (s.port n) l)) n i) n, false) :=
      htake.trans (if_pos hi)
    have hopen : ((linkGot (s.setPort n (ackedPort (s.port n) l)) n i).port n).discarding = false := by rw [hport]
    obtain ⟨hpbad, hkind, hdst⟩ := hfor
    have hmine : (p.h.kind == 1 && dstHere s p.h.dst.toNat) = true := by
      rw [hdst, Bool.and_true, beq_iff_eq]
      exact BitVec.eq_of_toNat_eq hkind
    refine ⟨_, congrArg Host.Outcome.next (arrive_cut hmine hcut _), ?_, ?_, ?_, ?_⟩
    · exact linkRetry_frame _ _
    · rw [linkRetry_port hopen, hport]
    · rw [linkRetry_port hopen]
    · have hack : (((s.port n).expect + i) % 65536 + 65535) % 65536 = ((s.port n).expect + i + 65535) % 65536 := by omega
      rw [linkRetry_sent hopen, hport, controlFlit, ackOf, hack]
      rfl

/-- A job packet sent on a port where nothing waits (R352). -/
theorem portSend_quiet {s : State} {n : Nat} (p : Packet) (hq : (s.port n).queue = []) :
    (packetFlits p ≤ kget 64 (s.port n).credits (vcOf p.h) →
        ((s.port n).replay.map (fun e => e.flits)).sum + packetFlits p ≤ 2048 →
      portSend s n p none = (s.setPort n { s.port n with
        credits := kset 64 (s.port n).credits (vcOf p.h) (kget 64 (s.port n).credits (vcOf p.h) - packetFlits p)
        nextSeq := ((s.port n).nextSeq + packetFlits p) % 65536
        replay := (s.port n).replay ++ [{ seq := (s.port n).nextSeq, item := .packet n { p with link := none },
                                          flits := packetFlits p, time := s.now }]
        }).send (.packet n { p with link := none })) ∧
    (∀ src, kget 64 (s.port n).credits (vcOf p.h) < packetFlits p ∨
        2048 < ((s.port n).replay.map (fun e => e.flits)).sum + packetFlits p →
      portSend s n p src = s.setPort n { s.port n with queue :=
        [{ vc := vcOf p.h, item := .packet n { p with link := none }, flits := packetFlits p, src := src }] }) := by
  have hroom : linkRoom (s.port n) (vcOf p.h) (packetFlits p) = true ↔
      packetFlits p ≤ kget 64 (s.port n).credits (vcOf p.h) ∧
        ((s.port n).replay.map (fun e => e.flits)).sum + packetFlits p ≤ 2048 := by
    rw [linkRoom, Bool.and_eq_true, decide_eq_true_eq, decide_eq_true_eq]
    exact Iff.rfl
  refine ⟨fun hc hr => ?_, fun src h => ?_⟩
  · exact (linkSend_quiet hq _).trans ((if_pos (hroom.mpr ⟨hc, hr⟩)).trans rfl)
  · refine (linkSend_quiet hq _).trans (if_neg fun hyes => ?_)
    obtain ⟨hc, hr⟩ := hroom.mp hyes
    omega

/-- Settles O41: a lemma for each kind of event on a port, put together. -/
theorem fabricPorts : Obligations.FabricPorts := by
  unfold Obligations.FabricPorts
  rintro s n x rfl
  refine ⟨fun hlive => ⟨?_, fun c u hu => ?_, ?_, fun f h hf htype hq y l hy hl => ?_, fun f bad hbad => ?_⟩,
    fun c u hu => ?_, fun hst hw tr => ?_, fun hw hwire d hrsv hsaved hhold => ?_, fun m v hg => ?_,
    fun hst hq p l k hl hn hseq hk _ => ?_, fun p vc f src hvc hf hq => ?_⟩
  · obtain ⟨hstore, hcore, hst, hcause, hw⟩ := portDown_causes s n 8
    exact ⟨_, congrArg Host.Outcome.next (if_pos hlive), hstore, hcore, hst, hcause, hw⟩
  · obtain ⟨hstore, _, hst, hcause, _⟩ := portDown_causes (s.setPort n (fecCounted (s.port n) c u)) n 6
    obtain ⟨hcorr, huncorr⟩ := portDown_fec (s.setPort n (fecCounted (s.port n) c u)) n 6
    refine ⟨_, (exec_fecWindowEnd s n c u).trans (congrArg Host.Outcome.next (if_pos (by simp [hu, hlive]))), hstore, hst,
      hcause, ?_, ?_⟩
    · rw [hcorr, State.port_setPort_same, fecCounted]
    · rw [huncorr, State.port_setPort_same, fecCounted]
  · rintro ⟨e, he, hlate⟩
    obtain ⟨hstore, _, hst, hcause, _⟩ := portDown_causes s n 9
    have hdue : (s.port n).replay.any (fun e => decide (e.time + 20000 ≤ s.now)) = true :=
      List.any_eq_true.mpr ⟨e, he, decide_eq_true hlate⟩
    exact ⟨_, congrArg Host.Outcome.next (if_pos (by rw [hlive, hdue]; rfl)), hstore, hst, hcause⟩
  · exact controlFlit_taken hlive hf htype hq hy hl
  · exact badFlit_taken hlive hbad
  · exact (exec_fecWindowEnd s n c u).trans (congrArg Host.Outcome.next (if_neg (by simp; omega)))
  · obtain ⟨hno, hnarrow⟩ := portTrained_none (tr := tr) hst hw
    exact ⟨hno, hnarrow, portTrained_wide hst hw⟩
  · obtain ⟨t, hexec, hstore, h⟩ := discover_judged hw hwire hrsv hsaved hhold
    exact ⟨t, hexec, hstore, h.valid, h.serial, h.port, h.digest, h.state, h.cause⟩
  · exact ⟨portHold_done hg, portRetrain_done hg⟩
  · exact packet_inSequence hst hq hl hn hseq hk
  · subst hvc hf
    obtain ⟨hout, hwait⟩ := portSend_quiet p hq
    exact ⟨fun hc hr => hout hc hr, hwait src⟩

end Sys2Proof.Machine
end

section
/-! PROOF. Job packets at their destination, at their requester and passing through (spec/14 R358 to R360, R372): the
obligation O40. -/

namespace Sys2Proof.Machine

/-! ## What the link layer moves -/

theorem linkDrain_frame (k : Nat) (s : State) (n : Nat) :
    linkDrain k s n = { s with ports := (linkDrain k s n).ports, sent := (linkDrain k s n).sent } := by
  induction k generalizing s with
  | zero => rfl
  | succ k ih =>
    unfold linkDrain
    extract_lets x
    split
    · rfl
    · rw [ih, (linkOut_ports _ _ _).frame]
      rfl

theorem linkTake_frame (s : State) (p : Packet) :
    (linkTake s p).1 = { s with ports := (linkTake s p).1.ports, sent := (linkTake s p).1.sent } := by
  have hack (n ack : Nat) (l : List (Nat × Nat)) :
      linkAck s n ack l = { s with ports := (linkAck s n ack l).ports, sent := (linkAck s n ack l).sent } := by
    unfold linkAck
    extract_lets x y
    rw [linkDrain_frame]
    rfl
  have hretry (t : State) (n : Nat) (ht : t = { s with ports := t.ports, sent := t.sent }) :
      linkRetry t n = { s with ports := (linkRetry t n).ports, sent := (linkRetry t n).sent } := by
    rw [linkRetry_frame, ht]
  unfold linkTake
  split
  · rfl
  · next l hl =>
    extract_lets n s1 k old
    have hs1 : s1 = { s with ports := s1.ports, sent := s1.sent } := hack _ _ _
    have hgot (j : Nat) : linkGot s1 n j = { s with ports := (linkGot s1 n j).ports, sent := (linkGot s1 n j).sent } := by
      rw [linkGot, State.setPort, hs1]
    split
    · rfl
    · split
      · dsimp only
        split
        · exact hs1
        · exact hretry _ _ hs1
      · split
        · split
          · exact hretry _ _ (hgot _)
          · exact hgot _
        · exact hgot _

theorem linkTake_of_whole {s t : State} {p : Packet} (h : linkTake s p = (t, true)) :
    t = { s with ports := t.ports, sent := t.sent } := by
  have hf := linkTake_frame s p
  rwa [h] at hf

theorem consumed_frame (s : State) (p : Packet) : consumed s p = { s with ports := (consumed s p).ports } := by
  unfold consumed
  split
  · rfl
  · rfl

theorem consumed_queue (s : State) (p : Packet) (n : Nat) : ((consumed s p).port n).queue = (s.port n).queue := by
  unfold consumed
  split
  · exact linkOwe_queue _ _ _ _ _
  · rfl

theorem PutOnPort.consumed {s t : State} {n : Nat} {x : Sent} (h : PutOnPort s t n x) (p : Packet) :
    PutOnPort s (consumed t p) n x :=
  h.congr_right (by rw [consumed_frame]) (consumed_queue t p n)

/-! ## Routes (R370, R372) -/

theorem hopHeader_straight (f : Fab) (c d : Nat) {h : Header} (ht : h.turn = false) :
    ∃ dim turn dateline, hopHeader f c d h = some { h with dim := dim, turn := turn, dateline := dateline } := by
  unfold hopHeader
  extract_lets dim old lower v size cross keep
  rw [if_neg (by simp [ht])]
  exact ⟨_, _, _, rfl⟩

/-- The direction of the route entry of a destination. -/
def routeDir (s : State) (dst : W16) : Nat := kget rtUnreach s.fab.rtActive dst.toNat / 2 ^ 13

/-- A route is a direction below 6, a port of it, and the header after the hop. -/
theorem routePacket_eq (s : State) (p : Packet) : routePacket s p =
    if 6 ≤ routeDir s p.h.dst then none
    else (choosePort s (routeDir s p.h.dst) p.h).bind fun n =>
      (hopHeader s.fab s.fab.chip (routeDir s p.h.dst) p.h).map fun h => (n, { p with h := h }) := by
  unfold routePacket routeDir
  extract_lets e d
  split
  · rfl
  · cases choosePort s d p.h with
    | none => rfl
    | some n =>
      cases hopHeader s.fab s.fab.chip d p.h with
      | none => rfl
      | some h => rfl

/-- What a route that carries a packet has: a direction, and a port of it. -/
theorem routeDir_of_isSome {s : State} {p : Packet} (h : (routePacket s p).isSome = true) :
    ¬ 6 ≤ routeDir s p.h.dst ∧ (choosePort s (routeDir s p.h.dst) p.h).isSome = true := by
  rw [routePacket_eq] at h
  by_cases h6 : 6 ≤ routeDir s p.h.dst
  · rw [if_pos h6] at h
    exact absurd h (by decide)
  · rw [if_neg h6] at h
    refine ⟨h6, ?_⟩
    cases hc : choosePort s (routeDir s p.h.dst) p.h with
    | some _ => rfl
    | none => rw [hc] at h; exact absurd h Bool.false_ne_true

/-- Whether a direction has a port for a packet depends on its ports alone. -/
theorem choosePort_isSome (s : State) (d : Nat) (h : Header) :
    (choosePort s d h).isSome = (portUsable s (railPort s d 0) || portUsable s (railPort s d 1)) := by
  unfold choosePort
  extract_lets a b
  cases portUsable s a
  · cases portUsable s b
    · rfl
    · rfl
  · cases portUsable s b
    · rfl
    · rfl

/-- A route to a destination carries every packet to it that has not turned. -/
theorem routePacket_of_routed {s : State} {dst : W16} (hr : Routed s dst) {h : Header} (hdst : h.dst = dst)
    (hturn : h.turn = false) (data : List Byte) :
    ∃ n dim turn dateline, routePacket s { h := h, data := data } =
      some (n, { h := { h with dim := dim, turn := turn, dateline := dateline }, data := data }) := by
  obtain ⟨h6, hsome⟩ := routeDir_of_isSome hr
  obtain ⟨n, hn⟩ : ∃ n, choosePort s (routeDir s dst) h = some n := by
    rw [choosePort_isSome, ← choosePort_isSome s _ h] at hsome
    exact Option.isSome_iff_exists.mp hsome
  obtain ⟨dim, turn, dateline, hhop⟩ := hopHeader_straight s.fab s.fab.chip (routeDir s dst) hturn
  refine ⟨n, dim, turn, dateline, ?_⟩
  subst hdst
  rw [routePacket_eq, if_neg h6, hn, hhop]
  rfl

/-! ## Answers (R358, R376) -/

/-- A reply along a route is put on a port. -/
theorem replyTo_answered {s : State} {q : Header} (hr : Routed s q.src) (kind status : Nat) (data : List Byte) (check : Nat)
    (p : Packet) :
    Answered s (consumed (replyTo s q kind status data check) p) q (BitVec.ofNat 8 kind) status data check := by
  unfold replyTo
  extract_lets b h
  obtain ⟨n, dim, turn, dateline, hroute⟩ := routePacket_of_routed hr (h := h) rfl rfl data
  simp only [hroute]
  refine ⟨?_, n, _, (linkSend_put _ _ _).consumed p, rfl, rfl, rfl, rfl, rfl, rfl, rfl, rfl⟩
  rw [consumed_frame, portSend, (linkSend_ports _ _ _).frame]

theorem nackTo_answered {s : State} {q : Header} (hr : Routed s q.src) (status : Nat) (p : Packet) :
    Answered s (consumed (nackTo s q status) p) q 5 status [] 0 := replyTo_answered hr 5 status [] 0 p

theorem Answered.store {s t : State} {h : Header} {kind : Byte} {status : Nat} {data : List Byte} {check : Nat}
    (ha : Answered s t h kind status data check) : t.store = s.store := by
  rw [ha.1]

/-! ## Requests at their destination (R358, R359) -/

theorem read_mine {s : State} {p : Packet} (h : ForUs s p 1) :
    (p.h.kind == 1 && dstHere s p.h.dst.toNat) = true := by
  obtain ⟨_, hkind, hdst⟩ := h
  rw [hdst, Bool.and_true, beq_iff_eq]
  exact BitVec.eq_of_toNat_eq hkind

theorem write_mine {s : State} {p : Packet} (h : ForUs s p 3) :
    (p.h.kind == 3 && dstHere s p.h.dst.toNat) = true := by
  obtain ⟨_, hkind, hdst⟩ := h
  rw [hdst, Bool.and_true, beq_iff_eq]
  exact BitVec.eq_of_toNat_eq hkind

theorem exec_read {s s0 : State} {p : Packet} (h : ForUs s p 1) (ht : linkTake s p = (s0, true)) :
    exec (.read p) s = .next (consumed (serveRead s0 p) p) :=
  congrArg Host.Outcome.next (arrive_whole (read_mine h) h.1 ht _)

theorem exec_write {s s0 : State} {p : Packet} (h : ForUs s p 3) (ht : linkTake s p = (s0, true)) (hheld : s0.net.held = []) :
    exec (.write p) s = .next (serveWrite s0 p) := by
  have hretry : retryHeld s0 = s0 := by
    unfold retryHeld
    rw [hheld]
    cases s0 with
    | mk _ _ _ _ _ _ _ _ _ _ _ _ net =>
      cases net
      cases hheld
      rfl
  exact congrArg Host.Outcome.next ((arrive_whole (write_mine h) h.1 ht _).trans (by rw [hretry]))

theorem serveRead_refused {s s1 : State} {p : Packet} {st : Nat} (h : fabCheck s p.h false true = (s1, .error st)) :
    serveRead s p = nackTo s1 p.h st := by
  rw [serveRead, h]

theorem serveRead_parcel {s s1 s2 : State} {p : Packet} {k c : Nat} {d : List Byte}
    (h : fabCheck s p.h false true = (s1, .ok (.mem k))) (hr : parcelRaw s1 (k - k % 4096) = (s2, .ok (d, c))) :
    serveRead s p = replyTo s2 p.h 2 0 d c := by
  rw [serveRead, h]
  simp only [hr]

/-- A failure record moves the ring of records and the number of the next alone. -/
theorem cperStore_frame (s : State) (c : Cper) :
    cperStore s c = { s with chk := (cperStore s c).chk, flash := (cperStore s c).flash } ∧
      (cperStore s c).chk.sealEvents = s.chk.sealEvents := by
  unfold cperStore
  extract_lets id f s1
  split
  · exact ⟨rfl, rfl⟩
  · exact ⟨rfl, rfl⟩

theorem cperAdd_frame (s : State) (e k : Nat) (c : Cper) :
    cperAdd s e k c = { s with chk := (cperAdd s e k c).chk, flash := (cperAdd s e k c).flash } ∧
      (cperAdd s e k c).chk.sealEvents = s.chk.sealEvents := by
  unfold cperAdd
  extract_lets c' k' sec f ch
  split
  · exact cperStore_frame _ _
  · split
    · exact ⟨rfl, rfl⟩
    · exact ⟨(cperStore_frame _ _).1.trans rfl, (cperStore_frame _ _).2⟩

/-- A failing seal is counted and recorded: the routes, memory and packets stay. -/
theorem sealEvent_spec (s : State) (u : By) (key loc home : Nat) :
    sealEvent s u key loc home = { s with
        chk := (sealEvent s u key loc home).chk, flash := (sealEvent s u key loc home).flash } ∧
      (sealEvent s u key loc home).chk.sealEvents = inc32 s.chk.sealEvents := by
  unfold sealEvent
  extract_lets c t o
  obtain ⟨h1, h2⟩ := cperAdd_frame t 0x01 key _
  exact ⟨h1.trans rfl, h2⟩

theorem serveWrite_refused {s s1 : State} {p : Packet} {st : Nat} (hfit : p.h.addr.toNat % 4096 + p.data.length ≤ 4096)
    (h : fabCheck s p.h true (p.data.length == 4096) = (s1, .error st)) :
    serveWrite s p = consumed (nackTo s1 p.h st) p := by
  rw [serveWrite, if_neg (by omega), h]

/-- A WRITE that passes the checks waits for a lock, or commits. -/
theorem serveWrite_parcel {s s1 : State} {p : Packet} {k : Nat} (hfit : p.h.addr.toNat % 4096 + p.data.length ≤ 4096)
    (h : fabCheck s p.h true (p.data.length == 4096) = (s1, .ok (.mem k))) :
    serveWrite s p = if readLocked s1 .other k then { s1 with net := { s1.net with held := s1.net.held ++ [p] } }
      else consumed (commitWrite s1 p k) p := by
  rw [serveWrite, if_neg (by omega), h]

theorem commitWrite_sound {s s1 : State} {p : Packet} {k : Nat} (hc : checkOk s p (k - k % 4096) = true)
    (hm : parcelMerge s (k - k % 4096) (k % 4096) p.data fabBy = (s1, none)) :
    commitWrite s p k = replyTo s1 p.h 4 0 [] 0 := by
  rw [commitWrite, if_neg (by simp [hc]), hm]

theorem commitWrite_broken {s : State} {p : Packet} {k : Nat} (hc : checkOk s p (k - k % 4096) = false) :
    commitWrite s p k = nackTo (sealEvent s fabBy k (locCluster 0) (homeOf s (k - k % 4096))) p.h stSeal :=
  if_pos (by simp [hc])

/-- A WRITE whose CHECK fails is turned away, and nothing is written. -/
theorem write_turnedAway {s t : State} {p : Packet} {k : Nat} (hc : checkOk s p (k - k % 4096) = false)
    (hr : Routed s p.h.src) (ht : t = consumed (commitWrite s p k) p) :
    t.store = s.store ∧ t.chk.sealEvents = inc32 s.chk.sealEvents ∧
      ∃ n q, OnPort t n (.packet n q) ∧ q.h.kind = 5 ∧ q.h.status = 0x41 ∧ q.h.tag = p.h.tag := by
  obtain ⟨hframe, hcount⟩ := sealEvent_spec s fabBy k (locCluster 0) (homeOf s (k - k % 4096))
  rw [commitWrite_broken hc] at ht
  generalize sealEvent s fabBy k (locCluster 0) (homeOf s (k - k % 4096)) = s1 at *
  have hr1 : Routed s1 p.h.src := by rw [hframe]; exact hr
  have hans := nackTo_answered hr1 stSeal p
  rw [← ht] at hans
  obtain ⟨ht1, n, q, hput, hkind, hstatus, _, _, htag, _⟩ := hans
  exact ⟨by rw [ht1, hframe], by rw [ht1]; exact hcount, n, q, hput.onPort, hkind, hstatus, htag⟩

/-! ## Packets passing through (R372) -/

theorem exec_packetForward {s s0 : State} {i : Option PortNo} {p : Packet} (hbad : packetBad p = false)
    (hdst : dstHere s p.h.dst.toNat = false) (hi : ∀ m, i = some m → (s.port m).state = 2)
    (ht : linkTake s p = (s0, true)) : exec (.packetForward i p) s = .next (forwardPacket s0 p) := by
  have husable : ¬ i.any (fun n => !portUsable s n) = true := by
    cases i with
    | none => simp
    | some m => simp [portUsable, hi m rfl]
  exact congrArg Host.Outcome.next ((if_neg husable).trans (arrive_whole (by rw [hdst]; rfl) hbad ht _))

theorem forwardPacket_routed {s : State} {p : Packet} {n : Nat} {q : Packet} (httl : 1 < p.h.ttl.toNat)
    (hr : routePacket s { p with h := { p.h with ttl := BitVec.ofNat 8 (p.h.ttl.toNat - 1) } } = some (n, q)) :
    forwardPacket s p = portSend s n q (srcOf p) := by
  unfold forwardPacket
  extract_lets ttl lost
  rw [if_neg (by simp only [ttl, beq_iff_eq]; omega)]
  split
  · next r hr' =>
    obtain rfl : r = (n, q) := Option.some.inj (hr'.symm.trans hr)
    rfl
  · next hnone => exact absurd (hnone.symm.trans hr) (by simp)

/-- A packet sent on has its data, tag and destination, and the TTL it was routed with. -/
theorem routePacket_keeps {s : State} {p q : Packet} {n : Nat} (h : routePacket s p = some (n, q)) :
    q.data = p.data ∧ q.h.ttl = p.h.ttl ∧ q.h.tag = p.h.tag ∧ q.h.dst = p.h.dst := by
  rw [routePacket_eq] at h
  split at h
  · exact absurd h (by simp)
  · obtain ⟨m, _, hm⟩ := Option.bind_eq_some_iff.mp h
    obtain ⟨g, hg, hq⟩ := Option.map_eq_some_iff.mp hm
    obtain ⟨rfl, rfl⟩ := Prod.mk.inj hq
    unfold hopHeader at hg
    extract_lets dim old lower v size cross keep at hg
    split at hg
    · exact absurd hg (by simp)
    · obtain rfl := Option.some.inj hg
      exact ⟨rfl, rfl, rfl, rfl⟩

theorem forwardPacket_lost {s : State} {p : Packet} (httl : p.h.ttl.toNat ≤ 1) :
    forwardPacket s p = consumed (nackSource (dropPacket s) p stLink) p :=
  if_pos (by simp only [beq_iff_eq]; omega)

/-- The source of a packet that is lost here is told, where a route leads back to it. -/
theorem nackSource_told {s : State} {p : Packet} (hsrc : p.h.src.toNat ≠ ownSrc s) (hr : Routed s p.h.src) (status : Nat) :
    nackSource s p status = { s with
        sent := (nackSource s p status).sent, ports := (nackSource s p status).ports } ∧
      ∃ n q, PutOnPort s (nackSource s p status) n (.packet n q) ∧ q.h.kind = 5 ∧ q.h.status = BitVec.ofNat 8 status ∧
        q.h.dst = p.h.src ∧ q.h.tag = p.h.tag := by
  unfold nackSource
  rw [if_neg (by simpa using hsrc)]
  extract_lets b h
  obtain ⟨n, dim, turn, dateline, hroute⟩ := routePacket_of_routed hr (h := h) rfl rfl []
  simp only [hroute]
  refine ⟨?_, n, _, linkSend_put _ _ _, rfl, rfl, rfl, rfl⟩
  rw [portSend, (linkSend_ports _ _ _).frame]

/-! ## Replies at their requester (R358, R360) -/

theorem takeReply_whole {s s0 : State} {p : Packet} {kind : Nat} (h : ForUs s p kind) (ht : linkTake s p = (s0, true))
    (act : State → Req → State) :
    takeReply s p kind act = consumed (match reqOpen s0 p.h.tag.toNat with
      | some r => act s0 r
      | none => lateReply s0 p.h.tag.toNat) p := by
  obtain ⟨hbad, hkind, hdst⟩ := h
  exact (arrive_whole (by rw [hkind, hdst]; simp) hbad ht _).trans rfl

theorem reqOpen_tag {s : State} {tag : Nat} {r : Req} (h : reqOpen s tag = some r) : r.tag = tag := by
  have := List.find?_some h
  simp only [Bool.and_eq_true, beq_iff_eq] at this
  exact this.1

theorem takeReply_open {s s0 : State} {p : Packet} {kind : Nat} {r : Req} (h : ForUs s p kind)
    (ht : linkTake s p = (s0, true)) (hr : reqOpen s0 p.h.tag.toNat = some r) (act : State → Req → State) :
    takeReply s p kind act = consumed (act s0 r) p := by
  rw [takeReply_whole h ht, hr]

theorem takeReply_late {s s0 : State} {p : Packet} {kind : Nat} (h : ForUs s p kind)
    (ht : linkTake s p = (s0, true)) (hr : reqOpen s0 p.h.tag.toNat = none) (act : State → Req → State) :
    takeReply s p kind act = consumed (lateReply s0 p.h.tag.toNat) p := by
  rw [takeReply_whole h ht, hr]

/-! ## The rows -/

theorem read_answered {s s0 s1 : State} {p : Packet} (hfor : ForUs s p 1) (ht : linkTake s p = (s0, true)) :
    (∀ st, fabCheck s0 p.h false true = (s1, .error st) → Routed s1 p.h.src →
      ∃ t, exec (.read p) s = .next t ∧ Answered s1 t p.h 5 st [] 0) ∧
    (∀ k s2 d c, fabCheck s0 p.h false true = (s1, .ok (.mem k)) → parcelRaw s1 (k - k % 4096) = (s2, .ok (d, c)) →
      Routed s2 p.h.src → ∃ t, exec (.read p) s = .next t ∧ Answered s2 t p.h 2 0 d c) := by
  refine ⟨fun st hcheck hr => ⟨_, exec_read hfor ht, ?_⟩, fun k s2 d c hcheck hraw hr => ⟨_, exec_read hfor ht, ?_⟩⟩
  · rw [serveRead_refused hcheck]
    exact nackTo_answered hr st p
  · rw [serveRead_parcel hcheck hraw]
    exact replyTo_answered hr 2 0 d c p

theorem write_answered {s s0 s1 : State} {p : Packet} (hfor : ForUs s p 3) (ht : linkTake s p = (s0, true))
    (hheld : s0.net.held = []) (hfit : p.h.addr.toNat % 4096 + p.data.length ≤ 4096) :
    (∀ st, fabCheck s0 p.h true (p.data.length == 4096) = (s1, .error st) → Routed s1 p.h.src →
      ∃ t, exec (.write p) s = .next t ∧ t.store = s1.store ∧ Answered s1 t p.h 5 st [] 0) ∧
    (∀ k, fabCheck s0 p.h true (p.data.length == 4096) = (s1, .ok (.mem k)) →
      (readLocked s1 .other k = true →
        exec (.write p) s = .next { s1 with net := { s1.net with held := s1.net.held ++ [p] } }) ∧
      (readLocked s1 .other k = false → checkOk s1 p (k - k % 4096) = true →
        ∀ s2, parcelMerge s1 (k - k % 4096) (k % 4096) p.data fabBy = (s2, none) → Routed s2 p.h.src →
        ∃ t, exec (.write p) s = .next t ∧ t.store = s2.store ∧ Answered s2 t p.h 4 0 [] 0) ∧
      (readLocked s1 .other k = false → checkOk s1 p (k - k % 4096) = false → Routed s1 p.h.src →
        ∃ t, exec (.write p) s = .next t ∧ t.store = s1.store ∧
          t.chk.sealEvents = inc32 s1.chk.sealEvents ∧
          ∃ n q, OnPort t n (.packet n q) ∧ q.h.kind = 5 ∧ q.h.status = 0x41 ∧ q.h.tag = p.h.tag)) := by
  have hexec := exec_write hfor ht hheld
  refine ⟨fun st hcheck hr => ?_, fun k hcheck => ?_⟩
  · rw [serveWrite_refused hfit hcheck] at hexec
    exact ⟨_, hexec, (nackTo_answered hr st p).store, nackTo_answered hr st p⟩
  · rw [serveWrite_parcel hfit hcheck] at hexec
    refine ⟨fun hlock => ?_, fun hlock hc s2 hm hr => ?_, fun hlock hc hr => ?_⟩
    · exact hexec.trans (congrArg Host.Outcome.next (if_pos hlock))
    · rw [hlock, if_neg (by decide), commitWrite_sound hc hm] at hexec
      exact ⟨_, hexec, (replyTo_answered hr 4 0 [] 0 p).store, replyTo_answered hr 4 0 [] 0 p⟩
    · rw [hlock, if_neg (by decide)] at hexec
      exact ⟨_, hexec, write_turnedAway hc hr rfl⟩

theorem packet_forwarded {s s0 : State} {i : Option PortNo} {p : Packet} (hbad : packetBad p = false)
    (hdst : dstHere s p.h.dst.toNat = false) (hi : ∀ m, i = some m → (s.port m).state = 2)
    (ht : linkTake s p = (s0, true)) :
    (∀ n q, 1 < p.h.ttl.toNat →
      routePacket s0 { p with h := { p.h with ttl := BitVec.ofNat 8 (p.h.ttl.toNat - 1) } } = some (n, q) →
      ∃ t, exec (.packetForward i p) s = .next t ∧ t = { s0 with sent := t.sent, ports := t.ports } ∧
        PutOnPort s0 t n (.packet n { q with link := none }) ∧ q.data = p.data ∧ q.h.ttl.toNat = p.h.ttl.toNat - 1 ∧
        q.h.tag = p.h.tag ∧ q.h.dst = p.h.dst) ∧
    (p.h.ttl.toNat ≤ 1 → p.h.src.toNat ≠ ownSrc s → Routed s0 p.h.src →
      ∃ t, exec (.packetForward i p) s = .next t ∧
        t = { s0 with fab := { s0.fab with routeDrops := inc32 s.fab.routeDrops }, sent := t.sent, ports := t.ports } ∧
        ∃ n q, PutOnPort s0 t n (.packet n q) ∧ q.h.kind = 5 ∧ q.h.status = BitVec.ofNat 8 stLink ∧ q.h.dst = p.h.src ∧
          q.h.tag = p.h.tag) := by
  have hexec := exec_packetForward hbad hdst hi ht
  have hs0 := linkTake_of_whole ht
  refine ⟨fun n q httl hroute => ?_, fun httl hsrc hr => ?_⟩
  · rw [forwardPacket_routed httl hroute] at hexec
    obtain ⟨hdata, hq, htag, hdest⟩ := routePacket_keeps hroute
    refine ⟨_, hexec, (linkSend_ports _ _ _).frame, linkSend_put _ _ _, hdata, ?_, htag, hdest⟩
    rw [hq, BitVec.toNat_ofNat]
    have := p.h.ttl.isLt
    omega
  · rw [forwardPacket_lost httl] at hexec
    have hsrc0 : p.h.src.toNat ≠ ownSrc (dropPacket s0) := by
      rw [hs0]
      exact hsrc
    obtain ⟨hframe, n, q, hput, hkind, hstatus, hdest, htag⟩ := nackSource_told (s := dropPacket s0) hsrc0 hr stLink
    refine ⟨_, hexec, ?_, n, q, (hput.consumed p).congr_left rfl rfl, hkind, hstatus, hdest, htag⟩
    have hdrops : s0.fab.routeDrops = s.fab.routeDrops := by rw [hs0]
    rw [consumed_frame, hframe, ← hdrops]
    rfl

theorem reply_taken {s s0 : State} {p : Packet} (ht : linkTake s p = (s0, true)) {r : Req}
    (hr : reqOpen s0 p.h.tag.toNat = some r) :
    (ForUs s p 2 → r.reg = true ∨ sealOf r.addr p.data = p.h.check.toNat →
      exec (.readData p) s = .next (consumed (reqReply s0 p.h.tag.toNat 0 p.data) p)) ∧
    (ForUs s p 2 → r.reg = false → sealOf r.addr p.data ≠ p.h.check.toNat →
      ∃ t, exec (.readData p) s = .next t ∧ t.net = (reqReply s0 r.tag stSeal []).net ∧
        t.chk.sealEvents = inc32 s.chk.sealEvents) ∧
    (ForUs s p 4 → exec (.writeAck p) s = .next (consumed (reqReply s0 p.h.tag.toNat 0 []) p)) ∧
    (ForUs s p 5 → exec (.nack p) s = .next (consumed (reqReply s0 p.h.tag.toNat p.h.status.toNat []) p)) := by
  have htag := reqOpen_tag hr
  refine ⟨fun hfor hok => ?_, fun hfor hreg hseal => ?_, fun hfor => ?_, fun hfor => ?_⟩
  · refine congrArg Host.Outcome.next ((takeReply_open hfor ht hr _).trans ?_)
    have hgood : (!r.reg && sealOf r.addr p.data != p.h.check.toNat) = false := by
      rcases hok with h | h
      · rw [h]; rfl
      · rw [h, bne_self_eq_false, Bool.and_false]
    rw [hgood, htag]
    rfl
  · refine ⟨_, congrArg Host.Outcome.next ((takeReply_open hfor ht hr _).trans
      (congrArg (consumed · p) (if_pos (by simp [hreg, hseal])))), ?_, ?_⟩
    · rw [consumed_frame]
      change (reqReply (sealEvent s0 fabBy r.addr 0 r.addr) r.tag stSeal []).net = _
      rw [(sealEvent_spec s0 fabBy r.addr 0 r.addr).1]
      rfl
    · rw [consumed_frame]
      refine (sealEvent_spec s0 fabBy r.addr 0 r.addr).2.trans ?_
      rw [linkTake_of_whole ht]
  · rw [← htag]
    exact congrArg Host.Outcome.next (takeReply_open hfor ht hr _)
  · rw [← htag]
    exact congrArg Host.Outcome.next (takeReply_open hfor ht hr _)

/-- Settles O40: a lemma for each way a packet arrives, put together; the time-out is direct. -/
theorem fabricPackets : Obligations.FabricPackets := by
  unfold Obligations.FabricPackets
  refine ⟨⟨fun s s0 s1 p hfor ht => read_answered hfor ht, fun s s0 s1 p hfor ht hheld hfit => write_answered hfor ht hheld hfit,
      fun s s0 i p hbad hdst hi ht => packet_forwarded hbad hdst hi ht⟩,
    fun s s0 p ht => ⟨fun r hr => reply_taken ht hr, fun hr _ => ⟨_, rfl, fun hfor => ?_, fun hfor => ?_, fun hfor => ?_⟩⟩,
    fun s tag r hr hlate => ?_⟩
  · exact congrArg Host.Outcome.next (takeReply_late hfor ht hr _)
  · exact congrArg Host.Outcome.next (takeReply_late hfor ht hr _)
  · exact congrArg Host.Outcome.next (takeReply_late hfor ht hr _)
  · have hexec : exec (.remoteRequestTimeout tag) s = execRemoteRequestTimeout tag s := rfl
    rw [hexec, execRemoteRequestTimeout, hr]
    exact congrArg Host.Outcome.next (if_neg (by omega))

end Sys2Proof.Machine
end

section
/-! PROOF. The governor's caps, intervals, windows, minutes and forecasts, and the pacer (spec/21 R524 to R537, spec/02 R47):
the obligation O45. -/

namespace Sys2Proof.Machine

/-! ## Caps (R527 to R529) -/

theorem capOrVariant_eq (variant v : Nat) :
    capOrVariant variant v = if v = 0 ∨ variant < v then variant else v := by
  simp [capOrVariant]

/-- A cap just asked for is in force from the next window of its kind on. -/
theorem capAt_capPush (l : List (Nat × Nat)) {w pm t : Nat} (cap variant : Nat) (h : (pm / w + 1) * w ≤ t) :
    capAt (capPush l w pm cap) w variant t = cap := by
  unfold capAt capPush
  rw [List.find?_cons_of_pos (by simpa using h)]

/-- A quotient with no remainder is exact, and takes nothing free. -/
theorem roundFree_exact (s : State) {a b : Nat} (h : a % b = 0) : roundFree s a b = (a / b, s) :=
  if_pos (by simp [h])

theorem roundFree_frame (s : State) (a b : Nat) : (roundFree s a b).2 = { s with free := (roundFree s a b).2.free } := by
  unfold roundFree
  split
  · rfl
  · rfl

/-! ## Intervals (R524 to R531) -/

theorem kget_foldl_range {α : Type} [DecidableEq α] (d : α) (f : Nat → α) (m : KMap α) (n j : Nat) :
    kget d ((List.range n).foldl (fun m j => kset d m j (f j)) m) j = if j < n then f j else kget d m j := by
  induction n with
  | zero => simp
  | succ n ih =>
    rw [List.range_succ, List.foldl_append, List.foldl_cons, List.foldl_nil, kget_kset, ih]
    by_cases hj : n = j
    · rw [if_pos hj, if_pos (by omega), hj]
    · rw [if_neg hj]
      by_cases hlt : j < n
      · rw [if_pos hlt, if_pos (by omega)]
      · rw [if_neg hlt, if_neg (by omega)]

theorem getD_map_range (f : Nat → Nat) {n j : Nat} (h : j < n) (d : Nat) : ((List.range n).map f).getD j d = f j := by
  simp [List.getD, h]

/-- Grants fit their field, and a tile at step 2 has none. -/
theorem grantsOf_bounds (b : Nat) (steps demand : List Nat) {t : Nat} (ht : t < 8) :
    (grantsOf b steps demand).getD t 0 ≤ 65535 ∧ (2 ≤ steps.getD t 0 → (grantsOf b steps demand).getD t 0 = 0) := by
  unfold grantsOf
  extract_lets ok d sum share left
  rw [getD_map_range _ ht]
  refine ⟨Nat.min_le_left _ _, fun h2 => ?_⟩
  have hok : ok t = false := decide_eq_false (by omega)
  have hshare : share t = 0 := if_pos (by simp [hok])
  rw [hshare, hok]
  rfl

/-- The sums an interval takes in. -/
structure Sampled (s t : State) (energy : Nat) : Prop where
  frame : t = { s with power := t.power, prun := t.prun, free := t.free }
  lastSample : t.power.lastSample = energy
  minuteE : t.prun.minuteE = s.prun.minuteE + energy
  windowE : t.prun.windowE = s.prun.windowE + energy
  minuteN : t.prun.minuteN = s.prun.minuteN + 1
  nextIv : t.prun.nextIv = s.now / 1000000 + 1
  tiles : t.power.tiles = s.power.tiles

theorem addSample_sampled (s : State) (x : PowerSample) : Sampled s (addSample s x) x.energy := by
  unfold addSample
  extract_lets p shorts e q a b
  have ha : a = { s with free := a.free } := roundFree_frame _ _ _
  have hb : b.tiles = s.power.tiles := by
    change a.power.tiles = _
    rw [ha]
  clear_value a b
  refine ⟨?_, rfl, rfl, rfl, rfl, rfl, hb⟩
  rw [ha]

theorem setPwrFlag_frame (s : State) (bit : Nat) (c : Bool) :
    setPwrFlag s bit c = { s with power := { s.power with flags := (setPwrFlag s bit c).power.flags } } := by
  unfold setPwrFlag
  split
  · rfl
  · rfl

theorem Sampled.flagged {s t : State} {e : Nat} (h : Sampled s t e) (bit : Nat) (c : Bool) :
    Sampled s (setPwrFlag t bit c) e := by
  have hf := setPwrFlag_frame t bit c
  refine ⟨?_, ?_, ?_, ?_, ?_, ?_, ?_⟩
  · rw [hf, h.frame]
  · rw [hf]; exact h.lastSample
  · rw [hf]; exact h.minuteE
  · rw [hf]; exact h.windowE
  · rw [hf]; exact h.minuteN
  · rw [hf]; exact h.nextIv
  · rw [hf]; exact h.tiles

theorem setPwrFlag_temps (s : State) (bit : Nat) (c : Bool) : (setPwrFlag s bit c).power.temps = s.power.temps := by
  rw [setPwrFlag_frame]

/-- The state in which an interval's grants are made, and its tiles judged. -/
def intervalSampled (s : State) (x : PowerSample) (temps : List Int) : State :=
  setPwrFlag (setPwrFlag (setTemps (addSample s x) temps) 3 (decide (16 * 45 < temps.getD 52 0))) 4
    (decide (temps.getD 52 0 < 16 * 15))

theorem intervalSampled_sampled (s : State) (x : PowerSample) (temps : List Int) :
    Sampled s (intervalSampled s x temps) x.energy := by
  have h := addSample_sampled s x
  have ht : Sampled s (setTemps (addSample s x) temps) x.energy := by
    unfold setTemps
    exact ⟨by rw [h.frame], h.lastSample, h.minuteE, h.windowE, h.minuteN, h.nextIv, h.tiles⟩
  exact (ht.flagged _ _).flagged _ _

theorem intervalSampled_temps (s : State) (x : PowerSample) (temps : List Int) {j : Nat} (hj : j < 64) :
    kget 0 (intervalSampled s x temps).power.temps j = temps.getD j 0 := by
  rw [intervalSampled, setPwrFlag_temps, setPwrFlag_temps, setTemps]
  exact (kget_foldl_range 0 (fun j => temps.getD j 0) _ 64 j).trans (if_pos hj)

/-- The step of a tile after its die sensors have been read. -/
def tileStepOf (s : State) (temps : List Int) (t : Nat) : Nat :=
  tileStepAfter (ptile s t).step (maxOf ((List.range 6).map (fun k => temps.getD (6 * t + k) 0)))

theorem startInterval_frame (s : State) (x : PowerSample) (temps : List Int) :
    startInterval s x temps = { s with
      power := { s.power with
        tiles := (startInterval s x temps).power.tiles, flags := (startInterval s x temps).power.flags }
      prun := { s.prun with thermal := (startInterval s x temps).prun.thermal } } := by
  unfold startInterval
  extract_lets i drawn r me we a b steps grants entered tiles pw pr s1
  rw [setPwrFlag_frame]

theorem tileInterval_spec {s : State} {x : PTile} {t grant step drawn v : Nat} {short : Bool} (hstep : step = v)
    (hle : grant ≤ 65535) (hzero : 2 ≤ step → grant = 0) :
    (tileInterval s x t grant step drawn short).step = v ∧ (tileInterval s x t grant step drawn short).grant ≤ 65535 ∧
      (2 ≤ (tileInterval s x t grant step drawn short).step → (tileInterval s x t grant step drawn short).grant = 0) :=
  ⟨hstep, hle, hzero⟩

/-- The tiles of an interval, by their grants and steps. -/
def intervalTiles (s : State) (x : PowerSample) (grants steps : List Nat) : KMap PTile :=
  (List.range 8).foldl (fun m t => kset {} m t
    (tileInterval s (ptile s t) t (grants.getD t 0) (steps.getD t 0) (x.drawn.getD t 0) (x.ranShort.getD t false)))
    s.power.tiles

theorem kget_intervalTiles (s : State) (x : PowerSample) (grants steps : List Nat) {t : Nat} (ht : t < 8) :
    kget {} (intervalTiles s x grants steps) t =
      tileInterval s (ptile s t) t (grants.getD t 0) (steps.getD t 0) (x.drawn.getD t 0) (x.ranShort.getD t false) :=
  (kget_foldl_range {} (fun t => tileInterval s (ptile s t) t (grants.getD t 0) (steps.getD t 0) (x.drawn.getD t 0)
    (x.ranShort.getD t false)) s.power.tiles 8 t).trans (if_pos ht)

theorem startInterval_tiles (s : State) (x : PowerSample) (temps : List Int) :
    ∃ b demand, (startInterval s x temps).power.tiles = intervalTiles s x
      (grantsOf b ((List.range 8).map (tileStepOf s temps)) demand) ((List.range 8).map (tileStepOf s temps)) := by
  unfold startInterval
  extract_lets i drawn r me we a b steps grants entered tiles pw pr s1
  have htiles : (setPwrFlag s1 2 entered).power.tiles = tiles := by rw [setPwrFlag_frame]
  exact ⟨_, _, htiles⟩

theorem startInterval_tile (s : State) (x : PowerSample) (temps : List Int) {t : Nat} (ht : t < 8) :
    (ptile (startInterval s x temps) t).step = tileStepOf s temps t ∧
      (ptile (startInterval s x temps) t).grant ≤ 65535 ∧
      (2 ≤ (ptile (startInterval s x temps) t).step → (ptile (startInterval s x temps) t).grant = 0) := by
  obtain ⟨b, demand, htiles⟩ := startInterval_tiles s x temps
  obtain ⟨hle, hzero⟩ := grantsOf_bounds b ((List.range 8).map (tileStepOf s temps)) demand ht
  have hstep : ((List.range 8).map (tileStepOf s temps)).getD t 0 = tileStepOf s temps t := getD_map_range _ ht 0
  rw [ptile, htiles, kget_intervalTiles _ _ _ _ ht]
  exact tileInterval_spec hstep hle hzero

/-! ## The events -/

/-- What the sample holds of the temperatures does not depend on the draws. -/
theorem exec_powerInterval {s : State} {x : PowerSample} {temps : List Int} (hdue : intervalDue s = true)
    (htemps : temps = (List.range 64).map (fun j => x.temps.getD j 0 + sensorOffset s (64 + j))) :
    exec (.powerInterval x) s = .next (if (tripping temps).isEmpty then
      startInterval (intervalSampled s (boundDraws s x) temps) (boundDraws s x) temps
      else thermalTrip (intervalSampled s (boundDraws s x) temps) (tripping temps)) := by
  subst htemps
  exact congrArg Host.Outcome.next (if_neg (by simp [hdue]))

theorem tileStepOf_sampled (s : State) (x : PowerSample) (temps : List Int) (t : Nat) :
    tileStepOf (intervalSampled s x temps) temps t = tileStepOf s temps t := by
  rw [tileStepOf, tileStepOf, ptile, ptile, (intervalSampled_sampled s x temps).tiles]

/-- An interval in which nothing trips (R524 to R531). -/
theorem powerInterval_granted {s : State} {x : PowerSample} {temps : List Int} (hdue : intervalDue s = true)
    (htemps : temps = (List.range 64).map (fun j => x.temps.getD j 0 + sensorOffset s (64 + j))) (hcool : tripping temps = []) :
    ∃ t, exec (.powerInterval x) s = .next t ∧ t = { s with power := t.power, prun := t.prun, free := t.free } ∧
      t.power.lastSample = x.energy ∧ t.prun.minuteE = s.prun.minuteE + x.energy ∧
      t.prun.windowE = s.prun.windowE + x.energy ∧ t.prun.minuteN = s.prun.minuteN + 1 ∧
      t.prun.nextIv = s.now / 1000000 + 1 ∧ (∀ j, j < 64 → kget 0 t.power.temps j = temps.getD j 0) ∧
      ∀ j, j < 8 → (ptile t j).step = tileStepAfter (ptile s j).step
          (maxOf ((List.range 6).map (fun k => temps.getD (6 * j + k) 0))) ∧
        (ptile t j).grant ≤ 65535 ∧ (2 ≤ (ptile t j).step → (ptile t j).grant = 0) := by
  have hexec := exec_powerInterval hdue htemps
  rw [hcool] at hexec
  have hsum := intervalSampled_sampled s (boundDraws s x) temps
  have htemp {j : Nat} (hj : j < 64) := intervalSampled_temps s (boundDraws s x) temps hj
  have hstep (j : Nat) := tileStepOf_sampled s (boundDraws s x) temps j
  have htile {j : Nat} (hj : j < 8) :=
    startInterval_tile (intervalSampled s (boundDraws s x) temps) (boundDraws s x) temps hj
  have hstart := startInterval_frame (intervalSampled s (boundDraws s x) temps) (boundDraws s x) temps
  generalize intervalSampled s (boundDraws s x) temps = u at *
  generalize startInterval u (boundDraws s x) temps = t at *
  refine ⟨t, hexec, ?_, ?_, ?_, ?_, ?_, ?_, fun j hj => ?_, fun j hj => ?_⟩
  · rw [hstart, hsum.frame]
  · rw [hstart]; exact hsum.lastSample
  · rw [hstart]; exact hsum.minuteE
  · rw [hstart]; exact hsum.windowE
  · rw [hstart]; exact hsum.minuteN
  · rw [hstart]; exact hsum.nextIv
  · rw [hstart]; exact htemp hj
  · obtain ⟨h1, h2, h3⟩ := htile hj
    exact ⟨h1.trans (hstep j), h2, h3⟩

/-- An interval whose sensors trip the module (R537). -/
theorem powerInterval_trips {s : State} {x : PowerSample} {temps : List Int} {r : Nat × Int} (hdue : intervalDue s = true)
    (htemps : temps = (List.range 64).map (fun j => x.temps.getD j 0 + sensorOffset s (64 + j))) (hhot : tripping temps = [r]) :
    ∃ t, exec (.powerInterval x) s = .next t ∧ t.pins.tripped = true ∧ t.pins.alertN = false ∧ t.flash.trip = some r ∧
      t.ledger = [] := by
  have hexec := exec_powerInterval hdue htemps
  rw [hhot] at hexec
  refine ⟨_, hexec, rfl, rfl, ?_, rfl⟩
  have hone (n : Nat) : ([r] : List (Nat × Int)).getD (n % 1) r = r := by rw [Nat.mod_one]; rfl
  exact congrArg some (hone _)

/-- A window of the peak cap that has ended (R527). -/
theorem peakWindow_closed {s : State} (hover : windowOver s windowNs s.prun.winIdx = true) (hwhole : s.prun.windowE % 100 = 0) :
    ∃ t, exec .peakWindowClose s = .next t ∧ t = { s with power := t.power, prun := t.prun } ∧
      t.power.nowPeak = s.prun.windowE / 100 ∧ t.prun.windowE = 0 ∧ t.prun.winIdx = s.now / windowNs ∧
      t.prun.minutePeak = max s.prun.minutePeak (s.prun.windowE / 100) ∧
      (peakCapAt s (s.prun.winIdx * windowNs) * 100 < s.prun.windowE → t.power.flags = s.power.flags ||| 2) ∧
      (s.prun.windowE ≤ peakCapAt s (s.prun.winIdx * windowNs) * 100 → t.power.flags = s.power.flags) := by
  have hexec : exec .peakWindowClose s = execPeakWindowClose s := rfl
  rw [hexec, execPeakWindowClose, if_neg (by simp [hover])]
  extract_lets p q s1 pw
  have hq : q = (s.prun.windowE / 100, s) := roundFree_exact s hwhole
  have hs1 : s1 = setPwrFlag s 1 (decide (peakCapAt s (p.winIdx * windowNs) * 100 < p.windowE)) := by
    rw [show s1 = setPwrFlag q.2 1 (decide (peakCapAt s (p.winIdx * windowNs) * 100 < p.windowE)) from rfl, hq]
  have hframe : s1 = { s with power := { s.power with flags := s1.power.flags } } := by
    rw [hs1]
    exact setPwrFlag_frame _ _ _
  refine ⟨_, rfl, ?_, ?_, rfl, rfl, ?_, fun h => ?_, fun h => ?_⟩
  · clear_value s1
    rw [hframe]
  · exact congrArg Prod.fst hq
  · exact congrArg (max s.prun.minutePeak) (congrArg Prod.fst hq)
  · change s1.power.flags = _
    rw [hs1, setPwrFlag, if_pos (decide_eq_true h)]
    rfl
  · change s1.power.flags = _
    rw [hs1, setPwrFlag, if_neg (by simpa using h)]

/-- A minute that has ended goes into the ledger (R532). -/
theorem minute_closed {s : State} (hover : windowOver s minuteNs s.prun.minuteIdx = true)
    (hwin : (s.prun.minuteIdx + 1) * 600 ≤ s.prun.winIdx) (hwhole : s.prun.minuteE % 60000 = 0) :
    ∃ t e, exec .minuteClose s = .next t ∧ t = { s with power := t.power, prun := t.prun, free := t.free } ∧
      kget none t.power.ledger (s.prun.minuteIdx % 60) = some e ∧ e.minute = s.prun.minuteIdx % 2 ^ 32 ∧
      e.mean = s.prun.minuteE / 60000 ∧ e.peak = s.prun.minutePeak ∧ e.forecast = s.prun.minuteFore ∧
      e.cap = minCapAt s (s.prun.minuteIdx * minuteNs) ∧
      t.power.ledgerTail = (s.power.ledgerTail + 1) % 2 ^ 32 ∧ t.prun.minuteIdx = s.now / minuteNs ∧
      t.prun.minuteE = 0 ∧ t.prun.minuteN = 0 := by
  have hexec : exec .minuteClose s = execMinuteClose s := rfl
  rw [hexec, execMinuteClose, if_neg (by simp [hover]; omega)]
  extract_lets q w f ent s1 pw
  have hq : q = (s.prun.minuteE / 60000, s) := roundFree_exact s hwhole
  have hw : w.2 = { s with free := w.2.free } := by
    rw [show w = roundFree q.2 (100 * s.prun.waitN) (8 * s.prun.minuteN) from rfl, hq]
    exact roundFree_frame _ _ _
  have hs1 : s1 = { s with power := { s.power with flags := s1.power.flags }, free := s1.free } := by
    rw [show s1 = _ from setPwrFlag_frame _ _ _, show f.2 = { w.2 with free := w.2.free + 1 } from rfl, hw]
  refine ⟨_, ent, rfl, ?_, kget_kset_same none s1.power.ledger (s.prun.minuteIdx % 60) (some ent), rfl, congrArg Prod.fst hq, rfl, rfl, rfl, ?_, rfl, rfl, rfl⟩
  · clear_value s1
    rw [hs1]
  · change (s1.power.ledgerTail + 1) % 2 ^ 32 = _
    rw [hs1]

/-- The forecast under the cap (R533). -/
theorem forecast_made {s : State} (hrun : s.time.running = true) (hsec : s.prun.nextSec ≠ s.now / 1000000000 + 1)
    (hmin : s.now / minuteNs ≤ s.prun.minuteIdx) {m : Nat}
    (hm : (if s.power.plan.toNat.testBit 31 then (field s.power.plan.toNat 0 16, s) else meanDraw s) = (m, s)) :
    ∃ t, exec .forecastRecompute s = .next t ∧ t = { s with power := t.power, prun := t.prun } ∧
      t.power.forecast = min (minCapAt s ((s.now / minuteNs + 1) * minuteNs)) m := by
  have hexec : exec .forecastRecompute s = execForecastRecompute s := rfl
  rw [hexec, execForecastRecompute, if_neg (by simp [hrun, hsec]; omega)]
  dsimp only
  rw [hm]
  exact ⟨_, rfl, rfl, rfl⟩

/-- The pacer's count at the end of a beat window (R47). -/
theorem beatWindow_updated {s : State} {t : Tile} {w : BeatWindow} (hrun : s.time.running = true)
    (hdue : (s.tile t).beatWin < s.now / 1000) :
    ∃ u, exec (.beatWindowUpdate t w) s = .next u ∧ u = { s with core := { s.core with tiles := u.core.tiles } } ∧
      (∀ j, j ≠ t.val → u.tile j = s.tile j) ∧
      (u.tile t).beatCount = ((s.tile t).beatCount + min (s.tile t).beatsDone
        (variantBeats * 256 * (s.now / 1000 - (s.tile t).beatWin))) % 2 ^ 64 ∧
      (u.tile t).beatWin = s.now / 1000 ∧
      (u.tile t).minRate ≤ variantBeats ∧ (u.tile t).meanRate ≤ variantBeats ∧
      (awakeCount s t ≠ 0 → (u.tile t).minRate = min variantBeats w.minRate.toNat ∧
        (u.tile t).meanRate = min variantBeats w.meanRate.toNat) := by
  have hexec : exec (.beatWindowUpdate t w) s = execBeatWindowUpdate t w s := rfl
  rw [hexec, execBeatWindowUpdate, if_neg (by simp [hrun]; omega)]
  have hcap (n v : Nat) : (if n == 0 then 0 else min variantBeats v) ≤ variantBeats := by
    split
    · exact Nat.zero_le _
    · exact Nat.min_le_left _ _
  refine ⟨_, rfl, rfl, fun j hj => State.tile_setTile_ne _ _ _ _ (Ne.symm hj), ?_⟩
  rw [State.tile_setTile_same]
  refine ⟨rfl, rfl, hcap _ _, hcap _ _, fun hn => ⟨if_neg (by simpa using hn), if_neg (by simpa using hn)⟩⟩

/-- Settles O45: a lemma for each event of the governor, put together. -/
theorem powerGovernor : Obligations.PowerGovernor := by
  unfold Obligations.PowerGovernor
  refine ⟨fun s m v hg => ?_,
    fun s x temps hdue htemps => ⟨powerInterval_granted hdue htemps, fun r => powerInterval_trips hdue htemps⟩,
    fun s => peakWindow_closed, fun s => minute_closed, fun s hrun hsec hmin => ⟨fun hplan => ?_, fun l hplan hl hne hwhole => ?_⟩,
    fun s t w => beatWindow_updated⟩
  · refine ⟨_, congrArg Host.Outcome.next (gated_ok hg _), ?_, fun τ hτ => ?_, fun τ hτ => ?_⟩
    · rw [actPowerCap, requestCaps, BitVec.ofNat_toNat, BitVec.setWidth_eq]
    · refine (capAt_capPush _ _ _ hτ).trans ?_
      rw [capOrVariant_eq]
      simp [field]
    · have hfield : field v.toNat 16 16 = v.toNat / 2 ^ 16 := by
        simp only [field]
        exact Nat.mod_eq_of_lt (by have := v.isLt; omega)
      refine (capAt_capPush _ _ _ hτ).trans ?_
      rw [capOrVariant_eq, hfield]
  · have h := forecast_made hrun hsec hmin (if_pos hplan)
    have hfield : field s.power.plan.toNat 0 16 = s.power.plan.toNat % 2 ^ 16 := by simp [field]
    rwa [hfield] at h
  · subst hl
    refine forecast_made hrun hsec hmin ((if_neg (by simp [hplan])).trans ?_)
    rw [meanDraw, if_neg (by simpa using hne)]
    exact roundFree_exact s hwhole

end Sys2Proof.Machine
end

section
/-! PROOF. Scrubbing, the remap ladder, temperatures and the records in flash (spec/12 R312 to R322, spec/18 R460): the
obligation O44. -/

namespace Sys2Proof.Machine

/-! ## Codewords met by the scrubber (R312) -/

/-- From x to y a stack's codewords were met and corrected: its tables of rows and pages stay. -/
structure StackMet (x y : StackS) : Prop where
  rows : y.rows = x.rows
  spares : y.spares = x.spares
  remaps : y.remaps = x.remaps
  rmpEpoch : y.rmpEpoch = x.rmpEpoch

theorem StackMet.refl (x : StackS) : StackMet x x := ⟨rfl, rfl, rfl, rfl⟩

theorem StackMet.trans {x y z : StackS} (h1 : StackMet x y) (h2 : StackMet y z) : StackMet x z :=
  ⟨h2.rows.trans h1.rows, h2.spares.trans h1.spares, h2.remaps.trans h1.remaps, h2.rmpEpoch.trans h1.rmpEpoch⟩

theorem sendTrigger_met (x : StackS) (q : Nat) : StackMet x (sendTrigger x q) := by
  unfold sendTrigger
  split
  · exact .refl x
  · split
    · exact ⟨rfl, rfl, rfl, rfl⟩
    · exact ⟨rfl, rfl, rfl, rfl⟩

theorem countRow_met (x : StackS) (q : Nat) : StackMet x (countRow x q) := by
  unfold countRow
  extract_lets c low
  split
  · exact ⟨rfl, rfl, rfl, rfl⟩
  · exact ⟨rfl, rfl, rfl, rfl⟩

/-- From s to t one stack's codewords were met: its table of errors, its triggers and counts, and the failure records. -/
structure Met (s t : State) (k : Nat) : Prop where
  frame : t = { s with store := { s.store with stks := t.store.stks }, chk := t.chk, flash := t.flash }
  stack : StackMet (s.stk k) (t.stk k)

namespace Met

theorem refl (s : State) (k : Nat) : Met s s k := ⟨rfl, .refl _⟩

theorem trans {s t u : State} {k : Nat} (h1 : Met s t k) (h2 : Met t u k) : Met s u k := by
  refine ⟨?_, h1.stack.trans h2.stack⟩
  rw [h2.frame, h1.frame]

theorem setStk {s : State} {k : Nat} {x : StackS} (h : StackMet (s.stk k) x) : Met s (s.setStk k x) k :=
  ⟨rfl, by rw [State.stk_setStk_same]; exact h⟩

theorem cperAdd (s : State) (k e key : Nat) (c : Cper) : Met s (cperAdd s e key c) k := by
  obtain ⟨h, _⟩ := cperAdd_frame s e key c
  refine ⟨?_, ?_⟩
  · rw [h]
  · rw [h]
    exact .refl _

theorem bytes {s t : State} {k : Nat} (h : Met s t k) : t.store.bytes = s.store.bytes := by rw [h.frame]
theorem core {s t : State} {k : Nat} (h : Met s t k) : t.core = s.core := by rw [h.frame]
theorem ledger {s t : State} {k : Nat} (h : Met s t k) : t.ledger = s.ledger := by rw [h.frame]

end Met

/-- A stack's record is set and a failure record raised. -/
theorem Met.raised {s : State} {k : Nat} {x : StackS} (h : StackMet (s.stk k) x) (e key : Nat) (c : Cper) :
    Met s (Machine.cperAdd (s.setStk k x) e key c) k := (Met.setStk h).trans (.cperAdd _ _ _ _ _)

theorem meetCodeword_met (s : State) (k q cw : Nat) : Met s (meetCodeword s k q cw).1 k := by
  unfold meetCodeword
  extract_lets x e _ lostRow
  split
  · exact .refl s k
  · split
    · split
      · exact .refl s k
      · extract_lets x1 x2 s1
        have hx1 : StackMet x x1 := by
          refine StackMet.trans ?_ (countRow_met _ q)
          exact ⟨rfl, rfl, rfl, rfl⟩
        have hx2 : StackMet x1 x2 := by
          subst x2
          split
          · exact sendTrigger_met _ _
          · exact .refl _
        show Met s s1 k
        exact Met.raised (hx1.trans hx2) _ _ _
    · dsimp only
      refine Met.raised (StackMet.trans ?_ (sendTrigger_met _ q)) _ _ _
      exact ⟨rfl, rfl, rfl, rfl⟩

theorem scrubParcel_met (n : Nat) (s : State) (k q : Nat) : Met s (scrubParcel n s k q) k := by
  induction n with
  | zero => exact .refl s k
  | succ n ih =>
    have h := ih.trans (meetCodeword_met (scrubParcel n s k q) k q n)
    unfold scrubParcel
    extract_lets s1
    generalize hm : meetCodeword s1 k q n = m
    rw [show meetCodeword (scrubParcel n s k q) k q n = m from hm] at h
    obtain ⟨s2, res, lost⟩ := m
    cases lost with
    | true => exact h
    | false => exact h.trans (.setStk ⟨rfl, rfl, rfl, rfl⟩)

/-! ## The scrubber's step (R312) -/

theorem scrubStep_moves {s : State} {k : StackNo} (errs : List SymErr) (hruns : scrubRuns s (s.stk k) = true) :
    ∃ t, exec (.scrubStep k errs) s = .next t ∧ t.store.bytes = s.store.bytes ∧ t.core = s.core ∧
      t.ledger = s.ledger ∧
      (t.stk k).nextQ = (if (s.stk k).nextQ + 1 < stackParcels then (s.stk k).nextQ + 1 else 0) := by
  have hexec : exec (.scrubStep k errs) s = execScrubStep k errs s := rfl
  rw [hexec, execScrubStep]
  extract_lets s0 x s1 y q
  have hx : x = addErrs (s.stk k) errs := State.stk_setStk_same _ _ _
  have hgo : scrubRuns s0 x = true := by rw [hx]; exact hruns
  have hs0 : Met s s0 k := .setStk ⟨rfl, rfl, rfl, rfl⟩
  have hs1 : Met s s1 k := by
    subst s1
    split
    · exact hs0
    · exact hs0.trans (scrubParcel_met _ _ _ _)
  have hq : q = if (s.stk k).nextQ + 1 < stackParcels then (s.stk k).nextQ + 1 else 0 := by
    have hnext : x.nextQ = (s.stk k).nextQ := by rw [hx]; rfl
    rw [← hnext]
  refine ⟨_, congrArg Host.Outcome.next (if_neg (by simp [hgo])), hs1.bytes, hs1.core, hs1.ledger, ?_⟩
  exact (congrArg StackS.nextQ (State.stk_setStk_same _ _ _)).trans hq

/-! ## The remap ladder (R315 to R319) -/

/-- A trigger served is one fewer. -/
def triggerServed (s : State) (k q : Nat) : State :=
  s.setStk k { s.stk k with triggers := (s.stk k).triggers.filter (fun t => t != q) }

theorem exec_remapService {s : State} {k : StackNo} {q : Nat} {rest : List Nat} (h : (s.stk k).triggers = q :: rest) :
    exec (.remapService k) s = .next (triggerServed
      (match (if (rowMap (s.stk k) q).rung ≤ 2 then freeSpare (s.stk k) (bankKey q) else none) with
        | some i => moveMemRow s k q i
        | none => retirePage s k q) k q) := by
  have hexec : exec (.remapService k) s = execRemapService k s := rfl
  rw [hexec, execRemapService, h]
  rfl

/-- The oldest trigger's row moves into a spare where one is free. -/
theorem exec_remapService_moves {s : State} {k : StackNo} {q i : Nat} {rest : List Nat} (h : (s.stk k).triggers = q :: rest)
    (hrung : (rowMap (s.stk k) q).rung ≤ 2) (hfree : freeSpare (s.stk k) (bankKey q) = some i) :
    exec (.remapService k) s = .next (triggerServed (moveMemRow s k q i) k q) := by
  rw [exec_remapService h, if_pos hrung, hfree]

/-- With no spare left, or at the ladder's top, its page is retired. -/
theorem exec_remapService_retires {s : State} {k : StackNo} {q : Nat} {rest : List Nat} (h : (s.stk k).triggers = q :: rest)
    (hno : 3 ≤ (rowMap (s.stk k) q).rung ∨ freeSpare (s.stk k) (bankKey q) = none) :
    exec (.remapService k) s = .next (triggerServed (retirePage s k q) k q) := by
  have hnone : (if (rowMap (s.stk k) q).rung ≤ 2 then freeSpare (s.stk k) (bankKey q) else none) = none := by
    rcases hno with h | h
    · exact if_neg (by omega)
    · rw [h]
      exact ite_self none
  rw [exec_remapService h, hnone]

theorem triggerServed_stk (s : State) (k q : Nat) : (triggerServed s k q).stk k =
    { s.stk k with triggers := (s.stk k).triggers.filter (fun t => t != q) } := State.stk_setStk_same _ _ _

theorem triggerServed_gone (s : State) (k q : Nat) : q ∉ ((triggerServed s k q).stk k).triggers := by
  rw [triggerServed_stk]
  simp

/-- A stack's record after a row has moved into a spare. -/
structure RowMovedUp (x y : StackS) (q spare : Nat) : Prop where
  row : rowMap y q = { rowMap x q with rung := (rowMap x q).rung + 1, spare := spare }
  remaps : y.remaps = inc32 x.remaps
  rmpEpoch : y.rmpEpoch = !x.rmpEpoch
  copyDue : y.copyDue = true

theorem moveMemRow_spec (s : State) (k q spare : Nat) :
    (moveMemRow s k q spare).store.bytes = s.store.bytes ∧ (moveMemRow s k q spare).ledger = s.ledger ∧
      RowMovedUp (s.stk k) ((moveMemRow s k q spare).stk k) q spare := by
  have hs1 := scrubParcel_met 64 s k q
  unfold moveMemRow
  generalize scrubParcel 64 s k q = s1 at hs1
  extract_lets s2 x b r y
  have hrow : r = rowMap (s.stk k) q := congrArg (fun m => kget ({} : RowMap) m q) hs1.stack.rows
  have hy : RowMovedUp (s.stk k) y q spare :=
    ⟨(kget_kset_same ({} : RowMap) x.rows q { r with rung := r.rung + 1, spare := spare }).trans (by rw [← hrow]),
      congrArg inc32 hs1.stack.remaps, congrArg not hs1.stack.rmpEpoch, rfl⟩
  clear_value y
  rw [(cperAdd_frame _ _ _ _).1]
  refine ⟨hs1.bytes, hs1.ledger, ?_⟩
  exact (State.stk_setStk_same s1 k y).symm ▸ hy

/-- The row's trigger served once it has moved. -/
theorem rowMoved_served (s : State) (k q spare : Nat) :
    (triggerServed (moveMemRow s k q spare) k q).store.bytes = s.store.bytes ∧
      (triggerServed (moveMemRow s k q spare) k q).ledger = s.ledger ∧
      rowMap ((triggerServed (moveMemRow s k q spare) k q).stk k) q =
        { rowMap (s.stk k) q with rung := (rowMap (s.stk k) q).rung + 1, spare := spare } ∧
      ((triggerServed (moveMemRow s k q spare) k q).stk k).remaps = inc32 (s.stk k).remaps ∧
      ((triggerServed (moveMemRow s k q spare) k q).stk k).rmpEpoch = !(s.stk k).rmpEpoch ∧
      ((triggerServed (moveMemRow s k q spare) k q).stk k).copyDue = true ∧
      q ∉ ((triggerServed (moveMemRow s k q spare) k q).stk k).triggers := by
  obtain ⟨hbytes, hledger, hup⟩ := moveMemRow_spec s k q spare
  generalize moveMemRow s k q spare = t at hbytes hledger hup
  have hgone := triggerServed_gone t k q
  rw [triggerServed_stk] at hgone ⊢
  exact ⟨hbytes, hledger, hup.row, hup.remaps, hup.rmpEpoch, hup.copyDue, hgone⟩

/-- The page of a row is retired under the epoch in force, where it is not yet and the list has room. -/
theorem retirePage_spec {s : State} {k q y : Nat} (hoff : offsetOf s k q = some y)
    (hnew : ∀ e ∈ (s.stk k).retired, e.1 ≠ y / 2 ^ 21) (hroom : (s.stk k).retired.length < 4096) :
    (retirePage s k q).store.bytes = s.store.bytes ∧
      ((retirePage s k q).stk k).retired = (s.stk k).retired ++ [(y / 2 ^ 21, s.image.epoch)] := by
  have hno : (s.stk k).retired.any (fun e => e.1 == y / 2 ^ 21) = false := by
    rw [List.any_eq_false]
    intro e he
    simpa using hnew e he
  unfold retirePage
  simp only [hoff, hno, Bool.false_eq_true, if_false, if_neg (Nat.not_le.mpr hroom)]
  refine ⟨?_, ?_⟩
  · rw [(buildPage_core _ _).store, (cperAdd_frame _ _ _ _).1]
    rfl
  · rw [State.stk, (buildPage_core _ _).store, (cperAdd_frame _ _ _ _).1]
    exact congrArg StackS.retired (State.stk_setStk_same _ _ _)

/-! ## Temperatures (R322, R537) -/

/-- A sample of the base at b and the DRAM at d, offsets taken in, as the stack records it. -/
def tempSampled (s : State) (k : Nat) (b d : Int) : State :=
  s.setStk k { s.stk k with
    base := b, dram := d, tempIv := s.now / 1000000 + 1, step := stackStepAfter (s.stk k).step (max b d),
    thrTime := thrNow s (s.stk k),
    thrSince := if 2 ≤ (s.stk k).step then s.now - (s.now - (s.stk k).thrSince) % 1000 else s.now }

theorem exec_memTempSample {s : State} {k : StackNo} {b d : Int} (hrun : s.time.running = true)
    (hiv : (s.stk k).tempIv ≠ s.now / 1000000 + 1) :
    exec (.memTempSample k b d) s = .next (thermalTrip
      (tempSampled s k (b + sensorOffset s (2 * k)) (d + sensorOffset s (2 * k + 1)))
      ((if 16 * 110 ≤ b + sensorOffset s (2 * k) then [(2 * k.val, b + sensorOffset s (2 * k))] else []) ++
       (if 16 * 110 ≤ d + sensorOffset s (2 * k + 1) then [(2 * k.val + 1, d + sensorOffset s (2 * k + 1))] else []))) :=
  congrArg Host.Outcome.next (if_neg (by simpa [hrun, ivNow] using hiv))

theorem thermalTrip_one (s : State) (r : Nat × Int) : (thermalTrip s [r]).pins.tripped = true ∧
    (thermalTrip s [r]).pins.alertN = false ∧ (thermalTrip s [r]).pins.pwrgd = false ∧
    (thermalTrip s [r]).flash.trip = some r ∧ (thermalTrip s [r]).ledger = [] := by
  have hone (n : Nat) : ([r] : List (Nat × Int)).getD (n % 1) r = r := by rw [Nat.mod_one]; rfl
  exact ⟨rfl, rfl, rfl, congrArg some (hone _), rfl⟩

/-! ## Records in flash (R320, 18 R460) -/

/-- A stack's records as flash keeps them. -/
def copyOf (x : StackS) : StackCopy :=
  { lost := x.lost, rows := x.rows, spares := x.spares, retired := x.retired, reservedFail := x.reservedFail }

/-- What the copy of one stack's records leaves. -/
def copyStack (s : State) (k : Nat) : State :=
  if (s.stk k).copyDue then
    { s with flash := { s.flash with stks := kset {} s.flash.stks k (copyOf (s.stk k)) } }.setStk k
      { s.stk k with copyDue := false }
  else s

theorem copyRecords_eq (s : State) : copyRecords s = (List.range 32).foldl copyStack
    { s with flash := { s.flash with retiredClu := s.flash.retiredClu ++ s.due.clus }, due := { s.due with clus := [] } } :=
  rfl

/-- From s to t the records of the stacks in l were copied. -/
structure StacksCopied (s t : State) (l : List Nat) : Prop where
  frame : t = { s with flash := { s.flash with stks := t.flash.stks }, store := { s.store with stks := t.store.stks } }
  stack (k : Nat) : t.stk k = if k ∈ l then { s.stk k with copyDue := false } else s.stk k
  copy (k : Nat) : kget {} t.flash.stks k =
    if k ∈ l ∧ (s.stk k).copyDue = true then copyOf (s.stk k) else kget {} s.flash.stks k

theorem copyStack_copied (s : State) (k : Nat) : StacksCopied s (copyStack s k) [k] := by
  unfold copyStack
  split
  · next hdue =>
    refine ⟨rfl, fun j => ?_, fun j => ?_⟩
    · refine (State.stk_setStk _ _ _ _).trans ?_
      by_cases hj : k = j
      · subst hj
        simp
      · rw [if_neg hj, if_neg (by simpa using Ne.symm hj)]
        rfl
    · refine (kget_kset _ _ _ _ _).trans ?_
      by_cases hj : k = j
      · subst hj
        simp [hdue]
      · rw [if_neg hj, if_neg (by simp [Ne.symm hj])]
  · next hdue =>
    refine ⟨rfl, fun j => ?_, fun j => ?_⟩
    · split
      · next hj =>
        rw [List.mem_singleton.mp hj]
        have hno : (s.stk k).copyDue = false := by simpa using hdue
        rw [← hno]
      · rfl
    · rw [if_neg]
      rintro ⟨hj, hcopy⟩
      rw [List.mem_singleton.mp hj] at hcopy
      exact hdue hcopy

theorem StacksCopied.cons {s t u : State} {k : Nat} {l : List Nat} (h1 : StacksCopied s t [k]) (h2 : StacksCopied t u l)
    (hk : k ∉ l) : StacksCopied s u (k :: l) := by
  refine ⟨?_, fun j => ?_, fun j => ?_⟩
  · rw [h2.frame, h1.frame]
  · rw [h2.stack, h1.stack]
    by_cases hj : j = k
    · subst hj
      simp [hk]
    · simp [hj]
  · rw [h2.copy, h1.copy, h1.stack]
    by_cases hj : j = k
    · subst hj
      simp [hk]
    · simp [hj]

theorem foldl_copyStack (l : List Nat) (hl : l.Nodup) (s : State) : StacksCopied s (l.foldl copyStack s) l := by
  induction l generalizing s with
  | nil => exact ⟨rfl, fun _ => rfl, fun _ => (if_neg (by simp)).symm⟩
  | cons k l ih =>
    obtain ⟨hk, hl⟩ := List.nodup_cons.mp hl
    exact (copyStack_copied s k).cons (ih hl _) hk

theorem fieldRemapCopied_copies (s : State) : ∃ t, exec .fieldRemapCopied s = .next t ∧ t = { s with
      flash := { s.flash with stks := t.flash.stks, retiredClu := s.flash.retiredClu ++ s.due.clus },
      due := { s.due with clus := [] }, store := { s.store with stks := t.store.stks } } ∧
    ∀ k, k < 32 → t.stk k = { s.stk k with copyDue := false } ∧
      ((s.stk k).copyDue = true → (kget {} t.flash.stks k).rows = (s.stk k).rows ∧
        (kget {} t.flash.stks k).spares = (s.stk k).spares ∧ (kget {} t.flash.stks k).retired = (s.stk k).retired ∧
        (kget {} t.flash.stks k).lost = (s.stk k).lost) ∧
      ((s.stk k).copyDue = false → kget {} t.flash.stks k = kget {} s.flash.stks k) := by
  have h := foldl_copyStack (List.range 32) List.nodup_range
    { s with flash := { s.flash with retiredClu := s.flash.retiredClu ++ s.due.clus }, due := { s.due with clus := [] } }
  have hexec : exec .fieldRemapCopied s = execFieldRemapCopied s := rfl
  rw [← copyRecords_eq] at h
  refine ⟨copyRecords s, by rw [hexec, execFieldRemapCopied], h.frame, fun k hk => ⟨?_, fun hdue => ?_, fun hdue => ?_⟩⟩
  · exact (h.stack k).trans (if_pos (List.mem_range.mpr hk))
  · rw [h.copy k, if_pos ⟨List.mem_range.mpr hk, hdue⟩]
    exact ⟨rfl, rfl, rfl, rfl⟩
  · exact (h.copy k).trans (if_neg fun hc => Bool.false_ne_true (hdue.symm.trans hc.2))

/-- Entries set for every key of a list to a value of that key. -/
theorem kget_foldl_kset {V : Type} [DecidableEq V] (d : V) (f : Nat → V) (l : List Nat) (m : KMap V) (k : Nat) :
    kget d (l.foldl (fun m k => kset d m k (f k)) m) k = if k ∈ l then f k else kget d m k := by
  induction l generalizing m with
  | nil => simp
  | cons j l ih =>
    rw [List.foldl_cons, ih, kget_kset]
    by_cases hj : j = k
    · subst hj
      simp
    · simp [hj, Ne.symm hj]

theorem trainingSettingsSaved_saves (s : State) :
    ∃ t, exec .trainingSettingsSaved s = .next t ∧ t = { s with flash := t.flash, due := t.due } ∧
      (6 ≤ s.boot.stage → t.due.stacksTrained = [] ∧ ∀ k, kget none t.flash.stkSaved k =
        (if k ∈ s.due.stacksTrained then some ((s.stk k).identity, max (s.stk k).base (s.stk k).dram)
         else kget none s.flash.stkSaved k)) ∧
      (s.boot.stage < 6 → t.flash.stkSaved = s.flash.stkSaved ∧ t.due.stacksTrained = s.due.stacksTrained) := by
  refine ⟨_, rfl, rfl, fun h6 => ⟨if_pos h6, fun k => ?_⟩, fun h6 => ⟨if_neg (Nat.not_le.mpr h6), if_neg (Nat.not_le.mpr h6)⟩⟩
  refine (congrArg (fun m => kget none m k) (if_pos h6)).trans ?_
  exact kget_foldl_kset none _ _ _ _

/-! ## The obligation -/

theorem memTempSample_cool {s : State} {k : StackNo} {x : StackS} {b d : Int} (hx : x = s.stk k)
    (hrun : s.time.running = true) (hiv : x.tempIv ≠ s.now / 1000000 + 1)
    (hb : b + sensorOffset s (2 * k) < 16 * 110) (hd : d + sensorOffset s (2 * k + 1) < 16 * 110) :
    exec (.memTempSample k b d) s = .next (s.setStk k { x with
      base := b + sensorOffset s (2 * k), dram := d + sensorOffset s (2 * k + 1), tempIv := s.now / 1000000 + 1,
      step := stackStepAfter x.step (max (b + sensorOffset s (2 * k)) (d + sensorOffset s (2 * k + 1))),
      thrTime := if 2 ≤ x.step then add32 x.thrTime ((s.now - x.thrSince) / 1000) else x.thrTime,
      thrSince := if 2 ≤ x.step then s.now - (s.now - x.thrSince) % 1000 else s.now }) := by
  subst hx
  rw [exec_memTempSample hrun hiv, if_neg (Int.not_le.mpr hb), if_neg (Int.not_le.mpr hd)]
  rfl

theorem memTempSample_hot {s : State} {k : StackNo} {b d : Int} (hrun : s.time.running = true)
    (hiv : (s.stk k).tempIv ≠ s.now / 1000000 + 1) (hb : 16 * 110 ≤ b + sensorOffset s (2 * k))
    (hd : d + sensorOffset s (2 * k + 1) < 16 * 110) :
    ∃ t, exec (.memTempSample k b d) s = .next t ∧ t.pins.tripped = true ∧ t.pins.alertN = false ∧
      t.pins.pwrgd = false ∧ t.flash.trip = some (2 * k.val, b + sensorOffset s (2 * k)) ∧ t.ledger = [] := by
  have hexec := exec_memTempSample (b := b) (d := d) hrun hiv
  rw [if_pos hb, if_neg (Int.not_le.mpr hd)] at hexec
  exact ⟨_, hexec, thermalTrip_one _ _⟩

/-- Settles O44: the scrubber's pass over codewords leaves what it does not count, and each copy to flash is a fold over
the stacks. -/
theorem memoryUpkeep : Obligations.MemoryUpkeep := by
  unfold Obligations.MemoryUpkeep
  refine ⟨?_, fun s => ⟨fieldRemapCopied_copies s, trainingSettingsSaved_saves s⟩⟩
  rintro s k x rfl
  refine ⟨fun errs hruns => scrubStep_moves errs hruns, ?_, ?_, fun b d hrun hiv =>
    ⟨fun hb hd => memTempSample_cool rfl hrun hiv hb hd, fun hb hd => memTempSample_hot hrun hiv hb hd⟩⟩
  · intro q rest i htrig hrung hfree
    exact ⟨_, exec_remapService_moves htrig hrung hfree, rowMoved_served s k q i⟩
  · intro q rest y htrig hno hoff hnew hroom
    obtain ⟨hbytes, hretired⟩ := retirePage_spec hoff hnew hroom
    refine ⟨_, exec_remapService_retires htrig hno, hbytes, ?_, triggerServed_gone _ _ _⟩
    rw [triggerServed_stk]
    exact hretired

end Sys2Proof.Machine
end

section
/-! PROOF. What reads and places leave unchanged, and accesses through BAR2 (spec/16 R403 to R406): the obligation O38. -/

namespace Sys2Proof.Machine

/-! ## Reads of memory (spec/12) -/

/-- From s to t memory was read: errors met are counted and recorded, and no byte, register or operation moves. -/
def MemRead (s t : State) : Prop :=
  t = { s with store := { s.store with stks := t.store.stks }, chk := t.chk, flash := t.flash }

namespace MemRead

theorem refl (s : State) : MemRead s s := rfl

theorem trans {s t u : State} (h1 : MemRead s t) (h2 : MemRead t u) : MemRead s u := by
  unfold MemRead at *
  rw [h2, h1]

theorem of_met {s t : State} {k : Nat} (h : Met s t k) : MemRead s t := h.frame

theorem setStk (s : State) (k : Nat) (x : StackS) : MemRead s (s.setStk k x) := rfl

theorem sealEvent (s : State) (u : By) (key loc home : Nat) : MemRead s (sealEvent s u key loc home) := by
  unfold MemRead
  rw [(sealEvent_spec s u key loc home).1]

variable {s t : State} (h : MemRead s t)
include h

theorem bytes : t.store.bytes = s.store.bytes := by rw [h]
theorem ledger : t.ledger = s.ledger := by rw [h]
theorem hif : t.hif = s.hif := by rw [h]
theorem couriers : t.couriers = s.couriers := by rw [h]

end MemRead

theorem meetParcel_read (n : Nat) (s : State) (k q : Nat) : MemRead s (meetParcel n s k q).1 := by
  induction n with
  | zero => exact .refl s
  | succ n ih =>
    unfold meetParcel
    extract_lets r
    split
    · exact ih
    · exact ih.trans (.of_met (meetCodeword_met _ _ _ _))

theorem meetStored_read (s : State) (k q : Nat) (b : Bool) : MemRead s (meetStored s k q b).1 := by
  have hm := meetParcel_read 64 s k q
  unfold meetStored
  generalize meetParcel 64 s k q = m at hm
  extract_lets m'
  split
  · exact hm
  · exact hm.trans (.of_met (meetCodeword_met _ _ _ _))

theorem lostRead_read (s : State) (k q : Nat) : MemRead s (lostRead s k q) := by
  unfold lostRead
  extract_lets x
  split
  · exact .setStk _ _ _
  · exact .refl s

theorem meetLost_read {s u : State} {k q : Nat} {b : Bool} (h : meetLost s k q b = some u) : MemRead s u := by
  unfold meetLost at h
  split at h
  · exact Option.some.inj h ▸ lostRead_read s k q
  · split at h
    · exact Option.some.inj h ▸ lostRead_read s k _
    · exact absurd h (by simp)

theorem parcelGet_read (s : State) (k : Nat) (check : Bool) (u : By) : MemRead s (parcelGet s k check u).1 := by
  unfold parcelGet
  split
  · split
    · exact .refl s
    · extract_lets sq m d bad
      have hm : MemRead s m.1 := meetStored_read s sq.1 sq.2 check
      clear_value m d bad sq
      split
      · next hl => exact meetLost_read hl
      · split
        · exact hm
        · split
          · exact hm.trans (.sealEvent _ _ _ _ _)
          · exact hm
  · split
    · exact .refl s
    · split
      · exact .sealEvent _ _ _ _ _
      · exact .refl s

theorem parcelRead_read {s t : State} {k : Nat} {u : By} {x : Rd} (h : parcelRead s k u = (t, x)) : MemRead s t := by
  have hr := parcelGet_read s k true u
  rw [show parcelGet s k true u = (t, x) from h] at hr
  exact hr

/-- A parcel written moves memory alone. -/
theorem parcelWrite_frame (s : State) (k : Nat) (d : List Byte) :
    (parcelWrite s k d).1 = { s with store := (parcelWrite s k d).1.store } := by
  unfold parcelWrite
  extract_lets put sq x
  split
  · split
    · rfl
    · rfl
  · split
    · rfl
    · rfl

/-! ## Places (spec/01 R41 to R45) -/

/-- A place looked up may log a refusal and take up a path failure. -/
def Placed (s t : State) : Prop := t = { s with chk := t.chk, sec := t.sec }

theorem Placed.trans {s t u : State} (h1 : Placed s t) (h2 : Placed t u) : Placed s u := by
  unfold Placed at *
  rw [h2, h1]

theorem localPlace_placed (s : State) (m : Nat) (own : Option Nat) (off : Nat) (w : Bool) :
    Placed s (localPlace s m own off w).1 := by
  unfold localPlace
  extract_lets n key
  repeat' split
  all_goals rfl

theorem addrPlace_placed (s : State) (m : Nat) (own : Option Nat) (a : W64) (w : Bool) :
    Placed s (addrPlace s m own a w).1 := by
  unfold addrPlace
  extract_lets v chip
  split
  · split
    · exact localPlace_placed _ _ _ _ _
    · rfl
  · split
    · rfl
    · exact localPlace_placed _ _ _ _ _

theorem writePlace_placed (s : State) (m : Nat) (own : Option Nat) (a : W64) (whole : Bool) :
    Placed s (writePlace s m own a whole).1 := by
  have h := addrPlace_placed s m own a true
  unfold writePlace
  split
  · next s1 k hp =>
    rw [hp] at h
    split
    · exact h
    · exact h.trans (addrPlace_placed _ _ _ _ _)
  · exact h

/-- A command that meets no failure and begins no commit leaves the aperture's registers. -/
theorem writePlace_of {s s1 : State} {m : Nat} {own : Option Nat} {a : W64} {whole : Bool} {x : Place3}
    (h : writePlace s m own a whole = (s1, x)) : Placed s s1 := by
  have hp := writePlace_placed s m own a whole
  rw [h] at hp
  exact hp

/-! ## Accesses through BAR2 (spec/16 R404 to R406) -/

/-- An access served at an idle aperture leaves none waiting. -/
def apIdle (s : State) : State := { s with ring := { s.ring with waiting := [] } }

theorem apTake_ready {s t : State} {off a : Nat} {w : Bool} {x : ApTlp} (h : ApReady s off w a)
    (hserve : apServe s x = (t, none)) : apTake s x = apIdle t := by
  have hstage : (s.boot.stage == 0) = false := by simpa using h.stage
  rw [apTake, if_neg (by simp [h.link, hstage]), h.idle, List.nil_append, apDrain, hserve]
  rfl

theorem apFault_frame (s : State) (a : Nat) (w : Bool) (st : Nat) :
    ApFaulted (apFault s a w st) a w st ∧ (apFault s a w st).store = s.store ∧
      (apFault s a w st).sent = if w then s.sent else s.sent ++ [.readFail hostMaster a st] := by
  unfold apFault
  extract_lets h s1
  cases w
  · exact ⟨⟨rfl, rfl, rfl, rfl⟩, rfl, rfl⟩
  · exact ⟨⟨rfl, rfl, rfl, rfl⟩, rfl, rfl⟩

section
variable {s s1 : State} {off len a : Nat} {tags : List Nat} (h : ApReady s off false a)
include h

/-- A read whose parts are all read returns their bytes. -/
theorem apServe_returns {d : List Byte} (hr : apRead s [] (apParts a len) = (s1, tags, .ok d)) :
    apServe s { off := off, len := len } = ((reqDrop s1 tags).send (.readData hostMaster a d), none) := by
  unfold apServe
  simp only [← h.place, List.isEmpty_nil, Bool.not_true, h.answers, Bool.false_eq_true, if_false, hr]

/-- A read one of whose parts fails is a failed access. -/
theorem apServe_fails {st : Nat} (hr : apRead s [] (apParts a len) = (s1, tags, .fail st)) :
    apServe s { off := off, len := len } = (apFault (reqDrop s1 tags) a false st, none) := by
  unfold apServe
  simp only [← h.place, List.isEmpty_nil, Bool.not_true, h.answers, Bool.false_eq_true, if_false, hr]

theorem apRead_returns {d : List Byte} (hr : apRead s [] (apParts a len) = (s1, tags, .ok d)) :
    ∃ t, exec (.apertureRead off len) s = .next t ∧ t.store = s1.store ∧ t.ring.waiting = [] ∧
      t.sent = s1.sent ++ [.readData 2 a d] :=
  ⟨_, congrArg Host.Outcome.next (apTake_ready h (apServe_returns h hr)), rfl, rfl, rfl⟩

theorem apRead_fails {st : Nat} (hr : apRead s [] (apParts a len) = (s1, tags, .fail st)) :
    ∃ t, exec (.apertureRead off len) s = .next t ∧ t.store = s1.store ∧ ApFaulted t a false st ∧
      t.sent = s1.sent ++ [.readFail 2 a st] := by
  obtain ⟨hfault, hstore, hsent⟩ := apFault_frame (reqDrop s1 tags) a false st
  exact ⟨_, congrArg Host.Outcome.next (apTake_ready h (apServe_fails h hr)), hstore, hfault, hsent⟩

end

section
variable {s s1 : State} {off a : Nat} {tags : List Nat} {data : List Byte} (h : ApReady s off true a) (hne : data ≠ [])
  (hfit : a % 4096 + data.length ≤ 4096)
include h hfit

/-- A write within one parcel has one part. -/
theorem apParts_one : apParts a data.length = [(a, 0, data.length)] := by
  have hlt : a % 2 ^ 64 = a := Nat.mod_eq_of_lt (h.place ▸ Nat.mod_lt _ (by omega))
  rw [apParts, if_pos (by omega), hlt]

include hne

/-- A write whose one part is met commits it. -/
theorem apServe_commits {p : ApPut} (hp : apWritePart s [] data (a, 0, data.length) = (s1, tags, .ok p)) :
    apServe s { off := off, len := data.length, data := data } = (apCommit (reqDrop s1 tags) a [p], none) := by
  have hempty : data.isEmpty = false := by simpa using hne
  unfold apServe
  simp only [← h.place, hempty, Bool.not_false, h.answers, Bool.false_eq_true, if_false, if_true, apParts_one h hfit, apWrite, hp]

/-- A write whose part fails is a failed access. -/
theorem apServe_writeFails {st : Nat} (hp : apWritePart s [] data (a, 0, data.length) = (s1, tags, .error (some st))) :
    apServe s { off := off, len := data.length, data := data } = (apFault (reqDrop s1 tags) a true st, none) := by
  have hempty : data.isEmpty = false := by simpa using hne
  unfold apServe
  simp only [← h.place, hempty, Bool.not_false, h.answers, Bool.false_eq_true, if_false, if_true, apParts_one h hfit, apWrite, hp]

end

theorem exec_apertureWrite {s t : State} {off a : Nat} {data : List Byte} (h : ApReady s off true a) (hne : data ≠ [])
    (hserve : apServe s { off := off, len := data.length, data := data } = (t, none)) :
    exec (.apertureWrite off data) s = .next (apIdle t) := by
  have hexec : exec (.apertureWrite off data) s = execApertureWrite off data s := rfl
  rw [hexec, execApertureWrite, if_neg (by simpa using hne), apTake_ready h hserve]

/-- The write of a part that meets no failure: the parcel commits with its new bytes. -/
theorem apWrite_parcel {s s1 s2 : State} {off a par : Nat} {data d : List Byte} (h : ApReady s off true a) (hne : data ≠ [])
    (hfit : a % 4096 + data.length ≤ 4096)
    (hpart : apWritePart s [] data (a, 0, data.length) = (s2, [], .ok (.parcel par d)))
    (hhif : s2.hif = s1.hif) (hledger : s2.ledger = s.ledger) :
    ∃ t, exec (.apertureWrite off data) s = .next t ∧ t.store = (parcelWrite s2 par d).1.store ∧ t.hif = s1.hif ∧
      t.ledger = s.ledger := by
  refine ⟨_, exec_apertureWrite h hne (apServe_commits h hne hfit hpart), ?_, ?_, ?_⟩
  · show (parcelWrite (reqDrop s2 []) par d).1.store = _
    rw [reqDrop_nil]
  · show (parcelWrite (reqDrop s2 []) par d).1.hif = _
    rw [reqDrop_nil, parcelWrite_frame]
    exact hhif
  · show (parcelWrite (reqDrop s2 []) par d).1.ledger = _
    rw [reqDrop_nil, parcelWrite_frame]
    exact hledger

theorem bytesAt_zero_length (d : List Byte) : bytesAt d 0 d.length = d := by
  simp [bytesAt]

/-- The part of a write that covers its parcel. -/
theorem apWritePart_whole {s s1 : State} {a k : Nat} {data : List Byte} (hlen : data.length = 4096)
    (hplace : writePlace s hostMaster none (BitVec.ofNat 64 a) (data.length == 4096) = (s1, .mem k))
    (hlock : readLocked s1 .other k = false) (hhbm : keyIsHbm (k - k % 4096) = true)
    (hok : hbmRefuses s1 (k - k % 4096) true = none) :
    apWritePart s [] data (a, 0, data.length) = (s1, [], .ok (.parcel (k - k % 4096) data)) := by
  have hwhole : (data.length == 4096) = true := by simpa using hlen
  rw [hwhole] at hplace
  unfold apWritePart
  simp only [hwhole, hplace, hlock, hhbm, hok, if_true, Bool.false_eq_true, if_false, bytesAt_zero_length]

/-- The part of a write that is merged under the old parcel's seal. -/
theorem apWritePart_merged {s s1 s2 : State} {a k : Nat} {data old : List Byte} (hlen : data.length < 4096)
    (hplace : writePlace s hostMaster none (BitVec.ofNat 64 a) (data.length == 4096) = (s1, .mem k))
    (hlock : readLocked s1 .other k = false) (hhbm : keyIsHbm (k - k % 4096) = true)
    (hok : hbmRefuses s1 (k - k % 4096) true = none) (hread : parcelRead s1 (k - k % 4096) hostBy = (s2, .ok old)) :
    apWritePart s [] data (a, 0, data.length) = (s2, [], .ok (.parcel (k - k % 4096) (overlay old (k % 4096) data))) := by
  have hpart : (data.length == 4096) = false := by simpa using hlen.ne
  rw [hpart] at hplace
  unfold apWritePart
  simp only [hplace, hlock, hhbm, hok, hread, hpart, if_true, Bool.false_eq_true, if_false, bytesAt_zero_length]

theorem apWrite_fails {s s1 : State} {off a st : Nat} {data : List Byte} (h : ApReady s off true a) (hne : data ≠ [])
    (hfit : a % 4096 + data.length ≤ 4096)
    (hplace : writePlace s hostMaster none (BitVec.ofNat 64 a) (data.length == 4096) = (s1, .bad st)) :
    ∃ t, exec (.apertureWrite off data) s = .next t ∧ t.store = s.store ∧ ApFaulted t a true st ∧ t.sent = s.sent := by
  have hpart : apWritePart s [] data (a, 0, data.length) = (s1, [], .error (some st)) := by
    unfold apWritePart
    simp only [hplace]
  have hplaced := writePlace_of hplace
  obtain ⟨hfault, hstore, hsent⟩ := apFault_frame (reqDrop s1 []) a true st
  refine ⟨_, exec_apertureWrite h hne (apServe_writeFails h hne hfit hpart), hstore.trans ?_, hfault, hsent.trans ?_⟩
  · rw [reqDrop_nil, hplaced]
  · rw [reqDrop_nil, hplaced]
    rfl

/-- The key of a parcel of HBM is below its end. -/
theorem keyIsHbm_parcel {k : Nat} (h : keyIsHbm k = true) : keyIsHbm (k - k % 4096) = true := by
  simp only [keyIsHbm, decide_eq_true_eq] at *
  omega

/-- Settles O38: an access at an idle aperture is served at once, and its reads move no register of the host's. -/
theorem hostAccess : Obligations.HostAccess := by
  unfold Obligations.HostAccess
  refine ⟨?_, ?_, ?_⟩
  · intro s s1 off len a tags h
    exact ⟨fun d hr => apRead_returns h hr, fun st hr => apRead_fails h hr⟩
  · intro s s1 off a k data h hne hfit
    refine ⟨fun hplace hlock hhbm hok => ⟨fun hlen => ?_, fun s2 old hlen hread => ?_⟩, fun st => apWrite_fails h hne hfit⟩
    · have hplaced := writePlace_of hplace
      exact apWrite_parcel h hne hfit (apWritePart_whole hlen hplace hlock (keyIsHbm_parcel hhbm) hok) rfl
        (by rw [hplaced])
    · have hplaced := writePlace_of hplace
      have hmet := parcelRead_read hread
      obtain ⟨t, hexec, hstore, hhif, hledger⟩ := apWrite_parcel h hne hfit
        (apWritePart_merged hlen hplace hlock (keyIsHbm_parcel hhbm) hok hread) hmet.hif
        (hmet.ledger.trans (by rw [hplaced]))
      exact ⟨t, hexec, hhif, hledger, hstore⟩
  · intro s l x hup hstage
    have hexec : exec (.ideKm l x) s = execIdeKm l x s := rfl
    rw [hexec, execIdeKm, if_neg (by simp [hup]; omega)]

end Sys2Proof.Machine
end

section
/-! PROOF. MOVE and SIGNAL of a courier (spec/13 R336 to R341): the obligation O37. -/

namespace Sys2Proof.Machine

/-! ## SIGNAL (R336) -/

/-- A running courier's SIGNAL is carried out with its bytes held in the round. -/
theorem exec_signal {s : State} {c : CourierNo} {r : Round} {b : List Byte} (h : AtIns s c r b .running)
    (hop : leAt b 0 1 = 4) :
    exec (.signal c) s = .next (signal (setRound s c { r with ins := some b }) c { r with ins := some b } b) := by
  have hphase : ¬(s.courier c).phase = .stopping := by rw [h.phase]; decide
  have hexec : exec (.signal c) s = execSignal c s := rfl
  rw [hexec, execSignal, if_neg hphase, onIns_running h hop]

/-- A SIGNAL without END goes on at the next instruction, and sends nothing more. -/
theorem signalOk_sent (s : State) (c : Nat) (r : Round) {b : List Byte} (hend : (leAt b 1 1).testBit 0 = false) :
    (signalOk s c r b).sent = s.sent := by
  rw [signalOk, signalEnd, if_neg (by simp [hend])]
  rfl

/-- A SIGNAL to host memory posts its bytes. -/
theorem signal_host_sent {s : State} {c : Nat} {r : Round} {b : List Byte} (hw : (leAt b 1 1).testBit 1 = true)
    (hhost : (leAt b 1 1).testBit 2 = true) (hend : (leAt b 1 1).testBit 0 = false) (hup : s.hif.linkUp = true) :
    (signal s c r b).sent = s.sent ++ postedWrites s (leAt b 8 8, bytesAt b 16 8) := by
  have hput : hostPut s [(leAt b 8 8, bytesAt b 16 8)] =
      (s.sendAll (postedWrites s (leAt b 8 8, bytesAt b 16 8)), .ok) := by
    rw [hostPut, if_neg (by simp [hup])]
    simp
  unfold signal
  simp only [hw, hhost, Bool.not_true, Bool.false_eq_true, if_false, if_true, hput]
  exact signalOk_sent _ _ _ hend

theorem exec_signal_host_sent {s t : State} {c : CourierNo} {r : Round} {b : List Byte} (h : AtIns s c r b .running)
    (hop : leAt b 0 1 = 4) (hw : (leAt b 1 1).testBit 1 = true) (hhost : (leAt b 1 1).testBit 2 = true)
    (hend : (leAt b 1 1).testBit 0 = false) (hup : s.hif.linkUp = true) (hexec : exec (.signal c) s = .next t) :
    t.sent = s.sent ++ postedWrites s (leAt b 8 8, bytesAt b 16 8) := by
  rw [← Host.Outcome.next.inj ((exec_signal h hop).symm.trans hexec)]
  exact signal_host_sent (s := setRound s c { r with ins := some b }) hw hhost hend hup

/-! ## The obligation -/

/-- A SIGNAL to host memory held in a round as its first two bytes alone: it has no word to write. -/
def shortSignal : List Byte := [4, 6]

/-- A round that holds it. -/
def shortRound : Round := { slot := 0, base := 0, ins := some shortSignal }

/-- A module with the host link up whose courier 0 runs that round. -/
def shortState : State :=
  { State.reset with hif := { State.reset.hif with linkUp := true, fn := { State.reset.hif.fn with maxPayload := 8 } } }.setCourier 0
    { phase := .running, round := some shortRound }

theorem shortState_atIns : AtIns shortState 0 shortRound shortSignal .running :=
  ⟨rfl, rfl, rfl, rfl, fun h => absurd h (by decide)⟩

/-- Refutes O37: a round holds whatever bytes its instruction came with, and a SIGNAL to host memory whose word is missing
posts nothing, where the statement has it post an empty write. -/
theorem not_courierMoveAndSignal : ¬ Obligations.CourierMoveAndSignal := by
  unfold Obligations.CourierMoveAndSignal
  intro h
  obtain ⟨-, hsignal⟩ := h shortState 0 shortRound _ shortSignal shortState_atIns rfl
  obtain ⟨-, hhost, -⟩ := hsignal rfl
  obtain ⟨t, ht, -, -, hsent⟩ := hhost rfl rfl rfl rfl (by decide)
  have hquiet := exec_signal_host_sent shortState_atIns rfl rfl rfl rfl rfl ht
  rw [hsent] at hquiet
  exact absurd (congrArg List.length hquiet) (by simp [postedWrites, shortSignal, bytesAt, chunks, chunkAux])

end Sys2Proof.Machine
end

section
/-! PROOF. The control registers of a courier (spec/13 R342 to R347): the obligation O35. -/

namespace Sys2Proof.Machine

/-! ## A queued request that a dependency ends first -/

/-- An operation of kind 5 that has failed. -/
def failedOp : Op := { rcpt := { state := .failed }, kind := 5, place := .final }

/-- A round's operation, in progress. -/
def roundOp : Op := { rcpt := { state := .inProgress }, kind := 5, place := .running }

/-- A request in its courier's queue. -/
def queuedOp : Op := { rcpt := {}, kind := 5, place := .queued }

/-- A request that waits in its stream for the failed operation of slot 2. -/
def waitingOp : Op := { rcpt := {}, kind := 5, deps := [2], place := .inStream }

/-- Courier 0 has halted in the round of slot 0 with slot 1 in its queue; the ledger lists slot 1 twice, queued and, behind
it, waiting in its stream. -/
def twiceState : State :=
  { State.reset with
    boot := { State.reset.boot with stage := 6 }
    ledger := [(0, roundOp), (1, queuedOp), (1, waitingOp), (2, failedOp)] }.setCourier 0
    { phase := .halted, round := some { slot := 0, base := 0 }, queue := [1] }

/-- The end of the round settles the entry behind, which ends slot 1 for its dependency. -/
theorem twiceState_settled :
    ((actCourierReset twiceState 0).op 1).map (fun y => y.rcpt.status) = some stDep := by decide +kernel

theorem exec_courierReset_twiceState :
    exec (.courierReset 0 0 4) twiceState = .next (actCourierReset twiceState 0) :=
  congrArg Host.Outcome.next (gated_ok (regGate_postmaster (by decide) _ true) _)

/-- Refutes O35: a queued request whose slot the ledger lists a second time, as waiting for a failed operation, ends with
the status of its dependency when RESET ends the round, and not with RESET_ABORTED. -/
theorem not_courierControl : ¬ Obligations.CourierControl := by
  unfold Obligations.CourierControl
  rintro ⟨-, -, hround, -⟩
  obtain ⟨-, hctrl⟩ := hround twiceState 0 { slot := 0, base := 0 } rfl
  obtain ⟨-, -, hreset⟩ := hctrl 0 4 (regGate_postmaster (by decide) _ true)
  obtain ⟨t, ht, -, -, -, -, hqueue⟩ := hreset rfl (.inl rfl) roundOp ⟨rfl, rfl⟩
  obtain ⟨y, hy, -, hstatus⟩ := hqueue 1 (List.mem_singleton.mpr rfl) queuedOp rfl rfl rfl
  have hsettled := twiceState_settled
  rw [Host.Outcome.next.inj (exec_courierReset_twiceState.symm.trans ht), hy] at hsettled
  exact absurd (hstatus.symm.trans (Option.some.inj hsettled)) (by decide)

end Sys2Proof.Machine
end

section
/-! PROOF. Tensor descriptors: acceptance and start (spec/05 R133 to R137): the obligation O18. -/

namespace Sys2Proof.Machine

/-! ## Acceptance (R133, R134) -/

/-- An operation at its issuer that has not started fails with a status and its detail. -/
structure FailedAs (t : State) (slot status detail : Nat) : Prop where
  op : ∃ x, t.op slot = some x ∧ x.rcpt.state = .failed ∧ x.rcpt.status = status ∧ x.rcpt.detail = detail

theorem opFail_notStarted {s : State} {slot : Nat} {o : Op} (ho : s.op slot = some o) (hn : o.rcpt.state = .notStarted)
    (status detail : Nat) : FailedAs (opFail s slot status detail) slot status detail := by
  have hf : rstateFinal o.rcpt.state = false := by simp [hn, rstateFinal]
  have hlater := (haltStream_ended (opFinal s slot .failed status detail) slot).trans
    (settle_ended ((haltStream (opFinal s slot .failed status detail) slot).ledger.length + 1) _)
  have heq : opFail s slot status detail = settle ((haltStream (opFinal s slot .failed status detail) slot).ledger.length + 1)
      (haltStream (opFinal s slot .failed status detail) slot) := by
    simp [opFail, opFailAs, ho, hn, rstateFinal]
  rw [heq]
  exact ⟨_, hlater.final slot _ (op_opFinal ho hf _ _ _) rfl, rfl, rfl, rfl⟩

section
variable {s : State} {slot : Slot} {o : Op} (ho : s.op slot = some o) (hk : o.kind = 1) (hplace : o.place = .atIssuer)
include ho hk hplace

theorem exec_tensorDescriptor : exec (.tensorDescriptor slot) s = .next (
    if isDead s o.target then opFail s slot stDead 0
    else if isAsleep s o.target then opFail s slot stNotReady 0
    else if !teGrants s (physOfN s o.target) slot then teAway s (physOfN s o.target) slot
    else match tdMalformed o.payload with
      | some e => opMalformed (touchIdle s o.target) slot e.2 e.1
      | none => opPlace (teQueue (touchIdle s o.target) (physOfN s o.target) ⟨slot, false, o.payload⟩) slot .queued) := by
  have hexec : exec (.tensorDescriptor slot) s = execTensorDescriptor slot s := rfl
  rw [hexec, execTensorDescriptor, ho]
  refine congrArg Host.Outcome.next ((if_neg ?_).trans ?_)
  · simp [hk, hplace]
  · rfl

end

/-- The descriptor waits in its engine. -/
theorem teQueue_queued {s : State} {slot n p : Nat} {o : Op} (ho : s.op slot = some o) (i : TeItem) :
    ∃ t, opPlace (teQueue (touchIdle s n) p i) slot .queued = t ∧ t = { s with core := t.core, ledger := t.ledger } ∧
      t.op slot = some { o with place := .queued } ∧ t.core = { s.core with clus := t.core.clus, lclus := t.core.lclus } ∧
      t.clu p = { s.clu p with te := { (s.clu p).te with queue := (s.clu p).te.queue ++ [i] } } := by
  have hq : (teQueue (touchIdle s n) p i).op slot = some o := ho
  refine ⟨_, opPlace_of_op hq _, rfl, State.op_setOp_same _ _ _, rfl, ?_⟩
  exact State.clu_setClu_same _ _ _

/-! ## What the checks of a band leave (R137) -/

/-- From s to t with the run r then x: only memory was read, and the run is the same descriptor's. -/
def Checked (s : State) (r : TeRun) (x : State × TeRun × Option Failed) : Prop :=
  MemRead s x.1 ∧ x.2.1.item = r.item

theorem Checked.refl (s : State) (r : TeRun) (f : Option Failed) : Checked s r (s, r, f) := ⟨.refl s, rfl⟩

theorem Checked.trans {s s1 : State} {r r1 : TeRun} {f : Option Failed} {x : State × TeRun × Option Failed}
    (h1 : Checked s r (s1, r1, f)) (h2 : Checked s1 r1 x) : Checked s r x :=
  ⟨h1.1.trans h2.1, h2.2.trans h1.2⟩

theorem Checked.of_read {s s1 : State} {r r1 : TeRun} (h : MemRead s s1) (hi : r1.item = r.item) (f : Option Failed) :
    Checked s r (s1, r1, f) := ⟨h, hi⟩

theorem checkParcel_checked (s : State) (p : Nat) (r : TeRun) (d : TDesc) (o other : Operand) (off : Nat) :
    Checked s r (checkParcel s p r d o other off) := by
  unfold checkParcel
  refine iteInduction (motive := Checked s r) (fun _ => .refl _ _ _) (fun _ => ?_)
  generalize hx : parcelRead s (storeKey p off) ⟨1, some r.item.slot⟩ = x
  obtain ⟨s1, x⟩ := x
  have h := parcelRead_read hx
  cases x with
  | fail st => exact .of_read h rfl _
  | wait => exact .of_read h rfl _
  | ok b => exact iteInduction (motive := Checked s r) (fun _ => .of_read h rfl _) (fun _ => .of_read h rfl _)

theorem checkParcels_checked (s : State) (p : Nat) (r : TeRun) (d : TDesc) (o other : Operand) (l : List Nat) :
    Checked s r (checkParcels s p r d o other l) := by
  induction l generalizing s r with
  | nil => exact .refl _ _ _
  | cons off t ih =>
    have h := checkParcel_checked s p r d o other off
    unfold checkParcels
    split
    · next s1 r1 hc =>
      rw [hc] at h
      exact h.trans (ih s1 r1)
    · exact h

theorem checkBlock_checked (s : State) (p : Nat) (r : TeRun) (d : TDesc) (b r0 c0 : Nat) (first : Bool) :
    Checked s r (checkBlock s p r d b r0 c0 first) := by
  unfold checkBlock
  extract_lets ob
  have h1 := checkParcels_checked s p r d ob (operandA d b) (operandParcels d ob c0 (min (c0 + 16) d.n))
  split
  · next s1 r1 hc1 =>
    rw [hc1] at h1
    extract_lets l is
    have h2 := checkParcels_checked s1 p r1 d (recordOperand d) ob (is.map (fun i => (d.inOff + 64 * i) / 4096 * 4096))
    split
    · next s2 r2 hc2 =>
      rw [hc2] at h2
      have h := h1.trans h2
      split
      · exact h
      · split
        · exact h
        · exact h
    · exact h1.trans h2
  · exact h1

theorem checkBlocks_checked (s : State) (p : Nat) (r : TeRun) (d : TDesc) (b r0 : Nat) (cols : List Nat) (first : Bool) :
    Checked s r (checkBlocks s p r d b r0 cols first) := by
  induction cols generalizing s r with
  | nil => exact .refl _ _ _
  | cons c t ih =>
    have h := checkBlock_checked s p r d b r0 (16 * c) (first && c == 0)
    unfold checkBlocks
    split
    · next s1 r1 hc =>
      rw [hc] at h
      exact h.trans (ih s1 r1)
    · exact h

/-! ## The start of a band (R135, R137) -/

/-- From s to t engine p keeps its queue, its operation's id and its beats, memory its bytes, and what runs is i or
nothing. -/
structure BandStarted (s t : State) (p : Nat) (i : TeItem) : Prop where
  queue : (t.te p).queue = (s.te p).queue
  curOp : (t.te p).curOp = (s.te p).curOp
  beats : (t.te p).beats = (s.te p).beats
  bytes : t.store.bytes = s.store.bytes
  run : (t.te p).run = none ∨ ∃ r, (t.te p).run = some r ∧ r.item = i

theorem BandStarted.after {s u t : State} {p : Nat} {i : TeItem} (h : BandStarted u t p i) (hm : MemRead s u) :
    BandStarted s t p i := by
  have hte : u.te p = s.te p := by rw [hm]; rfl
  exact ⟨by rw [h.queue, hte], by rw [h.curOp, hte], by rw [h.beats, hte], h.bytes.trans hm.bytes, h.run⟩

/-- The end of a tensor operation in error empties its engine and leaves the queue. -/
theorem teFail_te (s : State) (p status detail : Nat) :
    (teFail s p status detail).te p = s.te p ∧ (s.te p).run = none ∨
      (teFail s p status detail).te p = { s.te p with run := none, susp := none, ops := ((s.te p).ops + 1) % 2 ^ 64 } := by
  unfold teFail
  extract_lets t emptied idle
  have hemptied : emptied.te p = { t with run := none, susp := none, ops := (t.ops + 1) % 2 ^ 64 } :=
    congrArg Clu.te (State.clu_setClu_same _ _ _)
  have hidle : idle.te p = emptied.te p := by
    subst idle
    split
    · rfl
    · rfl
  split
  · next hr => exact .inl ⟨rfl, hr⟩
  · next r hr =>
    refine .inr ?_
    split
    · exact hidle.trans hemptied
    · refine (congrArg (fun c : Core => (kget {} c.clus p).te) (opFail_ended idle r.item.slot status detail).core).trans ?_
      exact hidle.trans hemptied

theorem teFail_started (s : State) (p status detail : Nat) (i : TeItem) : BandStarted s (teFail s p status detail) p i := by
  have hbytes : (teFail s p status detail).store.bytes = s.store.bytes := by rw [teFail_store]
  rcases teFail_te s p status detail with ⟨h, hr⟩ | h
  · exact ⟨by rw [h], by rw [h], by rw [h], hbytes, .inl (by rw [h, hr])⟩
  · exact ⟨by rw [h], by rw [h], by rw [h], hbytes, .inl (by rw [h])⟩

theorem operandFail_started (s : State) (p : Nat) (e : Failed) (i : TeItem) : BandStarted s (operandFail s p e) p i := by
  unfold operandFail
  extract_lets t s1
  have h := teFail_started s1 p e.1 e.2.1 i
  have hte : (s1.te p).queue = (s.te p).queue ∧ (s1.te p).curOp = (s.te p).curOp ∧ (s1.te p).beats = (s.te p).beats := by
    subst s1
    split
    · have hset : (s.setTe p { t with sealFails := inc32 t.sealFails }).te p = { t with sealFails := inc32 t.sealFails } :=
        congrArg Clu.te (State.clu_setClu_same _ _ _)
      rw [hset]
      exact ⟨rfl, rfl, rfl⟩
    · exact ⟨rfl, rfl, rfl⟩
  have hbytes : s1.store.bytes = s.store.bytes := by
    subst s1
    split
    · rfl
    · rfl
  obtain ⟨hqueue, hcur, hbeats⟩ := hte
  exact ⟨h.queue.trans hqueue, h.curOp.trans hcur, h.beats.trans hbeats, h.bytes.trans hbytes, h.run⟩

theorem setRun_started (s : State) (p : Nat) (r : TeRun) : BandStarted s (s.setRun p r) p r.item := by
  have hset : (s.setRun p r).te p = { s.te p with run := some r } := congrArg Clu.te (State.clu_setClu_same _ _ _)
  exact ⟨by rw [hset], by rw [hset], by rw [hset], rfl, .inr ⟨r, by rw [hset], rfl⟩⟩

theorem startBand_started {s : State} {p : Nat} {r : TeRun} (hr : (s.te p).run = some r) :
    BandStarted s (startBand s p) p r.item := by
  unfold startBand
  split
  · next hno => exact absurd (hr.symm.trans hno) (by simp)
  · next r' hr' =>
    rw [Option.some.inj (hr.symm.trans hr')]
    extract_lets d b r0 oa x
    have hx : Checked s r' x := by
      have h := checkParcels_checked s p r' d oa (operandB d b) (operandParcels d oa r0 (min (r0 + 16) d.m))
      subst x
      split
      · next s1 r1 hc =>
        rw [hc] at h
        exact h.trans (checkBlocks_checked _ _ _ _ _ _ _ _)
      · exact h
    clear_value x
    split
    · exact ⟨rfl, rfl, rfl, rfl, .inr ⟨r', hr', rfl⟩⟩
    · split
      · next s1 r1 =>
        have h := (setRun_started s1 p r1).after hx.1
        rw [hx.2] at h
        exact h
      · next s1 r1 e => exact (operandFail_started s1 p e r'.item).after hx.1

theorem opStart_core (s : State) (slot : Nat) : (opStart s slot).core = s.core := by
  cases ho : s.op slot with
  | none => simp [opStart, ho]
  | some o =>
    by_cases hn : o.rcpt.state = .notStarted
    · rw [(opStart_reports ho hn).core]
      rfl
    · simp [opStart, ho, hn]

/-- The state in which the first queued descriptor begins to read its operands. -/
def gemmBegun (s : State) (n p : Nat) (i : TeItem) (rest : List TeItem) : State :=
  let t := s.te p
  let d := tdescOf i.desc
  let beats := 96 + ceilDiv d.inCount 16
  let r : TeRun := { item := i, key := t.key, rate := t.rateLog2, band := d.bandOf d.firstElem, next := d.pFirst }
  let s1 := addBeats (s.setTe p { t with
    queue := rest, run := some r, curOp := d.opId, beats := (t.beats + beats) % 2 ^ 64 }) n beats
  if i.byProg then s1 else opStart s1 i.slot

theorem exec_gemmStart {s : State} {n : LClu} {i : TeItem} {rest : List TeItem}
    (hrun : (s.clu (physOfN s n)).te.run = none) (hqueue : (s.clu (physOfN s n)).te.queue = i :: rest)
    (hmay : mayStart s n = true) :
    exec (.gemmStart n) s = .next (startBand (gemmBegun s n (physOfN s n) i rest) (physOfN s n)) := by
  have hexec : exec (.gemmStart n) s = execGemmStart n s := rfl
  have hte : s.te (physOfN s n) = (s.clu (physOfN s n)).te := rfl
  rw [hexec, execGemmStart]
  extract_lets p t
  have hrun' : t.run = none := hrun
  have hqueue' : t.queue = i :: rest := hqueue
  rw [hrun', hqueue']
  refine congrArg Host.Outcome.next (if_neg (by simp [hmay]))

/-- What stands in the engine when the descriptor begins. -/
theorem gemmBegun_te (s : State) (n p : Nat) (i : TeItem) (rest : List TeItem) :
    ((gemmBegun s n p i rest).te p).queue = rest ∧ ((gemmBegun s n p i rest).te p).curOp = (tdescOf i.desc).opId ∧
      ((gemmBegun s n p i rest).te p).beats = ((s.te p).beats + (96 + ceilDiv (tdescOf i.desc).inCount 16)) % 2 ^ 64 ∧
      (gemmBegun s n p i rest).store.bytes = s.store.bytes ∧
      ∃ r, ((gemmBegun s n p i rest).te p).run = some r ∧ r.item = i := by
  unfold gemmBegun
  extract_lets t d beats r s1
  have hte : s1.te p = { t with queue := rest, run := some r, curOp := d.opId, beats := (t.beats + beats) % 2 ^ 64 } :=
    congrArg Clu.te (State.clu_setClu_same _ _ _)
  have hstart : (if i.byProg then s1 else opStart s1 i.slot).te p = s1.te p := by
    split
    · rfl
    · exact congrArg (fun c : Core => (kget {} c.clus p).te) (opStart_core s1 i.slot)
  have hbytes : (if i.byProg then s1 else opStart s1 i.slot).store.bytes = s.store.bytes := by
    split
    · rfl
    · rw [opStart_store]
      rfl
  rw [hstart, hte]
  exact ⟨rfl, rfl, rfl, hbytes, r, rfl, rfl⟩

theorem gemmStart_starts {s : State} {n : LClu} {p : Nat} {i : TeItem} {rest : List TeItem} (hp : p = physOfN s n)
    (hrun : (s.clu p).te.run = none) (hqueue : (s.clu p).te.queue = i :: rest) (hmay : mayStart s n = true) :
    ∃ t, exec (.gemmStart n) s = .next t ∧ (t.clu p).te.queue = rest ∧
      (t.clu p).te.curOp = (tdescOf i.desc).opId ∧
      (t.clu p).te.beats = ((s.clu p).te.beats + 96 + ((tdescOf i.desc).inCount + 15) / 16) % 2 ^ 64 ∧
      t.store.bytes = s.store.bytes ∧ ((t.clu p).te.run = none ∨ ∃ r, (t.clu p).te.run = some r ∧ r.item = i) := by
  subst hp
  obtain ⟨hq, hcur, hbeats, hbytes, r, hr, hitem⟩ := gemmBegun_te s n (physOfN s n) i rest
  have h := startBand_started hr
  rw [hitem] at h
  refine ⟨_, exec_gemmStart hrun hqueue hmay, h.queue.trans hq, h.curOp.trans hcur, (h.beats.trans hbeats).trans ?_,
    h.bytes.trans hbytes, h.run⟩
  rw [← Nat.add_assoc]
  rfl

/-- Settles O18: a descriptor is turned away, fails or joins its engine's queue, and the checks of the first band read
memory alone. -/
theorem tensorDescriptors : Obligations.TensorDescriptors := by
  unfold Obligations.TensorDescriptors
  refine ⟨?_, fun s n p i rest hp hrun hqueue hmay => gemmStart_starts hp hrun hqueue hmay⟩
  intro s slot o ho hk hplace hn
  refine ⟨fun hdead => ?_, fun hlive hasleep => ?_, fun hlive hawake hgrant => ⟨fun hok => ?_, fun e he => ?_⟩⟩
  · obtain ⟨x, hx, hstate, hstatus, -⟩ := (opFail_notStarted ho hn stDead 0).op
    have hend := opFail_ended s slot stDead 0
    exact ⟨_, (exec_tensorDescriptor ho hk hplace).trans (by rw [if_pos hdead]), by rw [hend.core], hend.store, x, hx,
      hstate, hstatus⟩
  · obtain ⟨x, hx, hstate, hstatus, -⟩ := (opFail_notStarted ho hn stNotReady 0).op
    have hend := opFail_ended s slot stNotReady 0
    exact ⟨_, (exec_tensorDescriptor ho hk hplace).trans (by rw [if_neg (by simp [hlive]), if_pos hasleep]),
      by rw [hend.core], hend.store, x, hx, hstate, hstatus⟩
  · obtain ⟨t, ht, hspec⟩ := teQueue_queued (n := o.target) (p := physOfN s o.target) ho ⟨slot, false, o.payload⟩
    refine ⟨t, (exec_tensorDescriptor ho hk hplace).trans ?_, hspec⟩
    rw [if_neg (by simp [hlive]), if_neg (by simp [hawake]), if_neg (by simp [hgrant]), hok, ← ht]
  · have hend := opFail_ended (touchIdle s o.target) slot stStruct (detail2 (0xFFFFFF00 + e.2) e.1)
    obtain ⟨x, hx⟩ := (opFail_notStarted (s := touchIdle s o.target) ho hn stStruct (detail2 (0xFFFFFF00 + e.2) e.1)).op
    refine ⟨_, (exec_tensorDescriptor ho hk hplace).trans ?_, (congrArg Core.clus hend.core).trans rfl, hend.store.trans rfl, x, hx⟩
    rw [if_neg (by simp [hlive]), if_neg (by simp [hawake]), if_neg (by simp [hgrant]), he]
    rfl

end Sys2Proof.Machine
end

section
/-! PROOF. The queues of the stack engines (spec/10 R266, R267, R284, R285, R292, R295): the obligation O29. -/

namespace Sys2Proof.Machine

/-! ## A group's record -/

theorem seg_of_core {s t : State} (h : t.core = s.core) (k : Nat) : t.seg k = s.seg k := by
  unfold State.seg
  rw [h]

/-- An operation that has not started is in progress once started. -/
theorem opStart_runs {s : State} {slot : Nat} {o : Op} (ho : s.op slot = some o) (hn : o.rcpt.state = .notStarted) :
    (opStart s slot).op slot = some { o with place := .running, rcpt := { o.rcpt with state := .inProgress } } := by
  rw [(opStart_reports ho hn).op, State.op_setOp_same]

theorem opStart_now (s : State) (slot : Nat) : (opStart s slot).now = s.now := by
  cases ho : s.op slot with
  | none => simp [opStart, ho]
  | some o =>
    by_cases hn : o.rcpt.state = .notStarted
    · obtain ⟨_, _, _, _, heq⟩ := opStart_reports ho hn
      rw [heq]
      rfl
    · simp [opStart, ho, hn]

/-! ## Descriptors (R266, R267) -/

theorem exec_seDescriptor {s : State} {slot : Slot} {o : Op} (ho : s.op slot = some o) (hk : o.kind = 4)
    (hplace : o.place = .atIssuer) (hroom : (s.seg (seTile o.payload)).queue.length < 16) :
    exec (.seDescriptor slot) s = .next (match seMalformed s o.payload with
      | some e => opMalformed s slot e.2 e.1
      | none => opPlace (s.setSeg (seTile o.payload) { s.seg (seTile o.payload) with
          queue := (s.seg (seTile o.payload)).queue ++ [(slot.val, o.payload)] }) slot .queued) := by
  have hexec : exec (.seDescriptor slot) s = execSeDescriptor slot s := rfl
  rw [hexec, execSeDescriptor, ho]
  refine congrArg Host.Outcome.next ((if_neg ?_).trans ?_)
  · simp [hk, hplace, hroom]
  · rfl

/-! ## The head of a queue (R266, R284, R285) -/

/-- From s to u the head of group t's queue left it for the run r, and memory stays. -/
structure HeadTaken (s u : State) (t : Nat) (rest : List (Nat × List Byte)) (r : Option SeRun) : Prop where
  store : u.store = s.store
  queue : (u.seg t).queue = rest
  run : (u.seg t).run = r

theorem seBegin_seg (s : State) (t slot : Nat) (b : List Byte) (src : List (Nat × Nat)) :
    (seBegin s t slot b src).seg t = { s.seg t with
      queue := (s.seg t).queue.drop 1, run := some { slot := slot, desc := b, sources := src },
      waiting := none, posted := false,
      stage := if seOpcode b == 3 then kset {} (s.seg t).stage (gdescOf b).slot ⟨.filling, (gdescOf b).base, (gdescOf b).parcels⟩
               else if seOpcode b == 4 then kset {} (s.seg t).stage (gdescOf b).slot {} else (s.seg t).stage } :=
  (seg_of_core (opStart_core _ _) t).trans (kget_kset_same _ _ _ _)

theorem seBegin_store (s : State) (t slot : Nat) (b : List Byte) (src : List (Nat × Nat)) :
    (seBegin s t slot b src).store = s.store := opStart_store _ _

theorem seBegin_taken {s : State} {t slot : Nat} {b : List Byte} {rest : List (Nat × List Byte)}
    (hq : (s.seg t).queue = (slot, b) :: rest) (src : List (Nat × Nat)) :
    HeadTaken s (seBegin s t slot b src) t rest (some { slot := slot, desc := b, sources := src }) := by
  refine ⟨seBegin_store _ _ _ _ _, ?_, ?_⟩
  · rw [seBegin_seg, hq]
    rfl
  · rw [seBegin_seg]

theorem seBegin_op {s : State} {slot : Nat} {o : Op} (ho : s.op slot = some o) (hn : o.rcpt.state = .notStarted) (t : Nat)
    (b : List Byte) (src : List (Nat × Nat)) : (seBegin s t slot b src).op slot =
      some { o with place := .running, rcpt := { o.rcpt with state := .inProgress } } :=
  opStart_runs (s := s.setSeg t _) ho hn

/-- A gated step ends DONE with STEP_GATED, and its descriptor leaves the queue. -/
theorem seGated_spec {s : State} {t slot : Nat} {b : List Byte} {rest : List (Nat × List Byte)} {o : Op}
    (hq : (s.seg t).queue = (slot, b) :: rest) (ho : s.op slot = some o) (hn : o.rcpt.state = .notStarted) (reason : Nat) :
    HeadTaken s (seGated s t slot b reason) t rest (s.seg t).run ∧ ((seGated s t slot b reason).seg t).waiting = none ∧
      (seGated s t slot b reason).op slot = some { o with place := .final, rcpt := { o.rcpt with
        state := .done, status := stGated, detail := detail2 (leAt b 8 4) reason, postmark := s.now } } := by
  have hstart := opStart_runs (s := sePop s t) ho hn
  have hend := opFinal_ended (opStart (sePop s t) slot) slot .done stGated (detail2 (leAt b 8 4) reason)
  have hseg : (seGated s t slot b reason).seg t =
      { s.seg t with queue := (s.seg t).queue.drop 1, waiting := none, posted := false } :=
    (seg_of_core (hend.core.trans (opStart_core _ _)) t).trans (kget_kset_same _ _ _ _)
  refine ⟨⟨hend.store.trans (opStart_store _ _), ?_, ?_⟩, ?_, ?_⟩
  · rw [hseg, hq]
    rfl
  · rw [hseg]
  · rw [hseg]
  · refine (op_opFinal hstart rfl _ _ _).trans ?_
    rw [opStart_now]
    rfl

section
variable {s : State} {t : Tile} {slot op : Nat} {b : List Byte} {rest : List (Nat × List Byte)}
  (hrun : (s.seg t).run = none) (hq : (s.seg t).queue = (slot, b) :: rest) (hop : seOpcode b = op)
include hrun hq hop

/-- A group with nothing running puts the head of its queue to work. -/
theorem seAdvance_start (k : Nat) : seAdvance (k + 1) s t op = seAdvance k (seStart s t slot b) t op := by
  rw [seAdvance]
  simp only [hrun, hq, hop, beq_self_eq_true, if_true]

theorem seAdvance_one : seAdvance 1 s t op = seStart s t slot b := seAdvance_start hrun hq hop 0

end

/-- What starts with no verdict and no list begins at once. -/
theorem seStart_plain {s : State} {t slot : Nat} {b : List Byte} (hop : seOpcode b ≠ 1) (h2 : seOpcode b ≠ 2)
    (h3 : seOpcode b ≠ 3) : seStart s t slot b = seBegin s t slot b [] := by
  rw [seStart]
  simp only [beq_iff_eq, hop, h2, h3, Bool.and_eq_true, Bool.or_eq_true, false_and, or_self, if_false]

/-- An UPDATE that is not gated, or whose verdict opened it, begins. -/
theorem seStart_opened {s : State} {t slot : Nat} {b : List Byte} (hop : seOpcode b = 1)
    (h : (udescOf b).gated = false ∨
      ∃ v, verdictOf (s.watch (udescOf b).watch) (udescOf b).step = some v ∧ v.opened = true) :
    seStart s t slot b = seBegin s t slot b [] := by
  rw [seStart]
  cases hg : (udescOf b).gated with
  | false => simp [hop]
  | true =>
    obtain ⟨v, hv, hopen⟩ := h.resolve_left (by simp [hg])
    simp [hop, hv, hopen]

/-- A gated UPDATE whose verdict is closed ends. -/
theorem seStart_closed {s : State} {t slot : Nat} {b : List Byte} {v : Verdict} (hop : seOpcode b = 1)
    (hg : (udescOf b).gated = true) (hv : verdictOf (s.watch (udescOf b).watch) (udescOf b).step = some v)
    (hclosed : v.opened = false) : seStart s t slot b = seGated s t slot b v.reason := by
  rw [seStart]
  simp [hop, hg, hv, hclosed]

/-- A REDUCE or GATHER whose list breaks no rule runs with what the list names. -/
theorem seList_sound {s s0 : State} {t slot : Nat} {b l : List Byte}
    (hs0 : s0 = seWork (seBegin s t slot b []) t { slot := slot, desc := b } 0)
    (hread : readAt s0 (seMaster t) (seBy slot) (leAt b 24 8)
      (if seOpcode b = 2 then 8 * (rdescOf b).sources else 16 * (gdescOf b).count) = (s0, .ok l))
    (hok : worstField (listFaults b l).2 = none) :
    seList (seBegin s t slot b []) t slot b =
      setSeRun s0 t (some { slot := slot, desc := b, sources := (listFaults b l).1 }) := by
  have hlen : (if seOpcode b == 2 then 8 * (rdescOf b).sources else 16 * (gdescOf b).count) =
      if seOpcode b = 2 then 8 * (rdescOf b).sources else 16 * (gdescOf b).count := by
    by_cases h : seOpcode b = 2
    · simp [h]
    · simp [h]
  unfold seList
  simp only [← hs0, hlen, hread, hok]

theorem setSeRun_work_seg (s : State) (t : Nat) (r0 : SeRun) (r : Option SeRun) :
    (setSeRun (seWork s t r0 0) t r).seg t = { s.seg t with run := r } := kget_kset_same _ _ _ _

/-! ## DROP (R293) and the abort (R295) -/

theorem dropSeRun_spec (s : State) (t : Nat) (r : SeRun) (st : StageSt) :
    (dropSeRun s t r st).store = s.store ∧ (dropSeRun s t r st).ledger = s.ledger ∧
      ((dropSeRun s t r st).seg t).run = none ∧ ((dropSeRun s t r st).seg t).queue = (s.seg t).queue := by
  have hset : (reqDrop (setSeRun s t none) r.tags).seg t = { s.seg t with run := none } := kget_kset_same _ _ _ _
  unfold dropSeRun
  extract_lets s1 g d
  split
  · have hstage (x : KMap StageSlot) : (s1.setSeg t { g with stage := x }).seg t = { g with stage := x } :=
      kget_kset_same _ _ _ _
    have hg : g = { s.seg t with run := none } := hset
    refine ⟨rfl, rfl, ?_, ?_⟩
    · rw [hstage, hg]
    · rw [hstage, hg]
  · refine ⟨rfl, rfl, ?_, ?_⟩
    · rw [hset]
    · rw [hset]

theorem dropSeRun_of_ne_gather {s : State} {t : Nat} {r : SeRun} (h : seOpcode r.desc ≠ 3) (st : StageSt) :
    dropSeRun s t r st = reqDrop (setSeRun s t none) r.tags := by
  rw [dropSeRun]
  simp only [beq_iff_eq, h, if_false]

theorem seFail_aborts {s : State} {t : Nat} {r : SeRun} {o : Op} (ho : OpRuns s r.slot o) (status detail : Nat) :
    (seFail s t r status detail).store = s.store ∧ ((seFail s t r status detail).seg t).run = none ∧
      ((seFail s t r status detail).seg t).queue = (s.seg t).queue ∧
      EndedIn (seFail s t r status detail) r.slot o status detail := by
  obtain ⟨hstore, hledger, hrun, hqueue⟩ := dropSeRun_spec s t r .empty
  have hend := opFail_ended (dropSeRun s t r .empty) r.slot status detail
  have hruns : OpRuns (dropSeRun s t r .empty) r.slot o := ⟨by rw [State.op, hledger]; exact ho.1, ho.2⟩
  refine ⟨hend.store.trans hstore, ?_, ?_, opFail_endedIn hruns _ _⟩
  · rw [seFail, seg_of_core hend.core]
    exact hrun
  · rw [seFail, seg_of_core hend.core]
    exact hqueue

/-- A DROP starts and ends at once. -/
theorem drop_ends {s : State} {t : Tile} {slot : Nat} {b : List Byte} {rest : List (Nat × List Byte)} {o : Op}
    (hrun : (s.seg t).run = none) (hq : (s.seg t).queue = (slot, b) :: rest) (ho : s.op slot = some o)
    (hn : o.rcpt.state = .notStarted) (hop : seOpcode b = 4) (hsat : o.sat = 0) (hnon : o.nonfin = 0) (hwarn : o.warns = []) :
    ∃ u, exec (.drop t) s = .next u ∧ u.store = s.store ∧ (u.seg t).queue = rest ∧ (u.seg t).run = none ∧
      kget {} (u.seg t).stage (gdescOf b).slot = {} ∧ ∃ x, u.op slot = some x ∧ x.rcpt.state = .done ∧ x.rcpt.status = 0 := by
  have hbegin := seBegin_taken hq []
  have hseg := seBegin_seg s t slot b []
  have hopr := seBegin_op ho hn t b []
  have hstep : seAdvance 2 s t 4 = opDone (reqDrop (setSeRun (seBegin s t slot b []) t none) []) slot := by
    rw [seAdvance_start hrun hq hop 1, seStart_plain (by simp [hop]) (by simp [hop]) (by simp [hop]), seAdvance]
    simp only [hbegin.run, hop, beq_self_eq_true, if_true, seAdvance, seStep]
    rw [dropSeRun_of_ne_gather (by simp [hop])]
  generalize seBegin s t slot b [] = s1 at hbegin hseg hopr hstep
  have hruns : OpRuns (reqDrop (setSeRun s1 t none) []) slot
      { o with place := .running, rcpt := { o.rcpt with state := .inProgress } } := ⟨hopr, rfl⟩
  rw [opDone_of_runs hruns hsat hnon hwarn] at hstep
  have hend := opFinal_ended (reqDrop (setSeRun s1 t none) []) slot .done 0 0
  have hset : (reqDrop (setSeRun s1 t none) []).seg t = { s1.seg t with run := none } := kget_kset_same _ _ _ _
  have hu : (opFinal (reqDrop (setSeRun s1 t none) []) slot .done 0 0).seg t = { s1.seg t with run := none } :=
    (seg_of_core hend.core t).trans hset
  refine ⟨_, congrArg Host.Outcome.next hstep, hend.store.trans hbegin.store, ?_, ?_, ?_, _, op_opFinal hruns.1 rfl _ _ _, rfl,
    rfl⟩
  · rw [hu]
    exact hbegin.queue
  · rw [hu]
  · rw [hu, hseg]
    simp [hop]

theorem exec_gateWaitTimeout {s : State} {t : Tile} {slot since : Nat} {b : List Byte} {rest : List (Nat × List Byte)}
    (hwait : (s.seg t).waiting = some since) (hq : (s.seg t).queue = (slot, b) :: rest) (hposted : (s.seg t).posted = false)
    (hv : verdictOf (s.watch (udescOf b).watch) (udescOf b).step = none)
    (hdue : since + (s.watch (udescOf b).watch).windowUs * 1000 ≤ s.now) :
    exec (.gateWaitTimeout t) s = .next (seGated s t slot b 3) := by
  have hexec : exec (.gateWaitTimeout t) s = execGateWaitTimeout t s := rfl
  rw [hexec, execGateWaitTimeout]
  simp only [hwait, hq]
  exact congrArg Host.Outcome.next (if_neg (by simp [hposted, hv, hdue]))

theorem exec_seAbort {s : State} {k : StackNo} {m : Master} {r : SeRun} (hk : k.val % 4 = 0)
    (hgate : regGate s m.toNat (seBase k + 0x20) true = .ok) (hrun : (s.seg (k.val / 4)).run = some r)
    (hlast : seCommitted r = false) : exec (.seAbort k m) s = .next (seFail s (k.val / 4) r stReset 0) := by
  have hact : actSeAbort s (k.val / 4) = seFail s (k.val / 4) r stReset 0 := by
    rw [actSeAbort]
    simp only [hrun, hlast, Bool.false_eq_true, if_false]
  refine congrArg Host.Outcome.next ((gated_ok hgate _).trans ?_)
  exact (if_pos (by simpa using hk)).trans hact

/-! ## The obligation -/

/-- A list read at the start leaves memory and gives the run its sources. -/
theorem listed_taken {s s0 : State} {t slot : Nat} {b : List Byte} {rest : List (Nat × List Byte)}
    (hq : (s.seg t).queue = (slot, b) :: rest)
    (hs0 : s0 = seWork (seBegin s t slot b []) t { slot := slot, desc := b } 0) (r : SeRun) :
    HeadTaken s (setSeRun s0 t (some r)) t rest (some r) ∧
      ((setSeRun s0 t (some r)).seg t).stage = ((seBegin s t slot b []).seg t).stage := by
  have hbegin := seBegin_taken hq []
  subst hs0
  generalize seBegin s t slot b [] = s1 at hbegin
  have hseg := setSeRun_work_seg s1 t { slot := slot, desc := b } (some r)
  refine ⟨⟨hbegin.store, ?_, ?_⟩, ?_⟩
  · rw [hseg]
    exact hbegin.queue
  · rw [hseg]
  · rw [hseg]

/-- Settles O29: the head of a group's queue leaves it for the run or for its receipt, and nothing of it touches memory. -/
theorem stackEngineQueue : Obligations.StackEngineQueue := by
  unfold Obligations.StackEngineQueue
  refine ⟨?_, ?_, ?_, ?_⟩
  · rintro s slot o t ho hk hplace hn rfl hroom
    refine ⟨fun hok => ?_, fun e he => ?_⟩
    · rw [exec_seDescriptor ho hk hplace hroom, hok]
      exact congrArg Host.Outcome.next (opPlace_of_op (s := s.setSeg _ _) ho _)
    · have hend := opFail_ended s slot stStruct (detail2 (0xFFFFFF00 + e.2) e.1)
      refine ⟨_, (exec_seDescriptor ho hk hplace hroom).trans (by rw [he]; rfl), hend.core, hend.store, ?_⟩
      exact (opFail_notStarted ho hn stStruct (detail2 (0xFFFFFF00 + e.2) e.1)).op
  · intro s t slot b rest o hrun hq ho hn
    have hbegin := seBegin_taken hq []
    refine ⟨fun hop hopen => ?_, fun hop hg v hv hclosed => ?_, fun hop => ?_,
      fun hop hsat hnon hwarn => drop_ends hrun hq ho hn hop hsat hnon hwarn, fun s0 l hs0 hread hok => ⟨fun hop => ?_, fun hop => ?_⟩⟩
    · refine ⟨_, congrArg Host.Outcome.next ((seAdvance_one hrun hq hop).trans (seStart_opened hop hopen)), hbegin.store,
        hbegin.queue, hbegin.run, seBegin_op ho hn t b []⟩
    · obtain ⟨htaken, -, hopd⟩ := seGated_spec hq ho hn v.reason
      exact ⟨_, congrArg Host.Outcome.next ((seAdvance_one hrun hq hop).trans (seStart_closed hop hg hv hclosed)), htaken.store,
        htaken.queue, htaken.run.trans hrun, hopd⟩
    · exact ⟨_, congrArg Host.Outcome.next ((seAdvance_one hrun hq hop).trans
        (seStart_plain (by simp [hop]) (by simp [hop]) (by simp [hop]))), hbegin.store, hbegin.queue, hbegin.run⟩
    · have hstart : seStart s t slot b = seList (seBegin s t slot b []) t slot b := by
        rw [seStart]
        simp [hop]
      obtain ⟨htaken, -⟩ := listed_taken hq hs0 { slot := slot, desc := b, sources := (listFaults b l).1 }
      exact ⟨_, congrArg Host.Outcome.next ((seAdvance_one hrun hq hop).trans (hstart.trans (seList_sound hs0 hread hok))),
        htaken.store, htaken.queue, htaken.run⟩
    · have hstart : seStart s t slot b = seList (seBegin s t slot b []) t slot b := by
        rw [seStart]
        simp [hop]
      obtain ⟨htaken, hstage⟩ := listed_taken hq hs0 { slot := slot, desc := b, sources := (listFaults b l).1 }
      refine ⟨_, congrArg Host.Outcome.next ((seAdvance_one hrun hq hop).trans (hstart.trans (seList_sound hs0 hread hok))),
        htaken.store, htaken.queue, htaken.run, ?_⟩
      rw [hstage, seBegin_seg]
      simp [hop]
  · intro s t slot since b rest o hwait hq hposted ho hn hv hdue
    obtain ⟨htaken, hwaits, hopd⟩ := seGated_spec hq ho hn 3
    exact ⟨_, exec_gateWaitTimeout hwait hq hposted hv hdue, htaken.store, htaken.queue, hwaits, _, hopd, rfl, rfl, rfl⟩
  · intro s k m r o hk hgate hrun ho hlast
    exact ⟨_, exec_seAbort hk hgate hrun hlast, seFail_aborts ho stReset 0⟩

end Sys2Proof.Machine
end

section
/-! PROOF. Deliveries of whole parcels, solve requests, and the ends of a solve that does not publish (spec/08 R208 to R235,
spec/09 R247 to R255): the obligation O31. -/

namespace Sys2Proof.Machine

/-! ## Deliveries of whole parcels -/

/-- From s to t a delivery was met: memory, its errors, the log of refusals and the record of deliveries. -/
def Delivered (s t : State) : Prop :=
  t = { s with store := t.store, chk := t.chk, flash := t.flash, sec := t.sec, streams := t.streams }

namespace Delivered

theorem refl (s : State) : Delivered s s := rfl

theorem trans {s t u : State} (h1 : Delivered s t) (h2 : Delivered t u) : Delivered s u := by
  unfold Delivered at *
  rw [h2, h1]

theorem of_read {s t : State} (h : MemRead s t) : Delivered s t := by
  unfold Delivered
  rw [h]

theorem of_placed {s t : State} (h : Placed s t) : Delivered s t := by
  unfold Delivered
  rw [h]

theorem parcelWrite (s : State) (k : Nat) (d : List Byte) : Delivered s (parcelWrite s k d).1 := by
  unfold Delivered
  rw [parcelWrite_frame]

theorem op {s t : State} (h : Delivered s t) (k : Nat) : t.op k = s.op k := by rw [h]; rfl
theorem core {s t : State} (h : Delivered s t) : t.core = s.core := by rw [h]

end Delivered

theorem parcelMerge_delivered (s : State) (k off : Nat) (d : List Byte) (u : By) :
    Delivered s (parcelMerge s k off d u).1 := by
  unfold parcelMerge
  split
  · exact .parcelWrite _ _ _
  · split
    · exact .refl s
    · split
      · next h => exact (Delivered.of_read (parcelRead_read h)).trans (.parcelWrite _ _ _)
      · next h => exact .of_read (parcelRead_read h)
      · next h => exact .of_read (parcelRead_read h)

theorem noteWriter_delivered (s : State) (slot key : Nat) : Delivered s (noteWriter s slot key) := by
  unfold noteWriter
  split
  · exact .refl s
  · extract_lets st old
    split
    · exact .refl s
    · rfl

theorem deliver_delivered (s : State) (who : Who) (slot key off : Nat) (d : List Byte) (u : By) :
    Delivered s (deliver s who slot key off d u).1 := by
  unfold deliver
  split
  · exact .refl s
  · split
    · exact .refl s
    · have h := parcelMerge_delivered s key off d u
      split
      · next s1 hm =>
        rw [hm] at h
        exact h.trans (noteWriter_delivered _ _ _)
      · next s1 st hm =>
        rw [hm] at h
        exact h

theorem putParcel_delivered {s s1 : State} {m slot k : Nat} {d : List Byte} {x : Put}
    (h : putParcel s m slot k d = (s1, x)) : Delivered s s1 := by
  have hput : Delivered s (putParcel s m slot k d).1 := by
    have hp := localPlace_placed s m none k true
    unfold putParcel
    split
    · next s2 key hl =>
      rw [hl] at hp
      exact (Delivered.of_placed hp).trans (deliver_delivered _ _ _ _ _ _ _)
    · next s2 st hl =>
      rw [hl] at hp
      exact .of_placed hp
    · next s2 x hno hl =>
      rw [hl] at hp
      exact .of_placed hp
  rw [h] at hput
  exact hput

/-! ## Groups -/

theorem group_of_core {s t : State} (h : t.core = s.core) (g : Nat) : t.group g = s.group g := by
  unfold State.group
  rw [h]

theorem setSolve_group (s : State) (g : Nat) (r : Option SolveRun) : (setSolve s g r).group g = { s.group g with run := r } :=
  State.group_setGroup_same _ _ _

theorem setSlv_group (s : State) (g j : Nat) (f : TileSlv → TileSlv) : (setSlv s g f).group j = s.group j := rfl

theorem setSlv_op (s : State) (g k : Nat) (f : TileSlv → TileSlv) : (setSlv s g f).op k = s.op k := rfl

/-- A solve that has no residual program withdraws none. -/
theorem dropResidual_none {s : State} {r : SolveRun} (h : r.prog = none) : dropResidual s r = s := by
  rw [dropResidual, h]

/-- The end of a solve with no residual program: its group has none, the lead tile counts it, and its receipt follows. -/
def solveEnded (s : State) (g : Nat) (r : SolveRun) (miss : Bool) : State :=
  setSlv (setSolve s g none) g (fun x => { x with
    solves := x.solves + 1, slack := BitVec.ofInt 64 (((sreqOf r.req).deadline : Int) - (s.now : Int)),
    dlMisses := if miss then inc32 x.dlMisses else x.dlMisses })

theorem solveEnded_group (s : State) (g : Nat) (r : SolveRun) (miss : Bool) :
    (solveEnded s g r miss).group g = { s.group g with run := none } := setSolve_group _ _ _

section
variable {s : State} {g : Nat} {r : SolveRun} (hrun : (s.group g).run = some r) (hprog : r.prog = none)
include hrun hprog

theorem endSolve_error {st d : Nat} (hend : firstEnd r (.error st d) = .error st d) :
    endSolve s g (.error st d) = opFailAs (solveEnded s g r false) r.slot st d (d % 2 ^ 32 == 0xFFFFFF1C) := by
  rw [endSolve]
  simp only [hrun, hend, dropResidual_none hprog]
  rfl

theorem endSolve_missed {ph : Nat} (hph : ph ≤ 3) (hend : firstEnd r (.missed ph) = .missed ph) :
    endSolve s g (.missed ph) = opFailAs (solveEnded s g r true) r.slot stDeadline (solveDetail r.c ph none) true := by
  rw [endSolve]
  simp only [hrun, hend, dropResidual_none hprog, if_pos hph]
  rfl

theorem endSolve_done (hend : firstEnd r .done = .done) : endSolve s g .done = opDone (solveEnded s g r false) r.slot := by
  rw [endSolve]
  simp only [hrun, hend, dropResidual_none hprog]
  rfl

end

/-- A solve that ends in error without publishing. -/
structure SolveFailed (s t : State) (g slot : Nat) (o : Op) (status : Nat) : Prop where
  store : t.store = s.store
  run : (t.group g).run = none
  queue : (t.group g).queue = (s.group g).queue
  ended : EndedIn t slot o status 0

theorem endSolve_fails {s : State} {g : Nat} {r : SolveRun} {o : Op} (hrun : (s.group g).run = some r) (hprog : r.prog = none)
    (hfin : r.fin = none) (hlate : r.late = none) (ho : OpRuns s r.slot o) (status : Nat) :
    SolveFailed s (endSolve s g (.error status 0)) g r.slot o status := by
  have hend : firstEnd r (.error status 0) = .error status 0 := by rw [firstEnd, hfin, hlate]
  have heq : endSolve s g (.error status 0) = opFail (solveEnded s g r false) r.slot status 0 :=
    endSolve_error hrun hprog hend
  have hended := opFail_ended (solveEnded s g r false) r.slot status 0
  have hgroup : (endSolve s g (.error status 0)).group g = { s.group g with run := none } := by
    rw [heq, group_of_core hended.core, solveEnded_group]
  refine ⟨endSolve_store _ _ _, by rw [hgroup], by rw [hgroup], ?_⟩
  rw [heq]
  exact opFail_endedIn (s := solveEnded s g r false) ho status 0

/-- An operation in progress that ends with its work PARTIAL. -/
theorem opFailAs_partial {s : State} {slot : Nat} {o : Op} (h : OpRuns s slot o) (status detail : Nat) :
    ∃ x, (opFailAs s slot status detail true).op slot = some x ∧ x.rcpt.state = .partialEnd ∧ x.rcpt.status = status ∧
      x.rcpt.detail = detail := by
  have hf : rstateFinal o.rcpt.state = false := by simp [h.2, rstateFinal]
  have heq : opFailAs s slot status detail true =
      settle ((haltStream (opFinal s slot .partialEnd status detail) slot).ledger.length + 1)
        (haltStream (opFinal s slot .partialEnd status detail) slot) := by
    simp [opFailAs, h.1, h.2, rstateFinal]
  have hlater := (haltStream_ended (opFinal s slot .partialEnd status detail) slot).trans (settle_ended
    ((haltStream (opFinal s slot .partialEnd status detail) slot).ledger.length + 1) _)
  rw [heq]
  exact ⟨_, hlater.final slot _ (op_opFinal h.1 hf _ _ _) rfl, rfl, rfl, rfl⟩

/-! ## Requests (R208, R212) -/

theorem exec_solveRequest {s : State} {slot : Slot} {o : Op} {g : Nat} (ho : s.op slot = some o) (hk : o.kind = 3)
    (hplace : o.place = .atIssuer) (hg : g = (sreqOf o.payload).group) (hroom : (s.group g).queue.length < 64) :
    exec (.solveRequest slot) s = .next (match solveCheck s g slot o.payload with
      | (s1, .error e) => opFail s1 slot e.1 (detail2 e.2 (e.2 / 2 ^ 32))
      | (s1, .ok (some e)) => opMalformed s1 slot e.2 e.1
      | (s1, .ok none) => opPlace (s1.setGroup g { s1.group g with
          queue := (s1.group g).queue ++ [(slot.val, s1.now, o.payload)] }) slot .queued) := by
  subst hg
  have hexec : exec (.solveRequest slot) s = execSolveRequest slot s := rfl
  rw [hexec, execSolveRequest, ho]
  refine congrArg Host.Outcome.next ((if_neg ?_).trans ((if_neg (Nat.not_le.mpr hroom)).trans ?_))
  · simp [hk, hplace]
  · rfl

/-! ## The abort and the deadline (R235, R251) -/

section
variable {s : State} {g : GroupNo} {r : SolveRun} (hrun : (s.group g).run = some r)
include hrun

theorem exec_solveAbort {t : Tile} {m : Master} {v : W32} (hgate : regGate s m.toNat (tilBase t + 0x6000) true = .ok)
    (h8 : v.toNat.testBit 8 = true) (hv : v.toNat % 256 = g.val) (hlead : leadTile s g = t.val) (hlate : r.late = none)
    (hdl : s.now < (sreqOf r.req).deadline) (hph : r.phase ≠ 6) :
    exec (.solveAbort t m v) s =
      .next (endSolve (s.setTile t { s.tile t with slvGroup := g.val }) g (.error stReset 0)) := by
  refine congrArg Host.Outcome.next ((gated_ok hgate _).trans ?_)
  have hrun' : ((s.setTile t { s.tile t with slvGroup := g.val }).group g.val).run = some r := hrun
  have hlead' : leadTile (s.setTile t { s.tile t with slvGroup := g.val }) g.val = t.val := hlead
  have hdl' : ¬(sreqOf r.req).deadline ≤ (s.setTile t { s.tile t with slvGroup := g.val }).now := Nat.not_le.mpr hdl
  unfold actSolveAbort
  simp only [hv, h8, hrun', hlead', hlate, hdl', hph, bne_self_eq_false, Option.isSome_none, decide_false, Bool.or_self,
    Bool.not_true, Bool.false_eq_true, if_false, beq_iff_eq]

theorem exec_solveDeadlineExpiry (hdl : (sreqOf r.req).deadline ≤ s.now) (hlate : r.late = none) (habort : r.abort = false)
    (hph : r.phase ≤ 3) : exec (.solveDeadlineExpiry g) s = .next (endSolve s g (.missed r.phase)) := by
  have hexec : exec (.solveDeadlineExpiry g) s = execSolveDeadlineExpiry g s := rfl
  have hdue : solveDue s r = true := by simp [solveDue, hdl, hlate, habort]
  rw [hexec, execSolveDeadlineExpiry, hrun]
  refine congrArg Host.Outcome.next ((if_pos hdue).trans ?_)
  rw [missSolve, if_pos hph]

end

theorem deadline_missed {s : State} {g : GroupNo} {r : SolveRun} {o : Op} (hrun : (s.group g).run = some r)
    (ho : OpRuns s r.slot o) (hprog : r.prog = none) (hfin : r.fin = none)
    (hdl : (sreqOf r.req).deadline ≤ s.now) (hlate : r.late = none) (habort : r.abort = false) (hph : r.phase ≤ 3) :
    ∃ u, exec (.solveDeadlineExpiry g) s = .next u ∧ u.store = s.store ∧ (u.group g).run = none ∧
      ∃ x, u.op r.slot = some x ∧ x.rcpt.state = .partialEnd ∧ x.rcpt.status = stDeadline ∧
        x.rcpt.detail = solveDetail r.c r.phase none := by
  have heq := endSolve_missed hrun hprog hph (by rw [firstEnd, hfin, hlate])
  have hended := opFailAs_ended (solveEnded s g r true) r.slot stDeadline (solveDetail r.c r.phase none) true
  refine ⟨_, exec_solveDeadlineExpiry hrun hdl hlate habort hph, endSolve_store _ _ _, ?_, ?_⟩
  · rw [heq, group_of_core hended.core, solveEnded_group]
  · rw [heq]
    exact opFailAs_partial (s := solveEnded s g r true) ho _ _

/-- The residual program of a solve leaves the ledger. -/
theorem dropResidual_gone {s : State} {r : SolveRun} {id : Nat} (h : r.prog = some id) :
    (dropResidual s r).op id = none ∧ (dropResidual s r).store = s.store := by
  unfold dropResidual
  simp only [h]
  refine ⟨kfind_kdel_same _ _, ?_⟩
  split
  · split
    · exact dropProgram_store _ _
    · rfl
  · rfl

theorem residualProgram_ends {s : State} {g : GroupNo} {r : SolveRun} {id : Nat} {o : Op} (hrun : (s.group g).run = some r)
    (hprog : r.prog = some id) (ho : s.op id = some o) (hdone : o.rcpt.state = .done)
    (hdl : s.now < (sreqOf r.req).deadline) :
    ∃ u, exec (.residualProgramEnd g) s = .next u ∧ u.store = s.store ∧ u.op id = none ∧
      (u.group g).run = some { r with prog := none, stage := 2 } := by
  have hexec : exec (.residualProgramEnd g) s = execResidualProgramEnd g s := rfl
  have hdue : solveDue s r = false := by simp [solveDue, Nat.not_le.mpr hdl]
  obtain ⟨hgone, hstore⟩ := dropResidual_gone (s := s) hprog
  refine ⟨setSolve (dropResidual s r) g (some { r with prog := none, stage := 2 }), ?_, hstore, hgone, ?_⟩
  · rw [hexec, execResidualProgramEnd, hrun]
    simp only [hprog, Option.bind_some, ho, hdone, hdue, rstateFinal, Bool.not_true, Bool.false_eq_true, if_false, if_true]
  · rw [setSolve_group]

/-- Settles O31: a request is checked before it is accepted, and every end of a solve leaves memory. -/
theorem solverRequests : Obligations.SolverRequests := by
  unfold Obligations.SolverRequests
  refine ⟨?_, ?_, ?_⟩
  · intro s u slot o g ho hk hplace hn hg hroom
    refine ⟨fun hok => ?_, fun e he hou => ?_⟩
    · rw [exec_solveRequest ho hk hplace hg hroom, hok]
      exact congrArg Host.Outcome.next (opPlace_of_op (s := s.setGroup g _) ho _)
    · have hend := opFail_ended u slot stStruct (detail2 (0xFFFFFF00 + e.2) e.1)
      refine ⟨_, (exec_solveRequest ho hk hplace hg hroom).trans (by rw [he]; rfl), hend.core, ?_⟩
      exact (opFail_notStarted hou hn stStruct (detail2 (0xFFFFFF00 + e.2) e.1)).op
  · intro s g r o hrun ho hprog hfin
    refine ⟨fun t m v hgate h8 hv hlead hlate hdl hph => ?_, fun hdl hlate habort hph =>
      deadline_missed hrun ho hprog hfin hdl hlate habort hph⟩
    have h := endSolve_fails (s := s.setTile t { s.tile t with slvGroup := g.val }) hrun hprog hfin hlate ho stReset
    exact ⟨_, exec_solveAbort hrun hgate h8 hv hlead hlate hdl hph, h.store, h.run, h.queue, h.ended⟩
  · intro s g r id o hrun hprog ho hdone hdl
    exact residualProgram_ends hrun hprog ho hdone hdl

end Sys2Proof.Machine
end

section
/-! PROOF. The start, publication and end of a solve of every method (spec/08 R208 to R219, spec/09 R248 to R250): the
obligation O32. -/

namespace Sys2Proof.Machine

/-! ## The rows of the solver -/

/-- Every row of the solver advances the solves of its own method. -/
theorem exec_solveRow {e : (GroupNo → Nat → Instr) × Nat} (he : e ∈ solveRows) (s : State) (g : GroupNo) :
    exec (e.1 g 1) s = .next (solveAdvance 1 s g e.2) := by
  simp only [solveRows, List.mem_cons, List.not_mem_nil, or_false] at he
  rcases he with rfl | rfl | rfl | rfl | rfl | rfl | rfl | rfl | rfl | rfl | rfl <;> rfl

section
variable {s : State} {g : Nat} {row : Nat}

/-- With none running, the oldest request of the row starts. -/
theorem solveAdvance_start {slot acc : Nat} {b : List Byte} {rest : List (Nat × Nat × List Byte)}
    (hrun : (s.group g).run = none) (hq : (s.group g).queue = (slot, acc, b) :: rest) (hrow : (sreqOf b).row = row) :
    solveAdvance 1 s g row = startSolve s g := by
  rw [solveAdvance]
  simp only [hrun, hq, hrow, beq_self_eq_true, if_true, solveAdvance]

/-- A running solve of the row takes its turn before its deadline. -/
theorem solveAdvance_turn {r : SolveRun} (hrun : (s.group g).run = some r) (hrow : (sreqOf r.req).row = row)
    (hdl : s.now < (sreqOf r.req).deadline) : solveAdvance 1 s g row = turnStage s g r := by
  have hdue : solveDue s r = false := by simp [solveDue, Nat.not_le.mpr hdl]
  rw [solveAdvance]
  simp only [hrun, hrow, hdue, beq_self_eq_true, if_true, Bool.false_eq_true, if_false, solveAdvance]

end

/-! ## The start (R209, R219, R250) -/

/-- A group that has taken its oldest request. -/
def requestTaken (s : State) (g : Nat) (rest : List (Nat × Nat × List Byte)) : State :=
  s.setGroup g { queue := rest, run := none }

theorem requestTaken_group (s : State) (g : Nat) (rest : List (Nat × Nat × List Byte)) :
    (requestTaken s g rest).group g = { queue := rest, run := none } := State.group_setGroup_same _ _ _

/-- What the lead tile's registers take from a solve that starts. -/
def leadNoted (g : Nat) (q : SReq) (y : TileSlv) : TileSlv :=
  { y with
    lastGroup := g, curOp := q.opId, deadline := BitVec.ofNat 64 q.deadline, corr := 0,
    iterations := if q.iterative then 0 else y.iterations, fixed := if q.iterative then q.fixed else y.fixed }

/-- The solve that starts, with what the front stage found. -/
def solveBegun (s : State) (g slot acc : Nat) (b ext : List Byte) (x : Late) : SolveRun :=
  let q := sreqOf b
  { slot := slot, accepted := acc, req := b, ext := ext, members := (groupMembers s g).filter (fun n => !isDead s n),
    n := if q.gn then gnOrder b ext else x.n, phase := if q.assembles then 1 else if q.gn then 5 else 2,
    stage := if q.gn then 9 else 0, held := x.held, hcode := x.hcode, reads := x.reads }

section
variable {s : State} {g slot acc : Nat} {b : List Byte} {rest : List (Nat × Nat × List Byte)} {o : Op}
  (hq : (s.group g).queue = (slot, acc, b) :: rest) (hwait : solveWaits s g slot acc (sreqOf b) = false)
include hq hwait

/-- A request whose deadline has passed fails. -/
theorem startSolve_late (hdl : (sreqOf b).deadline ≤ s.now) :
    startSolve s g = opFail (setSlv (requestTaken s g rest) g (fun x => { x with dlMisses := inc32 x.dlMisses })) slot
      stDeadline (solveDetail 0 0 none) := by
  rw [startSolve]
  simp only [hq, hwait, hdl, Bool.false_eq_true, if_false, if_true]
  rfl

/-- A request that nothing holds back is checked with what the front stage reads. -/
theorem startSolve_checked (hdl : s.now < (sreqOf b).deadline) (hlive : (groupMembers s g).all (isDead s) = false)
    (hawake : (groupMembers s g).any (fun n => !isDead s n && isAsleep s n) = false) {x : Late} {ext : List Byte}
    (hlate : lateFaults (requestTaken s g rest) (solveMaster (leadTile s g)) (solveBy slot) b =
      (requestTaken s g rest, .ok x)) (hfault : solveFault x.faults = none)
    (hread : readAt (requestTaken s g rest) (solveMaster (leadTile s g)) (solveBy slot) (sreqOf b).ext
      (if (sreqOf b).needsExt then 256 else 0) = (requestTaken s g rest, .ok ext))
    (hext : solveFault (if (sreqOf b).needsExt then extFaults ext (sreqOf b)
      (if (sreqOf b).gn then gnOrder b ext else x.n) x.coefs x.csize (groupMembers s g) else []) = none) :
    ∃ r, startSolve s g = setSlv (setSolve (opStart (requestTaken s g rest) slot) g (some r)) g (leadNoted g (sreqOf b)) ∧
      r.slot = slot ∧ r.req = b ∧ r.pub = 0 ∧ r.members = (groupMembers s g).filter (fun i => !isDead s i) := by
  have hlate' : lateFaults (s.setGroup g { queue := rest, run := none }) (solveMaster (leadTile s g)) (solveBy slot) b =
    (requestTaken s g rest, .ok x) := hlate
  refine ⟨solveBegun s g slot acc b ext x, ?_, rfl, rfl, rfl, rfl⟩
  rw [startSolve]
  simp only [hq, hwait, Nat.not_le.mpr hdl, hlive, hawake, hlate', hfault, hread, hext, Bool.false_eq_true, if_false]
  rfl

end

theorem readAt_zero (s : State) (m : Nat) (u : By) (a : Nat) : readAt s m u a 0 = (s, .ok []) := by
  simp [readAt, ceilDiv, readParcels]

theorem leadTile_setSolve (s : State) (g j : Nat) (r : Option SolveRun) : leadTile (setSolve s j r) g = leadTile s g := rfl

theorem opStart_image (s : State) (slot : Nat) : (opStart s slot).image = s.image := by
  cases ho : s.op slot with
  | none => simp [opStart, ho]
  | some o =>
    by_cases hn : o.rcpt.state = .notStarted
    · obtain ⟨_, _, _, _, heq⟩ := opStart_reports ho hn
      rw [heq]
      rfl
    · simp [opStart, ho, hn]

/-- A started solve stands in its group, its receipt is IN_PROGRESS, and the lead tile names its operation. -/
theorem solveStarted_spec {s : State} {g slot : Nat} {rest : List (Nat × Nat × List Byte)} {o : Op} (ho : s.op slot = some o)
    (hn : o.rcpt.state = .notStarted) (r : SolveRun) (f : TileSlv → TileSlv) :
    ∃ t, setSlv (setSolve (opStart (requestTaken s g rest) slot) g (some r)) g f = t ∧ t.store = s.store ∧
      (t.group g).queue = rest ∧ (t.group g).run = some r ∧
      t.op slot = some { o with place := .running, rcpt := { o.rcpt with state := .inProgress } } ∧
      ∃ y, t.tslv (leadTile s g) = f y := by
  have hlead : leadTile (opStart (requestTaken s g rest) slot) g = leadTile s g := by
    unfold leadTile groupMembers
    rw [opStart_image]
    rfl
  have hgroup : (opStart (requestTaken s g rest) slot).group g = { queue := rest, run := none } :=
    (group_of_core (opStart_core _ _) g).trans (requestTaken_group s g rest)
  have hset : (setSlv (setSolve (opStart (requestTaken s g rest) slot) g (some r)) g f).group g =
      { queue := rest, run := some r } := (setSolve_group _ _ _).trans (by rw [hgroup])
  refine ⟨_, rfl, opStart_store _ _, by rw [hset], by rw [hset], opStart_runs (s := requestTaken s g rest) ho hn,
    (setSolve (opStart (requestTaken s g rest) slot) g (some r)).tslv (leadTile s g), ?_⟩
  unfold setSlv
  rw [leadTile_setSolve, hlead]
  exact State.tslv_setTslv_same _ _ _

/-! ## A running solve's turn (R209, R210) -/

/-- A solve that nothing is ahead of, or that publishes, runs its stage. -/
theorem turnStage_runs {s : State} {g : Nat} {r : SolveRun} (h : memberWork s r = [] ∨ r.phase = 6) :
    turnStage s g r = solveStage s g { r with ahead := none } := by
  unfold turnStage
  extract_lets work before
  refine if_neg ?_
  rcases h with hw | hp
  · have hbefore : before = [] := by
      show (match r.ahead with | none => work | some l => l.filter (fun k => work.contains k)) = []
      have hwork : work = [] := hw
      rw [hwork]
      cases r.ahead with
      | none => rfl
      | some l => simp
    simp [hbefore]
  · simp [hp]

/-- A solve one of whose members is a dead letter ends. -/
theorem solveStage_dead {s : State} {g : Nat} {r : SolveRun} (h : ∃ i ∈ r.members, isDead s i = true) :
    solveStage s g r = endSolve s g (.error stDead 0) := by
  have hany : r.members.any (isDead s) = true := List.any_eq_true.mpr h
  rw [solveStage]
  simp only [hany, if_true]

theorem solveStage_publish {s : State} {g : Nat} {r : SolveRun} (hph : r.phase = 6) (hlive : r.members.any (isDead s) = false)
    (hgo : r.members.any (isStopped s) = false) :
    solveStage s g r = stagePublish s g (solveMaster (leadTile s g)) r (sreqOf r.req) := by
  rw [solveStage]
  simp only [hlive, hgo, hph, Bool.false_eq_true, if_false]

/-! ## Publication (R210, R248) -/

/-- A parcel of X that was delivered counts. -/
def parcelCounted (s : State) (g : Nat) (r : SolveRun) (b : List Byte) : State :=
  noteNonfinite (opCount (setSolve s g (some { r with pub := r.pub + 1 })) r.slot (r.pub + 1)) r.slot r.pub b

theorem stagePublish_delivers {s s1 : State} {g m : Nat} {r : SolveRun} {q : SReq} {b : List Byte}
    (hout : (padded (outBytes r))[r.pub]? = some b) (habort : r.abort = false)
    (hput : putParcel s m r.slot (q.x + 4096 * r.pub) b = (s1, .ok)) :
    stagePublish s g m r q = parcelCounted s1 g r b := by
  rw [stagePublish]
  simp only [hout, hput, habort, onPut, parcelCounted, Bool.false_and, Bool.false_eq_true, if_false]

theorem noteNonfinite_spec {s : State} {slot : Nat} {o : Op} (ho : s.op slot = some o) (i : Nat) (b : List Byte) :
    (noteNonfinite s slot i b).store = s.store ∧ (noteNonfinite s slot i b).core = s.core ∧
      ∃ x, (noteNonfinite s slot i b).op slot = some x ∧ x.rcpt = o.rcpt := by
  rw [noteNonfinite, ho]
  dsimp only
  split
  · exact ⟨rfl, rfl, _, State.op_setOp_same _ _ _, rfl⟩
  · exact ⟨rfl, rfl, o, ho, rfl⟩

theorem parcelCounted_spec {s : State} {g : Nat} {r : SolveRun} {o : Op} (ho : s.op r.slot = some o) (b : List Byte) :
    (parcelCounted s g r b).store = s.store ∧ ((parcelCounted s g r b).group g).run = some { r with pub := r.pub + 1 } ∧
      ∃ x, (parcelCounted s g r b).op r.slot = some x ∧ x.rcpt.count = max o.rcpt.count (r.pub + 1) := by
  have ho1 : (setSolve s g (some { r with pub := r.pub + 1 })).op r.slot = some o := ho
  have hcount := opCount_op ho1 (r.pub + 1)
  have hcore : (opCount (setSolve s g (some { r with pub := r.pub + 1 })) r.slot (r.pub + 1)).core =
      (setSolve s g (some { r with pub := r.pub + 1 })).core := by
    rw [opCount, ho1]
    rfl
  obtain ⟨hstore, hcore', x, hx, hrcpt⟩ := noteNonfinite_spec hcount r.pub b
  refine ⟨hstore.trans (opCount_store _ _ _), ?_, x, hx, by rw [hrcpt]⟩
  unfold parcelCounted
  rw [group_of_core (hcore'.trans hcore), setSolve_group]

theorem stagePublish_ends {s : State} {g m : Nat} {r : SolveRun} {q : SReq} (hout : (padded (outBytes r))[r.pub]? = none)
    (hstage : r.stage ≠ 0) (hgrad : wantsGrad r q = false) (hfin : r.fin = some .done) :
    stagePublish s g m r q = endSolve s g .done := by
  rw [stagePublish]
  simp only [hout, beq_iff_eq, hstage, hgrad, hfin, Bool.not_false, if_true, if_false, Option.getD_some]

theorem endSolve_succeeds {s : State} {g : Nat} {r : SolveRun} {o : Op} (hrun : (s.group g).run = some r)
    (hprog : r.prog = none) (hfin : r.fin = some .done) (hlate : r.late = none) (ho : OpRuns s r.slot o) (hsat : o.sat = 0)
    (hnon : o.nonfin = 0) (hwarn : o.warns = []) :
    (endSolve s g .done).store = s.store ∧ ((endSolve s g .done).group g).run = none ∧
      ∃ x, (endSolve s g .done).op r.slot = some x ∧ x.rcpt.state = .done ∧ x.rcpt.status = 0 := by
  have heq := endSolve_done hrun hprog (by rw [firstEnd, hfin, hlate])
  have hruns : OpRuns (solveEnded s g r false) r.slot o := ho
  rw [opDone_of_runs hruns hsat hnon hwarn] at heq
  have hended := opFinal_ended (solveEnded s g r false) r.slot .done 0 0
  have hf : rstateFinal o.rcpt.state = false := by simp [ho.2, rstateFinal]
  refine ⟨endSolve_store _ _ _, ?_, ?_⟩
  · rw [heq, group_of_core hended.core, solveEnded_group]
  · rw [heq]
    exact ⟨_, op_opFinal hruns.1 hf _ _ _, rfl, rfl⟩

/-! ## The obligation -/

/-- Settles O32: every row runs the one stage machine, whose start and last phase are read off case by case. -/
theorem solveRuns : Obligations.SolveRuns := by
  unfold Obligations.SolveRuns
  refine ⟨fun e he s g => ⟨?_, ?_⟩, ?_⟩
  · rintro slot acc b ext rest o q x hrun hq rfl hrow hwait ho hn
    have hstart := (exec_solveRow he s g).trans (congrArg Host.Outcome.next (solveAdvance_start hrun hq hrow))
    refine ⟨fun hdl => ?_, fun hdl hlive hawake hlate hfault hread hext => ?_⟩
    · have hend := opFail_ended (setSlv (requestTaken s g rest) g (fun x => { x with dlMisses := inc32 x.dlMisses })) slot
        stDeadline (solveDetail 0 0 none)
      obtain ⟨y, hy, hstate, hstatus, -⟩ := (opFail_notStarted
        (s := setSlv (requestTaken s g rest) g (fun x => { x with dlMisses := inc32 x.dlMisses })) ho hn stDeadline
        (solveDetail 0 0 none)).op
      have hgroup := (group_of_core hend.core g).trans (requestTaken_group s g rest)
      refine ⟨_, hstart.trans (by rw [startSolve_late hq hwait hdl]), hend.store, ?_, ?_, y, hy, hstate, hstatus⟩
      · rw [hgroup]
      · rw [hgroup]
    · have hread' : ∃ ext', readAt (requestTaken s g rest) (solveMaster (leadTile s g)) (solveBy slot) (sreqOf b).ext
          (if (sreqOf b).needsExt then 256 else 0) = (requestTaken s g rest, .ok ext') ∧
          solveFault (if (sreqOf b).needsExt then extFaults ext' (sreqOf b)
            (if (sreqOf b).gn then gnOrder b ext' else x.n) x.coefs x.csize (groupMembers s g) else []) = none := by
        cases hneeds : (sreqOf b).needsExt with
        | true => exact ⟨ext, hread hneeds, hext hneeds⟩
        | false => exact ⟨[], readAt_zero _ _ _ _, rfl⟩
      obtain ⟨ext', hreads, hsound⟩ := hread'
      have hlive' : (groupMembers s g).all (isDead s) = false := by simpa using hlive
      have hawake' : (groupMembers s g).any (fun n => !isDead s n && isAsleep s n) = false := by
        simpa [List.any_eq_false, or_iff_not_imp_left] using hawake
      obtain ⟨r, hsolve, hslot, hreq, hpub, hmem⟩ :=
        startSolve_checked hq hwait hdl hlive' hawake' hlate hfault hreads hsound
      obtain ⟨t, ht, hstore, hqueue, hr, hop, y, hy⟩ :=
        solveStarted_spec (g := g) (rest := rest) ho hn r (leadNoted g (sreqOf b))
      exact ⟨t, r, hstart.trans (congrArg Host.Outcome.next (hsolve.trans ht)), hstore, hqueue, hr, hslot, hreq, hpub, hmem, hop,
        by rw [hy]; rfl⟩
  · intro r o hrun hrow ho hprog hfin hlate hdl hwork hdead
    have h := endSolve_fails hrun hprog hfin hlate ho stDead
    refine ⟨_, (exec_solveRow he s g).trans (congrArg Host.Outcome.next ((solveAdvance_turn hrun hrow hdl).trans
      ((turnStage_runs (.inl hwork)).trans (solveStage_dead (r := { r with ahead := none }) hdead)))), h.store, h.run, h.ended⟩
  · rintro e he s g r q o m hrun rfl hrow ho hprog hlate hdl habort rfl hph hlive hgo
    have hstage : exec (e.1 g 1) s = .next (stagePublish s g (solveMaster (leadTile s g)) { r with ahead := none }
        (sreqOf r.req)) :=
      (exec_solveRow he s g).trans (congrArg Host.Outcome.next ((solveAdvance_turn hrun hrow hdl).trans
        ((turnStage_runs (.inr hph)).trans (solveStage_publish (r := { r with ahead := none }) hph hlive hgo))))
    refine ⟨fun b s1 hout hput => ?_, fun hout hst hgrad hsat hnon hwarn hfin => ?_⟩
    · have hdel := putParcel_delivered hput
      have ho1 : s1.op r.slot = some o := (hdel.op _).trans ho.1
      obtain ⟨hstore, hr, hx⟩ := parcelCounted_spec (g := g) (r := { r with ahead := none }) ho1 b
      exact ⟨_, hstage.trans (congrArg Host.Outcome.next
        (stagePublish_delivers (r := { r with ahead := none }) hout habort hput)), hstore, hr, hx⟩
    · obtain ⟨hstore, hr, hx⟩ := endSolve_succeeds hrun hprog hfin hlate ho hsat hnon hwarn
      exact ⟨_, hstage.trans (congrArg Host.Outcome.next
        (stagePublish_ends (r := { r with ahead := none }) hout hst hgrad hfin)), hstore, hr, hx⟩

end Sys2Proof.Machine
end

section
/-! PROOF. What work and its ends leave of the pattern packs (spec/19 R497, R498): the pack held and the one that waits stay
through memory's errors, deliveries, the end of operations, programs, solves and tensor operations, and a classified fault. -/

namespace Sys2Proof.Machine

/-- From s to t the pack held and the one that waits are the same. -/
def PacksKept (s t : State) : Prop := t.chk.pack = s.chk.pack ∧ t.chk.packPending = s.chk.packPending

namespace PacksKept

theorem refl (s : State) : PacksKept s s := ⟨rfl, rfl⟩

theorem trans {s t u : State} (h1 : PacksKept s t) (h2 : PacksKept t u) : PacksKept s u :=
  ⟨h2.1.trans h1.1, h2.2.trans h1.2⟩

theorem of_chk {s t : State} (h : t.chk = s.chk) : PacksKept s t := by rw [PacksKept, h]; exact ⟨rfl, rfl⟩

theorem of_ended {s t : State} (h : OpsEnded s t) : PacksKept s t := by
  obtain ⟨_, _, _, _, _, _, rfl⟩ := h.frame
  exact .refl _

theorem of_reports {s t : State} (h : ReportsOnly s t) : PacksKept s t := by
  obtain ⟨_, _, _, _, rfl⟩ := h
  exact .refl _

theorem of_ports {s t : State} (h : PortsOnly s t) : PacksKept s t := .of_chk (by rw [h.frame])

theorem foldl {α : Type} {f : State → α → State} (hf : ∀ u a, PacksKept u (f u a)) (l : List α) (s : State) :
    PacksKept s (l.foldl f s) :=
  List.foldlRecOn (motive := fun u : State => PacksKept s u) l f (refl s) fun _ hu a _ => hu.trans (hf _ a)

end PacksKept

/-! ## Failure records and memory's errors -/

theorem cperStore_packs (s : State) (c : Cper) : PacksKept s (cperStore s c) := by
  unfold cperStore
  extract_lets id s1
  split
  · exact .refl s
  · exact .refl s

theorem cperAdd_packs (s : State) (e k : Nat) (c : Cper) : PacksKept s (cperAdd s e k c) := by
  unfold cperAdd
  extract_lets c' k' sec f
  split
  · exact cperStore_packs _ _
  · split
    · exact .refl s
    · exact .trans (.refl s) (cperStore_packs _ _)

theorem sealEvent_packs (s : State) (u : By) (key loc home : Nat) : PacksKept s (sealEvent s u key loc home) := by
  unfold sealEvent
  extract_lets s1 o
  exact .trans (.refl s) (cperAdd_packs _ _ _ _)

theorem meetCodeword_packs (s : State) (k q cw : Nat) : PacksKept s (meetCodeword s k q cw).1 := by
  unfold meetCodeword
  extract_lets x e _ lostRow
  split
  · exact .refl s
  · split
    · split
      · exact .refl s
      · extract_lets x1 x2 s1
        exact .trans (.refl s) (cperAdd_packs _ _ _ _)
    · exact .trans (.refl s) (cperAdd_packs _ _ _ _)

theorem meetParcel_packs (n : Nat) (s : State) (k q : Nat) : PacksKept s (meetParcel n s k q).1 := by
  induction n with
  | zero => exact .refl s
  | succ n ih =>
    unfold meetParcel
    extract_lets r
    split
    · exact ih
    · exact ih.trans (meetCodeword_packs _ _ _ _)

theorem meetStored_packs (s : State) (k q : Nat) (b : Bool) : PacksKept s (meetStored s k q b).1 := by
  have hm := meetParcel_packs 64 s k q
  unfold meetStored
  generalize meetParcel 64 s k q = m at hm
  extract_lets m'
  split
  · exact hm
  · exact hm.trans (meetCodeword_packs _ _ _ _)

theorem lostRead_packs (s : State) (k q : Nat) : PacksKept s (lostRead s k q) := by
  unfold lostRead
  extract_lets x
  split
  · exact .refl s
  · exact .refl s

theorem meetLost_packs {s u : State} {k q : Nat} {b : Bool} (h : meetLost s k q b = some u) : PacksKept s u := by
  unfold meetLost at h
  split at h
  · exact Option.some.inj h ▸ lostRead_packs s k q
  · split at h
    · exact Option.some.inj h ▸ lostRead_packs s k _
    · exact absurd h (by simp)

theorem parcelGet_packs (s : State) (k : Nat) (check : Bool) (u : By) : PacksKept s (parcelGet s k check u).1 := by
  unfold parcelGet
  split
  · split
    · exact .refl s
    · extract_lets sq m d bad
      have hm : PacksKept s m.1 := meetStored_packs s sq.1 sq.2 check
      clear_value m d bad sq
      split
      · next hl => exact meetLost_packs hl
      · split
        · exact hm
        · split
          · exact hm.trans (sealEvent_packs _ _ _ _ _)
          · exact hm
  · split
    · exact .refl s
    · split
      · exact sealEvent_packs _ _ _ _ _
      · exact .refl s

theorem parcelRead_packs {s t : State} {k : Nat} {u : By} {x : Rd} (h : parcelRead s k u = (t, x)) : PacksKept s t := by
  have hr := parcelGet_packs s k true u
  rw [show parcelGet s k true u = (t, x) from h] at hr
  exact hr

/-! ## Writes of parcels -/

theorem parcelWrite_packs (s : State) (k : Nat) (d : List Byte) : PacksKept s (parcelWrite s k d).1 :=
  .of_chk (by rw [parcelWrite_frame])

theorem parcelMerge_packs (s : State) (k off : Nat) (d : List Byte) (u : By) : PacksKept s (parcelMerge s k off d u).1 := by
  unfold parcelMerge
  split
  · exact parcelWrite_packs _ _ _
  · split
    · exact .refl s
    · split
      · next h => exact (parcelRead_packs h).trans (parcelWrite_packs _ _ _)
      · next h => exact parcelRead_packs h
      · next h => exact parcelRead_packs h

theorem noteWriter_packs (s : State) (slot key : Nat) : PacksKept s (noteWriter s slot key) := by
  unfold noteWriter
  split
  · exact .refl s
  · extract_lets st old
    split
    · exact .refl s
    · exact .refl s

theorem deliver_packs (s : State) (who : Who) (slot key off : Nat) (d : List Byte) (u : By) :
    PacksKept s (deliver s who slot key off d u).1 := by
  unfold deliver
  split
  · exact .refl s
  · split
    · exact .refl s
    · have h := parcelMerge_packs s key off d u
      split
      · next s1 hm =>
        rw [hm] at h
        exact h.trans (noteWriter_packs _ _ _)
      · next s1 st hm =>
        rw [hm] at h
        exact h

theorem localPlace_packs (s : State) (m : Nat) (own : Option Nat) (off : Nat) (w : Bool) :
    PacksKept s (localPlace s m own off w).1 := by
  unfold localPlace
  extract_lets n key
  repeat' split
  all_goals exact .refl s

theorem addrPlace_packs (s : State) (m : Nat) (own : Option Nat) (a : W64) (w : Bool) :
    PacksKept s (addrPlace s m own a w).1 := by
  unfold addrPlace
  extract_lets v chip
  split
  · split
    · exact localPlace_packs _ _ _ _ _
    · exact .refl s
  · split
    · exact .refl s
    · exact localPlace_packs _ _ _ _ _

theorem writePlace_packs (s : State) (m : Nat) (own : Option Nat) (a : W64) (whole : Bool) :
    PacksKept s (writePlace s m own a whole).1 := by
  have h := addrPlace_packs s m own a true
  unfold writePlace
  split
  · next s1 k hp =>
    rw [hp] at h
    split
    · exact h
    · exact h.trans (addrPlace_packs _ _ _ _ _)
  · exact h

theorem reqSend_packs (s : State) (m chip off : Nat) (write reg : Bool) (d : List Byte) (len check : Nat) :
    PacksKept s (reqSend s m chip off write reg d len check).1 := by
  unfold reqSend
  extract_lets tag _ h r rim q _ s1
  have hs1 : PacksKept s s1 := .refl s
  clear_value s1 r
  cases r
  · exact hs1.trans (.refl _)
  · exact hs1.trans (.of_ports (linkSend_ports _ _ _))

theorem remoteWrite_packs (s : State) (tags : List Nat) (m chip off : Nat) (d : List Byte) :
    PacksKept s (remoteWrite s tags m chip off d).1 := by
  unfold remoteWrite
  split
  · split
    · exact .refl s
    · exact .refl s
  · split
    · exact .refl s
    · exact reqSend_packs _ _ _ _ _ _ _ _ _

theorem writeRecord_packs (s : State) (p : Nat) (tags : List Nat) (a : W64) (b : List Byte) :
    PacksKept s (writeRecord s p tags a b).1 := by
  have h := writePlace_packs s (16 + tileOfP p) (some p) a false
  unfold writeRecord
  generalize writePlace s (16 + tileOfP p) (some p) a false = w at h
  obtain ⟨s1, x⟩ := w
  cases x with
  | mem k =>
    dsimp only
    split
    · exact h
    · have hm := parcelMerge_packs s1 (k - k % 4096) (k % 4096) b ⟨1, none⟩
      split
      · next hp => rw [hp] at hm; exact h.trans hm
      · next hp => rw [hp] at hm; exact h.trans hm
  | regs off => exact h
  | bad st => exact h
  | remote c o => exact h.trans (remoteWrite_packs _ _ _ _ _ _)

/-! ## The end of operations, programs and solves -/

theorem opFail_packs (s : State) (slot status detail : Nat) : PacksKept s (opFail s slot status detail) :=
  .of_ended (opFail_ended _ _ _ _)

theorem opDone_packs (s : State) (slot : Nat) : PacksKept s (opDone s slot) := by
  have hstart (u : State) : PacksKept u (opStart u slot) := by
    unfold opStart
    split
    · exact .refl u
    · split
      · exact .trans (t := u.setOp slot _) (.refl u) (.of_reports (setReceipt_reports _ _ _))
      · exact .refl u
  unfold opDone
  split
  · exact .refl s
  · exact (hstart s).trans (.of_ended (opFinal_ended _ _ _ _ _))

theorem dropProgram_packs (s : State) (p : Nat) : PacksKept s (dropProgram s p) := by
  unfold dropProgram
  extract_lets q s1
  have hs1 : PacksKept s s1 := by
    subst s1
    split
    · exact .refl s
    · exact .refl s
  exact hs1.trans (.refl _)

theorem endProgram_packs (s : State) (p status detail : Nat) : PacksKept s (endProgram s p status detail) := by
  unfold endProgram
  split
  · exact .refl s
  · exact (dropProgram_packs s p).trans (opFail_packs _ _ _ _)

theorem endQuiesced_packs (s : State) (p : Nat) : PacksKept s (endQuiesced s p) :=
  (endProgram_packs s p stReset 0).trans (.refl _)

theorem dropResidual_packs (s : State) (r : SolveRun) : PacksKept s (dropResidual s r) := by
  unfold dropResidual
  split
  · exact .refl s
  · extract_lets n x s1 p s2
    have hs2 : PacksKept s1 s2 := by
      subst s2
      split
      · split
        · exact dropProgram_packs _ _
        · exact .refl _
      · exact .refl _
    exact (PacksKept.trans (.refl s) hs2).trans (.refl _)

theorem endSolve_packs (s : State) (g : Nat) (e : SolveEnd) : PacksKept s (endSolve s g e) := by
  unfold endSolve
  split
  · exact .refl s
  next r _ =>
    extract_lets e' q s1
    have hs1 : PacksKept s s1 := (dropResidual_packs s r).trans (.refl _)
    clear_value s1 e'
    cases e'
    · exact hs1.trans (opDone_packs _ _)
    · exact hs1.trans (opFail_packs _ _ _ _)
    · exact hs1.trans (.of_ended (opFailAs_ended _ _ _ _ _))
    · exact hs1.trans (.of_ended (opFailAs_ended _ _ _ _ _))

theorem endSolvesOf_packs (s : State) (f : SolveRun → Bool) : PacksKept s (endSolvesOf s f) := by
  refine .foldl (fun u e => ?_) _ s
  split
  · exact endSolve_packs _ _ _
  · exact .refl _

/-! ## The end of tensor operations -/

theorem teFail_packs (s : State) (p status detail : Nat) : PacksKept s (teFail s p status detail) := by
  unfold teFail
  extract_lets t s1 s2
  split
  · exact .refl s
  · have hs2 : PacksKept s1 s2 := by
      subst s2
      split
      · exact .refl _
      · exact .refl _
    have hs1 : PacksKept s s1 := .refl s
    split
    · exact hs1.trans hs2
    · exact (hs1.trans hs2).trans (opFail_packs _ _ _ _)

theorem teDone_packs (s : State) (p : Nat) : PacksKept s (teDone s p) := by
  unfold teDone
  extract_lets t s1 s2
  split
  · exact .refl s
  · extract_lets s3 s4
    have hs3 : PacksKept s s3 := .refl s
    have hs4 : PacksKept s3 s4 := by
      subst s4
      split
      · exact .refl _
      · exact .refl _
    split
    · exact hs3.trans hs4
    · exact (hs3.trans hs4).trans (opDone_packs _ _)

theorem opCount_packs (s : State) (slot n : Nat) : PacksKept s (opCount s slot n) := by
  unfold opCount
  split
  · exact .refl s
  · exact .refl s

theorem opTally_packs (s : State) (slot : Nat) (t : Tally) (q : Option Nat) : PacksKept s (opTally s slot t q) := by
  unfold opTally
  split
  · exact .refl s
  · exact .refl s

theorem releaseEnd_packs (p : Nat) (r : TeRun) (d : TDesc) (q : Nat) (t : Tally) (x : State × Put) :
    PacksKept x.1 (releaseEnd p r d q t x) := by
  obtain ⟨s, v⟩ := x
  cases v with
  | double k => exact teFail_packs _ _ _ _
  | fail st => exact teFail_packs _ _ _ _
  | wait => exact .refl s
  | ok =>
    have hset (x : Te) : PacksKept s (s.setTe p x) := .refl s
    unfold releaseEnd
    dsimp only
    split
    · exact hset _
    · exact ((hset _).trans (opCount_packs _ _ _)).trans (opTally_packs _ _ _ _)

theorem commitNext_packs (s : State) (p : Nat) (r : TeRun) (d : TDesc) : PacksKept s (commitNext s p r d) := by
  unfold commitNext
  extract_lets right f
  split
  · exact .refl s
  · split
    · exact .refl s
    · exact (deliver_packs _ _ _ _ _ _ _).trans (releaseEnd_packs _ _ _ _ _ _)

theorem commitWhole_packs (fuel : Nat) (s : State) (p : Nat) (whole : Nat → Bool) :
    PacksKept s (commitWhole fuel s p whole) := by
  induction fuel generalizing s with
  | zero => exact .refl s
  | succ k ih =>
    unfold commitWhole
    split
    · exact .refl s
    · extract_lets d s1
      have hs1 : PacksKept s s1 := commitNext_packs _ _ _ _
      split
      · exact .refl s
      · split
        · exact teDone_packs _ _
        · split
          · exact .refl s
          · split
            · exact hs1.trans (ih _)
            · exact hs1

theorem suspendEnd_packs (s : State) (p : Nat) (u : Susp) (f : Option Nat) : PacksKept s (suspendEnd s p u f) :=
  .trans (.refl s) (teFail_packs _ _ _ _)

theorem suspendGo_packs (fuel : Nat) (s : State) (p : Nat) : PacksKept s (suspendGo fuel s p) := by
  induction fuel generalizing s with
  | zero => exact .refl s
  | succ k ih =>
    unfold suspendGo
    split
    · exact .refl s
    next u _ =>
      split
      · exact suspendEnd_packs _ _ _ _
      next b rest _ =>
        have hw := writeRecord_packs s p u.tags u.addr b
        split
        · next h => rw [h] at hw; exact (hw.trans (.refl _)).trans (ih _)
        · next h => rw [h] at hw; exact hw.trans (suspendEnd_packs _ _ _ _)
        · next h => rw [h] at hw; exact hw.trans (.refl _)

theorem stopTensor_packs (s : State) (p : Nat) (save : Bool) : PacksKept s (stopTensor s p save) := by
  unfold stopTensor
  split
  · exact .refl s
  · exact .refl s
  · extract_lets d f place blockDone midBand done s1 s2
    have hs1 : PacksKept s s1 := .trans (t := f.2) (.refl s) (commitWhole_packs _ _ _ _)
    have hs2 : PacksKept s s2 := by
      subst s2
      split
      · exact hs1.trans (.refl _)
      · exact hs1
    clear_value s1 s2
    split
    · split
      · exact hs1.trans (.refl _)
      · exact hs1
    · split
      · exact hs1.trans (suspendGo_packs _ _ _)
      · exact hs2.trans (teFail_packs _ _ _ _)

theorem quiesceTensor_packs (s : State) (p : Nat) : PacksKept s (quiesceTensor s p) := by
  unfold quiesceTensor
  split
  · exact .refl s
  · split
    · exact (stopTensor_packs s p false).trans (.refl _)
    · split
      · exact .refl s
      · exact stopTensor_packs s p true

theorem quiesceCluster_packs (s : State) (n : Nat) : PacksKept s (quiesceCluster s n) := by
  unfold quiesceCluster
  extract_lets p l s0 s1 s2
  have hs1 : PacksKept s s1 := by
    subst s1
    split
    · exact .refl s
    · exact .trans (.refl s) (endQuiesced_packs s0 p)
  have hs2 : PacksKept s s2 := (hs1.trans (quiesceTensor_packs _ _)).trans (endSolvesOf_packs _ _)
  split
  · exact .refl s
  · split
    · exact hs2
    · exact hs2.trans (.refl _)

/-! ## A classified fault (R492, R493) -/

theorem recordSuspect_packs (s : State) (p : Nat) : PacksKept s (recordSuspect s p) := by
  unfold recordSuspect
  split
  · exact .refl s
  · exact .refl s

theorem quietPhys_packs (s : State) (p : Nat) : PacksKept s (quietPhys s p) := by
  unfold quietPhys
  split
  · exact quiesceCluster_packs _ _
  · exact .refl s

theorem setClu_packs (s : State) (p : Nat) (x : Clu) : PacksKept s (s.setClu p x) := .refl s

theorem holdFaulty_packs (s : State) (p : Nat) : PacksKept s (holdFaulty s p) := by
  unfold holdFaulty
  exact ((setClu_packs s p _).trans (quietPhys_packs _ _)).trans (recordSuspect_packs _ _)

theorem rehome_packs (s : State) (p h h' : Nat) : PacksKept s (rehome s p h h') := by
  unfold rehome
  exact .refl s

theorem setLclu_packs (s : State) (n : Nat) (x : LClus) : PacksKept s (s.setLclu n x) := .refl s

theorem setTile_packs (s : State) (t : Nat) (x : TileS) : PacksKept s (s.setTile t x) := .refl s

theorem buildPage_packs (s : State) (t : Nat) : PacksKept s (buildPage s t) := by
  unfold buildPage
  exact setTile_packs _ _ _

theorem retireCluster_packs (s : State) (p : Nat) : PacksKept s (retireCluster s p) := by
  unfold retireCluster
  extract_lets n c s0 te ck s1 core due s2 s3 s4
  have hs0 : PacksKept s s0 := by
    subst s0
    clear_value n
    cases n with
    | none => exact .refl s
    | some n => exact iteInduction (motive := fun u : State => PacksKept s u) (fun _ => .refl s) (fun _ => rehome_packs _ _ _ _)
  clear_value s0
  have hs1 : PacksKept s0 s1 := setClu_packs s0 p _
  clear_value s1
  have hs2 : PacksKept s0 s2 := hs1.trans (.refl s1)
  clear_value s2
  have hs3 : PacksKept s s3 := (hs0.trans hs2).trans (.of_ended (failAll_ended _ _ _ _))
  have hs4 : PacksKept s s4 := by
    clear_value s3
    subst s4
    clear_value n
    cases n with
    | none => exact hs3
    | some n => exact (hs3.trans (setLclu_packs s3 n _)).trans (.of_ended (failAll_ended _ _ _ _))
  exact hs4.trans (buildPage_packs _ _)

theorem retireFaulty_packs (s : State) (p : Nat) : PacksKept s (retireFaulty s p) := by
  unfold retireFaulty
  extract_lets s1
  have hs1 : PacksKept s s1 := retireCluster_packs s p
  clear_value s1
  exact hs1.trans (.refl s1)

theorem permanentFault_packs (s : State) (p : Nat) (retire : Bool) : PacksKept s (permanentFault s p retire) := by
  unfold permanentFault
  extract_lets c unit ck s1 sig
  have hs1 : PacksKept s s1 := .refl s
  split
  · exact (hs1.trans (retireFaulty_packs s1 p)).trans (cperAdd_packs _ _ _ _)
  · exact (hs1.trans (holdFaulty_packs _ _)).trans (cperAdd_packs _ _ _ _)

theorem hourTurn_packs (s : State) : PacksKept s (hourTurn s) := by
  unfold hourTurn
  split
  · exact .refl s
  · exact .refl s

theorem transientFault_packs (s : State) (p : Nat) (retire : Bool) : PacksKept s (transientFault s p retire) := by
  unfold transientFault
  extract_lets s0 c k ck s1 x s2 sig s3
  have hs3 : PacksKept s s3 := ((hourTurn_packs s).trans (.refl s2)).trans (cperAdd_packs _ _ _ _)
  split
  · exact hs3.trans (permanentFault_packs _ _ _)
  · exact hs3.trans (.refl _)

theorem classify_packs (s : State) (p equalRuns : Nat) (retire : Bool) : PacksKept s (classify s p equalRuns retire) := by
  unfold classify
  split
  · exact permanentFault_packs _ _ _
  · exact transientFault_packs _ _ _

/-! ## The results of a run (R498, R499) -/

theorem freeBytes_packs (n : Nat) (s : State) : PacksKept s (freeBytes n s).2 := by
  induction n generalizing s with
  | zero => exact .refl s
  | succ n ih => exact .trans (.refl s) (ih _)

theorem packLeaves_packs (s : State) (b : List Byte) (p : Nat) (t : PackTest) : PacksKept s (packLeaves s b p t) :=
  (freeBytes_packs (512 * t.outParcels) s).trans (.refl _)

theorem packOutcome_packs (s : State) (b : List Byte) (out : List PackOutcome) (p : Nat) :
    PacksKept s (packOutcome s b out p).1 := by
  unfold packOutcome
  split
  · exact .refl s
  · split
    · exact .refl s
    · split
      · exact .refl s
      · extract_lets c s1
        change PacksKept s s1
        subst s1
        split
        · exact classify_packs _ _ _ _
        · exact .refl s

theorem packResults_packs (l : List Nat) (s : State) (b : List Byte) (out : List PackOutcome) :
    PacksKept s (packResults s b out l).1 := by
  induction l generalizing s with
  | nil => exact .refl s
  | cons p t ih =>
    unfold packResults
    extract_lets s1 r s2 x
    have hr : PacksKept s r.1 := (PacksKept.foldl (packLeaves_packs · b p ·) _ s).trans (packOutcome_packs _ _ _ _)
    have hs2 : PacksKept s s2 := by
      subst s2
      split
      · exact hr.trans (cperAdd_packs _ _ _ _)
      · exact hr
    exact hs2.trans (ih s2)

end Sys2Proof.Machine
end

section
/-! PROOF. Broadcast fragments, own broadcasts, the held image and pattern packs (spec/18 R462 to R466, spec/19 R497 to R499):
the obligation O51. -/

namespace Sys2Proof.Machine

/-! ## Fragments (R462, R463) -/

theorem bcastSend_ports (s : State) (n : Nat) (b : Bcast) : PortsOnly s (bcastSend s n b) := linkSend_ports _ _ _

theorem floodBcast_ports (s : State) (but : Option Nat) (b : Bcast) : PortsOnly s (floodBcast s but b) :=
  .foldl (fun _ _ => bcastSend_ports _ _ _) _ s

theorem bcastSends_onPort {l : List Nat} {k : Nat} (hk : k ∈ l) (s : State) (b : Bcast) :
    OnPort (l.foldl (fun a n => bcastSend a n b) s) k (.bcast k b) := by
  have hkeep (l : List Nat) (u : State) (hu : OnPort u k (.bcast k b)) :
      OnPort (l.foldl (fun a n => bcastSend a n b) u) k (.bcast k b) :=
    List.foldlRecOn (motive := fun u : State => OnPort u k (.bcast k b)) l _ hu fun _ hv a _ => hv.linkSend _ _
  induction l generalizing s with
  | nil => exact absurd hk List.not_mem_nil
  | cons a t ih =>
    rcases List.mem_cons.mp hk with rfl | hk
    · exact hkeep t _ (linkSend_put s k _).onPort
    · exact ih hk _

/-- A fragment is flooded on every port that carries it but the one it came by. -/
theorem floodBcast_onPort {s : State} {but : Option Nat} {k : Nat} (hk : k < 12) (hp : portBcast s k = true)
    (hbut : but ≠ some k) (b : Bcast) : OnPort (floodBcast s but b) k (.bcast k b) :=
  bcastSends_onPort (List.mem_filter.mpr ⟨List.mem_range.mpr hk, by simpa [hp] using Ne.symm hbut⟩) s b

theorem portBcast_linkRecv (s : State) (n vc k j : Nat) : portBcast (linkRecv s n vc k) j = portBcast s j := by
  rw [portBcast, linkRecv_port, portBcast]

/-- The object that a first fragment of a kind begins. -/
def firstFragment (b : Bcast) : BObj :=
  { id := b.id.toNat, bkind := b.bkind.toNat, force := b.force, total := b.total.toNat, digest := b.digest,
    frags := kput [] b.offset.toNat b.frag, seqs := kput [] b.offset.toNat b.seq.toNat }

/-- One fragment is not the whole of an object of more than 4,096 bytes. -/
theorem objBytes_firstFragment {b : Bcast} (h : 4096 < b.total.toNat) : objBytes (firstFragment b) = none := by
  have hn : 2 ≤ ceilDiv b.total.toNat 4096 := by
    rw [ceilDiv]
    omega
  obtain ⟨i, hi, hne⟩ : ∃ i, i < 2 ∧ b.offset.toNat ≠ i := by
    by_cases h0 : b.offset.toNat = 0
    · exact ⟨1, by omega, by omega⟩
    · exact ⟨0, by omega, h0⟩
  have hmiss : kfind (firstFragment b).frags i = none := kfind_kput_ne [] _ i b.frag hne
  refine if_neg fun hall => ?_
  have := List.all_eq_true.mp hall i (List.mem_range.mpr (lt_of_lt_of_le hi hn))
  rw [hmiss] at this
  exact absurd this (by simp)

theorem takeFragment_first {s : State} {b : Bcast} (h5 : 5 ≤ s.boot.stage) (hk1 : 1 ≤ b.bkind.toNat)
    (hk3 : b.bkind.toNat ≤ 3) (htotal : 4096 < b.total.toNat) (hmax : b.total.toNat ≤ 2 ^ 26) (hobjs : s.bcast.objs = []) :
    takeFragment s b = { s with bcast := { s.bcast with objs := [firstFragment b] } } := by
  have hzero : (b.total == 0) = false := by
    rw [beq_eq_false_iff_ne]
    intro h
    rw [h] at htotal
    exact absurd htotal (by decide)
  have hwhole := objBytes_firstFragment htotal
  unfold takeFragment
  rw [hobjs]
  simp only [List.find?_nil, List.filter_nil, List.nil_append, hzero, hk1, hk3]
  rw [if_neg (by simp; omega)]
  change (match objBytes (firstFragment b) with | some _ => _ | none => _) = _
  rw [hwhole]
  rfl

/-- The state in which a fragment never seen before is taken. -/
def fragmentFlooded (s : State) (n : PortNo) (b : Bcast) : State :=
  let u := linkRecv s n vcMaint (1 + (b.frag.length + 255) / 256)
  floodBcast { u with net := { u.net with seen := (0x24, b.origin.toNat, b.seq.toNat) :: u.net.seen } } (some n.val) b

theorem exec_broadcast {s : State} {n : PortNo} {b : Bcast} (hr : b.rsv = false) (hp : portBcast s n = true)
    (hf : b.fcheck.toNat = crc32c b.frag) (hnew : (0x24, b.origin.toNat, b.seq.toNat) ∉ s.net.seen) :
    exec (.broadcast n b) s = .next (takeFragment (fragmentFlooded s n b) b) := by
  have hexec : exec (.broadcast n b) s = execBroadcast n b s := rfl
  have hp' : portBcast (linkRecv s n vcMaint (1 + (b.frag.length + 255) / 256)) n = true := by rw [portBcast_linkRecv, hp]
  rw [hexec, execBroadcast]
  simp only [hr, hp', hf, seenFlood_new (s := linkRecv s n vcMaint (1 + (b.frag.length + 255) / 256)) hnew]
  simp [fragmentFlooded]

theorem fragment_taken {s : State} {n : PortNo} {b : Bcast} (hr : b.rsv = false) (hp : portBcast s n = true)
    (hf : b.fcheck.toNat = crc32c b.frag) (hnew : (0x24, b.origin.toNat, b.seq.toNat) ∉ s.net.seen) (h5 : 5 ≤ s.boot.stage)
    (hk1 : 1 ≤ b.bkind.toNat) (hk3 : b.bkind.toNat ≤ 3) (htotal : 4096 < b.total.toNat) (hmax : b.total.toNat ≤ 2 ^ 26)
    (hobjs : s.bcast.objs = []) :
    ∃ t, exec (.broadcast n b) s = .next t ∧
      t = { s with net := t.net, bcast := t.bcast, sent := t.sent, ports := t.ports } ∧
      (0x24, b.origin.toNat, b.seq.toNat) ∈ t.net.seen ∧
      (∀ k, k < 12 → k ≠ n.val → portBcast s k = true → OnPort t k (.bcast k b)) ∧
      ∃ o, t.bcast.objs = [o] ∧ o.id = b.id.toNat ∧ o.bkind = b.bkind.toNat ∧ o.complete = false ∧
        kfind o.frags b.offset.toNat = some b.frag := by
  have hframe : fragmentFlooded s n b = { s with
      net := { s.net with seen := (0x24, b.origin.toNat, b.seq.toNat) :: s.net.seen },
      sent := (fragmentFlooded s n b).sent, ports := (fragmentFlooded s n b).ports } := (floodBcast_ports _ _ _).frame
  have hport (k : Nat) (hk : k < 12) (hne : k ≠ n.val) (hok : portBcast s k = true) :
      OnPort (fragmentFlooded s n b) k (.bcast k b) := by
    refine floodBcast_onPort hk ?_ (fun h => hne (Option.some.inj h).symm) b
    exact (portBcast_linkRecv s n _ _ k).trans hok
  have hexec := exec_broadcast hr hp hf hnew
  generalize fragmentFlooded s n b = u at hframe hport hexec
  have htaken : takeFragment u b = { u with bcast := { u.bcast with objs := [firstFragment b] } } :=
    takeFragment_first (by rw [hframe]; exact h5) hk1 hk3 htotal hmax (by rw [hframe]; exact hobjs)
  rw [htaken] at hexec
  refine ⟨_, hexec, ?_, ?_, hport, firstFragment b, rfl, rfl, rfl, rfl, kfind_kput_same _ _ _⟩
  · rw [hframe]
  · rw [hframe]
    exact List.mem_cons_self

/-! ## Own broadcasts (R464, R465) -/

/-- From s to t the registers of this module's own broadcasts are the same. -/
def OwnBcastKept (s t : State) : Prop :=
  t.bcast.result = s.bcast.result ∧ t.bcast.lastId = s.bcast.lastId ∧ t.bcast.sentCount = s.bcast.sentCount

theorem OwnBcastKept.of_bcast {s t : State} (h : t.bcast = s.bcast) : OwnBcastKept s t := by
  rw [OwnBcastKept, h]
  exact ⟨rfl, rfl, rfl⟩

theorem writeBundle_bcast (s : State) (b : List Byte) : (writeBundle s b).bcast = s.bcast := by
  unfold writeBundle
  rfl

theorem startSorter_bcast (s : State) : (startSorter s).bcast = s.bcast := rfl

theorem takeBundle_bcast (s : State) (obj : List Byte) (force : Bool) : OwnBcastKept s (takeBundle s obj force) := by
  unfold takeBundle
  extract_lets r b s1
  have hs1 : s1.bcast = s.bcast := rfl
  clear_value s1
  split
  · rw [OwnBcastKept, ← hs1]
    exact ⟨rfl, rfl, rfl⟩
  · split
    · split
      · exact .of_bcast ((startSorter_bcast _).trans ((writeBundle_bcast s1 b).trans hs1))
      · exact .of_bcast hs1
    · exact .of_bcast ((writeBundle_bcast s1 b).trans hs1)

theorem loadBytes_frame (s : State) (img : List Byte) :
    loadBytes s img = { s with image := (loadBytes s img).image, ring := (loadBytes s img).ring } := by
  unfold loadBytes
  split
  · rfl
  · split
    · rfl
    · unfold offerImage
      split
      · rfl
      · rfl

theorem offerPack_frame (s : State) (obj : List Byte) :
    offerPack s obj = { s with chk := (offerPack s obj).chk, sec := (offerPack s obj).sec } := by
  unfold offerPack
  extract_lets b r s1
  split
  · rfl
  · split
    · rfl
    · rfl

theorem takeObject_bcast (s : State) (kind : Nat) (force : Bool) (obj : List Byte) :
    OwnBcastKept s (takeObject s kind force obj) := by
  unfold takeObject
  split
  · exact takeBundle_bcast _ _ _
  · unfold takeImage
    split
    · exact .of_bcast (by rw [loadBytes_frame])
    · exact ⟨rfl, rfl, rfl⟩
  · exact .of_bcast (by rw [offerPack_frame])

theorem startBroadcast_spec (s : State) (kind : Nat) (force : Bool) (obj : List Byte) :
    (startBroadcast s kind force obj).bcast.result = 2 ∧
    (startBroadcast s kind force obj).bcast.lastId = (s.bcast.sentCount + 1) % 65536 ∧
    (startBroadcast s kind force obj).bcast.sentCount = (s.bcast.sentCount + 1) % 65536 := by
  unfold startBroadcast
  extract_lets count id o x higher objs _ _ s1
  have hs1 : s1.bcast.result = 2 ∧ s1.bcast.lastId = count ∧ s1.bcast.sentCount = count := ⟨rfl, rfl, rfl⟩
  clear_value s1
  split
  · exact hs1
  · obtain ⟨hresult, hlast, hsent⟩ := hs1
    obtain ⟨hresult', hlast', hsent'⟩ := takeObject_bcast s1 kind force obj
    exact ⟨hresult'.trans hresult, hlast'.trans hlast, hsent'.trans hsent⟩

/-- The state in which START is carried out: its fields are stored. -/
def bcastSet (s : State) (v : Nat) : State :=
  { s with bcast := { s.bcast with bkind := v / 64 % 4, force := v.testBit 5, source := v.testBit 4 } }

section
variable {s s1 : State} {m : Master} {v : W32} {host : Option (List Byte)}
  (hgate : regGate s m.toNat 0x1100 true = .ok) (hstart : v.toNat.testBit 0 = true) (hheld : v.toNat.testBit 1 = false)
  (hidle : s.bcast.result ≠ 1)
include hgate hstart hheld hidle

theorem broadcastStart_refused (h : v.toNat / 64 % 4 = 0 ∨ s.bcast.len = 0 ∨ 2 ^ 26 < s.bcast.len.toNat ∨
    (v.toNat.testBit 4 = true ∧ s.boot.stage < 6)) :
    exec (.broadcastStart m v host) s =
      .next { bcastSet s v.toNat with bcast := { (bcastSet s v.toNat).bcast with result := 3 } } := by
  have hcond : (field v.toNat 6 2 == 0 || s.bcast.len.toNat == 0 || decide (2 ^ 26 < s.bcast.len.toNat) ||
      (v.toNat.testBit 4 && decide (s.boot.stage < 6))) = true := by
    rcases h with h | h | h | h
    · simp [field, h]
    · simp [h]
    · have h : 67108864 < s.bcast.len.toNat := h
      simp [h]
    · simp [h]
  refine (congrArg Host.Outcome.next ((gated_ok hgate _).trans ?_))
  simp only [actBcastCtrl, hstart, hheld, hcond]
  simp [hidle, bcastSet, field]

theorem broadcastStart_started {obj : List Byte} (hkind : v.toNat / 64 % 4 ≠ 0) (hlen : s.bcast.len ≠ 0)
    (hmax : s.bcast.len.toNat ≤ 2 ^ 26) (hstage : v.toNat.testBit 4 = true → 6 ≤ s.boot.stage)
    (hread : readObject (bcastSet s v.toNat) (v.toNat.testBit 4) s.bcast.src.toNat s.bcast.len.toNat host = (s1, some obj)) :
    exec (.broadcastStart m v host) s =
      .next (startBroadcast s1 (v.toNat / 64 % 4) (v.toNat.testBit 5) obj) := by
  have hlen0 : s.bcast.len.toNat ≠ 0 := fun h => hlen (BitVec.eq_of_toNat_eq h)
  have hcond : (field v.toNat 6 2 == 0 || s.bcast.len.toNat == 0 || decide (2 ^ 26 < s.bcast.len.toNat) ||
      (v.toNat.testBit 4 && decide (s.boot.stage < 6))) = false := by
    have hlate : (v.toNat.testBit 4 && decide (s.boot.stage < 6)) = false := by
      cases hb : v.toNat.testBit 4 with
      | false => rfl
      | true => simpa using hstage hb
    have hmax : s.bcast.len.toNat ≤ 67108864 := hmax
    simp [field, hkind, hlen0, hmax, hlate]
  refine (congrArg Host.Outcome.next ((gated_ok hgate _).trans ?_))
  have hset : { s with bcast := { s.bcast with
      bkind := field v.toNat 6 2, force := v.toNat.testBit 5, source := v.toNat.testBit 4 } } = bcastSet s v.toNat := rfl
  simp only [actBcastCtrl, hstart, hheld, hcond, hset]
  simp [hidle, hread, field]

end

/-! ## The held image (R466) -/

/-- The held image is in its load: it is staged, collection pauses, and none is held. -/
def heldLoaded (s : State) (img : List Byte) : State :=
  { s with
    image := { s.image with result := 1, reason := 0, refuseOff := 0xFFFFFFFF, staged := some img },
    ring := { s.ring with paused := true }, bcast := { s.bcast with heldImage := none } }

theorem loadHeld_loads {s : State} {img : List Byte} (hheld : s.bcast.heldImage = some img) (hidle : s.image.result ≠ 1)
    (hfree : s.boot.stage < 6 ∨ quiescent s = true) (hsound : imageFault s img img.length = none) :
    loadHeld s = heldLoaded s img := by
  have hload : loadBytes s img = offerImage s img img.length := by
    rw [loadBytes, if_neg (by simpa using hidle)]
    exact if_neg (by simpa [loadBusy] using loadBusy_of_free hfree)
  rw [loadHeld, hheld]
  simp only [hload, offerImage_sound hsound]
  exact if_pos (by simpa using hidle)

/-! ## Pattern packs (19 R497 to R499) -/

/-- The state in which a pack's load or run is asked for: the source field is stored. -/
def packSet (s : State) (v : Nat) : State := { s with chk := { s.chk with packSource := v.testBit 2 } }

theorem packInScope_packSet (s : State) (v scope : Nat) : packInScope (packSet s v) scope = packInScope s scope := by
  funext p
  rw [packInScope, packInScope]
  rfl

theorem offerPack_spec {s : State} (obj : List Byte) (hidle : s.chk.packResult ≠ 1) :
    (offerPack s obj).store = s.store ∧ (offerPack s obj).sec.verKind = 3 ∧
    (offerPack s obj).sec.verResult = verifyObject obj "TLS1PK01" Config.packKeyDigest (packSound (objBody obj)) true ∧
    ((offerPack s obj).sec.verResult = 1 → (offerPack s obj).chk.pack = some (objBody obj)) ∧
    ((offerPack s obj).sec.verResult ≠ 1 →
      (offerPack s obj).chk.pack = s.chk.pack ∧ (offerPack s obj).chk.packResult = 3) := by
  unfold offerPack
  extract_lets _ b r s1
  have hr : r = verifyObject obj "TLS1PK01" Config.packKeyDigest (packSound (objBody obj)) true := rfl
  clear_value r
  have hver : s1.sec.verResult = r := rfl
  have hs1 : s1.store = s.store ∧ s1.sec.verKind = 3 ∧ s1.chk = s.chk := ⟨rfl, rfl, rfl⟩
  clear_value s1
  obtain ⟨hstore, hkind, hchk⟩ := hs1
  have hpack : s1.chk.pack = s.chk.pack := by rw [hchk]
  rw [if_neg (by simpa using hidle), ← hr]
  by_cases h1 : r = 1
  · rw [if_pos (by simpa using h1)]
    exact ⟨hstore, hkind, hver, fun _ => rfl, fun h => absurd (hver.trans h1) h⟩
  · rw [if_neg (by simpa using h1)]
    exact ⟨hstore, hkind, hver, fun h => absurd (hver.symm.trans h) h1, fun _ => ⟨hpack, rfl⟩⟩

section
variable {s : State} {m : Master} {v : W32} (hgate : regGate s m.toNat 0x300100 true = .ok)
include hgate

theorem exec_packLoad {s1 : State} {host : Option (List Byte)} {obj : List Byte} (hload : v.toNat.testBit 1 = true)
    (hrun : v.toNat.testBit 0 = false)
    (hread : readObject (packSet s v.toNat) (v.toNat.testBit 2) s.chk.packSrc.toNat
      (min s.chk.packLen.toNat (2 ^ 26 + trailerLen)) host = (s1, some obj)) :
    exec (.packLoad m v host) s = .next (offerPack s1 obj) := by
  refine congrArg Host.Outcome.next ((gated_ok hgate _).trans ?_)
  have hset : { s with chk := { s.chk with packSource := v.toNat.testBit 2 } } = packSet s v.toNat := rfl
  simp only [actPackCtrl, hload, hrun, hset, hread]
  simp

theorem exec_packRun (hload : v.toNat.testBit 1 = false) (hrun : v.toNat.testBit 0 = true) :
    exec (.packRun m v) s = .next (packStart (packSet s v.toNat)) := by
  refine congrArg Host.Outcome.next ((gated_ok hgate _).trans ?_)
  simp [actPackCtrl, hload, hrun, packSet]

end

theorem packStart_held {s : State} {b : List Byte} (hidle : s.chk.packResult ≠ 1) (hb : s.chk.pack = some b) :
    packStart s = { s with chk := { s.chk with
      packResult := 1, packScope := (List.range 2304).filter (packInScope s (leAt b 18 1)) } } := by
  unfold packStart
  rw [hb]
  split
  · contradiction
  · contradiction
  · next h _ => cases h; rfl

theorem packStart_none {s : State} (hidle : s.chk.packResult ≠ 1) (hb : s.chk.pack = none) :
    packStart s = { s with chk := { s.chk with packResult := 3 } } := by
  unfold packStart
  rw [hb]
  split
  · contradiction
  · rfl
  · contradiction

/-- The result parcel of a run (R499). -/
def packCode (s : State) (b : List Byte) (l : List (Nat × Nat)) (p : Nat) : Nat :=
  match kfind l p with
  | some c => c
  | none => if (leAt b 18 1).testBit 0 && (logicalOfP s p).isSome && !isHole s p then 4 else 0

def packBytes (s : State) (b : List Byte) (l : List (Nat × Nat)) : List Byte :=
  (List.range 2304).map (fun p => BitVec.ofNat 8 (packCode s b l p)) ++ zeroBytes 1792

/-- The result parcel's write, refused where no whole parcel of HBM is named. -/
def packWritten (s : State) (a : Nat) (bytes : List Byte) : State × Option Nat :=
  if a % 4096 == 0 && a < hbmEnd then parcelWrite s a bytes else (s, some stBus)

def packRunEnd (w : State × Option Nat) : State :=
  { w.1 with chk := { w.1.chk with packResult := if w.2.isNone then 2 else 3, packScope := [] } }

theorem exec_packRunDone {s : State} {b : List Byte} (out : List PackOutcome) (hrun : s.chk.packResult = 1)
    (hb : s.chk.pack = some b) :
    exec (.packRunDone out) s = .next (takeWaiting (packRunEnd (packWritten (packResults s b out s.chk.packScope).1
      s.chk.packOut.toNat (packBytes s b (packResults s b out s.chk.packScope).2)))) := by
  have hexec : exec (.packRunDone out) s = execPackRunDone out s := rfl
  rw [hexec, execPackRunDone, hrun, hb]
  rfl

theorem packWritten_packs (s : State) (a : Nat) (bytes : List Byte) : PacksKept s (packWritten s a bytes).1 := by
  unfold packWritten
  split
  · exact parcelWrite_packs _ _ _
  · exact .refl s

theorem packRun_ends {s : State} (out : List PackOutcome) {b : List Byte} (hrun : s.chk.packResult = 1)
    (hb : s.chk.pack = some b) (hpend : s.chk.packPending = none) :
    ∃ t, exec (.packRunDone out) s = .next t ∧ t.chk.packScope = [] ∧ t.chk.pack = some b ∧
      (t.chk.packResult = 2 ∨ t.chk.packResult = 3) ∧
      (∀ s1 bytes, s.chk.packScope = [] → s.chk.packOut.toNat % 4096 = 0 → s.chk.packOut.toNat < hbmEnd →
        bytes = (List.range 2304).map (fun p => BitVec.ofNat 8
          (if (leAt b 18 1).testBit 0 && (logicalOfP s p).isSome && !isHole s p then 4 else 0)) ++ zeroBytes 1792 →
        parcelWrite s s.chk.packOut.toNat bytes = (s1, none) → t.store = s1.store ∧ t.chk.packResult = 2) := by
  have hexec := exec_packRunDone out hrun hb
  have hkept := (packResults_packs s.chk.packScope s b out).trans (packWritten_packs (packResults s b out s.chk.packScope).1
      s.chk.packOut.toNat (packBytes s b (packResults s b out s.chk.packScope).2))
  have hwritten (s1 : State) (bytes : List Byte) (hscope : s.chk.packScope = []) (ha : s.chk.packOut.toNat % 4096 = 0)
      (hend : s.chk.packOut.toNat < hbmEnd) (hbytes : bytes = packBytes s b [])
      (hput : parcelWrite s s.chk.packOut.toNat bytes = (s1, none)) :
      packWritten (packResults s b out s.chk.packScope).1 s.chk.packOut.toNat
        (packBytes s b (packResults s b out s.chk.packScope).2) = (s1, none) := by
    rw [hscope, packResults, ← hbytes, ← hput]
    exact if_pos (by simp [ha, hend])
  generalize packWritten _ _ _ = w at hexec hkept hwritten
  have hwait : takeWaiting (packRunEnd w) = packRunEnd w := by
    have hnone : (packRunEnd w).chk.packPending = none := hkept.2.trans hpend
    rw [takeWaiting, hnone]
  rw [hwait] at hexec
  refine ⟨_, hexec, rfl, hkept.1.trans hb, ?_, fun s1 bytes hscope ha hend hbytes hput => ?_⟩
  · show (if w.2.isNone then 2 else 3) = 2 ∨ (if w.2.isNone then 2 else 3) = 3
    split
    · exact .inl rfl
    · exact .inr rfl
  · rw [hwritten s1 bytes hscope ha hend hbytes hput]
    exact ⟨rfl, rfl⟩

/-- Settles O51: each fragment, broadcast, load and run is carried out as its own lemma says. -/
theorem broadcastsAndPacks : Obligations.BroadcastsAndPacks := by
  unfold Obligations.BroadcastsAndPacks
  refine ⟨fun s n b hr hp hf hnew h5 hk1 hk3 ht hm ho => fragment_taken hr hp hf hnew h5 hk1 hk3 ht hm ho,
    fun s s1 m v host hgate hstart hheld hidle => ⟨fun h => ?refused, fun obj hkind hlen hmax hstage hread => ?started⟩,
    fun s m hgate => ⟨fun hnone => ?none, fun img hheld hidle hfree hsound => ?held⟩,
    fun s m v hgate => ⟨fun s1 host obj hload hrun hread hidle => ?load, fun hload hrun hidle => ⟨fun b hb => ?run, fun hb => ?empty⟩⟩,
    fun s out b hrun hb hpend => packRun_ends out hrun hb hpend⟩
  case refused => exact ⟨_, broadcastStart_refused hgate hstart hheld hidle h, rfl, rfl⟩
  case started =>
    exact ⟨_, broadcastStart_started hgate hstart hheld hidle hkind hlen hmax hstage hread, startBroadcast_spec _ _ _ _⟩
  case none =>
    refine congrArg Host.Outcome.next ((gated_ok hgate _).trans ?_)
    rw [loadHeld, hnone]
  case held =>
    exact ⟨_, congrArg Host.Outcome.next ((gated_ok hgate _).trans (loadHeld_loads hheld hidle hfree hsound)), rfl, rfl, rfl, rfl⟩
  case load => exact ⟨_, exec_packLoad hgate hload hrun hread, offerPack_spec obj hidle⟩
  case run =>
    have hstart := packStart_held (s := packSet s v.toNat) hidle hb
    refine ⟨_, (exec_packRun hgate hload hrun).trans (congrArg Host.Outcome.next hstart), rfl, rfl, ?_⟩
    rw [← packInScope_packSet s v.toNat]
  case empty =>
    have hstart := packStart_none (s := packSet s v.toNat) hidle hb
    exact ⟨_, (exec_packRun hgate hload hrun).trans (congrArg Host.Outcome.next hstart), rfl, rfl⟩

end Sys2Proof.Machine
end

section
/-! PROOF. What the other members of a collective send (spec/15 R391 to R395): the obligation O34. -/

namespace Sys2Proof.Machine

/-! ## Communicators and the end of operations -/

theorem comm_of_comms {s t : State} (h : t.comms = s.comms) (c : Nat) : t.comm c = s.comm c := by
  rw [State.comm, State.comm, h]

theorem OpsEnded.comms {s t : State} (h : OpsEnded s t) : t.comms = s.comms := by
  obtain ⟨_, _, _, _, _, _, rfl⟩ := h.frame
  rfl

theorem setColl_comm (s : State) (c : Nat) (r : Option CollRun) : (setColl s c r).comm c = { s.comm c with run := r } :=
  State.comm_setComm_same _ _ _

/-- A running collective that ended: memory stays, its communicator has none running, its receipt is final. -/
structure CollEnded (s t : State) (c : Nat) : Prop where
  store : t.store = s.store
  run : (t.comm c).run = none

theorem CollEnded.of_ops {s u t : State} {c : Nat} (h : OpsEnded (setColl u c none) t) (hu : u.store = s.store) :
    CollEnded s t c := by
  refine ⟨h.store.trans hu, ?_⟩
  rw [comm_of_comms h.comms, setColl_comm]

theorem collFail_ended {s : State} {slot : Nat} {r : CollRun} (hrun : (s.comm (cdescOf r.req).comm).run = some r)
    (hslot : r.slot = slot) (status detail : Nat) :
    CollEnded s (collFail s slot r.req status detail) (cdescOf r.req).comm := by
  unfold collFail
  extract_lets c x s1
  split
  · next r' hr' =>
    obtain rfl : r = r' := Option.some.inj (hrun.symm.trans hr')
    rw [if_pos (by simpa using hslot)]
    exact .of_ops (opFail_ended _ _ _ _) rfl
  · next hr' => exact absurd (hrun.symm.trans hr') (by simp)

theorem collFail_endedIn {s : State} {slot : Nat} {o : Op} (ho : OpRuns s slot o) (b : List Byte) (status detail : Nat) :
    EndedIn (collFail s slot b status detail) slot o status detail := by
  unfold collFail
  extract_lets c x s1
  split
  · split
    · exact opFail_endedIn (s := setColl (reqDrop s1 _) c none) ho status detail
    · exact opFail_endedIn (s := s1) ho status detail
  · exact opFail_endedIn (s := s1) ho status detail

theorem collDue_false {s : State} {b : List Byte} (h : (cdescOf b).deadline = 0 ∨ s.now < (cdescOf b).deadline) :
    collDue s b = false := by
  rcases h with h | h
  · simp [collDue, h]
  · simp [collDue, Nat.not_le.mpr h]

theorem collEnd_early {s : State} {b : List Byte} (h : collDue s b = false) (slot status detail : Nat) :
    collEnd s slot b status detail = collFail s slot b status detail := by
  rw [collEnd, h]
  rfl

/-! ## A running collective whose OUT is whole and whose IN every member has read (R393) -/

/-- Whether a run has all that its end needs. -/
def collWhole (r : CollRun) : Bool :=
  r.told && (cdescOf r.req).parcels ≤ r.next && (otherMembers (cdescOf r.req) r.chips).all (fun e => r.readDone.contains e.2)

theorem collWhole_iff {r : CollRun} : collWhole r = true ↔ r.told = true ∧ (cdescOf r.req).parcels ≤ r.next ∧
    ∀ m ∈ otherMembers (cdescOf r.req) r.chips, m.2 ∈ r.readDone := by
  simp [collWhole, and_assoc]

section
variable {s : State} {c : Nat} {r : CollRun} (hrun : (s.comm c).run = some r)
include hrun

theorem collCheck_open (h : collWhole r = false) : collCheck s c = s := by
  rw [collCheck, hrun]
  exact if_neg (by rw [← collWhole, h]; simp)

theorem collCheck_whole (h : collWhole r = true) (hdue : collDue s r.req = false) :
    collCheck s c = opDone (setColl (reqDrop s r.tags) c none) r.slot := by
  rw [collCheck, hrun]
  refine (if_pos h).trans ?_
  rw [hdue]
  rfl

end

/-- An operation in progress ends DONE, with its counts as they were. -/
theorem op_opDone {s : State} {slot : Nat} {o : Op} (h : OpRuns s slot o) :
    ∃ status detail, (opDone s slot).op slot = some { o with
      place := .final, rcpt := { o.rcpt with state := .done, status := status, detail := detail, postmark := s.now } } := by
  have hstart : opStart s slot = s := by simp [opStart, h.1, h.2]
  refine ⟨(opWarning o).1, (opWarning o).2, ?_⟩
  rw [opDone, h.1]
  dsimp only
  rw [hstart]
  exact op_opFinal h.1 (by simp [h.2, rstateFinal]) _ _ _

/-- With nothing to warn of, the status is 0. -/
theorem op_opDone_clean {s : State} {slot : Nat} {o : Op} (h : OpRuns s slot o) (hsat : o.sat = 0) (hnon : o.nonfin = 0)
    (hwarn : o.warns = []) : ∃ x, (opDone s slot).op slot = some x ∧ x.rcpt.state = .done ∧ x.rcpt.status = 0 := by
  rw [opDone_of_runs h hsat hnon hwarn]
  exact ⟨_, op_opFinal h.1 (by simp [h.2, rstateFinal]) _ _ _, rfl, rfl⟩

theorem opDone_ended {s : State} {slot : Nat} {o : Op} (h : OpRuns s slot o) : OpsEnded s (opDone s slot) := by
  have hstart : opStart s slot = s := by simp [opStart, h.1, h.2]
  rw [opDone, h.1]
  dsimp only
  rw [hstart]
  exact opFinal_ended _ _ _ _ _

/-- A whole run ends DONE before its deadline. -/
theorem collCheck_ends {s : State} {c : Nat} {r : CollRun} {o : Op} (hrun : (s.comm c).run = some r)
    (h : collWhole r = true) (hdue : collDue s r.req = false) (ho : OpRuns s r.slot o) :
    CollEnded s (collCheck s c) c ∧ ∃ x, (collCheck s c).op r.slot = some x ∧ x.rcpt.state = .done ∧
      x.rcpt.count = o.rcpt.count ∧ x.sat = o.sat ∧ x.nonfin = o.nonfin := by
  rw [collCheck_whole hrun h hdue]
  have ho' : OpRuns (setColl (reqDrop s r.tags) c none) r.slot o := ho
  obtain ⟨status, detail, hop⟩ := op_opDone ho'
  exact ⟨.of_ops (opDone_ended ho') rfl, _, hop, rfl, rfl, rfl, rfl⟩

theorem collCheck_clean {s : State} {c : Nat} {r : CollRun} {o : Op} (hrun : (s.comm c).run = some r)
    (h : collWhole r = true) (hdue : collDue s r.req = false) (ho : OpRuns s r.slot o) (hsat : o.sat = 0)
    (hnon : o.nonfin = 0) (hwarn : o.warns = []) :
    CollEnded s (collCheck s c) c ∧ ∃ x, (collCheck s c).op r.slot = some x ∧ x.rcpt.state = .done ∧ x.rcpt.status = 0 := by
  rw [collCheck_whole hrun h hdue]
  have ho' : OpRuns (setColl (reqDrop s r.tags) c none) r.slot o := ho
  exact ⟨.of_ops (opDone_ended ho') rfl, op_opDone_clean ho' hsat hnon hwarn⟩

/-! ## Join records (R391, R392) -/

/-- The members that a join record leaves joined. -/
def joinedAfter (r : CollRun) (rank : Nat) : List Nat := if r.joined.contains rank then r.joined else rank :: r.joined

theorem mem_joinedAfter (r : CollRun) (rank : Nat) : rank ∈ joinedAfter r rank := by
  unfold joinedAfter
  split
  · next h => simpa using h
  · exact List.mem_cons_self

section
variable {s : State} {j : JoinRec} {r : CollRun} (hrun : (s.comm j.comm.toNat).run = some r)
include hrun

theorem exec_joinRecord (hseq : (cdescOf r.req).seq = j.seq.toNat) :
    exec (.joinRecord j) s = .next (takeJoin s j.comm.toNat j) := by
  have hexec : exec (.joinRecord j) s = execJoinRecord j s := rfl
  rw [hexec, execJoinRecord]
  simp only [hrun, hseq, beq_self_eq_true, if_true]

theorem takeJoin_agrees (h : joinDiffers r.req r.chips j = false) :
    takeJoin s j.comm.toNat j = setColl s j.comm.toNat (some { r with joined := joinedAfter r j.rank.toNat }) := by
  rw [takeJoin, hrun]
  exact if_neg (by simp [h])

theorem takeJoin_differs (h : joinDiffers r.req r.chips j = true) :
    takeJoin s j.comm.toNat j = collEnd s r.slot r.req stStruct (detail2 0xFFFFFF47 0xFFFFFFFF) := by
  rw [takeJoin, hrun]
  exact if_pos h

end

/-- A join record for a collective that this member has not yet been asked for is held, up to 16. -/
theorem joinRecord_held {s : State} {j : JoinRec} (hrun : (s.comm j.comm.toNat).run = none)
    (hqueue : (s.comm j.comm.toNat).queue = []) (hused : j.seq.toNat ∉ (s.comm j.comm.toNat).usedSeq) :
    exec (.joinRecord j) s = .next (if j ∈ (s.comm j.comm.toNat).held ∨ 16 ≤ (s.comm j.comm.toNat).held.length then s
      else s.setComm j.comm.toNat { s.comm j.comm.toNat with held := (s.comm j.comm.toNat).held ++ [j] }) := by
  have hexec : exec (.joinRecord j) s = execJoinRecord j s := rfl
  rw [hexec, execJoinRecord]
  simp only [hrun, hqueue]
  simp [hused]

/-! ## Records sent again, and read reports (R391, R393) -/

theorem mem_otherMembers {d : CDesc} {chips : List Nat} {j c : Nat} (hne : j ≠ d.rank) (hc : chips[j]? = some c) :
    (c, j) ∈ otherMembers d chips := by
  refine List.mem_filter.mpr ⟨?_, by simpa using hne⟩
  exact List.mk_mem_zipIdx_iff_getElem?.mpr hc

/-- Every other member that is named is sent this member's join record. -/
theorem sendJoins_sends (s : State) {b : List Byte} {chips : List Nat} {n j c : Nat} (hj : j < n)
    (hne : j ≠ (cdescOf b).rank) (hc : chips[j]? = some c) :
    Sent.join c (joinOf b chips) ∈ (sendJoins s b chips (List.range n)).sent := by
  refine List.mem_append_right _ (List.mem_filterMap.mpr ⟨(c, j), mem_otherMembers hne hc, ?_⟩)
  exact if_pos (by simpa using hj)

section
variable {s : State} {slot : Slot} {o : Op} {r : CollRun}

theorem exec_joinResend (ho : OpRuns s slot o) (hrun : (s.comm (cdescOf o.payload).comm).run = some r)
    (hslot : r.slot = slot.val) (hreq : r.req = o.payload) (hdue : r.lastJoin + 100000 ≤ s.now) :
    exec (.joinResend slot) s = .next (sendJoins
      (setColl s (cdescOf o.payload).comm (some { r with lastJoin := s.now })) o.payload r.chips
      (List.range (cdescOf o.payload).members)) := by
  have hexec : exec (.joinResend slot) s = execJoinResend slot s := rfl
  rw [hexec, execJoinResend, ho.1]
  simp only [hrun, hreq]
  simp [hslot, Nat.not_lt.mpr hdue]

/-- A run that one more member has read. -/
def readBy (r : CollRun) (rank : Nat) : CollRun := { r with readDone := rank :: r.readDone }

theorem readDoneReport_last {c seq rank : W32} (hrun : (s.comm (cdescOf o.payload).comm).run = some r)
    (hreq : r.req = o.payload) (hc : c.toNat = (cdescOf o.payload).comm)
    (hseq : seq.toNat = (cdescOf o.payload).seq) (hnew : rank.toNat ∉ r.readDone) :
    exec (.readDoneReport c seq rank) s = .next (collCheck
      (setColl s (cdescOf o.payload).comm (some (readBy r rank.toNat))) (cdescOf o.payload).comm) := by
  have hexec : exec (.readDoneReport c seq rank) s = execReadDoneReport c seq rank s := rfl
  rw [hexec, execReadDoneReport, hc]
  simp only [hrun, hreq, hseq]
  simp [hnew, readBy, hreq]

theorem exec_abortNotice {c seq rank : W32} {st : Byte} (ho : OpRuns s slot o) (hk : o.kind = 6) (hc : c.toNat = (cdescOf o.payload).comm)
    (hseq : seq.toNat = (cdescOf o.payload).seq) (hl : s.ledger = [(slot.val, o)]) :
    exec (.abortNotice c seq rank st) s =
      .next (collEnd s slot o.payload stDep (detail2 rank.toNat st.toNat)) := by
  have hslots : collSlots s c.toNat seq.toNat = [(slot.val, o.payload)] := by
    simp [collSlots, hl, hk, ho.2, rstateFinal, hc, hseq]
  have hexec : exec (.abortNotice c seq rank st) s = execAbortNotice c seq rank st s := rfl
  rw [hexec, execAbortNotice, hslots]
  rfl

theorem exec_collectiveDeadline (ho : OpRuns s slot o) (hk : o.kind = 6) (hd : (cdescOf o.payload).deadline ≠ 0)
    (hpast : (cdescOf o.payload).deadline ≤ s.now) :
    exec (.collectiveDeadline slot) s = .next (collMiss s slot o.payload) := by
  have hexec : exec (.collectiveDeadline slot) s = execCollectiveDeadline slot s := rfl
  have hdue : collDue s o.payload = true := by simp [collDue, hd, hpast]
  rw [hexec, execCollectiveDeadline, ho.1]
  dsimp only
  rw [if_neg (by simp [hk, ho.2, rstateFinal, hdue])]

theorem allJoined_iff (hrun : (s.comm (cdescOf o.payload).comm).run = some r) (hslot : r.slot = slot.val) : allJoined s slot o.payload = true ↔
    ∀ j, j < (cdescOf o.payload).members → j = (cdescOf o.payload).rank ∨ j ∈ r.joined := by
  simp [allJoined, hrun, hslot]

end

/-- A read report that comes before its collective runs is held. -/
theorem readDoneReport_early {s : State} {c seq rank : W32} (hrun : (s.comm c.toNat).run = none)
    (hused : seq.toNat ∉ (s.comm c.toNat).usedSeq) (hnew : (seq.toNat, rank.toNat) ∉ (s.comm c.toNat).early) :
    exec (.readDoneReport c seq rank) s = .next (s.setComm c.toNat
      { s.comm c.toNat with early := (s.comm c.toNat).early ++ [(seq.toNat, rank.toNat)] }) := by
  have hexec : exec (.readDoneReport c seq rank) s = execReadDoneReport c seq rank s := rfl
  rw [hexec, execReadDoneReport]
  simp only [hrun, holdReport]
  simp [hused, hnew]

/-- Settles O34: each message is taken as its own lemma says, and an end leaves the communicator with none running. -/
theorem collectiveMessages : Obligations.CollectiveMessages := by
  unfold Obligations.CollectiveMessages
  refine ⟨fun s j r o hrun hseq => ⟨fun h => ?agrees, fun h hcomm ho hearly => ?differs⟩,
    fun s j hrun hqueue hused => joinRecord_held hrun hqueue hused, fun s slot o d r ho hk hd hrun hslot hreq => ?running,
    fun s c seq rank x hx hrun hused hnew => ?early⟩
  case agrees =>
    refine ⟨_, (exec_joinRecord hrun hseq).trans (congrArg _ (takeJoin_agrees hrun h)), rfl,
      { r with joined := joinedAfter r j.rank.toNat }, ?_, mem_joinedAfter r _, rfl⟩
    rw [setColl_comm]
  case differs =>
    have hrun' : (s.comm (cdescOf r.req).comm).run = some r := by rw [hcomm]; exact hrun
    have hend : takeJoin s j.comm.toNat j = collFail s r.slot r.req stStruct (detail2 0xFFFFFF47 0xFFFFFFFF) :=
      (takeJoin_differs hrun h).trans (collEnd_early (collDue_false hearly) _ _ _)
    have hended := collFail_ended hrun' rfl stStruct (detail2 0xFFFFFF47 0xFFFFFFFF)
    rw [hcomm] at hended
    exact ⟨_, (exec_joinRecord hrun hseq).trans (congrArg _ hend), hended.store, hended.run,
      collFail_endedIn ho r.req _ _⟩
  case running =>
    subst hd
    have hrun' : (s.comm (cdescOf r.req).comm).run = some r := by rw [hreq]; exact hrun
    refine ⟨fun hdue => ?resend, fun c seq rank hc hseq htold hnew hwhole hearly hall hsat hnon hwarn => ?read,
      fun c seq rank st hc hseq hl hearly => ?abort, fun hne hpast => ?deadline⟩
    case resend =>
      refine ⟨_, exec_joinResend ho hrun hslot hreq hdue, rfl, ?_, fun j c hj hne hc => sendJoins_sends _ hj hne hc⟩
      exact congrArg CommS.run (setColl_comm _ _ _)
    case read =>
      have hexec := readDoneReport_last hrun hreq hc hseq hnew
      have hnow : ((setColl s (cdescOf o.payload).comm (some (readBy r rank.toNat))).comm (cdescOf o.payload).comm).run =
          some (readBy r rank.toNat) := congrArg CommS.run (setColl_comm _ _ _)
      have hdone : collWhole (readBy r rank.toNat) = true := by
        refine collWhole_iff.mpr ⟨htold, (congrArg (fun b => (cdescOf b).parcels) hreq).trans_le hwhole, fun m hm => ?_⟩
        have hm : m ∈ otherMembers (cdescOf o.payload) r.chips := by rw [← hreq]; exact hm
        exact List.mem_cons.mpr (hall m hm)
      rw [← hslot] at ho ⊢
      have hearly' : collDue (setColl s (cdescOf o.payload).comm (some (readBy r rank.toNat))) (readBy r rank.toNat).req =
          false := collDue_false ((congrArg (fun b => (cdescOf b).deadline = 0 ∨ s.now < (cdescOf b).deadline) hreq).mpr hearly)
      obtain ⟨hended, x, hx, hstate, -⟩ := collCheck_clean hnow hdone hearly' ho hsat hnon hwarn
      exact ⟨_, hexec, hended.store, hended.run, x, hx, hstate⟩
    case abort =>
      have hend : collEnd s slot o.payload stDep (detail2 rank.toNat st.toNat) =
          collFail s slot r.req stDep (detail2 rank.toNat st.toNat) := by
        rw [hreq]
        exact collEnd_early (collDue_false hearly) _ _ _
      have hended := collFail_ended hrun' hslot stDep (detail2 rank.toNat st.toNat)
      have hin := collFail_endedIn ho r.req stDep (detail2 rank.toNat st.toNat)
      rw [← hreq]
      exact ⟨_, (exec_abortNotice ho hk hc hseq hl).trans (congrArg _ hend), hended.store, hended.run, hin⟩
    case deadline =>
      have hexec := exec_collectiveDeadline ho hk hne hpast
      generalize hst : (if ∀ j, j < (cdescOf o.payload).members → j = (cdescOf o.payload).rank ∨ j ∈ r.joined
        then stDeadline else stNotReady) = st
      have hmiss : collMiss s slot o.payload = collFail s slot r.req st 0 := by
        rw [collMiss, hreq, ← hst]
        exact congrArg (collFail s slot o.payload · 0) (if_congr (allJoined_iff hrun hslot) rfl rfl)
      have hended := collFail_ended hrun' hslot st 0
      rw [hmiss] at hexec
      rw [hreq] at hended hexec
      exact ⟨_, hexec, hended.store, hended.run, collFail_endedIn ho o.payload st 0⟩
  case early =>
    subst hx
    exact readDoneReport_early hrun hused hnew

end Sys2Proof.Machine
end

section
/-! PROOF. Collectives that queue, start, deliver and end (spec/15 R390 to R396): the obligation O33. -/

namespace Sys2Proof.Machine

/-- Every row's command advances its slot's request by as many pieces as it names. -/
theorem exec_collRow {e : (Slot → Nat → Instr) × Nat} (he : e ∈ collRows) (s : State) (slot : Slot) :
    exec (e.1 slot 1) s = .next (collAdvance 1 s slot e.2) := by
  simp only [collRows, List.mem_cons, List.not_mem_nil, or_false] at he
  rcases he with rfl | rfl | rfl | rfl | rfl <;> rfl

section
variable {s : State} {slot kind : Nat} {o : Op} (ho : s.op slot = some o) (hk : o.kind = 6)
  (hserves : collServes kind o.payload = true) (hfinal : rstateFinal o.rcpt.state = false)
  (hdue : collDue s o.payload = false)
include ho hk hserves hfinal hdue

theorem collAdvance_accept (hplace : o.place = .atIssuer) :
    collAdvance 1 s slot kind = collAccept s slot o.payload := by
  rw [collAdvance]
  simp [ho, hk, hserves, hfinal, hdue, hplace, collAdvance]

theorem collAdvance_start {chips : List Nat} {rest : List (Nat × List Byte × List Nat)} (hplace : o.place ≠ .atIssuer)
    (hrun : (s.comm (cdescOf o.payload).comm).run = none)
    (hqueue : (s.comm (cdescOf o.payload).comm).queue = (slot, o.payload, chips) :: rest) :
    collAdvance 1 s slot kind = collStart s (cdescOf o.payload).comm slot o.payload chips := by
  rw [collAdvance]
  simp [ho, hk, hserves, hfinal, hdue, hplace, hrun, hqueue, collAdvance]

theorem collAdvance_step {r : CollRun} (hplace : o.place ≠ .atIssuer)
    (hrun : (s.comm (cdescOf o.payload).comm).run = some r) (hslot : r.slot = slot) :
    collAdvance 1 s slot kind = collStep s (cdescOf o.payload).comm r := by
  rw [collAdvance]
  simp [ho, hk, hserves, hfinal, hdue, hplace, hrun, hslot, collAdvance]

end

/-! ## Acceptance (R390) -/

/-- A request with no fault names a list that can be read. -/
theorem collFaults_list {s : State} {b : List Byte} (h : collFaults s b = []) :
    (cdescOf b).members ≠ 0 ∧ (cdescOf b).members ≤ 65536 ∧
      badRegion (cdescOf b).list (2 * (cdescOf b).members) = false := by
  unfold collFaults at h
  simp only [List.append_eq_nil_iff, and_assoc] at h
  obtain ⟨-, -, -, -, -, -, hmembers, -, -, -, -, -, -, -, -, hregions, -⟩ := h
  rw [broken_eq_nil, Bool.or_eq_false_iff, beq_eq_false_iff_ne, decide_eq_false_iff_not, Nat.not_lt] at hmembers
  have hlist := List.flatMap_eq_nil_iff.mp hregions ⟨56, (cdescOf b).list, 2 * (cdescOf b).members, false⟩ (by simp)
  rw [List.append_eq_nil_iff, broken_eq_nil] at hlist
  exact ⟨hmembers.1, hmembers.2, hlist.1⟩

theorem collAccept_queues {s : State} {slot : Nat} {o : Op} {l : List Byte} (ho : s.op slot = some o)
    (hon : serviceOn s 1 = true) (hfaults : collFaults s o.payload = [])
    (hread : readAt s (seMaster (cdescOf o.payload).tile) (seBy slot) (cdescOf o.payload).list
      (2 * (cdescOf o.payload).members) = (s, .ok l))
    (hrules : worstField (listRules s (cdescOf o.payload) (listChips l)) = none) :
    collAccept s slot o.payload = (s.setComm (cdescOf o.payload).comm { s.comm (cdescOf o.payload).comm with
      queue := (s.comm (cdescOf o.payload).comm).queue ++ [(slot, o.payload, listChips l)],
      usedSeq := (cdescOf o.payload).seq :: (s.comm (cdescOf o.payload).comm).usedSeq }).setOp slot { o with
        place := .queued, chips := listChips l } := by
  obtain ⟨hne, hle, hregion⟩ := collFaults_list hfaults
  have hrules' : listRules s (cdescOf o.payload) (listChips l) = [] := worstField_eq_none.mp hrules
  have hqueued (u : State) (hu : u.op slot = some o) :
      collQueued u slot (listChips l) = u.setOp slot { o with place := .queued, chips := listChips l } := by
    rw [collQueued, hu]
  unfold collAccept
  simp [hon, hfaults, hne, Nat.not_lt.mpr hle, hregion, hread, hrules', worstField]
  exact hqueued _ ho

/-! ## The start (R391) -/

/-- The run that begins with no message of it held. -/
def collBegun (s : State) (slot : Nat) (b : List Byte) (chips : List Nat) : CollRun :=
  { slot := slot, req := b, chips := chips, lastJoin := s.now }

theorem collStart_begins {s : State} {c slot : Nat} {b : List Byte} {chips : List Nat}
    {rest : List (Nat × List Byte × List Nat)} (hqueue : (s.comm c).queue = (slot, b, chips) :: rest)
    (hheld : (s.comm c).held = []) (hearly : (s.comm c).early = []) :
    collStart s c slot b chips = sendJoins (opStart (s.setComm c { s.comm c with
      queue := rest, run := some (collBegun s slot b chips) }) slot) b chips (List.range (cdescOf b).members) := by
  unfold collStart
  simp only [hqueue, hheld, hearly, List.filter_nil, List.drop_succ_cons, List.drop_zero, takeJoins, List.map_nil]
  congr 3

/-- An operation starts and its join records go out: memory, tiles and communicators stay. -/
theorem joinsSent_spec {s : State} {slot : Nat} {o : Op} (ho : s.op slot = some o) (hn : o.rcpt.state = .notStarted)
    (b : List Byte) (chips : List Nat) (n : Nat) :
    (sendJoins (opStart s slot) b chips (List.range n)).store = s.store ∧
    (sendJoins (opStart s slot) b chips (List.range n)).core = s.core ∧
    (∀ c, (sendJoins (opStart s slot) b chips (List.range n)).comm c = s.comm c) ∧
    (sendJoins (opStart s slot) b chips (List.range n)).op slot =
      some { o with place := .running, rcpt := { o.rcpt with state := .inProgress } } := by
  have hcomms : (opStart s slot).comms = s.comms := by
    obtain ⟨_, _, _, _, heq⟩ := opStart_reports ho hn
    rw [heq]
    rfl
  exact ⟨opStart_store s slot, opStart_core s slot, fun c => comm_of_comms hcomms c, opStart_runs ho hn⟩

/-! ## A piece of OUT (R386, R391, R393) -/

theorem collPut_delivered {s s1 : State} {d : CDesc} {slot q : Nat} {data : List Byte} {x : Put}
    (h : collPut s d slot q data = (s1, x)) : Delivered s s1 := by
  have hput : Delivered s (collPut s d slot q data).1 := by
    unfold collPut
    generalize hw : writePlace s (seMaster d.tile) none (BitVec.ofNat 64 (d.out + q * 4096)) (data.length == 4096) = w
    obtain ⟨u, y⟩ := w
    have hp : Delivered s u := .of_placed (writePlace_of hw)
    cases y with
    | mem k => exact hp.trans (deliver_delivered _ _ _ _ _ _ _)
    | bad st => exact hp
    | regs off => exact hp
    | remote chip off => exact hp
  rw [h] at hput
  exact hput

/-- The run that has delivered one more parcel of OUT. -/
def collNext (r : CollRun) : CollRun := { r with next := r.next + 1 }

/-- The operation after a parcel's counts are posted and its committed count raised. -/
def collCounted (o : Op) (d : CDesc) (r : CollRun) (t : Tally) : Op :=
  let f := (some (d.pieceAt r.next)).getD 0xFFFFFFFF
  { o with
    sat := o.sat + t.sat, satFirst := if 0 < t.sat then min o.satFirst f else o.satFirst,
    nonfin := o.nonfin + t.nonfin, nonfinFirst := if 0 < t.nonfin then min o.nonfinFirst f else o.nonfinFirst,
    rcpt := { o.rcpt with count := max o.rcpt.count (d.prefixOf (r.next + 1)) } }

/-- The state after a parcel of OUT has been delivered, before it is seen whether that was the last. -/
def collDelivered (s : State) (c : Nat) (r : CollRun) (d : CDesc) (t : Tally) : State :=
  opCount (setColl (reqDrop (collPost s d r (d.pieceAt r.next) t) []) c (some (collNext r))) r.slot (d.prefixOf (r.next + 1))

theorem collDelivered_eq {s : State} {r : CollRun} {o : Op} (ho : s.op r.slot = some o) (c : Nat) (d : CDesc) (t : Tally) :
    ∃ core l, collDelivered s c r d t = setColl { s with core := core, ledger := l } c (some (collNext r)) ∧
      (collDelivered s c r d t).op r.slot = some (collCounted o d r t) := by
  have htally (u : State) (hu : u.op r.slot = some o) : ∃ x, opTally u r.slot t (some (d.pieceAt r.next)) = u.setOp r.slot x ∧
      { x with rcpt := { x.rcpt with count := max x.rcpt.count (d.prefixOf (r.next + 1)) } } = collCounted o d r t := by
    rw [opTally, hu]
    exact ⟨_, rfl, rfl⟩
  obtain ⟨x, hx, hcounted⟩ := htally (s.setSest (seStackOf d.tile r.req (d.pieceAt r.next)) _) ho
  have hop (u : State) (hu : u.op r.slot = some x) :
      opCount u r.slot (d.prefixOf (r.next + 1)) = u.setOp r.slot (collCounted o d r t) := by
    rw [opCount, hu, ← hcounted]
  have hlast := hop (setColl (reqDrop (collPost s d r (d.pieceAt r.next) t) []) c (some (collNext r)))
    (by rw [collPost, hx]; exact State.op_setOp_same _ _ _)
  rw [collDelivered, hlast, State.op_setOp_same, reqDrop_nil, collPost, hx]
  exact ⟨_, _, rfl, rfl⟩

theorem collStep_piece {s s1 : State} {r : CollRun} {d : CDesc} {p : Piece} {keys : List (List Nat)} {l : List (List Byte)}
    {data : List Byte} {t : Tally} (hd : d = cdescOf r.req) (htags : r.tags = []) (hnext : r.next < d.parcels)
    (hown : r.told = true ∨ r.next < d.ownParcels.2 - d.ownParcels.1) (hp : p = d.piece (d.pieceAt r.next))
    (hready : pieceReady d r p = true) (hkeys : keys = pieceKeys s r.req r.chips p)
    (hfetch : seFetch s d.tile r.slot [] (keys.flatMap id) = (s, [], .ok l))
    (hbytes : pieceBytes d p (gatherBufs keys l) = (data, t)) (hput : collPut s d r.slot (d.pieceAt r.next) data = (s1, .ok))
    (c : Nat) : collStep s c r = collCheck (collDelivered s1 c r d t) c := by
  subst hd hp hkeys
  have hreport : (!r.told && decide ((cdescOf r.req).ownParcels.2 - (cdescOf r.req).ownParcels.1 ≤ r.next)) = false := by
    rcases hown with h | h
    · simp [h]
    · simp [Nat.not_le.mpr h]
  unfold gatherBufs at hbytes
  unfold collStep
  simp only [hreport, Nat.not_le.mpr hnext, hready, htags, hfetch, hbytes, hput]
  simp [collDelivered, collNext, htags]

theorem pieceReady_of {d : CDesc} {r : CollRun} {p : Piece}
    (h : (∀ a b, p = .reduced a b → ∀ j < d.members, j = d.rank ∨ j ∈ r.joined) ∧
      (∀ j a b, p = .copied false j a b → j = d.rank ∨ j ∈ r.joined) ∧
      (∀ j a b, p = .copied true j a b → j ∈ r.readDone)) : pieceReady d r p = true := by
  obtain ⟨hreduced, hcopied, howner⟩ := h
  cases p with
  | reduced a b => simpa [pieceReady, pieceMembers] using hreduced a b rfl
  | copied isOut j a b =>
    cases isOut with
    | false => simpa [pieceReady, pieceMembers] using hcopied j a b rfl
    | true => simpa [pieceReady] using howner j a b rfl

/-- What the state is once a parcel of OUT stands: its counts are posted, and the run ends or goes on. -/
theorem pieceDelivered_spec {s : State} {c : Nat} {r : CollRun} {o : Op} (ho : OpRuns s r.slot o)
    (hearly : (cdescOf r.req).deadline = 0 ∨ s.now < (cdescOf r.req).deadline) (t : Tally) :
    ∃ u, u = collCheck (collDelivered s c r (cdescOf r.req) t) c ∧ u.store = s.store ∧
      (∃ x, u.op r.slot = some x ∧ x.rcpt.count = max o.rcpt.count ((cdescOf r.req).prefixOf (r.next + 1)) ∧
        x.sat = o.sat + t.sat ∧ x.nonfin = o.nonfin + t.nonfin ∧
        (x.rcpt.state = .done ↔ collWhole (collNext r) = true)) ∧
      ((u.comm c).run = some (collNext r) ∨ (u.comm c).run = none) := by
  obtain ⟨core, l, hstate, hop⟩ := collDelivered_eq ho.1 c (cdescOf r.req) t
  rw [hstate] at hop ⊢
  have hrun : ((setColl { s with core := core, ledger := l } c (some (collNext r))).comm c).run = some (collNext r) :=
    congrArg CommS.run (setColl_comm _ _ _)
  cases hw : collWhole (collNext r) with
  | false =>
    refine ⟨_, rfl, ?_⟩
    rw [collCheck_open hrun hw]
    refine ⟨rfl, ⟨_, hop, rfl, rfl, rfl, ?_⟩, .inl hrun⟩
    simp [collCounted, ho.2]
  | true =>
    have hruns : OpRuns (setColl { s with core := core, ledger := l } c (some (collNext r))) (collNext r).slot
      (collCounted o (cdescOf r.req) r t) := ⟨hop, ho.2⟩
    obtain ⟨hended, x, hx, hdone, hcount, hsat, hnon⟩ := collCheck_ends hrun hw (collDue_false hearly) hruns
    exact ⟨_, rfl, hended.store, ⟨x, hx, hcount, hsat, hnon, by simp [hdone]⟩, .inr hended.run⟩

/-! ## The report that this member has finished reading (R393) -/

/-- The state once the report has gone out. -/
def collReported (s : State) (c : Nat) (r : CollRun) : State :=
  sendReadDone (setColl s c (some { r with told := true })) r.req r.chips

theorem collStep_report {r : CollRun} (hown : (cdescOf r.req).ownParcels.2 - (cdescOf r.req).ownParcels.1 ≤ r.next)
    (htold : r.told = false) (s : State) (c : Nat) : collStep s c r = collCheck (collReported s c r) c := by
  unfold collStep
  simp [htold, hown, collReported]

theorem collReported_run (s : State) (c : Nat) (r : CollRun) :
    ((collReported s c r).comm c).run = some { r with told := true } := congrArg CommS.run (setColl_comm _ _ _)

theorem collReported_sends {s : State} {c : Nat} {r : CollRun} {m : Nat × Nat}
    (hm : m ∈ otherMembers (cdescOf r.req) r.chips) :
    Sent.readDone m.1 (cdescOf r.req).comm (cdescOf r.req).seq (cdescOf r.req).rank ∈ (collReported s c r).sent :=
  List.mem_append_right _ (List.mem_map_of_mem hm)

/-- Settles O33: a command accepts its request, starts it, or does the piece that its run has come to. -/
theorem collectives : Obligations.Collectives := by
  unfold Obligations.Collectives
  intro e he s slot o d ho hk hserves hd hearly hfinal
  subst hd
  have hdue := collDue_false hearly
  refine ⟨fun l hplace hon hfaults hread hrules => ?accept,
    fun chips rest hplace hn hrun hqueue hheld hnone => ?start, fun r hrun hslot hreq hruns hplace htags => ?running⟩
  case accept =>
    rw [exec_collRow he, collAdvance_accept ho hk hserves hfinal hdue hplace, collAccept_queues ho hon hfaults hread hrules]
  case start =>
    have hexec := exec_collRow he s slot
    rw [collAdvance_start ho hk hserves hfinal hdue (by simp [hplace]) hrun hqueue,
      collStart_begins hqueue hheld hnone] at hexec
    obtain ⟨hstore, hcore, hcomm, hop⟩ := joinsSent_spec (s := s.setComm (cdescOf o.payload).comm
      { s.comm (cdescOf o.payload).comm with queue := rest, run := some (collBegun s slot o.payload chips) })
      ho hn o.payload chips (cdescOf o.payload).members
    exact ⟨_, hexec, hstore, hcore, (hcomm _).trans (State.comm_setComm_same _ _ _), hop,
      fun j hj hne c hc => sendJoins_sends _ hj hne hc⟩
  case running =>
    have hstep := exec_collRow he s slot
    rw [collAdvance_step ho hk hserves hfinal hdue (by simp [hplace]) hrun hslot] at hstep
    rw [← hreq] at hstep hearly ⊢
    rw [← hslot] at hruns ⊢
    refine ⟨fun p keys l data tl s1 hnext hown hp hready hkeys hfetch hbytes hput => ?piece,
      fun hown htold => ⟨fun hopen => ?report, fun hwhole hall hsat hnon hwarn => ?done⟩⟩
    case piece =>
      have hput' := collPut_delivered hput
      rw [collStep_piece rfl htags hnext hown hp (pieceReady_of hready) hkeys hfetch hbytes hput] at hstep
      have hnow : s1.now = s.now := by rw [hput']; rfl
      obtain ⟨u, hu, hstore, ⟨x, hx, hcount, hxsat, hxnon, hdone⟩, hend⟩ := pieceDelivered_spec
        (c := (cdescOf r.req).comm) (o := o) ⟨(hput'.op _).trans hruns.1, hruns.2⟩ (by rw [hnow]; exact hearly) tl
      rw [← hu] at hstep
      exact ⟨u, hstep, hstore, ⟨x, hx, hcount, hxsat, hxnon, hdone.trans collWhole_iff⟩, hend⟩
    case report =>
      have hrun' := collReported_run s (cdescOf r.req).comm r
      have hnot : collWhole { r with told := true } = false := by
        rw [Bool.eq_false_iff, Ne, collWhole_iff]
        rintro ⟨-, hle, hall⟩
        rcases hopen with h | ⟨m, hm, hmiss⟩
        · exact absurd hle (Nat.not_le.mpr h)
        · exact hmiss (hall m hm)
      rw [collStep_report hown htold, collCheck_open hrun' hnot] at hstep
      exact ⟨_, hstep, rfl, hrun', fun m hm => collReported_sends hm⟩
    case done =>
      have hrun' := collReported_run s (cdescOf r.req).comm r
      obtain ⟨hended, hop⟩ := collCheck_clean (s := collReported s (cdescOf r.req).comm r) hrun'
        (collWhole_iff.mpr ⟨rfl, hwhole, hall⟩) (collDue_false hearly) hruns hsat hnon hwarn
      rw [collStep_report hown htold] at hstep
      exact ⟨_, hstep, hended.store, hended.run, hop⟩

end Sys2Proof.Machine
end
